-- ==== Sys2Proof/Word.lean ====
section
/-! DEFINITION. The word types of the device (R4) and the plainest arithmetic on them. -/

namespace Sys2Proof

/-- A byte, 8 bits (R4). -/
abbrev Byte := BitVec 8
/-- A half, 16 bits (R4). -/
abbrev Half := BitVec 16
/-- A word, 32 bits (R4). -/
abbrev Word := BitVec 32
/-- A dword, 64 bits (R4). -/
abbrev Dword := BitVec 64
/-- A lane mask: bit l stands for lane l (R7). -/
abbrev Mask := BitVec 64
/-- An instruction unit: 8 bytes (R4). -/
abbrev Unit64 := BitVec 64
/-- A code address in units: a 56-bit virtual address divided by 8 (R8). -/
abbrev Pc := BitVec 53

end Sys2Proof
end

