-- ==== Sys2Proof/Syntax.lean ====
section
/-! DEFINITION. The instructions, events and host commands of the device: one constructor of Instr per row of
spec/opcode_table.json. An instruction's fields stand as the manual lays them out in its format (R26-R32), after the codes
have been turned into names. -/

namespace Sys2Proof

/-- A 10-bit register operand (R13). Every code has a name. -/
inductive Opnd where
  | v (k : Fin 960) | s (k : Fin 48) | q (k : Fin 8)
  | zero | lane | wslot | core | clus | item | emlo | emhi
  deriving DecidableEq, Repr

/-- A 10-bit operand of a front-end instruction (R32). -/
inductive AOpnd where
  | a (k : Fin 32) | q (k : Fin 8) | zero
  deriving DecidableEq, Repr

/-- A mask register m0..m7 (R11). -/
abbrev MReg := Fin 8
/-- A scalar index 0..47. -/
abbrev SReg := Fin 48

/-- The types of format A (R26). -/
inductive Ty where
  | i32 | n32 | i64 | n64 | f32 | f16x2 | bf16x2
  deriving DecidableEq, Repr

/-- The rounding codes of format A (R26): the ACR default, five fixed modes and stochastic. -/
inductive Rnd where
  | dflt | rne | rtz | rdn | rup | rna | rs
  deriving DecidableEq, Repr

/-- Integer conditions (R56). -/
inductive Cond where
  | eq | ne | lt | le | gt | ge
  deriving DecidableEq, Repr

/-- Floating conditions (R85). -/
inductive FCond where
  | eq | ne | lt | le | gt | ge | un | or
  deriving DecidableEq, Repr

/-- Layouts of `idx2` and swizzles (R57, R152). -/
inductive Lay where
  | lin | t8 | xr
  deriving DecidableEq, Repr

/-- Conversion formats (R90). -/
inductive Fmt where
  | i32 | n32 | i64 | n64 | f32 | f16 | bf16 | e4m3 | e5m2 | e3m2 | e2m3 | e2m1 | e8m0 | ue4m3 | i8 | n8 | i4 | dp8
  deriving DecidableEq, Repr

/-- Packed destinations of `cvtpk` and sources of `unpk` (R93). -/
inductive PkFmt where
  | e4m3 | e5m2 | dp8 | i8 | ue4m3 | f16 | bf16
  deriving DecidableEq, Repr

/-- The seven scopes (R175). -/
inductive Scope where
  | warp | core | cluster | span | die | device | system
  deriving DecidableEq, Repr

/-- The order field of format M (R28) and of windows (R138). -/
inductive Ord4 where
  | plain | acq | rel | acqRel
  deriving DecidableEq, Repr

/-- Access widths of format M (R28). -/
inductive Width where
  | b8 | b16 | b32 | b64 | b128
  deriving DecidableEq, Repr

/-- The member mask of a cross-lane instruction (R115). -/
inductive Members where
  | all | m (k : MReg)
  deriving DecidableEq, Repr

inductive VoteMode where | mask | count | every | some | same deriving DecidableEq, Repr
inductive ShflMode where | idx | up | down | xor deriving DecidableEq, Repr
inductive FoldOp where | add | min | max | and | or | xor deriving DecidableEq, Repr
/-- Barrier kinds (R121). -/
inductive BarKind where | crew | braid | span | ss deriving DecidableEq, Repr
/-- Operations of `atom` (R166). -/
inductive AtomOp where
  | add | min | max | and | or | xor | exch | fadd | badd | inc
  deriving DecidableEq, Repr
/-- Window scopes (R136). -/
inductive WScope where | crew | braid | span deriving DecidableEq, Repr
/-- Modes of `tret` (R323). -/
inductive TretMode where | retry | skip | resume | kill deriving DecidableEq, Repr
/-- The condition of `brc`: a mask in a warp (R62), a register in a front-end context (R218). -/
inductive BrCond where
  | mask (m : MReg) (inv : Bool)
  | areg (k : Fin 32) (inv : Bool)
  deriving DecidableEq, Repr

/-- The front-end's integer types (R219). -/
inductive ATy where | i64 | n64 deriving DecidableEq, Repr
/-- The front-end's widths (R219). -/
inductive AWidth where | b8 | b16 | b32 | b64 deriving DecidableEq, Repr

/-- A clause header's fields (R21). -/
structure Header where
  cls : Fin 8
  cnt : Fin 16
  yld : Bool
  qwait : BitVec 8
  ldrn : Bool
  sack : Bool
  swen : Bool
  swk : BitVec 6
  swg : BitVec 6
  deriving DecidableEq, Repr

/-! Class 0, integer -/
structure BinS where (ty : Ty) (sat : Bool) (d a b : Opnd) deriving DecidableEq, Repr
structure Bin where (ty : Ty) (d a b : Opnd) deriving DecidableEq, Repr
structure TerS where (ty : Ty) (sat : Bool) (d a b c : Opnd) deriving DecidableEq, Repr
structure Ter where (ty : Ty) (d a b c : Opnd) deriving DecidableEq, Repr
structure DivF where (la : BitVec 4) (ty : Ty) (d a b : Opnd) deriving DecidableEq, Repr
structure UnS where (ty : Ty) (sat : Bool) (d a : Opnd) deriving DecidableEq, Repr
structure Un where (ty : Ty) (d a : Opnd) deriving DecidableEq, Repr
structure CarryF where (ty : Ty) (d a b : Opnd) (m : MReg) deriving DecidableEq, Repr
structure LutF where (ty : Ty) (d a b c : Opnd) (tbl : BitVec 8) deriving DecidableEq, Repr
structure CmpF where (ty : Ty) (cond : Cond) (m : MReg) (a b : Opnd) deriving DecidableEq, Repr
structure LeaF where (ty : Ty) (sh : Fin 8) (d a b c : Opnd) deriving DecidableEq, Repr
structure IdxF where (lay : Lay) (d a b c : Opnd) deriving DecidableEq, Repr
structure ImmF where (ty : Ty) (d a : Opnd) (imm : BitVec 32) deriving DecidableEq, Repr
structure MoviF where (ty : Ty) (d : Opnd) (imm : BitVec 32) deriving DecidableEq, Repr
structure CmpiF where (ty : Ty) (cond : Cond) (m : MReg) (a : Opnd) (imm : BitVec 29) deriving DecidableEq, Repr

/-! Class 0, floating -/
structure FArF where (ty : Ty) (rnd : Rnd) (na nb : Bool) (d a b z : Opnd) deriving DecidableEq, Repr
structure FmaF where (ty : Ty) (rnd : Rnd) (na nb nc : Bool) (d a b c : Opnd) deriving DecidableEq, Repr
structure FMinF where (ty : Ty) (na nb : Bool) (d a b : Opnd) deriving DecidableEq, Repr
structure FCmpF where (cond : FCond) (na nb : Bool) (m : MReg) (a b : Opnd) deriving DecidableEq, Repr
structure FClsF where (ty : Ty) (d a : Opnd) deriving DecidableEq, Repr
structure FRndF where (ty : Ty) (rnd : Rnd) (na : Bool) (d a : Opnd) deriving DecidableEq, Repr
/-- `rne` is the low bit of RND: codes 000 and 001 both mean RNE (R89). -/
structure SfuF where (la : BitVec 4) (ty : Ty) (rne : Bool) (na : Bool) (d a : Opnd) deriving DecidableEq, Repr
structure FDivF where (la : BitVec 4) (ty : Ty) (rne : Bool) (na nb : Bool) (d a b : Opnd) deriving DecidableEq, Repr
structure CvtF where (dst src : Fmt) (rnd : Rnd) (sat na : Bool) (d a z : Opnd) deriving DecidableEq, Repr
structure CvtpkF where (fmt : PkFmt) (rnd : Rnd) (sat na nb : Bool) (d a b z : Opnd) deriving DecidableEq, Repr
structure UnpkF where (fmt : PkFmt) (e : Fin 8) (d a : Opnd) deriving DecidableEq, Repr
structure RngF where (la : BitVec 4) (d a : Opnd) deriving DecidableEq, Repr
structure Smx3F where (rne : Bool) (d a b c : Opnd) deriving DecidableEq, Repr
structure Smx2F where (rne : Bool) (d a b : Opnd) deriving DecidableEq, Repr
structure DpmF where (ty : Ty) (rnd : Rnd) (na nc : Bool) (d a b c : Opnd) deriving DecidableEq, Repr

/-! Class 0, masks, and class 1 -/
structure MBinF where (d a b : MReg) deriving DecidableEq, Repr
structure MUnF where (d a : MReg) deriving DecidableEq, Repr
structure MCntF where (d : Opnd) (a : MReg) deriving DecidableEq, Repr
structure VoteF where (mode : VoteMode) (d : Opnd) (p : MReg) (mem : Members) deriving DecidableEq, Repr
structure ShflF where (mode : ShflMode) (ty : Ty) (d a b c : Opnd) (mem : Members) deriving DecidableEq, Repr
structure BcastF where (ty : Ty) (d a b c : Opnd) (mem : Members) deriving DecidableEq, Repr
structure FoldF where (op : FoldOp) (ty : Ty) (d a : Opnd) (mem : Members) deriving DecidableEq, Repr
structure CsampF where (d a b : Opnd) (mem : Members) deriving DecidableEq, Repr
structure MatchF where (ty : Ty) (d a : Opnd) (mem : Members) deriving DecidableEq, Repr
/-- `b1` is OPX = b - 1 (R116). -/
structure PlanF where (b1 : Fin 8) (d a : Opnd) deriving DecidableEq, Repr
structure XchF where (la : BitVec 4) (ty : Ty) (d a : Opnd) deriving DecidableEq, Repr

/-! Class 2 -/
structure MemF where
  (la : BitVec 4) (data idx : Opnd) (rcd : Fin 32) (width : Width) (sx : Bool) (scope : Scope) (ord : Ord4) (off : BitVec 17)
  deriving DecidableEq, Repr
structure AtomF where
  (la : BitVec 4) (op : AtomOp) (data idx : Opnd) (rcd : Fin 32) (width : Width) (sx : Bool) (scope : Scope) (ord : Ord4)
  (off : BitVec 13)
  deriving DecidableEq, Repr
structure FenceF where (scope : Scope) (ord : Ord4) deriving DecidableEq, Repr
structure PfchF where (idx : Opnd) (rcd : Fin 32) (width : Width) (scope : Scope) (off : BitVec 17) deriving DecidableEq, Repr
structure BrldF where (rcd : Fin 32) (idx : Opnd) deriving DecidableEq, Repr
structure BrmkF where (rcd src : Fin 32) (kr kw ka : Bool) (k : SReg) deriving DecidableEq, Repr

/-! Class 3 -/
structure LdxF where (ty : Ty) (lsel : Bool) (d a b : Opnd) deriving DecidableEq, Repr
structure StxF where (ty : Ty) (lsel : Bool) (a b c : Opnd) deriving DecidableEq, Repr
structure WexpF where (d a b c : Opnd) (r w l : Bool) (scope : WScope) deriving DecidableEq, Repr
structure WrevF where (a : Opnd) deriving DecidableEq, Repr
structure WinF where (la : BitVec 4) (ty : Ty) (d a b c : Opnd) (ord : Ord4) deriving DecidableEq, Repr
structure WgrantF where (a b : Opnd) (r w l tile : Bool) deriving DecidableEq, Repr
structure TallocF where (a b : Opnd) (z : Bool) deriving DecidableEq, Repr
structure TfreeF where (a : Opnd) deriving DecidableEq, Repr
structure GiveF where (a b : Opnd) (scope : Scope) (tile : Bool) deriving DecidableEq, Repr
structure TakeF where (d a b : Opnd) (tile : Bool) deriving DecidableEq, Repr
structure SyncF where (a b : Opnd) deriving DecidableEq, Repr
structure RrotF where (la : BitVec 4) (tile : Fin 32) deriving DecidableEq, Repr
structure GstatF where (d a b : Opnd) (tile : Fin 32) (isTile lsel : Bool) deriving DecidableEq, Repr
structure TgetF where (ty : Ty) (d a : Opnd) (tile : Fin 32) deriving DecidableEq, Repr
structure TsetF where (ty : Ty) (a b : Opnd) (tile : Fin 32) deriving DecidableEq, Repr
structure QstatF where (d : Opnd) (q : Fin 8) deriving DecidableEq, Repr

/-! Class 4: word 0's common fields (R30) and each command's own (R204-R254) -/
structure EHdr where (la : BitVec 4) (sync : BitVec 6) (stat : SReg) deriving DecidableEq, Repr
structure CopyF where
  (dir : BitVec 2) (scope : BitVec 3) (thn : Bool) (srec drec : Fin 32) (soff doff shp : BitVec 6)
  (stl : Bool) (stn : Fin 32) (dtl : Bool) (dtn : Fin 32)
  deriving DecidableEq, Repr
structure CopymcF where
  (regs : Bool) (scope : BitVec 3) (srec : Fin 32) (soff doff shp : BitVec 6) (stl : Bool) (stn : Fin 32)
  deriving DecidableEq, Repr
structure GathF where
  (red oor : BitVec 2) (dedup ordered : Bool) (fmt : BitVec 3) (isrc : Bool) (scope : BitVec 3)
  (trec irec : Fin 32) (isc bsc : BitVec 6) (brec : Fin 32) (nel : BitVec 12) (dsc : BitVec 6) (dtl : Bool) (dtn : Fin 32)
  deriving DecidableEq, Repr
structure ScataF where
  (oor : BitVec 2) (fmt : BitVec 3) (isrc : Bool) (scope : BitVec 3)
  (trec irec : Fin 32) (isc : BitVec 6) (nel : BitVec 12) (dsc : BitVec 6) (dtl : Bool) (dtn : Fin 32)
  deriving DecidableEq, Repr
structure TfillF where (pat doff len : BitVec 6) (dtl : Bool) (dtn : Fin 32) deriving DecidableEq, Repr
structure EseqF where (cnt : BitVec 24) deriving DecidableEq, Repr
structure MmaF where
  (mm nn : BitVec 6) (scope : BitVec 3) (da db : BitVec 8) (as_ : Bool) (aop : BitVec 6) (bs : Bool) (bop : BitVec 6)
  (ct : Fin 32) (acc sat : Bool) (ks gs : BitVec 6)
  deriving DecidableEq, Repr
/-- The fields of a context-store command (R254). -/
structure KvF where
  (res : BitVec 6) (scope : BitVec 3) (pol : BitVec 2) (part stg : Bool) (sa sb sc sd se : BitVec 6) (tl : Bool) (tn : Fin 32)
  deriving DecidableEq, Repr

/-- A class 4 command without its common fields: what `aeng` carries (R222). -/
inductive EngBody where
  | copy (f : CopyF) | copymc (f : CopymcF) | gath (f : GathF) | scata (f : ScataF) | mma (f : MmaF) | tfill (f : TfillF)
  | eseq (f : EseqF)
  | kvw (f : KvF) | kvld (f : KvF) | kvst (f : KvF) | kvfork (f : KvF) | splice (f : KvF) | rpopen (f : KvF) | rpstat (f : KvF)
  | rpcancel (f : KvF) | kvfree (f : KvF)
  deriving DecidableEq, Repr

/-! Class 5 -/
structure LaunchF where (d a : SReg) (b : Option SReg) (t dep : Bool) deriving DecidableEq, Repr
structure WdaskF where (la : BitVec 4) (d : SReg) (a : Opnd) deriving DecidableEq, Repr
structure RingAcqF where (la : BitVec 4) (d a : SReg) (c : Bool) (scope : Scope) deriving DecidableEq, Repr
structure RingCmtF where (a : SReg) (b : Opnd) (cl : Bool) (scope : Scope) deriving DecidableEq, Repr
structure RingPeekF where (d a : SReg) (c : Bool) deriving DecidableEq, Repr
structure RingRelF where (a : SReg) (b : Opnd) (scope : Scope) deriving DecidableEq, Repr
structure GfireF where (a : SReg) (b : Option SReg) (start : Bool) deriving DecidableEq, Repr
structure GnodeF where (d a : SReg) deriving DecidableEq, Repr

/-! Class 6 -/
structure TretF where (step : Bool) (mode : TretMode) deriving DecidableEq, Repr
structure CsrF where (k : SReg) (csr : BitVec 12) deriving DecidableEq, Repr
structure DrainF where (ld st eng : Bool) deriving DecidableEq, Repr

/-! Class 7 -/
structure ABinF where (d a b : AOpnd) deriving DecidableEq, Repr
structure AShrF where (ty : ATy) (d a b : AOpnd) deriving DecidableEq, Repr
structure ACmpF where (ty : ATy) (cond : Cond) (d a b : AOpnd) deriving DecidableEq, Repr
structure AMovF where (d a : AOpnd) (warp : Fin 32) deriving DecidableEq, Repr
structure AMoviF where (ty : ATy) (d : AOpnd) (imm : BitVec 32) deriving DecidableEq, Repr
structure AldF where (d a : AOpnd) (rcd : Fin 32) (width : AWidth) deriving DecidableEq, Repr
structure AstF where (a b : AOpnd) (rcd : Fin 32) (width : AWidth) deriving DecidableEq, Repr
structure ApushF where (q : Fin 4) (a b : AOpnd) (warp : Fin 32) deriving DecidableEq, Repr
structure ApushmF where (q : Fin 4) (a : AOpnd) (rcd : Fin 32) (warp : Fin 32) deriving DecidableEq, Repr
structure ApopF where (d : Fin 32) (q : Fin 4) (warp : Fin 32) deriving DecidableEq, Repr
structure AkvwF where (d : Fin 32) (a b c : AOpnd) deriving DecidableEq, Repr
structure AengF where (sync : BitVec 6) (stat : SReg) (wt : Fin 32) (body : EngBody) deriving DecidableEq, Repr
structure AwaitF where (a : AOpnd) (k : BitVec 6) (warp : Fin 32) deriving DecidableEq, Repr

/-! Control -/
structure BrcF where (cond : BrCond) (tgt : BitVec 24) (join : BitVec 20) deriving DecidableEq, Repr
structure BrxF where (off : BitVec 24) (idx : Opnd) deriving DecidableEq, Repr
structure LoopF where (k : BitVec 6) (tgt : BitVec 24) deriving DecidableEq, Repr

/-! Events and host commands -/

/-- A party that issues instructions: a strand of a warp (the warp's number is core × 32 + slot), or the front-end context of
a crew. -/
inductive Agent where
  | strand (warp sid : Nat) | fe (crew : Nat) | nobody
  deriving DecidableEq, Repr

/-- The mailbox a command arrives at (R373, R374): the device's, a partition's, or any port with no session. -/
inductive Mailbox where
  | device | part (n : Nat) | port
  deriving DecidableEq, Repr

/-- A command as the mailbox receives it: the mailbox, the sender's device address and the 32-byte header (R373). -/
structure HostHdr where
  box : Mailbox
  src : BitVec 64
  raw : BitVec 256
  deriving DecidableEq, Repr

/-- What PREEMPT_ACKNOWLEDGE names: one party of a context (R347). -/
inductive Party where
  | agent (a : Agent) | command (id : Nat) | graph (g : Nat) | job (die slot : Nat)
  deriving DecidableEq, Repr

/-- A peer's request as it arrives (R370, R371): target context, key, kind, and the fields of the work request it carries. -/
structure PeerReq where
  (ctx : Nat) (key : BitVec 64) (op : BitVec 8) (rva : Nat) (bytes : List Byte) (len : Nat) (sva : Nat) (sadd : BitVec 64)
  deriving DecidableEq, Repr

/-- One page-table entry that MAP writes: the virtual address it serves, its level and its value (R155, R156, R374). -/
structure PteWrite where
  (va : Nat) (level : Nat) (entry : BitVec 64)
  deriving DecidableEq, Repr

/-- One entry of a context's peer table (R369). -/
structure Peer where
  (dev : BitVec 64) (part ctx : Nat) (key : BitVec 64)
  deriving DecidableEq, Repr

structure PartCreateF where
  (num : Nat) (clusters : List (Nat × BitVec 72)) (host : BitVec 64) (gatePool : Nat)
  deriving DecidableEq, Repr
structure StitchF where (part die : Nat) (bitmap : BitVec 72) (shape : BitVec 16) deriving DecidableEq, Repr
structure CtxCreateF where
  (asid : BitVec 16) (root : Nat) (sendRing : Nat) (peers : List Peer) (sysScope : Bool)
  deriving DecidableEq, Repr
structure QosF where
  (part : Nat) (quanta : List Nat) (budgets : List (Nat × Nat × Nat))
  deriving DecidableEq, Repr
structure SubmitF where (graph : Nat) (arg : BitVec 64) (pred : Option Nat) deriving DecidableEq, Repr
/-- SIGNAL delivers a token to a node, or closes a ring (R374). -/
inductive SignalF where | token (node : Nat) | close (ring : Nat) deriving DecidableEq, Repr
/-- WAIT's condition: a graph that ends, or a word that differs from a value (R374). -/
inductive WaitFor where | graph (va : Nat) | word (va : Nat) (value : BitVec 32) deriving DecidableEq, Repr
structure WaitF where (cond : WaitFor) (timeout : Nat) deriving DecidableEq, Repr
structure TierF where (tier : Nat) (pin : List (Nat × Nat)) deriving DecidableEq, Repr
structure ModelF where (slot : Fin 16) (rcd : BitVec 1024) deriving DecidableEq, Repr

/-- One row of spec/opcode_table.json each, in the table's order but for the host commands and a few events, which stand last. -/
inductive Instr where
  | clauseHeader (h : Header)
  | queueWaitWatchdog (a : Agent)
  | longLatencyCompletion (a : Agent) (op : Nat) (early : List Nat)
  | add (f : BinS) | sub (f : BinS) | mul (f : BinS) | mulhi (f : Bin) | mad (f : TerS) | div (f : DivF) | rem (f : DivF)
  | min (f : Bin) | max (f : Bin) | abs (f : UnS) | neg (f : UnS) | addcy (f : CarryF) | subbw (f : CarryF)
  | shl (f : Bin) | shr (f : Bin) | rot (f : Bin) | and (f : Bin) | or (f : Bin) | xor (f : Bin) | not (f : Un) | andn (f : Bin)
  | bfx (f : Bin) | bfi (f : Ter) | popc (f : Un) | clz (f : Un) | brev (f : Un) | lut3 (f : LutF) | cmp (f : CmpF)
  | sel (f : CarryF) | mov (f : Un) | lea (f : LeaF) | idx2 (f : IdxF)
  | movi (f : MoviF) | addi (f : ImmF) | muli (f : ImmF) | andi (f : ImmF) | ori (f : ImmF) | xori (f : ImmF) | shli (f : ImmF)
  | shri (f : ImmF) | cmpi (f : CmpiF)
  | fadd (f : FArF) | fsub (f : FArF) | fmul (f : FArF) | fma (f : FmaF) | fmin (f : FMinF) | fmax (f : FMinF) | fminn (f : FMinF)
  | fmaxn (f : FMinF) | fcmp (f : FCmpF) | fclass (f : FClsF) | frnd (f : FRndF) | fdot2 (f : FmaF)
  | rcp (f : SfuF) | rsqrt (f : SfuF) | sqrt (f : SfuF) | exp2 (f : SfuF) | log2 (f : SfuF) | sin (f : SfuF) | cos (f : SfuF)
  | tanh (f : SfuF) | fdiv (f : FDivF)
  | cvt (f : CvtF) | cvtpk (f : CvtpkF) | unpk (f : UnpkF) | rng (f : RngF)
  | smxStep (f : Smx3F) | smxMerge (f : Smx2F) | smxNorm (f : Smx2F) | rope (f : Smx3F) | dpmul (f : DpmF)
  | mand (f : MBinF) | mor (f : MBinF) | mxor (f : MBinF) | mnot (f : MUnF) | mpop (f : MCntF) | mffs (f : MCntF)
  | emget (d : MReg) | emset (a : MReg)
  | vote (f : VoteF) | shfl (f : ShflF) | bcast (f : BcastF) | scan (f : FoldF) | redux (f : FoldF) | csamp (f : CsampF)
  | matchx (f : MatchF) | plpk (f : PlanF) | plunpk (f : PlanF) | xch (f : XchF)
  | xchDeadline (warp : Nat)
  | bar (k : BarKind)
  | barrierRelease (warp : Nat) (k : BarKind)
  | barrierTimeout (a : Agent)
  | ld (f : MemF) | st (f : MemF) | lds (f : MemF) | sts (f : MemF) | atom (f : AtomF) | cas (f : MemF) | waita (f : MemF)
  | waitaTimeout (a : Agent)
  | fence (f : FenceF) | pfch (f : PfchF) | brld (f : BrldF) | brmk (f : BrmkF)
  | memoryAccessPerformed (acc : Nat) (order : List Nat)
  | storeAcknowledged (acc : Nat)
  | pageWalk (walk : Nat)
  | walkTimeout (walk : Nat)
  | migration (die : Nat) (frames : List Nat)
  | migrationComplete (mig : Nat)
  | ldx (f : LdxF) | stx (f : StxF) | wexp (f : WexpF) | wrev (f : WrevF) | wrd (f : WinF) | wwr (f : WinF)
  | windowRequest (req : Nat)
  | wgrant (f : WgrantF) | talloc (f : TallocF) | tfree (f : TfreeF) | give (f : GiveF) | take (f : TakeF) | waitg (f : SyncF)
  | syncset (f : SyncF) | rrot (f : RrotF)
  | rrotDeadline (crew : Nat)
  | rrotCompletion (crew : Nat)
  | gstat (f : GstatF) | fmask (d : MReg) | tget (f : TgetF) | tset (f : TsetF) | qstat (f : QstatF) | qmark (q : Fin 8)
  | copy (h : EHdr) (f : CopyF) | copymc (h : EHdr) (f : CopymcF) | gath (h : EHdr) (f : GathF) | scata (h : EHdr) (f : ScataF)
  | mma (h : EHdr) (f : MmaF) | tfill (h : EHdr) (f : TfillF) | eseq (h : EHdr) (f : EseqF)
  | engineQueueAccept (a : Agent)
  | engineLanding (cmd : Nat)
  | engineCommandEnd (cmd : Nat)
  | engineCommandFail (cmd : Nat)
  | windowCopyCheck (cmd target : Nat)
  | bankPartialArrival (cmd bag port : Nat)
  | mmaKgroup (core : Nat)
  | mmaStart (cmd : Nat)
  | kvw (h : EHdr) (f : KvF) | kvld (h : EHdr) (f : KvF) | kvst (h : EHdr) (f : KvF) | kvfork (h : EHdr) (f : KvF)
  | splice (h : EHdr) (f : KvF) | rpopen (h : EHdr) (f : KvF)
  | repairJobStart (cmd : Nat)
  | repairGraphEnd (die slot : Nat)
  | rpstat (h : EHdr) (f : KvF) | rpcancel (h : EHdr) (f : KvF) | kvfree (h : EHdr) (f : KvF)
  | launch (f : LaunchF)
  | launchWaitTimeout (a : Agent)
  | wdask (f : WdaskF)
  | workDistributorAnswer (die : Nat)
  | ringAcq (f : RingAcqF) | ringCmt (f : RingCmtF) | ringPeek (f : RingPeekF) | ringRel (f : RingRelF)
  | ringWaitSatisfied (a : Agent)
  | pipelineReassign (launch stage : Nat)
  | gfire (f : GfireF) | gnode (f : GnodeF) | gcancel (f : GnodeF) | hnext | waitpred | yield | prio (a : Opnd)
  | graphNodeEnd (work : Nat)
  | graphCancelWalkStep (walk : Nat)
  | arbiterRun (die : Nat)
  | crewEnd (crew : Nat)
  | frontEndStallWatchdog (crew : Nat)
  | aadd (f : ABinF) | asub (f : ABinF) | amul (f : ABinF) | ashl (f : ABinF) | ashr (f : AShrF) | aand (f : ABinF) | aor (f : ABinF)
  | axor (f : ABinF) | acmp (f : ACmpF) | amov (f : AMovF) | amovi (f : AMoviF) | ald (f : AldF) | ast (f : AstF)
  | apush (f : ApushF) | apushm (f : ApushmF) | apop (f : ApopF) | akvw (f : AkvwF) | aeng (f : AengF) | await (f : AwaitF) | aend
  | trap (n : Fin 16) | tret (f : TretF) | tkill (m : MReg) | csrrd (f : CsrF) | csrwr (f : CsrF) | tlbinv (va : Option SReg)
  | drain (f : DrainF) | gcall (g : BitVec 10) | gret
  | gateTimeout (warp dom : Nat)
  | bra (tgt : BitVec 24) | brc (f : BrcF) | brx (f : BrxF) | call (tgt : BitVec 24) | callx (f : BrxF) | ret | loop (f : LoopF)
  | endl
  | handlerTimeout (a : Agent)
  | noticeAnswerTimeout (ctx : Nat)
  | contextRungTimeout (ctx : Nat)
  | partitionResetTimeout (part : Nat)
  | registerSoftError (core addr : Nat)
  | instructionStoreSoftError (die clus : Nat)
  | memorySoftError (line : Nat)
  | shadowStoreSoftError (die ctx : Nat)
  | tlbSoftError (core entry : Nat)
  | portDown (port : Nat)
  | preemptAcknowledge (ctx : Nat) (p : Party)
  | preemptionTimeout (ctx : Nat)
  | partitionSwap (out : Nat) (inn : Option Nat)
  | networkRequest (ctx : Nat)
  | networkCompletion (req : Nat) (cause : Nat) (data : List Byte)
  | peerRequestReceived (r : PeerReq)
  | illegalOpcode (w : BitVec 64)
  | waitTimeout (wait : Nat)
  | hello (h : HostHdr) (sig : BitVec 912)
  | measure (h : HostHdr)
  | attest (h : HostHdr) (nonce : BitVec 256)
  | partCreate (h : HostHdr) (f : PartCreateF)
  | partDestroy (h : HostHdr) (part : Nat)
  | partStitch (h : HostHdr) (f : StitchF)
  | ctxCreate (h : HostHdr) (f : CtxCreateF)
  | ctxDestroy (h : HostHdr)
  | map (h : HostHdr) (l : List PteWrite)
  | unmap (h : HostHdr) (l : List Nat)
  | write (h : HostHdr) (va : Nat) (bytes : List Byte)
  | read (h : HostHdr) (va len : Nat)
  | gateInstall (h : HostHdr) (idx : BitVec 10) (image : BitVec 512)
  | graphSubmit (h : HostHdr) (f : SubmitF)
  | graphStatus (h : HostHdr) (graph : Nat)
  | signal (h : HostHdr) (f : SignalF)
  | wait (h : HostHdr) (f : WaitF)
  | qosSet (h : HostHdr) (f : QosF)
  | preempt (h : HostHdr) (swapIn : Option Nat)
  | resume (h : HostHdr)
  | kill (h : HostHdr)
  | tierPolicy (h : HostHdr) (f : TierF)
  | repairModel (h : HostHdr) (f : ModelF)
  | stats (h : HostHdr)
  | powerOn
  | dieLinkRetriesExhausted
  | thermalStop | powerStop | clockStop
  | firmwareWatchdog
  | weirWindow
  deriving DecidableEq, Repr

end Sys2Proof
end

