-- ==== Sys2Proof/WellFormed.lean ====
section
/-! DEFINITION. Which instructions an encoding can stand for: the checks on fields that the manual answers with cause 0x11
(R15, R39), read off the fields alone. The decoder answers with well-formed instructions only. -/

namespace Sys2Proof

/-- The 64-bit types name register pairs (R10). -/
def Ty.wide : Ty → Bool
  | .i64 | .n64 => true
  | _ => false

/-- *int* of R43. -/
def Ty.int : Ty → Bool
  | .i32 | .n32 | .i64 | .n64 => true
  | _ => false

/-- *I* of R43: the signed integer types. -/
def Ty.signed : Ty → Bool
  | .i32 | .i64 => true
  | _ => false

/-- *N* of R43: the unsigned integer types. -/
def Ty.unsigned : Ty → Bool
  | .n32 | .n64 => true
  | _ => false

/-- *fp* of R83. -/
def Ty.fp : Ty → Bool
  | .f32 | .f16x2 | .bf16x2 => true
  | _ => false

namespace Opnd

/-- A source of 32 bits: every code is one; the queue directions are checked at issue (R13). -/
def srcOk (_ : Opnd) : Bool := true

/-- A source pair: an even base, a queue, or a special operand but `emhi` (R10). -/
def srcPair : Opnd → Bool
  | v k => k.val % 2 == 0
  | s k => k.val % 2 == 0
  | emhi => false
  | _ => true

/-- A destination: no special operand but zero (R13). -/
def dstOk : Opnd → Bool
  | v _ | s _ | q _ | zero => true
  | _ => false

/-- A destination pair (R10, R13). -/
def dstPair : Opnd → Bool
  | v k => k.val % 2 == 0
  | s k => k.val % 2 == 0
  | q _ | zero => true
  | _ => false

/-- A base of n registers, a multiple of `al`, inside one register kind (R82). -/
def rangeOk (al n : Nat) : Opnd → Bool
  | v k => k.val % al == 0 && decide (k.val + n ≤ 960)
  | s k => k.val % al == 0 && decide (k.val + n ≤ 48)
  | _ => false

def isScalar : Opnd → Bool
  | s _ => true
  | _ => false

/-- "Scalar, special or zero" of R164; q4..q7 pass here and raise cause 0x2C at issue. -/
def uniformIdx : Opnd → Bool
  | v _ => false
  | q k => decide (4 ≤ k.val)
  | _ => true

/-- A source of the type's width. -/
def srcTy (t : Ty) (o : Opnd) : Bool := if t.wide then o.srcPair else o.srcOk
/-- A destination of the type's width. -/
def dstTy (t : Ty) (o : Opnd) : Bool := if t.wide then o.dstPair else o.dstOk

end Opnd

/-- An operand of a front-end instruction that names no queue (R219). -/
def AOpnd.plain : AOpnd → Bool
  | .q _ => false
  | _ => true

def Rnd.notRs (r : Rnd) : Bool := r != .rs

def Fmt.isInt : Fmt → Bool
  | .i32 | .n32 | .i64 | .n64 | .i8 | .n8 | .i4 => true
  | _ => false
def Fmt.wide : Fmt → Bool
  | .i64 | .n64 => true
  | _ => false

/-- `z` stands in SRCC under RND 110 and the field is unused otherwise (R83, R91). -/
def zOk (r : Rnd) (z : Opnd) : Bool := r == .rs || z == .zero

/-- The data register of a class 2 access as a destination, by width (R28). -/
def dataDst (w : Width) (o : Opnd) : Bool :=
  match w with
  | .b128 => o == .zero || o.rangeOk 4 4
  | .b64 => o.dstPair
  | _ => o.dstOk
/-- The data register of a store, by width (R28). -/
def dataSrc (w : Width) (o : Opnd) : Bool :=
  match w with
  | .b128 => o == .zero || o.rangeOk 4 4
  | .b64 => o.srcPair
  | _ => o.srcOk
/-- `atom` reads and writes DATA. -/
def dataBoth (w : Width) (o : Opnd) : Bool := dataDst w o && dataSrc w o

/-- SX is permitted for b8 and b16 loads (R164). -/
def sxOk (w : Width) (sx : Bool) : Bool := !sx || w == .b8 || w == .b16

/-- A plain load or store has SCOPE 0 (R164). -/
def plainScope (o : Ord4) (s : Scope) : Bool := o != .plain || s == .warp

def evenS (k : SReg) : Bool := k.val % 2 == 0
def evenSO : Option SReg → Bool
  | none => true
  | some k => evenS k

/-- Fields of `copy` that the direction does not use are 0 (R204). -/
def CopyF.wf (f : CopyF) : Bool :=
  (f.stl || f.stn.val == 0) && (f.dtl || f.dtn.val == 0) &&
  match f.dir.toNat with
  | 0 => f.drec.val == 0 && !f.stl
  | 1 => f.srec.val == 0 && !f.dtl
  | 2 => f.srec.val == 0 && f.drec.val == 0 && !f.dtl
  | _ => !f.stl && !f.dtl
/-- The memory form uses SREC, the register form STL and STN (R209). -/
def CopymcF.wf (f : CopymcF) : Bool :=
  (f.stl || f.stn.val == 0) && if f.regs then f.srec.val == 0 else !f.stl
/-- Under ISRC 1 the index and bag-offset records are 0 (R213). -/
def GathF.wf (f : GathF) : Bool :=
  (f.dtl || f.dtn.val == 0) && (!f.isrc || (f.irec.val == 0 && f.brec.val == 0))
def ScataF.wf (f : ScataF) : Bool :=
  (f.dtl || f.dtn.val == 0) && (!f.isrc || f.irec.val == 0)
def TfillF.wf (f : TfillF) : Bool := f.dtl || f.dtn.val == 0

/-- A context-store command: SCOPE 7 and POL 11 raise cause 0x11, and a field it does not use is 0 (R254, R255). The arguments
say which fields it uses. -/
def KvF.wfWith (f : KvF) (res pol part stg sb sc sd se tile : Bool) : Bool :=
  f.scope != 7 && f.pol != 3 &&
  (res || f.res == 0) && (pol || f.pol == 0) && (part || !f.part) && (stg || !f.stg) &&
  (sb || f.sb == 0) && (sc || f.sc == 0) && (sd || f.sd == 0) && (se || f.se == 0) &&
  (tile || (!f.tl && f.tn.val == 0)) && (f.tl || f.tn.val == 0)

def EngBody.wf : EngBody → Bool
  | .copy f => f.wf
  | .copymc f => f.wf
  | .gath f => f.wf
  | .scata f => f.wf
  | .mma _ => true
  | .tfill f => f.wf
  | .eseq _ => true
  | .kvw f => f.wfWith true false false false true true false false false
  | .kvld f => f.wfWith false true true false true true true true true
  | .kvst f => f.wfWith false false true true true true true true true
  | .kvfork f => f.wfWith true false false false true true true false false
  | .splice f => f.wfWith false false false false true true false false false
  | .rpopen f => f.wfWith true false false false true true true true false
  | .rpstat f => f.wfWith true false false false false false false false false
  | .rpcancel f => f.wfWith false false false false false false false false false
  | .kvfree f => f.wfWith false false false false false false false false false

namespace Instr

/-- The checks that an encoding must pass (cause 0x11 otherwise). Events and host commands have no such fields. -/
def wf : Instr → Bool
  | add f | sub f | mul f => f.ty.int && f.d.dstTy f.ty && f.a.srcTy f.ty && f.b.srcTy f.ty
  | mulhi f | min f | max f | and f | or f | xor f | andn f =>
      f.ty.int && f.d.dstTy f.ty && f.a.srcTy f.ty && f.b.srcTy f.ty
  | mad f => f.ty.int && f.d.dstTy f.ty && f.a.srcTy f.ty && f.b.srcTy f.ty && f.c.srcTy f.ty
  | div f | rem f => f.ty.int && f.d.dstTy f.ty && f.a.srcTy f.ty && f.b.srcTy f.ty
  | abs f | neg f => f.ty.signed && f.d.dstTy f.ty && f.a.srcTy f.ty
  | addcy f | subbw f => f.ty.unsigned && f.d.dstTy f.ty && f.a.srcTy f.ty && f.b.srcTy f.ty
  | shl f | shr f | rot f | bfx f => f.ty.int && f.d.dstTy f.ty && f.a.srcTy f.ty
  | not f | popc f | clz f | brev f => f.ty.int && f.d.dstTy f.ty && f.a.srcTy f.ty
  | bfi f => f.ty.int && f.d.dstTy f.ty && f.a.srcTy f.ty && f.c.srcTy f.ty
  | lut3 f => f.ty.int && f.d.dstTy f.ty && f.a.srcTy f.ty && f.b.srcTy f.ty && f.c.srcTy f.ty
  | cmp f => f.ty.int && f.a.srcTy f.ty && f.b.srcTy f.ty
  | sel f => f.d.dstTy f.ty && f.a.srcTy f.ty && f.b.srcTy f.ty
  | mov f => f.d.dstTy f.ty && f.a.srcTy f.ty
  | lea f => f.ty.wide && f.d.dstPair && f.a.srcPair
  | idx2 f => f.d.dstOk
  | movi f => f.d.dstTy f.ty
  | addi f | muli f | andi f | ori f | xori f | shli f | shri f => f.ty.int && f.d.dstTy f.ty && f.a.srcTy f.ty
  | cmpi f => f.ty.int && f.a.srcTy f.ty
  | fadd f | fsub f | fmul f => f.ty.fp && f.d.dstOk && zOk f.rnd f.z
  | fma f => f.ty.fp && f.rnd.notRs && f.d.dstOk
  | fmin f | fmax f | fminn f | fmaxn f => f.ty.fp && f.d.dstOk
  | fcmp _ => true
  | fclass f => f.ty.fp && f.d.dstOk
  | frnd f => f.ty.fp && f.rnd.notRs && f.d.dstOk
  | fdot2 f => (f.ty == .f16x2 || f.ty == .bf16x2) && f.rnd.notRs && f.d.dstOk
  | rcp f | rsqrt f | sqrt f | exp2 f | log2 f | sin f | cos f | tanh f => f.ty.fp && f.d.dstOk
  | fdiv f => f.ty.fp && f.d.dstOk
  | cvt f =>
      (if f.dst.wide then f.d.dstPair else f.d.dstOk) && (if f.src.wide then f.a.srcPair else true) &&
      (!f.na || !f.src.isInt) && zOk f.rnd f.z && (f.dst != .e8m0 || f.rnd.notRs) &&
      (f.dst != .dp8 || f.rnd == .dflt || f.rnd == .rne)
  | cvtpk f => f.d.dstOk && zOk f.rnd f.z && (f.fmt != .dp8 || f.rnd == .dflt || f.rnd == .rne)
  | unpk f => f.d.dstOk && (if f.fmt == .f16 || f.fmt == .bf16 then decide (f.e.val < 2) else decide (f.e.val < 4))
  | rng f => f.d.rangeOk 4 4 && f.a.rangeOk 4 4
  | smxStep f => f.d.rangeOk 4 4
  | smxMerge f => f.d.rangeOk 1 3 && f.a.rangeOk 1 3 && f.b.rangeOk 1 3
  | smxNorm f => f.d.dstOk
  | rope f => f.d.rangeOk 2 2 && f.a.rangeOk 2 2
  | dpmul f => f.ty.fp && f.rnd.notRs && f.d.dstOk
  | mpop f | mffs f => f.d.dstOk
  | vote f => if f.mode == .mask then f.d.dstPair else f.d.dstOk
  | shfl f => f.d.dstTy f.ty && f.a.srcTy f.ty && f.c.srcTy f.ty
  | bcast f => f.d.dstTy f.ty && f.a.srcTy f.ty && f.c.srcTy f.ty
  | scan f | redux f =>
      f.d.dstTy f.ty && f.a.srcTy f.ty && (!f.ty.fp || f.op == .add || f.op == .min || f.op == .max)
  | csamp f => f.d.dstOk
  | matchx f => f.ty.unsigned && f.d.dstPair && f.a.srcTy f.ty
  | plpk f => f.d.rangeOk 1 ((f.b1.val + 2) / 2) && f.a.rangeOk 1 16
  | plunpk f => f.d.rangeOk 1 16 && f.a.rangeOk 1 ((f.b1.val + 2) / 2)
  | xch f => f.ty.unsigned && f.d.dstTy f.ty && f.a.srcTy f.ty
  | ld f => dataDst f.width f.data && sxOk f.width f.sx && (f.ord == .plain || f.ord == .acq) && plainScope f.ord f.scope
  | st f => f.la == 0 && dataSrc f.width f.data && !f.sx && (f.ord == .plain || f.ord == .rel) && plainScope f.ord f.scope
  | lds f =>
      dataDst f.width f.data && sxOk f.width f.sx && (f.ord == .plain || f.ord == .acq) && plainScope f.ord f.scope &&
      f.idx.uniformIdx
  | sts f =>
      f.la == 0 && dataSrc f.width f.data && !f.sx && (f.ord == .plain || f.ord == .rel) && plainScope f.ord f.scope &&
      f.idx.uniformIdx
  | atom f =>
      (f.width == .b32 || (f.width == .b64 && f.op != .fadd && f.op != .badd)) && dataBoth f.width f.data &&
      (!f.sx || f.op == .min || f.op == .max)
  | cas f =>
      ((f.width == .b32 && f.data.rangeOk 2 2) || (f.width == .b64 && f.data.rangeOk 4 4)) && !f.sx
  | waita f => !f.sx && (f.ord == .plain || f.ord == .acq)
  | fence f => f.ord != .plain
  | pfch _ => true
  | brld f => f.idx.uniformIdx
  | brmk f => f.k.val % 4 == 0 && decide (f.k.val ≤ 44)
  | ldx f => f.ty.unsigned && f.d.dstTy f.ty && (f.lsel || f.b == .zero)
  | stx f => f.ty.unsigned && f.c.srcTy f.ty && (f.lsel || f.b == .zero)
  | wexp f => f.d.dstOk && (f.r || f.w || f.l) && (f.l == (f.c != .zero))
  | wrd f => f.ty.unsigned && f.d.dstTy f.ty && (f.ord == .plain || f.ord == .acq)
  | wwr f => f.ty.unsigned && f.d.srcTy f.ty && (f.ord == .plain || f.ord == .rel)
  | wgrant f => if f.tile then !f.r && !f.w && !f.l else f.b == .zero
  | give f => !f.tile || f.b == .zero
  | take f => f.d.dstOk && (!f.tile || f.b == .zero)
  | gstat f => f.d.dstOk && (if f.isTile then !f.lsel else f.tile.val == 0) && (f.lsel || f.b == .zero)
  | tget f => f.ty.unsigned && f.d.dstTy f.ty
  | tset f => f.ty.unsigned && f.b.srcTy f.ty
  | qstat f => f.d.dstOk
  | copy _ f => f.wf
  | copymc _ f => f.wf
  | gath _ f => f.wf
  | scata _ f => f.wf
  | tfill _ f => f.wf
  | kvw _ f => (EngBody.kvw f).wf
  | kvld _ f => (EngBody.kvld f).wf
  | kvst _ f => (EngBody.kvst f).wf
  | kvfork _ f => (EngBody.kvfork f).wf
  | splice _ f => (EngBody.splice f).wf
  | rpopen _ f => (EngBody.rpopen f).wf
  | rpstat _ f => (EngBody.rpstat f).wf
  | rpcancel _ f => (EngBody.rpcancel f).wf
  | kvfree _ f => (EngBody.kvfree f).wf
  | launch f => evenS f.a && evenSO f.b
  | ringAcq f => evenS f.a
  | ringCmt f => evenS f.a
  | ringPeek f => evenS f.a
  | ringRel f => evenS f.a
  | gfire f => evenS f.a && evenSO f.b
  | gnode f | gcancel f => evenS f.a
  | csrrd f | csrwr f => evenS f.k
  | tlbinv va => evenSO va
  | drain f => f.ld || f.st || f.eng
  | aadd f | asub f | amul f | ashl f | aand f | aor f | axor f => f.d.plain && f.a.plain && f.b.plain
  | ashr f => f.d.plain && f.a.plain && f.b.plain
  | acmp f => f.d.plain && f.a.plain && f.b.plain
  | amov f =>
      (match f.d with | .q k => decide (k.val < 4) | _ => true) && (match f.a with | .q k => decide (4 ≤ k.val) | _ => true) &&
      (f.warp.val == 0 || !f.d.plain || !f.a.plain)
  | amovi f => f.d.plain
  | ald f => f.d.plain && f.a.plain
  | ast f => f.a.plain && f.b.plain
  | apush f => f.a.plain && f.b.plain
  | apushm f => f.a.plain
  | akvw f => decide (f.d.val ≤ 28) && f.a.plain && f.b.plain && f.c.plain
  | aeng f => f.body.wf
  | await f => f.a.plain && decide (f.k.toNat % 2 = 0) && decide (f.k.toNat ≤ 46)
  | brc f => match f.cond with
    | .mask _ _ => true
    | .areg _ _ => f.join == 0
  | loop f => decide (f.k.toNat < 48)
  | clauseHeader h =>
      !h.swen || (decide (h.swk.toNat % 2 = 0) && decide (h.swk.toNat ≤ 46) && decide (h.swg.toNat ≤ 47))
  | _ => true

end Instr

end Sys2Proof
end

