-- ==== Sys2Proof/Decode.lean ====
section
/-! DEFINITION. The decoder, total on any unit, and after it the encoder, both written from the format tables of R21 and
R26-R32 and from each instruction's own field table. A unit is decoded in the class of its clause (R37). -/

namespace Sys2Proof.Codec

/-! ## Codes -/

/-- The code of `zero` (R13, R15, R32). -/
abbrev codeZ : BitVec 10 := 0x3F8#10

/-- R13: every 10-bit code names something. -/
def opnd (c : BitVec 10) : Opnd :=
  if h : c.toNat < 960 then .v ⟨c.toNat, h⟩
  else if h : c.toNat - 960 < 48 then .s ⟨c.toNat - 960, h⟩
  else if h : c.toNat - 1008 < 8 then .q ⟨c.toNat - 1008, h⟩
  else match c.toNat - 1016 with
    | 0 => .zero | 1 => .lane | 2 => .wslot | 3 => .core | 4 => .clus | 5 => .item | 6 => .emlo | _ => .emhi

def opndCode : Opnd → BitVec 10
  | .v k => BitVec.ofNat 10 k.val
  | .s k => BitVec.ofNat 10 (960 + k.val)
  | .q k => BitVec.ofNat 10 (1008 + k.val)
  | .zero => 0x3F8#10 | .lane => 0x3F9#10 | .wslot => 0x3FA#10 | .core => 0x3FB#10
  | .clus => 0x3FC#10 | .item => 0x3FD#10 | .emlo => 0x3FE#10 | .emhi => 0x3FF#10

/-- R32: the front-end's operand codes. -/
def aopnd (c : BitVec 10) : Option AOpnd :=
  if h : c.toNat < 32 then some (.a ⟨c.toNat, h⟩)
  else if h : c.toNat - 1008 < 8 ∧ 1008 ≤ c.toNat then some (.q ⟨c.toNat - 1008, h.1⟩)
  else if c = codeZ then some .zero
  else none

def aopndCode : AOpnd → BitVec 10
  | .a k => BitVec.ofNat 10 k.val
  | .q k => BitVec.ofNat 10 (1008 + k.val)
  | .zero => codeZ

/-- A field that holds a number below 2^k. -/
def fin32 (b : BitVec 5) : Fin 32 := ⟨b.toNat, b.isLt⟩
def fin16 (b : BitVec 4) : Fin 16 := ⟨b.toNat, b.isLt⟩
def fin8 (b : BitVec 3) : Fin 8 := ⟨b.toNat, b.isLt⟩
def fin4 (b : BitVec 2) : Fin 4 := ⟨b.toNat, b.isLt⟩
def bits5 (k : Fin 32) : BitVec 5 := BitVec.ofNat 5 k.val
def bits4 (k : Fin 16) : BitVec 4 := BitVec.ofNat 4 k.val
def bits3 (k : Fin 8) : BitVec 3 := BitVec.ofNat 3 k.val
def bits2 (k : Fin 4) : BitVec 2 := BitVec.ofNat 2 k.val

/-- R11: a mask register in a 10-bit field. -/
def mreg (c : BitVec 10) : Option MReg := if h : c.toNat < 8 then some ⟨c.toNat, h⟩ else none
def mregCode (m : MReg) : BitVec 10 := BitVec.ofNat 10 m.val
/-- A field that must hold a scalar code (R283, R321). -/
def sreg (c : BitVec 10) : Option SReg :=
  if h : c.toNat - 960 < 48 ∧ 960 ≤ c.toNat then some ⟨c.toNat - 960, h.1⟩ else none
def sregCode (k : SReg) : BitVec 10 := BitVec.ofNat 10 (960 + k.val)
/-- A scalar code, or `zero` (R283). -/
def sregOr (c : BitVec 10) : Option (Option SReg) := if c = codeZ then some none else (sreg c).map some
def sregOrCode : Option SReg → BitVec 10
  | none => codeZ
  | some k => sregCode k
/-- STAT of format E (R30). -/
def stat (b : BitVec 6) : Option SReg := if h : b.toNat < 48 then some ⟨b.toNat, h⟩ else none
def statCode (k : SReg) : BitVec 6 := BitVec.ofNat 6 k.val

/-- R26. -/
def ty (b : BitVec 3) : Option Ty :=
  match b.toNat with
  | 0 => some .i32 | 1 => some .n32 | 2 => some .i64 | 3 => some .n64 | 4 => some .f32 | 5 => some .f16x2 | 6 => some .bf16x2 | _ => none
def tyCode : Ty → BitVec 3
  | .i32 => 0#3 | .n32 => 1#3 | .i64 => 2#3 | .n64 => 3#3 | .f32 => 4#3 | .f16x2 => 5#3 | .bf16x2 => 6#3

/-- R26. -/
def rnd (b : BitVec 3) : Option Rnd :=
  match b.toNat with
  | 0 => some .dflt | 1 => some .rne | 2 => some .rtz | 3 => some .rdn | 4 => some .rup | 5 => some .rna | 6 => some .rs | _ => none
def rndCode : Rnd → BitVec 3
  | .dflt => 0#3 | .rne => 1#3 | .rtz => 2#3 | .rdn => 3#3 | .rup => 4#3 | .rna => 5#3 | .rs => 6#3

/-- R56. -/
def cond (b : BitVec 3) : Option Cond :=
  match b.toNat with
  | 0 => some .eq | 1 => some .ne | 2 => some .lt | 3 => some .le | 4 => some .gt | 5 => some .ge | _ => none
def condCode : Cond → BitVec 3
  | .eq => 0#3 | .ne => 1#3 | .lt => 2#3 | .le => 3#3 | .gt => 4#3 | .ge => 5#3

/-- R85. -/
def fcond (b : BitVec 3) : Option FCond :=
  match b.toNat with
  | 0 => some .eq | 1 => some .ne | 2 => some .lt | 3 => some .le | 4 => some .gt | 5 => some .ge | 6 => some .un | 7 => some .or | _ => none
def fcondCode : FCond → BitVec 3
  | .eq => 0#3 | .ne => 1#3 | .lt => 2#3 | .le => 3#3 | .gt => 4#3 | .ge => 5#3 | .un => 6#3 | .or => 7#3

/-- R57. -/
def lay (b : BitVec 3) : Option Lay :=
  match b.toNat with
  | 0 => some .lin | 1 => some .t8 | 2 => some .xr | _ => none
def layCode : Lay → BitVec 3
  | .lin => 0#3 | .t8 => 1#3 | .xr => 2#3

/-- R90. -/
def fmt (b : BitVec 5) : Option Fmt :=
  match b.toNat with
  | 0 => some .i32 | 1 => some .n32 | 2 => some .i64 | 3 => some .n64 | 4 => some .f32 | 5 => some .f16 | 6 => some .bf16 | 7 => some .e4m3 | 8 => some .e5m2 | 9 => some .e3m2 | 10 => some .e2m3 | 11 => some .e2m1 | 12 => some .e8m0 | 13 => some .ue4m3 | 14 => some .i8 | 15 => some .n8 | 16 => some .i4 | 17 => some .dp8 | _ => none
def fmtCode : Fmt → BitVec 5
  | .i32 => 0#5 | .n32 => 1#5 | .i64 => 2#5 | .n64 => 3#5 | .f32 => 4#5 | .f16 => 5#5 | .bf16 => 6#5 | .e4m3 => 7#5 | .e5m2 => 8#5 | .e3m2 => 9#5 | .e2m3 => 10#5 | .e2m1 => 11#5 | .e8m0 => 12#5 | .ue4m3 => 13#5 | .i8 => 14#5 | .n8 => 15#5 | .i4 => 16#5 | .dp8 => 17#5

/-- R93. -/
def pk (b : BitVec 3) : Option PkFmt :=
  match b.toNat with
  | 0 => some .e4m3 | 1 => some .e5m2 | 2 => some .dp8 | 3 => some .i8 | 4 => some .ue4m3 | 5 => some .f16 | 6 => some .bf16 | _ => none
def pkCode : PkFmt → BitVec 3
  | .e4m3 => 0#3 | .e5m2 => 1#3 | .dp8 => 2#3 | .i8 => 3#3 | .ue4m3 => 4#3 | .f16 => 5#3 | .bf16 => 6#3

/-- R28. -/
def scope (b : BitVec 3) : Option Scope :=
  match b.toNat with
  | 0 => some .warp | 1 => some .core | 2 => some .cluster | 3 => some .span | 4 => some .die | 5 => some .device | 6 => some .system | _ => none
def scopeCode : Scope → BitVec 3
  | .warp => 0#3 | .core => 1#3 | .cluster => 2#3 | .span => 3#3 | .die => 4#3 | .device => 5#3 | .system => 6#3

/-- R28. A reserved code is cause 0x11 in every instruction that has the field, `waita` too (DEDUCED, log 98: R164 has 0x46 for a WIDTH
that `waita` does not take). -/
def width (b : BitVec 3) : Option Width :=
  match b.toNat with
  | 0 => some .b8 | 1 => some .b16 | 2 => some .b32 | 3 => some .b64 | 4 => some .b128 | _ => none
def widthCode : Width → BitVec 3
  | .b8 => 0#3 | .b16 => 1#3 | .b32 => 2#3 | .b64 => 3#3 | .b128 => 4#3

/-- R116. -/
def voteMode (b : BitVec 3) : Option VoteMode :=
  match b.toNat with
  | 0 => some .mask | 1 => some .count | 2 => some .every | 3 => some .some | 4 => some .same | _ => none
def voteModeCode : VoteMode → BitVec 3
  | .mask => 0#3 | .count => 1#3 | .every => 2#3 | .some => 3#3 | .same => 4#3

/-- R116. -/
def shflMode (b : BitVec 3) : Option ShflMode :=
  match b.toNat with
  | 0 => some .idx | 1 => some .up | 2 => some .down | 3 => some .xor | _ => none
def shflModeCode : ShflMode → BitVec 3
  | .idx => 0#3 | .up => 1#3 | .down => 2#3 | .xor => 3#3

/-- R116. -/
def foldOp (b : BitVec 3) : Option FoldOp :=
  match b.toNat with
  | 0 => some .add | 1 => some .min | 2 => some .max | 3 => some .and | 4 => some .or | 5 => some .xor | _ => none
def foldOpCode : FoldOp → BitVec 3
  | .add => 0#3 | .min => 1#3 | .max => 2#3 | .and => 3#3 | .or => 4#3 | .xor => 5#3

/-- R121. -/
def barKind (b : BitVec 3) : Option BarKind :=
  match b.toNat with
  | 0 => some .crew | 1 => some .braid | 2 => some .span | 3 => some .ss | _ => none
def barKindCode : BarKind → BitVec 3
  | .crew => 0#3 | .braid => 1#3 | .span => 2#3 | .ss => 3#3

/-- R166. -/
def atomOp (b : BitVec 4) : Option AtomOp :=
  match b.toNat with
  | 0 => some .add | 1 => some .min | 2 => some .max | 3 => some .and | 4 => some .or | 5 => some .xor | 6 => some .exch | 7 => some .fadd | 8 => some .badd | 9 => some .inc | _ => none
def atomOpCode : AtomOp → BitVec 4
  | .add => 0#4 | .min => 1#4 | .max => 2#4 | .and => 3#4 | .or => 4#4 | .xor => 5#4 | .exch => 6#4 | .fadd => 7#4 | .badd => 8#4 | .inc => 9#4

/-- R136. -/
def wscope (b : BitVec 2) : Option WScope :=
  match b.toNat with
  | 0 => some .crew | 1 => some .braid | 2 => some .span | _ => none
def wscopeCode : WScope → BitVec 2
  | .crew => 0#2 | .braid => 1#2 | .span => 2#2

/-- R28. -/
def ord (b : BitVec 2) : Ord4 :=
  match b.toNat with
  | 0 => .plain | 1 => .acq | 2 => .rel | _ => .acqRel
def ordCode : Ord4 → BitVec 2
  | .plain => 0#2 | .acq => 1#2 | .rel => 2#2 | .acqRel => 3#2

/-- R321. -/
def tretMode (b : BitVec 2) : TretMode :=
  match b.toNat with
  | 0 => .retry | 1 => .skip | 2 => .resume | _ => .kill
def tretModeCode : TretMode → BitVec 2
  | .retry => 0#2 | .skip => 1#2 | .resume => 2#2 | .kill => 3#2

/-- R219. -/
def awidth (b : BitVec 2) : AWidth :=
  match b.toNat with
  | 0 => .b8 | 1 => .b16 | 2 => .b32 | _ => .b64
def awidthCode : AWidth → BitVec 2
  | .b8 => 0#2 | .b16 => 1#2 | .b32 => 2#2 | .b64 => 3#2

/-- The types of class 7: i64 or n64 (R219). -/
def aty (b : BitVec 3) : Option ATy :=
  match b.toNat with
  | 2 => some .i64 | 3 => some .n64 | _ => none
def atyCode : ATy → BitVec 3
  | .i64 => 2#3 | .n64 => 3#3

/-- A bit of a field. -/
def bit1 (b : Bool) : BitVec 1 := BitVec.ofBool b

/-! ## Formats -/

/-- Format A (R26); LOW is bits [7:0], which many instructions use in their own way. -/
structure RawA where
  (op : BitVec 9) (la : BitVec 4) (dst a b c : BitVec 10) (ty : BitVec 3) (low : BitVec 8)
  deriving DecidableEq, Repr
/-- Format I (R27). -/
structure RawI where
  (op : BitVec 9) (dst a : BitVec 10) (ty : BitVec 3) (imm : BitVec 32)
  deriving DecidableEq, Repr
/-- Format M (R28). -/
structure RawM where
  (op : BitVec 9) (la : BitVec 4) (data idx : BitVec 10) (rcd : BitVec 5) (width : BitVec 3) (sx : Bool) (scope : BitVec 3)
  (ord : BitVec 2) (off : BitVec 17)
  deriving DecidableEq, Repr
/-- Format B (R29); TAIL is bits [24:0]. -/
structure RawB where
  (op : BitVec 9) (cond : BitVec 6) (tgt : BitVec 24) (tail : BitVec 25)
  deriving DecidableEq, Repr
/-- Word 0 of format E (R30); PER is split into bits [38:25] and [24:0] (R196). -/
structure RawE where
  (op : BitVec 9) (la : BitVec 4) (sync stat : BitVec 6) (hi : BitVec 14) (per : BitVec 25)
  deriving DecidableEq, Repr
/-- Format S (R31); PER is split into bits [46:37], [36:25] and [24:0]. -/
structure RawS where
  (op : BitVec 9) (imm : BitVec 8) (reg : BitVec 10) (num : BitVec 12) (rest : BitVec 25)
  deriving DecidableEq, Repr

def RawA.ofWord (w : Unit64) : RawA :=
  ⟨w.extractLsb' 55 9, w.extractLsb' 51 4, w.extractLsb' 41 10, w.extractLsb' 31 10, w.extractLsb' 21 10, w.extractLsb' 11 10,
    w.extractLsb' 8 3, w.extractLsb' 0 8⟩
def RawA.toWord (r : RawA) : Unit64 := r.op ++ r.la ++ r.dst ++ r.a ++ r.b ++ r.c ++ r.ty ++ r.low
def RawI.ofWord (w : Unit64) : RawI :=
  ⟨w.extractLsb' 55 9, w.extractLsb' 45 10, w.extractLsb' 35 10, w.extractLsb' 32 3, w.extractLsb' 0 32⟩
def RawI.toWord (r : RawI) : Unit64 := r.op ++ r.dst ++ r.a ++ r.ty ++ r.imm
def RawM.ofWord (w : Unit64) : RawM :=
  ⟨w.extractLsb' 55 9, w.extractLsb' 51 4, w.extractLsb' 41 10, w.extractLsb' 31 10, w.extractLsb' 26 5, w.extractLsb' 23 3,
    w.getLsbD 22, w.extractLsb' 19 3, w.extractLsb' 17 2, w.extractLsb' 0 17⟩
def RawM.toWord (r : RawM) : Unit64 :=
  r.op ++ r.la ++ r.data ++ r.idx ++ r.rcd ++ r.width ++ bit1 r.sx ++ r.scope ++ r.ord ++ r.off
def RawB.ofWord (w : Unit64) : RawB :=
  ⟨w.extractLsb' 55 9, w.extractLsb' 49 6, w.extractLsb' 25 24, w.extractLsb' 0 25⟩
def RawB.toWord (r : RawB) : Unit64 := r.op ++ r.cond ++ r.tgt ++ r.tail
def RawE.ofWord (w : Unit64) : RawE :=
  ⟨w.extractLsb' 55 9, w.extractLsb' 51 4, w.extractLsb' 45 6, w.extractLsb' 39 6, w.extractLsb' 25 14, w.extractLsb' 0 25⟩
def RawE.toWord (r : RawE) : Unit64 := r.op ++ r.la ++ r.sync ++ r.stat ++ r.hi ++ r.per
def RawS.ofWord (w : Unit64) : RawS :=
  ⟨w.extractLsb' 55 9, w.extractLsb' 47 8, w.extractLsb' 37 10, w.extractLsb' 25 12, w.extractLsb' 0 25⟩
def RawS.toWord (r : RawS) : Unit64 := r.op ++ r.imm ++ r.reg ++ r.num ++ r.rest

/-- Bits [7:0] of format A as R26 names them. -/
structure Low where
  (rnd : BitVec 3) (sat na nb nc z : Bool)
  deriving DecidableEq, Repr
def Low.ofBits (l : BitVec 8) : Low :=
  ⟨l.extractLsb' 5 3, l.getLsbD 4, l.getLsbD 3, l.getLsbD 2, l.getLsbD 1, l.getLsbD 0⟩
def Low.bits (l : Low) : BitVec 8 := l.rnd ++ bit1 l.sat ++ bit1 l.na ++ bit1 l.nb ++ bit1 l.nc ++ bit1 l.z

/-- An instruction under a condition (R15, R39). -/
def need (b : Bool) (i : Instr) : Option Instr := if b then some i else none

/-! ## Class 0 -/

def decBinS (mk : BinS → Instr) (r : RawA) : Option Instr :=
  let l := Low.ofBits r.low
  (ty r.ty).bind fun t =>
  need (r.la == 0 && r.c == codeZ && l.rnd == 0 && !l.na && !l.nb && !l.nc && !l.z) (mk ⟨t, l.sat, opnd r.dst, opnd r.a, opnd r.b⟩)
def decBin (mk : Bin → Instr) (r : RawA) : Option Instr :=
  (ty r.ty).bind fun t => need (r.la == 0 && r.c == codeZ && r.low == 0) (mk ⟨t, opnd r.dst, opnd r.a, opnd r.b⟩)
def decTerS (mk : TerS → Instr) (r : RawA) : Option Instr :=
  let l := Low.ofBits r.low
  (ty r.ty).bind fun t =>
  need (r.la == 0 && l.rnd == 0 && !l.na && !l.nb && !l.nc && !l.z) (mk ⟨t, l.sat, opnd r.dst, opnd r.a, opnd r.b, opnd r.c⟩)
def decTer (mk : Ter → Instr) (r : RawA) : Option Instr :=
  (ty r.ty).bind fun t => need (r.la == 0 && r.low == 0) (mk ⟨t, opnd r.dst, opnd r.a, opnd r.b, opnd r.c⟩)
def decDiv (mk : DivF → Instr) (r : RawA) : Option Instr :=
  (ty r.ty).bind fun t => need (r.c == codeZ && r.low == 0) (mk ⟨r.la, t, opnd r.dst, opnd r.a, opnd r.b⟩)
def decUnS (mk : UnS → Instr) (r : RawA) : Option Instr :=
  let l := Low.ofBits r.low
  (ty r.ty).bind fun t =>
  need (r.la == 0 && r.b == codeZ && r.c == codeZ && l.rnd == 0 && !l.na && !l.nb && !l.nc && !l.z) (mk ⟨t, l.sat, opnd r.dst, opnd r.a⟩)
def decUn (mk : Un → Instr) (r : RawA) : Option Instr :=
  (ty r.ty).bind fun t => need (r.la == 0 && r.b == codeZ && r.c == codeZ && r.low == 0) (mk ⟨t, opnd r.dst, opnd r.a⟩)
def decCarry (mk : CarryF → Instr) (r : RawA) : Option Instr :=
  (ty r.ty).bind fun t => (mreg r.c).bind fun m => need (r.la == 0 && r.low == 0) (mk ⟨t, opnd r.dst, opnd r.a, opnd r.b, m⟩)
def decLut (r : RawA) : Option Instr :=
  (ty r.ty).bind fun t => need (r.la == 0) (.lut3 ⟨t, opnd r.dst, opnd r.a, opnd r.b, opnd r.c, r.low⟩)
def decCmp (r : RawA) : Option Instr :=
  (ty r.ty).bind fun t => (cond (r.low.extractLsb' 5 3)).bind fun c => (mreg r.dst).bind fun m =>
  need (r.la == 0 && r.c == codeZ && r.low.extractLsb' 0 5 == 0) (.cmp ⟨t, c, m, opnd r.a, opnd r.b⟩)
def decLea (r : RawA) : Option Instr :=
  (ty r.ty).bind fun t =>
  need (r.la == 0 && r.low.extractLsb' 0 5 == 0) (.lea ⟨t, fin8 (r.low.extractLsb' 5 3), opnd r.dst, opnd r.a, opnd r.b, opnd r.c⟩)
def decIdx2 (r : RawA) : Option Instr :=
  (lay (r.low.extractLsb' 5 3)).bind fun l =>
  need (r.la == 0 && r.ty == 1 && r.low.extractLsb' 0 5 == 0) (.idx2 ⟨l, opnd r.dst, opnd r.a, opnd r.b, opnd r.c⟩)
def decImm (mk : ImmF → Instr) (r : RawI) : Option Instr :=
  (ty r.ty).bind fun t => some (mk ⟨t, opnd r.dst, opnd r.a, r.imm⟩)
def decMovi (r : RawI) : Option Instr :=
  (ty r.ty).bind fun t => need (r.a == codeZ) (.movi ⟨t, opnd r.dst, r.imm⟩)
def decCmpi (r : RawI) : Option Instr :=
  (ty r.ty).bind fun t => (cond (r.imm.extractLsb' 29 3)).bind fun c => (mreg r.dst).bind fun m =>
  some (.cmpi ⟨t, c, m, opnd r.a, r.imm.extractLsb' 0 29⟩)
def decFAr (mk : FArF → Instr) (r : RawA) : Option Instr :=
  let l := Low.ofBits r.low
  (ty r.ty).bind fun t => (rnd l.rnd).bind fun d =>
  need (r.la == 0 && !l.sat && !l.nc && !l.z) (mk ⟨t, d, l.na, l.nb, opnd r.dst, opnd r.a, opnd r.b, opnd r.c⟩)
def decFma (mk : FmaF → Instr) (r : RawA) : Option Instr :=
  let l := Low.ofBits r.low
  (ty r.ty).bind fun t => (rnd l.rnd).bind fun d =>
  need (r.la == 0 && !l.sat && !l.z) (mk ⟨t, d, l.na, l.nb, l.nc, opnd r.dst, opnd r.a, opnd r.b, opnd r.c⟩)
def decFMin (mk : FMinF → Instr) (r : RawA) : Option Instr :=
  let l := Low.ofBits r.low
  (ty r.ty).bind fun t =>
  need (r.la == 0 && r.c == codeZ && l.rnd == 0 && !l.sat && !l.nc && !l.z) (mk ⟨t, l.na, l.nb, opnd r.dst, opnd r.a, opnd r.b⟩)
def decFCmp (r : RawA) : Option Instr :=
  let l := Low.ofBits r.low
  (fcond l.rnd).bind fun c => (mreg r.dst).bind fun m =>
  need (r.la == 0 && r.ty == 4 && r.c == codeZ && !l.sat && !l.nc && !l.z) (.fcmp ⟨c, l.na, l.nb, m, opnd r.a, opnd r.b⟩)
def decFCls (r : RawA) : Option Instr :=
  (ty r.ty).bind fun t => need (r.la == 0 && r.b == codeZ && r.c == codeZ && r.low == 0) (.fclass ⟨t, opnd r.dst, opnd r.a⟩)
def decFRnd (r : RawA) : Option Instr :=
  let l := Low.ofBits r.low
  (ty r.ty).bind fun t => (rnd l.rnd).bind fun d =>
  need (r.la == 0 && r.b == codeZ && r.c == codeZ && !l.sat && !l.nb && !l.nc && !l.z) (.frnd ⟨t, d, l.na, opnd r.dst, opnd r.a⟩)
/-- RND of the special functions: 000 or 001, both RNE (R89). -/
def rne (b : BitVec 3) : Option Bool :=
  match b.toNat with
  | 0 => some false | 1 => some true | _ => none
def rneCode (b : Bool) : BitVec 3 := if b then 1#3 else 0#3
def decSfu (mk : SfuF → Instr) (r : RawA) : Option Instr :=
  let l := Low.ofBits r.low
  (ty r.ty).bind fun t => (rne l.rnd).bind fun d =>
  need (r.b == codeZ && r.c == codeZ && !l.sat && !l.nb && !l.nc && !l.z) (mk ⟨r.la, t, d, l.na, opnd r.dst, opnd r.a⟩)
def decFDiv (r : RawA) : Option Instr :=
  let l := Low.ofBits r.low
  (ty r.ty).bind fun t => (rne l.rnd).bind fun d =>
  need (r.c == codeZ && !l.sat && !l.nc && !l.z) (.fdiv ⟨r.la, t, d, l.na, l.nb, opnd r.dst, opnd r.a, opnd r.b⟩)
def decCvt (r : RawA) : Option Instr :=
  let l := Low.ofBits r.low
  (fmt (r.b.extractLsb' 5 5)).bind fun f => (fmt (r.b.extractLsb' 0 5)).bind fun g => (rnd l.rnd).bind fun d =>
  need (r.la == 0 && r.ty == 0 && !l.nb && !l.nc && !l.z) (.cvt ⟨f, g, d, l.sat, l.na, opnd r.dst, opnd r.a, opnd r.c⟩)
def decCvtpk (r : RawA) : Option Instr :=
  let l := Low.ofBits r.low
  (pk r.ty).bind fun f => (rnd l.rnd).bind fun d =>
  need (r.la == 0 && !l.nc && !l.z) (.cvtpk ⟨f, d, l.sat, l.na, l.nb, opnd r.dst, opnd r.a, opnd r.b, opnd r.c⟩)
def decUnpk (r : RawA) : Option Instr :=
  (pk r.ty).bind fun f =>
  need (r.la == 0 && r.b == codeZ && r.c == codeZ && r.low.extractLsb' 0 5 == 0)
    (.unpk ⟨f, fin8 (r.low.extractLsb' 5 3), opnd r.dst, opnd r.a⟩)
def decRng (r : RawA) : Option Instr :=
  need (r.ty == 1 && r.b == codeZ && r.c == codeZ && r.low == 0) (.rng ⟨r.la, opnd r.dst, opnd r.a⟩)
def decSmx3 (mk : Smx3F → Instr) (r : RawA) : Option Instr :=
  (rne (r.low.extractLsb' 5 3)).bind fun d =>
  need (r.la == 0 && r.ty == 4 && r.low.extractLsb' 0 5 == 0) (mk ⟨d, opnd r.dst, opnd r.a, opnd r.b, opnd r.c⟩)
def decSmx2 (mk : Smx2F → Instr) (r : RawA) : Option Instr :=
  (rne (r.low.extractLsb' 5 3)).bind fun d =>
  need (r.la == 0 && r.ty == 4 && r.c == codeZ && r.low.extractLsb' 0 5 == 0) (mk ⟨d, opnd r.dst, opnd r.a, opnd r.b⟩)
def decDpm (r : RawA) : Option Instr :=
  let l := Low.ofBits r.low
  (ty r.ty).bind fun t => (rnd l.rnd).bind fun d =>
  need (r.la == 0 && !l.sat && !l.nb && !l.z) (.dpmul ⟨t, d, l.na, l.nc, opnd r.dst, opnd r.a, opnd r.b, opnd r.c⟩)
/-- What every mask instruction leaves at rest (R114). -/
def maskRest (r : RawA) : Bool := r.la == 0 && r.ty == 1 && r.c == codeZ && r.low == 0
def decMBin (mk : MBinF → Instr) (r : RawA) : Option Instr :=
  (mreg r.dst).bind fun d => (mreg r.a).bind fun a => (mreg r.b).bind fun b => need (maskRest r) (mk ⟨d, a, b⟩)
def decMUn (mk : MUnF → Instr) (r : RawA) : Option Instr :=
  (mreg r.dst).bind fun d => (mreg r.a).bind fun a => need (maskRest r && r.b == codeZ) (mk ⟨d, a⟩)
def decMCnt (mk : MCntF → Instr) (r : RawA) : Option Instr :=
  (mreg r.a).bind fun a => need (maskRest r && r.b == codeZ) (mk ⟨opnd r.dst, a⟩)
def decEmget (r : RawA) : Option Instr :=
  (mreg r.dst).bind fun d => need (maskRest r && r.a == codeZ && r.b == codeZ) (.emget d)
def decEmset (r : RawA) : Option Instr :=
  (mreg r.a).bind fun a => need (maskRest r && r.dst == codeZ && r.b == codeZ) (.emset a)

/-- Class 0, 0x000-0x01F (R50). -/
def decInt (r : RawA) : Option Instr :=
  match r.op.toNat with
  | 0x000 => decBinS .add r
  | 0x001 => decBinS .sub r
  | 0x002 => decBinS .mul r
  | 0x003 => decBin .mulhi r
  | 0x004 => decTerS .mad r
  | 0x005 => decDiv .div r
  | 0x006 => decDiv .rem r
  | 0x007 => decBin .min r
  | 0x008 => decBin .max r
  | 0x009 => decUnS .abs r
  | 0x00A => decUnS .neg r
  | 0x00B => decCarry .addcy r
  | 0x00C => decCarry .subbw r
  | 0x00D => decBin .shl r
  | 0x00E => decBin .shr r
  | 0x00F => decBin .rot r
  | 0x010 => decBin .and r
  | 0x011 => decBin .or r
  | 0x012 => decBin .xor r
  | 0x013 => decUn .not r
  | 0x014 => decBin .andn r
  | 0x015 => decBin .bfx r
  | 0x016 => decTer .bfi r
  | 0x017 => decUn .popc r
  | 0x018 => decUn .clz r
  | 0x019 => decUn .brev r
  | 0x01A => decLut r
  | 0x01B => decCmp r
  | 0x01C => decCarry .sel r
  | 0x01D => decUn .mov r
  | 0x01E => decLea r
  | 0x01F => decIdx2 r
  | _ => none

/-- Class 0, 0x020-0x028 (R58). -/
def decImmForms (r : RawI) : Option Instr :=
  match r.op.toNat with
  | 0x020 => decMovi r
  | 0x021 => decImm .addi r
  | 0x022 => decImm .muli r
  | 0x023 => decImm .andi r
  | 0x024 => decImm .ori r
  | 0x025 => decImm .xori r
  | 0x026 => decImm .shli r
  | 0x027 => decImm .shri r
  | 0x028 => decCmpi r
  | _ => none

/-- Class 0, 0x040-0x087 (R83-R100, R114). -/
def decFloat (r : RawA) : Option Instr :=
  match r.op.toNat with
  | 0x040 => decFAr .fadd r
  | 0x041 => decFAr .fsub r
  | 0x042 => decFAr .fmul r
  | 0x043 => decFma .fma r
  | 0x044 => decFMin .fmin r
  | 0x045 => decFMin .fmax r
  | 0x046 => decFMin .fminn r
  | 0x047 => decFMin .fmaxn r
  | 0x048 => decFCmp r
  | 0x049 => decFCls r
  | 0x04A => decFRnd r
  | 0x04B => decFma .fdot2 r
  | 0x050 => decSfu .rcp r
  | 0x051 => decSfu .rsqrt r
  | 0x052 => decSfu .sqrt r
  | 0x053 => decSfu .exp2 r
  | 0x054 => decSfu .log2 r
  | 0x055 => decSfu .sin r
  | 0x056 => decSfu .cos r
  | 0x057 => decSfu .tanh r
  | 0x058 => decFDiv r
  | 0x060 => decCvt r
  | 0x061 => decCvtpk r
  | 0x062 => decUnpk r
  | 0x070 => decRng r
  | 0x071 => decSmx3 .smxStep r
  | 0x072 => decSmx2 .smxMerge r
  | 0x073 => decSmx2 .smxNorm r
  | 0x074 => decSmx3 .rope r
  | 0x075 => decDpm r
  | 0x080 => decMBin .mand r
  | 0x081 => decMBin .mor r
  | 0x082 => decMBin .mxor r
  | 0x083 => decMUn .mnot r
  | 0x084 => decMCnt .mpop r
  | 0x085 => decMCnt .mffs r
  | 0x086 => decEmget r
  | 0x087 => decEmset r
  | _ => none

/-! ## Class 1 -/

/-- The member mask of bits [4:1] (R115). -/
def members (l : BitVec 8) : Option Members :=
  if l.getLsbD 4 then (if l.extractLsb' 1 3 == 0 then some .all else none) else some (.m (fin8 (l.extractLsb' 1 3)))
def membersBits : Members → BitVec 4
  | .all => 8#4
  | .m k => 0#1 ++ bits3 k
/-- Bits [7:0] of a cross-lane instruction (R115). -/
def xlnBits (opx : BitVec 3) (m : Members) : BitVec 8 := opx ++ membersBits m ++ 0#1
def decVote (r : RawA) : Option Instr :=
  (voteMode (r.low.extractLsb' 5 3)).bind fun v => (members r.low).bind fun m => (mreg r.a).bind fun p =>
  need (r.la == 0 && r.b == codeZ && r.c == codeZ && !r.low.getLsbD 0 && (r.ty == if v = .mask then 3 else 1))
    (.vote ⟨v, opnd r.dst, p, m⟩)
def decShfl (r : RawA) : Option Instr :=
  (shflMode (r.low.extractLsb' 5 3)).bind fun v => (members r.low).bind fun m => (ty r.ty).bind fun t =>
  need (r.la == 0 && !r.low.getLsbD 0) (.shfl ⟨v, t, opnd r.dst, opnd r.a, opnd r.b, opnd r.c, m⟩)
def decBcast (r : RawA) : Option Instr :=
  (members r.low).bind fun m => (ty r.ty).bind fun t =>
  need (r.la == 0 && !r.low.getLsbD 0 && r.low.extractLsb' 5 3 == 0) (.bcast ⟨t, opnd r.dst, opnd r.a, opnd r.b, opnd r.c, m⟩)
def decFold (mk : FoldF → Instr) (r : RawA) : Option Instr :=
  (foldOp (r.low.extractLsb' 5 3)).bind fun v => (members r.low).bind fun m => (ty r.ty).bind fun t =>
  need (r.la == 0 && r.b == codeZ && r.c == codeZ && !r.low.getLsbD 0) (mk ⟨v, t, opnd r.dst, opnd r.a, m⟩)
def decCsamp (r : RawA) : Option Instr :=
  (members r.low).bind fun m =>
  need (r.la == 0 && r.ty == 4 && r.c == codeZ && !r.low.getLsbD 0 && r.low.extractLsb' 5 3 == 0)
    (.csamp ⟨opnd r.dst, opnd r.a, opnd r.b, m⟩)
def decMatch (r : RawA) : Option Instr :=
  (members r.low).bind fun m => (ty r.ty).bind fun t =>
  need (r.la == 0 && r.b == codeZ && r.c == codeZ && !r.low.getLsbD 0 && r.low.extractLsb' 5 3 == 0)
    (.matchx ⟨t, opnd r.dst, opnd r.a, m⟩)
def decPlan (mk : PlanF → Instr) (r : RawA) : Option Instr :=
  need (r.la == 0 && r.ty == 1 && r.b == codeZ && r.c == codeZ && r.low.extractLsb' 0 5 == 0)
    (mk ⟨fin8 (r.low.extractLsb' 5 3), opnd r.dst, opnd r.a⟩)
def decXch (r : RawA) : Option Instr :=
  (ty r.ty).bind fun t => need (r.b == codeZ && r.c == codeZ && r.low == 0) (.xch ⟨r.la, t, opnd r.dst, opnd r.a⟩)
def decBar (r : RawA) : Option Instr :=
  (barKind (r.low.extractLsb' 5 3)).bind fun k =>
  need (r.la == 0 && r.ty == 0 && r.dst == codeZ && r.a == codeZ && r.b == codeZ && r.c == codeZ && r.low.extractLsb' 0 5 == 0)
    (.bar k)
/-- Class 1 (R116). -/
def decXln (r : RawA) : Option Instr :=
  match r.op.toNat with
  | 0x000 => decVote r
  | 0x001 => decShfl r
  | 0x002 => decBcast r
  | 0x003 => decFold .scan r
  | 0x004 => decFold .redux r
  | 0x005 => decCsamp r
  | 0x006 => decMatch r
  | 0x007 => decPlan .plpk r
  | 0x008 => decPlan .plunpk r
  | 0x009 => decXch r
  | 0x00A => decBar r
  | _ => none

/-! ## Class 2 -/

def decMem (mk : MemF → Instr) (r : RawM) : Option Instr :=
  (width r.width).bind fun w => (scope r.scope).bind fun s =>
  some (mk ⟨r.la, opnd r.data, opnd r.idx, fin32 r.rcd, w, r.sx, s, ord r.ord, r.off⟩)
def decAtom (r : RawM) : Option Instr :=
  (width r.width).bind fun w => (scope r.scope).bind fun s => (atomOp (r.off.extractLsb' 13 4)).bind fun o =>
  some (.atom ⟨r.la, o, opnd r.data, opnd r.idx, fin32 r.rcd, w, r.sx, s, ord r.ord, r.off.extractLsb' 0 13⟩)
def decFence (r : RawM) : Option Instr :=
  (scope r.scope).bind fun s =>
  need (r.la == 0 && r.data == codeZ && r.idx == codeZ && r.rcd == 0 && r.width == 0 && !r.sx && r.off == 0) (.fence ⟨s, ord r.ord⟩)
def decPfch (r : RawM) : Option Instr :=
  (width r.width).bind fun w => (scope r.scope).bind fun s =>
  need (r.la == 0 && r.data == codeZ && !r.sx && r.ord == 0) (.pfch ⟨opnd r.idx, fin32 r.rcd, w, s, r.off⟩)
def decBrld (r : RawM) : Option Instr :=
  need (r.la == 0 && r.data == codeZ && r.width == 0 && !r.sx && r.scope == 0 && r.ord == 0 && r.off == 0)
    (.brld ⟨fin32 r.rcd, opnd r.idx⟩)
def decBrmk (r : RawM) : Option Instr :=
  (sreg r.data).bind fun k =>
  need (r.la == 0 && r.idx == codeZ && r.width == 0 && !r.sx && r.scope == 0 && r.ord == 0 && r.off.extractLsb' 8 9 == 0)
    (.brmk ⟨fin32 r.rcd, fin32 (r.off.extractLsb' 0 5), r.off.getLsbD 5, r.off.getLsbD 6, r.off.getLsbD 7, k⟩)
/-- Class 2 (R164). -/
def decMemory (r : RawM) : Option Instr :=
  match r.op.toNat with
  | 0x000 => decMem .ld r
  | 0x001 => decMem .st r
  | 0x002 => decMem .lds r
  | 0x003 => decMem .sts r
  | 0x004 => decAtom r
  | 0x005 => decMem .cas r
  | 0x006 => decMem .waita r
  | 0x007 => decFence r
  | 0x008 => decPfch r
  | 0x009 => decBrld r
  | 0x00A => decBrmk r
  | _ => none

/-! ## Class 3 (R129) -/

def decLdx (r : RawA) : Option Instr :=
  (ty r.ty).bind fun t => need (r.la == 0 && r.c == codeZ && r.low.extractLsb' 0 7 == 0)
    (.ldx ⟨t, r.low.getLsbD 7, opnd r.dst, opnd r.a, opnd r.b⟩)
def decStx (r : RawA) : Option Instr :=
  (ty r.ty).bind fun t => need (r.la == 0 && r.dst == codeZ && r.low.extractLsb' 0 7 == 0)
    (.stx ⟨t, r.low.getLsbD 7, opnd r.a, opnd r.b, opnd r.c⟩)
def decWexp (r : RawA) : Option Instr :=
  (wscope (r.low.extractLsb' 3 2)).bind fun s =>
  need (r.la == 0 && r.ty == 1 && r.low.extractLsb' 0 3 == 0)
    (.wexp ⟨opnd r.dst, opnd r.a, opnd r.b, opnd r.c, r.low.getLsbD 7, r.low.getLsbD 6, r.low.getLsbD 5, s⟩)
def decWin (mk : WinF → Instr) (r : RawA) : Option Instr :=
  (ty r.ty).bind fun t => need (r.low.extractLsb' 0 6 == 0)
    (mk ⟨r.la, t, opnd r.dst, opnd r.a, opnd r.b, opnd r.c, ord (r.low.extractLsb' 6 2)⟩)
def decWgrant (r : RawA) : Option Instr :=
  need (r.la == 0 && r.ty == 1 && r.dst == codeZ && r.c == codeZ && r.low.extractLsb' 0 4 == 0)
    (.wgrant ⟨opnd r.a, opnd r.b, r.low.getLsbD 7, r.low.getLsbD 6, r.low.getLsbD 5, r.low.getLsbD 4⟩)
def decTalloc (r : RawA) : Option Instr :=
  need (r.la == 0 && r.ty == 1 && r.dst == codeZ && r.c == codeZ && r.low.extractLsb' 0 7 == 0)
    (.talloc ⟨opnd r.a, opnd r.b, r.low.getLsbD 7⟩)
def decGive (r : RawA) : Option Instr :=
  (scope (r.low.extractLsb' 5 3)).bind fun s =>
  need (r.la == 0 && r.ty == 1 && r.dst == codeZ && r.c == codeZ && r.low.extractLsb' 0 4 == 0)
    (.give ⟨opnd r.a, opnd r.b, s, r.low.getLsbD 4⟩)
def decTake (r : RawA) : Option Instr :=
  need (r.la == 0 && r.ty == 1 && r.c == codeZ && r.low.extractLsb' 0 4 == 0 && r.low.extractLsb' 5 3 == 0)
    (.take ⟨opnd r.dst, opnd r.a, opnd r.b, r.low.getLsbD 4⟩)
def decSync (mk : SyncF → Instr) (r : RawA) : Option Instr :=
  need (r.la == 0 && r.ty == 1 && r.dst == codeZ && r.c == codeZ && r.low == 0) (mk ⟨opnd r.a, opnd r.b⟩)
def decOneA (mk : Opnd → Instr) (r : RawA) : Option Instr :=
  need (r.la == 0 && r.ty == 1 && r.dst == codeZ && r.b == codeZ && r.c == codeZ && r.low == 0) (mk (opnd r.a))
def decRrot (r : RawA) : Option Instr :=
  need (r.ty == 1 && r.dst == codeZ && r.a == codeZ && r.b == codeZ && r.c == codeZ && r.low.extractLsb' 0 3 == 0)
    (.rrot ⟨r.la, fin32 (r.low.extractLsb' 3 5)⟩)
def decGstat (r : RawA) : Option Instr :=
  need (r.la == 0 && r.ty == 1 && r.c == codeZ && !r.low.getLsbD 0)
    (.gstat ⟨opnd r.dst, opnd r.a, opnd r.b, fin32 (r.low.extractLsb' 3 5), r.low.getLsbD 2, r.low.getLsbD 1⟩)
def decFmask (r : RawA) : Option Instr :=
  (mreg r.dst).bind fun m =>
  need (r.la == 0 && r.ty == 1 && r.a == codeZ && r.b == codeZ && r.c == codeZ && r.low == 0) (.fmask m)
def decTget (r : RawA) : Option Instr :=
  (ty r.ty).bind fun t => need (r.la == 0 && r.b == codeZ && r.c == codeZ && r.low.extractLsb' 0 3 == 0)
    (.tget ⟨t, opnd r.dst, opnd r.a, fin32 (r.low.extractLsb' 3 5)⟩)
def decTset (r : RawA) : Option Instr :=
  (ty r.ty).bind fun t => need (r.la == 0 && r.dst == codeZ && r.c == codeZ && r.low.extractLsb' 0 3 == 0)
    (.tset ⟨t, opnd r.a, opnd r.b, fin32 (r.low.extractLsb' 3 5)⟩)
def decQstat (r : RawA) : Option Instr :=
  need (r.la == 0 && r.ty == 1 && r.a == codeZ && r.b == codeZ && r.c == codeZ && r.low.extractLsb' 0 5 == 0)
    (.qstat ⟨opnd r.dst, fin8 (r.low.extractLsb' 5 3)⟩)
def decQmark (r : RawA) : Option Instr :=
  need (r.la == 0 && r.ty == 1 && r.dst == codeZ && r.a == codeZ && r.b == codeZ && r.c == codeZ && r.low.extractLsb' 0 5 == 0)
    (.qmark (fin8 (r.low.extractLsb' 5 3)))
/-- Class 3 (R129). -/
def decReg (r : RawA) : Option Instr :=
  match r.op.toNat with
  | 0x000 => decLdx r
  | 0x001 => decStx r
  | 0x002 => decWexp r
  | 0x003 => decOneA (fun o => .wrev ⟨o⟩) r
  | 0x004 => decWin .wrd r
  | 0x005 => decWin .wwr r
  | 0x006 => decWgrant r
  | 0x007 => decTalloc r
  | 0x008 => decOneA (fun o => .tfree ⟨o⟩) r
  | 0x009 => decGive r
  | 0x00A => decTake r
  | 0x00B => decSync .waitg r
  | 0x00C => decSync .syncset r
  | 0x00D => decRrot r
  | 0x00E => decGstat r
  | 0x00F => decFmask r
  | 0x010 => decTget r
  | 0x011 => decTset r
  | 0x012 => decQstat r
  | 0x013 => decQmark r
  | _ => none

/-! ## Class 4: bits [24:0] of word 0 and word 1 -/

def decCopy (p : BitVec 25) (w : Unit64) : Option CopyF :=
  if p.extractLsb' 0 19 == 0 && w.extractLsb' 0 24 == 0 then
    some ⟨p.extractLsb' 23 2, p.extractLsb' 20 3, p.getLsbD 19, fin32 (w.extractLsb' 59 5), fin32 (w.extractLsb' 54 5),
      w.extractLsb' 48 6, w.extractLsb' 42 6, w.extractLsb' 36 6, w.getLsbD 35, fin32 (w.extractLsb' 30 5), w.getLsbD 29,
      fin32 (w.extractLsb' 24 5)⟩
  else none
def encCopy (f : CopyF) : BitVec 25 × Unit64 :=
  (f.dir ++ f.scope ++ bit1 f.thn ++ 0#19,
   bits5 f.srec ++ bits5 f.drec ++ f.soff ++ f.doff ++ f.shp ++ bit1 f.stl ++ bits5 f.stn ++ bit1 f.dtl ++ bits5 f.dtn ++ 0#24)
def decCopymc (p : BitVec 25) (w : Unit64) : Option CopymcF :=
  if !p.getLsbD 24 && p.extractLsb' 0 20 == 0 && w.extractLsb' 54 5 == 0 && w.extractLsb' 0 30 == 0 then
    some ⟨p.getLsbD 23, p.extractLsb' 20 3, fin32 (w.extractLsb' 59 5), w.extractLsb' 48 6, w.extractLsb' 42 6,
      w.extractLsb' 36 6, w.getLsbD 35, fin32 (w.extractLsb' 30 5)⟩
  else none
def encCopymc (f : CopymcF) : BitVec 25 × Unit64 :=
  (0#1 ++ bit1 f.regs ++ f.scope ++ 0#20,
   bits5 f.srec ++ 0#5 ++ f.soff ++ f.doff ++ f.shp ++ bit1 f.stl ++ bits5 f.stn ++ 0#30)
def decGath (p : BitVec 25) (w : Unit64) : Option GathF :=
  if p.extractLsb' 0 12 == 0 && w.extractLsb' 0 13 == 0 then
    some ⟨p.extractLsb' 23 2, p.extractLsb' 21 2, p.getLsbD 20, p.getLsbD 19, p.extractLsb' 16 3, p.getLsbD 15,
      p.extractLsb' 12 3, fin32 (w.extractLsb' 59 5), fin32 (w.extractLsb' 54 5), w.extractLsb' 48 6, w.extractLsb' 42 6,
      fin32 (w.extractLsb' 37 5), w.extractLsb' 25 12, w.extractLsb' 19 6, w.getLsbD 18, fin32 (w.extractLsb' 13 5)⟩
  else none
def encGath (f : GathF) : BitVec 25 × Unit64 :=
  (f.red ++ f.oor ++ bit1 f.dedup ++ bit1 f.ordered ++ f.fmt ++ bit1 f.isrc ++ f.scope ++ 0#12,
   bits5 f.trec ++ bits5 f.irec ++ f.isc ++ f.bsc ++ bits5 f.brec ++ f.nel ++ f.dsc ++ bit1 f.dtl ++ bits5 f.dtn ++ 0#13)
def decScata (p : BitVec 25) (w : Unit64) : Option ScataF :=
  if p.extractLsb' 23 2 == 0 && p.extractLsb' 19 2 == 0 && p.extractLsb' 0 12 == 0 && w.extractLsb' 37 11 == 0 &&
      w.extractLsb' 0 13 == 0 then
    some ⟨p.extractLsb' 21 2, p.extractLsb' 16 3, p.getLsbD 15, p.extractLsb' 12 3, fin32 (w.extractLsb' 59 5),
      fin32 (w.extractLsb' 54 5), w.extractLsb' 48 6, w.extractLsb' 25 12, w.extractLsb' 19 6, w.getLsbD 18,
      fin32 (w.extractLsb' 13 5)⟩
  else none
def encScata (f : ScataF) : BitVec 25 × Unit64 :=
  (0#2 ++ f.oor ++ 0#2 ++ f.fmt ++ bit1 f.isrc ++ f.scope ++ 0#12,
   bits5 f.trec ++ bits5 f.irec ++ f.isc ++ 0#11 ++ f.nel ++ f.dsc ++ bit1 f.dtl ++ bits5 f.dtn ++ 0#13)
def decMma (p : BitVec 25) (w : Unit64) : Option MmaF :=
  if p.extractLsb' 0 10 == 0 && w.extractLsb' 0 15 == 0 then
    some ⟨p.extractLsb' 19 6, p.extractLsb' 13 6, p.extractLsb' 10 3, w.extractLsb' 56 8, w.extractLsb' 48 8, w.getLsbD 47,
      w.extractLsb' 41 6, w.getLsbD 40, w.extractLsb' 34 6, fin32 (w.extractLsb' 29 5), w.getLsbD 28, w.getLsbD 27,
      w.extractLsb' 21 6, w.extractLsb' 15 6⟩
  else none
def encMma (f : MmaF) : BitVec 25 × Unit64 :=
  (f.mm ++ f.nn ++ f.scope ++ 0#10,
   f.da ++ f.db ++ bit1 f.as_ ++ f.aop ++ bit1 f.bs ++ f.bop ++ bits5 f.ct ++ bit1 f.acc ++ bit1 f.sat ++ f.ks ++ f.gs ++ 0#15)
def decTfill (p : BitVec 25) (w : Unit64) : Option TfillF :=
  if p == 0 && w.extractLsb' 0 40 == 0 then
    some ⟨w.extractLsb' 58 6, w.extractLsb' 52 6, w.extractLsb' 46 6, w.getLsbD 45, fin32 (w.extractLsb' 40 5)⟩
  else none
def encTfill (f : TfillF) : BitVec 25 × Unit64 :=
  (0#25, f.pat ++ f.doff ++ f.len ++ bit1 f.dtl ++ bits5 f.dtn ++ 0#40)
def decEseq (p : BitVec 25) (w : Unit64) : Option EseqF :=
  if p == 0 && w.extractLsb' 0 40 == 0 then some ⟨w.extractLsb' 40 24⟩ else none
def encEseq (f : EseqF) : BitVec 25 × Unit64 := (0#25, f.cnt ++ 0#40)
def decKv (p : BitVec 25) (w : Unit64) : Option KvF :=
  if p.extractLsb' 0 12 == 0 && w.extractLsb' 0 28 == 0 then
    some ⟨p.extractLsb' 19 6, p.extractLsb' 16 3, p.extractLsb' 14 2, p.getLsbD 13, p.getLsbD 12, w.extractLsb' 58 6,
      w.extractLsb' 52 6, w.extractLsb' 46 6, w.extractLsb' 40 6, w.extractLsb' 34 6, w.getLsbD 33, fin32 (w.extractLsb' 28 5)⟩
  else none
def encKv (f : KvF) : BitVec 25 × Unit64 :=
  (f.res ++ f.scope ++ f.pol ++ bit1 f.part ++ bit1 f.stg ++ 0#12,
   f.sa ++ f.sb ++ f.sc ++ f.sd ++ f.se ++ bit1 f.tl ++ bits5 f.tn ++ 0#28)

/-- A class 4 command by its opcode (R37). -/
def engBody (op : Nat) (p : BitVec 25) (w : Unit64) : Option EngBody :=
  match op with
  | 0x000 => (decCopy p w).map .copy
  | 0x001 => (decCopymc p w).map .copymc
  | 0x002 => (decGath p w).map .gath
  | 0x003 => (decScata p w).map .scata
  | 0x004 => (decMma p w).map .mma
  | 0x005 => (decTfill p w).map .tfill
  | 0x006 => (decKv p w).map .kvw
  | 0x007 => (decKv p w).map .kvld
  | 0x008 => (decKv p w).map .kvst
  | 0x009 => (decKv p w).map .kvfork
  | 0x00A => (decKv p w).map .splice
  | 0x00B => (decKv p w).map .rpopen
  | 0x00C => (decKv p w).map .rpstat
  | 0x00D => (decKv p w).map .rpcancel
  | 0x00E => (decKv p w).map .kvfree
  | 0x00F => (decEseq p w).map .eseq
  | _ => none

def engOp : EngBody → Nat
  | .copy _ => 0x000 | .copymc _ => 0x001 | .gath _ => 0x002 | .scata _ => 0x003 | .mma _ => 0x004 | .tfill _ => 0x005
  | .kvw _ => 0x006 | .kvld _ => 0x007 | .kvst _ => 0x008 | .kvfork _ => 0x009 | .splice _ => 0x00A | .rpopen _ => 0x00B
  | .rpstat _ => 0x00C | .rpcancel _ => 0x00D | .kvfree _ => 0x00E | .eseq _ => 0x00F

def engWords : EngBody → BitVec 25 × Unit64
  | .copy f => encCopy f | .copymc f => encCopymc f | .gath f => encGath f | .scata f => encScata f | .mma f => encMma f
  | .tfill f => encTfill f | .eseq f => encEseq f
  | .kvw f | .kvld f | .kvst f | .kvfork f | .splice f | .rpopen f | .rpstat f | .rpcancel f | .kvfree f => encKv f

/-- The instruction that is a command with its common fields. -/
def engInstr (h : EHdr) : EngBody → Instr
  | .copy f => .copy h f | .copymc f => .copymc h f | .gath f => .gath h f | .scata f => .scata h f | .mma f => .mma h f
  | .tfill f => .tfill h f | .eseq f => .eseq h f
  | .kvw f => .kvw h f | .kvld f => .kvld h f | .kvst f => .kvst h f | .kvfork f => .kvfork h f | .splice f => .splice h f
  | .rpopen f => .rpopen h f | .rpstat f => .rpstat h f | .rpcancel f => .rpcancel h f | .kvfree f => .kvfree h f

/-- Class 4 (R30, R196). -/
def decEng (r : RawE) (w : Unit64) : Option Instr :=
  (stat r.stat).bind fun k => (engBody r.op.toNat r.per w).bind fun b =>
  need (r.hi == 0) (engInstr ⟨r.la, r.sync, k⟩ b)

/-! ## Class 5 (R283) -/

def decLaunch (r : RawA) : Option Instr :=
  (sreg r.dst).bind fun d => (sreg r.a).bind fun a => (sregOr r.b).bind fun b =>
  need (r.la == 0 && r.ty == 1 && r.c == codeZ && r.low.extractLsb' 0 6 == 0) (.launch ⟨d, a, b, r.low.getLsbD 7, r.low.getLsbD 6⟩)
def decWdask (r : RawA) : Option Instr :=
  (sreg r.dst).bind fun d => need (r.ty == 1 && r.b == codeZ && r.c == codeZ && r.low == 0) (.wdask ⟨r.la, d, opnd r.a⟩)
def decRingAcq (r : RawA) : Option Instr :=
  (sreg r.dst).bind fun d => (sreg r.a).bind fun a => (scope (r.low.extractLsb' 4 3)).bind fun s =>
  need (r.ty == 1 && r.b == codeZ && r.c == codeZ && r.low.extractLsb' 0 4 == 0) (.ringAcq ⟨r.la, d, a, r.low.getLsbD 7, s⟩)
def decRingCmt (r : RawA) : Option Instr :=
  (sreg r.a).bind fun a => (scope (r.low.extractLsb' 4 3)).bind fun s =>
  need (r.la == 0 && r.ty == 1 && r.dst == codeZ && r.c == codeZ && r.low.extractLsb' 0 4 == 0)
    (.ringCmt ⟨a, opnd r.b, r.low.getLsbD 7, s⟩)
def decRingPeek (r : RawA) : Option Instr :=
  (sreg r.dst).bind fun d => (sreg r.a).bind fun a =>
  need (r.la == 0 && r.ty == 1 && r.b == codeZ && r.c == codeZ && r.low.extractLsb' 0 7 == 0) (.ringPeek ⟨d, a, r.low.getLsbD 7⟩)
def decRingRel (r : RawA) : Option Instr :=
  (sreg r.a).bind fun a => (scope (r.low.extractLsb' 4 3)).bind fun s =>
  need (r.la == 0 && r.ty == 1 && r.dst == codeZ && r.c == codeZ && r.low.extractLsb' 0 4 == 0 && !r.low.getLsbD 7)
    (.ringRel ⟨a, opnd r.b, s⟩)
def decGfire (r : RawA) : Option Instr :=
  (sreg r.a).bind fun a => (sregOr r.b).bind fun b =>
  need (r.la == 0 && r.ty == 1 && r.dst == codeZ && r.c == codeZ && r.low.extractLsb' 0 7 == 0) (.gfire ⟨a, b, r.low.getLsbD 7⟩)
def decGnode (mk : GnodeF → Instr) (r : RawA) : Option Instr :=
  (sreg r.dst).bind fun d => (sreg r.a).bind fun a =>
  need (r.la == 0 && r.ty == 1 && r.b == codeZ && r.c == codeZ && r.low == 0) (mk ⟨d, a⟩)
def decBare (i : Instr) (t : BitVec 3) (r : RawA) : Option Instr :=
  need (r.la == 0 && r.ty == t && r.dst == codeZ && r.a == codeZ && r.b == codeZ && r.c == codeZ && r.low == 0) i
/-- Class 5 (R283). -/
def decSch (r : RawA) : Option Instr :=
  match r.op.toNat with
  | 0x000 => decLaunch r
  | 0x001 => decWdask r
  | 0x002 => decRingAcq r
  | 0x003 => decRingCmt r
  | 0x004 => decRingPeek r
  | 0x005 => decRingRel r
  | 0x006 => decGfire r
  | 0x007 => decGnode .gnode r
  | 0x008 => decGnode .gcancel r
  | 0x009 => decBare .hnext 1 r
  | 0x00A => decBare .waitpred 1 r
  | 0x00B => decBare .yield 1 r
  | 0x00C => decOneA .prio r
  | _ => none

/-! ## Class 6 (R321, R334) -/

def decTrap (r : RawS) : Option Instr :=
  need (r.imm.extractLsb' 4 4 == 0 && r.reg == 0 && r.num == 0 && r.rest == 0) (.trap (fin16 (r.imm.extractLsb' 0 4)))
def decTret (r : RawS) : Option Instr :=
  need (r.imm.extractLsb' 2 5 == 0 && r.reg == 0 && r.num == 0 && r.rest == 0)
    (.tret ⟨r.imm.getLsbD 7, tretMode (r.imm.extractLsb' 0 2)⟩)
/-- The mask register of `tkill` stands in [46:44]: the top three bits of the register field. -/
def decTkill (r : RawS) : Option Instr :=
  need (r.imm == 0 && r.reg.extractLsb' 0 7 == 0 && r.num == 0 && r.rest == 0) (.tkill (fin8 (r.reg.extractLsb' 7 3)))
def decGcall (r : RawS) : Option Instr :=
  need (r.imm == 0 && r.num == 0 && r.rest == 0) (.gcall r.reg)
def decGret (r : RawS) : Option Instr :=
  need (r.imm == 0 && r.reg == 0 && r.num == 0 && r.rest == 0) .gret
def decCsr (mk : CsrF → Instr) (r : RawS) : Option Instr :=
  (sreg r.reg).bind fun k => need (r.imm == 0 && r.rest == 0) (mk ⟨k, r.num⟩)
def decTlbinv (r : RawS) : Option Instr :=
  if r.imm == 0 then (sreg r.reg).bind fun k => need (r.num == 0 && r.rest == 0) (.tlbinv (some k))
  else need (r.imm == 1 && r.reg == codeZ && r.num == 0 && r.rest == 0) (.tlbinv none)
def decDrain (r : RawS) : Option Instr :=
  need (r.imm.extractLsb' 3 5 == 0 && r.reg == 0 && r.num == 0 && r.rest == 0)
    (.drain ⟨r.imm.getLsbD 0, r.imm.getLsbD 1, r.imm.getLsbD 2⟩)
/-- Class 6 (R321). -/
def decSys (r : RawS) : Option Instr :=
  match r.op.toNat with
  | 0x000 => decTrap r
  | 0x001 => decTret r
  | 0x002 => decTkill r
  | 0x003 => decGcall r
  | 0x004 => decGret r
  | 0x005 => decCsr .csrrd r
  | 0x006 => decCsr .csrwr r
  | 0x007 => decTlbinv r
  | 0x008 => decDrain r
  | _ => none

/-! ## Class 7 (R219) -/

def decABin (mk : ABinF → Instr) (r : RawA) : Option Instr :=
  (aopnd r.dst).bind fun d => (aopnd r.a).bind fun a => (aopnd r.b).bind fun b =>
  need (r.la == 0 && r.ty == 3 && r.c == codeZ && r.low == 0) (mk ⟨d, a, b⟩)
def decAShr (r : RawA) : Option Instr :=
  (aty r.ty).bind fun t => (aopnd r.dst).bind fun d => (aopnd r.a).bind fun a => (aopnd r.b).bind fun b =>
  need (r.la == 0 && r.c == codeZ && r.low == 0) (.ashr ⟨t, d, a, b⟩)
def decACmp (r : RawA) : Option Instr :=
  (aty r.ty).bind fun t => (cond (r.low.extractLsb' 5 3)).bind fun c =>
  (aopnd r.dst).bind fun d => (aopnd r.a).bind fun a => (aopnd r.b).bind fun b =>
  need (r.la == 0 && r.c == codeZ && r.low.extractLsb' 0 5 == 0) (.acmp ⟨t, c, d, a, b⟩)
def decAMov (r : RawA) : Option Instr :=
  (aopnd r.dst).bind fun d => (aopnd r.a).bind fun a =>
  need (r.la == 0 && r.ty == 3 && r.b == codeZ && r.c == codeZ && r.low.extractLsb' 0 3 == 0)
    (.amov ⟨d, a, fin32 (r.low.extractLsb' 3 5)⟩)
def decAMovi (r : RawI) : Option Instr :=
  (aty r.ty).bind fun t => (aopnd r.dst).bind fun d => need (r.a == codeZ) (.amovi ⟨t, d, r.imm⟩)
def decAld (r : RawA) : Option Instr :=
  (aopnd r.dst).bind fun d => (aopnd r.a).bind fun a =>
  need (r.la == 0 && r.ty == 3 && r.b == codeZ && r.c == codeZ && !r.low.getLsbD 0)
    (.ald ⟨d, a, fin32 (r.low.extractLsb' 3 5), awidth (r.low.extractLsb' 1 2)⟩)
def decAst (r : RawA) : Option Instr :=
  (aopnd r.a).bind fun a => (aopnd r.b).bind fun b =>
  need (r.la == 0 && r.ty == 3 && r.dst == codeZ && r.c == codeZ && !r.low.getLsbD 0)
    (.ast ⟨a, b, fin32 (r.low.extractLsb' 3 5), awidth (r.low.extractLsb' 1 2)⟩)
/-- A destination q0..q3 (R219). -/
def pushQ (c : BitVec 10) : Option (Fin 4) :=
  if h : c.toNat - 1008 < 4 ∧ 1008 ≤ c.toNat then some ⟨c.toNat - 1008, h.1⟩ else none
def pushQCode (q : Fin 4) : BitVec 10 := BitVec.ofNat 10 (1008 + q.val)
/-- A source q4..q7 (R219). -/
def popQ (c : BitVec 10) : Option (Fin 4) :=
  if h : c.toNat - 1012 < 4 ∧ 1012 ≤ c.toNat then some ⟨c.toNat - 1012, h.1⟩ else none
def popQCode (q : Fin 4) : BitVec 10 := BitVec.ofNat 10 (1012 + q.val)
/-- A destination a0..a31 alone. -/
def areg (c : BitVec 10) : Option (Fin 32) := if h : c.toNat < 32 then some ⟨c.toNat, h⟩ else none
def aregCode (k : Fin 32) : BitVec 10 := BitVec.ofNat 10 k.val
def decApush (r : RawA) : Option Instr :=
  (pushQ r.dst).bind fun q => (aopnd r.a).bind fun a => (aopnd r.b).bind fun b =>
  need (r.la == 0 && r.ty == 3 && r.c == codeZ && r.low.extractLsb' 0 3 == 0) (.apush ⟨q, a, b, fin32 (r.low.extractLsb' 3 5)⟩)
def decApushm (r : RawA) : Option Instr :=
  (pushQ r.dst).bind fun q => (aopnd r.a).bind fun a =>
  need (r.la == 0 && r.ty == 3 && r.b == codeZ && r.c.extractLsb' 5 5 == 0 && r.low.extractLsb' 0 3 == 0)
    (.apushm ⟨q, a, fin32 (r.c.extractLsb' 0 5), fin32 (r.low.extractLsb' 3 5)⟩)
def decApop (r : RawA) : Option Instr :=
  (areg r.dst).bind fun d => (popQ r.a).bind fun q =>
  need (r.la == 0 && r.ty == 3 && r.b == codeZ && r.c == codeZ && r.low.extractLsb' 0 3 == 0)
    (.apop ⟨d, q, fin32 (r.low.extractLsb' 3 5)⟩)
def decAkvw (r : RawA) : Option Instr :=
  (areg r.dst).bind fun d => (aopnd r.a).bind fun a => (aopnd r.b).bind fun b => (aopnd r.c).bind fun c =>
  need (r.la == 0 && r.ty == 3 && r.low == 0) (.akvw ⟨d, a, b, c⟩)
def decAwait (r : RawA) : Option Instr :=
  (aopnd r.a).bind fun a =>
  need (r.la == 0 && r.ty == 3 && r.dst == codeZ && r.b == codeZ && r.c.extractLsb' 6 4 == 0 && r.low.extractLsb' 0 3 == 0)
    (.await ⟨a, r.c.extractLsb' 0 6, fin32 (r.low.extractLsb' 3 5)⟩)
/-- `aeng`: bits [38:30] of word 0 hold the command's opcode and [29:25] the warp (R222). LA is 0 (R32). -/
def decAeng (r : RawE) (w : Unit64) : Option Instr :=
  (stat r.stat).bind fun k => (engBody (r.hi.extractLsb' 5 9).toNat r.per w).bind fun b =>
  need (r.la == 0) (.aeng ⟨r.sync, k, fin32 (r.hi.extractLsb' 0 5), b⟩)
/-- Class 7, format A (R219). -/
def decAcc (r : RawA) : Option Instr :=
  match r.op.toNat with
  | 0x000 => decABin .aadd r
  | 0x001 => decABin .asub r
  | 0x002 => decABin .amul r
  | 0x003 => decABin .ashl r
  | 0x004 => decAShr r
  | 0x005 => decABin .aand r
  | 0x006 => decABin .aor r
  | 0x007 => decABin .axor r
  | 0x008 => decACmp r
  | 0x009 => decAMov r
  | 0x00B => decAld r
  | 0x00C => decAst r
  | 0x00D => decApush r
  | 0x00E => decApushm r
  | 0x00F => decApop r
  | 0x010 => decAkvw r
  | 0x012 => decAwait r
  | 0x013 => decBare .aend 3 r
  | _ => none

/-! ## Control (R60) -/

def decBra (mk : BitVec 24 → Instr) (r : RawB) : Option Instr := need (r.cond == 0 && r.tail == 0) (mk r.tgt)
/-- COND of `brc` as a warp reads it (R62) and as a front-end context reads it (R218). -/
def brCond (fe : Bool) (c : BitVec 6) : Option BrCond :=
  if fe then some (.areg (fin32 (c.extractLsb' 1 5)) (c.getLsbD 0))
  else if c.extractLsb' 0 2 == 0 then some (.mask (fin8 (c.extractLsb' 3 3)) (c.getLsbD 2)) else none
def brCondBits : BrCond → BitVec 6
  | .mask m inv => bits3 m ++ bit1 inv ++ 0#2
  | .areg k inv => bits5 k ++ bit1 inv
def decBrc (fe : Bool) (r : RawB) : Option Instr :=
  (brCond fe r.cond).bind fun c => need (r.tail.extractLsb' 0 5 == 0 && (!fe || r.tail.extractLsb' 5 20 == 0))
    (.brc ⟨c, r.tgt, r.tail.extractLsb' 5 20⟩)
def decBrx (mk : BrxF → Instr) (r : RawB) : Option Instr :=
  need (r.cond == 0 && r.tail.extractLsb' 0 15 == 0) (mk ⟨r.tgt, opnd (r.tail.extractLsb' 15 10)⟩)
def decCtlBare (i : Instr) (r : RawB) : Option Instr := need (r.cond == 0 && r.tgt == 0 && r.tail == 0) i
/-- The control instructions; `fe` says that a front-end context decodes (R218). -/
def decCtl (fe : Bool) (r : RawB) : Option Instr :=
  match r.op.toNat with
  | 0x1F0 => decBra .bra r
  | 0x1F1 => decBrc fe r
  | 0x1F2 => if fe then none else decBrx .brx r
  | 0x1F3 => decBra .call r
  | 0x1F4 => if fe then none else decBrx .callx r
  | 0x1F5 => decCtlBare .ret r
  | 0x1F6 => need (r.tail == 0 && (!fe || decide (r.cond.toNat < 32))) (.loop ⟨r.cond, r.tgt⟩)
  | 0x1F7 => if fe then none else decCtlBare .endl r
  | _ => none

/-! ## Headers -/

/-- The signature of a clause header (R21, R384). -/
def isHeader (w : Unit64) : Bool := w.extractLsb' 58 6 == 0b101101#6

/-- R21, R22: the class, the hint and the reserved bits. -/
def header (w : Unit64) : Option Header :=
  if h : isHeader w = true ∧ (w.extractLsb' 54 4).toNat < 8 ∧ w.getLsbD 49 = false ∧ w.extractLsb' 0 25 = 0 then
    some ⟨⟨(w.extractLsb' 54 4).toNat, h.2.1⟩, fin16 (w.extractLsb' 50 4), w.getLsbD 48, w.extractLsb' 40 8, w.getLsbD 39,
      w.getLsbD 38, w.getLsbD 37, w.extractLsb' 31 6, w.extractLsb' 25 6⟩
  else none
def headerWord (h : Header) : Unit64 :=
  0b101101#6 ++ BitVec.ofNat 4 h.cls.val ++ bits4 h.cnt ++ 0#1 ++ bit1 h.yld ++ h.qwait ++ bit1 h.ldrn ++ bit1 h.sack ++
    bit1 h.swen ++ h.swk ++ h.swg ++ 0#25

/-! ## The decoder -/

/-- Why a unit is no instruction, in the order of R40. -/
inductive DecodeError where
  /-- Cause 0x12 (R22). -/
  | badHeader
  /-- Cause 0x15 (R38). -/
  | controlNotLast
  /-- Cause 0x17 (R30). -/
  | crosses
  /-- Cause 0x11 (R39). -/
  | reserved
  deriving DecidableEq, Repr

/-- The opcode of a unit, bits [63:55]. -/
def opcode (w : Unit64) : Nat := (w.extractLsb' 55 9).toNat

/-- Control opcodes (R38). -/
def isControl (op : Nat) : Bool := decide (0x1F0 ≤ op) && decide (op ≤ 0x1F7)

/-- The opcodes that a class allocates (R37, R39). -/
def allocated (cls : Fin 8) (op : Nat) : Bool :=
  isControl op ||
  match cls.val with
  | 0 => decide (op < 0x029) || (decide (0x040 ≤ op) && decide (op < 0x04C)) || (decide (0x050 ≤ op) && decide (op < 0x059)) ||
      (decide (0x060 ≤ op) && decide (op < 0x063)) || (decide (0x070 ≤ op) && decide (op < 0x076)) ||
      (decide (0x080 ≤ op) && decide (op < 0x088))
  | 1 => decide (op < 0x00B)
  | 2 => decide (op < 0x00B)
  | 3 => decide (op < 0x014)
  | 4 => decide (op < 0x010)
  | 5 => decide (op < 0x00D)
  | 6 => decide (op < 0x009)
  | _ => decide (op < 0x014)

/-- The opcodes that take two units: class 4, and `aeng` (R30, R37). -/
def twoUnits (cls : Fin 8) (op : Nat) : Bool := !isControl op && (cls.val == 4 || (cls.val == 7 && op == 0x011))

/-- The fields of an allocated opcode: none where R39 gives cause 0x11. -/
def decFields (cls : Fin 8) (w0 w1 : Unit64) : Option Instr :=
  if isControl (opcode w0) then decCtl (cls.val == 7) (RawB.ofWord w0)
  else match cls.val with
    | 0 =>
      if opcode w0 < 0x020 then decInt (RawA.ofWord w0)
      else if opcode w0 < 0x040 then decImmForms (RawI.ofWord w0)
      else decFloat (RawA.ofWord w0)
    | 1 => decXln (RawA.ofWord w0)
    | 2 => decMemory (RawM.ofWord w0)
    | 3 => decReg (RawA.ofWord w0)
    | 4 => decEng (RawE.ofWord w0) w1
    | 5 => decSch (RawA.ofWord w0)
    | 6 => decSys (RawS.ofWord w0)
    | _ =>
      if opcode w0 = 0x00A then decAMovi (RawI.ofWord w0)
      else if opcode w0 = 0x011 then decAeng (RawE.ofWord w0) w1
      else decAcc (RawA.ofWord w0)

/-- A unit at a clause header's place (R20-R22). -/
def decodeHeader (w : Unit64) : Except DecodeError Instr :=
  match header w with
  | none => .error .badHeader
  | some h => if Instr.wf (.clauseHeader h) then .ok (.clauseHeader h) else .error .badHeader

/-- An instruction word of a clause of class `cls`, with `left` units of the clause after it and `w1` the next unit. An opcode
that the class does not allocate is the instruction "illegal opcode" (R39); the rest follows R40. -/
def decodeWord (cls : Fin 8) (left : Nat) (w0 w1 : Unit64) : Except DecodeError Instr :=
  if allocated cls (opcode w0) then
    if isControl (opcode w0) && left != 0 then .error .controlNotLast
    else if twoUnits cls (opcode w0) && left == 0 then .error .crosses
    else match decFields cls w0 w1 with
      | none => .error .reserved
      | some i => if i.wf then .ok i else .error .reserved
  else .ok (.illegalOpcode w0)

/-- An operand field of class 7 whose code R32 does not list, or a queue where the instruction allows none (R32, R219). -/
def badAOpnd (push pop : Bool) (c : BitVec 10) : Bool :=
  match aopnd c with
  | none => true
  | some (.q k) => if k.val < 4 then !push else !pop
  | some _ => false

/-- The cause for which a front-end context stops at a word that `decodeWord` refuses (R32, R39, R218): 0x7C for a control
instruction or an operand code, 0x11 for the rest. -/
def frontEndCause (w : Unit64) : BitVec 8 :=
  let r := RawA.ofWord w
  let op := opcode w
  if isControl op then 0x7C
  else if op = 0x00A then (if badAOpnd false false (w.extractLsb' 45 10) || badAOpnd false false (w.extractLsb' 35 10) then 0x7C else 0x11)
  else if op = 0x011 then 0x11
  else if badAOpnd (op == 0x009 || op == 0x00D || op == 0x00E) false r.dst || badAOpnd false (op == 0x009 || op == 0x00F) r.a ||
      badAOpnd false false r.b || (op != 0x00E && op != 0x012 && badAOpnd false false r.c) then 0x7C
  else 0x11

/-- How many units an instruction takes in its clause (R20). -/
def units : Instr → Nat
  | .copy _ _ | .copymc _ _ | .gath _ _ | .scata _ _ | .mma _ _ | .tfill _ _ | .eseq _ _ | .kvw _ _ | .kvld _ _ | .kvst _ _
  | .kvfork _ _ | .splice _ _ | .rpopen _ _ | .rpstat _ _ | .rpcancel _ _ | .kvfree _ _ | .aeng _ => 2
  | _ => 1

/-! ## The encoder -/

def encA (op : Nat) (la : BitVec 4) (d a b c : BitVec 10) (t : BitVec 3) (low : BitVec 8) : Unit64 :=
  RawA.toWord ⟨BitVec.ofNat 9 op, la, d, a, b, c, t, low⟩
def encI (op : Nat) (d a : BitVec 10) (t : BitVec 3) (imm : BitVec 32) : Unit64 := RawI.toWord ⟨BitVec.ofNat 9 op, d, a, t, imm⟩
def encM (op : Nat) (la : BitVec 4) (d i : BitVec 10) (r : BitVec 5) (w : BitVec 3) (sx : Bool) (s : BitVec 3) (o : BitVec 2)
    (off : BitVec 17) : Unit64 :=
  RawM.toWord ⟨BitVec.ofNat 9 op, la, d, i, r, w, sx, s, o, off⟩
def encB (op : Nat) (c : BitVec 6) (t : BitVec 24) (tail : BitVec 25) : Unit64 := RawB.toWord ⟨BitVec.ofNat 9 op, c, t, tail⟩
def encS (op : Nat) (imm : BitVec 8) (reg : BitVec 10) (num : BitVec 12) : Unit64 :=
  RawS.toWord ⟨BitVec.ofNat 9 op, imm, reg, num, 0⟩

def satBits (b : Bool) : BitVec 8 := Low.bits ⟨0, b, false, false, false, false⟩
def encBinS (op : Nat) (f : BinS) : Unit64 :=
  encA op 0 (opndCode f.d) (opndCode f.a) (opndCode f.b) codeZ (tyCode f.ty) (satBits f.sat)
def encBin (op : Nat) (f : Bin) : Unit64 := encA op 0 (opndCode f.d) (opndCode f.a) (opndCode f.b) codeZ (tyCode f.ty) 0
def encTerS (op : Nat) (f : TerS) : Unit64 :=
  encA op 0 (opndCode f.d) (opndCode f.a) (opndCode f.b) (opndCode f.c) (tyCode f.ty) (satBits f.sat)
def encTer (op : Nat) (f : Ter) : Unit64 :=
  encA op 0 (opndCode f.d) (opndCode f.a) (opndCode f.b) (opndCode f.c) (tyCode f.ty) 0
def encDiv (op : Nat) (f : DivF) : Unit64 := encA op f.la (opndCode f.d) (opndCode f.a) (opndCode f.b) codeZ (tyCode f.ty) 0
def encUnS (op : Nat) (f : UnS) : Unit64 := encA op 0 (opndCode f.d) (opndCode f.a) codeZ codeZ (tyCode f.ty) (satBits f.sat)
def encUn (op : Nat) (f : Un) : Unit64 := encA op 0 (opndCode f.d) (opndCode f.a) codeZ codeZ (tyCode f.ty) 0
def encCarry (op : Nat) (f : CarryF) : Unit64 :=
  encA op 0 (opndCode f.d) (opndCode f.a) (opndCode f.b) (mregCode f.m) (tyCode f.ty) 0
def encLut (op : Nat) (f : LutF) : Unit64 :=
  encA op 0 (opndCode f.d) (opndCode f.a) (opndCode f.b) (opndCode f.c) (tyCode f.ty) f.tbl
def encCmp (op : Nat) (f : CmpF) : Unit64 :=
  encA op 0 (mregCode f.m) (opndCode f.a) (opndCode f.b) codeZ (tyCode f.ty) (condCode f.cond ++ 0#5)
def encLea (op : Nat) (f : LeaF) : Unit64 :=
  encA op 0 (opndCode f.d) (opndCode f.a) (opndCode f.b) (opndCode f.c) (tyCode f.ty) (bits3 f.sh ++ 0#5)
def encIdx2 (op : Nat) (f : IdxF) : Unit64 :=
  encA op 0 (opndCode f.d) (opndCode f.a) (opndCode f.b) (opndCode f.c) 1 (layCode f.lay ++ 0#5)
def encImm (op : Nat) (f : ImmF) : Unit64 := encI op (opndCode f.d) (opndCode f.a) (tyCode f.ty) f.imm
def encMovi (op : Nat) (f : MoviF) : Unit64 := encI op (opndCode f.d) codeZ (tyCode f.ty) f.imm
def encCmpi (op : Nat) (f : CmpiF) : Unit64 := encI op (mregCode f.m) (opndCode f.a) (tyCode f.ty) (condCode f.cond ++ f.imm)
def encFAr (op : Nat) (f : FArF) : Unit64 :=
  encA op 0 (opndCode f.d) (opndCode f.a) (opndCode f.b) (opndCode f.z) (tyCode f.ty) (Low.bits ⟨rndCode f.rnd, false, f.na, f.nb, false, false⟩)
def encFma (op : Nat) (f : FmaF) : Unit64 :=
  encA op 0 (opndCode f.d) (opndCode f.a) (opndCode f.b) (opndCode f.c) (tyCode f.ty) (Low.bits ⟨rndCode f.rnd, false, f.na, f.nb, f.nc, false⟩)
def encFMin (op : Nat) (f : FMinF) : Unit64 :=
  encA op 0 (opndCode f.d) (opndCode f.a) (opndCode f.b) codeZ (tyCode f.ty) (Low.bits ⟨0, false, f.na, f.nb, false, false⟩)
def encFCmp (op : Nat) (f : FCmpF) : Unit64 :=
  encA op 0 (mregCode f.m) (opndCode f.a) (opndCode f.b) codeZ 4 (Low.bits ⟨fcondCode f.cond, false, f.na, f.nb, false, false⟩)
def encFCls (op : Nat) (f : FClsF) : Unit64 := encA op 0 (opndCode f.d) (opndCode f.a) codeZ codeZ (tyCode f.ty) 0
def encFRnd (op : Nat) (f : FRndF) : Unit64 :=
  encA op 0 (opndCode f.d) (opndCode f.a) codeZ codeZ (tyCode f.ty) (Low.bits ⟨rndCode f.rnd, false, f.na, false, false, false⟩)
def encSfu (op : Nat) (f : SfuF) : Unit64 :=
  encA op f.la (opndCode f.d) (opndCode f.a) codeZ codeZ (tyCode f.ty) (Low.bits ⟨rneCode f.rne, false, f.na, false, false, false⟩)
def encFDiv (op : Nat) (f : FDivF) : Unit64 :=
  encA op f.la (opndCode f.d) (opndCode f.a) (opndCode f.b) codeZ (tyCode f.ty) (Low.bits ⟨rneCode f.rne, false, f.na, f.nb, false, false⟩)
def encCvt (op : Nat) (f : CvtF) : Unit64 :=
  encA op 0 (opndCode f.d) (opndCode f.a) (fmtCode f.dst ++ fmtCode f.src) (opndCode f.z) 0
    (Low.bits ⟨rndCode f.rnd, f.sat, f.na, false, false, false⟩)
def encCvtpk (op : Nat) (f : CvtpkF) : Unit64 :=
  encA op 0 (opndCode f.d) (opndCode f.a) (opndCode f.b) (opndCode f.z) (pkCode f.fmt) (Low.bits ⟨rndCode f.rnd, f.sat, f.na, f.nb, false, false⟩)
def encUnpk (op : Nat) (f : UnpkF) : Unit64 := encA op 0 (opndCode f.d) (opndCode f.a) codeZ codeZ (pkCode f.fmt) (bits3 f.e ++ 0#5)
def encRng (op : Nat) (f : RngF) : Unit64 := encA op f.la (opndCode f.d) (opndCode f.a) codeZ codeZ 1 0
def encSmx3 (op : Nat) (f : Smx3F) : Unit64 :=
  encA op 0 (opndCode f.d) (opndCode f.a) (opndCode f.b) (opndCode f.c) 4 (rneCode f.rne ++ 0#5)
def encSmx2 (op : Nat) (f : Smx2F) : Unit64 := encA op 0 (opndCode f.d) (opndCode f.a) (opndCode f.b) codeZ 4 (rneCode f.rne ++ 0#5)
def encDpm (op : Nat) (f : DpmF) : Unit64 :=
  encA op 0 (opndCode f.d) (opndCode f.a) (opndCode f.b) (opndCode f.c) (tyCode f.ty) (Low.bits ⟨rndCode f.rnd, false, f.na, false, f.nc, false⟩)
def encMBin (op : Nat) (f : MBinF) : Unit64 := encA op 0 (mregCode f.d) (mregCode f.a) (mregCode f.b) codeZ 1 0
def encMUn (op : Nat) (f : MUnF) : Unit64 := encA op 0 (mregCode f.d) (mregCode f.a) codeZ codeZ 1 0
def encMCnt (op : Nat) (f : MCntF) : Unit64 := encA op 0 (opndCode f.d) (mregCode f.a) codeZ codeZ 1 0
def encEmget (op : Nat) (d : MReg) : Unit64 := encA op 0 (mregCode d) codeZ codeZ codeZ 1 0
def encEmset (op : Nat) (a : MReg) : Unit64 := encA op 0 codeZ (mregCode a) codeZ codeZ 1 0
def encFold (op : Nat) (f : FoldF) : Unit64 :=
  encA op 0 (opndCode f.d) (opndCode f.a) codeZ codeZ (tyCode f.ty) (xlnBits (foldOpCode f.op) f.mem)
def encPlan (op : Nat) (f : PlanF) : Unit64 := encA op 0 (opndCode f.d) (opndCode f.a) codeZ codeZ 1 (bits3 f.b1 ++ 0#5)
def encMem (op : Nat) (f : MemF) : Unit64 :=
  encM op f.la (opndCode f.data) (opndCode f.idx) (bits5 f.rcd) (widthCode f.width) f.sx (scopeCode f.scope) (ordCode f.ord) f.off
def encWin (op : Nat) (f : WinF) : Unit64 :=
  encA op f.la (opndCode f.d) (opndCode f.a) (opndCode f.b) (opndCode f.c) (tyCode f.ty) (ordCode f.ord ++ 0#6)
def encOneA (op : Nat) (a : Opnd) : Unit64 := encA op 0 codeZ (opndCode a) codeZ codeZ 1 0
def encSync (op : Nat) (f : SyncF) : Unit64 := encA op 0 codeZ (opndCode f.a) (opndCode f.b) codeZ 1 0
def encGnode (op : Nat) (f : GnodeF) : Unit64 := encA op 0 (sregCode f.d) (sregCode f.a) codeZ codeZ 1 0
def encABin (op : Nat) (f : ABinF) : Unit64 := encA op 0 (aopndCode f.d) (aopndCode f.a) (aopndCode f.b) codeZ 3 0
def encEng (h : EHdr) (b : EngBody) : List Unit64 :=
  [RawE.toWord ⟨BitVec.ofNat 9 (engOp b), h.la, h.sync, statCode h.stat, 0, (engWords b).1⟩, (engWords b).2]

/-- The units of an instruction (R26-R32); events and host commands have none. -/
def encode : Instr → List Unit64
  | .clauseHeader h => [headerWord h]
  | .illegalOpcode w => [w]
  | .add f => [encBinS 0x000 f]
  | .sub f => [encBinS 0x001 f]
  | .mul f => [encBinS 0x002 f]
  | .mulhi f => [encBin 0x003 f]
  | .mad f => [encTerS 0x004 f]
  | .div f => [encDiv 0x005 f]
  | .rem f => [encDiv 0x006 f]
  | .min f => [encBin 0x007 f]
  | .max f => [encBin 0x008 f]
  | .abs f => [encUnS 0x009 f]
  | .neg f => [encUnS 0x00A f]
  | .addcy f => [encCarry 0x00B f]
  | .subbw f => [encCarry 0x00C f]
  | .shl f => [encBin 0x00D f]
  | .shr f => [encBin 0x00E f]
  | .rot f => [encBin 0x00F f]
  | .and f => [encBin 0x010 f]
  | .or f => [encBin 0x011 f]
  | .xor f => [encBin 0x012 f]
  | .not f => [encUn 0x013 f]
  | .andn f => [encBin 0x014 f]
  | .bfx f => [encBin 0x015 f]
  | .bfi f => [encTer 0x016 f]
  | .popc f => [encUn 0x017 f]
  | .clz f => [encUn 0x018 f]
  | .brev f => [encUn 0x019 f]
  | .lut3 f => [encLut 0x01A f]
  | .cmp f => [encCmp 0x01B f]
  | .sel f => [encCarry 0x01C f]
  | .mov f => [encUn 0x01D f]
  | .lea f => [encLea 0x01E f]
  | .idx2 f => [encIdx2 0x01F f]
  | .movi f => [encMovi 0x020 f]
  | .addi f => [encImm 0x021 f]
  | .muli f => [encImm 0x022 f]
  | .andi f => [encImm 0x023 f]
  | .ori f => [encImm 0x024 f]
  | .xori f => [encImm 0x025 f]
  | .shli f => [encImm 0x026 f]
  | .shri f => [encImm 0x027 f]
  | .cmpi f => [encCmpi 0x028 f]
  | .fadd f => [encFAr 0x040 f]
  | .fsub f => [encFAr 0x041 f]
  | .fmul f => [encFAr 0x042 f]
  | .fma f => [encFma 0x043 f]
  | .fmin f => [encFMin 0x044 f]
  | .fmax f => [encFMin 0x045 f]
  | .fminn f => [encFMin 0x046 f]
  | .fmaxn f => [encFMin 0x047 f]
  | .fcmp f => [encFCmp 0x048 f]
  | .fclass f => [encFCls 0x049 f]
  | .frnd f => [encFRnd 0x04A f]
  | .fdot2 f => [encFma 0x04B f]
  | .rcp f => [encSfu 0x050 f]
  | .rsqrt f => [encSfu 0x051 f]
  | .sqrt f => [encSfu 0x052 f]
  | .exp2 f => [encSfu 0x053 f]
  | .log2 f => [encSfu 0x054 f]
  | .sin f => [encSfu 0x055 f]
  | .cos f => [encSfu 0x056 f]
  | .tanh f => [encSfu 0x057 f]
  | .fdiv f => [encFDiv 0x058 f]
  | .cvt f => [encCvt 0x060 f]
  | .cvtpk f => [encCvtpk 0x061 f]
  | .unpk f => [encUnpk 0x062 f]
  | .rng f => [encRng 0x070 f]
  | .smxStep f => [encSmx3 0x071 f]
  | .smxMerge f => [encSmx2 0x072 f]
  | .smxNorm f => [encSmx2 0x073 f]
  | .rope f => [encSmx3 0x074 f]
  | .dpmul f => [encDpm 0x075 f]
  | .mand f => [encMBin 0x080 f]
  | .mor f => [encMBin 0x081 f]
  | .mxor f => [encMBin 0x082 f]
  | .mnot f => [encMUn 0x083 f]
  | .mpop f => [encMCnt 0x084 f]
  | .mffs f => [encMCnt 0x085 f]
  | .emget f => [encEmget 0x086 f]
  | .emset f => [encEmset 0x087 f]
  | .vote f =>
    [encA 0x000 0 (opndCode f.d) (mregCode f.p) codeZ codeZ (if f.mode = .mask then 3 else 1) (xlnBits (voteModeCode f.mode) f.mem)]
  | .shfl f =>
    [encA 0x001 0 (opndCode f.d) (opndCode f.a) (opndCode f.b) (opndCode f.c) (tyCode f.ty) (xlnBits (shflModeCode f.mode) f.mem)]
  | .bcast f => [encA 0x002 0 (opndCode f.d) (opndCode f.a) (opndCode f.b) (opndCode f.c) (tyCode f.ty) (xlnBits 0 f.mem)]
  | .scan f => [encFold 0x003 f]
  | .redux f => [encFold 0x004 f]
  | .csamp f => [encA 0x005 0 (opndCode f.d) (opndCode f.a) (opndCode f.b) codeZ 4 (xlnBits 0 f.mem)]
  | .matchx f => [encA 0x006 0 (opndCode f.d) (opndCode f.a) codeZ codeZ (tyCode f.ty) (xlnBits 0 f.mem)]
  | .plpk f => [encPlan 0x007 f]
  | .plunpk f => [encPlan 0x008 f]
  | .xch f => [encA 0x009 f.la (opndCode f.d) (opndCode f.a) codeZ codeZ (tyCode f.ty) 0]
  | .bar k => [encA 0x00A 0 codeZ codeZ codeZ codeZ 0 (barKindCode k ++ 0#5)]
  | .ld f => [encMem 0x000 f]
  | .st f => [encMem 0x001 f]
  | .lds f => [encMem 0x002 f]
  | .sts f => [encMem 0x003 f]
  | .atom f =>
    [encM 0x004 f.la (opndCode f.data) (opndCode f.idx) (bits5 f.rcd) (widthCode f.width) f.sx (scopeCode f.scope) (ordCode f.ord)
      (atomOpCode f.op ++ f.off)]
  | .cas f => [encMem 0x005 f]
  | .waita f => [encMem 0x006 f]
  | .fence f => [encM 0x007 0 codeZ codeZ 0 0 false (scopeCode f.scope) (ordCode f.ord) 0]
  | .pfch f => [encM 0x008 0 codeZ (opndCode f.idx) (bits5 f.rcd) (widthCode f.width) false (scopeCode f.scope) 0 f.off]
  | .brld f => [encM 0x009 0 codeZ (opndCode f.idx) (bits5 f.rcd) 0 false 0 0 0]
  | .brmk f =>
    [encM 0x00A 0 (sregCode f.k) codeZ (bits5 f.rcd) 0 false 0 0
      (0#9 ++ bit1 f.ka ++ bit1 f.kw ++ bit1 f.kr ++ bits5 f.src)]
  | .ldx f => [encA 0x000 0 (opndCode f.d) (opndCode f.a) (opndCode f.b) codeZ (tyCode f.ty) (bit1 f.lsel ++ 0#7)]
  | .stx f => [encA 0x001 0 codeZ (opndCode f.a) (opndCode f.b) (opndCode f.c) (tyCode f.ty) (bit1 f.lsel ++ 0#7)]
  | .wexp f =>
    [encA 0x002 0 (opndCode f.d) (opndCode f.a) (opndCode f.b) (opndCode f.c) 1
      (bit1 f.r ++ bit1 f.w ++ bit1 f.l ++ wscopeCode f.scope ++ 0#3)]
  | .wrev f => [encOneA 0x003 f.a]
  | .wrd f => [encWin 0x004 f]
  | .wwr f => [encWin 0x005 f]
  | .wgrant f =>
    [encA 0x006 0 codeZ (opndCode f.a) (opndCode f.b) codeZ 1 (bit1 f.r ++ bit1 f.w ++ bit1 f.l ++ bit1 f.tile ++ 0#4)]
  | .talloc f => [encA 0x007 0 codeZ (opndCode f.a) (opndCode f.b) codeZ 1 (bit1 f.z ++ 0#7)]
  | .tfree f => [encOneA 0x008 f.a]
  | .give f => [encA 0x009 0 codeZ (opndCode f.a) (opndCode f.b) codeZ 1 (scopeCode f.scope ++ bit1 f.tile ++ 0#4)]
  | .take f => [encA 0x00A 0 (opndCode f.d) (opndCode f.a) (opndCode f.b) codeZ 1 (0#3 ++ bit1 f.tile ++ 0#4)]
  | .waitg f => [encSync 0x00B f]
  | .syncset f => [encSync 0x00C f]
  | .rrot f => [encA 0x00D f.la codeZ codeZ codeZ codeZ 1 (bits5 f.tile ++ 0#3)]
  | .gstat f =>
    [encA 0x00E 0 (opndCode f.d) (opndCode f.a) (opndCode f.b) codeZ 1 (bits5 f.tile ++ bit1 f.isTile ++ bit1 f.lsel ++ 0#1)]
  | .fmask d => [encA 0x00F 0 (mregCode d) codeZ codeZ codeZ 1 0]
  | .tget f => [encA 0x010 0 (opndCode f.d) (opndCode f.a) codeZ codeZ (tyCode f.ty) (bits5 f.tile ++ 0#3)]
  | .tset f => [encA 0x011 0 codeZ (opndCode f.a) (opndCode f.b) codeZ (tyCode f.ty) (bits5 f.tile ++ 0#3)]
  | .qstat f => [encA 0x012 0 (opndCode f.d) codeZ codeZ codeZ 1 (bits3 f.q ++ 0#5)]
  | .qmark q => [encA 0x013 0 codeZ codeZ codeZ codeZ 1 (bits3 q ++ 0#5)]
  | .copy h f => encEng h (.copy f)
  | .copymc h f => encEng h (.copymc f)
  | .gath h f => encEng h (.gath f)
  | .scata h f => encEng h (.scata f)
  | .mma h f => encEng h (.mma f)
  | .tfill h f => encEng h (.tfill f)
  | .eseq h f => encEng h (.eseq f)
  | .kvw h f => encEng h (.kvw f)
  | .kvld h f => encEng h (.kvld f)
  | .kvst h f => encEng h (.kvst f)
  | .kvfork h f => encEng h (.kvfork f)
  | .splice h f => encEng h (.splice f)
  | .rpopen h f => encEng h (.rpopen f)
  | .rpstat h f => encEng h (.rpstat f)
  | .rpcancel h f => encEng h (.rpcancel f)
  | .kvfree h f => encEng h (.kvfree f)
  | .launch f => [encA 0x000 0 (sregCode f.d) (sregCode f.a) (sregOrCode f.b) codeZ 1 (bit1 f.t ++ bit1 f.dep ++ 0#6)]
  | .wdask f => [encA 0x001 f.la (sregCode f.d) (opndCode f.a) codeZ codeZ 1 0]
  | .ringAcq f => [encA 0x002 f.la (sregCode f.d) (sregCode f.a) codeZ codeZ 1 (bit1 f.c ++ scopeCode f.scope ++ 0#4)]
  | .ringCmt f => [encA 0x003 0 codeZ (sregCode f.a) (opndCode f.b) codeZ 1 (bit1 f.cl ++ scopeCode f.scope ++ 0#4)]
  | .ringPeek f => [encA 0x004 0 (sregCode f.d) (sregCode f.a) codeZ codeZ 1 (bit1 f.c ++ 0#7)]
  | .ringRel f => [encA 0x005 0 codeZ (sregCode f.a) (opndCode f.b) codeZ 1 (0#1 ++ scopeCode f.scope ++ 0#4)]
  | .gfire f => [encA 0x006 0 codeZ (sregCode f.a) (sregOrCode f.b) codeZ 1 (bit1 f.start ++ 0#7)]
  | .gnode f => [encGnode 0x007 f]
  | .gcancel f => [encGnode 0x008 f]
  | .hnext => [encA 0x009 0 codeZ codeZ codeZ codeZ 1 0]
  | .waitpred => [encA 0x00A 0 codeZ codeZ codeZ codeZ 1 0]
  | .yield => [encA 0x00B 0 codeZ codeZ codeZ codeZ 1 0]
  | .prio a => [encOneA 0x00C a]
  | .trap n => [encS 0x000 (0#4 ++ bits4 n) 0 0]
  | .tret f => [encS 0x001 (bit1 f.step ++ 0#5 ++ tretModeCode f.mode) 0 0]
  | .tkill m => [encS 0x002 0 (bits3 m ++ 0#7) 0]
  | .gcall g => [encS 0x003 0 g 0]
  | .gret => [encS 0x004 0 0 0]
  | .csrrd f => [encS 0x005 0 (sregCode f.k) f.csr]
  | .csrwr f => [encS 0x006 0 (sregCode f.k) f.csr]
  | .tlbinv (some k) => [encS 0x007 0 (sregCode k) 0]
  | .tlbinv none => [encS 0x007 1 codeZ 0]
  | .drain f => [encS 0x008 (0#5 ++ bit1 f.eng ++ bit1 f.st ++ bit1 f.ld) 0 0]
  | .aadd f => [encABin 0x000 f]
  | .asub f => [encABin 0x001 f]
  | .amul f => [encABin 0x002 f]
  | .ashl f => [encABin 0x003 f]
  | .ashr f => [encA 0x004 0 (aopndCode f.d) (aopndCode f.a) (aopndCode f.b) codeZ (atyCode f.ty) 0]
  | .aand f => [encABin 0x005 f]
  | .aor f => [encABin 0x006 f]
  | .axor f => [encABin 0x007 f]
  | .acmp f => [encA 0x008 0 (aopndCode f.d) (aopndCode f.a) (aopndCode f.b) codeZ (atyCode f.ty) (condCode f.cond ++ 0#5)]
  | .amov f => [encA 0x009 0 (aopndCode f.d) (aopndCode f.a) codeZ codeZ 3 (bits5 f.warp ++ 0#3)]
  | .amovi f => [encI 0x00A (aopndCode f.d) codeZ (atyCode f.ty) f.imm]
  | .ald f => [encA 0x00B 0 (aopndCode f.d) (aopndCode f.a) codeZ codeZ 3 (bits5 f.rcd ++ awidthCode f.width ++ 0#1)]
  | .ast f => [encA 0x00C 0 codeZ (aopndCode f.a) (aopndCode f.b) codeZ 3 (bits5 f.rcd ++ awidthCode f.width ++ 0#1)]
  | .apush f => [encA 0x00D 0 (pushQCode f.q) (aopndCode f.a) (aopndCode f.b) codeZ 3 (bits5 f.warp ++ 0#3)]
  | .apushm f => [encA 0x00E 0 (pushQCode f.q) (aopndCode f.a) codeZ (0#5 ++ bits5 f.rcd) 3 (bits5 f.warp ++ 0#3)]
  | .apop f => [encA 0x00F 0 (aregCode f.d) (popQCode f.q) codeZ codeZ 3 (bits5 f.warp ++ 0#3)]
  | .akvw f => [encA 0x010 0 (aregCode f.d) (aopndCode f.a) (aopndCode f.b) (aopndCode f.c) 3 0]
  | .aeng f =>
    [RawE.toWord ⟨0x011#9, 0, f.sync, statCode f.stat, BitVec.ofNat 9 (engOp f.body) ++ bits5 f.wt, (engWords f.body).1⟩,
     (engWords f.body).2]
  | .await f => [encA 0x012 0 codeZ (aopndCode f.a) codeZ (0#4 ++ f.k) 3 (bits5 f.warp ++ 0#3)]
  | .aend => [encA 0x013 0 codeZ codeZ codeZ codeZ 3 0]
  | .bra t => [encB 0x1F0 0 t 0]
  | .brc f => [encB 0x1F1 (brCondBits f.cond) f.tgt (f.join ++ 0#5)]
  | .brx f => [encB 0x1F2 0 f.off (opndCode f.idx ++ 0#15)]
  | .call t => [encB 0x1F3 0 t 0]
  | .callx f => [encB 0x1F4 0 f.off (opndCode f.idx ++ 0#15)]
  | .ret => [encB 0x1F5 0 0 0]
  | .loop f => [encB 0x1F6 f.k f.tgt 0]
  | .endl => [encB 0x1F7 0 0 0]
  | _ => []

/-- The class whose clauses hold an instruction; a control word stands in any class (R37, R38) and is given class 0, or class 7
for the front end's own form of `brc` (R218). None for a header, an event or a host command. -/
def classOf : Instr → Option (Fin 8)
  | .add _ | .sub _ | .mul _ | .mulhi _ | .mad _ | .div _ | .rem _ | .min _ | .max _ | .abs _ | .neg _ | .addcy _
  | .subbw _ | .shl _ | .shr _ | .rot _ | .and _ | .or _ | .xor _ | .not _ | .andn _ | .bfx _ | .bfi _ | .popc _
  | .clz _ | .brev _ | .lut3 _ | .cmp _ | .sel _ | .mov _ | .lea _ | .idx2 _ | .movi _ | .addi _ | .muli _ | .andi _
  | .ori _ | .xori _ | .shli _ | .shri _ | .cmpi _ | .fadd _ | .fsub _ | .fmul _ | .fma _ | .fmin _ | .fmax _
  | .fminn _ | .fmaxn _ | .fcmp _ | .fclass _ | .frnd _ | .fdot2 _ | .rcp _ | .rsqrt _ | .sqrt _ | .exp2 _ | .log2 _
  | .sin _ | .cos _ | .tanh _ | .fdiv _ | .cvt _ | .cvtpk _ | .unpk _ | .rng _ | .smxStep _ | .smxMerge _ | .smxNorm _
  | .rope _ | .dpmul _ | .mand _ | .mor _ | .mxor _ | .mnot _ | .mpop _ | .mffs _ | .emget _ | .emset _ => some 0
  | .vote _ | .shfl _ | .bcast _ | .scan _ | .redux _ | .csamp _ | .matchx _ | .plpk _ | .plunpk _ | .xch _ | .bar _ => some 1
  | .ld _ | .st _ | .lds _ | .sts _ | .atom _ | .cas _ | .waita _ | .fence _ | .pfch _ | .brld _ | .brmk _ => some 2
  | .ldx _ | .stx _ | .wexp _ | .wrev _ | .wrd _ | .wwr _ | .wgrant _ | .talloc _ | .tfree _ | .give _ | .take _
  | .waitg _ | .syncset _ | .rrot _ | .gstat _ | .fmask _ | .tget _ | .tset _ | .qstat _ | .qmark _ => some 3
  | .copy _ _ | .copymc _ _ | .gath _ _ | .scata _ _ | .mma _ _ | .tfill _ _ | .eseq _ _ | .kvw _ _ | .kvld _ _
  | .kvst _ _ | .kvfork _ _ | .splice _ _ | .rpopen _ _ | .rpstat _ _ | .rpcancel _ _ | .kvfree _ _ => some 4
  | .launch _ | .wdask _ | .ringAcq _ | .ringCmt _ | .ringPeek _ | .ringRel _ | .gfire _ | .gnode _ | .gcancel _
  | .hnext | .waitpred | .yield | .prio _ => some 5
  | .trap _ | .tret _ | .tkill _ | .csrrd _ | .csrwr _ | .tlbinv _ | .drain _ | .gcall _ | .gret => some 6
  | .aadd _ | .asub _ | .amul _ | .ashl _ | .ashr _ | .aand _ | .aor _ | .axor _ | .acmp _ | .amov _ | .amovi _
  | .ald _ | .ast _ | .apush _ | .apushm _ | .apop _ | .akvw _ | .aeng _ | .await _ | .aend => some 7
  | .brc f => some (match f.cond with | .mask _ _ => 0 | .areg _ _ => 7)
  | .bra _ | .brx _ | .call _ | .callx _ | .ret | .loop _ | .endl => some 0
  | _ => none

end Sys2Proof.Codec

namespace Sys2Proof

/-- The unit of a little-endian list of 8 bytes (R3, R4). -/
def unitOfBytes (l : List Byte) : Unit64 := BitVec.ofNat 64 (l.foldr (fun b n => b.toNat + 256 * n) 0)

/-- The eight bytes of a unit, lowest address first (R3). -/
def bytesOfUnit (w : Unit64) : List Byte := (List.range 8).map fun k => w.extractLsb' (8 * k) 8

/-- The instruction that a run of units stands for: a header alone; a header and the one instruction of its clause; or, without
a header, an instruction word of class 0. -/
def decodeUnits : List Unit64 → Option Instr
  | [] => none
  | w :: rest =>
    if Codec.isHeader w then
      match Codec.decodeHeader w, rest with
      | .ok i, [] => some i
      | .ok (.clauseHeader h), w0 :: more =>
        (Codec.decodeWord h.cls more.length w0 (more.headD 0)).toOption
      | _, _ => none
    else (Codec.decodeWord 0 rest.length w (rest.headD 0)).toOption

/-- The units of `w`, the first in the lowest 64 bits. -/
def unitsOf : Nat → Nat → List Unit64
  | 0, _ => []
  | n + 1, w => BitVec.ofNat 64 w :: unitsOf n (w / 2 ^ 64)

/-- What the decoder reads from the bits of one table row. The table gives its rows no bits, so a row that is one unit is read as
a header or as a word of class 0, and longer rows are read as a clause. -/
def decodeTableWord (nbits w : Nat) : Option Instr :=
  decodeUnits (((unitsOf (max 1 ((nbits + 63) / 64)) w).map bytesOfUnit).map unitOfBytes)

end Sys2Proof
end

