-- ==== Sys2Proof/Config.lean ====
section
/-! DEFINITION. What the manual leaves open and the hardware decides: constants with no body, so that no proof can use a value
of one. Each takes a plain counter (State.tick) or the operands it depends on. See the assumption log. -/

namespace Sys2Proof.Config

/-- FREE VALUE (log 4): the cycles beyond one that a step takes (timing binds nothing, R6, R193). -/
opaque elapsedCycles : Nat → Nat
/-- FREE VALUE (log 4): the nanoseconds by which RTC advances in a step (R12). -/
opaque elapsedNanos : Nat → Nat
/-- FREE VALUE (log 5): a word of a tile allocated without zero fill: contents not defined until written (R124, R125, R133). -/
opaque undefWord : Nat → BitVec 32
/-- FREE VALUE (log 8): the memory port of its die that owns a 256 B line; the hash is not published (R151). -/
opaque portHash : Nat → Nat
/-- FREE VALUE (log 9): the order of lanes of one access where the manual promises none (R165, R167). -/
opaque laneOrder : Nat → List Nat
/-- FREE VALUE (log 29): which of the pieces that an engine may move next it moves: no order is promised (R189, R206, R215, R216). -/
opaque pieceChoice : Nat → Nat
/-- FREE VALUE (log 29): the words of a k-group that the array lands next, by their places among those left (R189, R306). -/
opaque wordOrder : Nat → List Nat
/-- FREE VALUE (log 97): the port at which a fence draws its 64 B (R368): no rule names one. -/
opaque fencePort : Nat → Nat
/-- FREE VALUE (log 97): the network port that a reliable ordered flow prefers, of those that are up (R369). -/
opaque flowPort : Nat → Nat
/-- FREE VALUE (log 10): which of several enabled events the hardware performs next, when the agenda is silent (R239, R189). -/
opaque eventChoice : Nat → Nat
/-- FREE VALUE (log 11): the measurement of ROM image and fuses (R376): neither is given. -/
opaque measurement : BitVec 512
/-- FREE VALUE (log 11): whether the fuse configuration passes its check at power-on (R376). -/
opaque fusesPass : Bool
/-- FREE VALUE (log 11): whether the device key can be derived (R376). -/
opaque deviceKeyPresent : Bool
/-- FREE VALUE (log 11): the device id (R374). -/
opaque deviceId : BitVec 64
/-- FREE VALUE (log 11): the Ed448 signature, 912 bits, of measurement, host nonce and device id (R376). -/
opaque attestSignature : BitVec 256 → BitVec 912
/-- FREE VALUE (log 11): whether an operator signature verifies for a nonce (R374). -/
opaque operatorVerifies : BitVec 256 → BitVec 912 → Bool
/-- FREE VALUE (log 11): the device's nonce of a session (R374). -/
opaque sessionNonce : Nat → BitVec 256
/-- FREE VALUE (log 12): the expander and network ports that come up at start (19, bring-up). -/
opaque portsUpAtStart : BitVec 32
/-- FREE VALUE (log 13): the frame the firmware frees or supplies for a migration when the agenda names none (R160). -/
opaque freshFrame : Nat → Nat
/-- FREE VALUE (log 14): the outcome of a special function that the interval refinement does not separate; see Machine/Special.lean. -/
opaque unresolvedRounding : Nat → Bool
/-- FREE VALUE (log 19): whether a partition reset completes, and does not hang until its timeout (R318). -/
opaque resetCompletes : Nat → Bool
/-- FREE VALUE (log 7): the byte offset of a field in the payload of a host command, by OP and field: the layouts of most payloads
are not given (R374, R385). -/
opaque payloadOffset : Nat → Nat → BitVec 32
/-- FREE VALUE (log 15): a counter that STATS reports and no rule defines (R374). -/
opaque statCounter : Nat → BitVec 64

end Sys2Proof.Config
end

