-- ==== Sys2Proof/Machine/Fp.lean ====
section
/-! DEFINITION. Number formats and rounding (R68-R82): a floating value is a NaN, an infinity or an exact dyadic number; a result is
formed exactly and rounded once. -/

namespace Sys2Proof.Machine

/-- A value: a NaN with its sign, its fraction aligned to the 23 bits of FP32 and whether it is signalling; an infinity; or
(-1)^neg × m × 2^e (R68, R79). -/
inductive FVal where
  | nan (neg : Bool) (frac : Nat) (sig : Bool)
  | inf (neg : Bool)
  | num (neg : Bool) (m : Nat) (e : Int)
  deriving DecidableEq, Repr

/-- A binary floating format (R70): exponent and mantissa bits, bias, and how its top codes are used. -/
inductive Special where
  /-- IEEE infinities and NaNs at the top exponent. -/
  | ieee
  /-- One NaN per sign and no infinity (E4M3). -/
  | nanOnly
  /-- No special value. -/
  | none
  deriving DecidableEq, Repr

structure FFmt where
  (eb mb bias : Nat) (sp : Special)
  deriving DecidableEq, Repr

def f32 : FFmt := ⟨8, 23, 127, .ieee⟩
def f16 : FFmt := ⟨5, 10, 15, .ieee⟩
def bf16 : FFmt := ⟨8, 7, 127, .ieee⟩
def e5m2 : FFmt := ⟨5, 2, 15, .ieee⟩
def e4m3 : FFmt := ⟨4, 3, 7, .nanOnly⟩
def e3m2 : FFmt := ⟨3, 2, 3, .none⟩
def e2m3 : FFmt := ⟨2, 3, 1, .none⟩
def e2m1 : FFmt := ⟨2, 1, 1, .none⟩

namespace FFmt
/-- The exponent of the least bit of a subnormal. -/
def emin (f : FFmt) : Int := 1 - (f.bias : Int) - f.mb
/-- The code of the largest finite value (R70). -/
def maxCode (f : FFmt) : Nat :=
  match f.sp with
  | .ieee => (2 ^ f.eb - 1) * 2 ^ f.mb - 1
  | .nanOnly => 2 ^ (f.eb + f.mb) - 2
  | .none => 2 ^ (f.eb + f.mb) - 1
/-- The sign bit's place. -/
def signBit (f : FFmt) : Nat := 2 ^ (f.eb + f.mb)
/-- The code of +∞, or of the NaN that stands for an overflow (R77). -/
def infCode (f : FFmt) : Nat :=
  match f.sp with
  | .ieee => (2 ^ f.eb - 1) * 2 ^ f.mb
  | .nanOnly => 2 ^ (f.eb + f.mb) - 1
  | .none => 2 ^ (f.eb + f.mb) - 1
/-- The default NaN (R79). -/
def dfltNan (f : FFmt) : Nat :=
  match f.sp with
  | .ieee => (2 ^ f.eb - 1) * 2 ^ f.mb + 2 ^ (f.mb - 1)
  | .nanOnly => 2 ^ (f.eb + f.mb) - 1
  | .none => 0
/-- The significand and exponent of a finite code's magnitude. -/
def magOf (f : FFmt) (c : Nat) : Nat × Int :=
  let e := c / 2 ^ f.mb
  let m := c % 2 ^ f.mb
  if e = 0 then (m, f.emin) else (m + 2 ^ f.mb, f.emin + (e - 1 : Nat))
end FFmt

/-- The value of a code (R68, R70, R79). -/
def fdec (f : FFmt) (c : Nat) : FVal :=
  let neg := decide (f.signBit ≤ c % (2 * f.signBit))
  let b := c % f.signBit
  match f.sp with
  | .ieee =>
    if b / 2 ^ f.mb = 2 ^ f.eb - 1 then
      let m := b % 2 ^ f.mb
      if m = 0 then .inf neg else .nan neg (m * 2 ^ (23 - f.mb)) (decide (m < 2 ^ (f.mb - 1)))
    else .num neg (f.magOf b).1 (f.magOf b).2
  | .nanOnly =>
    if b = 2 ^ (f.eb + f.mb) - 1 then .nan neg (2 ^ 22) false else .num neg (f.magOf b).1 (f.magOf b).2
  | .none => .num neg (f.magOf b).1 (f.magOf b).2

/-- The code of a NaN, quieted, its payload cut from the low end (R79). -/
def nanCode (f : FFmt) (neg : Bool) (frac : Nat) : Nat :=
  (if neg then f.signBit else 0) +
  match f.sp with
  | .ieee =>
    let m := frac / 2 ^ (23 - f.mb)
    f.infCode + (if m < 2 ^ (f.mb - 1) then m + 2 ^ (f.mb - 1) else m)
  | .nanOnly => f.infCode
  | .none => 0

/-! ## Flags (R80): bit 0 IV, 1 DZ, 2 OF, 3 UF, 4 NX, as SFLAGS holds them (R18) -/

def fIV : Nat := 1
def fDZ : Nat := 2
def fOF : Nat := 4
def fUF : Nat := 8
def fNX : Nat := 16

/-- A result code with the flags it raises. -/
structure FRes where
  (val : Nat) (flags : Nat)
  deriving DecidableEq, Repr

/-- A rounding mode (R75); stochastic rounding carries k and its random number (R76). -/
inductive Mode where
  | rne | rtz | rdn | rup | rna
  | rs (k z : Nat)
  deriving DecidableEq, Repr

/-- The mode that ACR.RM names (R18). -/
def rmMode (rm : Nat) : Mode :=
  match rm with
  | 2 => .rtz | 3 => .rdn | 4 => .rup | 5 => .rna | _ => .rne

/-- The mode of a RND field; `z` is the random number for k bits (R75, R76). -/
def rndMode (r : Rnd) (rm k z : Nat) : Mode :=
  match r with
  | .dflt => rmMode rm | .rne => .rne | .rtz => .rtz | .rdn => .rdn | .rup => .rup | .rna => .rna
  | .rs => .rs k (z % 2 ^ k)

/-- The place of the top bit plus one: 0 for 0. -/
def bitLen (n : Nat) : Nat := if n = 0 then 0 else Nat.log2 n + 1

/-- Whether a magnitude is rounded up: `q` is kept, `r` of `2^d` is cut off, and `st` says that more follows below (R75, R76). -/
def roundsUp (md : Mode) (neg : Bool) (q r d : Nat) (st : Bool) : Bool :=
  if r = 0 && !st then false
  else match md with
    | .rne => decide (2 ^ d < 2 * r) || (decide (2 ^ d = 2 * r) && (st || q % 2 == 1))
    | .rna => decide (2 ^ d ≤ 2 * r)
    | .rtz => false
    | .rdn => neg
    | .rup => !neg
    | .rs k z => decide (z < r * 2 ^ k / 2 ^ d)

/-- The magnitude m × 2^e (and a little more where `st`) rounded to multiples of 2^l: the multiple and whether it is inexact. -/
def roundAt (md : Mode) (neg : Bool) (m : Nat) (e l : Int) (st : Bool) : Nat × Bool :=
  if l ≤ e then (m * 2 ^ (e - l).toNat, st)
  else
    let d := (l - e).toNat
    let q := m / 2 ^ d
    let r := m % 2 ^ d
    (if roundsUp md neg q r d st then q + 1 else q, decide (r ≠ 0) || st)

/-- The overflow result (R77), and its flags. -/
def overflowRes (f : FFmt) (md : Mode) (neg sat : Bool) : FRes :=
  let s := if neg then f.signBit else 0
  let toMax := sat || f.sp == .none ||
    match md with
    | .rtz => true
    | .rdn => !neg
    | .rup => neg
    | _ => false
  ⟨s + (if toMax then f.maxCode else f.infCode), fOF + fNX⟩

/-- Rounds (-1)^neg × m × 2^e, m not 0 or `st`, to a format (R75-R78). Where `st` holds, m has more bits than the format. -/
def fround (f : FFmt) (md : Mode) (sat neg : Bool) (m : Nat) (e : Int) (st : Bool) : FRes :=
  let top := (bitLen m : Int) + e
  let l := max f.emin (top - (f.mb + 1))
  let (q, inex) := roundAt md neg m e l st
  let code := ((l - f.emin).toNat) * 2 ^ f.mb + q
  if f.maxCode < code then overflowRes f md neg sat
  else
    let (u, _) := roundAt md neg m e (top - (f.mb + 1)) st
    let utop := (bitLen u : Int) + (top - (f.mb + 1))
    let tiny := decide (utop ≤ 1 - (f.bias : Int))
    ⟨(if neg then f.signBit else 0) + code, if inex then fNX + (if tiny then fUF else 0) else 0⟩

/-- A zero with a sign. -/
def zeroCode (f : FFmt) (neg : Bool) : Nat := if neg then f.signBit else 0

/-- Rounds an exact dyadic value to a format. -/
def froundNum (f : FFmt) (md : Mode) (sat neg : Bool) (m : Nat) (e : Int) : FRes :=
  if m = 0 then ⟨zeroCode f neg, 0⟩ else fround f md sat neg m e false

/-! ## Operations on values -/

/-- NA, NB and NC invert the sign, also of a NaN (R79). -/
def FVal.negIf (b : Bool) : FVal → FVal
  | .nan n fr s => .nan (n != b) fr s
  | .inf n => .inf (n != b)
  | .num n m e => .num (n != b) m e

def FVal.isNan : FVal → Bool
  | .nan _ _ _ => true
  | _ => false
def FVal.isSnan : FVal → Bool
  | .nan _ _ s => s
  | _ => false

/-- The first NaN of the operands, quieted, with IV if any operand signals (R79): none where no operand is a NaN. -/
def nanOf (f : FFmt) (xs : List FVal) : Option FRes :=
  match xs.find? FVal.isNan with
  | some (.nan n fr _) => some ⟨nanCode f n fr, if xs.any FVal.isSnan then fIV else 0⟩
  | _ => none

/-- The default NaN of an invalid operation (R79). -/
def invalid (f : FFmt) : FRes := ⟨f.dfltNan, fIV⟩

/-- A dyadic number as an integer multiple of 2^e0, for e0 at most its exponent. -/
def atExp (neg : Bool) (m : Nat) (e e0 : Int) : Int :=
  let v : Int := (m * 2 ^ (e - e0).toNat : Nat)
  if neg then -v else v

/-- The exact sum of two dyadic numbers: sign, magnitude, exponent. A zero sum has the sign of two like zeros, else + (- under
RDN) (R83). -/
def addExact (md : Mode) (n1 : Bool) (m1 : Nat) (e1 : Int) (n2 : Bool) (m2 : Nat) (e2 : Int) : Bool × Nat × Int :=
  let e0 := min e1 e2
  let s := atExp n1 m1 e1 e0 + atExp n2 m2 e2 e0
  if s = 0 then
    (if m1 = 0 ∧ m2 = 0 ∧ n1 = n2 then n1 else decide (md = .rdn), 0, 0)
  else (decide (s < 0), s.natAbs, e0)

/-- A + B (R83). -/
def faddV (f : FFmt) (md : Mode) (a b : FVal) : FRes :=
  match nanOf f [a, b] with
  | some r => r
  | none =>
    match a, b with
    | .inf n, .inf n' => if n = n' then ⟨f.infCode + zeroCode f n, 0⟩ else invalid f
    | .inf n, _ => ⟨f.infCode + zeroCode f n, 0⟩
    | _, .inf n => ⟨f.infCode + zeroCode f n, 0⟩
    | .num n1 m1 e1, .num n2 m2 e2 =>
      let (n, m, e) := addExact md n1 m1 e1 n2 m2 e2
      froundNum f md false n m e
    | _, _ => invalid f

/-- A × B (R83). -/
def fmulV (f : FFmt) (md : Mode) (a b : FVal) : FRes :=
  match nanOf f [a, b] with
  | some r => r
  | none =>
    match a, b with
    | .inf n, .inf n' => ⟨f.infCode + zeroCode f (n != n'), 0⟩
    | .inf n, .num n' m _ => if m = 0 then invalid f else ⟨f.infCode + zeroCode f (n != n'), 0⟩
    | .num n m _, .inf n' => if m = 0 then invalid f else ⟨f.infCode + zeroCode f (n != n'), 0⟩
    | .num n1 m1 e1, .num n2 m2 e2 => froundNum f md false (n1 != n2) (m1 * m2) (e1 + e2)
    | _, _ => invalid f

/-- The exact product: none for 0 × ∞. -/
def mulExact (a b : FVal) : Option FVal :=
  match a, b with
  | .inf n, .inf n' => some (.inf (n != n'))
  | .inf n, .num n' m _ => if m = 0 then none else some (.inf (n != n'))
  | .num n m _, .inf n' => if m = 0 then none else some (.inf (n != n'))
  | .num n1 m1 e1, .num n2 m2 e2 => some (.num (n1 != n2) (m1 * m2) (e1 + e2))
  | _, _ => none

/-- A × B + C with the product exact (R83). A product 0 × ∞ is invalid even when C is a quiet NaN, whose NaN is then the result. -/
def fmaV (f : FFmt) (md : Mode) (a b c : FVal) : FRes :=
  let bad := !a.isNan && !b.isNan && (mulExact a b).isNone
  match nanOf f [a, b, c] with
  | some r => ⟨r.val, if bad then fIV else r.flags⟩
  | none =>
    match mulExact a b, c with
    | none, _ => invalid f
    | some (.inf n), .inf n' => if n = n' then ⟨f.infCode + zeroCode f n, 0⟩ else invalid f
    | some (.inf n), _ => ⟨f.infCode + zeroCode f n, 0⟩
    | some _, .inf n => ⟨f.infCode + zeroCode f n, 0⟩
    | some (.num n1 m1 e1), .num n2 m2 e2 =>
      let (n, m, e) := addExact md n1 m1 e1 n2 m2 e2
      froundNum f md false n m e
    | _, _ => invalid f

/-- The code of a value in its own format. -/
def fenc (f : FFmt) : FVal → Nat
  | .nan n fr _ => nanCode f n fr
  | .inf n => f.infCode + zeroCode f n
  | .num n m e => (froundNum f .rne false n m e).val

/-- A < B for values that are no NaN; `zeros` says that -0 is less than +0 (R84). -/
def fless (zeros : Bool) (a b : FVal) : Bool :=
  match a, b with
  | .inf n, .inf n' => n && !n'
  | .inf n, _ => n
  | _, .inf n' => !n'
  | .num n1 m1 e1, .num n2 m2 e2 =>
    let e0 := min e1 e2
    let x := atExp n1 m1 e1 e0
    let y := atExp n2 m2 e2 e0
    decide (x < y) || (zeros && decide (m1 = 0 ∧ m2 = 0) && n1 && !n2)
  | _, _ => false

/-- R84: `fmin`, `fmax`. -/
def fminV (f : FFmt) (isMax : Bool) (a b : FVal) : FRes :=
  match nanOf f [a, b] with
  | some r => r
  | none => ⟨fenc f (if isMax then (if fless true a b then b else a) else (if fless true b a then b else a)), 0⟩

/-- R84: `fminn`, `fmaxn`. -/
def fminnV (f : FFmt) (isMax : Bool) (a b : FVal) : FRes :=
  match a.isNan, b.isNan with
  | true, false => ⟨fenc f b, if a.isSnan then fIV else 0⟩
  | false, true => ⟨fenc f a, if b.isSnan then fIV else 0⟩
  | _, _ => fminV f isMax a b

/-- R85: the mask bit and the flags of a comparison. -/
def fcmpV (c : FCond) (a b : FVal) : Bool × Nat :=
  let un := a.isNan || b.isNan
  let quietIV := match c with
    | .lt | .le | .gt | .ge => true
    | _ => false
  let fl := if a.isSnan || b.isSnan || (un && quietIV) then fIV else 0
  let lt := fless false a b
  let gt := fless false b a
  (match c with
    | .eq => !un && !lt && !gt
    | .ne => un || lt || gt
    | .lt => !un && lt
    | .le => !un && !gt
    | .gt => !un && gt
    | .ge => !un && !lt
    | .un => un
    | .or => !un, fl)

/-- R86: the class bits of a code. -/
def fclassV (f : FFmt) (c : Nat) : Nat :=
  match fdec f c with
  | .nan _ _ s => if s then 1 else 2
  | .inf n => if n then 4 else 512
  | .num n m _ =>
    if m = 0 then (if n then 32 else 64)
    else if m < 2 ^ f.mb then (if n then 16 else 128) else (if n then 8 else 256)

/-- R87: rounds to an integral value of the same format, with the sign of A; NX is never raised. -/
def frndV (f : FFmt) (md : Mode) (a : FVal) : FRes :=
  match nanOf f [a] with
  | some r => r
  | none =>
    match a with
    | .num n m e => ⟨if m = 0 then zeroCode f n else
        let q := (roundAt md n m e 0 false).1
        if 0 ≤ e then fenc f a else (froundNum f .rne false n q 0).val, 0⟩
    | _ => ⟨fenc f a, 0⟩

/-- R88: two products and a sum, rounded once to FP32. -/
def fdot2V (md : Mode) (a0 a1 b0 b1 c : FVal) : FRes :=
  let bad (x y : FVal) := !x.isNan && !y.isNan && (mulExact x y).isNone
  let term (x y : FVal) : Option FVal := if x.isNan || y.isNan then none else mulExact x y
  let has (n : Bool) : Bool := (term a0 b0 == some (.inf n)) || (term a1 b1 == some (.inf n)) || c == .inf n
  match nanOf f32 [a0, a1, b0, b1, c] with
  | some r => ⟨r.val, if bad a0 b0 || bad a1 b1 || (has true && has false) then fIV else r.flags⟩
  | none =>
    match mulExact a0 b0, mulExact a1 b1 with
    | some p, some q =>
      let infs := [p, q, c].filterMap fun x => match x with | .inf n => some n | _ => none
      match infs with
      | n :: t => if t.all (· == n) then ⟨f32.infCode + zeroCode f32 n, 0⟩ else invalid f32
      | [] =>
        match p, q, c with
        | .num n1 m1 e1, .num n2 m2 e2, .num n3 m3 e3 =>
          let (n, m, e) := addExact md n1 m1 e1 n2 m2 e2
          if m = 0 ∧ m3 = 0 then
            (if n1 = n2 ∧ n2 = n3 ∧ m1 = 0 ∧ m2 = 0 then ⟨zeroCode f32 n3, 0⟩ else ⟨zeroCode f32 (decide (md = .rdn)), 0⟩)
          else
            let (n', m', e') := addExact md n m e n3 m3 e3
            froundNum f32 md false n' m' e'
        | _, _, _ => invalid f32
    | _, _ => invalid f32

/-- A / B for finite nonzero numbers: a quotient with enough bits and a sticky mark (R89). -/
def divX (p : Nat) (m1 : Nat) (e1 : Int) (m2 : Nat) (e2 : Int) : Nat × Int × Bool :=
  let k := p + bitLen m2
  let q := m1 * 2 ^ k / m2
  (q, e1 - e2 - k, decide (m1 * 2 ^ k % m2 ≠ 0))

/-- A / B by the flags of `fdiv` (R89). -/
def fdivV (f : FFmt) (a b : FVal) : FRes :=
  match nanOf f [a, b] with
  | some r => r
  | none =>
    match a, b with
    | .inf _, .inf _ => invalid f
    | .inf n, .num n' _ _ => ⟨f.infCode + zeroCode f (n != n'), 0⟩
    | .num n _ _, .inf n' => ⟨zeroCode f (n != n'), 0⟩
    | .num n1 m1 e1, .num n2 m2 e2 =>
      if m2 = 0 then (if m1 = 0 then invalid f else ⟨f.infCode + zeroCode f (n1 != n2), fDZ⟩)
      else if m1 = 0 then ⟨zeroCode f (n1 != n2), 0⟩
      else
        let (q, e, st) := divX (f.mb + 4) m1 e1 m2 e2
        fround f .rne false (n1 != n2) q e st
    | _, _ => invalid f

/-- The integer square root, by two bits a step. -/
def isqrt : Nat → Nat → Nat
  | 0, _ => 0
  | k + 1, n =>
    let r := 2 * isqrt k (n / 4)
    if (r + 1) * (r + 1) ≤ n then r + 1 else r

/-- √(m × 2^e), with `p` bits at least: root, exponent, sticky. -/
def sqrtX (p : Nat) (m : Nat) (e : Int) : Nat × Int × Bool :=
  let s := 2 * p + (if e % 2 = 0 then 0 else 1)
  let n := m * 2 ^ s
  let r := isqrt (bitLen n) n
  (r, (e - s) / 2, decide (r * r ≠ n))

/-- R89. -/
def fsqrtV (f : FFmt) (a : FVal) : FRes :=
  match nanOf f [a] with
  | some r => r
  | none =>
    match a with
    | .inf n => if n then invalid f else ⟨f.infCode, 0⟩
    | .num n m e =>
      if m = 0 then ⟨zeroCode f n, 0⟩ else if n then invalid f
      else
        let (r, e', st) := sqrtX (f.mb + 4) m e
        fround f .rne false false r e' st
    | _ => invalid f

/-- R89: 1 / √A, from the root of the quotient 1 / A with many bits: 1/√(m 2^e) is the root of 2^(2k) / m scaled. -/
def frsqrtV (f : FFmt) (a : FVal) : FRes :=
  match nanOf f [a] with
  | some r => r
  | none =>
    match a with
    | .inf n => if n then invalid f else ⟨0, 0⟩
    | .num n m e =>
      if m = 0 then ⟨f.infCode + zeroCode f n, fDZ⟩ else if n then invalid f
      else
        let k := 2 * (f.mb + 4) + bitLen m + (if (e + (bitLen m : Int)) % 2 = 0 then 0 else 1)
        let t := 2 ^ k / m
        let r := isqrt (bitLen t) t
        fround f .rne false false r ((-e - k) / 2) (decide (r * r * m ≠ 2 ^ k))
    | _ => invalid f

end Sys2Proof.Machine
end

