-- ==== Sys2Proof/Machine/Special.lean ====
section
/-! DEFINITION. The special functions of R89 and the powers of R97: every result is the exact real value rounded once to nearest,
ties to even. A transcendental value is enclosed between two dyadic numbers, more and more closely, until both round alike; the
cases whose value is dyadic are taken first. Where the closest enclosure of the list does not decide, Config.unresolvedRounding
does (log 14). -/

namespace Sys2Proof.Machine

/-- A real number between lo × 2^-P and hi × 2^-P. -/
structure Iv where
  (lo hi : Nat)
  deriving DecidableEq, Repr

namespace Iv
def add (a b : Iv) : Iv := ⟨a.lo + b.lo, a.hi + b.hi⟩
def mul (p : Nat) (a b : Iv) : Iv := ⟨a.lo * b.lo / 2 ^ p, a.hi * b.hi / 2 ^ p + 1⟩
def divN (a : Iv) (n : Nat) : Iv := ⟨a.lo / n, a.hi / n + 1⟩
def quot (p : Nat) (a b : Iv) : Iv := ⟨a.lo * 2 ^ p / b.hi, a.hi * 2 ^ p / b.lo + 1⟩
def one (p : Nat) : Iv := ⟨2 ^ p, 2 ^ p⟩

/-- Σ y^k / k! from the k-th term on, for y < 1. -/
def expLoop (p : Nat) (y : Iv) : Nat → Nat → Iv → Iv → Iv
  | 0, _, t, s => ⟨s.lo, s.hi + t.hi + 1⟩
  | n + 1, k, t, s =>
    let t' := (mul p t y).divN k
    expLoop p y n (k + 1) t' (add s t')
def exp (p : Nat) (y : Iv) : Iv := expLoop p y (p / 3 + 4) 1 (one p) (one p)

/-- Σ z^(2k+1) / (2k+1), for z ≤ 1/3: `t` is the last power. -/
def atanhLoop (p : Nat) (zz : Iv) : Nat → Nat → Iv → Iv → Iv
  | 0, _, t, s => ⟨s.lo, s.hi + t.hi + 1⟩
  | n + 1, k, t, s =>
    let t' := mul p t zz
    atanhLoop p zz n (k + 2) t' (add s (t'.divN k))
def atanh (p : Nat) (z : Iv) : Iv := atanhLoop p (mul p z z) (p / 3 + 2) 3 z z
/-- The natural logarithm of 2. -/
def ln2 (p : Nat) : Iv :=
  let a := atanh p ⟨2 ^ p / 3, 2 ^ p / 3 + 1⟩
  ⟨2 * a.lo, 2 * a.hi⟩

/-- The alternating series of the arc tangent of 1/n: the terms are cut to integers. -/
def atanLoop (nn : Nat) : Nat → Nat → Nat → Int → Int → Int
  | 0, _, _, _, s => s
  | j + 1, k, t, sg, s => atanLoop nn j (k + 2) (t / nn) (-sg) (s + sg * (t / nn / k : Nat))
def atanInv (p n : Nat) : Int := atanLoop (n * n) (p / 4 + 4) 3 (2 ^ p / n) (-1) ((2 ^ p / n : Nat) : Int)
/-- 2π, by Machin's formula; the cut terms are off by less than 2 each. -/
def twoPi (p : Nat) : Iv :=
  let v := (32 * atanInv p 5 - 8 * atanInv p 239).toNat
  let w := 80 * (p / 4 + 6)
  ⟨v - w, v + w⟩

/-- Σ (-1)^k t_k with t_(k+1) = t_k × y / (d (d+1)). -/
def altLoop (p : Nat) (y : Iv) : Nat → Nat → Bool → Iv → Iv → Iv
  | 0, _, _, t, s => ⟨s.lo - t.hi, s.hi + t.hi⟩
  | n + 1, d, neg, t, s =>
    let t' := (mul p t y).divN (d * (d + 1))
    altLoop p y n (d + 2) (!neg) t' (if neg then ⟨s.lo - t'.hi, s.hi - t'.lo⟩ else add s t')
/-- sin θ / θ and cos θ, from θ². -/
def sinc (p : Nat) (yy : Iv) : Iv := altLoop p yy (p / 6 + 4) 2 true (one p) (one p)
def cosv (p : Nat) (yy : Iv) : Iv := altLoop p yy (p / 6 + 4) 1 true (one p) (one p)
end Iv

/-- A magnitude between lo × 2^e and hi × 2^e, both ends excluded. -/
structure Enclosure where
  (neg : Bool) (lo hi : Nat) (e : Int)
  deriving DecidableEq, Repr

/-- The codes that both ends round to. -/
def encRound (f : FFmt) (x : Enclosure) : FRes × FRes :=
  (fround f .rne false x.neg x.lo x.e true, fround f .rne false x.neg (x.hi - 1) x.e true)

/-- Rounds a value that no format holds, from enclosures at rising precision. -/
def refine (f : FFmt) (enc : Nat → Enclosure) : FRes :=
  let a := encRound f (enc 128)
  if a.1 = a.2 then a.1
  else
    let b := encRound f (enc 256)
    if b.1 = b.2 then b.1
    else
      let c := encRound f (enc 640)
      if c.1 = c.2 then c.1 else if Config.unresolvedRounding c.1.val then c.1 else c.2

/-- The integer part below and the fraction (of 2^k) of a dyadic number. -/
def floorFrac (neg : Bool) (m : Nat) (e : Int) : Int × Nat × Nat :=
  if 0 ≤ e then ((if neg then -((m * 2 ^ e.toNat : Nat) : Int) else (m * 2 ^ e.toNat : Nat)), 0, 0)
  else
    let k := (-e).toNat
    let v : Int := if neg then -(m : Int) else m
    (v.fdiv (2 ^ k), (v % (2 ^ k : Int)).toNat, k)

/-- 2^x for a dyadic x, rounded to nearest (R89, R97). -/
def exp2Num (f : FFmt) (neg : Bool) (m : Nat) (e : Int) : FRes :=
  if m = 0 then froundNum f .rne false false 1 0
  else if (bitLen m : Int) + e > 16 then
    (if neg then fround f .rne false false (2 ^ 40) (-70000) true else fround f .rne false false (2 ^ 40) 70000 true)
  else if (bitLen m : Int) + e < -70 then
    (if neg then fround f .rne false false (2 ^ 64 - 1) (-64) true else fround f .rne false false (2 ^ 64) (-64) true)
  else
    let (n, fr, k) := floorFrac neg m e
    if fr = 0 then froundNum f .rne false false 1 n
    else refine f fun p =>
      let x : Iv := if k ≤ p then ⟨fr * 2 ^ (p - k), fr * 2 ^ (p - k)⟩ else ⟨fr / 2 ^ (k - p), fr / 2 ^ (k - p) + 1⟩
      let v := Iv.exp p (Iv.mul p x (Iv.ln2 p))
      ⟨false, v.lo, v.hi, n - p⟩

/-- R89: 2^A. -/
def fexp2V (f : FFmt) (a : FVal) : FRes :=
  match nanOf f [a] with
  | some r => r
  | none =>
    match a with
    | .inf n => if n then ⟨0, 0⟩ else ⟨f.infCode, 0⟩
    | .num n m e => exp2Num f n m e
    | _ => invalid f

/-- log2 of m × 2^e, m > 0 (R89). -/
def log2Num (f : FFmt) (m : Nat) (e : Int) : FRes :=
  let l := bitLen m
  -- m × 2^e = (m / 2^l') × 2^(e + l') with m / 2^l' in [3/4, 3/2)
  let l' := if 3 * 2 ^ l ≤ 4 * m then l else l - 1
  let ex := e + l'
  if m = 2 ^ l' then froundNum f .rne false (decide (ex < 0)) ex.natAbs 0
  else refine f fun p =>
    let d := 2 ^ l'
    let low := decide (m < d)
    let num := if low then d - m else m - d
    let z : Iv := ⟨num * 2 ^ p / (m + d), num * 2 ^ p / (m + d) + 1⟩
    let a := Iv.atanh p z
    let q := Iv.quot p ⟨2 * a.lo, 2 * a.hi⟩ (Iv.ln2 p)
    let lo : Int := ex * 2 ^ p + (if low then -(q.hi : Int) else q.lo)
    let hi : Int := ex * 2 ^ p + (if low then -(q.lo : Int) else q.hi)
    if lo < 0 then ⟨true, hi.natAbs, lo.natAbs, -p⟩ else ⟨false, lo.natAbs, hi.natAbs, -p⟩

def flog2V (f : FFmt) (a : FVal) : FRes :=
  match nanOf f [a] with
  | some r => r
  | none =>
    match a with
    | .inf n => if n then invalid f else ⟨f.infCode, 0⟩
    | .num n m e =>
      if m = 0 then ⟨f.infCode + f.signBit, fDZ⟩ else if n then invalid f else log2Num f m e
    | _ => invalid f

/-- sin or cos of 2π × num / 2^(k+2), for 0 < num ≤ 2^(k-1). -/
def octant (isSin : Bool) (neg : Bool) (num k : Nat) (p : Nat) : Enclosure :=
  let tp := Iv.twoPi p
  let sh := k + 2
  let th : Iv := ⟨num * tp.lo / 2 ^ sh, num * tp.hi / 2 ^ sh + 1⟩
  let yy := Iv.mul p th th
  if isSin then
    let s := Iv.sinc p yy
    ⟨neg, num * tp.lo * s.lo, num * tp.hi * s.hi, -(sh : Int) - 2 * p⟩
  else
    let c := Iv.cosv p yy
    ⟨neg, c.lo, c.hi, -p⟩

/-- sin (or cos) of 2π times a dyadic number (R89). -/
def sinCosNum (f : FFmt) (isSin : Bool) (neg : Bool) (m : Nat) (e : Int) : FRes :=
  let k := if 0 ≤ e then 0 else (-e).toNat
  let num := if 0 ≤ e then 0 else m % 2 ^ k
  -- the quadrant and what is left, in quarters of 2^k
  let q := 4 * num / 2 ^ k
  let r := 4 * num % 2 ^ k
  let useSin := if isSin then q % 2 == 0 else q % 2 == 1
  let minus := if isSin then decide (2 ≤ q) else decide (q = 1 ∨ q = 2)
  let s := (isSin && neg) != minus
  if r = 0 then
    (if useSin then ⟨if isSin then zeroCode f neg else 0, 0⟩ else froundNum f .rne false s 1 0)
  else if 2 * r ≤ 2 ^ k then refine f (octant useSin s r k)
  else refine f (octant (!useSin) s (2 ^ k - r) k)

def fsinV (f : FFmt) (isSin : Bool) (a : FVal) : FRes :=
  match nanOf f [a] with
  | some r => r
  | none =>
    match a with
    | .num n m e => sinCosNum f isSin n m e
    | _ => invalid f

/-- tanh of a dyadic number (R89). -/
def tanhNum (f : FFmt) (neg : Bool) (m : Nat) (e : Int) : FRes :=
  if m = 0 then ⟨zeroCode f neg, 0⟩
  else if (bitLen m : Int) + e > 6 then fround f .rne false neg (2 ^ 80 - 1) (-80) true
  else if (bitLen m : Int) + e < -60 then fround f .rne false neg (m * 2 ^ 64 - 1) (e - 64) true
  else refine f fun p0 =>
    let p := p0 + 96
    let l := Iv.ln2 p
    let x : Nat := if -(p : Int) ≤ e + 1 then m * 2 ^ (e + 1 + p).toNat else m / 2 ^ (-(e + 1 + p)).toNat
    let n := x / l.hi
    let r : Iv := ⟨x - n * l.hi, x + 1 - n * l.lo⟩
    let v := Iv.exp p r
    let lo := v.lo * 2 ^ n
    let hi := v.hi * 2 ^ n
    ⟨neg, (lo - 2 ^ p) * 2 ^ p / (lo + 2 ^ p), (hi - 2 ^ p) * 2 ^ p / (hi + 2 ^ p) + 1, -p⟩

def ftanhV (f : FFmt) (a : FVal) : FRes :=
  match nanOf f [a] with
  | some r => r
  | none =>
    match a with
    | .inf n => froundNum f .rne false n 1 0
    | .num n m e => tanhNum f n m e
    | _ => invalid f

/-- R89: 1 / A. -/
def frcpV (f : FFmt) (a : FVal) : FRes := fdivV f (.num false 1 0) a

end Sys2Proof.Machine
end

