-- ==== Sys2Proof/Machine/Convert.lean ====
section
/-! DEFINITION. Conversions between formats (R90-R94), the DP8 multiply (R96), the attention helpers (R97-R100) and the random
generator (R95), as functions of codes. -/

namespace Sys2Proof.Machine

/-! ## DP8 (R74) -/

/-- A term's value in eighths. -/
def dpTerm (s : Bool) (c : Nat) : Int :=
  if c = 0 then 0 else (if s then -1 else 1) * (2 ^ (c - 1) : Int)
/-- The value of a code in eighths (R74). -/
def dpVal (c : Nat) : Int := dpTerm (c.testBit 7) (c / 16 % 8) + dpTerm (c.testBit 3) (c % 8)
def dpCanon (c : Nat) : Bool :=
  decide (c % 8 ≤ c / 16 % 8) && (!c.testBit 7 || decide (c / 16 % 8 ≠ 0)) && (!c.testBit 3 || decide (c % 8 ≠ 0))
/-- A DP8 code as a value. -/
def dpFVal (c : Nat) : FVal := .num (decide (dpVal c < 0)) (dpVal c).natAbs (-3)

/-- The canonical code nearest to X × 2^e0, the smaller byte on a tie; X and the codes are compared in units of 2^e0 (R92). -/
def dpNearest (x : Int) (e0 : Int) : Nat :=
  let d (c : Nat) : Nat := (x - dpVal c * 2 ^ (-3 - e0).toNat).natAbs
  (List.range 256).foldl (fun best c => if dpCanon c && decide (d c < d best) then c else best) 0

/-! ## `cvt` (R91, R92) -/

/-- A source value: an integer, or a floating value. -/
inductive CvtVal where
  | int (v : Int)
  | fl (v : FVal)
  deriving DecidableEq, Repr

def sext (w x : Nat) : Int := if 2 ^ (w - 1) ≤ x % 2 ^ w then ((x % 2 ^ w : Nat) : Int) - 2 ^ w else (x % 2 ^ w : Nat)

/-- Reads a source code from the low bits of a register or pair (R72, R91). -/
def cvtSrc (s : Fmt) (x : Nat) : CvtVal :=
  match s with
  | .i32 => .int (sext 32 x) | .n32 => .int (x % 2 ^ 32 : Nat) | .i64 => .int (sext 64 x) | .n64 => .int (x % 2 ^ 64 : Nat)
  | .i8 => .int (sext 8 x) | .n8 => .int (x % 256 : Nat) | .i4 => .int (sext 4 x)
  | .f32 => .fl (fdec f32 (x % 2 ^ 32)) | .f16 => .fl (fdec f16 (x % 2 ^ 16)) | .bf16 => .fl (fdec bf16 (x % 2 ^ 16))
  | .e4m3 => .fl (fdec e4m3 (x % 256)) | .e5m2 => .fl (fdec e5m2 (x % 256)) | .e3m2 => .fl (fdec e3m2 (x % 64))
  | .e2m3 => .fl (fdec e2m3 (x % 64)) | .e2m1 => .fl (fdec e2m1 (x % 16))
  | .e8m0 => .fl (if x % 256 = 255 then .nan false (2 ^ 22) false else .num false 1 ((x % 256 : Nat) - 127))
  | .ue4m3 => .fl (if x % 256 = 127 ∨ 128 ≤ x % 256 then .nan false (2 ^ 22) false else fdec e4m3 (x % 256))
  | .dp8 => .fl (dpFVal (x % 256))

/-- The width and signedness of an integer format. -/
def intFmt : Fmt → Nat × Bool
  | .i32 => (32, true) | .n32 => (32, false) | .i64 => (64, true) | .n64 => (64, false) | .i8 => (8, true) | .n8 => (8, false)
  | _ => (4, true)

def intRange (f : Fmt) : Int × Int :=
  let (w, s) := intFmt f
  if s then (-(2 ^ (w - 1) : Int), 2 ^ (w - 1) - 1) else (0, 2 ^ w - 1)

def intCode (f : Fmt) (v : Int) : Nat := (v % (2 ^ (intFmt f).1 : Int)).toNat

def ffmtOf : Fmt → FFmt
  | .f16 => f16 | .bf16 => bf16 | .e5m2 => e5m2 | .e4m3 => e4m3 | .e3m2 => e3m2 | .e2m3 => e2m3 | .e2m1 => e2m1 | _ => f32

/-- A floating value to an integer format (R92). -/
def toInt (d : Fmt) (md : Mode) (v : FVal) : FRes :=
  let (lo, hi) := intRange d
  match v with
  | .nan _ _ _ => ⟨0, fIV⟩
  | .inf n => ⟨intCode d (if n then lo else hi), fIV⟩
  | .num n m e =>
    let (q, inex) := roundAt md n m e 0 false
    let x : Int := if n then -(q : Int) else q
    if x < lo then ⟨intCode d lo, fIV⟩ else if hi < x then ⟨intCode d hi, fIV⟩ else ⟨intCode d x, if inex then fNX else 0⟩

/-- To E8M0 (R92). A tie goes to the even code under both nearest modes (DEDUCED, log 85). -/
def toE8m0 (md : Mode) (v : FVal) : FRes :=
  match v with
  | .nan _ _ s => ⟨0xFF, if s then fIV else 0⟩
  | .inf n => if n then ⟨0xFF, fIV⟩ else ⟨0xFE, fOF + fNX⟩
  | .num n m e =>
    if m = 0 then ⟨0, fUF + fNX⟩
    else if n then ⟨0xFF, fIV⟩
    else
      let x := (bitLen m : Int) - 1 + e
      if x < -127 then ⟨0, fUF + fNX⟩
      else
        let k := bitLen m - 1
        let exact := decide (m = 2 ^ k)
        let code := (x + 127).toNat
        let up := !exact && match md with
          | .rne | .rna => decide (3 * 2 ^ k < 2 * m) || (decide (3 * 2 ^ k = 2 * m) && code % 2 == 1)
          | .rup => true
          | _ => false
        let c := if up then code + 1 else code
        if 0xFE < c then ⟨0xFE, fOF + fNX⟩ else ⟨c, if exact then 0 else fNX⟩

/-- To UE4M3 (R92). -/
def toUe4m3 (md : Mode) (sat : Bool) (v : FVal) : FRes :=
  match v with
  | .nan _ _ s => ⟨0x7F, if s then fIV else 0⟩
  | .inf n => if n then ⟨0x7F, fIV⟩ else if sat then ⟨0x7E, fOF + fNX⟩ else ⟨0x7F, fIV⟩
  | .num n m e =>
    if m = 0 then ⟨0, 0⟩
    else if n then
      (if (fround e4m3 md false true m e false).val % 128 = 0 then ⟨0, fUF + fNX⟩ else ⟨0x7F, fIV⟩)
    else fround e4m3 md sat false m e false

/-- To DP8 (R92): the mode is always to the nearest representative. -/
def toDp8 (v : FVal) : FRes :=
  match v with
  | .nan _ _ _ => ⟨0, fIV⟩
  | .inf n => ⟨if n then 0xFF else 0x77, fOF + fNX⟩
  | .num n m e =>
    let e0 := min e (-3)
    let x := atExp n m e e0
    let big : Int := 128 * 2 ^ (-3 - e0).toNat
    if big < x then ⟨0x77, fOF + fNX⟩
    else if x < -big then ⟨0xFF, fOF + fNX⟩
    else
      let c := dpNearest x e0
      ⟨c, if dpVal c * 2 ^ (-3 - e0).toNat = x then 0 else if c = 0 then fUF + fNX else fNX⟩

/-- A floating value to a format by its row of R92. -/
def toFmt (d : Fmt) (md : Mode) (sat : Bool) (v : FVal) : FRes :=
  match d with
  | .i32 | .n32 | .i64 | .n64 | .i8 | .n8 | .i4 => toInt d md v
  | .e8m0 => toE8m0 md v
  | .ue4m3 => toUe4m3 md sat v
  | .dp8 => toDp8 v
  | .f32 | .f16 | .bf16 | .e5m2 =>
    let f := ffmtOf d
    match v with
    | .nan n fr s => ⟨nanCode f n fr, if s then fIV else 0⟩
    | .inf n => ⟨f.infCode + zeroCode f n, 0⟩
    | .num n m e => froundNum f md sat n m e
  | .e4m3 =>
    match v with
    | .nan n _ s => ⟨0x7F + zeroCode e4m3 n, if s then fIV else 0⟩
    | .inf n => if sat then ⟨0x7E + zeroCode e4m3 n, fOF + fNX⟩ else ⟨0x7F + zeroCode e4m3 n, fIV⟩
    | .num n m e => froundNum e4m3 md sat n m e
  | .e3m2 | .e2m3 | .e2m1 =>
    let f := ffmtOf d
    match v with
    | .nan _ _ _ => ⟨0, fIV⟩
    | .inf n => ⟨f.maxCode + zeroCode f n, fOF + fNX⟩
    | .num n m e => froundNum f md sat n m e

/-- R91: one conversion; `na` negates a floating source. -/
def cvtV (d s : Fmt) (md : Mode) (sat na : Bool) (x : Nat) : FRes :=
  match cvtSrc s x with
  | .int v =>
    if d.isInt then
      let (lo, hi) := intRange d
      ⟨intCode d (if sat then max lo (min hi v) else v), 0⟩
    else toFmt d md sat (.num (decide (v < 0)) v.natAbs 0)
  | .fl v => toFmt d md sat (v.negIf na)

def pkFmt : PkFmt → Fmt
  | .e4m3 => .e4m3 | .e5m2 => .e5m2 | .dp8 => .dp8 | .i8 => .i8 | .ue4m3 => .ue4m3 | .f16 => .f16 | .bf16 => .bf16
/-- The bits of an element of a packed format (R93). -/
def pkBits : PkFmt → Nat
  | .f16 | .bf16 => 16
  | _ => 8

/-- R94: one element of A as FP32. A NaN of E5M2 keeps no payload; a signalling one raises IV (R79). -/
def unpkV (p : PkFmt) (e x : Nat) : FRes :=
  let c := x / 2 ^ (pkBits p * e) % 2 ^ pkBits p
  match p, fdec e5m2 c with
  | .e5m2, .nan n _ s => ⟨f32.dfltNan + zeroCode f32 n, if s then fIV else 0⟩
  | _, _ => cvtV .f32 (pkFmt p) .rne false false c

/-! ## `rng` (R95) -/

def philoxRounds : Nat → Bool → Nat → Nat → Nat × Nat × Nat × Nat → Nat × Nat × Nat × Nat
  | 0, _, _, _, c => c
  | n + 1, first, k0, k1, (c0, c1, c2, c3) =>
    let k0 := if first then k0 else (k0 + 0x9E3779B9) % 2 ^ 32
    let k1 := if first then k1 else (k1 + 0xBB67AE85) % 2 ^ 32
    let p0 := 0xD2511F53 * c0
    let p1 := 0xCD9E8D57 * c2
    philoxRounds n false k0 k1
      ((p1 / 2 ^ 32) ^^^ c1 ^^^ k0, p1 % 2 ^ 32, (p0 / 2 ^ 32) ^^^ c3 ^^^ k1, p0 % 2 ^ 32)

/-- Philox4x32-10 of a counter and a 64-bit key (R95). -/
def philox (key : Nat) (c0 c1 c2 c3 : Nat) : List Nat :=
  let (a, b, c, d) := philoxRounds 10 true (key % 2 ^ 32) (key / 2 ^ 32) (c0, c1, c2, c3)
  [a, b, c, d]

/-! ## `dpmul` (R96) -/

/-- R96. A NaN operand is propagated by R79 even where A is infinite and the code's value is 0; IV is raised then as well (DESIGN
CHOICE, log 86: R96 gives the default NaN and R79 the operand). -/
def dpmulV (f : FFmt) (md : Mode) (a : FVal) (b : Nat) (c : FVal) : FRes := fmaV f md a (dpFVal (b % 256)) c

/-! ## Attention helpers (R97-R100): FP32 codes in, codes and flags out -/

/-- Equality of values that are no NaN. -/
def feqv (a b : FVal) : Bool := !fless false a b && !fless false b a

/-- RNE(2^(m - m')) for m < m' (R97): 0 where m is -∞ or m' is +∞. -/
def powDiff (m m' : FVal) : FRes :=
  match m, m' with
  | .num n1 m1 e1, .num n2 m2 e2 =>
    let (n, d, e) := addExact .rne n1 m1 e1 (!n2) m2 e2
    exp2Num f32 n d e
  | _, _ => ⟨0, 0⟩

def fmaxOf (a b : FVal) : FVal := if fless true a b then b else a

/-- R97: m', l', α and β. -/
def smxStepV (mc lc sc : Nat) : List Nat × Nat :=
  let m := fdec f32 mc
  let l := fdec f32 lc
  let s := fdec f32 sc
  match nanOf f32 [m, l, s] with
  | some r => ([r.val, r.val, r.val, r.val], r.flags)
  | none =>
    let m' := fmaxOf m s
    let al : FRes := if feqv m m' then ⟨0x3F800000, 0⟩ else powDiff m m'
    let be : FRes :=
      if s = .inf true then ⟨0, 0⟩
      else if feqv s m' then ⟨0x3F800000, 0⟩
      else powDiff s m'
    let p := fmulV f32 .rne l (fdec f32 al.val)
    let l' := faddV f32 .rne (fdec f32 p.val) (fdec f32 be.val)
    ([fenc f32 m', l'.val, al.val, be.val], al.flags ||| be.flags ||| p.flags ||| l'.flags)

/-- R98. The flags of every rounding step are raised, those of the powers and products too (DESIGN CHOICE, log 87). -/
def smxMergeV (a0 a1 a2 b0 b1 b2 : Nat) : List Nat × Nat :=
  let m1 := fdec f32 a0
  let l1 := fdec f32 a1
  let c1 := fdec f32 a2
  let m2 := fdec f32 b0
  let l2 := fdec f32 b1
  let c2 := fdec f32 b2
  match nanOf f32 [m1, l1, c1, m2, l2, c2] with
  | some r => ([r.val, r.val, r.val], r.flags)
  | none =>
    let m' := fmaxOf m1 m2
    let x1 : FRes := if feqv m1 m' then ⟨0x3F800000, 0⟩ else powDiff m1 m'
    let x2 : FRes := if feqv m2 m' then ⟨0x3F800000, 0⟩ else powDiff m2 m'
    let comb (u v : FVal) : FRes :=
      let p := fmulV f32 .rne u (fdec f32 x1.val)
      let q := fmulV f32 .rne v (fdec f32 x2.val)
      let r := faddV f32 .rne (fdec f32 p.val) (fdec f32 q.val)
      ⟨r.val, p.flags ||| q.flags ||| r.flags⟩
    let l := comb l1 l2
    let c := comb c1 c2
    ([fenc f32 m', l.val, c.val], x1.flags ||| x2.flags ||| l.flags ||| c.flags)

/-- R99. -/
def smxNormV (ac lc : Nat) : FRes :=
  match fdec f32 lc with
  | .num _ 0 _ => ⟨0, 0⟩
  | l => fdivV f32 (fdec f32 ac) l

/-- A sum whose second operand is subtracted; a NaN keeps its sign (R79). -/
def subSign : FVal → FVal
  | .nan n fr s => .nan n fr s
  | v => v.negIf true

/-- R100: x' and y'. R79 is applied to each rounding step in turn, so that of two NaNs y and f the frequency's is delivered (DESIGN
CHOICE, log 88); the flags of every step are raised (log 87). -/
def ropeV (xc yc p fc : Nat) : List Nat × Nat :=
  let x := fdec f32 xc
  let y := fdec f32 yc
  let t : Option FVal :=
    match fdec f32 fc with
    | .inf n => if p = 0 then none else some (.inf n)
    | .num n m e => some (.num n (m * p) e)
    | v => some v
  match t with
  | none => ([f32.dfltNan, f32.dfltNan], fIV)
  | some t =>
    let c := fsinV f32 false t
    let s := fsinV f32 true t
    let cv := fdec f32 c.val
    let sv := fdec f32 s.val
    let ys := fmulV f32 .rne y sv
    let yk := fmulV f32 .rne y cv
    let x' := fmaV f32 .rne x cv (subSign (fdec f32 ys.val))
    let y' := fmaV f32 .rne x sv (fdec f32 yk.val)
    ([x'.val, y'.val], c.flags ||| s.flags ||| ys.flags ||| yk.flags ||| x'.flags ||| y'.flags)

end Sys2Proof.Machine
end

