-- ==== Sys2Proof/Machine/IntArith.lean ====
section
/-! DEFINITION. The integer arithmetic of R43-R59 as functions of the operand values. An operand of width w is a natural number
below 2^w; the exact result is an integer, narrowed once at the end (R47). -/

namespace Sys2Proof.Machine

/-- The result of one lane: the value, and the conditions OV (R47) and DZ (R52). -/
structure IRes where
  (val : Nat) (ov : Bool := false) (dz : Bool := false)
  deriving DecidableEq, Repr

/-- The width w of an integer type (R43). -/
def ibits (t : Ty) : Nat := if t.wide then 64 else 32

/-- An operand as the integer its type makes of it (R43). -/
def ival (t : Ty) (x : Nat) : Int :=
  if t.signed && decide (2 ^ (ibits t - 1) ≤ x) then (x : Int) - 2 ^ ibits t else x

/-- An integer modulo 2^w, as an operand value. -/
def iwrap (t : Ty) (r : Int) : Nat := (r % (2 ^ ibits t : Int)).toNat

/-- The least and the greatest value of a type (R47). -/
def imin (t : Ty) : Int := if t.signed then -(2 ^ (ibits t - 1) : Int) else 0
def imax (t : Ty) : Int := if t.signed then 2 ^ (ibits t - 1) - 1 else 2 ^ ibits t - 1

/-- R47: the exact result, narrowed. -/
def ifit (t : Ty) (sat : Bool) (r : Int) : IRes :=
  if imin t ≤ r ∧ r ≤ imax t then ⟨iwrap t r, false, false⟩
  else if sat then ⟨iwrap t (if r < imin t then imin t else imax t), false, false⟩
  else ⟨iwrap t r, true, false⟩

def iadd (t : Ty) (sat : Bool) (a b : Nat) : IRes := ifit t sat (ival t a + ival t b)
def isub (t : Ty) (sat : Bool) (a b : Nat) : IRes := ifit t sat (ival t a - ival t b)
def imul (t : Ty) (sat : Bool) (a b : Nat) : IRes := ifit t sat (ival t a * ival t b)
def imad (t : Ty) (sat : Bool) (a b c : Nat) : IRes := ifit t sat (ival t a * ival t b + ival t c)
/-- R50: bits [2w-1:w] of the exact product. -/
def imulhi (t : Ty) (a b : Nat) : IRes := ⟨iwrap t ((ival t a * ival t b).fdiv (2 ^ ibits t)), false, false⟩
/-- R52: the quotient and the remainder. -/
def idiv (t : Ty) (a b : Nat) : IRes :=
  if b = 0 then ⟨0, false, true⟩
  else if t.signed ∧ ival t a = imin t ∧ ival t b = -1 then ⟨iwrap t (imin t), true, false⟩
  else ⟨iwrap t ((ival t a).tdiv (ival t b)), false, false⟩
def irem (t : Ty) (a b : Nat) : IRes :=
  if b = 0 then ⟨a, false, true⟩
  else if t.signed ∧ ival t a = imin t ∧ ival t b = -1 then ⟨0, true, false⟩
  else ⟨iwrap t (ival t a - (ival t a).tdiv (ival t b) * ival t b), false, false⟩
def iminOf (t : Ty) (a b : Nat) : IRes := ⟨if ival t a ≤ ival t b then a else b, false, false⟩
def imaxOf (t : Ty) (a b : Nat) : IRes := ⟨if ival t a ≤ ival t b then b else a, false, false⟩
def iabs (t : Ty) (sat : Bool) (a : Nat) : IRes := ifit t sat (if ival t a < 0 then -ival t a else ival t a)
def ineg (t : Ty) (sat : Bool) (a : Nat) : IRes := ifit t sat (-ival t a)
/-- R53: the sum or difference and the carry or borrow out. -/
def iaddcy (t : Ty) (a b c : Nat) : Nat × Bool := ((a + b + c) % 2 ^ ibits t, decide (2 ^ ibits t ≤ a + b + c))
def isubbw (t : Ty) (a b c : Nat) : Nat × Bool := (iwrap t ((a : Int) - b - c), decide ((a : Int) - b - c < 0))
/-- R50: the shift amount is a word. -/
def ishl (t : Ty) (a s : Nat) : IRes := ⟨if ibits t ≤ s then 0 else a * 2 ^ s % 2 ^ ibits t, false, false⟩
def ishr (t : Ty) (a s : Nat) : IRes := ⟨iwrap t ((ival t a).fdiv (2 ^ min s (ibits t))), false, false⟩
def irot (t : Ty) (a s : Nat) : IRes :=
  let k := s % ibits t
  ⟨(a * 2 ^ k % 2 ^ ibits t) + a / 2 ^ (ibits t - k), false, false⟩
def iand (a b : Nat) : IRes := ⟨a &&& b, false, false⟩
def ior (a b : Nat) : IRes := ⟨a ||| b, false, false⟩
def ixor (a b : Nat) : IRes := ⟨a ^^^ b, false, false⟩
def inot (t : Ty) (a : Nat) : IRes := ⟨2 ^ ibits t - 1 - a, false, false⟩
def iandn (t : Ty) (a b : Nat) : IRes := ⟨a &&& (2 ^ ibits t - 1 - b), false, false⟩
/-- R54: position and length of a position word. -/
def bfPos (b : Nat) : Nat := b % 256
def bfLen (t : Ty) (b : Nat) : Nat := min (b / 256 % 256) (ibits t)
def ibfx (t : Ty) (a b : Nat) : IRes :=
  let len := bfLen t b
  let f := ((ival t a).fdiv (2 ^ bfPos b)) % (2 ^ len : Int)
  ⟨if len = 0 then 0
   else if t.signed ∧ (2 ^ (len - 1) : Int) ≤ f then iwrap t (f - 2 ^ len)
   else f.toNat, false, false⟩
def ibfi (t : Ty) (a b c : Nat) : IRes :=
  let p := bfPos b
  let m := ((2 ^ bfLen t b - 1) * 2 ^ p) % 2 ^ ibits t
  ⟨(a &&& (2 ^ ibits t - 1 - m)) ||| ((c * 2 ^ p) &&& m), false, false⟩
/-- Bits counted from 0, each weighed by `f`. -/
def sumBits (f : Nat → Nat) : Nat → Nat
  | 0 => 0
  | n + 1 => f n + sumBits f n
def ipopc (t : Ty) (a : Nat) : IRes := ⟨sumBits (fun i => if a.testBit i then 1 else 0) (ibits t), false, false⟩
def iclz (t : Ty) (a : Nat) : IRes := ⟨if a = 0 then ibits t else ibits t - 1 - Nat.log2 a, false, false⟩
def ibrev (t : Ty) (a : Nat) : IRes :=
  ⟨sumBits (fun i => if a.testBit i then 2 ^ (ibits t - 1 - i) else 0) (ibits t), false, false⟩
/-- R55: the table bit of each bit position. -/
def ilut3 (t : Ty) (tbl : BitVec 8) (a b c : Nat) : IRes :=
  ⟨sumBits (fun i =>
    if tbl.getLsbD ((if a.testBit i then 1 else 0) + (if b.testBit i then 2 else 0) + (if c.testBit i then 4 else 0)) then 2 ^ i else 0)
    (ibits t), false, false⟩
/-- R56. -/
def icmp (t : Ty) (c : Cond) (a b : Nat) : Bool :=
  match c with
  | .eq => decide (ival t a = ival t b) | .ne => decide (ival t a ≠ ival t b) | .lt => decide (ival t a < ival t b)
  | .le => decide (ival t a ≤ ival t b) | .gt => decide (ival t a > ival t b) | .ge => decide (ival t a ≥ ival t b)
/-- A word read as a signed or unsigned number (R57). -/
def extWord (signed : Bool) (x : Nat) : Int := if signed && decide (2 ^ 31 ≤ x) then (x : Int) - 2 ^ 32 else x
/-- R57. -/
def ilea (t : Ty) (h a b c : Nat) : IRes := ⟨iwrap t ((a : Int) + extWord t.signed b * 2 ^ h + extWord t.signed c), false, false⟩
/-- R57, for one row, column and row length. -/
def layIndex (l : Lay) (r c len : Nat) : Nat :=
  match l with
  | .lin => r * len + c
  | .t8 => (r / 8 * (len / 8) + c / 8) * 64 + r % 8 * 8 + c % 8
  | .xr => r * len + (c ^^^ (r % 8))
def iidx2 (l : Lay) (a b c : Nat) : IRes := ⟨layIndex l a b c % 2 ^ 32, false, false⟩

/-- R58: the immediate as a second operand of the type. -/
def immVal (t : Ty) (imm : BitVec 32) : Nat := if t.wide && t.signed then iwrap t (extWord true imm.toNat) else imm.toNat
/-- R59: the comparand of `cmpi`. -/
def immCmp (t : Ty) (imm : BitVec 29) : Nat :=
  if t.signed then iwrap t (if imm.toNat < 2 ^ 28 then imm.toNat else (imm.toNat : Int) - 2 ^ 29) else imm.toNat

end Sys2Proof.Machine
end

