-- ==== Sys2Proof/Machine/Tbl.lean ====
section
/-! DEFINITION. Tables with natural-number keys: lists of pairs in one canonical form, keys strictly rising. -/

namespace Sys2Proof.Machine

/-- A finite table, sorted by key. -/
abbrev Tbl (α : Type) := List (Nat × α)

namespace Tbl

/-- The entry at a key. -/
def find {α : Type} : Tbl α → Nat → Option α
  | [], _ => none
  | (k, a) :: t, i => if k = i then some a else find t i

/-- The table with `a` at key `i`. -/
def put {α : Type} : Tbl α → Nat → α → Tbl α
  | [], i, a => [(i, a)]
  | (k, b) :: t, i, a => if i < k then (i, a) :: (k, b) :: t else if i = k then (i, a) :: t else (k, b) :: put t i a

/-- The table without any entry at key `i`. -/
def del {α : Type} : Tbl α → Nat → Tbl α
  | [], _ => []
  | (k, b) :: t, i => if k = i then del t i else (k, b) :: del t i

/-- The table with the entry at `i`, if there is one, changed by `f`. -/
def upd {α : Type} (t : Tbl α) (i : Nat) (f : α → α) : Tbl α :=
  match find t i with
  | none => t
  | some a => put t i (f a)

/-- Every entry changed by `f`. -/
def mapVals {α : Type} (t : Tbl α) (f : Nat → α → α) : Tbl α := t.map fun p => (p.1, f p.1 p.2)

/-- The keys. -/
def keys {α : Type} (t : Tbl α) : List Nat := t.map Prod.fst

/-- The entries. -/
def vals {α : Type} (t : Tbl α) : List α := t.map Prod.snd

/-- Keys strictly rise: the canonical form. -/
def sorted {α : Type} : Tbl α → Bool
  | [] => true
  | [_] => true
  | p :: q :: t => decide (p.1 < q.1) && sorted (q :: t)

/-- The lowest key from `i` on, within `n` steps, that the table does not hold. -/
def freeFrom {α : Type} (t : Tbl α) : Nat → Nat → Option Nat
  | 0, _ => none
  | n + 1, i => if (find t i).isSome then freeFrom t n (i + 1) else some i

end Tbl

/-! Sparse memories: a table in which an unlisted address reads as a default, and no entry holds the default. -/

namespace Sparse

/-- The value at an address. -/
def read {α : Type} (z : α) (m : Tbl α) (i : Nat) : α := (Tbl.find m i).getD z

/-- Writing the default removes the entry. -/
def write {α : Type} [DecidableEq α] (z : α) (m : Tbl α) (i : Nat) (a : α) : Tbl α :=
  if a = z then Tbl.del m i else Tbl.put m i a

/-- The canonical form: rising keys, no entry at the default. -/
def wf {α : Type} [DecidableEq α] (z : α) (m : Tbl α) : Bool := Tbl.sorted m && m.all fun p => decide (p.2 ≠ z)

/-- Writes one value after another from an address on. -/
def writeList {α : Type} [DecidableEq α] (z : α) : Tbl α → Nat → List α → Tbl α
  | m, _, [] => m
  | m, i, a :: l => writeList z (write z m i a) (i + 1) l

/-- The `n` values from an address on. -/
def readList {α : Type} (z : α) (m : Tbl α) (i : Nat) : Nat → List α
  | 0 => []
  | n + 1 => read z m i :: readList z m (i + 1) n

/-- Sets a range of addresses to the default. -/
def clear {α : Type} (m : Tbl α) (i n : Nat) : Tbl α := m.filter fun p => decide (p.1 < i) || decide (i + n ≤ p.1)

end Sparse

end Sys2Proof.Machine
end

