-- ==== Sys2Proof/Machine/State.lean ====
section
/-! DEFINITION. The state of the device as plain data, its state after reset, and the reasons for which a step can stop. Every
piece is named by the rule that gives it; a field marked MODEL is the model's own. -/

namespace Sys2Proof.Machine

/-- Why the machine stops with a fault. -/
inductive Fault where
  /-- Raised by every meaning of an instruction form when State.cur names no live issuer for it, which no step does: a step
  issues only for a strand or a context that exists. Safe: the manual has no such issue. -/
  | noIssuer
  deriving DecidableEq, Repr

/-- Why the machine has no meaning for an instruction. -/
inductive Refusal where
  /-- Raised by an arm of `exec` whose instruction has no meaning yet. Safe. -/
  | notModelled (mnemonic : String)
  deriving DecidableEq, Repr

/-! ## Traps, waits and work in flight -/

/-- What a trap or an escalation carries (R311). `atHeader` says that TPC is the clause header's (R309); `eng` is TCAUSE.ENG. -/
structure Trap where
  (cause : Nat) (lanes : Mask := 0) (addr : Nat := 0) (detail : Nat := 0) (atHeader : Bool := false) (eng : Bool := false)
  deriving DecidableEq, Repr

/-- What a parked strand or a stalled context waits for. -/
inductive Wait where
  /-- A lookahead window that has ended (R34). -/
  | window
  /-- The waits of a clause header that are not a queue's (R23). -/
  | header
  /-- A queue condition (R23, R147, R220). -/
  | queue
  /-- The page walker (R157), and its answers, before the instruction issues again. -/
  | walk | walked
  /-- A replayable fault (R159). -/
  | replay
  /-- A join (R105), with the split's number. -/
  | join (split : Nat)
  /-- A barrier (R122). -/
  | bar (k : BarKind)
  /-- A fence (R170). -/
  | fence
  /-- A drain (R328), with the number that the next engine command would have had when it began. -/
  | drain (upto : Nat)
  /-- `waitg`, `await` (R144, R222). -/
  | sync
  /-- `give`, `wrev` (R139, R140). -/
  | give | revoke
  /-- `xch` and `rrot` before the rendezvous (R120, R149). -/
  | xch | rrot
  /-- A free entry of the engine queue (R197). -/
  | engine
  /-- `launch.w` (R285), a ring (R290), `waitpred` (R293). -/
  | store | ring | pred
  /-- A release of class 5, or a read of a record, before the accesses it follows are performed (R179, R285, R291, R298). -/
  | release
  /-- A running warp-rung handler (R310). -/
  | handler
  /-- The strands, commands and windows of a gate call at `gret` (R340). -/
  | gret
  /-- The results of long-latency instructions, once every lane has exited (R34, R111). -/
  | ended
  deriving DecidableEq, Repr

/-- One word that a long-latency instruction will write: the register-space address, the value, and the cause of a poison mark
that travels with it, 0 for none (R319). -/
structure RegWrite where
  (addr : Nat) (val : Word) (mark : Nat := 0)
  deriving DecidableEq, Repr

/-- An entry of a register-mapped queue: a vector entry holds one word per lane, a scalar entry one word (R145). -/
structure QEntry where
  (vec : Bool) (words : List Word)
  deriving DecidableEq, Repr

/-- A queue of 16 entries, oldest first (R145). -/
structure Queue where
  (entries : List QEntry) (closed : Bool)
  deriving DecidableEq, Repr

/-- A long-latency instruction in flight (R34): what is left of its window, the words still to land, the entries it pushes at its
end, the flags it raises at its end, whether its results are known, and whether it reads memory or a window (R23, LDRN). A side of
a fork that does not keep the entry waits for the instruction without owning its results (R34, R104). `dom` is the domain that
issued it, whose ACR gains the flags (R337). -/
structure Pend where
  (id left : Nat) (wrs : List RegWrite) (push : Option (Nat × List QEntry)) (sticky : Nat) (ready load own : Bool) (dom : Nat)
  deriving DecidableEq, Repr

/-- The clause a strand is in: its header's PC, class and number of units (R20), its hint (R24), and its units as the instruction
store holds them (R20, R163). -/
structure Clause where
  (hdr : Pc) (cls : Fin 8) (cnt : Nat) (yld : Bool) (units : List Unit64)
  deriving DecidableEq, Repr

/-- A grant waiting for the next `gcall` of its strand (R139): a window with rights R, W, L, or a tile with the callee's slot. -/
inductive Grant where
  | window (handle : Word) (r w l : Bool)
  | tile (t slot : Nat)
  deriving DecidableEq, Repr

/-! ## Warps -/

/-- A strand (R7). `fenced` are the accesses that every later access of the strand follows (R180, R345); `past` are
those that it made before a fork took it from another entry (R104). `split` is the innermost split it descends from (R104); `dom`
the domain whose frame it names (R337); `trapping` a trap that waits for the long-latency instructions before it (R309, R312). -/
structure Strand where
  pc : Pc
  clause : Option Clause
  em : Mask
  mem : Mask
  rstack : List Pc
  split : Option Nat
  dom : Nat
  parked : Option (Wait × Nat)
  pends : List Pend
  level : Nat
  stepArm : Nat
  grants : List Grant
  yld : Bool
  fenced : List Nat
  past : List Nat
  trapping : Option Trap
  deriving DecidableEq, Repr

/-- A split of R104: its join point, the return-stack depth at the fork, the split it nests in; and the accesses of the strands
descended from it that have ended (R184). -/
structure Split where
  (join : Option Pc) (depth : Nat) (parent : Option Nat) (made : List Nat)
  deriving DecidableEq, Repr

/-- A deferred record of R106, held by the strand of entry `holder`. -/
structure Deferred where
  (holder : Nat) (pc : Pc) (clause : Option Clause) (em mem : Mask) (split : Option Nat) (rstack : List Pc) (dom : Nat)
  deriving DecidableEq, Repr

/-- Lanes that a strand with deferred records has set aside at a join or a barrier (R106). -/
structure Aside where
  (holder : Nat) (wait : Wait) (pc : Pc) (clause : Option Clause) (em mem : Mask) (split : Option Nat) (rstack : List Pc) (dom : Nat)
  deriving DecidableEq, Repr

/-- The trap record of a frame (R312), with the clause that the strand was in, if it was past its header (R317), and when the
handler started (R313). -/
structure TrapRec where
  (sid : Nat) (pc hdr : Pc) (clause : Option Clause) (em : Mask) (depth : Nat) (start : Nat)
  deriving DecidableEq, Repr

/-- The CSRs that a warp holds, or a callee in its place (R16, R337). -/
structure Csrs where
  (acr fmask tcause tpc tlanes taddr tdetail trung tvec tvecc ttime gstat rngk : Dword) (qkind : BitVec 4)
  deriving DecidableEq, Repr

/-- A tile: its first granule, rows, columns, bytes per element, and PROG (R132, R238). -/
structure Tile where
  (gran rows cols esz prog : Nat)
  deriving DecidableEq, Repr

/-- What `gcall` saves of its caller, and what it read of the gate (R337). -/
structure Call where
  (gate : Nat) (nest deep : Bool) (nres tout : Nat) (callerDom : Nat) (retPc : Pc) (retClause : Option Clause) (em mem : Mask)
  (rstack : List Pc) (level : Nat) (stepArm : Nat) (split : Option Nat) (start : Nat) (sid : Nat)
  (windows : List (Nat × Bool × Bool × Bool)) (tiles : List (Nat × Nat × Nat))
  deriving DecidableEq, Repr

/-- A domain of a warp: its own, number 0, or a callee's (R126, R337). Domain 0 names the crew's records and tiles. -/
structure Dom where
  (a0 fv ctx : Nat) (csrs : Csrs) (masks : List Mask) (trapRec : Option TrapRec)
  (recs : List (BitVec 256)) (tiles : Tbl Tile) (descp recp nrec : Nat) (call : Option Call)
  deriving DecidableEq, Repr

/-- A pending fault on a sync pair of a domain (R201). -/
structure PFault where
  (dom pair : Nat) (trap : Trap) (seq : Nat)
  deriving DecidableEq, Repr

/-- An arrival at `xch` (R120): the strand, when it arrived, and its instruction: whether its type is n64, its operands and its
lookahead. -/
structure XchArr where
  (sid since : Nat) (wide : Bool) (d a : Opnd) (la : Nat)
  deriving DecidableEq, Repr

/-- A resident warp (R101-R103, R126). -/
structure Warp where
  crew : Nat
  winc : Nat
  cinb : Nat
  bins : Nat
  wlog : Nat
  doms : Tbl Dom
  queues : List Queue
  strands : Tbl Strand
  deferred : List Deferred
  asides : List Aside
  splits : Tbl Split
  prio : Nat
  seqno : Nat
  pfaults : List PFault
  xchDone : Nat
  xchArr : Option XchArr
  ended : Bool
  deriving DecidableEq, Repr

/-! ## Crews -/

/-- A front-end context (R217). `stopped` holds the trap it stopped with, or `aend`'s stop as cause 0; `arriving` the vector entry of
an `apushm` whose words are on their way (R221). -/
structure FrontEnd where
  (pc : Pc) (clause : Option Clause) (regs : List Dword) (rstack : List Pc) (stalled : Option (Wait × Nat))
  (stopped : Option Trap) (arriving : Option (List Word))
  deriving DecidableEq, Repr

/-- A crew at the crew rung (R316): the handler warp and its strand, H's saved CSRs, the strand that opened the chain, when the
chain came to the rung, and when the handler started. -/
structure CrewRung where
  (warp sid : Nat) (saved : Csrs) (openWarp openSid : Nat) (fe : Bool) (since start : Nat)
  deriving DecidableEq, Repr

/-- A chain that waits at the crew rung for the crew to stop, or for a running handler (R316), since a time. -/
structure RungReq where
  (warp sid : Nat) (trap : Trap) (tpc : Pc) (why first : Nat) (fe : Bool) (since : Nat)
  deriving DecidableEq, Repr

/-- An arrival at `rrot` (R149): the strand, the tile, when it arrived, its lookahead, whether the rendezvous has passed, and then
the long-latency instruction with the words, their marks and the VAL bits on their way to this crew. -/
structure RrotArr where
  (sid tile since la : Nat) (going : Bool) (pend : Nat) (data : List (Word × Nat)) (vals : List Bool)
  deriving DecidableEq, Repr

/-- A crew (R109). `braid` and `span` are numbers fresh at placement, `clusters` those of its span (R120); `stage` is its pipeline stage (R287); `faulted` is the cause
of a crew that is ended as faulted (R276); `hnx` and `pdone` are LSTAT bits (R277). -/
structure Crew where
  launch : Nat
  item : Nat
  core : Nat
  braid : Nat
  span : Nat
  clusters : List Nat
  warps : List Nat
  tiles : Tbl Tile
  recs : List (BitVec 256)
  fe : Option FrontEnd
  hnx : Bool
  pdone : Bool
  rung : Option CrewRung
  rungQ : List RungReq
  rrotDone : Nat
  rrotArr : Option RrotArr
  superstep : Bool
  comm : Bool
  stage : Option Nat
  placed : Nat
  faulted : Option Nat
  killed : Bool
  deriving DecidableEq, Repr

/-! ## Cores -/

/-- The state bits of a granule (R124). -/
structure Gran where
  (own inf val drt : Bool)
  deriving DecidableEq, Repr

/-- A window slot in use (R135). -/
structure Win where
  (warp dom ctx k0 n : Nat) (r w l : Bool) (scope : WScope) (pair : Nat) (gen : Nat)
  deriving DecidableEq, Repr

/-- A translation held by an L1 TLB (R157): the page's size is 2^log; `sys` is for tier 2. -/
structure TlbEntry where
  (asid va log pa : Nat) (r w x rep : Bool)
  deriving DecidableEq, Repr

/-- Nothing owned, nothing defined. -/
def Gran.zero : Gran := ⟨false, false, false, false⟩

/-- A core (R124, R126, R135, R157, R197). Granules allocated stand in `allocs` as (first, count); the gate pool is the top
`pool` granules. In `gens`, 2^14 is added to a last generation that a swap or a reset has made usable again (R139); `given` holds,
for a granule handed to the engine side, the writes of the giving warp that engine accesses follow (R140). -/
structure Core where
  regs : Tbl Word
  marks : Tbl Nat
  grans : Tbl Gran
  allocs : List (Nat × Nat)
  pool : Nat
  wins : Tbl Win
  gens : Tbl Nat
  tlb : List TlbEntry
  cmds : List Nat
  array : Option Nat
  given : Tbl (List Nat)
  deriving DecidableEq, Repr

/-- A core that holds nothing: every granule of it is free (R125), and its register space is all 0 (log 2). -/
def Core.empty : Core := ⟨[], [], [], [], 0, [], [], [], [], none, []⟩

/-! ## Memory accesses -/

/-- One lane of a line request: the physical address, the bytes to store or the operands of an atomic, and where
the words of its result go, as (word, register address). -/
structure LaneAcc where
  (lane va pa : Nat) (bytes : List Byte) (mark : Nat) (val val2 : Nat) (dst : List (Nat × Nat))
  deriving DecidableEq, Repr

inductive AccKind where
  | load | store | atom (op : AtomOp) | cas | waita (timeout : Nat)
  deriving DecidableEq, Repr

/-- A line request (R154): the agent, its context, what it does in how many bytes, its lanes, the requests that must be performed
before it (R179, R180), the long-latency instruction it answers, and whether it has been performed. A request whose lanes are
unfinished has `replay` (R159); `pc` is the instruction's, for a notice (R317). -/
structure Access where
  (agent : Agent) (ctx : Nat) (kind : AccKind) (size : Nat) (sx : Bool) (rcd : BitVec 256) (lanes : List LaneAcc) (after : List Nat)
  (pend : Option Nat) (acq : Bool) (done : Bool) (replay : Bool) (since : Nat) (core : Nat) (pc : Pc)
  deriving DecidableEq, Repr

/-- A registered `waita` (R171): the request it stands for, the word's address, size and expected value. -/
structure Waiter where
  (acc pa size want : Nat)
  deriving DecidableEq, Repr

/-! ## Engine commands -/

/-- A target of `copymc` or of a copy into a window (R208-R210): its handle, whether the exporting core has checked it, the bytes
landed there, the cause that stopped it; and, once it is admitted, the exporter's core, warp, domain and sync pair, and the granules
that the copy lands in. -/
structure McTarget where
  (handle : Word) (checked : Bool) (done : Nat) (failed : Option Trap) (core wid dom pair : Nat) (grans : List Nat)
  deriving DecidableEq, Repr

/-- A partial sum of a bag that a port has yet to send, or the sum of those that have arrived (R215): the bag, the port, and per
column the value, if the port holds an element of it, with its mark. -/
structure Partial where
  (bag port : Nat) (vals : List (Option Word)) (marks : List Nat)
  deriving DecidableEq, Repr

/-- A row that `kvld` or `kvst` has resolved but not transferred (R259, R261): the row, its block, its node-relative slot, its absolute
position, the block table it was found through while that exists, and whether it appends. -/
structure KvRow where
  (row block k abs : Nat) (tab : Option Nat) (app : Bool)
  deriving DecidableEq, Repr

/-- An append in progress (R261): the model's key, the sequence slot, the leaf, and the blocks taken for it: one for each layer, for
entries of the leaf's block tables that no slot has reached yet. -/
structure KvGrow where
  (key seq node : Nat) (held : List (Nat × List Nat))
  deriving DecidableEq, Repr

/-- A command accepted by a core's engine queue (R197): its issuer's warp and domain, context, sync pair and status scalar,
sequence number, whether the front-end context issued it, its own fields, the issuer's scalars, records and frame as they were at
issue (R34), the granules of its
landing area and of its register source (R200), its follow-on or the copy it follows (R207), whether it has begun (R197), and how far
it has come: `done` in bytes, elements or groups; `ahead` the pieces beyond them that have landed; `next` the index position of a
gather; `parts` of its open bags; `words` of a k-group still to land; `lists` read once it has started (R213, R259). -/
structure Cmd where
  core : Nat
  wid : Nat
  dom : Nat
  ctx : Nat
  pair : Nat
  stat : Nat
  seq : Nat
  fe : Bool
  body : EngBody
  scal : List Word
  recs : List (BitVec 256)
  a0 : Nat
  fv : Nat
  width : Nat
  tile : Option Tile
  src : Option Tile
  src2 : Option Tile
  descp : Nat
  land : List Nat
  srcs : List Nat
  follow : Option Nat
  waits : Option Nat
  after : List Nat
  begun : Bool
  started : Bool
  parked : Bool
  done : Nat
  ahead : List Nat
  next : Nat
  words : List (Nat × Word × Nat)
  aux : Nat
  ovr : Bool
  targets : List McTarget
  parts : List Partial
  lists : List (List Nat)
  rows : List KvRow
  grow : Option KvGrow
  docGone : Bool
  retired : Option Nat
  job : Option Nat
  deriving DecidableEq, Repr

/-- Granules landed by a command that names a pair, since the pair's last flip (R142). -/
structure Flip where
  (wid dom pair cmd : Nat) (grans : List Nat)
  deriving DecidableEq, Repr

/-- One word of a window access: the lane, the exporter's word, where the issuer's result goes, the word to write or the word read
with its mark, and whether it has been performed (R138, R186). -/
structure WLane where
  (lane target dst : Nat) (val : Word) (mark : Nat) (done : Bool)
  deriving DecidableEq, Repr

/-- A window access in flight (R138): the strand's long-latency instruction, whether it writes, the exporting core and slot, the
issuer's span, and the requests that it follows (R180). -/
structure WReq where
  (agent : Agent) (pend : Nat) (write : Bool) (wins : List (Nat × Nat)) (span : Nat) (words : List (Nat × WLane)) (after : List Nat)
  deriving DecidableEq, Repr

/-! ## Scheduling -/

/-- The outcomes of R276. -/
inductive LOut where
  | complete | quenched | faulted | killed
  deriving DecidableEq, Repr

/-- A stage of a pipeline (R287): its descriptor, rings and crew bounds; `high` is when its input occupancy rose above three
quarters (R288); `live` counts its crews that have not ended; `shut` says that its output ring is closed (R291). -/
structure Stage where
  (desc : BitVec 1024) (inr outr ncrew minc : Nat) (high : Option Nat) (live : Nat) (shut : Bool)
  deriving DecidableEq, Repr

/-- A launch (R273-R279, R286, R292). `placed` counts the spans placed, `depd` says that it has a dependent. -/
structure Launch where
  ctx : Nat
  die : Nat
  prio : Nat
  desc : BitVec 1024
  pred : Option Nat
  depd : Bool
  placed : Nat
  ended : Nat
  qsum : Nat
  fcause : Option Nat
  killed : Bool
  moves : Nat
  refuse : Nat
  counter : Nat
  stages : List Stage
  out : Option LOut
  deriving DecidableEq, Repr

/-- The work of a fired node (R299): nothing yet where the store is full or a predecessor is awaited, a launch, a fill or a copy
with its progress, or ended with an outcome: 0 complete, 1 quenched, 2 faulted or killed or failed, with its cause. -/
inductive WorkSt where
  | waiting
  | launched (launch : Nat)
  | moving (done : Nat)
  | ended (out cause : Nat)
  deriving DecidableEq, Repr

/-- A fired node (R299): the graph's context and VA, the node, the die, the predecessor it waits for (R292), and whether its
tokens are absorbed (R302) or its edge to an early successor is already counted (R300). -/
structure Work where
  (ctx graph node die : Nat) (pred : Option Nat) (st : WorkSt) (absorbed : Bool) (early : Bool)
  deriving DecidableEq, Repr

/-- A cancellation walk (R299): the nodes still to visit, in depth-first order. -/
structure CWalk where
  (ctx graph : Nat) (todo : List Nat)
  deriving DecidableEq, Repr

/-- A repair job slot (R265-R269): its generation, JST, layer, selected count and cause as `rpstat` reports them; whether a job
runs; its context, model (a key of State.models), node and command; its parameters; whether it waits for the graph it has fired;
whether it is marked; and the last layer swapped. -/
structure Job where
  (gen jst layer count cause : Nat) (live : Bool) (ctx model node cmd : Nat) (seqh : Word) (ws early depth : Nat) (tau : Word)
  (fired : Bool) (graph : Nat) (cancel : Bool) (last : Nat)
  deriving DecidableEq, Repr

/-- What a strand waits for at a ring (R290, R291). -/
inductive RingOp where
  | acq (consumer : Bool) (dst la : Nat)
  | cmt (ticket : Option Nat) (close : Bool)
  | rel (ticket : Nat)
  deriving DecidableEq, Repr

/-- A strand parked at a ring control block, in order of arrival (R290). -/
structure RingWait where
  (agent : Agent) (ctx block : Nat) (op : RingOp)
  deriving DecidableEq, Repr

/-- A request at a work distributor (R286). -/
structure WdReq where
  (die launch wid dom dst pair : Nat)
  deriving DecidableEq, Repr

/-! ## Translation -/

/-- A page walk (R157): the agent that waits, its core and context, the virtual address, when it was queued, and the cause with its
TDETAIL once it has ended with one (R158). -/
structure Walk where
  (agent : Agent) (core ctx va since : Nat) (ended : Option (Nat × Nat))
  deriving DecidableEq, Repr

/-- Who waits in a fault buffer (R159): an access, an engine command, or an agent that retries by itself. -/
inductive Faulter where
  | access (id : Nat) | command (id : Nat) | agent (a : Agent) | other
  deriving DecidableEq, Repr

/-- An entry of a die's fault buffer (R159), with the TIER hint of its record and log2 of the span that it asks for, found when the
fault was taken (R160). -/
structure FaultEnt where
  (die ctx va : Nat) (who : Faulter) (tier span : Nat)
  deriving DecidableEq, Repr

/-- A migration in progress (R160): the pages of a context that move, each with its old and new physical address; the partition and
class that it draws from (R367), and the lines that have moved. -/
structure Mig where
  (die ctx : Nat) (pages : List (Nat × Nat × Nat × Nat)) (cls : Nat × Nat) (lines : Nat)
  deriving DecidableEq, Repr

/-! ## The device -/


/-- Where a context stands: running; stopping at its boundaries (R347); stopped; or killed and not yet destroyed (R191, R317). -/
inductive CtxRun where
  | running | stopping | stopped | killed
  deriving DecidableEq, Repr

/-- A context at the context rung (R317): when its notice was sent, the cause, and the values the notice carries. -/
structure CtxRung where
  (noticed : Option Nat) (cause : Nat) (vals : List Dword)
  deriving DecidableEq, Repr

/-- A context (R374, R161, R350). `rung` is there while it stands at the context rung (R317); `abandoned` is cause 0x51 of its
kill report (R191); `tier` and `pins` are set by TIER_POLICY (R374). -/
structure Context where
  part : Nat
  asid : Nat
  root : Option Nat
  sendRing : Nat
  peers : List Peer
  sys : Bool
  pfth : Nat
  pfbs : Nat
  run : CtxRun
  since : Nat
  acks : List Party
  pstate : Nat
  swaps : Nat
  rung : Option CtxRung
  abandoned : Bool
  tier : Nat
  pins : List (Nat × Nat)
  deriving DecidableEq, Repr

/-- A notice to a host (R375): the cause that tells its kind, the partition and context, and the values it carries. -/
structure Notice where
  (cause part ctx : Nat) (vals : List Dword)
  deriving DecidableEq, Repr

/-- A reply (R373): the mailbox, the command's OP and TAG, its partition and context, the status and the payload. -/
structure Reply where
  (box : Mailbox) (op tag part ctx status : Nat) (payload : List Byte)
  deriving DecidableEq, Repr

/-- Where a notice goes (R375, R376): the device mailbox, a partition's, or a port that comes up. -/
inductive NoticeBox where
  | device | part (n : Nat) | port (i : Nat)
  deriving DecidableEq, Repr

/-- What the device sends to its hosts, in the order produced (R375). -/
inductive Msg where
  | reply (r : Reply)
  | notice (box : NoticeBox) (n : Notice)
  deriving DecidableEq, Repr

/-- Where a partition stands (R318, R351). -/
inductive PartRun where
  | resident | out | resetting (since : Nat)
  deriving DecidableEq, Repr

/-- A partition (R374): its clusters per die, the host's device address, the gate pool of each core, its quanta (R281) and its
stitched regions (R365). -/
structure Part where
  clusters : List (Nat × BitVec 72)
  host : BitVec 64
  pool : Nat
  quanta : List Nat
  regions : List (Nat × BitVec 72 × BitVec 16)
  run : PartRun
  deriving DecidableEq, Repr

/-- What a shadow store holds of a partition (R351), since a time: its cores, warps, crews, commands and flips. -/
structure Saved where
  cores : Tbl Core
  warps : Tbl Warp
  crews : Tbl Crew
  cmds : Tbl Cmd
  flips : List Flip
  since : Nat
  deriving DecidableEq, Repr

/-- A shadow store that holds nothing. -/
def Saved.none : Saved := ⟨[], [], [], [], [], 0⟩

/-- A model slot (R246, R250, R262): the record, and the store's private area: block reference and pin counts, the tables in use,
and the document id of each sequence slot. -/
structure Model where
  rcd : BitVec 1024
  refs : Tbl Nat
  pins : Tbl Nat
  tabs : List Nat
  docs : Tbl Nat
  deriving DecidableEq, Repr

/-- A WAIT command that is not yet answered (R374). -/
structure HostWait where
  (hdr : HostHdr) (ctx : Nat) (cond : WaitFor) (since timeout : Nat)
  deriving DecidableEq, Repr

/-- A PREEMPT that is not yet answered (R347, R351). -/
structure Held where
  (hdr : HostHdr) (ctx part : Nat) (swapIn : Option Nat)
  deriving DecidableEq, Repr

/-- A work request that the network engine performs (R370, R371): its context, its slot's VA and contents, and the bytes it sends. -/
structure NetReq where
  (ctx slot : Nat) (rcd : BitVec 512) (data : List Byte)
  deriving DecidableEq, Repr

/-- A budget of a weir (R367): port, partition, class, bytes per window and what is left in this one. -/
structure Weir where
  (port part cls budget : Nat) (left : Int)
  deriving DecidableEq, Repr

/-- Whether the device runs (R376): off; stopped because the fuses fail their check; up. -/
inductive Boot where
  | off | stopped | up
  deriving DecidableEq, Repr

/-- Whose turn is next (MODEL, log 3). -/
inductive Turn where
  | issue (a : Agent)
  | occur (i : Instr)
  deriving DecidableEq, Repr

end Sys2Proof.Machine

namespace Sys2Proof.Machine

/-- The state of the device. `tick` counts steps, `agenda` and `cur` say whose turn it is, `served` when each agent last had the turn
by the machine's own choice, `nextId` gives fresh numbers (MODEL, log 3); `upSince` is when the dies left reset (R12); `movedIn` lists pages as (context, VA), least recently faulted first (R160). -/
structure State where
  time : Nat
  rtc : Nat
  upSince : Nat
  tick : Nat
  agenda : List Turn
  cur : Agent
  nextId : Nat
  boot : Boot
  arith : Option Nat
  measured : Option (BitVec 512)
  mem : List Host.Cell
  mmarks : Tbl Nat
  accs : Tbl Access
  waiters : List Waiter
  wreqs : Tbl WReq
  cores : Tbl Core
  warps : Tbl Warp
  crews : Tbl Crew
  cmds : Tbl Cmd
  flips : List Flip
  launches : Tbl Launch
  works : Tbl Work
  cwalks : Tbl CWalk
  jobs : Tbl Job
  ringWaits : List RingWait
  wdReqs : List WdReq
  walks : Tbl Walk
  faults : List FaultEnt
  migs : Tbl Mig
  movedIn : List (Nat × Nat)
  parts : Tbl Part
  ctxs : Tbl Context
  models : Tbl Model
  deficits : Tbl Int
  visiting : Tbl Nat
  gates : Tbl (BitVec 512)
  weirs : List Weir
  portsDown : List Nat
  portsUp : BitVec 32
  session : Option (BitVec 64 × BitVec 256)
  seqs : List (Mailbox × Nat)
  outbox : List Msg
  served : List (Agent × Nat)
  waits : Tbl HostWait
  held : List Held
  nets : Tbl NetReq
  saved : Tbl Saved
  stats : Tbl Nat
  deriving DecidableEq, Repr

/-- The device before power-on: nothing is placed, and nothing is held (R376; log 2 for what no rule gives). -/
def State.reset : State where
  time := 0
  rtc := 0
  upSince := 0
  tick := 0
  agenda := []
  cur := .nobody
  nextId := 1
  boot := .off
  arith := none
  measured := none
  mem := []
  mmarks := []
  accs := []
  waiters := []
  wreqs := []
  cores := []
  warps := []
  crews := []
  cmds := []
  flips := []
  launches := []
  works := []
  cwalks := []
  jobs := []
  ringWaits := []
  wdReqs := []
  walks := []
  faults := []
  migs := []
  movedIn := []
  parts := []
  ctxs := []
  models := []
  deficits := []
  visiting := []
  gates := []
  weirs := []
  portsDown := []
  portsUp := 0
  session := none
  seqs := []
  outbox := []
  served := []
  waits := []
  held := []
  nets := []
  saved := []
  stats := []

end Sys2Proof.Machine
end

