-- ==== Sys2Proof/Machine/Space.lean ====
section
/-! DEFINITION. Register space: words, granules and frames (R124-R128), and who issues. -/

namespace Sys2Proof.Machine

/-! ## Lanes -/

/-- The lanes of a mask, ascending, below a width. -/
def lanesOf (m : Mask) : List Nat := (List.range 64).filter fun l => m.getLsbD l
/-- The mask of a list of lanes. -/
def maskOf (l : List Nat) : Mask := l.foldl (fun m i => m ||| (1#64 <<< i)) 0
/-- The mask of the lanes below a width. -/
def fullMask (w : Nat) : Mask := BitVec.ofNat 64 (2 ^ w - 1)
/-- The mask of the lanes of `m` that satisfy `p`. -/
def maskWhere (m : Mask) (p : Nat → Bool) : Mask := maskOf ((lanesOf m).filter p)
/-- The lowest lane. -/
def lowLane (m : Mask) : Option Nat := (lanesOf m).head?

/-! ## Order -/

/-- A list with `a` before the first element that it may precede. -/
def insertBy {α : Type} (le : α → α → Bool) (a : α) : List α → List α
  | [] => [a]
  | b :: l => if le a b then a :: b :: l else b :: insertBy le a l
/-- A list in order; elements that may precede each other stay as they are. -/
def sortBy {α : Type} (le : α → α → Bool) (l : List α) : List α := l.foldr (insertBy le) []

/-! ## Cores -/

/-- A core; one that is not listed holds nothing. -/
def State.core (s : State) (c : Nat) : Core := (Tbl.find s.cores c).getD Core.empty
def State.setCore (s : State) (c : Nat) (k : Core) : State := { s with cores := Tbl.put s.cores c k }
def State.updCore (s : State) (c : Nat) (f : Core → Core) : State := s.setCore c (f (s.core c))

namespace Core
/-- A word of register space. -/
def word (c : Core) (a : Nat) : Word := Sparse.read 0 c.regs a
/-- The cause that poisoned a word, 0 for none (R319). -/
def mark (c : Core) (a : Nat) : Nat := Sparse.read 0 c.marks a
/-- The state of a granule (R124). -/
def gran (c : Core) (g : Nat) : Gran := Sparse.read Gran.zero c.grans g
def setGran (c : Core) (g : Nat) (v : Gran) : Core := { c with grans := Sparse.write Gran.zero c.grans g v }
/-- Changes a run of granules. -/
def updGrans (c : Core) (g n : Nat) (f : Gran → Gran) : Core :=
  (List.range n).foldl (fun c i => c.setGran (g + i) (f (c.gran (g + i)))) c
/-- Stores a word with its mark, and nothing else. -/
def landWord (c : Core) (a : Nat) (v : Word) (mk : Nat) : Core :=
  { c with regs := Sparse.write 0 c.regs a v, marks := Sparse.write 0 c.marks a mk }
/-- An engine lands a word with its mark, in an engine-side granule only (R125, R142). -/
def engWord (c : Core) (a : Nat) (v : Word) (mk : Nat) : Core := if (c.gran (a / 128)).own then c.landWord a v mk else c
/-- Zero-fills a run of granules. -/
def zeroGrans (c : Core) (g n : Nat) : Core :=
  { c with regs := Sparse.clear c.regs (128 * g) (128 * n), marks := Sparse.clear c.marks (128 * g) (128 * n) }
/-- A write by a warp (R125, R128): an invalid granule is zero-filled first, and the write sets VAL and DRT. -/
def warpWrite (c : Core) (a : Nat) (v : Word) (mk : Nat) : Core :=
  let g := a / 128
  let b := c.gran g
  let c := if b.val then c else c.zeroGrans g 1
  (c.landWord a v mk).setGran g { b with val := true, drt := true }
/-- Whether a run of granules lies outside every allocation and below the gate pool. -/
def runFree (c : Core) (g n : Nat) : Bool :=
  decide (g + n ≤ 1024 - c.pool) && c.allocs.all fun p => decide (g + n ≤ p.1) || decide (p.1 + p.2 ≤ g)
/-- The lowest free run of n granules (log 6). -/
def findRun (c : Core) (n : Nat) : Option Nat := (List.range (1024 - c.pool)).find? fun g => c.runFree g n
/-- The lowest free run of the gate pool, the core's top granules (R336, log 6). -/
def findPool (c : Core) (n : Nat) : Option Nat :=
  (List.range c.pool).find? fun i =>
    decide (i + n ≤ c.pool) &&
      c.allocs.all fun p => decide (1024 - c.pool + i + n ≤ p.1) || decide (p.1 + p.2 ≤ 1024 - c.pool + i)
/-- Takes a run out of the free granules. -/
def take (c : Core) (g n : Nat) : Core := { c with allocs := (g, n) :: c.allocs }
/-- Frees a run: its bits become 0 (R125), its words are no longer defined (VAL 0). -/
def free (c : Core) (g n : Nat) : Core :=
  let c := c.updGrans g n fun _ => Gran.zero
  { c with allocs := c.allocs.filter fun p => p ≠ (g, n) }
end Core

/-- A warp's write of one word in its core. -/
def State.warpWrite (s : State) (core a : Nat) (v : Word) (mk : Nat) : State := s.updCore core fun c => c.warpWrite a v mk

/-! ## Warps and domains -/

namespace Warp
/-- The width W (R101). -/
def width (w : Warp) : Nat := 4 * 2 ^ w.wlog
/-- A domain: the warp's own is number 0 (R337). -/
def dom (w : Warp) (d : Nat) : Option Dom := Tbl.find w.doms d
def setDom (w : Warp) (d : Nat) (x : Dom) : Warp := { w with doms := Tbl.put w.doms d x }
def updDom (w : Warp) (d : Nat) (f : Dom → Dom) : Warp := { w with doms := Tbl.upd w.doms d f }
def updStrand (w : Warp) (i : Nat) (f : Strand → Strand) : Warp := { w with strands := Tbl.upd w.strands i f }
end Warp

namespace Dom
/-- The register-space address of scalar k (R126). -/
def scal (d : Dom) (k : Nat) : Nat := d.a0 + 1104 + k
/-- The address of register k of lane l in a frame of width W (R126). -/
def lane (d : Dom) (w k l : Nat) : Nat := d.a0 + 1152 + k * w + l
/-- The granules of the frame (R126). -/
def granules (d : Dom) (w : Nat) : Nat := (1152 + d.fv * w + 127) / 128
/-- A mask register (R11). -/
def mask (d : Dom) (m : MReg) : Mask := d.masks.getD m.val 0
def setMask (d : Dom) (m : MReg) (v : Mask) : Dom := { d with masks := d.masks.set m.val v }
end Dom

def State.updWarp (s : State) (w : Nat) (f : Warp → Warp) : State := { s with warps := Tbl.upd s.warps w f }
def State.updStrand (s : State) (w i : Nat) (f : Strand → Strand) : State := s.updWarp w fun x => x.updStrand i f
def State.updDom (s : State) (w d : Nat) (f : Dom → Dom) : State := s.updWarp w fun x => x.updDom d f
def State.updCrew (s : State) (c : Nat) (f : Crew → Crew) : State := { s with crews := Tbl.upd s.crews c f }
def State.updCtx (s : State) (c : Nat) (f : Context → Context) : State := { s with ctxs := Tbl.upd s.ctxs c f }

/-- The core of a warp, from its number. -/
def coreOf (wid : Nat) : Nat := wid / 32
/-- The die of a core, from its number (R102). -/
def dieOf (core : Nat) : Nat := core / 576
/-- The cluster of a core on its die. -/
def clusOf (core : Nat) : Nat := core % 576 / 8

/-- Who issues an instruction of classes 0 to 6: a strand, with its warp and domain. -/
structure Who where
  (wid sid core : Nat) (w : Warp) (st : Strand) (d : Dom)
  deriving DecidableEq, Repr

/-- The live strand that State.cur names. -/
def State.strandAt (s : State) (wid sid : Nat) : Option Who :=
  match Tbl.find s.warps wid with
  | none => none
  | some w =>
    match Tbl.find w.strands sid with
    | none => none
    | some st =>
      match w.dom st.dom with
      | none => none
      | some d => some ⟨wid, sid, coreOf wid, w, st, d⟩

def State.who (s : State) : Option Who :=
  match s.cur with
  | .strand wid sid => s.strandAt wid sid
  | _ => none

/-- The front-end context that State.cur names. -/
def State.whoFe (s : State) : Option (Nat × Crew × FrontEnd) :=
  match s.cur with
  | .fe c =>
    match Tbl.find s.crews c with
    | some k =>
      match k.fe with
      | some f => some (c, k, f)
      | none => none
    | none => none
  | _ => none

namespace Who
def agent (x : Who) : Agent := .strand x.wid x.sid
def width (x : Who) : Nat := x.w.width
/-- The strand again, after the state has changed. -/
def again (s : State) (x : Who) : Option Who := s.strandAt x.wid x.sid
end Who

/-- A scalar of a domain, as a word (R126). -/
def State.scalar (s : State) (core : Nat) (d : Dom) (k : Nat) : Word := (s.core core).word (d.scal k)
/-- The pair s(k), s(k+1) (R10). -/
def State.pair (s : State) (core : Nat) (d : Dom) (k : Nat) : Dword := s.scalar core d (k + 1) ++ s.scalar core d k
/-- Writes a scalar. -/
def State.setScalar (s : State) (core : Nat) (d : Dom) (k : Nat) (v : Word) : State := s.warpWrite core (d.scal k) v 0
def State.setPair (s : State) (core : Nat) (d : Dom) (k : Nat) (v : Dword) : State :=
  (s.setScalar core d k (v.extractLsb' 0 32)).setScalar core d (k + 1) (v.extractLsb' 32 32)

/-- The tiles a domain names (R132, R337): the crew's for domain 0, its own for a callee. -/
def State.tilesOf (s : State) (w : Warp) (dn : Nat) : Tbl Tile :=
  if dn = 0 then ((Tbl.find s.crews w.crew).map Crew.tiles).getD [] else ((w.dom dn).map Dom.tiles).getD []
def State.setTile (s : State) (wid : Nat) (w : Warp) (dn t : Nat) (v : Option Tile) : State :=
  let f (tb : Tbl Tile) : Tbl Tile := match v with
    | some x => Tbl.put tb t x
    | none => Tbl.del tb t
  if dn = 0 then s.updCrew w.crew fun c => { c with tiles := f c.tiles }
  else s.updDom wid dn fun d => { d with tiles := f d.tiles }

/-- The tile a domain names by a slot: its own, or one granted to it, with the domain that owns it (R339). -/
def State.tileAt (s : State) (w : Warp) : Nat → Nat → Nat → Option (Nat × Nat × Tile)
  | 0, _, _ => none
  | fuel + 1, dn, t =>
    match Tbl.find (s.tilesOf w dn) t with
    | some x => some (dn, t, x)
    | none =>
      match (w.dom dn).bind Dom.call with
      | none => none
      | some c =>
        match c.tiles.find? fun g => g.1 == t with
        | some (_, d', t') => State.tileAt s w fuel d' t'
        | none => none

/-- The granules of a tile (R132). -/
def Tile.granules (t : Tile) : Nat := t.rows * t.cols * t.esz / 512
/-- The words of a tile (R132). -/
def Tile.words (t : Tile) : Nat := t.rows * t.cols * t.esz / 4
/-- The register-space address of word i of a tile. -/
def Tile.word (t : Tile) (i : Nat) : Nat := 128 * t.gran + i

/-- The records a domain names (R152, R337). -/
def State.recsOf (s : State) (w : Warp) (dn : Nat) : List (BitVec 256) :=
  if dn = 0 then ((Tbl.find s.crews w.crew).map Crew.recs).getD [] else ((w.dom dn).map Dom.recs).getD []

/-- Whether a context runs, or is still on its way to its boundaries (R347). -/
def State.awake (s : State) (ctx : Nat) : Bool := (Tbl.find s.ctxs ctx).any fun c => c.run == .running || c.run == .stopping
/-- The context that a crew's launch belongs to. -/
def State.crewCtx (s : State) (k : Crew) : Nat := ((Tbl.find s.launches k.launch).map Launch.ctx).getD 0
/-- Whether the contexts of a strand are awake: its crew's, and the one whose domain it executes in. -/
def State.strandAwake (s : State) (x : Who) : Bool := s.awake x.d.ctx && (Tbl.find s.crews x.w.crew).all fun k => s.awake (s.crewCtx k)
/-- Whether a context's partition is swapped out (R351). -/
def State.isOut (s : State) (ctx : Nat) : Bool :=
  ((Tbl.find s.ctxs ctx).bind fun c => Tbl.find s.parts c.part).any fun p => p.run == .out

/-- A fresh number. -/
def State.fresh (s : State) : Nat × State := (s.nextId, { s with nextId := s.nextId + 1 })

end Sys2Proof.Machine
end

