-- ==== Sys2Proof/Machine/Strands.lean ====
section
/-! DEFINITION. What a strand does between instructions: it advances, parks, transfers control, forks, reaches joins, fuses and
ends (R20, R34, R66, R103-R106, R111). -/

namespace Sys2Proof.Machine

/-- A strand waits; the time at which it began to wait for this is kept (R107). -/
def State.park (s : State) (wid sid : Nat) (w : Wait) : State :=
  s.updStrand wid sid fun st =>
    match st.parked with
    | some (w', _) => if w' = w then st else { st with parked := some (w, s.time) }
    | none => { st with parked := some (w, s.time) }

/-- One instruction of `n` units has issued: the PC moves, every lookahead window shrinks by one (R34), and an armed single step
is due next (R324). -/
def Strand.advance (st : Strand) (n : Nat) : Strand :=
  let pc := st.pc + BitVec.ofNat 53 n
  let inside := match st.clause with
    | some c => decide ((pc - c.hdr).toNat ≤ c.cnt)
    | none => false
  { st with
    pc := pc
    clause := if inside then st.clause else none
    parked := none
    pends := st.pends.map fun p => { p with left := p.left - 1 }
    yld := st.yld || (!inside && st.clause.any Clause.yld)
    stepArm := if st.stepArm = 1 then 2 else st.stepArm }

/-- The strand's entry taken over by other lanes: a deferred record or lanes set aside (R106). -/
def Strand.resumeAt (st : Strand) (pc : Pc) (clause : Option Clause) (em mem : Mask) (split : Option Nat) (rstack : List Pc) (dom : Nat)
    (parked : Option (Wait × Nat)) : Strand where
  pc := pc
  clause := clause
  em := em
  mem := mem
  rstack := rstack
  split := split
  dom := dom
  parked := parked
  pends := st.pends
  level := st.level
  stepArm := st.stepArm
  grants := st.grants
  yld := st.yld
  fenced := st.fenced
  past := st.past
  trapping := st.trapping

/-- A strand has reached a boundary of pre-emption: a clause header, or parked before issue (R347). -/
def Strand.stopped (st : Strand) : Bool := st.clause.isNone || st.parked.isSome

def State.advance (s : State) (wid sid n : Nat) : State := s.updStrand wid sid fun st => st.advance n

/-- A control transfer to a clause header ends every lookahead window it falls in (R34). -/
def Strand.jump (st : Strand) (pc : Pc) : Strand :=
  { st with
    pc := pc
    clause := none
    parked := none
    pends := st.pends.map fun p => { p with left := 0 }
    yld := st.yld || st.clause.any Clause.yld
    stepArm := if st.stepArm = 1 then 2 else st.stepArm }

def State.jump (s : State) (wid sid : Nat) (pc : Pc) : State := s.updStrand wid sid fun st => st.jump pc

/-- The PC after the clause, P + c + 1 (R20). -/
def Strand.nextClause (st : Strand) : Pc :=
  match st.clause with
  | some c => c.hdr + BitVec.ofNat 53 (c.cnt + 1)
  | none => st.pc

/-- The header of the clause that holds the instruction. -/
def Strand.header (st : Strand) : Pc :=
  match st.clause with
  | some c => c.hdr
  | none => st.pc

/-! ## Joins -/

/-- Whether split `i` is `j` or encloses it. -/
def splitBelow (sp : Tbl Split) : Nat → Option Nat → Nat → Bool
  | 0, _, _ => false
  | _ + 1, none, _ => false
  | n + 1, some j, i => decide (i = j) || splitBelow sp n ((Tbl.find sp j).bind Split.parent) i

/-- The innermost join of a strand's ancestry that it reaches at `pc` with `depth` return addresses (R105). -/
def reachedJoin (sp : Tbl Split) : Nat → Option Nat → Pc → Nat → Option Nat
  | 0, _, _, _ => none
  | _ + 1, none, _, _ => none
  | n + 1, some j, pc, depth =>
    match Tbl.find sp j with
    | none => none
    | some x => if x.join = some pc ∧ x.depth = depth then some j else reachedJoin sp n x.parent pc depth

/-- The split through which a strand inside a call descends: the calling strand's, and so on outward. -/
def outerSplits (w : Warp) : Nat → Nat → List (Option Nat)
  | 0, _ => []
  | n + 1, d =>
    match (w.dom d).bind Dom.call with
    | none => []
    | some c => c.split :: outerSplits w n c.callerDom

/-- Whether a strand descends from a split (R104). -/
def descends (w : Warp) (st : Strand) (i : Nat) : Bool :=
  (st.split :: outerSplits w 8 st.dom).any fun j => splitBelow w.splits 64 j i

/-- The requests of an agent that the device still keeps, memory and window accesses alike. -/
def State.madeBy (s : State) (a : Agent) : List Nat :=
  (s.accs.filterMap fun p => if p.2.agent = a then some p.1 else none) ++
  s.wreqs.filterMap fun p => if p.2.agent = a then some p.1 else none

/-- What an agent made before a fork took it from another entry. -/
def State.pastOf (s : State) : Agent → List Nat
  | .strand w i => ((s.strandAt w i).map fun (x : Who) => x.st.past).getD []
  | _ => []

/-- Whether an agent has a memory access that is not yet performed. -/
def State.undone (s : State) (a : Agent) : Bool := s.accs.any fun p => p.2.agent == a && !p.2.done

/-- The requests of an agent that are not yet performed, memory and window accesses alike. -/
def State.undoneIds (s : State) (a : Agent) : List Nat :=
  (s.madeBy a ++ s.pastOf a).filter fun i => (Tbl.find s.accs i).any (fun p => !p.done) || (Tbl.find s.wreqs i).isSome

/-- Whether a request has been performed. -/
def State.performed (s : State) (id : Nat) : Bool :=
  !((Tbl.find s.accs id).any fun a => !a.done) && (Tbl.find s.wreqs id).isNone

/-- Whether every strand descended from a split has reached its join or ended, and their accesses are performed (R105, R184). -/
def State.fusable (s : State) (wid : Nat) (w : Warp) (i : Nat) : Bool :=
  (w.strands.all fun p =>
    !descends w p.2 i ||
      ((match p.2.parked with | some (.join j, _) => decide (j = i) | _ => false) && (s.undoneIds (.strand wid p.1)).isEmpty)) &&
  (w.deferred.all fun d => !splitBelow w.splits 64 d.split i) &&
  (w.asides.all fun a => a.wait == .join i || !splitBelow w.splits 64 a.split i) &&
  ((Tbl.find w.splits i).all fun p => p.made.all s.performed)

/-- Nobody of a warp waits for some long-latency instructions any more. -/
def State.dropPends (s : State) (wid : Nat) (l : List Nat) : State :=
  s.updWarp wid fun w =>
    { w with strands := Tbl.mapVals w.strands fun _ st => { st with pends := st.pends.filter fun p => !l.contains p.id } }

/-- The long-latency instructions of fused strands: the owners, and those that only wait for one that another strand owns. -/
def fusePends (l : List Pend) : List Pend :=
  l.filter fun p => p.own || !l.any fun q => q.own && q.id == p.id

/-- What a side of a fork that does not keep the entry holds of a long-latency instruction. -/
def Pend.shadow (p : Pend) : Pend := { p with left := 0, wrs := [], push := none, sticky := 0, ready := false, own := false }

/-- The strand `k` takes over the accesses of the strands of `l`. -/
def State.adopt (s : State) (wid k : Nat) (l : List Nat) : State :=
  let own (a : Agent) : Agent := match a with
    | .strand w j => if w = wid ∧ j ∈ l then .strand wid k else a
    | _ => a
  { s with
    accs := Tbl.mapVals s.accs fun _ a => { a with agent := own a.agent }
    wreqs := Tbl.mapVals s.wreqs fun _ r => { r with agent := own r.agent } }

/-- The entry `k` holds the records and the lanes set aside of the entries of `l`. -/
def Warp.inherit (w : Warp) (k : Nat) (l : List Nat) : Warp :=
  { w with
    deferred := w.deferred.map fun d => if d.holder ∈ l then { d with holder := k } else d
    asides := w.asides.map fun a => if a.holder ∈ l then { a with holder := k } else a }

/-- Strands fuse: EMs and memberships are ORed, the lowest entry and its return stack remain (R105). -/
def State.fuse (s : State) (wid : Nat) (ids : List Nat) (more : List (Mask × Mask)) (f : Strand → Strand) : State :=
  match Tbl.find s.warps wid with
  | none => s
  | some w =>
    match ids with
    | [] => s
    | k :: rest =>
      match Tbl.find w.strands k with
      | none => s
      | some st =>
        let all := (k :: rest).filterMap fun i => Tbl.find w.strands i
        let em := (all.map Strand.em ++ more.map Prod.fst).foldl (· ||| ·) 0
        let mem := (all.map Strand.mem ++ more.map Prod.snd).foldl (· ||| ·) 0
        let st := f { st with em := em, mem := mem, parked := none, pends := fusePends (all.map Strand.pends).flatten, fenced := (all.map Strand.fenced).flatten, past := (all.map Strand.past).flatten }
        let strands := rest.foldl (fun t i => Tbl.del t i) (Tbl.put w.strands k st)
        (s.updWarp wid fun w => { w with strands := strands }.inherit k rest).adopt wid k rest

/-- Lanes set aside that go on at a place become one record of the entry that holds them (R106). -/
def asideRecord (l : List Aside) (pc : Pc) (clause : Option Clause) (split : Option Nat) : List Deferred :=
  match l with
  | [] => []
  | a :: _ =>
    [⟨a.holder, pc, clause, (l.map Aside.em).foldl (· ||| ·) 0, (l.map Aside.mem).foldl (· ||| ·) 0, split, a.rstack, a.dom⟩]

/-- The join of a split, when every strand descended from it is there (R105). Where only lanes set aside are there, they go on as
the most recent record of their entry (R106). -/
def State.tryJoin (s : State) (wid i : Nat) : State :=
  match Tbl.find s.warps wid with
  | none => s
  | some w =>
    if s.fusable wid w i then
      let ids := w.strands.filterMap fun p => if p.2.parked.any (fun q => q.1 == .join i) then some p.1 else none
      let aside := w.asides.filter fun a => a.wait == .join i
      let parent := (Tbl.find w.splits i).bind Split.parent
      let s := s.fuse wid ids (aside.map fun a => (a.em, a.mem)) fun st => { st with split := parent }
      s.updWarp wid fun w =>
        { w with
          splits := Tbl.del w.splits i
          asides := w.asides.filter fun a => !(a.wait == .join i)
          deferred := (if ids = [] then asideRecord aside ((aside.head?.map Aside.pc).getD 0) none parent else []) ++ w.deferred }
    else s

/-- The joins of a warp that nothing holds back any more (R66, R105). -/
def State.releaseJoins (s : State) (wid : Nat) : State :=
  match Tbl.find s.warps wid with
  | none => s
  | some w => (Tbl.keys w.splits).foldl (fun s i => s.tryJoin wid i) s

/-- Parks at a join or a barrier. A strand with deferred records sets its lanes aside and resumes its most recent record
(R106). DESIGN CHOICE (log 91): the rule of the 2^24 cycles speaks of a parked strand, so lanes set aside at a barrier have no time
of their own. -/
def State.parkAside (s : State) (wid sid : Nat) (wt : Wait) : State :=
  match s.strandAt wid sid with
  | none => s
  | some x =>
    match x.w.deferred.find? fun d => d.holder == sid with
    | none => s.park wid sid wt
    | some d =>
      s.updWarp wid fun w =>
        { w with
          asides := ⟨sid, wt, x.st.pc, x.st.clause, x.st.em, x.st.mem, x.st.split, x.st.rstack, x.st.dom⟩ :: w.asides
          deferred := w.deferred.erase d
          strands := Tbl.put w.strands sid
            (x.st.resumeAt d.pc d.clause d.em d.mem d.split d.rstack d.dom none) }

/-- A strand at a clause header that is a join of its ancestry parks there before the header's waits (R105). -/
def State.reachJoin (s : State) (wid sid : Nat) : Option State :=
  match s.strandAt wid sid with
  | none => none
  | some x =>
    match reachedJoin x.w.splits 64 x.st.split x.st.pc x.st.rstack.length with
    | none => none
    | some i =>
      -- a join that this strand completes fuses before any lanes are set aside
      let here := s.park wid sid (.join i)
      some (if (Tbl.find here.warps wid).any fun w => here.fusable wid w i then here.tryJoin wid i
        else (s.parkAside wid sid (.join i)).tryJoin wid i)

/-! ## Forks -/

/-- A side of a fork (R104): its lanes, where it goes, its return stack. -/
structure Side where
  (em : Mask) (pc : Pc) (rstack : List Pc)
  deriving DecidableEq, Repr

/-- How many strand entries are free (R103). -/
def Warp.freeEntries (w : Warp) : List Nat := (List.range 16).filter fun i => (Tbl.find w.strands i).isNone

/-- Forks (R104, R106): `keep` is the side that keeps the entry when all fit, `others` the further sides in ascending entry order;
a serial fork continues as the taken side of `brc`, which is in `others`, or as the first group. None where a seventeenth deferred record would be needed. -/
def State.fork (s : State) (x : Who) (join : Option Pc) (depth : Nat) (keep : Side) (others : List Side) (taken : Bool) : Option State :=
  let free := x.w.freeEntries
  let (n, s) := s.fresh
  let all := keep.em ||| (others.map Side.em).foldl (· ||| ·) 0
  let rest := x.st.mem &&& ~~~all
  let splits := Tbl.put x.w.splits n ⟨join, depth, x.st.split, []⟩
  let mk (sd : Side) (mem : Mask) : Strand :=
    { (x.st.jump sd.pc) with em := sd.em, mem := mem, rstack := sd.rstack, split := some n, grants := [], stepArm := 0, pends := x.st.pends.map Pend.shadow, past := s.madeBy (.strand x.wid x.sid) ++ x.st.past }
  if others.length ≤ free.length then
    let own : Strand := { (x.st.jump keep.pc) with em := keep.em, mem := keep.em ||| rest, rstack := keep.rstack, split := some n }
    let strands := (others.zip free).foldl (fun t p => Tbl.put t p.2 (mk p.1 p.1.em)) (Tbl.put x.w.strands x.sid own)
    some (s.updWarp x.wid fun w => { w with strands := strands, splits := splits })
  else
    -- the first side runs in this entry, further sides take what is free, and the rest wait as records
    let sides := if taken then others ++ [keep] else keep :: others
    match sides with
    | [] => none
    | first :: more =>
      let placed := more.zip free
      let left := more.drop free.length
      if 16 < x.w.deferred.length + left.length then none
      else
        let own : Strand := { (x.st.jump first.pc) with em := first.em, mem := first.em ||| rest, rstack := first.rstack, split := some n }
        let strands := placed.foldl (fun t p => Tbl.put t p.2 (mk p.1 p.1.em)) (Tbl.put x.w.strands x.sid own)
        let recs := left.map fun sd => (⟨x.sid, sd.pc, none, sd.em, sd.em, some n, sd.rstack, x.st.dom⟩ : Deferred)
        some (s.updWarp x.wid fun w =>
          { w with strands := strands, splits := splits, deferred := recs.reverse ++ w.deferred })

/-! ## Ending -/

/-- Splits from which nothing descends any more are dropped. -/
def Warp.dropSplits (w : Warp) : Warp :=
  { w with
    splits := w.splits.filter fun p =>
      (w.strands.any fun q => descends w q.2 p.1) || (w.deferred.any fun d => splitBelow w.splits 64 d.split p.1) ||
      w.asides.any fun a => splitBelow w.splits 64 a.split p.1 }

/-- The splits that a strand which ends descends from keep its accesses, which a fuse there follows (R184). -/
def Warp.leaveMade (w : Warp) (st : Strand) (l : List Nat) : Warp :=
  { w with splits := Tbl.mapVals w.splits fun i p => if descends w st i then { p with made := l ++ p.made } else p }

/-- A strand ends (R66, R111): one with deferred records resumes the most recent; the warp ends with its last strand. Lanes that
it had set aside at a join continue there as a strand of the same entry. One whose long-latency instructions are still in flight
keeps its entry until their results have landed (R34). -/
def State.endStrand (s : State) (wid sid : Nat) : State :=
  match s.strandAt wid sid with
  | none => s
  | some x =>
    match x.w.deferred.find? fun d => d.holder == sid with
    | some d =>
      s.updWarp wid fun w =>
        { w with
          deferred := w.deferred.erase d
          strands := Tbl.put w.strands sid
            (x.st.resumeAt d.pc d.clause d.em d.mem d.split d.rstack d.dom none) }
    | none =>
      match x.w.asides.find? fun a => a.holder == sid with
      | some a =>
        let s := s.updWarp wid fun w =>
          { w with
            asides := w.asides.erase a
            strands := Tbl.put w.strands sid
              (x.st.resumeAt a.pc a.clause a.em a.mem a.split a.rstack a.dom (some (a.wait, s.time))) }
        match a.wait with
        | .join i => s.tryJoin wid i
        | _ => s
      | none =>
        if x.st.pends.any Pend.own then s.park wid sid .ended
        else
        let made := s.undoneIds (.strand wid sid)
        let s := s.updWarp wid fun w =>
          let w := { (w.leaveMade x.st made) with strands := Tbl.del w.strands sid }
          let w := w.updDom x.st.dom fun d => if d.trapRec.any (fun r => r.sid == sid) then { d with trapRec := none } else d
          { w.dropSplits with ended := w.ended || (w.strands.all fun p => decide (p.1 = 16)) }
        s.releaseJoins wid

/-- The entry of a crew-rung handler strand: beside the 16 of the divergence table, which may all be in use. -/
def rungSid : Nat := 16

/-- Whether a strand opened the chain of traps that its domain's trap record holds, and stands still until the chain ends (R315). -/
def Who.opened (x : Who) : Bool := (x.st.parked.any fun p => p.1 == .handler) && x.d.trapRec.any fun r => r.sid == x.sid

/-- Lanes leave a strand's EM and membership for good. -/
def Strand.strip (st : Strand) (m : Mask) : Strand := { st with em := st.em &&& ~~~m, mem := st.mem &&& ~~~m }

/-- Lanes exit (R66, R112, R325): the strand's own; those of a crew-rung handler are its warp's, so they leave the stopped strands
and records as well, which end with their last lane. The strand that opened the chain is left to `tret` (R325). -/
def State.exitLanes (s : State) (wid sid : Nat) (m : Mask) : State :=
  let s := s.updStrand wid sid fun st => st.strip m
  if sid ≠ rungSid then s
  else
    let s := s.updWarp wid fun w =>
      { w with
        strands := Tbl.mapVals w.strands fun _ st => st.strip m
        deferred := (w.deferred.map fun d => { d with em := d.em &&& ~~~m, mem := d.mem &&& ~~~m }).filter fun d => d.mem != 0
        asides := (w.asides.map fun a => { a with em := a.em &&& ~~~m, mem := a.mem &&& ~~~m }).filter fun a => a.mem != 0 }
    let ids := ((Tbl.find s.warps wid).map fun w => Tbl.keys w.strands).getD []
    ids.foldl (fun s i =>
      match s.strandAt wid i with
      | some y => if i ≠ rungSid ∧ y.st.mem = 0 ∧ ¬y.opened then s.endStrand wid i else s
      | none => s) s

/-- A strand with no unexited lane ends (R66, R112); the strand of a crew-rung handler stands still until its timeout (log 45). -/
def State.endIfEmpty (s : State) (wid sid : Nat) : State :=
  match s.strandAt wid sid with
  | some x =>
    if x.st.mem ≠ 0 then s
    else if sid = rungSid then s.park wid sid .handler
    else s.endStrand wid sid
  | none => s

/-- Lanes exit, and the strand ends with its last one (R66, R112). -/
def State.dropLanes (s : State) (wid sid : Nat) (m : Mask) : State := (s.exitLanes wid sid m).endIfEmpty wid sid

end Sys2Proof.Machine
end

