-- ==== Sys2Proof/Machine/Sync.lean ====
section
/-! DEFINITION. Synchronisation words, status words and pending faults (R141-R143, R199-R202), the end of an engine command, and
window slots (R135, R139). -/

namespace Sys2Proof.Machine

/-! ## Fields of a synchronisation word (R141) -/

def syncGen (p : Dword) : Nat := (p.extractLsb' 48 16).toNat
def syncTgt (p : Dword) : Nat := (p.extractLsb' 24 24).toNat
def syncCnt (p : Dword) : Nat := (p.extractLsb' 0 24).toNat
def syncWord (gen tgt cnt : Nat) : Dword := BitVec.ofNat 16 gen ++ BitVec.ofNat 24 tgt ++ BitVec.ofNat 24 cnt

/-- The test of R23: (g - w) mod 65,536 < 32,768. -/
def genReached (g w : Nat) : Bool := decide ((g + 65536 - w % 65536) % 65536 < 32768)

/-- Whether a command, or a request at a work distributor, that names a pair of a domain is outstanding (R143, R286). -/
def State.pairBusy (s : State) (wid dom pair : Nat) : Bool :=
  (s.cmds.any fun p => p.2.wid == wid && p.2.dom == dom && p.2.pair == pair) ||
  s.wdReqs.any fun r => r.wid == wid && r.dom == dom && r.pair == pair

/-- Whether a scalar belongs to a pair that is busy (R143). -/
def State.scalarBusy (s : State) (wid dom k : Nat) : Bool :=
  s.pairBusy wid dom k || (decide (0 < k) && s.pairBusy wid dom (k - 1))

/-- Flips granules: warp side, no pending writes, valid, dirty (R125). -/
def Core.flip (c : Core) (l : List Nat) : Core := l.foldl (fun c g => c.setGran g ⟨false, false, true, true⟩) c

/-- Records granules as landed by a command under a pair since its last flip (R142): engine-side ones, the others having taken
nothing (R125). -/
def State.noteLanded (s : State) (wid dom pair cmd : Nat) (l : List Nat) : State :=
  { s with flips := ⟨wid, dom, pair, cmd, l.filter fun g => ((s.core (coreOf wid)).gran g).own⟩ :: s.flips }

/-- Counts b bytes into a pair (R142): the state, and the bytes dropped at a flip. -/
def State.countBytes (s : State) (wid dom pair b : Nat) : State × Nat :=
  match (Tbl.find s.warps wid).bind fun w => w.dom dom with
  | none => (s, 0)
  | some d =>
    let core := coreOf wid
    let p := s.pair core d pair
    let cnt := syncCnt p + b
    if syncTgt p ≤ cnt then
      let mine (f : Flip) : Bool := f.wid == wid && f.dom == dom && f.pair == pair
      let grans := (s.flips.filter mine).flatMap Flip.grans
      let s := { s with flips := s.flips.filter fun f => !mine f }
      let s := s.updCore core fun c => c.flip grans
      (s.setPair core d pair (syncWord ((syncGen p + 1) % 65536) (syncTgt p) 0), cnt - syncTgt p)
    else (s.setPair core d pair (syncWord (syncGen p) (syncTgt p) cnt), 0)

/-- The writes of a warp that are not yet performed (R140). -/
def State.warpWrites (s : State) (wid : Nat) : List Nat :=
  let mine (a : Agent) : Bool := match a with
    | .strand w _ => w == wid
    | _ => false
  (s.accs.filterMap fun p => if mine p.2.agent ∧ ¬p.2.done ∧ p.2.kind ≠ .load then some p.1 else none) ++
  s.wreqs.filterMap fun p => if mine p.2.agent ∧ p.2.write then some p.1 else none

/-- What engine accesses to granules of a core follow: the writes before the `give` of each (R140). -/
def State.givenIds (s : State) (core : Nat) (l : List Nat) : List Nat :=
  (l.flatMap fun g => (Tbl.find (s.core core).given g).getD []).filter fun i => !s.performed i

/-- Records a pending fault unless one is held (R201). -/
def State.pendFault (s : State) (wid dom pair seq : Nat) (t : Trap) : State :=
  s.updWarp wid fun w =>
    if w.pfaults.any fun f => f.dom == dom && f.pair == pair then w
    else { w with pfaults := ⟨dom, pair, t, seq⟩ :: w.pfaults }
def State.pendingOn (s : State) (wid dom pair : Nat) : Option Trap :=
  match Tbl.find s.warps wid with
  | none => none
  | some w => (w.pfaults.find? fun f => f.dom == dom && f.pair == pair).map PFault.trap
def State.clearPending (s : State) (wid dom pair : Nat) : State :=
  s.updWarp wid fun w => { w with pfaults := w.pfaults.filter fun f => !(f.dom == dom && f.pair == pair) }

/-- The status word (R199). -/
def statusWord (out : Nat) (ovr : Bool) (aux seq : Nat) : Word :=
  BitVec.ofNat 3 out ++ BitVec.ofBool ovr ++ BitVec.ofNat 8 aux ++ BitVec.ofNat 20 seq

/-- Clears INF of the granules that no outstanding command names (R125). -/
def State.releaseInf (s : State) (core : Nat) (l : List Nat) : State :=
  let named := s.cmds.flatMap fun p =>
    (if p.2.core = core then p.2.land ++ p.2.srcs else []) ++ (p.2.targets.filter fun t => t.core == core).flatMap McTarget.grans
  s.updCore core fun c =>
    l.foldl (fun c g => if named.contains g then c else c.setGran g { c.gran g with inf := false }) c

/-- One pin fewer on a block of a model (R250). -/
def State.unpin (s : State) (key block : Nat) : State :=
  { s with models := Tbl.upd s.models key fun m => { m with pins := Sparse.write 0 m.pins block (Sparse.read 0 m.pins block - 1) } }

/-- The key in State.models of the model that a sequence scalar of a command names (R247), or named before it was uninstalled. -/
def Cmd.modelKey (c : Cmd) (k : Nat) : Nat := c.retired.getD (c.ctx * 16 + (c.scal.getD k 0).toNat / 2 ^ 28)

/-- The pins that a `kvld` still holds are released (R259). -/
def State.unpinRows (s : State) (c : Cmd) : State :=
  match c.body with
  | .kvld f => ((c.rows.map KvRow.block).eraseDups).foldl (fun s b => s.unpin (c.modelKey f.sa.toNat) b) s
  | _ => s

/-- A command ends: its status is written, it leaves the queue and the array, and INF clears where nothing names the granule any
more (R199, R125). -/
def State.endCmd (s : State) (id out aux : Nat) : State :=
  match Tbl.find s.cmds id with
  | none => s
  | some c =>
    let s := { s.unpinRows c with cmds := Tbl.del s.cmds id }
    let s := s.updCore c.core fun k =>
      { k with cmds := k.cmds.filter (· != id), array := if k.array = some id then none else k.array }
    let s := c.targets.foldl (fun s t => s.releaseInf t.core t.grans) (s.releaseInf c.core (c.land ++ c.srcs))
    match (Tbl.find s.warps c.wid).bind fun w => w.dom c.dom with
    | none => s
    | some d => s.setScalar c.core d c.stat (statusWord out c.ovr aux c.seq)

/-- A failed command's landings no longer flip with its pair: their granules keep OWN = 1 (R202). -/
def State.dropLandings (s : State) (id : Nat) (c : Cmd) : State :=
  { s with flips := s.flips.filter fun f => !(f.cmd == id && f.wid == c.wid && f.dom == c.dom && f.pair == c.pair) }

/-- A command fails after acceptance (R201); a follow-on ends abandoned with the cause, which is also its pair's pending fault
(R207). -/
def State.failCmd (s : State) (id : Nat) (t : Trap) : State :=
  match Tbl.find s.cmds id with
  | none => s
  | some c =>
    let s := (s.dropLandings id c).pendFault c.wid c.dom c.pair c.seq { t with eng := true }
    let s := s.endCmd id 3 t.cause
    match c.follow with
    | none => s
    | some j =>
      match Tbl.find s.cmds j with
      | none => s
      | some m => (s.pendFault m.wid m.dom m.pair m.seq { t with eng := true }).endCmd j 4 t.cause

/-- Commands end abandoned (R203, R342). -/
def State.abandon (s : State) (p : Cmd → Bool) (aux : Nat) : State :=
  (s.cmds.filter fun q => p q.2).foldl (fun s q => s.endCmd q.1 4 aux) s

/-! ## Windows -/

/-- Frees a window slot and advances its generation modulo 2^14 (R139). -/
def Core.revoke (c : Core) (slot : Nat) : Core :=
  match Tbl.find c.wins slot with
  | none => c
  | some w => { c with wins := Tbl.del c.wins slot, gens := Sparse.write 0 c.gens slot ((w.gen + 1) % 16384) }

/-- A slot whose generation has run out may be used again after a swap or a reset (R139). -/
def Core.reopen (c : Core) : Core := { c with gens := Tbl.mapVals c.gens fun _ g => if g = 0x3FFF then g + 2 ^ 14 else g }

/-- Revokes every window of a core that satisfies p. -/
def Core.revokeAll (c : Core) (p : Win → Bool) : Core :=
  (c.wins.filter fun q => p q.2).foldl (fun c q => c.revoke q.1) c

end Sys2Proof.Machine
end

