-- ==== Sys2Proof/Machine/Ops.lean ====
section
/-! DEFINITION. The shared operations: taking an exception, the ladder it climbs, and the return (R308-R317, R323, R342). -/

namespace Sys2Proof.Machine

/-! ## Identity and CSR images -/

/-- WID (R102). -/
def widOf (wid : Nat) (w : Warp) : Dword :=
  BitVec.ofNat 64 (dieOf (coreOf wid) * 2 ^ 56 + clusOf (coreOf wid) * 2 ^ 49 + coreOf wid % 8 * 2 ^ 46 + wid % 32 * 2 ^ 41 +
    w.winc * 2 ^ 36 + w.cinb * 2 ^ 33 + w.bins * 2 ^ 29 + w.wlog * 2 ^ 26)

/-- TRUNG (R311). -/
def trungOf (first why fwinc : Nat) (fe : Bool) (rung : Nat) : Dword :=
  BitVec.ofNat 64 (first % 256 * 2 ^ 24 + why * 2 ^ 16 + fwinc * 2 ^ 8 + (if fe then 16 else 0) + rung)
def trungFirst (t : Dword) : Nat := (t.extractLsb' 24 8).toNat
def trungFwinc (t : Dword) : Nat := (t.extractLsb' 8 5).toNat

/-- The trap CSRs of a trap (R311). -/
def Csrs.ofTrap (c : Csrs) (t : Trap) (tpc : Pc) (trung : Dword) : Csrs :=
  { c with
    tcause := BitVec.ofNat 64 (t.cause + if t.eng then 256 else 0)
    tpc := tpc.setWidth 64
    tlanes := t.lanes
    taddr := BitVec.ofNat 64 t.addr
    tdetail := BitVec.ofNat 64 t.detail
    trung := trung }

/-- The reset value of TTIME (R311): WT 200, CT 2,000. -/
def ttimeReset : Dword := BitVec.ofNat 64 (2000 * 2 ^ 16 + 200)
/-- The CSRs of a warp at launch, or of a callee (R12, R337). -/
def Csrs.fresh (tvec tvecc : Dword) : Csrs := ⟨0, 0, 0, 0, 0, 0, 0, 0, tvec, tvecc, ttimeReset, 0, 0, 0⟩

/-- GSTAT (R341). -/
def gstatOf (code fcause : Nat) (rlost : Bool) (gate : Nat) : Dword :=
  BitVec.ofNat 64 (code * 2 ^ 24 + fcause % 256 * 2 ^ 16 + (if rlost then 2 ^ 15 else 0) + gate)

/-- The gate nesting depth of a domain (R341). -/
def gdepth (w : Warp) : Nat → Nat → Nat
  | 0, _ => 0
  | n + 1, d =>
    match (w.dom d).bind Dom.call with
    | none => 0
    | some c => 1 + gdepth w n c.callerDom

/-- Whether domain `d` is `e` or a call made, directly or not, from within `e`. -/
def inCall (w : Warp) : Nat → Nat → Nat → Bool
  | 0, _, _ => false
  | n + 1, d, e =>
    decide (d = e) ||
      match (w.dom d).bind Dom.call with
      | none => false
      | some c => inCall w n c.callerDom e

/-! ## The context rung (R317) -/

def Notice.box (n : Notice) : NoticeBox := if n.cause = 0xE0 ∨ n.cause = 0xE1 then .device else .part n.part
def State.notify (s : State) (n : Notice) : State := { s with outbox := s.outbox ++ [.notice n.box n] }

/-- A context's notice, sent once every crew of it has stopped. -/
def State.sendRungNotice (s : State) (ctx : Nat) : State :=
  match Tbl.find s.ctxs ctx with
  | none => s
  | some c =>
    match c.rung with
    | some r =>
      if r.noticed.isSome then s
      else (s.updCtx ctx fun c => { c with rung := some { r with noticed := some s.time } }).notify ⟨r.cause, c.part, ctx, r.vals⟩
    | none => s

/-- A context enters the context rung: firmware stops its crews by the rules of pre-emption, and then sends the notice (R317). -/
def State.enterCtx (s : State) (ctx cause : Nat) (vals : List Dword) : State :=
  match Tbl.find s.ctxs ctx with
  | none => s
  | some c =>
    if c.rung.isSome || c.run == .killed then s
    else
      let s := s.updCtx ctx fun c => { c with rung := some ⟨none, cause, vals⟩ }
      match c.run with
      | .running => s.updCtx ctx fun c => { c with run := .stopping, since := s.time, acks := [], pstate := 0xCE }
      | .stopped => s.sendRungNotice ctx
      | _ => s

/-- The values of a context-rung notice (R317). -/
def rungVals (c : Csrs) (wid : Dword) : List Dword := [c.tcause, c.tpc, c.tlanes, c.taddr, c.tdetail, c.trung, wid]

/-- The PC of the instruction that a strand issues; 0 for another agent. -/
def State.pcOf (s : State) (a : Agent) : Pc :=
  match a with
  | .strand w i => ((s.strandAt w i).map fun (x : Who) => x.st.pc).getD 0
  | _ => 0

/-- The values of a notice about a fault that no trap took (R159, R317): the faulting access's instruction and lanes, and the WID
of the warp that the access or command works for. -/
def State.faultVals (s : State) (f : Faulter) (cause va : Nat) : List Dword :=
  let (warp, tpc, lanes) : Option Nat × Pc × Dword := match f with
    | .access id => match Tbl.find s.accs id with
      | some a => ((match a.agent with | .strand w _ => some w | _ => none), a.pc, maskOf (a.lanes.map LaneAcc.lane))
      | none => (none, 0, 0)
    | .command id => ((Tbl.find s.cmds id).map Cmd.wid, 0, 0)
    | .agent (.strand w i) => (some w, s.pcOf (.strand w i), 0)
    | _ => (none, 0, 0)
  let w := warp.bind fun i => (Tbl.find s.warps i).map fun w => (i, w)
  [BitVec.ofNat 64 cause, tpc.setWidth 64, lanes, BitVec.ofNat 64 va, 0,
    trungOf cause 0 ((w.map fun p => p.2.winc).getD 0) false 0, (w.map fun p => widOf p.1 p.2).getD 0]

/-! ## The crew rung (R316) -/

/-- The handler warp: warp 0, or the lowest-numbered warp still live (R316). -/
def State.handlerWarp (s : State) (k : Crew) : Option (Nat × Warp) :=
  (k.warps.filterMap fun i =>
    match Tbl.find s.warps i with
    | some w => if w.ended then none else some (i, w)
    | none => none).foldl (fun b p => match b with
      | none => some p
      | some q => if p.2.winc < q.2.winc then some p else some q) none

/-- A chain of traps comes to the crew rung of a crew (R315, R316): the crew begins to stop. The strand that opened the chain stays
parked until the chain ends. -/
def State.enterCrew (s : State) (crew : Nat) (r : RungReq) : State :=
  let s := if r.fe then s else s.park r.warp r.sid .handler
  s.updCrew crew fun k => { k with rungQ := k.rungQ ++ [r] }

/-- Whether the crew has stopped for a chain at its crew rung: every strand is at a boundary, and the strand that opened the chain
has its long-latency instructions behind it (R309, R316). -/
def State.crewStopped (s : State) (k : Crew) (r : RungReq) : Bool :=
  k.warps.all fun i => match Tbl.find s.warps i with
    | none => true
    | some w => w.strands.all fun p =>
      p.2.stopped && (!(i == r.warp && p.1 == r.sid && !r.fe) || p.2.pends.isEmpty)

/-- The unexited lanes of a warp: those of its strands, its deferred records and the lanes set aside. -/
def Warp.unexited (w : Warp) : Mask :=
  (w.strands.map fun p => p.2.mem).foldl (· ||| ·) 0 ||| (w.deferred.map Deferred.mem).foldl (· ||| ·) 0 |||
    (w.asides.map Aside.mem).foldl (· ||| ·) 0

/-- Enters the crew rung, the crew having stopped (R316): warp H takes the trap values and a handler strand of its lanes; with no
handler the chain goes on to the context rung, WHY 0 (R315). -/
def State.startRung (s : State) (crew : Nat) (k : Crew) (r : RungReq) : State :=
  match Tbl.find s.warps r.warp, s.handlerWarp k with
  | some ow, some (hw, h) =>
    match h.dom 0 with
    | none => s
    | some d =>
      let s := s.updCrew crew fun k => { k with rungQ := k.rungQ.drop 1 }
      if d.csrs.tvecc = 0 then
        s.enterCtx d.ctx r.trap.cause
          (rungVals (d.csrs.ofTrap r.trap r.tpc (trungOf r.first 0 ow.winc r.fe 0)) (widOf r.warp ow))
      else
        let st : Strand :=
          ⟨d.csrs.tvecc.extractLsb' 3 53, none, h.unexited, h.unexited, [], none, 0, none, [], 1, 0, [], false, [], [], none⟩
        let s := s.updWarp hw fun w =>
          { (w.updDom 0 fun d => { d with csrs := d.csrs.ofTrap r.trap r.tpc (trungOf r.first r.why ow.winc r.fe 1) }) with
            strands := Tbl.put w.strands rungSid st }
        s.updCrew crew fun k => { k with rung := some ⟨hw, rungSid, d.csrs, r.warp, r.sid, r.fe, r.since, s.time⟩ }
  | _, _ => s

/-- The first chain that waits at a crew's rung enters it once no handler runs there and the crew has stopped, if it is one of
those of `p` and the context runs (R316). -/
def State.openRung (s : State) (crew : Nat) (p : RungReq → Bool) : State :=
  match Tbl.find s.crews crew with
  | none => s
  | some k =>
    match k.rung, k.rungQ with
    | none, r :: _ =>
      if p r && s.crewStopped k r && (Tbl.find s.ctxs (s.crewCtx k)).any fun c => c.run == .running then s.startRung crew k r else s
    | _, _ => s

/-! ## The end of a gate call that is killed (R342, R346) -/

/-- A word of an admitted window access is performed at the exporting core (R138, R186). -/
def State.windowWord (s : State) (write : Bool) (core : Nat) (l : WLane) : State × WLane :=
  if l.done then (s, l)
  else if write then (s.warpWrite core l.target l.val l.mark, { l with done := true })
  else (s, { l with val := (s.core core).word l.target, mark := (s.core core).mark l.target, done := true })

/-- The accesses admitted to windows of a run of granules are performed, before those windows are revoked (R139). -/
def State.settleWindows (s : State) (core g n : Nat) : State :=
  let here (p : Nat × WLane) : Bool := p.1 == core && decide (g ≤ p.2.target / 128) && decide (p.2.target / 128 < g + n)
  let word (write : Bool) (q : State × List (Nat × WLane)) (p : Nat × WLane) : State × List (Nat × WLane) :=
    if here p then
      let (s, l) := q.1.windowWord write p.1 p.2
      (s, q.2 ++ [(p.1, l)])
    else (q.1, q.2 ++ [p])
  s.wreqs.foldl (fun s r =>
    let (s, ws) := r.2.words.foldl (word r.2.write) (s, [])
    { s with wreqs := Tbl.put s.wreqs r.1 { r.2 with words := ws } }) s

/-- Scrubs granules: every word 0, VAL 0 (R346), and frees the run. -/
def Core.scrub (c : Core) (g n : Nat) : Core := (c.zeroGrans g n).free g n

/-- Scrubs and frees a callee's frame and its own tiles, revokes its windows, and under DEEP removes the callee ASID's
translations from the core's L1 TLB (R346). -/
def State.scrubCallee (s : State) (wid dn : Nat) : State :=
  match Tbl.find s.warps wid with
  | none => s
  | some w =>
    match w.dom dn with
    | none => s
    | some d =>
      let asid := ((Tbl.find s.ctxs d.ctx).map Context.asid).getD 0
      let s := s.settleWindows (coreOf wid) (d.a0 / 128) (d.granules w.width)
      let s := s.updCore (coreOf wid) fun c =>
        let c := c.revokeAll fun v => v.warp == wid && v.dom == dn
        let c := c.scrub (d.a0 / 128) (d.granules w.width)
        let c := d.tiles.foldl (fun c t => c.scrub t.2.gran t.2.granules) c
        match d.call with
        | some k => if k.deep then { c with tlb := c.tlb.filter fun e => e.asid != asid } else c
        | none => c
      s.updWarp wid fun w => { w with doms := Tbl.del w.doms dn, pfaults := w.pfaults.filter fun f => f.dom != dn }

/-- The caller of a call continues after its `gcall` (R340, R342): the strands inside the call become the calling strand again. -/
def State.leaveCall (s : State) (wid dn : Nat) (k : Call) : State :=
  match Tbl.find s.warps wid with
  | none => s
  | some w =>
    let ids := w.strands.filterMap fun p => if inCall w 8 p.2.dom dn then some p.1 else none
    let old := (ids.filterMap fun i => Tbl.find w.strands i)
    let sid := ids.headD k.sid
    -- what the caller had issued before its call is still its own
    let (mine, callee) := (fusePends (old.map Strand.pends).flatten).partition fun p => !inCall w 8 p.dom dn
    let lost := callee.map Pend.id
    let past := (old.map Strand.past).flatten
    let made := ids.flatMap fun i => s.madeBy (.strand wid i)
    let st : Strand :=
      { pc := k.retPc, clause := k.retClause, em := k.em, mem := k.mem, rstack := k.rstack, split := k.split, dom := k.callerDom,
        parked := none, pends := mine, level := k.level, stepArm := k.stepArm, grants := [], yld := false, fenced := made ++ past,
        past := past, trapping := none }
    let s := s.updWarp wid fun w =>
      { w with
        strands := Tbl.put (ids.foldl (fun t i => Tbl.del t i) w.strands) sid st
        deferred := w.deferred.filter fun d => !inCall w 8 d.dom dn
        asides := w.asides.filter fun a => !inCall w 8 a.dom dn }
    let s := s.dropPends wid lost
    let keep (a : Access) : Access := if a.pend.any (fun i => lost.contains i) then { a with pend := none } else a
    let gone (a : Agent) : Bool := match a with
      | .strand v j => v == wid && ids.contains j
      | _ => false
    let s := { s with
      accs := Tbl.mapVals s.accs fun _ a => keep a
      ringWaits := s.ringWaits.filter fun r => !gone r.agent
      walks := s.walks.filter fun p => !gone p.2.agent
      faults := s.faults.filter fun f => match f.who with
        | .agent a => !gone a
        | _ => true }
    s.adopt wid sid ids

/-- Zeroes the caller's result registers after a kill, except those whose granule the engine side holds; says whether one was
left (R342). -/
def State.zeroResults (s : State) (wid : Nat) (w : Warp) (cd : Dom) (k : Call) : State × Bool :=
  let core := coreOf wid
  let regs := (List.range k.nres).flatMap fun r => (lanesOf k.em).map fun l => cd.lane w.width r l
  let lost := regs.any fun a => ((s.core core).gran (a / 128)).own
  let s := regs.foldl (fun s a => if ((s.core core).gran (a / 128)).own then s else s.warpWrite core a 0 0) s
  ((List.range 4).foldl (fun s i => s.setScalar core cd i 0) s, lost)

/-- Kills a call with a GSTAT code and cause (R342, R343), the calls made from within it first. -/
def State.killCall (s : State) : Nat → Nat → Nat → Nat → Nat → State
  | 0, _, _, _, _ => s
  | n + 1, wid, dn, code, fcause =>
    match Tbl.find s.warps wid with
    | none => s
    | some w0 =>
      let inner := w0.doms.filterMap fun p => if p.2.call.any (fun c => c.callerDom == dn && p.1 != 0) then some p.1 else none
      let s := inner.foldl (fun s d => s.killCall n wid d 0xC5 0xCD) s
      match Tbl.find s.warps wid with
      | none => s
      | some w =>
        match (w.dom dn).bind Dom.call with
        | none => s
        | some k =>
          match w.dom k.callerDom with
          | none => s
          | some cd =>
            let s := s.abandon (fun c => c.wid == wid && c.dom == dn) 0xC5
            let (s, lost) := s.zeroResults wid w cd k
            let s := s.leaveCall wid dn k
            let s := s.scrubCallee wid dn
            s.updDom wid k.callerDom fun d => { d with csrs := { d.csrs with gstat := gstatOf code fcause lost k.gate } }

/-! ## Traps -/

/-- Whether the crew of a strand stands at the crew rung with this strand as its handler. -/
def State.isRungHandler (s : State) (x : Who) : Bool :=
  match (Tbl.find s.crews x.w.crew).bind Crew.rung with
  | some r => r.warp == x.wid && r.sid == x.sid
  | none => false

/-- Leaves the warp rung (R315, R342): a callee's call is killed with a notice to the callee context's host, and any other chain
enters the crew rung. `cs` holds the trap CSRs. -/
def State.leaveWarpRung (s : State) (x : Who) (t : Trap) (tpc : Pc) (why first opener : Nat) : State :=
  if x.st.dom = 0 then s.enterCrew x.w.crew ⟨x.wid, opener, t, tpc, why, first, false, s.time⟩
  else
    let part := ((Tbl.find s.ctxs x.d.ctx).map Context.part).getD 0
    let cs := x.d.csrs.ofTrap t tpc (trungOf first why x.w.winc false 0)
    (s.notify ⟨0xC5, part, x.d.ctx, rungVals cs (widOf x.wid x.w)⟩).killCall 8 x.wid x.st.dom 0xC5 first

/-- What the trap record keeps of a strand (R312). -/
def Strand.trapRec (st : Strand) (sid : Nat) (start : Nat) (tpc : Pc) : TrapRec :=
  ⟨sid, tpc, st.header, st.clause, st.em, st.rstack.length, start⟩

/-- Where TPC points for a trap of a strand (R309). -/
def Strand.tpcOf (st : Strand) (t : Trap) : Pc := if t.atHeader then st.header else st.pc

/-- A warp-rung trap is entered (R312), the long-latency instructions before it being complete: the trap record is kept; with no
handler the chain goes on to the crew rung, WHY 0 (R315); else the trap CSRs and the timer are set and the strand goes on at TVEC, at
level 1, its lanes unchanged. -/
def State.enterTrap (s : State) (x : Who) (t : Trap) : State :=
  let tpc := x.st.tpcOf t
  let tr := x.st.trapRec x.sid s.time tpc
  let s := s.updDom x.wid x.st.dom fun d => { d with trapRec := some tr }
  let s := s.updStrand x.wid x.sid fun st => { st with parked := none, stepArm := 0, trapping := none }
  if x.d.csrs.tvec = 0 then s.leaveWarpRung x t tpc 0 t.cause x.sid
  else
    let s := s.updDom x.wid x.st.dom fun d => { d with csrs := d.csrs.ofTrap t tpc (trungOf t.cause 0 x.w.winc false 0) }
    s.updStrand x.wid x.sid fun st =>
      { st with pc := x.d.csrs.tvec.extractLsb' 3 53, clause := none, level := 1 }

/-- Whether another strand of the warp runs a handler, or is about to (R310). -/
def Warp.otherHandler (w : Warp) (sid : Nat) : Bool :=
  (w.doms.any fun p => p.2.trapRec.any fun r => r.sid != sid) || w.strands.any fun p => p.1 != sid && p.2.trapping.isSome

/-- TAKING AN EXCEPTION (R309-R316): strand `sid` of warp `wid` takes trap `t`. A trap at level 1 escalates; a strand whose
sibling runs a handler parks until it returns; one that has long-latency instructions in flight waits for them first; then the trap
is entered. -/
def State.trapAt (s : State) (wid sid : Nat) (t : Trap) : State :=
  match s.strandAt wid sid with
  | none => s
  | some x =>
    let tpc := x.st.tpcOf t
    if s.isRungHandler x && x.st.dom == 0 then
      match (Tbl.find s.crews x.w.crew).bind Crew.rung with
      | none => s
      | some _ =>
        let cs := x.d.csrs.ofTrap t tpc (x.d.csrs.trung &&& 0xFFFFFFFFFF00FFFF ||| BitVec.ofNat 64 (0xCA * 2 ^ 16))
        (s.park wid sid .handler).enterCtx x.d.ctx t.cause (rungVals cs (widOf wid x.w))
    else if x.st.level = 1 then
      let opener := (x.d.trapRec.map TrapRec.sid).getD sid
      s.leaveWarpRung x t tpc 0xCA (trungFirst x.d.csrs.trung) opener
    else if x.w.otherHandler sid then s.park wid sid .handler
    else if x.st.pends = [] then s.enterTrap x t
    else (s.park wid sid .window).updStrand wid sid fun st => { st with trapping := some t }

/-- THE RETURN FROM AN EXCEPTION (R323): strand `sid` goes on at `pc`, in clause `cl` if any, with the EM saved at the trap that
lies in its membership, at level 0 and with the return-stack depth of the trap; the timer stops. With `step`, one instruction
issues before it traps (R324). A strand with no unexited lane ends (R325). -/
def State.returnTo (s : State) (wid sid : Nat) (r : TrapRec) (pc : Pc) (cl : Option Clause) (step : Bool) : State :=
  match s.strandAt wid sid with
  | none => s
  | some x =>
    let s := s.updDom wid x.st.dom fun d => { d with trapRec := none }
    let s := s.updStrand wid sid fun st =>
      { st with
        pc := pc
        clause := cl
        em := r.em &&& st.mem
        level := 0
        parked := none
        rstack := st.rstack.drop (st.rstack.length - r.depth)
        stepArm := if step then 1 else 0 }
    if x.st.mem = 0 then s.endStrand wid sid else s

/-- The CSRs of H with its own trap CSRs again (R316, R323). -/
def Csrs.restore (c saved : Csrs) : Csrs :=
  { c with
    tcause := saved.tcause
    tpc := saved.tpc
    tlanes := saved.tlanes
    taddr := saved.taddr
    tdetail := saved.tdetail
    trung := saved.trung
    tvec := saved.tvec
    tvecc := saved.tvecc
    ttime := saved.ttime }

/-- The crew rung ends: H's saved CSRs are restored, its handler strand is gone, the crew's other warp-rung timers run on, and a
chain that waits is next (R316, R323). -/
def State.endRung (s : State) (crew : Nat) : State :=
  match Tbl.find s.crews crew with
  | none => s
  | some k =>
    match k.rung with
    | none => s
    | some r =>
      let s := s.updWarp r.warp fun w =>
        { (w.updDom 0 fun d => { d with csrs := d.csrs.restore r.saved }) with strands := Tbl.del w.strands r.sid }
      let shift (w : Warp) : Warp :=
        { w with doms := Tbl.mapVals w.doms fun _ d =>
            { d with trapRec := d.trapRec.map fun t => { t with start := t.start + (s.time - max t.start r.since) } } }
      let s := k.warps.foldl (fun s i => s.updWarp i shift) s
      s.updCrew crew fun k => { k with rung := none, rungQ := k.rungQ.map fun q => { q with since := s.time } }

/-- A handler's timer reaches its rung's limit (R315): WHY and TCAUSE 0xCB; the handler strand goes no further. -/
def State.handlerExpired (s : State) (wid sid : Nat) : State :=
  match s.strandAt wid sid with
  | none => s
  | some x =>
    let t : Trap := { cause := 0xCB, lanes := x.st.em }
    if s.isRungHandler x then
      let cs := x.d.csrs.ofTrap t x.st.pc (x.d.csrs.trung &&& 0xFFFFFFFFFF00FFFF ||| BitVec.ofNat 64 (0xCB * 2 ^ 16))
      (s.park wid sid .handler).enterCtx x.d.ctx 0xCB (rungVals cs (widOf wid x.w))
    else s.leaveWarpRung x t x.st.pc 0xCB (trungFirst x.d.csrs.trung) ((x.d.trapRec.map TrapRec.sid).getD sid)

/-! ## Common beginnings of an instruction -/

abbrev Out := Host.Outcome State Fault Refusal

/-- Waits that end by an event or by another party, and not by issuing again (R105, R122, R171). -/
def Wait.byEvent : Wait → Bool
  | .bar _ | .walk | .ring | .ended => true
  | _ => false

/-- An instruction of classes 0 to 6 begins: the strand must exist; one that waits for an event stays; a single step that is due
traps (R324); an instruction beyond a lookahead window waits for its end (R34). -/
def issue (s : State) (k : Who → State) : Out :=
  match s.who with
  | none => .fault .noIssuer
  | some x =>
    .next (
      if x.st.parked.any fun p => p.1.byEvent then s
      else if x.st.stepArm = 2 then s.trapAt x.wid x.sid { cause := 0x1F, lanes := x.st.em }
      else if x.st.pends.any fun p => p.left == 0 then s.park x.wid x.sid .window
      else k x)

/-- A trap of the issuing strand with the lanes of its EM. -/
def State.trap (s : State) (x : Who) (cause : Nat) (detail : Nat := 0) (addr : Nat := 0) : State :=
  s.trapAt x.wid x.sid { cause := cause, lanes := x.st.em, addr := addr, detail := detail }

end Sys2Proof.Machine
end

