-- ==== Sys2Proof/Machine/Operands.lean ====
section
/-! DEFINITION. Operands of the instructions of classes 0 to 6: how sources are read and checked at issue (R9-R14, R127, R145-R147,
R319), and how results are delivered (R9, R128, R146). -/

namespace Sys2Proof.Machine

/-- The operands of an instruction: its register sources in the order A, B, C with their words per lane, its destination with
its words, the sources whose poison marks travel with the data instead of being consumed (R319), and whether a mask register is
one of its sources (R46, R50), which is neither scalar nor special (R146). -/
structure OpD where
  (srcs : List (Opnd × Nat)) (dst : Option (Opnd × Nat) := none) (carry : List Nat := []) (masked : Bool := false)
  deriving DecidableEq, Repr

/-- What a lane accesses in its own frame or a tile beside its direct operands: whether an index is out of range, and the words
read and written (R127). -/
structure OwnAcc where
  (bad : Bool) (reads writes : List Nat)
  deriving DecidableEq, Repr

def OwnAcc.none : OwnAcc := ⟨false, [], []⟩

/-! ## Reading -/

/-- Word j of a source for lane l; `ents` are the entries the source pops (R9, R10, R13, R145). -/
def srcWord (s : State) (x : Who) (ents : List QEntry) (o : Opnd) (n j l : Nat) : Word :=
  match o with
  | .v k => (s.core x.core).word (x.d.lane x.width (k.val + j) l)
  | .s k => s.scalar x.core x.d (k.val + j)
  | .q _ => match ents[j]? with
    | some e => if e.vec then e.words.getD l 0 else e.words.headD 0
    | none => 0
  | .zero => 0
  | .lane => if j = 0 then BitVec.ofNat 32 l else 0
  | .wslot => if j = 0 then BitVec.ofNat 32 (x.wid % 32) else 0
  | .core => if j = 0 then BitVec.ofNat 32 (x.core % 8) else 0
  | .clus => if j = 0 then BitVec.ofNat 32 (clusOf x.core) else 0
  | .item => if j = 0 then BitVec.ofNat 32 (((Tbl.find s.crews x.w.crew).map Crew.item).getD 0) else 0
  | .emlo => if j = 0 then x.st.em.extractLsb' 0 32 else if n = 2 then x.st.em.extractLsb' 32 32 else 0
  | .emhi => if j = 0 then x.st.em.extractLsb' 32 32 else 0

/-- The register-space words that a source names for lane l. -/
def srcAddrs (x : Who) (o : Opnd) (n l : Nat) : List Nat :=
  match o with
  | .v k => (List.range n).map fun j => x.d.lane x.width (k.val + j) l
  | .s k => (List.range n).map fun j => x.d.scal (k.val + j)
  | _ => []

/-- Whether an operand names a vector register outside the frame (R14). -/
def outOfFrame (x : Who) : Opnd → Nat → Bool
  | .v k, n => decide (x.d.fv < k.val + n)
  | _, _ => false

/-- The queue an operand names. -/
def opndQueue : Opnd → Option Nat
  | .q k => some k.val
  | _ => none

/-- The queue pops of the sources, served in order (R49): for each source the entries it takes. -/
def popEntries : List Queue → List (Opnd × Nat) → List (List QEntry)
  | _, [] => []
  | qs, (o, n) :: rest =>
    match opndQueue o with
    | some q =>
      let e := (qs.getD q ⟨[], false⟩).entries
      e.take n :: popEntries (qs.set q ⟨e.drop n, (qs.getD q ⟨[], false⟩).closed⟩) rest
    | none => [] :: popEntries qs rest

/-- How many entries of queue q the sources pop. -/
def popCount (srcs : List (Opnd × Nat)) (q : Nat) : Nat :=
  (srcs.filterMap fun p => if opndQueue p.1 = some q then some p.2 else none).foldl (· + ·) 0

/-! ## The beginning of an instruction -/

/-- An instruction whose operands are ready: the state and strand at issue, the lanes that go on, the lanes quenched with the bit
of their summary cause (R112, R113), and the entries popped by each source. -/
structure Ready where
  (s : State) (x : Who) (d : OpD) (em : Mask) (quench : List (Nat × Mask)) (ents : List (List QEntry))
  deriving DecidableEq, Repr

/-- Either the instruction stops here, parked, trapped or without effect, or it is ready. -/
inductive Prep where
  | halt (s : State)
  | go (r : Ready)
  deriving DecidableEq, Repr

namespace Ready
/-- Word j of source i for lane l. -/
def word (r : Ready) (i j l : Nat) : Word :=
  match r.d.srcs[i]? with
  | some (o, n) => srcWord r.s r.x (r.ents.getD i []) o n j l
  | none => 0
/-- The value of source i for lane l: a word, or a pair with the low word first (R10). -/
def val (r : Ready) (i l : Nat) : Nat :=
  match r.d.srcs[i]? with
  | some (_, 2) => (r.word i 0 l).toNat + 2 ^ 32 * (r.word i 1 l).toNat
  | _ => (r.word i 0 l).toNat
/-- The lowest lane that goes on. -/
def low (r : Ready) : Nat := (lowLane r.em).getD 0
/-- The poison mark of word j of source i for lane l. -/
def mark (r : Ready) (i j l : Nat) : Nat :=
  match r.d.srcs[i]? with
  | some (o, n) => match (srcAddrs r.x o n l)[j]? with
    | some a => (r.s.core r.x.core).mark a
    | none => 0
  | none => 0
/-- Whether every source is a scalar, a special operand or a scalar entry (R146). -/
def allScalar (r : Ready) : Bool :=
  !r.d.masked && (r.d.srcs.zip r.ents).all fun p =>
    match p.1.1 with
    | .v _ => false
    | .q _ => p.2.all fun e => !e.vec
    | _ => true
end Ready

/-- Whether an operand code of an instruction names a register outside the frame (R14). -/
def OpD.outside (x : Who) (d : OpD) : Bool :=
  (d.srcs.any fun p => outOfFrame x p.1 p.2) || d.dst.any fun p => outOfFrame x p.1 p.2

/-- The first violation of a lane that supplies operands, in the order of R127: 0 index, 2 ill-timed, 1 invalid read, 3 closed
queue (the bits of R113). -/
def violation (r : Ready) (acc : OwnAcc) (closed : Bool) (l : Nat) : Option Nat :=
  let x := r.x
  let c := r.s.core x.core
  let bad := acc.bad || r.d.outside x
  let vec (o : Opnd) (n : Nat) : List Nat := match o with
    | .v _ => srcAddrs x o n l
    | _ => []
  let reads := acc.reads ++ (r.d.srcs.flatMap fun p => vec p.1 p.2)
  let writes := acc.writes ++ match r.d.dst with
    | some (o, n) => vec o n
    | none => []
  if bad then some 0
  else if (reads ++ writes).any fun a => (c.gran (a / 128)).own then some 2
  else if reads.any fun a => !(c.gran (a / 128)).val then some 1
  else if closed then some 3
  else none

/-- The violation of a lane in EM that supplies no operand: an operand code and a closed queue strike every lane in EM (R14, R127,
R147). -/
def outerViolation (r : Ready) (closed : Bool) : Option Nat := if r.d.outside r.x then some 0 else if closed then some 3 else none

/-- R13, R338: the queue directions. The TDETAIL of cause 0x2C, if it is raised. -/
def queueFault (x : Who) (d : OpD) : Option Nat :=
  let qs := d.srcs.filterMap fun p => opndQueue p.1
  let qd := d.dst.bind fun p => opndQueue p.1
  if x.st.dom ≠ 0 ∧ (qs ≠ [] ∨ qd.isSome) then some 2
  else if qs.any (fun q => decide (4 ≤ q)) || qd.any (fun q => decide (q < 4)) then some 0
  else if x.st.em ≠ 0 ∧ qd.any (fun q => (x.w.queues.getD q ⟨[], false⟩).closed) then some 1
  else none

/-- Whether a pop or a push must wait (R147). -/
def queueWait (x : Who) (d : OpD) : Bool :=
  decide (x.st.em ≠ 0) &&
  (((List.range 4).any fun q =>
      let k := popCount d.srcs q
      let u := x.w.queues.getD q ⟨[], false⟩
      decide (u.entries.length < k) && !u.closed) ||
    match d.dst with
    | some (.q k, n) => decide (16 < (x.w.queues.getD k.val ⟨[], false⟩).entries.length + n)
    | _ => false)

/-- The scalar destinations that belong to a pair in use (R143). -/
def busyDst (s : State) (x : Who) (d : OpD) : Bool :=
  match d.dst with
  | some (.s k, n) => (List.range n).any fun j => s.scalarBusy x.wid x.st.dom (k.val + j)
  | _ => false

/-- Whether an instruction pushes an entry. -/
def OpD.pushes (d : OpD) : Bool :=
  match d.dst with
  | some (.q _, _) => true
  | _ => false

/-- Whether an agent has a memory or window access that is not yet performed: a push, being a release, waits for all (R224). -/
def State.unfinished (s : State) (a : Agent) : Bool :=
  (s.madeBy a ++ s.pastOf a).any fun i => (Tbl.find s.accs i).any (fun p => !p.done) || (Tbl.find s.wreqs i).isSome

/-- The words of the frame that an instruction touches for a lane. -/
def Ready.touched (r : Ready) (acc : OwnAcc) (l : Nat) : List Nat :=
  acc.reads ++ acc.writes ++ (r.d.srcs ++ r.d.dst.toList).flatMap fun p => srcAddrs r.x p.1 p.2 l

/-- Whether an instruction touches a register that a live window of its frame exports, while an acquire before it is not complete: it
is an access that the acquire orders (R180, R185). -/
def Ready.fencedOff (r : Ready) (acc : Ready → Nat → OwnAcc) : Bool :=
  let x := r.x
  let wins := (r.s.core x.core).wins.filter fun p => p.2.warp == x.wid && p.2.dom == x.st.dom
  let inside (w : Win) (a : Nat) : Bool :=
    decide (x.d.lane x.width w.k0 0 ≤ a) && decide (a < x.d.lane x.width (w.k0 + w.n) 0)
  (x.st.fenced.any fun i => !r.s.performed i) && wins.any fun p => (lanesOf x.st.em).any fun l => (r.touched (acc r l) l).any (inside p.2)

/-- The issue of an instruction's operands: 0x2C, 0x2E with TDETAIL 3, a queue that is not ready, own-frame violations (quench,
or the lowest trap), poison, in this order (log 16). `acc` gives a lane's further own-frame accesses from the source values;
`only` leaves out the lanes that supply no operand (R115), which the codes and queues of the operands strike all the same. -/
def beginOp (s : State) (x : Who) (d : OpD) (acc : Ready → Nat → OwnAcc := fun _ _ => OwnAcc.none)
    (only : Mask := 0xFFFFFFFFFFFFFFFF) : Prep :=
  match queueFault x d with
  | some k => .halt (s.trap x 0x2C k)
  | none =>
    if busyDst s x d then .halt (s.trap x 0x2E 3)
    else if queueWait x d then .halt (s.park x.wid x.sid .queue)
    else if d.pushes && s.unfinished x.agent then .halt (s.park x.wid x.sid .release)
    else
      let ents := popEntries x.w.queues d.srcs
      let r : Ready := ⟨s, x, d, x.st.em &&& only, [], ents⟩
      if r.fencedOff acc then .halt (s.park x.wid x.sid .release)
      else
      let closed := (List.range 4).any fun q =>
        decide ((x.w.queues.getD q ⟨[], false⟩).entries.length < popCount d.srcs q)
      let viol := (lanesOf x.st.em).filterMap fun l =>
        (if only.getLsbD l then violation r (acc r l) closed l else outerViolation r closed).map fun k => (k, l)
      let lanesWith (k : Nat) : List Nat := viol.filterMap fun p => if p.1 = k then some p.2 else none
      let trapOn := x.d.csrs.acr.getLsbD 24 || decide (x.st.dom ≠ 0)
      if viol ≠ [] ∧ trapOn then
        if lanesWith 0 ≠ [] then .halt (s.trapAt x.wid x.sid { cause := 0x20, lanes := maskOf (lanesWith 0) })
        else if lanesWith 1 ++ lanesWith 3 ≠ [] then
          .halt (s.trapAt x.wid x.sid
            { cause := 0x21, lanes := maskOf (lanesWith 1 ++ lanesWith 3), detail := if lanesWith 3 ≠ [] then 4 else 0 })
        else .halt (s.trapAt x.wid x.sid { cause := 0x22, lanes := maskOf (lanesWith 2) })
      else
        let em := x.st.em &&& only &&& ~~~maskOf (viol.map Prod.snd)
        let r := { r with em := em, quench := (List.range 4).map fun k => (k, maskOf (lanesWith k)) }
        let c := s.core x.core
        let readers := (lanesOf em).filterMap fun l =>
          let srcs := (List.range d.srcs.length).flatMap fun i =>
            if d.carry.contains i then [] else match d.srcs[i]? with
              | some p => srcAddrs x p.1 p.2 l
              | none => []
          ((srcs ++ (acc r l).reads).find? fun a => c.mark a != 0).map fun a => (l, a)
        match readers with
        | (_, a) :: _ =>
          .halt (s.trapAt x.wid x.sid { cause := 0x50, lanes := maskOf (readers.map Prod.fst), addr := a, detail := c.mark a })
        | [] => .go r

/-! ## Delivery -/

/-- Quenches lanes (R112): they leave the strand, their FMASK bits and the QKIND bit are set. -/
def State.quench (s : State) (x : Who) (l : List (Nat × Mask)) : State :=
  let m : Mask := (l.map Prod.snd).foldl (· ||| ·) 0
  if m = 0 then s
  else
    let s := s.updDom x.wid x.st.dom fun d =>
      let kind := l.foldl (fun (q : BitVec 4) (p : Nat × Mask) => if p.2 = 0 then q else q ||| (1#4 <<< p.1)) d.csrs.qkind
      { d with csrs := { d.csrs with fmask := d.csrs.fmask ||| m, qkind := kind } }
    s.exitLanes x.wid x.sid m

/-- The lanes of EM that the instruction has not quenched. -/
def Ready.live (r : Ready) : Mask := r.x.st.em &&& ~~~(r.quench.map Prod.snd).foldl (· ||| ·) 0

/-- The quench and the pops of an instruction that takes effect. -/
def Ready.commit (r : Ready) : State :=
  let s := r.s.quench r.x r.quench
  if r.live = 0 then s
  else s.updWarp r.x.wid fun w =>
    { w with queues := (List.range 8).map fun q =>
        let u := w.queues.getD q ⟨[], false⟩
        { u with entries := u.entries.drop (popCount r.d.srcs q) } }

/-- The words that a result names, for the lanes of `m` (R9): a vector destination takes each lane's words, a scalar one the
lowest lane's. -/
def Ready.writes (r : Ready) (m : Mask) (res : Nat → List Word) : List RegWrite :=
  match r.d.dst with
  | some (.v k, n) =>
    (lanesOf m).flatMap fun l => (List.range n).map fun j => ⟨r.x.d.lane r.x.width (k.val + j) l, (res l).getD j 0, 0⟩
  | some (.s k, n) =>
    match lowLane m with
    | some l => (List.range n).map fun j => ⟨r.x.d.scal (k.val + j), (res l).getD j 0, 0⟩
    | none => []
  | _ => []

/-- The entries that a result pushes (R146), one per word. -/
def Ready.pushes (r : Ready) (m : Mask) (res : Nat → List Word) : Option (Nat × List QEntry) :=
  match r.d.dst with
  | some (.q k, n) =>
    if r.live = 0 then none
    else some (k.val, (List.range n).map fun j =>
      if r.allScalar then ⟨false, [if m = 0 then 0 else (res ((lowLane m).getD 0)).getD j 0]⟩
      else ⟨true, (List.range r.x.width).map fun l => if m.getLsbD l then (res l).getD j 0 else 0⟩)
  | _ => none

/-- Writes words into the warp's frame. -/
def State.land (s : State) (core : Nat) (l : List RegWrite) : State := l.foldl (fun s w => s.warpWrite core w.addr w.val w.mark) s

/-- Pushes entries into a queue (R146). -/
def State.push (s : State) (wid : Nat) : Option (Nat × List QEntry) → State
  | none => s
  | some (q, es) => s.updWarp wid fun w =>
    let u := w.queues.getD q ⟨[], false⟩
    { w with queues := w.queues.set q ⟨u.entries ++ es, u.closed⟩ }



/-- ORs sticky bits into ACR (R19). -/
def State.sticky (s : State) (wid dn bits : Nat) : State :=
  s.updDom wid dn fun d => { d with csrs := { d.csrs with acr := d.csrs.acr ||| BitVec.ofNat 64 bits } }

/-- A short instruction completes: results for the lanes of `m`, sticky bits, and the PC moves (R9, R33). -/
def Ready.finish (r : Ready) (m : Mask) (res : Nat → List Word) (bits : Nat := 0) (units : Nat := 1) : State :=
  let s := (r.commit.land r.x.core (r.writes m res)).push r.x.wid (r.pushes m res)
  ((s.sticky r.x.wid r.x.st.dom bits).advance r.x.wid r.x.sid units).endIfEmpty r.x.wid r.x.sid

/-- A long-latency instruction issues with its results known: they land later (R34, R35). -/
def Ready.launch (r : Ready) (la : Nat) (m : Mask) (res : Nat → List Word) (bits : Nat := 0) : State :=
  let (n, s) := r.commit.fresh
  let s := s.advance r.x.wid r.x.sid 1
  let p : Pend := ⟨n, la, r.writes m res, r.pushes m res, bits, true, false, true, r.x.st.dom⟩
  (s.updStrand r.x.wid r.x.sid fun st => { st with pends := st.pends ++ [p] }).endIfEmpty r.x.wid r.x.sid

/-- The lanes whose conditions count (R48, R81): all of EM, or the lowest where the destination is a scalar. -/
def Ready.counted (r : Ready) : Mask :=
  match r.d.dst with
  | some (.s _, _) => match lowLane r.em with
    | some l => 1#64 <<< l
    | none => 0
  | _ => r.em

/-- A number as one word or two (R10). -/
def wordsOf (n v : Nat) : List Word :=
  if n = 2 then [BitVec.ofNat 32 v, BitVec.ofNat 32 (v / 2 ^ 32)] else [BitVec.ofNat 32 v]

/-- Words per lane of a type (R10). -/
def tyWords (t : Ty) : Nat := if t.wide then 2 else 1

/-- A strand leaves an instruction that has no effect but moves the PC. -/
def State.skip (s : State) (x : Who) : State := s.advance x.wid x.sid 1

/-- The mask of a member field and EM (R115). -/
def participants (x : Who) (em : Mask) : Members → Mask
  | .all => em
  | .m k => em &&& x.d.mask k

/-- Writes a mask register for the lanes of EM (R11). -/
def State.setMaskBits (s : State) (x : Who) (em : Mask) (m : MReg) (v : Mask) : State :=
  s.updDom x.wid x.st.dom fun d => d.setMask m ((d.mask m &&& ~~~em) ||| (v &&& em))

/-- Completes an instruction whose result is a mask register (R11, R46). -/
def Ready.finishMask (r : Ready) (m : MReg) (v : Mask) (bits : Nat := 0) : State :=
  let s := (r.commit.setMaskBits r.x r.em m v).sticky r.x.wid r.x.st.dom bits
  (s.advance r.x.wid r.x.sid 1).endIfEmpty r.x.wid r.x.sid

end Sys2Proof.Machine
end

