-- ==== Sys2Proof/Machine/Flags.lean ====
section
/-! DEFINITION. The completion of integer and floating instructions: conditions, traps and sticky bits (R48, R81). -/

namespace Sys2Proof.Machine

/-- Fields of ACR (R18). -/
def acrRm (a : Dword) : Nat := (a.extractLsb' 0 3).toNat
def acrFtrap (a : Dword) : Nat := (a.extractLsb' 3 5).toNat
def acrEdz (a : Dword) : Bool := a.getLsbD 8
def acrEov (a : Dword) : Bool := a.getLsbD 9

/-- R48: what an integer instruction does once its per-lane results are formed. `fin` is how it completes with its sticky
bits. -/
def completeInt (r : Ready) (dz ov : Mask) (fin : Nat → State) : State :=
  let acr := r.x.d.csrs.acr
  let dz := dz &&& r.counted
  let ov := ov &&& r.counted
  if acrEdz acr ∧ dz ≠ 0 then r.s.trapAt r.x.wid r.x.sid { cause := 0x18, lanes := dz }
  else if acrEov acr ∧ ov ≠ 0 then r.s.trapAt r.x.wid r.x.sid { cause := 0x19, lanes := ov }
  else fin ((if dz ≠ 0 then 2 ^ 21 else 0) + (if ov ≠ 0 then 2 ^ 22 else 0))

/-- The lanes of `m` for which a flag is raised. -/
def flagLanes (m : Mask) (fl : Nat → Nat) (bit : Nat) : Mask := maskWhere m fun l => (fl l).testBit bit

/-- R81: the first enabled flag that a counted lane raised traps with cause 0x1A + its index; else the flags become sticky. -/
def completeFp (r : Ready) (fl : Nat → Nat) (fin : Nat → State) : State :=
  let m := r.counted
  match (List.range 5).find? fun b => (acrFtrap r.x.d.csrs.acr).testBit b && decide (flagLanes m fl b ≠ 0) with
  | some b => r.s.trapAt r.x.wid r.x.sid { cause := 0x1A + b, lanes := flagLanes m fl b }
  | none => fin ((List.range 5).foldl (fun n b => if flagLanes m fl b ≠ 0 then n + 2 ^ (16 + b) else n) 0)

/-- The mode of a floating instruction (R75); `z` is the index of the source that holds the random word. -/
def fmode (x : Who) (rd : Rnd) (k z : Nat) : Mode := rndMode rd (acrRm x.d.csrs.acr) k z

/-- The format of a floating type (R26). -/
def fmtOf : Ty → FFmt
  | .f16x2 => f16
  | .bf16x2 => bf16
  | _ => f32

/-- The elements of a register of a type: one, or two halves (R69). -/
def elems (t : Ty) : Nat :=
  match t with
  | .f16x2 | .bf16x2 => 2
  | _ => 1
/-- The k of stochastic rounding for a type (R76). -/
def rsBits (t : Ty) : Nat := if elems t = 2 then 16 else 32
/-- Element i of a register value. -/
def elem (t : Ty) (x i : Nat) : Nat := if elems t = 2 then x / 2 ^ (16 * i) % 2 ^ 16 else x

/-- A per-element operation on a register of a type (R69): `f i` is the result of element i. -/
def perElem (t : Ty) (f : Nat → FRes) : FRes :=
  if elems t = 2 then ⟨(f 0).val + 2 ^ 16 * (f 1).val, (f 0).flags ||| (f 1).flags⟩ else f 0

end Sys2Proof.Machine
end

