-- ==== Sys2Proof/Machine/Memory.lean ====
section
/-! DEFINITION. Device memory: bytes at physical addresses, memory ports, poison of lines, and buffer records (R3, R151-R153, R319). -/

namespace Sys2Proof.Machine

/-! ## Bytes -/

/-- What an unlisted byte reads as (log 1). -/
def memDefault : Byte := 0

namespace Memory
/-- The byte at a physical address. -/
def read (m : List Host.Cell) (a : Nat) : Byte := Sparse.read memDefault m a
/-- Stores a byte. -/
def write (m : List Host.Cell) (a : Nat) (b : Byte) : List Host.Cell := Sparse.write memDefault m a b
/-- The canonical form: addresses rise, and no entry equals what an unlisted address reads as. -/
def wf (m : List Host.Cell) : Bool := Sparse.wf memDefault m
end Memory

/-- A number from bytes, the least significant first (R3). -/
def leNat : List Byte → Nat
  | [] => 0
  | b :: t => b.toNat + 256 * leNat t
/-- n bytes of a number, the least significant first (R3). -/
def leBytes : Nat → Nat → List Byte
  | 0, _ => []
  | n + 1, v => BitVec.ofNat 8 v :: leBytes n (v / 256)

def State.readBytes (s : State) (pa n : Nat) : List Byte := Sparse.readList memDefault s.mem pa n
def State.writeBytes (s : State) (pa : Nat) (l : List Byte) : State := { s with mem := Sparse.writeList memDefault s.mem pa l }
/-- An n-byte little-endian number of physical memory. -/
def State.readNat (s : State) (pa n : Nat) : Nat := leNat (s.readBytes pa n)
def State.writeNat (s : State) (pa n v : Nat) : State := s.writeBytes pa (leBytes n v)

/-- The pieces of a range that lie in one line each: address and length. -/
def linePieces (va n : Nat) : List (Nat × Nat) :=
  if n = 0 then []
  else (List.range ((va + n - 1) / 256 + 1 - va / 256)).map fun i =>
    let a := max va ((va / 256 + i) * 256)
    (a, min (va + n) ((va / 256 + i + 1) * 256) - a)

/-! ## Targets and ports (R151) -/

/-- The CXL ports that are up, in ascending order (R151, bring-up). -/
def State.cxlPorts (s : State) : List Nat := (List.range 16).filter fun i => s.portsUp.getLsbD i
/-- Whether a physical address is populated (R151). Tier 2 holds 2 TiB for each expander port that came up. -/
def State.populated (s : State) (pa : Nat) : Bool :=
  let t := pa / 2 ^ 48
  if t < 4 then decide (pa % 2 ^ 48 < 144 * 2 ^ 30)
  else decide (t = 8) && decide (pa % 2 ^ 48 < s.cxlPorts.length * 2 ^ 41)
/-- Whether a physical address lies in tier 2. -/
def tier2 (pa : Nat) : Bool := decide (pa / 2 ^ 48 = 8)
/-- The port of a line: of the die that owns it by the unpublished hash (log 8), or of the CXL interleave at 4 KiB. HBM ports are
numbered die × 96 + port, CXL ports from 384 and network ports from 400. -/
def State.portOf (s : State) (pa : Nat) : Nat :=
  if tier2 pa then 384 + s.cxlPorts.getD (pa % 2 ^ 48 / 4096 % (max 1 s.cxlPorts.length)) 0
  else pa / 2 ^ 48 * 96 + Config.portHash (pa / 256) % 96
/-- Whether the port of an address is up. -/
def State.reachable (s : State) (pa : Nat) : Bool := !s.portsDown.contains (s.portOf pa)

/-! ## Poison of lines (R319) -/

def State.lineMark (s : State) (pa : Nat) : Nat := Sparse.read 0 s.mmarks (pa / 256)
def State.setLineMark (s : State) (pa mk : Nat) : State := { s with mmarks := Sparse.write 0 s.mmarks (pa / 256) mk }

/-! ## Buffer records (R152, R153) -/

abbrev Rcd := BitVec 256

namespace Rcd
def valid (r : Rcd) : Bool := r.getLsbD 191
def fault (r : Rcd) : Bool := r.getLsbD 178
def dscope (r : Rcd) : Nat := (r.extractLsb' 175 3).toNat
def tier (r : Rcd) : Nat := (r.extractLsb' 173 2).toNat
def pa (r : Rcd) : Bool := r.getLsbD 172
def pw (r : Rcd) : Bool := r.getLsbD 171
def pr (r : Rcd) : Bool := r.getLsbD 170
def swz (r : Rcd) : Nat := (r.extractLsb' 168 2).toNat
def rl (r : Rcd) : Nat := (r.extractLsb' 152 16).toNat
def stride (r : Rcd) : Nat := (r.extractLsb' 128 24).toNat
def extent (r : Rcd) : Nat := (r.extractLsb' 64 48).toNat
def base (r : Rcd) : Nat := (r.extractLsb' 0 56).toNat
/-- R152: well formed. -/
def wf (r : Rcd) : Bool :=
  r.valid && r.extractLsb' 192 64 == 0 && r.extractLsb' 179 12 == 0 && r.extractLsb' 112 16 == 0 && r.extractLsb' 56 8 == 0 &&
  r.dscope != 7 && r.tier != 3 && r.swz != 3 && decide (r.base + r.extent ≤ 2 ^ 56)
/-- R153: the swizzle cannot be applied. -/
def swzBad (r : Rcd) : Bool := r.swz != 0 && (r.rl == 0 || r.rl % 8 != 0)
/-- R153: the element of an index; none for a negative index under a swizzle. -/
def elemOf (r : Rcd) (i : Int) : Option Int :=
  match r.swz with
  | 0 => some i
  | 1 => if i < 0 then none else
    let row := i.toNat / r.rl
    let col := i.toNat % r.rl
    some ((row / 8 * (r.rl / 8) + col / 8) * 64 + row % 8 * 8 + col % 8 : Nat)
  | _ => if i < 0 then none else
    let row := i.toNat / r.rl
    let col := i.toNat % r.rl
    some (row * r.rl + (col ^^^ (row % 8)) : Nat)
/-- R153: the virtual address of an access of z bytes, or none out of extent. -/
def address (r : Rcd) (i off : Int) (z : Nat) : Option Nat :=
  match r.elemOf i with
  | none => none
  | some e =>
    let d := e * r.stride + off
    if d < 0 ∨ (r.extent : Int) < d + z then none else some (r.base + d.toNat)
/-- R158: the address that cause 0x41 reports, formed as if the extent were unbounded. -/
def faultAddr (r : Rcd) (i off : Int) : Nat :=
  (((r.base : Int) + ((r.elemOf i).getD i) * r.stride + off) % 2 ^ 64).toNat
end Rcd

/-- A word read as i32. -/
def i32 (w : Word) : Int := w.toInt

end Sys2Proof.Machine
end

