-- ==== Sys2Proof/Machine/Translate.lean ====
section
/-! DEFINITION. Virtual memory: page tables, the walk, L1 TLBs, and reads and writes of a context's memory (R155-R163). -/

namespace Sys2Proof.Machine

/-! ## Page-table entries (R156) -/

abbrev Pte := BitVec 64

namespace Pte
def v (e : Pte) : Bool := e.getLsbD 0
def t (e : Pte) : Bool := e.getLsbD 1
def sz (e : Pte) : Nat := (e.extractLsb' 2 2).toNat
def r (e : Pte) : Bool := e.getLsbD 4
def w (e : Pte) : Bool := e.getLsbD 5
def x (e : Pte) : Bool := e.getLsbD 6
def rep (e : Pte) : Bool := e.getLsbD 7
def home (e : Pte) : Nat := (e.extractLsb' 8 2).toNat
def addr (e : Pte) : Nat := (e.extractLsb' 12 40).toNat * 4096
/-- log2 of the page size. -/
def log (e : Pte) : Nat :=
  match e.sz with
  | 0 => 16
  | 1 => 21
  | _ => 30
def leaf (e : Pte) (level : Nat) : Bool := !e.t && decide (level ≤ 1)
/-- An absent table (R156). -/
def absentTable (e : Pte) (level : Nat) : Bool := !e.v && (decide (2 ≤ level) || (e.t && level == 1))
/-- The index bits that the leaves of a group do not share (R155). -/
def groupSize (e : Pte) : Nat :=
  match e.sz with
  | 1 => 32
  | 2 => 16
  | _ => 1
end Pte

/-- R156: the conditions that make an entry malformed at a level, but for the comparison with its group's first entry. -/
def State.malformed (s : State) (e : Pte) (level : Nat) : Bool :=
  e.extractLsb' 52 12 != 0 || e.extractLsb' 10 2 != 0 ||
  (e.t && level == 0) || (!e.t && e.v && decide (2 ≤ level)) ||
  e.home == 3 || (e.v && e.home != 0) ||
  (e.absentTable level && (e.home != 0 || e.extractLsb' 2 6 != 0)) ||
  (e.leaf level && (e.sz == 3 || (level == 1 && decide (e.sz < 2)) || (level == 0 && e.sz == 2))) ||
  (e.v && e.t && (e.extractLsb' 2 10 != 0 || e.addr % 8192 != 0 || !s.populated e.addr)) ||
  (e.v && e.leaf level && (e.addr % 2 ^ e.log != 0 || !s.populated e.addr))

/-- How a walk ends (R156, R158, R159): at a leaf, present or migratable; or with a cause and its TDETAIL. -/
inductive WalkEnd where
  | leaf (level pte : Nat) (e : Pte)
  | bad (cause detail : Nat)
  deriving DecidableEq, Repr

/-- A leaf met at a level: it is compared with its group's first entry, then absent, migratable or present; the line looked for lies
behind a port that is up, or not (R158). -/
def State.walkLeaf (s : State) (va table idx level : Nat) (e : Pte) : WalkEnd :=
  let first : Pte := BitVec.ofNat 64 (s.readNat (table + 8 * (idx / e.groupSize * e.groupSize)) 8)
  if first ≠ e then .bad 0x4C level
  else if e.v ∧ tier2 e.addr ∧ ¬s.reachable (e.addr + va % 2 ^ e.log) then .bad 0x4F 0
  else if !e.v && e.home == 0 then .bad 0x47 0
  else .leaf level (table + 8 * idx) e

/-- The walk from a table of a level down (R155, R156). -/
def State.walkFrom (s : State) (va : Nat) : Nat → Nat → WalkEnd
  | level, table =>
    let idx := va / 2 ^ (16 + 10 * level) % 1024
    let e : Pte := BitVec.ofNat 64 (s.readNat (table + 8 * idx) 8)
    if tier2 table ∧ ¬s.reachable (table + 8 * idx) then .bad 0x4F 0
    else if s.malformed e level then .bad 0x4C level
    else if e.absentTable level then .bad 0x47 0
    else
      match level with
      | 0 => s.walkLeaf va table idx 0 e
      | n + 1 => if e.t then s.walkFrom va n e.addr else s.walkLeaf va table idx (n + 1) e

/-- The walk of a context's tables (R155): an ASID without a root is cause 0x4B. -/
def State.walk (s : State) (ctx va : Nat) : WalkEnd :=
  match (Tbl.find s.ctxs ctx).bind Context.root with
  | none => .bad 0x4B 0
  | some root => s.walkFrom va 3 root

/-! ## L1 TLBs (R157) -/

def TlbEntry.holds (e : TlbEntry) (asid va : Nat) : Bool := e.asid == asid && e.va / 2 ^ e.log == va / 2 ^ e.log

/-- A translation: a physical address with the page's permissions, a replayable fault with the permissions of its leaf, or a
cause. -/
inductive Tr where
  | ok (pa : Nat) (r w x : Bool)
  | replay (r w x : Bool)
  | bad (cause detail : Nat)
  deriving DecidableEq, Repr

def State.asidOf (s : State) (ctx : Nat) : Nat := ((Tbl.find s.ctxs ctx).map Context.asid).getD 0

/-- The L1 TLB entry that serves an address at a core: its own, or one of the other seven cores of its cluster. -/
def State.tlbHit (s : State) (core ctx va : Nat) : Option TlbEntry :=
  let asid := s.asidOf ctx
  ((core :: (List.range 8).map fun i => core / 8 * 8 + i).flatMap fun c => (s.core c).tlb).find? fun e => e.holds asid va

def TlbEntry.tr (e : TlbEntry) (va : Nat) : Tr := .ok (e.pa + va % 2 ^ e.log) e.r e.w e.x

/-- Puts an entry into a core's TLB of 128 entries; the oldest leaves (log 17). -/
def Core.tlbFill (c : Core) (e : TlbEntry) : Core := { c with tlb := (e :: c.tlb.filter (· ≠ e)).take 128 }

/-- The TLB entry of a present leaf. -/
def State.entryOf (s : State) (ctx va : Nat) (e : Pte) : TlbEntry :=
  ⟨s.asidOf ctx, va / 2 ^ e.log * 2 ^ e.log, e.log, e.addr, e.r, e.w, e.x, e.rep⟩

/-- The translation of a walk's end. -/
def WalkEnd.tr (va : Nat) : WalkEnd → Tr
  | .bad c d => .bad c d
  | .leaf _ _ e => if e.v then .ok (e.addr + va % 2 ^ e.log) e.r e.w e.x else .replay e.r e.w e.x

/-- Fills the TLB of a core for an address: a neighbour's entry, or the walk's present leaf (R157). -/
def State.fillTlb (s : State) (core ctx va : Nat) : State :=
  match s.tlbHit core ctx va with
  | some e => s.updCore core fun c => c.tlbFill e
  | none =>
    match s.walk ctx va with
    | .leaf _ _ e => if e.v then s.updCore core fun c => c.tlbFill (s.entryOf ctx va e) else s
    | .bad .. => s

/-- Translates at a core through its TLBs, or by a walk (R157). -/
def State.translate (s : State) (core ctx va : Nat) : Tr :=
  match s.tlbHit core ctx va with
  | some e => e.tr va
  | none => (s.walk ctx va).tr va

/-- Removes translations from every TLB (the shootdown of R157, `tlbinv` of R327). -/
def State.shoot (s : State) (p : Nat → TlbEntry → Bool) : State :=
  { s with cores := Tbl.mapVals s.cores fun i c => { c with tlb := c.tlb.filter fun e => !p i e } }

/-! ## The fault buffer (R159, R160) -/

/-- Whether a page is resident. -/
def State.resident (s : State) (ctx va : Nat) : Bool :=
  match s.walk ctx va with
  | .leaf _ _ e => e.v
  | .bad .. => false

/-- R160: log2 of the span that moves with a page of size 2^log, doubled within the block size. -/
def State.spanLog (s : State) (ctx va log tier thr block : Nat) : Nat → Nat → Nat
  | 0, cur => cur
  | n + 1, cur =>
    if block ≤ cur then cur
    else
      let big := cur + 1
      let first := va / 2 ^ big * 2 ^ big
      let pages := 2 ^ (big - log)
      let f := ((List.range pages).filter fun i => s.resident ctx (first + i * 2 ^ log)).length
      if tier = 1 ∨ thr * pages ≤ f * 256 then s.spanLog ctx va log tier thr block n big else cur

/-- R160: log2 of the span that a fault on a page asks for, as its context's pages stand; 0 where there is no leaf. -/
def State.faultSpan (s : State) (ctx va tier : Nat) : Nat :=
  match s.walk ctx va with
  | .bad .. => 0
  | .leaf _ _ e =>
    let (thr, block) := ((Tbl.find s.ctxs ctx).map fun c => (c.pfth, c.pfbs)).getD (128, 21)
    if tier = 2 then e.log else s.spanLog ctx (va / 2 ^ e.log * 2 ^ e.log) e.log tier thr block 40 e.log

/-- The TIER hint of a record, or the context's policy where that is 00 (R152, R374). -/
def State.tierOf (s : State) (ctx tier : Nat) : Nat := if tier = 0 then ((Tbl.find s.ctxs ctx).map Context.tier).getD 0 else tier

/-- A fault goes into a die's fault buffer (R159), once for each that waits for its address. -/
def State.takeFault (s : State) (die ctx va : Nat) (who : Faulter) (tier : Nat) : State :=
  if s.faults.any fun f => f.die == die && f.ctx == ctx && f.va == va && f.who == who then s
  else
    let t := s.tierOf ctx tier
    { s with faults := s.faults ++ [⟨die, ctx, va, who, t, s.faultSpan ctx va t⟩] }

/-! ## A context's memory, as engines and firmware read and write it -/

/-- What a read or write of a context's memory may need. -/
inductive Need where
  | read | write | both | exec
  deriving DecidableEq, Repr

/-- The cause of a missing permission (R158, items 12 and 13), or 0x4A for a fetch (R61). -/
def Need.missing (n : Need) (r w x : Bool) : Option Nat :=
  match n with
  | .read => if r then none else some 0x48
  | .write => if w then none else some 0x49
  | .both => if !r then some 0x48 else if !w then some 0x49 else none
  | .exec => if x then none else some 0x4A

/-- The access of a page by a party without a TLB of its own: the physical address, a replayable fault, or a cause. -/
inductive Acc where
  | ok (pa : Nat)
  | replay
  | bad (cause detail : Nat)
  deriving DecidableEq, Repr

/-- A translation with a permission check: a page that is not present is checked too (R156). -/
def Tr.need (t : Tr) (n : Need) : Acc :=
  match t with
  | .bad c d => .bad c d
  | .ok pa r w x => match n.missing r w x with
    | some c => .bad c 0
    | none => .ok pa
  | .replay r w x => match n.missing r w x with
    | some c => .bad c 0
    | none => .replay

/-- Translation by a walk, for parties outside the cores (R284, R298, R373). -/
def State.access (s : State) (ctx va : Nat) (n : Need) : Acc := ((s.walk ctx va).tr va).need n

/-- The pages that a range touches, as addresses at which to translate: its first byte, and every 64 KiB boundary in it. -/
def pagePoints (va len : Nat) : List Nat :=
  if len = 0 then [] else va :: ((List.range ((va + len - 1) / 65536 - va / 65536)).map fun i => (va / 65536 + 1 + i) * 65536)

/-- The first page of a range that cannot be accessed: its address with the answer. -/
def State.rangeFault (s : State) (ctx va len : Nat) (n : Need) : Option (Nat × Acc) :=
  (pagePoints va len).findSome? fun p =>
    match s.access ctx p n with
    | .ok _ => none
    | a => some (p, a)

/-- The physical address of a virtual one on a present page. -/
def State.present (s : State) (ctx va : Nat) : Option Nat :=
  match (s.walk ctx va).tr va with
  | .ok pa _ _ _ => some pa
  | _ => none

/-- The bytes of a range of virtual memory whose pages are all present; a byte of any other page reads as the default. -/
def State.vread (s : State) (ctx va len : Nat) : List Byte :=
  (linePieces va len).flatMap fun p => match s.present ctx p.1 with
    | some pa => s.readBytes pa p.2
    | none => List.replicate p.2 memDefault
def State.vreadNat (s : State) (ctx va n : Nat) : Nat := leNat (s.vread ctx va n)

/-- Stores bytes to virtual memory; those of an absent page are dropped. -/
def State.vwrite (s : State) (ctx va : Nat) (l : List Byte) : State :=
  (linePieces va l.length).foldl (fun s p => match s.present ctx p.1 with
    | some pa => s.writeBytes pa ((l.drop (p.1 - va)).take p.2)
    | none => s) s
def State.vwriteNat (s : State) (ctx va n v : Nat) : State := s.vwrite ctx va (leBytes n v)

/-- A record of memory: dwords at increasing addresses, dword 0 holding bits 63 to 0 (R3, R152, R273). -/
def State.vrec (s : State) (ctx va bits : Nat) : BitVec bits := BitVec.ofNat bits (s.vreadNat ctx va (bits / 8))

end Sys2Proof.Machine
end

