-- ==== Sys2Proof/Machine/Access.lean ====
section
/-! DEFINITION. Memory accesses: the checks of a class 2 instruction at issue, line requests and their order, how a request is
performed, and how its results return (R153-R159, R165-R171, R178-R183). -/

namespace Sys2Proof.Machine

/-! ## Checks at issue (R158) -/

/-- What the checks find: a trap, pages that the walker must find first, or the accesses with their translations. -/
inductive MemChk where
  | trap (t : Trap)
  | walk (vas : List Nat)
  | ok (lanes : List (Nat × Nat × Tr))
  deriving DecidableEq, Repr

/-- What an access needs of record and page, with the TDETAIL of cause 0x44 (R158). -/
def AccKind.lacks (k : AccKind) (r : Rcd) : Option Nat :=
  match k with
  | .load | .waita _ => if r.pr then none else some 1
  | .store => if r.pw then none else some 0
  | .atom _ | .cas => if r.pa then none else some 2

def AccKind.need : AccKind → Need
  | .load | .waita _ => .read
  | .store => .write
  | .atom _ | .cas => .both

/-- R169, R171: what tier 2 does not accept, with its cause and TDETAIL. -/
def AccKind.tier2Bad (k : AccKind) (z : Nat) : Option (Nat × Nat) :=
  match k with
  | .load | .store => none
  | .waita _ => some (0x46, 1)
  | .cas => if z = 8 then none else some (0x45, 0)
  | .atom op => if z = 8 ∧ op ≠ .fadd ∧ op ≠ .badd then none else some (0x45, 0)

/-- The rank of a translation cause in the list of R158. -/
def causeRank (c : Nat) : Nat := ([0x4B, 0x4C, 0x4D, 0x4F, 0x47, 0x48, 0x49, 0x45].idxOf c)

/-- The first cause that a translated lane raises (R158, items 7 to 14). -/
def laneCause (k : AccKind) (z : Nat) (t : Tr) : Option (Nat × Nat) :=
  match t.need k.need with
  | .bad c d => some (c, d)
  | .replay => none
  | .ok pa => if tier2 pa then k.tier2Bad z else none

/-- The element of a list that a measure makes least, the first of several. -/
def leastBy {α : Type} (f : α → Nat) : List α → Option α
  | [] => none
  | a :: t => match leastBy f t with
    | none => some a
    | some b => if f a ≤ f b then some a else some b

/-- The cause that an agent's walk for a line has ended with (R158). -/
def State.walkFound (s : State) (a : Agent) (va : Nat) : Option (Nat × Nat) :=
  (s.walks.find? fun p => p.2.agent == a && p.2.ended.isSome && p.2.va / 256 == va / 256).bind fun p => p.2.ended

/-- The translation of an address for an agent: the cause with which its walk ended, else what a TLB or a walk gives (R157, R158). -/
def State.foundFor (s : State) (a : Agent) (core ctx va : Nat) : Tr :=
  match s.walkFound a va with
  | some (c, d) => .bad c d
  | none => s.translate core ctx va

/-- The checks of R158 in their order. `lanes` gives lane and index; `walked` says that the walker has answered. -/
def State.memCheck (s : State) (a : Agent) (core ctx : Nat) (em : Mask) (r : Rcd) (k : AccKind) (scope : Scope)
    (lanes : List (Nat × Word)) (off : Int) (z : Nat) (walked : Bool) : MemChk :=
  if !r.wf then .trap { cause := 0x40, lanes := em }
  else match k.lacks r with
  | some d => .trap { cause := 0x44, lanes := em, detail := d }
  | none =>
    if scope = .system ∧ !((Tbl.find s.ctxs ctx).any Context.sys) then .trap { cause := 0x52, lanes := em }
    else if r.swzBad then .trap { cause := 0x43, lanes := em }
    else
      let outs := lanes.filter fun p => (r.address (i32 p.2) off z).isNone
      let ins := lanes.filterMap fun p => (r.address (i32 p.2) off z).map fun va => (p.1, va)
      let mis := ins.filter fun p => decide (p.2 % z ≠ 0)
      match (if r.fault then outs else []), mis with
      | p :: t, _ => .trap { cause := 0x41, lanes := maskOf ((p :: t).map Prod.fst), addr := r.faultAddr (i32 p.2) off }
      | [], p :: t => .trap { cause := 0x42, lanes := maskOf ((p :: t).map Prod.fst), addr := p.2 }
      | [], [] =>
        let missing := (ins.filter fun p => (s.tlbHit core ctx p.2).isNone).map Prod.snd
        if !walked && missing != [] then .walk ((missing.map fun v => v / 256 * 256).eraseDups)
        else
          let trs := ins.map fun p => (p.1, p.2, s.foundFor a core ctx p.2)
          let bads := trs.filterMap fun p => (laneCause k z p.2.2).map fun c => (p.1, p.2.1, c)
          match leastBy (fun p => causeRank p.2.2.1) bads with
          | none => .ok trs
          | some (_, va, c, d) =>
            .trap { cause := c, lanes := maskOf ((bads.filter fun q => q.2.2.1 == c).map Prod.fst), addr := va, detail := d }

/-! ## Requests (R154, R179, R180) -/

/-- Whether two accesses may touch the same location. -/
def LaneAcc.meets (z : Nat) (a : LaneAcc) (z' : Nat) (b : LaneAcc) : Bool :=
  (decide (a.va < b.va + z') && decide (b.va < a.va + z)) || (decide (a.pa ≠ 0) && decide (a.pa < b.pa + z') && decide (b.pa < a.pa + z))



/-- The strand's accesses that must be performed before a new one: those to the same location, those an acquire put before
everything later, and all of them where the new one is a release (R179, R180). -/
def State.before (s : State) (a : Agent) (z : Nat) (lanes : List LaneAcc) (rel : Bool) : List Nat :=
  let fenced := match a with
    | .strand w i => ((s.strandAt w i).map fun (x : Who) => x.st.fenced).getD []
    | _ => []
  let undone := s.undoneIds a
  if rel then undone
  else undone.filter fun i =>
    fenced.contains i ||
    match Tbl.find s.accs i with
    | some p => p.lanes.any fun q => lanes.any fun r => q.meets p.size z r
    | none => false

/-- The two 64-bit halves of a b128 lane, which are accesses of their own (R178). -/
def LaneAcc.halves (l : LaneAcc) (replay : Bool) : List LaneAcc :=
  (List.range 2).map fun h =>
    { l with
      va := l.va + 8 * h
      pa := if replay then l.pa else l.pa + 8 * h
      bytes := (l.bytes.drop (8 * h)).take 8
      dst := (l.dst.filter fun d => d.1 / 2 == h).map fun d => (d.1 % 2, d.2) }

/-- The single-copy atomic accesses of lanes of z bytes, and their size (R178). -/
def atomicParts (z : Nat) (lanes : List (LaneAcc × Bool)) : Nat × List (LaneAcc × Bool) :=
  if z = 16 then (8, lanes.flatMap fun p => (p.1.halves p.2).map fun q => (q, p.2)) else (z, lanes)

/-- Enters the line requests of an instruction in ascending address order (R154); lanes on a page that is not present stay
unfinished and the line goes into the fault buffer (R159). Answers the requests' numbers. -/
def State.request (s : State) (a : Agent) (core ctx : Nat) (k : AccKind) (z : Nat) (sx : Bool) (r : Rcd)
    (lanes : List (LaneAcc × Bool)) (rel acq : Bool) (pend : Option Nat) : State × List Nat :=
  let (z, lanes) := atomicParts z lanes
  let after := s.before a z (lanes.map Prod.fst) rel
  let lines := sortBy (fun i j => decide (i ≤ j)) (lanes.map fun p => p.1.va / 256).eraseDups
  let pc := s.pcOf a
  let step (q : State × List Nat) (line : Nat) : State × List Nat :=
    let ls := lanes.filter fun p => p.1.va / 256 == line
    let replay := ls.any Prod.snd
    let (n, s) := q.1.fresh
    let acc : Access := ⟨a, ctx, k, z, sx, r, ls.map Prod.fst, after, pend, acq, false, replay, s.time, core, pc⟩
    let s : State := { s with accs := Tbl.put s.accs n acc }
    (if replay then s.takeFault (dieOf core) ctx (line * 256) (.access n) r.tier else s, q.2 ++ [n])
  lines.foldl step (s, [])

/-- Later accesses of a strand follow these requests (an acquire, R180). -/
def State.fenceAfter (s : State) (wid sid : Nat) (l : List Nat) : State :=
  s.updStrand wid sid fun st => { st with fenced := l ++ st.fenced.filter fun i => !s.performed i }

/-! ## Results -/

/-- Register addresses from here on stand for the words of an entry that a queue destination receives: word j of lane l at
qBase + 64 j + l. -/
def qBase : Nat := 2 ^ 20

/-- Where the result words of lane l go (R9, R146). -/
def Ready.dsts (r : Ready) (l : Nat) : List (Nat × Nat) :=
  match r.d.dst with
  | some (.v k, n) => (List.range n).map fun j => (j, r.x.d.lane r.x.width (k.val + j) l)
  | some (.s k, n) => if l = r.low then (List.range n).map fun j => (j, r.x.d.scal (k.val + j)) else []
  | some (.q _, n) =>
    if r.allScalar then (if l = r.low then (List.range n).map fun j => (j, qBase + 64 * j) else [])
    else (List.range n).map fun j => (j, qBase + 64 * j + l)
  | _ => []

/-- Puts a word of an entry. -/
def putEntry (es : List QEntry) (w : RegWrite) : List QEntry :=
  let j := (w.addr - qBase) / 64
  match es[j]? with
  | some e => es.set j { e with words := e.words.set ((w.addr - qBase) % 64) w.val }
  | none => es

/-- The results of a request reach its strand's long-latency instruction. -/
def Pend.receive (p : Pend) (l : List RegWrite) (ready : Bool) : Pend :=
  let qs := l.filter fun w => decide (qBase ≤ w.addr)
  { p with
    wrs := p.wrs ++ l.filter fun w => decide (w.addr < qBase)
    push := p.push.map fun q => (q.1, qs.foldl putEntry q.2)
    ready := ready }

/-- Results for an agent: a strand's long-latency instruction, complete in its values once no request of it is unfinished; or the
front-end register or entry that waits (R221). -/
def State.deliver (s : State) (a : Agent) (pend : Option Nat) (l : List RegWrite) : State :=
  match a, pend with
  | .strand w i, some p =>
    let open_ := (s.accs.any fun q => q.2.pend == some p && !q.2.done) || s.wreqs.any fun q => q.2.pend == p
    s.updStrand w i fun st => { st with pends := st.pends.map fun q => if q.id = p ∧ q.own then q.receive l (!open_) else q }
  | .fe c, some _ =>
    s.updCrew c fun k =>
      { k with fe := k.fe.map fun f =>
        let qs := l.filter fun w => decide (qBase ≤ w.addr)
        { f with
          arriving := f.arriving.map fun ws => qs.foldl (fun ws w => ws.set (w.addr - qBase) w.val) ws
          regs := (l.filter fun w => decide (w.addr < qBase)).foldl (fun rs w =>
            let old := rs.getD (w.addr / 2) 0
            rs.set (w.addr / 2) (if w.addr % 2 = 0 then old.extractLsb' 32 32 ++ w.val else w.val ++ old.extractLsb' 0 32)) f.regs } }
  | _, _ => s

/-- The register words of a value (R28, R165): a narrow value fills one word, extended. -/
def valueWords (z : Nat) (sx : Bool) (v : Nat) : List Word :=
  if z < 4 then [if sx then (BitVec.ofNat (8 * z) v).signExtend 32 else BitVec.ofNat 32 v]
  else (List.range (z / 4)).map fun j => BitVec.ofNat 32 (v / 2 ^ (32 * j))

/-- The writes of a lane's result words. -/
def LaneAcc.results (l : LaneAcc) (ws : List Word) (mk : Nat) : List RegWrite :=
  l.dst.map fun d => ⟨d.2, ws.getD d.1 0, mk⟩

/-! ## Performing (R165-R171, R178, R182) -/

/-- R166: the new value of an atomic. -/
def atomNew (op : AtomOp) (sx : Bool) (z old v : Nat) : Nat :=
  let w := 8 * z
  let lt (a b : Nat) : Bool := if sx then decide ((BitVec.ofNat w a).toInt < (BitVec.ofNat w b).toInt) else decide (a < b)
  match op with
  | .add => (old + v) % 2 ^ w
  | .min => if lt v old then v else old
  | .max => if lt old v then v else old
  | .and => old &&& v
  | .or => old ||| v
  | .xor => old ^^^ v
  | .exch => v
  | .fadd => (faddV f32 .rne (fdec f32 old) (fdec f32 v)).val
  | .badd => (perElem .bf16x2 fun i => faddV bf16 .rne (fdec bf16 (elem .bf16x2 old i)) (fdec bf16 (elem .bf16x2 v i))).val
  | .inc => if v ≤ old then 0 else old + 1

/-- The value of a waiter's word. -/
def State.waitWord (s : State) (w : Waiter) : Nat := s.readNat w.pa w.size

/-- Completes a `waita` (R171): the word as last read, and a status in word 3. -/
def State.endWaita (s : State) (id : Nat) (word status : Nat) : State :=
  match Tbl.find s.accs id with
  | none => s
  | some a =>
    let s := { s with accs := Tbl.del s.accs id, waiters := s.waiters.filter fun w => w.acc != id }
    let ws := (if a.size = 8 then [BitVec.ofNat 32 word, BitVec.ofNat 32 (word / 2 ^ 32)] else [BitVec.ofNat 32 word, 0]) ++
      [0, BitVec.ofNat 32 status]
    s.deliver a.agent a.pend (a.lanes.flatMap fun l => l.results ws 0)

/-- After a write, atomic or `cas` on a line, its waiters are evaluated again in registration order, and complete (R171). -/
def State.wake (s : State) (line : Nat) : State :=
  (s.waiters.filter fun w => w.pa / 256 == line).foldl (fun s w =>
    let v := s.waitWord w
    s.endWaita w.acc v (if v ≠ w.want then 0 else 1)) s

/-- The members of a list at the places given, in that order, or all of them where none is given; and those that are left. -/
def pickFrom {α : Type} (l : List α) (order : List Nat) : List α × List α :=
  let ids := order.eraseDups.filter fun i => decide (i < l.length)
  if ids.isEmpty then (l, []) else (ids.filterMap fun i => l[i]?, (l.zipIdx.filter fun p => !ids.contains p.2).map Prod.fst)

/-- The lanes of a request that are performed now, and those that are left (R178). -/
def Access.pick (a : Access) (order : List Nat) : List LaneAcc × List LaneAcc := pickFrom a.lanes order

/-- A request goes on with the lanes that are left, and is gone when none is. -/
def State.leaveLanes (s : State) (id : Nat) (left : List LaneAcc) : State :=
  if left.isEmpty then { s with accs := Tbl.del s.accs id } else { s with accs := Tbl.upd s.accs id fun a => { a with lanes := left } }

/-- One lane's store, with its mark (R165, R319). -/
def State.storeLane (s : State) (l : LaneAcc) : State :=
  let s := s.writeBytes l.pa l.bytes
  if l.mark ≠ 0 then s.setLineMark l.pa l.mark else s

/-- One lane's atomic or `cas`: the old value goes to the lane (R166-R168). -/
def State.atomLane (s : State) (a : Access) (l : LaneAcc) : State × List RegWrite :=
  let old := s.readNat l.pa a.size
  let new := match a.kind with
    | .atom op => atomNew op a.sx a.size old l.val
    | _ => if old = l.val then l.val2 else old
  (s.writeNat l.pa a.size new, l.results (valueWords a.size false old) (s.lineMark l.pa))

/-- Whether stores cover a whole line with unmarked words, which clears its mark (R319). -/
def wholeLine (z : Nat) (lanes : List LaneAcc) : Bool :=
  lanes.all (fun l => l.mark == 0) && (List.range 256).all fun b => lanes.any fun l => decide (l.pa % 256 ≤ b) && decide (b < l.pa % 256 + z)

/-- Performs lanes of a line request at its port, in the order given. After each write, atomic or `cas`, the line's waiters are
evaluated again, before the next lane's (R171). -/
def State.perform (s : State) (id : Nat) (order : List Nat) : State :=
  match Tbl.find s.accs id with
  | none => s
  | some a =>
    let (now, left) := a.pick order
    let line := (a.lanes.headD ⟨0, 0, 0, [], 0, 0, 0, []⟩).pa / 256
    match a.kind with
    | .load =>
      let ws := now.flatMap fun l => l.results (valueWords a.size a.sx (s.readNat l.pa a.size)) (s.lineMark l.pa)
      (s.leaveLanes id left).deliver a.agent a.pend ws
    | .store =>
      let s := if wholeLine a.size a.lanes then s.setLineMark (line * 256) 0 else s
      let s := now.foldl (fun s l => (s.storeLane l).wake line) s
      if left.isEmpty then { s with accs := Tbl.upd s.accs id fun a => { a with done := true } } else s.leaveLanes id left
    | .waita _ =>
      match a.lanes with
      | [] => s
      | l :: _ =>
        let v := s.readNat l.pa a.size
        let full := decide (256 ≤ (s.waiters.filter fun w => s.portOf w.pa == s.portOf l.pa).length)
        if v ≠ l.val then s.endWaita id v 0
        else if full then s.endWaita id v 1
        else if s.waiters.any fun w => w.acc == id then s
        else { s with waiters := s.waiters ++ [⟨id, l.pa, a.size, l.val⟩] }
    | _ =>
      let (s, ws) := now.foldl (fun (q : State × List RegWrite) l =>
        let (s, w) := q.1.atomLane a l
        (s.wake line, q.2 ++ w)) (s, [])
      (s.leaveLanes id left).deliver a.agent a.pend ws

end Sys2Proof.Machine
end

