-- ==== Sys2Proof/Machine/Weirs.lean ====
section
/-! DEFINITION. The weirs: the budgets of a class at a memory port, and what is drawn from them (R367, R368). -/

namespace Sys2Proof.Machine

/-- The context, partition and class of the launch that an agent works for (R367). -/
def State.classOf (s : State) (a : Agent) : Nat × Nat :=
  let find (i : Nat) (w : Tbl Warp) (k : Tbl Crew) : Option Crew := (Tbl.find w (i % 2 ^ 20)).bind fun v => Tbl.find k v.crew
  let crew := match a with
    | .strand i _ =>
      if i < 2 ^ 20 then find i s.warps s.crews else (Tbl.find s.saved (i / 2 ^ 20 - 1)).bind fun v => find i v.warps v.crews
    | .fe c => (Tbl.find s.crews c).or (s.saved.findSome? fun (v : Nat × Saved) => Tbl.find v.2.crews c)
    | .nobody => none
  match crew.bind fun c => Tbl.find s.launches c.launch with
  | none => (0, 0)
  | some l => (((Tbl.find s.ctxs l.ctx).map Context.part).getD 0, l.prio / 2)

/-- Whether a weir lets a request of n bytes pass: a budget of 0 is unbudgeted. -/
def State.weirOpen (s : State) (port : Nat) (pc : Nat × Nat) (n : Nat) : Bool :=
  s.weirs.all fun w => !(w.port == port && w.part == pc.1 && w.cls == pc.2) || w.budget == 0 || decide ((n : Int) ≤ w.left)
/-- Draws n bytes from the allowance. -/
def State.weirDraw (s : State) (port : Nat) (pc : Nat × Nat) (n : Nat) : State :=
  { s with weirs := s.weirs.map fun w =>
      if w.port = port ∧ w.part = pc.1 ∧ w.cls = pc.2 ∧ w.budget ≠ 0 then { w with left := w.left - n } else w }
/-- Adds one to a counter that STATS reports: a soft error's cause, or 256 + class for back-pressure (R320, R374). -/
def State.count (s : State) (k : Nat) : State := { s with stats := Tbl.put s.stats k (((Tbl.find s.stats k).getD 0) + 1) }

/-- A class that is held at a port is back-pressured until the next window: none of its requests leaves (R367). -/
def State.backPressure (s : State) (port : Nat) (pc : Nat × Nat) : State :=
  let held (w : Weir) : Bool := w.port == port && w.part == pc.1 && w.cls == pc.2 && w.budget != 0 && w.left != 0
  if s.weirs.any held then
    ({ s with weirs := s.weirs.map fun w => if held w then { w with left := 0 } else w } : State).count (256 + pc.2)
  else s

/-- Draws the lines of a range of a context's memory that are present. -/
def State.drawRange (s : State) (ctx : Nat) (pc : Nat × Nat) (va n : Nat) : State :=
  if s.weirs.isEmpty then s
  else (linePieces va n).foldl (fun s p => match s.present ctx p.1 with
    | some pa => s.weirDraw (s.portOf pa) pc p.2
    | none => s) s

/-- Draws the bytes that differ in a later state, at their ports. -/
def State.drawWrites (s t : State) (pc : Nat × Nat) : State :=
  if s.weirs.isEmpty then t
  else
    let cells := ((s.mem ++ t.mem).map Prod.fst).eraseDups.filter fun a => Memory.read s.mem a != Memory.read t.mem a
    cells.foldl (fun t a => t.weirDraw (s.portOf a) pc 1) t

/-- A step whose requests do not fit what a class has left is held, and the class back-pressured. One of several requests (each is a
line at most) that no window could take whole begins with a window, and later windows make up for it (log 97). -/
def State.throughWeirs (s t : State) : State :=
  let held := (s.weirs.zip t.weirs).filter fun p =>
    decide (p.2.left < p.1.left) && decide (p.2.left < 0) && !(decide (p.1.left = p.1.budget) && decide (256 ≤ p.1.budget))
  if held.isEmpty then t else held.foldl (fun s p => s.backPressure p.1.port (p.1.part, p.1.cls)) s

end Sys2Proof.Machine
end

