-- ==== Sys2Proof/Machine/LoadStore.lean ====
section
/-! DEFINITION. The class 2 instructions (R164-R173). -/

namespace Sys2Proof.Machine

/-- Bytes of a width (R28). -/
def Width.bytes : Width → Nat
  | .b8 => 1
  | .b16 => 2
  | .b32 => 4
  | .b64 => 8
  | .b128 => 16
/-- Registers of a width (R28). -/
def Width.words (w : Width) : Nat := max 1 (Width.bytes w / 4)

def Ord4.acquires : Ord4 → Bool
  | .acq | .acqRel => true
  | _ => false
def Ord4.releases : Ord4 → Bool
  | .rel | .acqRel => true
  | _ => false

/-- A record of the strand's domain (R152). -/
def State.rcdOf (s : State) (x : Who) (k : Fin 32) : Rcd := (s.recsOf x.w x.st.dom).getD k.val 0
/-- Whether the strand issues again with the page walker's answers. -/
def Who.walked (x : Who) : Bool := x.st.parked.any fun p => p.1 == .walked
/-- Whether a short memory instruction of the strand has issued and waits for a replay (R159). -/
def Who.replaying (x : Who) : Bool := x.st.parked.any fun p => p.1 == .replay

/-- Drops the walks of an agent whose time has run out, once it has issued. -/
def State.dropWalks (s : State) (a : Agent) : State := { s with walks := s.walks.filter fun p => p.2.agent != a }

/-- Queues walks for pages, and the strand waits for them (R157). -/
def State.startWalks (s : State) (x : Who) (vas : List Nat) : State :=
  let s := vas.foldl (fun s va =>
    let (n, s) := s.fresh
    { s with walks := Tbl.put s.walks n ⟨x.agent, x.core, x.d.ctx, va, s.time, none⟩ }) (s.dropWalks x.agent)
  s.park x.wid x.sid .walk

/-- The checks of R158 for the lanes of an instruction, then what it does with its translated lanes. -/
def memOp (s : State) (x : Who) (r : Rcd) (k : AccKind) (scope : Scope) (lanes : List (Nat × Word)) (off : Int) (z : Nat)
    (go : State → List (Nat × Nat × Tr) → State) : State :=
  match s.memCheck x.agent x.core x.d.ctx x.st.em r k scope lanes off z x.walked with
  | .trap t => (s.dropWalks x.agent).trapAt x.wid x.sid t
  | .walk vas => s.startWalks x vas
  | .ok trs => go s trs

/-- The physical address of a translation, 0 while there is none. -/
def Tr.paOr : Tr → Nat
  | .ok pa _ _ _ => pa
  | _ => 0
def Tr.isReplay : Tr → Bool
  | .replay .. => true
  | _ => false

/-- What follows when an instruction's operands are consumed: pops and quench, and the translations enter the TLB (R157). -/
def Ready.issued (r : Ready) (trs : List (Nat × Nat × Tr)) : State :=
  trs.foldl (fun s p => s.fillTlb r.x.core r.x.d.ctx p.2.1) (r.commit.dropWalks r.x.agent)

/-- A number from n words of source i, from word j on. -/
def Ready.num (r : Ready) (i j n l : Nat) : Nat :=
  (List.range n).foldl (fun v k => v + 2 ^ (32 * k) * (r.word i (j + k) l).toNat) 0
/-- The cause that marks one of n words of source i, 0 for none (R319). -/
def Ready.anyMark (r : Ready) (i n l : Nat) : Nat :=
  (((List.range n).map fun k => r.mark i k l).find? (· != 0)).getD 0

/-- A long-latency access issues: its requests go out, lanes out of extent receive 0, and the rest lands later (R34, R153). -/
def Ready.longAccess (r : Ready) (la : BitVec 4) (k : AccKind) (z : Nat) (sx rel acq : Bool) (rcd : Rcd)
    (trs : List (Nat × Nat × Tr)) (accs : List (LaneAcc × Bool)) (zeros : List RegWrite) : State :=
  let (n, s) := (r.issued trs).fresh
  let s := s.advance r.x.wid r.x.sid 1
  let p : Pend := ⟨n, la.toNat, zeros, r.pushes r.em fun _ => [], 0, accs.isEmpty, true, true, r.x.st.dom⟩
  let s := s.updStrand r.x.wid r.x.sid fun st => { st with pends := st.pends ++ [p] }
  let (s, ids) := s.request r.x.agent r.x.core r.x.d.ctx k z sx rcd accs rel acq (some n)
  let s := if acq then s.fenceAfter r.x.wid r.x.sid ids else s
  s.endIfEmpty r.x.wid r.x.sid

/-- The zeros of the lanes that an instruction leaves out of its requests. -/
def zerosFor (lanes : List Nat) (trs : List (Nat × Nat × Tr)) (dst : Nat → List (Nat × Nat)) : List RegWrite :=
  (lanes.filter fun l => !trs.any fun p => p.1 == l).flatMap fun l => (dst l).filterMap fun d =>
    if d.2 < qBase then some ⟨d.2, 0, 0⟩ else none

/-- R165. -/
def execLd (f : MemF) (s : State) : Out :=
  issue s fun x =>
    let z := Width.bytes f.width
    match beginOp s x { srcs := [(f.idx, 1)], dst := some (f.data, Width.words f.width) } with
    | .halt s => s
    | .go r =>
      let rcd := s.rcdOf x f.rcd
      memOp s x rcd .load f.scope ((lanesOf r.em).map fun l => (l, r.word 0 0 l)) f.off.toInt z fun _ trs =>
        let accs := trs.map fun p => ((⟨p.1, p.2.1, p.2.2.paOr, [], 0, 0, 0, r.dsts p.1⟩ : LaneAcc), p.2.2.isReplay)
        r.longAccess f.la .load z f.sx false (Ord4.acquires f.ord) rcd trs accs (zerosFor (lanesOf r.em) trs r.dsts)

/-- The only lane that a strand-wide access reads: the lowest of EM. -/
def lowMask (x : Who) : Mask := ((lowLane x.st.em).map fun l => 1#64 <<< l).getD 0

/-- The lanes of a strand-wide access with their index words (R165). -/
def Ready.lowIndex (r : Ready) (i : Nat) : List (Nat × Word) := ((lowLane r.em).map fun l => [(l, r.word i 0 l)]).getD []

/-- R165: one access at the lowest lane's address, delivered by R9. -/
def execLds (f : MemF) (s : State) : Out :=
  issue s fun x =>
    let z := Width.bytes f.width
    match beginOp s x { srcs := [(f.idx, 1)], dst := some (f.data, Width.words f.width) } with
    | .halt s => s
    | .go r =>
      let rcd := s.rcdOf x f.rcd
      memOp s x rcd .load f.scope (r.lowIndex 0) f.off.toInt z fun _ trs =>
        let dst (_ : Nat) : List (Nat × Nat) := (lanesOf r.em).flatMap r.dsts
        let accs := trs.map fun p => ((⟨p.1, p.2.1, p.2.2.paOr, [], 0, 0, 0, dst 0⟩ : LaneAcc), p.2.2.isReplay)
        r.longAccess f.la .load z f.sx false (Ord4.acquires f.ord) rcd trs accs (zerosFor [r.low] trs dst)

/-- A store that has issued: its requests go out, and the strand stays at the instruction while a lane is unfinished (R159). -/
def Ready.storeAccess (r : Ready) (rcd : Rcd) (z : Nat) (rel : Bool) (trs : List (Nat × Nat × Tr)) (n : Nat) : State :=
  let accs := trs.map fun p =>
    ((⟨p.1, p.2.1, p.2.2.paOr, leBytes z (r.num 0 0 n p.1), r.anyMark 0 n p.1, 0, 0, []⟩ : LaneAcc), p.2.2.isReplay)
  let (s, _) := (r.issued trs).request r.x.agent r.x.core r.x.d.ctx .store z false rcd accs rel false none
  if accs.any Prod.snd then s.park r.x.wid r.x.sid .replay
  else (s.advance r.x.wid r.x.sid 1).endIfEmpty r.x.wid r.x.sid

/-- A store that issued before and waits for its replay: it leaves when no lane is unfinished (R159). -/
def State.replayStore (s : State) (x : Who) : State :=
  if s.accs.any fun p => p.2.agent == x.agent && p.2.replay && p.2.pend.isNone then s
  else (s.advance x.wid x.sid 1).endIfEmpty x.wid x.sid

/-- R165. The data register carries its poison into memory (R319). -/
def execSt (f : MemF) (s : State) : Out :=
  issue s fun x =>
    if x.replaying then s.replayStore x
    else
      let z := Width.bytes f.width
      let n := Width.words f.width
      match beginOp s x { srcs := [(f.data, n), (f.idx, 1)], carry := [0] } with
      | .halt s => s
      | .go r =>
        let rcd := s.rcdOf x f.rcd
        memOp s x rcd .store f.scope ((lanesOf r.em).map fun l => (l, r.word 1 0 l)) f.off.toInt z fun _ trs =>
          r.storeAccess rcd z (Ord4.releases f.ord) trs n

/-- R165: one store for the strand, from its lowest lane. -/
def execSts (f : MemF) (s : State) : Out :=
  issue s fun x =>
    if x.replaying then s.replayStore x
    else
      let z := Width.bytes f.width
      let n := Width.words f.width
      match beginOp s x { srcs := [(f.data, n), (f.idx, 1)], carry := [0] } (only := lowMask x) with
      | .halt s => s
      | .go r =>
        let rcd := s.rcdOf x f.rcd
        memOp s x rcd .store f.scope (r.lowIndex 1) f.off.toInt z fun _ trs =>
          r.storeAccess rcd z (Ord4.releases f.ord) trs n

/-- R166, R167. -/
def execAtom (f : AtomF) (s : State) : Out :=
  issue s fun x =>
    let z := Width.bytes f.width
    let n := Width.words f.width
    match beginOp s x { srcs := [(f.data, n), (f.idx, 1)], dst := some (f.data, n) } with
    | .halt s => s
    | .go r =>
      let rcd := s.rcdOf x f.rcd
      memOp s x rcd (.atom f.op) f.scope ((lanesOf r.em).map fun l => (l, r.word 1 0 l)) f.off.toInt z fun _ trs =>
        let accs := trs.map fun p =>
          ((⟨p.1, p.2.1, p.2.2.paOr, [], 0, r.num 0 0 n p.1, 0, r.dsts p.1⟩ : LaneAcc), p.2.2.isReplay)
        r.longAccess f.la (.atom f.op) z f.sx (Ord4.releases f.ord) (Ord4.acquires f.ord) rcd trs accs
          (zerosFor (lanesOf r.em) trs r.dsts)

/-- R167, R168. -/
def execCas (f : MemF) (s : State) : Out :=
  issue s fun x =>
    let z := Width.bytes f.width
    let n := Width.words f.width
    match beginOp s x { srcs := [(f.data, 2 * n), (f.idx, 1)], dst := some (f.data, n) } with
    | .halt s => s
    | .go r =>
      let rcd := s.rcdOf x f.rcd
      memOp s x rcd .cas f.scope ((lanesOf r.em).map fun l => (l, r.word 1 0 l)) f.off.toInt z fun _ trs =>
        let accs := trs.map fun p =>
          ((⟨p.1, p.2.1, p.2.2.paOr, [], 0, r.num 0 0 n p.1, r.num 0 n n p.1, r.dsts p.1⟩ : LaneAcc), p.2.2.isReplay)
        r.longAccess f.la .cas z false (Ord4.releases f.ord) (Ord4.acquires f.ord) rcd trs accs
          (zerosFor (lanesOf r.em) trs r.dsts)

/-- R164: the DATA and WIDTH of a `waita`, whose violation is cause 0x46. -/
def waitaOk (f : MemF) : Bool := (f.width == .b32 || f.width == .b64) && Opnd.rangeOk 4 4 f.data

/-- R171: watches one word at the address of the lowest lane. -/
def execWaita (f : MemF) (s : State) : Out :=
  issue s fun x =>
    let z := Width.bytes f.width
    let n := Width.words f.width
    if !waitaOk f then s.trap x 0x46
    else
      match beginOp s x { srcs := [(f.data, 4), (f.idx, 1)], dst := some (f.data, 4), carry := [0] }
          (fun r l => if l = r.low then ⟨false, srcAddrs x f.data 3 l, []⟩ else OwnAcc.none) with
      | .halt s => s
      | .go r =>
        let rcd := s.rcdOf x f.rcd
        let e := r.num 0 0 n r.low
        let t := (r.word 0 2 r.low).toNat
        let dst := ((lanesOf r.em).flatMap r.dsts).filter fun d => decide (d.1 < n) || d.1 == 3
        if r.em = 0 then (r.commit.advance x.wid x.sid 1).endIfEmpty x.wid x.sid
        else
          memOp s x rcd (.waita t) f.scope (r.lowIndex 1) f.off.toInt z fun _ trs =>
            let accs := trs.map fun p =>
              ((⟨p.1, p.2.1, p.2.2.paOr, [], 0, e, 0, dst⟩ : LaneAcc), p.2.2.isReplay)
            let out : List RegWrite :=
              if trs.isEmpty then dst.map fun d => ⟨d.2, if d.1 = 3 ∧ e = 0 then 1 else 0, 0⟩ else []
            r.longAccess f.la (.waita t) z false false (Ord4.acquires f.ord) rcd trs accs out

/-- Whether every earlier access of an agent is performed and every store acknowledged (R180, R183). -/
def State.settled (s : State) (a : Agent) : Bool :=
  (s.madeBy a).isEmpty && (s.pastOf a).all fun i => (Tbl.find s.accs i).isNone && (Tbl.find s.wreqs i).isNone

/-- R170, R180, R183: the strand waits until its kind is satisfied; a release fence waits for reads as well, since no later
write may pass them; a fence draws 64 B from its class (R368) at a port that no rule names (log 97). A fence at system scope takes item 3
of R158 as other memory instructions do (DEDUCED, log 95). -/
def execFence (f : FenceF) (s : State) : Out :=
  issue s fun x =>
    if f.scope = .system ∧ !((Tbl.find s.ctxs x.d.ctx).any Context.sys) then s.trap x 0x52
    else if !s.settled x.agent then s.park x.wid x.sid .fence
    else
      let port := Config.fencePort s.tick
      let pc := s.classOf x.agent
      if !s.weirOpen port pc 64 then (s.backPressure port pc).park x.wid x.sid .fence else (s.weirDraw port pc 64).skip x

/-- R172: translates, fills the TLB and starts migrations; only items 1 and 3 of R158 trap. -/
def execPfch (f : PfchF) (s : State) : Out :=
  issue s fun x =>
    let z := Width.bytes f.width
    match beginOp s x { srcs := [(f.idx, 1)] } with
    | .halt s => s
    | .go r =>
      let rcd := s.rcdOf x f.rcd
      if !rcd.wf then s.trap x 0x40
      else if f.scope = .system ∧ !((Tbl.find s.ctxs x.d.ctx).any Context.sys) then s.trap x 0x52
      else
        let vas := if !rcd.pr || rcd.swzBad then []
          else (lanesOf r.em).filterMap fun l =>
            (rcd.address (i32 (r.word 0 0 l)) f.off.toInt z).bind fun va => if va % z = 0 then some va else none
        let touch (s : State) (va : Nat) : State :=
          match s.translate x.core x.d.ctx va with
          | .ok _ rd _ _ => if rd then s.fillTlb x.core x.d.ctx va else s
          | .replay rd _ _ => if rd then s.takeFault (dieOf x.core) x.d.ctx va .other rcd.tier else s
          | .bad .. => s
        ((vas.foldl touch r.commit).advance x.wid x.sid 1).endIfEmpty x.wid x.sid

/-- Writes a record slot of the strand's domain (R173). -/
def State.setRcd (s : State) (x : Who) (k : Fin 32) (v : Rcd) : State :=
  if x.st.dom = 0 then s.updCrew x.w.crew fun c => { c with recs := c.recs.set k.val v }
  else s.updDom x.wid x.st.dom fun d => { d with recs := d.recs.set k.val v }

/-- R173, R284: slot REC from entry INDEX of the record array. A replay that cannot read it reports at the context rung, and the strand
stays parked (R159). -/
def execBrld (f : BrldF) (s : State) : Out :=
  issue s fun x =>
    match beginOp s x { srcs := [(f.idx, 1)] } with
    | .halt s => s
    | .go r =>
      let i := r.val 0 r.low
      if x.d.nrec ≤ i then s.trap x 0x40 2
      else
        let va := x.d.recp + 32 * i
        match (s.translate x.core x.d.ctx va).need .read with
        | .bad c d =>
          if x.replaying then (s.takeFault (dieOf x.core) x.d.ctx va (.agent x.agent) 0).enterCtx x.d.ctx c
            (s.faultVals (.agent x.agent) c va)
          else s.trap x c d va
        | .replay => (s.takeFault (dieOf x.core) x.d.ctx va (.agent x.agent) 0).park x.wid x.sid .replay
        | .ok pa =>
          let v : Rcd := BitVec.ofNat 256 (s.readNat pa 32)
          if !v.wf then s.trap x 0x40 1
          else ((r.commit.setRcd x f.rcd v).advance x.wid x.sid 1).endIfEmpty x.wid x.sid

/-- The record that `brmk` derives (R173). -/
def brmkRcd (v : Rcd) (f : BrmkF) (o e : Nat) : Rcd :=
  BitVec.ofNat 256 (v.toNat - v.base - 2 ^ 64 * v.extent -
      (if v.pr && !f.kr then 2 ^ 170 else 0) - (if v.pw && !f.kw then 2 ^ 171 else 0) - (if v.pa && !f.ka then 2 ^ 172 else 0) +
    (v.base + o) % 2 ^ 56 + 2 ^ 64 * e)

/-- R173. -/
def execBrmk (f : BrmkF) (s : State) : Out :=
  issue s fun x =>
    match beginOp s x { srcs := [(.s f.k, 4)] } with
    | .halt s => s
    | .go r =>
      let v := s.rcdOf x f.src
      let o := r.num 0 0 2 r.low
      let e := r.num 0 2 2 r.low
      if !v.wf then s.trap x 0x40
      else if v.extent < o + e then s.trap x 0x41
      else if v.swz ≠ 0 ∧ o % (8 * v.rl * v.stride) ≠ 0 then s.trap x 0x43
      else ((r.commit.setRcd x f.rcd (brmkRcd v f o e)).advance x.wid x.sid 1).endIfEmpty x.wid x.sid

end Sys2Proof.Machine
end

