-- ==== Sys2Proof/Machine/MemEvents.lean ====
section
/-! DEFINITION. The events of memory: results land, requests are performed and acknowledged, walks end, waits run out (R34, R35,
R157, R158, R165, R171, R367). An event that is not due leaves the state as it is. -/

namespace Sys2Proof.Machine

/-! ## Requests on their way (R154, R367) -/

/-- The bytes that a request draws: 64 for an atomic or a `waita` registration, else what its lanes move (R367, R368). -/
def Access.bytes (a : Access) : Nat :=
  match a.kind with
  | .load | .store => a.size * a.lanes.length
  | _ => 64 * a.lanes.length

/-- A request whose port is down fails with 0x59: its lanes stay unfinished, and its context enters the context rung (R320). -/
def State.failAccess (s : State) (id : Nat) (a : Access) : State :=
  let l := a.lanes.headD ⟨0, 0, 0, [], 0, 0, 0, []⟩
  let s : State := { s with accs := Tbl.put s.accs id { a with replay := true } }
  (s.takeFault (dieOf a.core) a.ctx l.va (.access id) (Rcd.tier a.rcd)).enterCtx a.ctx 0x59 (s.faultVals (.access id) 0x59 l.va)

/-- Whether a request is on its way to its port: it waits for nothing before it, and for no page. -/
def State.inFlight (s : State) (id : Nat) (a : Access) : Bool :=
  !a.replay && a.after.all s.performed && !(s.waiters.any fun w => w.acc == id) && !(a.pend.isSome && s.isOut a.ctx)

/-- Whether a request holds one of its core's slots: 48 for its warps and 64 for the rest, the oldest first (R1, R154). -/
def State.inSlot (s : State) (id : Nat) (a : Access) : Bool :=
  let warp (b : Access) : Bool := match b.agent with
    | .strand .. => true
    | _ => false
  let l := s.accs.filter fun p => p.2.core == a.core && warp p.2 == warp a && s.inFlight p.1 p.2
  ((l.take (if warp a then 48 else 64)).map Prod.fst).contains id

/-- A line request is performed once those it follows are (R165, R180), if its port is up and its weir open. A request whose result
belongs to a partition that is swapped out waits for it (R348, R351). -/
def execMemoryAccessPerformed (id : Nat) (order : List Nat) (s : State) : Out :=
  .next (
    match Tbl.find s.accs id with
    | none => s
    | some a =>
      let pa := (a.lanes.headD ⟨0, 0, 0, [], 0, 0, 0, []⟩).pa
      let port := s.portOf pa
      let pc := s.classOf a.agent
      let n := ({ a with lanes := (a.pick order).1 } : Access).bytes
      if a.done || !s.inFlight id a || !s.inSlot id a then s
      else if s.portsDown.contains port then (if s.awake a.ctx then s.failAccess id a else s)
      else if !s.weirOpen port pc n then s.backPressure port pc
      else (s.weirDraw port pc n).perform id order)

/-- A performed store is acknowledged at its source (R165, R183). -/
def execStoreAcknowledged (id : Nat) (s : State) : Out :=
  .next (
    match Tbl.find s.accs id with
    | some a => if a.kind = .store ∧ a.done then { s with accs := Tbl.del s.accs id } else s
    | none => s)

/-- Room in a queue for a result's entries (R147). -/
def Warp.hasRoom (w : Warp) : Option (Nat × List QEntry) → Bool
  | none => true
  | some (q, es) => decide ((w.queues.getD q ⟨[], false⟩).entries.length + es.length ≤ 16)

/-- A strand whose lanes have all exited ends once its last long-latency instruction has completed (R34, R111). -/
def State.endDone (s : State) (wid sid : Nat) : State :=
  match s.strandAt wid sid with
  | some x => if (x.st.parked.any fun p => p.1 == .ended) && x.st.pends.isEmpty then s.endStrand wid sid else s
  | none => s

/-- R34, R35: words of a long-latency instruction land, some early, or all of them when it completes. -/
def execLongLatencyCompletion (a : Agent) (op : Nat) (early : List Nat) (s : State) : Out :=
  .next (
    match a with
    | .strand wid sid =>
      match s.strandAt wid sid with
      | none => s
      | some x =>
        match x.st.pends.find? fun p => p.id == op && p.own with
        | none => s
        | some p =>
          let now := (p.wrs.zipIdx).filter fun q => early.contains q.2
          if early ≠ [] then
            let rest := ((p.wrs.zipIdx).filter fun q => !early.contains q.2).map Prod.fst
            (s.land x.core (now.map Prod.fst)).updStrand wid sid fun st =>
              { st with pends := st.pends.map fun q => if q.id = op then { q with wrs := rest } else q }
          else if !p.ready || !x.w.hasRoom p.push then s
          else
            let s := ((s.land x.core p.wrs).push wid p.push).sticky wid p.dom p.sticky
            (s.dropPends wid [op]).endDone wid sid
    | _ => s)

/-- A walk has ended for its agent: the agent issues again when no walk of it is left (R157, R158). -/
def State.walkDone (s : State) (a : Agent) : State :=
  if s.walks.any fun p => p.2.agent == a && p.2.ended.isNone then s
  else
    match a with
    | .strand wid sid => s.updStrand wid sid fun st =>
      { st with parked := st.parked.map fun p => if p.1 = .walk then (.walked, p.2) else p }
    | .fe c => s.updCrew c fun k =>
      { k with fe := k.fe.map fun f => { f with stalled := f.stalled.map fun p => if p.1 = .walk then (.walked, p.2) else p } }
    | .nobody => s

/-- A walk ends with a cause, which its agent takes when it issues again (R158). -/
def State.endWalk (s : State) (id : Nat) (w : Walk) (c : Nat × Nat) : State :=
  ({ s with walks := Tbl.put s.walks id { w with ended := some c } }).walkDone w.agent

/-- The page walker of a die runs its first 256 walks; a present leaf enters the core's TLB, and so does a page that a TLB of the
cluster holds by now (R157). -/
def execPageWalk (id : Nat) (s : State) : Out :=
  .next (
    match Tbl.find s.walks id with
    | none => s
    | some w =>
      let die := dieOf w.core
      let running := ((s.walks.filter fun p => dieOf p.2.core == die && p.2.ended.isNone).map Prod.fst).take 256
      if !running.contains id || s.isOut w.ctx then s
      else match s.tlbHit w.core w.ctx w.va, s.walk w.ctx w.va with
        | none, .bad c d => s.endWalk id w (c, d)
        | _, _ => (({ s with walks := Tbl.del s.walks id }).fillTlb w.core w.ctx w.va).walkDone w.agent)

/-- A walk that has not finished within 100 µs gives cause 0x4D (R158). -/
def execWalkTimeout (id : Nat) (s : State) : Out :=
  .next (
    match Tbl.find s.walks id with
    | none => s
    | some w =>
      if w.ended.isSome ∨ s.time < w.since + 70000 ∨ s.isOut w.ctx then s else s.endWalk id w (0x4D, 0))

/-- A `waita` whose timeout has passed since its issue completes with status 2 (R171). -/
def execWaitaTimeout (a : Agent) (s : State) : Out :=
  .next (
    match s.waiters.find? fun w => (Tbl.find s.accs w.acc).any fun p => p.agent == a && match p.kind with
        | .waita t => decide (0 < t) && decide (p.since + t ≤ s.time)
        | _ => false with
    | none => s
    | some w => s.endWaita w.acc (s.waitWord w) 2)

/-- A strand parked at a queue for 2^20 cycles traps at its instruction or header (R23, R147). -/
def execQueueWaitWatchdog (a : Agent) (s : State) : Out :=
  .next (
    match a with
    | .strand wid sid =>
      match s.strandAt wid sid with
      | none => s
      | some x =>
        match x.st.parked with
        | some (.queue, t) =>
          if s.time < t + 2 ^ 20 ∨ ¬s.strandAwake x then s
          else s.trapAt wid sid { cause := 0x2D, lanes := x.st.em, atHeader := x.st.clause.isNone }
        | _ => s
    | _ => s)

end Sys2Proof.Machine
end

