-- ==== Sys2Proof/Machine/Fetch.lean ====
section
/-! DEFINITION. Fetching code: units through translation, the check of an address that control is about to use, and the common
beginnings of front-end instructions (R20-R22, R61, R163, R217, R218, R223, R384). -/

namespace Sys2Proof.Machine

/-! ## Units of code memory -/

/-- What the fetch of a unit finds: the unit, a page that is migratable but not present, a page that must be walked first, or a cause
with its TDETAIL. -/
inductive Fetched where
  | unit (w : Unit64)
  | replay
  | walk
  | bad (cause detail : Nat)
  deriving DecidableEq, Repr

/-- The byte address of a PC (R8). -/
def pcVa (pc : Pc) : Nat := 8 * pc.toNat

/-- The unit at a PC of a context as its translation gives it, which needs X (R163). -/
def State.codeUnit (s : State) (core ctx : Nat) (pc : Pc) : Fetched :=
  match (s.translate core ctx (pcVa pc)).need .exec with
  | .ok pa => .unit (BitVec.ofNat 64 (s.readNat pa 8))
  | .replay => .replay
  | .bad c d => .bad c d

/-- Whether the agent whose turn it is has the page walker's answers. -/
def State.turnWalked (s : State) : Bool :=
  match s.who, s.whoFe with
  | some x, _ => x.walked
  | none, some (_, _, f) => f.stalled.any fun p => p.1 == .walked
  | none, none => false

/-- The unit at a PC, fetched in the turn of an agent: a page that no TLB of the cluster holds is walked first (R157, R163), and a
walk may end with a cause (R158). -/
def State.fetchUnit (s : State) (core ctx : Nat) (pc : Pc) : Fetched :=
  if (s.tlbHit core ctx (pcVa pc)).isSome then s.codeUnit core ctx pc
  else if !s.turnWalked then .walk
  else match s.walkFound s.cur (pcVa pc) with
    | some (c, d) => .bad c d
    | none => s.codeUnit core ctx pc

/-- The units at a list of PCs, or what the fetch of the first that cannot be fetched finds, with its byte address. -/
def State.fetchUnits (s : State) (core ctx : Nat) : List Pc → Except (Fetched × Nat) (List Unit64)
  | [] => .ok []
  | p :: t =>
    match s.fetchUnit core ctx p with
    | .unit w => match s.fetchUnits core ctx t with
      | .ok l => .ok (w :: l)
      | .error e => .error e
    | f => .error (f, pcVa p)

/-- The number of units of the clause whose header is a unit, and its class (R21). -/
def headerCount (w : Unit64) : Nat := (w.extractLsb' 50 4).toNat + 1
def headerClass (w : Unit64) : Fin 8 := ⟨(w.extractLsb' 54 3).toNat, (w.extractLsb' 54 3).isLt⟩

/-- The units of the body of a clause of n units whose header is at a PC. -/
def State.clauseBody (s : State) (core ctx : Nat) (pc : Pc) (n : Nat) : Except (Fetched × Nat) (List Unit64) :=
  s.fetchUnits core ctx ((List.range n).map fun i => pc + 1 + BitVec.ofNat 53 i)

/-- The clause whose header is at a PC, with its units as code memory holds them (R20). -/
def State.clauseAt (s : State) (core ctx : Nat) (pc : Pc) : Except (Fetched × Nat) Clause :=
  match s.fetchUnit core ctx pc with
  | .unit w =>
    match s.clauseBody core ctx pc (headerCount w) with
    | .ok l => .ok ⟨pc, headerClass w, headerCount w, (w.extractLsb' 48 2) == 1, l⟩
    | .error e => .error e
  | f => .error (f, pcVa pc)

/-- The unit of a clause at a PC, the next one, and how many units follow it. -/
def Clause.unitAt (c : Clause) (pc : Pc) : Unit64 × Unit64 × Nat :=
  let i := (pc - c.hdr).toNat
  (c.units.getD (i - 1) 0, c.units.getD i 0, c.cnt - i)

/-- The first address of a list that control cannot use, with what it finds there: none where all are clause headers (R61, R384). -/
def State.badTarget (s : State) (core ctx : Nat) (l : List (Pc × Nat)) : Option (Fetched × Nat) :=
  l.findSome? fun p =>
    match s.fetchUnit core ctx p.1 with
    | .unit w => if Codec.isHeader w then none else some (.bad 0x13 p.2, pcVa p.1)
    | f => some (f, pcVa p.1)

/-- A strand waits for a migratable page: its line goes into the fault buffer, once for each page that it waits for (R159). -/
def State.waitPage (s : State) (x : Who) (va : Nat) : State :=
  (s.takeFault (dieOf x.core) x.d.ctx va (.agent x.agent) 0).park x.wid x.sid .replay

/-- A strand waits for what a fetch found in place of a unit: for the walker, or for a page that migrates (R157, R159). -/
def State.fetchWait (s : State) (x : Who) (f : Fetched) (va : Nat) : State :=
  match f with
  | .walk => s.startWalks x [va / 256 * 256]
  | _ => s.waitPage x va

/-- Goes on with `k` once every address of the list is a clause header that can be fetched; else traps or waits (R61). -/
def State.targets (s : State) (x : Who) (l : List (Pc × Nat)) (k : State) : State :=
  match s.badTarget x.core x.d.ctx l with
  | none => k
  | some (.bad c d, va) => s.trap x c d va
  | some (f, va) => s.fetchWait x f va

/-! ## Front-end contexts (R217, R223) -/

/-- q0..q3 of every warp of a crew close (R222, R223). -/
def State.closeFeQueues (s : State) (k : Crew) : State :=
  k.warps.foldl (fun s i => s.updWarp i fun w =>
    { w with queues := (w.queues.zipIdx).map fun q => if q.2 < 4 then { q.1 with closed := true } else q.1 }) s

def State.updFe (s : State) (c : Nat) (f : FrontEnd → FrontEnd) : State := s.updCrew c fun k => { k with fe := k.fe.map f }

/-- A front-end context stops for a cause: the crew's incoming queues close, and the chain enters the crew rung (R223). -/
def State.feStop (s : State) (c : Nat) (t : Trap) : State :=
  match Tbl.find s.crews c with
  | none => s
  | some k =>
    match k.fe with
    | none => s
    | some f =>
      let s := s.updFe c fun f => { f with stopped := some t, stalled := none }
      let s := s.closeFeQueues k
      s.enterCrew c ⟨k.warps.headD 0, 0, t, f.pc, 0, t.cause, true, s.time⟩

/-- A front-end instruction of `n` units has issued. -/
def FrontEnd.advance (f : FrontEnd) (n : Nat) : FrontEnd :=
  let pc := f.pc + BitVec.ofNat 53 n
  let inside := match f.clause with
    | some c => decide ((pc - c.hdr).toNat ≤ c.cnt)
    | none => false
  { f with pc := pc, clause := if inside then f.clause else none, stalled := none }

/-- Control goes to a clause header. -/
def FrontEnd.jump (f : FrontEnd) (pc : Pc) : FrontEnd := { f with pc := pc, clause := none, stalled := none }

/-- The header of the clause of a front-end context. -/
def FrontEnd.header (f : FrontEnd) : Pc := (f.clause.map Clause.hdr).getD f.pc
/-- The PC after its clause (R20). -/
def FrontEnd.nextClause (f : FrontEnd) : Pc := (f.clause.map fun c => c.hdr + BitVec.ofNat 53 (c.cnt + 1)).getD f.pc

/-- Stalls a front-end context; the time at which it began to wait for this is kept. -/
def State.stall (s : State) (c : Nat) (w : Wait) : State :=
  s.updFe c fun f => match f.stalled with
    | some (w', _) => if w' = w then f else { f with stalled := some (w, s.time) }
    | none => { f with stalled := some (w, s.time) }

/-- Who issues an instruction of class 7. -/
structure FeWho where
  (cid : Nat) (k : Crew) (f : FrontEnd) (ctx : Nat)
  deriving DecidableEq, Repr

/-- A front-end instruction begins: the context must exist, and one that has stopped stays as it is. -/
def feIssue (s : State) (k : FeWho → State) : Out :=
  match s.whoFe with
  | none => .fault .noIssuer
  | some (cid, c, f) => .next (if f.stopped.isSome then s else k ⟨cid, c, f, s.crewCtx c⟩)

/-- A register of the context. -/
def FeWho.reg (x : FeWho) (k : Nat) : Dword := x.f.regs.getD k 0
/-- A source that is no queue (R32). -/
def FeWho.val (x : FeWho) : AOpnd → Dword
  | .a k => x.reg k.val
  | _ => 0
/-- The register that an operand names. -/
def AOpnd.regs : AOpnd → List Nat
  | .a k => [k.val]
  | _ => []

/-- Whether a load to one of some registers is in flight. -/
def State.feLoading (s : State) (x : FeWho) (l : List Nat) : Bool :=
  s.accs.any fun p => p.2.agent == .fe x.cid && p.2.pend.isSome && p.2.lanes.any fun q => q.dst.any fun d => l.contains (d.2 / 2)

/-- Interlock (R32, R217): an instruction waits for the loads to the registers that it reads or writes. -/
def State.feReady (s : State) (x : FeWho) (l : List Nat) (k : State) : State := if s.feLoading x l then s.stall x.cid .release else k

/-- A front-end context waits for a page that migrates (R221). -/
def State.feWaitPage (s : State) (x : FeWho) (va : Nat) : State :=
  (s.takeFault (dieOf x.k.core) x.ctx va (.agent (.fe x.cid)) 0).stall x.cid .replay

/-- Queues walks for pages, and the context waits for them (R157). -/
def State.feWalks (s : State) (x : FeWho) (vas : List Nat) : State :=
  let s := vas.foldl (fun s va =>
    let (n, s) := s.fresh
    { s with walks := Tbl.put s.walks n ⟨.fe x.cid, x.k.core, x.ctx, va, s.time, none⟩ }) (s.dropWalks (.fe x.cid))
  s.stall x.cid .walk

/-- As `fetchWait`, for a front-end context. -/
def State.feFetchWait (s : State) (x : FeWho) (f : Fetched) (va : Nat) : State :=
  match f with
  | .walk => s.feWalks x [va / 256 * 256]
  | _ => s.feWaitPage x va

/-- As `targets`, for a front-end context, which stops where a strand would trap (R218). -/
def State.feTargets (s : State) (x : FeWho) (l : List (Pc × Nat)) (k : State) : State :=
  match s.badTarget x.k.core x.ctx l with
  | none => k
  | some (.bad c d, va) => s.feStop x.cid { cause := c, detail := d, addr := va }
  | some (f, va) => s.feFetchWait x f va

/-- An instruction of control, whose meaning depends on who issues it. -/
def byIssuer (s : State) (warp fe : Out) : Out :=
  match s.cur with
  | .fe _ => fe
  | _ => warp

end Sys2Proof.Machine
end

