-- ==== Sys2Proof/Machine/Place.lean ====
section
/-! DEFINITION. A crew with one instruction to run, as a launch leaves it: what `State.withFetchWord` places (log 18). -/

namespace Sys2Proof.Machine

/-- The code page: its virtual and physical address. -/
def placeVa : Nat := 0x10000

/-- Tables of four levels with one leaf, readable, writable and executable, for the code page (R155, R156). -/
def State.placeTables (s : State) : State :=
  ((((s.writeNat 0x0 8 0x2003).writeNat 0x2000 8 0x4003).writeNat 0x4000 8 0x6003).writeNat 0x6008 8 (placeVa + 0x71))

/-- Code units in the code page (R20, R163). -/
def State.placeCode (s : State) (l : List Unit64) : State :=
  (l.zipIdx).foldl (fun s p => s.writeNat (placeVa + 8 * p.2) 8 p.1.toNat) s

/-- The strand of lanes 0 to 3 at a place. -/
def placeStrand (pc : Pc) (cl : Option Clause) : Strand where
  pc := pc
  clause := cl
  em := 15
  mem := 15
  rstack := []
  split := none
  dom := 0
  parked := none
  pends := []
  level := 0
  stepArm := 0
  grants := []
  yld := false
  fenced := []
  past := []
  trapping := none

/-- The warp's own domain: a frame of 960 registers per lane (R126, R12). -/
def placeDom : Dom where
  a0 := 0
  fv := 960
  ctx := 0
  csrs := Csrs.fresh 0 0
  masks := List.replicate 8 0
  trapRec := none
  recs := []
  tiles := []
  descp := 0
  recp := 0
  nrec := 0
  call := none

/-- Warp 0 of core 0, W = 4. -/
def placeWarp (strands : Tbl Strand) : Warp where
  crew := 0
  winc := 0
  cinb := 0
  bins := 0
  wlog := 0
  doms := [(0, placeDom)]
  queues := List.replicate 8 ⟨[], false⟩
  strands := strands
  deferred := []
  asides := []
  splits := []
  prio := 1
  seqno := 0
  pfaults := []
  xchDone := 0
  xchArr := none
  ended := false

/-- The crew of that warp, with a front-end context. -/
def placeCrew (fe : FrontEnd) : Crew where
  launch := 0
  item := 0
  core := 0
  braid := 0
  span := 0
  clusters := [0]
  warps := [0]
  tiles := []
  recs := List.replicate 32 0
  fe := some fe
  hnx := false
  pdone := false
  rung := none
  rungQ := []
  rrotDone := 0
  rrotArr := none
  superstep := false
  comm := false
  stage := none
  placed := 0
  faulted := none
  killed := false

/-- A launch of one crew, placed. -/
def placeLaunch : Launch where
  ctx := 0
  die := 0
  prio := 0
  desc := 0
  pred := none
  depd := false
  placed := 1
  ended := 0
  qsum := 0
  fcause := none
  killed := false
  moves := 0
  refuse := 0
  counter := 0
  stages := []
  out := none

/-- A running context whose tables stand at physical address 0. -/
def placeCtx : Context where
  part := 0
  asid := 0
  root := some 0
  sendRing := 0
  peers := []
  sys := true
  pfth := 128
  pfbs := 21
  run := .running
  since := 0
  acks := []
  pstate := 0
  swaps := 0
  rung := none
  abandoned := false
  tier := 0
  pins := []

/-- The units from a clause header on, which the next step runs: the header itself where nothing follows it, and else the first
word of its clause, in a strand or, for class 7, in the front-end context. -/
def State.place (s : State) (l : List Unit64) : State :=
  let hd := l.headD 0
  let pc : Pc := BitVec.ofNat 53 (placeVa / 8)
  let body := l.drop 1
  let cl : Option Clause := if body.isEmpty then none else some ⟨pc, headerClass hd, body.length, false, body⟩
  let fe := headerClass hd = 7 ∧ body ≠ []
  let at_ : Pc := if body.isEmpty then pc else pc + 1
  let strand := if fe then placeStrand pc none else placeStrand at_ cl
  let front : FrontEnd := ⟨if fe then at_ else pc, if fe then cl else none, List.replicate 32 0, [], none, none, none⟩
  let s := (s.placeTables).placeCode l
  { s with
    boot := .up
    agenda := [.issue (if fe then .fe 0 else .strand 0 0)]
    parts := Tbl.put s.parts 0 ⟨[(0, 1)], 0, 0, [], [], .resident⟩
    ctxs := Tbl.put s.ctxs 0 placeCtx
    launches := Tbl.put s.launches 0 placeLaunch
    crews := Tbl.put s.crews 0 (placeCrew front)
    warps := Tbl.put s.warps 0 (placeWarp [(0, strand)])
    cores := Tbl.put s.cores 0 { Core.empty with allocs := [(0, 39)], tlb := [⟨0, placeVa, 16, placeVa, true, true, true, false⟩], grans := (List.range 39).map fun g => (g, ⟨false, false, true, true⟩) } }

end Sys2Proof.Machine
end

