-- ==== Sys2Proof/Machine/Regspace.lean ====
section
/-! DEFINITION. The class 3 instructions on frames, tiles, windows, granules, synchronisation words and queues (R129-R148). -/

namespace Sys2Proof.Machine

/-- Completes an own-frame write of words (R128). -/
def Ready.finishWords (r : Ready) (ws : List RegWrite) : State :=
  ((r.commit.land r.x.core ws).advance r.x.wid r.x.sid 1).endIfEmpty r.x.wid r.x.sid

/-! ## Indirect naming (R130, R131) -/

/-- The lane that an indirect access names (R130): its own, or B's. -/
def Ready.otherLane (r : Ready) (lsel : Bool) (i l : Nat) : Nat := if lsel then r.val i l else l

/-- The words that register k of lane t names, or none out of range (R127, R130). -/
def regWords (x : Who) (n k t : Nat) : Option (List Nat) :=
  if k + n ≤ x.d.fv ∧ t < x.width ∧ k % n = 0 then some ((List.range n).map fun j => x.d.lane x.width (k + j) t) else none

/-- A lane's accesses to words named by index: out of range, or read, or written (R127). -/
def readsAt (a : Option (List Nat)) : OwnAcc := match a with
  | some l => ⟨false, l, []⟩
  | none => ⟨true, [], []⟩
def writesAt (a : Option (List Nat)) : OwnAcc := match a with
  | some l => ⟨false, [], l⟩
  | none => ⟨true, [], []⟩

/-- R130. -/
def execLdx (f : LdxF) (s : State) : Out :=
  issue s fun x =>
    let n := tyWords f.ty
    let at_ (r : Ready) (l : Nat) := regWords x n (r.val 0 l) (r.otherLane f.lsel 1 l)
    match beginOp s x { srcs := [(f.a, 1), (f.b, 1)], dst := some (f.d, n) } (fun r l => readsAt (at_ r l)) with
    | .halt s => s
    | .go r => r.finish r.em fun l => ((at_ r l).getD []).map (s.core x.core).word

/-- R130, R128: of several lanes that write one word, the highest is kept. -/
def execStx (f : StxF) (s : State) : Out :=
  issue s fun x =>
    let n := tyWords f.ty
    let at_ (r : Ready) (l : Nat) := regWords x n (r.val 0 l) (r.otherLane f.lsel 1 l)
    match beginOp s x { srcs := [(f.a, 1), (f.b, 1), (f.c, n)] } (fun r l => writesAt (at_ r l)) with
    | .halt s => s
    | .go r => r.finishWords ((lanesOf r.em).flatMap fun l =>
        ((at_ r l).getD []).zipIdx.map fun p => ⟨p.1, r.word 2 p.2 l, 0⟩)

/-- Granule state bits (R124). -/
def Gran.bits (g : Gran) : Nat :=
  (if g.own then 1 else 0) + (if g.inf then 2 else 0) + (if g.val then 4 else 0) + if g.drt then 8 else 0

/-- The words of a tile that an index names, or none out of range (R127, R134). -/
def tileWords (t : Tile) (n i : Nat) : Option (List Nat) :=
  if i + n ≤ t.words ∧ i % n = 0 then some ((List.range n).map fun j => t.word (i + j)) else none

/-- R131. -/
def execGstat (f : GstatF) (s : State) : Out :=
  issue s fun x =>
    let tile := s.tileAt x.w 8 x.st.dom f.tile.val
    if f.isTile ∧ tile.isNone then s.trap x 0x29
    else
      let at_ (r : Ready) (l : Nat) : Option (List Nat) :=
        if f.isTile then tile.bind fun t => tileWords t.2.2 1 (r.val 0 l)
        else regWords x 1 (r.val 0 l) (r.otherLane f.lsel 1 l)
      match beginOp s x { srcs := [(f.a, 1), (f.b, 1)], dst := some (f.d, 1) } (fun r l => ⟨(at_ r l).isNone, [], []⟩) with
      | .halt s => s
      | .go r => r.finish r.em fun l =>
          [BitVec.ofNat 32 (((s.core x.core).gran (((at_ r l).getD []).headD 0 / 128)).bits)]

/-- R131: FMASK into all W bits of the mask. -/
def execFmask (d : MReg) (s : State) : Out :=
  issue s fun x =>
    (s.updDom x.wid x.st.dom fun k =>
      k.setMask d ((k.mask d &&& ~~~fullMask x.width) ||| (k.csrs.fmask &&& fullMask x.width))).skip x

/-! ## Tiles (R132-R134) -/

/-- R134. -/
def execTget (f : TgetF) (s : State) : Out :=
  issue s fun x =>
    let n := tyWords f.ty
    match s.tileAt x.w 8 x.st.dom f.tile.val with
    | none => s.trap x 0x29
    | some (_, _, t) =>
      match beginOp s x { srcs := [(f.a, 1)], dst := some (f.d, n) } (fun r l => readsAt (tileWords t n (r.val 0 l))) with
      | .halt s => s
      | .go r => r.finish r.em fun l => ((tileWords t n (r.val 0 l)).getD []).map (s.core x.core).word

/-- R134, R128. -/
def execTset (f : TsetF) (s : State) : Out :=
  issue s fun x =>
    let n := tyWords f.ty
    match s.tileAt x.w 8 x.st.dom f.tile.val with
    | none => s.trap x 0x29
    | some (_, _, t) =>
      match beginOp s x { srcs := [(f.a, 1), (f.b, n)] } (fun r l => writesAt (tileWords t n (r.val 0 l))) with
      | .halt s => s
      | .go r => r.finishWords ((lanesOf r.em).flatMap fun l =>
          ((tileWords t n (r.val 0 l)).getD []).zipIdx.map fun p => ⟨p.1, r.word 1 p.2 l, 0⟩)

/-- An instruction with u operands (R129): each is read once, from the lowest lane; nothing changes when EM is 0. -/
def uOp (s : State) (x : Who) (srcs : List (Opnd × Nat)) (dst : Option (Opnd × Nat)) (k : Ready → State) : State :=
  if x.st.em = 0 then s.skip x
  else
    match beginOp s x { srcs := srcs, dst := dst, carry := List.range srcs.length } (fun r l =>
        if l = r.low then ⟨false, srcs.flatMap fun p => srcAddrs x p.1 p.2 l, []⟩ else OwnAcc.none) with
    | .halt s => s
    | .go r => if r.em = 0 then r.finishWords [] else k r

/-- A u operand's value. -/
def Ready.u (r : Ready) (i : Nat) : Nat := (r.word i 0 r.low).toNat

/-- A tile of a shape word, or none where R133 rejects it. -/
def shapeTile (w : Nat) : Option Tile :=
  let rows := w % 64 + 1
  let cols := w / 64 % 64 + 1
  let esz := 2 ^ (w / 4096 % 4)
  if w < 2 ^ 14 ∧ w / 4096 % 4 ≠ 3 ∧ rows * cols * esz % 512 = 0 ∧ rows * cols * esz ≤ 16384 then some ⟨0, rows, cols, esz, 0⟩
  else none

/-- The contents of a run of granules become undefined: each word is a free value (log 5). -/
def Core.undefGrans (c : Core) (g n seed : Nat) : Core :=
  { (c.zeroGrans g n) with regs := (List.range (128 * n)).foldl (fun m i =>
      Sparse.write 0 m (128 * g + i) (Config.undefWord (seed * 2 ^ 17 + 128 * g + i))) (c.zeroGrans g n).regs }

/-- Allocates a tile on a core (R125, R133). -/
def Core.allocTile (c : Core) (t : Tile) (z : Bool) (seed : Nat) : Option (Core × Tile) :=
  match c.findRun t.granules with
  | none => none
  | some g =>
    let c := c.take g t.granules
    let c := if z then c.zeroGrans g t.granules else c.undefGrans g t.granules seed
    some (c.updGrans g t.granules fun _ => ⟨false, false, z, z⟩, { t with gran := g })

/-- R133. -/
def execTalloc (f : TallocF) (s : State) : Out :=
  issue s fun x =>
    uOp s x [(f.a, 1), (f.b, 1)] none fun r =>
      let a := r.u 0
      if 32 ≤ a then s.trap x 0x29 1
      else
        match shapeTile (r.u 1) with
        | none => s.trap x 0x2A
        | some t =>
          if (s.tileAt x.w 8 x.st.dom a).isSome then s.trap x 0x2A 1
          else
            match (s.core x.core).allocTile t f.z s.tick with
            | none => s.trap x 0x2B
            | some (c, t) =>
              let s := (r.commit.setCore x.core c).setTile x.wid x.w x.st.dom a (some t)
              (s.advance x.wid x.sid 1).endIfEmpty x.wid x.sid

/-- Whether some call of a warp has a tile of another domain mapped (R339). -/
def Warp.tileMapped (w : Warp) (dn t : Nat) : Bool :=
  w.doms.any fun p => match p.2.call with
    | some c => c.tiles.any fun g => g.2.1 == dn && g.2.2 == t
    | none => false

/-- R133, R339. -/
def execTfree (f : TfreeF) (s : State) : Out :=
  issue s fun x =>
    uOp s x [(f.a, 1)] none fun r =>
      let a := r.u 0
      if 32 ≤ a then s.trap x 0x29 1
      else
        match s.tileAt x.w 8 x.st.dom a with
        | none => s.trap x 0x29
        | some (dn, _, t) =>
          let grans := (List.range t.granules).map fun i => (s.core x.core).gran (t.gran + i)
          let crewMates := ((Tbl.find s.crews x.w.crew).map Crew.warps).getD []
          if grans.any Gran.inf then s.trap x 0x2F 1
          else if grans.any Gran.own then s.trap x 0x2F 2
          else if dn ≠ x.st.dom ∨ x.w.tileMapped dn a ∨
              (dn = 0 ∧ crewMates.any fun i => (Tbl.find s.warps i).any fun w => w.tileMapped 0 a) then s.trap x 0x2F 3
          else
            let s := (r.commit.updCore x.core fun c => c.free t.gran t.granules).setTile x.wid x.w x.st.dom a none
            (s.advance x.wid x.sid 1).endIfEmpty x.wid x.sid

/-! ## Windows (R135-R139) -/

/-- The k of a sync pair code (R129): 0x3C0 + k with k even and at most 46. -/
def pairCode : Opnd → Option Nat
  | .s k => if k.val % 2 = 0 ∧ k.val ≤ 46 then some k.val else none
  | _ => none

/-- A window handle (R135). -/
def handleOf (core slot gen : Nat) : Word := BitVec.ofNat 32 (dieOf core * 2 ^ 30 + core % 576 * 2 ^ 20 + slot * 2 ^ 14 + gen)

/-- The lowest free slot that may be used (R136, R139). -/
def Core.freeSlot (c : Core) : Option Nat :=
  (List.range 64).find? fun i => (Tbl.find c.wins i).isNone && Sparse.read 0 c.gens i != 0x3FFF

/-- R136. -/
def execWexp (f : WexpF) (s : State) : Out :=
  issue s fun x =>
    uOp s x [(f.a, 1), (f.b, 1)] (some (f.d, 1)) fun r =>
      let k0 := r.u 0
      let n := r.u 1
      if f.l ∧ (pairCode f.c).isNone then s.trap x 0x2E
      else if n = 0 ∨ x.d.fv < k0 + n then s.trap x 0x23 1
      else
        match (s.core x.core).freeSlot with
        | none => s.trap x 0x28
        | some slot =>
          let gen := Sparse.read 0 (s.core x.core).gens slot % 16384
          let win : Win := ⟨x.wid, x.st.dom, x.d.ctx, k0, n, f.r, f.w, f.l, f.scope, (pairCode f.c).getD 0, gen⟩
          let s := r.finish r.em fun _ => [handleOf x.core slot gen]
          s.updCore x.core fun c => { c with wins := Tbl.put c.wins slot win }

/-- The window of a handle: its core, slot and record, or none where the handle is stale for an issuer on a die (R137). -/
def State.window (s : State) (die : Nat) (h : Word) : Option (Nat × Nat × Win) :=
  let core := (h.extractLsb' 20 10).toNat
  let slot := (h.extractLsb' 14 6).toNat
  if (h.extractLsb' 30 2).toNat ≠ die ∨ 576 ≤ core then none
  else
    let c := die * 576 + core
    match Tbl.find (s.core c).wins slot with
    | some w => if w.gen = (h.extractLsb' 0 14).toNat then some (c, slot, w) else none
    | none => none

/-- Whether an access or an admitted copy is still at work on a window slot of a core (R139, R208). -/
def State.winBusy (s : State) (core slot : Nat) : Bool :=
  (s.wreqs.any fun q => q.2.wins.contains (core, slot)) ||
  s.cmds.any fun c => c.2.targets.any fun t =>
    t.checked && t.failed.isNone && t.core == core && (t.handle.extractLsb' 14 6).toNat == slot

/-- R139: revokes a window once every access admitted to it has been performed. -/
def execWrev (f : WrevF) (s : State) : Out :=
  issue s fun x =>
    uOp s x [(f.a, 1)] none fun r =>
      let h := r.word 0 0 r.low
      match s.window (dieOf x.core) h with
      | none => s.trap x 0x25 0 h.toNat
      | some (c, slot, w) =>
        if w.warp ≠ x.wid ∨ w.dom ≠ x.st.dom then s.trap x 0x26 0 h.toNat
        else if s.winBusy c slot then s.park x.wid x.sid .revoke
        else ((r.commit.updCore c fun k => k.revoke slot).advance x.wid x.sid 1).endIfEmpty x.wid x.sid

/-- The grant of a window that a strand holds in a call (R139, R339). -/
def Who.grant (x : Who) (h : Word) : Option (Bool × Bool × Bool) :=
  (x.d.call.bind fun c => c.windows.find? fun g => g.1 == h.toNat).map Prod.snd

/-- Whether a crew lies in the exporter's crew, braid or span (R137), in the exporter's context. -/
def State.scopeHolds (s : State) (crew ctx : Nat) (w : Win) : Bool :=
  match Tbl.find s.crews crew, (Tbl.find s.warps w.warp).bind fun v => Tbl.find s.crews v.crew with
  | some a, some b =>
    decide (ctx = w.ctx) &&
    match w.scope with
    | .crew => decide (some crew = (Tbl.find s.warps w.warp).map Warp.crew)
    | .braid => a.braid == b.braid
    | .span => a.span == b.span
  | _, _ => false
def State.inScope (s : State) (x : Who) (w : Win) : Bool := s.scopeHolds x.w.crew x.d.ctx w

/-- The exporter's words that a lane names. -/
def State.winWords (s : State) (w : Win) (n k l : Nat) : List Nat :=
  match (Tbl.find s.warps w.warp).bind fun v => (v.dom w.dom).map fun d => (v, d) with
  | some (v, d) => (List.range n).map fun j => d.lane v.width (w.k0 + k + j) l
  | none => []

/-- R137: the check that one lane fails first, by its row in the table, with cause and TDETAIL. -/
def State.winCheck (s : State) (x : Who) (write : Bool) (n : Nat) (h : Word) (k l : Nat) : Option (Nat × Nat × Nat) :=
  match s.window (dieOf x.core) h with
  | none => some (0, 0x25, 0)
  | some (c, _, w) =>
    let g := x.grant h
    let inside := s.inScope x w
    let right := if write then (inside && w.w) || g.any fun q => q.2.1 else (inside && w.r) || g.any fun q => q.1
    let width := ((Tbl.find s.warps w.warp).map Warp.width).getD 0
    let grans := (s.winWords w n k l).map fun a => (s.core c).gran (a / 128)
    if !inside && g.isNone then some (1, 0x27, 0)
    else if !right then some (2, 0x26, 0)
    else if w.n < k + n ∨ k % n ≠ 0 then some (3, 0x23, 0)
    else if width ≤ l then some (4, 0x24, 0)
    else if grans.any Gran.own then some (5, 0x26, 1)
    else if !write && grans.any fun q => !q.val then some (6, 0x26, 2)
    else none

/-- The requests that a window access follows (R179, R180). -/
def State.winBefore (s : State) (x : Who) (rel : Bool) (targets : List (Nat × Nat)) : List Nat :=
  let undone := s.undoneIds x.agent
  if rel then undone
  else undone.filter fun i =>
    x.st.fenced.contains i ||
    match Tbl.find s.wreqs i with
    | some q => q.words.any fun p => targets.contains (p.1, p.2.target)
    | none => false

/-- A window access that every exporter has admitted goes out (R137, R138). -/
def Ready.winAccess (r : Ready) (la : BitVec 4) (write : Bool) (ord : Ord4) (words : List (Nat × WLane)) (wins : List (Nat × Nat)) : State :=
  let span := ((Tbl.find r.s.crews r.x.w.crew).map Crew.span).getD 0
  let after := r.s.winBefore r.x (Ord4.releases ord) (words.map fun p => (p.1, p.2.target))
  let (n, s) := r.commit.fresh
  let (q, s) := s.fresh
  let s := s.advance r.x.wid r.x.sid 1
  let p : Pend := ⟨n, la.toNat, [], r.pushes r.em fun _ => [], 0, words.isEmpty, !write, true, r.x.st.dom⟩
  let s := s.updStrand r.x.wid r.x.sid fun st => { st with pends := st.pends ++ [p] }
  let s := if words.isEmpty then s
    else { s with wreqs := Tbl.put s.wreqs q ⟨r.x.agent, n, write, wins, span, words, after⟩ }
  let s := if Ord4.acquires ord then s.fenceAfter r.x.wid r.x.sid [q] else s
  s.endIfEmpty r.x.wid r.x.sid

/-- R137: the checks of every lane, then the access; handle, index and lane are sources 0 to 2. -/
def Ready.winOp (r : Ready) (write : Bool) (n : Nat) (go : List (Nat × Nat × Nat × Win) → State) : State :=
  let lanes := lanesOf r.em
  let bads := lanes.filterMap fun l => (r.s.winCheck r.x write n (r.word 0 0 l) (r.val 1 l) (r.val 2 l)).map fun b => (l, b)
  match leastBy (fun p => p.2.1) bads with
  | some (l, row, c, d) =>
    r.s.trapAt r.x.wid r.x.sid
      { cause := c, lanes := maskOf ((bads.filter fun p => p.2.1 == row).map Prod.fst), addr := (r.word 0 0 l).toNat, detail := d }
  | none => go (lanes.filterMap fun l => (r.s.window (dieOf r.x.core) (r.word 0 0 l)).map fun w => (l, w.1, w.2.1, w.2.2))

/-- R137, R138. -/
def execWrd (f : WinF) (s : State) : Out :=
  issue s fun x =>
    let n := tyWords f.ty
    match beginOp s x { srcs := [(f.a, 1), (f.b, 1), (f.c, 1)], dst := some (f.d, n) } with
    | .halt s => s
    | .go r =>
      r.winOp false n fun ws =>
        let words := ws.flatMap fun w =>
          let a := s.winWords w.2.2.2 n (r.val 1 w.1) (r.val 2 w.1)
          (r.dsts w.1).map fun d => (w.2.1, (⟨w.1, a.getD d.1 0, d.2, 0, 0, false⟩ : WLane))
        r.winAccess f.la false f.ord words (ws.map fun w => (w.2.1, w.2.2.1))

/-- R137, R138: the data register is read at issue and carries its poison (R319). -/
def execWwr (f : WinF) (s : State) : Out :=
  issue s fun x =>
    let n := tyWords f.ty
    match beginOp s x { srcs := [(f.a, 1), (f.b, 1), (f.c, 1), (f.d, n)], carry := [3] } with
    | .halt s => s
    | .go r =>
      r.winOp true n fun ws =>
        let words := ws.flatMap fun w =>
          ((s.winWords w.2.2.2 n (r.val 1 w.1) (r.val 2 w.1)).zipIdx).map fun a =>
            (w.2.1, (⟨w.1, a.1, 0, r.word 3 a.2 w.1, r.mark 3 a.2 w.1, false⟩ : WLane))
        r.winAccess f.la true f.ord words (ws.map fun w => (w.2.1, w.2.2.1))

/-- The word of a window access that is performed next: every word is an access of its own, in no order that the rules promise
(R138, R186, log 10). -/
def WReq.next (q : WReq) (choice : Nat) : Option Nat :=
  let l := (List.range q.words.length).filter fun i => (q.words[i]?).any fun p => !p.2.done
  l[choice % max 1 l.length]?

/-- A word of an admitted window access is performed at the exporting core (R138, R186, R128); with its last word the access is
complete. DESIGN CHOICE (log 93): of two lanes of one `wwr` that name one word, the one performed last remains. -/
def execWindowRequest (id : Nat) (s : State) : Out :=
  .next (
    match Tbl.find s.wreqs id with
    | none => s
    | some q =>
      if !q.after.all s.performed then s
      else
        match (q.next (Config.eventChoice s.tick)).bind fun i => (q.words[i]?).map fun p => (i, p) with
        | some (i, core, l) =>
          let (s, l) := s.windowWord q.write core l
          { s with wreqs := Tbl.put s.wreqs id { q with words := q.words.set i (core, l) } }
        | none =>
          let results := if q.write then [] else q.words.map fun p => (⟨p.2.dst, p.2.val, p.2.mark⟩ : RegWrite)
          ({ s with wreqs := Tbl.del s.wreqs id }).deliver q.agent (some q.pend) results)

/-- R139, R339. -/
def execWgrant (f : WgrantF) (s : State) : Out :=
  issue s fun x =>
    uOp s x [(f.a, 1), (f.b, 1)] none fun r =>
      let a := r.u 0
      let b := r.u 1
      let add (g : Grant) : State :=
        ((r.commit.advance x.wid x.sid 1).updStrand x.wid x.sid fun st => { st with grants := st.grants ++ [g] }).endIfEmpty x.wid x.sid
      if f.tile then
        if 32 ≤ a then s.trap x 0x29 1
        else if (s.tileAt x.w 8 x.st.dom a).isNone then s.trap x 0x29
        else if 32 ≤ b ∨ 4 ≤ x.st.grants.length then s.trap x 0x37
        else add (.tile a b)
      else
        match s.window (dieOf x.core) (r.word 0 0 r.low) with
        | none => s.trap x 0x37
        | some (_, _, w) =>
          let wider := (f.r && !w.r) || (f.w && !w.w) || (f.l && !w.l) || !(f.r || f.w || f.l)
          if w.warp ≠ x.wid ∨ w.dom ≠ x.st.dom ∨ wider ∨ 4 ≤ x.st.grants.length then s.trap x 0x37
          else add (.window (r.word 0 0 r.low) f.r f.w f.l)

/-! ## Handing granules over (R140) -/

/-- The granules of registers [k0, k0 + n), or none where the range is not one that `give` takes (R140, R126). -/
def rangeGrans (x : Who) (k0 n : Nat) : Option (List Nat) :=
  if n = 0 ∨ x.d.fv < k0 + n ∨ k0 * x.width % 128 ≠ 0 ∨ n * x.width % 128 ≠ 0 then none
  else some ((List.range (n * x.width / 128)).map fun i => (x.d.a0 + 1152 + k0 * x.width) / 128 + i)

/-- The granules that `give` and `take` name, or the trap of their first checks: cause and TDETAIL. -/
def State.namedGrans (s : State) (x : Who) (tile : Bool) (a b : Nat) : Except (Nat × Nat) (List Nat) :=
  if tile then
    if 32 ≤ a then .error (0x29, 1)
    else match s.tileAt x.w 8 x.st.dom a with
      | none => .error (0x29, 0)
      | some (_, _, t) => .ok ((List.range t.granules).map fun i => t.gran + i)
  else match rangeGrans x a b with
    | none => .error (0x2F, 3)
    | some l => .ok l

/-- R140. -/
def execGive (f : GiveF) (s : State) : Out :=
  issue s fun x =>
    uOp s x [(f.a, 1), (f.b, 1)] none fun r =>
      match s.namedGrans x f.tile (r.u 0) (r.u 1) with
      | .error (c, d) => s.trap x c d
      | .ok l =>
        if l.any fun g => ((s.core x.core).gran g).own then s.trap x 0x2F 2
        else if s.wreqs.any fun q => q.2.words.any fun p => !p.2.done && p.1 == x.core && l.contains (p.2.target / 128) then
          s.park x.wid x.sid .give
        else
          let ids := s.warpWrites x.wid
          let s := r.commit.updCore x.core fun c =>
            l.foldl (fun c g => { (c.setGran g { c.gran g with own := true }) with given := Tbl.put c.given g ids }) c
          (s.advance x.wid x.sid 1).endIfEmpty x.wid x.sid

/-- R140: status 1 and no change while a granule has INF = 1. -/
def execTake (f : TakeF) (s : State) : Out :=
  issue s fun x =>
    uOp s x [(f.a, 1), (f.b, 1)] (some (f.d, 1)) fun r =>
      match s.namedGrans x f.tile (r.u 0) (r.u 1) with
      | .error (c, d) => s.trap x c d
      | .ok l =>
        if l.any fun g => ((s.core x.core).gran g).inf then r.finish r.em fun _ => [1]
        else
          let s := r.finish r.em fun _ => [0]
          s.updCore x.core fun c => l.foldl (fun c g => c.setGran g { c.gran g with own := false }) c

/-! ## Synchronisation words (R143, R144, R201) -/

/-- Delivers the pending fault of a pair as a trap, if it can be taken now (R201, R310). The fault records no lanes: the trap is the
strand's, with its EM (log 21). -/
def State.trapPending (s : State) (x : Who) (pair : Nat) (t : Trap) : State :=
  let s' := s.trapAt x.wid x.sid { t with lanes := x.st.em }
  if (s'.strandAt x.wid x.sid).any fun (y : Who) => (y.st.parked.any fun p => p.1 == .handler) && !y.opened then s'
  else s'.clearPending x.wid x.st.dom pair

/-- R144: waits until the pair's generation has reached B. -/
def execWaitg (f : SyncF) (s : State) : Out :=
  issue s fun x =>
    match pairCode f.a with
    | none => s.trap x 0x2E
    | some k =>
      uOp s x [(.s ⟨k % 48, Nat.mod_lt _ (by decide)⟩, 2), (f.b, 1)] none fun r =>
        match s.pendingOn x.wid x.st.dom k with
        | some t => s.trapPending x k t
        | none =>
          if genReached (syncGen (s.pair x.core x.d k)) (r.u 1 % 65536) then
            (r.commit.advance x.wid x.sid 1).endIfEmpty x.wid x.sid
          else s.park x.wid x.sid .sync

/-- R143, R201: CNT becomes 0 and TGT becomes B; a pending fault of the pair is cleared. -/
def execSyncset (f : SyncF) (s : State) : Out :=
  issue s fun x =>
    match pairCode f.a with
    | none => s.trap x 0x2E
    | some k =>
      uOp s x [(.s ⟨k % 48, Nat.mod_lt _ (by decide)⟩, 2), (f.b, 1)] none fun r =>
        let b := r.u 1
        if b = 0 ∨ 16777215 < b then s.trap x 0x2E 1
        else if s.pairBusy x.wid x.st.dom k then s.trap x 0x2E 2
        else
          let s := r.commit.setPair x.core x.d k (syncWord (syncGen (s.pair x.core x.d k)) b 0)
          ((s.clearPending x.wid x.st.dom k).advance x.wid x.sid 1).endIfEmpty x.wid x.sid

/-! ## Queues (R148) -/

/-- The value of `qstat` (R148). -/
def Queue.stat (q : Queue) : Nat :=
  q.entries.length + (if q.closed then 2 ^ 8 else 0) + if q.entries.head?.any QEntry.vec then 2 ^ 9 else 0

/-- R148, R338. -/
def execQstat (f : QstatF) (s : State) : Out :=
  issue s fun x =>
    if x.st.dom ≠ 0 then s.trap x 0x2C 2
    else
      match beginOp s x { srcs := [], dst := some (f.d, 1) } with
      | .halt s => s
      | .go r => r.finish r.em fun _ => [BitVec.ofNat 32 (x.w.queues.getD f.q.val ⟨[], false⟩).stat]

/-- R148, R338. -/
def execQmark (q : Fin 8) (s : State) : Out :=
  issue s fun x =>
    if x.st.dom ≠ 0 then s.trap x 0x2C 2
    else if q.val < 4 then s.trap x 0x2C
    else
      (s.updWarp x.wid fun w =>
        { w with queues := w.queues.set q.val { w.queues.getD q.val ⟨[], false⟩ with closed := true } }).skip x

end Sys2Proof.Machine
end

