-- ==== Sys2Proof/Machine/Control.lean ====
section
/-! DEFINITION. Clause headers, illegal opcodes and the control instructions, for strands and for front-end contexts (R20-R25,
R39, R60-R67, R218). -/

namespace Sys2Proof.Machine

/-! ## Clause headers (R20-R24) -/

/-- The clause that a header opens, with its units as code memory holds them, or what keeps them from being fetched (R163). -/
def State.openClause (s : State) (core ctx : Nat) (pc : Pc) (h : Header) : Except (Fetched × Nat) Clause :=
  match s.clauseBody core ctx pc (h.cnt.val + 1) with
  | .ok l => .ok ⟨pc, h.cls, h.cnt.val + 1, h.yld, l⟩
  | .error e => .error e

/-- Whether every read of a strand has completed and its loads have landed (R23, R180): what LDRN waits for. -/
def State.loadsDone (s : State) (x : Who) : Bool :=
  !x.st.pends.any Pend.load && ((s.undoneIds x.agent).all fun i => (Tbl.find s.accs i).any fun a => a.kind == .store)

/-- QWAIT (R21). -/
def queuesReady (x : Who) (q : BitVec 8) : Bool :=
  (List.range 8).all fun i => !q.getLsbD i ||
    let u := x.w.queues.getD i ⟨[], false⟩
    if i < 4 then !u.entries.isEmpty else decide (u.entries.length < 16)

/-- The scalars that a synchronisation wait reads (R23). -/
def Header.syncWords (h : Header) (d : Dom) : List Nat := [d.scal h.swk.toNat, d.scal (h.swk.toNat + 1), d.scal h.swg.toNat]

/-- A strand at a clause header: its join, its pending fault, its waits, and then the first word of the clause is next. -/
def State.enterClause (s : State) (x : Who) (h : Header) : State :=
  match s.reachJoin x.wid x.sid with
  | some s => s
  | none =>
    let at_ (t : Trap) : Trap := { t with lanes := x.st.em, atHeader := true }
    if h.cls.val = 7 then s.trapAt x.wid x.sid (at_ { cause := 0x12 })
    else
      match s.openClause x.core x.d.ctx x.st.pc h with
      | .error (.bad c d, _) => s.trapAt x.wid x.sid (at_ { cause := c, addr := pcVa x.st.pc, detail := d })
      | .error (f, va) => s.fetchWait x f va
      | .ok cl =>
        let core := s.core x.core
        let marked := if h.swen then (Header.syncWords h x.d).find? fun a => core.mark a != 0 else none
        let pending := if h.swen then s.pendingOn x.wid x.st.dom h.swk.toNat else none
        match marked, pending with
        | some a, _ => s.trapAt x.wid x.sid (at_ { cause := 0x50, addr := a, detail := core.mark a })
        | none, some t => s.trapPending x h.swk.toNat { t with atHeader := true }
        | none, none =>
          let sync := !h.swen ||
            genReached (syncGen (s.pair x.core x.d h.swk.toNat)) ((s.scalar x.core x.d h.swg.toNat).toNat % 65536)
          if !queuesReady x h.qwait then s.park x.wid x.sid .queue
          else if !sync || (h.ldrn && !s.loadsDone x) || (h.sack && !s.settled x.agent) then s.park x.wid x.sid .header
          else s.updStrand x.wid x.sid fun st =>
            { st with pc := st.pc + 1, clause := some cl, parked := none }

/-- A front-end context at a clause header (R218). -/
def State.feEnterClause (s : State) (x : FeWho) (h : Header) : State :=
  if h.cls.val ≠ 7 ∨ h.qwait ≠ 0 ∨ h.ldrn ∨ h.sack ∨ h.swen ∨ h.yld then s.feStop x.cid { cause := 0x7C }
  else
    match s.openClause x.k.core x.ctx x.f.pc h with
    | .error (.bad c d, _) => s.feStop x.cid { cause := c, addr := pcVa x.f.pc, detail := d }
    | .error (f, va) => s.feFetchWait x f va
    | .ok cl => s.updFe x.cid fun f => { f with pc := f.pc + 1, clause := some cl, stalled := none }

/-- R23. A header is no instruction of a lookahead window (R34). -/
def execClauseHeader (h : Header) (s : State) : Out :=
  byIssuer s
    (match s.who with
      | none => .fault .noIssuer
      | some x => .next (
        if x.st.parked.any fun p => p.1.byEvent then s
        else if x.st.stepArm = 2 then s.trapAt x.wid x.sid { cause := 0x1F, lanes := x.st.em }
        else s.enterClause x h))
    (feIssue s fun x => s.feEnterClause x h)

/-- R39. -/
def execIllegalOpcode (w : Unit64) (s : State) : Out :=
  byIssuer s (issue s fun x => s.trap x 0x10)
    (feIssue s fun x => s.feStop x.cid { cause := if 0x1F8 ≤ Codec.opcode w then 0x10 else 0x7C })

/-! ## Branches (R60-R62) -/

/-- The PC at an offset from the header of the clause. -/
def Strand.relative (st : Strand) (n : Nat) (off : BitVec n) : Pc := st.header + off.signExtend 53
def FrontEnd.relative (f : FrontEnd) (n : Nat) (off : BitVec n) : Pc := f.header + off.signExtend 53

/-- R60. -/
def execBra (t : BitVec 24) (s : State) : Out :=
  byIssuer s
    (issue s fun x =>
      let p := x.st.relative 24 t
      s.targets x [(p, 0)] (s.jump x.wid x.sid p))
    (feIssue s fun x =>
      let p := x.f.relative 24 t
      s.feTargets x [(p, 0)] (s.updFe x.cid fun f => f.jump p))

/-- R62: the whole strand goes one way, or it forks. -/
def State.branch (s : State) (x : Who) (taken : Mask) (f : BrcF) : State :=
  let next := x.st.nextClause
  let t := x.st.relative 24 f.tgt
  let rest := x.st.em &&& ~~~taken
  if taken = 0 then s.jump x.wid x.sid next
  else if rest = 0 then s.targets x [(t, 0)] (s.jump x.wid x.sid t)
  else
    let join := if f.join = 0 then none else some (x.st.relative 20 f.join)
    s.targets x ((t, 0) :: (join.toList.map fun j => (j, 1)))
      (match s.fork x join x.st.rstack.length ⟨rest, next, x.st.rstack⟩ [⟨taken, t, x.st.rstack⟩] true with
        | some s => s
        | none => s.trap x 0x2B 2)

/-- R62, R218. -/
def execBrc (f : BrcF) (s : State) : Out :=
  byIssuer s
    (issue s fun x =>
      match f.cond with
      | .mask m inv => s.branch x (x.st.em &&& if inv then ~~~x.d.mask m else x.d.mask m) f
      | .areg _ _ => s.trap x 0x11)
    (feIssue s fun x =>
      match f.cond with
      | .mask _ _ => s.feStop x.cid { cause := 0x7C }
      | .areg k inv =>
        if f.join ≠ 0 then s.feStop x.cid { cause := 0x7C }
        else s.feReady x [k.val] (
          if (x.reg k.val = 0) = (inv = true) then
            let p := x.f.relative 24 f.tgt
            s.feTargets x [(p, 0)] (s.updFe x.cid fun f => f.jump p)
          else s.updFe x.cid fun f => f.jump x.f.nextClause))

/-! ## Branch tables (R63) -/

/-- Lanes with the entry that each selects, grouped by entry in ascending order. -/
def groupBy (l : List (Nat × Nat)) : List (Nat × Mask) :=
  let entries := sortBy (fun i j => decide (i ≤ j)) (l.map Prod.snd).eraseDups
  entries.map fun e => (e, maskOf ((l.filter fun p => p.2 == e).map Prod.fst))

/-- The units of a branch table at a list of PCs, or what the fetch of the first bad one finds. -/
def State.tableUnits (s : State) (x : Who) (l : List Pc) : Except (Fetched × Nat) (List Unit64) := s.fetchUnits x.core x.d.ctx l

/-- A table unit that cannot be fetched: as a target (R61). -/
def State.tableFault (s : State) (x : Who) (f : Fetched × Nat) : State :=
  match f.1 with
  | .bad c d => s.trap x c d f.2
  | g => s.fetchWait x g f.2

/-- The hidden words of a frame that hold return address number `n` of an entry (R126). -/
def returnWords (d : Dom) (sid n : Nat) : List Nat :=
  if sid < 16 then [d.a0 + 64 * sid + 2 * n, d.a0 + 64 * sid + 2 * n + 1] else []

/-- The topmost return address of a strand has been written, which clears the marks of its words (R319). -/
def State.cleanReturn (s : State) (wid sid : Nat) : State :=
  match s.strandAt wid sid with
  | none => s
  | some x => s.updCore x.core fun c =>
    { c with marks := (returnWords x.d sid (x.st.rstack.length - 1)).foldl (fun m a => Sparse.write 0 m a 0) c.marks }

/-- R63, for `brx` and, with a return address to push, for `callx` (R65). -/
def State.tableBranch (s : State) (x : Who) (f : BrxF) (push : Option Pc) : State :=
  match beginOp s x { srcs := [(f.idx, 1)] } with
  | .halt s => s
  | .go r =>
    let tp := x.st.relative 24 f.off
    match s.tableUnits x [tp] with
    | .error e => s.tableFault x e
    | .ok hd =>
      let t := hd.headD 0
      let n := (t.extractLsb' 0 16).toNat
      let joff : BitVec 20 := t.extractLsb' 16 20
      let lanes := (lanesOf r.em).map fun l => (l, r.val 0 l)
      let past := lanes.filter fun p => decide (n ≤ p.2)
      let groups := groupBy lanes
      if past ≠ [] then s.trapAt x.wid x.sid { cause := 0x14, lanes := maskOf (past.map Prod.fst) }
      else if t.extractLsb' 36 28 ≠ 0 then s.trap x 0x11
      else
        match s.tableUnits x (groups.map fun g => tp + 1 + BitVec.ofNat 53 g.1) with
        | .error e => s.tableFault x e
        | .ok us =>
          if us.any fun u => u.extractLsb' 24 40 != 0 then s.trap x 0x11
          else
            let join : Option Pc := if joff = 0 then none else some (tp + joff.signExtend 53)
            let rstack := match push with
              | some p => p :: x.st.rstack
              | none => x.st.rstack
            let sides := (groups.zip us).map fun g => (⟨g.1.2, tp + (g.2.extractLsb' 0 24).signExtend 53, rstack⟩ : Side)
            let full := push.isSome && decide (32 < rstack.length) && groups != []
            let ends := sides.map fun d => (d.pc, 3)
            let leave (s : State) : State := s.endIfEmpty x.wid x.sid
            match sides with
            | [] =>
              let p := join.getD x.st.nextClause
              s.targets x [(p, if join.isSome then 1 else 0)] (leave (r.commit.jump x.wid x.sid p))
            | [d] =>
              s.targets x ends (if full then s.trap x 0x2B 1
                else
                  let s := (r.commit.jump x.wid x.sid d.pc).updStrand x.wid x.sid fun st => { st with rstack := rstack }
                  leave (if push.isSome then s.cleanReturn x.wid x.sid else s))
            | d :: more =>
              s.targets x (ends ++ join.toList.map fun j => (j, 1))
                (if full then s.trap x 0x2B 1
                else
                  let s' := r.commit
                  match (s'.strandAt x.wid x.sid).bind fun y => s'.fork y join x.st.rstack.length d more false with
                  | some s => if push.isSome then s.cleanReturn x.wid x.sid else s
                  | none => s.trap x 0x2B 2)

/-- R63. -/
def execBrx (f : BrxF) (s : State) : Out :=
  byIssuer s (issue s fun x => s.tableBranch x f none) (feIssue s fun x => s.feStop x.cid { cause := 0x7C })

/-- R63, R65. -/
def execCallx (f : BrxF) (s : State) : Out :=
  byIssuer s (issue s fun x => s.tableBranch x f (some x.st.nextClause)) (feIssue s fun x => s.feStop x.cid { cause := 0x7C })

/-! ## Calls, loops and the end (R60, R64-R66) -/

/-- R60, R65. -/
def execCall (t : BitVec 24) (s : State) : Out :=
  byIssuer s
    (issue s fun x =>
      let p := x.st.relative 24 t
      s.targets x [(p, 0)]
        (if 32 ≤ x.st.rstack.length then s.trap x 0x2B 1
        else
          let s := (s.jump x.wid x.sid p).updStrand x.wid x.sid fun st => { st with rstack := x.st.nextClause :: st.rstack }
          s.cleanReturn x.wid x.sid))
    (feIssue s fun x =>
      let p := x.f.relative 24 t
      s.feTargets x [(p, 0)]
        (if 32 ≤ x.f.rstack.length then s.feStop x.cid { cause := 0x2B, detail := 1 }
        else s.updFe x.cid fun f => { (f.jump p) with rstack := x.f.nextClause :: f.rstack }))

/-- R60, R65. A marked word of the return address is cause 0x50 (R319). -/
def execRet (s : State) : Out :=
  byIssuer s
    (issue s fun x =>
      match x.st.rstack with
      | [] => s.trap x 0x13 2
      | p :: rest =>
        match (returnWords x.d x.sid rest.length).find? fun a => (s.core x.core).mark a != 0 with
        | some a => s.trap x 0x50 ((s.core x.core).mark a) a
        | none => s.targets x [(p, 0)] ((s.jump x.wid x.sid p).updStrand x.wid x.sid fun st => { st with rstack := rest }))
    (feIssue s fun x =>
      match x.f.rstack with
      | [] => s.feStop x.cid { cause := 0x13, detail := 2 }
      | p :: rest => s.feTargets x [(p, 0)] (s.updFe x.cid fun f => { (f.jump p) with rstack := rest }))

/-- R64, R218. -/
def execLoop (f : LoopF) (s : State) : Out :=
  byIssuer s
    (issue s fun x =>
      let k := f.k.toNat
      let v := s.scalar x.core x.d k - 1
      let p := if v = 0 then x.st.nextClause else x.st.relative 24 f.tgt
      let mk := (s.core x.core).mark (x.d.scal k)
      if 48 ≤ k then s.trap x 0x11
      else if s.scalarBusy x.wid x.st.dom k then s.trap x 0x2E 3
      else if mk ≠ 0 then s.trap x 0x50 mk (x.d.scal k)
      else s.targets x (if v = 0 then [] else [(p, 0)]) ((s.setScalar x.core x.d k v).jump x.wid x.sid p))
    (feIssue s fun x =>
      let k := f.k.toNat
      if 32 ≤ k then s.feStop x.cid { cause := 0x7C }
      else
        let v := x.reg k - 1
        let p := if v = 0 then x.f.nextClause else x.f.relative 24 f.tgt
        s.feReady x [k] (s.feTargets x (if v = 0 then [] else [(p, 0)])
          (s.updFe x.cid fun f => { (f.jump p) with regs := f.regs.set k v })))

/-- R66, R111, R338. -/
def execEndl (s : State) : Out :=
  byIssuer s
    (issue s fun x =>
      if x.st.dom ≠ 0 then s.trap x 0xC4 1
      else (s.jump x.wid x.sid x.st.nextClause).dropLanes x.wid x.sid x.st.em)
    (feIssue s fun x => s.feStop x.cid { cause := 0x7C })

end Sys2Proof.Machine
end

