-- ==== Sys2Proof/Machine/Issue.lean ====
section
/-! DEFINITION. What an agent issues when its turn comes: who may issue, what is fetched, and what the decoder reads (R20-R22,
R40, R163, R316, R347). -/

namespace Sys2Proof.Machine

/-- What a turn comes to: a state, or an instruction to execute in a state. -/
inductive Todo where
  | rest (s : State)
  | run (i : Instr) (s : State)
  deriving DecidableEq, Repr

/-! ## Who may issue -/

/-- Whether a strand stands still until a chain of traps ends: the one that it opened, whose handler has been left (R315), or a
sibling's, during which it would have trapped itself (R310); or it is a crew-rung handler that goes no further (R315). -/
def Who.chained (x : Who) : Bool :=
  (x.st.parked.any fun p => p.1 == .handler) && (decide (x.sid = rungSid) || (x.w.doms.any fun p => p.2.trapRec.isSome) ||
    x.w.strands.any fun p => p.2.trapping.isSome)

/-- Whether a strand may issue at all: its contexts run, or are stopping and the strand is inside a clause; its crew is at no
rung, or the strand is the rung's handler, or is still inside its clause as the crew stops; it waits for no chain of traps and has
lanes left; arithmetic is not stopped (R316, R320, R347). -/
def State.mayIssue (s : State) (x : Who) : Bool :=
  let inside := !x.st.stopped
  let may (ctx : Nat) : Bool := (Tbl.find s.ctxs ctx).any fun c => c.run == .running || (c.run == .stopping && inside)
  let crew := match Tbl.find s.crews x.w.crew with
    | none => false
    | some k => may (s.crewCtx k) && match k.rung with
      | none => k.rungQ.isEmpty || inside
      | some r => decide (r.warp = x.wid ∧ r.sid = x.sid)
  s.arith.isNone && crew && !x.chained && may x.d.ctx && !x.st.parked.any fun p => p.1 == .ended

/-- A front-end context stops at an instruction (R316, R347). -/
def State.feMayIssue (s : State) (k : Crew) (f : FrontEnd) : Bool :=
  s.arith.isNone && k.rung.isNone && k.rungQ.isEmpty && f.stopped.isNone &&
    (Tbl.find s.ctxs (s.crewCtx k)).any fun c => c.run == .running

/-! ## Fetching and decoding -/

/-- The cause of a word that is no instruction (R40). -/
def errorCause : Codec.DecodeError → Nat
  | .badHeader => 0x12
  | .controlNotLast => 0x15
  | .crosses => 0x17
  | .reserved => 0x11

/-- What the decoder reads at the PC of a strand inside a clause (R37). -/
def Strand.decoded (st : Strand) (c : Clause) : Except Codec.DecodeError Instr :=
  let u := c.unitAt st.pc
  Codec.decodeWord c.cls u.2.2 u.1 u.2.1

/-- A trap that an instruction word raises at issue (R39, R40). -/
def State.issueTrap (s : State) (cause : Nat) : State :=
  match issue s fun x => s.trap x cause with
  | .next s => s
  | _ => s

/-- What a strand issues. -/
def State.fetchStrand (s : State) (x : Who) : Todo :=
  match x.st.clause with
  | some c =>
    match x.st.decoded c with
    | .ok i => .run i s
    | .error e => .rest (s.issueTrap (errorCause e))
  | none =>
    let trap (t : Trap) : Todo := .rest (s.trapAt x.wid x.sid { t with lanes := x.st.em, atHeader := true })
    if x.st.stepArm = 2 then .rest (s.trap x 0x1F)
    else
      match s.reachJoin x.wid x.sid with
      | some s => .rest s
      | none =>
        match s.fetchUnit x.core x.d.ctx x.st.pc with
        | .bad c d => trap { cause := c, addr := pcVa x.st.pc, detail := d }
        | .unit w =>
          match Codec.decodeHeader w with
          | .ok i => .run i s
          | .error _ => trap { cause := 0x12 }
        | f => .rest (s.fetchWait x f (pcVa x.st.pc))

/-- What a front-end context issues. -/
def State.fetchFe (s : State) (cid : Nat) (k : Crew) (f : FrontEnd) : Todo :=
  match f.clause with
  | some c =>
    let u := c.unitAt f.pc
    match Codec.decodeWord c.cls u.2.2 u.1 u.2.1 with
    | .ok i => .run i s
    | .error .reserved => .rest (s.feStop cid { cause := (Codec.frontEndCause u.1).toNat })
    | .error .crosses => .rest (s.feStop cid { cause := 0x17 })
    | .error _ => .rest (s.feStop cid { cause := 0x7C })
  | none =>
    let ctx := s.crewCtx k
    match s.fetchUnit k.core ctx f.pc with
    | .bad c d => .rest (s.feStop cid { cause := c, addr := pcVa f.pc, detail := d })
    | .unit w =>
      match Codec.decodeHeader w with
      | .ok i => .run i s
      | .error _ => .rest (s.feStop cid { cause := if Codec.isHeader w then 0x7C else 0x12 })
    | u => .rest (s.feFetchWait ⟨cid, k, f, ctx⟩ u (pcVa f.pc))

/-- The turn of a strand that may issue: a trap that waits for its long-latency instructions comes first (R312). -/
def State.strandTurn (s : State) (x : Who) : Todo :=
  match x.st.trapping with
  | some t => .rest (if x.st.pends = [] then s.enterTrap x t else s)
  | none => s.fetchStrand x

/-- The turn of an agent. One that has opened a chain of traps enters the crew rung at its turn, when the crew has stopped. -/
def State.issueTurn (s : State) (a : Agent) : Todo :=
  let s := { s with cur := a }
  match s.who, s.whoFe with
  | some x, _ =>
    if s.mayIssue x then s.strandTurn x
    else .rest (s.openRung x.w.crew fun r => !r.fe && r.warp == x.wid && r.sid == x.sid)
  | none, some (cid, k, f) => if s.feMayIssue k f then s.fetchFe cid k f else .rest (s.openRung cid fun r => r.fe)
  | none, none => .rest s

end Sys2Proof.Machine
end

