-- ==== Sys2Proof/Machine/Lanes.lean ====
section
/-! DEFINITION. Mask instructions (R114) and the cross-lane instructions that stay inside a strand (R115-R119). -/

namespace Sys2Proof.Machine

/-! ## Masks (R114) -/

/-- A mask instruction writes the bits of the lanes in EM. -/
def maskOp (s : State) (d : MReg) (g : Who → Mask) : Out :=
  issue s fun x =>
    match beginOp s x { srcs := [] } with
    | .halt s => s
    | .go r => r.finishMask d (g x)

/-- R114. -/
def execMand (f : MBinF) (s : State) : Out := maskOp s f.d fun x => x.d.mask f.a &&& x.d.mask f.b
/-- R114. -/
def execMor (f : MBinF) (s : State) : Out := maskOp s f.d fun x => x.d.mask f.a ||| x.d.mask f.b
/-- R114. -/
def execMxor (f : MBinF) (s : State) : Out := maskOp s f.d fun x => x.d.mask f.a ^^^ x.d.mask f.b
/-- R114. -/
def execMnot (f : MUnF) (s : State) : Out := maskOp s f.d fun x => ~~~x.d.mask f.a

/-- An instruction on a mask whose result is one word for every lane of EM (R9). -/
def uniformOp (s : State) (d : Opnd) (g : Who → Word) : Out :=
  issue s fun x =>
    match beginOp s x { srcs := [], dst := some (d, 1), masked := true } with
    | .halt s => s
    | .go r => r.finish r.em fun _ => [g x]

/-- R114: the 1 bits of A in lanes 0 to W - 1. -/
def execMpop (f : MCntF) (s : State) : Out :=
  uniformOp s f.d fun x => BitVec.ofNat 32 (lanesOf (x.d.mask f.a &&& fullMask x.width)).length
/-- R114: the lowest lane whose bit of A is 1. -/
def execMffs (f : MCntF) (s : State) : Out :=
  uniformOp s f.d fun x =>
    match lowLane (x.d.mask f.a &&& fullMask x.width) with
    | some l => BitVec.ofNat 32 l
    | none => 0xFFFFFFFF

/-- R114: all W bits of the destination become EM. -/
def execEmget (d : MReg) (s : State) : Out :=
  issue s fun x =>
    (s.updDom x.wid x.st.dom fun k => k.setMask d ((k.mask d &&& ~~~fullMask x.width) ||| (x.st.em &&& fullMask x.width))).skip x

/-- R114: EM := A AND membership. -/
def execEmset (a : MReg) (s : State) : Out :=
  issue s fun x => (s.skip x).updStrand x.wid x.sid fun st => { st with em := x.d.mask a &&& st.mem }

/-! ## Cross-lane instructions (R115-R119) -/

/-- A cross-lane instruction with its participants P as the lanes that go on (R115). -/
def laneOp (s : State) (mem : Members) (d : OpD) (k : Ready → State) (acc : Ready → Nat → OwnAcc := fun _ _ => OwnAcc.none) : Out :=
  issue s fun x =>
    match beginOp s x d acc (participants x x.st.em mem) with
    | .halt s => s
    | .go r => k r

/-- A number as one word. -/
def word1 (n : Nat) : List Word := [BitVec.ofNat 32 n]
/-- A mask as two words, the low one first (R10). -/
def maskWords (m : Mask) : List Word := [m.extractLsb' 0 32, m.extractLsb' 32 32]
/-- A truth value as a word. -/
def wordIf (b : Bool) : List Word := if b then [1] else [0]

/-- R117: the result of `vote` from the participants and the predicate's lanes among them. -/
def voteV (mode : VoteMode) (p t : Mask) : List Word :=
  match mode with
  | .mask => maskWords t
  | .count => word1 (lanesOf t).length
  | .every => wordIf (t == p)
  | .some => wordIf (t != 0)
  | .same => wordIf (t == p || t == 0)

/-- R117. -/
def execVote (f : VoteF) (s : State) : Out :=
  laneOp s f.mem { srcs := [], dst := some (f.d, if f.mode = .mask then 2 else 1), masked := true } fun r =>
    r.finish r.em fun _ => voteV f.mode r.em (r.em &&& r.x.d.mask f.p)

/-- R117: the source lane of `shfl`, an integer that does not wrap. -/
def shflLane (mode : ShflMode) (l b : Nat) : Int :=
  match mode with
  | .idx => b
  | .up => (l : Int) - b
  | .down => (l : Int) + b
  | .xor => ((l ^^^ b : Nat) : Int)

/-- The words of source i of lane l. -/
def Ready.wordsAt (r : Ready) (i n l : Nat) : List Word := (List.range n).map fun j => r.word i j l

/-- R117: A of lane j where j takes part, else the fill C of lane l. -/
def Ready.pick (r : Ready) (n : Nat) (l : Nat) (j : Int) : List Word :=
  if 0 ≤ j ∧ j < r.x.width ∧ r.em.getLsbD j.toNat then r.wordsAt 0 n j.toNat else r.wordsAt 2 n l

/-- R117. -/
def execShfl (f : ShflF) (s : State) : Out :=
  let n := tyWords f.ty
  laneOp s f.mem { srcs := [(f.a, n), (f.b, 1), (f.c, n)], dst := some (f.d, n) } fun r =>
    r.finish r.em fun l => r.pick n l (shflLane f.mode l (r.val 1 l))

/-- R117, R116: B is taken once, from the lowest participant, and only that lane's word is consumed. -/
def execBcast (f : BcastF) (s : State) : Out :=
  let n := tyWords f.ty
  laneOp s f.mem { srcs := [(f.a, n), (f.b, 1), (f.c, n)], dst := some (f.d, n), carry := [1] }
    (fun r => r.finish r.em fun l => r.pick n l (r.val 1 r.low))
    (fun r l => if l = r.low then ⟨false, srcAddrs r.x f.b 1 l, []⟩ else OwnAcc.none)

/-- R118: one integer step of a fold. -/
def foldInt (op : FoldOp) (t : Ty) (a b : Nat) : Nat :=
  match op with
  | .add => (iadd t false a b).val
  | .min => (iminOf t a b).val
  | .max => (imaxOf t a b).val
  | .and => a &&& b
  | .or => a ||| b
  | .xor => a ^^^ b

/-- R118: one floating step of an element's fold. -/
def foldFp (op : FoldOp) (f : FFmt) (a b : Nat) : FRes :=
  match op with
  | .min => fminV f false (fdec f a) (fdec f b)
  | .max => fminV f true (fdec f a) (fdec f b)
  | _ => faddV f .rne (fdec f a) (fdec f b)

/-- R118: one step of a fold. -/
def foldStep (op : FoldOp) (t : Ty) (a : FRes) (b : Nat) : FRes :=
  if t.fp then
    let q := perElem t fun i => foldFp op (fmtOf t) (elem t a.val i) (elem t b i)
    ⟨q.val, a.flags ||| q.flags⟩
  else ⟨foldInt op t a.val b, 0⟩

/-- R118: the fold of A over a list of lanes in its order. -/
def Ready.fold (r : Ready) (op : FoldOp) (t : Ty) : List Nat → FRes
  | [] => ⟨0, 0⟩
  | p :: ps => ps.foldl (fun a l => foldStep op t a (r.val 0 l)) ⟨r.val 0 p, 0⟩

/-- R118: the flags of any step count for every participant. -/
def foldOp (f : FoldF) (g : Ready → Nat → FRes) (s : State) : Out :=
  let n := tyWords f.ty
  laneOp s f.mem { srcs := [(f.a, n)], dst := some (f.d, n) } fun r =>
    completeFp r (fun _ => (r.fold f.op f.ty (lanesOf r.em)).flags) fun bits =>
      r.finish r.em (fun l => wordsOf n (g r l).val) bits

/-- R118: the fold over the participants at or below the lane. -/
def execScan (f : FoldF) (s : State) : Out :=
  foldOp f (fun r l => r.fold f.op f.ty ((lanesOf r.em).filter fun k => decide (k ≤ l))) s
/-- R118: the fold over all participants. -/
def execRedux (f : FoldF) (s : State) : Out :=
  foldOp f (fun r _ => r.fold f.op f.ty (lanesOf r.em)) s

/-! ### `csamp` (R119) -/

/-- A weight as it counts, and whether it raises IV: NaN, negative numbers and −0 count as +0, and −0 raises nothing. -/
def csampWeight (w : Nat) : Nat × Bool :=
  match fdec f32 w with
  | .nan .. => (0, true)
  | .inf n => if n then (0, true) else (w, false)
  | .num n m _ => if m = 0 then (0, false) else if n then (0, true) else (w, false)

/-- The running sums, with the flags of the additions. -/
def csampSums : List (Nat × Nat) → Nat → Nat → List (Nat × Nat) × Nat
  | [], _, fl => ([], fl)
  | (l, w) :: t, sum, fl =>
    let q := faddV f32 .rne (fdec f32 sum) (fdec f32 w)
    let (ps, fl') := csampSums t q.val (fl ||| q.flags)
    ((l, q.val) :: ps, fl')

/-- The lane drawn, from the running sums in lane order. -/
def csampDraw (ps : List (Nat × Nat)) (rw : Nat) : Nat :=
  match (ps.getLast?).map fun p => fdec f32 p.2 with
  | none => 2 ^ 32 - 1
  | some (.nan ..) => 2 ^ 32 - 1
  | some (.inf _) => ((ps.find? fun p => match fdec f32 p.2 with | .inf _ => true | _ => false).map Prod.fst).getD 0
  | some (.num _ m e) =>
    if m = 0 then 2 ^ 32 - 1
    else
      ((ps.find? fun p => match fdec f32 p.2 with
        | .num _ m' e' => fless true (.num false (m * rw) (e - 32)) (.num false m' e')
        | _ => true).map Prod.fst).getD 0

/-- R119, R116: the random word is B of the lowest participant. -/
def execCsamp (f : CsampF) (s : State) : Out :=
  laneOp s f.mem { srcs := [(f.a, 1), (f.b, 1)], dst := some (f.d, 1), carry := [1] }
    (fun r =>
      let ws := (lanesOf r.em).map fun l => (l, csampWeight (r.val 0 l))
      let (ps, fl) := csampSums (ws.map fun p => (p.1, p.2.1)) 0 0
      completeFp r (fun l => fl ||| if ws.any fun p => p.1 == l && p.2.2 then fIV else 0) fun bits =>
        r.finish r.em (fun _ => word1 (csampDraw ps (r.val 1 r.low))) bits)
    (fun r l => if l = r.low then ⟨false, srcAddrs r.x f.b 1 l, []⟩ else OwnAcc.none)

/-- R119. -/
def execMatchx (f : MatchF) (s : State) : Out :=
  let n := tyWords f.ty
  laneOp s f.mem { srcs := [(f.a, n)], dst := some (f.d, 2) } fun r =>
    r.finish r.em fun l => maskWords (maskWhere r.em fun k => r.val 0 k == r.val 0 l)

/-! ### Planar forms (R119, R82) -/

/-- The lanes of the slices that hold a lane of EM. -/
def slicesOf (em : Mask) : List Nat := (List.range 16).filter fun q => em.extractLsb' (4 * q) 4 != 0

/-- R119: `plpk` and `plunpk` read all four lanes of a slice; `n` source registers, `m` results per lane. -/
def planOp (s : State) (f : PlanF) (n m : Nat) (g : Ready → Nat → List Word) : Out :=
  issue s fun x =>
    let others (l : Nat) : List Nat := (List.range 4).flatMap fun i => srcAddrs x f.a n (l / 4 * 4 + i)
    match beginOp s x { srcs := [(f.a, n)], dst := some (f.d, m) } (fun _ l => ⟨false, others l, []⟩) with
    | .halt s => s
    | .go r => r.finish r.em (g r)

/-- The word of register A + k in lane l. -/
def Ready.planSrc (r : Ready) (k l : Nat) : Word := srcWord r.s r.x [] (r.d.srcs.headD (.zero, 0)).1 16 k l

/-- Element j of the slice of lane l: the low b bits of register A + k in lane q, with j = 16 q + k. -/
def Ready.planElem (r : Ready) (l j : Nat) : Word := r.planSrc (j % 16) (l / 4 * 4 + j / 16)

/-- A word made of 32 bits. -/
def wordOfBits (f : Nat → Bool) : Word := BitVec.ofNat 32 ((List.range 32).foldl (fun n i => if f i then n + 2 ^ i else n) 0)

/-- R119, R73: plane i goes to register DST + i div 2, its halves to two lanes. -/
def execPlpk (f : PlanF) (s : State) : Out :=
  let b := f.b1.val + 1
  planOp s f 16 ((b + 1) / 2) fun r l =>
    (List.range ((b + 1) / 2)).map fun p =>
      let i := 2 * p + l % 4 / 2
      if i < b then wordOfBits fun k => (r.planElem l (32 * (l % 2) + k)).getLsbD i else 0

/-- Bit j of plane i of the slice of lane l, read from the planar registers. -/
def Ready.planBit (r : Ready) (l i j : Nat) : Bool := (r.planSrc (i / 2) (l / 4 * 4 + 2 * (i % 2) + j / 32)).getLsbD (j % 32)

/-- R119: the inverse of `plpk`. -/
def execPlunpk (f : PlanF) (s : State) : Out :=
  let b := f.b1.val + 1
  planOp s f ((b + 1) / 2) 16 fun r l =>
    (List.range 16).map fun k => wordOfBits fun i => decide (i < b) && r.planBit l i (16 * (l % 4) + k)

end Sys2Proof.Machine
end

