-- ==== Sys2Proof/Machine/Gang.lean ====
section
/-! DEFINITION. What warps do together: `xch` (R120), barriers (R121-R123) and `rrot` (R149). -/

namespace Sys2Proof.Machine

/-- A field of a launch descriptor (R273). -/
def dfield (d : BitVec 1024) (hi lo : Nat) : Nat := (d.extractLsb' lo (hi + 1 - lo)).toNat

/-- The crew and launch of a warp. -/
def State.crewOf (s : State) (w : Warp) : Option Crew := Tbl.find s.crews w.crew
def State.launchOf (s : State) (w : Warp) : Option Launch := (s.crewOf w).bind fun c => Tbl.find s.launches c.launch
/-- The descriptor of a crew: its launch's, or its stage's (R287). -/
def State.descOf (s : State) (c : Crew) : BitVec 1024 :=
  match Tbl.find s.launches c.launch with
  | none => 0
  | some l => match c.stage with
    | none => l.desc
    | some i => (l.stages[i]?.map Stage.desc).getD 0

/-- The crews of a span or a braid that have not ended, in ascending order. -/
def State.crewsWith (s : State) (p : Crew → Bool) : List (Nat × Crew) := s.crews.filter fun q => p q.2

/-! ## `xch` (R120) -/

/-- A long-latency instruction issues from state s with its results known. -/
def Ready.launchIn (r : Ready) (s : State) (la : Nat) (m : Mask) (res : Nat → List Word) : State := { r with s := s }.launch la m res

/-- The partner of a warp: none where it is not resident, and an error where its cluster is not one of the span's. -/
def State.xchPartner (s : State) (wid : Nat) (w : Warp) : Except Nat (Nat × Warp) :=
  match s.crewOf w with
  | none => .error 0x30
  | some c =>
    let mates := s.crewsWith fun q => q.span == c.span
    let clus := clusOf (coreOf wid) ^^^ dfield (s.descOf c) 417 411
    if 72 ≤ clus ∨ !c.clusters.contains clus then .error 0x34
    else
      match (mates.flatMap fun q => if clusOf q.2.core == clus then q.2.warps else []).findSome? fun i =>
          match Tbl.find s.warps i with
          | some v => if v.cinb = w.cinb ∧ v.winc = w.winc ∧ ¬v.ended then some (i, v) else none
          | none => none with
      | some p => .ok p
      | none => .error 0x30

def State.setArr (s : State) (wid : Nat) (a : Option XchArr) : State := s.updWarp wid fun w => { w with xchArr := a }

/-- A rendezvous that fails: the strand's arrival is withdrawn and it traps. -/
def State.xchFail (s : State) (wid sid cause : Nat) : State :=
  match s.strandAt wid sid with
  | none => s.setArr wid none
  | some x => (s.setArr wid none).trap x cause

/-- The operands of an `xch`. -/
def xchOps (wide : Bool) (d a : Opnd) : OpD :=
  let n := if wide then 2 else 1
  { srcs := [(a, n)], dst := some (d, n) }

/-- Both sides issue (R120): the lanes in both EMs receive the partner's A, read at issue. -/
def State.xchMeet (s : State) (r q : Ready) (la la' n : Nat) : State :=
  let m := r.em &&& q.em &&& fullMask r.x.width
  let mine (l : Nat) : List Word := r.wordsAt 0 n l
  let theirs (l : Nat) : List Word := q.wordsAt 0 n l
  let s := r.launchIn s la m theirs
  let s := if q.x.wid = r.x.wid then s else q.launchIn s la' m mine
  let done (s : State) (wid : Nat) : State := s.updWarp wid fun w => { w with xchDone := w.xchDone + 1, xchArr := none }
  let s := done s r.x.wid
  if q.x.wid = r.x.wid then s else done s q.x.wid

/-- R120: checks, the wait for the partner, and the exchange. -/
def execXch (f : XchF) (s : State) : Out :=
  issue s fun x =>
    if x.st.dom ≠ 0 then s.trap x 0xC0 2
    else if x.w.xchArr.any fun a => a.sid != x.sid then s.park x.wid x.sid .xch
    else
      let wide := f.ty.wide
      let n := tyWords f.ty
      match beginOp s x (xchOps wide f.d f.a) with
      | .halt s => s
      | .go r =>
        match s.xchPartner x.wid x.w with
        | .error c => s.xchFail x.wid x.sid c
        | .ok (pid, pw) =>
          if pid = x.wid then s.xchMeet r r f.la.toNat 0 n
          else
            let since := (x.w.xchArr.map XchArr.since).getD s.time
            let here := s.setArr x.wid (some ⟨x.sid, since, wide, f.d, f.a, f.la.toNat⟩)
            match pw.xchArr.bind fun a => (s.strandAt pid a.sid).map fun y => (a, y) with
            | none => here.park x.wid x.sid .xch
            | some (a, y) =>
              if pw.wlog ≠ x.w.wlog ∨ a.wide ≠ wide then (s.xchFail x.wid x.sid 0x31).xchFail pid a.sid 0x31
              else
                match beginOp s y (xchOps a.wide a.d a.a) with
                | .halt _ => here.park x.wid x.sid .xch
                | .go q => s.xchMeet r q f.la.toNat a.la n

/-- A warp whose partner has not arrived within 14,000 cycles (R120). -/
def execXchDeadline (wid : Nat) (s : State) : Out :=
  .next (
    match (Tbl.find s.warps wid).bind Warp.xchArr with
    | some a =>
      if a.since + 14000 ≤ s.time ∧ (s.strandAt wid a.sid).all s.strandAwake then s.xchFail wid a.sid 0x35 else s
    | none => s)

/-! ## Barriers (R121-R123) -/

/-- The kind that a barrier acts as: `bar.ss` is `bar.span` outside superstep mode (R123). -/
def barKindOf (superstep : Bool) (k : BarKind) : BarKind := if k = .ss ∧ ¬superstep then .span else k

/-- The crews of the unit of a barrier kind (R121). -/
def State.barUnit (s : State) (cid : Nat) (c : Crew) (k : BarKind) : List (Nat × Crew) :=
  match k with
  | .crew => [(cid, c)]
  | .braid => s.crewsWith fun q => q.braid == c.braid
  | _ => s.crewsWith fun q => q.span == c.span

/-- Whether a warp has arrived at a barrier (R122): it has ended, or every live strand is parked at a `bar` of the kind, and
its accesses are performed (R184). -/
def State.arrived (s : State) (wid : Nat) (w : Warp) (ss : Bool) (k : BarKind) : Bool :=
  w.ended ||
  (w.deferred.isEmpty && !w.strands.isEmpty &&
    (w.strands.all fun p => (match p.2.parked with
      | some (.bar j, _) => barKindOf ss j == k
      | _ => false) && (s.undoneIds (.strand wid p.1)).isEmpty) &&
    w.asides.all fun a => match a.wait with
      | .bar j => barKindOf ss j == k
      | _ => false)

/-- The splits that enclose a split, from itself outward. -/
def splitChain (sp : Tbl Split) : Nat → Option Nat → List Nat
  | 0, _ => []
  | _ + 1, none => []
  | n + 1, some i => i :: splitChain sp n ((Tbl.find sp i).bind Split.parent)

/-- The split that strands fused at a barrier descend from: the innermost one common to them, or its parent where no other
strand descends from it (R105, R122). -/
def Warp.commonSplit (w : Warp) (ids : List Nat) (more : List (Option Nat)) : Option Nat :=
  let own := (ids.filterMap fun i => (Tbl.find w.strands i).map Strand.split) ++ more
  let chains := own.map fun o => splitChain w.splits 64 o
  match own with
  | [_] => own.headD none
  | _ =>
    match (chains.headD []).find? fun i => chains.all fun c => c.contains i with
    | none => none
    | some i =>
      let others := w.strands.any fun p => !ids.contains p.1 && splitBelow w.splits 64 p.2.split i
      if others then some i else (Tbl.find w.splits i).bind Split.parent

/-- The instruction after a `bar`, in its clause (R122). -/
def afterBar (pc : Pc) (c : Option Clause) : Pc × Option Clause :=
  let p := pc + 1
  (p, match c with
    | some k => if (p - k.hdr).toNat ≤ k.cnt then some k else none
    | none => none)

/-- A wait at a barrier. -/
def Wait.isBar : Wait → Bool
  | .bar _ => true
  | _ => false

/-- The release of a barrier at one warp (R122): strands at one `bar` with one return-stack depth fuse, with the lanes set aside
there; every strand goes on; lanes set aside at another `bar` become a record again. -/
def State.releaseWarp (s : State) (wid : Nat) : State :=
  match Tbl.find s.warps wid with
  | none => s
  | some w =>
    let keys := (w.strands.filterMap fun p => match p.2.parked with
      | some (.bar _, _) => some (p.2.pc, p.2.rstack.length)
      | _ => none).eraseDups
    let step (s : State) (key : Pc × Nat) : State :=
      match Tbl.find s.warps wid with
      | none => s
      | some w =>
        let ids := w.strands.filterMap fun p =>
          if (p.2.pc, p.2.rstack.length) = key ∧ p.2.parked.any (fun q => q.1.isBar) then some p.1 else none
        let here (a : Aside) : Bool := a.wait.isBar && (a.pc, a.rstack.length) == key
        let mates := w.asides.filter here
        let split := w.commonSplit ids (mates.map Aside.split)
        let s := s.fuse wid ids (mates.map fun a => (a.em, a.mem)) fun st => { (st.advance 1) with split := split }
        s.updWarp wid fun w => { w with asides := w.asides.filter fun a => !here a }
    let s := keys.foldl step s
    s.updWarp wid fun w =>
      -- an entry that fused has handed its lanes set aside to the entry that remains
      let back := w.asides.filter fun a => a.wait.isBar
      { w with
        asides := w.asides.filter fun a => !a.wait.isBar
        deferred := (back.map fun a =>
          let (pc, c) := afterBar a.pc a.clause
          (⟨a.holder, pc, c, a.em, a.mem, a.split, a.rstack, a.dom⟩ : Deferred)) ++ w.deferred }

/-- R121, R122: the strand parks, whatever its EM; in a callee the instruction is refused (R338). -/
def execBar (k : BarKind) (s : State) : Out :=
  issue s fun x => if x.st.dom ≠ 0 then s.trap x 0xC0 2 else s.parkAside x.wid x.sid (.bar k)

/-- Whether everything that a span issued has been delivered (R123): window writes, copies and exchanges. -/
def State.spanQuiet (s : State) (span : Nat) : Bool :=
  let wids := (s.crewsWith fun c => c.span == span).flatMap fun q => q.2.warps
  (s.wreqs.all fun q => q.2.span != span) && (s.cmds.all fun q => !wids.contains q.2.wid) &&
  wids.all fun i => (Tbl.find s.warps i).all fun w => w.strands.all fun p => p.2.pends.isEmpty

/-- A barrier releases once every warp of its unit has arrived (R122); a `bar.ss` of a span in superstep mode ends its step, a
communication step only when all it issued has been delivered (R123). -/
def execBarrierRelease (wid : Nat) (k : BarKind) (s : State) : Out :=
  .next (
    match (Tbl.find s.warps wid).bind fun w => (s.crewOf w).map fun c => (w.crew, c) with
    | none => s
    | some (cid, c) =>
      let k := barKindOf c.superstep k
      let unit := s.barUnit cid c k
      let wids := unit.flatMap fun q => q.2.warps
      let ready := wids.all fun i => (Tbl.find s.warps i).all fun w => s.arrived i w c.superstep k
      let someone := wids.any fun i => (Tbl.find s.warps i).any fun w => !w.ended
      if !ready || !someone || unit.any (fun q => q.2.rung.isSome || !q.2.rungQ.isEmpty) then s
      else if k = .ss ∧ c.comm ∧ ¬s.spanQuiet c.span then s
      else
        let s := wids.foldl State.releaseWarp s
        if k = .ss then
          { s with crews := Tbl.mapVals s.crews fun _ q => if q.span = c.span then { q with comm := !q.comm } else q }
        else s)

/-- The cause of a barrier that times out (R122). -/
def barCause : BarKind → Nat
  | .crew => 0xAC
  | .braid => 0xAD
  | _ => 0xAE

/-- A strand parked at a barrier for 2^24 cycles traps at its `bar` (R122). -/
def execBarrierTimeout (a : Agent) (s : State) : Out :=
  .next (
    match a with
    | .strand wid sid =>
      match s.strandAt wid sid with
      | none => s
      | some x =>
        match x.st.parked with
        | some (.bar k, t) => if t + 2 ^ 24 ≤ s.time ∧ s.strandAwake x then s.trap x (barCause k) else s
        | _ => s
    | _ => s)

/-! ## `rrot` (R149) -/

def State.setRrot (s : State) (cid : Nat) (a : Option RrotArr) : State := s.updCrew cid fun c => { c with rrotArr := a }

/-- The warp 0 of a crew. -/
def Crew.warp0 (c : Crew) : Nat := c.warps.headD 0

/-- Every crew of a list that has arrived and not passed takes a cause (R149). -/
def State.rrotFail (s : State) (l : List (Nat × Crew)) (cause : Nat) : State :=
  l.foldl (fun s q =>
    match q.2.rrotArr with
    | some a =>
      if a.going then s
      else match s.strandAt q.2.warp0 a.sid with
        | some y => (s.setRrot q.1 none).trap y cause
        | none => s.setRrot q.1 none
    | none => s) s

/-- The tile that a crew's `rrot` names. -/
def Crew.rrotTile (c : Crew) : Option Tile := c.rrotArr.bind fun a => Tbl.find c.tiles a.tile

/-- The rendezvous of a braid (R149, R125): each tile goes to the engine side with writes pending, and its contents are on their
way to the next crew. -/
def State.rrotMeet (s : State) (l : List (Nat × Crew)) : State :=
  let cinb (c : Crew) : Nat := ((Tbl.find s.warps c.warp0).map Warp.cinb).getD 0
  let from_ (c : Crew) : Option Crew := (l.find? fun q => (cinb q.2 + 1) % l.length == cinb c).map Prod.snd
  let plan := l.filterMap fun q =>
    match q.2.rrotArr, from_ q.2 with
    | some a, some src => (src.rrotTile).map fun t =>
      let k := s.core src.core
      (q.1, q.2, a, (List.range t.words).map (fun i => (k.word (t.word i), k.mark (t.word i))),
        (List.range t.granules).map fun i => (k.gran (t.gran + i)).val)
    | _, _ => none
  plan.foldl (fun s p =>
    let (cid, c, a, data, vals) := p
    let (n, s) := s.fresh
    let s := match c.rrotTile with
      | some t => s.updCore c.core fun k => k.updGrans t.gran t.granules fun g => { g with own := true, inf := true }
      | none => s
    let s := s.advance c.warp0 a.sid 1
    let s := s.updStrand c.warp0 a.sid fun st => { st with pends := st.pends ++ [⟨n, a.la, [], none, 0, false, false, true, 0⟩] }
    s.setRrot cid (some { a with going := true, pend := n, data := data, vals := vals })) s

/-- R149. `rrot` ignores EM. -/
def execRrot (f : RrotF) (s : State) : Out :=
  issue s fun x =>
    match s.crewOf x.w with
    | none => s
    | some c =>
      if x.st.dom ≠ 0 then s.trap x 0xC0 2
      else if x.w.winc ≠ 0 then s.trap x 0x33
      else if c.rrotArr.any fun a => a.sid != x.sid || a.going then s.park x.wid x.sid .rrot
      else
        match Tbl.find c.tiles f.tile.val with
        | none => (s.setRrot x.w.crew none).trap x 0x29
        | some t =>
          if (List.range t.granules).any fun i => ((s.core x.core).gran (t.gran + i)).own then
            (s.setRrot x.w.crew none).trap x 0x2F 2
          else
            let since := (c.rrotArr.map RrotArr.since).getD s.time
            let s := s.setRrot x.w.crew (some ⟨x.sid, f.tile.val, since, f.la.toNat, false, 0, [], []⟩)
            let mates := s.crewsWith fun q => q.braid == c.braid
            if mates.length ≠ dfield (s.descOf c) 424 422 + 1 then s.rrotFail mates 0x33
            else if !mates.all fun q => q.2.rrotArr.any fun a => !a.going then s.park x.wid x.sid .rrot
            else if mates.any fun q => (q.2.rrotTile.map fun u => (u.rows, u.cols, u.esz)) != some (t.rows, t.cols, t.esz) then
              s.rrotFail mates 0x32
            else s.rrotMeet mates

/-- Crews that have waited 14,000 cycles after the first arrival without all having arrived (R149). -/
def execRrotDeadline (cid : Nat) (s : State) : Out :=
  .next (
    match Tbl.find s.crews cid with
    | none => s
    | some c =>
      let mates := s.crewsWith fun q => q.braid == c.braid
      let late := mates.any fun q => q.2.rrotArr.any fun a => !a.going && decide (a.since + 14000 ≤ s.time)
      if late && s.awake (s.crewCtx c) then s.rrotFail mates 0x35 else s)

/-- A crew's own tile has been received and flips (R149, R125). -/
def execRrotCompletion (cid : Nat) (s : State) : Out :=
  .next (
    match Tbl.find s.crews cid with
    | none => s
    | some c =>
      match c.rrotArr, c.rrotTile with
      | some a, some t =>
        if !a.going then s
        else
          let s := s.updCore c.core fun k =>
            let k := (a.data.zipIdx).foldl (fun k p => k.landWord (t.word p.2) p.1.1 p.1.2) k
            (a.vals.zipIdx).foldl (fun k p => k.setGran (t.gran + p.2) ⟨false, false, p.1, true⟩) k
          let s := s.updWarp c.warp0 fun w =>
            { w with strands := Tbl.mapVals w.strands fun _ st => { st with pends := st.pends.filter fun p => p.id != a.pend } }
          s.updCrew cid fun c => { c with rrotArr := none, rrotDone := c.rrotDone + 1 }
      | _, _ => s)

end Sys2Proof.Machine
end

