-- ==== Sys2Proof/Machine/Crews.lean ====
section
/-! DEFINITION. Crews as wholes: how one is ended before its strands end (R276, R323), and what a kill does to the calls of its
warps (R343). -/

namespace Sys2Proof.Machine

/-- Whether an agent belongs to a crew. -/
def Agent.inCrew (cid : Nat) (k : Crew) : Agent → Bool
  | .strand w _ => k.warps.contains w
  | .fe c => c == cid
  | .nobody => false

/-- Loads and waits that nobody receives any more are dropped; stores and atomics in flight go on. -/
def State.dropReads (s : State) (p : Agent → Bool) : State :=
  let gone (a : Access) : Bool := p a.agent && (match a.kind with
    | .load | .waita _ => true
    | _ => false)
  let ids := (s.accs.filter fun q => gone q.2).map Prod.fst
  { s with
    accs := s.accs.filter fun q => !ids.contains q.1
    waiters := s.waiters.filter fun w => !ids.contains w.acc
    wreqs := s.wreqs.filter fun q => !(p q.2.agent && !q.2.write)
    walks := s.walks.filter fun q => !p q.2.agent
    ringWaits := s.ringWaits.filter fun r => !p r.agent
    faults := s.faults.filter fun f => match f.who with
      | .access i => !ids.contains i
      | .agent a => !p a
      | _ => true }

/-- Ends every strand of a warp at once; callee frames are scrubbed and freed first (R343, R346). -/
def State.haltWarp (s : State) (wid : Nat) : State :=
  match Tbl.find s.warps wid with
  | none => s
  | some w =>
    let s := ((Tbl.keys w.doms).filter (· != 0)).foldl (fun s d => s.scrubCallee wid d) s
    s.updWarp wid fun w =>
      { w with strands := [], deferred := [], asides := [], splits := [], xchArr := none, pfaults := [], ended := true }

/-- Ends a crew as faulted with a cause (R276, R323), or as killed: its strands stop for good, its front-end context stops, and
what remains of it is left to its engine commands (R111). -/
def State.haltCrew (s : State) (cid : Nat) (faulted : Option Nat) (killed : Bool) : State :=
  match Tbl.find s.crews cid with
  | none => s
  | some k =>
    let s := s.dropReads fun a => Agent.inCrew cid k a
    let s := { s with wdReqs := s.wdReqs.filter fun r => !k.warps.contains r.wid }
    let s := k.warps.foldl State.haltWarp s
    s.updCrew cid fun k =>
      { k with
        fe := k.fe.map fun f => { f with stopped := some (f.stopped.getD { cause := 0 }), stalled := none }
        rung := none
        rungQ := []
        rrotArr := if k.rrotArr.any RrotArr.going then k.rrotArr else none
        faulted := match k.faulted with
          | some c => some c
          | none => faulted
        killed := k.killed || killed }

end Sys2Proof.Machine
end

