-- ==== Sys2Proof/Machine/Engine.lean ====
section
/-! DEFINITION. Engine commands: their checks at issue, their acceptance, and how they meet memory and the granules (R196-R203,
R319, R320, R367). -/

namespace Sys2Proof.Machine

/-! ## The issuer -/

/-- The issuer of a class 4 command: its agent, and the warp and domain that the command's scalars, tiles and records belong to
(R196, R222). -/
structure Iss where
  (agent : Agent) (wid dn core ctx : Nat) (w : Warp) (d : Dom)
  deriving DecidableEq, Repr

/-- Whether a front-end context issues the command. -/
def Iss.fe (i : Iss) : Bool := match i.agent with
  | .fe _ => true
  | _ => false

/-- The issuer of a command that a warp executes. -/
def Who.iss (x : Who) : Iss := ⟨x.agent, x.wid, x.st.dom, x.core, x.d.ctx, x.w, x.d⟩

/-- A scalar of the issuer. -/
def State.isc (s : State) (i : Iss) (k : Nat) : Nat := (s.scalar i.core i.d k).toNat
/-- A record of the issuer. -/
def State.ircd (s : State) (i : Iss) (k : Nat) : Rcd := (s.recsOf i.w i.dn).getD k 0
/-- A tile of the issuer. -/
def State.itile (s : State) (i : Iss) (t : Nat) : Option Tile := (s.tileAt i.w 8 i.dn t).map fun p => p.2.2

/-! ## Ends in registers (R205) -/

/-- A register end: the word address of its area, the area's words, and the byte offset at which it starts. -/
structure RegEnd where
  (base words off : Nat)
  deriving DecidableEq, Repr

/-- The vector area of a frame of width W. -/
def frameEnd (d : Dom) (width off : Nat) : RegEnd := ⟨d.a0 + 1152, d.fv * width, off⟩
def tileEnd (t : Tile) (off : Nat) : RegEnd := ⟨t.word 0, t.words, off⟩

/-- The granules that bytes [a, a + n) of an area touch, as far as they lie in it. -/
def RegEnd.span (e : RegEnd) (a : Int) (n : Nat) : List Nat :=
  let lo := (max 0 a).toNat
  let hi := (min (a + n) (4 * e.words : Nat)).toNat
  if hi ≤ lo then []
  else (List.range ((e.base + (hi - 1) / 4) / 128 + 1 - (e.base + lo / 4) / 128)).map fun i => (e.base + lo / 4) / 128 + i

/-- The granules of `nr` rows of `rb` bytes at a pitch. -/
def RegEnd.grans (e : RegEnd) (pitch : Int) (rb nr : Nat) : List Nat :=
  ((List.range (min nr 65536)).flatMap fun (r : Nat) => e.span ((e.off : Int) + r * pitch) rb).eraseDups

/-- The lowest of `nr` rows at a pitch that does not lie in [0, size). -/
def badRow (off pitch : Int) (rb nr size : Nat) : Option Nat :=
  (List.range (min nr 65536)).find? fun (r : Nat) => decide (off + r * pitch < 0 ∨ (size : Int) < off + r * pitch + rb)

/-- The byte at a byte address of register space (R3). -/
def Core.byte (c : Core) (a : Nat) : Byte := (c.word (a / 4)).extractLsb' (8 * (a % 4)) 8
/-- A word with one byte replaced. -/
def setByte (w : Word) (i : Nat) (b : Byte) : Word :=
  BitVec.ofNat 32 (w.toNat - (w.toNat / 2 ^ (8 * i) % 256) * 2 ^ (8 * i) + b.toNat * 2 ^ (8 * i))
/-- Lands whole words at a word address, each with a mark. -/
def Core.landWords (c : Core) (a : Nat) (l : List (Word × Nat)) : Core := (l.zipIdx).foldl (fun c p => c.engWord (a + p.2) p.1.1 p.1.2) c
/-- n words from a word address on, with their marks. -/
def Core.words (c : Core) (a n : Nat) : List (Word × Nat) := (List.range n).map fun i => (c.word (a + i), c.mark (a + i))
/-- The words of a list of bytes. -/
def bytesWords (l : List Byte) : List Word := (List.range (l.length / 4)).map fun i => BitVec.ofNat 32 (leNat ((l.drop (4 * i)).take 4))
/-- The first nonzero mark of a list. -/
def firstMark (l : List Nat) : Nat := (l.find? (· != 0)).getD 0

/-! ## Checks at issue (R198) -/

/-- What the rows of R198 need of a command: whether a field is outside its table; the records with the permission each needs;
the tiles; the granules of the landing area and of the register source; whether a size limit is broken; the memory ends whose
records must not swizzle; the lowest failing row. -/
structure EngChk where
  (field : Bool) (recs : List (Nat × AccKind)) (tiles land srcs : List Nat) (size : Bool) (swz : List Nat) (row : Option Nat)
  deriving DecidableEq, Repr

/-- E (R198, R330). -/
def engBase : EngBody → Nat
  | .copy _ | .copymc _ | .tfill _ | .eseq _ => 0x60
  | .gath _ => 0x64
  | .scata _ => 0x68
  | .mma _ => 0x6C
  | .kvw _ | .kvld _ | .kvst _ | .kvfork _ | .kvfree _ => 0x70
  | .splice _ => 0x74
  | .rpopen _ | .rpstat _ | .rpcancel _ => 0x78

/-- The record row: the first record that is not well formed or lacks its permission. -/
def State.badRec (s : State) (i : Iss) (e : Nat) (l : List (Nat × AccKind)) : Option Trap :=
  l.findSome? fun p =>
    let r := s.ircd i p.1
    if !r.wf then some { cause := e, detail := 0x140, addr := p.1 }
    else if (p.2.lacks r).isSome then some { cause := e, detail := 0x144, addr := p.1 }
    else none

/-- The outstanding commands of a core that name a granule. -/
def State.granCmds (s : State) (core g : Nat) : List Cmd :=
  (s.cmds.filter fun p => p.2.core == core && (p.2.land.contains g || p.2.srcs.contains g)).map Prod.snd

/-- Whether a granule has INF = 1 for a pair other than the given one: neither a command of its core nor a copy admitted to a window
names it under that pair. -/
def State.infElsewhere (s : State) (core g wid dn pair : Nat) : Bool :=
  ((s.core core).gran g).inf && !((s.granCmds core g).any fun c => c.wid == wid && c.dom == dn && c.pair == pair) &&
  !s.cmds.any fun p => p.2.targets.any fun t =>
    t.core == core && t.grans.contains g && t.wid == wid && t.dom == dn && t.pair == pair

/-- The rows of R198 up to the granules. -/
def State.engFirst (s : State) (i : Iss) (h : EHdr) (e : Nat) (c : EngChk) : Option Trap :=
  let pair := h.sync.toNat
  if c.field then some { cause := e, detail := 1 }
  else if h.stat.val = pair ∨ h.stat.val = pair + 1 then some { cause := e, detail := 2 }
  else match s.badRec i e c.recs with
    | some t => some t
    | none =>
      match c.tiles.find? fun t => (s.itile i t).isNone with
      | some t => some { cause := 0x29, addr := t }
      | none =>
        if (c.land ++ c.srcs).any fun g => !((s.core i.core).gran g).own then some { cause := e, detail := 3 }
        else if c.land.any fun g => s.infElsewhere i.core g i.wid i.dn pair then some { cause := e, detail := 4 }
        else none

/-- The last rows of R198. -/
def State.engLast (s : State) (i : Iss) (e : Nat) (c : EngChk) : Option Trap :=
  if c.size then some { cause := e + 2, detail := 1 }
  else match c.swz.find? fun r => (s.ircd i r).swz != 0 with
    | some r => some { cause := e + 2, detail := 2, addr := r }
    | none => c.row.map fun r => { cause := e + 3, detail := 0x100 + r }

/-- Whether SYNC cannot name a pair (R30). -/
def badSync (pair : Nat) : Bool := decide (pair % 2 = 1 ∨ 46 < pair)

/-- The checks common to every class 4 instruction before its own (R30, R143, R319): its pair, the pairs in use that its status and
result scalars belong to, and the marks of the scalars it reads. A scalar of its own pair is left to the rows that follow. -/
def State.engPre (s : State) (i : Iss) (h : EHdr) (reads : List Nat) (writes : List Nat := []) : Option Trap :=
  let pair := h.sync.toNat
  if badSync pair then some { cause := 0x2E }
  else if (h.stat.val :: writes).any fun k => s.scalarBusy i.wid i.dn k && !(k == pair || k == pair + 1) then
    some { cause := 0x2E, detail := 3 }
  else
    let c := s.core i.core
    (((reads.filter fun k => decide (k < 48)).map i.d.scal).find? fun a => c.mark a != 0).map fun a =>
      { cause := 0x50, addr := a, detail := c.mark a }

/-! ## Acceptance (R197, R200) -/

/-- What a command takes with it when it is accepted (R34). -/
structure EngTake where
  (recs : List (BitVec 256)) (tile src src2 : Option Tile) (land srcs : List Nat) (targets : List McTarget)
  deriving DecidableEq, Repr

/-- What follows from a command at issue: a trap, a page to wait for, earlier writes that a read at issue follows, a full queue, or
the state after acceptance. -/
inductive Admit where
  | trap (t : Trap)
  | page (va : Nat)
  | hold
  | full
  | done (s : State) (id : Nat)
  deriving DecidableEq, Repr

/-- Whether a core's queue of 16 has room for n commands. -/
def State.queueRoom (s : State) (core n : Nat) : Bool := decide ((s.core core).cmds.length + n ≤ 16)

/-- The requests of the issuer that the command's reads follow (R187): those of every strand of the warp, ended ones among them,
and of the context for `aeng`. -/
def State.issuerUndone (s : State) (i : Iss) : List Nat :=
  let mine (a : Agent) : Bool := a == i.agent || match a with
    | .strand w _ => w == i.wid
    | _ => false
  (s.accs.filterMap fun p => if mine p.2.agent ∧ ¬p.2.done then some p.1 else none) ++
  s.wreqs.filterMap fun p => if mine p.2.agent then some p.1 else none

/-- The writes of the issuer that are not yet performed (R187). -/
def State.issuerWrites (s : State) (i : Iss) : List Nat :=
  s.warpWrites i.wid ++ s.accs.filterMap fun p => if p.2.agent = i.agent ∧ i.fe ∧ ¬p.2.done ∧ p.2.kind ≠ .load then some p.1 else none

/-- A command is accepted: its number, its queue entry, and INF on the touched set. -/
def State.accept (s : State) (i : Iss) (h : EHdr) (b : EngBody) (t : EngTake) (follow waits : Option Nat) : State × Nat :=
  let (n, s) := s.fresh
  let seq := (i.w.seqno + 1) % 2 ^ 20
  let seq := if waits.isSome then (seq + 1) % 2 ^ 20 else seq
  let after := match b with
    | .eseq _ => s.cmds.filterMap fun p => if p.2.wid = i.wid then some p.1 else none
    | _ => s.issuerUndone i ++ s.givenIds i.core (t.land ++ t.srcs)
  let c : Cmd :=
    { core := i.core, wid := i.wid, dom := i.dn, ctx := i.ctx, pair := h.sync.toNat, stat := h.stat.val, seq := seq,
      fe := i.fe, body := b,
      scal := (List.range 48).map (s.scalar i.core i.d), recs := t.recs, a0 := i.d.a0, fv := i.d.fv, width := i.w.width,
      tile := t.tile, src := t.src, src2 := t.src2, descp := i.d.descp, land := t.land, srcs := t.srcs, follow := follow,
      waits := waits, after := after, begun := false, started := false, parked := false, done := 0, ahead := [], next := 0, words := [],
      aux := 0, ovr := false,
      targets := t.targets, parts := [], lists := [], rows := [], grow := none, docGone := false, retired := none, job := none }
  let s := s.updCore i.core fun k =>
    { ((t.land ++ t.srcs).foldl (fun k g => k.setGran g { k.gran g with inf := true }) k) with cmds := k.cmds ++ [n] }
  let s := s.updWarp i.wid fun w => { w with seqno := seq }
  ({ s with cmds := Tbl.put s.cmds n c }, n)

/-! ## Scalars and fields of an accepted command -/

namespace Cmd
def sc (c : Cmd) (k : Nat) : Nat := (c.scal.getD k 0).toNat
/-- A pair of scalars as a number (R10). -/
def sc2 (c : Cmd) (k : Nat) : Nat := c.sc k + 2 ^ 32 * c.sc (k + 1)
def scI (c : Cmd) (k : Nat) : Int := (c.scal.getD k 0).toInt
def rcd (c : Cmd) (k : Nat) : Rcd := c.recs.getD k 0
/-- The vector area of the issuer's frame as it was at issue. -/
def frame (c : Cmd) (off : Nat) : RegEnd := ⟨c.a0 + 1152, c.fv * c.width, off⟩
/-- A frame or tile end. -/
def regEnd (c : Cmd) (t : Option Tile) (off : Nat) : RegEnd := match t with
  | some t => tileEnd t off
  | none => c.frame off
end Cmd

/-- Changes a command. -/
def State.updCmd (s : State) (id : Nat) (f : Cmd → Cmd) : State := { s with cmds := Tbl.upd s.cmds id f }

/-! ## Counting (R142, R199, R200) -/

/-- Counts landed bytes into a command's pair: the granules landed, and the register source with every count (R200). -/
def State.countCmd (s : State) (id b : Nat) (grans : List Nat) : State :=
  match Tbl.find s.cmds id with
  | none => s
  | some c =>
    let (s, drop) := (s.noteLanded c.wid c.dom c.pair id (grans ++ c.srcs)).countBytes c.wid c.dom c.pair b
    if drop = 0 then s else s.updCmd id fun c => { c with ovr := true }

/-! ## Memory, as engines reach it -/

/-- What the next piece of a command comes to: it waits, its page migrates, it fails, it fails with a state in which what it has
already done stands (R264), or it is performed. -/
inductive Next where
  | wait
  | park (va : Nat)
  | fail (t : Trap)
  | spoil (s : State) (t : Trap)
  | go (s : State)
  deriving DecidableEq, Repr

/-- The partition and class of a command (R367). -/
def State.cmdClass (s : State) (c : Cmd) : Nat × Nat := s.classOf (.strand c.wid 0)

/-- Reaches n bytes of one line for a command: the physical address with the allowance drawn, or what stops it (R201, R203,
R320). -/
def State.reach (s : State) (c : Cmd) (e va n : Nat) (need : Need) : Except Next (Nat × State) :=
  match s.access c.ctx va need with
  | .bad cause _ => .error (.fail { cause := e + 1, detail := cause, addr := va })
  | .replay => .error (.park va)
  | .ok pa =>
    let port := s.portOf pa
    let pc := s.cmdClass c
    if s.portsDown.contains port then .error (.fail { cause := 0x59, addr := va })
    else .ok (pa, s.weirDraw port pc n)

/-- Reaches every line of a range for reading. -/
def State.reachAll (s : State) (c : Cmd) (e : Nat) (need : Need) : List (Nat × Nat) → Except Next (List (Nat × Nat) × State)
  | [] => .ok ([], s)
  | (va, n) :: rest =>
    match s.reach c e va n need with
    | .error x => .error x
    | .ok (pa, s) =>
      match s.reachAll c e need rest with
      | .error x => .error x
      | .ok (l, s) => .ok ((pa, n) :: l, s)

/-- The bytes of reached pieces, each with the mark of its line. -/
def State.pieceBytes (s : State) (l : List (Nat × Nat)) : List (Byte × Nat) :=
  l.flatMap fun p => (s.readBytes p.1 p.2).map fun b => (b, s.lineMark p.1)

/-- Words of marked bytes. -/
def markedWords (l : List (Byte × Nat)) : List (Word × Nat) :=
  (List.range (l.length / 4)).map fun i =>
    let q := (l.drop (4 * i)).take 4
    (BitVec.ofNat 32 (leNat (q.map Prod.fst)), firstMark (q.map Prod.snd))

/-- Writes bytes to one line for an engine: marks travel with the data, and a whole unmarked line clears its mark (R319). -/
def State.engWrite (s : State) (pa : Nat) (l : List Byte) (mk : Nat) : State :=
  let s := s.writeBytes pa l
  let s := if mk ≠ 0 then s.setLineMark pa mk else if l.length = 256 then s.setLineMark pa 0 else s
  s.wake (pa / 256)

/-- Whether everything that a command's reads follow is behind it (R187, R212). -/
def State.cmdReady (s : State) (c : Cmd) : Bool :=
  c.waits.isNone && c.after.all fun i => s.performed i && (Tbl.find s.cmds i).isNone

/-! ## Pieces in no promised order (R189, R206) -/

/-- The pieces from a place on, as (place, length), up to a stop. -/
def chunkPieces (len : Nat → Nat) (stop : Nat) : Nat → Nat → List (Nat × Nat)
  | 0, _ => []
  | k + 1, a => if stop ≤ a then [] else (a, len a) :: chunkPieces len stop k (a + len a)

/-- One of a list, as the hardware chooses (log 29). -/
def State.choose {α : Type} (s : State) (l : List α) : Option α := l[Config.pieceChoice s.tick % max 1 l.length]?

/-- The piece that a command moves next: one of those of the chunk in progress that have not landed. -/
def State.nextPiece (s : State) (c : Cmd) (pieces : List (Nat × Nat)) : Option (Nat × Nat) :=
  s.choose (pieces.filter fun p => !c.ahead.contains p.1)

/-- A piece has landed: with the last one the chunk in progress is done. -/
def Cmd.landed (c : Cmd) (pieces : List (Nat × Nat)) (a : Nat) : Cmd :=
  if pieces.all fun p => p.1 == a || c.ahead.contains p.1 then { c with done := c.done + (pieces.map Prod.snd).sum, ahead := [] }
  else { c with ahead := a :: c.ahead }

/-! ## Issuing a command -/

/-- What a class 4 instruction does once its command has been checked: it traps, waits, or goes on; `units` are those of the
instructions that issue together, which wait for a lookahead window that ends between them (R34, R207). -/
def State.engIssued (s : State) (x : Who) (units : List Nat) : Admit → State
  | .trap t => s.trapAt x.wid x.sid { t with lanes := x.st.em }
  | .page va => s.waitPage x va
  | .hold => s.park x.wid x.sid .release
  | .full => s.park x.wid x.sid .engine
  | .done t _ =>
    if decide (1 < units.length) && x.st.pends.any fun p => p.left == 1 then s.park x.wid x.sid .window
    else units.foldl (fun t n => t.advance x.wid x.sid n) t

/-- A command without a follow-on: its checks, and its acceptance once there is room. -/
def State.admitOne (s : State) (i : Iss) (h : EHdr) (b : EngBody) (reads : List Nat) (chk : EngChk) (take : EngTake) : Admit :=
  match s.engPre i h reads with
  | some t => .trap t
  | none =>
    match s.engFirst i h (engBase b) chk with
    | some t => .trap t
    | none =>
      match s.engLast i (engBase b) chk with
      | some t => .trap t
      | none =>
        if !s.queueRoom i.core 1 then .full
        else
          let (s, n) := s.accept i h b take none none
          .done s n

/-- A core's queue has room again: an agent that waits for it issues (R197). -/
def execEngineQueueAccept (a : Agent) (s : State) : Out :=
  .next (
    match a with
    | .strand wid sid =>
      match s.strandAt wid sid with
      | none => s
      | some x =>
        if (x.st.parked.any fun p => p.1 == .engine) && s.queueRoom x.core 1 then
          s.updStrand wid sid fun st => { st with parked := none }
        else s
    | .fe c =>
      match Tbl.find s.crews c with
      | none => s
      | some k =>
        if (k.fe.any fun f => f.stalled.any fun p => p.1 == .engine) && s.queueRoom k.core 1 then s.updFe c fun f => { f with stalled := none }
        else s
    | .nobody => s)

end Sys2Proof.Machine
end

