-- ==== Sys2Proof/Machine/Matrix.lean ====
section
/-! DEFINITION. The matrix engine (R225-R241). -/

namespace Sys2Proof.Machine

/-! ## Tensor descriptors (R225, R226) -/

/-- A descriptor: its low half; the upper half must be 0. -/
abbrev TDesc := BitVec 256

namespace TDesc
def sstr (d : TDesc) : Nat := (d.extractLsb' 192 40).toNat
def sbase (d : TDesc) : Nat := (d.extractLsb' 128 56).toNat
def rstr (d : TDesc) : Nat := (d.extractLsb' 64 40).toNat
def fmt (d : TDesc) : Nat := (d.extractLsb' 58 5).toNat
def planar (d : TDesc) : Bool := d.getLsbD 57
def pln (d : TDesc) : Nat := (d.extractLsb' 54 3).toNat
def sfmt (d : TDesc) : Nat := (d.extractLsb' 52 2).toNat
def tr (d : TDesc) : Bool := d.getLsbD 51
def rows (d : TDesc) : Nat := (d.extractLsb' 34 17).toNat + 1
def cols (d : TDesc) : Nat := (d.extractLsb' 17 17).toNat + 1
/-- Bytes of an element in byte layout (R229). -/
def esz (d : TDesc) : Nat := if d.fmt = 5 ∨ d.fmt = 6 then 2 else 1
/-- The planes of a planar format (R226). -/
def planes (d : TDesc) : Nat :=
  match d.fmt with
  | 11 | 16 => 4
  | 9 | 10 => 6
  | _ => 8
/-- The planes that are read. -/
def used (d : TDesc) : Nat := if d.pln = 0 then d.planes else d.pln
/-- The alignment of an element (R226). -/
def align (d : TDesc) : Nat := if d.planar then 8 else d.esz
/-- R226. -/
def wf (d : TDesc) : Bool :=
  let f := d.fmt
  let lay := match f with
    | 9 | 10 | 11 | 16 => d.planar
    | 14 => true
    | _ => !d.planar
  d.getLsbD 63 && d.extractLsb' 232 24 == 0 && d.extractLsb' 184 8 == 0 && d.extractLsb' 104 24 == 0 && d.extractLsb' 0 17 == 0 &&
  [5, 6, 7, 8, 9, 10, 11, 14, 16, 17].contains f && lay && (if d.planar then decide (d.pln ≤ d.planes) && !d.tr else d.pln == 0) &&
  d.sfmt != 3 && (d.sfmt == 0 || !([5, 6, 14, 16].contains f)) && decide (d.rstr % d.align = 0)
end TDesc

/-- Reads an entry of the descriptor table at the issue (R225, R227): the entry, a page to wait for, or a cause. -/
def State.readDesc (s : State) (i : Iss) (n : Nat) : Except (Option (Nat × Nat) × Nat) TDesc :=
  let va := (i.d.descp + 64 * n) % 2 ^ 56
  match (s.translate i.core i.ctx va).need .read with
  | .bad c d => .error (some (c, d), va)
  | .replay => .error (none, va)
  | .ok pa =>
    if s.readNat (pa + 32) 32 = 0 then .ok (BitVec.ofNat 256 (s.readNat pa 32)) else .ok 0

/-! ## Pairings (R231) -/

/-- Whether two formats pair, and whether the accumulator is then an integer. -/
def pairing (a b : Nat) : Option Bool :=
  let f8 (f : Nat) : Bool := decide (7 ≤ f) && decide (f ≤ 11)
  let dp (f : Nat) : Bool := [7, 8, 6, 14].contains f
  if f8 a && f8 b then some false
  else if a = 17 ∧ dp b ∨ b = 17 ∧ dp a then some false
  else if a = b ∧ (a = 5 ∨ a = 6) then some false
  else if a = 14 ∧ (b = 14 ∨ b = 16) ∨ a = 16 ∧ (b = 14 ∨ b = 16) then some true
  else none

/-! ## Checks at issue (R233) -/

/-- An operand: its descriptor, its tile or the base of its stream, and how many logical rows are read. -/
structure MmaOp where
  (desc : TDesc) (tile : Option Tile) (va len : Nat)
  deriving DecidableEq, Repr

/-- The scalars that an `mma` reads (R228). -/
def mmaReads (f : MmaF) : List Nat :=
  let base (st : Bool) (k : BitVec 6) : List Nat := if st then [k.toNat, k.toNat + 1] else []
  base f.as_ f.aop ++ base f.bs f.bop ++ [f.ks.toNat] ++ if f.gs = 0 then [] else [f.gs.toNat]

/-- The tiles that an `mma` names: accumulator, A, B. -/
def mmaTiles (f : MmaF) : List Nat :=
  f.ct.val :: ((if f.as_ then [] else [f.aop.toNat]) ++ if f.bs then [] else [f.bop.toNat])

/-- The granules of a tile. -/
def Tile.grans (t : Tile) : List Nat := (List.range t.granules).map fun i => t.gran + i

/-- The rows of R198 for `mma`. -/
def State.mmaChk (s : State) (i : Iss) (f : MmaF) : EngChk :=
  let opBad (st : Bool) (k : BitVec 6) : Bool := if st then decide (k.toNat % 2 = 1) || decide (46 < k.toNat) else decide (32 ≤ k.toNat)
  let grans (l : List Nat) : List Nat := l.flatMap fun t => ((s.itile i t).map Tile.grans).getD []
  { field := f.scope == 7 || opBad f.as_ f.aop || opBad f.bs f.bop || decide (48 ≤ f.ks.toNat) || decide (48 ≤ f.gs.toNat)
    recs := []
    tiles := (mmaTiles f)
    land := grans [f.ct.val]
    srcs := grans ((mmaTiles f).drop 1)
    size := false
    swz := []
    row := none }

/-- The lowest stored row whose read reaches outside (R229, R233). -/
def MmaOp.badRow (o : MmaOp) (k : Nat) : Option Nat :=
  let d := o.desc
  let (r, c) := if d.tr then (k, o.len) else (o.len, k)
  let rb := if d.planar then (c + 63) / 64 * 8 * d.planes else c * d.esz
  let top := 2 ^ 56
  let outs := (if d.cols < c then [0] else []) ++ (if d.rows < r then [d.rows] else []) ++
    match o.tile with
    | some t => (if t.cols * t.esz < rb then [0] else []) ++ if t.rows < r then [t.rows] else []
    | none =>
      if top < o.va + rb then [0]
      else if d.rstr = 0 then []
      else
        let n := (top - rb - o.va) / d.rstr + 1
        if n < r then [n] else []
  leastBy id outs

/-- The operands of an `mma` at its issue. -/
def State.mmaOps (s : State) (i : Iss) (f : MmaF) (a b : TDesc) : MmaOp × MmaOp :=
  let va (st : Bool) (k : BitVec 6) : Nat := if st then s.isc i k.toNat + 2 ^ 32 * s.isc i (k.toNat + 1) else 0
  let tile (st : Bool) (k : BitVec 6) : Option Tile := if st then none else s.itile i k.toNat
  (⟨a, tile f.as_ f.aop, va f.as_ f.aop, f.mm.toNat + 1⟩, ⟨b, tile f.bs f.bop, va f.bs f.bop, f.nn.toNat + 1⟩)

/-- The rows of R233 once both descriptors are read. SAT with a pairing that no row of R231 holds is taken by the row of SAT, which stands
first (DESIGN CHOICE, log 100). -/
def State.mmaLast (s : State) (i : Iss) (f : MmaF) (a b : TDesc) (ct : Tile) : Option Trap :=
  let pr := pairing a.fmt b.fmt
  let k := s.isc i f.ks.toNat
  let (oa, ob) := s.mmaOps i f a b
  let scaled := a.sfmt != 0 || b.sfmt != 0
  let mk := (s.core i.core).mark (i.d.scal f.gs.toNat)
  if !a.wf then some { cause := 0x6C, detail := 6, addr := f.da.toNat }
  else if !b.wf then some { cause := 0x6C, detail := 6, addr := f.db.toNat }
  else if (f.sat && pr != some true) || (f.gs != 0 && !scaled) then some { cause := 0x6C, detail := 1 }
  else if pr.isNone then some { cause := 0x6E, detail := 2 }
  else if k = 0 ∨ k % 32 ≠ 0 ∨ 131072 < k then some { cause := 0x6E, detail := 1 }
  else if oa.va % a.align ≠ 0 ∨ ob.va % b.align ≠ 0 then some { cause := 0x6E, detail := 1 }
  else if ct.esz ≠ 4 ∨ ct.rows < f.mm.toNat + 1 ∨ ct.cols < f.nn.toNat + 1 then some { cause := 0x6E, detail := 3 }
  else match leastBy id ((oa.badRow k).toList ++ (ob.badRow k).toList) with
    | some r => some { cause := 0x6F, detail := 0x100 + r }
    | none => if scaled ∧ mk ≠ 0 then some { cause := 0x50, addr := i.d.scal f.gs.toNat, detail := mk } else none

/-- Every check of an `mma`, and what it takes with it; `copied` are the granules that its copy lands (R207, R233). The descriptors are
read once the warp's earlier writes are performed (R187). A command is outstanding until its status is written, be its pair's flip
behind it (DEDUCED, log 101). -/
def State.mmaAdmit (s : State) (i : Iss) (h : EHdr) (f : MmaF) (copied : List Nat) : Except Admit EngTake :=
  let chk := s.mmaChk i f
  match s.engPre i h (mmaReads f) with
  | some t => .error (.trap t)
  | none =>
    match s.engFirst i h 0x6C chk with
    | some t => .error (.trap t)
    | none =>
      if ((mmaTiles f).drop 1).contains f.ct.val || chk.land.any copied.contains then .error (.trap { cause := 0x6C, detail := 7 })
      else if chk.land.any fun g => s.granCmds i.core g != [] then .error (.trap { cause := 0x6C, detail := 8 })
      else if !(s.issuerWrites i).isEmpty then .error .hold
      else
        let bad (n : Nat) (e : Option (Nat × Nat) × Nat) : Admit := match e.1 with
          | some (c, _) => .trap { cause := 0x6C, detail := 0x100 + c, addr := n }
          | none => .page e.2
        match s.readDesc i f.da.toNat, s.readDesc i f.db.toNat, s.itile i f.ct.val with
        | .error e, _, _ => .error (bad f.da.toNat e)
        | _, .error e, _ => .error (bad f.db.toNat e)
        | .ok a, .ok b, some ct =>
          match s.mmaLast i f a b ct with
          | some t => .error (.trap t)
          | none =>
            let (oa, ob) := s.mmaOps i f a b
            .ok ⟨[a, b], some ct, oa.tile, ob.tile, chk.land, chk.srcs, []⟩
        | _, _, none => .error (.trap { cause := 0x29, addr := f.ct.val })

/-- Sets PROG of the tile that a command accumulates into (R238). -/
def State.setProg (s : State) (wid dn slot prog : Nat) : State :=
  match Tbl.find s.warps wid with
  | none => s
  | some w =>
    match s.tileAt w 8 dn slot with
    | none => s
    | some (d, t, tile) => s.setTile wid w d t (some { tile with prog := prog })

/-- An `mma` on its own: checked, and accepted once there is room (R197, R238). -/
def State.admitMma (s : State) (i : Iss) (h : EHdr) (f : MmaF) : Admit :=
  match s.mmaAdmit i h f [] with
  | .error a => a
  | .ok t =>
    if !s.queueRoom i.core 1 then .full
    else
      let (s, n) := s.accept i h (.mma f) t none none
      .done (s.setProg i.wid i.dn f.ct.val 0) n

/-- R228, R233. -/
def execMma (h : EHdr) (f : MmaF) (s : State) : Out := issue s fun x => s.engIssued x [2] (s.admitMma x.iss h f)

/-! ## Operand values (R70-R74, R229, R230) -/

/-- The value of an element code (R229). -/
def elemVal (fmt code : Nat) : FVal :=
  let int (w : Nat) : FVal := .num (decide (sext w code < 0)) (sext w code).natAbs 0
  match fmt with
  | 5 => fdec f16 code
  | 6 => fdec bf16 code
  | 7 => fdec e4m3 code
  | 8 => fdec e5m2 code
  | 9 => fdec e3m2 code
  | 10 => fdec e2m3 code
  | 11 => fdec e2m1 code
  | 14 => int 8
  | 16 => int 4
  | _ => dpFVal code

/-- The value of a scale byte (R71, R230). -/
def scaleVal (sfmt b : Nat) : FVal :=
  if sfmt = 1 then (if b = 255 then .nan false 0 false else .num false 1 ((b : Int) - 127))
  else if 127 ≤ b then .nan false 0 false else fdec e4m3 b

/-- The stored rows that k-group g reads of an operand: row, byte offset and length (R229). -/
def MmaOp.pieces (o : MmaOp) (g : Nat) : List (Nat × Nat × Nat) :=
  let d := o.desc
  if d.tr then (List.range 32).map fun k => (32 * g + k, 0, o.len * d.esz)
  else if d.planar then
    (List.range o.len).map fun i => (i, 32 * g / 64 * 8 * d.planes + 8 * (d.planes - d.used), 8 * d.used)
  else (List.range o.len).map fun i => (i, 32 * g * d.esz, 32 * d.esz)

/-- The code of A(i, 32 g + k) among the pieces read, with the mark of its bytes. -/
def MmaOp.code (o : MmaOp) (g i k : Nat) (rows : List (List (Byte × Nat))) : Nat × Nat :=
  let d := o.desc
  let at_ (row off : Nat) : Byte × Nat := (rows.getD row []).getD off (0, 0)
  if d.planar then
    let c := (32 * g + k) % 64
    (List.range d.used).foldl (fun v p =>
      let b := at_ i (8 * p + c / 8)
      (v.1 + if b.1.getLsbD (c % 8) then 2 ^ (d.planes - d.used + p) else 0, if v.2 = 0 then b.2 else v.2)) (0, 0)
  else
    let (row, off) := if d.tr then (k, i * d.esz) else (i, k * d.esz)
    let bs := (List.range d.esz).map fun j => at_ row (off + j)
    (leNat (bs.map Prod.fst), firstMark (bs.map Prod.snd))

/-- Reads the bytes that k-group g needs of an operand, from its tile or from memory. -/
def State.mmaRows (s : State) (c : Cmd) (o : MmaOp) (g : Nat) : Except Next (List (List (Byte × Nat)) × State) :=
  match o.tile with
  | some t =>
    let k := s.core c.core
    .ok ((o.pieces g).map fun p => (List.range p.2.2).map fun j =>
      let a := 512 * t.gran + p.1 * t.cols * t.esz + p.2.1 + j
      (k.byte a, k.mark (a / 4)), s)
  | none =>
    (o.pieces g).foldlM (fun (acc : List (List (Byte × Nat)) × State) p =>
      match acc.2.reachAll c 0x6C .read (linePieces (o.va + p.1 * o.desc.rstr + p.2.1) p.2.2) with
      | .error e => .error e
      | .ok (l, s) => .ok (acc.1 ++ [s.pieceBytes l], s)) ([], s)

/-- The scales of an operand for k-group g, with marks: 1 without a scale format (R230). -/
def State.mmaScales (s : State) (c : Cmd) (o : MmaOp) (g0 g : Nat) : Except Next (List (FVal × Nat) × State) :=
  let d := o.desc
  if d.sfmt = 0 then .ok (List.replicate o.len (.num false 1 0, 0), s)
  else (List.range o.len).foldlM (fun (acc : List (FVal × Nat) × State) i =>
    match acc.2.reachAll c 0x6C .read [(d.sbase + i * d.sstr + g0 + g, 1)] with
    | .error e => .error e
    | .ok (l, s) =>
      let b := (s.pieceBytes l).headD (0, 0)
      .ok (acc.1 ++ [(scaleVal d.sfmt b.1.toNat, b.2)], s)) ([], s)

/-! ## Sums (R234, R235) -/

/-- A product of factors: none for a NaN or for ∞ × 0. -/
def prod4 (a sa b sb : FVal) : Option FVal :=
  (mulExact a b).bind fun p => (mulExact p sa).bind fun q => mulExact q sb

/-- The exact sum of finite numbers, as an integer multiple of a power of two. -/
def exactSum (l : List FVal) : Int × Int :=
  let e0 := (l.filterMap fun v => match v with
    | .num _ m e => if m = 0 then none else some e
    | _ => none).foldl min 0
  (l.foldl (fun n v => match v with
    | .num g m e => if m = 0 then n else n + atExp g m e e0
    | _ => n) 0, e0)

/-- G of a floating pairing (R234, R235). -/
def groupSum (l : List (Option FVal)) : Nat :=
  let pos := l.any fun v => v == some (.inf false)
  let neg := l.any fun v => v == some (.inf true)
  if l.any Option.isNone || (pos && neg) then f32.dfltNan
  else if pos then f32.infCode
  else if neg then f32.infCode + f32.signBit
  else
    let (n, e) := exactSum (l.filterMap id)
    if n = 0 then 0 else (froundNum f32 .rne false (decide (n < 0)) n.natAbs e).val

/-- acc + G (R234): wrapped or clamped, or one FP32 addition. -/
def accAdd (int sat : Bool) (acc : Nat) (g : Int ⊕ Nat) : Nat :=
  match g with
  | .inl n =>
    let r := (BitVec.ofNat 32 acc).toInt + n
    if int && sat then (BitVec.ofInt 32 (max (-2147483648) (min 2147483647 r))).toNat else (BitVec.ofInt 32 r).toNat
  | .inr w => (faddV f32 .rne (fdec f32 acc) (fdec f32 w)).val

/-- The value of G as an accumulator word. -/
def accFirst (sat : Bool) : Int ⊕ Nat → Nat
  | .inl n => if sat then (BitVec.ofInt 32 (max (-2147483648) (min 2147483647 n))).toNat else (BitVec.ofInt 32 n).toNat
  | .inr w => w

/-! ## The array (R237-R241) -/

/-- The operands of an accepted command (R227, R228). -/
def Cmd.mmaOps (c : Cmd) (f : MmaF) : MmaOp × MmaOp :=
  (⟨c.rcd 0, c.src, if f.as_ then c.sc2 f.aop.toNat else 0, f.mm.toNat + 1⟩,
   ⟨c.rcd 1, c.src2, if f.bs then c.sc2 f.bop.toNat else 0, f.nn.toNat + 1⟩)

/-- One k-group for every element, with the marks of what contributes to it (R234, R239): the words of the accumulator, not yet
landed. -/
def State.mmaGroup (s : State) (c : Cmd) (f : MmaF) (ct : Tile) : Except Next (State × List (Nat × Word × Nat)) :=
  let (oa, ob) := c.mmaOps f
  let g := c.done
  let g0 := c.sc f.gs.toNat
  match s.mmaRows c oa g with
  | .error e => .error e
  | .ok (ra, s) =>
    match s.mmaRows c ob g with
    | .error e => .error e
    | .ok (rb, s) =>
      match s.mmaScales c oa g0 g with
      | .error e => .error e
      | .ok (sa, s) =>
        match s.mmaScales c ob g0 g with
        | .error e => .error e
        | .ok (sb, s) =>
          let int := pairing oa.desc.fmt ob.desc.fmt == some true
          let vals (o : MmaOp) (rows : List (List (Byte × Nat))) : List (List (Nat × Nat)) :=
            (List.range o.len).map fun i => (List.range 32).map fun k => o.code g i k rows
          let va := vals oa ra
          let vb := vals ob rb
          let core := s.core c.core
          let elem_ (i j : Nat) : Nat × Word × Nat :=
            let la := va.getD i []
            let lb := vb.getD j []
            let scA := sa.getD i (.num false 1 0, 0)
            let scB := sb.getD j (.num false 1 0, 0)
            let dec (d : TDesc) (l : List (Nat × Nat)) : List FVal := l.map fun p => elemVal d.fmt p.1
            let prods := ((dec oa.desc la).zip (dec ob.desc lb)).map fun p => prod4 p.1 scA.1 p.2 scB.1
            let sum : Int ⊕ Nat := if int then .inl (let q := exactSum (prods.filterMap id); q.1 * 2 ^ q.2.toNat) else .inr (groupSum prods)
            let a := 128 * ct.gran + i * ct.cols + j
            let first := g = 0 ∧ f.acc = false
            let blank := g = 0 ∧ !(core.gran (a / 128)).val
            let old := if blank then 0 else (core.word a).toNat
            let v := if first then accFirst f.sat sum else accAdd int f.sat old sum
            let mk := firstMark ((la ++ lb).map Prod.snd ++ [scA.2, scB.2] ++ if first ∨ blank then [] else [core.mark a])
            (a, BitVec.ofNat 32 v, mk)
          .ok (s, (List.range oa.len).flatMap fun i => (List.range ob.len).map fun j => elem_ i j)

/-- The next k-group of a running `mma` (R238-R240), or more of its words: they land in no promised order (R189). PROG advances with the
last. -/
def State.mmaNext (s : State) (id : Nat) (c : Cmd) (f : MmaF) : Next :=
  let groups := c.sc f.ks.toNat / 32
  match c.tile with
  | none => .wait
  | some ct =>
    if !c.started || decide (groups ≤ c.done) then .wait
    else
      match (if c.words.isEmpty then s.mmaGroup c f ct else .ok (s, c.words)) with
      | .error (.fail t) =>
        if t.cause = 0x59 then .fail t else .fail { cause := 0x6D, detail := t.detail % 256 + 32 * c.done * 2 ^ 32, addr := t.addr }
      | .error e => e
      | .ok (s, words) =>
        let (now, left) := pickFrom words (Config.wordOrder s.tick)
        let s := s.updCore c.core fun k => now.foldl (fun k w => k.engWord w.1 w.2.1 w.2.2) k
        if !left.isEmpty then .go (s.updCmd id fun c => { c with words := left })
        else
          let s := (s.updCmd id fun c => { c with words := [], done := c.done + 1 }).setProg c.wid c.dom f.ct.val (32 * (c.done + 1))
          if c.done + 1 < groups then .go s else .go (s.countCmd id ((f.mm.toNat + 1) * (f.nn.toNat + 1) * 4) c.land)

end Sys2Proof.Machine
end

