-- ==== Sys2Proof/Machine/Copy.lean ====
section
/-! DEFINITION. The copy engine: `copy`, `copymc`, `tfill` and `eseq` (R204-R212). -/

namespace Sys2Proof.Machine

/-! ## Shapes (R206) -/

/-- A shape: row bytes, rows, pitches. -/
structure Shape where
  (rb nr : Nat) (sp dp : Int)
  deriving DecidableEq, Repr

/-- The limits of R206; `regs` says that an end is in registers. -/
def Shape.bad (h : Shape) (regs : Bool) : Bool :=
  decide (h.rb = 0 ∨ h.nr = 0 ∨ 65536 < h.nr ∨ 16777215 < h.rb * h.nr) ||
  (regs && decide (h.rb % 4 ≠ 0 ∨ h.sp % 4 ≠ 0 ∨ h.dp % 4 ≠ 0))

def State.shapeAt (s : State) (i : Iss) (k : Nat) : Shape :=
  ⟨s.isc i k, s.isc i (k + 1), (s.scalar i.core i.d (k + 2)).toInt, (s.scalar i.core i.d (k + 3)).toInt⟩
def Cmd.shapeAt (c : Cmd) (k : Nat) : Shape := ⟨c.sc k, c.sc (k + 1), c.scI (k + 2), c.scI (k + 3)⟩

/-! ## Bytes into registers -/

/-- Lands bytes at a byte address of register space: a word that is written whole takes the marks of its bytes (R319). A granule that
a flip has returned to the warp side takes nothing (R125), and the bytes count all the same (DESIGN CHOICE, log 99). -/
def Core.landBytes (c : Core) (a : Nat) (l : List (Byte × Nat)) : Core :=
  if l.isEmpty then c
  else (List.range ((a + l.length - 1) / 4 + 1 - a / 4)).foldl (fun c i =>
    let k := a / 4 + i
    let here := (List.range 4).filterMap fun j =>
      if a ≤ 4 * k + j then (l[4 * k + j - a]?).map fun b => (j, b) else none
    let v := here.foldl (fun w p => setByte w p.1 p.2.1) (c.word k)
    let mk := firstMark (here.map fun p => p.2.2)
    c.engWord k v (if mk ≠ 0 then mk else if here.length = 4 then 0 else c.mark k)) c

/-- The bytes of register space from a byte address on, with the marks of their words. -/
def Core.bytesAt (c : Core) (a n : Nat) : List (Byte × Nat) := (List.range n).map fun i => (c.byte (a + i), c.mark ((a + i) / 4))

/-! ## Checks at issue (R198, R204, R209, R211, R212) -/

/-- The register end of a check: a tile if it is allocated, or the frame. -/
def State.chkEnd (s : State) (i : Iss) (tl : Bool) (tn off : Nat) : RegEnd :=
  match tl, s.itile i tn with
  | true, some t => tileEnd t off
  | true, none => ⟨0, 0, off⟩
  | false, _ => frameEnd i.d i.w.width off

/-- Whether a copy reads memory, and whether it writes memory, a window or registers. -/
def CopyF.srcMem (f : CopyF) : Bool := f.dir == 0 || f.dir == 3
def CopyF.dstMem (f : CopyF) : Bool := f.dir == 1 || f.dir == 3

/-- The scalars of a copy: its starts and its shape. -/
def copyReads (f : CopyF) : List Nat :=
  let off (pair : Bool) (k : BitVec 6) : List Nat := if pair then [k.toNat, k.toNat + 1] else [k.toNat]
  off (CopyF.srcMem f) f.soff ++ off (f.dir != 0) f.doff ++ (List.range 4).map fun j => f.shp.toNat + j

def State.copyChk (s : State) (i : Iss) (f : CopyF) : EngChk :=
  let sm := CopyF.srcMem f
  let dm := CopyF.dstMem f
  let win := f.dir == 2
  let pairBad (k : BitVec 6) : Bool := decide (k.toNat % 2 = 1 ∨ 46 < k.toNat)
  let h := s.shapeAt i f.shp.toNat
  let pair (k : BitVec 6) : Nat := s.isc i k.toNat + 2 ^ 32 * s.isc i (k.toNat + 1)
  let se := s.chkEnd i f.stl f.stn.val (s.isc i f.soff.toNat)
  let de := s.chkEnd i f.dtl f.dtn.val (s.isc i f.doff.toNat)
  let srow := if sm then badRow (pair f.soff) h.sp h.rb h.nr (s.ircd i f.srec.val).extent else badRow se.off h.sp h.rb h.nr (4 * se.words)
  let drow := if dm then badRow (pair f.doff) h.dp h.rb h.nr (s.ircd i f.drec.val).extent
    else if win then none else badRow de.off h.dp h.rb h.nr (4 * de.words)
  { field := (f.thn && f.dir != 0) || decide (f.shp.toNat % 4 ≠ 0 ∨ 44 < f.shp.toNat ∨ 47 < f.soff.toNat ∨ 47 < f.doff.toNat) ||
      (sm && pairBad f.soff) || (dm && pairBad f.doff) || (win && decide (46 < f.doff.toNat))
    recs := (if sm then [(f.srec.val, .load)] else []) ++ if dm then [(f.drec.val, .store)] else []
    tiles := (if f.stl then [f.stn.val] else []) ++ if f.dtl then [f.dtn.val] else []
    land := if dm || win then [] else de.grans h.dp h.rb h.nr
    srcs := if sm then [] else se.grans h.sp h.rb h.nr
    size := h.bad (!(sm && dm)) || (!sm && decide (se.off % 4 ≠ 0)) || (!dm && !win && decide (de.off % 4 ≠ 0)) ||
      (win && decide (s.isc i (f.doff.toNat + 1) % 4 ≠ 0))
    swz := (if sm then [f.srec.val] else []) ++ if dm then [f.drec.val] else []
    row := leastBy id (srow.toList ++ drow.toList) }

/-- A target before its exporter has seen the copy. -/
def McTarget.fresh (h : Word) : McTarget := ⟨h, false, 0, none, 2 ^ 20, 0, 0, 0, []⟩

/-- What a copy takes with it. -/
def State.copyTake (s : State) (i : Iss) (f : CopyF) (c : EngChk) : EngTake where
  recs := [s.ircd i f.srec.val, s.ircd i f.drec.val]
  tile := if f.dtl then s.itile i f.dtn.val else none
  src := if f.stl then s.itile i f.stn.val else none
  src2 := none
  land := c.land
  srcs := c.srcs
  targets := if f.dir = 2 then [McTarget.fresh (s.scalar i.core i.d f.doff.toNat)] else []

/-- A copy, alone or with the `mma` that the next instruction holds (R197, R198, R207). A failing check of the `mma` traps at the
copy's PC, with the causes of the `mma`'s own rows: neither command is accepted (DESIGN CHOICE, log 89). -/
def State.admitCopy (s : State) (i : Iss) (h : EHdr) (f : CopyF) (next : Option (EHdr × MmaF)) : Admit :=
  let chk := s.copyChk i f
  if !f.thn then s.admitOne i h (.copy f) (copyReads f) chk (s.copyTake i f chk)
  else
    match s.engPre i h (copyReads f) with
    | some t => .trap t
    | none =>
      match s.engFirst i h 0x60 chk, next with
      | some t, _ => .trap t
      | none, none => .trap { cause := 0x60, detail := 5 }
      | none, some (mh, m) =>
        match s.engLast i 0x60 chk with
        | some t => .trap t
        | none =>
          match s.mmaAdmit i mh m chk.land with
          | .error a => a
          | .ok t =>
            if !s.queueRoom i.core 2 then .full
            else
              let (s, c) := s.accept i h (.copy f) (s.copyTake i f chk) (some (s.nextId + 1)) none
              let (s, _) := s.accept i mh (.mma m) t none (some c)
              .done (s.setProg i.wid i.dn m.ct.val 0) c

/-- The `mma` in the two units after a strand's command (R207). -/
def Who.nextMma (x : Who) : Option (EHdr × MmaF) :=
  match x.st.clause with
  | none => none
  | some c =>
    if c.cnt < (x.st.pc - c.hdr).toNat + 3 then none
    else
      let u := c.unitAt (x.st.pc + 2)
      match Codec.decodeWord c.cls u.2.2 u.1 u.2.1 with
      | .ok (.mma h f) => some (h, f)
      | _ => none

/-- R204, R207. A copy and its `mma` issue together, two instructions of the strand. -/
def execCopy (h : EHdr) (f : CopyF) (s : State) : Out :=
  issue s fun x => s.engIssued x (if f.thn then [2, 2] else [2]) (s.admitCopy x.iss h f x.nextMma)

/-- How many handles a multicast names (R209). -/
def State.mcCount (s : State) (i : Iss) (f : CopymcF) : Nat := s.isc i f.doff.toNat

def copymcReads (f : CopymcF) (m : Nat) : List Nat :=
  (if f.regs then [f.soff.toNat] else [f.soff.toNat, f.soff.toNat + 1]) ++
  ((List.range (min m 8 + 2)).map fun j => f.doff.toNat + j) ++ (List.range 4).map fun j => f.shp.toNat + j

def State.copymcChk (s : State) (i : Iss) (f : CopymcF) : EngChk :=
  let m := s.mcCount i f
  let h := s.shapeAt i f.shp.toNat
  let pair : Nat := s.isc i f.soff.toNat + 2 ^ 32 * s.isc i (f.soff.toNat + 1)
  let se := s.chkEnd i f.stl f.stn.val (s.isc i f.soff.toNat)
  { field := decide (f.shp.toNat % 4 ≠ 0 ∨ 44 < f.shp.toNat ∨ 47 < f.soff.toNat ∨ 47 < f.doff.toNat) ||
      (!f.regs && decide (f.soff.toNat % 2 = 1 ∨ 46 < f.soff.toNat)) || (decide (m ≤ 8) && decide (47 < f.doff.toNat + m + 1))
    recs := if f.regs then [] else [(f.srec.val, .load)]
    tiles := if f.stl then [f.stn.val] else []
    land := []
    srcs := if f.regs then se.grans h.sp h.rb h.nr else []
    size := decide (m = 0 ∨ 8 < m) || h.bad true || (f.regs && decide (se.off % 4 ≠ 0)) ||
      decide (s.isc i (f.doff.toNat + m + 1) % 4 ≠ 0)
    swz := if f.regs then [] else [f.srec.val]
    row := if f.regs then badRow se.off h.sp h.rb h.nr (4 * se.words) else badRow pair h.sp h.rb h.nr (s.ircd i f.srec.val).extent }

/-- R209: `copymc` checked, and accepted once there is room. -/
def State.admitCopymc (s : State) (i : Iss) (h : EHdr) (f : CopymcF) : Admit :=
  let chk := s.copymcChk i f
  s.admitOne i h (.copymc f) (copymcReads f (s.mcCount i f)) chk
    { recs := [s.ircd i f.srec.val]
      tile := none
      src := if f.stl then s.itile i f.stn.val else none
      src2 := none
      land := []
      srcs := chk.srcs
      targets := (List.range (s.mcCount i f)).map fun j => McTarget.fresh (s.scalar i.core i.d (f.doff.toNat + 1 + j)) }

/-- R209. -/
def execCopymc (h : EHdr) (f : CopymcF) (s : State) : Out := issue s fun x => s.engIssued x [2] (s.admitCopymc x.iss h f)

def State.tfillChk (s : State) (i : Iss) (f : TfillF) : EngChk :=
  let n := s.isc i f.len.toNat
  let e := s.chkEnd i f.dtl f.dtn.val (s.isc i f.doff.toNat)
  { field := decide (47 < f.pat.toNat ∨ 47 < f.doff.toNat ∨ 47 < f.len.toNat)
    recs := []
    tiles := if f.dtl then [f.dtn.val] else []
    land := e.grans 0 n 1
    srcs := []
    size := decide (n % 4 ≠ 0 ∨ n < 4 ∨ 16777212 < n ∨ e.off % 4 ≠ 0)
    swz := []
    row := badRow e.off 0 n 1 (4 * e.words) }

/-- R211: `tfill` checked, and accepted once there is room. -/
def State.admitTfill (s : State) (i : Iss) (h : EHdr) (f : TfillF) : Admit :=
  let chk := s.tfillChk i f
  s.admitOne i h (.tfill f) [f.pat.toNat, f.doff.toNat, f.len.toNat] chk
    ⟨[], if f.dtl then s.itile i f.dtn.val else none, none, none, chk.land, [], []⟩

/-- R211. -/
def execTfill (h : EHdr) (f : TfillF) (s : State) : Out := issue s fun x => s.engIssued x [2] (s.admitTfill x.iss h f)

/-- R212: a count of 0 is a field value outside the command's table. -/
def State.admitEseq (s : State) (i : Iss) (h : EHdr) (f : EseqF) : Admit :=
  s.admitOne i h (.eseq f) [] ⟨f.cnt == 0, [], [], [], [], false, [], none⟩ ⟨[], none, none, none, [], [], []⟩

/-- R212. -/
def execEseq (h : EHdr) (f : EseqF) (s : State) : Out := issue s fun x => s.engIssued x [2] (s.admitEseq x.iss h f)

/-! ## Pieces (R200, R206, R211) -/

/-- The source of a copy: its record with a byte offset, or a register end. -/
def Cmd.copySrc (c : Cmd) : (Rcd × Nat) ⊕ RegEnd :=
  match c.body with
  | .copy f => if CopyF.srcMem f then .inl (c.rcd 0, c.sc2 f.soff.toNat) else .inr (c.regEnd c.src (c.sc f.soff.toNat))
  | .copymc f => if f.regs then .inr (c.regEnd c.src (c.sc f.soff.toNat)) else .inl (c.rcd 0, c.sc2 f.soff.toNat)
  | _ => .inr (c.frame 0)

/-- The shape of a copy. -/
def Cmd.shape (c : Cmd) : Shape :=
  match c.body with
  | .copy f => c.shapeAt f.shp.toNat
  | .copymc f => c.shapeAt f.shp.toNat
  | _ => ⟨0, 0, 0, 0⟩

/-- Bytes until a line ends. -/
def toLine (va : Nat) : Nat := 256 - va % 256
/-- Bytes until a chunk of 4 KiB ends (R347). -/
def toChunk (done : Nat) : Nat := 4096 - done % 4096

/-- The bytes of a piece of n bytes at offset x of a row of the source. -/
def State.copyRead (s : State) (c : Cmd) (row x n : Nat) : Except Next (List (Byte × Nat) × State) :=
  let h := c.shape
  match c.copySrc with
  | .inl (r, o) =>
    match s.reach c 0x60 ((r.base + o + row * h.sp + x : Int).toNat) n .read with
    | .error e => .error e
    | .ok (pa, s) => .ok (s.pieceBytes [(pa, n)], s)
  | .inr e => .ok ((s.core c.core).bytesAt ((4 * e.base + e.off + row * h.sp + x : Int).toNat) n, s)

/-- How long a piece may be at offset x of a row, for the source: within a line of memory. -/
def Cmd.srcLimit (c : Cmd) (row x : Nat) : Nat :=
  match c.copySrc with
  | .inl (r, o) => toLine ((r.base + o + row * c.shape.sp + x : Int).toNat)
  | .inr _ => 256

/-- The copy that a command waits for has landed (R207). -/
def State.startFollow (s : State) (c : Cmd) : State :=
  match c.follow with
  | none => s
  | some j => s.updCmd j fun m => { m with waits := none }

/-- Where a byte of a copy goes in memory. -/
def Cmd.copyDst (c : Cmd) (f : CopyF) (row x : Nat) : Nat := ((c.rcd 1).base + c.sc2 f.doff.toNat + row * c.shape.dp + x : Int).toNat

/-- The length of the piece of a copy at a byte of its transfer: within a row, a chunk, 256 B, and a line at either end. -/
def Cmd.copyLen (c : Cmd) (f : CopyF) (a : Nat) : Nat :=
  let h := c.shape
  let row := a / h.rb
  let x := a % h.rb
  let n := min (min (min 256 (h.rb - x)) (toChunk a)) (c.srcLimit row x)
  if CopyF.dstMem f then min n (toLine (c.copyDst f row x)) else n

/-- The pieces of the chunk of 4 KiB in progress. -/
def Cmd.chunk (c : Cmd) (len : Nat → Nat) (total : Nat) : List (Nat × Nat) := chunkPieces len (min total (c.done + toChunk c.done)) 4096 c.done

/-- A piece of a copy at byte a of its transfer: the state in which it has landed (R206). -/
def State.copyPiece (s : State) (id : Nat) (c : Cmd) (f : CopyF) (a n : Nat) : Except Next State :=
  let h := c.shape
  let row := a / h.rb
  let x := a % h.rb
  match s.copyRead c row x n with
  | .error e => .error e
  | .ok (l, s) =>
    if CopyF.dstMem f then
      match s.reach c 0x60 (c.copyDst f row x) n .write with
      | .error e => .error e
      | .ok (pa, s) => .ok ((s.engWrite pa (l.map Prod.fst) (firstMark (l.map Prod.snd))).countCmd id n [])
    else
      let e := c.regEnd c.tile (c.sc f.doff.toNat)
      let s := s.updCore c.core fun k => k.landBytes (4 * e.base + e.off + row * h.dp + x : Int).toNat l
      .ok (s.countCmd id n (e.span (e.off + row * h.dp + x) n))

/-- The next piece of a copy to registers or to memory: one of those of the chunk in progress (R206, log 29). -/
def State.copyNext (s : State) (id : Nat) (c : Cmd) (f : CopyF) : Next :=
  let total := c.shape.rb * c.shape.nr
  let pieces := c.chunk (c.copyLen f) total
  match s.nextPiece c pieces with
  | none => .wait
  | some (a, n) =>
    match s.copyPiece id c f a n with
    | .error e => e
    | .ok s =>
      let s := s.updCmd id fun c => c.landed pieces a
      .go (if total ≤ (c.landed pieces a).done then s.startFollow c else s)

/-- The next piece of a fill (R211). -/
def State.tfillNext (s : State) (id : Nat) (c : Cmd) (f : TfillF) : Next :=
  let total := c.sc f.len.toNat
  let pieces := c.chunk (fun a => min (min 256 (total - a)) (toChunk a)) total
  match s.nextPiece c pieces with
  | none => .wait
  | some (a, n) =>
    let e := c.regEnd c.tile (c.sc f.doff.toNat)
    let s := s.updCore c.core fun k => k.landWords (e.base + (e.off + a) / 4) (List.replicate (n / 4) (c.scal.getD f.pat.toNat 0, 0))
    .go ((s.countCmd id n (e.span (e.off + a) n)).updCmd id fun c => c.landed pieces a)

/-! ## Windows (R208, R210) -/

/-- The byte offset of a copy in its windows. -/
def Cmd.winOff (c : Cmd) : Nat :=
  match c.body with
  | .copy f => c.sc (f.doff.toNat + 1)
  | .copymc f => c.sc (f.doff.toNat + c.sc f.doff.toNat + 1)
  | _ => 0

/-- The window area of an exporter as a register end (R205). -/
def State.winEnd (s : State) (w : Win) (off : Nat) : Option RegEnd :=
  (Tbl.find s.warps w.warp).bind fun v => (v.dom w.dom).map fun d => ⟨d.a0 + 1152 + w.k0 * v.width, w.n * v.width, off⟩

/-- R208: the checks at the exporting core: the target admitted, or a cause. -/
def State.winAdmit (s : State) (c : Cmd) (t : McTarget) : Trap ⊕ McTarget :=
  let h := c.shape
  let bad (cause detail : Nat) : Trap ⊕ McTarget := .inl { cause := cause, detail := detail, addr := t.handle.toNat }
  match s.window (dieOf c.core) t.handle with
  | none => bad 0x25 0
  | some (core, _, w) =>
    match s.winEnd w c.winOff, Tbl.find s.warps c.wid with
    | some e, some iw =>
      let grant := ((iw.dom c.dom).bind Dom.call).bind fun k => k.windows.find? fun g => g.1 == t.handle.toNat
      let inside := s.scopeHolds iw.crew c.ctx w
      let land := (inside && w.l) || grant.any fun g => g.2.2.2
      let grans := e.grans h.dp h.rb h.nr
      if !inside && grant.isNone then bad 0x27 0
      else if !land then bad 0x26 0
      else if (badRow e.off h.dp h.rb h.nr (4 * e.words)).isSome then bad 0x23 0
      else if grans.any fun g => !((s.core core).gran g).own || s.infElsewhere core g w.warp w.dom w.pair then bad 0x26 1
      else .inr { t with checked := true, core := core, wid := w.warp, dom := w.dom, pair := w.pair, grans := grans }
    | _, _ => bad 0x25 0

def State.setTarget (s : State) (id i : Nat) (t : McTarget) : State := s.updCmd id fun c => { c with targets := c.targets.set i t }

/-- The targets of a copy that have not failed. -/
def Cmd.alive (c : Cmd) : List McTarget := c.targets.filter fun t => t.failed.isNone

/-- The source bytes that every target has acknowledged or failed (R200). -/
def Cmd.settledBytes (c : Cmd) : Nat :=
  let total := c.shape.rb * c.shape.nr
  (c.alive.map McTarget.done).foldl min total

/-- Counts the source bytes that have become settled; `done` holds those counted. -/
def State.countSettled (s : State) (id : Nat) : State :=
  match Tbl.find s.cmds id with
  | none => s
  | some c =>
    let n := c.settledBytes
    if n ≤ c.done then s else (s.countCmd id (n - c.done) []).updCmd id fun c => { c with done := n }

/-- The first piece reaches an exporting core (R208, R210), once the writes before the granules' `give` are performed (R140). -/
def State.checkTarget (s : State) (id : Nat) (c : Cmd) (i : Nat) (t : McTarget) : State :=
  match s.winAdmit c t, c.body with
  | .inl e, .copy _ => s.failCmd id e
  | .inl e, _ => (s.setTarget id i { t with checked := true, failed := some e }).countSettled id
  | .inr t, _ =>
    if s.givenIds t.core t.grans ≠ [] then s
    else (s.setTarget id i t).updCore t.core fun k => t.grans.foldl (fun k g => k.setGran g { k.gran g with inf := true }) k

/-- Lands a piece in a window: it counts into the exporter's pair and flips there (R208). -/
def State.landTarget (s : State) (id i : Nat) (t : McTarget) (e : RegEnd) (a : Int) (l : List (Byte × Nat)) : State :=
  let s := s.updCore t.core fun k => k.landBytes (4 * e.base + a.toNat) l
  let (s, drop) := (s.noteLanded t.wid t.dom t.pair id (e.span a l.length)).countBytes t.wid t.dom t.pair l.length
  let s := if drop = 0 then s else s.updCmd id fun c => { c with ovr := true }
  (s.setTarget id i { t with done := t.done + l.length }).countSettled id

/-- The next piece at a target: each branch takes its pieces in source order, and the targets in any (R210). A window that is gone stops
its target. -/
def State.windowNext (s : State) (id : Nat) (c : Cmd) : Next :=
  let h := c.shape
  let total := h.rb * h.nr
  match s.choose (c.targets.zipIdx.filter fun p => p.1.checked && p.1.failed.isNone && decide (p.1.done < total)) with
  | none => .wait
  | some (t, i) =>
    match s.window (dieOf c.core) t.handle with
    | none =>
      let gone : Trap := { cause := 0x25, addr := t.handle.toNat }
      match c.body with
      | .copy _ => .fail gone
      | _ => .go ((s.setTarget id i { t with failed := some gone }).countSettled id)
    | some (_, _, w) =>
      match s.winEnd w c.winOff with
      | none => .wait
      | some e =>
        let row := t.done / h.rb
        let x := t.done % h.rb
        let n := min (min (min 256 (h.rb - x)) (toChunk t.done)) (c.srcLimit row x)
        match s.copyRead c row x n with
        | .error e => e
        | .ok (l, s) => .go (s.landTarget id i t e (e.off + row * h.dp + x) l)

/-- How a multicast ends once every target has ended (R210). -/
def State.endMulticast (s : State) (id : Nat) (c : Cmd) : State :=
  let s := s.countSettled id
  let failed := (c.targets.zipIdx.filter fun p => p.1.failed.isSome).map Prod.snd
  let mask := failed.foldl (fun n i => n + 2 ^ i) 0
  if failed.isEmpty then s.endCmd id 1 0
  else
    let s := s.pendFault c.wid c.dom c.pair c.seq { cause := 0x36, detail := mask, eng := true }
    if failed.length = c.targets.length then s.endCmd id 3 0x36 else s.endCmd id 2 mask

end Sys2Proof.Machine
end

