-- ==== Sys2Proof/Machine/Gather.lean ====
section
/-! DEFINITION. Gather and scatter-accumulate (R213-R216). -/

namespace Sys2Proof.Machine

/-! ## Checks at issue (R213, R216) -/

/-- Bytes of a table element (R213). -/
def rowEsz (fmt : BitVec 3) : Nat :=
  match fmt.toNat with
  | 0 => 4
  | 1 | 2 => 2
  | _ => 1

/-- A scalar pair that is odd or above 46. -/
def pairBad (k : BitVec 6) : Bool := decide (k.toNat % 2 = 1 ∨ 46 < k.toNat)

/-- The row bytes of a table do not meet R213. -/
def rowBad (n esz stride : Nat) : Bool := decide (n * esz % 4 ≠ 0 ∨ 4096 < n * esz ∨ stride < n * esz)

/-- The index and offset words that a command reads from registers: where they begin and how many (R213). -/
def State.gathWords (s : State) (i : Iss) (f : GathF) : List (RegEnd × Nat) :=
  if f.isrc then
    (frameEnd i.d i.w.width (s.isc i (f.isc.toNat + 1)), s.isc i f.isc.toNat) ::
      if f.red = 0 then [] else [(frameEnd i.d i.w.width (s.isc i (f.bsc.toNat + 1)), s.isc i f.bsc.toNat + 1)]
  else []

/-- The lowest bad row of register words: every list is one row. -/
def wordsBad (l : List (RegEnd × Nat)) : List Nat :=
  l.filterMap fun p => if p.2 = 0 then none else badRow p.1.off 0 (4 * p.2) 1 (4 * p.1.words)

def State.gathChk (s : State) (i : Iss) (f : GathF) : EngChk :=
  let n := s.isc i f.isc.toNat
  let b := s.isc i f.bsc.toNat
  let nel := f.nel.toNat + 1
  let e := s.chkEnd i f.dtl f.dtn.val (s.isc i f.dsc.toNat)
  let out := if f.red = 0 then n else b
  let ws := s.gathWords i f
  { field := f.oor == 3 || decide (4 < f.fmt.toNat) || (f.dedup && f.red == 0) || pairBad f.isc || pairBad f.bsc ||
      decide (47 < f.dsc.toNat)
    recs := (f.trec.val, .load) :: if f.isrc then [] else (f.irec.val, .load) :: if f.red = 0 then [] else [(f.brec.val, .load)]
    tiles := if f.dtl then [f.dtn.val] else []
    land := e.grans (4 * nel) (4 * nel) out
    srcs := (ws.flatMap fun p => p.1.grans 0 (4 * p.2) 1).eraseDups
    size := decide (n = 0 ∨ 65536 < n) || (if f.red = 0 then b != 0 else decide (b = 0 ∨ 1024 < b)) ||
      rowBad nel (rowEsz f.fmt) (s.ircd i f.trec.val).stride || decide (e.off % 4 ≠ 0) || ws.any fun p => decide (p.1.off % 4 ≠ 0)
    swz := []
    row := leastBy id ((badRow e.off (4 * nel) (4 * nel) out (4 * e.words)).toList ++ wordsBad ws) }

/-- A marked index or offset word in registers (R319). -/
def State.markedWord (s : State) (i : Iss) (l : List (RegEnd × Nat)) : Option Trap :=
  let core := s.core i.core
  ((l.flatMap fun p => (List.range p.2).map fun j => p.1.base + p.1.off / 4 + j).find? fun a => core.mark a != 0).map fun a =>
    { cause := 0x50, addr := a, detail := core.mark a }

/-- R213: `gath` checked, and accepted once there is room. -/
def State.admitGath (s : State) (i : Iss) (h : EHdr) (f : GathF) : Admit :=
  let chk := s.gathChk i f
  let k := f.isc.toNat
  let b := f.bsc.toNat
  let a := s.admitOne i h (.gath f) [k, k + 1, b, b + 1, f.dsc.toNat] chk
    ⟨[s.ircd i f.trec.val, s.ircd i f.irec.val, s.ircd i f.brec.val], if f.dtl then s.itile i f.dtn.val else none, none, none, chk.land,
      chk.srcs, []⟩
  match a, s.markedWord i (s.gathWords i f) with
  | .trap t, _ => .trap t
  | _, some t => .trap t
  | a, none => a

/-- R213. -/
def execGath (h : EHdr) (f : GathF) (s : State) : Out := issue s fun x => s.engIssued x [2] (s.admitGath x.iss h f)

def State.scataWords (s : State) (i : Iss) (f : ScataF) : List (RegEnd × Nat) :=
  if f.isrc then [(frameEnd i.d i.w.width (s.isc i (f.isc.toNat + 1)), s.isc i f.isc.toNat)] else []

def State.scataChk (s : State) (i : Iss) (f : ScataF) : EngChk :=
  let n := s.isc i f.isc.toNat
  let nel := f.nel.toNat + 1
  let e := s.chkEnd i f.dtl f.dtn.val (s.isc i f.dsc.toNat)
  let ws := s.scataWords i f
  { field := f.oor == 3 || decide (1 < f.fmt.toNat) || pairBad f.isc || decide (47 < f.dsc.toNat)
    recs := (f.trec.val, .atom .fadd) :: if f.isrc then [] else [(f.irec.val, .load)]
    tiles := if f.dtl then [f.dtn.val] else []
    land := []
    srcs := (e.grans (4 * nel) (4 * nel) n ++ ws.flatMap fun p => p.1.grans 0 (4 * p.2) 1).eraseDups
    size := decide (n = 0 ∨ 65536 < n) || rowBad nel (rowEsz f.fmt) (s.ircd i f.trec.val).stride || decide (e.off % 4 ≠ 0) ||
      ws.any fun p => decide (p.1.off % 4 ≠ 0)
    swz := []
    row := leastBy id ((badRow e.off (4 * nel) (4 * nel) n (4 * e.words)).toList ++ wordsBad ws) }

/-- R216: `scata` checked, and accepted once there is room. -/
def State.admitScata (s : State) (i : Iss) (h : EHdr) (f : ScataF) : Admit :=
  let chk := s.scataChk i f
  let k := f.isc.toNat
  let a := s.admitOne i h (.scata f) [k, k + 1, f.dsc.toNat] chk
    ⟨[s.ircd i f.trec.val, s.ircd i f.irec.val], none, if f.dtl then s.itile i f.dtn.val else none, none, [], chk.srcs, []⟩
  match a, s.markedWord i (s.scataWords i f) with
  | .trap t, _ => .trap t
  | _, some t => .trap t
  | a, none => a

/-- R216. -/
def execScata (h : EHdr) (f : ScataF) (s : State) : Out := issue s fun x => s.engIssued x [2] (s.admitScata x.iss h f)

/-! ## Indices and offsets (R213) -/

/-- n words of a record from element `first` on (R153). One out of extent under FAULT fails by a bounds policy, E + 3 (R201); the
element's number in TDETAIL is a choice (DESIGN CHOICE, log 96). -/
def State.recWords (s : State) (c : Cmd) (e : Nat) (r : Rcd) (first n : Nat) : Except Next (List Nat × State) :=
  if r.swzBad then .error (.fail { cause := e + 1, detail := 0x43 })
  else (List.range n).foldlM (fun (acc : List Nat × State) j =>
    match r.address ((first + j : Nat) : Int) 0 4 with
    | none => if r.fault then .error (.fail { cause := e + 3, detail := first + j, addr := r.faultAddr ((first + j : Nat) : Int) 0 })
      else .ok (acc.1 ++ [0], acc.2)
    | some va =>
      if va % 4 ≠ 0 then .error (.fail { cause := e + 1, detail := 0x42, addr := va })
      else match acc.2.reach c e va 4 .read with
        | .error x => .error x
        | .ok (pa, s) => .ok (acc.1 ++ [s.readNat pa 4], s)) ([], s)

/-- n words of the frame from a byte offset on. -/
def State.frameWords (s : State) (c : Cmd) (off n : Nat) : List Nat :=
  (((s.core c.core).words ((c.frame off).base + off / 4) n).map Prod.fst).map BitVec.toNat

/-- The bag that breaks the order of the offsets (R214). -/
def badBag (offs : List Nat) (n : Nat) : Option Nat :=
  (List.range (offs.length - 1)).find? fun b => decide (offs.getD (b + 1) 0 < offs.getD b 0 ∨ n < offs.getD (b + 1) 0)

/-- A gather or scatter-accumulate starts: its lists are read, and the bags must stand in order. -/
def State.gathStart (s : State) (id : Nat) (c : Cmd) (f : GathF) : Next :=
  let n := c.sc f.isc.toNat
  let i0 := c.sc (f.isc.toNat + 1)
  let b0 := c.sc (f.bsc.toNat + 1)
  let nb := if f.red = 0 then 0 else c.sc f.bsc.toNat + 1
  let lists : Except Next (List Nat × List Nat × State) :=
    if f.isrc then .ok (s.frameWords c i0 n, s.frameWords c b0 nb, s)
    else match s.recWords c 0x64 (c.rcd 1) i0 n with
      | .error e => .error e
      | .ok (idx, s) =>
        match s.recWords c 0x64 (c.rcd 2) b0 nb with
        | .error e => .error e
        | .ok (offs, s) => .ok (idx, offs, s)
  match lists with
  | .error e => e
  | .ok (idx, offs, s) =>
    match badBag offs n with
    | some b => .fail { cause := 0x64, detail := 6, addr := b }
    | none => .go (s.updCmd id fun c => { c with started := true, lists := [idx, offs], next := offs.headD 0 })

/-! ## Bags (R214, R215) -/

/-- A row selected by an index: skipped, a row, or a failure. -/
inductive RowSel where
  | skip | row (x : Nat) | fault
  deriving DecidableEq, Repr

/-- R214: a table without a row leaves nothing to clamp to, which is a failure of the policy. -/
def selectRow (oor : BitVec 2) (rows idx : Nat) : RowSel :=
  let x := (BitVec.ofNat 32 idx).toInt
  if 0 ≤ x ∧ x < rows then .row x.toNat
  else if oor = 0 then .skip
  else if oor = 1 ∧ 0 < rows then .row (rows - 1)
  else .fault

/-- C of a bag, with the number of skipped indices, or the index that fails. -/
def bagRows (f : GathF) (rows : Nat) (idx : List Nat) : Nat → Nat → Except Nat (List Nat × Nat)
  | _, 0 => .ok ([], 0)
  | j, n + 1 =>
    match selectRow f.oor rows (idx.getD (j + n) 0) with
    | .fault => match bagRows f rows idx j n with
      | .error k => .error k
      | .ok _ => .error (j + n)
    | .skip => (bagRows f rows idx j n).map fun p => (p.1, p.2 + 1)
    | .row x => (bagRows f rows idx j n).map fun p => (if f.dedup && p.1.contains x then p.1 else p.1 ++ [x], p.2)

/-- The FP32 value of a table element (R214). -/
def widenElem (fmt : BitVec 3) (code : Nat) : Nat :=
  match fmt.toNat with
  | 0 => (cvtV .f32 .f32 .rne false false code).val
  | 1 => (cvtV .f32 .bf16 .rne false false code).val
  | 2 => (cvtV .f32 .f16 .rne false false code).val
  | 3 => (cvtV .f32 .e4m3 .rne false false code).val
  | _ => (cvtV .f32 .e5m2 .rne false false code).val

/-- One element of a row on its way: the value, its mark, and the port that owns its line. -/
structure RowElem where
  (val mark port : Nat)
  deriving DecidableEq, Repr

/-- Reads row x of the table: its elements in order; `i` tells rows of tier 2 apart (R215). -/
def State.tableRow (s : State) (c : Cmd) (f : GathF) (x i : Nat) : Except Next (List RowElem × State) :=
  let t := c.rcd 0
  let esz := rowEsz f.fmt
  let nel := f.nel.toNat + 1
  match s.reachAll c 0x64 .read (linePieces (t.base + x * t.stride) (nel * esz)) with
  | .error e => .error e
  | .ok (l, s) =>
    let bytes := l.flatMap fun p => (s.readBytes p.1 p.2).map fun b =>
      (b, s.lineMark p.1, if tier2 p.1 then 2 ^ 19 + i else s.portOf p.1)
    .ok ((List.range nel).map fun k =>
      let q := (bytes.drop (k * esz)).take esz
      ⟨widenElem f.fmt (leNat (q.map Prod.fst)), firstMark (q.map fun b => b.2.1), (q.map fun b => b.2.2).headD 0⟩, s)

/-- Reads rows of the table, numbered from `first` on among their bag's. -/
def State.tableRows (s : State) (c : Cmd) (f : GathF) (first : Nat) (l : List Nat) : Except Next (List (List RowElem) × State) :=
  (l.zipIdx first).foldlM (fun (acc : List (List RowElem) × State) p =>
    match acc.2.tableRow c f p.1 p.2 with
    | .error e => .error e
    | .ok (r, s) => .ok (acc.1 ++ [r], s)) ([], s)

/-- One RNE addition (R215). -/
def add32 (a b : Nat) : Nat := (faddV f32 .rne (fdec f32 a) (fdec f32 b)).val
/-- The IEEE maximum (R214). -/
def max32 (a b : Nat) : Nat := (fminV f32 true (fdec f32 a) (fdec f32 b)).val

/-- The port number that stands for the engine's own sum. -/
def enginePort : Nat := 2 ^ 20

/-- A column goes on over further rows in list order: the value so far, if there is one, and the mark. -/
def foldColumn (op : Nat → Nat → Nat) (v : Option Word) (mk : Nat) (l : List RowElem) : Option Word × Nat :=
  (l.foldl (fun v q => some (BitVec.ofNat 32 (match v with
    | none => q.val
    | some w => op w.toNat q.val))) v, firstMark (mk :: l.map RowElem.mark))

/-- The partial of a bag at a port; blank where there is none yet. -/
def partialAt (nel bag port : Nat) (parts : List Partial) : Partial :=
  (parts.find? fun q => q.bag == bag && q.port == port).getD ⟨bag, port, List.replicate nel none, List.replicate nel 0⟩

/-- Further rows of a bag join its partials: those of the ports that hold their elements, or the engine's own, which folds whole rows
under `max`, in ORDERED mode and without a reduction (R214, R215). -/
def addRows (f : GathF) (bag : Nat) (rows : List (List RowElem)) (parts : List Partial) : List Partial :=
  let nel := f.nel.toNat + 1
  let op := if f.red = 3 then max32 else add32
  let whole := f.red == 3 || f.red == 0 || f.ordered
  let ports := if whole then [enginePort] else ((rows.flatten).map RowElem.port).eraseDups
  ports.foldl (fun parts p =>
    let old := partialAt nel bag p parts
    let cols := (List.range nel).map fun k =>
      foldColumn op (old.vals.getD k none) (old.marks.getD k 0) ((rows.filterMap fun r => r[k]?).filter fun e => whole || e.port == p)
    ⟨bag, p, cols.map Prod.fst, cols.map Prod.snd⟩ :: parts.filter fun q => !(q.bag == bag && q.port == p)) parts

/-- A column of the output: +0 for an empty bag, the mean under RED 10 (R214). -/
def outWord (f : GathF) (n : Nat) : Option Word → Word
  | none => 0
  | some w => if f.red = 2 then BitVec.ofNat 32 (fdivV f32 (fdec f32 w.toNat) (.num false n 0)).val else w

/-- The indices of output row q (R214). -/
def bagRange (f : GathF) (offs : List Nat) (q : Nat) : Nat × Nat :=
  if f.red = 0 then (q, 1) else (offs.getD q 0, offs.getD (q + 1) 0 - offs.getD q 0)

/-- The bags of a gather: one per index under RED 00 (R214). -/
def Cmd.bags (c : Cmd) (f : GathF) : Nat := if f.red = 0 then c.sc f.isc.toNat else c.sc f.bsc.toNat
/-- The index position at which the last bag ends. -/
def Cmd.lastIndex (c : Cmd) (f : GathF) : Nat := if f.red = 0 then c.sc f.isc.toNat else (c.lists.getD 1 []).getD (c.sc f.bsc.toNat) 0
/-- The index position at which a bag ends. -/
def Cmd.bagEnd (c : Cmd) (f : GathF) (q : Nat) : Nat :=
  let r := bagRange f (c.lists.getD 1 []) q
  r.1 + r.2

/-- The pieces of 256 B that may land: of bags whose rows have all been read and whose partials have all arrived (R214, R215). -/
def Cmd.gathReady (c : Cmd) (f : GathF) : List (Nat × Nat) :=
  let nel := f.nel.toNat + 1
  ((List.range (c.bags f)).filter fun q =>
    decide (c.bagEnd f q ≤ c.next) && c.parts.all fun p => p.bag != q || p.port == enginePort).flatMap fun q =>
      ((List.range ((nel + 63) / 64)).map fun j => (q, 64 * j)).filter fun p => !c.ahead.contains (4 * nel * p.1 + 4 * p.2)

/-- The rows of the next indices are read: those of one bag, up to the end of the group of 64 (R214, R347). -/
def State.gathRead (s : State) (id : Nat) (c : Cmd) (f : GathF) : Next :=
  let t := c.rcd 0
  let idx := c.lists.getD 0 []
  let q := ((List.range (c.bags f)).find? fun q => decide (c.next < c.bagEnd f q)).getD 0
  let a := (bagRange f (c.lists.getD 1 []) q).1
  let stop := min (c.bagEnd f q) ((c.next / 64 + 1) * 64)
  match bagRows f (t.extent / t.stride) idx a (stop - a), bagRows f (t.extent / t.stride) idx a (c.next - a) with
  | .error j, _ | _, .error j => .fail { cause := 0x67, detail := j }
  | .ok (rows, skipped), .ok (old, before) =>
    match s.tableRows c f old.length (rows.drop old.length) with
    | .error e => e
    | .ok (l, s) => .go (s.updCmd id fun c =>
        { c with next := stop, aux := c.aux + (skipped - before), parts := addRows f q l c.parts })

/-- A piece of an output row lands (R200, R214). -/
def State.gathLand (s : State) (id : Nat) (c : Cmd) (f : GathF) (q k : Nat) : State :=
  let nel := f.nel.toNat + 1
  let t := c.rcd 0
  let r := bagRange f (c.lists.getD 1 []) q
  let len := match bagRows f (t.extent / t.stride) (c.lists.getD 0 []) r.1 r.2 with
    | .ok (rows, _) => rows.length
    | .error _ => 0
  let p := partialAt nel q enginePort c.parts
  let n := min 64 (nel - k)
  let a := 4 * nel * q + 4 * k
  let e := c.regEnd c.tile (c.sc f.dsc.toNat)
  let words := (List.range n).map fun j => (outWord f len (p.vals.getD (k + j) none), p.marks.getD (k + j) 0)
  let s := s.updCore c.core fun m => m.landWords (e.base + (e.off + a) / 4) words
  (s.countCmd id (4 * n) (e.span (e.off + a) (4 * n))).updCmd id fun c => { c with done := c.done + 4 * n, ahead := a :: c.ahead }

/-- The next step of a gather: its lists, the rows of further indices, or a piece that lands; reading and landing go on side by side,
in no promised order (R189, R215, log 29). -/
def State.gathNext (s : State) (id : Nat) (c : Cmd) (f : GathF) : Next :=
  if !c.started then s.gathStart id c f
  else
    match s.choose ((if c.next < c.lastIndex f then [none] else []) ++ (c.gathReady f).map some) with
    | none => .wait
    | some none => s.gathRead id c f
    | some (some (q, k)) => .go (s.gathLand id c f q k)

/-- A port's partial reaches the engine, once the port has folded every row of the bag (R215). -/
def State.arrive (s : State) (id bag port : Nat) : State :=
  match Tbl.find s.cmds id with
  | none => s
  | some c =>
    match c.parts.find? fun p => p.bag == bag && p.port == port && p.port != enginePort with
    | none => s
    | some p =>
      let read := match c.body with
        | .gath f => decide (c.bagEnd f bag ≤ c.next)
        | _ => false
      if !read then s else
      let rest := c.parts.filter fun q => !(q.bag == bag && q.port == port)
      let join (a b : Option Word) : Option Word := match a, b with
        | some v, some w => some (BitVec.ofNat 32 (add32 v.toNat w.toNat))
        | some v, none => some v
        | none, w => w
      let own (q : Partial) : Bool := q.bag == bag && q.port == enginePort
      let sum : Partial := match rest.find? own with
        | none => { p with port := enginePort }
        | some q => ⟨bag, enginePort, (q.vals.zip p.vals).map fun v => join v.1 v.2, (q.marks.zip p.marks).map fun m => firstMark [m.1, m.2]⟩
      s.updCmd id fun c => { c with parts := sum :: rest.filter fun q => !own q }

/-! ## Scatter-accumulate (R216) -/

/-- Adds one FP32 element into a table element: the new code. -/
def accumulate (fmt : BitVec 3) (old : Nat) (v : Word) : Nat :=
  if fmt = 0 then add32 old v.toNat
  else (faddV bf16 .rne (fdec bf16 old) (fdec bf16 (cvtV .bf16 .f32 .rne false false v.toNat).val)).val

/-- The length of the piece of a scatter at an element of its source: those of one row in one line. -/
def Cmd.scataLen (c : Cmd) (f : ScataF) (a : Nat) : Nat :=
  let nel := f.nel.toNat + 1
  let esz := rowEsz f.fmt
  let t := c.rcd 0
  match selectRow f.oor (t.extent / t.stride) ((c.lists.getD 0 []).getD (a / nel) 0) with
  | .row x => min (nel - a % nel) (max 1 (toLine (t.base + x * t.stride + a % nel * esz) / esz))
  | _ => nel - a % nel

/-- The next accumulations of a scatter: a piece of the group of 64 indices in progress, in no promised order (R216). Each accumulation
counts once (R200), and each is followed by the line's waiters (R171). -/
def State.scataNext (s : State) (id : Nat) (c : Cmd) (f : ScataF) : Next :=
  let n := c.sc f.isc.toNat
  let nel := f.nel.toNat + 1
  let esz := rowEsz f.fmt
  let t := c.rcd 0
  if !c.started then
    let i0 := c.sc (f.isc.toNat + 1)
    match (if f.isrc then .ok (s.frameWords c i0 n, s) else s.recWords c 0x68 (c.rcd 1) i0 n) with
    | .error e => e
    | .ok (idx, s) => .go (s.updCmd id fun c => { c with started := true, lists := [idx] })
  else
    let pieces := chunkPieces (c.scataLen f) (min (n * nel) ((c.done / (64 * nel) + 1) * (64 * nel))) (64 * nel) c.done
    match s.nextPiece c pieces with
    | none => .wait
    | some (a, m) =>
    let j := a / nel
    let k := a % nel
    match selectRow f.oor (t.extent / t.stride) ((c.lists.getD 0 []).getD j 0) with
    | .fault => .fail { cause := 0x6B, detail := j }
    | .skip => .go (s.updCmd id fun c => c.landed pieces a)
    | .row x =>
      let va := t.base + x * t.stride + k * esz
      match s.reach c 0x68 va (m * esz) .both with
      | .error e => e
      | .ok (pa, s) =>
        if tier2 pa then .fail { cause := 0x69, detail := 0x45, addr := va }
        else
          let e := c.regEnd c.src (c.sc f.dsc.toNat)
          let add (s : State) (i : Nat) : State :=
            let w := e.base + e.off / 4 + j * nel + k + i
            let a := pa + i * esz
            let s := s.writeNat a esz (accumulate f.fmt (s.readNat a esz) ((s.core c.core).word w))
            let mk := (s.core c.core).mark w
            (if mk ≠ 0 then s.setLineMark a mk else s).wake (pa / 256)
          .go ((((List.range m).foldl add s).countCmd id m []).updCmd id fun c => c.landed pieces a)

end Sys2Proof.Machine
end

