-- ==== Sys2Proof/Machine/KvTree.lean ====
section
/-! DEFINITION. The tree of the context store as it stands in memory: models, sequences, nodes, layer tables and blocks (R245-R253). -/

namespace Sys2Proof.Machine

/-! ## Models (R246) -/

/-- An installed model: its key in State.models, its context and its record. -/
structure Mdl where
  (key ctx : Nat) (rcd : BitVec 1024)
  deriving DecidableEq, Repr

namespace Mdl
def f (m : Mdl) (hi lo : Nat) : Nat := (m.rcd.extractLsb' lo (hi + 1 - lo)).toNat
def dver (m : Mdl) : Nat := m.f 1007 992
def layers (m : Mdl) : Nat := m.f 991 984
def heads (m : Mdl) : Nat := m.f 983 976
def dim (m : Mdl) : Nat := 16 * 2 ^ m.f 975 974
def fmt (m : Mdl) : Fmt := match m.f 973 972 with
  | 0 => .bf16
  | 1 => .f16
  | _ => .e4m3
def esz (m : Mdl) : Nat := if m.f 973 972 = 2 then 1 else 2
def pool (m : Mdl) : Nat := m.f 967 912
def nodes (m : Mdl) : Nat := m.f 911 856
def seqt (m : Mdl) : Nat := m.f 855 800
def tabs (m : Mdl) : Nat := m.f 799 744
def ctl (m : Mdl) : Nat := m.f 743 688
def freq (m : Mdl) : Nat := m.f 687 632
def tprb (m : Mdl) : Nat := m.f 631 576
def trep (m : Mdl) : Nat := m.f 575 520
def nblk (m : Mdl) : Nat := m.f 511 480
def nnode (m : Mdl) : Nat := m.f 479 448
def ntab (m : Mdl) : Nat := m.f 447 416
/-- BSIZE (R245). -/
def bsize (m : Mdl) : Nat := (2 * 16 * m.heads * m.dim * m.esz + 255) / 256 * 256
/-- Tables of 1 KiB that a layer table takes: L entries of 16 B (log 20). -/
def ltabs (m : Mdl) : Nat := (16 * m.layers + 1023) / 1024
/-- The VA of element d of head h in slot t of a block: a key or a value (R245). -/
def elem (m : Mdl) (block : Nat) (value : Bool) (h t d : Nat) : Nat :=
  m.pool + block * m.bsize + (if value then 16 * m.heads * m.dim * m.esz else 0) + ((t * m.heads + h) * m.dim + d) * m.esz
end Mdl

/-- The model of a slot of a context, while it holds a valid record. -/
def State.mdl (s : State) (ctx slot : Nat) : Option Mdl :=
  match Tbl.find s.models (ctx * 16 + slot) with
  | some m => if m.rcd.getLsbD 1023 then some ⟨ctx * 16 + slot, ctx, m.rcd⟩ else none
  | none => none

/-! ## Records of the tree (R247-R249) -/

/-- The index that means none. -/
def noNode : Nat := 0xFFFFFFFF

structure SeqRec where
  (leaf len basep : Nat) (valid : Bool) (gen : Nat)
  deriving DecidableEq, Repr

structure Node where
  (ltab parent child sib start len pdelta doc dver ref src job model boff state : Nat)
  deriving DecidableEq, Repr

/-- An entry of a layer table: STAB, WM, BTAB. -/
structure LEntry where
  (stab wm btab : Nat)
  deriving DecidableEq, Repr

def SeqRec.ofNat (n : Nat) : SeqRec := ⟨n / 2 ^ 96 % 2 ^ 32, n / 2 ^ 64 % 2 ^ 32, n / 2 ^ 32 % 2 ^ 32, n.testBit 13, n % 4096⟩
def SeqRec.toNat (r : SeqRec) : Nat :=
  r.leaf * 2 ^ 96 + r.len * 2 ^ 64 + r.basep * 2 ^ 32 + (if r.valid then 2 ^ 13 else 0) + r.gen
def Node.ofNat (n : Nat) : Node :=
  let f (hi lo : Nat) : Nat := n / 2 ^ lo % 2 ^ (hi + 1 - lo)
  ⟨f 1015 960, f 959 928, f 927 896, f 895 864, f 863 832, f 831 800, f 799 768, f 767 736, f 735 720, f 719 704, f 703 672, f 671 656,
    f 655 652, f 651 648, f 647 646⟩
def Node.toNat (x : Node) : Nat :=
  x.ltab * 2 ^ 960 + x.parent * 2 ^ 928 + x.child * 2 ^ 896 + x.sib * 2 ^ 864 + x.start * 2 ^ 832 + x.len * 2 ^ 800 +
    x.pdelta % 2 ^ 32 * 2 ^ 768 + x.doc * 2 ^ 736 + x.dver * 2 ^ 720 + x.ref * 2 ^ 704 + x.src * 2 ^ 672 + x.job * 2 ^ 656 +
    x.model * 2 ^ 652 + x.boff * 2 ^ 648 + x.state * 2 ^ 646
def LEntry.ofNat (n : Nat) : LEntry := ⟨n / 2 ^ 72 % 2 ^ 56, n / 2 ^ 64 % 4, n % 2 ^ 56⟩
def LEntry.toNat (e : LEntry) : Nat := e.stab * 2 ^ 72 + e.wm * 2 ^ 64 + e.btab

/-- A JOB field or a job handle that names no job (R248, R265). -/
def noJob : Nat := 0xFFFF

namespace Mdl
def seqRec (m : Mdl) (s : State) (i : Nat) : SeqRec := .ofNat (s.vreadNat m.ctx (m.seqt + 16 * i) 16)
def putSeq (m : Mdl) (s : State) (i : Nat) (r : SeqRec) : State := s.vwriteNat m.ctx (m.seqt + 16 * i) 16 r.toNat
def node (m : Mdl) (s : State) (i : Nat) : Node := .ofNat (s.vreadNat m.ctx (m.nodes + 128 * i) 128)
def putNode (m : Mdl) (s : State) (i : Nat) (x : Node) : State := s.vwriteNat m.ctx (m.nodes + 128 * i) 128 x.toNat
def updNode (m : Mdl) (s : State) (i : Nat) (g : Node → Node) : State := m.putNode s i (g (m.node s i))
def entry (m : Mdl) (s : State) (x : Node) (l : Nat) : LEntry := .ofNat (s.vreadNat m.ctx (x.ltab + 16 * l) 16)
def putEntry (m : Mdl) (s : State) (x : Node) (l : Nat) (e : LEntry) : State := s.vwriteNat m.ctx (x.ltab + 16 * l) 16 e.toNat
def block (m : Mdl) (s : State) (tab i : Nat) : Nat := s.vreadNat m.ctx (tab + 4 * i) 4
def putBlock (m : Mdl) (s : State) (tab i b : Nat) : State := s.vwriteNat m.ctx (tab + 4 * i) 4 b
end Mdl

/-! ## Counts and allocation (R250) -/

def State.updModel (s : State) (m : Mdl) (f : Model → Model) : State := { s with models := Tbl.upd s.models m.key f }
def State.refOf (s : State) (m : Mdl) (b : Nat) : Nat := ((Tbl.find s.models m.key).map fun x => Sparse.read 0 x.refs b).getD 0
def State.pinOf (s : State) (m : Mdl) (b : Nat) : Nat := ((Tbl.find s.models m.key).map fun x => Sparse.read 0 x.pins b).getD 0
def State.setRef (s : State) (m : Mdl) (b n : Nat) : State := s.updModel m fun x => { x with refs := Sparse.write 0 x.refs b n }
def State.setPin (s : State) (m : Mdl) (b n : Nat) : State := s.updModel m fun x => { x with pins := Sparse.write 0 x.pins b n }
/-- A reference is dropped: a block without references drains until its pins are gone, and is then free. -/
def State.dropRef (s : State) (m : Mdl) (b : Nat) : State := s.setRef m b (s.refOf m b - 1)

/-- A step over the tree: a trap, or a value with the state after it. -/
abbrev Kv (α : Type) := Except Trap (α × State)

/-- Zero-fills a range of virtual memory, and clears its marks. -/
def State.vzero (s : State) (ctx va n : Nat) : State :=
  (linePieces va n).foldl (fun s p => match s.present ctx p.1 with
    | some pa => ({ s with mem := Sparse.clear s.mem pa p.2 } : State).setLineMark pa 0
    | none => s) s

/-- Zero-fills part of a line or more of virtual memory; the marks stay. -/
def State.vclear (s : State) (ctx va n : Nat) : State :=
  (linePieces va n).foldl (fun s p => match s.present ctx p.1 with
    | some pa => { s with mem := Sparse.clear s.mem pa p.2 }
    | none => s) s

/-- Copies a range of virtual memory line by line, with the marks (R319). -/
def State.vcopy (s : State) (ctx src dst n : Nat) : State :=
  (linePieces src n).foldl (fun s p => match s.present ctx p.1, s.present ctx (dst + (p.1 - src)) with
    | some a, some b => (s.writeBytes b (s.readBytes a p.2)).setLineMark b (s.lineMark a)
    | _, _ => s) s

/-- The blocks of a model that appends in progress have taken off the free list (R261). -/
def State.heldBlocks (s : State) (m : Mdl) : List Nat :=
  s.cmds.flatMap fun p => match p.2.grow with
    | some g => if g.key = m.key then g.held.flatMap Prod.snd else []
    | none => []

/-- A fresh block: the lowest free one (log 6), zero-filled, with one reference. -/
def Mdl.newBlock (m : Mdl) (s : State) : Kv Nat :=
  let held := s.heldBlocks m
  match (List.range m.nblk).find? fun b => s.refOf m b == 0 && s.pinOf m b == 0 && !held.contains b with
  | none => .error { cause := 0x87 }
  | some b => .ok (b, (s.vzero m.ctx (m.pool + b * m.bsize) m.bsize).setRef m b 1)

/-- A fresh block with the contents of another. -/
def Mdl.copyBlock (m : Mdl) (s : State) (b : Nat) : Kv Nat :=
  match m.newBlock s with
  | .error t => .error t
  | .ok (n, s) => .ok (n, s.vcopy m.ctx (m.pool + b * m.bsize) (m.pool + n * m.bsize) m.bsize)

/-- The tables of 1 KiB in use. -/
def State.tabsUsed (s : State) (m : Mdl) : List Nat := ((Tbl.find s.models m.key).map Model.tabs).getD []

/-- n tables that stand side by side: the lowest free run (log 6). -/
def Mdl.newTabs (m : Mdl) (s : State) (n : Nat) : Kv Nat :=
  let used := s.tabsUsed m
  match (List.range (m.ntab + 1 - n)).find? fun i => (List.range n).all fun j => !used.contains (i + j) with
  | none => .error { cause := 0x87, detail := 2 }
  | some i => .ok (m.tabs + 1024 * i, s.updModel m fun x => { x with tabs := x.tabs ++ (List.range n).map fun j => i + j })

/-- Gives n tables back. -/
def Mdl.freeTabs (m : Mdl) (s : State) (va n : Nat) : State :=
  let i := (va - m.tabs) / 1024
  s.updModel m fun x => { x with tabs := x.tabs.filter fun j => decide (j < i) || decide (i + n ≤ j) }

/-- A fresh block table holding the given blocks; the rest is empty (R249). -/
def Mdl.newTable (m : Mdl) (s : State) (l : List Nat) : Kv Nat :=
  match m.newTabs s 1 with
  | .error t => .error t
  | .ok (va, s) => .ok (va, s.vwrite m.ctx va ((l ++ List.replicate (256 - l.length) noNode).flatMap fun b => leBytes 4 b))

/-- A fresh node: the lowest free one (log 6). -/
def Mdl.newNode (m : Mdl) (s : State) : Kv Nat :=
  match (List.range m.nnode).find? fun i => (m.node s i).state == 0 with
  | none => .error { cause := 0x87, detail := 1 }
  | some i => .ok (i, s)

/-- Bytes as 32-bit little-endian words. -/
def words4 : List Byte → List Nat
  | a :: b :: c :: d :: l => leNat [a, b, c, d] :: words4 l
  | _ => []

/-- The blocks that a table names: those of its node's slots (R249). -/
def Mdl.tableBlocks (m : Mdl) (s : State) (tab : Nat) : List Nat :=
  ((words4 (s.vread m.ctx tab 1024)).takeWhile fun b => b != noNode)

/-- Layer tables with one block table per layer, built by `g` layer by layer: the VA of the layer table. -/
def Mdl.buildLayers (m : Mdl) (s : State) (g : State → Nat → Kv LEntry) : Kv Nat :=
  match m.newTabs s m.ltabs with
  | .error t => .error t
  | .ok (va, s) =>
    ((List.range m.layers).foldlM (fun (acc : Nat × State) l =>
      match g acc.2 l with
      | .error t => .error t
      | .ok (e, s) => .ok (va, s.vwriteNat m.ctx (va + 16 * l) 16 e.toNat)) (va, s) : Except Trap (Nat × State))

/-- The rows that `kvst` commands have resolved through a block table and not written yet follow a change to the table (R253). -/
def Mdl.redirect (m : Mdl) (s : State) (tab : Nat) (g : KvRow → KvRow) : State :=
  { s with cmds := Tbl.mapVals s.cmds fun _ c => match c.body with
      | .kvst _ => if c.ctx = m.ctx then { c with rows := c.rows.map fun r => if r.tab = some tab then g r else r } else c
      | _ => c }

/-- Frees a table and drops its blocks' references. -/
def Mdl.dropTable (m : Mdl) (s : State) (tab : Nat) : State :=
  let s := m.redirect s tab fun r => { r with tab := none }
  m.freeTabs ((m.tableBlocks s tab).foldl (fun s b => s.dropRef m b) s) tab 1

/-! ## Sequences (R247) -/

/-- A sequence by its handle: its model, its slot and its record; none where the handle is stale. -/
def State.seqOf (s : State) (ctx : Nat) (h : Nat) : Option (Mdl × Nat × SeqRec) :=
  match s.mdl ctx (h / 2 ^ 28) with
  | none => none
  | some m =>
    let i := h / 2 ^ 12 % 2 ^ 16
    let r := m.seqRec s i
    if r.valid ∧ r.gen = h % 4096 ∧ i ≠ 0xFFFF then some (m, i, r) else none

def seqHandle (slot i gen : Nat) : Nat := slot * 2 ^ 28 + i * 2 ^ 12 + gen

/-- The path of a sequence from its leaf to the root: node numbers with their records. -/
def Mdl.path (m : Mdl) (s : State) : Nat → Nat → List (Nat × Node)
  | 0, _ => []
  | n + 1, i => if i = noNode then [] else
    let x := m.node s i
    (i, x) :: m.path s n x.parent
def Mdl.pathOf (m : Mdl) (s : State) (r : SeqRec) : List (Nat × Node) := m.path s m.nnode r.leaf

/-! ## Resolution (R251) -/

/-- A resolved position: the node, the node-relative slot, the block, the absolute position, the watermark and the block table. -/
structure KvPos where
  (nodeIx : Nat) (node : Node) (k block abs wm tab : Nat)
  deriving DecidableEq, Repr

/-- The furrow walker, on the current tables or, with `stg`, on the staging tables. -/
def Mdl.resolve (m : Mdl) (s : State) (r : SeqRec) (p l : Nat) (stg : Bool) : Except Trap KvPos :=
  if m.layers ≤ l then .error { cause := 0x73, detail := 1, addr := p }
  else if r.len ≤ p then .error { cause := 0x85, addr := p }
  else
    match (m.path s 64 r.leaf).find? fun q => decide (q.2.start ≤ p) with
    | none => .error { cause := 0x88, addr := p }
    | some (i, x) =>
      if x.state = 0 ∨ x.model ≠ m.key % 16 then .error { cause := 0x84, addr := p }
      else
        let k := x.boff + p - x.start
        let e := m.entry s x l
        let tab := if stg then e.stab else e.btab
        .ok ⟨i, x, k, m.block s tab (k / 16), (r.basep + p) % 2 ^ 32, e.wm, tab⟩

/-- The row of a command that a resolved position is. -/
def KvPos.at (q : KvPos) (row : Nat) : KvRow := ⟨row, q.block, q.k, q.abs, some q.tab, false⟩

/-! ## Splits (R252) -/

/-- Replaces a child of a node by another, or by none, which takes it out of the list. -/
def Mdl.replaceChild (m : Mdl) (s : State) (parent old new_ : Nat) : State :=
  if parent = noNode then s
  else
    let x := m.node s parent
    if x.child = old then m.putNode s parent { x with child := if new_ = noNode then (m.node s old).sib else new_ }
    else
      let rec walk (s : State) (n i : Nat) : State :=
        match n with
        | 0 => s
        | k + 1 =>
          if i = noNode then s
          else
            let y := m.node s i
            if y.sib = old then m.putNode s i { y with sib := if new_ = noNode then (m.node s old).sib else new_ } else walk s k y.sib
      walk s m.nnode x.child

/-- Splits node X at position p: the number of the head, which X now follows. -/
def Mdl.split (m : Mdl) (s : State) (i p : Nat) : Kv Nat :=
  let x := m.node s i
  if x.job ≠ noJob then .error { cause := 0x84, detail := 5 }
  else
    match m.newNode s with
    | .error t => .error t
    | .ok (h, s) =>
      let k := x.boff + p - x.start
      -- the node is taken at once, so that what is built below cannot take it again
      let s := m.putNode s h { x with state := 1 }
      let layer (s : State) (l : Nat) : Kv LEntry :=
        let e := m.entry s x l
        let bs := m.tableBlocks s e.btab
        match m.newTable s (bs.take ((k - 1) / 16 + 1)) with
        | .error t => .error t
        | .ok (ht, s) =>
          let tail : Kv (List Nat) :=
            if k % 16 = 0 then .ok (bs.drop (k / 16), s)
            else match m.copyBlock s (bs.getD (k / 16) noNode) with
              | .error t => .error t
              | .ok (c, s) => .ok (c :: bs.drop (k / 16 + 1), s)
          match tail with
          | .error t => .error t
          | .ok (l', s) =>
            let s := m.redirect s e.btab fun r =>
              if r.k < k then { r with tab := some ht }
              else { r with k := r.k - k / 16 * 16, block := l'.getD (r.k / 16 - k / 16) noNode }
            .ok (⟨0, e.wm, ht⟩, s.vwrite m.ctx e.btab ((l' ++ List.replicate (256 - l'.length) noNode).flatMap fun b => leBytes 4 b))
      match m.buildLayers s layer with
      | .error t => .error t
      | .ok (lt, s) =>
        let d := p - x.start
        let s := m.replaceChild s x.parent i h
        let s := m.putNode s h { x with ltab := lt, len := d, child := i, job := noJob }
        .ok (h, m.putNode s i { x with parent := h, sib := noNode, len := x.len - d, src := (x.src + d) % 2 ^ 32, start := p, boff := k % 16 })

/-- The node of a path that ends at p, splitting the one that p lies in: none for p = 0. -/
def Mdl.endingAt (m : Mdl) (s : State) (r : SeqRec) (p : Nat) : Kv Nat :=
  if p = 0 then .ok (noNode, s)
  else match (m.pathOf s r).find? fun q => decide (q.2.start < p) with
    | none => .ok (noNode, s)
    | some (i, x) => if x.start + x.len = p then .ok (i, s) else m.split s i p

end Sys2Proof.Machine
end

