-- ==== Sys2Proof/Machine/Kv.lean ====
section
/-! DEFINITION. The context-store instructions (R254-R264, R269): their checks, and what each command does. -/

namespace Sys2Proof.Machine

/-! ## Checks at issue (R198, R255, R256) -/

/-- What R255 gives a context-store instruction: how many result scalars, the scalars it reads, whether it uses a tile. -/
structure KvUse where
  (res : Nat) (reads : List (BitVec 6)) (tile : Bool)
  deriving DecidableEq, Repr

/-- The scalar index is above 47. -/
def scBad (k : BitVec 6) : Bool := decide (47 < k.toNat)

/-- The result scalars of a context-store instruction. -/
def KvUse.writes (u : KvUse) (f : KvF) : List Nat := (List.range u.res).map fun j => f.res.toNat + j

/-- The rows of R198 for a context-store instruction. -/
def State.kvChk (s : State) (i : Iss) (f : KvF) (u : KvUse) (land src ws : Bool) : EngChk :=
  let tile := if f.tl then ((s.itile i f.tn.val).map Tile.grans).getD [] else []
  { field := u.reads.any scBad || (decide (u.res = 4) && decide (f.res.toNat % 4 ≠ 0 ∨ 44 < f.res.toNat)) ||
      (decide (u.res = 1) && scBad f.res) || (ws && pairBad f.se)
    recs := []
    tiles := if u.tile && f.tl then [f.tn.val] else []
    land := if land then tile else []
    srcs := if src then tile else []
    size := false
    swz := []
    row := none }

/-- R256: the first row that fails. -/
def State.kvLast (s : State) (i : Iss) (h : EHdr) (e : Nat) (f : KvF) (u : KvUse) (open_ : Bool) : Option Trap :=
  let pair := h.sync.toNat
  if (u.writes f).any fun k => k == pair || k == pair + 1 || k == h.stat.val then some { cause := e, detail := 2 }
  else if u.tile && !f.tl then some { cause := e, detail := 1 }
  else
    let n := s.isc i f.sd.toNat
    let t := s.itile i f.tn.val
    if u.tile && (decide (n = 0 ∨ 64 < n) || t.any fun t => !(t.esz == 2 || t.esz == 4) || decide (t.rows < n)) then
      some { cause := e + 2, detail := 1 }
    else if !open_ then none
    else
      let ed := s.isc i f.sd.toNat
      let ws := s.isc i f.se.toNat + 2 ^ 32 * s.isc i (f.se.toNat + 1)
      if ed % 256 = 0 ∨ ed / 256 % 256 < ed % 256 ∨ ed / 65536 ≠ 0 ∨ ws % 256 ≠ 0 then some { cause := 0x78, detail := 1 }
      else if (fdec f32 (s.isc i f.sc.toNat)).isNan then some { cause := 0x8A }
      else none

/-- A context-store instruction checked, and accepted once there is room. -/
def State.admitKv (s : State) (i : Iss) (h : EHdr) (b : EngBody) (f : KvF) (u : KvUse) (land src open_ : Bool) : Admit :=
  let chk := s.kvChk i f u land src open_
  let reads := u.reads.map BitVec.toNat ++ if open_ then [f.se.toNat + 1] else []
  match s.engPre i h reads (u.writes f) with
  | some t => .trap t
  | none =>
    match s.engFirst i h (engBase b) chk with
    | some t => .trap t
    | none =>
      match s.kvLast i h (engBase b) f u open_ with
      | some t => .trap t
      | none =>
        if !s.queueRoom i.core 1 then .full
        else
          let t := if u.tile then s.itile i f.tn.val else none
          let (s, n) := s.accept i h b ⟨[], if land then t else none, if src then t else none, none, chk.land, chk.srcs, []⟩ none none
          .done s n

def State.admitKvw (s : State) (i : Iss) (h : EHdr) (f : KvF) : Admit :=
  s.admitKv i h (.kvw f) f ⟨4, [f.sa, f.sb, f.sc], false⟩ false false false
def State.admitKvld (s : State) (i : Iss) (h : EHdr) (f : KvF) : Admit :=
  s.admitKv i h (.kvld f) f ⟨0, [f.sa, f.sb, f.sc, f.sd, f.se], true⟩ true false false
def State.admitKvst (s : State) (i : Iss) (h : EHdr) (f : KvF) : Admit :=
  s.admitKv i h (.kvst f) f ⟨0, [f.sa, f.sb, f.sc, f.sd, f.se], true⟩ false true false
def State.admitKvfork (s : State) (i : Iss) (h : EHdr) (f : KvF) : Admit :=
  s.admitKv i h (.kvfork f) f ⟨1, [f.sa, f.sb, f.sc, f.sd], false⟩ false false false
def State.admitSplice (s : State) (i : Iss) (h : EHdr) (f : KvF) : Admit :=
  s.admitKv i h (.splice f) f ⟨0, [f.sa, f.sb, f.sc], false⟩ false false false
def State.admitRpopen (s : State) (i : Iss) (h : EHdr) (f : KvF) : Admit :=
  s.admitKv i h (.rpopen f) f ⟨1, [f.sa, f.sb, f.sc, f.sd, f.se], false⟩ false false true
def State.admitRpstat (s : State) (i : Iss) (h : EHdr) (f : KvF) : Admit :=
  s.admitKv i h (.rpstat f) f ⟨4, [f.sa], false⟩ false false false
def State.admitRpcancel (s : State) (i : Iss) (h : EHdr) (f : KvF) : Admit :=
  s.admitKv i h (.rpcancel f) f ⟨0, [f.sa], false⟩ false false false
def State.admitKvfree (s : State) (i : Iss) (h : EHdr) (f : KvF) : Admit :=
  s.admitKv i h (.kvfree f) f ⟨0, [f.sa], false⟩ false false false

/-- R258. -/
def execKvw (h : EHdr) (f : KvF) (s : State) : Out := issue s fun x => s.engIssued x [2] (s.admitKvw x.iss h f)
/-- R259. -/
def execKvld (h : EHdr) (f : KvF) (s : State) : Out := issue s fun x => s.engIssued x [2] (s.admitKvld x.iss h f)
/-- R261. -/
def execKvst (h : EHdr) (f : KvF) (s : State) : Out := issue s fun x => s.engIssued x [2] (s.admitKvst x.iss h f)
/-- R262. -/
def execKvfork (h : EHdr) (f : KvF) (s : State) : Out := issue s fun x => s.engIssued x [2] (s.admitKvfork x.iss h f)
/-- R264. -/
def execSplice (h : EHdr) (f : KvF) (s : State) : Out := issue s fun x => s.engIssued x [2] (s.admitSplice x.iss h f)
/-- R265. -/
def execRpopen (h : EHdr) (f : KvF) (s : State) : Out := issue s fun x => s.engIssued x [2] (s.admitRpopen x.iss h f)
/-- R269. -/
def execRpstat (h : EHdr) (f : KvF) (s : State) : Out := issue s fun x => s.engIssued x [2] (s.admitRpstat x.iss h f)
/-- R269. -/
def execRpcancel (h : EHdr) (f : KvF) (s : State) : Out := issue s fun x => s.engIssued x [2] (s.admitRpcancel x.iss h f)
/-- R263. -/
def execKvfree (h : EHdr) (f : KvF) (s : State) : Out := issue s fun x => s.engIssued x [2] (s.admitKvfree x.iss h f)

/-! ## The areas of the store -/

/-- The first page of the store's areas that keeps it from reading or writing them (R201, R203, R246): `data` for the pool too. -/
def Mdl.areaFault (m : Mdl) (s : State) (data : Bool) : Option (Nat × Acc) :=
  ([(m.seqt, 16 * 65536), (m.nodes, 128 * m.nnode), (m.tabs, 1024 * m.ntab)] ++ if data then [(m.pool, m.nblk * m.bsize)] else []).findSome?
    fun r => s.rangeFault m.ctx r.1 r.2 .read

/-- Goes on if the store's areas can be reached. -/
def Mdl.reached (m : Mdl) (s : State) (e : Nat) (data : Bool) (k : Next) : Next :=
  match m.areaFault s data with
  | none => k
  | some (va, .bad c _) => .fail { cause := e + 1, detail := c, addr := va }
  | some (va, _) => .park va

/-! ## Ending (R257) -/

/-- Writes result scalars from RES on. -/
def State.kvResults (s : State) (c : Cmd) (f : KvF) (l : List Nat) : State :=
  match (Tbl.find s.warps c.wid).bind fun w => w.dom c.dom with
  | none => s
  | some d => (l.zipIdx).foldl (fun s p => s.setScalar c.core d (f.res.toNat + p.2) (BitVec.ofNat 32 p.1)) s

/-- The last bytes of a command are counted, and it ends. -/
def State.kvEnd (s : State) (id bytes aux : Nat) : State := (s.countCmd id bytes []).endCmd id 1 aux

/-! ## `kvw` (R258) -/

def Mdl.kvw (m : Mdl) (s : State) (r : SeqRec) (p l : Nat) : Except Trap (List Nat) :=
  match m.resolve s r p l false with
  | .error t => .error t
  | .ok q =>
    let va := m.pool + q.block * m.bsize
    .ok [va % 2 ^ 32, va / 2 ^ 32, q.abs, q.k % 16 + if q.wm = 0 then 0 else 256]

def State.kvwNext (s : State) (id : Nat) (c : Cmd) (f : KvF) : Next :=
  match s.seqOf c.ctx (c.sc f.sa.toNat) with
  | none => .fail { cause := 0x86 }
  | some (m, _, r) => m.reached s 0x70 false (
      match m.kvw s r (c.sc f.sb.toNat) (c.sc f.sc.toNat) with
      | .error t => .fail t
      | .ok l => .go ((s.kvResults c f l).kvEnd id 16 0))

/-! ## `kvld` (R259, R260) -/

/-- What the policy does at a node (R260): none to wait; whether the data is stale. -/
def kvPolicy (pol : BitVec 2) (q : KvPos) : Except Trap (Option Bool) :=
  let bad (d : Nat) : Except Trap (Option Bool) := .error { cause := 0x80, detail := d, addr := q.node.start }
  if q.wm = 0 then .ok (some false)
  else if pol = 1 then bad 0
  else if pol = 2 then .ok (some true)
  else if q.wm = 3 then bad 2
  else if q.wm = 1 ∧ q.node.job = noJob then bad 3
  else .ok none

/-- The positions p to p + n - 1 resolved in order. -/
def Mdl.resolveAll (m : Mdl) (s : State) (r : SeqRec) (l : Nat) (stg : Bool) : Nat → Nat → Except Trap (List KvPos)
  | _, 0 => .ok []
  | p, n + 1 =>
    match m.resolve s r p l stg with
    | .error t => .error t
    | .ok q => (m.resolveAll s r l stg (p + 1) n).map (q :: ·)

/-- The policies of all positions, in order (log 16). -/
def kvPolicies (pol : BitVec 2) : List KvPos → Except Trap (Option Bool)
  | [] => .ok (some false)
  | q :: l =>
    match kvPolicy pol q with
    | .error t => .error t
    | .ok none => .ok none
    | .ok (some a) => (kvPolicies pol l).map fun o => o.map (a || ·)

/-- The tile and head checks of `kvld` and `kvst`. -/
def Mdl.kvShape (m : Mdl) (c : Cmd) (f : KvF) (t : Option Tile) : Option Trap :=
  if m.heads ≤ c.sc f.se.toNat then some { cause := 0x73, detail := 2 }
  else if t.any fun t => decide (t.cols < m.dim) then some { cause := 0x72, detail := 3 }
  else none

/-- Step 1 of R259: every position resolved, the policy applied, the blocks pinned. -/
def State.kvldStart (s : State) (id : Nat) (c : Cmd) (f : KvF) : Next :=
  match s.seqOf c.ctx (c.sc f.sa.toNat) with
  | none => .fail { cause := 0x86 }
  | some (m, _, r) => m.reached s 0x70 false (
      match m.kvShape c f c.tile with
      | some t => .fail t
      | none =>
        match m.resolveAll s r (c.sc f.sc.toNat) false (c.sc f.sb.toNat) (c.sc f.sd.toNat) with
        | .error t => .fail t
        | .ok l =>
          match kvPolicies f.pol l with
          | .error t => .fail t
          | .ok none => .wait
          | .ok (some stale) =>
            let blocks := (l.map KvPos.block).eraseDups
            if blocks.any fun b => decide (65535 ≤ s.pinOf m b) then .wait
            else
              let s := blocks.foldl (fun s b => s.setPin m b (s.pinOf m b + 1)) s
              .go (s.updCmd id fun c =>
                { c with
                  started := true
                  aux := if stale then 1 else 0
                  rows := (l.zipIdx).map fun p => p.1.at p.2 }))

/-- The model of a command in progress, whether or not it is still installed (R246). -/
def State.mdlOf (s : State) (c : Cmd) (f : KvF) : Option Mdl :=
  let key := c.modelKey f.sa.toNat
  (Tbl.find s.models key).map fun m => ⟨key, c.ctx, m.rcd⟩

/-- Elements of marked bytes. -/
def markedElems (esz : Nat) (l : List (Byte × Nat)) : List (Nat × Nat) :=
  (List.range (l.length / esz)).map fun i =>
    let q := (l.drop (esz * i)).take esz
    (leNat (q.map Prod.fst), firstMark (q.map Prod.snd))

/-- A row of keys rotated (R100, R259 step 3). -/
def rotateKeys (abs : Nat) : List (Nat × Nat) → List (Nat × Nat) → List (Nat × Nat)
  | x :: y :: l, f :: fs =>
    let mk := firstMark [x.2, y.2, f.2]
    ((ropeV x.1 y.1 abs f.1).1.map fun v => (v, mk)) ++ rotateKeys abs l fs
  | l, _ => l

/-- One row lands (R259 steps 2 to 5). The last row flips the whole landing area, which is the tile (R200). -/
def State.kvldRow (s : State) (id : Nat) (c : Cmd) (f : KvF) (m : Mdl) (t : Tile) (q : KvRow) (more : List KvRow) : Next :=
  let va := m.elem q.block f.part (c.sc f.se.toNat) (q.k % 16) 0
  match s.reachAll c 0x70 .read (linePieces va (m.dim * m.esz)) with
  | .error e => e
  | .ok (l, s) =>
    match (if f.part then .ok ([], s) else s.reachAll c 0x70 .read (linePieces m.freq (2 * m.dim))) with
    | .error e => e
    | .ok (fl, s) =>
      let elems := (markedElems m.esz (s.pieceBytes l)).map fun e => ((cvtV .f32 m.fmt .rne false false e.1).val, e.2)
      let elems := if f.part then elems else rotateKeys q.abs elems (markedElems 4 (s.pieceBytes fl))
      let bytes := elems.flatMap fun e =>
        (if t.esz = 4 then leBytes 4 e.1 else leBytes 2 (cvtV .bf16 .f32 .rne false false e.1).val).map fun b => (b, e.2)
      let off := q.row * t.cols * t.esz
      let s := s.updCore c.core fun k => k.landBytes (512 * t.gran + off) bytes
      let s := if more.any fun r => r.block == q.block then s else s.unpin m.key q.block
      let grans := if more.isEmpty then c.land else (tileEnd t 0).span off (m.dim * t.esz)
      let s := (s.countCmd id (m.dim * t.esz) grans).updCmd id fun c => { c with rows := more }
      .go (if more.isEmpty then s.endCmd id 1 c.aux else s)

def State.kvldNext (s : State) (id : Nat) (c : Cmd) (f : KvF) : Next :=
  if !c.started then s.kvldStart id c f
  else
    match s.mdlOf c f, c.tile, c.rows with
    | some m, some t, q :: more => s.kvldRow id c f m t q more
    | _, _, _ => .wait

/-! ## `kvst` (R261) -/

/-- A block that may be written: the table's own, or a fresh copy that replaces it, for the rows on their way to it too. -/
def Mdl.ownBlock (m : Mdl) (s : State) (tab i : Nat) : Kv Nat :=
  let b := m.block s tab i
  if s.refOf m b ≤ 1 then .ok (b, s)
  else match m.copyBlock s b with
    | .error t => .error t
    | .ok (n, s) =>
      .ok (n, m.redirect ((m.putBlock s tab i n).dropRef m b) tab fun r => if r.k / 16 = i then { r with block := n } else r)

/-- The positions below S.LEN: each must lie in a node of one sequence, in a layer that is not in repair (R261). -/
def kvstRefused (l : List (Nat × KvPos)) : Option Trap :=
  l.findSome? fun p =>
    if p.2.node.ref ≠ 1 then some { cause := 0x84, detail := 2, addr := p.1 }
    else if p.2.wm = 2 then some { cause := 0x84, detail := 6, addr := p.1 }
    else none

/-- The rows of positions below S.LEN, with their blocks made their own. -/
def Mdl.ownRows (m : Mdl) : List (KvPos × Nat) → State → Kv (List KvRow)
  | [], s => .ok ([], s)
  | (q, row) :: rest, s =>
    match m.ownBlock s q.tab (q.k / 16) with
    | .error t => .error t
    | .ok (b, s) =>
      match m.ownRows rest s with
      | .error t => .error t
      | .ok (rows, s) => .ok ({ q.at row with block := b } :: rows, s)

/-- The resolution of a `kvst`: the positions of the staging table, or those below S.LEN. -/
def Mdl.kvstRows (m : Mdl) (s : State) (f : KvF) (r : SeqRec) (p l n : Nat) : Kv (List KvRow) :=
  if f.stg then
    match (List.range n).find? fun j => decide (r.len ≤ p + j) with
    | some j => .error { cause := 0x84, detail := 7, addr := p + j }
    | none =>
      match m.resolveAll s r l true p n with
      | .error t => .error t
      | .ok q =>
        match (q.zipIdx).find? fun x => decide (x.1.node.job = noJob ∨ x.1.wm ≠ 2) with
        | some x => .error { cause := 0x84, detail := 7, addr := p + x.2 }
        | none => .ok ((q.zipIdx).map fun x => x.1.at x.2, s)
  else if r.len < p then .error { cause := 0x85, addr := p }
  else
    match m.resolveAll s r l false p (min n (r.len - p)) with
    | .error t => .error t
    | .ok q =>
      match kvstRefused ((q.zipIdx).map fun x => (p + x.2, x.1)) with
      | some t => .error t
      | none => m.ownRows (q.zipIdx) s

/-- A new leaf of a sequence (R261): its number. -/
def Mdl.newLeaf (m : Mdl) (s : State) (i : Nat) (r : SeqRec) : Kv Nat :=
  match m.newNode s with
  | .error t => .error t
  | .ok (n, s) =>
    let s := m.putNode s n { m.node s n with state := 1 }
    match m.buildLayers s (fun s _ => match m.newTable s [] with
      | .error t => .error t
      | .ok (va, s) => .ok (⟨0, 0, va⟩, s)) with
    | .error t => .error t
    | .ok (lt, s) =>
      let doc := ((Tbl.find s.models m.key).map fun x => Sparse.read 0 x.docs i).getD 0
      let sib := if r.leaf = noNode then noNode else (m.node s r.leaf).child
      let s := m.putNode s n
        { ltab := lt, parent := r.leaf, child := noNode, sib := sib, start := r.len, len := 0, pdelta := 0, doc := doc, dver := m.dver,
          ref := 1, src := r.len, job := noJob, model := m.key % 16, boff := 0, state := 1 }
      let s := if r.leaf = noNode then s else m.updNode s r.leaf fun x => { x with child := n }
      .ok (n, m.putSeq s i { r with leaf := n })

/-- The leaf that an append goes to (R261): the sequence's own, or a new one. -/
def Mdl.leafFor (m : Mdl) (s : State) (i : Nat) (r : SeqRec) : Kv Nat :=
  let x := m.node s r.leaf
  if r.leaf = noNode ∨ 1 < x.ref ∨ x.state = 2 ∨ 4096 ≤ x.boff + x.len then m.newLeaf s i r else .ok (r.leaf, s)

/-- Block k of every layer's table of a node, made its own (log 24). -/
def Mdl.ownLayers (m : Mdl) (x : Node) (k : Nat) : Nat → State → Except Trap State
  | 0, s => .ok s
  | l + 1, s =>
    match m.ownLayers x k l s with
    | .error t => .error t
    | .ok s => (m.ownBlock s (m.entry s x l).btab k).map Prod.snd

/-- Fresh blocks. -/
def Mdl.newBlocks (m : Mdl) : Nat → State → Kv (List Nat)
  | 0, s => .ok ([], s)
  | n + 1, s =>
    match m.newBlocks n s with
    | .error t => .error t
    | .ok (l, s) => (m.newBlock s).map fun p => (l ++ [p.1], p.2)

/-- Fresh blocks of all layers for entries `js` of a leaf's tables. -/
def Mdl.takeEntries (m : Mdl) : List Nat → State → Kv (List (Nat × List Nat))
  | [], s => .ok ([], s)
  | j :: js, s =>
    match m.newBlocks m.layers s with
    | .error t => .error t
    | .ok (l, s) => (m.takeEntries js s).map fun p => ((j, l) :: p.1, p.2)

/-- What an append needs, taken when the command resolves its positions (R253, R261): the leaf, its last block if slots of it are
still free, and fresh blocks, which enter the tables when a slot reaches them. The rows go up to the end of the leaf. -/
def Mdl.reserve (m : Mdl) (s : State) (i : Nat) (r : SeqRec) (l row cnt : Nat) : Except Trap (List KvRow × KvGrow × State) :=
  if 16777215 < r.len + cnt then .error { cause := 0x85, addr := r.len }
  else
    match m.leafFor s i r with
    | .error t => .error t
    | .ok (n, s) =>
      let x := m.node s n
      let e := m.entry s x l
      let k := x.boff + x.len
      let last := min 4096 (k + cnt)
      if e.wm = 2 then .error { cause := 0x84, detail := 6, addr := r.len }
      else
        match (if k % 16 = 0 then .ok s else m.ownLayers x (k / 16) m.layers s) with
        | .error t => .error t
        | .ok s =>
          match m.takeEntries ((List.range ((last + 15) / 16)).drop ((k + 15) / 16)) s with
          | .error t => .error t
          | .ok (held, s) =>
            let s := (held.flatMap Prod.snd).foldl (fun s b => s.setRef m b 0) s
            let block (j : Nat) : Nat := match Tbl.find held j with
              | some bs => bs.getD l noNode
              | none => m.block s e.btab j
            .ok ((List.range (last - k)).map fun j =>
              ⟨row + j, block ((k + j) / 16), k + j, (r.basep + r.len + j) % 2 ^ 32, some e.btab, true⟩, ⟨m.key, i, n, held⟩, s)

/-- Whether a sequence is growing by an append in progress: it stands as one step for every other update of the sequence (R253,
log 24). -/
def State.growing (s : State) (m : Mdl) (i : Nat) : Bool :=
  s.cmds.any fun p => match p.2.grow with
    | some g => g.key == m.key && g.seq == i
    | none => false

def State.kvstStart (s : State) (id : Nat) (c : Cmd) (f : KvF) : Next :=
  match s.seqOf c.ctx (c.sc f.sa.toNat) with
  | none => .fail { cause := 0x86 }
  | some (m, i, r) => m.reached s 0x70 true (
      let p := c.sc f.sb.toNat
      let l := c.sc f.sc.toNat
      let n := c.sc f.sd.toNat
      if m.layers ≤ l then .fail { cause := 0x73, detail := 1, addr := p }
      else match m.kvShape c f c.src with
        | some t => .fail t
        | none =>
          match m.kvstRows s f r p l n with
          | .error t => .fail t
          | .ok (rows, t) =>
            let begin_ (s : State) (rows : List KvRow) (g : Option KvGrow) : Next :=
              .go (s.updCmd id fun c => { c with started := true, rows := rows, grow := g })
            if f.stg ∨ p + n ≤ r.len then begin_ t rows none
            else if s.growing m i then .wait
            else
              match m.reserve t i r l rows.length (n - rows.length) with
              | .error t => .fail t
              | .ok (more, g, s) => begin_ s (rows ++ more) (some g))

/-- A slot of a block reads as +0 in every head, as key and as value (R261). -/
def Mdl.clearSlot (m : Mdl) (s : State) (block slot : Nat) : State :=
  let n := m.heads * m.dim * m.esz
  (s.vclear m.ctx (m.elem block false 0 slot 0) n).vclear m.ctx (m.elem block true 0 slot 0) n

/-- An append reaches its next slot (R261): blocks taken for its entry enter the tables, the slot is clear in every layer, and the
node and the sequence grow by one. -/
def Mdl.growSlot (m : Mdl) (s : State) (id : Nat) (g : KvGrow) : State :=
  let x := m.node s g.node
  let k := x.boff + x.len
  let s := match Tbl.find g.held (k / 16) with
    | none => s
    | some bs =>
      ((bs.zipIdx).foldl (fun s b => (m.putBlock s (m.entry s x b.2).btab (k / 16) b.1).setRef m b.1 1) s).updCmd id fun c =>
        { c with grow := some { g with held := Tbl.del g.held (k / 16) } }
  let s := (List.range m.layers).foldl (fun s l => m.clearSlot s (m.block s (m.entry s x l).btab (k / 16)) (k % 16)) s
  let r := m.seqRec s g.seq
  m.putSeq (m.putNode s g.node { x with len := x.len + 1 }) g.seq { r with len := r.len + 1 }

/-- Writes one row to its slot. -/
def State.kvstWrite (s : State) (id : Nat) (c : Cmd) (f : KvF) (m : Mdl) (t : Tile) (q : KvRow) : Next :=
  match s.reachAll c 0x70 .read (linePieces (m.elem q.block f.part (c.sc f.se.toNat) (q.k % 16) 0) (m.dim * m.esz)) with
  | .error e => e
  | .ok (l, s) =>
    let src : Fmt := if t.esz = 4 then .f32 else .bf16
    let elems := markedElems t.esz ((s.core c.core).bytesAt (512 * t.gran + q.row * t.cols * t.esz) (m.dim * t.esz))
    let bytes := elems.flatMap fun e => (leBytes m.esz (cvtV m.fmt src .rne (m.fmt == .e4m3) false e.1).val).map fun b => (b, e.2)
    let s := match c.grow with
      | some g => if q.app then m.growSlot s id g else s
      | none => s
    let s := (l.foldl (fun (a : State × Nat) p =>
      let q := (bytes.drop a.2).take p.2
      (a.1.engWrite p.1 (q.map Prod.fst) (firstMark (q.map Prod.snd)), a.2 + p.2)) (s, 0)).1
    let n := m.dim * t.esz
    let s := (s.countCmd id n []).updCmd id fun c => { c with done := c.done + n, rows := c.rows.drop 1 }
    .go (if q.row + 1 = c.sc f.sd.toNat then s.endCmd id 1 0 else s)

/-- The next row of a `kvst`. An append that has filled its leaf goes on in a new one, which it takes as at its resolution. -/
def State.kvstNext (s : State) (id : Nat) (c : Cmd) (f : KvF) : Next :=
  if !c.started then s.kvstStart id c f
  else
    match s.mdlOf c f, c.src with
    | some m, some t => m.reached s 0x70 true (
        match c.rows, c.grow with
        | q :: _, _ => s.kvstWrite id c f m t q
        | [], some g =>
          let row := c.done / (m.dim * t.esz)
          match m.reserve s g.seq (m.seqRec s g.seq) (c.sc f.sc.toNat) row (c.sc f.sd.toNat - row) with
          | .error t => .fail t
          | .ok (rows, g, s) => .go (s.updCmd id fun c => { c with rows := rows, grow := some g })
        | [], none => .wait)
    | _, _ => .wait

/-! ## `kvfork` and `kvfree` (R262, R263) -/

/-- A new sequence that ends at position q of a parent, whose leaf is `leaf`: its handle. -/
def Mdl.fork (m : Mdl) (s : State) (parent : SeqRec) (q basep doc : Nat) : Kv Nat :=
  match (List.range 0xFFFF).find? fun i => !(m.seqRec s i).valid with
  | none => .error { cause := 0x87, detail := 3 }
  | some i =>
    match m.endingAt s parent q with
    | .error t => .error t
    | .ok (leaf, s) =>
      let old := m.seqRec s i
      let r : SeqRec := ⟨leaf, q, basep, true, old.gen⟩
      let s := (m.pathOf s r).foldl (fun s n => m.updNode s n.1 fun x => { x with ref := x.ref + 1 }) (m.putSeq s i r)
      .ok (seqHandle (m.key % 16) i old.gen, s.updModel m fun x => { x with docs := Sparse.write 0 x.docs i doc })

/-- The parent of a fork: a sequence, or the empty one (R247). -/
def State.parentOf (s : State) (ctx h : Nat) : Option (Mdl × Nat × SeqRec) :=
  if h / 2 ^ 12 % 2 ^ 16 = 0xFFFF then (s.mdl ctx (h / 2 ^ 28)).map fun m => (m, 0xFFFF, ⟨noNode, 0, 0, true, 0⟩)
  else s.seqOf ctx h

def State.kvforkNext (s : State) (id : Nat) (c : Cmd) (f : KvF) : Next :=
  match s.parentOf c.ctx (c.sc f.sa.toNat) with
  | none => .fail { cause := 0x86 }
  | some (m, i, r) => m.reached s 0x70 true (
      let q := c.sc f.sb.toNat
      if s.growing m i then .wait
      else if r.len < q then .fail { cause := 0x85, addr := q }
      else
        match m.fork s r q (c.sc f.sc.toNat) (c.sc f.sd.toNat) with
        | .error t => .fail t
        | .ok (h, s) => .go ((s.kvResults c f [h]).kvEnd id 4 0))

/-- Marks a job for cancellation (R269); the slots hold what the device's jobs are. -/
def State.cancelJob (s : State) (h : Nat) : State :=
  { s with jobs := Tbl.upd s.jobs (h / 256) fun j => if j.gen = h % 256 ∧ j.live then { j with cancel := true } else j }

/-- A node is freed (R263): its current tables go, a job on it is cancelled, and it is free once it has no job. -/
def Mdl.freeNode (m : Mdl) (s : State) (i : Nat) : State :=
  let x := m.node s i
  let s := (List.range m.layers).foldl (fun s l =>
    let e := m.entry s x l
    if e.btab = 0 then s else m.putEntry (m.dropTable s e.btab) x l { e with btab := 0 }) s
  if x.job = noJob then m.putNode (m.freeTabs s x.ltab m.ltabs) i { x with state := 0 }
  else s.cancelJob x.job

/-- A sequence leaves the nodes of its path (R263). -/
def Mdl.leave (m : Mdl) (s : State) (r : SeqRec) : State :=
  (m.pathOf s r).foldl (fun s n =>
    let s := m.updNode s n.1 fun x => { x with ref := x.ref - 1 }
    if (m.node s n.1).ref = 0 then m.freeNode (m.replaceChild s (m.node s n.1).parent n.1 noNode) n.1 else s) s

/-- The splices that are outstanding when their document is freed (R270). -/
def State.docFreed (s : State) (ctx h : Nat) : State :=
  { s with cmds := Tbl.mapVals s.cmds fun _ c => match c.body with
      | .splice f => if c.ctx = ctx ∧ c.sc f.sc.toNat = h then { c with docGone := true } else c
      | _ => c }

def State.kvfreeNext (s : State) (id : Nat) (c : Cmd) (f : KvF) : Next :=
  let h := c.sc f.sa.toNat
  match s.seqOf c.ctx h with
  | none => .fail { cause := 0x86 }
  | some (m, i, r) => m.reached s 0x70 false (
      if s.growing m i then .wait
      else
        let s := m.putSeq (m.leave s r) i { r with valid := false, gen := (r.gen + 1) % 4096 }
        .go ((s.docFreed c.ctx h).kvEnd id 4 0))

/-! ## `splice` (R264) -/

/-- A copy of a document's table: each block gains a reference. -/
def Mdl.shareTable (m : Mdl) (s : State) (bs : List Nat) : Kv Nat :=
  match m.newTable s bs with
  | .error t => .error t
  | .ok (va, s) =>
    match bs.find? fun b => s.refOf m b == 0 with
    | some _ => .error { cause := 0x82 }
    | none =>
      if bs.any fun b => decide (65535 ≤ s.refOf m b) then .error { cause := 0x83 }
      else .ok (va, bs.foldl (fun s b => s.setRef m b (s.refOf m b + 1)) s)

/-- The node N of R264, with the tables that `tabs` names per layer, linked after `prev` with Y as its child. -/
def Mdl.spliceNode (m : Mdl) (s : State) (d : Node) (tabs : List (List Nat)) (p len prev y : Nat) : Kv Nat :=
  match m.newNode s with
  | .error t => .error t
  | .ok (n, s) =>
    let s := m.putNode s n { m.node s n with state := 1 }
    match m.buildLayers s (fun s l => match m.shareTable s (tabs.getD l []) with
      | .error t => .error t
      | .ok (va, s) => .ok (⟨0, if l = 0 then 0 else 1, va⟩, s)) with
    | .error t => .error t
    | .ok (lt, s) =>
      let sib := if y ≠ noNode then (m.node s y).sib else if prev ≠ noNode then (m.node s prev).child else noNode
      let s := m.putNode s n
        { d with
          ltab := lt, parent := prev, child := y, sib := sib, start := p, len := len
          pdelta := (p + 2 ^ 32 - d.src) % 2 ^ 32
          ref := 1, job := noJob, model := m.key % 16, state := 2 }
      let s := if y ≠ noNode then m.updNode (m.replaceChild s prev y n) y fun x => { x with parent := n, sib := noNode }
        else if prev ≠ noNode then m.updNode s prev fun x => { x with child := n }
        else s
      .ok (n, s)

/-- R264 from the split on: a failure keeps the state after the split. -/
def Mdl.spliceAt (m : Mdl) (s : State) (i : Nat) (r : SeqRec) (d : Node) (tabs : List (List Nat)) (p len prev : Nat) :
    Except Trap State :=
  let later := (m.pathOf s r).filter fun q => decide (p ≤ q.2.start)
  let y := (later.find? fun q => decide (q.2.start = p)).map Prod.fst
  if later.any fun q => decide (1 < q.2.ref) then .error { cause := 0x84, detail := 2 }
  else if later.any fun q => decide (q.2.job ≠ noJob) then .error { cause := 0x84, detail := 5 }
  else if 64 < (m.pathOf s r).length + 1 then .error { cause := 0x88 }
  else
    match m.spliceNode s d tabs p len prev (y.getD noNode) with
    | .error t => .error t
    | .ok (n, s) =>
      let s := later.foldl (fun s q => m.updNode s q.1 fun x =>
        { x with start := x.start + len, pdelta := (x.pdelta + len) % 2 ^ 32 }) s
      .ok (m.putSeq s i { r with len := r.len + len, leaf := if y.isNone then n else r.leaf })

def State.spliceNext (s : State) (id : Nat) (c : Cmd) (f : KvF) : Next :=
  match s.seqOf c.ctx (c.sc f.sa.toNat), s.seqOf c.ctx (c.sc f.sc.toNat) with
  | some (m, i, r), some (md, j, dq) => m.reached s 0x74 true (
      let d := m.node s dq.leaf
      let p := c.sc f.sb.toNat
      if s.growing m i || s.growing md j then .wait
      else if md.key ≠ m.key ∨ dq.leaf = noNode ∨ d.parent ≠ noNode then .fail { cause := 0x84, detail := 4 }
      else if d.dver ≠ m.dver then .fail { cause := 0x81 }
      else if r.len < p ∨ 16777215 < r.len + dq.len then .fail { cause := 0x85, addr := p }
      else
        -- the document as it stands before the split, which may be a split of the document itself
        let tabs := (List.range m.layers).map fun l => m.tableBlocks s (m.entry s d l).btab
        match m.endingAt s r p with
        | .error t => .fail t
        | .ok (prev, s) =>
          -- the split leaves the sequence's own record as it was
          match m.spliceAt s i r d tabs p dq.len prev with
          | .error t => .spoil s t
          | .ok s => .go (s.kvEnd id 4 0))
  -- a document freed while the splice was outstanding has no block left to hold (R270)
  | some _, none => .fail { cause := if c.docGone then 0x82 else 0x86 }
  | none, _ => .fail { cause := 0x86 }

/-! ## `rpstat` and `rpcancel` (R269) -/

/-- The job slot that a handle names, with that generation. -/
def State.jobOf (s : State) (h : Nat) : Option Job :=
  match Tbl.find s.jobs (h / 256) with
  | none => none
  | some j => if j.gen = h % 256 then some j else none

def State.rpstatNext (s : State) (id : Nat) (c : Cmd) (f : KvF) : Next :=
  let l := match s.jobOf (c.sc f.sa.toNat) with
    | none => [0, 0, 0, 0]
    | some j => [j.jst * 2 ^ 29, j.layer, j.count, j.cause]
  .go ((s.kvResults c f l).kvEnd id 16 0)

def State.rpcancelNext (s : State) (id : Nat) (c : Cmd) (f : KvF) : Next :=
  let h := c.sc f.sa.toNat
  match s.jobOf h with
  | none => .go (s.kvEnd id 4 1)
  | some j => if j.live then .go ((s.cancelJob h).kvEnd id 4 0) else .go (s.kvEnd id 4 1)

end Sys2Proof.Machine
end

