-- ==== Sys2Proof/Machine/FrontEnd.lean ====
section
/-! DEFINITION. The class 7 instructions, and the watchdog of a stalled context (R217-R224). -/

namespace Sys2Proof.Machine

/-! ## Common parts -/

/-- An instruction of `n` units has issued; a register that it names takes a value. -/
def State.feSet (s : State) (x : FeWho) (d : AOpnd) (v : Dword) (n : Nat := 1) : State :=
  s.updFe x.cid fun f => match d with
    | .a k => { (f.advance n) with regs := f.regs.set k.val v }
    | _ => f.advance n

/-- An instruction that computes one register from two (R219). -/
def feArith (d a b : AOpnd) (g : Dword → Dword → Dword) (s : State) : Out :=
  feIssue s fun x => s.feReady x (AOpnd.regs d ++ AOpnd.regs a ++ AOpnd.regs b) (s.feSet x d (g (x.val a) (x.val b)))

/-- R219. -/
def execAadd (f : ABinF) (s : State) : Out := feArith f.d f.a f.b (fun a b => a + b) s
/-- R219. -/
def execAsub (f : ABinF) (s : State) : Out := feArith f.d f.a f.b (fun a b => a - b) s
/-- R219. -/
def execAmul (f : ABinF) (s : State) : Out := feArith f.d f.a f.b (fun a b => a * b) s
/-- R219: a shift by 64 or more leaves 0. -/
def execAshl (f : ABinF) (s : State) : Out := feArith f.d f.a f.b (fun a b => a <<< b.toNat) s
/-- R219: a shift by 64 or more leaves all fill. -/
def execAshr (f : AShrF) (s : State) : Out :=
  feArith f.d f.a f.b (fun a b => match f.ty with
    | .i64 => a.sshiftRight b.toNat
    | .n64 => a >>> b.toNat) s
/-- R219. -/
def execAand (f : ABinF) (s : State) : Out := feArith f.d f.a f.b (fun a b => a &&& b) s
/-- R219. -/
def execAor (f : ABinF) (s : State) : Out := feArith f.d f.a f.b (fun a b => a ||| b) s
/-- R219. -/
def execAxor (f : ABinF) (s : State) : Out := feArith f.d f.a f.b (fun a b => a ^^^ b) s

/-- A condition of R56 on two dwords. -/
def aCond (t : ATy) (c : Cond) (a b : Dword) : Bool :=
  let lt (a b : Dword) : Bool := match t with
    | .i64 => decide (a.toInt < b.toInt)
    | .n64 => decide (a.toNat < b.toNat)
  match c with
  | .eq => a == b
  | .ne => a != b
  | .lt => lt a b
  | .le => !lt b a
  | .gt => lt b a
  | .ge => !lt a b

/-- R219. -/
def execAcmp (f : ACmpF) (s : State) : Out := feArith f.d f.a f.b (fun a b => if aCond f.ty f.cond a b then 1 else 0) s

/-- R219. -/
def execAmovi (f : AMoviF) (s : State) : Out :=
  feArith f.d .zero .zero (fun _ _ => match f.ty with
    | .i64 => f.imm.signExtend 64
    | .n64 => f.imm.setWidth 64) s

/-! ## Queues (R220) -/

/-- The crew warp that an instruction addresses, by its WINC. -/
def State.feWarp (s : State) (x : FeWho) (w : Fin 32) : Option (Nat × Warp) :=
  (x.k.warps[w.val]?).bind fun i => (Tbl.find s.warps i).map fun v => (i, v)

/-- Goes on with the warp that an instruction addresses; there is no such warp: an invalid use. -/
def State.feAtWarp (s : State) (x : FeWho) (w : Fin 32) (k : Nat → Warp → State) : State :=
  match s.feWarp x w with
  | none => s.feStop x.cid { cause := 0x7C }
  | some (i, v) => k i v

/-- A queue of a warp. -/
def Warp.queue (w : Warp) (q : Nat) : Queue := w.queues.getD q ⟨[], false⟩

/-- Goes on once a queue has room and every earlier access of the context is performed: a push is a release (R224). -/
def State.feRoom (s : State) (x : FeWho) (w : Warp) (q : Nat) (k : State) : State :=
  if 16 ≤ (w.queue q).entries.length then s.stall x.cid .queue
  else if s.unfinished (.fe x.cid) then s.stall x.cid .release
  else k

/-- Goes on with the head entry of a queue. -/
def State.feHead (s : State) (x : FeWho) (w : Warp) (q : Nat) (k : QEntry → State) : State :=
  match (w.queue q).entries with
  | e :: _ => k e
  | [] => if (w.queue q).closed then s.feStop x.cid { cause := 0x7C, detail := 4 } else s.stall x.cid .queue

/-- A queue loses its head. -/
def State.fePop (s : State) (wid q : Nat) : State :=
  s.updWarp wid fun w => { w with queues := w.queues.set q { w.queue q with entries := (w.queue q).entries.drop 1 } }

/-- R220: `amov`. -/
def execAmov (f : AMovF) (s : State) : Out :=
  feIssue s fun x => s.feReady x (AOpnd.regs f.d ++ AOpnd.regs f.a) (
    let give (s : State) (w : Nat × Warp) (v : Dword) : State :=
      match f.d with
      | .q k => (s.push w.1 (some (k.val, [⟨false, [v.setWidth 32]⟩]))).updFe x.cid fun f => f.advance 1
      | _ => s.feSet x f.d v
    let room (w : Warp) (k : State) : State := match f.d with
      | .q q => s.feRoom x w q.val k
      | _ => k
    match f.a, f.d with
    | .q q, _ => s.feAtWarp x f.warp fun i w => s.feHead x w q.val fun e =>
        room w (give (s.fePop i q.val) (i, w) ((e.words.getD 0 0).setWidth 64))
    | a, .q _ => s.feAtWarp x f.warp fun i w => room w (give s (i, w) (x.val a))
    | a, _ => s.feSet x f.d (x.val a))

/-- R219, R220: `apush`. -/
def execApush (f : ApushF) (s : State) : Out :=
  feIssue s fun x => s.feReady x (AOpnd.regs f.a ++ AOpnd.regs f.b) (
    s.feAtWarp x f.warp fun i w => s.feRoom x w f.q.val (
      let e : QEntry := ⟨true, (List.range w.width).map fun (l : Nat) => (x.val f.a + BitVec.ofNat 64 l * x.val f.b).setWidth 32⟩
      (s.push i (some (f.q.val, [e]))).updFe x.cid fun f => f.advance 1))

/-- The registers that an entry sets (R220). -/
def popRegs (d : Nat) (e : QEntry) : List (Nat × Dword) :=
  if e.vec then (List.range (e.words.length / 2)).map fun i => (d + i, e.words.getD (2 * i + 1) 0 ++ e.words.getD (2 * i) 0)
  else [(d, (e.words.getD 0 0).setWidth 64)]

/-- R220: `apop`. A vector entry that would set registers past a31 is an invalid use (DESIGN CHOICE, log 90: the rule names no
cause). -/
def execApop (f : ApopF) (s : State) : Out :=
  feIssue s fun x => s.feAtWarp x f.warp fun i w => s.feHead x w (4 + f.q.val) fun e =>
    let l := popRegs f.d.val e
    if 32 < f.d.val + l.length then s.feStop x.cid { cause := 0x7C }
    else s.feReady x (l.map Prod.fst) (
      (s.fePop i (4 + f.q.val)).updFe x.cid fun f =>
        { (f.advance 1) with regs := l.foldl (fun r p => r.set p.1 p.2) f.regs })

/-! ## Memory (R221) -/

/-- A record of the crew. -/
def FeWho.rcd (x : FeWho) (k : Fin 32) : Rcd := x.k.recs.getD k.val 0

/-- Bytes of a width (R219). -/
def AWidth.bytes : AWidth → Nat
  | .b8 => 1
  | .b16 => 2
  | .b32 => 4
  | .b64 => 8



/-- The checks of R158 for an access of the context: what traps a strand stops the context, and a page that migrates stalls it. -/
def State.feMem (s : State) (x : FeWho) (r : Rcd) (k : AccKind) (lanes : List (Nat × Word)) (z : Nat)
    (go : State → List (Nat × Nat × Tr) → State) : State :=
  let at_ (w : Wait) : Bool := x.f.stalled.any fun p => p.1 == w
  if at_ .walk then s
  else
    match s.memCheck (.fe x.cid) x.k.core x.ctx 0 r k .warp lanes 0 z (at_ .walked) with
    | .trap t => (s.dropWalks (.fe x.cid)).feStop x.cid { cause := 0x7D, addr := t.addr, detail := t.cause }
    | .walk vas => s.feWalks x vas
    | .ok trs =>
      match trs.find? fun p => p.2.2.isReplay with
      | some p => s.feWaitPage x p.2.1
      | none => go (trs.foldl (fun s p => s.fillTlb x.k.core x.ctx p.2.1) (s.dropWalks (.fe x.cid))) trs

/-- The requests of an access of the context. -/
def State.feRequest (s : State) (x : FeWho) (r : Rcd) (k : AccKind) (z : Nat) (l : List LaneAcc) (pend : Option Nat) : State :=
  (s.request (.fe x.cid) x.k.core x.ctx k z false r (l.map fun a => (a, false)) false false pend).1

/-- R221: `ald`. -/
def execAld (f : AldF) (s : State) : Out :=
  feIssue s fun x => s.feReady x (AOpnd.regs f.d ++ AOpnd.regs f.a) (
    let z := AWidth.bytes f.width
    let r := x.rcd f.rcd
    s.feMem x r .load [(0, (x.val f.a).setWidth 32)] z fun s trs =>
      let dst : List (Nat × Nat) := (AOpnd.regs f.d).flatMap fun d => [(0, 2 * d), (1, 2 * d + 1)]
      let s := s.feRequest x r .load z (trs.map fun p => ⟨p.1, p.2.1, p.2.2.paOr, [], 0, 0, 0, dst⟩) (some 0)
      if trs.isEmpty then s.feSet x f.d 0 else s.updFe x.cid fun f => f.advance 1)

/-- R221: `ast`. -/
def execAst (f : AstF) (s : State) : Out :=
  feIssue s fun x => s.feReady x (AOpnd.regs f.a ++ AOpnd.regs f.b) (
    let z := AWidth.bytes f.width
    let r := x.rcd f.rcd
    s.feMem x r .store [(0, (x.val f.a).setWidth 32)] z fun s trs =>
      (s.feRequest x r .store z (trs.map fun p => ⟨p.1, p.2.1, p.2.2.paOr, leBytes z (x.val f.b).toNat, 0, 0, 0, []⟩) none).updFe x.cid
        fun f => f.advance 1)

/-- R221: `apushm`: its words are loaded, and then pushed as one entry. -/
def execApushm (f : ApushmF) (s : State) : Out :=
  feIssue s fun x => s.feReady x (AOpnd.regs f.a) (
    s.feAtWarp x f.warp fun i w =>
      match x.f.arriving with
      | some ws => s.feRoom x w f.q.val (
          (s.push i (some (f.q.val, [⟨true, ws⟩]))).updFe x.cid fun f => { (f.advance 1) with arriving := none })
      | none =>
        if 16 ≤ (w.queue f.q.val).entries.length then s.stall x.cid .queue
        else
          let r := x.rcd f.rcd
          let lanes := (List.range w.width).map fun (l : Nat) => (l, (x.val f.a).setWidth 32 + BitVec.ofNat 32 l)
          s.feMem x r .load lanes 4 fun s trs =>
            let s := s.feRequest x r .load 4 (trs.map fun p => ⟨p.1, p.2.1, p.2.2.paOr, [], 0, 0, 0, [(0, qBase + p.1)]⟩) (some 0)
            (s.updFe x.cid fun f => { f with arriving := some (List.replicate w.width 0) }).stall x.cid .release)

/-! ## `akvw`, `aeng`, `await`, `aend` (R222) -/

/-- R222: `akvw`. -/
def execAkvw (f : AkvwF) (s : State) : Out :=
  feIssue s fun x =>
    let dst := (List.range 4).map fun i => f.d.val + i
    s.feReady x (dst ++ AOpnd.regs f.a ++ AOpnd.regs f.b ++ AOpnd.regs f.c) (
      let stop (t : Trap) : State := s.feStop x.cid t
      let h := (x.val f.a).toNat
      match (if h < 2 ^ 32 then s.seqOf x.ctx h else none) with
      | none => stop { cause := 0x86 }
      | some (m, _, r) =>
        match m.areaFault s false with
        | some (va, .bad c _) => stop { cause := 0x71, detail := c, addr := va }
        | some (va, _) => s.feWaitPage x va
        | none =>
          match m.resolve s r (x.val f.b).toNat (x.val f.c).toNat false with
          | .error t => stop t
          | .ok q =>
            let l := [m.pool + q.block * m.bsize, q.k % 16, q.abs, if q.wm = 0 then 0 else 1]
            s.updFe x.cid fun g =>
              { (g.advance 1) with regs := (dst.zip l).foldl (fun r p => r.set p.1 (BitVec.ofNat 64 p.2)) g.regs })

/-- The issuer of a command on behalf of a warp. -/
def FeWho.iss (x : FeWho) (wid : Nat) (w : Warp) (d : Dom) : Iss := ⟨.fe x.cid, wid, 0, x.k.core, x.ctx, w, d⟩

/-- The `mma` of the `aeng` after this one, for the same warp (R207, R222). -/
def FeWho.nextMma (x : FeWho) (wt : Fin 32) : Option (EHdr × MmaF) :=
  match x.f.clause with
  | none => none
  | some c =>
    if c.cnt < (x.f.pc - c.hdr).toNat + 3 then none
    else
      let u := c.unitAt (x.f.pc + 2)
      match Codec.decodeWord c.cls u.2.2 u.1 u.2.1 with
      | .ok (.aeng g) => match g.body with
        | .mma m => if g.wt = wt then some (⟨0, g.sync, g.stat⟩, m) else none
        | _ => none
      | _ => none

/-- The checks and the acceptance of a command on behalf of a warp. -/
def State.admitBody (s : State) (i : Iss) (h : EHdr) (next : Option (EHdr × MmaF)) : EngBody → Admit
  | .copy f => s.admitCopy i h f next
  | .copymc f => s.admitCopymc i h f
  | .gath f => s.admitGath i h f
  | .scata f => s.admitScata i h f
  | .mma f => s.admitMma i h f
  | .tfill f => s.admitTfill i h f
  | .eseq f => s.admitEseq i h f
  | .kvw f => s.admitKvw i h f
  | .kvld f => s.admitKvld i h f
  | .kvst f => s.admitKvst i h f
  | .kvfork f => s.admitKvfork i h f
  | .splice f => s.admitSplice i h f
  | .rpopen f => s.admitRpopen i h f
  | .rpstat f => s.admitRpstat i h f
  | .rpcancel f => s.admitRpcancel i h f
  | .kvfree f => s.admitKvfree i h f

/-- R222: `aeng`. SYNC is checked before everything else (R30). -/
def execAeng (f : AengF) (s : State) : Out :=
  feIssue s fun x => if badSync f.sync.toNat then s.feStop x.cid { cause := 0x2E } else s.feAtWarp x f.wt fun wid w =>
    match w.dom 0 with
    | none => s
    | some d =>
      match s.admitBody (x.iss wid w d) ⟨0, f.sync, f.stat⟩ (x.nextMma f.wt) f.body with
      | .trap t => s.feStop x.cid t
      | .page va => s.feWaitPage x va
      | .hold => s.stall x.cid .release
      | .full => s.stall x.cid .engine
      | .done s _ =>
        let n := match f.body with
          | .copy c => if c.thn then 4 else 2
          | _ => 2
        s.updFe x.cid fun f => f.advance n

/-- R222: `await`. -/
def execAwait (f : AwaitF) (s : State) : Out :=
  feIssue s fun x => s.feReady x (AOpnd.regs f.a) (
    s.feAtWarp x f.warp fun wid w =>
      match w.dom 0 with
      | none => s
      | some d =>
        let k := f.k.toNat
        let c := s.core x.k.core
        match ([d.scal k, d.scal (k + 1)].find? fun a => c.mark a != 0), s.pendingOn wid 0 k with
        | some a, _ => s.feStop x.cid { cause := 0x50, addr := a, detail := c.mark a }
        | none, some t => (s.clearPending wid 0 k).feStop x.cid t
        | none, none =>
          if genReached (syncGen (s.pair x.k.core d k)) ((x.val f.a).toNat % 65536) then s.updFe x.cid fun f => f.advance 1
          else s.stall x.cid .sync)

/-- R222: `aend`. -/
def execAend (s : State) : Out :=
  feIssue s fun x => (s.updFe x.cid fun f => { f with stopped := some { cause := 0 }, stalled := none }).closeFeQueues x.k

/-- R220: a context that has stalled for 2^20 cycles at a queue stops. -/
def execFrontEndStallWatchdog (crew : Nat) (s : State) : Out :=
  .next (
    match (Tbl.find s.crews crew).bind fun k => k.fe.map fun f => (k, f) with
    | none => s
    | some (k, f) =>
      match f.stalled with
      | some (.queue, t) =>
        if f.stopped.isSome || decide (s.time < t + 2 ^ 20) || !s.awake (s.crewCtx k) then s else s.feStop crew { cause := 0x2D }
      | _ => s)

end Sys2Proof.Machine
end

