-- ==== Sys2Proof/Machine/Migration.lean ====
section
/-! DEFINITION. Migration of pages and the replay of faults (R159-R163). -/

namespace Sys2Proof.Machine

/-! ## Moving bytes and rewriting entries -/

/-- A place in a frame that moves. -/
def movedTo (old new size a : Nat) : Nat := if old ≤ a ∧ a < old + size then a - old + new else a

/-- Moves the bytes and poison marks of a frame to another, leaving the old one empty. Accesses on their way and the words that
`waita` watches move with it (R178). -/
def State.moveFrame (s : State) (old new size : Nat) : State :=
  if old = new then s
  else
    let inside (a : Nat) : Bool := decide (old ≤ a) && decide (a < old + size)
    let cells := s.mem.filter fun c => inside c.1
    let marks := s.mmarks.filter fun c => inside (256 * c.1)
    let mem := Sparse.clear (Sparse.clear s.mem old size) new size
    let mm := Sparse.clear (Sparse.clear s.mmarks (old / 256) (size / 256)) (new / 256) (size / 256)
    { s with
      mem := cells.foldl (fun m c => Memory.write m (c.1 - old + new) c.2) mem
      mmarks := marks.foldl (fun m c => Sparse.write 0 m (c.1 - old / 256 + new / 256) c.2) mm
      accs := Tbl.mapVals s.accs fun _ a =>
        if a.replay then a else { a with lanes := a.lanes.map fun l => { l with pa := movedTo old new size l.pa } }
      waiters := s.waiters.map fun w => { w with pa := movedTo old new size w.pa } }

/-- Rewrites every leaf of the page that an entry belongs to (R155). -/
def State.writeLeaves (s : State) (level va pte : Nat) (e new : Pte) : State :=
  let idx := va / 2 ^ (16 + 10 * level) % 1024
  let first := pte - 8 * (idx % e.groupSize)
  (List.range e.groupSize).foldl (fun s i => s.writeNat (first + 8 * i) 8 new.toNat) s

/-- An entry with other V, HOME and ADDR fields. -/
def Pte.place (e : Pte) (v : Bool) (home addr : Nat) : Pte :=
  BitVec.ofNat 64 (e.toNat - e.addr - 256 * e.home - (if e.v then 1 else 0) + addr + 256 * home + if v then 1 else 0)

/-- The shootdown of one page of a context (R157). -/
def State.shootPage (s : State) (ctx va : Nat) : State :=
  let asid := s.asidOf ctx
  s.shoot fun _ e => e.holds asid va

/-! ## Replay (R159) -/

/-- Replays an access: its unfinished lanes are translated again. An absent page or a missing permission is reported at the
context rung and the access stays unfinished. -/
def State.replayAccess (s : State) (id : Nat) : State :=
  match Tbl.find s.accs id with
  | none => s
  | some a =>
    match a.lanes with
    | [] => s
    | l :: _ =>
      match (s.translate a.core a.ctx l.va).need a.kind.need with
      | .replay => s
      | .bad c _ =>
        (s.takeFault (dieOf a.core) a.ctx l.va (.access id) (Rcd.tier a.rcd)).enterCtx a.ctx c
          (s.faultVals (.access id) c l.va)
      | .ok pa =>
        let lanes := a.lanes.map fun q => { q with pa := pa / 256 * 256 + q.va % 256 }
        { s with accs := Tbl.put s.accs id { a with lanes := lanes, replay := false } }

/-- Whoever waits for a page goes on: accesses replay, engine commands retry, and agents issue again (R159, R203). -/
def State.replayFault (s : State) (f : FaultEnt) : State :=
  match f.who with
  | .access id => s.replayAccess id
  | .command id => { s with cmds := Tbl.upd s.cmds id fun c => { c with parked := false } }
  | .agent (.fe c) => s.updCrew c fun k => { k with fe := k.fe.map fun g => { g with stalled := none } }
  | _ => s

/-- Every fault of a context on a page that is no longer in migration is replayed and leaves the fault buffers. -/
def State.replayAll (s : State) (ctx : Nat) (p : Nat → Bool) : State :=
  let mine (f : FaultEnt) : Bool := f.ctx == ctx && p f.va
  (s.faults.filter mine).foldl State.replayFault { s with faults := s.faults.filter fun f => !mine f }

/-! ## The sequencer (R160) -/

/-- The clauses that the instruction stores of the resident partitions hold open, with their contexts (R163). -/
def State.openClauses (s : State) : List (Nat × Clause) :=
  (s.warps.flatMap fun p => p.2.strands.filterMap fun q => q.2.clause.map fun c => (((p.2.dom q.2.dom).map Dom.ctx).getD 0, c)) ++
  s.crews.filterMap fun p => (p.2.fe.bind FrontEnd.clause).map fun c => (s.crewCtx p.2, c)

/-- Whether an instruction store holds a clause of a page, which does not move until it is released (R163). -/
def State.codeHeld (s : State) (ctx va size : Nat) : Bool :=
  s.openClauses.any fun p =>
    p.1 == ctx && decide (8 * p.2.hdr.toNat < va + size) && decide (va < 8 * (p.2.hdr.toNat + p.2.cnt + 1))

/-- The pages of a span that are to move: their addresses. -/
def State.spanPages (s : State) (ctx va log span : Nat) : List Nat :=
  let first := va / 2 ^ span * 2 ^ span
  ((List.range (2 ^ (span - log))).map fun i => first + i * 2 ^ log).filter fun p =>
    match s.walk ctx p with
    | .leaf _ _ e => !e.v && e.home == 1 && !s.codeHeld ctx p (2 ^ e.log)
    | .bad .. => false

/-- The entries of a table at a level that are not 0: each has a byte that is listed. -/
def State.entriesOf (s : State) (table : Nat) : List Pte :=
  let ids := ((s.mem.filter fun c => decide (table ≤ c.1) && decide (c.1 < table + 8192)).map fun c => (c.1 - table) / 8).eraseDups
  ids.map fun i => BitVec.ofNat 64 (s.readNat (table + 8 * i) 8)

/-- The physical ranges that a table of a level uses: itself, the tables below it, and the frames of its pages. -/
def State.tableRanges (s : State) : Nat → Nat → List (Nat × Nat)
  | level, table =>
    (table, 8192) :: (s.entriesOf table).flatMap fun e =>
      if e.v || e.home != 0 then
        match level with
        | 0 => [(e.addr, 2 ^ e.log)]
        | n + 1 => if e.t then s.tableRanges n e.addr else [(e.addr, 2 ^ e.log)]
      else []

/-- The physical ranges in use: tables and pages of every context, frames that pages are moving to, and bytes that are listed. -/
def State.usedRanges (s : State) : List (Nat × Nat) :=
  (s.ctxs.flatMap fun c => (c.2.root.map fun r => s.tableRanges 3 r).getD []) ++
  (s.migs.flatMap fun m => m.2.pages.map fun p => (p.2.2.2, 2 ^ p.2.1)) ++ s.mem.map fun c => (c.1, 1)

/-- Whether a frame can take a page: populated, aligned, and nothing of it in use. -/
def State.frameOk (s : State) (frame size : Nat) : Bool :=
  s.populated frame && decide (frame % size = 0) && s.usedRanges.all fun r => decide (r.1 + r.2 ≤ frame) || decide (frame + size ≤ r.1)

/-- The first frame from the n-th of a die's HBM on, round its end, that can take a page: past each range in use that is in the
way (log 13). -/
def State.findFrame (s : State) (die size : Nat) (used : List (Nat × Nat)) : Nat → Nat → Option Nat
  | 0, _ => none
  | k + 1, n =>
    let count := 144 * 2 ^ 30 / size
    let f := die * 2 ^ 48 + n % count * size
    match used.find? fun r => decide (f < r.1 + r.2) && decide (r.1 < f + size) with
    | none => some f
    | some r => s.findFrame die size used k ((r.1 + r.2 - die * 2 ^ 48 + size - 1) / size)

/-- A frame of a die's HBM of the firmware's choice, if one is free (log 13). -/
def State.freeFrame (s : State) (die size start : Nat) : Option Nat :=
  let used := s.usedRanges
  s.findFrame die size used (2 * used.length + 2) start

/-- Evicts the least recently faulted page of a context from a die to a frame of tier 2 (R160): its frame, if there is one. -/
def State.evict (s : State) (die ctx log frame : Nat) : Option (State × Nat) :=
  let pinned := ((Tbl.find s.ctxs ctx).map Context.pins).getD []
  match s.movedIn.find? fun p => p.1 == ctx && (!pinned.any fun q => decide (q.1 ≤ p.2) && decide (p.2 < q.1 + q.2)) &&
      match s.walk ctx p.2 with
      | .leaf _ _ e => e.v && e.log == log && e.addr / 2 ^ 48 == die && !s.codeHeld ctx p.2 (2 ^ log)
      | .bad .. => false with
  | none => none
  | some v =>
    match s.walk ctx v.2 with
    | .bad .. => none
    | .leaf level pte e =>
      let s := (s.moveFrame e.addr frame (2 ^ log)).writeLeaves level v.2 pte e (e.place false 1 frame)
      some (({ s with movedIn := s.movedIn.filter (· ≠ v) }).shootPage ctx v.2, e.addr)

/-- A frame for one page: the page's own where it already lies in the die's HBM, a free one of those offered, one freed by an
eviction into an offered frame of tier 2, or the firmware's choice (log 13). -/
def State.pickFrame (s : State) (die ctx log old : Nat) (offered : List Nat) : Option (State × Nat) :=
  let size := 2 ^ log
  if old / 2 ^ 48 = die then some (s, old)
  else
    match offered.find? fun f => f / 2 ^ 48 == die && s.frameOk f size with
    | some f => some (s, f)
    | none =>
      match (offered.find? fun f => tier2 f && s.frameOk f size).bind fun f => s.evict die ctx log f with
      | some r => some r
      | none =>
        if offered.isEmpty then (s.freeFrame die size (Config.freshFrame (s.tick + old))).map fun f => (s, f) else none

/-- Begins the move of one page: HOME 10 until the move ends. -/
def State.beginMove (s : State) (die ctx va : Nat) (offered : List Nat) : State × Option (Nat × Nat × Nat × Nat) × List Nat × Nat :=
  match s.walk ctx va with
  | .bad .. => (s, none, offered, 0)
  | .leaf level pte e =>
    if tier2 e.addr ∧ ¬s.reachable e.addr then (s, none, offered, 0x4F)
    else
      match s.pickFrame die ctx e.log e.addr offered with
      | none => (s, none, offered, 0x4E)
      | some (s, f) =>
        (s.writeLeaves level va pte e (e.place false 2 e.addr), some (va, e.log, e.addr, f), offered.filter (· != f), 0)

/-- Whether a page is being moved for a context. -/
def State.moving (s : State) (ctx va : Nat) : Bool :=
  s.migs.any fun m => m.2.ctx == ctx && m.2.pages.any fun p => p.1 / 2 ^ p.2.1 == va / 2 ^ p.2.1

/-- The partition and class that a fault's migration draws from (R367): those of the launch it serves; a fault of no launch is of
class 0 of its context's partition (log 97). -/
def State.faultClass (s : State) (f : FaultEnt) : Nat × Nat :=
  match f.who with
  | .access id => ((Tbl.find s.accs id).map fun a => s.classOf a.agent).getD (0, 0)
  | .command id => ((Tbl.find s.cmds id).map fun c => s.classOf (.strand c.wid 0)).getD (0, 0)
  | .agent a => s.classOf a
  | .other => (((Tbl.find s.ctxs f.ctx).map Context.part).getD 0, 0)

/-- The sequencer of a die takes the oldest fault whose page is not in migration already, and begins to move the pages of its
span; a fault on a page that is present by now replays, and one that cannot be served is reported at the context rung and stays
for a RESUME (R160, R317). -/
def execMigration (die : Nat) (frames : List Nat) (s : State) : Out :=
  .next (
    match s.faults.find? fun f => f.die == die && !s.moving f.ctx f.va && (Tbl.find s.ctxs f.ctx).any fun c => c.run == .running with
    | none => s
    | some f =>
      match s.walk f.ctx f.va with
      | .bad c _ =>
        s.enterCtx f.ctx c (s.faultVals f.who c f.va)
      | .leaf _ _ e =>
        let va := f.va / 2 ^ e.log * 2 ^ e.log
        if e.v then s.replayAll f.ctx fun v => v / 2 ^ e.log * 2 ^ e.log == va
        else
          let pages := s.spanPages f.ctx va e.log (max e.log f.span)
          let step (q : State × List (Nat × Nat × Nat × Nat) × List Nat × Nat) (p : Nat) :=
            let (s, m, left, bad) := q.1.beginMove die f.ctx p q.2.2.1
            (s, q.2.1 ++ m.toList, left, if p = va then bad else q.2.2.2)
          let (s, ms, _, bad) := pages.foldl step (s, [], frames, 0)
          let s := if bad ≠ 0 then s.enterCtx f.ctx bad (s.faultVals f.who bad f.va) else s
          if ms.isEmpty then s
          else
            let (n, s) := s.fresh
            { s with migs := Tbl.put s.migs n ⟨die, f.ctx, ms, s.faultClass f, 0⟩ })

/-- Ends the move of one page: its bytes, its entry with V = 1, and the shootdown (R160). -/
def State.endMove (s : State) (ctx : Nat) (p : Nat × Nat × Nat × Nat) : State :=
  match s.walk ctx p.1 with
  | .bad .. => s
  | .leaf level pte e =>
    let s := (s.moveFrame p.2.2.1 p.2.2.2 (2 ^ p.2.1)).writeLeaves level p.1 pte e (e.place true 0 p.2.2.2)
    ({ s with movedIn := s.movedIn.filter (· ≠ (ctx, p.1)) ++ [(ctx, p.1)] }).shootPage ctx p.1

/-- The lines that a migration moves, from where and to where. -/
def Mig.moves (m : Mig) : List (Nat × Nat) :=
  m.pages.flatMap fun p => if p.2.2.1 = p.2.2.2 then [] else (List.range (2 ^ p.2.1 / 256)).map fun i => (p.2.2.1 + 256 * i, p.2.2.2 + 256 * i)

/-- Lines move while the allowance lasts (R367): how many, and the state with their bytes drawn, or back-pressure at a port. -/
def State.moveLines (s : State) (pc : Nat × Nat) : List (Nat × Nat) → Nat → Nat × State
  | [], n => (n, s)
  | (a, b) :: rest, n =>
    if !s.weirOpen (s.portOf a) pc 256 then (n, s.backPressure (s.portOf a) pc)
    else
      let t := s.weirDraw (s.portOf a) pc 256
      if !t.weirOpen (s.portOf b) pc 256 then (n, s.backPressure (s.portOf b) pc)
      else State.moveLines (t.weirDraw (s.portOf b) pc 256) pc rest (n + 1)

/-- A migration draws for its lines as far as the weirs let it; once all have moved it ends: its pages are present, and the faults on
them replay (R159, R160, R367). -/
def execMigrationComplete (id : Nat) (s : State) : Out :=
  .next (
    match Tbl.find s.migs id with
    | none => s
    | some m =>
      let (n, t) := if s.weirs.isEmpty then (0, s) else s.moveLines m.cls (m.moves.drop m.lines) m.lines
      if s.isOut m.ctx then s
      else if !s.weirs.isEmpty && decide (n < m.moves.length) then { t with migs := Tbl.put s.migs id { m with lines := n } }
      else
        let s := t
        let s := m.pages.foldl (fun s p => s.endMove m.ctx p) { s with migs := Tbl.del s.migs id }
        s.replayAll m.ctx fun v => m.pages.any fun p => v / 2 ^ p.2.1 == p.1 / 2 ^ p.2.1)

end Sys2Proof.Machine
end

