-- ==== Sys2Proof/Machine/Areas.lean ====
section
/-! DEFINITION. Page tables as the firmware writes them, and the areas of a model record (R155-R157, R246, R374). -/

namespace Sys2Proof.Machine

/-! ## Entries -/

/-- The physical address of the entry that serves an address at a level, below tables that are there. -/
def State.slotFrom (s : State) (va target : Nat) : Nat → Nat → Option Nat
  | level, table =>
    let pte := table + 8 * (va / 2 ^ (16 + 10 * level) % 1024)
    if level = target then some pte
    else match level with
      | 0 => none
      | n + 1 =>
        let e : Pte := BitVec.ofNat 64 (s.readNat pte 8)
        if e.v && e.t then s.slotFrom va target n e.addr else none

def State.slotOf (s : State) (ctx va level : Nat) : Option Nat :=
  match (Tbl.find s.ctxs ctx).bind Context.root with
  | none => none
  | some root => if 3 < level then none else s.slotFrom va level 3 root

/-- Removes the translations of a context for the span of an entry of a level (R157). -/
def State.shootLevel (s : State) (ctx va level : Nat) : State :=
  let asid := s.asidOf ctx
  s.shoot fun _ e => e.asid == asid && e.va / 2 ^ (16 + 10 * level) == va / 2 ^ (16 + 10 * level)

/-- An entry with other permissions. -/
def Pte.perm (e : Pte) (r w x : Bool) : Pte :=
  let bit (b : Bool) (n : Nat) : Nat := if b then 2 ^ n else 0
  BitVec.ofNat 64 (e.toNat - bit e.r 4 - bit e.w 5 - bit e.x 6 + bit r 4 + bit w 5 + bit x 6)

/-- The 64 KiB pages of a range. -/
def pagesOf (va n : Nat) : List Nat := (pagePoints va n).map fun p => p / 65536 * 65536

/-- The level-0 entry that serves an address, below tables of which the missing ones are made, in frames of the firmware's choice
(log 13): none where no frame is free. -/
def State.slotMade (die va : Nat) : Nat → Nat → State → Option (Nat × State)
  | 0, table, s => some (table + 8 * (va / 2 ^ 16 % 1024), s)
  | level + 1, table, s =>
    let pte := table + 8 * (va / 2 ^ (26 + 10 * level) % 1024)
    let e : Pte := BitVec.ofNat 64 (s.readNat pte 8)
    if e.v && e.t then slotMade die va level e.addr s
    else
      match s.freeFrame die 8192 (Config.freshFrame (s.tick + va)) with
      | none => none
      | some f => slotMade die va level f (({ s with mem := Sparse.clear s.mem f 8192 } : State).writeNat pte 8 (f + 3))

/-- Maps one page with the given permissions: one that has no frame gets one of the firmware's choice (log 13). -/
def State.mapPage (s : State) (die ctx p : Nat) (r : Bool) : Option State :=
  match s.walk ctx p with
  | .leaf level pte e =>
    let e' := e.perm r false false
    if e.v || e.home != 0 then some ((s.writeLeaves level p pte e e').shootPage ctx p)
    else
      (s.freeFrame die (2 ^ e.log) (Config.freshFrame (s.tick + p))).map fun f =>
        ({ s with mem := Sparse.clear s.mem f (2 ^ e.log) } : State).writeLeaves level p pte e (e'.place true 0 f)
  | .bad .. =>
    match ((Tbl.find s.ctxs ctx).bind Context.root).bind fun root => s.slotMade die p 3 root with
    | none => none
    | some (pte, s) =>
      (s.freeFrame die 65536 (Config.freshFrame (s.tick + p))).map fun f =>
        ({ s with mem := Sparse.clear s.mem f 65536 } : State).writeNat pte 8 (f + 1 + if r then 16 else 0)

/-- Maps the pages of a range with the given permissions: none where no frame is left. -/
def State.mapArea (s : State) (die ctx va n : Nat) (r : Bool) : Option State :=
  (pagesOf va n).foldlM (fun s p => s.mapPage die ctx p r) s

/-- Clears a range of a context's memory, be its pages present, at home in tier 2 or on their way. -/
def State.clearArea (s : State) (ctx va n : Nat) : State :=
  (linePieces va n).foldl (fun s p => match s.walk ctx p.1 with
    | .leaf _ _ e => if e.v || e.home != 0 then
        let pa := e.addr + p.1 % 2 ^ e.log
        ({ s with mem := Sparse.clear s.mem pa p.2 } : State).setLineMark pa 0
      else s
    | .bad .. => s) s

/-- Unmaps the pages of a range but those to keep: V := 0, and the old translations are gone. -/
def State.unmapArea (s : State) (ctx va n : Nat) (keep : Nat → Bool) : State :=
  (pagesOf va n).foldl (fun s p =>
    if keep p then s
    else match s.walk ctx p with
    | .leaf level pte e => (s.writeLeaves level p pte e (e.place false 0 e.addr)).shootPage ctx p
    | .bad .. => s) s

/-! ## The areas of a model (R246) -/

/-- The areas with their sizes, and whether a program may read them. The size of CTL is not given: its first page (log 20). -/
def Mdl.areas (m : Mdl) : List (Nat × Nat × Bool) :=
  [(m.pool, m.nblk * m.bsize, true), (m.nodes, 128 * m.nnode, true), (m.seqt, 16 * 65536, true), (m.tabs, 1024 * m.ntab, true),
    (m.ctl, 1, false)]

/-- Whether a command works on a model. -/
def Cmd.onModel (c : Cmd) (key : Nat) : Bool :=
  c.ctx == key % 2 ^ 32 / 16 &&
    match c.body with
    | .kvw f | .kvld f | .kvst f | .kvfork f | .rpopen f | .kvfree f => c.modelKey f.sa.toNat == key
    | .splice f => c.modelKey f.sa.toNat == key || c.modelKey f.sc.toNat == key
    | _ => false

/-- Whether a command of a model is outstanding, be its partition swapped out. -/
def State.modelBusy (s : State) (key : Nat) : Bool :=
  (s.cmds.any fun p => p.2.onModel key) || s.saved.any fun p => p.2.cmds.any fun p => p.2.onModel key

/-- The areas of a model are unmapped, but for pages that a model installed in the same context uses (log 20). -/
def State.unmapModel (s : State) (m : Mdl) : State :=
  let kept := (s.models.filter fun p => p.2.rcd.getLsbD 1023 && p.1 / 16 == m.ctx).flatMap fun p => (Mdl.mk p.1 m.ctx p.2.rcd).areas
  let keep (p : Nat) : Bool := kept.any fun a => decide (p < a.1 + a.2.1) && decide (a.1 < p + 65536)
  m.areas.foldl (fun s a => s.unmapArea m.ctx a.1 a.2.1 keep) s

/-- Uninstalled models without outstanding commands are gone, and their areas unmapped. -/
def State.tidyModels (s : State) : State :=
  s.models.foldl (fun s p =>
    if p.2.rcd.getLsbD 1023 || s.modelBusy p.1 then s
    else ({ s with models := Tbl.del s.models p.1 } : State).unmapModel ⟨p.1, p.1 % 2 ^ 32 / 16, p.2.rcd⟩) s

/-- An uninstalled model leaves its slot: its record and counts stay under a key of their own for the commands that work on it. -/
def State.retireModel (s : State) (key : Nat) : State :=
  match Tbl.find s.models key with
  | none => s
  | some m =>
    let k := key + 2 ^ 32 * (((s.models.map fun p => p.1 / 2 ^ 32).max?).getD 0 + 1)
    let move (c : Cmd) : Cmd :=
      { c with
        retired := if c.onModel key then some k else c.retired
        grow := c.grow.map fun g => if g.key = key then { g with key := k } else g }
    { s with
      models := Tbl.put (Tbl.del s.models key) k { m with rcd := m.rcd &&& ~~~(1#1024 <<< 1023) }
      cmds := Tbl.mapVals s.cmds fun _ c => move c
      saved := Tbl.mapVals s.saved fun _ v => { v with cmds := Tbl.mapVals v.cmds fun _ c => move c }
      jobs := Tbl.mapVals s.jobs fun _ j => if j.model = key then { j with model := k } else j }

end Sys2Proof.Machine
end

