-- ==== Sys2Proof/Machine/Gates.lean ====
section
/-! DEFINITION. Gate calls (R332-R346). -/

namespace Sys2Proof.Machine

/-! ## Gate entries (R332) -/

/-- A field of a gate table entry. -/
def gfield (g : BitVec 512) (hi lo : Nat) : Nat := (g.extractLsb' lo (hi + 1 - lo)).toNat

/-- The gate table's entry; one never written has VALID 0. -/
def State.gate (s : State) (i : Nat) : BitVec 512 := (Tbl.find s.gates i).getD 0

/-- Whether a gate's bitmap permits a context: byte c / 8, bit c mod 8 of the 512 B at the physical address CMAP (R3, R332). -/
def State.gatePermits (s : State) (g : BitVec 512) (ctx : Nat) : Bool :=
  (Memory.read s.mem (gfield g 219 168 + ctx / 8)).getLsbD (ctx % 8)

def State.partOf (s : State) (ctx : Nat) : Nat := ((Tbl.find s.ctxs ctx).map Context.part).getD 0

/-- The argument words of a lane that violate R127: ill-timed first, then invalid. -/
def State.argViolation (s : State) (x : Who) (n l : Nat) : Option Nat :=
  let gs := (List.range n).map fun k => (s.core x.core).gran (x.d.lane x.width k l / 128)
  if gs.any Gran.own then some 0x22 else if gs.any fun g => !g.val then some 0x21 else none

/-- R335: the checks of `gcall`, in order. -/
def State.gcallCheck (s : State) (x : Who) (g : BitVec 512) : Option Trap :=
  let em := x.st.em
  if !g.getLsbD 511 || gfield g 504 500 != s.partOf x.d.ctx then some { cause := 0xC0, lanes := em }
  else if !g.getLsbD 510 && !s.gatePermits g x.d.ctx then some { cause := 0xC1, lanes := em }
  else if gdepth x.w 8 x.st.dom = 4 then some { cause := 0xC3, lanes := em }
  else if x.d.call.any fun c => !c.nest then some { cause := 0xC3, lanes := em, detail := 1 }
  else if x.d.fv < gfield g 480 476 ∨ x.d.fv < gfield g 475 471 then some { cause := 0xC0, lanes := em, detail := 1 }
  else
    let bad := (lanesOf em).filterMap fun l => (s.argViolation x (gfield g 480 476) l).map fun c => (l, c)
    let of (c : Nat) : List Nat := bad.filterMap fun p => if p.2 = c then some p.1 else none
    if of 0x21 ≠ [] then some { cause := 0x21, lanes := maskOf (of 0x21) }
    else if of 0x22 ≠ [] then some { cause := 0x22, lanes := maskOf (of 0x22) }
    else none

/-- The records of an array in a context's memory, slot by slot; the slots beyond NREC hold 0 (R152). -/
def State.loadRecs (s : State) (ctx va n : Nat) : List (BitVec 256) :=
  (List.range 32).map fun i => if i < n then s.vrec ctx (va + 32 * i) 256 else 0

/-- Copies a word with its mark (R319, R337, R340). -/
def State.copyWord (s : State) (core from_ dest : Nat) : State :=
  s.warpWrite core dest ((s.core core).word from_) ((s.core core).mark from_)

/-- What the callee's domain receives at a call: the caller's grants (R339). -/
def grantsOf (dom : Nat) (l : List Grant) : List (Nat × Bool × Bool × Bool) × List (Nat × Nat × Nat) :=
  (l.filterMap fun g => match g with
    | .window h r w l => some (h.toNat, r, w, l)
    | .tile _ _ => none,
   l.filterMap fun g => match g with
    | .tile t b => some (b, dom, t)
    | .window .. => none)

/-- A full fence of a strand: every access of it that is not yet performed comes before every later one (R180, R345). -/
def State.fenceAll (s : State) (x : Who) : State :=
  let ids := s.undoneIds x.agent
  s.updStrand x.wid x.sid fun st => { st with fenced := ids ++ st.fenced }

/-- A call that has obtained its frame (R337). -/
def State.enterCallee (s : State) (x : Who) (gi : Nat) (g : BitVec 512) (gran n dn : Nat) : State :=
  let st := x.st.advance 1
  let grants := grantsOf x.st.dom x.st.grants
  let call : Call :=
    { gate := gi, nest := g.getLsbD 509, deep := gfield g 508 507 == 1, nres := gfield g 475 471, tout := gfield g 464 449,
      callerDom := x.st.dom, retPc := st.pc, retClause := st.clause, em := st.em, mem := st.mem, rstack := st.rstack,
      level := st.level, stepArm := st.stepArm, split := st.split, start := s.time, sid := x.sid, windows := grants.1,
      tiles := grants.2 }
  let ctx := gfield g 499 488
  let d : Dom :=
    { a0 := 128 * gran, fv := 8 * gfield g 487 481, ctx := ctx, csrs := Csrs.fresh (BitVec.ofNat 64 (gfield g 391 336)) 0,
      masks := List.replicate 8 0, trapRec := none, recs := s.loadRecs ctx (gfield g 335 280) (gfield g 470 465), tiles := [],
      descp := gfield g 279 224, recp := gfield g 335 280, nrec := gfield g 470 465, call := some call }
  let s := s.updCore x.core fun c =>
    ((c.take gran n).zeroGrans gran n).updGrans gran n fun _ => ⟨false, false, true, true⟩
  let s := s.updWarp x.wid fun w => { w with doms := Tbl.put w.doms dn d }
  let words := (lanesOf x.st.em).flatMap fun l =>
    (List.range (gfield g 480 476)).map fun k => (x.d.lane x.width k l, d.lane x.width k l)
  let words := words ++ (List.range 4).map fun i => (x.d.scal i, d.scal i)
  let s := words.foldl (fun s p => s.copyWord x.core p.1 p.2) s
  let s := s.fenceAll x
  let fence := ((s.strandAt x.wid x.sid).map fun (y : Who) => y.st.fenced).getD []
  s.updStrand x.wid x.sid fun _ =>
    { st with
      pc := BitVec.ofNat 53 (gfield g 447 392 / 8)
      clause := none
      rstack := []
      split := none
      dom := dn
      level := 0
      stepArm := 0
      grants := []
      fenced := fence }

/-- R335-R337. A call for which no frame is free is a full fence too (R345). -/
def execGcall (gi : BitVec 10) (s : State) : Out :=
  issue s fun x =>
    let g := s.gate gi.toNat
    match s.gcallCheck x g with
    | some t => s.trapAt x.wid x.sid t
    | none =>
      let n := (1152 + 8 * gfield g 487 481 * x.width + 127) / 128
      match (s.core x.core).findPool n, Tbl.freeFrom x.w.doms 128 1 with
      | some i, some dn => s.enterCallee x gi.toNat g (1024 - (s.core x.core).pool + i) n dn
      | _, _ =>
        let s := s.updDom x.wid x.st.dom fun d => { d with csrs := { d.csrs with gstat := gstatOf 0xC2 0 false gi.toNat } }
        ((s.fenceAll x).updStrand x.wid x.sid fun st => { st with grants := [] }).skip x

/-! ## `gret` (R340) -/

/-- Whether every lane of a call stands at a `gret` of it but for the issuing strand: strands, records and lanes set aside. -/
def callGathered (x : Who) : Bool :=
  (x.w.strands.all fun p => p.1 == x.sid || !inCall x.w 8 p.2.dom x.st.dom ||
    (p.2.dom == x.st.dom && p.2.parked.any fun q => q.1 == .gret)) &&
  (x.w.deferred.all fun d => !inCall x.w 8 d.dom x.st.dom) &&
  x.w.asides.all fun a => !inCall x.w 8 a.dom x.st.dom || a.wait == .gret

/-- The windows that a callee has exported from its frame. -/
def State.calleeWins (s : State) (x : Who) : List Nat :=
  (s.core x.core).wins.filterMap fun p => if p.2.warp = x.wid ∧ p.2.dom = x.st.dom then some p.1 else none

/-- A pending fault of a callee, taken before its `gret` completes (R201, R340). -/
def State.calleeFault (s : State) (x : Who) : Option PFault :=
  ((Tbl.find s.warps x.wid).map Warp.pfaults).bind fun l => l.find? fun p => p.dom == x.st.dom

/-- Copies the results of a call to the caller and says whether one was lost (R340). -/
def State.copyResults (s : State) (x : Who) (cd : Dom) (k : Call) : State × Bool :=
  let regs := (List.range k.nres).flatMap fun r => (lanesOf k.em).map fun l => (x.d.lane x.width r l, cd.lane x.width r l)
  let held (a : Nat) : Bool := ((s.core x.core).gran (a / 128)).own
  let ok := regs.filter fun p => !held p.2
  let words := ok ++ (List.range 4).map fun i => (x.d.scal i, cd.scal i)
  (words.foldl (fun s p => s.copyWord x.core p.1 p.2) s, regs.any fun p => held p.2)

/-- R340, R344, R345. DEDUCED (log 94): results that would enter s0..s3 of a caller's pair in use are refused as R143 refuses any
write there, at the `gret`. -/
def execGret (s : State) : Out :=
  issue s fun x =>
    match x.d.call with
    | none => s.trap x 0xC4
    | some k =>
      if x.st.rstack ≠ [] then s.trap x 0xC4 1
      else if !callGathered x then s.parkAside x.wid x.sid .gret
      else if (x.w.strands.any fun p => p.2.dom == x.st.dom && p.2.pends != []) ||
          (s.cmds.any fun c => c.2.wid == x.wid && c.2.dom == x.st.dom) ||
          (s.calleeWins x).any fun i => s.winBusy x.core i then s.park x.wid x.sid .gret
      else
        match s.calleeFault x, x.w.dom k.callerDom with
        | some p, _ => s.trapPending x p.pair p.trap
        | none, none => s
        | none, some cd =>
          if (List.range 4).any fun i => s.scalarBusy x.wid k.callerDom i then s.trap x 0x2E 3
          else
          let (s, lost) := s.copyResults x cd k
          let s := s.leaveCall x.wid x.st.dom k
          let s := s.scrubCallee x.wid x.st.dom
          s.updDom x.wid k.callerDom fun d => { d with csrs := { d.csrs with gstat := gstatOf 0 0 lost k.gate } }

/-- R343: a call that has run for TOUT microseconds is killed with CODE 0xC6; the host of the callee context hears of it. -/
def execGateTimeout (wid dn : Nat) (s : State) : Out :=
  .next (
    match (Tbl.find s.warps wid).bind fun w => (w.dom dn).bind fun d => d.call.map fun k => (w, d, k) with
    | none => s
    | some (w, d, k) =>
      if s.time < k.start + 700 * k.tout then s
      else (s.notify ⟨0xC6, s.partOf d.ctx, d.ctx, rungVals d.csrs (widOf wid w)⟩).killCall 8 wid dn 0xC6 0)

end Sys2Proof.Machine
end

