-- ==== Sys2Proof/Machine/Launch.lean ====
section
/-! DEFINITION. Launches: descriptors and their checks, placement, and the arbiter (R273-R275, R280-R282, R287, R292). -/

namespace Sys2Proof.Machine

/-! ## What a descriptor says (R273) -/

/-- What a crew of a descriptor needs of its core. -/
structure CrewShape where
  (warps wlog fv : Nat) (tiles : List (Nat × Tile)) (fe : Bool)
  deriving DecidableEq, Repr

/-- Why no launch comes of a descriptor: a cause, or a page to wait for. -/
inductive LErr where
  | bad (cause detail : Nat)
  | page (va : Nat)
  deriving DecidableEq, Repr

def warpsOf (d : BitVec 1024) : Nat := dfield d 429 425 + 1
def crewsPerBraid (d : BitVec 1024) : Nat := dfield d 424 422 + 1
def braidsPerSpan (d : BitVec 1024) : Nat := dfield d 421 418 + 1

/-- What keeps a range of a context's memory from being read, as a failing check. -/
def State.unread (s : State) (ctx va n cause detail : Nat) : Option LErr :=
  match s.rangeFault ctx va n .read with
  | none => none
  | some (p, .replay) => some (.page p)
  | some _ => some (.bad cause detail)

/-- Tile declarations (R273): slots with their shapes, or a word that R133 rejects. -/
def tileDecls (words : List Nat) : Option (List (Nat × Tile)) :=
  (words.zipIdx).foldr (fun p acc =>
    match acc with
    | none => none
    | some l =>
      if p.1 / 2 ^ 14 % 2 ^ 17 ≠ 0 then none
      else if p.1 < 2 ^ 31 then some l
      else match shapeTile (p.1 % 2 ^ 14) with
        | none => none
        | some t => some ((p.2, t) :: l)) (some [])

/-- The tile declarations of a descriptor. -/
def State.declTiles (s : State) (ctx : Nat) (d : BitVec 1024) : Except LErr (List (Nat × Tile)) :=
  let va := dfield d 679 624
  if va = 0 then .ok []
  else match s.unread ctx va 128 0xA1 0 with
    | some e => .error e
    | none => match tileDecls ((List.range 32).map fun i => s.vreadNat ctx (va + 4 * i) 4) with
      | none => .error (.bad 0xA1 5)
      | some l => .ok l

/-- What a crew needs; a descriptor whose tiles cannot be read needs none. -/
def State.crewShape (s : State) (ctx : Nat) (d : BitVec 1024) : CrewShape :=
  let tiles := match s.declTiles ctx d with
    | .ok l => l
    | .error _ => []
  ⟨warpsOf d, dfield d 432 430, 8 * dfield d 439 433, tiles, dfield d 959 904 != 0⟩

def CrewShape.width (c : CrewShape) : Nat := 4 * 2 ^ c.wlog
def CrewShape.frame (c : CrewShape) : Nat := (1152 + c.fv * c.width + 127) / 128
def CrewShape.slices (c : CrewShape) : Nat := c.warps * 2 ^ c.wlog
/-- The runs of granules that a crew takes: its tiles and its frames. -/
def CrewShape.runs (c : CrewShape) : List Nat := (c.tiles.map fun t => t.2.granules) ++ List.replicate c.warps c.frame

/-! ## Checks (R274) -/

/-- Checks 1 to 4 of R274. -/
def descBad (d : BitVec 1024) (va : Nat) : Option Nat :=
  if !d.getLsbD 1023 || dfield d 1022 1016 != 0 || dfield d 338 0 != 0 then some 1
  else if va % 64 ≠ 0 ∨ dfield d 1015 960 % 8 ≠ 0 ∨ dfield d 959 904 % 8 ≠ 0 ∨ dfield d 903 848 % 8 ≠ 0 ∨ dfield d 847 792 % 8 ≠ 0 ∨
      dfield d 791 736 % 32 ≠ 0 ∨ dfield d 735 680 % 16384 ≠ 0 ∨ dfield d 679 624 % 4 ≠ 0 then some 2
  else if dfield d 439 433 = 0 ∨ 120 < dfield d 439 433 ∨ 4 < dfield d 432 430 ∨ 32 < dfield d 405 400 ∨ 23 < dfield d 399 395 then some 3
  else if dfield d 503 472 = 0 ∨ dfield d 503 472 % (crewsPerBraid d * braidsPerSpan d) ≠ 0 then some 4
  else none

/-- A descriptor read and checked up to its tiles. -/
def State.checkOne (s : State) (ctx va : Nat) : Except LErr (BitVec 1024) :=
  match s.unread ctx va 128 0xA1 0 with
  | some e => .error e
  | none =>
    let d : BitVec 1024 := s.vrec ctx va 1024
    match descBad d va with
    | some n => .error (.bad 0xA1 n)
    | none => (s.declTiles ctx d).map fun _ => d

/-- Stage i of a pipeline description (R287). -/
def State.stageAt (s : State) (ctx va i : Nat) : BitVec 256 := s.vrec ctx (va + 32 + 32 * i) 256

def sfield (r : BitVec 256) (hi lo : Nat) : Nat := (r.extractLsb' lo (hi + 1 - lo)).toNat

/-- A stage's record and descriptor (R287); `next` is the input ring of the next stage, 0 for the last. -/
def State.checkStage (s : State) (ctx : Nat) (r : BitVec 256) (next : Nat) : Except LErr Stage :=
  let n := sfield r 87 80
  let m := sfield r 79 72
  if sfield r 71 0 ≠ 0 ∨ n = 0 ∨ m = 0 ∨ n < m ∨ sfield r 143 88 ≠ next then .error (.bad 0xA1 6)
  else match s.checkOne ctx (sfield r 255 200) with
    | .error (.page va) => .error (.page va)
    | .error _ => .error (.bad 0xA1 6)
    | .ok d =>
      if dfield d 623 568 ≠ 0 ∨ dfield d 424 418 ≠ 0 ∨ 21 < dfield d 399 395 ∨ d.getLsbD 406 then .error (.bad 0xA1 6)
      else .ok ⟨d, sfield r 199 144, sfield r 143 88, n, m, none, 0, false⟩

/-- The stages from a list of records. -/
def State.checkStages (s : State) (ctx : Nat) : List (BitVec 256) → Except LErr (List Stage)
  | [] => .ok []
  | r :: l =>
    match s.checkStage ctx r ((l.head?.map fun q => sfield q 199 144).getD 0) with
    | .error e => .error e
    | .ok g => (s.checkStages ctx l).map (g :: ·)

/-- The pipeline description of a descriptor: its stages, none for a grid. -/
def State.pipeOf (s : State) (ctx : Nat) (d : BitVec 1024) : Except LErr (List Stage) :=
  let va := dfield d 623 568
  if va = 0 then .ok []
  else match s.unread ctx va 32 0xA1 0 with
    | some e => .error e
    | none =>
      let h : BitVec 256 := s.vrec ctx va 256
      let n := sfield h 2 0 + 1
      if n < 2 ∨ sfield h 255 3 ≠ 0 then .error (.bad 0xA1 6)
      else match s.unread ctx (va + 32) (32 * n) 0xA1 0 with
        | some e => .error e
        | none => s.checkStages ctx ((List.range n).map fun i => s.stageAt ctx va i)

/-- The partition of a context's launches. -/
def State.partRec (s : State) (ctx : Nat) : Option Part := Tbl.find s.parts (s.partOf ctx)

/-- The largest stitched region of a partition (R365). -/
def Part.largest (p : Part) : Nat := (p.regions.map fun r => ((List.range 72).filter fun i => r.2.1.getLsbD i).length).foldl max 0

/-- Whether crews of a shape could never be placed, on an idle core with a gate pool (R274, 0xA2). -/
def CrewShape.tooBig (c : CrewShape) (pool : Nat) : Bool :=
  decide (32 < c.slices) || decide (32 < c.warps) || decide (1024 - pool < c.runs.sum)

/-- Whether a span of a descriptor could not be placed even on an idle die. -/
def State.neverFits (s : State) (ctx : Nat) (d : BitVec 1024) : Bool :=
  match s.partRec ctx with
  | none => true
  | some p =>
    (s.crewShape ctx d).tooBig p.pool || (decide (1 < braidsPerSpan d) && decide (p.largest < braidsPerSpan d)) ||
    p.clusters.all fun c => c.2 == 0

/-- R274: a descriptor with its stages, or what fails first. -/
def State.checkDesc (s : State) (ctx va : Nat) : Except LErr (BitVec 1024 × List Stage) :=
  match s.checkOne ctx va with
  | .error e => .error e
  | .ok d =>
    match s.pipeOf ctx d with
    | .error e => .error e
    | .ok stages =>
      if d.getLsbD 406 && braidsPerSpan d == 1 then .error (.bad 0xA1 7)
      else
        let descs := if stages.isEmpty then [d] else stages.map Stage.desc
        if descs.any (s.neverFits ctx) then .error (.bad 0xA2 0) else .ok (d, stages)

/-! ## Creation (R273, R292) -/

namespace Launch
/-- Crews of a span, and spans of a launch: each crew of a pipeline is one (R287). -/
def perSpan (l : Launch) : Nat := if l.stages.isEmpty then crewsPerBraid l.desc * braidsPerSpan l.desc else 1
def spans (l : Launch) : Nat :=
  if l.stages.isEmpty then dfield l.desc 503 472 / l.perSpan else (l.stages.map Stage.ncrew).sum
/-- Every span has been placed. -/
def whole (l : Launch) : Bool := decide (l.spans ≤ l.placed)
/-- Every crew of a stage has been placed and has ended, and its output ring is still open (R291). -/
def stageOver (l : Launch) (i : Nat) (g : Stage) : Bool :=
  g.live == 0 && !g.shut && decide (((l.stages.take (i + 1)).map Stage.ncrew).sum ≤ l.placed)
/-- The launch waits in its queue. -/
def pending (l : Launch) : Bool := l.out.isNone && !l.whole
end Launch

/-- A descriptor with another ARG (R285, R299). -/
def withArg (d : BitVec 1024) : Option Dword → BitVec 1024
  | none => d
  | some a => BitVec.ofNat 1024 (d.toNat - dfield d 567 504 * 2 ^ 504 + a.toNat * 2 ^ 504)

/-- Whether the pending-launch store of a die has an entry free: 4,096 launches that wait. -/
def State.storeRoom (s : State) (die : Nat) : Bool :=
  decide ((s.launches.filter fun p => p.2.die == die && p.2.pending).length < 4096)

/-- A launch is created: its number. -/
def State.makeLaunch (s : State) (ctx die prio : Nat) (d : BitVec 1024) (stages : List Stage) (pred : Option Nat) : Nat × State :=
  let (n, s) := s.fresh
  let l : Launch :=
    { ctx := ctx, die := die, prio := prio, desc := d, pred := pred, depd := false, placed := 0, ended := 0, qsum := 0, fcause := none,
      killed := false, moves := 0, refuse := 0, counter := 0, stages := stages, out := none }
  (n, { s with launches := Tbl.put s.launches n l })

/-! ## Where a crew fits -/

/-- Takes runs of granules one after another: their first granules. -/
def Core.takeRuns : Core → List Nat → Option (Core × List Nat)
  | c, [] => some (c, [])
  | c, n :: l =>
    match c.findRun n with
    | none => none
    | some g => ((c.take g n).takeRuns l).map fun p => (p.1, g :: p.2)

/-- The warps of a core. -/
def State.warpsOn (s : State) (core : Nat) : Tbl Warp := s.warps.filter fun p => coreOf p.1 == core
/-- The free warp slots of a core (R101). -/
def State.freeSlots (s : State) (core : Nat) : List Nat := (List.range 32).filter fun i => (Tbl.find s.warps (core * 32 + i)).isNone
/-- Whether a crew fits on a core now: slots, slices, granules, and a front-end context (R101, R217). -/
def State.crewFits (s : State) (core : Nat) (c : CrewShape) : Bool :=
  decide (c.warps ≤ (s.freeSlots core).length) &&
  decide (((s.warpsOn core).map fun p => 2 ^ p.2.wlog).sum + c.slices ≤ 32) &&
  (!c.fe || decide ((s.crews.filter fun p => p.2.core == core && p.2.fe.isSome).length < 8)) &&
  ((s.core core).takeRuns c.runs).isSome

/-- The cores of a cluster for a braid of n crews (R109). -/
def State.braidCores (s : State) (die clus n : Nat) (c : CrewShape) : Option (List Nat) :=
  let l := ((List.range 8).map fun i => die * 576 + clus * 8 + i).filter fun k => s.crewFits k c
  if l.length < n then none else some (l.take n)

/-- The clusters of a bitmap in ascending order. -/
def clustersOf (b : BitVec 72) : List Nat := (List.range 72).filter fun i => b.getLsbD i

/-- Where a span can be placed now: the lowest place in the partition's order (R109, R280, R366, log 6). -/
def State.spanPlace (s : State) (p : Part) (braids crews : Nat) (c : CrewShape) : Option (List (List Nat)) :=
  if braids = 1 then
    (p.clusters.flatMap fun q => (clustersOf q.2).map fun k => (q.1, k)).findSome? fun q =>
      (s.braidCores q.1 q.2 crews c).map fun l => [l]
  else
    p.regions.findSome? fun r =>
      let cl := (clustersOf r.2.1).take braids
      let l := cl.filterMap fun k => s.braidCores r.1 k crews c
      if cl.length = braids ∧ l.length = braids then some l else none

/-! ## Placement (R275) -/

/-- What is placed of a launch: its descriptor and the words that each warp's scalars start with (R275, R287). -/
structure Placing where
  (launch ctx : Nat) (desc : BitVec 1024) (shape : CrewShape) (stage : Option Nat) (head : List Nat)
  deriving DecidableEq, Repr

/-- The low and high words of dwords. -/
def splitWords (l : List Nat) : List Nat := l.flatMap fun d => [d % 2 ^ 32, d / 2 ^ 32 % 2 ^ 32]

/-- The VA and number of the argument dwords (R275). -/
def argRange (d : BitVec 1024) : Nat × Nat := (dfield d 567 504, dfield d 399 395)

/-- The page that holds a crew's placement back: one of its arguments or of its record array (R159). -/
def State.placingPage (s : State) (p : Placing) : Option Nat :=
  let (va, n) := argRange p.desc
  [(va, 8 * n), (dfield p.desc 791 736, 32 * dfield p.desc 405 400)].findSome? fun r =>
    match s.rangeFault p.ctx r.1 r.2 .read with
    | some (q, .replay) => some q
    | _ => none

/-- The records of a crew (R152): an entry that cannot be read leaves its slot invalid. -/
def State.crewRecs (s : State) (ctx : Nat) (d : BitVec 1024) : List (BitVec 256) :=
  (List.range 32).map fun i =>
    let va := dfield d 791 736 + 32 * i
    if i < dfield d 405 400 ∧ (s.rangeFault ctx va 32 .read).isNone then s.vrec ctx va 256 else 0

/-- A warp at its start (R12, R126, R145). -/
def Placing.warp (p : Placing) (crew winc cinb bins gran : Nat) : Warp :=
  let d := p.desc
  let em := fullMask p.shape.width
  let st : Strand :=
    { pc := BitVec.ofNat 53 (dfield d 1015 960 / 8), clause := none, em := em, mem := em, rstack := [], split := none, dom := 0,
      parked := none, pends := [], level := 0, stepArm := 0, grants := [], yld := false, fenced := [], past := [], trapping := none }
  let dom : Dom :=
    { a0 := 128 * gran, fv := p.shape.fv, ctx := p.ctx
      csrs := Csrs.fresh (BitVec.ofNat 64 (dfield d 903 848)) (BitVec.ofNat 64 (dfield d 847 792))
      masks := List.replicate 8 0, trapRec := none, recs := [], tiles := [], descp := dfield d 735 680, recp := dfield d 791 736,
      nrec := dfield d 405 400, call := none }
  { crew := crew, winc := winc, cinb := cinb, bins := bins, wlog := p.shape.wlog, doms := [(0, dom)]
    queues := (List.range 8).map fun q => ⟨[], decide (q < 4) && !p.shape.fe⟩
    strands := [(0, st)], deferred := [], asides := [], splits := [], prio := 1, seqno := 0, pfaults := [], xchDone := 0, xchArr := none,
    ended := false }

/-- Zero-fills a run and marks it valid (R125). -/
def Core.fillZero (c : Core) (g n : Nat) : Core := (c.zeroGrans g n).updGrans g n fun _ => ⟨false, false, true, true⟩

/-- The context of a crew's access program at its start (R217). -/
def startFe (entry item warps : Nat) : FrontEnd :=
  ⟨BitVec.ofNat 53 (entry / 8), none, [BitVec.ofNat 64 item, BitVec.ofNat 64 warps] ++ List.replicate 30 0, [], none, none, none⟩

/-- A crew is placed on a core that it fits (R275): its number. An argument that cannot be read ends it as faulted. -/
def State.placeCrew (s : State) (p : Placing) (core item cinb bins braid span : Nat) (clusters : List Nat) :
    Nat × State :=
  let (cid, s) := s.fresh
  match (s.core core).takeRuns p.shape.runs with
  | none => (cid, s)
  | some (k, grans) =>
    let nt := p.shape.tiles.length
    let tiles := ((p.shape.tiles.zip grans).map fun t => (t.1.1, { t.1.2 with gran := t.2 }))
    let k := (p.shape.runs.zip grans).foldl (fun k r => k.fillZero r.2 r.1) k
    let s := s.setCore core k
    let slots := (s.freeSlots core).take p.shape.warps
    let ws := ((slots.zip (grans.drop nt)).zipIdx).map fun q => (core * 32 + q.1.1, p.warp cid q.2 cinb bins q.1.2)
    let (va, n) := argRange p.desc
    let bad := match s.rangeFault p.ctx va (8 * n) .read with
      | some (_, .bad c _) => some c
      | _ => none
    let args := p.head ++ splitWords ((List.range n).map fun i => s.vreadNat p.ctx (va + 8 * i) 8)
    let d := p.desc
    let crew : Crew :=
      { launch := p.launch, item := item, core := core, braid := braid, span := span, clusters := clusters, warps := ws.map Prod.fst, tiles := tiles,
        recs := s.crewRecs p.ctx d, fe := if p.shape.fe then some (startFe (dfield d 959 904) item p.shape.warps) else none, hnx := false,
        pdone := false, rung := none, rungQ := [], rrotDone := 0, rrotArr := none, superstep := d.getLsbD 406,
        comm := false, stage := p.stage, placed := s.time, faulted := none, killed := false }
    let s := { s with crews := Tbl.put s.crews cid crew, warps := ws.foldl (fun t w => Tbl.put t w.1 w.2) s.warps }
    let s := ws.foldl (fun s w => match w.2.dom 0 with
      | none => s
      | some dm => (args.zipIdx).foldl (fun s a => s.setScalar core dm a.2 (BitVec.ofNat 32 a.1)) s) s
    (cid, match bad with
      | some c => s.haltCrew cid (some c) false
      | none => s)

/-- The stage and crew number of the n-th crew of a pipeline (R287). -/
def stageCrew : List Stage → Nat → Nat → Option (Nat × Nat)
  | [], _, _ => none
  | g :: l, i, n => if n < g.ncrew then some (i, n) else stageCrew l (i + 1) (n - g.ncrew)

/-- What is placed of a stage: rings, the stage's ARG (R287). -/
def State.stagePlacing (s : State) (lid : Nat) (l : Launch) (i : Nat) (g : Stage) : Placing :=
  ⟨lid, l.ctx, g.desc, s.crewShape l.ctx g.desc, some i, splitWords [g.inr, g.outr, dfield g.desc 567 504]⟩

/-- What the next span of a launch places: its content, and its first crew's item index. -/
def State.nextPlacing (s : State) (lid : Nat) (l : Launch) : Option (Placing × Nat) :=
  if l.stages.isEmpty then
    some (⟨lid, l.ctx, l.desc, s.crewShape l.ctx l.desc, none, splitWords [dfield l.desc 567 504]⟩, l.placed * l.perSpan)
  else
    match stageCrew l.stages 0 l.placed with
    | none => none
    | some (i, n) => (l.stages[i]?).map fun g => (s.stagePlacing lid l i g, n)

/-- One more live crew of a stage. -/
def Launch.addLive (l : Launch) (i : Option Nat) : Launch :=
  match i with
  | none => l
  | some i => { l with stages := l.stages.modify i fun g => { g with live := g.live + 1 } }

/-- Every crew of a launch has executed `hnext` or ended, all of them having been placed (R292). -/
def State.handedOver (s : State) (lid : Nat) (l : Launch) : Bool := l.whole && (s.crews.all fun p => !(p.2.launch == lid) || p.2.hnx)

/-- Whether a launch's predecessor lets its crews be placed (R292). -/
def State.mayPlace (s : State) (l : Launch) : Bool :=
  match l.pred with
  | none => true
  | some i =>
    match Tbl.find s.launches i with
    | none => true
    | some q => q.out.isSome || (l.desc.getLsbD 407 && s.handedOver i q)

/-- A page that something other than an agent waits for: it is in the fault buffer once (R159). -/
def State.wantPage (s : State) (die ctx va : Nat) : State :=
  s.takeFault die ctx va .other 0

/-- Places the head span of a launch, if it can be placed now. -/
def State.placeSpan (s : State) (lid : Nat) : Option State :=
  match Tbl.find s.launches lid with
  | none => none
  | some l =>
    match s.partRec l.ctx, s.nextPlacing lid l, Tbl.find s.ctxs l.ctx with
    | some p, some (pl, item), some c =>
      if !l.pending || p.run != .resident || c.run != .running || !s.mayPlace l then none
      else if (s.placingPage pl).isSome then none
      else
        let (nb, nc) := if l.stages.isEmpty then (braidsPerSpan l.desc, crewsPerBraid l.desc) else (1, 1)
        match s.spanPlace p nb nc pl.shape with
        | none => none
        | some cores =>
          let clusters := (cores.flatten.map clusOf).eraseDups
          let (span, s) := s.fresh
          let s := (cores.zipIdx).foldl (fun s b =>
            let (braid, s) := s.fresh
            (b.1.zipIdx).foldl (fun s k => (s.placeCrew pl k.1 (item + b.2 * nc + k.2) k.2 b.2 braid span clusters).2) s) s
          some { s with launches := Tbl.upd s.launches lid fun l => { l.addLive pl.stage with placed := l.placed + 1 } }
    | _, _, _ => none

/-! ## The arbiter (R280-R282) -/

/-- A launch queue: partition, die, class, as one key of State.deficits. -/
def queueKey (part die cls : Nat) : Nat := part * 32 + die * 8 + cls

/-- The launches of a queue, first in first out. -/
def State.queue (s : State) (part die cls : Nat) : List Nat :=
  (s.launches.filter fun p => p.2.die == die && p.2.prio == cls && s.partOf p.2.ctx == part && p.2.pending).map Prod.fst

/-- The queues of a die, in ascending partition then class order: those of the partitions that hold clusters on it. -/
def State.queuesOf (s : State) (die : Nat) : List (Nat × Nat) :=
  (s.parts.filter fun p => p.2.clusters.any fun c => c.1 == die && c.2 != 0).flatMap fun p => (List.range 8).map fun i => (p.1, i)

/-- Q(i) (R281). -/
def State.quantum (s : State) (part cls : Nat) : Nat :=
  (((Tbl.find s.parts part).map Part.quanta).getD [])[cls]?.getD ((8 - cls) * 65536)

def State.deficit (s : State) (part die cls : Nat) : Int := (Tbl.find s.deficits (queueKey part die cls)).getD 0
def State.setDeficit (s : State) (part die cls : Nat) (v : Int) : State := { s with deficits := Tbl.put s.deficits (queueKey part die cls) v }

/-- The inner loop of R281: head spans are placed while there are any that can be; a die has slots for 18,432 warps. -/
def State.placeHeads (s : State) (part die cls : Nat) : Nat → State
  | 0 => s
  | n + 1 =>
    match s.queue part die cls with
    | [] => s
    | h :: _ =>
      match s.placeSpan h with
      | none => s
      | some t => t.placeHeads part die cls n

/-- A page that a head span waits for. -/
def State.headPage (s : State) (part die cls : Nat) : State :=
  match s.queue part die cls with
  | [] => s
  | h :: _ =>
    match (Tbl.find s.launches h).bind fun l => (s.nextPlacing h l).bind fun p => (s.placingPage p.1).map fun va => (l.ctx, va) with
    | some (ctx, va) => s.wantPage die ctx va
    | none => s

/-- One visit of the arbiter of a die to its current queue (R281). -/
def execArbiterRun (die : Nat) (s : State) : Out :=
  .next (
    let qs := s.queuesOf die
    if qs.all fun q => (s.queue q.1 die q.2).isEmpty then s
    else
      let i := ((Tbl.find s.visiting die).getD 0) % qs.length
      match qs[i]? with
      | none => s
      | some (part, cls) =>
        let d := s.deficit part die cls
        let t :=
          if (s.queue part die cls).isEmpty then s.setDeficit part die cls 0
          else if d ≤ 0 then s.setDeficit part die cls (d + s.quantum part cls)
          else (s.placeHeads part die cls 18432).headPage part die cls
        { t with visiting := Tbl.put t.visiting die ((i + 1) % qs.length) })

end Sys2Proof.Machine
end

