-- ==== Sys2Proof/Machine/Graph.lean ====
section
/-! DEFINITION. The graph engine (R296-R302). -/

namespace Sys2Proof.Machine

/-! ## Records (R296, R297) -/

/-- Replaces bits [hi:lo] of a record. -/
def bput (r : BitVec 1024) (hi lo v : Nat) : BitVec 1024 :=
  BitVec.ofNat 1024 (r.toNat - dfield r hi lo * 2 ^ lo + v % 2 ^ (hi + 1 - lo) * 2 ^ lo)

/-- The VA of node i of a graph. -/
def nodeVa (g i : Nat) : Nat := g + 128 * (i + 1)

def State.rec_ (s : State) (ctx va : Nat) : BitVec 1024 := s.vrec ctx va 1024
def State.updRec (s : State) (ctx va : Nat) (f : BitVec 1024 → BitVec 1024) : State :=
  s.vwriteNat ctx va 128 (f (s.rec_ ctx va)).toNat

/-! Fields of a graph record. -/
def gGst (r : BitVec 1024) : Nat := dfield r 1022 1020
def gNnode (r : BitVec 1024) : Nat := dfield r 1007 992

/-! Fields of a node record. -/
def nKind (r : BitVec 1024) : Nat := dfield r 1023 1020
def nPol (r : BitVec 1024) : Nat := dfield r 1019 1016
def nStat (r : BitVec 1024) : Nat := dfield r 1007 1004
def nNeed (r : BitVec 1024) : Nat := dfield r 991 976

/-- The nodes of a graph. -/
def State.nodeRecs (s : State) (ctx g : Nat) : List (BitVec 1024) :=
  (List.range (gNnode (s.rec_ ctx g))).map fun i => s.rec_ ctx (nodeVa g i)

/-- The successors of a node, in SUCC then OVF order. -/
def State.succs (s : State) (ctx : Nat) (r : BitVec 1024) : List Nat :=
  (((List.range 6).map fun j => dfield r (959 - 16 * j) (944 - 16 * j)) ++
    (List.range (dfield r 863 848)).map fun j => s.vreadNat ctx (dfield r 847 792 + 2 * j) 2).filter (· ≠ 0xFFFF)

/-- How many edges lead to a node. -/
def State.inEdges (s : State) (ctx g i : Nat) : Nat :=
  ((s.nodeRecs ctx g).map fun r => ((s.succs ctx r).filter (· = i)).length).sum

/-- Whether an edge is one of R300: from a kernel node to a kernel node with ES, NEED 1 and no other in-edge. -/
def State.earlyEdge (s : State) (ctx g i j : Nat) : Bool :=
  let r := s.rec_ ctx (nodeVa g j)
  nKind (s.rec_ ctx (nodeVa g i)) == 0 && nKind r == 0 && r.getLsbD 999 && nNeed r == 1 && s.inEdges ctx g j == 1

/-! ## Firing (R299, R301) -/

/-- A node fires: its work begins, and a graph that had ended runs again. -/
def State.fireNode (s : State) (ctx g i die : Nat) (pred : Option Nat) (early : Bool) : State :=
  let s := s.updRec ctx (nodeVa g i) fun r => bput r 1007 1004 1
  let s := s.updRec ctx g fun r => if gGst r = 2 ∨ gGst r = 3 then bput r 1022 1020 1 else r
  let (n, s) := s.fresh
  { s with works := Tbl.put s.works n ⟨ctx, g, i, die, pred, .waiting, false, early⟩ }

/-- One token for a node (R299). -/
def State.token (s : State) (ctx g i die : Nat) (pred : Option Nat) : State :=
  let r := s.rec_ ctx (nodeVa g i)
  if nStat r = 5 then s
  else
    let c := dfield r 975 960 + 1
    let s := s.updRec ctx (nodeVa g i) fun r => bput r 975 960 c
    if c = nNeed r ∧ nStat r = 0 then s.fireNode ctx g i die pred false else s

/-- The nodes that some nodes lead to, and those nodes themselves. -/
def coneOf (succ : List (List Nat)) : Nat → List Nat → List Nat
  | 0, l => l
  | n + 1, l =>
    let next := (l ++ l.flatMap fun i => succ.getD i []).eraseDups
    if next.length = l.length then l else coneOf succ n next

/-- The PENDING nodes of a graph that nothing excuses: no node before them is FAULTED or CANCELLED, and neither they nor a PENDING node
before them wait for a token from outside (R301). -/
def State.unexcused (s : State) (ctx g : Nat) : List Nat :=
  let nodes := s.nodeRecs ctx g
  let succ := nodes.map (s.succs ctx)
  let edges := succ.flatten
  let source (i : Nat) : Bool :=
    let r := nodes.getD i 0
    nStat r == 4 || nStat r == 5 || (nStat r == 0 && decide ((edges.filter (· = i)).length < nNeed r))
  let excused := coneOf succ nodes.length ((List.range nodes.length).filter source)
  (List.range nodes.length).filter fun i => nStat (nodes.getD i 0) == 0 && !excused.contains i

/-- A graph ends when no node of it is fired or held back, and every PENDING node is excused (R301). -/
def State.graphEnd (s : State) (ctx g : Nat) : State :=
  let r := s.rec_ ctx g
  if gGst r ≠ 1 ∨ s.works.any (fun w => w.2.ctx == ctx && w.2.graph == g) ∨ s.unexcused ctx g ≠ [] then s
  else
    let pend := ((s.nodeRecs ctx g).filter fun n => nStat n == 0).length
    let gst := if dfield r 975 960 = 0 ∧ dfield r 959 944 = 0 then 2 else 3
    s.updRec ctx g fun r => bput (bput r 1022 1020 gst) 943 928 pend

/-- Tokens on the out-edges of a node whose launch is `l`; edges counted early deliver no second token (R300). -/
def State.outTokens (s : State) (ctx g i die : Nat) (l : Option Nat) (early : Bool) : State :=
  (s.succs ctx (s.rec_ ctx (nodeVa g i))).foldl (fun s j =>
    let e := s.earlyEdge ctx g i j
    if e && early then s else s.token ctx g j die (if e then l else none)) s

/-! ## Cancellation walks (R299, R301) -/

/-- A walk begins below a node. -/
def State.startWalk (s : State) (ctx g i : Nat) : State :=
  match s.succs ctx (s.rec_ ctx (nodeVa g i)) with
  | [] => s
  | l =>
    let s := s.updRec ctx g fun r => bput r 1019 1019 1
    let (n, s) := s.fresh
    { s with cwalks := Tbl.put s.cwalks n ⟨ctx, g, l⟩ }

/-- A pending node is cancelled. -/
def State.cancelNode (s : State) (ctx g i : Nat) : State :=
  let s := s.updRec ctx (nodeVa g i) fun r => bput (bput r 1007 1004 5) 735 728 0xAB
  s.updRec ctx g fun r =>
    let r := bput r 959 944 (dfield r 959 944 + 1)
    if gGst r = 1 then r else bput r 943 928 (dfield r 943 928 - 1)

/-- A page of a graph that keeps its engine waiting: the engine reads and writes the graph's records (R284). -/
def State.graphPage (s : State) (ctx g : Nat) : Option (Nat × Acc) :=
  match s.rangeFault ctx g 128 .both with
  | some p => some p
  | none => s.rangeFault ctx g (128 * (gNnode (s.rec_ ctx g) + 1)) .both

/-- Goes on with the records of a graph present; a page that migrates is waited for. -/
def State.withGraph (s : State) (die ctx g : Nat) (k : State) : State :=
  match s.graphPage ctx g with
  | none => k
  | some (va, .replay) => s.wantPage die ctx va
  | some _ => s

/-- One step of a walk: the next node (R299, R301). -/
def State.walkStep (s : State) (id : Nat) : State :=
  match Tbl.find s.cwalks id with
  | none => s
  | some w => s.withGraph 0 w.ctx w.graph (
      match w.todo with
      | [] =>
        let s := { s with cwalks := Tbl.del s.cwalks id }
        let s := if s.cwalks.any fun q => q.2.ctx == w.ctx && q.2.graph == w.graph then s
          else s.updRec w.ctx w.graph fun r => bput r 1019 1019 0
        s.graphEnd w.ctx w.graph
      | i :: rest =>
        let r := s.rec_ w.ctx (nodeVa w.graph i)
        if nStat r = 0 then
          let s := s.cancelNode w.ctx w.graph i
          ({ s with cwalks := Tbl.put s.cwalks id { w with todo := s.succs w.ctx r ++ rest } } : State).graphEnd w.ctx w.graph
        else { s with cwalks := Tbl.put s.cwalks id { w with todo := rest } })

/-- Whether the graph engine works on a context's graphs: pre-emption stops it between its steps (R302). -/
def State.graphRuns (s : State) (ctx : Nat) : Bool := (Tbl.find s.ctxs ctx).any fun c => c.run == .running

/-- One step of a walk (R299, R302). -/
def execGraphCancelWalkStep (id : Nat) (s : State) : Out :=
  .next (if (Tbl.find s.cwalks id).any fun w => s.graphRuns w.ctx then s.walkStep id else s)

/-! ## Starting a graph (R298) -/

/-- Why a graph instruction does not act: a precise trap, or a page to wait for (R284). -/
inductive GErr where
  | trap (t : Trap)
  | page (va : Nat)
  deriving DecidableEq, Repr

/-- What keeps a range from being read and written by a class 5 instruction (R284). -/
def State.recFault (s : State) (ctx va n : Nat) (need : Need) : Option GErr :=
  match s.rangeFault ctx va n need with
  | none => none
  | some (p, .bad c d) => some (.trap { cause := c, detail := d, addr := p })
  | some (p, _) => some (.page p)

/-- A node's own fields are invalid. -/
def nodeBad (r : BitVec 1024) : Bool := decide (4 < nKind r ∨ 2 < nPol r) || dfield r 997 992 != 0 || dfield r 719 0 != 0

/-- Nodes taken out while nothing left leads to them; true if all go. -/
def acyclic (succ : List (List Nat)) : Nat → List Nat → Bool
  | 0, left => left.isEmpty
  | n + 1, left =>
    let hit := left.flatMap fun i => succ.getD i []
    let next := left.filter fun i => hit.contains i
    if next.isEmpty then true else if next.length = left.length then false else acyclic succ n next

/-- The overflow lists of a graph's nodes that cannot be read. -/
def State.listFault (s : State) (ctx : Nat) (l : List (BitVec 1024)) : Option GErr :=
  l.findSome? fun r => s.recFault ctx (dfield r 847 792) (2 * dfield r 863 848) .read

/-- The checks of R298, in order. -/
def State.graphCheck (s : State) (ctx g : Nat) : Option GErr :=
  let bad (cause detail addr : Nat) : Option GErr := some (.trap { cause := cause, detail := detail, addr := addr })
  if g % 128 ≠ 0 then bad 0xA7 1 g
  else match s.recFault ctx g 128 .both with
    | some e => some e
    | none =>
      let r := s.rec_ ctx g
      let n := gNnode r
      if !r.getLsbD 1023 || dfield r 1018 1008 != 0 || dfield r 839 0 != 0 || decide (n = 0 ∨ 16384 < n) then bad 0xA7 1 g
      else if gGst r ≠ 0 then bad 0xA7 0 g
      else match s.recFault ctx (g + 128) (128 * n) .both with
        | some e => some e
        | none =>
          let nodes := s.nodeRecs ctx g
          match s.listFault ctx nodes with
          | some e => some e
          | none =>
            let succ := nodes.map (s.succs ctx)
            let all := succ.flatten
            match (List.range n).find? fun i =>
                let r := nodes.getD i 0
                nodeBad r || (succ.getD i []).any (fun j => decide (n ≤ j)) || decide (nNeed r < (all.filter (· = i)).length) with
            | some i => bad 0xA7 2 i
            | none => if acyclic succ n (List.range n) then none else bad 0xA9 0 g

/-- The records of a graph as they start (R298 step 2). -/
def State.resetGraph (s : State) (ctx g : Nat) (arg : Dword) : State :=
  let n := gNnode (s.rec_ ctx g)
  let s := (List.range n).foldl (fun s i => s.updRec ctx (nodeVa g i) fun r =>
    bput (bput (bput (bput r 1011 1004 0) 975 960 0) 735 728 0) 727 720 0) s
  s.updRec ctx g fun r => bput (bput (bput (bput (bput r 1022 1020 1) 1019 1019 0) 991 920 0) 919 904 0xFFFF) 903 840 arg.toNat

/-- Fires what has no need (R298 step 3). After a predecessor, nodes that are no launches are held back (R292). -/
def State.fireRoots (s : State) (ctx g die : Nat) (pred : Option Nat) : State :=
  (List.range (gNnode (s.rec_ ctx g))).foldl (fun s i =>
    let r := s.rec_ ctx (nodeVa g i)
    if nNeed r ≠ 0 then s
    else if pred.isNone ∨ nKind r ≤ 1 then s.fireNode ctx g i die pred false
    else
      let (n, s) := s.fresh
      { s with works := Tbl.put s.works n ⟨ctx, g, i, die, pred, .waiting, false, false⟩ }) s

/-- R298: a graph starts. -/
def State.startGraph (s : State) (ctx g die : Nat) (arg : Dword) (pred : Option Nat) : Except GErr State :=
  match s.graphCheck ctx g with
  | some e => .error e
  | none => .ok (((s.resetGraph ctx g arg).fireRoots ctx g die pred).graphEnd ctx g)

/-! ## Tokens from outside (R298) -/

/-- The graph of a node VA: the graph record is the nearest record below it with bit 1023 set, which no valid node has; or what keeps a
record on the way from being read (R284). -/
def State.graphOf (s : State) (ctx va : Nat) : Nat → Except GErr (Option Nat)
  | 0 => .ok none
  | n + 1 =>
    if va < 128 then .ok none
    else match s.recFault ctx (va - 128) 128 .both with
      | some e => .error e
      | none => if (s.rec_ ctx (va - 128)).getLsbD 1023 then .ok (some (va - 128)) else s.graphOf ctx (va - 128) n

/-- A node VA as its graph and number. -/
def State.nodeAt (s : State) (ctx va : Nat) : Except GErr (Option (Nat × Nat)) :=
  if va % 128 ≠ 0 then .ok none
  else match s.graphOf ctx va 16384 with
    | .error e => .error e
    | .ok none => .ok none
    | .ok (some g) =>
      let i := (va - g) / 128 - 1
      .ok (if i < gNnode (s.rec_ ctx g) then some (g, i) else none)

/-- R298: a token from outside. -/
def State.outsideToken (s : State) (ctx va die : Nat) : Except GErr State :=
  match s.recFault ctx va 128 .both with
  | some e => .error e
  | none =>
    match s.nodeAt ctx va with
    | .error e => .error e
    | .ok none => .error (.trap { cause := 0xA8, detail := 1 })
    | .ok (some (g, i)) =>
      match s.recFault ctx g (128 * (gNnode (s.rec_ ctx g) + 1)) .both with
      | some e => .error e
      | none =>
        let gst := gGst (s.rec_ ctx g)
        let st := nStat (s.rec_ ctx va)
        if gst = 0 ∨ 3 < gst then .error (.trap { cause := 0xA8, detail := 1 })
        else if st = 5 then .ok s
        else if st ≠ 0 then .error (.trap { cause := 0xA8 })
        else .ok ((s.token ctx g i die none).graphEnd ctx g)

/-- R302: `gcancel` of the node at a VA: the status. -/
def State.cancelAt (s : State) (ctx va : Nat) : Option (Nat × Nat) → Nat × State
  | none => (1, s)
  | some (g, i) =>
    match nStat (s.rec_ ctx va) with
    | 0 => (0, ((s.cancelNode ctx g i).startWalk ctx g i).graphEnd ctx g)
    | 1 =>
      let s := { s with works := Tbl.mapVals s.works fun _ w =>
        if w.ctx = ctx ∧ w.graph = g ∧ w.node = i then { w with absorbed := true } else w }
      (0, s.startWalk ctx g i)
    | _ => (1, s)

/-- R302: the status of a node. -/
def nodeStatus (r : BitVec 1024) : Nat :=
  nStat r + dfield r 1011 1008 * 2 ^ 4 + dfield r 735 728 * 2 ^ 8 + dfield r 975 960 * 2 ^ 16

/-! ## The work of a node (R297, R299) -/

def State.setWork (s : State) (id : Nat) (st : WorkSt) : State := { s with works := Tbl.upd s.works id fun w => { w with st := st } }

/-- Reaches n bytes for a fill or copy node: their place, or what stops it. -/
def State.workReach (s : State) (w : Work) (prio va n : Nat) (need : Need) : Except State Nat × State :=
  match s.access w.ctx va need with
  | .replay => (.error (s.wantPage w.die w.ctx va), s)
  | .bad .. => (.error s, s)
  | .ok pa =>
    let port := s.portOf pa
    let pc := (s.partOf w.ctx, prio / 2)
    if s.weirOpen port pc n then (.ok pa, s.weirDraw port pc n) else (.error (s.backPressure port pc), s)

/-- Whether a page is reached at all: neither in migration nor refused. -/
def State.workBad (s : State) (w : Work) (va : Nat) (need : Need) : Option Nat :=
  match s.access w.ctx va need with
  | .bad .. => some 0x61
  | .ok pa => if s.portsDown.contains (s.portOf pa) then some 0x59 else none
  | .replay => none

/-- One piece of a fill or copy of at most 256 B, within a line of each memory end (R200, R206). -/
def State.movePiece (s : State) (id : Nat) (w : Work) (r : BitVec 1024) (done : Nat) : State :=
  let p := dfield r 791 736
  let copy := nKind r == 3
  let dw (i : Nat) : Nat := s.vreadNat w.ctx (p + 8 * i) 8
  match s.rangeFault w.ctx p (if copy then 24 else 16) .read with
  | some (va, .replay) => s.wantPage w.die w.ctx va
  | some _ => s.setWork id (.ended 2 0x61)
  | none =>
    let (src, dst, n, pat) := if copy then (dw 0, dw 1, dw 2, 0) else (0, dw 0, dw 1 % 2 ^ 32, dw 1 / 2 ^ 32)
    let prio := dfield r 1003 1001
    if src % 4 ≠ 0 ∨ dst % 4 ≠ 0 ∨ n % 4 ≠ 0 then s.setWork id (.ended 2 0x62)
    else if n ≤ done then s.setWork id (.ended 0 0)
    else
      let m := min (n - done) (toLine (dst + done))
      let m := if copy then min m (toLine (src + done)) else m
      match (if copy then s.workBad w (src + done) .read else none), s.workBad w (dst + done) .write with
      | some c, _ => s.setWork id (.ended 2 c)
      | _, some c => s.setWork id (.ended 2 c)
      | none, none =>
        match (if copy then s.workReach w prio (src + done) m .read else (.ok 0, s)) with
        | (.error t, _) => t
        | (.ok sa, s) =>
          match s.workReach w prio (dst + done) m .write with
          | (.error t, _) => t
          | (.ok da, s) =>
            let bytes := if copy then s.readBytes sa m else (List.replicate (m / 4) pat).flatMap (leBytes 4)
            let s := s.engWrite da bytes (if copy then s.lineMark sa else 0)
            s.setWork id (if n ≤ done + m then .ended 0 0 else .moving (done + m))

/-- The launch of a kernel or pipeline node, once its descriptor passes and the store has room (R299). -/
def State.workLaunch (s : State) (id : Nat) (w : Work) (r : BitVec 1024) : State :=
  match s.checkDesc w.ctx (dfield r 791 736) with
  | .error (.page va) => s.wantPage w.die w.ctx va
  | .error (.bad c _) => s.setWork id (.ended 2 c)
  | .ok (d, stages) =>
    if !s.storeRoom w.die then s
    else
      let arg := if r.getLsbD 998 then some (BitVec.ofNat 64 (dfield (s.rec_ w.ctx w.graph) 903 840)) else none
      let (n, s) := s.makeLaunch w.ctx w.die (dfield r 1003 1001) (withArg d arg) stages w.pred
      s.setWork id (.launched n)

/-- What is due for the work of a node. -/
def State.workNext (s : State) (id : Nat) (w : Work) : State :=
  let va := nodeVa w.graph w.node
  let r := s.rec_ w.ctx va
  match w.st with
  | .waiting =>
    if nStat r = 5 then ({ s with works := Tbl.del s.works id }).graphEnd w.ctx w.graph
    else if nStat r = 0 then
      -- held back until the predecessor has completed (R292)
      if (w.pred.bind fun i => Tbl.find s.launches i).any fun l => l.out.isNone then s
      else s.updRec w.ctx va fun r => bput r 1007 1004 1
    else match nKind r with
      | 0 | 1 => s.workLaunch id w r
      | 2 | 3 => s.movePiece id w r 0
      | _ => s.setWork id (.ended 0 0)
  | .moving n => s.movePiece id w r n
  | _ => s

/-- R299: the end of a node's work: outcome 0 complete, 1 quenched, 2 a fault, with its cause. -/
def State.endNode (s : State) (id : Nat) (w : Work) (o cause qsum : Nat) : State :=
  let va := nodeVa w.graph w.node
  let r := s.rec_ w.ctx va
  let s := { s with works := Tbl.del s.works id }
  let l := match w.st with
    | .launched n => some n
    | _ => none
  let fault := o = 2 ∨ (o = 1 ∧ r.getLsbD 1000)
  let s := if o = 1 then s.updRec w.ctx va fun r => bput r 727 720 qsum else s
  let tokens (s : State) : State := if w.absorbed then s else s.outTokens w.ctx w.graph w.node w.die l w.early
  let s :=
    if ¬fault ∨ nPol r = 2 then
      let s := s.updRec w.ctx va fun r =>
        let r := bput r 1007 1004 (if o = 1 ∧ ¬fault then 3 else 2)
        if fault then bput r 735 728 cause else r
      tokens (s.updRec w.ctx w.graph fun g => bput g 991 976 (dfield g 991 976 + 1))
    else if nPol r = 1 ∧ dfield r 1011 1008 < dfield r 1015 1012 ∧ ¬w.absorbed then
      (s.updRec w.ctx va fun r => bput r 1011 1008 (dfield r 1011 1008 + 1)).fireNode w.ctx w.graph w.node w.die w.pred w.early
    else
      let s := s.updRec w.ctx va fun r => bput (bput r 1007 1004 4) 735 728 cause
      let s := s.updRec w.ctx w.graph fun g =>
        let g := bput g 975 960 (dfield g 975 960 + 1)
        let g := if dfield g 919 904 = 0xFFFF then bput g 919 904 w.node else g
        if nPol r = 1 ∧ dfield g 927 920 = 0 then bput g 927 920 0xAA else g
      if w.absorbed then s else s.startWalk w.ctx w.graph w.node
  s.graphEnd w.ctx w.graph

/-- The end of a node's work, if it has ended (R299). -/
def State.nodeEnd (s : State) (id : Nat) : State :=
  match Tbl.find s.works id with
  | none => s
  | some w =>
    match w.st with
    | .ended o c => s.withGraph w.die w.ctx w.graph (s.endNode id w o c 0)
    | .launched n =>
      match Tbl.find s.launches n with
      | none => s
      | some l =>
        match l.out with
        | none => s
        | some o => s.withGraph w.die w.ctx w.graph (
            match o with
            | .complete => s.endNode id w 0 0 0
            | .quenched => s.endNode id w 1 l.qsum l.qsum
            | .faulted => s.endNode id w 2 (l.fcause.getD 0) 0
            | .killed => s.endNode id w 2 0xCD 0)
    | _ => s

/-- R299, R302: a node's work has ended. -/
def execGraphNodeEnd (id : Nat) (s : State) : Out :=
  .next (if (Tbl.find s.works id).any fun w => s.graphRuns w.ctx then s.nodeEnd id else s)

/-- R300: tokens to early successors, once every crew of a node's launch has handed over and nothing of it has faulted. -/
def State.earlyTokens (s : State) : State :=
  s.works.foldl (fun s p =>
    match p.2.st with
    | .launched n =>
      match Tbl.find s.launches n with
      | none => s
      | some l =>
        let r := s.rec_ p.2.ctx (nodeVa p.2.graph p.2.node)
        if p.2.early || p.2.absorbed || nKind r != 0 || !s.handedOver n l || l.fcause.isSome || l.killed || (l.qsum != 0 && r.getLsbD 1000) then s
        else
          let next := (s.succs p.2.ctx r).filter (s.earlyEdge p.2.ctx p.2.graph p.2.node)
          if next.isEmpty then s
          else
            let s := { s with works := Tbl.upd s.works p.1 fun w => { w with early := true } }
            next.foldl (fun s j => s.token p.2.ctx p.2.graph j p.2.die (some n)) s
    | _ => s) s

end Sys2Proof.Machine
end

