-- ==== Sys2Proof/Machine/Retire.lean ====
section
/-! DEFINITION. Crews and launches as they end (R111, R113, R276-R279, R281, R291). -/

namespace Sys2Proof.Machine

/-! ## Rings (R289) -/

/-- A ring control block. -/
structure RingBlk where
  (rcd : BitVec 512)
  deriving DecidableEq, Repr

namespace RingBlk
def f (b : RingBlk) (hi lo : Nat) : Nat := (b.rcd.extractLsb' lo (hi + 1 - lo)).toNat
def nlog (b : RingBlk) : Nat := b.f 447 444
def slog (b : RingBlk) : Nat := b.f 443 440
def closed (b : RingBlk) : Nat := b.f 415 384
/-- The counters, modulo 2^31. -/
def res (b : RingBlk) : Nat := b.f 382 352
def cmt (b : RingBlk) : Nat := b.f 350 320
def clm (b : RingBlk) : Nat := b.f 318 288
def rel (b : RingBlk) : Nat := b.f 286 256
def put (b : RingBlk) (hi lo v : Nat) : RingBlk := ⟨BitVec.ofNat 512 (b.rcd.toNat - b.f hi lo * 2 ^ lo + v * 2 ^ lo)⟩
def setRes (b : RingBlk) (v : Nat) : RingBlk := b.put 383 352 v
def setCmt (b : RingBlk) (v : Nat) : RingBlk := b.put 351 320 v
def setClm (b : RingBlk) (v : Nat) : RingBlk := b.put 319 288 v
def setRel (b : RingBlk) (v : Nat) : RingBlk := b.put 287 256 v
def close (b : RingBlk) : RingBlk := b.put 415 384 1
end RingBlk

/-- The distance from one counter to another, modulo 2^31. -/
def ringDist (a b : Nat) : Nat := (b + 2 ^ 31 - a % 2 ^ 31) % 2 ^ 31
/-- The counter after this one. -/
def ringNext (a : Nat) : Nat := (a + 1) % 2 ^ 31

namespace RingBlk
def slots (b : RingBlk) : Nat := 2 ^ b.nlog
/-- RES - REL (R288). -/
def occupancy (b : RingBlk) : Nat := ringDist b.rel b.res
/-- Reserved bits or fields out of range. -/
def bad (b : RingBlk) : Bool :=
  b.f 511 504 != 0 || b.f 439 416 != 0 || b.f 255 0 != 0 || decide (12 < b.nlog ∨ b.slog < 5 ∨ 12 < b.slog ∨ 1 < b.closed) ||
  decide (b.f 503 448 % 256 ≠ 0)
/-- The counters stand out of order. -/
def broken (b : RingBlk) : Bool :=
  !(decide (ringDist b.rel b.clm ≤ ringDist b.rel b.cmt) && decide (ringDist b.rel b.cmt ≤ b.occupancy) && decide (b.occupancy ≤ b.slots))
end RingBlk

def State.ringAt (s : State) (ctx va : Nat) : RingBlk := ⟨s.vrec ctx va 512⟩

/-- Stages whose input rises above three quarters, or falls, at a ring (R288). -/
def State.noteRing (s : State) (ctx va : Nat) : State :=
  let b := s.ringAt ctx va
  let high := decide (3 * b.slots < 4 * b.occupancy)
  { s with launches := Tbl.mapVals s.launches fun _ l =>
      if l.ctx = ctx then
        { l with stages := l.stages.map fun g =>
            if g.inr = va then { g with high := if high then some (g.high.getD s.time) else none } else g }
      else l }

def State.putRing (s : State) (ctx va : Nat) (b : RingBlk) : State := (s.vwriteNat ctx va 64 b.rcd.toNat).noteRing ctx va

/-! ## Reports (R113, R279) -/

/-- The lowest bit of QKIND as a summary cause. -/
def summaryCause (k : Nat) : Nat :=
  match (List.range 4).find? fun i => k.testBit i with
  | some i => 0x38 + i
  | none => 0

/-- A write to the report area: one that faults is dropped. -/
def State.report (s : State) (ctx va : Nat) (l : List Byte) : State :=
  if (s.rangeFault ctx va l.length .write).isNone then s.vwrite ctx va l else s

/-- FMASK and QKIND of a crew's warps, by warp index. -/
def State.exitWords (s : State) (k : Crew) : List (Mask × BitVec 4) :=
  k.warps.map fun w => ((Tbl.find s.warps w).bind fun w => w.dom 0).elim (0, 0) fun d => (d.csrs.fmask, d.csrs.qkind)

/-- The completion record. -/
def Launch.record (l : Launch) (o : LOut) : Nat :=
  let out := match o with
    | .complete => 0
    | .quenched => 1
    | .faulted => 2
    | .killed => 3
  l.refuse % 2 ^ 16 * 2 ^ 112 + l.moves % 2 ^ 16 * 2 ^ 96 + l.ended % 2 ^ 32 * 2 ^ 64 + (if l.refuse = 0 then 0 else 0xB1 * 2 ^ 18) +
    out * 2 ^ 16 + (if o = .faulted then l.fcause.getD 0 else 0) * 2 ^ 8 + l.qsum

/-- How a launch completes (R276). -/
def Launch.outcome (l : Launch) : LOut :=
  if l.fcause.isSome then .faulted else if l.killed then .killed else if l.qsum ≠ 0 then .quenched else .complete

/-- Whether every crew that a launch waits for has ended (R276). -/
def State.launchOver (s : State) (lid : Nat) (l : Launch) : Bool :=
  (l.whole || l.killed) && match l.stages.getLast? with
    | none => s.crews.all fun p => p.2.launch != lid
    | some g => g.live == 0 && (!l.killed || s.crews.all fun p => p.2.launch != lid)

/-- A launch completes once its crews have ended. -/
def State.finishLaunch (s : State) (lid : Nat) : State :=
  match Tbl.find s.launches lid with
  | none => s
  | some l =>
    if l.out.isSome || !s.launchOver lid l then s
    else
      let o := l.outcome
      let s := { s with launches := Tbl.put s.launches lid { l with out := some o } }
      let va := dfield l.desc 394 339
      if va = 0 then s else s.report l.ctx va (leBytes 16 (l.record o))

/-! ## A crew ends (R111) -/

/-- Whether a crew has ended: its warps, their engine commands and their accesses are over. -/
def State.crewOver (s : State) (cid : Nat) (k : Crew) : Bool :=
  (k.warps.all fun w => (Tbl.find s.warps w).all Warp.ended) &&
  (s.cmds.all fun p => !k.warps.contains p.2.wid) && (s.accs.all fun p => !Agent.inCrew cid k p.2.agent) &&
  (s.wreqs.all fun p => !Agent.inCrew cid k p.2.agent) && (s.wdReqs.all fun r => !k.warps.contains r.wid) && !k.rrotArr.any RrotArr.going &&
  (s.core k.core).wins.all fun p => !(k.warps.contains p.2.warp && s.winBusy k.core p.1)

/-- What a crew releases: frames, tiles, windows and warp slots (R111). Accesses admitted through windows on its frames act
first. -/
def State.releaseCrew (s : State) (cid : Nat) (k : Crew) : State :=
  let frames := k.warps.filterMap fun w => (Tbl.find s.warps w).bind fun v => (v.dom 0).map fun d => (d.a0 / 128, d.granules v.width)
  let s := (frames.foldl (fun s f => s.settleWindows k.core f.1 f.2) s).updCore k.core fun c =>
    let c := c.revokeAll fun v => k.warps.contains v.warp
    let c := frames.foldl (fun c f => c.free f.1 f.2) c
    k.tiles.foldl (fun c t => c.free t.2.gran t.2.granules) c
  { s with
    warps := s.warps.filter fun p => !k.warps.contains p.1
    crews := Tbl.del s.crews cid
    flips := s.flips.filter fun f => !k.warps.contains f.wid
    walks := s.walks.filter fun p => !Agent.inCrew cid k p.2.agent
    ringWaits := s.ringWaits.filter fun r => !Agent.inCrew cid k r.agent
    faults := s.faults.filter fun f => match f.who with
      | .agent a => !Agent.inCrew cid k a
      | _ => true }

/-- R281: a retiring crew is charged, unless its queue is empty. -/
def State.charge (s : State) (l : Launch) (k : Crew) (slices : Nat) : State :=
  let part := s.partOf l.ctx
  if (s.queue part l.die l.prio).isEmpty then s
  else s.setDeficit part l.die l.prio (s.deficit part l.die l.prio - ((s.time - k.placed) * slices + 31) / 32)

/-- The output ring of a stage is closed (R291): its page is waited for; a ring that cannot be written stays as it is. -/
def State.shutRing (s : State) (lid i : Nat) (l : Launch) (g : Stage) : State :=
  let done (s : State) : State :=
    { s with launches := Tbl.upd s.launches lid fun l => { l with stages := l.stages.modify i fun g => { g with shut := true } } }
  if g.outr = 0 then done s
  else match s.rangeFault l.ctx g.outr 64 .both with
    | none => done (s.putRing l.ctx g.outr (s.ringAt l.ctx g.outr).close)
    | some (va, .replay) => s.wantPage l.die l.ctx va
    | some _ => done s

/-- A pipeline stage whose last crew has ended closes its output ring (R291). -/
def State.closeStage (s : State) (lid i : Nat) : State :=
  match Tbl.find s.launches lid with
  | none => s
  | some l =>
    match l.stages[i]? with
    | none => s
    | some g => if l.stageOver i g then s.shutRing lid i l g else s

/-- A crew ends: its exit report, what it held, its launch's counts, and what follows from them. -/
def State.endCrew (s : State) (cid : Nat) (k : Crew) : State :=
  let words := s.exitWords k
  let q := words.foldl (fun n w => n ||| w.2.toNat) 0
  let slices := (k.warps.map fun w => ((Tbl.find s.warps w).map fun v => 2 ^ v.wlog).getD 0).sum
  let s := s.releaseCrew cid k
  match Tbl.find s.launches k.launch with
  | none => s
  | some l =>
    let sum := summaryCause q
    let l : Launch :=
      { l with
        ended := l.ended + 1
        qsum := if sum = 0 then l.qsum else if l.qsum = 0 then sum else min l.qsum sum
        fcause := match l.fcause with
          | some c => some c
          | none => k.faulted
        killed := l.killed || k.killed
        stages := match k.stage with
          | none => l.stages
          | some i => l.stages.modify i fun g => { g with live := g.live - 1 } }
    let s := (({ s with launches := Tbl.put s.launches k.launch l }).charge l k slices)
    let va := dfield l.desc 394 339
    let s := if va = 0 then s
      else s.report l.ctx (va + 64 + 512 * k.item) (words.flatMap fun w => leBytes 8 w.1.toNat ++ leBytes 8 w.2.toNat)
    let s := match k.stage with
      | none => s
      | some i => s.closeStage k.launch i
    (s.finishLaunch k.launch).earlyTokens

/-- R111: a crew whose warps, commands and accesses are over ends. -/
def execCrewEnd (cid : Nat) (s : State) : Out :=
  .next (
    match Tbl.find s.crews cid with
    | none => s
    | some k => if s.crewOver cid k then s.endCrew cid k else s)

/-! ## Reassignment (R288) -/

/-- Whether every live strand of a crew waits for a claim at a ring. -/
def State.crewIdle (s : State) (cid : Nat) (k : Crew) (ring : Nat) : Bool :=
  (k.warps.all fun w => (Tbl.find s.warps w).all fun v => v.strands.all fun p => s.ringWaits.any fun r =>
    r.agent == .strand w p.1 && r.block == ring && match r.op with
      | .acq c _ _ => c
      | _ => false) &&
  (k.warps.any fun w => (Tbl.find s.warps w).any fun v => !v.strands.isEmpty) && k.rung.isNone &&
  s.crewOver cid { k with warps := k.warps.filter fun w => (Tbl.find s.warps w).any Warp.ended } &&
  s.cmds.all fun p => !k.warps.contains p.2.wid

/-- The donor stage: the lowest input occupancy among those with a crew to spare. -/
def State.donorStage (s : State) (l : Launch) : Option Nat :=
  (leastBy (fun (p : Stage × Nat) => (s.ringAt l.ctx p.1.inr).occupancy)
    (l.stages.zipIdx.filter fun p => decide (p.1.minc < p.1.live))).map Prod.snd

/-- The lowest crew number that a stage does not use (log 6). -/
def State.stageItem (s : State) (lid i : Nat) : Nat :=
  ((List.range (s.crews.length + 1)).find? fun n =>
    !s.crews.any fun p => p.2.launch == lid && p.2.stage == some i && p.2.item == n).getD 0

/-- One crew moves from a donor to a stage: none where R288 refuses it. -/
def State.moveCrew (s : State) (lid : Nat) (l : Launch) (i : Nat) : Option State :=
  match s.donorStage l, l.stages[i]? with
  | some j, some gain =>
    match l.stages[j]? with
    | none => none
    | some g =>
      match s.crews.find? fun p => p.2.launch == lid && p.2.stage == some j && s.crewIdle p.1 p.2 g.inr with
      | none => none
      | some (cid, k) =>
        let t := s.haltCrew cid none false
        match Tbl.find t.crews cid with
        | none => none
        | some k' =>
          let t := t.endCrew cid k'
          let p := t.stagePlacing lid l i gain
          if !t.crewFits k.core p.shape || (t.placingPage p).isSome then none
          else
            let (span, t) := t.fresh
            let (braid, t) := t.fresh
            let t := (t.placeCrew p k.core (t.stageItem lid i) 0 0 braid span [clusOf k.core]).2
            some { t with launches := Tbl.upd t.launches lid fun l => { l.addLive (some i) with moves := l.moves + 1 } }
  | _, _ => none

/-- R288: a stage whose input has stood above three quarters for 4,096 cycles gains a crew, or the refusal is counted. R291: a stage
whose crews have all ended closes its output ring. -/
def execPipelineReassign (lid i : Nat) (s : State) : Out :=
  .next (
    match Tbl.find s.launches lid with
    | none => s
    | some l =>
      match l.stages[i]? with
      | none => s
      | some g =>
      if l.stageOver i g then s.shutRing lid i l g
      else match g.high with
      | none => s
      | some t =>
        if s.time < t + 4096 ∨ l.out.isSome ∨ ¬l.whole then s
        else
          let restart (s : State) : State :=
            { s with launches := Tbl.upd s.launches lid fun l =>
                { l with stages := l.stages.modify i fun g => { g with high := g.high.map fun _ => s.time } } }
          match s.moveCrew lid l i with
          | some t => restart t
          | none => restart { s with launches := Tbl.upd s.launches lid fun l => { l with refuse := l.refuse + 1 } })

end Sys2Proof.Machine
end

