-- ==== Sys2Proof/Machine/EngEvents.lean ====
section
/-! DEFINITION. The events of engines: pieces, ends, failures, and the array (R197, R200-R203, R208, R212, R215, R238-R240). -/

namespace Sys2Proof.Machine

/-- Whether an engine may work on a command: arithmetic runs, and the command's context runs or has not stopped it yet (R203, R320,
R347); a parked command waits for its page. -/
def State.cmdRuns (s : State) (id : Nat) (c : Cmd) : Bool :=
  s.arith.isNone && !c.parked && match Tbl.find s.ctxs c.ctx with
    | none => false
    | some k => k.run == .running || (k.run == .stopping && !k.acks.contains (.command id))

/-- Whether a command has begun, so that those behind it in the queue may: an `mma` waits for the array and an `eseq` for the commands
before it without holding others up (R197, R212, R239). -/
def Cmd.hasBegun (c : Cmd) : Bool := c.begun || match c.body with
  | .mma _ | .eseq _ => true
  | _ => false

/-- Whether a command ahead of this one in its core's queue has yet to begin and may run (R197). -/
def State.queueAhead (s : State) (id : Nat) (c : Cmd) : Bool :=
  ((s.core c.core).cmds.takeWhile (· != id)).any fun i => (Tbl.find s.cmds i).any fun d => !d.hasBegun && s.cmdRuns i d

/-- Whether a command may take a step: it runs, what it follows is behind it, and it has begun or begins in its turn. -/
def State.mayStep (s : State) (id : Nat) (c : Cmd) : Bool := s.cmdRuns id c && s.cmdReady c && (c.begun || !s.queueAhead id c)

def State.begin (s : State) (id : Nat) : State := s.updCmd id fun c => { c with begun := true }

/-- The next step of a command by its kind. -/
def State.bodyNext (s : State) (id : Nat) (c : Cmd) : Next :=
  match c.body with
  | .copy f => if f.dir = 2 then s.windowNext id c else s.copyNext id c f
  | .copymc _ => s.windowNext id c
  | .tfill f => s.tfillNext id c f
  | .gath f => s.gathNext id c f
  | .scata f => s.scataNext id c f
  | .mma f => s.mmaNext id c f
  | .kvw f => s.kvwNext id c f
  | .kvld f => s.kvldNext id c f
  | .kvst f => s.kvstNext id c f
  | .kvfork f => s.kvforkNext id c f
  | .kvfree f => s.kvfreeNext id c f
  | .splice f => s.spliceNext id c f
  | .rpstat f => s.rpstatNext id c f
  | .rpcancel f => s.rpcancelNext id c f
  | .rpopen _ | .eseq _ => .wait

/-- What comes next of a command. It begins with its first step, even one that finds nothing to do yet (R197); an `rpopen` begins with
its job. -/
def State.cmdNext (s : State) (id : Nat) (c : Cmd) : Next :=
  if !s.mayStep id c then .wait
  else match s.bodyNext id c, c.body with
    | .go t, _ => .go (if c.begun then t else t.begin id)
    | .wait, .rpopen _ => .wait
    | .wait, _ => if c.begun then .wait else .go (s.begin id)
    | x, _ => x

/-- The TIER hint of the record through which a command reaches an address: 00 where it is none of its records' (R160). -/
def Cmd.tierAt (c : Cmd) (va : Nat) : Nat :=
  let rcds := match c.body with
    | .copy _ | .copymc _ | .gath _ | .scata _ => c.recs
    | _ => []
  ((rcds.find? fun r => decide (Rcd.base r ≤ va) && decide (va < Rcd.base r + Rcd.extent r)).map Rcd.tier).getD 0

/-- A command stops at a page in migration (R203); the array is free for another meanwhile (R239). -/
def State.parkCmd (s : State) (id : Nat) (c : Cmd) (va : Nat) : State :=
  let s := s.updCore c.core fun k => { k with array := if k.array = some id then none else k.array }
  (s.updCmd id fun c => { c with parked := true, begun := true }).takeFault (dieOf c.core) c.ctx va (.command id) (c.tierAt va)

/-- Whether everything of a command has landed. -/
def State.cmdOver (s : State) (c : Cmd) : Bool :=
  match c.body with
  | .copy f =>
    let total := c.shape.rb * c.shape.nr
    if f.dir = 2 then c.targets.all fun t => t.checked && t.failed.isNone && decide (total ≤ t.done) else decide (total ≤ c.done)
  | .copymc _ => c.targets.all fun t => t.checked && (t.failed.isSome || decide (c.shape.rb * c.shape.nr ≤ t.done))
  | .tfill f => decide (c.sc f.len.toNat ≤ c.done)
  | .gath f => c.started && decide (4 * (f.nel.toNat + 1) * c.bags f ≤ c.done)
  | .scata f => c.started && decide (c.sc f.isc.toNat * (f.nel.toNat + 1) ≤ c.done)
  | .mma f => c.started && decide (c.sc f.ks.toNat / 32 ≤ c.done)
  | .eseq _ => s.cmdReady c
  | _ => false

/-- A command all of which has landed ends (R199, R210, R212). -/
def State.closeCmd (s : State) (id : Nat) (c : Cmd) : State :=
  match c.body with
  | .copymc _ => s.endMulticast id c
  | .gath _ => s.endCmd id 1 (min 255 c.aux)
  | .eseq f => (s.countCmd id f.cnt.toNat []).endCmd id 1 0
  | _ => s.endCmd id 1 0

/-- A command ends with the last of it that lands (DEDUCED, log 29). -/
def State.closeOver (s : State) (id : Nat) : State :=
  match Tbl.find s.cmds id with
  | none => s
  | some c => if s.cmdOver c then s.closeCmd id c else s

/-- The structural steps of the context store draw what they write (R367). -/
def State.drawTree (s : State) (c : Cmd) (t : State) : State :=
  match c.body with
  | .kvfork _ | .kvfree _ | .splice _ => s.drawWrites t (s.cmdClass c)
  | .kvst _ => if c.started then t else s.drawWrites t (s.cmdClass c)
  | _ => t

/-- What a step of a command does, if it does not fail. -/
def State.cmdStep (s : State) (id : Nat) (c : Cmd) : Next → State
  | .go t => (s.throughWeirs (s.drawTree c t)).closeOver id
  | .park va => s.parkCmd id c va
  | _ => s

/-- The next piece of a command, or of the work of a graph node (R200, R206, R299). -/
def execEngineLanding (id : Nat) (s : State) : Out :=
  .next (
    match Tbl.find s.cmds id, Tbl.find s.works id with
    | some c, _ =>
      match c.body with
      | .mma _ => s
      | _ => (s.cmdStep id c (s.cmdNext id c)).tidyModels
    | none, some w =>
      if s.arith.isNone && (Tbl.find s.ctxs w.ctx).any fun c => c.run == .running then s.withGraph w.die w.ctx w.graph (s.workNext id w)
      else s
    | none, none => s)

/-- A command that has nothing left to land ends (R199). -/
def execEngineCommandEnd (id : Nat) (s : State) : Out :=
  .next (
    match Tbl.find s.cmds id with
    | none => s
    | some c => if s.cmdRuns id c && s.cmdOver c then s.closeCmd id c else s)

/-- A command fails (R201); a memory port that is down is also reported at the context rung (R320). -/
def State.failAfter (s : State) (id : Nat) (c : Cmd) (t : Trap) : State :=
  let s := s.failCmd id t
  if t.cause = 0x59 then s.enterCtx c.ctx 0x59 (s.faultVals (.command id) 0x59 t.addr) else s

def execEngineCommandFail (id : Nat) (s : State) : Out :=
  .next (
    match Tbl.find s.cmds id with
    | none => s
    | some c =>
      match s.cmdNext id c with
      | .fail t => (s.failAfter id c t).tidyModels
      | .spoil s t => (s.failAfter id c t).tidyModels
      | _ => s)

/-- R208, R210: a copy's first piece reaches the core that exports a window. -/
def execWindowCopyCheck (id i : Nat) (s : State) : Out :=
  .next (
    match Tbl.find s.cmds id with
    | none => s
    | some c =>
      match c.targets[i]? with
      | some t => if s.cmdRuns id c && s.cmdReady c && c.begun && !t.checked then s.checkTarget id c i t else s
      | none => s)

/-- R215: a memory port's partial sum reaches the gather engine. -/
def execBankPartialArrival (id bag port : Nat) (s : State) : Out :=
  .next (
    match Tbl.find s.cmds id with
    | none => s
    | some c => if s.cmdRuns id c then s.arrive id bag port else s)

/-- R237-R239: a matrix command takes the array of its core, at its start or after it has stood still. -/
def execMmaStart (id : Nat) (s : State) : Out :=
  .next (
    match Tbl.find s.cmds id with
    | none => s
    | some c =>
      match c.body with
      | .mma _ =>
        if s.cmdRuns id c && s.cmdReady c && !s.cmdOver c && (s.core c.core).array.isNone then
          (s.updCmd id fun c => { c with started := true, begun := true }).updCore c.core fun k => { k with array := some id }
        else s
      | _ => s)

/-- R238, R240: the next k-group of the command that holds a core's array. -/
def execMmaKgroup (core : Nat) (s : State) : Out :=
  .next (
    match (s.core core).array with
    | none => s
    | some id =>
      match Tbl.find s.cmds id with
      | none => s
      | some c => s.cmdStep id c (s.cmdNext id c))

end Sys2Proof.Machine
end

