-- ==== Sys2Proof/Machine/Repair.lean ====
section
/-! DEFINITION. The repair engine (R265-R268, R359). -/

namespace Sys2Proof.Machine

/-! ## Jobs -/

def State.updJob (s : State) (key : Nat) (f : Job → Job) : State := { s with jobs := Tbl.upd s.jobs key f }
/-- The handle of a job: die and slot, and the slot's generation (R265). -/
def jobHandle (key gen : Nat) : Nat := key * 256 + gen

/-- The model of a key, whether or not it is still installed. -/
def State.mdlAt (s : State) (key : Nat) : Option Mdl := (Tbl.find s.models key).map fun m => ⟨key, key % 2 ^ 32 / 16, m.rcd⟩

/-- A node has no job any more; one that `kvfree` freed meanwhile is returned now (R263). -/
def Mdl.dropJob (m : Mdl) (s : State) (n : Nat) : State :=
  let s := m.updNode s n fun x => { x with job := noJob }
  let x := m.node s n
  if x.ref ≠ 0 then s
  else
    let s := (List.range m.layers).foldl (fun s l =>
      let e := m.entry s x l
      if e.btab = 0 then s else m.putEntry (m.dropTable s e.btab) x l { e with btab := 0 }) s
    m.putNode (m.freeTabs s x.ltab m.ltabs) n { x with state := 0 }

/-- Layers left unrepaired become abandoned, and their staging tables go (R268). -/
def Mdl.abandonLayers (m : Mdl) (s : State) (n : Nat) : State :=
  let x := m.node s n
  (List.range m.layers).foldl (fun s l =>
    let e := m.entry s x l
    if e.wm = 1 then m.putEntry s x l { e with wm := 3 }
    else if e.wm = 2 then m.dropTable (m.putEntry s x l ⟨0, 3, e.btab⟩) e.stab
    else s) s

/-- R268: a job ends before its last layer; its command's status has OUT `out`, and its pair a pending fault unless its context is
killed. -/
def State.failJob (s : State) (key : Nat) (out : Nat) (t : Trap) (pend : Bool) : State :=
  match Tbl.find s.jobs key with
  | none => s
  | some j =>
    let s := match s.mdlAt j.model with
      | none => s
      | some m => m.dropJob (m.abandonLayers s j.node) j.node
    let s := s.updJob key fun j => { j with live := false, fired := false, jst := if out = 4 then 5 else 4, cause := t.cause }
    match Tbl.find s.cmds j.cmd with
    | none => s
    | some c => (if pend then s.pendFault c.wid c.dom c.pair c.seq { t with eng := true } else s).endCmd j.cmd out t.cause

/-- R266: a job ends after its last layer. -/
def State.finishJob (s : State) (key : Nat) (m : Mdl) (j : Job) : State :=
  let s := (m.dropJob s j.node).updJob key fun j => { j with live := false, fired := false, jst := 3 }
  (s.countCmd j.cmd 4 []).endCmd j.cmd 1 0

/-! ## Staging and swapping (R266) -/

/-- Fresh copies of blocks. -/
def Mdl.copyBlocks (m : Mdl) : List Nat → State → Kv (List Nat)
  | [], s => .ok ([], s)
  | b :: rest, s =>
    match m.copyBlock s b with
    | .error t => .error t
    | .ok (n, s) => (m.copyBlocks rest s).map fun p => (n :: p.1, p.2)

/-- stage(l), which draws what it reads from a class of a partition. -/
def Mdl.stage (m : Mdl) (pc : Nat × Nat) (s : State) (n l : Nat) : Except Trap State :=
  let x := m.node s n
  let e := m.entry s x l
  let old := m.tableBlocks s e.btab
  match m.copyBlocks old (old.foldl (fun s b => s.drawRange m.ctx pc (m.pool + b * m.bsize) m.bsize) s) with
  | .error t => .error t
  | .ok (bs, s) =>
    match m.newTable s bs with
    | .error t => .error t
    | .ok (va, s) => .ok (m.putEntry s x l ⟨va, 2, e.btab⟩)

/-- stage(1) to stage(e), in order. -/
def Mdl.stageTo (m : Mdl) (pc : Nat × Nat) (n : Nat) : Nat → State → Except Trap State
  | 0, s => .ok s
  | l + 1, s => match m.stageTo pc n l s with
    | .error t => .error t
    | .ok s => m.stage pc s n (l + 1)

/-- swap(l). -/
def Mdl.swap (m : Mdl) (s : State) (n l : Nat) : State :=
  let x := m.node s n
  let e := m.entry s x l
  let s := m.putEntry s x l ⟨0, 0, e.stab⟩
  if e.btab = 0 then s else m.dropTable s e.btab

/-- Layers accepted as they stand. -/
def Mdl.accept (m : Mdl) (s : State) (n : Nat) (p : Nat → Bool) : State :=
  let x := m.node s n
  ((List.range m.layers).filter p).foldl (fun s l => m.putEntry s x l { m.entry s x l with wm := 0 }) s

/-! ## Firing a template -/

/-- The parameter block (R265). -/
def State.writeParams (s : State) (m : Mdl) (key : Nat) (j : Job) : State :=
  let x := m.node s j.node
  let l := [jobHandle key j.gen, j.seqh.toNat, x.start, x.len, j.layer, j.early, j.depth, j.count, j.tau.toNat] ++ List.replicate 7 0
  s.vwrite m.ctx j.ws (l.flatMap (leBytes 4))

/-- What keeps a range of the workspace from the repair engine (R265, R268); else `k`. -/
def State.workspace (s : State) (key : Nat) (c : Cmd) (id va n : Nat) (k : State) : State :=
  match s.rangeFault c.ctx va n .both with
  | none => k
  | some (p, .bad cause _) => s.failJob key 3 { cause := 0x79, addr := p, detail := cause } true
  | some (p, _) => s.parkCmd id c p

/-- Fires the template of the layer in hand: an ended template is idle again first, and one that cannot start fails the job
(R266, R359). -/
def State.fireTemplate (s : State) (key : Nat) (m : Mdl) (j : Job) (c : Cmd) : State :=
  s.workspace key c j.cmd j.ws 64 (
    let s := s.writeParams m key j
    let g := if j.jst = 1 then m.tprb else m.trep
    let bad (s : State) : State := s.failJob key 3 { cause := 0x8C, detail := j.layer } true
    match s.rangeFault c.ctx g 128 .both with
    | some (va, .replay) => s.parkCmd j.cmd c va
    | some _ => bad s
    | none =>
      let gst := gGst (s.rec_ c.ctx g)
      let s := if 2 ≤ gst ∧ gst ≤ 4 then s.updRec c.ctx g fun r => bput r 1022 1020 0 else s
      match s.startGraph c.ctx g (key / 64) (BitVec.ofNat 64 j.ws) none with
      | .error (.page va) => s.parkCmd j.cmd c va
      | .error (.trap _) => bad s
      | .ok s => s.updJob key fun j => { j with fired := true, graph := g })

/-! ## A job begins (R266) -/

/-- The slot for a new job of a die: the lowest without one (log 6), with its generation. -/
def State.freeJob (s : State) (die : Nat) : Option (Nat × Nat) :=
  ((List.range 64).map fun i => die * 64 + i).findSome? fun k =>
    match Tbl.find s.jobs k with
    | none => some (k, 0)
    | some j => if j.live then none else some (k, (j.gen + 1) % 255)

/-- What keeps a job from being established. -/
def Mdl.jobRefused (m : Mdl) (x : Node) (depth : Nat) : Option Trap :=
  if x.state ≠ 2 then some { cause := 0x84, detail := 3 }
  else if x.job ≠ noJob then some { cause := 0x84, detail := 5 }
  else if m.layers ≤ depth then some { cause := 0x8B }
  else none

/-- A job is established, its layers staged, and its probe graph fired. -/
def State.establish (s : State) (id : Nat) (c : Cmd) (f : KvF) (m : Mdl) (n key gen : Nat) : State :=
  let h := jobHandle key gen
  let e := c.sc f.sd.toNat % 256
  let depth := c.sc f.sd.toNat / 256 % 256
  let j : Job :=
    { gen := gen, jst := 1, layer := e, count := 0, cause := 0, live := true, ctx := c.ctx, model := m.key, node := n, cmd := id,
      seqh := c.scal.getD f.sa.toNat 0, ws := c.sc2 f.se.toNat, early := e, depth := depth, tau := c.scal.getD f.sc.toNat 0,
      fired := false, graph := 0, cancel := false, last := 0 }
  let s := m.updNode { s with jobs := Tbl.put s.jobs key j } n fun x => { x with job := h }
  let s := (s.kvResults c f [h]).updCmd id fun c => { c with started := true, job := some key }
  let x := m.node s n
  let s := (List.range m.layers).foldl (fun s l =>
    let y := m.entry s x l
    if l = 0 then s
    else if depth < l then m.putEntry s x l { y with wm := 0 }
    else if y.wm = 3 then m.putEntry s x l { y with wm := 1 }
    else s) s
  match m.stageTo (s.cmdClass c) n e s with
  | .error t => s.failJob key 3 t true
  | .ok s => s.fireTemplate key m j c

/-- What a command comes to that its store's areas keep from going on. -/
def State.areaStop (s : State) (id : Nat) (c : Cmd) (m : Mdl) (fail : Trap → State) (k : State) : State :=
  match m.areaFault s true with
  | none => k
  | some (va, .bad cause _) => fail { cause := 0x79, addr := va, detail := cause }
  | some (va, _) => s.parkCmd id c va

/-- Whether the repair engine may work on a command: the context runs, or has not stopped the job yet (R347). -/
def State.jobRuns (s : State) (id : Nat) (c : Cmd) : Bool :=
  s.cmdRuns id c && !(c.job.any fun k => (Tbl.find s.ctxs c.ctx).any fun x => x.acks.contains (.job (k / 64) (k % 64)))

/-- A step of a job draws what it writes from the class of its launch, and is held if the weirs do not let it pass (R367). -/
def State.jobStep (s : State) (c : Cmd) (t : State) : State := s.throughWeirs (s.drawWrites t (s.cmdClass c))

/-- R266: a job begins, or fires the template that waited for a page. -/
def execRepairJobStart (id : Nat) (s : State) : Out :=
  .next (
    match Tbl.find s.cmds id with
    | none => s
    | some c =>
      match c.body with
      | .rpopen f =>
        if !s.jobRuns id c || !s.mayStep id c then s
        else s.jobStep c (
          let s := s.begin id
          match c.job with
          | some key =>
            match Tbl.find s.jobs key with
            | none => s
            | some j =>
              match s.mdlAt j.model with
              | none => s
              | some m =>
                if !j.live || j.fired || j.cmd != id then s
                else if j.cancel then s.failJob key 4 { cause := 0x8D, detail := j.last } true
                else s.fireTemplate key m j c
          | none =>
            match s.seqOf c.ctx (c.sc f.sa.toNat) with
            | none => s.failCmd id { cause := 0x86 }
            | some (m, _, r) => s.areaStop id c m (s.failCmd id) (
                match (m.pathOf s r).find? fun q => q.2.start == c.sc f.sb.toNat with
                | none => s.failCmd id { cause := 0x84, detail := 4 }
                | some (n, x) =>
                  match m.jobRefused x (c.sc f.sd.toNat / 256 % 256) with
                  | some t => s.failCmd id t
                  | none =>
                    match s.freeJob (dieOf c.core) with
                    | none => s.failCmd id { cause := 0x89 }
                    | some (key, gen) => s.establish id c f m n key gen))
      | _ => s)

/-! ## A template graph ends (R266) -/

/-- The end of a marked job (R269), the next layer, or the end of the job. -/
def State.nextLayer (s : State) (key : Nat) (m : Mdl) (c : Cmd) (l : Nat) : State :=
  match Tbl.find s.jobs key with
  | none => s
  | some j =>
    if j.cancel then s.failJob key 4 { cause := 0x8D, detail := j.last } true
    else if j.count = 0 ∨ j.depth ≤ l then
      (m.accept s j.node fun i => decide (l < i) && decide (i ≤ j.depth)).finishJob key m j
    else
      match m.stage (s.cmdClass c) s j.node (l + 1) with
      | .error t => s.failJob key 3 t true
      | .ok s =>
        let j := { j with layer := l + 1, jst := 2, fired := false }
        (s.updJob key fun _ => j).fireTemplate key m j c

/-- The tokens whose deviation is above the threshold or a NaN. -/
def State.selected (s : State) (c : Cmd) (j : Job) (len : Nat) : List Nat :=
  (List.range len).filter fun i =>
    let d := fdec f32 (s.vreadNat c.ctx (j.ws + 64 + 4 * i) 4)
    d.isNan || fless false (fdec f32 j.tau.toNat) d

/-- The probe graph has ended: its layers swap, and the tokens are selected. -/
def State.endProbe (s : State) (key : Nat) (m : Mdl) (j : Job) (c : Cmd) : State :=
  let len := (m.node s j.node).len
  let swapped := ((List.range j.early).foldl (fun s l => m.swap s j.node (l + 1)) s).updJob key fun j => { j with last := j.early }
  match s.rangeFault c.ctx (j.ws + 64) (8 * len) .both with
  | some (p, .replay) => s.parkCmd j.cmd c p
  | some (p, .bad cause _) => swapped.failJob key 3 { cause := 0x79, addr := p, detail := cause } true
  | _ =>
    let swapped := swapped.drawRange c.ctx (s.cmdClass c) (j.ws + 64) (4 * len)
    let l := swapped.selected c j len
    let t := swapped.vwrite c.ctx (j.ws + 64 + 4 * len) (l.flatMap (leBytes 4))
    (t.updJob key fun j => { j with count := l.length }).nextLayer key m c j.early

/-- R266: the graph that a job waits for ends. -/
def execRepairGraphEnd (die slot : Nat) (s : State) : Out :=
  .next (
    let key := die * 64 + slot
    match Tbl.find s.jobs key with
    | none => s
    | some j =>
      match Tbl.find s.cmds j.cmd, s.mdlAt j.model with
      | some c, some m =>
        if !j.live || !j.fired || !s.jobRuns j.cmd c then s
        else s.jobStep c <| s.areaStop j.cmd c m (fun t => s.failJob key 3 t true) (
          match s.rangeFault c.ctx j.graph 128 .both with
          | some (va, .replay) => s.parkCmd j.cmd c va
          | some _ => s.failJob key 3 { cause := 0x8C, detail := j.layer } true
          | none =>
            let gst := gGst (s.rec_ c.ctx j.graph)
            if gst = 1 then s
            else if gst ≠ 2 then s.failJob key 3 { cause := 0x8C, detail := j.layer } true
            else if j.jst = 1 then s.endProbe key m j c
            else
              let s := (m.swap s j.node j.layer).updJob key fun j => { j with last := j.layer }
              s.nextLayer key m c j.layer)
      | _, _ => s)

end Sys2Proof.Machine
end

