-- ==== Sys2Proof/Machine/Schedule.lean ====
section
/-! DEFINITION. The class 5 instructions and what they wait for (R283-R286, R289-R293, R298, R302, R303). -/

namespace Sys2Proof.Machine

/-- A pair of scalars of the issuer as a number (R283). -/
def State.vaPair (s : State) (x : Who) (k : SReg) : Nat := (s.pair x.core x.d k.val).toNat

/-- Goes on once every earlier access of the strand is performed: what a read of a record needs (R179). -/
def afterReads (s : State) (x : Who) (k : State) : State := if s.undone x.agent then s.park x.wid x.sid .release else k
/-- Goes on once every earlier access is performed and acknowledged: what a release needs (R285, R291, R298). -/
def afterAll (s : State) (x : Who) (k : State) : State := if s.settled x.agent then k else s.park x.wid x.sid .release

/-- What a graph or ring error comes to at an instruction (R284). -/
def State.gErr (s : State) (x : Who) : GErr → State
  | .trap t => s.trapAt x.wid x.sid { t with lanes := x.st.em }
  | .page va => s.waitPage x va

/-! ## `launch` (R285) -/

/-- The launch of a warp, and that it has a dependent now. -/
def State.markDep (s : State) (w : Warp) : State :=
  match s.crewOf w with
  | none => s
  | some c => { s with launches := Tbl.upd s.launches c.launch fun l => { l with depd := true } }

/-- R285. -/
def execLaunch (f : LaunchF) (s : State) : Out :=
  issue s fun x =>
    uOp s x ((.s f.a, 2) :: f.b.toList.map fun k => (.s k, 2)) (some (.s f.d, 1)) fun r =>
      afterAll s x (
        let va := s.vaPair x f.a
        match s.checkDesc x.d.ctx va with
        | .error (.page p) => s.waitPage x p
        | .error (.bad c d) => s.trap x c d
        | .ok (d, stages) =>
          if f.dep && (s.launchOf x.w).any Launch.depd then s.trap x 0xA1 8
          else if s.storeRoom (dieOf x.core) then
            let arg := f.b.map fun k => s.pair x.core x.d k.val
            let pred := if f.dep then (s.crewOf x.w).map Crew.launch else none
            let t := r.finish r.em fun _ => [0]
            let t := if f.dep then t.markDep x.w else t
            (t.makeLaunch x.d.ctx (dieOf x.core) (dfield d 410 408) (withArg d arg) stages pred).2
          else if f.t then r.finish r.em fun _ => [1]
          else s.park x.wid x.sid .store)

/-- R285: `launch.w` has waited 2^24 cycles for an entry. -/
def execLaunchWaitTimeout (a : Agent) (s : State) : Out :=
  .next (
    match a with
    | .strand wid sid =>
      match s.strandAt wid sid with
      | none => s
      | some x =>
        match x.st.parked with
        | some (.store, t) => if s.time < t + 2 ^ 24 ∨ ¬s.strandAwake x then s else s.trapAt wid sid { cause := 0xA0, lanes := x.st.em }
        | _ => s
    | _ => s)

/-! ## The work distributor (R286) -/

/-- R286: the request is accepted at once; its answer comes later. With EM = 0 it has no effect (R283). -/
def execWdask (f : WdaskF) (s : State) : Out :=
  issue s fun x =>
    if x.st.em = 0 then s.skip x
    else match pairCode f.a with
    | none => s.trap x 0x2E
    | some k =>
      if x.st.dom ≠ 0 then s.trap x 0xC0 2
      else
        uOp s x [] (some (.s f.d, 1)) fun r =>
          match s.crewOf x.w, s.launchOf x.w with
          | some c, some l =>
            if dfield l.desc 471 440 = 0 then s.trap x 0xA3
            else
              let t := { r with d := { r.d with dst := none } }.launch f.la.toNat r.em fun _ => []
              ({ t with wdReqs := t.wdReqs ++ [WdReq.mk (dieOf x.core) c.launch x.wid x.st.dom f.d.val k] } : State)
          | _, _ => s.trap x 0xA3

/-- R286: a die's distributor answers its oldest request, and counts 4 bytes into the pair. -/
def execWorkDistributorAnswer (die : Nat) (s : State) : Out :=
  .next (
    match s.wdReqs.find? fun r => r.die == die && (Tbl.find s.warps r.wid).isSome with
    | none => s
    | some r =>
      let s := { s with wdReqs := s.wdReqs.erase r }
      match Tbl.find s.launches r.launch, (Tbl.find s.warps r.wid).bind fun w => w.dom r.dom with
      | some l, some d =>
        let more := l.counter < dfield l.desc 471 440
        let s := { s with launches := Tbl.put s.launches r.launch { l with counter := if more then l.counter + 1 else l.counter } }
        let s := s.setScalar (coreOf r.wid) d r.dst (if more then BitVec.ofNat 32 l.counter else 0xFFFFFFFF)
        (s.countBytes r.wid r.dom r.pair 4).1
      | _, _ => s)

/-! ## Rings (R289-R291) -/

/-- The checks of a control block (R284, R289). -/
def State.ringCheck (s : State) (ctx va : Nat) : Except GErr RingBlk :=
  if va % 64 ≠ 0 then .error (.trap { cause := 0xA4 })
  else match s.recFault ctx va 64 .both with
    | some e => .error e
    | none =>
      let b := s.ringAt ctx va
      if b.bad then .error (.trap { cause := 0xA4 })
      else if b.broken then .error (.trap { cause := 0xA6 })
      else .ok b

/-- What a ring operation comes to: it waits, it names a ticket that it may not end, or it gives a block, with a ticket. -/
inductive RingRes where
  | wait | badTicket
  | ok (b : RingBlk) (ticket : Word)
  deriving DecidableEq, Repr

/-- R290, R291. -/
def RingBlk.step (b : RingBlk) : RingOp → RingRes
  | .acq false _ _ => if b.occupancy < b.slots then .ok (b.setRes (ringNext b.res)) (BitVec.ofNat 32 b.res) else .wait
  | .acq true _ _ =>
    if b.clm ≠ b.cmt then .ok (b.setClm (ringNext b.clm)) (BitVec.ofNat 32 b.clm)
    else if b.closed = 1 then .ok b 0xFFFFFFFF else .wait
  | .cmt t close =>
    let fin (b : RingBlk) : RingRes := .ok (if close then b.close else b) 0
    match t with
    | none => fin b
    | some t =>
      if 2 ^ 31 ≤ t ∨ ringDist b.cmt b.res ≤ ringDist b.cmt t then .badTicket
      else if t = b.cmt then fin (b.setCmt (ringNext t)) else .wait
  | .rel t =>
    if 2 ^ 31 ≤ t ∨ ringDist b.rel b.clm ≤ ringDist b.rel t then .badTicket
    else if t = b.rel then .ok (b.setRel (ringNext t)) 0 else .wait

/-- Whether two operations wait at one end of a ring, where they are served in order of arrival (R290). -/
def RingOp.sameEnd : RingOp → RingOp → Bool
  | .acq c _ _, .acq c' _ _ => c == c'
  | _, _ => false

/-- Whether a waiting operation has others before it. -/
def State.ringQueued (s : State) (ctx va : Nat) (op : RingOp) (before : List RingWait) : Bool :=
  before.any fun w => w.ctx == ctx && w.block == va && w.op.sameEnd op && s.ringWaits.contains w

/-- A ring operation has been performed for a strand: its ticket is on its way, or it is done. -/
def State.ringDone (s : State) (x : Who) (op : RingOp) (ticket : Word) : State :=
  match op with
  | .acq _ dst la =>
    let (n, s) := s.fresh
    let s := s.advance x.wid x.sid 1
    s.updStrand x.wid x.sid fun st => { st with pends := st.pends ++ [⟨n, la, [⟨x.d.scal dst, ticket, 0⟩], none, 0, true, false, true, x.st.dom⟩] }
  | _ => s.advance x.wid x.sid 1

/-- A strand waits at a ring. -/
def State.ringPark (s : State) (x : Who) (va : Nat) (op : RingOp) : State :=
  let w : RingWait := ⟨x.agent, x.d.ctx, va, op⟩
  ({ s with ringWaits := s.ringWaits ++ [w] } : State).park x.wid x.sid .ring

/-- A ring operation at issue: checked, and performed or waiting at the block. -/
def Ready.ring (r : Ready) (va : Nat) (op : RingOp) : State :=
  let s := r.s
  let x := r.x
  match s.ringCheck x.d.ctx va with
  | .error e => s.gErr x e
  | .ok b =>
    match b.step op with
    | .badTicket => s.trap x 0xA5
    | .ok b t =>
      if s.ringQueued x.d.ctx va op s.ringWaits then r.commit.ringPark x va op else (r.commit.putRing x.d.ctx va b).ringDone x op t
    | .wait => r.commit.ringPark x va op

/-- R290. -/
def execRingAcq (f : RingAcqF) (s : State) : Out :=
  issue s fun x => uOp s x [(.s f.a, 2)] (some (.s f.d, 1)) fun r =>
    afterReads s x (r.ring (s.vaPair x f.a) (.acq f.c f.d.val f.la.toNat))

/-- R291. -/
def execRingCmt (f : RingCmtF) (s : State) : Out :=
  issue s fun x => uOp s x [(.s f.a, 2), (f.b, 1)] none fun r =>
    afterAll s x (
      let t := if f.cl && f.b == .zero then none else some (r.u 1)
      r.ring (s.vaPair x f.a) (.cmt t f.cl))

/-- R291. -/
def execRingRel (f : RingRelF) (s : State) : Out :=
  issue s fun x => uOp s x [(.s f.a, 2), (f.b, 1)] none fun r =>
    afterAll s x (r.ring (s.vaPair x f.a) (.rel (r.u 1)))

/-- R291: `ring.peek`. -/
def execRingPeek (f : RingPeekF) (s : State) : Out :=
  issue s fun x => uOp s x [(.s f.a, 2)] (some (.s f.d, 1)) fun r =>
    afterReads s x (
      match s.ringCheck x.d.ctx (s.vaPair x f.a) with
      | .error e => s.gErr x e
      | .ok b => r.finish r.em fun _ => [BitVec.ofNat 32 (if f.c then ringDist b.clm b.cmt else b.slots - b.occupancy)])

/-- A strand that waits at a ring is served, in order of arrival (R290, R291). -/
def execRingWaitSatisfied (a : Agent) (s : State) : Out :=
  .next (
    match a with
    | .strand wid sid =>
      match s.strandAt wid sid, s.ringWaits.find? fun w => w.agent == a with
      | some x, some w =>
        let gone := { s with ringWaits := s.ringWaits.erase w }
        if (Tbl.find s.ctxs w.ctx).any fun c => c.run != .running then s
        else match s.ringCheck w.ctx w.block with
          | .error (.trap t) => gone.trapAt wid sid { t with lanes := x.st.em }
          | .error (.page va) => s.wantPage (dieOf x.core) w.ctx va
          | .ok b =>
            match b.step w.op with
            | .wait => s
            | .badTicket => gone.trapAt wid sid { cause := 0xA5, lanes := x.st.em }
            | .ok b t =>
              if s.ringQueued w.ctx w.block w.op (s.ringWaits.takeWhile fun q => q != w) then s
              else (gone.putRing w.ctx w.block b).ringDone x w.op t
      | _, _ => s
    | _ => s)

/-! ## Graphs (R298, R302) -/

/-- R298. -/
def execGfire (f : GfireF) (s : State) : Out :=
  issue s fun x => uOp s x ((.s f.a, 2) :: f.b.toList.map fun k => (.s k, 2)) none fun r =>
    afterAll s x (
      let va := s.vaPair x f.a
      let arg := (f.b.map fun k => s.pair x.core x.d k.val).getD 0
      match (if f.start then s.startGraph x.d.ctx va (dieOf x.core) arg none else s.outsideToken x.d.ctx va (dieOf x.core)) with
      | .error e => s.gErr x e
      | .ok t => ({ r with s := t }).finish r.em fun _ => [])

/-- R302: `gnode`. -/
def execGnode (f : GnodeF) (s : State) : Out :=
  issue s fun x => uOp s x [(.s f.a, 2)] (some (.s f.d, 1)) fun r =>
    afterReads s x (
      let va := s.vaPair x f.a
      match s.recFault x.d.ctx va 128 .both with
      | some e => s.gErr x e
      | none => r.finish r.em fun _ => [BitVec.ofNat 32 (nodeStatus (s.rec_ x.d.ctx va))])

/-- R302: `gcancel`. -/
def execGcancel (f : GnodeF) (s : State) : Out :=
  issue s fun x => uOp s x [(.s f.a, 2)] (some (.s f.d, 1)) fun r =>
    afterReads s x (
      let va := s.vaPair x f.a
      match s.recFault x.d.ctx va 128 .both with
      | some e => s.gErr x e
      | none =>
        match s.nodeAt x.d.ctx va with
        | .error e => s.gErr x e
        | .ok n =>
          let (st, t) := s.cancelAt x.d.ctx va n
          ({ r with s := t }).finish r.em fun _ => [BitVec.ofNat 32 st])

/-! ## `hnext`, `waitpred`, `yield`, `prio` (R293, R303) -/

/-- R293: HNX is set, and launches that waited for it may follow (R292, R300). -/
def execHnext (s : State) : Out :=
  issue s fun x =>
    if x.st.dom ≠ 0 then s.trap x 0xC0 2
    else match s.crewOf x.w with
      | none => s.skip x
      | some c =>
        if c.hnx then s.trap x 0xB0
        else ((s.skip x).updCrew x.w.crew fun c => { c with hnx := true }).earlyTokens

/-- R293. -/
def execWaitpred (s : State) : Out :=
  issue s fun x =>
    if x.st.dom ≠ 0 then s.trap x 0xC0 2
    else match (s.launchOf x.w).bind Launch.pred with
      | none => s.trap x 0xAF
      | some p =>
        if (Tbl.find s.launches p).all fun l => l.out.isSome then (s.skip x).updCrew x.w.crew fun c => { c with pdone := true }
        else s.park x.wid x.sid .pred

/-- R303; with EM = 0 it has no effect (R283). -/
def execYield (s : State) : Out :=
  issue s fun x => (s.skip x).updStrand x.wid x.sid fun st => { st with yld := st.yld || x.st.em != 0 }

/-- R303. -/
def execPrio (a : Opnd) (s : State) : Out :=
  issue s fun x => uOp s x [(a, 1)] none fun r =>
    if 3 < r.u 0 then s.trap x 0x11
    else r.commit.updWarp x.wid (fun w => { w with prio := r.u 0 }) |>.advance x.wid x.sid 1 |>.endIfEmpty x.wid x.sid

end Sys2Proof.Machine
end

