-- ==== Sys2Proof/Machine/Kill.lean ====
section
/-! DEFINITION. The mailbox's replies, killed contexts, and the rungs above the context (R191, R268, R276, R314, R317, R318, R343,
R373, R375). -/

namespace Sys2Proof

namespace HostHdr
/-- A field of the header (R373). -/
def f (h : HostHdr) (hi lo : Nat) : Nat := (h.raw.extractLsb' lo (hi + 1 - lo)).toNat
def op (h : HostHdr) : Nat := h.f 255 240
def tag (h : HostHdr) : Nat := h.f 239 224
def part (h : HostHdr) : Nat := h.f 223 219
def ctx (h : HostHdr) : Nat := h.f 218 207
def status (h : HostHdr) : Nat := h.f 206 199
def len (h : HostHdr) : Nat := h.f 191 160
def seq (h : HostHdr) : Nat := h.f 159 96
end HostHdr

namespace Machine

/-- A reply (R373). -/
def State.reply (s : State) (h : HostHdr) (status : Nat) (payload : List Byte) : State :=
  { s with outbox := s.outbox ++ [.reply ⟨h.box, h.op, h.tag, h.part, h.ctx, status, payload⟩] }

/-! ## A context is killed (R191) -/

/-- Whether a strand is parked in a wait that a kill abandons: a fence, a drain, or LDRN or SACK of a header. -/
def State.abandons (s : State) (x : Who) : Bool :=
  match x.st.parked with
  | some (.fence, _) | some (.drain _, _) => true
  | some (.header, _) | some (.queue, _) =>
    if x.st.clause.isSome then false else
    match s.codeUnit x.core x.d.ctx x.st.pc with
    | .unit w => match Codec.decodeHeader w with
      | .ok (.clauseHeader h) => (h.ldrn && !s.loadsDone x) || (h.sack && !s.settled x.agent)
      | _ => false
    | _ => false
  | _ => false

/-- The crews of a context. -/
def State.ctxCrews (s : State) (ctx : Nat) : List (Nat × Crew) := s.crews.filter fun p => s.crewCtx p.2 == ctx

/-- Whether an agent works for a context. -/
def State.worksFor (s : State) (ctx : Nat) (a : Agent) : Bool := (s.ctxCrews ctx).any fun p => Agent.inCrew p.1 p.2 a

/-- The in-flight writes of a context are performed or discarded, each whole (log 10); its reads and waits are gone. -/
def State.settleWrites (s : State) (ctx : Nat) : State :=
  let mine (a : Access) : Bool := a.ctx == ctx || s.worksFor ctx a.agent
  let pick (s : State) (id : Nat) : Bool := Config.eventChoice (s.tick + id) % 2 == 0
  let s := (s.accs.filter fun p => mine p.2).foldl (fun s p =>
    let a := p.2
    let pa := (a.lanes.headD ⟨0, 0, 0, [], 0, 0, 0, []⟩).pa
    let t := match a.kind with
      | .load | .waita _ => s
      | _ => if !a.done && !a.replay && s.reachable pa && pick s p.1 then s.perform p.1 [] else s
    { t with accs := Tbl.del t.accs p.1, waiters := t.waiters.filter fun w => w.acc != p.1 }) s
  (s.wreqs.filter fun p => s.worksFor ctx p.2.agent).foldl (fun s p =>
    let t := if p.2.write then (p.2.words.zipIdx).foldl (fun s w =>
        if pick s (p.1 + w.2) then (s.windowWord true w.1.1 w.1.2).1 else s) s
      else s
    { t with wreqs := Tbl.del t.wreqs p.1 }) s

/-- Writes STATUS into a work request's slot, and adds to its completion word, if that is aligned (R370, R371). -/
def State.netStatus (s : State) (r : NetReq) (cause : Nat) : State :=
  let put (s : State) (va : Nat) (l : List Byte) : State := match s.access r.ctx va .write with
    | .ok pa => s.engWrite pa l 0
    | _ => s
  let s := put s (r.slot + 60) [BitVec.ofNat 8 cause]
  let cva := (r.rcd.extractLsb' 160 56).toNat
  if cva % 8 = 0 then put s cva (leBytes 8 (s.vreadNat r.ctx cva 8 + if cause = 0 then 1 else 2 ^ 32)) else s

/-- The requests in a context's send ring that the network engine has not read (R371). -/
def State.unsent (s : State) (ctx : Nat) : List NetReq :=
  match (Tbl.find s.ctxs ctx).map Context.sendRing with
  | none => []
  | some va =>
    let b := s.ringAt ctx va
    if (s.rangeFault ctx va 64 .both).isSome || b.bad || b.broken || b.slog != 6 then []
    else (List.range (ringDist b.clm b.cmt)).map fun i =>
      let slot := b.f 503 448 + (b.clm + i) % b.slots * 64
      ⟨ctx, slot, s.vrec ctx slot 512, []⟩

/-- Calls into a killed context end, each with its notice (R342, R343). -/
def State.killCallsInto (s : State) (ctx : Nat) : State :=
  s.warps.foldl (fun s p =>
    p.2.doms.foldl (fun s d => 
      if d.1 ≠ 0 ∧ d.2.ctx = ctx then
        (s.notify ⟨0xC5, s.partOf ctx, ctx, rungVals d.2.csrs (widOf p.1 p.2)⟩).killCall 8 p.1 d.1 0xC5 0xCD
      else s) s) s

/-- The launches of a context end: its crews as faulted with a cause, or as killed, and what has not been placed never is. -/
def State.endLaunches (s : State) (ctx : Nat) (fault : Option Nat) : State :=
  let s := { s with launches := Tbl.mapVals s.launches fun _ l =>
    if l.ctx = ctx ∧ l.out.isNone then
      { l with
        killed := true
        fcause := match l.fcause with
          | some c => some c
          | none => fault }
    else l }
  let s := (s.ctxCrews ctx).foldl (fun s p =>
    let s := s.haltCrew p.1 fault fault.isNone
    match Tbl.find s.crews p.1 with
    | some k => s.endCrew p.1 k
    | none => s) s
  (Tbl.keys s.launches).foldl (fun s i => if (Tbl.find s.launches i).any fun l => l.ctx == ctx then s.finishLaunch i else s) s

/-- One thing that the graph engine still has to record of a killed context, whose graphs it can reach: the end of a node's work,
which the kill faults with `cause` where nothing has ended it, or a step of a walk. A node held back stays pending (R292, R299). -/
def State.settleGraph (s : State) (ctx cause : Nat) : Option State :=
  match s.works.find? fun p => p.2.ctx == ctx with
  | some (id, w) =>
    let drop (s : State) : State := { s with works := Tbl.del s.works id }
    some (
      if (s.graphPage w.ctx w.graph).isSome then drop s
      else
        let go (s : State) : State := s.nodeEnd id
        match w.st with
        | .launched _ | .ended .. => drop (go s)
        | _ => if nStat (s.rec_ w.ctx (nodeVa w.graph w.node)) = 1 then drop (go (s.setWork id (.ended 2 cause))) else (drop s).graphEnd w.ctx w.graph)
  | none =>
    match s.cwalks.find? fun p => p.2.ctx == ctx with
    | some (id, w) =>
      some (
        if (s.graphPage w.ctx w.graph).isSome then { s with cwalks := Tbl.del s.cwalks id }
        else s.walkStep id)
    | none => none

/-- The graph engine records the ends of a killed context's nodes before the kill has quiesced (R191, R276, R299). -/
def State.settleGraphs (s : State) (ctx cause : Nat) : Nat → State
  | 0 => { s with works := s.works.filter fun p => p.2.ctx != ctx, cwalks := s.cwalks.filter fun p => p.2.ctx != ctx }
  | n + 1 => match s.settleGraph ctx cause with
    | some t => State.settleGraphs t ctx cause n
    | none => s

/-- PREEMPT commands for a context are answered. -/
def State.answerHeld (s : State) (p : Held → Bool) : State :=
  (s.held.filter p).foldl (fun s h => s.reply h.hdr 0 []) { s with held := s.held.filter fun h => !p h }

/-- A context is killed, and quiesces (R191): `fault` is the cause of a kill that is no host's (R276). -/
def State.killNow (s : State) (ctx : Nat) (fault : Option Nat) : State :=
  match Tbl.find s.ctxs ctx with
  | none => s
  | some c =>
    if c.run = .killed then s
    else
      let fault := match c.rung with
        | some r => some r.cause
        | none => fault
      let parked := s.warps.any fun p => p.2.strands.any fun q => (s.strandAt p.1 q.1).any fun (x : Who) =>
        (x.d.ctx == ctx || s.worksFor ctx x.agent) && s.abandons x
      let s := s.updCtx ctx fun c => { c with run := .killed, rung := none, acks := [], pstate := 0, abandoned := c.abandoned || parked }
      let s := s.settleWrites ctx
      let s := s.jobs.foldl (fun s p => if p.2.live && p.2.ctx == ctx then s.failJob p.1 4 { cause := 0xCD } false else s) s
      let mine := (s.ctxCrews ctx).flatMap fun p => p.2.warps
      let s := s.abandon (fun c => c.ctx == ctx || mine.contains c.wid) 0xCD
      let s := s.killCallsInto ctx
      let s := { s with
        walks := s.walks.filter fun p => p.2.ctx != ctx
        faults := s.faults.filter fun f => f.ctx != ctx
        migs := s.migs.filter fun m => m.2.ctx != ctx
        ringWaits := s.ringWaits.filter fun r => r.ctx != ctx }
      let s := (s.ctxCrews ctx).foldl (fun s p => s.updCrew p.1 fun k => { k with rrotArr := none }) s
      let s := (s.endLaunches ctx fault).settleGraphs ctx (fault.getD 0xCD) (2 ^ 24)
      let s := (((s.nets.filter fun p => p.2.ctx == ctx).map Prod.snd) ++ s.unsent ctx).foldl (fun s r => s.netStatus r 0xCD)
        { s with nets := s.nets.filter fun p => p.2.ctx != ctx }
      (s.answerHeld fun h => h.ctx == ctx && h.swapIn.isNone).tidyModels

/-! ## What a shadow store holds of a partition (R351) -/

/-- The cores of a partition (R352, R364). -/
def Part.cores (p : Part) : List Nat :=
  p.clusters.flatMap fun c => (clustersOf c.2).flatMap fun k => (List.range 8).map fun i => c.1 * 576 + k * 8 + i

/-- A warp's number in another numbering. -/
def renameAgent (f : Nat → Nat) : Agent → Agent
  | .strand w i => .strand (f w) i
  | a => a
def Faulter.rename (f : Nat → Nat) : Faulter → Faulter
  | .agent a => .agent (renameAgent f a)
  | w => w

/-- The work in flight of warps whose numbers change: while a partition is in the shadow store its warps have numbers that no
resident warp has, so that nothing of theirs is taken for another's (R192, R348). -/
def State.rename (s : State) (f : Nat → Nat) : State :=
  { s with
    accs := Tbl.mapVals s.accs fun _ a => { a with agent := renameAgent f a.agent }
    wreqs := Tbl.mapVals s.wreqs fun _ r => { r with agent := renameAgent f r.agent }
    walks := Tbl.mapVals s.walks fun _ w => { w with agent := renameAgent f w.agent }
    ringWaits := s.ringWaits.map fun r => { r with agent := renameAgent f r.agent }
    wdReqs := s.wdReqs.map fun r => { r with wid := f r.wid }
    faults := s.faults.map fun e => { e with who := e.who.rename f } }

/-- The tables of a set of cores, moved out of the state, and their warps renamed by a tag. -/
def State.takeCores (s : State) (l : List Nat) (tag : Nat) : Saved × State :=
  let here (c : Nat) : Bool := l.contains c
  (⟨s.cores.filter fun p => here p.1, s.warps.filter fun p => here (coreOf p.1), s.crews.filter fun p => here p.2.core,
      s.cmds.filter fun p => here p.2.core, s.flips.filter fun f => here (coreOf f.wid), s.time⟩,
    ({ s with
      cores := s.cores.filter fun p => !here p.1
      warps := s.warps.filter fun p => !here (coreOf p.1)
      crews := s.crews.filter fun p => !here p.2.core
      cmds := s.cmds.filter fun p => !here p.2.core
      flips := s.flips.filter fun f => !here (coreOf f.wid) } : State).rename fun w =>
        if here (coreOf w) then w + 2 ^ 20 * (tag + 1) else w)

/-- Puts them back. -/
def State.putCores (s : State) (v : Saved) (tag : Nat) : State :=
  let put {α : Type} (t : Tbl α) (l : Tbl α) : Tbl α := l.foldl (fun t p => Tbl.put t p.1 p.2) t
  let s := s.rename fun w => if w / 2 ^ 20 = tag + 1 then w % 2 ^ 20 else w
  { s with
    cores := put s.cores v.cores
    warps := put s.warps v.warps
    crews := put s.crews v.crews
    cmds := put s.cmds v.cmds
    flips := v.flips ++ s.flips }

/-- What an operation does to a partition, whether it is resident or swapped out. -/
def State.onPart (s : State) (pn : Nat) (k : State → State) : State :=
  match Tbl.find s.parts pn, Tbl.find s.saved pn with
  | some p, some v =>
    if p.run ≠ .out then k s
    else
      let (other, s) := s.takeCores p.cores 32
      let (w, s) := (k (s.putCores v pn)).takeCores p.cores pn
      { s.putCores other 32 with saved := Tbl.put s.saved pn { w with since := v.since } }
  | _, _ => k s

/-- A context is killed. -/
def State.killCtx (s : State) (ctx : Nat) (fault : Option Nat) : State :=
  match Tbl.find s.ctxs ctx with
  | none => s
  | some c => s.onPart c.part fun s => s.killNow ctx fault

/-! ## The partition and device rungs (R318) -/

/-- The contexts of a partition. -/
def State.ctxsOf (s : State) (pn : Nat) : List Nat := s.ctxs.filterMap fun p => if p.2.part = pn then some p.1 else none

/-- Scrubs a partition's register space and shadow store; window generations go on. -/
def State.scrubPart (s : State) (pn : Nat) : State :=
  match Tbl.find s.parts pn with
  | none => s
  | some p =>
    let s := { s with saved := Tbl.del s.saved pn, deficits := s.deficits.filter fun d => d.1 / 32 != pn }
    if p.run = .out then s
    else p.cores.foldl (fun s c => s.setCore c { Core.empty with pool := p.pool, gens := (s.core c).reopen.gens }) s

/-- The values of a notice that no warp's trap led to (R375). -/
def bareVals (cause : Nat) : List Dword := [BitVec.ofNat 64 cause, 0, 0, 0, 0, 0, 0]

/-- The partition rung: every context is killed, the partition is scrubbed, and the host is told, unless the reset hangs
(log 19). -/
def State.resetPart (s : State) (pn : Nat) : State :=
  let s := (s.ctxsOf pn).foldl (fun s c => s.killCtx c (some 0xE0)) s
  let s := s.scrubPart pn
  if Config.resetCompletes s.tick then
    ({ s with parts := Tbl.upd s.parts pn fun p => { p with run := if p.run = .out then .out else .resident } } : State).notify
      ⟨0xE0, pn, 0, bareVals 0xE0⟩
  else { s with parts := Tbl.upd s.parts pn fun p => { p with run := .resetting s.time } }

/-- The device rung: every partition is lost, and the hosts are told. Memory keeps its bytes, and arithmetic that a machine check
has stopped stays stopped (log 19). -/
def State.resetDevice (s : State) : State :=
  let s := (Tbl.keys s.parts).foldl (fun s p => (s.ctxsOf p).foldl (fun s c => s.killCtx c (some 0xE1)) s) s
  let t : State :=
    { State.reset with
      time := s.time
      rtc := s.rtc
      upSince := s.time
      tick := s.tick
      agenda := s.agenda
      cur := s.cur
      nextId := s.nextId
      boot := s.boot
      arith := s.arith
      measured := s.measured
      mem := s.mem
      mmarks := s.mmarks
      portsUp := s.portsUp
      portsDown := s.portsDown
      outbox := s.outbox
      stats := s.stats }
  t.notify ⟨0xE1, 0, 0, bareVals 0xE1⟩

/-- R318: a partition reset that hangs for 200 ms. -/
def execPartitionResetTimeout (pn : Nat) (s : State) : Out :=
  .next (
    match (Tbl.find s.parts pn).map Part.run with
    | some (.resetting t) => if s.time < t + 140000000 then s else s.resetDevice
    | _ => s)

/-- The notice of a context at its rung, by its time. -/
def State.noticedAt (s : State) (ctx : Nat) : Option Nat := ((Tbl.find s.ctxs ctx).bind Context.rung).bind CtxRung.noticed

/-- R317: no RESUME within 10 ms of the notice: the context is killed. -/
def execNoticeAnswerTimeout (ctx : Nat) (s : State) : Out :=
  .next (
    match s.noticedAt ctx with
    | some t => if s.time < t + 7000000 then s else s.killCtx ctx none
    | none => s)

/-- R314, R317: the context rung's 20 ms: its chain enters the partition rung. -/
def execContextRungTimeout (ctx : Nat) (s : State) : Out :=
  .next (
    match s.noticedAt ctx, Tbl.find s.ctxs ctx with
    | some t, some c => if s.time < t + 14000000 then s else s.resetPart c.part
    | _, _ => s)

end Machine

end Sys2Proof
end

