-- ==== Sys2Proof/Machine/System.lean ====
section
/-! DEFINITION. The class 6 instructions but for gates, and the service timers (R313-R315, R321-R329). -/

namespace Sys2Proof.Machine

/-- R322. -/
def execTrap (n : Fin 16) (s : State) : Out := issue s fun x => s.trap x n.val

/-! ## `tret` (R323) -/

/-- Where the instructions of a clause begin, as offsets from its header, with the units of each. -/
def clauseStarts (cls : Fin 8) : Nat → List Unit64 → List (Nat × Nat)
  | _, [] => []
  | i, [_] => [(i, 1)]
  | i, w :: v :: t =>
    if Codec.twoUnits cls (Codec.opcode w) then (i, 2) :: clauseStarts cls (i + 2) t else (i, 1) :: clauseStarts cls (i + 1) (v :: t)

/-- Where `tret` goes: to a place, in a clause if it lies past its header; nowhere, as TPC is none that the mode takes, which is cause
0xCC, or as a unit that it must read cannot be fetched; or it waits for a page that migrates. -/
inductive Place where
  | at_ (pc : Pc) (cl : Option Clause)
  | bad (cause detail addr : Nat)
  | wait (f : Fetched) (va : Nat)
  deriving DecidableEq, Repr

/-- What a unit that `tret` cannot fetch comes to (R163). DEDUCED (log 92): its cause is raised at the `tret`, as R61 raises it at a
control instruction. -/
def Fetched.place (f : Fetched) (va : Nat) : Place := match f with
  | .bad c d => .bad c d va
  | f => .wait f va

/-- R323: where retry or skip goes on. TPC must name the header of the trap's clause or the first word of an instruction of it. -/
def State.position (s : State) (core ctx : Nat) (r : TrapRec) (tpc : Pc) (skip : Bool) : Place :=
  if tpc = r.hdr ∧ ¬skip then .at_ r.hdr none
  else match s.clauseAt core ctx r.hdr with
    | .error (f, va) => f.place va
    | .ok c =>
      let next := r.hdr + BitVec.ofNat 53 (c.cnt + 1)
      if tpc = r.hdr then .at_ next none
      else match (clauseStarts c.cls 1 c.units).find? fun p => r.hdr + BitVec.ofNat 53 p.1 == tpc with
        | none => .bad 0xCC 0 0
        | some (i, n) =>
          if !skip then .at_ tpc (some c)
          else if i + n ≤ c.cnt then .at_ (tpc + BitVec.ofNat 53 n) (some c)
          else .at_ next none

/-- R323: `resume` goes on at a clause header (R384). -/
def State.resumePosition (s : State) (core ctx : Nat) (tpc : Pc) : Place :=
  match s.fetchUnit core ctx tpc with
  | .unit w => if Codec.isHeader w then .at_ tpc none else .bad 0xCC 0 0
  | f => f.place (pcVa tpc)

/-- The place that a mode of `tret` goes to. -/
def State.tretPlace (s : State) (core ctx : Nat) (r : TrapRec) (tpc : Pc) : TretMode → Place
  | .retry => s.position core ctx r tpc false
  | .skip => s.position core ctx r tpc true
  | .resume => s.resumePosition core ctx tpc
  | .kill => .bad 0xCC 0 0

/-- `tret` at the warp rung: strand S goes on, its crew ends as faulted, or in a callee the call is killed (R323, R342). -/
def State.warpReturn (s : State) (x : Who) (f : TretF) : State :=
  match x.d.trapRec with
  | none => s.trap x 0xCC
  | some r =>
    let tpc : Pc := x.d.csrs.tpc.extractLsb' 0 53
    let cause := (x.d.csrs.tcause.extractLsb' 0 8).toNat
    if x.st.rstack.length ≠ r.depth then s.trap x 0xCC
    else if f.mode = .kill then
      if x.st.dom = 0 then s.haltCrew x.w.crew (some cause) false
      else
        let part := ((Tbl.find s.ctxs x.d.ctx).map Context.part).getD 0
        (s.notify ⟨0xC5, part, x.d.ctx, rungVals x.d.csrs (widOf x.wid x.w)⟩).killCall 8 x.wid x.st.dom 0xC5 cause
    else
      match s.tretPlace x.core x.d.ctx r tpc f.mode with
      | .bad c d a => s.trap x c d a
      | .wait f va => s.fetchWait x f va
      | .at_ pc cl => s.returnTo x.wid x.sid r pc cl f.step

/-- `tret` at the crew rung: MODE acts on the strand that opened the chain, and every stopped strand goes on (R323). -/
def State.rungReturn (s : State) (x : Who) (f : TretF) : State :=
  match (Tbl.find s.crews x.w.crew).bind Crew.rung with
  | none => s.trap x 0xCC
  | some r =>
    let tpc : Pc := x.d.csrs.tpc.extractLsb' 0 53
    let cause := (x.d.csrs.tcause.extractLsb' 0 8).toNat
    if x.st.rstack ≠ [] then s.trap x 0xCC
    else if x.st.pends ≠ [] then s.park x.wid x.sid .window
    else if f.mode = .kill then s.haltCrew x.w.crew (some cause) false
    else if r.fe then (if f.mode = .skip then s.endRung x.w.crew else s.trap x 0xCC)
    else
      match s.strandAt r.openWarp r.openSid with
      | none => s.endRung x.w.crew
      | some y =>
        match y.d.trapRec with
        | none => s.endRung x.w.crew
        | some rec_ =>
          match s.tretPlace y.core y.d.ctx rec_ tpc f.mode with
          | .bad c d a => s.trap x c d a
          | .wait f va => s.fetchWait x f va
          | .at_ pc cl => (s.endRung x.w.crew).returnTo r.openWarp r.openSid rec_ pc cl f.step

/-- R323, R324, R329. -/
def execTret (f : TretF) (s : State) : Out :=
  issue s fun x =>
    if x.st.level = 0 then s.trap x 0x16
    else if s.isRungHandler x && x.st.dom == 0 then s.rungReturn x f
    else s.warpReturn x f

/-- R325. -/
def execTkill (m : MReg) (s : State) : Out :=
  issue s fun x =>
    if x.st.level = 0 then s.trap x 0x16
    else (s.exitLanes x.wid x.sid (x.d.mask m &&& x.st.mem)).advance x.wid x.sid 1

/-! ## CSRs (R16, R17, R326) -/

/-- STRAND (R103). -/
def strandCsr (x : Who) : Dword :=
  let live := (Tbl.keys x.w.strands).foldl (fun n i => if i < 16 then n + 2 ^ i else n) 0
  BitVec.ofNat 64 (live * 2 ^ 48 + x.w.deferred.length * 2 ^ 32 + x.sid % 16)

/-- LSTAT (R277). -/
def State.lstat (s : State) (x : Who) : Dword :=
  match s.crewOf x.w, s.launchOf x.w with
  | some c, some l =>
    BitVec.ofNat 64 (l.ended % 2 ^ 32 * 2 ^ 32 + l.qsum % 256 * 2 ^ 24 + (if c.pdone then 4 else 0) +
      (if l.pred.isSome then 2 else 0) + if c.hnx then 1 else 0)
  | _, _ => 0

/-- PREEMPT (R350). -/
def Context.preemptCsr (c : Context) : Dword := BitVec.ofNat 64 (c.swaps % 2 ^ 32 * 2 ^ 8 + c.pstate)

/-- The value of a CSR, or none for a number that R16 does not list. -/
def State.csrRead (s : State) (x : Who) (n : Nat) : Option Dword :=
  let c := x.d.csrs
  let ctx := Tbl.find s.ctxs x.d.ctx
  match n with
  | 0x000 => some c.acr
  | 0x001 => some (widOf x.wid x.w)
  | 0x002 => some c.fmask
  | 0x003 => some (strandCsr x)
  | 0x008 => some c.tcause
  | 0x009 => some c.tpc
  | 0x00A => some c.tlanes
  | 0x00B => some c.taddr
  | 0x00C => some c.tdetail
  | 0x00D => some c.trung
  | 0x010 => some c.tvec
  | 0x011 => some c.tvecc
  | 0x012 => some c.ttime
  | 0x018 => some (BitVec.ofNat 64 (s.asidOf x.d.ctx))
  | 0x019 => some (BitVec.ofNat 64 x.st.level)
  | 0x01A => some c.gstat
  | 0x01B => some (BitVec.ofNat 64 (gdepth x.w 8 x.st.dom))
  | 0x020 => some (BitVec.ofNat 64 (s.time - s.upSince))
  | 0x021 => some (BitVec.ofNat 64 s.rtc)
  | 0x022 => some c.rngk
  | 0x023 => some (BitVec.ofNat 64 ((ctx.map Context.pfth).getD 128))
  | 0x024 => some (BitVec.ofNat 64 ((ctx.map Context.pfbs).getD 21))
  | 0x030 => some (s.lstat x)
  | 0x031 => some ((ctx.map Context.preemptCsr).getD 0)
  | _ => none

/-- The level at which a listed CSR may be written: 0 both, 1 level 1 only, 2 never (R16). -/
def csrWriteLevel (n : Nat) : Nat :=
  if n = 0x000 ∨ n = 0x01A ∨ n = 0x022 then 0
  else if (0x008 ≤ n ∧ n ≤ 0x00D) ∨ (0x010 ≤ n ∧ n ≤ 0x012) ∨ n = 0x023 ∨ n = 0x024 then 1
  else 2

/-- Whether the CSR's own layout permits a value (R18, R161, R311, R341). -/
def csrValueOk (n : Nat) (v : Dword) : Bool :=
  match n with
  | 0x000 => v.extractLsb' 25 39 == 0 && !v.getLsbD 23 && v.extractLsb' 10 6 == 0 && decide ((v.extractLsb' 0 3).toNat < 6)
  | 0x008 => v.extractLsb' 9 55 == 0
  | 0x009 => v.extractLsb' 53 11 == 0
  | 0x00D => v.extractLsb' 32 32 == 0 && v.extractLsb' 13 3 == 0 && v.extractLsb' 5 3 == 0 && !v.getLsbD 3
  | 0x010 | 0x011 => v.extractLsb' 56 8 == 0 && v.extractLsb' 0 3 == 0
  | 0x012 =>
    let wt := (v.extractLsb' 0 16).toNat
    let ct := (v.extractLsb' 16 16).toNat
    v.extractLsb' 32 32 == 0 && decide (1 ≤ wt) && decide (wt ≤ 200) && decide (1 ≤ ct) && decide (ct ≤ 2000)
  | 0x01A => v.extractLsb' 32 32 == 0 && v.extractLsb' 10 5 == 0
  | 0x023 => v.extractLsb' 8 56 == 0
  | 0x024 => v.extractLsb' 5 59 == 0 && decide (16 ≤ v.toNat) && decide (v.toNat ≤ 26)
  | _ => true

/-- The CSRs of a domain with one written. -/
def Csrs.write (c : Csrs) (n : Nat) (v : Dword) (width : Nat) : Csrs :=
  match n with
  | 0x000 => { c with acr := v }
  | 0x008 => { c with tcause := v }
  | 0x009 => { c with tpc := v }
  | 0x00A => { c with tlanes := v &&& fullMask width }
  | 0x00B => { c with taddr := v }
  | 0x00C => { c with tdetail := v }
  | 0x00D => { c with trung := v }
  | 0x010 => { c with tvec := v }
  | 0x011 => { c with tvecc := v }
  | 0x012 => { c with ttime := v }
  | 0x01A => { c with gstat := v }
  | 0x022 => { c with rngk := v }
  | _ => c

/-- Writes a CSR (R161, R326). -/
def State.csrWrite (s : State) (x : Who) (n : Nat) (v : Dword) : State :=
  match n with
  | 0x023 => s.updCtx x.d.ctx fun c => { c with pfth := v.toNat }
  | 0x024 => s.updCtx x.d.ctx fun c => { c with pfbs := v.toNat }
  | _ => s.updDom x.wid x.st.dom fun d => { d with csrs := d.csrs.write n v x.width }

/-- R326. -/
def execCsrrd (f : CsrF) (s : State) : Out :=
  issue s fun x =>
    match s.csrRead x f.csr.toNat with
    | none => s.trap x 0xC9
    | some v =>
      match beginOp s x { srcs := [], dst := some (.s f.k, 2) } with
      | .halt s => s
      | .go r => r.finish r.em fun _ => [v.extractLsb' 0 32, v.extractLsb' 32 32]

/-- R17, R326, R329. -/
def execCsrwr (f : CsrF) (s : State) : Out :=
  issue s fun x =>
    let n := f.csr.toNat
    if (s.csrRead x n).isNone then s.trap x 0xC9
    else if csrWriteLevel n = 1 ∧ x.st.level = 0 then s.trap x 0x16
    else if csrWriteLevel n = 2 then s.trap x 0xC8
    else
      match beginOp s x { srcs := [(.s f.k, 2)] } with
      | .halt s => s
      | .go r =>
        let v := s.pair x.core x.d f.k.val
        if !csrValueOk n v then s.trap x 0x11 else (r.commit.csrWrite x n v).skip x

/-! ## `tlbinv` and `drain` (R327, R328) -/

/-- The partition of a core's resident warps is told by the context; the cores of a partition. -/
def State.partCores (s : State) (p : Nat) (core : Nat) : Bool :=
  match Tbl.find s.parts p with
  | none => false
  | some q => q.clusters.any fun c => c.1 == dieOf core && c.2.getLsbD (clusOf core)

/-- R327. -/
def execTlbinv (va : Option SReg) (s : State) : Out :=
  issue s fun x =>
    if x.st.level = 0 then s.trap x 0x16
    else
      match beginOp s x { srcs := (va.toList.map fun k => (.s k, 2)) } with
      | .halt s => s
      | .go r =>
        let asid := s.asidOf x.d.ctx
        let part := ((Tbl.find s.ctxs x.d.ctx).map Context.part).getD 0
        let hit (e : TlbEntry) : Bool := match va with
          | none => e.asid == asid
          | some k => e.holds asid (s.pair x.core x.d k.val).toNat
        (r.commit.shoot fun c e => s.partCores part c && hit e).skip x

/-- R328. A drain waits for the commands that the warp issued before it began. -/
def execDrain (f : DrainF) (s : State) : Out :=
  issue s fun x =>
    let upto := match x.st.parked with
      | some (.drain n, _) => n
      | _ => s.nextId
    let eng := s.cmds.any fun p => p.2.wid == x.wid && !p.2.fe && decide (p.1 < upto)
    if (f.ld && !s.loadsDone x) || (f.st && !s.settled x.agent) || (f.eng && eng) then s.park x.wid x.sid (.drain upto)
    else s.skip x

/-! ## Service timers (R313-R315) -/

/-- Whether the timer of a handler strand has reached its rung's timeout, in cycles of 700 MHz. While a chain stands at the crew's
rung the warp-rung timers stop (R316), except that of a callee of the rung's handler. A strand that has opened a chain which has left
its rung has no timer any more. -/
def State.handlerLate (s : State) (x : Who) : Bool :=
  let here := decide (x.st.level = 1) && !x.opened && x.d.trapRec.any fun t =>
    t.sid == x.sid && decide (t.start + 700 * (x.d.csrs.ttime.extractLsb' 0 16).toNat ≤ s.time)
  match Tbl.find s.crews x.w.crew with
  | none => here
  | some k =>
    match k.rung with
    | some r =>
      let ct := (x.w.dom 0).map fun d => (d.csrs.ttime.extractLsb' 16 16).toNat
      decide (r.warp = x.wid ∧ r.sid = x.sid) && (here || ct.any fun t => decide (r.start + 700 * t ≤ s.time))
    | none => k.rungQ.isEmpty && here

/-- R315: a handler's service timer reaches its rung's timeout. -/
def execHandlerTimeout (a : Agent) (s : State) : Out :=
  .next (
    match a with
    | .strand wid sid =>
      match s.strandAt wid sid with
      | some x => if s.handlerLate x then s.handlerExpired wid sid else s
      | none => s
    | _ => s)

end Sys2Proof.Machine
end

