-- ==== Sys2Proof/Machine/Preempt.lean ====
section
/-! DEFINITION. Pre-emption, resumption and the partition swap (R347-R352). -/

namespace Sys2Proof.Machine

/-! ## Who stops (R347) -/

/-- The strands and front-end contexts, in their fixed order. -/
def State.agents (s : State) : List Agent :=
  (s.warps.flatMap fun p => p.2.strands.map fun q => Agent.strand p.1 q.1) ++
  s.crews.filterMap fun p => if p.2.fe.isSome then some (.fe p.1) else none

/-- Whether an agent belongs to a context: its crew does, or it executes in the context's domain. -/
def State.agentOf (s : State) (ctx : Nat) : Agent → Bool
  | .strand w i => (s.strandAt w i).any fun (x : Who) => x.d.ctx == ctx || s.worksFor ctx x.agent
  | .fe c => (Tbl.find s.crews c).any fun k => s.crewCtx k == ctx
  | .nobody => true

/-- The parties of a context that answer a pre-emption; a context that has none is done at once, which `nobody` stands for. -/
def State.parties (s : State) (ctx : Nat) : List Party :=
  (((s.agents ++ [Agent.nobody]).filter fun a => s.agentOf ctx a).map Party.agent) ++
  (s.cmds.filterMap fun p => if p.2.ctx = ctx then some (Party.command p.1) else none) ++
  (s.works.filterMap fun p => if p.2.ctx = ctx then some (Party.graph p.2.graph) else none) ++
  (s.cwalks.filterMap fun p => if p.2.ctx = ctx then some (Party.graph p.2.graph) else none) ++
  s.jobs.filterMap fun p => if p.2.live && p.2.ctx == ctx then some (Party.job (p.1 / 64) (p.1 % 64)) else none

/-- Whether every access that answers a long-latency instruction is parked as a replay (R348). -/
def State.replays (s : State) (pend : Nat) : Bool :=
  let l := s.accs.filter fun p => p.2.pend == some pend
  !l.isEmpty && l.all fun p => p.2.replay

/-- Whether a command stands at its boundary: parked at a page, not begun, or at the end of a chunk, a group or a step. -/
def Cmd.atBoundary (c : Cmd) : Bool :=
  c.parked ||
  match c.body with
  | .copy f => if f.dir = 2 then c.targets.all fun t => decide (t.done % 4096 = 0) else c.ahead.isEmpty
  | .copymc _ => c.targets.all fun t => t.failed.isSome || decide (t.done % 4096 = 0)
  | .tfill _ => c.ahead.isEmpty
  | .gath f => decide (c.next % 64 = 0) || decide (c.lastIndex f ≤ c.next)
  | .mma _ => c.words.isEmpty
  | .scata _ => c.ahead.isEmpty
  | _ => true

/-- Whether a party stands at its boundary (R347, R348). -/
def State.atBoundary (s : State) : Party → Bool
  | .agent (.strand w i) => (s.strandAt w i).all fun (x : Who) =>
    x.st.stopped && (x.st.pends.filter Pend.own).all fun p => s.replays p.id
  | .agent (.fe c) => s.accs.all fun p => p.2.agent != .fe c || p.2.pend.isNone || p.2.replay
  | .command id => (Tbl.find s.cmds id).all Cmd.atBoundary
  | _ => true

/-! ## Stopping -/

/-- A pre-emption of a context is requested. -/
def State.requestStop (s : State) (ctx : Nat) : State :=
  s.updCtx ctx fun c =>
    if c.run = .running then { c with run := .stopping, since := s.time, acks := [], pstate := 0xCE } else c

/-- R349: pre-emption is complete when every party has acknowledged. -/
def State.tryStop (s : State) (ctx : Nat) : State :=
  match Tbl.find s.ctxs ctx with
  | none => s
  | some c =>
    if c.run = .stopping ∧ (s.parties ctx).all fun p => c.acks.contains p && s.atBoundary p then
      let s := s.updCtx ctx fun c => { c with run := .stopped, since := s.time, acks := [], pstate := 0 }
      (s.sendRungNotice ctx).answerHeld fun h => h.ctx == ctx && h.swapIn.isNone
    else s

/-- The waiter of a registered `waita` of an agent. -/
def State.waiterOf (s : State) (a : Agent) : Option Waiter :=
  s.waiters.find? fun w => (Tbl.find s.accs w.acc).any fun p => p.agent == a

/-- A command that has stopped leaves its core's array to others (R239). -/
def State.leaveArray (s : State) : Party → State
  | .command id =>
    match Tbl.find s.cmds id with
    | some c => s.updCore c.core fun k => { k with array := if k.array = some id then none else k.array }
    | none => s
  | _ => s

/-- R347-R349: a party reaches its boundary and acknowledges. A `waita` that is parked resumes with status 1 first (R171). -/
def execPreemptAcknowledge (ctx : Nat) (p : Party) (s : State) : Out :=
  .next (
    match Tbl.find s.ctxs ctx with
    | none => s
    | some c =>
      if c.run ≠ .stopping ∨ ¬(s.parties ctx).contains p then s
      else
        let waiter := match p with
          | .agent a => s.waiterOf a
          | _ => none
        match waiter with
        | some w => s.endWaita w.acc (s.waitWord w) 1
        | none =>
          if !s.atBoundary p then s
          else ((s.leaveArray p).updCtx ctx fun c => { c with acks := if c.acks.contains p then c.acks else p :: c.acks }).tryStop ctx)

/-- R349: an acknowledgement is missing 1 ms after the request. -/
def execPreemptionTimeout (ctx : Nat) (s : State) : Out :=
  .next (
    match Tbl.find s.ctxs ctx with
    | none => s
    | some c => if c.run = .stopping ∧ c.since + 700000 ≤ s.time then s.resetPart c.part else s)

/-! ## Resumption (R317, R352) -/

/-- A domain's timers after n cycles in the shadow store: those of its handler and of its gate call (R313, R343). -/
def Dom.shift (d : Dom) (n : Nat) : Dom :=
  { d with
    trapRec := d.trapRec.map fun t => { t with start := t.start + n }
    call := d.call.map fun c => { c with start := c.start + n } }

/-- The waits of a warp that has stood still for n cycles go on where they stopped (R352). -/
def Warp.shift (w : Warp) (n : Nat) : Warp :=
  { w with
    strands := Tbl.mapVals w.strands fun _ st => { st with parked := st.parked.map fun p => (p.1, p.2 + n) }
    xchArr := w.xchArr.map fun a => { a with since := a.since + n } }

/-- The waits of a crew that has stood still for n cycles go on where they stopped (R352). -/
def Crew.shift (k : Crew) (n : Nat) : Crew :=
  { k with
    fe := k.fe.map fun f => { f with stalled := f.stalled.map fun p => (p.1, p.2 + n) }
    rrotArr := k.rrotArr.map fun a => { a with since := a.since + n } }

/-- What a partition brings back after n cycles in the shadow store: its service timers and gate timeouts stood still (R313, R343,
R352). -/
def Saved.shift (v : Saved) (n : Nat) : Saved :=
  { v with
    warps := Tbl.mapVals v.warps fun _ w => { w with doms := Tbl.mapVals w.doms fun _ d => d.shift n }
    crews := Tbl.mapVals v.crews fun _ k =>
      { k with
        rung := k.rung.map fun r => { r with start := r.start + n, since := r.since + n }
        rungQ := k.rungQ.map fun r => { r with since := r.since + n } } }

/-- Whether a strand stands still because its chain of traps has reached the context rung. -/
def State.escalated (s : State) (x : Who) : Bool :=
  let waits := (Tbl.find s.crews x.w.crew).any fun k =>
    (k.rung.any fun r => r.openWarp == x.wid && r.openSid == x.sid) || k.rungQ.any fun r => r.warp == x.wid && r.sid == x.sid
  x.opened && decide (x.st.dom = 0) && !waits

/-- A strand goes on at the instruction or header that trapped, as it stood (R317). -/
def State.retryTrap (s : State) (wid sid : Nat) : State :=
  match s.strandAt wid sid with
  | none => s
  | some x =>
    match x.d.trapRec with
    | none => s
    | some r => s.returnTo wid sid r r.pc r.clause false

/-- A context goes on. Its waits go on where they stopped; a chain of traps at the context rung ends, and the strand that opened it
issues its instruction again. -/
def State.resumeCtx (s : State) (ctx : Nat) : State :=
  match Tbl.find s.ctxs ctx with
  | none => s
  | some c =>
    if c.run ≠ .stopped then s
    else
      let n := s.time - c.since
      let crews := (s.ctxCrews ctx)
      let s := crews.foldl (fun s p =>
        (p.2.warps.foldl (fun s i => s.updWarp i fun w => w.shift n) s).updCrew p.1 fun k => k.shift n) s
      let s := s.updCtx ctx fun c => { c with run := .running, rung := none }
      if c.rung.isNone then s
      else
        let s := crews.foldl (fun s p => match s.strandAt ((p.2.rung.map CrewRung.warp).getD 0) rungSid with
          | some x => if x.st.parked.any fun q => q.1 == .handler then s.endRung p.1 else s
          | none => s) s
        let mine := s.agents.filter fun a => s.worksFor ctx a
        let s := mine.foldl (fun s a => match a with
          | .strand w i => if (s.strandAt w i).any fun (x : Who) => s.escalated x then s.retryTrap w i else s
          | _ => s) s
        let again (f : FaultEnt) : Bool := f.ctx == ctx && match f.who with
          | .access _ => true
          | _ => false
        (s.faults.filter again).foldl State.replayFault { s with faults := s.faults.filter fun f => !again f }

/-! ## The swap (R351, R352) -/

/-- The bytes that the shadow store of a die needs for a set of cores. -/
def shadowBytes (cores : Tbl Core) (die : Nat) : Nat :=
  512 * ((cores.filter fun p => dieOf p.1 == die).map fun p => (p.2.grans.filter fun g => g.2.val).length).sum

/-- Saving or swapping in clears DRT (R125, R351). -/
def Core.clean (c : Core) : Core :=
  { c with grans := (Tbl.mapVals c.grans fun _ g => { g with drt := false }).filter fun p => p.2 ≠ Gran.zero }

/-- Whether a partition's state fits the shadow stores beside those that stay there. -/
def State.shadowFits (s : State) (p : Part) (inn : Option Nat) : Bool :=
  let there := s.saved.filter fun q => some q.1 != inn
  let mine := s.cores.filter fun q => p.cores.contains q.1
  (List.range 4).all fun d =>
    decide (shadowBytes mine d + (there.map fun q => shadowBytes q.2.cores d).sum ≤ 160 * 2 ^ 20)

/-- Whether the clusters of a partition are free of other resident partitions. -/
def State.clustersFree (s : State) (pn : Nat) (p : Part) (leaving : Option Nat) : Bool :=
  s.parts.all fun q => q.1 == pn || some q.1 == leaving || q.2.run == .out ||
    p.clusters.all fun c => q.2.clusters.all fun d => c.1 != d.1 || c.2 &&& d.2 == 0

/-- A partition goes to the shadow store. -/
def State.swapOut (s : State) (pn : Nat) (p : Part) : State :=
  let (v, s) := s.takeCores p.cores pn
  let v := { v with cores := Tbl.mapVals v.cores fun _ c => c.clean }
  { s with
    saved := Tbl.put s.saved pn v
    parts := Tbl.put s.parts pn { p with run := .out } }

/-- A context is back from the shadow store (R350, R352); one at the context rung stays stopped. -/
def State.backIn (s : State) (ctx : Nat) : State :=
  s.updCtx ctx fun c => if c.run = .stopped then { c with pstate := 0xCF, swaps := (c.swaps + 1) % 2 ^ 32 } else c



/-- A partition comes back to the cores it held, and its contexts go on. -/
def State.swapIn (s : State) (pn : Nat) (p : Part) : State :=
  let v := (Tbl.find s.saved pn).getD Saved.none
  let v := { (v.shift (s.time - v.since)) with cores := Tbl.mapVals v.cores fun _ c => c.clean.reopen }
  let s := { s.putCores v pn with
    saved := Tbl.del s.saved pn
    parts := Tbl.put s.parts pn { p with run := .resident } }
  (s.ctxsOf pn).foldl (fun s c =>
    if (Tbl.find s.ctxs c).any fun k => k.run == .stopped && k.rung.isNone then (s.backIn c).resumeCtx c else s.backIn c) s

/-- The payload of a rejected command's reply: the detailed cause, and the offset of the field that failed (R385). -/
def detailBytes (code : Nat) (off : BitVec 32) : List Byte := leBytes 8 (code + off.toNat * 2 ^ 32)
/-- The offset that stands for no single field. -/
def noField : BitVec 32 := 0xFFFFFFFF

/-- A swap is turned down: its PREEMPT is answered with 0xEE, and the partition stays stopped and resident (R351). -/
def State.refuseSwap (s : State) (h : Held) (detail : Nat) : State :=
  ({ s with held := s.held.filter (· ≠ h) } : State).reply h.hdr 0xEE (detailBytes detail noField)

/-- R351, R352: once every context of a partition has stopped, it makes room for another. -/
def execPartitionSwap (out : Nat) (inn : Option Nat) (s : State) : Out :=
  .next (
    match s.held.find? fun h => h.part == out && h.swapIn == inn, inn, Tbl.find s.parts out with
    | some h, some i, some p =>
      let quiet := (s.ctxsOf out).all fun c => (Tbl.find s.ctxs c).any fun k => k.run == .stopped || k.run == .killed
      if !quiet || p.run != .resident then s
      else
        match Tbl.find s.parts i with
        | none => s.refuseSwap h 0xD0
        | some q =>
          if q.run ≠ .out then s.refuseSwap h 0xD1
          else if !s.shadowFits p inn then s.refuseSwap h 0xCE
          else if !s.clustersFree i q (some out) then s.refuseSwap h 0xD2
          else
            let s := { (s.swapOut out p) with held := s.held.filter (· ≠ h) }
            (s.swapIn i q).reply h.hdr 0 []
    | _, _, _ => s)

end Sys2Proof.Machine
end

