-- ==== Sys2Proof/Machine/Checks.lean ====
section
/-! DEFINITION. Power-on, soft errors, ports that go down, machine checks and the weirs' windows (R319, R320, R367, R369, R376,
R377). -/

namespace Sys2Proof.Machine

/-! ## Power-on (R376) -/

/-- R376: the root of trust measures; the ports come up (log 12); the mailbox opens, or start-up stops and every port that has come up
tells cause 0xE4. -/
def execPowerOn (s : State) : Out :=
  .next (
    if s.boot ≠ .off then s
    else
      let s := { s with measured := some Config.measurement, portsUp := Config.portsUpAtStart, upSince := s.time }
      if Config.fusesPass then { s with boot := .up }
      else
        let ports := (List.range 32).filter fun i => Config.portsUpAtStart.getLsbD i
        { s with boot := .stopped, outbox := s.outbox ++ ports.map fun i => .notice (.port (384 + i)) ⟨0xE4, 0, 0, bareVals 0xE4⟩ })

/-! ## Soft errors (R319, R320) -/

/-- A word of register space is poisoned. -/
def execRegisterSoftError (core addr : Nat) (s : State) : Out :=
  .next (
    if core < 2304 ∧ addr < 2 ^ 17 then
      (s.updCore core fun c => { c with marks := Sparse.write 0 c.marks addr 0x54 }).count 0x54
    else s)

/-- A clause is discarded and fetched again, which has no other effect. -/
def execInstructionStoreSoftError (die clus : Nat) (s : State) : Out :=
  .next (if die < 4 ∧ clus < 72 then s.count 0x55 else s)

/-- A line of HBM or of tier 2 is poisoned. -/
def execMemorySoftError (line : Nat) (s : State) : Out :=
  .next (
    let pa := 256 * line
    let cause := if tier2 pa then 0x57 else 0x56
    if s.populated pa then (s.setLineMark pa cause).count cause else s)

/-- The state of a context in its die's shadow store is lost: the context rung kills it. -/
def execShadowStoreSoftError (die ctx : Nat) (s : State) : Out :=
  .next (
    match Tbl.find s.ctxs ctx with
    | none => s
    | some c =>
      let here := (Tbl.find s.saved c.part).any fun v => v.cores.any fun p => dieOf p.1 == die
      if !here || c.run == .killed then s
      else ((s.count 0x5A).enterCtx ctx 0x5A (bareVals 0x5A)).killCtx ctx (some 0x5A))

/-- An entry of a TLB is discarded; it is translated again, which has no other effect. -/
def execTlbSoftError (core entry : Nat) (s : State) : Out :=
  .next (
    if entry < (s.core core).tlb.length then
      (s.updCore core fun c => { c with tlb := c.tlb.eraseIdx entry }).count 0x5B
    else s)

/-! ## Ports (R320, R369) -/

/-- Whether a network port is up. Network port i has number 400 + i. -/
def State.netUp (s : State) (i : Nat) : Bool := s.portsUp.getLsbD (16 + i) && !s.portsDown.contains (400 + i)
def State.anyNetUp (s : State) : Bool := (List.range 16).any s.netUp

/-- The port of a reliable ordered flow, which is a send ring with one of its peers (R369): it stays while that port is up. -/
def State.flowPort (s : State) (ctx peer : Nat) : Option Nat :=
  ((List.range 16).map fun i => (Config.flowPort (64 * ctx + peer) + i) % 16).find? s.netUp

/-- PEER and MODE of a work request (R370). -/
def NetReq.peer (r : NetReq) : Nat := (r.rcd.extractLsb' 498 6).toNat
def NetReq.ordered (r : NetReq) : Bool := !r.rcd.getLsbD 497

/-- Requests of the network engine fail. -/
def State.failNets (s : State) (p : Nat → NetReq → Bool) (cause : Nat) : State :=
  (s.nets.filter fun q => p q.1 q.2).foldl (fun s q => s.netStatus q.2 cause) { s with nets := s.nets.filter fun q => !p q.1 q.2 }

/-- A port goes down. Accesses that wait for a memory port fail with 0x59; a command fails at its next piece. The requests of a
reliable ordered flow are outstanding on the flow's port; which of the others have packets on a port no rule says (log 10). Without a
port all fail. -/
def execPortDown (port : Nat) (s : State) : Out :=
  .next (
    if 416 ≤ port ∨ s.portsDown.contains port then s
    else
      let old := s
      let s : State := ({ s with portsDown := s.portsDown ++ [port] } : State).count 0x59
      if 400 ≤ port then
        let none_ := !s.anyNetUp
        s.failNets (fun i r => none_ ||
          if r.ordered then old.flowPort r.ctx r.peer == some (port - 400) else Config.eventChoice (s.tick + i) % 16 == port - 400) 0x59
      else
        let waits (a : Access) : Bool := !a.done && !a.replay && s.portOf (a.lanes.headD ⟨0, 0, 0, [], 0, 0, 0, []⟩).pa == port
        (s.accs.filter fun p => waits p.2 && s.awake p.2.ctx).foldl (fun s p => s.failAccess p.1 p.2) s)

/-! ## Machine checks (R320, R377) -/

/-- A cause that resets the device. -/
def State.machineCheck (s : State) (cause : Nat) : State := (s.count cause).resetDevice

/-- A cause that stops arithmetic at once and resets the device. -/
def State.arithStop (s : State) (cause : Nat) : State := ({ s with arith := some cause } : State).machineCheck cause

def execDieLinkRetriesExhausted (s : State) : Out := .next (s.machineCheck 0x58)
def execThermalStop (s : State) : Out := .next (s.arithStop 0x5C)
def execPowerStop (s : State) : Out := .next (s.arithStop 0x5D)
def execClockStop (s : State) : Out := .next (s.arithStop 0x5E)
def execFirmwareWatchdog (s : State) : Out := .next (s.machineCheck 0x5F)

/-! ## Windows of the weirs (R367) -/

/-- A window of 1 µs begins: every allowance is its budget, less what a step has drawn ahead (log 97). -/
def execWeirWindow (s : State) : Out :=
  .next { s with weirs := s.weirs.map fun w => { w with left := w.budget + min w.left 0 } }

end Sys2Proof.Machine
end

