-- ==== Sys2Proof/Machine/Floating.lean ====
section
/-! DEFINITION. The floating instructions of class 0 (R83-R100). -/

namespace Sys2Proof.Machine

/-- A floating instruction of short latency: `g` is the result of a lane with its flags (R81). -/
def fpOp (s : State) (srcs : List (Opnd × Nat)) (d : Opnd) (n : Nat) (g : Ready → Nat → FRes) : Out :=
  issue s fun x =>
    match beginOp s x { srcs := srcs, dst := some (d, n) } with
    | .halt s => s
    | .go r => completeFp r (fun l => (g r l).flags) fun bits => r.finish r.em (fun l => wordsOf n (g r l).val) bits

/-- A long-latency floating instruction (R89). -/
def fpLong (s : State) (la : BitVec 4) (srcs : List (Opnd × Nat)) (d : Opnd) (g : Ready → Nat → FRes) : Out :=
  issue s fun x =>
    match beginOp s x { srcs := srcs, dst := some (d, 1) } with
    | .halt s => s
    | .go r => completeFp r (fun l => (g r l).flags) fun bits => r.launch la.toNat r.em (fun l => wordsOf 1 (g r l).val) bits

/-- A floating instruction whose result is several words (R97, R98, R100). -/
def fpMany (s : State) (srcs : List (Opnd × Nat)) (d : Opnd) (n : Nat) (g : Ready → Nat → List Nat × Nat) : Out :=
  issue s fun x =>
    match beginOp s x { srcs := srcs, dst := some (d, n) } with
    | .halt s => s
    | .go r => completeFp r (fun l => (g r l).2) fun bits => r.finish r.em (fun l => (g r l).1.map fun v => BitVec.ofNat 32 v) bits

/-- The value of element i of source k of lane l, negated where asked (R69, R79). -/
def Ready.fval (r : Ready) (t : Ty) (k l i : Nat) (neg : Bool) : FVal := (fdec (fmtOf t) (elem t (r.val k l) i)).negIf neg

/-- The random number of element i (R76). -/
def rsPart (t : Ty) (z i : Nat) : Nat := if elems t = 2 then z / 2 ^ (16 * i) else z

/-- The sources of an arithmetic instruction: A, B and, under stochastic rounding, z (R76). -/
def fArSrcs (f : FArF) : List (Opnd × Nat) := [(f.a, 1), (f.b, 1)] ++ if f.rnd = .rs then [(f.z, 1)] else []
/-- The mode of element i of lane l. -/
def Ready.fArMode (r : Ready) (f : FArF) (l i : Nat) : Mode := fmode r.x f.rnd (rsBits f.ty) (rsPart f.ty (r.val 2 l) i)

/-- R83. -/
def execFadd (f : FArF) (s : State) : Out :=
  fpOp s (fArSrcs f) f.d 1 fun r l => perElem f.ty fun i =>
    faddV (fmtOf f.ty) (r.fArMode f l i) (r.fval f.ty 0 l i f.na) (r.fval f.ty 1 l i f.nb)

/-- R83. -/
def execFmul (f : FArF) (s : State) : Out :=
  fpOp s (fArSrcs f) f.d 1 fun r l => perElem f.ty fun i =>
    fmulV (fmtOf f.ty) (r.fArMode f l i) (r.fval f.ty 0 l i f.na) (r.fval f.ty 1 l i f.nb)

/-- R83: A - B; a NaN in B keeps its sign (R79). -/
def execFsub (f : FArF) (s : State) : Out :=
  fpOp s (fArSrcs f) f.d 1 fun r l => perElem f.ty fun i =>
    faddV (fmtOf f.ty) (r.fArMode f l i) (r.fval f.ty 0 l i f.na) (subSign (r.fval f.ty 1 l i f.nb))

/-- R83. -/
def execFma (f : FmaF) (s : State) : Out :=
  fpOp s [(f.a, 1), (f.b, 1), (f.c, 1)] f.d 1 fun r l => perElem f.ty fun i =>
    fmaV (fmtOf f.ty) (fmode r.x f.rnd 32 0) (r.fval f.ty 0 l i f.na) (r.fval f.ty 1 l i f.nb) (r.fval f.ty 2 l i f.nc)

/-- R84. -/
def execFmin (f : FMinF) (s : State) : Out :=
  fpOp s [(f.a, 1), (f.b, 1)] f.d 1 fun r l => perElem f.ty fun i =>
    fminV (fmtOf f.ty) false (r.fval f.ty 0 l i f.na) (r.fval f.ty 1 l i f.nb)

/-- R84. -/
def execFmax (f : FMinF) (s : State) : Out :=
  fpOp s [(f.a, 1), (f.b, 1)] f.d 1 fun r l => perElem f.ty fun i =>
    fminV (fmtOf f.ty) true (r.fval f.ty 0 l i f.na) (r.fval f.ty 1 l i f.nb)

/-- R84. -/
def execFminn (f : FMinF) (s : State) : Out :=
  fpOp s [(f.a, 1), (f.b, 1)] f.d 1 fun r l => perElem f.ty fun i =>
    fminnV (fmtOf f.ty) false (r.fval f.ty 0 l i f.na) (r.fval f.ty 1 l i f.nb)

/-- R84. -/
def execFmaxn (f : FMinF) (s : State) : Out :=
  fpOp s [(f.a, 1), (f.b, 1)] f.d 1 fun r l => perElem f.ty fun i =>
    fminnV (fmtOf f.ty) true (r.fval f.ty 0 l i f.na) (r.fval f.ty 1 l i f.nb)

/-- R85. -/
def execFcmp (f : FCmpF) (s : State) : Out :=
  issue s fun x =>
    match beginOp s x { srcs := [(f.a, 1), (f.b, 1)] } with
    | .halt s => s
    | .go r =>
      let g (l : Nat) : Bool × Nat := fcmpV f.cond (r.fval .f32 0 l 0 f.na) (r.fval .f32 1 l 0 f.nb)
      completeFp r (fun l => (g l).2) fun bits => r.finishMask f.m (maskWhere r.em fun l => (g l).1) bits

/-- R86. -/
def execFclass (f : FClsF) (s : State) : Out :=
  fpOp s [(f.a, 1)] f.d 1 fun r l =>
    ⟨if elems f.ty = 2 then
        fclassV (fmtOf f.ty) (elem f.ty (r.val 0 l) 0) + 2 ^ 16 * fclassV (fmtOf f.ty) (elem f.ty (r.val 0 l) 1)
      else fclassV (fmtOf f.ty) (r.val 0 l), 0⟩

/-- R87. -/
def execFrnd (f : FRndF) (s : State) : Out :=
  fpOp s [(f.a, 1)] f.d 1 fun r l => perElem f.ty fun i =>
    frndV (fmtOf f.ty) (fmode r.x f.rnd 32 0) (r.fval f.ty 0 l i f.na)

/-- R88. -/
def execFdot2 (f : FmaF) (s : State) : Out :=
  fpOp s [(f.a, 1), (f.b, 1), (f.c, 1)] f.d 1 fun r l =>
    fdot2V (fmode r.x f.rnd 32 0) (r.fval f.ty 0 l 0 f.na) (r.fval f.ty 0 l 1 f.na) (r.fval f.ty 1 l 0 f.nb)
      (r.fval f.ty 1 l 1 f.nb) ((fdec f32 (r.val 2 l)).negIf f.nc)

/-- A special function of one source (R89). -/
def sfuOp (f : SfuF) (g : FFmt → FVal → FRes) (s : State) : Out :=
  fpLong s f.la [(f.a, 1)] f.d fun r l => perElem f.ty fun i => g (fmtOf f.ty) (r.fval f.ty 0 l i f.na)

/-- R89. -/
def execRcp (f : SfuF) (s : State) : Out :=
  sfuOp f frcpV s

/-- R89. -/
def execRsqrt (f : SfuF) (s : State) : Out :=
  sfuOp f frsqrtV s

/-- R89. -/
def execSqrt (f : SfuF) (s : State) : Out :=
  sfuOp f fsqrtV s

/-- R89. -/
def execExp2 (f : SfuF) (s : State) : Out :=
  sfuOp f fexp2V s

/-- R89. -/
def execLog2 (f : SfuF) (s : State) : Out :=
  sfuOp f flog2V s

/-- R89. -/
def execSin (f : SfuF) (s : State) : Out :=
  sfuOp f (fun k v => fsinV k true v) s

/-- R89. -/
def execCos (f : SfuF) (s : State) : Out :=
  sfuOp f (fun k v => fsinV k false v) s

/-- R89. -/
def execTanh (f : SfuF) (s : State) : Out :=
  sfuOp f ftanhV s

/-- R89. -/
def execFdiv (f : FDivF) (s : State) : Out :=
  fpLong s f.la [(f.a, 1), (f.b, 1)] f.d fun r l => perElem f.ty fun i =>
    fdivV (fmtOf f.ty) (r.fval f.ty 0 l i f.na) (r.fval f.ty 1 l i f.nb)

/-- R91, R92. -/
def execCvt (f : CvtF) (s : State) : Out :=
  fpOp s ([(f.a, if f.src.wide then 2 else 1)] ++ if f.rnd = .rs then [(f.z, 1)] else []) f.d (if f.dst.wide then 2 else 1)
    fun r l => cvtV f.dst f.src (fmode r.x f.rnd 32 (r.val 1 l)) f.sat f.na (r.val 0 l)

/-- R93. -/
def execCvtpk (f : CvtpkF) (s : State) : Out :=
  fpOp s ([(f.a, 1), (f.b, 1)] ++ if f.rnd = .rs then [(f.z, 1)] else []) f.d 1 fun r l =>
    let e0 := cvtV (pkFmt f.fmt) .f32 (fmode r.x f.rnd 16 (r.val 2 l)) f.sat f.na (r.val 0 l)
    let e1 := cvtV (pkFmt f.fmt) .f32 (fmode r.x f.rnd 16 (r.val 2 l / 2 ^ 16)) f.sat f.nb (r.val 1 l)
    ⟨e0.val + 2 ^ pkBits f.fmt * e1.val, e0.flags ||| e1.flags⟩

/-- R94. -/
def execUnpk (f : UnpkF) (s : State) : Out :=
  fpOp s [(f.a, 1)] f.d 1 fun r l => unpkV f.fmt f.e.val (r.val 0 l)

/-- R95. -/
def execRng (f : RngF) (s : State) : Out :=
  issue s fun x =>
    match beginOp s x { srcs := [(f.a, 4)], dst := some (f.d, 4) } with
    | .halt s => s
    | .go r => r.launch f.la.toNat r.em fun l =>
        (philox r.x.d.csrs.rngk.toNat (r.word 0 0 l).toNat (r.word 0 1 l).toNat (r.word 0 2 l).toNat (r.word 0 3 l).toNat).map
          fun v => BitVec.ofNat 32 v

/-- R97. -/
def execSmxStep (f : Smx3F) (s : State) : Out :=
  fpMany s [(f.a, 1), (f.b, 1), (f.c, 1)] f.d 4 fun r l => smxStepV (r.val 0 l) (r.val 1 l) (r.val 2 l)

/-- R98. -/
def execSmxMerge (f : Smx2F) (s : State) : Out :=
  fpMany s [(f.a, 3), (f.b, 3)] f.d 3 fun r l =>
    smxMergeV (r.word 0 0 l).toNat (r.word 0 1 l).toNat (r.word 0 2 l).toNat (r.word 1 0 l).toNat (r.word 1 1 l).toNat
      (r.word 1 2 l).toNat

/-- R99. -/
def execSmxNorm (f : Smx2F) (s : State) : Out :=
  fpOp s [(f.a, 1), (f.b, 1)] f.d 1 fun r l => smxNormV (r.val 0 l) (r.val 1 l)

/-- R100. -/
def execRope (f : Smx3F) (s : State) : Out :=
  fpMany s [(f.a, 2), (f.b, 1), (f.c, 1)] f.d 2 fun r l =>
    ropeV (r.word 0 0 l).toNat (r.word 0 1 l).toNat (r.val 1 l) (r.val 2 l)

/-- R96. -/
def execDpmul (f : DpmF) (s : State) : Out :=
  fpOp s [(f.a, 1), (f.b, 1), (f.c, 1)] f.d 1 fun r l => perElem f.ty fun i =>
    dpmulV (fmtOf f.ty) (fmode r.x f.rnd 32 0) (r.fval f.ty 0 l i f.na) (r.val 1 l / 2 ^ (8 * i)) (r.fval f.ty 2 l i f.nc)

end Sys2Proof.Machine
end

