-- ==== Sys2Proof/Machine/Net.lean ====
section
/-! DEFINITION. The network engine and the requests of peers (R369-R371). -/

namespace Sys2Proof.Machine

/-- Bytes land at a virtual address of a context, line by line, where its pages are present. -/
def State.landBytes (s : State) (ctx va : Nat) (l : List Byte) : State :=
  (linePieces va l.length).foldl (fun s p => match s.present ctx p.1 with
    | some pa => s.engWrite pa ((l.drop (p.1 - va)).take p.2) 0
    | none => s) s

/-! ## Work requests (R370) -/

namespace NetReq
def f (r : NetReq) (hi lo : Nat) : Nat := (r.rcd.extractLsb' lo (hi + 1 - lo)).toNat
def op (r : NetReq) : Nat := r.f 511 504
def len (r : NetReq) : Nat := r.f 479 448
def lva (r : NetReq) : Nat := r.f 447 392
def sva (r : NetReq) : Nat := r.f 335 280
def cva (r : NetReq) : Nat := r.f 215 160
/-- A request that the format does not allow. -/
def bad (r : NetReq) : Bool :=
  decide (r.op = 0 ∨ 4 < r.op) || r.f 496 488 != 0 || r.f 159 0 != 0 || (r.op == 3 && r.len != 0) || r.cva % 8 != 0 ||
  ((r.op == 2 || r.op == 3) && r.sva % 8 != 0)
end NetReq

/-- The failure cause of a range that cannot be accessed: a permission, or an unreachable page (R371). -/
def netCause (c : Nat) : Nat := if c = 0x48 ∨ c = 0x49 then c else 0x4F

/-- The checks of a work request: a cause, a page to wait for, or nothing. -/
inductive NetCheck where
  | fail (cause : Nat) | page (va : Nat) | ok
  deriving DecidableEq, Repr

def State.netCheck (s : State) (c : Context) (r : NetReq) : NetCheck :=
  if r.bad then .fail 0x40
  else if c.peers.length ≤ r.peer then .fail 0x4B
  else match s.rangeFault r.ctx r.lva (if r.op = 3 then 0 else r.len) (if r.op = 4 then .write else .read) with
    | some (_, .bad cause _) => .fail (netCause cause)
    | some (va, _) => .page va
    | none => if s.anyNetUp then .ok else .fail 0x59

/-- R371: the network engine of the edge die consumes the next slot of a context's send ring, as `ring.acq.c` does, and releases it
once it has read the request. A page in migration is waited for before the slot is taken. -/
def execNetworkRequest (ctx : Nat) (s : State) : Out :=
  .next (
    match Tbl.find s.ctxs ctx with
    | none => s
    | some c =>
      if c.run ≠ .running then s
      else match s.ringCheck ctx c.sendRing with
        | .error (.page va) => s.wantPage 0 ctx va
        | .error _ => s
        | .ok b =>
          if b.slog ≠ 6 then s
          else match b.step (.acq true 0 0) with
            | .ok b1 t =>
              if b1 = b then s
              else
                let slot := b.f 503 448 + t.toNat % b.slots * 64
                match s.recFault ctx slot 64 .both with
                | some (.page va) => s.wantPage 0 ctx va
                | some _ => s
                | none =>
                  let r : NetReq := ⟨ctx, slot, s.vrec ctx slot 512, []⟩
                  let b2 := match b1.step (.rel t.toNat) with
                    | .ok b2 _ => b2
                    | _ => b1
                  match s.netCheck c r with
                  | .page va => s.wantPage 0 ctx va
                  | .fail cause => (s.putRing ctx c.sendRing b2).netStatus r cause
                  | .ok =>
                    let data := if r.op ≤ 2 then s.vread ctx r.lva r.len else []
                    let (n, s) := (s.putRing ctx c.sendRing b2).fresh
                    { s with nets := Tbl.put s.nets n { r with data := data } }
            | _ => s)

/-- The causes that a peer or a port may answer with (R371). -/
def netAnswers : List Nat := [0, 0x48, 0x49, 0x4B, 0x59, 0x4F]

/-- Whether an earlier request of the same reliable ordered flow is outstanding: its packets come first (R369, R371). -/
def State.flowBefore (s : State) (req : Nat) (r : NetReq) : Bool :=
  r.ordered && s.nets.any fun p => decide (p.1 < req) && p.2.ctx == r.ctx && p.2.peer == r.peer && p.2.ordered

/-- R371: a request is acknowledged with the bytes read, or fails. A request that reads ends only with all its bytes, and one of a
reliable ordered flow after those before it. -/
def execNetworkCompletion (req cause : Nat) (data : List Byte) (s : State) : Out :=
  .next (
    match Tbl.find s.nets req with
    | none => s
    | some r =>
      let gone : State := { s with nets := Tbl.del s.nets req }
      if !netAnswers.contains cause || s.flowBefore req r then s
      else if cause ≠ 0 ∨ r.op ≠ 4 then (if data = [] then gone.netStatus r cause else s)
      else if data.length ≠ r.len then s
      else match s.rangeFault r.ctx r.lva r.len .write with
        | some (va, .replay) => s.wantPage 0 r.ctx va
        | some _ => gone.netStatus r 0x4F
        | none => (gone.landBytes r.ctx r.lva data).netStatus r 0)

/-! ## Requests of peers (R370, R371) -/

/-- Whether a context accepts a key: it is one of those in its own peer table. -/
def Context.accepts (c : Context) (key : BitVec 64) : Bool := c.peers.any fun p => p.key == key

/-- Adds to a counter in memory as one atomic, and wakes who waits for it (R371). -/
def State.signalAt (s : State) (ctx va : Nat) (v : BitVec 64) : State :=
  match s.access ctx va .both with
  | .ok pa => s.engWrite pa (leBytes 8 (s.readNat pa 8 + v.toNat)) 0
  | _ => s

/-- R371: a peer's request is performed: every byte of it, and then its signal. One that is refused has no effect; one that meets a
page in migration waits. What the peer is answered is not part of the machine. -/
def execPeerRequestReceived (r : PeerReq) (s : State) : Out :=
  .next (
    match Tbl.find s.ctxs r.ctx with
    | none => s
    | some c =>
      let op := r.op.toNat
      let writes := decide (op = 1 ∨ op = 2)
      let signals := decide (op = 2 ∨ op = 3)
      if c.run = .killed ∨ ¬c.accepts r.key ∨ ¬s.anyNetUp ∨ (writes ∧ r.bytes.length ≠ r.len) then s
      else
        let data := if writes then s.rangeFault r.ctx r.rva r.len .write else none
        let sig := if signals then s.rangeFault r.ctx r.sva 8 .both else none
        match data <|> sig with
        | some (va, .replay) => s.wantPage 0 r.ctx va
        | some _ => s
        | none =>
          if signals ∧ r.sva % 8 ≠ 0 then s
          else
            let s := if writes then s.landBytes r.ctx r.rva r.bytes else s
            if signals then s.signalAt r.ctx r.sva r.sadd else s)

end Sys2Proof.Machine
end

