-- ==== Sys2Proof/Machine/Mailbox.lean ====
section
/-! DEFINITION. The mailbox engine, and the commands of the device: identity, partitions, stitching, budgets, contexts and statistics
(R365, R367, R368, R373-R376, R385). -/

namespace Sys2Proof.Machine

/-! ## Headers (R373, R374) -/

/-- The class code of a command (R373). -/
def classCode (op : Nat) : Nat :=
  if op ≤ 0x03 then 0xE7 else if op ≤ 0x06 then 0xE8 else if op ≤ 0x08 then 0xE9 else if op ≤ 0x0C then 0xEA
  else if op = 0x0D then 0xEB else if op ≤ 0x11 then 0xEC else if op = 0x12 then 0xED else if op ≤ 0x16 then 0xEE else 0xEF

/-- Whether a command may come by the device mailbox, and by a partition's (R374). -/
def servedBy (op : Nat) : Bool × Bool :=
  if op = 0x02 ∨ op = 0x03 ∨ op = 0x18 then (true, true)
  else if op ≤ 0x06 ∨ op = 0x12 then (true, false) else (false, true)

/-- Whether the mailbox is the right one, and the sender may use it: the address that opened the session, or the partition's host;
MEASURE is answered to anyone. -/
def State.boxOk (s : State) (h : HostHdr) (op : Nat) : Bool :=
  match h.box with
  | .port => op == 0x02
  | .device => (servedBy op).1 && (op == 0x01 || op == 0x02 || s.session.any fun q => q.1 == h.src)
  | .part n => (servedBy op).2 && h.part == n && (Tbl.find s.parts n).any fun p => op == 0x02 || p.host == h.src

/-- Whether a header is well formed: its OP, its reserved bits, its STATUS and its LEN. -/
def HostHdr.wellFormed (h : HostHdr) (op : Nat) : Bool :=
  h.op == op && h.status == 0 && h.f 198 192 == 0 && h.f 95 0 == 0 && decide (h.len ≤ 65504)

/-- The last SEQ that a mailbox accepted. A port without a session keeps none. -/
def State.lastSeq (s : State) (b : Mailbox) : Option Nat := (s.seqs.find? fun p => p.1 == b).map Prod.snd
def State.seqOk (s : State) (h : HostHdr) : Bool := h.box == .port || (s.lastSeq h.box).all fun n => decide (n < h.seq)

/-- A mailbox accepts a command. -/
def State.takeSeq (s : State) (h : HostHdr) : State :=
  if h.box = .port then s else { s with seqs := (h.box, h.seq) :: s.seqs.filter fun p => p.1 != h.box }

/-- A command arrives: its header is checked, or it is rejected with 0xE2. Nothing is received while the mailbox is closed. -/
def hostCmd (h : HostHdr) (op : Nat) (s : State) (k : State → State) : Out :=
  .next (
    if s.boot ≠ .up then s
    else if HostHdr.wellFormed h op && s.boxOk h op && s.seqOk h then k (s.takeSeq h)
    else s.reply h 0xE2 [])

/-- A command fails its own checks: the code of its class, with the detailed cause and the field that failed (log 7). -/
def State.reject (s : State) (h : HostHdr) (detail : Nat) (field : Option Nat := none) : State :=
  s.reply h (classCode h.op) (detailBytes detail (match field with
    | some i => Config.payloadOffset h.op i
    | none => noField))

/-- The context that a command names, which its partition must hold (R373). -/
def State.withCtx (s : State) (h : HostHdr) (k : Context → State) : State :=
  match Tbl.find s.ctxs h.ctx with
  | some c => if c.part = h.part then k c else s.reject h 0xD0
  | none => s.reject h 0xD0

/-! ## Identity (R374, R376) -/

/-- The ports that are up: expanders in bits 15:0, network ports in bits 31:16. -/
def State.portsNow (s : State) : Nat :=
  ((List.range 32).filter fun i => s.portsUp.getLsbD i && !s.portsDown.contains (384 + i)).foldl (fun n i => n + 2 ^ i) 0

/-- The measurement as bytes. -/
def State.measurement (s : State) : List Byte := leBytes 64 ((s.measured.getD 0).toNat)

/-- R374: a session opens when the operator's signature of the device's nonce verifies (log 11). -/
def execHello (h : HostHdr) (sig : BitVec 912) (s : State) : Out :=
  hostCmd h 0x01 s fun s =>
    let nonce := Config.sessionNonce s.tick
    if !Config.operatorVerifies nonce sig then s.reject h 0x11 (some 0)
    else ({ s with session := some (h.src, nonce) } : State).reply h 0
      (leBytes 8 Config.deviceId.toNat ++ leBytes 32 nonce.toNat ++ leBytes 8 s.cxlPorts.length ++ leBytes 8 s.portsNow ++ leBytes 8 s.rtc)

/-- R374, R376. -/
def execMeasure (h : HostHdr) (s : State) : Out := hostCmd h 0x02 s fun s => s.reply h 0 s.measurement

/-- R376: the signature, or cause 0xE3 where the device key cannot be derived. -/
def execAttest (h : HostHdr) (nonce : BitVec 256) (s : State) : Out :=
  hostCmd h 0x03 s fun s =>
    if Config.deviceKeyPresent then s.reply h 0 (leBytes 114 (Config.attestSignature nonce).toNat) else s.reply h 0xE3 []

/-! ## Partitions (R318, R365, R374) -/

/-- Whether two sets of clusters of dies have a cluster in common. -/
def overlap (a b : List (Nat × BitVec 72)) : Bool := a.any fun c => b.any fun d => c.1 == d.1 && c.2 &&& d.2 != 0

/-- How many partitions hold clusters of a die, at most 8 (R1). -/
def State.partsOn (s : State) (die : Nat) : Nat := (s.parts.filter fun p => p.2.clusters.any fun c => c.1 == die && c.2 != 0).length

/-- R374: a partition is made; its cores set their gate pools aside (R336). Clusters that a resident partition holds are not to be
had. -/
def execPartCreate (h : HostHdr) (f : PartCreateF) (s : State) : Out :=
  hostCmd h 0x04 s fun s =>
    if 32 ≤ f.num then s.reject h 0x11 (some 0)
    else if (f.clusters.any fun c => decide (4 ≤ c.1)) || (f.clusters.map Prod.fst).eraseDups.length != f.clusters.length then
      s.reject h 0x11 (some 1)
    else if (Tbl.find s.parts f.num).isSome then s.reject h 0xD1 (some 0)
    else if s.parts.any fun p => p.2.run != .out && overlap p.2.clusters f.clusters then s.reject h 0xD2 (some 1)
    else if f.clusters.any fun c => c.2 != 0 && s.partsOn c.1 == 8 then s.reject h 0xD2 (some 1)
    else if 1024 < f.gatePool then s.reject h 0xD2 (some 3)
    else
      let p : Part := ⟨f.clusters, f.host, f.gatePool, [], [], .resident⟩
      let s := p.cores.foldl (fun s c => s.updCore c fun k => { Core.empty with pool := f.gatePool, gens := k.gens }) s
      ({ s with parts := Tbl.put s.parts f.num p } : State).reply h 0 []

/-- A context's entries in the tables of the firmware go: its gates become invalid, its models and translations are gone, and a
WAIT of it is answered (R333, R374). -/
def State.forgetCtx (s : State) (ctx : Nat) : State :=
  let asid := s.asidOf ctx
  let s : State := { s with
    gates := Tbl.mapVals s.gates fun _ g => if gfield g 499 488 = ctx then g &&& ~~~(1#512 <<< 511) else g
    models := s.models.filter fun m => m.1 % 2 ^ 32 / 16 != ctx
    movedIn := s.movedIn.filter fun p => p.1 != ctx
    launches := s.launches.filter fun l => l.2.ctx != ctx
    ctxs := Tbl.del s.ctxs ctx }
  let s := (s.waits.filter fun w => w.2.ctx == ctx).foldl (fun s w => s.reject w.2.hdr 0xD0)
    { s with waits := s.waits.filter fun w => w.2.ctx != ctx }
  s.shoot fun _ e => e.asid == asid

/-- R374: every context is killed, and the partition scrubbed as at its rung; then it is no more. -/
def execPartDestroy (h : HostHdr) (part : Nat) (s : State) : Out :=
  hostCmd h 0x05 s fun s =>
    match Tbl.find s.parts part with
    | none => s.reject h 0xD0 (some 0)
    | some p =>
      let s := (s.ctxsOf part).foldl (fun s c => s.killCtx c none) s
      let s := s.scrubPart part
      let s := (s.ctxsOf part).foldl State.forgetCtx s
      let s := s.answerHeld fun g => g.part == part
      let s := if p.run = .out then s else p.cores.foldl (fun s c => s.updCore c fun k => { k with pool := 0 }) s
      ({ s with
        parts := Tbl.del s.parts part
        weirs := s.weirs.filter fun w => w.part != part
        gates := s.gates.filter fun g => gfield g.2 504 500 != part
        seqs := s.seqs.filter fun q => q.1 != .part part } : State).reply h 0 []

/-- A field of the shape of a region (R365). -/
def shapeField (w : BitVec 16) (hi lo : Nat) : Nat := (w.extractLsb' lo (hi + 1 - lo)).toNat

/-- R365: what refuses a region. -/
def State.regionBad (s : State) (f : StitchF) (p : Part) : Bool :=
  let c := (clustersOf f.bitmap).length
  let own := (p.clusters.filter fun q => q.1 == f.die).foldl (fun b q => b ||| q.2) 0
  let others := p.regions.filter fun r => r.1 == f.die && r.2.1 != f.bitmap
  let crew := s.crews.any fun k => dieOf k.2.core == f.die && f.bitmap.getLsbD (clusOf k.2.core) && s.partOf (s.crewCtx k.2) == f.part
  decide (c = 0 ∨ 16 < c) ||
  decide (shapeField f.shape 15 14 = 3 ∧ (shapeField f.shape 13 10 + 1) * (shapeField f.shape 9 6 + 1) ≠ c) ||
  decide (c ≤ shapeField f.shape 5 0) || f.bitmap &&& ~~~own != 0 || (others.any fun r => r.2.1 &&& f.bitmap != 0) || crew ||
  decide (shapeField f.shape 15 14 ≠ 0 ∧ 8 ≤ others.length)

/-- R365: a region is defined, or removed by SHAPE 00. -/
def execPartStitch (h : HostHdr) (f : StitchF) (s : State) : Out :=
  hostCmd h 0x06 s fun s =>
    match Tbl.find s.parts f.part with
    | none => s.reject h 0xD0 (some 0)
    | some p =>
      if 4 ≤ f.die then s.reject h 0x11 (some 1)
      else if s.regionBad f p then s.reject h 0xE5
      else
        let rest := p.regions.filter fun r => !(r.1 == f.die && r.2.1 == f.bitmap)
        let regions := if shapeField f.shape 15 14 = 0 then rest else rest ++ [(f.die, f.bitmap, f.shape)]
        ({ s with parts := Tbl.put s.parts f.part { p with regions := regions } } : State).reply h 0 []

/-! ## Quanta and budgets (R281, R367, R368) -/

/-- The capacity of a port per window. -/
def portCapacity (port : Nat) : Nat := if port < 384 then 100000 else 125000

/-- The budgets after a QOS_SET: those it names replace the partition's own. -/
def newWeirs (l : List Weir) (f : QosF) : List Weir :=
  let named (w : Weir) : Bool := w.part == f.part && f.budgets.any fun b => b.1 == w.port && b.2.1 == w.cls
  (l.filter fun w => !named w) ++ f.budgets.map fun b => ⟨b.1, f.part, b.2.1, b.2.2, b.2.2⟩

/-- R368, R374. -/
def execQosSet (h : HostHdr) (f : QosF) (s : State) : Out :=
  hostCmd h 0x12 s fun s =>
    match Tbl.find s.parts f.part with
    | none => s.reject h 0xD0 (some 0)
    | some p =>
      let l := newWeirs s.weirs f
      let ports := (f.budgets.map Prod.fst).eraseDups
      if 8 < f.quanta.length then s.reject h 0x11 (some 1)
      else if f.budgets.any (fun b => decide (400 ≤ b.1 ∨ 4 ≤ b.2.1)) ||
          (f.budgets.map fun b => (b.1, b.2.1)).eraseDups.length != f.budgets.length then s.reject h 0x11 (some 2)
      else if ports.any fun q => decide (portCapacity q < ((l.filter fun w => w.port == q).map Weir.budget).sum) then s.reject h 0xE6
      else
        let quanta := if f.quanta = [] then p.quanta else f.quanta
        ({ s with weirs := l, parts := Tbl.put s.parts f.part { p with quanta := quanta } } : State).reply h 0 []

/-! ## Contexts (R155, R161, R369, R374) -/

/-- A context as it is created: the migration registers at their reset values (R161). -/
def Context.create (part : Nat) (f : CtxCreateF) : Context where
  part := part
  asid := f.asid.toNat
  root := some f.root
  sendRing := f.sendRing
  peers := f.peers
  sys := f.sysScope
  pfth := 128
  pfbs := 21
  run := .running
  since := 0
  acks := []
  pstate := 0
  swaps := 0
  rung := none
  abandoned := false
  tier := 0
  pins := []

/-- R374: the context that the header names is made. -/
def execCtxCreate (h : HostHdr) (f : CtxCreateF) (s : State) : Out :=
  hostCmd h 0x07 s fun s =>
    if f.root % 8192 ≠ 0 ∨ ¬s.populated f.root then s.reject h 0x11 (some 1)
    else if 64 < f.peers.length then s.reject h 0x11 (some 3)
    else if (Tbl.find s.ctxs h.ctx).isSome then s.reject h 0xD1
    else if s.ctxs.any fun c => c.2.asid == f.asid.toNat then s.reject h 0xD1 (some 0)
    else ({ s with ctxs := Tbl.put s.ctxs h.ctx (Context.create h.part f) } : State).reply h 0 []

/-- R374. -/
def execCtxDestroy (h : HostHdr) (s : State) : Out :=
  hostCmd h 0x08 s fun s => s.withCtx h fun c =>
    let s := s.killCtx h.ctx none
    (s.onPart c.part fun s => s.forgetCtx h.ctx).reply h 0 []

/-! ## Statistics (R320, R374) -/

/-- What STATS counts: the soft errors and machine checks by cause, the back-pressure of each class, and a counter that no rule
defines (log 15). -/
def State.statBytes (s : State) : List Byte :=
  ((List.range 12).flatMap fun i => leBytes 8 ((Tbl.find s.stats (0x54 + i)).getD 0)) ++
  ((List.range 4).flatMap fun c => leBytes 8 ((Tbl.find s.stats (256 + c)).getD 0)) ++ leBytes 8 (Config.statCounter s.tick).toNat

/-- R374. -/
def execStats (h : HostHdr) (s : State) : Out := hostCmd h 0x18 s fun s => s.reply h 0 s.statBytes

end Sys2Proof.Machine
end

