-- ==== Sys2Proof/Machine/HostWork.lean ====
section
/-! DEFINITION. The commands of a partition's mailbox: memory, gates, graphs, control and models (R190, R191, R246, R289, R298,
R317, R332, R333, R347, R351, R373-R375, R385). -/

namespace Sys2Proof.Machine

/-! ## Page tables (R155-R157, R374) -/

/-- Writes an entry where the tables above it are there, and removes the old translations. -/
def State.writePte (s : State) (ctx : Nat) (p : PteWrite) : Option State :=
  (s.slotOf ctx p.va p.level).map fun pa => (s.writeNat pa 8 p.entry.toNat).shootLevel ctx p.va p.level

/-- R374: the entries are written in order, or none where a table for one is missing. -/
def execMap (h : HostHdr) (l : List PteWrite) (s : State) : Out :=
  hostCmd h 0x09 s fun s => s.withCtx h fun _ =>
    match l.foldlM (fun (s : State) p => s.writePte h.ctx p) s with
    | some t => t.reply h 0 []
    | none => s.reject h 0x11 (some 0)

/-- Clears V in the leaf of an address (R155). -/
def State.unmapOne (s : State) (ctx va : Nat) : Option State :=
  match s.walk ctx va with
  | .leaf level pte e => some ((s.writeLeaves level va pte e (e.place false e.home e.addr)).shootPage ctx va)
  | .bad .. => none

/-- R374: as MAP, with V := 0. -/
def execUnmap (h : HostHdr) (l : List Nat) (s : State) : Out :=
  hostCmd h 0x0A s fun s => s.withCtx h fun _ =>
    match l.foldlM (fun (s : State) va => s.unmapOne h.ctx va) s with
    | some t => t.reply h 0 []
    | none => s.reject h 0x11 (some 0)

/-! ## Bytes (R190, R374) -/

/-- Where the bytes of a page lie, whether or not it is present. -/
def State.frameOf (s : State) (ctx va : Nat) : Option Nat :=
  match s.walk ctx va with
  | .leaf _ _ e => some (e.addr + va % 2 ^ e.log)
  | .bad .. => none

/-- Whether the lines of a range all lie in a page, behind a port that is up. -/
def State.hostReach (s : State) (ctx va n : Nat) : Option Nat :=
  if (linePieces va n).any fun p => (s.frameOf ctx p.1).isNone then some 0x11
  else if (linePieces va n).any fun p => (s.frameOf ctx p.1).any fun pa => !s.reachable pa then some 0x59
  else none

/-- The bytes of a host's write, line by line. -/
def State.hostPut (s : State) (ctx va : Nat) (l : List Byte) : State :=
  (linePieces va l.length).foldl (fun s p => match s.frameOf ctx p.1 with
    | some pa => s.engWrite pa ((l.drop (p.1 - va)).take p.2) 0
    | none => s) s

/-- The bytes of a host's read. -/
def State.hostGet (s : State) (ctx va n : Nat) : List Byte :=
  (linePieces va n).flatMap fun p => match s.frameOf ctx p.1 with
    | some pa => s.readBytes pa p.2
    | none => []

/-- R190, R374: a host's write, performed at once and in order. -/
def execWrite (h : HostHdr) (va : Nat) (bytes : List Byte) (s : State) : Out :=
  hostCmd h 0x0B s fun s => s.withCtx h fun _ =>
    match s.hostReach h.ctx va bytes.length with
    | some c => s.reject h c (some 0)
    | none => (s.hostPut h.ctx va bytes).reply h 0 []

/-- R190, R374: a host's read, after every earlier write of the mailbox. -/
def execRead (h : HostHdr) (va len : Nat) (s : State) : Out :=
  hostCmd h 0x0C s fun s => s.withCtx h fun _ =>
    if 65504 < len then s.reject h 0x11 (some 1)
    else match s.hostReach h.ctx va len with
      | some c => s.reject h c (some 0)
      | none => s.reply h 0 (s.hostGet h.ctx va len)

/-! ## Gates (R332, R333) -/

/-- What R333 rejects of an entry. -/
def State.gateBad (s : State) (part : Nat) (g : BitVec 512) : Bool :=
  let f := gfield g
  f 506 505 != 0 || f 448 448 != 0 || f 223 220 != 0 || f 167 0 != 0 || decide (1 < f 508 507) ||
  f 447 392 % 8 != 0 || f 391 336 % 8 != 0 || f 335 280 % 32 != 0 || f 279 224 % 16384 != 0 ||
  decide (f 487 481 = 0 ∨ 120 < f 487 481) || decide (16 < f 480 476 ∨ 8 * f 487 481 < f 480 476) ||
  decide (16 < f 475 471 ∨ 8 * f 487 481 < f 475 471) || decide (32 < f 470 465) || f 464 449 == 0 ||
  (Tbl.find s.ctxs (f 499 488)).all fun c => c.part != part

/-- The entry with PART set to a partition. -/
def gateOwned (g : BitVec 512) (part : Nat) : BitVec 512 :=
  (g &&& ~~~(0x1F#512 <<< 500)) ||| (BitVec.ofNat 512 (part % 32) <<< 500)

/-- R333. -/
def execGateInstall (h : HostHdr) (idx : BitVec 10) (image : BitVec 512) (s : State) : Out :=
  hostCmd h 0x0D s fun s =>
    if s.gateBad h.part image then s.reject h 0xC0
    else ({ s with gates := Tbl.put s.gates idx.toNat (gateOwned image h.part) } : State).reply h 0 []

/-! ## Graphs (R296, R298) -/

/-- Brings a page in for the mailbox engine, which waits for it. -/
def State.bringIn (s : State) (ctx va : Nat) : State :=
  match s.walk ctx va with
  | .bad .. => s
  | .leaf _ _ e =>
    match s.beginMove 0 ctx (va / 2 ^ e.log * 2 ^ e.log) [] with
    | (t, some p, _, _) => t.endMove ctx p
    | _ => s

/-- Does something in the memory of a context, once the pages that it needs are there. -/
def State.withPages (s : State) (ctx : Nat) (k : State → Except GErr State) : Nat → Except Trap State
  | 0 => .error { cause := 0x4E }
  | n + 1 =>
    match k s with
    | .ok t => .ok t
    | .error (.trap t) => .error t
    | .error (.page va) => (s.bringIn ctx va).withPages ctx k n

/-- The pages of the largest graph, and a few more. -/
def pageFuel : Nat := 64

/-- A command on a graph or a ring: it is answered, or rejected with the cause that an instruction would raise. -/
def State.workCmd (s : State) (h : HostHdr) (k : State → Except GErr State) : State :=
  match s.withPages h.ctx k pageFuel with
  | .ok t => t.reply h 0 []
  | .error t => s.reject h t.cause

/-- The predecessor that a graph is started with, which may have completed (R292, R373). -/
def State.submitPred (s : State) (part : Nat) : Option Nat → Option (Option Nat)
  | none => some none
  | some i =>
    match Tbl.find s.launches i with
    | none => none
    | some l => if s.partOf l.ctx ≠ part then none else some (some i)

/-- The die whose graph engine and launch queues serve what a partition's host submits: the lowest that it holds (R280, log 67). -/
def State.homeDie (s : State) (part : Nat) : Nat :=
  ((Tbl.find s.parts part).bind fun p => (p.clusters.filter fun c => c.2 != 0).map Prod.fst |>.min?).getD 0

/-- R298, R374: as `gfire` with S = 1. -/
def execGraphSubmit (h : HostHdr) (f : SubmitF) (s : State) : Out :=
  hostCmd h 0x0E s fun s => s.withCtx h fun c =>
    match s.submitPred h.part f.pred with
    | none => s.reject h 0xD0 (some 2)
    | some pred => if c.run = .killed then s.reject h 0xD0 else s.workCmd h fun s => s.startGraph h.ctx f.graph (s.homeDie h.part) f.arg pred

/-- R296, R374: the graph record. -/
def execGraphStatus (h : HostHdr) (graph : Nat) (s : State) : Out :=
  hostCmd h 0x0F s fun s => s.withCtx h fun _ =>
    match s.withPages h.ctx (fun s => match s.recFault h.ctx graph 128 .read with
      | some e => .error e
      | none => .ok s) pageFuel with
    | .ok t => if (t.rec_ h.ctx graph).getLsbD 1023 then t.reply h 0 (t.vread h.ctx graph 128) else s.reject h 0xD0 (some 0)
    | .error _ => s.reject h 0xD0 (some 0)

/-- R289, R298, R374: a token, or the closing of a ring. -/
def execSignal (h : HostHdr) (f : SignalF) (s : State) : Out :=
  hostCmd h 0x10 s fun s => s.withCtx h fun c =>
    if c.run = .killed then s.reject h 0xD0
    else match f with
      | .token va => s.workCmd h fun s => s.outsideToken h.ctx va (s.homeDie h.part)
      | .close va => s.workCmd h fun s => match s.ringCheck h.ctx va with
        | .ok b => .ok (s.putRing h.ctx va b.close)
        | .error e => .error e

/-! ## Waiting (R374) -/

/-- R374: a WAIT stands until its condition holds, or its timeout passes. -/
def execWait (h : HostHdr) (f : WaitF) (s : State) : Out :=
  hostCmd h 0x11 s fun s => s.withCtx h fun _ =>
    let (n, s) := s.fresh
    { s with waits := Tbl.put s.waits n ⟨h, h.ctx, f.cond, s.time, f.timeout⟩ }

/-- Whether the condition of a WAIT holds: a graph has ended, or a word differs from a value. -/
def State.waitHolds (s : State) (ctx : Nat) : WaitFor → Bool
  | .graph va => (s.rangeFault ctx va 128 .read).isNone && decide (2 ≤ gGst (s.rec_ ctx va))
  | .word va v => (s.rangeFault ctx va 4 .read).isNone && s.vreadNat ctx va 4 != v.toNat

/-- R374: a WAIT is answered: by 0 when its condition holds, by 1 after its timeout in microseconds. -/
def execWaitTimeout (wait : Nat) (s : State) : Out :=
  .next (
    match Tbl.find s.waits wait with
    | none => s
    | some w =>
      let gone : State := { s with waits := Tbl.del s.waits wait }
      if s.waitHolds w.ctx w.cond then gone.reply w.hdr 0 (leBytes 8 0)
      else if w.since + 700 * w.timeout ≤ s.time then gone.reply w.hdr 0 (leBytes 8 1)
      else s)

/-! ## Control (R191, R317, R347, R351, R352, R374) -/

/-- R347, R351, R374: the context stops, or with a second partition every context of this one; the answer follows when it has
stopped, or the swap is done. -/
def execPreempt (h : HostHdr) (swapIn : Option Nat) (s : State) : Out :=
  hostCmd h 0x13 s fun s => s.withCtx h fun c =>
    match swapIn with
    | none =>
      if c.run = .stopped ∨ c.run = .killed then s.reply h 0 []
      else { (s.requestStop h.ctx) with held := s.held ++ [⟨h, h.ctx, h.part, none⟩] }
    | some i =>
      if (Tbl.find s.parts i).isNone then s.reject h 0xD0 (some 0)
      else if (Tbl.find s.parts h.part).any fun p => p.run != .resident then s.reject h 0xD1
      else
        let s := (s.ctxsOf h.part).foldl State.requestStop s
        { s with held := s.held ++ [⟨h, h.ctx, h.part, swapIn⟩] }

/-- R317, R352, R374: a stopped context goes on. One whose partition is swapped out comes back first, if its clusters are free. -/
def execResume (h : HostHdr) (s : State) : Out :=
  hostCmd h 0x14 s fun s => s.withCtx h fun c =>
    match c.run, Tbl.find s.parts h.part with
    | .stopped, some p =>
      if p.run ≠ .out then (s.resumeCtx h.ctx).reply h 0 []
      else if !s.clustersFree h.part p none then s.reject h 0xD2
      else ((s.swapIn h.part p).resumeCtx h.ctx).reply h 0 []
    | _, _ => s.reject h 0xD1

/-- R191, R374: the context is killed; the answer tells of waits that were abandoned. -/
def execKill (h : HostHdr) (s : State) : Out :=
  hostCmd h 0x15 s fun s => s.withCtx h fun _ =>
    let s := s.killCtx h.ctx none
    s.reply h 0 (if (Tbl.find s.ctxs h.ctx).any Context.abandoned then leBytes 8 0x51 else leBytes 8 0)

/-- R152, R374: the tier used when a record's TIER is 00, and the pages pinned to tier 1. -/
def execTierPolicy (h : HostHdr) (f : TierF) (s : State) : Out :=
  hostCmd h 0x16 s fun s => s.withCtx h fun _ =>
    if 3 ≤ f.tier then s.reject h 0x11 (some 0)
    else (s.updCtx h.ctx fun c => { c with tier := f.tier, pins := f.pin }).reply h 0 []

/-! ## Models (R246) -/

/-- A record that no model can have: a reserved bit, DH or SFMT 11, L or H of 0, H above 64. -/
def modelBad (r : BitVec 1024) : Bool :=
  let f (hi lo : Nat) : Nat := (r.extractLsb' lo (hi + 1 - lo)).toNat
  f 1022 1008 != 0 || f 971 968 != 0 || f 519 512 != 0 || f 415 0 != 0 || f 975 974 == 3 || f 973 972 == 3 ||
  f 991 984 == 0 || f 983 976 == 0 || decide (64 < f 983 976)

/-- The fields of a record that an update may change: DVER, FREQ, TPRB and TREP. -/
def modelFixed (r : BitVec 1024) : BitVec 1024 :=
  r &&& ~~~((BitVec.ofNat 1024 (2 ^ 16 - 1) <<< 992) ||| (BitVec.ofNat 1024 (2 ^ 168 - 1) <<< 520))

/-- A model is installed with an empty store, and its areas are mapped: none where no frame is left for them. -/
def State.installModel (s : State) (die ctx slot : Nat) (r : BitVec 1024) : Option State :=
  let m : Mdl := ⟨ctx * 16 + slot, ctx, r⟩
  (m.areas.foldlM (fun (s : State) a => s.mapArea die ctx a.1 a.2.1 a.2.2) s).map fun s =>
    let s := (s.clearArea ctx m.nodes (128 * m.nnode)).clearArea ctx m.seqt (16 * 65536)
    { s with models := Tbl.put s.models m.key ⟨r, [], [], [], []⟩ }

/-- A model is uninstalled: its jobs are cancelled as by `rpcancel`, and the areas go once its commands are over. -/
def State.uninstallModel (s : State) (key : Nat) : State :=
  let s := s.jobs.foldl (fun s p => if p.2.live && p.2.model == key then s.cancelJob (jobHandle p.1 p.2.gen) else s) s
  (s.retireModel key).tidyModels

/-- R246, R374. -/
def execRepairModel (h : HostHdr) (f : ModelF) (s : State) : Out :=
  hostCmd h 0x17 s fun s => s.withCtx h fun _ =>
    let key := h.ctx * 16 + f.slot.val
    match Tbl.find s.models key, f.rcd.getLsbD 1023 with
    | some m, true =>
      if modelBad f.rcd then s.reject h 0x11 (some 1)
      else if modelFixed f.rcd != modelFixed m.rcd then s.reject h 0xD1 (some 1)
      else ({ s with models := Tbl.put s.models key { m with rcd := f.rcd } } : State).reply h 0 []
    | some _, false => (s.uninstallModel key).reply h 0 []
    | none, true =>
      if modelBad f.rcd then s.reject h 0x11 (some 1)
      else match s.installModel (s.homeDie h.part) h.ctx f.slot.val f.rcd with
        | some s => s.reply h 0 []
        | none => s.reject h 0xD2
    | none, false => s.reject h 0xD0 (some 0)

end Sys2Proof.Machine
end

