-- ==== Sys2Proof/Machine/Integer.lean ====
section
/-! DEFINITION. The integer instructions of class 0 (R43-R59). -/

namespace Sys2Proof.Machine

/-- An integer instruction of short latency: `g` is the result of a lane (R43-R48). -/
def intOp (s : State) (srcs : List (Opnd × Nat)) (d : Opnd) (n : Nat) (g : Ready → Nat → IRes) (masked : Bool := false) : Out :=
  issue s fun x =>
    match beginOp s x { srcs := srcs, dst := some (d, n), masked := masked } with
    | .halt s => s
    | .go r =>
      completeInt r (maskWhere r.em fun l => (g r l).dz) (maskWhere r.em fun l => (g r l).ov) fun bits =>
        r.finish r.em (fun l => wordsOf n (g r l).val) bits

/-- A long-latency integer instruction (R34, R52). -/
def intLong (s : State) (la : BitVec 4) (srcs : List (Opnd × Nat)) (d : Opnd) (n : Nat) (g : Ready → Nat → IRes) : Out :=
  issue s fun x =>
    match beginOp s x { srcs := srcs, dst := some (d, n) } with
    | .halt s => s
    | .go r =>
      completeInt r (maskWhere r.em fun l => (g r l).dz) (maskWhere r.em fun l => (g r l).ov) fun bits =>
        r.launch la.toNat r.em (fun l => wordsOf n (g r l).val) bits

/-- R50. -/
def execAdd (f : BinS) (s : State) : Out :=
  intOp s [(f.a, tyWords f.ty), (f.b, tyWords f.ty)] f.d (tyWords f.ty) fun r l => iadd f.ty f.sat (r.val 0 l) (r.val 1 l)

/-- R50. -/
def execSub (f : BinS) (s : State) : Out :=
  intOp s [(f.a, tyWords f.ty), (f.b, tyWords f.ty)] f.d (tyWords f.ty) fun r l => isub f.ty f.sat (r.val 0 l) (r.val 1 l)

/-- R50. -/
def execMul (f : BinS) (s : State) : Out :=
  intOp s [(f.a, tyWords f.ty), (f.b, tyWords f.ty)] f.d (tyWords f.ty) fun r l => imul f.ty f.sat (r.val 0 l) (r.val 1 l)

/-- R50, R51. -/
def execMulhi (f : Bin) (s : State) : Out :=
  intOp s [(f.a, tyWords f.ty), (f.b, tyWords f.ty)] f.d (tyWords f.ty) fun r l => imulhi f.ty (r.val 0 l) (r.val 1 l)

/-- R50, R51. -/
def execMad (f : TerS) (s : State) : Out :=
  intOp s [(f.a, tyWords f.ty), (f.b, tyWords f.ty), (f.c, tyWords f.ty)] f.d (tyWords f.ty) fun r l =>
    imad f.ty f.sat (r.val 0 l) (r.val 1 l) (r.val 2 l)

/-- R52. -/
def execDiv (f : DivF) (s : State) : Out :=
  intLong s f.la [(f.a, tyWords f.ty), (f.b, tyWords f.ty)] f.d (tyWords f.ty) fun r l => idiv f.ty (r.val 0 l) (r.val 1 l)

/-- R52. -/
def execRem (f : DivF) (s : State) : Out :=
  intLong s f.la [(f.a, tyWords f.ty), (f.b, tyWords f.ty)] f.d (tyWords f.ty) fun r l => irem f.ty (r.val 0 l) (r.val 1 l)

/-- R50. -/
def execMin (f : Bin) (s : State) : Out :=
  intOp s [(f.a, tyWords f.ty), (f.b, tyWords f.ty)] f.d (tyWords f.ty) fun r l => iminOf f.ty (r.val 0 l) (r.val 1 l)

/-- R50. -/
def execMax (f : Bin) (s : State) : Out :=
  intOp s [(f.a, tyWords f.ty), (f.b, tyWords f.ty)] f.d (tyWords f.ty) fun r l => imaxOf f.ty (r.val 0 l) (r.val 1 l)

/-- R50. -/
def execAbs (f : UnS) (s : State) : Out :=
  intOp s [(f.a, tyWords f.ty)] f.d (tyWords f.ty) fun r l => iabs f.ty f.sat (r.val 0 l)

/-- R50. -/
def execNeg (f : UnS) (s : State) : Out :=
  intOp s [(f.a, tyWords f.ty)] f.d (tyWords f.ty) fun r l => ineg f.ty f.sat (r.val 0 l)

/-- The carry or borrow bit of a lane on entry, as a number (R53). -/
def carryIn (x : Who) (m : MReg) (l : Nat) : Nat := if (x.d.mask m).getLsbD l then 1 else 0

/-- R53: a result and a bit written back to the mask. -/
def carryOp (f : CarryF) (g : Nat → Nat → Nat → Nat × Bool) (s : State) : Out :=
  issue s fun x =>
    match beginOp s x { srcs := [(f.a, tyWords f.ty), (f.b, tyWords f.ty)], dst := some (f.d, tyWords f.ty), masked := true } with
    | .halt s => s
    | .go r =>
      let res (l : Nat) : Nat × Bool := g (r.val 0 l) (r.val 1 l) (carryIn x f.m l)
      let s := r.finish r.em (fun l => wordsOf (tyWords f.ty) (res l).1)
      s.setMaskBits x r.em f.m (maskWhere r.em fun l => (res l).2)

/-- R53. -/
def execAddcy (f : CarryF) (s : State) : Out :=
  carryOp f (iaddcy f.ty) s

/-- R53. -/
def execSubbw (f : CarryF) (s : State) : Out :=
  carryOp f (isubbw f.ty) s

/-- R50, R45. -/
def execShl (f : Bin) (s : State) : Out :=
  intOp s [(f.a, tyWords f.ty), (f.b, 1)] f.d (tyWords f.ty) fun r l => ishl f.ty (r.val 0 l) (r.val 1 l)

/-- R50, R45. -/
def execShr (f : Bin) (s : State) : Out :=
  intOp s [(f.a, tyWords f.ty), (f.b, 1)] f.d (tyWords f.ty) fun r l => ishr f.ty (r.val 0 l) (r.val 1 l)

/-- R50, R45. -/
def execRot (f : Bin) (s : State) : Out :=
  intOp s [(f.a, tyWords f.ty), (f.b, 1)] f.d (tyWords f.ty) fun r l => irot f.ty (r.val 0 l) (r.val 1 l)

/-- R54. -/
def execBfx (f : Bin) (s : State) : Out :=
  intOp s [(f.a, tyWords f.ty), (f.b, 1)] f.d (tyWords f.ty) fun r l => ibfx f.ty (r.val 0 l) (r.val 1 l)

/-- R50. -/
def execAnd (f : Bin) (s : State) : Out :=
  intOp s [(f.a, tyWords f.ty), (f.b, tyWords f.ty)] f.d (tyWords f.ty) fun r l => iand (r.val 0 l) (r.val 1 l)

/-- R50. -/
def execOr (f : Bin) (s : State) : Out :=
  intOp s [(f.a, tyWords f.ty), (f.b, tyWords f.ty)] f.d (tyWords f.ty) fun r l => ior (r.val 0 l) (r.val 1 l)

/-- R50. -/
def execXor (f : Bin) (s : State) : Out :=
  intOp s [(f.a, tyWords f.ty), (f.b, tyWords f.ty)] f.d (tyWords f.ty) fun r l => ixor (r.val 0 l) (r.val 1 l)

/-- R50. -/
def execAndn (f : Bin) (s : State) : Out :=
  intOp s [(f.a, tyWords f.ty), (f.b, tyWords f.ty)] f.d (tyWords f.ty) fun r l => iandn f.ty (r.val 0 l) (r.val 1 l)

/-- R50. -/
def execNot (f : Un) (s : State) : Out :=
  intOp s [(f.a, tyWords f.ty)] f.d (tyWords f.ty) fun r l => inot f.ty (r.val 0 l)

/-- R50. -/
def execPopc (f : Un) (s : State) : Out :=
  intOp s [(f.a, tyWords f.ty)] f.d (tyWords f.ty) fun r l => ipopc f.ty (r.val 0 l)

/-- R50. -/
def execClz (f : Un) (s : State) : Out :=
  intOp s [(f.a, tyWords f.ty)] f.d (tyWords f.ty) fun r l => iclz f.ty (r.val 0 l)

/-- R50. -/
def execBrev (f : Un) (s : State) : Out :=
  intOp s [(f.a, tyWords f.ty)] f.d (tyWords f.ty) fun r l => ibrev f.ty (r.val 0 l)

/-- R54. -/
def execBfi (f : Ter) (s : State) : Out :=
  intOp s [(f.a, tyWords f.ty), (f.b, 1), (f.c, tyWords f.ty)] f.d (tyWords f.ty) fun r l =>
    ibfi f.ty (r.val 0 l) (r.val 1 l) (r.val 2 l)

/-- R55. -/
def execLut3 (f : LutF) (s : State) : Out :=
  intOp s [(f.a, tyWords f.ty), (f.b, tyWords f.ty), (f.c, tyWords f.ty)] f.d (tyWords f.ty) fun r l =>
    ilut3 f.ty f.tbl (r.val 0 l) (r.val 1 l) (r.val 2 l)

/-- R56. -/
def execCmp (f : CmpF) (s : State) : Out :=
  issue s fun x =>
    match beginOp s x { srcs := [(f.a, tyWords f.ty), (f.b, tyWords f.ty)] } with
    | .halt s => s
    | .go r => r.finishMask f.m (maskWhere r.em fun l => icmp f.ty f.cond (r.val 0 l) (r.val 1 l))

/-- R50: A where the lane's bit of the mask is 1, else B. -/
def execSel (f : CarryF) (s : State) : Out :=
  intOp s [(f.a, tyWords f.ty), (f.b, tyWords f.ty)] f.d (tyWords f.ty)
    (fun r l => ⟨if (r.x.d.mask f.m).getLsbD l then r.val 0 l else r.val 1 l, false, false⟩) (masked := true)

/-- R50: A, bit for bit. -/
def execMov (f : Un) (s : State) : Out :=
  intOp s [(f.a, tyWords f.ty)] f.d (tyWords f.ty) fun r l => ⟨r.val 0 l, false, false⟩

/-- R57. -/
def execLea (f : LeaF) (s : State) : Out :=
  intOp s [(f.a, 2), (f.b, 1), (f.c, 1)] f.d 2 fun r l => ilea f.ty f.sh.val (r.val 0 l) (r.val 1 l) (r.val 2 l)

/-- R57. -/
def execIdx2 (f : IdxF) (s : State) : Out :=
  intOp s [(f.a, 1), (f.b, 1), (f.c, 1)] f.d 1 fun r l => iidx2 f.lay (r.val 0 l) (r.val 1 l) (r.val 2 l)

/-! ## Immediate forms (R58) -/

/-- R58. -/
def execMovi (f : MoviF) (s : State) : Out :=
  intOp s [] f.d (tyWords f.ty) fun _ _ => ⟨immVal f.ty f.imm, false, false⟩

/-- An immediate form: B := IMM. -/
def immOp (f : ImmF) (g : Nat → Nat → IRes) (s : State) : Out :=
  intOp s [(f.a, tyWords f.ty)] f.d (tyWords f.ty) fun r l => g (r.val 0 l) (immVal f.ty f.imm)

/-- R58. -/
def execAddi (f : ImmF) (s : State) : Out :=
  immOp f (iadd f.ty false) s

/-- R58. -/
def execMuli (f : ImmF) (s : State) : Out :=
  immOp f (imul f.ty false) s

/-- R58. -/
def execAndi (f : ImmF) (s : State) : Out :=
  immOp f (iand) s

/-- R58. -/
def execOri (f : ImmF) (s : State) : Out :=
  immOp f (ior) s

/-- R58. -/
def execXori (f : ImmF) (s : State) : Out :=
  immOp f (ixor) s

/-- R58: the shift amount is IMM as n32. -/
def execShli (f : ImmF) (s : State) : Out :=
  intOp s [(f.a, tyWords f.ty)] f.d (tyWords f.ty) fun r l => ishl f.ty (r.val 0 l) f.imm.toNat

/-- R58: the shift amount is IMM as n32. -/
def execShri (f : ImmF) (s : State) : Out :=
  intOp s [(f.a, tyWords f.ty)] f.d (tyWords f.ty) fun r l => ishr f.ty (r.val 0 l) f.imm.toNat

/-- R59. -/
def execCmpi (f : CmpiF) (s : State) : Out :=
  issue s fun x =>
    match beginOp s x { srcs := [(f.a, tyWords f.ty)] } with
    | .halt s => s
    | .go r => r.finishMask f.m (maskWhere r.em fun l => icmp f.ty f.cond (r.val 0 l) (immCmp f.ty f.imm))

end Sys2Proof.Machine
end

