-- ==== Sys2Proof/Machine/Dispatch.lean ====
section
/-! DEFINITION. The dispatch: one arm per instruction, event and host command. -/

namespace Sys2Proof.Machine

def exec (i : Instr) (s : State) : Host.Outcome State Fault Refusal :=
  match i with
  | .clauseHeader h => Sys2Proof.Machine.execClauseHeader h s
  | .queueWaitWatchdog a => Sys2Proof.Machine.execQueueWaitWatchdog a s
  | .longLatencyCompletion a op early => Sys2Proof.Machine.execLongLatencyCompletion a op early s
  | .add f => Sys2Proof.Machine.execAdd f s
  | .sub f => Sys2Proof.Machine.execSub f s
  | .mul f => Sys2Proof.Machine.execMul f s
  | .mulhi f => Sys2Proof.Machine.execMulhi f s
  | .mad f => Sys2Proof.Machine.execMad f s
  | .div f => Sys2Proof.Machine.execDiv f s
  | .rem f => Sys2Proof.Machine.execRem f s
  | .min f => Sys2Proof.Machine.execMin f s
  | .max f => Sys2Proof.Machine.execMax f s
  | .abs f => Sys2Proof.Machine.execAbs f s
  | .neg f => Sys2Proof.Machine.execNeg f s
  | .addcy f => Sys2Proof.Machine.execAddcy f s
  | .subbw f => Sys2Proof.Machine.execSubbw f s
  | .shl f => Sys2Proof.Machine.execShl f s
  | .shr f => Sys2Proof.Machine.execShr f s
  | .rot f => Sys2Proof.Machine.execRot f s
  | .and f => Sys2Proof.Machine.execAnd f s
  | .or f => Sys2Proof.Machine.execOr f s
  | .xor f => Sys2Proof.Machine.execXor f s
  | .not f => Sys2Proof.Machine.execNot f s
  | .andn f => Sys2Proof.Machine.execAndn f s
  | .bfx f => Sys2Proof.Machine.execBfx f s
  | .bfi f => Sys2Proof.Machine.execBfi f s
  | .popc f => Sys2Proof.Machine.execPopc f s
  | .clz f => Sys2Proof.Machine.execClz f s
  | .brev f => Sys2Proof.Machine.execBrev f s
  | .lut3 f => Sys2Proof.Machine.execLut3 f s
  | .cmp f => Sys2Proof.Machine.execCmp f s
  | .sel f => Sys2Proof.Machine.execSel f s
  | .mov f => Sys2Proof.Machine.execMov f s
  | .lea f => Sys2Proof.Machine.execLea f s
  | .idx2 f => Sys2Proof.Machine.execIdx2 f s
  | .movi f => Sys2Proof.Machine.execMovi f s
  | .addi f => Sys2Proof.Machine.execAddi f s
  | .muli f => Sys2Proof.Machine.execMuli f s
  | .andi f => Sys2Proof.Machine.execAndi f s
  | .ori f => Sys2Proof.Machine.execOri f s
  | .xori f => Sys2Proof.Machine.execXori f s
  | .shli f => Sys2Proof.Machine.execShli f s
  | .shri f => Sys2Proof.Machine.execShri f s
  | .cmpi f => Sys2Proof.Machine.execCmpi f s
  | .fadd f => Sys2Proof.Machine.execFadd f s
  | .fsub f => Sys2Proof.Machine.execFsub f s
  | .fmul f => Sys2Proof.Machine.execFmul f s
  | .fma f => Sys2Proof.Machine.execFma f s
  | .fmin f => Sys2Proof.Machine.execFmin f s
  | .fmax f => Sys2Proof.Machine.execFmax f s
  | .fminn f => Sys2Proof.Machine.execFminn f s
  | .fmaxn f => Sys2Proof.Machine.execFmaxn f s
  | .fcmp f => Sys2Proof.Machine.execFcmp f s
  | .fclass f => Sys2Proof.Machine.execFclass f s
  | .frnd f => Sys2Proof.Machine.execFrnd f s
  | .fdot2 f => Sys2Proof.Machine.execFdot2 f s
  | .rcp f => Sys2Proof.Machine.execRcp f s
  | .rsqrt f => Sys2Proof.Machine.execRsqrt f s
  | .sqrt f => Sys2Proof.Machine.execSqrt f s
  | .exp2 f => Sys2Proof.Machine.execExp2 f s
  | .log2 f => Sys2Proof.Machine.execLog2 f s
  | .sin f => Sys2Proof.Machine.execSin f s
  | .cos f => Sys2Proof.Machine.execCos f s
  | .tanh f => Sys2Proof.Machine.execTanh f s
  | .fdiv f => Sys2Proof.Machine.execFdiv f s
  | .cvt f => Sys2Proof.Machine.execCvt f s
  | .cvtpk f => Sys2Proof.Machine.execCvtpk f s
  | .unpk f => Sys2Proof.Machine.execUnpk f s
  | .rng f => Sys2Proof.Machine.execRng f s
  | .smxStep f => Sys2Proof.Machine.execSmxStep f s
  | .smxMerge f => Sys2Proof.Machine.execSmxMerge f s
  | .smxNorm f => Sys2Proof.Machine.execSmxNorm f s
  | .rope f => Sys2Proof.Machine.execRope f s
  | .dpmul f => Sys2Proof.Machine.execDpmul f s
  | .mand f => Sys2Proof.Machine.execMand f s
  | .mor f => Sys2Proof.Machine.execMor f s
  | .mxor f => Sys2Proof.Machine.execMxor f s
  | .mnot f => Sys2Proof.Machine.execMnot f s
  | .mpop f => Sys2Proof.Machine.execMpop f s
  | .mffs f => Sys2Proof.Machine.execMffs f s
  | .emget d => Sys2Proof.Machine.execEmget d s
  | .emset a => Sys2Proof.Machine.execEmset a s
  | .vote f => Sys2Proof.Machine.execVote f s
  | .shfl f => Sys2Proof.Machine.execShfl f s
  | .bcast f => Sys2Proof.Machine.execBcast f s
  | .scan f => Sys2Proof.Machine.execScan f s
  | .redux f => Sys2Proof.Machine.execRedux f s
  | .csamp f => Sys2Proof.Machine.execCsamp f s
  | .matchx f => Sys2Proof.Machine.execMatchx f s
  | .plpk f => Sys2Proof.Machine.execPlpk f s
  | .plunpk f => Sys2Proof.Machine.execPlunpk f s
  | .xch f => Sys2Proof.Machine.execXch f s
  | .xchDeadline warp => Sys2Proof.Machine.execXchDeadline warp s
  | .bar k => Sys2Proof.Machine.execBar k s
  | .barrierRelease warp k => Sys2Proof.Machine.execBarrierRelease warp k s
  | .barrierTimeout a => Sys2Proof.Machine.execBarrierTimeout a s
  | .ld f => Sys2Proof.Machine.execLd f s
  | .st f => Sys2Proof.Machine.execSt f s
  | .lds f => Sys2Proof.Machine.execLds f s
  | .sts f => Sys2Proof.Machine.execSts f s
  | .atom f => Sys2Proof.Machine.execAtom f s
  | .cas f => Sys2Proof.Machine.execCas f s
  | .waita f => Sys2Proof.Machine.execWaita f s
  | .waitaTimeout a => Sys2Proof.Machine.execWaitaTimeout a s
  | .fence f => Sys2Proof.Machine.execFence f s
  | .pfch f => Sys2Proof.Machine.execPfch f s
  | .brld f => Sys2Proof.Machine.execBrld f s
  | .brmk f => Sys2Proof.Machine.execBrmk f s
  | .memoryAccessPerformed acc order => Sys2Proof.Machine.execMemoryAccessPerformed acc order s
  | .storeAcknowledged acc => Sys2Proof.Machine.execStoreAcknowledged acc s
  | .pageWalk walk => Sys2Proof.Machine.execPageWalk walk s
  | .walkTimeout walk => Sys2Proof.Machine.execWalkTimeout walk s
  | .migration die frames => Sys2Proof.Machine.execMigration die frames s
  | .migrationComplete mig => Sys2Proof.Machine.execMigrationComplete mig s
  | .ldx f => Sys2Proof.Machine.execLdx f s
  | .stx f => Sys2Proof.Machine.execStx f s
  | .wexp f => Sys2Proof.Machine.execWexp f s
  | .wrev f => Sys2Proof.Machine.execWrev f s
  | .wrd f => Sys2Proof.Machine.execWrd f s
  | .wwr f => Sys2Proof.Machine.execWwr f s
  | .windowRequest req => Sys2Proof.Machine.execWindowRequest req s
  | .wgrant f => Sys2Proof.Machine.execWgrant f s
  | .talloc f => Sys2Proof.Machine.execTalloc f s
  | .tfree f => Sys2Proof.Machine.execTfree f s
  | .give f => Sys2Proof.Machine.execGive f s
  | .take f => Sys2Proof.Machine.execTake f s
  | .waitg f => Sys2Proof.Machine.execWaitg f s
  | .syncset f => Sys2Proof.Machine.execSyncset f s
  | .rrot f => Sys2Proof.Machine.execRrot f s
  | .rrotDeadline crew => Sys2Proof.Machine.execRrotDeadline crew s
  | .rrotCompletion crew => Sys2Proof.Machine.execRrotCompletion crew s
  | .gstat f => Sys2Proof.Machine.execGstat f s
  | .fmask d => Sys2Proof.Machine.execFmask d s
  | .tget f => Sys2Proof.Machine.execTget f s
  | .tset f => Sys2Proof.Machine.execTset f s
  | .qstat f => Sys2Proof.Machine.execQstat f s
  | .qmark q => Sys2Proof.Machine.execQmark q s
  | .copy h f => Sys2Proof.Machine.execCopy h f s
  | .copymc h f => Sys2Proof.Machine.execCopymc h f s
  | .gath h f => Sys2Proof.Machine.execGath h f s
  | .scata h f => Sys2Proof.Machine.execScata h f s
  | .mma h f => Sys2Proof.Machine.execMma h f s
  | .tfill h f => Sys2Proof.Machine.execTfill h f s
  | .eseq h f => Sys2Proof.Machine.execEseq h f s
  | .engineQueueAccept a => Sys2Proof.Machine.execEngineQueueAccept a s
  | .engineLanding cmd => Sys2Proof.Machine.execEngineLanding cmd s
  | .engineCommandEnd cmd => Sys2Proof.Machine.execEngineCommandEnd cmd s
  | .engineCommandFail cmd => Sys2Proof.Machine.execEngineCommandFail cmd s
  | .windowCopyCheck cmd target => Sys2Proof.Machine.execWindowCopyCheck cmd target s
  | .bankPartialArrival cmd bag port => Sys2Proof.Machine.execBankPartialArrival cmd bag port s
  | .mmaKgroup core => Sys2Proof.Machine.execMmaKgroup core s
  | .mmaStart cmd => Sys2Proof.Machine.execMmaStart cmd s
  | .kvw h f => Sys2Proof.Machine.execKvw h f s
  | .kvld h f => Sys2Proof.Machine.execKvld h f s
  | .kvst h f => Sys2Proof.Machine.execKvst h f s
  | .kvfork h f => Sys2Proof.Machine.execKvfork h f s
  | .splice h f => Sys2Proof.Machine.execSplice h f s
  | .rpopen h f => Sys2Proof.Machine.execRpopen h f s
  | .repairJobStart cmd => Sys2Proof.Machine.execRepairJobStart cmd s
  | .repairGraphEnd die slot => Sys2Proof.Machine.execRepairGraphEnd die slot s
  | .rpstat h f => Sys2Proof.Machine.execRpstat h f s
  | .rpcancel h f => Sys2Proof.Machine.execRpcancel h f s
  | .kvfree h f => Sys2Proof.Machine.execKvfree h f s
  | .launch f => Sys2Proof.Machine.execLaunch f s
  | .launchWaitTimeout a => Sys2Proof.Machine.execLaunchWaitTimeout a s
  | .wdask f => Sys2Proof.Machine.execWdask f s
  | .workDistributorAnswer die => Sys2Proof.Machine.execWorkDistributorAnswer die s
  | .ringAcq f => Sys2Proof.Machine.execRingAcq f s
  | .ringCmt f => Sys2Proof.Machine.execRingCmt f s
  | .ringPeek f => Sys2Proof.Machine.execRingPeek f s
  | .ringRel f => Sys2Proof.Machine.execRingRel f s
  | .ringWaitSatisfied a => Sys2Proof.Machine.execRingWaitSatisfied a s
  | .pipelineReassign launch stage => Sys2Proof.Machine.execPipelineReassign launch stage s
  | .gfire f => Sys2Proof.Machine.execGfire f s
  | .gnode f => Sys2Proof.Machine.execGnode f s
  | .gcancel f => Sys2Proof.Machine.execGcancel f s
  | .hnext => Sys2Proof.Machine.execHnext s
  | .waitpred => Sys2Proof.Machine.execWaitpred s
  | .yield => Sys2Proof.Machine.execYield s
  | .prio a => Sys2Proof.Machine.execPrio a s
  | .graphNodeEnd work => Sys2Proof.Machine.execGraphNodeEnd work s
  | .graphCancelWalkStep walk => Sys2Proof.Machine.execGraphCancelWalkStep walk s
  | .arbiterRun die => Sys2Proof.Machine.execArbiterRun die s
  | .crewEnd crew => Sys2Proof.Machine.execCrewEnd crew s
  | .frontEndStallWatchdog crew => Sys2Proof.Machine.execFrontEndStallWatchdog crew s
  | .aadd f => Sys2Proof.Machine.execAadd f s
  | .asub f => Sys2Proof.Machine.execAsub f s
  | .amul f => Sys2Proof.Machine.execAmul f s
  | .ashl f => Sys2Proof.Machine.execAshl f s
  | .ashr f => Sys2Proof.Machine.execAshr f s
  | .aand f => Sys2Proof.Machine.execAand f s
  | .aor f => Sys2Proof.Machine.execAor f s
  | .axor f => Sys2Proof.Machine.execAxor f s
  | .acmp f => Sys2Proof.Machine.execAcmp f s
  | .amov f => Sys2Proof.Machine.execAmov f s
  | .amovi f => Sys2Proof.Machine.execAmovi f s
  | .ald f => Sys2Proof.Machine.execAld f s
  | .ast f => Sys2Proof.Machine.execAst f s
  | .apush f => Sys2Proof.Machine.execApush f s
  | .apushm f => Sys2Proof.Machine.execApushm f s
  | .apop f => Sys2Proof.Machine.execApop f s
  | .akvw f => Sys2Proof.Machine.execAkvw f s
  | .aeng f => Sys2Proof.Machine.execAeng f s
  | .await f => Sys2Proof.Machine.execAwait f s
  | .aend => Sys2Proof.Machine.execAend s
  | .trap n => Sys2Proof.Machine.execTrap n s
  | .tret f => Sys2Proof.Machine.execTret f s
  | .tkill m => Sys2Proof.Machine.execTkill m s
  | .csrrd f => Sys2Proof.Machine.execCsrrd f s
  | .csrwr f => Sys2Proof.Machine.execCsrwr f s
  | .tlbinv va => Sys2Proof.Machine.execTlbinv va s
  | .drain f => Sys2Proof.Machine.execDrain f s
  | .gcall g => Sys2Proof.Machine.execGcall g s
  | .gret => Sys2Proof.Machine.execGret s
  | .gateTimeout warp dom => Sys2Proof.Machine.execGateTimeout warp dom s
  | .bra tgt => Sys2Proof.Machine.execBra tgt s
  | .brc f => Sys2Proof.Machine.execBrc f s
  | .brx f => Sys2Proof.Machine.execBrx f s
  | .call tgt => Sys2Proof.Machine.execCall tgt s
  | .callx f => Sys2Proof.Machine.execCallx f s
  | .ret => Sys2Proof.Machine.execRet s
  | .loop f => Sys2Proof.Machine.execLoop f s
  | .endl => Sys2Proof.Machine.execEndl s
  | .handlerTimeout a => Sys2Proof.Machine.execHandlerTimeout a s
  | .noticeAnswerTimeout ctx => Sys2Proof.Machine.execNoticeAnswerTimeout ctx s
  | .contextRungTimeout ctx => Sys2Proof.Machine.execContextRungTimeout ctx s
  | .partitionResetTimeout part => Sys2Proof.Machine.execPartitionResetTimeout part s
  | .registerSoftError core addr => Sys2Proof.Machine.execRegisterSoftError core addr s
  | .instructionStoreSoftError die clus => Sys2Proof.Machine.execInstructionStoreSoftError die clus s
  | .memorySoftError line => Sys2Proof.Machine.execMemorySoftError line s
  | .shadowStoreSoftError die ctx => Sys2Proof.Machine.execShadowStoreSoftError die ctx s
  | .tlbSoftError core entry => Sys2Proof.Machine.execTlbSoftError core entry s
  | .portDown port => Sys2Proof.Machine.execPortDown port s
  | .preemptAcknowledge ctx p => Sys2Proof.Machine.execPreemptAcknowledge ctx p s
  | .preemptionTimeout ctx => Sys2Proof.Machine.execPreemptionTimeout ctx s
  | .partitionSwap out inn => Sys2Proof.Machine.execPartitionSwap out inn s
  | .networkRequest ctx => Sys2Proof.Machine.execNetworkRequest ctx s
  | .networkCompletion req cause data => Sys2Proof.Machine.execNetworkCompletion req cause data s
  | .peerRequestReceived r => Sys2Proof.Machine.execPeerRequestReceived r s
  | .illegalOpcode w => Sys2Proof.Machine.execIllegalOpcode w s
  | .waitTimeout wait => Sys2Proof.Machine.execWaitTimeout wait s
  | .hello h sig => Sys2Proof.Machine.execHello h sig s
  | .measure h => Sys2Proof.Machine.execMeasure h s
  | .attest h nonce => Sys2Proof.Machine.execAttest h nonce s
  | .partCreate h f => Sys2Proof.Machine.execPartCreate h f s
  | .partDestroy h part => Sys2Proof.Machine.execPartDestroy h part s
  | .partStitch h f => Sys2Proof.Machine.execPartStitch h f s
  | .ctxCreate h f => Sys2Proof.Machine.execCtxCreate h f s
  | .ctxDestroy h => Sys2Proof.Machine.execCtxDestroy h s
  | .map h l => Sys2Proof.Machine.execMap h l s
  | .unmap h l => Sys2Proof.Machine.execUnmap h l s
  | .write h va bytes => Sys2Proof.Machine.execWrite h va bytes s
  | .read h va len => Sys2Proof.Machine.execRead h va len s
  | .gateInstall h idx image => Sys2Proof.Machine.execGateInstall h idx image s
  | .graphSubmit h f => Sys2Proof.Machine.execGraphSubmit h f s
  | .graphStatus h graph => Sys2Proof.Machine.execGraphStatus h graph s
  | .signal h f => Sys2Proof.Machine.execSignal h f s
  | .wait h f => Sys2Proof.Machine.execWait h f s
  | .qosSet h f => Sys2Proof.Machine.execQosSet h f s
  | .preempt h swapIn => Sys2Proof.Machine.execPreempt h swapIn s
  | .resume h => Sys2Proof.Machine.execResume h s
  | .kill h => Sys2Proof.Machine.execKill h s
  | .tierPolicy h f => Sys2Proof.Machine.execTierPolicy h f s
  | .repairModel h f => Sys2Proof.Machine.execRepairModel h f s
  | .stats h => Sys2Proof.Machine.execStats h s
  | .powerOn => Sys2Proof.Machine.execPowerOn s
  | .dieLinkRetriesExhausted => Sys2Proof.Machine.execDieLinkRetriesExhausted s
  | .thermalStop => Sys2Proof.Machine.execThermalStop s
  | .powerStop => Sys2Proof.Machine.execPowerStop s
  | .clockStop => Sys2Proof.Machine.execClockStop s
  | .firmwareWatchdog => Sys2Proof.Machine.execFirmwareWatchdog s
  | .weirWindow => Sys2Proof.Machine.execWeirWindow s

end Sys2Proof.Machine
end

