-- ==== Sys2Proof/Machine/Sched.lean ====
section
/-! DEFINITION. Whose turn is next: what the agenda names, and the machine's own choice where it names nothing (log 3, log 10). -/

namespace Sys2Proof.Machine

/-- Time goes on (log 4): a cycle and what no rule fixes. -/
def State.passTime (s : State) : State :=
  { s with
    time := s.time + 1 + Config.elapsedCycles s.tick
    rtc := (s.rtc + Config.elapsedNanos s.tick) % 2 ^ 64
    tick := s.tick + 1 }

/-! ## Events that may be due -/

/-- Events of memory, translation and results that may be due. -/
def State.memEvents (s : State) : List Instr :=
  let order := Config.laneOrder s.tick
  (s.accs.map fun p => if p.2.done then Instr.storeAcknowledged p.1 else .memoryAccessPerformed p.1 order) ++
  (s.wreqs.map fun p => Instr.windowRequest p.1) ++
  (s.warps.flatMap fun p => p.2.strands.flatMap fun q =>
    (q.2.pends.filter fun d => d.own && d.ready).map fun d => Instr.longLatencyCompletion (.strand p.1 q.1) d.id []) ++
  (s.walks.flatMap fun p => [Instr.pageWalk p.1, .walkTimeout p.1]) ++
  ((List.range 4).map fun d => Instr.migration d []) ++
  s.migs.map fun p => Instr.migrationComplete p.1

/-- Events of agents that wait. -/
def State.waitEvents (s : State) : List Instr :=
  (s.agents.flatMap fun a =>
    [Instr.queueWaitWatchdog a, .barrierTimeout a, .waitaTimeout a, .handlerTimeout a, .launchWaitTimeout a, .ringWaitSatisfied a,
      .engineQueueAccept a]) ++
  (s.warps.flatMap fun p =>
    [Instr.xchDeadline p.1, .barrierRelease p.1 .crew, .barrierRelease p.1 .braid, .barrierRelease p.1 .span, .barrierRelease p.1 .ss] ++
      (Tbl.keys p.2.doms).map fun d => .gateTimeout p.1 d) ++
  s.crews.flatMap fun p => [Instr.rrotDeadline p.1, .rrotCompletion p.1, .frontEndStallWatchdog p.1, .crewEnd p.1]

/-- Events of engines and of the graph, repair and launch hardware. -/
def State.engineEvents (s : State) : List Instr :=
  (s.cmds.flatMap fun p =>
    [Instr.engineLanding p.1, .engineCommandEnd p.1, .engineCommandFail p.1, .mmaStart p.1, .repairJobStart p.1] ++
      (((List.range p.2.targets.length).map fun t => .windowCopyCheck p.1 t) ++
        p.2.parts.map fun q => .bankPartialArrival p.1 q.bag q.port)) ++
  (s.cores.filterMap fun p => p.2.array.map fun _ => Instr.mmaKgroup p.1) ++
  (s.works.flatMap fun p => [Instr.engineLanding p.1, .graphNodeEnd p.1]) ++
  (s.cwalks.map fun p => Instr.graphCancelWalkStep p.1) ++
  (s.jobs.map fun p => Instr.repairGraphEnd (p.1 / 64) (p.1 % 64)) ++
  ((List.range 4).flatMap fun d => [Instr.workDistributorAnswer d, .arbiterRun d]) ++
  s.launches.flatMap fun p => (List.range p.2.stages.length).map fun i => Instr.pipelineReassign p.1 i

/-- Events of the firmware and of the mailbox and network engines. -/
def State.deviceEvents (s : State) : List Instr :=
  (s.ctxs.flatMap fun p =>
    [Instr.noticeAnswerTimeout p.1, .contextRungTimeout p.1, .preemptionTimeout p.1, .networkRequest p.1] ++
      if p.2.run = .stopping then (s.parties p.1).map fun q => .preemptAcknowledge p.1 q else []) ++
  ((Tbl.keys s.parts).map fun p => Instr.partitionResetTimeout p) ++
  (s.held.filterMap fun h => h.swapIn.map fun i => Instr.partitionSwap h.part (some i)) ++
  ((Tbl.keys s.nets).map fun n => Instr.networkCompletion n 0 []) ++
  ((Tbl.keys s.waits).map fun w => Instr.waitTimeout w) ++
  if s.weirs.isEmpty then [] else [.weirWindow]

/-- The state after an event, if it changes the state. -/
def State.after (s : State) (i : Instr) : Option State :=
  match exec i s with
  | .next t => if t = s then none else some t
  | _ => none

/-- A list from a place on, and then from its beginning. -/
def rotate {α : Type} (l : List α) (n : Nat) : List α := l.drop (n % max 1 l.length) ++ l.take (n % max 1 l.length)

/-- The event that the hardware performs next, if one is due: no order among those that are due is promised. -/
def State.dueEvent (s : State) : Option Instr :=
  (rotate (s.memEvents ++ s.waitEvents ++ s.engineEvents ++ s.deviceEvents) (Config.eventChoice s.tick)).find? fun i => (s.after i).isSome

/-! ## Turns -/

/-- The turn of the first agent of a list whose turn changes the machine; the agent whose turn it is stays recorded. -/
def State.firstTurn (s : State) : List Agent → Option Todo
  | [] => none
  | a :: rest =>
    let t := match s.issueTurn a with
      | .rest s' => if s' = { s with cur := a } then none else some (.rest s')
      | .run i s' => if (s'.after i).isSome then some (.run i s') else none
    match t with
    | some r => some r
    | none => s.firstTurn rest

/-- The core of an agent. -/
def State.agentCore (s : State) : Agent → Option Nat
  | .strand w _ => some (coreOf w)
  | .fe c => (Tbl.find s.crews c).map Crew.core
  | .nobody => none

/-- The issue priority of an agent: its warp's (R303); a front-end context has a warp's first one. -/
def State.agentPrio (s : State) : Agent → Nat
  | .strand w _ => ((Tbl.find s.warps w).map Warp.prio).getD 1
  | _ => 1

/-- Whether an agent is passed over in this selection round (R24, R303). -/
def State.passedOver (s : State) : Agent → Bool
  | .strand w i => (s.strandAt w i).any fun (x : Who) => x.st.yld
  | _ => false

/-- How long an agent has waited for a turn. -/
def State.waited (s : State) (a : Agent) : Nat := s.time - ((s.served.find? fun p => p.1 == a).map Prod.snd).getD 0

/-- The order in which the issue stage looks at the agents: those that it passes over come last; before all others come those that
have waited for 1,024 cycles (R108); then higher priority, and the longest wait (R303). -/
def State.inTurn (s : State) : List Agent :=
  let rank (a : Agent) : Nat × Nat := if 1024 ≤ s.waited a then (0, 0) else (if s.passedOver a then 2 else 1, 3 - s.agentPrio a)
  let before (a b : Agent) : Bool :=
    let p := rank a
    let q := rank b
    decide (p.1 < q.1) || (p.1 == q.1 && (decide (p.2 < q.2) || (p.2 == q.2 && decide (s.waited b ≤ s.waited a))))
  sortBy before (rotate s.agents s.tick)

/-- A selection round of a core has passed: its strands are no longer passed over, and the agent chosen has had its turn. -/
def State.serve (s : State) : State :=
  let core := s.agentCore s.cur
  { s with
    warps := Tbl.mapVals s.warps fun i w =>
      if some (coreOf i) = core then { w with strands := Tbl.mapVals w.strands fun _ st => { st with yld := false } } else w
    served := (s.cur, s.time) :: s.served.filter fun p => p.1 != s.cur }

def Todo.serve : Todo → Todo
  | .rest s => .rest s.serve
  | .run i s => .run i s.serve

/-- The machine's own choice: power-on first; then events and agents in turn, each kind first in every other step. -/
def State.defaultTurn (s : State) : Todo :=
  match s.boot with
  | .off => .run .powerOn s
  | _ =>
    let event := s.dueEvent.map fun i => Todo.run i s
    let agent := (s.firstTurn s.inTurn).map Todo.serve
    ((if s.tick % 2 = 0 then event <|> agent else agent <|> event)).getD (.rest s)

/-- The agenda names an agent, or something that happens to the device: an event or a host command. An instruction is not such
a thing. -/
def State.plan (s : State) : Todo :=
  match s.agenda with
  | [] => s.defaultTurn
  | .issue a :: rest => ({ s with agenda := rest }).issueTurn a
  | .occur i :: rest =>
    let s := { s with agenda := rest }
    match Codec.classOf i, i with
    | some _, _ | _, .clauseHeader _ | _, .illegalOpcode _ => .rest s
    | none, i => .run i s

end Sys2Proof.Machine
end

