-- ==== Sys2Proof/Machine/Step.lean ====
section
/-! DEFINITION. One step of the device, and the placement of one instruction for the next step. -/

namespace Sys2Proof.Machine

/-- Time passes, and then the next turn is taken (R6; 95: each row of the table is one indivisible step). -/
def step (s : State) : Host.Outcome State Fault Refusal :=
  match s.passTime.plan with
  | .rest t => .next t
  | .run i t => exec i t

/-- The units of a table row, as `decodeUnits` reads them, stand in code memory with a crew that is about to run them: a row that
is one unit and no header is given the header of a clause of class 0 (R21). -/
def State.withFetchWord (s : State) (nbits w : Nat) : State :=
  let l := unitsOf (max 1 ((nbits + 63) / 64)) w
  if Codec.isHeader (l.headD 0) then s.place l
  else s.place (Codec.headerWord ⟨0, ⟨(l.length - 1) % 16, Nat.mod_lt _ (by decide)⟩, false, 0, false, false, false, 0, 0⟩ :: l)

end Sys2Proof.Machine
end

