-- ==== Sys2Proof/Laws/Encoding.lean ====
section
/-! SUPPORT. Each field of a word that the encoder lays out is read back by the decoder: slices of concatenations, the formats, the
layouts of parts of words, and the codes. -/

namespace Sys2Proof.Codec

/-- A slice of the low part. -/
theorem app_lo {n m : Nat} (x : BitVec n) (y : BitVec m) (s l : Nat) (h : s + l ≤ m) :
    (x ++ y).extractLsb' s l = y.extractLsb' s l := by
  apply BitVec.eq_of_getLsbD_eq
  intro i hi
  have h2 : s + i < m := by omega
  simp [BitVec.getLsbD_extractLsb', BitVec.getLsbD_append, h2]

/-- A slice above the low part. -/
theorem app_hi {n m : Nat} (x : BitVec n) (y : BitVec m) (s l : Nat) (h : m ≤ s) :
    (x ++ y).extractLsb' s l = x.extractLsb' (s - m) l := by
  apply BitVec.eq_of_getLsbD_eq
  intro i hi
  have h2 : s + i - m = s - m + i := by omega
  have h3 : ¬ s + i < m := by omega
  simp [BitVec.getLsbD_extractLsb', BitVec.getLsbD_append, h2, h3]

/-- Format A: a word laid out from its fields gives them back. -/
theorem rawA_ofWord (r : RawA) : RawA.ofWord r.toWord = r := by
  rcases r with ⟨op, la, dst, a, b, c, ty, low⟩
  simp only [RawA.ofWord, RawA.toWord, RawA.mk.injEq]
  refine ⟨?_, ?_, ?_, ?_, ?_, ?_, ?_, ?_⟩
  · exact (by simp (disch := omega) only [app_hi, Nat.reduceSub, BitVec.extractLsb'_eq_self] :
      (op ++ la ++ dst ++ a ++ b ++ c ++ ty ++ low).extractLsb' 55 9 = op)
  · exact (by simp (disch := omega) only [app_lo, app_hi, Nat.reduceSub, BitVec.extractLsb'_eq_self] :
      (op ++ la ++ dst ++ a ++ b ++ c ++ ty ++ low).extractLsb' 51 4 = la)
  · exact (by simp (disch := omega) only [app_lo, app_hi, Nat.reduceSub, BitVec.extractLsb'_eq_self] :
      (op ++ la ++ dst ++ a ++ b ++ c ++ ty ++ low).extractLsb' 41 10 = dst)
  · exact (by simp (disch := omega) only [app_lo, app_hi, Nat.reduceSub, BitVec.extractLsb'_eq_self] :
      (op ++ la ++ dst ++ a ++ b ++ c ++ ty ++ low).extractLsb' 31 10 = a)
  · exact (by simp (disch := omega) only [app_lo, app_hi, Nat.reduceSub, BitVec.extractLsb'_eq_self] :
      (op ++ la ++ dst ++ a ++ b ++ c ++ ty ++ low).extractLsb' 21 10 = b)
  · exact (by simp (disch := omega) only [app_lo, app_hi, Nat.reduceSub, BitVec.extractLsb'_eq_self] :
      (op ++ la ++ dst ++ a ++ b ++ c ++ ty ++ low).extractLsb' 11 10 = c)
  · exact (by simp (disch := omega) only [app_lo, app_hi, Nat.reduceSub, BitVec.extractLsb'_eq_self] :
      (op ++ la ++ dst ++ a ++ b ++ c ++ ty ++ low).extractLsb' 8 3 = ty)
  · exact (by simp (disch := omega) only [app_lo, BitVec.extractLsb'_eq_self] :
      (op ++ la ++ dst ++ a ++ b ++ c ++ ty ++ low).extractLsb' 0 8 = low)
/-- Format A: the opcode of a word. -/
theorem opcode_rawA (r : RawA) : opcode r.toWord = r.op.toNat := by
  have h := congrArg RawA.op (rawA_ofWord r)
  simpa only [RawA.ofWord, opcode] using congrArg BitVec.toNat h

/-- Format I: a word laid out from its fields gives them back. -/
theorem rawI_ofWord (r : RawI) : RawI.ofWord r.toWord = r := by
  rcases r with ⟨op, dst, a, ty, imm⟩
  simp only [RawI.ofWord, RawI.toWord, RawI.mk.injEq]
  refine ⟨?_, ?_, ?_, ?_, ?_⟩
  · exact (by simp (disch := omega) only [app_hi, Nat.reduceSub, BitVec.extractLsb'_eq_self] :
      (op ++ dst ++ a ++ ty ++ imm).extractLsb' 55 9 = op)
  · exact (by simp (disch := omega) only [app_lo, app_hi, Nat.reduceSub, BitVec.extractLsb'_eq_self] :
      (op ++ dst ++ a ++ ty ++ imm).extractLsb' 45 10 = dst)
  · exact (by simp (disch := omega) only [app_lo, app_hi, Nat.reduceSub, BitVec.extractLsb'_eq_self] :
      (op ++ dst ++ a ++ ty ++ imm).extractLsb' 35 10 = a)
  · exact (by simp (disch := omega) only [app_lo, app_hi, Nat.reduceSub, BitVec.extractLsb'_eq_self] :
      (op ++ dst ++ a ++ ty ++ imm).extractLsb' 32 3 = ty)
  · exact (by simp (disch := omega) only [app_lo, BitVec.extractLsb'_eq_self] :
      (op ++ dst ++ a ++ ty ++ imm).extractLsb' 0 32 = imm)
/-- Format I: the opcode of a word. -/
theorem opcode_rawI (r : RawI) : opcode r.toWord = r.op.toNat := by
  have h := congrArg RawI.op (rawI_ofWord r)
  simpa only [RawI.ofWord, opcode] using congrArg BitVec.toNat h

/-- Format B: a word laid out from its fields gives them back. -/
theorem rawB_ofWord (r : RawB) : RawB.ofWord r.toWord = r := by
  rcases r with ⟨op, cond, tgt, tail⟩
  simp only [RawB.ofWord, RawB.toWord, RawB.mk.injEq]
  refine ⟨?_, ?_, ?_, ?_⟩
  · exact (by simp (disch := omega) only [app_hi, Nat.reduceSub, BitVec.extractLsb'_eq_self] :
      (op ++ cond ++ tgt ++ tail).extractLsb' 55 9 = op)
  · exact (by simp (disch := omega) only [app_lo, app_hi, Nat.reduceSub, BitVec.extractLsb'_eq_self] :
      (op ++ cond ++ tgt ++ tail).extractLsb' 49 6 = cond)
  · exact (by simp (disch := omega) only [app_lo, app_hi, Nat.reduceSub, BitVec.extractLsb'_eq_self] :
      (op ++ cond ++ tgt ++ tail).extractLsb' 25 24 = tgt)
  · exact (by simp (disch := omega) only [app_lo, BitVec.extractLsb'_eq_self] :
      (op ++ cond ++ tgt ++ tail).extractLsb' 0 25 = tail)
/-- Format B: the opcode of a word. -/
theorem opcode_rawB (r : RawB) : opcode r.toWord = r.op.toNat := by
  have h := congrArg RawB.op (rawB_ofWord r)
  simpa only [RawB.ofWord, opcode] using congrArg BitVec.toNat h

/-- Format E: a word laid out from its fields gives them back. -/
theorem rawE_ofWord (r : RawE) : RawE.ofWord r.toWord = r := by
  rcases r with ⟨op, la, sync, stat, hi, per⟩
  simp only [RawE.ofWord, RawE.toWord, RawE.mk.injEq]
  refine ⟨?_, ?_, ?_, ?_, ?_, ?_⟩
  · exact (by simp (disch := omega) only [app_hi, Nat.reduceSub, BitVec.extractLsb'_eq_self] :
      (op ++ la ++ sync ++ stat ++ hi ++ per).extractLsb' 55 9 = op)
  · exact (by simp (disch := omega) only [app_lo, app_hi, Nat.reduceSub, BitVec.extractLsb'_eq_self] :
      (op ++ la ++ sync ++ stat ++ hi ++ per).extractLsb' 51 4 = la)
  · exact (by simp (disch := omega) only [app_lo, app_hi, Nat.reduceSub, BitVec.extractLsb'_eq_self] :
      (op ++ la ++ sync ++ stat ++ hi ++ per).extractLsb' 45 6 = sync)
  · exact (by simp (disch := omega) only [app_lo, app_hi, Nat.reduceSub, BitVec.extractLsb'_eq_self] :
      (op ++ la ++ sync ++ stat ++ hi ++ per).extractLsb' 39 6 = stat)
  · exact (by simp (disch := omega) only [app_lo, app_hi, Nat.reduceSub, BitVec.extractLsb'_eq_self] :
      (op ++ la ++ sync ++ stat ++ hi ++ per).extractLsb' 25 14 = hi)
  · exact (by simp (disch := omega) only [app_lo, BitVec.extractLsb'_eq_self] :
      (op ++ la ++ sync ++ stat ++ hi ++ per).extractLsb' 0 25 = per)
/-- Format E: the opcode of a word. -/
theorem opcode_rawE (r : RawE) : opcode r.toWord = r.op.toNat := by
  have h := congrArg RawE.op (rawE_ofWord r)
  simpa only [RawE.ofWord, opcode] using congrArg BitVec.toNat h

/-- Format S: a word laid out from its fields gives them back. -/
theorem rawS_ofWord (r : RawS) : RawS.ofWord r.toWord = r := by
  rcases r with ⟨op, imm, reg, num, rest⟩
  simp only [RawS.ofWord, RawS.toWord, RawS.mk.injEq]
  refine ⟨?_, ?_, ?_, ?_, ?_⟩
  · exact (by simp (disch := omega) only [app_hi, Nat.reduceSub, BitVec.extractLsb'_eq_self] :
      (op ++ imm ++ reg ++ num ++ rest).extractLsb' 55 9 = op)
  · exact (by simp (disch := omega) only [app_lo, app_hi, Nat.reduceSub, BitVec.extractLsb'_eq_self] :
      (op ++ imm ++ reg ++ num ++ rest).extractLsb' 47 8 = imm)
  · exact (by simp (disch := omega) only [app_lo, app_hi, Nat.reduceSub, BitVec.extractLsb'_eq_self] :
      (op ++ imm ++ reg ++ num ++ rest).extractLsb' 37 10 = reg)
  · exact (by simp (disch := omega) only [app_lo, app_hi, Nat.reduceSub, BitVec.extractLsb'_eq_self] :
      (op ++ imm ++ reg ++ num ++ rest).extractLsb' 25 12 = num)
  · exact (by simp (disch := omega) only [app_lo, BitVec.extractLsb'_eq_self] :
      (op ++ imm ++ reg ++ num ++ rest).extractLsb' 0 25 = rest)
/-- Format S: the opcode of a word. -/
theorem opcode_rawS (r : RawS) : opcode r.toWord = r.op.toNat := by
  have h := congrArg RawS.op (rawS_ofWord r)
  simpa only [RawS.ofWord, opcode] using congrArg BitVec.toNat h



/-- A bit as a slice of width 1. -/
theorem bitAt {n : Nat} (w : BitVec n) (i : Nat) : w.getLsbD i = (w.extractLsb' i 1 == 1#1) := by
  have h : w.extractLsb' i 1 = BitVec.ofBool (w.getLsbD i) := by
    apply BitVec.eq_of_getLsbD_eq
    intro k hk
    obtain rfl : k = 0 := by omega
    simp
  rw [h]; cases w.getLsbD i <;> rfl

theorem bit1_is (b : Bool) : (bit1 b == 1#1) = b := by cases b <;> rfl

/-- Format M: a word laid out from its fields gives them back. -/
theorem rawM_ofWord (r : RawM) : RawM.ofWord r.toWord = r := by
  rcases r with ⟨op, la, data, idx, rcd, width, sx, scope, ord, off⟩
  simp only [RawM.ofWord, RawM.toWord, RawM.mk.injEq]
  refine ⟨?_, ?_, ?_, ?_, ?_, ?_, ?_, ?_, ?_, ?_⟩
  · exact (by simp (disch := omega) only [app_hi, Nat.reduceSub, BitVec.extractLsb'_eq_self] :
      (op ++ la ++ data ++ idx ++ rcd ++ width ++ bit1 sx ++ scope ++ ord ++ off).extractLsb' 55 9 = op)
  · exact (by simp (disch := omega) only [app_lo, app_hi, Nat.reduceSub, BitVec.extractLsb'_eq_self] :
      (op ++ la ++ data ++ idx ++ rcd ++ width ++ bit1 sx ++ scope ++ ord ++ off).extractLsb' 51 4 = la)
  · exact (by simp (disch := omega) only [app_lo, app_hi, Nat.reduceSub, BitVec.extractLsb'_eq_self] :
      (op ++ la ++ data ++ idx ++ rcd ++ width ++ bit1 sx ++ scope ++ ord ++ off).extractLsb' 41 10 = data)
  · exact (by simp (disch := omega) only [app_lo, app_hi, Nat.reduceSub, BitVec.extractLsb'_eq_self] :
      (op ++ la ++ data ++ idx ++ rcd ++ width ++ bit1 sx ++ scope ++ ord ++ off).extractLsb' 31 10 = idx)
  · exact (by simp (disch := omega) only [app_lo, app_hi, Nat.reduceSub, BitVec.extractLsb'_eq_self] :
      (op ++ la ++ data ++ idx ++ rcd ++ width ++ bit1 sx ++ scope ++ ord ++ off).extractLsb' 26 5 = rcd)
  · exact (by simp (disch := omega) only [app_lo, app_hi, Nat.reduceSub, BitVec.extractLsb'_eq_self] :
      (op ++ la ++ data ++ idx ++ rcd ++ width ++ bit1 sx ++ scope ++ ord ++ off).extractLsb' 23 3 = width)
  · exact (by simp (disch := omega) only [bitAt, app_lo, app_hi, Nat.reduceSub, BitVec.extractLsb'_eq_self, bit1_is] :
      (op ++ la ++ data ++ idx ++ rcd ++ width ++ bit1 sx ++ scope ++ ord ++ off).getLsbD 22 = sx)
  · exact (by simp (disch := omega) only [app_lo, app_hi, Nat.reduceSub, BitVec.extractLsb'_eq_self] :
      (op ++ la ++ data ++ idx ++ rcd ++ width ++ bit1 sx ++ scope ++ ord ++ off).extractLsb' 19 3 = scope)
  · exact (by simp (disch := omega) only [app_lo, app_hi, Nat.reduceSub, BitVec.extractLsb'_eq_self] :
      (op ++ la ++ data ++ idx ++ rcd ++ width ++ bit1 sx ++ scope ++ ord ++ off).extractLsb' 17 2 = ord)
  · exact (by simp (disch := omega) only [app_lo, BitVec.extractLsb'_eq_self] :
      (op ++ la ++ data ++ idx ++ rcd ++ width ++ bit1 sx ++ scope ++ ord ++ off).extractLsb' 0 17 = off)

/-- Format M: the opcode of a word. -/
theorem opcode_rawM (r : RawM) : opcode r.toWord = r.op.toNat := by
  have h := congrArg RawM.op (rawM_ofWord r)
  simpa only [RawM.ofWord, opcode] using congrArg BitVec.toNat h

/-- Bits [7:0] of format A. -/
@[simp] theorem low_ofBits (l : Low) : Low.ofBits l.bits = l := by
  rcases l with ⟨rnd, sat, na, nb, nc, z⟩
  simp only [Low.ofBits, Low.bits, Low.mk.injEq]
  refine ⟨?_, ?_, ?_, ?_, ?_, ?_⟩
  · exact (by simp (disch := omega) only [app_hi, Nat.reduceSub, BitVec.extractLsb'_eq_self] :
      (rnd ++ bit1 sat ++ bit1 na ++ bit1 nb ++ bit1 nc ++ bit1 z).extractLsb' 5 3 = rnd)
  · exact (by simp (disch := omega) only [bitAt, app_lo, app_hi, Nat.reduceSub, BitVec.extractLsb'_eq_self, bit1_is] :
      (rnd ++ bit1 sat ++ bit1 na ++ bit1 nb ++ bit1 nc ++ bit1 z).getLsbD 4 = sat)
  · exact (by simp (disch := omega) only [bitAt, app_lo, app_hi, Nat.reduceSub, BitVec.extractLsb'_eq_self, bit1_is] :
      (rnd ++ bit1 sat ++ bit1 na ++ bit1 nb ++ bit1 nc ++ bit1 z).getLsbD 3 = na)
  · exact (by simp (disch := omega) only [bitAt, app_lo, app_hi, Nat.reduceSub, BitVec.extractLsb'_eq_self, bit1_is] :
      (rnd ++ bit1 sat ++ bit1 na ++ bit1 nb ++ bit1 nc ++ bit1 z).getLsbD 2 = nb)
  · exact (by simp (disch := omega) only [bitAt, app_lo, app_hi, Nat.reduceSub, BitVec.extractLsb'_eq_self, bit1_is] :
      (rnd ++ bit1 sat ++ bit1 na ++ bit1 nb ++ bit1 nc ++ bit1 z).getLsbD 1 = nc)
  · exact (by simp (disch := omega) only [bitAt, app_lo, BitVec.extractLsb'_eq_self, bit1_is] :
      (rnd ++ bit1 sat ++ bit1 na ++ bit1 nb ++ bit1 nc ++ bit1 z).getLsbD 0 = z)

/-! ## Parts of words -/

@[simp] theorem lay35_0 (x : BitVec 3) :
    BitVec.extractLsb' 5 3 (x ++ 0#5 : BitVec 8) = x :=
  (by simp (disch := omega) only [app_hi, Nat.reduceSub, BitVec.extractLsb'_eq_self] : BitVec.extractLsb' 5 3 (x ++ 0#5) = x)
@[simp] theorem lay35_1 (x : BitVec 3) :
    BitVec.extractLsb' 0 5 (x ++ 0#5 : BitVec 8) = 0#5 :=
  (by simp (disch := omega) only [app_lo, BitVec.extractLsb'_eq_self] : BitVec.extractLsb' 0 5 (x ++ 0#5) = 0#5)
@[simp] theorem lay17_0 (a : Bool) :
    BitVec.getLsbD (bit1 a ++ 0#7 : BitVec 8) 7 = a :=
  (by simp (disch := omega) only [bitAt, app_hi, Nat.reduceSub, BitVec.extractLsb'_eq_self, bit1_is] : BitVec.getLsbD (bit1 a ++ 0#7) 7 = a)
@[simp] theorem lay17_1 (a : Bool) :
    BitVec.extractLsb' 0 7 (bit1 a ++ 0#7 : BitVec 8) = 0#7 :=
  (by simp (disch := omega) only [app_lo, BitVec.extractLsb'_eq_self] : BitVec.extractLsb' 0 7 (bit1 a ++ 0#7) = 0#7)
@[simp] theorem lay26o_0 (x : BitVec 2) :
    BitVec.extractLsb' 6 2 (x ++ 0#6 : BitVec 8) = x :=
  (by simp (disch := omega) only [app_hi, Nat.reduceSub, BitVec.extractLsb'_eq_self] : BitVec.extractLsb' 6 2 (x ++ 0#6) = x)
@[simp] theorem lay26o_1 (x : BitVec 2) :
    BitVec.extractLsb' 0 6 (x ++ 0#6 : BitVec 8) = 0#6 :=
  (by simp (disch := omega) only [app_lo, BitVec.extractLsb'_eq_self] : BitVec.extractLsb' 0 6 (x ++ 0#6) = 0#6)
@[simp] theorem lay26b_0 (a : Bool) (b : Bool) :
    BitVec.getLsbD (bit1 a ++ bit1 b ++ 0#6 : BitVec 8) 7 = a :=
  (by simp (disch := omega) only [bitAt, app_hi, Nat.reduceSub, BitVec.extractLsb'_eq_self, bit1_is] : BitVec.getLsbD (bit1 a ++ bit1 b ++ 0#6) 7 = a)
@[simp] theorem lay26b_1 (a : Bool) (b : Bool) :
    BitVec.getLsbD (bit1 a ++ bit1 b ++ 0#6 : BitVec 8) 6 = b :=
  (by simp (disch := omega) only [bitAt, app_lo, app_hi, Nat.reduceSub, BitVec.extractLsb'_eq_self, bit1_is] : BitVec.getLsbD (bit1 a ++ bit1 b ++ 0#6) 6 = b)
@[simp] theorem lay26b_2 (a : Bool) (b : Bool) :
    BitVec.extractLsb' 0 6 (bit1 a ++ bit1 b ++ 0#6 : BitVec 8) = 0#6 :=
  (by simp (disch := omega) only [app_lo, BitVec.extractLsb'_eq_self] : BitVec.extractLsb' 0 6 (bit1 a ++ bit1 b ++ 0#6) = 0#6)
@[simp] theorem layRwlt_0 (a : Bool) (b : Bool) (c : Bool) (d : Bool) :
    BitVec.getLsbD (bit1 a ++ bit1 b ++ bit1 c ++ bit1 d ++ 0#4 : BitVec 8) 7 = a :=
  (by simp (disch := omega) only [bitAt, app_hi, Nat.reduceSub, BitVec.extractLsb'_eq_self, bit1_is] : BitVec.getLsbD (bit1 a ++ bit1 b ++ bit1 c ++ bit1 d ++ 0#4) 7 = a)
@[simp] theorem layRwlt_1 (a : Bool) (b : Bool) (c : Bool) (d : Bool) :
    BitVec.getLsbD (bit1 a ++ bit1 b ++ bit1 c ++ bit1 d ++ 0#4 : BitVec 8) 6 = b :=
  (by simp (disch := omega) only [bitAt, app_lo, app_hi, Nat.reduceSub, BitVec.extractLsb'_eq_self, bit1_is] : BitVec.getLsbD (bit1 a ++ bit1 b ++ bit1 c ++ bit1 d ++ 0#4) 6 = b)
@[simp] theorem layRwlt_2 (a : Bool) (b : Bool) (c : Bool) (d : Bool) :
    BitVec.getLsbD (bit1 a ++ bit1 b ++ bit1 c ++ bit1 d ++ 0#4 : BitVec 8) 5 = c :=
  (by simp (disch := omega) only [bitAt, app_lo, app_hi, Nat.reduceSub, BitVec.extractLsb'_eq_self, bit1_is] : BitVec.getLsbD (bit1 a ++ bit1 b ++ bit1 c ++ bit1 d ++ 0#4) 5 = c)
@[simp] theorem layRwlt_3 (a : Bool) (b : Bool) (c : Bool) (d : Bool) :
    BitVec.getLsbD (bit1 a ++ bit1 b ++ bit1 c ++ bit1 d ++ 0#4 : BitVec 8) 4 = d :=
  (by simp (disch := omega) only [bitAt, app_lo, app_hi, Nat.reduceSub, BitVec.extractLsb'_eq_self, bit1_is] : BitVec.getLsbD (bit1 a ++ bit1 b ++ bit1 c ++ bit1 d ++ 0#4) 4 = d)
@[simp] theorem layRwlt_4 (a : Bool) (b : Bool) (c : Bool) (d : Bool) :
    BitVec.extractLsb' 0 4 (bit1 a ++ bit1 b ++ bit1 c ++ bit1 d ++ 0#4 : BitVec 8) = 0#4 :=
  (by simp (disch := omega) only [app_lo, BitVec.extractLsb'_eq_self] : BitVec.extractLsb' 0 4 (bit1 a ++ bit1 b ++ bit1 c ++ bit1 d ++ 0#4) = 0#4)
@[simp] theorem layRwls_0 (a : Bool) (b : Bool) (c : Bool) (x : BitVec 2) :
    BitVec.getLsbD (bit1 a ++ bit1 b ++ bit1 c ++ x ++ 0#3 : BitVec 8) 7 = a :=
  (by simp (disch := omega) only [bitAt, app_hi, Nat.reduceSub, BitVec.extractLsb'_eq_self, bit1_is] : BitVec.getLsbD (bit1 a ++ bit1 b ++ bit1 c ++ x ++ 0#3) 7 = a)
@[simp] theorem layRwls_1 (a : Bool) (b : Bool) (c : Bool) (x : BitVec 2) :
    BitVec.getLsbD (bit1 a ++ bit1 b ++ bit1 c ++ x ++ 0#3 : BitVec 8) 6 = b :=
  (by simp (disch := omega) only [bitAt, app_lo, app_hi, Nat.reduceSub, BitVec.extractLsb'_eq_self, bit1_is] : BitVec.getLsbD (bit1 a ++ bit1 b ++ bit1 c ++ x ++ 0#3) 6 = b)
@[simp] theorem layRwls_2 (a : Bool) (b : Bool) (c : Bool) (x : BitVec 2) :
    BitVec.getLsbD (bit1 a ++ bit1 b ++ bit1 c ++ x ++ 0#3 : BitVec 8) 5 = c :=
  (by simp (disch := omega) only [bitAt, app_lo, app_hi, Nat.reduceSub, BitVec.extractLsb'_eq_self, bit1_is] : BitVec.getLsbD (bit1 a ++ bit1 b ++ bit1 c ++ x ++ 0#3) 5 = c)
@[simp] theorem layRwls_3 (a : Bool) (b : Bool) (c : Bool) (x : BitVec 2) :
    BitVec.extractLsb' 3 2 (bit1 a ++ bit1 b ++ bit1 c ++ x ++ 0#3 : BitVec 8) = x :=
  (by simp (disch := omega) only [app_lo, app_hi, Nat.reduceSub, BitVec.extractLsb'_eq_self] : BitVec.extractLsb' 3 2 (bit1 a ++ bit1 b ++ bit1 c ++ x ++ 0#3) = x)
@[simp] theorem layRwls_4 (a : Bool) (b : Bool) (c : Bool) (x : BitVec 2) :
    BitVec.extractLsb' 0 3 (bit1 a ++ bit1 b ++ bit1 c ++ x ++ 0#3 : BitVec 8) = 0#3 :=
  (by simp (disch := omega) only [app_lo, BitVec.extractLsb'_eq_self] : BitVec.extractLsb' 0 3 (bit1 a ++ bit1 b ++ bit1 c ++ x ++ 0#3) = 0#3)
@[simp] theorem layS1_0 (x : BitVec 3) (a : Bool) :
    BitVec.extractLsb' 5 3 (x ++ bit1 a ++ 0#4 : BitVec 8) = x :=
  (by simp (disch := omega) only [app_hi, Nat.reduceSub, BitVec.extractLsb'_eq_self] : BitVec.extractLsb' 5 3 (x ++ bit1 a ++ 0#4) = x)
@[simp] theorem layS1_1 (x : BitVec 3) (a : Bool) :
    BitVec.getLsbD (x ++ bit1 a ++ 0#4 : BitVec 8) 4 = a :=
  (by simp (disch := omega) only [bitAt, app_lo, app_hi, Nat.reduceSub, BitVec.extractLsb'_eq_self, bit1_is] : BitVec.getLsbD (x ++ bit1 a ++ 0#4) 4 = a)
@[simp] theorem layS1_2 (x : BitVec 3) (a : Bool) :
    BitVec.extractLsb' 0 4 (x ++ bit1 a ++ 0#4 : BitVec 8) = 0#4 :=
  (by simp (disch := omega) only [app_lo, BitVec.extractLsb'_eq_self] : BitVec.extractLsb' 0 4 (x ++ bit1 a ++ 0#4) = 0#4)
@[simp] theorem layZ1_0 (a : Bool) :
    BitVec.extractLsb' 5 3 (0#3 ++ bit1 a ++ 0#4 : BitVec 8) = 0#3 :=
  (by simp (disch := omega) only [app_hi, Nat.reduceSub, BitVec.extractLsb'_eq_self] : BitVec.extractLsb' 5 3 (0#3 ++ bit1 a ++ 0#4) = 0#3)
@[simp] theorem layZ1_1 (a : Bool) :
    BitVec.getLsbD (0#3 ++ bit1 a ++ 0#4 : BitVec 8) 4 = a :=
  (by simp (disch := omega) only [bitAt, app_lo, app_hi, Nat.reduceSub, BitVec.extractLsb'_eq_self, bit1_is] : BitVec.getLsbD (0#3 ++ bit1 a ++ 0#4) 4 = a)
@[simp] theorem layZ1_2 (a : Bool) :
    BitVec.extractLsb' 0 4 (0#3 ++ bit1 a ++ 0#4 : BitVec 8) = 0#4 :=
  (by simp (disch := omega) only [app_lo, BitVec.extractLsb'_eq_self] : BitVec.extractLsb' 0 4 (0#3 ++ bit1 a ++ 0#4) = 0#4)
@[simp] theorem lay53_0 (x : BitVec 5) :
    BitVec.extractLsb' 3 5 (x ++ 0#3 : BitVec 8) = x :=
  (by simp (disch := omega) only [app_hi, Nat.reduceSub, BitVec.extractLsb'_eq_self] : BitVec.extractLsb' 3 5 (x ++ 0#3) = x)
@[simp] theorem lay53_1 (x : BitVec 5) :
    BitVec.extractLsb' 0 3 (x ++ 0#3 : BitVec 8) = 0#3 :=
  (by simp (disch := omega) only [app_lo, BitVec.extractLsb'_eq_self] : BitVec.extractLsb' 0 3 (x ++ 0#3) = 0#3)
@[simp] theorem layGs_0 (x : BitVec 5) (a : Bool) (b : Bool) :
    BitVec.extractLsb' 3 5 (x ++ bit1 a ++ bit1 b ++ 0#1 : BitVec 8) = x :=
  (by simp (disch := omega) only [app_hi, Nat.reduceSub, BitVec.extractLsb'_eq_self] : BitVec.extractLsb' 3 5 (x ++ bit1 a ++ bit1 b ++ 0#1) = x)
@[simp] theorem layGs_1 (x : BitVec 5) (a : Bool) (b : Bool) :
    BitVec.getLsbD (x ++ bit1 a ++ bit1 b ++ 0#1 : BitVec 8) 2 = a :=
  (by simp (disch := omega) only [bitAt, app_lo, app_hi, Nat.reduceSub, BitVec.extractLsb'_eq_self, bit1_is] : BitVec.getLsbD (x ++ bit1 a ++ bit1 b ++ 0#1) 2 = a)
@[simp] theorem layGs_2 (x : BitVec 5) (a : Bool) (b : Bool) :
    BitVec.getLsbD (x ++ bit1 a ++ bit1 b ++ 0#1 : BitVec 8) 1 = b :=
  (by simp (disch := omega) only [bitAt, app_lo, app_hi, Nat.reduceSub, BitVec.extractLsb'_eq_self, bit1_is] : BitVec.getLsbD (x ++ bit1 a ++ bit1 b ++ 0#1) 1 = b)
@[simp] theorem layGs_3 (x : BitVec 5) (a : Bool) (b : Bool) :
    BitVec.getLsbD (x ++ bit1 a ++ bit1 b ++ 0#1 : BitVec 8) 0 = false :=
  (by simp (disch := omega) only [bitAt, app_lo, BitVec.extractLsb'_eq_self]; rfl : BitVec.getLsbD (x ++ bit1 a ++ bit1 b ++ 0#1) 0 = false)
@[simp] theorem layW_0 (x : BitVec 5) (y : BitVec 2) :
    BitVec.extractLsb' 3 5 (x ++ y ++ 0#1 : BitVec 8) = x :=
  (by simp (disch := omega) only [app_hi, Nat.reduceSub, BitVec.extractLsb'_eq_self] : BitVec.extractLsb' 3 5 (x ++ y ++ 0#1) = x)
@[simp] theorem layW_1 (x : BitVec 5) (y : BitVec 2) :
    BitVec.extractLsb' 1 2 (x ++ y ++ 0#1 : BitVec 8) = y :=
  (by simp (disch := omega) only [app_lo, app_hi, Nat.reduceSub, BitVec.extractLsb'_eq_self] : BitVec.extractLsb' 1 2 (x ++ y ++ 0#1) = y)
@[simp] theorem layW_2 (x : BitVec 5) (y : BitVec 2) :
    BitVec.getLsbD (x ++ y ++ 0#1 : BitVec 8) 0 = false :=
  (by simp (disch := omega) only [bitAt, app_lo, BitVec.extractLsb'_eq_self]; rfl : BitVec.getLsbD (x ++ y ++ 0#1) 0 = false)
@[simp] theorem layC_0 (a : Bool) (x : BitVec 3) :
    BitVec.getLsbD (bit1 a ++ x ++ 0#4 : BitVec 8) 7 = a :=
  (by simp (disch := omega) only [bitAt, app_hi, Nat.reduceSub, BitVec.extractLsb'_eq_self, bit1_is] : BitVec.getLsbD (bit1 a ++ x ++ 0#4) 7 = a)
@[simp] theorem layC_1 (a : Bool) (x : BitVec 3) :
    BitVec.extractLsb' 4 3 (bit1 a ++ x ++ 0#4 : BitVec 8) = x :=
  (by simp (disch := omega) only [app_lo, app_hi, Nat.reduceSub, BitVec.extractLsb'_eq_self] : BitVec.extractLsb' 4 3 (bit1 a ++ x ++ 0#4) = x)
@[simp] theorem layC_2 (a : Bool) (x : BitVec 3) :
    BitVec.extractLsb' 0 4 (bit1 a ++ x ++ 0#4 : BitVec 8) = 0#4 :=
  (by simp (disch := omega) only [app_lo, BitVec.extractLsb'_eq_self] : BitVec.extractLsb' 0 4 (bit1 a ++ x ++ 0#4) = 0#4)
@[simp] theorem layZs_0 (x : BitVec 3) :
    BitVec.getLsbD (0#1 ++ x ++ 0#4 : BitVec 8) 7 = false :=
  (by simp (disch := omega) only [bitAt, app_hi, Nat.reduceSub, BitVec.extractLsb'_eq_self]; rfl : BitVec.getLsbD (0#1 ++ x ++ 0#4) 7 = false)
@[simp] theorem layZs_1 (x : BitVec 3) :
    BitVec.extractLsb' 4 3 (0#1 ++ x ++ 0#4 : BitVec 8) = x :=
  (by simp (disch := omega) only [app_lo, app_hi, Nat.reduceSub, BitVec.extractLsb'_eq_self] : BitVec.extractLsb' 4 3 (0#1 ++ x ++ 0#4) = x)
@[simp] theorem layZs_2 (x : BitVec 3) :
    BitVec.extractLsb' 0 4 (0#1 ++ x ++ 0#4 : BitVec 8) = 0#4 :=
  (by simp (disch := omega) only [app_lo, BitVec.extractLsb'_eq_self] : BitVec.extractLsb' 0 4 (0#1 ++ x ++ 0#4) = 0#4)
@[simp] theorem layXln_0 (x : BitVec 3) (y : BitVec 4) :
    BitVec.extractLsb' 5 3 (x ++ y ++ 0#1 : BitVec 8) = x :=
  (by simp (disch := omega) only [app_hi, Nat.reduceSub, BitVec.extractLsb'_eq_self] : BitVec.extractLsb' 5 3 (x ++ y ++ 0#1) = x)
@[simp] theorem layXln_1 (x : BitVec 3) (y : BitVec 4) :
    BitVec.extractLsb' 1 4 (x ++ y ++ 0#1 : BitVec 8) = y :=
  (by simp (disch := omega) only [app_lo, app_hi, Nat.reduceSub, BitVec.extractLsb'_eq_self] : BitVec.extractLsb' 1 4 (x ++ y ++ 0#1) = y)
@[simp] theorem layXln_2 (x : BitVec 3) (y : BitVec 4) :
    BitVec.getLsbD (x ++ y ++ 0#1 : BitVec 8) 0 = false :=
  (by simp (disch := omega) only [bitAt, app_lo, BitVec.extractLsb'_eq_self]; rfl : BitVec.getLsbD (x ++ y ++ 0#1) 0 = false)
@[simp] theorem layFf_0 (x : BitVec 5) (y : BitVec 5) :
    BitVec.extractLsb' 5 5 (x ++ y : BitVec 10) = x :=
  (by simp (disch := omega) only [app_hi, Nat.reduceSub, BitVec.extractLsb'_eq_self] : BitVec.extractLsb' 5 5 (x ++ y) = x)
@[simp] theorem layFf_1 (x : BitVec 5) (y : BitVec 5) :
    BitVec.extractLsb' 0 5 (x ++ y : BitVec 10) = y :=
  (by simp (disch := omega) only [app_lo, BitVec.extractLsb'_eq_self] : BitVec.extractLsb' 0 5 (x ++ y) = y)
@[simp] theorem layZ5_0 (x : BitVec 5) :
    BitVec.extractLsb' 5 5 (0#5 ++ x : BitVec 10) = 0#5 :=
  (by simp (disch := omega) only [app_hi, Nat.reduceSub, BitVec.extractLsb'_eq_self] : BitVec.extractLsb' 5 5 (0#5 ++ x) = 0#5)
@[simp] theorem layZ5_1 (x : BitVec 5) :
    BitVec.extractLsb' 0 5 (0#5 ++ x : BitVec 10) = x :=
  (by simp (disch := omega) only [app_lo, BitVec.extractLsb'_eq_self] : BitVec.extractLsb' 0 5 (0#5 ++ x) = x)
@[simp] theorem layZ46_0 (x : BitVec 6) :
    BitVec.extractLsb' 6 4 (0#4 ++ x : BitVec 10) = 0#4 :=
  (by simp (disch := omega) only [app_hi, Nat.reduceSub, BitVec.extractLsb'_eq_self] : BitVec.extractLsb' 6 4 (0#4 ++ x) = 0#4)
@[simp] theorem layZ46_1 (x : BitVec 6) :
    BitVec.extractLsb' 0 6 (0#4 ++ x : BitVec 10) = x :=
  (by simp (disch := omega) only [app_lo, BitVec.extractLsb'_eq_self] : BitVec.extractLsb' 0 6 (0#4 ++ x) = x)
@[simp] theorem lay37_0 (x : BitVec 3) :
    BitVec.extractLsb' 7 3 (x ++ 0#7 : BitVec 10) = x :=
  (by simp (disch := omega) only [app_hi, Nat.reduceSub, BitVec.extractLsb'_eq_self] : BitVec.extractLsb' 7 3 (x ++ 0#7) = x)
@[simp] theorem lay37_1 (x : BitVec 3) :
    BitVec.extractLsb' 0 7 (x ++ 0#7 : BitVec 10) = 0#7 :=
  (by simp (disch := omega) only [app_lo, BitVec.extractLsb'_eq_self] : BitVec.extractLsb' 0 7 (x ++ 0#7) = 0#7)
@[simp] theorem layC29_0 (x : BitVec 3) (y : BitVec 29) :
    BitVec.extractLsb' 29 3 (x ++ y : BitVec 32) = x :=
  (by simp (disch := omega) only [app_hi, Nat.reduceSub, BitVec.extractLsb'_eq_self] : BitVec.extractLsb' 29 3 (x ++ y) = x)
@[simp] theorem layC29_1 (x : BitVec 3) (y : BitVec 29) :
    BitVec.extractLsb' 0 29 (x ++ y : BitVec 32) = y :=
  (by simp (disch := omega) only [app_lo, BitVec.extractLsb'_eq_self] : BitVec.extractLsb' 0 29 (x ++ y) = y)
@[simp] theorem lay413_0 (x : BitVec 4) (y : BitVec 13) :
    BitVec.extractLsb' 13 4 (x ++ y : BitVec 17) = x :=
  (by simp (disch := omega) only [app_hi, Nat.reduceSub, BitVec.extractLsb'_eq_self] : BitVec.extractLsb' 13 4 (x ++ y) = x)
@[simp] theorem lay413_1 (x : BitVec 4) (y : BitVec 13) :
    BitVec.extractLsb' 0 13 (x ++ y : BitVec 17) = y :=
  (by simp (disch := omega) only [app_lo, BitVec.extractLsb'_eq_self] : BitVec.extractLsb' 0 13 (x ++ y) = y)
@[simp] theorem layBrmk_0 (a : Bool) (b : Bool) (c : Bool) (x : BitVec 5) :
    BitVec.extractLsb' 8 9 (0#9 ++ bit1 a ++ bit1 b ++ bit1 c ++ x : BitVec 17) = 0#9 :=
  (by simp (disch := omega) only [app_hi, Nat.reduceSub, BitVec.extractLsb'_eq_self] : BitVec.extractLsb' 8 9 (0#9 ++ bit1 a ++ bit1 b ++ bit1 c ++ x) = 0#9)
@[simp] theorem layBrmk_1 (a : Bool) (b : Bool) (c : Bool) (x : BitVec 5) :
    BitVec.getLsbD (0#9 ++ bit1 a ++ bit1 b ++ bit1 c ++ x : BitVec 17) 7 = a :=
  (by simp (disch := omega) only [bitAt, app_lo, app_hi, Nat.reduceSub, BitVec.extractLsb'_eq_self, bit1_is] : BitVec.getLsbD (0#9 ++ bit1 a ++ bit1 b ++ bit1 c ++ x) 7 = a)
@[simp] theorem layBrmk_2 (a : Bool) (b : Bool) (c : Bool) (x : BitVec 5) :
    BitVec.getLsbD (0#9 ++ bit1 a ++ bit1 b ++ bit1 c ++ x : BitVec 17) 6 = b :=
  (by simp (disch := omega) only [bitAt, app_lo, app_hi, Nat.reduceSub, BitVec.extractLsb'_eq_self, bit1_is] : BitVec.getLsbD (0#9 ++ bit1 a ++ bit1 b ++ bit1 c ++ x) 6 = b)
@[simp] theorem layBrmk_3 (a : Bool) (b : Bool) (c : Bool) (x : BitVec 5) :
    BitVec.getLsbD (0#9 ++ bit1 a ++ bit1 b ++ bit1 c ++ x : BitVec 17) 5 = c :=
  (by simp (disch := omega) only [bitAt, app_lo, app_hi, Nat.reduceSub, BitVec.extractLsb'_eq_self, bit1_is] : BitVec.getLsbD (0#9 ++ bit1 a ++ bit1 b ++ bit1 c ++ x) 5 = c)
@[simp] theorem layBrmk_4 (a : Bool) (b : Bool) (c : Bool) (x : BitVec 5) :
    BitVec.extractLsb' 0 5 (0#9 ++ bit1 a ++ bit1 b ++ bit1 c ++ x : BitVec 17) = x :=
  (by simp (disch := omega) only [app_lo, BitVec.extractLsb'_eq_self] : BitVec.extractLsb' 0 5 (0#9 ++ bit1 a ++ bit1 b ++ bit1 c ++ x) = x)
@[simp] theorem lay44_0 (x : BitVec 4) :
    BitVec.extractLsb' 4 4 (0#4 ++ x : BitVec 8) = 0#4 :=
  (by simp (disch := omega) only [app_hi, Nat.reduceSub, BitVec.extractLsb'_eq_self] : BitVec.extractLsb' 4 4 (0#4 ++ x) = 0#4)
@[simp] theorem lay44_1 (x : BitVec 4) :
    BitVec.extractLsb' 0 4 (0#4 ++ x : BitVec 8) = x :=
  (by simp (disch := omega) only [app_lo, BitVec.extractLsb'_eq_self] : BitVec.extractLsb' 0 4 (0#4 ++ x) = x)
@[simp] theorem layTret_0 (a : Bool) (x : BitVec 2) :
    BitVec.getLsbD (bit1 a ++ 0#5 ++ x : BitVec 8) 7 = a :=
  (by simp (disch := omega) only [bitAt, app_hi, Nat.reduceSub, BitVec.extractLsb'_eq_self, bit1_is] : BitVec.getLsbD (bit1 a ++ 0#5 ++ x) 7 = a)
@[simp] theorem layTret_1 (a : Bool) (x : BitVec 2) :
    BitVec.extractLsb' 2 5 (bit1 a ++ 0#5 ++ x : BitVec 8) = 0#5 :=
  (by simp (disch := omega) only [app_lo, app_hi, Nat.reduceSub, BitVec.extractLsb'_eq_self] : BitVec.extractLsb' 2 5 (bit1 a ++ 0#5 ++ x) = 0#5)
@[simp] theorem layTret_2 (a : Bool) (x : BitVec 2) :
    BitVec.extractLsb' 0 2 (bit1 a ++ 0#5 ++ x : BitVec 8) = x :=
  (by simp (disch := omega) only [app_lo, BitVec.extractLsb'_eq_self] : BitVec.extractLsb' 0 2 (bit1 a ++ 0#5 ++ x) = x)
@[simp] theorem layDrain_0 (a : Bool) (b : Bool) (c : Bool) :
    BitVec.extractLsb' 3 5 (0#5 ++ bit1 a ++ bit1 b ++ bit1 c : BitVec 8) = 0#5 :=
  (by simp (disch := omega) only [app_hi, Nat.reduceSub, BitVec.extractLsb'_eq_self] : BitVec.extractLsb' 3 5 (0#5 ++ bit1 a ++ bit1 b ++ bit1 c) = 0#5)
@[simp] theorem layDrain_1 (a : Bool) (b : Bool) (c : Bool) :
    BitVec.getLsbD (0#5 ++ bit1 a ++ bit1 b ++ bit1 c : BitVec 8) 2 = a :=
  (by simp (disch := omega) only [bitAt, app_lo, app_hi, Nat.reduceSub, BitVec.extractLsb'_eq_self, bit1_is] : BitVec.getLsbD (0#5 ++ bit1 a ++ bit1 b ++ bit1 c) 2 = a)
@[simp] theorem layDrain_2 (a : Bool) (b : Bool) (c : Bool) :
    BitVec.getLsbD (0#5 ++ bit1 a ++ bit1 b ++ bit1 c : BitVec 8) 1 = b :=
  (by simp (disch := omega) only [bitAt, app_lo, app_hi, Nat.reduceSub, BitVec.extractLsb'_eq_self, bit1_is] : BitVec.getLsbD (0#5 ++ bit1 a ++ bit1 b ++ bit1 c) 1 = b)
@[simp] theorem layDrain_3 (a : Bool) (b : Bool) (c : Bool) :
    BitVec.getLsbD (0#5 ++ bit1 a ++ bit1 b ++ bit1 c : BitVec 8) 0 = c :=
  (by simp (disch := omega) only [bitAt, app_lo, BitVec.extractLsb'_eq_self, bit1_is] : BitVec.getLsbD (0#5 ++ bit1 a ++ bit1 b ++ bit1 c) 0 = c)
@[simp] theorem layM_0 (x : BitVec 3) (a : Bool) :
    BitVec.extractLsb' 3 3 (x ++ bit1 a ++ 0#2 : BitVec 6) = x :=
  (by simp (disch := omega) only [app_hi, Nat.reduceSub, BitVec.extractLsb'_eq_self] : BitVec.extractLsb' 3 3 (x ++ bit1 a ++ 0#2) = x)
@[simp] theorem layM_1 (x : BitVec 3) (a : Bool) :
    BitVec.getLsbD (x ++ bit1 a ++ 0#2 : BitVec 6) 2 = a :=
  (by simp (disch := omega) only [bitAt, app_lo, app_hi, Nat.reduceSub, BitVec.extractLsb'_eq_self, bit1_is] : BitVec.getLsbD (x ++ bit1 a ++ 0#2) 2 = a)
@[simp] theorem layM_2 (x : BitVec 3) (a : Bool) :
    BitVec.extractLsb' 0 2 (x ++ bit1 a ++ 0#2 : BitVec 6) = 0#2 :=
  (by simp (disch := omega) only [app_lo, BitVec.extractLsb'_eq_self] : BitVec.extractLsb' 0 2 (x ++ bit1 a ++ 0#2) = 0#2)
@[simp] theorem layAr_0 (x : BitVec 5) (a : Bool) :
    BitVec.extractLsb' 1 5 (x ++ bit1 a : BitVec 6) = x :=
  (by simp (disch := omega) only [app_hi, Nat.reduceSub, BitVec.extractLsb'_eq_self] : BitVec.extractLsb' 1 5 (x ++ bit1 a) = x)
@[simp] theorem layAr_1 (x : BitVec 5) (a : Bool) :
    BitVec.getLsbD (x ++ bit1 a : BitVec 6) 0 = a :=
  (by simp (disch := omega) only [bitAt, app_lo, BitVec.extractLsb'_eq_self, bit1_is] : BitVec.getLsbD (x ++ bit1 a) 0 = a)
@[simp] theorem layJ_0 (x : BitVec 20) :
    BitVec.extractLsb' 5 20 (x ++ 0#5 : BitVec 25) = x :=
  (by simp (disch := omega) only [app_hi, Nat.reduceSub, BitVec.extractLsb'_eq_self] : BitVec.extractLsb' 5 20 (x ++ 0#5) = x)
@[simp] theorem layJ_1 (x : BitVec 20) :
    BitVec.extractLsb' 0 5 (x ++ 0#5 : BitVec 25) = 0#5 :=
  (by simp (disch := omega) only [app_lo, BitVec.extractLsb'_eq_self] : BitVec.extractLsb' 0 5 (x ++ 0#5) = 0#5)
@[simp] theorem layX_0 (x : BitVec 10) :
    BitVec.extractLsb' 15 10 (x ++ 0#15 : BitVec 25) = x :=
  (by simp (disch := omega) only [app_hi, Nat.reduceSub, BitVec.extractLsb'_eq_self] : BitVec.extractLsb' 15 10 (x ++ 0#15) = x)
@[simp] theorem layX_1 (x : BitVec 10) :
    BitVec.extractLsb' 0 15 (x ++ 0#15 : BitVec 25) = 0#15 :=
  (by simp (disch := omega) only [app_lo, BitVec.extractLsb'_eq_self] : BitVec.extractLsb' 0 15 (x ++ 0#15) = 0#15)
@[simp] theorem layHi_0 (x : BitVec 9) (y : BitVec 5) :
    BitVec.extractLsb' 5 9 (x ++ y : BitVec 14) = x :=
  (by simp (disch := omega) only [app_hi, Nat.reduceSub, BitVec.extractLsb'_eq_self] : BitVec.extractLsb' 5 9 (x ++ y) = x)
@[simp] theorem layHi_1 (x : BitVec 9) (y : BitVec 5) :
    BitVec.extractLsb' 0 5 (x ++ y : BitVec 14) = y :=
  (by simp (disch := omega) only [app_lo, BitVec.extractLsb'_eq_self] : BitVec.extractLsb' 0 5 (x ++ y) = y)
@[simp] theorem copyP_0 (x : BitVec 2) (y : BitVec 3) (a : Bool) :
    BitVec.extractLsb' 23 2 (x ++ y ++ bit1 a ++ 0#19 : BitVec 25) = x :=
  (by simp (disch := omega) only [app_hi, Nat.reduceSub, BitVec.extractLsb'_eq_self] : BitVec.extractLsb' 23 2 (x ++ y ++ bit1 a ++ 0#19) = x)
@[simp] theorem copyP_1 (x : BitVec 2) (y : BitVec 3) (a : Bool) :
    BitVec.extractLsb' 20 3 (x ++ y ++ bit1 a ++ 0#19 : BitVec 25) = y :=
  (by simp (disch := omega) only [app_lo, app_hi, Nat.reduceSub, BitVec.extractLsb'_eq_self] : BitVec.extractLsb' 20 3 (x ++ y ++ bit1 a ++ 0#19) = y)
@[simp] theorem copyP_2 (x : BitVec 2) (y : BitVec 3) (a : Bool) :
    BitVec.getLsbD (x ++ y ++ bit1 a ++ 0#19 : BitVec 25) 19 = a :=
  (by simp (disch := omega) only [bitAt, app_lo, app_hi, Nat.reduceSub, BitVec.extractLsb'_eq_self, bit1_is] : BitVec.getLsbD (x ++ y ++ bit1 a ++ 0#19) 19 = a)
@[simp] theorem copyP_3 (x : BitVec 2) (y : BitVec 3) (a : Bool) :
    BitVec.extractLsb' 0 19 (x ++ y ++ bit1 a ++ 0#19 : BitVec 25) = 0#19 :=
  (by simp (disch := omega) only [app_lo, BitVec.extractLsb'_eq_self] : BitVec.extractLsb' 0 19 (x ++ y ++ bit1 a ++ 0#19) = 0#19)
@[simp] theorem copyW_0 (a : BitVec 5) (b : BitVec 5) (c : BitVec 6) (d : BitVec 6) (e : BitVec 6) (f : Bool) (g : BitVec 5) (h : Bool) (i : BitVec 5) :
    BitVec.extractLsb' 59 5 (a ++ b ++ c ++ d ++ e ++ bit1 f ++ g ++ bit1 h ++ i ++ 0#24 : BitVec 64) = a :=
  (by simp (disch := omega) only [app_hi, Nat.reduceSub, BitVec.extractLsb'_eq_self] : BitVec.extractLsb' 59 5 (a ++ b ++ c ++ d ++ e ++ bit1 f ++ g ++ bit1 h ++ i ++ 0#24) = a)
@[simp] theorem copyW_1 (a : BitVec 5) (b : BitVec 5) (c : BitVec 6) (d : BitVec 6) (e : BitVec 6) (f : Bool) (g : BitVec 5) (h : Bool) (i : BitVec 5) :
    BitVec.extractLsb' 54 5 (a ++ b ++ c ++ d ++ e ++ bit1 f ++ g ++ bit1 h ++ i ++ 0#24 : BitVec 64) = b :=
  (by simp (disch := omega) only [app_lo, app_hi, Nat.reduceSub, BitVec.extractLsb'_eq_self] : BitVec.extractLsb' 54 5 (a ++ b ++ c ++ d ++ e ++ bit1 f ++ g ++ bit1 h ++ i ++ 0#24) = b)
@[simp] theorem copyW_2 (a : BitVec 5) (b : BitVec 5) (c : BitVec 6) (d : BitVec 6) (e : BitVec 6) (f : Bool) (g : BitVec 5) (h : Bool) (i : BitVec 5) :
    BitVec.extractLsb' 48 6 (a ++ b ++ c ++ d ++ e ++ bit1 f ++ g ++ bit1 h ++ i ++ 0#24 : BitVec 64) = c :=
  (by simp (disch := omega) only [app_lo, app_hi, Nat.reduceSub, BitVec.extractLsb'_eq_self] : BitVec.extractLsb' 48 6 (a ++ b ++ c ++ d ++ e ++ bit1 f ++ g ++ bit1 h ++ i ++ 0#24) = c)
@[simp] theorem copyW_3 (a : BitVec 5) (b : BitVec 5) (c : BitVec 6) (d : BitVec 6) (e : BitVec 6) (f : Bool) (g : BitVec 5) (h : Bool) (i : BitVec 5) :
    BitVec.extractLsb' 42 6 (a ++ b ++ c ++ d ++ e ++ bit1 f ++ g ++ bit1 h ++ i ++ 0#24 : BitVec 64) = d :=
  (by simp (disch := omega) only [app_lo, app_hi, Nat.reduceSub, BitVec.extractLsb'_eq_self] : BitVec.extractLsb' 42 6 (a ++ b ++ c ++ d ++ e ++ bit1 f ++ g ++ bit1 h ++ i ++ 0#24) = d)
@[simp] theorem copyW_4 (a : BitVec 5) (b : BitVec 5) (c : BitVec 6) (d : BitVec 6) (e : BitVec 6) (f : Bool) (g : BitVec 5) (h : Bool) (i : BitVec 5) :
    BitVec.extractLsb' 36 6 (a ++ b ++ c ++ d ++ e ++ bit1 f ++ g ++ bit1 h ++ i ++ 0#24 : BitVec 64) = e :=
  (by simp (disch := omega) only [app_lo, app_hi, Nat.reduceSub, BitVec.extractLsb'_eq_self] : BitVec.extractLsb' 36 6 (a ++ b ++ c ++ d ++ e ++ bit1 f ++ g ++ bit1 h ++ i ++ 0#24) = e)
@[simp] theorem copyW_5 (a : BitVec 5) (b : BitVec 5) (c : BitVec 6) (d : BitVec 6) (e : BitVec 6) (f : Bool) (g : BitVec 5) (h : Bool) (i : BitVec 5) :
    BitVec.getLsbD (a ++ b ++ c ++ d ++ e ++ bit1 f ++ g ++ bit1 h ++ i ++ 0#24 : BitVec 64) 35 = f :=
  (by simp (disch := omega) only [bitAt, app_lo, app_hi, Nat.reduceSub, BitVec.extractLsb'_eq_self, bit1_is] : BitVec.getLsbD (a ++ b ++ c ++ d ++ e ++ bit1 f ++ g ++ bit1 h ++ i ++ 0#24) 35 = f)
@[simp] theorem copyW_6 (a : BitVec 5) (b : BitVec 5) (c : BitVec 6) (d : BitVec 6) (e : BitVec 6) (f : Bool) (g : BitVec 5) (h : Bool) (i : BitVec 5) :
    BitVec.extractLsb' 30 5 (a ++ b ++ c ++ d ++ e ++ bit1 f ++ g ++ bit1 h ++ i ++ 0#24 : BitVec 64) = g :=
  (by simp (disch := omega) only [app_lo, app_hi, Nat.reduceSub, BitVec.extractLsb'_eq_self] : BitVec.extractLsb' 30 5 (a ++ b ++ c ++ d ++ e ++ bit1 f ++ g ++ bit1 h ++ i ++ 0#24) = g)
@[simp] theorem copyW_7 (a : BitVec 5) (b : BitVec 5) (c : BitVec 6) (d : BitVec 6) (e : BitVec 6) (f : Bool) (g : BitVec 5) (h : Bool) (i : BitVec 5) :
    BitVec.getLsbD (a ++ b ++ c ++ d ++ e ++ bit1 f ++ g ++ bit1 h ++ i ++ 0#24 : BitVec 64) 29 = h :=
  (by simp (disch := omega) only [bitAt, app_lo, app_hi, Nat.reduceSub, BitVec.extractLsb'_eq_self, bit1_is] : BitVec.getLsbD (a ++ b ++ c ++ d ++ e ++ bit1 f ++ g ++ bit1 h ++ i ++ 0#24) 29 = h)
@[simp] theorem copyW_8 (a : BitVec 5) (b : BitVec 5) (c : BitVec 6) (d : BitVec 6) (e : BitVec 6) (f : Bool) (g : BitVec 5) (h : Bool) (i : BitVec 5) :
    BitVec.extractLsb' 24 5 (a ++ b ++ c ++ d ++ e ++ bit1 f ++ g ++ bit1 h ++ i ++ 0#24 : BitVec 64) = i :=
  (by simp (disch := omega) only [app_lo, app_hi, Nat.reduceSub, BitVec.extractLsb'_eq_self] : BitVec.extractLsb' 24 5 (a ++ b ++ c ++ d ++ e ++ bit1 f ++ g ++ bit1 h ++ i ++ 0#24) = i)
@[simp] theorem copyW_9 (a : BitVec 5) (b : BitVec 5) (c : BitVec 6) (d : BitVec 6) (e : BitVec 6) (f : Bool) (g : BitVec 5) (h : Bool) (i : BitVec 5) :
    BitVec.extractLsb' 0 24 (a ++ b ++ c ++ d ++ e ++ bit1 f ++ g ++ bit1 h ++ i ++ 0#24 : BitVec 64) = 0#24 :=
  (by simp (disch := omega) only [app_lo, BitVec.extractLsb'_eq_self] : BitVec.extractLsb' 0 24 (a ++ b ++ c ++ d ++ e ++ bit1 f ++ g ++ bit1 h ++ i ++ 0#24) = 0#24)
@[simp] theorem mcP_0 (a : Bool) (x : BitVec 3) :
    BitVec.getLsbD (0#1 ++ bit1 a ++ x ++ 0#20 : BitVec 25) 24 = false :=
  (by simp (disch := omega) only [bitAt, app_hi, Nat.reduceSub, BitVec.extractLsb'_eq_self]; rfl : BitVec.getLsbD (0#1 ++ bit1 a ++ x ++ 0#20) 24 = false)
@[simp] theorem mcP_1 (a : Bool) (x : BitVec 3) :
    BitVec.getLsbD (0#1 ++ bit1 a ++ x ++ 0#20 : BitVec 25) 23 = a :=
  (by simp (disch := omega) only [bitAt, app_lo, app_hi, Nat.reduceSub, BitVec.extractLsb'_eq_self, bit1_is] : BitVec.getLsbD (0#1 ++ bit1 a ++ x ++ 0#20) 23 = a)
@[simp] theorem mcP_2 (a : Bool) (x : BitVec 3) :
    BitVec.extractLsb' 20 3 (0#1 ++ bit1 a ++ x ++ 0#20 : BitVec 25) = x :=
  (by simp (disch := omega) only [app_lo, app_hi, Nat.reduceSub, BitVec.extractLsb'_eq_self] : BitVec.extractLsb' 20 3 (0#1 ++ bit1 a ++ x ++ 0#20) = x)
@[simp] theorem mcP_3 (a : Bool) (x : BitVec 3) :
    BitVec.extractLsb' 0 20 (0#1 ++ bit1 a ++ x ++ 0#20 : BitVec 25) = 0#20 :=
  (by simp (disch := omega) only [app_lo, BitVec.extractLsb'_eq_self] : BitVec.extractLsb' 0 20 (0#1 ++ bit1 a ++ x ++ 0#20) = 0#20)
@[simp] theorem mcW_0 (a : BitVec 5) (c : BitVec 6) (d : BitVec 6) (e : BitVec 6) (f : Bool) (g : BitVec 5) :
    BitVec.extractLsb' 59 5 (a ++ 0#5 ++ c ++ d ++ e ++ bit1 f ++ g ++ 0#30 : BitVec 64) = a :=
  (by simp (disch := omega) only [app_hi, Nat.reduceSub, BitVec.extractLsb'_eq_self] : BitVec.extractLsb' 59 5 (a ++ 0#5 ++ c ++ d ++ e ++ bit1 f ++ g ++ 0#30) = a)
@[simp] theorem mcW_1 (a : BitVec 5) (c : BitVec 6) (d : BitVec 6) (e : BitVec 6) (f : Bool) (g : BitVec 5) :
    BitVec.extractLsb' 54 5 (a ++ 0#5 ++ c ++ d ++ e ++ bit1 f ++ g ++ 0#30 : BitVec 64) = 0#5 :=
  (by simp (disch := omega) only [app_lo, app_hi, Nat.reduceSub, BitVec.extractLsb'_eq_self] : BitVec.extractLsb' 54 5 (a ++ 0#5 ++ c ++ d ++ e ++ bit1 f ++ g ++ 0#30) = 0#5)
@[simp] theorem mcW_2 (a : BitVec 5) (c : BitVec 6) (d : BitVec 6) (e : BitVec 6) (f : Bool) (g : BitVec 5) :
    BitVec.extractLsb' 48 6 (a ++ 0#5 ++ c ++ d ++ e ++ bit1 f ++ g ++ 0#30 : BitVec 64) = c :=
  (by simp (disch := omega) only [app_lo, app_hi, Nat.reduceSub, BitVec.extractLsb'_eq_self] : BitVec.extractLsb' 48 6 (a ++ 0#5 ++ c ++ d ++ e ++ bit1 f ++ g ++ 0#30) = c)
@[simp] theorem mcW_3 (a : BitVec 5) (c : BitVec 6) (d : BitVec 6) (e : BitVec 6) (f : Bool) (g : BitVec 5) :
    BitVec.extractLsb' 42 6 (a ++ 0#5 ++ c ++ d ++ e ++ bit1 f ++ g ++ 0#30 : BitVec 64) = d :=
  (by simp (disch := omega) only [app_lo, app_hi, Nat.reduceSub, BitVec.extractLsb'_eq_self] : BitVec.extractLsb' 42 6 (a ++ 0#5 ++ c ++ d ++ e ++ bit1 f ++ g ++ 0#30) = d)
@[simp] theorem mcW_4 (a : BitVec 5) (c : BitVec 6) (d : BitVec 6) (e : BitVec 6) (f : Bool) (g : BitVec 5) :
    BitVec.extractLsb' 36 6 (a ++ 0#5 ++ c ++ d ++ e ++ bit1 f ++ g ++ 0#30 : BitVec 64) = e :=
  (by simp (disch := omega) only [app_lo, app_hi, Nat.reduceSub, BitVec.extractLsb'_eq_self] : BitVec.extractLsb' 36 6 (a ++ 0#5 ++ c ++ d ++ e ++ bit1 f ++ g ++ 0#30) = e)
@[simp] theorem mcW_5 (a : BitVec 5) (c : BitVec 6) (d : BitVec 6) (e : BitVec 6) (f : Bool) (g : BitVec 5) :
    BitVec.getLsbD (a ++ 0#5 ++ c ++ d ++ e ++ bit1 f ++ g ++ 0#30 : BitVec 64) 35 = f :=
  (by simp (disch := omega) only [bitAt, app_lo, app_hi, Nat.reduceSub, BitVec.extractLsb'_eq_self, bit1_is] : BitVec.getLsbD (a ++ 0#5 ++ c ++ d ++ e ++ bit1 f ++ g ++ 0#30) 35 = f)
@[simp] theorem mcW_6 (a : BitVec 5) (c : BitVec 6) (d : BitVec 6) (e : BitVec 6) (f : Bool) (g : BitVec 5) :
    BitVec.extractLsb' 30 5 (a ++ 0#5 ++ c ++ d ++ e ++ bit1 f ++ g ++ 0#30 : BitVec 64) = g :=
  (by simp (disch := omega) only [app_lo, app_hi, Nat.reduceSub, BitVec.extractLsb'_eq_self] : BitVec.extractLsb' 30 5 (a ++ 0#5 ++ c ++ d ++ e ++ bit1 f ++ g ++ 0#30) = g)
@[simp] theorem mcW_7 (a : BitVec 5) (c : BitVec 6) (d : BitVec 6) (e : BitVec 6) (f : Bool) (g : BitVec 5) :
    BitVec.extractLsb' 0 30 (a ++ 0#5 ++ c ++ d ++ e ++ bit1 f ++ g ++ 0#30 : BitVec 64) = 0#30 :=
  (by simp (disch := omega) only [app_lo, BitVec.extractLsb'_eq_self] : BitVec.extractLsb' 0 30 (a ++ 0#5 ++ c ++ d ++ e ++ bit1 f ++ g ++ 0#30) = 0#30)
@[simp] theorem gathP_0 (a : BitVec 2) (b : BitVec 2) (c : Bool) (d : Bool) (e : BitVec 3) (f : Bool) (g : BitVec 3) :
    BitVec.extractLsb' 23 2 (a ++ b ++ bit1 c ++ bit1 d ++ e ++ bit1 f ++ g ++ 0#12 : BitVec 25) = a :=
  (by simp (disch := omega) only [app_hi, Nat.reduceSub, BitVec.extractLsb'_eq_self] : BitVec.extractLsb' 23 2 (a ++ b ++ bit1 c ++ bit1 d ++ e ++ bit1 f ++ g ++ 0#12) = a)
@[simp] theorem gathP_1 (a : BitVec 2) (b : BitVec 2) (c : Bool) (d : Bool) (e : BitVec 3) (f : Bool) (g : BitVec 3) :
    BitVec.extractLsb' 21 2 (a ++ b ++ bit1 c ++ bit1 d ++ e ++ bit1 f ++ g ++ 0#12 : BitVec 25) = b :=
  (by simp (disch := omega) only [app_lo, app_hi, Nat.reduceSub, BitVec.extractLsb'_eq_self] : BitVec.extractLsb' 21 2 (a ++ b ++ bit1 c ++ bit1 d ++ e ++ bit1 f ++ g ++ 0#12) = b)
@[simp] theorem gathP_2 (a : BitVec 2) (b : BitVec 2) (c : Bool) (d : Bool) (e : BitVec 3) (f : Bool) (g : BitVec 3) :
    BitVec.getLsbD (a ++ b ++ bit1 c ++ bit1 d ++ e ++ bit1 f ++ g ++ 0#12 : BitVec 25) 20 = c :=
  (by simp (disch := omega) only [bitAt, app_lo, app_hi, Nat.reduceSub, BitVec.extractLsb'_eq_self, bit1_is] : BitVec.getLsbD (a ++ b ++ bit1 c ++ bit1 d ++ e ++ bit1 f ++ g ++ 0#12) 20 = c)
@[simp] theorem gathP_3 (a : BitVec 2) (b : BitVec 2) (c : Bool) (d : Bool) (e : BitVec 3) (f : Bool) (g : BitVec 3) :
    BitVec.getLsbD (a ++ b ++ bit1 c ++ bit1 d ++ e ++ bit1 f ++ g ++ 0#12 : BitVec 25) 19 = d :=
  (by simp (disch := omega) only [bitAt, app_lo, app_hi, Nat.reduceSub, BitVec.extractLsb'_eq_self, bit1_is] : BitVec.getLsbD (a ++ b ++ bit1 c ++ bit1 d ++ e ++ bit1 f ++ g ++ 0#12) 19 = d)
@[simp] theorem gathP_4 (a : BitVec 2) (b : BitVec 2) (c : Bool) (d : Bool) (e : BitVec 3) (f : Bool) (g : BitVec 3) :
    BitVec.extractLsb' 16 3 (a ++ b ++ bit1 c ++ bit1 d ++ e ++ bit1 f ++ g ++ 0#12 : BitVec 25) = e :=
  (by simp (disch := omega) only [app_lo, app_hi, Nat.reduceSub, BitVec.extractLsb'_eq_self] : BitVec.extractLsb' 16 3 (a ++ b ++ bit1 c ++ bit1 d ++ e ++ bit1 f ++ g ++ 0#12) = e)
@[simp] theorem gathP_5 (a : BitVec 2) (b : BitVec 2) (c : Bool) (d : Bool) (e : BitVec 3) (f : Bool) (g : BitVec 3) :
    BitVec.getLsbD (a ++ b ++ bit1 c ++ bit1 d ++ e ++ bit1 f ++ g ++ 0#12 : BitVec 25) 15 = f :=
  (by simp (disch := omega) only [bitAt, app_lo, app_hi, Nat.reduceSub, BitVec.extractLsb'_eq_self, bit1_is] : BitVec.getLsbD (a ++ b ++ bit1 c ++ bit1 d ++ e ++ bit1 f ++ g ++ 0#12) 15 = f)
@[simp] theorem gathP_6 (a : BitVec 2) (b : BitVec 2) (c : Bool) (d : Bool) (e : BitVec 3) (f : Bool) (g : BitVec 3) :
    BitVec.extractLsb' 12 3 (a ++ b ++ bit1 c ++ bit1 d ++ e ++ bit1 f ++ g ++ 0#12 : BitVec 25) = g :=
  (by simp (disch := omega) only [app_lo, app_hi, Nat.reduceSub, BitVec.extractLsb'_eq_self] : BitVec.extractLsb' 12 3 (a ++ b ++ bit1 c ++ bit1 d ++ e ++ bit1 f ++ g ++ 0#12) = g)
@[simp] theorem gathP_7 (a : BitVec 2) (b : BitVec 2) (c : Bool) (d : Bool) (e : BitVec 3) (f : Bool) (g : BitVec 3) :
    BitVec.extractLsb' 0 12 (a ++ b ++ bit1 c ++ bit1 d ++ e ++ bit1 f ++ g ++ 0#12 : BitVec 25) = 0#12 :=
  (by simp (disch := omega) only [app_lo, BitVec.extractLsb'_eq_self] : BitVec.extractLsb' 0 12 (a ++ b ++ bit1 c ++ bit1 d ++ e ++ bit1 f ++ g ++ 0#12) = 0#12)
@[simp] theorem gathW_0 (a : BitVec 5) (b : BitVec 5) (c : BitVec 6) (d : BitVec 6) (e : BitVec 5) (f : BitVec 12) (g : BitVec 6) (h : Bool) (i : BitVec 5) :
    BitVec.extractLsb' 59 5 (a ++ b ++ c ++ d ++ e ++ f ++ g ++ bit1 h ++ i ++ 0#13 : BitVec 64) = a :=
  (by simp (disch := omega) only [app_hi, Nat.reduceSub, BitVec.extractLsb'_eq_self] : BitVec.extractLsb' 59 5 (a ++ b ++ c ++ d ++ e ++ f ++ g ++ bit1 h ++ i ++ 0#13) = a)
@[simp] theorem gathW_1 (a : BitVec 5) (b : BitVec 5) (c : BitVec 6) (d : BitVec 6) (e : BitVec 5) (f : BitVec 12) (g : BitVec 6) (h : Bool) (i : BitVec 5) :
    BitVec.extractLsb' 54 5 (a ++ b ++ c ++ d ++ e ++ f ++ g ++ bit1 h ++ i ++ 0#13 : BitVec 64) = b :=
  (by simp (disch := omega) only [app_lo, app_hi, Nat.reduceSub, BitVec.extractLsb'_eq_self] : BitVec.extractLsb' 54 5 (a ++ b ++ c ++ d ++ e ++ f ++ g ++ bit1 h ++ i ++ 0#13) = b)
@[simp] theorem gathW_2 (a : BitVec 5) (b : BitVec 5) (c : BitVec 6) (d : BitVec 6) (e : BitVec 5) (f : BitVec 12) (g : BitVec 6) (h : Bool) (i : BitVec 5) :
    BitVec.extractLsb' 48 6 (a ++ b ++ c ++ d ++ e ++ f ++ g ++ bit1 h ++ i ++ 0#13 : BitVec 64) = c :=
  (by simp (disch := omega) only [app_lo, app_hi, Nat.reduceSub, BitVec.extractLsb'_eq_self] : BitVec.extractLsb' 48 6 (a ++ b ++ c ++ d ++ e ++ f ++ g ++ bit1 h ++ i ++ 0#13) = c)
@[simp] theorem gathW_3 (a : BitVec 5) (b : BitVec 5) (c : BitVec 6) (d : BitVec 6) (e : BitVec 5) (f : BitVec 12) (g : BitVec 6) (h : Bool) (i : BitVec 5) :
    BitVec.extractLsb' 42 6 (a ++ b ++ c ++ d ++ e ++ f ++ g ++ bit1 h ++ i ++ 0#13 : BitVec 64) = d :=
  (by simp (disch := omega) only [app_lo, app_hi, Nat.reduceSub, BitVec.extractLsb'_eq_self] : BitVec.extractLsb' 42 6 (a ++ b ++ c ++ d ++ e ++ f ++ g ++ bit1 h ++ i ++ 0#13) = d)
@[simp] theorem gathW_4 (a : BitVec 5) (b : BitVec 5) (c : BitVec 6) (d : BitVec 6) (e : BitVec 5) (f : BitVec 12) (g : BitVec 6) (h : Bool) (i : BitVec 5) :
    BitVec.extractLsb' 37 5 (a ++ b ++ c ++ d ++ e ++ f ++ g ++ bit1 h ++ i ++ 0#13 : BitVec 64) = e :=
  (by simp (disch := omega) only [app_lo, app_hi, Nat.reduceSub, BitVec.extractLsb'_eq_self] : BitVec.extractLsb' 37 5 (a ++ b ++ c ++ d ++ e ++ f ++ g ++ bit1 h ++ i ++ 0#13) = e)
@[simp] theorem gathW_5 (a : BitVec 5) (b : BitVec 5) (c : BitVec 6) (d : BitVec 6) (e : BitVec 5) (f : BitVec 12) (g : BitVec 6) (h : Bool) (i : BitVec 5) :
    BitVec.extractLsb' 25 12 (a ++ b ++ c ++ d ++ e ++ f ++ g ++ bit1 h ++ i ++ 0#13 : BitVec 64) = f :=
  (by simp (disch := omega) only [app_lo, app_hi, Nat.reduceSub, BitVec.extractLsb'_eq_self] : BitVec.extractLsb' 25 12 (a ++ b ++ c ++ d ++ e ++ f ++ g ++ bit1 h ++ i ++ 0#13) = f)
@[simp] theorem gathW_6 (a : BitVec 5) (b : BitVec 5) (c : BitVec 6) (d : BitVec 6) (e : BitVec 5) (f : BitVec 12) (g : BitVec 6) (h : Bool) (i : BitVec 5) :
    BitVec.extractLsb' 19 6 (a ++ b ++ c ++ d ++ e ++ f ++ g ++ bit1 h ++ i ++ 0#13 : BitVec 64) = g :=
  (by simp (disch := omega) only [app_lo, app_hi, Nat.reduceSub, BitVec.extractLsb'_eq_self] : BitVec.extractLsb' 19 6 (a ++ b ++ c ++ d ++ e ++ f ++ g ++ bit1 h ++ i ++ 0#13) = g)
@[simp] theorem gathW_7 (a : BitVec 5) (b : BitVec 5) (c : BitVec 6) (d : BitVec 6) (e : BitVec 5) (f : BitVec 12) (g : BitVec 6) (h : Bool) (i : BitVec 5) :
    BitVec.getLsbD (a ++ b ++ c ++ d ++ e ++ f ++ g ++ bit1 h ++ i ++ 0#13 : BitVec 64) 18 = h :=
  (by simp (disch := omega) only [bitAt, app_lo, app_hi, Nat.reduceSub, BitVec.extractLsb'_eq_self, bit1_is] : BitVec.getLsbD (a ++ b ++ c ++ d ++ e ++ f ++ g ++ bit1 h ++ i ++ 0#13) 18 = h)
@[simp] theorem gathW_8 (a : BitVec 5) (b : BitVec 5) (c : BitVec 6) (d : BitVec 6) (e : BitVec 5) (f : BitVec 12) (g : BitVec 6) (h : Bool) (i : BitVec 5) :
    BitVec.extractLsb' 13 5 (a ++ b ++ c ++ d ++ e ++ f ++ g ++ bit1 h ++ i ++ 0#13 : BitVec 64) = i :=
  (by simp (disch := omega) only [app_lo, app_hi, Nat.reduceSub, BitVec.extractLsb'_eq_self] : BitVec.extractLsb' 13 5 (a ++ b ++ c ++ d ++ e ++ f ++ g ++ bit1 h ++ i ++ 0#13) = i)
@[simp] theorem gathW_9 (a : BitVec 5) (b : BitVec 5) (c : BitVec 6) (d : BitVec 6) (e : BitVec 5) (f : BitVec 12) (g : BitVec 6) (h : Bool) (i : BitVec 5) :
    BitVec.extractLsb' 0 13 (a ++ b ++ c ++ d ++ e ++ f ++ g ++ bit1 h ++ i ++ 0#13 : BitVec 64) = 0#13 :=
  (by simp (disch := omega) only [app_lo, BitVec.extractLsb'_eq_self] : BitVec.extractLsb' 0 13 (a ++ b ++ c ++ d ++ e ++ f ++ g ++ bit1 h ++ i ++ 0#13) = 0#13)
@[simp] theorem scatP_0 (b : BitVec 2) (e : BitVec 3) (f : Bool) (g : BitVec 3) :
    BitVec.extractLsb' 23 2 (0#2 ++ b ++ 0#2 ++ e ++ bit1 f ++ g ++ 0#12 : BitVec 25) = 0#2 :=
  (by simp (disch := omega) only [app_hi, Nat.reduceSub, BitVec.extractLsb'_eq_self] : BitVec.extractLsb' 23 2 (0#2 ++ b ++ 0#2 ++ e ++ bit1 f ++ g ++ 0#12) = 0#2)
@[simp] theorem scatP_1 (b : BitVec 2) (e : BitVec 3) (f : Bool) (g : BitVec 3) :
    BitVec.extractLsb' 21 2 (0#2 ++ b ++ 0#2 ++ e ++ bit1 f ++ g ++ 0#12 : BitVec 25) = b :=
  (by simp (disch := omega) only [app_lo, app_hi, Nat.reduceSub, BitVec.extractLsb'_eq_self] : BitVec.extractLsb' 21 2 (0#2 ++ b ++ 0#2 ++ e ++ bit1 f ++ g ++ 0#12) = b)
@[simp] theorem scatP_2 (b : BitVec 2) (e : BitVec 3) (f : Bool) (g : BitVec 3) :
    BitVec.extractLsb' 19 2 (0#2 ++ b ++ 0#2 ++ e ++ bit1 f ++ g ++ 0#12 : BitVec 25) = 0#2 :=
  (by simp (disch := omega) only [app_lo, app_hi, Nat.reduceSub, BitVec.extractLsb'_eq_self] : BitVec.extractLsb' 19 2 (0#2 ++ b ++ 0#2 ++ e ++ bit1 f ++ g ++ 0#12) = 0#2)
@[simp] theorem scatP_3 (b : BitVec 2) (e : BitVec 3) (f : Bool) (g : BitVec 3) :
    BitVec.extractLsb' 16 3 (0#2 ++ b ++ 0#2 ++ e ++ bit1 f ++ g ++ 0#12 : BitVec 25) = e :=
  (by simp (disch := omega) only [app_lo, app_hi, Nat.reduceSub, BitVec.extractLsb'_eq_self] : BitVec.extractLsb' 16 3 (0#2 ++ b ++ 0#2 ++ e ++ bit1 f ++ g ++ 0#12) = e)
@[simp] theorem scatP_4 (b : BitVec 2) (e : BitVec 3) (f : Bool) (g : BitVec 3) :
    BitVec.getLsbD (0#2 ++ b ++ 0#2 ++ e ++ bit1 f ++ g ++ 0#12 : BitVec 25) 15 = f :=
  (by simp (disch := omega) only [bitAt, app_lo, app_hi, Nat.reduceSub, BitVec.extractLsb'_eq_self, bit1_is] : BitVec.getLsbD (0#2 ++ b ++ 0#2 ++ e ++ bit1 f ++ g ++ 0#12) 15 = f)
@[simp] theorem scatP_5 (b : BitVec 2) (e : BitVec 3) (f : Bool) (g : BitVec 3) :
    BitVec.extractLsb' 12 3 (0#2 ++ b ++ 0#2 ++ e ++ bit1 f ++ g ++ 0#12 : BitVec 25) = g :=
  (by simp (disch := omega) only [app_lo, app_hi, Nat.reduceSub, BitVec.extractLsb'_eq_self] : BitVec.extractLsb' 12 3 (0#2 ++ b ++ 0#2 ++ e ++ bit1 f ++ g ++ 0#12) = g)
@[simp] theorem scatP_6 (b : BitVec 2) (e : BitVec 3) (f : Bool) (g : BitVec 3) :
    BitVec.extractLsb' 0 12 (0#2 ++ b ++ 0#2 ++ e ++ bit1 f ++ g ++ 0#12 : BitVec 25) = 0#12 :=
  (by simp (disch := omega) only [app_lo, BitVec.extractLsb'_eq_self] : BitVec.extractLsb' 0 12 (0#2 ++ b ++ 0#2 ++ e ++ bit1 f ++ g ++ 0#12) = 0#12)
@[simp] theorem scatW_0 (a : BitVec 5) (b : BitVec 5) (c : BitVec 6) (f : BitVec 12) (g : BitVec 6) (h : Bool) (i : BitVec 5) :
    BitVec.extractLsb' 59 5 (a ++ b ++ c ++ 0#11 ++ f ++ g ++ bit1 h ++ i ++ 0#13 : BitVec 64) = a :=
  (by simp (disch := omega) only [app_hi, Nat.reduceSub, BitVec.extractLsb'_eq_self] : BitVec.extractLsb' 59 5 (a ++ b ++ c ++ 0#11 ++ f ++ g ++ bit1 h ++ i ++ 0#13) = a)
@[simp] theorem scatW_1 (a : BitVec 5) (b : BitVec 5) (c : BitVec 6) (f : BitVec 12) (g : BitVec 6) (h : Bool) (i : BitVec 5) :
    BitVec.extractLsb' 54 5 (a ++ b ++ c ++ 0#11 ++ f ++ g ++ bit1 h ++ i ++ 0#13 : BitVec 64) = b :=
  (by simp (disch := omega) only [app_lo, app_hi, Nat.reduceSub, BitVec.extractLsb'_eq_self] : BitVec.extractLsb' 54 5 (a ++ b ++ c ++ 0#11 ++ f ++ g ++ bit1 h ++ i ++ 0#13) = b)
@[simp] theorem scatW_2 (a : BitVec 5) (b : BitVec 5) (c : BitVec 6) (f : BitVec 12) (g : BitVec 6) (h : Bool) (i : BitVec 5) :
    BitVec.extractLsb' 48 6 (a ++ b ++ c ++ 0#11 ++ f ++ g ++ bit1 h ++ i ++ 0#13 : BitVec 64) = c :=
  (by simp (disch := omega) only [app_lo, app_hi, Nat.reduceSub, BitVec.extractLsb'_eq_self] : BitVec.extractLsb' 48 6 (a ++ b ++ c ++ 0#11 ++ f ++ g ++ bit1 h ++ i ++ 0#13) = c)
@[simp] theorem scatW_3 (a : BitVec 5) (b : BitVec 5) (c : BitVec 6) (f : BitVec 12) (g : BitVec 6) (h : Bool) (i : BitVec 5) :
    BitVec.extractLsb' 37 11 (a ++ b ++ c ++ 0#11 ++ f ++ g ++ bit1 h ++ i ++ 0#13 : BitVec 64) = 0#11 :=
  (by simp (disch := omega) only [app_lo, app_hi, Nat.reduceSub, BitVec.extractLsb'_eq_self] : BitVec.extractLsb' 37 11 (a ++ b ++ c ++ 0#11 ++ f ++ g ++ bit1 h ++ i ++ 0#13) = 0#11)
@[simp] theorem scatW_4 (a : BitVec 5) (b : BitVec 5) (c : BitVec 6) (f : BitVec 12) (g : BitVec 6) (h : Bool) (i : BitVec 5) :
    BitVec.extractLsb' 25 12 (a ++ b ++ c ++ 0#11 ++ f ++ g ++ bit1 h ++ i ++ 0#13 : BitVec 64) = f :=
  (by simp (disch := omega) only [app_lo, app_hi, Nat.reduceSub, BitVec.extractLsb'_eq_self] : BitVec.extractLsb' 25 12 (a ++ b ++ c ++ 0#11 ++ f ++ g ++ bit1 h ++ i ++ 0#13) = f)
@[simp] theorem scatW_5 (a : BitVec 5) (b : BitVec 5) (c : BitVec 6) (f : BitVec 12) (g : BitVec 6) (h : Bool) (i : BitVec 5) :
    BitVec.extractLsb' 19 6 (a ++ b ++ c ++ 0#11 ++ f ++ g ++ bit1 h ++ i ++ 0#13 : BitVec 64) = g :=
  (by simp (disch := omega) only [app_lo, app_hi, Nat.reduceSub, BitVec.extractLsb'_eq_self] : BitVec.extractLsb' 19 6 (a ++ b ++ c ++ 0#11 ++ f ++ g ++ bit1 h ++ i ++ 0#13) = g)
@[simp] theorem scatW_6 (a : BitVec 5) (b : BitVec 5) (c : BitVec 6) (f : BitVec 12) (g : BitVec 6) (h : Bool) (i : BitVec 5) :
    BitVec.getLsbD (a ++ b ++ c ++ 0#11 ++ f ++ g ++ bit1 h ++ i ++ 0#13 : BitVec 64) 18 = h :=
  (by simp (disch := omega) only [bitAt, app_lo, app_hi, Nat.reduceSub, BitVec.extractLsb'_eq_self, bit1_is] : BitVec.getLsbD (a ++ b ++ c ++ 0#11 ++ f ++ g ++ bit1 h ++ i ++ 0#13) 18 = h)
@[simp] theorem scatW_7 (a : BitVec 5) (b : BitVec 5) (c : BitVec 6) (f : BitVec 12) (g : BitVec 6) (h : Bool) (i : BitVec 5) :
    BitVec.extractLsb' 13 5 (a ++ b ++ c ++ 0#11 ++ f ++ g ++ bit1 h ++ i ++ 0#13 : BitVec 64) = i :=
  (by simp (disch := omega) only [app_lo, app_hi, Nat.reduceSub, BitVec.extractLsb'_eq_self] : BitVec.extractLsb' 13 5 (a ++ b ++ c ++ 0#11 ++ f ++ g ++ bit1 h ++ i ++ 0#13) = i)
@[simp] theorem scatW_8 (a : BitVec 5) (b : BitVec 5) (c : BitVec 6) (f : BitVec 12) (g : BitVec 6) (h : Bool) (i : BitVec 5) :
    BitVec.extractLsb' 0 13 (a ++ b ++ c ++ 0#11 ++ f ++ g ++ bit1 h ++ i ++ 0#13 : BitVec 64) = 0#13 :=
  (by simp (disch := omega) only [app_lo, BitVec.extractLsb'_eq_self] : BitVec.extractLsb' 0 13 (a ++ b ++ c ++ 0#11 ++ f ++ g ++ bit1 h ++ i ++ 0#13) = 0#13)
@[simp] theorem mmaP_0 (a : BitVec 6) (b : BitVec 6) (c : BitVec 3) :
    BitVec.extractLsb' 19 6 (a ++ b ++ c ++ 0#10 : BitVec 25) = a :=
  (by simp (disch := omega) only [app_hi, Nat.reduceSub, BitVec.extractLsb'_eq_self] : BitVec.extractLsb' 19 6 (a ++ b ++ c ++ 0#10) = a)
@[simp] theorem mmaP_1 (a : BitVec 6) (b : BitVec 6) (c : BitVec 3) :
    BitVec.extractLsb' 13 6 (a ++ b ++ c ++ 0#10 : BitVec 25) = b :=
  (by simp (disch := omega) only [app_lo, app_hi, Nat.reduceSub, BitVec.extractLsb'_eq_self] : BitVec.extractLsb' 13 6 (a ++ b ++ c ++ 0#10) = b)
@[simp] theorem mmaP_2 (a : BitVec 6) (b : BitVec 6) (c : BitVec 3) :
    BitVec.extractLsb' 10 3 (a ++ b ++ c ++ 0#10 : BitVec 25) = c :=
  (by simp (disch := omega) only [app_lo, app_hi, Nat.reduceSub, BitVec.extractLsb'_eq_self] : BitVec.extractLsb' 10 3 (a ++ b ++ c ++ 0#10) = c)
@[simp] theorem mmaP_3 (a : BitVec 6) (b : BitVec 6) (c : BitVec 3) :
    BitVec.extractLsb' 0 10 (a ++ b ++ c ++ 0#10 : BitVec 25) = 0#10 :=
  (by simp (disch := omega) only [app_lo, BitVec.extractLsb'_eq_self] : BitVec.extractLsb' 0 10 (a ++ b ++ c ++ 0#10) = 0#10)
@[simp] theorem mmaW_0 (a : BitVec 8) (b : BitVec 8) (c : Bool) (d : BitVec 6) (e : Bool) (f : BitVec 6) (g : BitVec 5) (h : Bool) (i : Bool) (j : BitVec 6) (k : BitVec 6) :
    BitVec.extractLsb' 56 8 (a ++ b ++ bit1 c ++ d ++ bit1 e ++ f ++ g ++ bit1 h ++ bit1 i ++ j ++ k ++ 0#15 : BitVec 64) = a :=
  (by simp (disch := omega) only [app_hi, Nat.reduceSub, BitVec.extractLsb'_eq_self] : BitVec.extractLsb' 56 8 (a ++ b ++ bit1 c ++ d ++ bit1 e ++ f ++ g ++ bit1 h ++ bit1 i ++ j ++ k ++ 0#15) = a)
@[simp] theorem mmaW_1 (a : BitVec 8) (b : BitVec 8) (c : Bool) (d : BitVec 6) (e : Bool) (f : BitVec 6) (g : BitVec 5) (h : Bool) (i : Bool) (j : BitVec 6) (k : BitVec 6) :
    BitVec.extractLsb' 48 8 (a ++ b ++ bit1 c ++ d ++ bit1 e ++ f ++ g ++ bit1 h ++ bit1 i ++ j ++ k ++ 0#15 : BitVec 64) = b :=
  (by simp (disch := omega) only [app_lo, app_hi, Nat.reduceSub, BitVec.extractLsb'_eq_self] : BitVec.extractLsb' 48 8 (a ++ b ++ bit1 c ++ d ++ bit1 e ++ f ++ g ++ bit1 h ++ bit1 i ++ j ++ k ++ 0#15) = b)
@[simp] theorem mmaW_2 (a : BitVec 8) (b : BitVec 8) (c : Bool) (d : BitVec 6) (e : Bool) (f : BitVec 6) (g : BitVec 5) (h : Bool) (i : Bool) (j : BitVec 6) (k : BitVec 6) :
    BitVec.getLsbD (a ++ b ++ bit1 c ++ d ++ bit1 e ++ f ++ g ++ bit1 h ++ bit1 i ++ j ++ k ++ 0#15 : BitVec 64) 47 = c :=
  (by simp (disch := omega) only [bitAt, app_lo, app_hi, Nat.reduceSub, BitVec.extractLsb'_eq_self, bit1_is] : BitVec.getLsbD (a ++ b ++ bit1 c ++ d ++ bit1 e ++ f ++ g ++ bit1 h ++ bit1 i ++ j ++ k ++ 0#15) 47 = c)
@[simp] theorem mmaW_3 (a : BitVec 8) (b : BitVec 8) (c : Bool) (d : BitVec 6) (e : Bool) (f : BitVec 6) (g : BitVec 5) (h : Bool) (i : Bool) (j : BitVec 6) (k : BitVec 6) :
    BitVec.extractLsb' 41 6 (a ++ b ++ bit1 c ++ d ++ bit1 e ++ f ++ g ++ bit1 h ++ bit1 i ++ j ++ k ++ 0#15 : BitVec 64) = d :=
  (by simp (disch := omega) only [app_lo, app_hi, Nat.reduceSub, BitVec.extractLsb'_eq_self] : BitVec.extractLsb' 41 6 (a ++ b ++ bit1 c ++ d ++ bit1 e ++ f ++ g ++ bit1 h ++ bit1 i ++ j ++ k ++ 0#15) = d)
@[simp] theorem mmaW_4 (a : BitVec 8) (b : BitVec 8) (c : Bool) (d : BitVec 6) (e : Bool) (f : BitVec 6) (g : BitVec 5) (h : Bool) (i : Bool) (j : BitVec 6) (k : BitVec 6) :
    BitVec.getLsbD (a ++ b ++ bit1 c ++ d ++ bit1 e ++ f ++ g ++ bit1 h ++ bit1 i ++ j ++ k ++ 0#15 : BitVec 64) 40 = e :=
  (by simp (disch := omega) only [bitAt, app_lo, app_hi, Nat.reduceSub, BitVec.extractLsb'_eq_self, bit1_is] : BitVec.getLsbD (a ++ b ++ bit1 c ++ d ++ bit1 e ++ f ++ g ++ bit1 h ++ bit1 i ++ j ++ k ++ 0#15) 40 = e)
@[simp] theorem mmaW_5 (a : BitVec 8) (b : BitVec 8) (c : Bool) (d : BitVec 6) (e : Bool) (f : BitVec 6) (g : BitVec 5) (h : Bool) (i : Bool) (j : BitVec 6) (k : BitVec 6) :
    BitVec.extractLsb' 34 6 (a ++ b ++ bit1 c ++ d ++ bit1 e ++ f ++ g ++ bit1 h ++ bit1 i ++ j ++ k ++ 0#15 : BitVec 64) = f :=
  (by simp (disch := omega) only [app_lo, app_hi, Nat.reduceSub, BitVec.extractLsb'_eq_self] : BitVec.extractLsb' 34 6 (a ++ b ++ bit1 c ++ d ++ bit1 e ++ f ++ g ++ bit1 h ++ bit1 i ++ j ++ k ++ 0#15) = f)
@[simp] theorem mmaW_6 (a : BitVec 8) (b : BitVec 8) (c : Bool) (d : BitVec 6) (e : Bool) (f : BitVec 6) (g : BitVec 5) (h : Bool) (i : Bool) (j : BitVec 6) (k : BitVec 6) :
    BitVec.extractLsb' 29 5 (a ++ b ++ bit1 c ++ d ++ bit1 e ++ f ++ g ++ bit1 h ++ bit1 i ++ j ++ k ++ 0#15 : BitVec 64) = g :=
  (by simp (disch := omega) only [app_lo, app_hi, Nat.reduceSub, BitVec.extractLsb'_eq_self] : BitVec.extractLsb' 29 5 (a ++ b ++ bit1 c ++ d ++ bit1 e ++ f ++ g ++ bit1 h ++ bit1 i ++ j ++ k ++ 0#15) = g)
@[simp] theorem mmaW_7 (a : BitVec 8) (b : BitVec 8) (c : Bool) (d : BitVec 6) (e : Bool) (f : BitVec 6) (g : BitVec 5) (h : Bool) (i : Bool) (j : BitVec 6) (k : BitVec 6) :
    BitVec.getLsbD (a ++ b ++ bit1 c ++ d ++ bit1 e ++ f ++ g ++ bit1 h ++ bit1 i ++ j ++ k ++ 0#15 : BitVec 64) 28 = h :=
  (by simp (disch := omega) only [bitAt, app_lo, app_hi, Nat.reduceSub, BitVec.extractLsb'_eq_self, bit1_is] : BitVec.getLsbD (a ++ b ++ bit1 c ++ d ++ bit1 e ++ f ++ g ++ bit1 h ++ bit1 i ++ j ++ k ++ 0#15) 28 = h)
@[simp] theorem mmaW_8 (a : BitVec 8) (b : BitVec 8) (c : Bool) (d : BitVec 6) (e : Bool) (f : BitVec 6) (g : BitVec 5) (h : Bool) (i : Bool) (j : BitVec 6) (k : BitVec 6) :
    BitVec.getLsbD (a ++ b ++ bit1 c ++ d ++ bit1 e ++ f ++ g ++ bit1 h ++ bit1 i ++ j ++ k ++ 0#15 : BitVec 64) 27 = i :=
  (by simp (disch := omega) only [bitAt, app_lo, app_hi, Nat.reduceSub, BitVec.extractLsb'_eq_self, bit1_is] : BitVec.getLsbD (a ++ b ++ bit1 c ++ d ++ bit1 e ++ f ++ g ++ bit1 h ++ bit1 i ++ j ++ k ++ 0#15) 27 = i)
@[simp] theorem mmaW_9 (a : BitVec 8) (b : BitVec 8) (c : Bool) (d : BitVec 6) (e : Bool) (f : BitVec 6) (g : BitVec 5) (h : Bool) (i : Bool) (j : BitVec 6) (k : BitVec 6) :
    BitVec.extractLsb' 21 6 (a ++ b ++ bit1 c ++ d ++ bit1 e ++ f ++ g ++ bit1 h ++ bit1 i ++ j ++ k ++ 0#15 : BitVec 64) = j :=
  (by simp (disch := omega) only [app_lo, app_hi, Nat.reduceSub, BitVec.extractLsb'_eq_self] : BitVec.extractLsb' 21 6 (a ++ b ++ bit1 c ++ d ++ bit1 e ++ f ++ g ++ bit1 h ++ bit1 i ++ j ++ k ++ 0#15) = j)
@[simp] theorem mmaW_10 (a : BitVec 8) (b : BitVec 8) (c : Bool) (d : BitVec 6) (e : Bool) (f : BitVec 6) (g : BitVec 5) (h : Bool) (i : Bool) (j : BitVec 6) (k : BitVec 6) :
    BitVec.extractLsb' 15 6 (a ++ b ++ bit1 c ++ d ++ bit1 e ++ f ++ g ++ bit1 h ++ bit1 i ++ j ++ k ++ 0#15 : BitVec 64) = k :=
  (by simp (disch := omega) only [app_lo, app_hi, Nat.reduceSub, BitVec.extractLsb'_eq_self] : BitVec.extractLsb' 15 6 (a ++ b ++ bit1 c ++ d ++ bit1 e ++ f ++ g ++ bit1 h ++ bit1 i ++ j ++ k ++ 0#15) = k)
@[simp] theorem mmaW_11 (a : BitVec 8) (b : BitVec 8) (c : Bool) (d : BitVec 6) (e : Bool) (f : BitVec 6) (g : BitVec 5) (h : Bool) (i : Bool) (j : BitVec 6) (k : BitVec 6) :
    BitVec.extractLsb' 0 15 (a ++ b ++ bit1 c ++ d ++ bit1 e ++ f ++ g ++ bit1 h ++ bit1 i ++ j ++ k ++ 0#15 : BitVec 64) = 0#15 :=
  (by simp (disch := omega) only [app_lo, BitVec.extractLsb'_eq_self] : BitVec.extractLsb' 0 15 (a ++ b ++ bit1 c ++ d ++ bit1 e ++ f ++ g ++ bit1 h ++ bit1 i ++ j ++ k ++ 0#15) = 0#15)
@[simp] theorem tfW_0 (a : BitVec 6) (b : BitVec 6) (c : BitVec 6) (d : Bool) (e : BitVec 5) :
    BitVec.extractLsb' 58 6 (a ++ b ++ c ++ bit1 d ++ e ++ 0#40 : BitVec 64) = a :=
  (by simp (disch := omega) only [app_hi, Nat.reduceSub, BitVec.extractLsb'_eq_self] : BitVec.extractLsb' 58 6 (a ++ b ++ c ++ bit1 d ++ e ++ 0#40) = a)
@[simp] theorem tfW_1 (a : BitVec 6) (b : BitVec 6) (c : BitVec 6) (d : Bool) (e : BitVec 5) :
    BitVec.extractLsb' 52 6 (a ++ b ++ c ++ bit1 d ++ e ++ 0#40 : BitVec 64) = b :=
  (by simp (disch := omega) only [app_lo, app_hi, Nat.reduceSub, BitVec.extractLsb'_eq_self] : BitVec.extractLsb' 52 6 (a ++ b ++ c ++ bit1 d ++ e ++ 0#40) = b)
@[simp] theorem tfW_2 (a : BitVec 6) (b : BitVec 6) (c : BitVec 6) (d : Bool) (e : BitVec 5) :
    BitVec.extractLsb' 46 6 (a ++ b ++ c ++ bit1 d ++ e ++ 0#40 : BitVec 64) = c :=
  (by simp (disch := omega) only [app_lo, app_hi, Nat.reduceSub, BitVec.extractLsb'_eq_self] : BitVec.extractLsb' 46 6 (a ++ b ++ c ++ bit1 d ++ e ++ 0#40) = c)
@[simp] theorem tfW_3 (a : BitVec 6) (b : BitVec 6) (c : BitVec 6) (d : Bool) (e : BitVec 5) :
    BitVec.getLsbD (a ++ b ++ c ++ bit1 d ++ e ++ 0#40 : BitVec 64) 45 = d :=
  (by simp (disch := omega) only [bitAt, app_lo, app_hi, Nat.reduceSub, BitVec.extractLsb'_eq_self, bit1_is] : BitVec.getLsbD (a ++ b ++ c ++ bit1 d ++ e ++ 0#40) 45 = d)
@[simp] theorem tfW_4 (a : BitVec 6) (b : BitVec 6) (c : BitVec 6) (d : Bool) (e : BitVec 5) :
    BitVec.extractLsb' 40 5 (a ++ b ++ c ++ bit1 d ++ e ++ 0#40 : BitVec 64) = e :=
  (by simp (disch := omega) only [app_lo, app_hi, Nat.reduceSub, BitVec.extractLsb'_eq_self] : BitVec.extractLsb' 40 5 (a ++ b ++ c ++ bit1 d ++ e ++ 0#40) = e)
@[simp] theorem tfW_5 (a : BitVec 6) (b : BitVec 6) (c : BitVec 6) (d : Bool) (e : BitVec 5) :
    BitVec.extractLsb' 0 40 (a ++ b ++ c ++ bit1 d ++ e ++ 0#40 : BitVec 64) = 0#40 :=
  (by simp (disch := omega) only [app_lo, BitVec.extractLsb'_eq_self] : BitVec.extractLsb' 0 40 (a ++ b ++ c ++ bit1 d ++ e ++ 0#40) = 0#40)
@[simp] theorem esW_0 (a : BitVec 24) :
    BitVec.extractLsb' 40 24 (a ++ 0#40 : BitVec 64) = a :=
  (by simp (disch := omega) only [app_hi, Nat.reduceSub, BitVec.extractLsb'_eq_self] : BitVec.extractLsb' 40 24 (a ++ 0#40) = a)
@[simp] theorem esW_1 (a : BitVec 24) :
    BitVec.extractLsb' 0 40 (a ++ 0#40 : BitVec 64) = 0#40 :=
  (by simp (disch := omega) only [app_lo, BitVec.extractLsb'_eq_self] : BitVec.extractLsb' 0 40 (a ++ 0#40) = 0#40)
@[simp] theorem kvP_0 (a : BitVec 6) (b : BitVec 3) (c : BitVec 2) (d : Bool) (e : Bool) :
    BitVec.extractLsb' 19 6 (a ++ b ++ c ++ bit1 d ++ bit1 e ++ 0#12 : BitVec 25) = a :=
  (by simp (disch := omega) only [app_hi, Nat.reduceSub, BitVec.extractLsb'_eq_self] : BitVec.extractLsb' 19 6 (a ++ b ++ c ++ bit1 d ++ bit1 e ++ 0#12) = a)
@[simp] theorem kvP_1 (a : BitVec 6) (b : BitVec 3) (c : BitVec 2) (d : Bool) (e : Bool) :
    BitVec.extractLsb' 16 3 (a ++ b ++ c ++ bit1 d ++ bit1 e ++ 0#12 : BitVec 25) = b :=
  (by simp (disch := omega) only [app_lo, app_hi, Nat.reduceSub, BitVec.extractLsb'_eq_self] : BitVec.extractLsb' 16 3 (a ++ b ++ c ++ bit1 d ++ bit1 e ++ 0#12) = b)
@[simp] theorem kvP_2 (a : BitVec 6) (b : BitVec 3) (c : BitVec 2) (d : Bool) (e : Bool) :
    BitVec.extractLsb' 14 2 (a ++ b ++ c ++ bit1 d ++ bit1 e ++ 0#12 : BitVec 25) = c :=
  (by simp (disch := omega) only [app_lo, app_hi, Nat.reduceSub, BitVec.extractLsb'_eq_self] : BitVec.extractLsb' 14 2 (a ++ b ++ c ++ bit1 d ++ bit1 e ++ 0#12) = c)
@[simp] theorem kvP_3 (a : BitVec 6) (b : BitVec 3) (c : BitVec 2) (d : Bool) (e : Bool) :
    BitVec.getLsbD (a ++ b ++ c ++ bit1 d ++ bit1 e ++ 0#12 : BitVec 25) 13 = d :=
  (by simp (disch := omega) only [bitAt, app_lo, app_hi, Nat.reduceSub, BitVec.extractLsb'_eq_self, bit1_is] : BitVec.getLsbD (a ++ b ++ c ++ bit1 d ++ bit1 e ++ 0#12) 13 = d)
@[simp] theorem kvP_4 (a : BitVec 6) (b : BitVec 3) (c : BitVec 2) (d : Bool) (e : Bool) :
    BitVec.getLsbD (a ++ b ++ c ++ bit1 d ++ bit1 e ++ 0#12 : BitVec 25) 12 = e :=
  (by simp (disch := omega) only [bitAt, app_lo, app_hi, Nat.reduceSub, BitVec.extractLsb'_eq_self, bit1_is] : BitVec.getLsbD (a ++ b ++ c ++ bit1 d ++ bit1 e ++ 0#12) 12 = e)
@[simp] theorem kvP_5 (a : BitVec 6) (b : BitVec 3) (c : BitVec 2) (d : Bool) (e : Bool) :
    BitVec.extractLsb' 0 12 (a ++ b ++ c ++ bit1 d ++ bit1 e ++ 0#12 : BitVec 25) = 0#12 :=
  (by simp (disch := omega) only [app_lo, BitVec.extractLsb'_eq_self] : BitVec.extractLsb' 0 12 (a ++ b ++ c ++ bit1 d ++ bit1 e ++ 0#12) = 0#12)
@[simp] theorem kvW_0 (a : BitVec 6) (b : BitVec 6) (c : BitVec 6) (d : BitVec 6) (e : BitVec 6) (f : Bool) (g : BitVec 5) :
    BitVec.extractLsb' 58 6 (a ++ b ++ c ++ d ++ e ++ bit1 f ++ g ++ 0#28 : BitVec 64) = a :=
  (by simp (disch := omega) only [app_hi, Nat.reduceSub, BitVec.extractLsb'_eq_self] : BitVec.extractLsb' 58 6 (a ++ b ++ c ++ d ++ e ++ bit1 f ++ g ++ 0#28) = a)
@[simp] theorem kvW_1 (a : BitVec 6) (b : BitVec 6) (c : BitVec 6) (d : BitVec 6) (e : BitVec 6) (f : Bool) (g : BitVec 5) :
    BitVec.extractLsb' 52 6 (a ++ b ++ c ++ d ++ e ++ bit1 f ++ g ++ 0#28 : BitVec 64) = b :=
  (by simp (disch := omega) only [app_lo, app_hi, Nat.reduceSub, BitVec.extractLsb'_eq_self] : BitVec.extractLsb' 52 6 (a ++ b ++ c ++ d ++ e ++ bit1 f ++ g ++ 0#28) = b)
@[simp] theorem kvW_2 (a : BitVec 6) (b : BitVec 6) (c : BitVec 6) (d : BitVec 6) (e : BitVec 6) (f : Bool) (g : BitVec 5) :
    BitVec.extractLsb' 46 6 (a ++ b ++ c ++ d ++ e ++ bit1 f ++ g ++ 0#28 : BitVec 64) = c :=
  (by simp (disch := omega) only [app_lo, app_hi, Nat.reduceSub, BitVec.extractLsb'_eq_self] : BitVec.extractLsb' 46 6 (a ++ b ++ c ++ d ++ e ++ bit1 f ++ g ++ 0#28) = c)
@[simp] theorem kvW_3 (a : BitVec 6) (b : BitVec 6) (c : BitVec 6) (d : BitVec 6) (e : BitVec 6) (f : Bool) (g : BitVec 5) :
    BitVec.extractLsb' 40 6 (a ++ b ++ c ++ d ++ e ++ bit1 f ++ g ++ 0#28 : BitVec 64) = d :=
  (by simp (disch := omega) only [app_lo, app_hi, Nat.reduceSub, BitVec.extractLsb'_eq_self] : BitVec.extractLsb' 40 6 (a ++ b ++ c ++ d ++ e ++ bit1 f ++ g ++ 0#28) = d)
@[simp] theorem kvW_4 (a : BitVec 6) (b : BitVec 6) (c : BitVec 6) (d : BitVec 6) (e : BitVec 6) (f : Bool) (g : BitVec 5) :
    BitVec.extractLsb' 34 6 (a ++ b ++ c ++ d ++ e ++ bit1 f ++ g ++ 0#28 : BitVec 64) = e :=
  (by simp (disch := omega) only [app_lo, app_hi, Nat.reduceSub, BitVec.extractLsb'_eq_self] : BitVec.extractLsb' 34 6 (a ++ b ++ c ++ d ++ e ++ bit1 f ++ g ++ 0#28) = e)
@[simp] theorem kvW_5 (a : BitVec 6) (b : BitVec 6) (c : BitVec 6) (d : BitVec 6) (e : BitVec 6) (f : Bool) (g : BitVec 5) :
    BitVec.getLsbD (a ++ b ++ c ++ d ++ e ++ bit1 f ++ g ++ 0#28 : BitVec 64) 33 = f :=
  (by simp (disch := omega) only [bitAt, app_lo, app_hi, Nat.reduceSub, BitVec.extractLsb'_eq_self, bit1_is] : BitVec.getLsbD (a ++ b ++ c ++ d ++ e ++ bit1 f ++ g ++ 0#28) 33 = f)
@[simp] theorem kvW_6 (a : BitVec 6) (b : BitVec 6) (c : BitVec 6) (d : BitVec 6) (e : BitVec 6) (f : Bool) (g : BitVec 5) :
    BitVec.extractLsb' 28 5 (a ++ b ++ c ++ d ++ e ++ bit1 f ++ g ++ 0#28 : BitVec 64) = g :=
  (by simp (disch := omega) only [app_lo, app_hi, Nat.reduceSub, BitVec.extractLsb'_eq_self] : BitVec.extractLsb' 28 5 (a ++ b ++ c ++ d ++ e ++ bit1 f ++ g ++ 0#28) = g)
@[simp] theorem kvW_7 (a : BitVec 6) (b : BitVec 6) (c : BitVec 6) (d : BitVec 6) (e : BitVec 6) (f : Bool) (g : BitVec 5) :
    BitVec.extractLsb' 0 28 (a ++ b ++ c ++ d ++ e ++ bit1 f ++ g ++ 0#28 : BitVec 64) = 0#28 :=
  (by simp (disch := omega) only [app_lo, BitVec.extractLsb'_eq_self] : BitVec.extractLsb' 0 28 (a ++ b ++ c ++ d ++ e ++ bit1 f ++ g ++ 0#28) = 0#28)
@[simp] theorem hdr_0 (sig : BitVec 6) (cls : BitVec 4) (cnt : BitVec 4) (yld : Bool) (qw : BitVec 8) (ld : Bool) (sk : Bool) (sw : Bool) (k : BitVec 6) (g : BitVec 6) :
    BitVec.extractLsb' 58 6 (sig ++ cls ++ cnt ++ 0#1 ++ bit1 yld ++ qw ++ bit1 ld ++ bit1 sk ++ bit1 sw ++ k ++ g ++ 0#25 : BitVec 64) = sig :=
  (by simp (disch := omega) only [app_hi, Nat.reduceSub, BitVec.extractLsb'_eq_self] : BitVec.extractLsb' 58 6 (sig ++ cls ++ cnt ++ 0#1 ++ bit1 yld ++ qw ++ bit1 ld ++ bit1 sk ++ bit1 sw ++ k ++ g ++ 0#25) = sig)
@[simp] theorem hdr_1 (sig : BitVec 6) (cls : BitVec 4) (cnt : BitVec 4) (yld : Bool) (qw : BitVec 8) (ld : Bool) (sk : Bool) (sw : Bool) (k : BitVec 6) (g : BitVec 6) :
    BitVec.extractLsb' 54 4 (sig ++ cls ++ cnt ++ 0#1 ++ bit1 yld ++ qw ++ bit1 ld ++ bit1 sk ++ bit1 sw ++ k ++ g ++ 0#25 : BitVec 64) = cls :=
  (by simp (disch := omega) only [app_lo, app_hi, Nat.reduceSub, BitVec.extractLsb'_eq_self] : BitVec.extractLsb' 54 4 (sig ++ cls ++ cnt ++ 0#1 ++ bit1 yld ++ qw ++ bit1 ld ++ bit1 sk ++ bit1 sw ++ k ++ g ++ 0#25) = cls)
@[simp] theorem hdr_2 (sig : BitVec 6) (cls : BitVec 4) (cnt : BitVec 4) (yld : Bool) (qw : BitVec 8) (ld : Bool) (sk : Bool) (sw : Bool) (k : BitVec 6) (g : BitVec 6) :
    BitVec.extractLsb' 50 4 (sig ++ cls ++ cnt ++ 0#1 ++ bit1 yld ++ qw ++ bit1 ld ++ bit1 sk ++ bit1 sw ++ k ++ g ++ 0#25 : BitVec 64) = cnt :=
  (by simp (disch := omega) only [app_lo, app_hi, Nat.reduceSub, BitVec.extractLsb'_eq_self] : BitVec.extractLsb' 50 4 (sig ++ cls ++ cnt ++ 0#1 ++ bit1 yld ++ qw ++ bit1 ld ++ bit1 sk ++ bit1 sw ++ k ++ g ++ 0#25) = cnt)
@[simp] theorem hdr_3 (sig : BitVec 6) (cls : BitVec 4) (cnt : BitVec 4) (yld : Bool) (qw : BitVec 8) (ld : Bool) (sk : Bool) (sw : Bool) (k : BitVec 6) (g : BitVec 6) :
    BitVec.getLsbD (sig ++ cls ++ cnt ++ 0#1 ++ bit1 yld ++ qw ++ bit1 ld ++ bit1 sk ++ bit1 sw ++ k ++ g ++ 0#25 : BitVec 64) 49 = false :=
  (by simp (disch := omega) only [bitAt, app_lo, app_hi, Nat.reduceSub, BitVec.extractLsb'_eq_self]; rfl : BitVec.getLsbD (sig ++ cls ++ cnt ++ 0#1 ++ bit1 yld ++ qw ++ bit1 ld ++ bit1 sk ++ bit1 sw ++ k ++ g ++ 0#25) 49 = false)
@[simp] theorem hdr_4 (sig : BitVec 6) (cls : BitVec 4) (cnt : BitVec 4) (yld : Bool) (qw : BitVec 8) (ld : Bool) (sk : Bool) (sw : Bool) (k : BitVec 6) (g : BitVec 6) :
    BitVec.getLsbD (sig ++ cls ++ cnt ++ 0#1 ++ bit1 yld ++ qw ++ bit1 ld ++ bit1 sk ++ bit1 sw ++ k ++ g ++ 0#25 : BitVec 64) 48 = yld :=
  (by simp (disch := omega) only [bitAt, app_lo, app_hi, Nat.reduceSub, BitVec.extractLsb'_eq_self, bit1_is] : BitVec.getLsbD (sig ++ cls ++ cnt ++ 0#1 ++ bit1 yld ++ qw ++ bit1 ld ++ bit1 sk ++ bit1 sw ++ k ++ g ++ 0#25) 48 = yld)
@[simp] theorem hdr_5 (sig : BitVec 6) (cls : BitVec 4) (cnt : BitVec 4) (yld : Bool) (qw : BitVec 8) (ld : Bool) (sk : Bool) (sw : Bool) (k : BitVec 6) (g : BitVec 6) :
    BitVec.extractLsb' 40 8 (sig ++ cls ++ cnt ++ 0#1 ++ bit1 yld ++ qw ++ bit1 ld ++ bit1 sk ++ bit1 sw ++ k ++ g ++ 0#25 : BitVec 64) = qw :=
  (by simp (disch := omega) only [app_lo, app_hi, Nat.reduceSub, BitVec.extractLsb'_eq_self] : BitVec.extractLsb' 40 8 (sig ++ cls ++ cnt ++ 0#1 ++ bit1 yld ++ qw ++ bit1 ld ++ bit1 sk ++ bit1 sw ++ k ++ g ++ 0#25) = qw)
@[simp] theorem hdr_6 (sig : BitVec 6) (cls : BitVec 4) (cnt : BitVec 4) (yld : Bool) (qw : BitVec 8) (ld : Bool) (sk : Bool) (sw : Bool) (k : BitVec 6) (g : BitVec 6) :
    BitVec.getLsbD (sig ++ cls ++ cnt ++ 0#1 ++ bit1 yld ++ qw ++ bit1 ld ++ bit1 sk ++ bit1 sw ++ k ++ g ++ 0#25 : BitVec 64) 39 = ld :=
  (by simp (disch := omega) only [bitAt, app_lo, app_hi, Nat.reduceSub, BitVec.extractLsb'_eq_self, bit1_is] : BitVec.getLsbD (sig ++ cls ++ cnt ++ 0#1 ++ bit1 yld ++ qw ++ bit1 ld ++ bit1 sk ++ bit1 sw ++ k ++ g ++ 0#25) 39 = ld)
@[simp] theorem hdr_7 (sig : BitVec 6) (cls : BitVec 4) (cnt : BitVec 4) (yld : Bool) (qw : BitVec 8) (ld : Bool) (sk : Bool) (sw : Bool) (k : BitVec 6) (g : BitVec 6) :
    BitVec.getLsbD (sig ++ cls ++ cnt ++ 0#1 ++ bit1 yld ++ qw ++ bit1 ld ++ bit1 sk ++ bit1 sw ++ k ++ g ++ 0#25 : BitVec 64) 38 = sk :=
  (by simp (disch := omega) only [bitAt, app_lo, app_hi, Nat.reduceSub, BitVec.extractLsb'_eq_self, bit1_is] : BitVec.getLsbD (sig ++ cls ++ cnt ++ 0#1 ++ bit1 yld ++ qw ++ bit1 ld ++ bit1 sk ++ bit1 sw ++ k ++ g ++ 0#25) 38 = sk)
@[simp] theorem hdr_8 (sig : BitVec 6) (cls : BitVec 4) (cnt : BitVec 4) (yld : Bool) (qw : BitVec 8) (ld : Bool) (sk : Bool) (sw : Bool) (k : BitVec 6) (g : BitVec 6) :
    BitVec.getLsbD (sig ++ cls ++ cnt ++ 0#1 ++ bit1 yld ++ qw ++ bit1 ld ++ bit1 sk ++ bit1 sw ++ k ++ g ++ 0#25 : BitVec 64) 37 = sw :=
  (by simp (disch := omega) only [bitAt, app_lo, app_hi, Nat.reduceSub, BitVec.extractLsb'_eq_self, bit1_is] : BitVec.getLsbD (sig ++ cls ++ cnt ++ 0#1 ++ bit1 yld ++ qw ++ bit1 ld ++ bit1 sk ++ bit1 sw ++ k ++ g ++ 0#25) 37 = sw)
@[simp] theorem hdr_9 (sig : BitVec 6) (cls : BitVec 4) (cnt : BitVec 4) (yld : Bool) (qw : BitVec 8) (ld : Bool) (sk : Bool) (sw : Bool) (k : BitVec 6) (g : BitVec 6) :
    BitVec.extractLsb' 31 6 (sig ++ cls ++ cnt ++ 0#1 ++ bit1 yld ++ qw ++ bit1 ld ++ bit1 sk ++ bit1 sw ++ k ++ g ++ 0#25 : BitVec 64) = k :=
  (by simp (disch := omega) only [app_lo, app_hi, Nat.reduceSub, BitVec.extractLsb'_eq_self] : BitVec.extractLsb' 31 6 (sig ++ cls ++ cnt ++ 0#1 ++ bit1 yld ++ qw ++ bit1 ld ++ bit1 sk ++ bit1 sw ++ k ++ g ++ 0#25) = k)
@[simp] theorem hdr_10 (sig : BitVec 6) (cls : BitVec 4) (cnt : BitVec 4) (yld : Bool) (qw : BitVec 8) (ld : Bool) (sk : Bool) (sw : Bool) (k : BitVec 6) (g : BitVec 6) :
    BitVec.extractLsb' 25 6 (sig ++ cls ++ cnt ++ 0#1 ++ bit1 yld ++ qw ++ bit1 ld ++ bit1 sk ++ bit1 sw ++ k ++ g ++ 0#25 : BitVec 64) = g :=
  (by simp (disch := omega) only [app_lo, app_hi, Nat.reduceSub, BitVec.extractLsb'_eq_self] : BitVec.extractLsb' 25 6 (sig ++ cls ++ cnt ++ 0#1 ++ bit1 yld ++ qw ++ bit1 ld ++ bit1 sk ++ bit1 sw ++ k ++ g ++ 0#25) = g)
@[simp] theorem hdr_11 (sig : BitVec 6) (cls : BitVec 4) (cnt : BitVec 4) (yld : Bool) (qw : BitVec 8) (ld : Bool) (sk : Bool) (sw : Bool) (k : BitVec 6) (g : BitVec 6) :
    BitVec.extractLsb' 0 25 (sig ++ cls ++ cnt ++ 0#1 ++ bit1 yld ++ qw ++ bit1 ld ++ bit1 sk ++ bit1 sw ++ k ++ g ++ 0#25 : BitVec 64) = 0#25 :=
  (by simp (disch := omega) only [app_lo, BitVec.extractLsb'_eq_self] : BitVec.extractLsb' 0 25 (sig ++ cls ++ cnt ++ 0#1 ++ bit1 yld ++ qw ++ bit1 ld ++ bit1 sk ++ bit1 sw ++ k ++ g ++ 0#25) = 0#25)

/-! ## Codes -/

@[simp] theorem opnd_code (o : Opnd) : opnd (opndCode o) = o := by
  cases o with
  | v k =>
    have hk := k.isLt
    have h : (BitVec.ofNat 10 k.val).toNat = k.val := by simp; omega
    simp [opnd, opndCode, h]
  | s k =>
    have hk := k.isLt
    have h : (BitVec.ofNat 10 (960 + k.val)).toNat = 960 + k.val := by simp; omega
    simp [opnd, opndCode, h]
  | q k =>
    have hk := k.isLt
    have h : (BitVec.ofNat 10 (1008 + k.val)).toNat = 1008 + k.val := by simp; omega
    have h1 : ¬ 1008 + k.val < 960 := by omega
    have h2 : ¬ 1008 + k.val - 960 < 48 := by omega
    simp [opnd, opndCode, h, h1, h2]
  | _ => simp [opnd, opndCode]

@[simp] theorem aopnd_code (o : AOpnd) : aopnd (aopndCode o) = some o := by
  cases o with
  | a k =>
    have hk := k.isLt
    have h : (BitVec.ofNat 10 k.val).toNat = k.val := by simp; omega
    simp [aopnd, aopndCode, h]
  | q k =>
    have hk := k.isLt
    have h : (BitVec.ofNat 10 (1008 + k.val)).toNat = 1008 + k.val := by simp; omega
    have h1 : ¬ 1008 + k.val < 32 := by omega
    simp [aopnd, aopndCode, h, h1]
  | zero => simp [aopnd, aopndCode]

@[simp] theorem fin32_bits (k : Fin 32) : fin32 (bits5 k) = k := by revert k; decide
@[simp] theorem fin16_bits (k : Fin 16) : fin16 (bits4 k) = k := by revert k; decide
@[simp] theorem fin8_bits (k : Fin 8) : fin8 (bits3 k) = k := by revert k; decide
@[simp] theorem mreg_code (m : MReg) : mreg (mregCode m) = some m := by revert m; decide
@[simp] theorem sreg_code (k : SReg) : sreg (sregCode k) = some k := by revert k; decide
@[simp] theorem sregOr_code (k : Option SReg) : sregOr (sregOrCode k) = some k := by
  cases k with
  | none => rfl
  | some k => revert k; decide
@[simp] theorem stat_code (k : SReg) : stat (statCode k) = some k := by revert k; decide
@[simp] theorem pushQ_code (q : Fin 4) : pushQ (pushQCode q) = some q := by revert q; decide
@[simp] theorem popQ_code (q : Fin 4) : popQ (popQCode q) = some q := by revert q; decide
@[simp] theorem areg_code (k : Fin 32) : areg (aregCode k) = some k := by revert k; decide
@[simp] theorem members_bits (x : BitVec 3) (m : Members) : members (xlnBits x m) = some m := by
  cases m with
  | all => revert x; decide
  | m k => revert x k; decide
@[simp] theorem brCond_areg (k : Fin 32) (b : Bool) : brCond true (brCondBits (.areg k b)) = some (.areg k b) := by revert k b; decide
@[simp] theorem brCond_mask (m : MReg) (b : Bool) : brCond false (brCondBits (.mask m b)) = some (.mask m b) := by revert m b; decide
@[simp] theorem ty_code (x : Ty) : ty (tyCode x) = some x := by cases x <;> rfl
@[simp] theorem rnd_code (x : Rnd) : rnd (rndCode x) = some x := by cases x <;> rfl
@[simp] theorem cond_code (x : Cond) : cond (condCode x) = some x := by cases x <;> rfl
@[simp] theorem fcond_code (x : FCond) : fcond (fcondCode x) = some x := by cases x <;> rfl
@[simp] theorem lay_code (x : Lay) : lay (layCode x) = some x := by cases x <;> rfl
@[simp] theorem fmt_code (x : Fmt) : fmt (fmtCode x) = some x := by cases x <;> rfl
@[simp] theorem pk_code (x : PkFmt) : pk (pkCode x) = some x := by cases x <;> rfl
@[simp] theorem scope_code (x : Scope) : scope (scopeCode x) = some x := by cases x <;> rfl
@[simp] theorem width_code (x : Width) : width (widthCode x) = some x := by cases x <;> rfl
@[simp] theorem voteMode_code (x : VoteMode) : voteMode (voteModeCode x) = some x := by cases x <;> rfl
@[simp] theorem shflMode_code (x : ShflMode) : shflMode (shflModeCode x) = some x := by cases x <;> rfl
@[simp] theorem foldOp_code (x : FoldOp) : foldOp (foldOpCode x) = some x := by cases x <;> rfl
@[simp] theorem barKind_code (x : BarKind) : barKind (barKindCode x) = some x := by cases x <;> rfl
@[simp] theorem atomOp_code (x : AtomOp) : atomOp (atomOpCode x) = some x := by cases x <;> rfl
@[simp] theorem wscope_code (x : WScope) : wscope (wscopeCode x) = some x := by cases x <;> rfl
@[simp] theorem ord_code (x : Ord4) : ord (ordCode x) = x := by cases x <;> rfl
@[simp] theorem tretMode_code (x : TretMode) : tretMode (tretModeCode x) = x := by cases x <;> rfl
@[simp] theorem awidth_code (x : AWidth) : awidth (awidthCode x) = x := by cases x <;> rfl
@[simp] theorem aty_code (x : ATy) : aty (atyCode x) = some x := by cases x <;> rfl
@[simp] theorem rne_code (x : Bool) : rne (rneCode x) = some x := by cases x <;> rfl

end Sys2Proof.Codec
end

