-- ==== Sys2Proof/Laws/PerInstr.lean ====
section
/-! SUPPORT. Decoding an encoded well-formed instruction gives it back, one lemma per constructor. -/

namespace Sys2Proof.Laws.RoundTrip
open Sys2Proof.Codec

/-- The classes whose clauses may hold the instruction: its own, and for the control words every class (R38), less what a front-end
context does not take (R218). -/
def standsIn (c : Fin 8) : Instr → Bool
  | .bra _ | .call _ | .ret => true
  | .brc f => (match f.cond with | .mask _ _ => c != 7 | .areg _ _ => c == 7)
  | .brx _ | .callx _ | .endl => c != 7
  | .loop f => c != 7 || decide (f.k.toNat < 32)
  | i => classOf i == some c

/-- The units of a well-formed instruction decode to it: at a header's place for a header, and in a clause of each class the
instruction may stand in otherwise. A word whose opcode the class does not allocate is the illegal instruction of that word. -/
def Statement (i : Instr) : Prop :=
  i.wf = true →
    (∀ h, i = .clauseHeader h → decodeHeader ((encode i).headD 0) = .ok i) ∧
    (∀ w, i = .illegalOpcode w → ∀ c left w1, allocated c (opcode w) = false → decodeWord c left w w1 = .ok i) ∧
    (∀ c, standsIn c i = true → decodeWord c (units i - 1) ((encode i).headD 0) ((encode i).getD 1 0) = .ok i)

/-- The instructions of one unit that are neither a header nor the illegal word. -/
theorem of_word {i : Instr} {w : Unit64} (h1 : ∀ h, i ≠ .clauseHeader h) (h2 : ∀ w, i ≠ .illegalOpcode w) (he : encode i = [w])
    (hu : units i = 1)
    (hf : i.wf = true → ∀ c, standsIn c i = true →
      allocated c (opcode w) = true ∧ twoUnits c (opcode w) = false ∧ decFields c w 0 = some i) : Statement i := by
  intro hw
  refine ⟨fun h e => absurd e (h1 h), fun w e => absurd e (h2 w), fun c hc => ?_⟩
  obtain ⟨ha, ht, hd⟩ := hf hw c hc
  rw [he, hu]
  simp only [List.headD, List.getD_cons_succ, List.getD_nil, decodeWord, ha, ht, if_true, hd, hw]
  simp

/-- The instructions of two units. -/
theorem of_words {i : Instr} {w v : Unit64} (h1 : ∀ h, i ≠ .clauseHeader h) (h2 : ∀ w, i ≠ .illegalOpcode w)
    (he : encode i = [w, v]) (hu : units i = 2)
    (hf : i.wf = true → ∀ c, standsIn c i = true →
      allocated c (opcode w) = true ∧ isControl (opcode w) = false ∧ decFields c w v = some i) : Statement i := by
  intro hw
  refine ⟨fun h e => absurd e (h1 h), fun w e => absurd e (h2 w), fun c hc => ?_⟩
  obtain ⟨ha, ht, hd⟩ := hf hw c hc
  rw [he, hu]
  simp only [List.headD, List.getD_cons_succ, List.getD_cons_zero, decodeWord, ha, ht, if_true, hd, hw]
  simp

/-- What stands in no clause has nothing to decode. -/
theorem of_none {i : Instr} (h1 : ∀ h, i ≠ .clauseHeader h) (h2 : ∀ w, i ≠ .illegalOpcode w) (hc : ∀ c, standsIn c i = false) :
    Statement i := by
  intro hw
  refine ⟨fun h e => absurd e (h1 h), fun w e => absurd e (h2 w), fun c h => ?_⟩
  rw [hc c] at h
  cases h

/-- What a class reads from a word of format A. -/
def readA (c : Fin 8) (r : RawA) : Option Instr :=
  match c.val with
  | 0 => if r.op.toNat < 0x20 then decInt r else if r.op.toNat < 0x40 then none else decFloat r
  | 1 => decXln r
  | 3 => decReg r
  | 5 => decSch r
  | 7 => if r.op.toNat = 0x00A ∨ r.op.toNat = 0x011 then none else decAcc r
  | _ => none

theorem decFields_A {c : Fin 8} {r : RawA} {i : Instr} (hx : isControl r.op.toNat = false) (h : readA c r = some i) :
    decFields c r.toWord 0 = some i := by
  simp only [decFields, opcode_rawA, hx, rawA_ofWord]
  revert h
  match c with
  | ⟨0, _⟩ =>
    simp only [readA]
    split
    · simp_all
    · split <;> simp_all
  | ⟨1, _⟩ => simp [readA]
  | ⟨2, _⟩ => simp [readA]
  | ⟨3, _⟩ => simp [readA]
  | ⟨4, _⟩ => simp [readA]
  | ⟨5, _⟩ => simp [readA]
  | ⟨6, _⟩ => simp [readA]
  | ⟨7, _⟩ =>
    simp only [readA]
    split
    · simp
    · rename_i h
      simp only [not_or] at h
      simp [h.1, h.2]

@[simp] theorem xln_0 (x : BitVec 3) (m : Members) : (xlnBits x m).getLsbD 0 = false := layXln_2 x _
@[simp] theorem xln_5 (x : BitVec 3) (m : Members) : (xlnBits x m).extractLsb' 5 3 = x := layXln_0 x _

theorem header_fields (h : Header) :
    (headerWord h).extractLsb' 58 6 = 0b101101#6 ∧ (headerWord h).extractLsb' 54 4 = BitVec.ofNat 4 h.cls.val ∧
    (headerWord h).extractLsb' 50 4 = bits4 h.cnt ∧ (headerWord h).getLsbD 49 = false ∧ (headerWord h).getLsbD 48 = h.yld ∧
    (headerWord h).extractLsb' 40 8 = h.qwait ∧ (headerWord h).getLsbD 39 = h.ldrn ∧ (headerWord h).getLsbD 38 = h.sack ∧
    (headerWord h).getLsbD 37 = h.swen ∧ (headerWord h).extractLsb' 31 6 = h.swk ∧ (headerWord h).extractLsb' 25 6 = h.swg ∧
    (headerWord h).extractLsb' 0 25 = 0#25 := by
  unfold headerWord
  refine ⟨?_, ?_, ?_, ?_, ?_, ?_, ?_, ?_, ?_, ?_, ?_, ?_⟩
  · exact (by simp (disch := omega) only [app_hi, Nat.reduceSub, BitVec.extractLsb'_eq_self] :
      (0b101101#6 ++ BitVec.ofNat 4 h.cls.val ++ bits4 h.cnt ++ 0#1 ++ bit1 h.yld ++ h.qwait ++ bit1 h.ldrn ++ bit1 h.sack ++ bit1 h.swen ++ h.swk ++ h.swg ++ 0#25).extractLsb' 58 6 = 0b101101#6)
  · exact (by simp (disch := omega) only [app_lo, app_hi, Nat.reduceSub, BitVec.extractLsb'_eq_self] :
      (0b101101#6 ++ BitVec.ofNat 4 h.cls.val ++ bits4 h.cnt ++ 0#1 ++ bit1 h.yld ++ h.qwait ++ bit1 h.ldrn ++ bit1 h.sack ++ bit1 h.swen ++ h.swk ++ h.swg ++ 0#25).extractLsb' 54 4 = BitVec.ofNat 4 h.cls.val)
  · exact (by simp (disch := omega) only [app_lo, app_hi, Nat.reduceSub, BitVec.extractLsb'_eq_self] :
      (0b101101#6 ++ BitVec.ofNat 4 h.cls.val ++ bits4 h.cnt ++ 0#1 ++ bit1 h.yld ++ h.qwait ++ bit1 h.ldrn ++ bit1 h.sack ++ bit1 h.swen ++ h.swk ++ h.swg ++ 0#25).extractLsb' 50 4 = bits4 h.cnt)
  · exact (by simp (disch := omega) only [bitAt, app_lo, app_hi, Nat.reduceSub, BitVec.extractLsb'_eq_self]; rfl :
      (0b101101#6 ++ BitVec.ofNat 4 h.cls.val ++ bits4 h.cnt ++ 0#1 ++ bit1 h.yld ++ h.qwait ++ bit1 h.ldrn ++ bit1 h.sack ++ bit1 h.swen ++ h.swk ++ h.swg ++ 0#25).getLsbD 49 = false)
  · exact (by simp (disch := omega) only [bitAt, app_lo, app_hi, Nat.reduceSub, BitVec.extractLsb'_eq_self, bit1_is] :
      (0b101101#6 ++ BitVec.ofNat 4 h.cls.val ++ bits4 h.cnt ++ 0#1 ++ bit1 h.yld ++ h.qwait ++ bit1 h.ldrn ++ bit1 h.sack ++ bit1 h.swen ++ h.swk ++ h.swg ++ 0#25).getLsbD 48 = h.yld)
  · exact (by simp (disch := omega) only [app_lo, app_hi, Nat.reduceSub, BitVec.extractLsb'_eq_self] :
      (0b101101#6 ++ BitVec.ofNat 4 h.cls.val ++ bits4 h.cnt ++ 0#1 ++ bit1 h.yld ++ h.qwait ++ bit1 h.ldrn ++ bit1 h.sack ++ bit1 h.swen ++ h.swk ++ h.swg ++ 0#25).extractLsb' 40 8 = h.qwait)
  · exact (by simp (disch := omega) only [bitAt, app_lo, app_hi, Nat.reduceSub, BitVec.extractLsb'_eq_self, bit1_is] :
      (0b101101#6 ++ BitVec.ofNat 4 h.cls.val ++ bits4 h.cnt ++ 0#1 ++ bit1 h.yld ++ h.qwait ++ bit1 h.ldrn ++ bit1 h.sack ++ bit1 h.swen ++ h.swk ++ h.swg ++ 0#25).getLsbD 39 = h.ldrn)
  · exact (by simp (disch := omega) only [bitAt, app_lo, app_hi, Nat.reduceSub, BitVec.extractLsb'_eq_self, bit1_is] :
      (0b101101#6 ++ BitVec.ofNat 4 h.cls.val ++ bits4 h.cnt ++ 0#1 ++ bit1 h.yld ++ h.qwait ++ bit1 h.ldrn ++ bit1 h.sack ++ bit1 h.swen ++ h.swk ++ h.swg ++ 0#25).getLsbD 38 = h.sack)
  · exact (by simp (disch := omega) only [bitAt, app_lo, app_hi, Nat.reduceSub, BitVec.extractLsb'_eq_self, bit1_is] :
      (0b101101#6 ++ BitVec.ofNat 4 h.cls.val ++ bits4 h.cnt ++ 0#1 ++ bit1 h.yld ++ h.qwait ++ bit1 h.ldrn ++ bit1 h.sack ++ bit1 h.swen ++ h.swk ++ h.swg ++ 0#25).getLsbD 37 = h.swen)
  · exact (by simp (disch := omega) only [app_lo, app_hi, Nat.reduceSub, BitVec.extractLsb'_eq_self] :
      (0b101101#6 ++ BitVec.ofNat 4 h.cls.val ++ bits4 h.cnt ++ 0#1 ++ bit1 h.yld ++ h.qwait ++ bit1 h.ldrn ++ bit1 h.sack ++ bit1 h.swen ++ h.swk ++ h.swg ++ 0#25).extractLsb' 31 6 = h.swk)
  · exact (by simp (disch := omega) only [app_lo, app_hi, Nat.reduceSub, BitVec.extractLsb'_eq_self] :
      (0b101101#6 ++ BitVec.ofNat 4 h.cls.val ++ bits4 h.cnt ++ 0#1 ++ bit1 h.yld ++ h.qwait ++ bit1 h.ldrn ++ bit1 h.sack ++ bit1 h.swen ++ h.swk ++ h.swg ++ 0#25).extractLsb' 25 6 = h.swg)
  · exact (by simp (disch := omega) only [app_lo, BitVec.extractLsb'_eq_self] :
      (0b101101#6 ++ BitVec.ofNat 4 h.cls.val ++ bits4 h.cnt ++ 0#1 ++ bit1 h.yld ++ h.qwait ++ bit1 h.ldrn ++ bit1 h.sack ++ bit1 h.swen ++ h.swk ++ h.swg ++ 0#25).extractLsb' 0 25 = 0#25)

theorem header_code (h : Header) : header (headerWord h) = some h := by
  obtain ⟨h0, h1, h2, h3, h4, h5, h6, h7, h8, h9, h10, h11⟩ := header_fields h
  have hc : (BitVec.ofNat 4 h.cls.val).toNat = h.cls.val := by have := h.cls.isLt; simp; omega
  have hk : h.cls.val < 8 := h.cls.isLt
  simp [-BitVec.getLsbD_eq_getElem, header, isHeader, h0, h1, h2, h3, h4, h5, h6, h7, h8, h9, h10, h11, hc, hk]

theorem clauseHeader (h : Header) : Statement (.clauseHeader h) := by
  intro hw
  refine ⟨fun h' e => ?_, fun w e => (nomatch e), fun c hc => (nomatch hc)⟩
  have he : (encode (.clauseHeader h)).headD 0 = headerWord h := rfl
  rw [he]
  simp [decodeHeader, header_code, hw]

theorem illegalOpcode (w : Unit64) : Statement (.illegalOpcode w) := by
  intro hw
  refine ⟨fun h' e => (nomatch e), fun v e => ?_, fun c hc => (nomatch hc)⟩
  obtain rfl : w = v := by cases e; rfl
  intro c left w1 ha
  simp [decodeWord, ha]

theorem warp_side {c : Fin 8} {fe : Bool} (hc : (c.val == 7) = fe) (hs : (c != 7) = true) : fe = false := by
  subst hc; revert c; decide
theorem front_side {c : Fin 8} {fe : Bool} (hc : (c.val == 7) = fe) (hs : (c == 7) = true) : fe = true := by
  subst hc; revert c; decide
theorem loop_side {c : Fin 8} {fe : Bool} {p : Prop} [Decidable p] (hc : (c.val == 7) = fe)
    (hs : (c != 7 || decide p) = true) : fe = true → p := by
  subst hc
  revert hs
  by_cases hp : p
  · simp [hp]
  · simp [hp]; revert c; decide

theorem readA_1 (r : RawA) : readA 1 r = decXln r := rfl
theorem readA_3 (r : RawA) : readA 3 r = decReg r := rfl
theorem readA_5 (r : RawA) : readA 5 r = decSch r := rfl
theorem readA_7 (r : RawA) (h : (r.op.toNat == 0x00A || r.op.toNat == 0x011) = false) : readA 7 r = decAcc r := by
  simp at h
  show (if r.op.toNat = 0x00A ∨ r.op.toNat = 0x011 then none else decAcc r) = decAcc r
  simp [h.1, h.2]

theorem low_sat (b : Bool) : Low.ofBits (satBits b) = ⟨0, b, false, false, false, false⟩ := low_ofBits _

theorem engOp_mod (b : EngBody) : engOp b % 512 = engOp b := by cases b <;> rfl

theorem engBody_code (b : EngBody) : engBody (engOp b) (engWords b).1 (engWords b).2 = some b := by
  cases b
  · simp [-BitVec.getLsbD_eq_getElem, engBody, engOp, engWords, decCopy, encCopy]
  · simp [-BitVec.getLsbD_eq_getElem, engBody, engOp, engWords, decCopymc, encCopymc]
  · simp [-BitVec.getLsbD_eq_getElem, engBody, engOp, engWords, decGath, encGath]
  · simp [-BitVec.getLsbD_eq_getElem, engBody, engOp, engWords, decScata, encScata]
  · simp [-BitVec.getLsbD_eq_getElem, engBody, engOp, engWords, decMma, encMma]
  · simp [-BitVec.getLsbD_eq_getElem, engBody, engOp, engWords, decTfill, encTfill]
  · simp [-BitVec.getLsbD_eq_getElem, engBody, engOp, engWords, decEseq, encEseq]
  all_goals simp [-BitVec.getLsbD_eq_getElem, engBody, engOp, engWords, decKv, encKv]

theorem of_A {i : Instr} {k : Fin 8} (r : RawA) (h1 : ∀ h, i ≠ .clauseHeader h) (h2 : ∀ w, i ≠ .illegalOpcode w)
    (he : encode i = [r.toWord]) (hu : units i = 1) (hs : ∀ c, standsIn c i = (some k == some c))
    (ha : allocated k r.op.toNat = true) (hx : isControl r.op.toNat = false) (ht : twoUnits k r.op.toNat = false)
    (hf : i.wf = true → readA k r = some i) : Statement i := by
  refine of_word h1 h2 he hu fun hw c hc => ?_
  obtain rfl : k = c := by rw [hs] at hc; simpa using hc
  rw [opcode_rawA]
  exact ⟨ha, ht, decFields_A hx (hf hw)⟩

theorem of_I {i : Instr} {k : Fin 8} (r : RawI) (h1 : ∀ h, i ≠ .clauseHeader h) (h2 : ∀ w, i ≠ .illegalOpcode w)
    (he : encode i = [r.toWord]) (hu : units i = 1) (hs : ∀ c, standsIn c i = (some k == some c))
    (ha : allocated k r.op.toNat = true) (ht : twoUnits k r.op.toNat = false)
    (hf : i.wf = true → (k.val = 0 ∧ r.op.toNat < 0x40 ∧ ¬ r.op.toNat < 0x20 ∧ decImmForms r = some i) ∨
      (k.val = 7 ∧ r.op.toNat = 0x00A ∧ decAMovi r = some i)) : Statement i := by
  refine of_word h1 h2 he hu fun hw c hc => ?_
  obtain rfl : k = c := by rw [hs] at hc; simpa using hc
  rw [opcode_rawI]
  refine ⟨ha, ht, ?_⟩
  obtain ⟨hk, h4, h3, hd⟩ | ⟨hk, h4, hd⟩ := hf hw
  · have hx : isControl r.op.toNat = false := by simp [isControl]; omega
    simp [decFields, opcode_rawI, hx, hk, h3, h4, rawI_ofWord, hd]
  · simp [decFields, opcode_rawI, hk, h4, rawI_ofWord, hd, isControl]

theorem of_M {i : Instr} (r : RawM) (h1 : ∀ h, i ≠ .clauseHeader h) (h2 : ∀ w, i ≠ .illegalOpcode w)
    (he : encode i = [r.toWord]) (hu : units i = 1) (hs : ∀ c, standsIn c i = (some (2 : Fin 8) == some c))
    (ha : allocated 2 r.op.toNat = true) (hx : isControl r.op.toNat = false)
    (hf : i.wf = true → decMemory r = some i) : Statement i := by
  refine of_word h1 h2 he hu fun hw c hc => ?_
  obtain rfl : 2 = c := by rw [hs] at hc; simpa using hc
  rw [opcode_rawM]
  exact ⟨ha, by simp [twoUnits], by simp [decFields, opcode_rawM, hx, rawM_ofWord, hf hw]⟩

theorem of_S {i : Instr} (r : RawS) (h1 : ∀ h, i ≠ .clauseHeader h) (h2 : ∀ w, i ≠ .illegalOpcode w)
    (he : encode i = [r.toWord]) (hu : units i = 1) (hs : ∀ c, standsIn c i = (some (6 : Fin 8) == some c))
    (ha : allocated 6 r.op.toNat = true) (hx : isControl r.op.toNat = false)
    (hf : i.wf = true → decSys r = some i) : Statement i := by
  refine of_word h1 h2 he hu fun hw c hc => ?_
  obtain rfl : 6 = c := by rw [hs] at hc; simpa using hc
  rw [opcode_rawS]
  exact ⟨ha, by
    have h : ((6 : Fin 8).val == 4 || ((6 : Fin 8).val == 7 && r.op.toNat == 0x011)) = false := by simp only [show (6 : Fin 8).val = 6 from rfl]; simp
    simp only [twoUnits, h, Bool.and_false], (show decFields ⟨6, by decide⟩ r.toWord 0 = some i by simp [decFields, opcode_rawS, hx, rawS_ofWord, hf hw])⟩

theorem of_B {i : Instr} (r : RawB) (h1 : ∀ h, i ≠ .clauseHeader h) (h2 : ∀ w, i ≠ .illegalOpcode w)
    (he : encode i = [r.toWord]) (hu : units i = 1) (hx : isControl r.op.toNat = true)
    (hf : i.wf = true → ∀ fe : Bool, (∀ c : Fin 8, (c.val == 7) = fe → standsIn c i = true → decCtl fe r = some i)) :
    Statement i := by
  refine of_word h1 h2 he hu fun hw c hc => ?_
  rw [opcode_rawB]
  exact ⟨by simp [allocated, hx], by simp [twoUnits, hx],
    by simpa [decFields, opcode_rawB, hx, rawB_ofWord] using hf hw _ c rfl hc⟩

theorem of_E {i : Instr} {k : Fin 8} (r : RawE) (v : Unit64) (h1 : ∀ h, i ≠ .clauseHeader h) (h2 : ∀ w, i ≠ .illegalOpcode w)
    (he : encode i = [r.toWord, v]) (hu : units i = 2) (hs : ∀ c, standsIn c i = (some k == some c))
    (ha : allocated k r.op.toNat = true) (hx : isControl r.op.toNat = false)
    (hf : i.wf = true → (k.val = 4 ∧ decEng r v = some i) ∨ (k.val = 7 ∧ r.op.toNat = 0x011 ∧ decAeng r v = some i)) :
    Statement i := by
  refine of_words h1 h2 he hu fun hw c hc => ?_
  obtain rfl : k = c := by rw [hs] at hc; simpa using hc
  rw [opcode_rawE]
  refine ⟨ha, hx, ?_⟩
  obtain ⟨hk, hd⟩ | ⟨hk, h4, hd⟩ := hf hw
  · simp [decFields, opcode_rawE, hx, hk, rawE_ofWord, hd]
  · simp [decFields, opcode_rawE, hk, h4, rawE_ofWord, hd, isControl]

theorem queueWaitWatchdog (a : Agent) : Statement (.queueWaitWatchdog a) :=
  of_none (fun _ h => nomatch h) (fun _ h => nomatch h) fun _ => rfl
theorem longLatencyCompletion (a : Agent) (op : Nat) (early : List Nat) : Statement (.longLatencyCompletion a op early) :=
  of_none (fun _ h => nomatch h) (fun _ h => nomatch h) fun _ => rfl
theorem add (f : BinS) : Statement (.add f) :=
  of_A _ (fun _ h => nomatch h) (fun _ h => nomatch h) rfl rfl (fun _ => rfl) rfl rfl rfl fun hw => by
    simp only [readA]
    simp [-BitVec.getLsbD_eq_getElem, decInt, decBinS, need, low_sat]
theorem sub (f : BinS) : Statement (.sub f) :=
  of_A _ (fun _ h => nomatch h) (fun _ h => nomatch h) rfl rfl (fun _ => rfl) rfl rfl rfl fun hw => by
    simp only [readA]
    simp [-BitVec.getLsbD_eq_getElem, decInt, decBinS, need, low_sat]
theorem mul (f : BinS) : Statement (.mul f) :=
  of_A _ (fun _ h => nomatch h) (fun _ h => nomatch h) rfl rfl (fun _ => rfl) rfl rfl rfl fun hw => by
    simp only [readA]
    simp [-BitVec.getLsbD_eq_getElem, decInt, decBinS, need, low_sat]
theorem mulhi (f : Bin) : Statement (.mulhi f) :=
  of_A _ (fun _ h => nomatch h) (fun _ h => nomatch h) rfl rfl (fun _ => rfl) rfl rfl rfl fun hw => by
    simp only [readA]
    simp [-BitVec.getLsbD_eq_getElem, decInt, decBin, need]
theorem mad (f : TerS) : Statement (.mad f) :=
  of_A _ (fun _ h => nomatch h) (fun _ h => nomatch h) rfl rfl (fun _ => rfl) rfl rfl rfl fun hw => by
    simp only [readA]
    simp [-BitVec.getLsbD_eq_getElem, decInt, decTerS, need, low_sat]
theorem div (f : DivF) : Statement (.div f) :=
  of_A _ (fun _ h => nomatch h) (fun _ h => nomatch h) rfl rfl (fun _ => rfl) rfl rfl rfl fun hw => by
    simp only [readA]
    simp [-BitVec.getLsbD_eq_getElem, decInt, decDiv, need]
theorem rem (f : DivF) : Statement (.rem f) :=
  of_A _ (fun _ h => nomatch h) (fun _ h => nomatch h) rfl rfl (fun _ => rfl) rfl rfl rfl fun hw => by
    simp only [readA]
    simp [-BitVec.getLsbD_eq_getElem, decInt, decDiv, need]
theorem min (f : Bin) : Statement (.min f) :=
  of_A _ (fun _ h => nomatch h) (fun _ h => nomatch h) rfl rfl (fun _ => rfl) rfl rfl rfl fun hw => by
    simp only [readA]
    simp [-BitVec.getLsbD_eq_getElem, decInt, decBin, need]
theorem max (f : Bin) : Statement (.max f) :=
  of_A _ (fun _ h => nomatch h) (fun _ h => nomatch h) rfl rfl (fun _ => rfl) rfl rfl rfl fun hw => by
    simp only [readA]
    simp [-BitVec.getLsbD_eq_getElem, decInt, decBin, need]
theorem abs (f : UnS) : Statement (.abs f) :=
  of_A _ (fun _ h => nomatch h) (fun _ h => nomatch h) rfl rfl (fun _ => rfl) rfl rfl rfl fun hw => by
    simp only [readA]
    simp [-BitVec.getLsbD_eq_getElem, decInt, decUnS, need, low_sat]
theorem neg (f : UnS) : Statement (.neg f) :=
  of_A _ (fun _ h => nomatch h) (fun _ h => nomatch h) rfl rfl (fun _ => rfl) rfl rfl rfl fun hw => by
    simp only [readA]
    simp [-BitVec.getLsbD_eq_getElem, decInt, decUnS, need, low_sat]
theorem addcy (f : CarryF) : Statement (.addcy f) :=
  of_A _ (fun _ h => nomatch h) (fun _ h => nomatch h) rfl rfl (fun _ => rfl) rfl rfl rfl fun hw => by
    simp only [readA]
    simp [-BitVec.getLsbD_eq_getElem, decInt, decCarry, need]
theorem subbw (f : CarryF) : Statement (.subbw f) :=
  of_A _ (fun _ h => nomatch h) (fun _ h => nomatch h) rfl rfl (fun _ => rfl) rfl rfl rfl fun hw => by
    simp only [readA]
    simp [-BitVec.getLsbD_eq_getElem, decInt, decCarry, need]
theorem shl (f : Bin) : Statement (.shl f) :=
  of_A _ (fun _ h => nomatch h) (fun _ h => nomatch h) rfl rfl (fun _ => rfl) rfl rfl rfl fun hw => by
    simp only [readA]
    simp [-BitVec.getLsbD_eq_getElem, decInt, decBin, need]
theorem shr (f : Bin) : Statement (.shr f) :=
  of_A _ (fun _ h => nomatch h) (fun _ h => nomatch h) rfl rfl (fun _ => rfl) rfl rfl rfl fun hw => by
    simp only [readA]
    simp [-BitVec.getLsbD_eq_getElem, decInt, decBin, need]
theorem rot (f : Bin) : Statement (.rot f) :=
  of_A _ (fun _ h => nomatch h) (fun _ h => nomatch h) rfl rfl (fun _ => rfl) rfl rfl rfl fun hw => by
    simp only [readA]
    simp [-BitVec.getLsbD_eq_getElem, decInt, decBin, need]
theorem and (f : Bin) : Statement (.and f) :=
  of_A _ (fun _ h => nomatch h) (fun _ h => nomatch h) rfl rfl (fun _ => rfl) rfl rfl rfl fun hw => by
    simp only [readA]
    simp [-BitVec.getLsbD_eq_getElem, decInt, decBin, need]
theorem or (f : Bin) : Statement (.or f) :=
  of_A _ (fun _ h => nomatch h) (fun _ h => nomatch h) rfl rfl (fun _ => rfl) rfl rfl rfl fun hw => by
    simp only [readA]
    simp [-BitVec.getLsbD_eq_getElem, decInt, decBin, need]
theorem xor (f : Bin) : Statement (.xor f) :=
  of_A _ (fun _ h => nomatch h) (fun _ h => nomatch h) rfl rfl (fun _ => rfl) rfl rfl rfl fun hw => by
    simp only [readA]
    simp [-BitVec.getLsbD_eq_getElem, decInt, decBin, need]
theorem not (f : Un) : Statement (.not f) :=
  of_A _ (fun _ h => nomatch h) (fun _ h => nomatch h) rfl rfl (fun _ => rfl) rfl rfl rfl fun hw => by
    simp only [readA]
    simp [-BitVec.getLsbD_eq_getElem, decInt, decUn, need]
theorem andn (f : Bin) : Statement (.andn f) :=
  of_A _ (fun _ h => nomatch h) (fun _ h => nomatch h) rfl rfl (fun _ => rfl) rfl rfl rfl fun hw => by
    simp only [readA]
    simp [-BitVec.getLsbD_eq_getElem, decInt, decBin, need]
theorem bfx (f : Bin) : Statement (.bfx f) :=
  of_A _ (fun _ h => nomatch h) (fun _ h => nomatch h) rfl rfl (fun _ => rfl) rfl rfl rfl fun hw => by
    simp only [readA]
    simp [-BitVec.getLsbD_eq_getElem, decInt, decBin, need]
theorem bfi (f : Ter) : Statement (.bfi f) :=
  of_A _ (fun _ h => nomatch h) (fun _ h => nomatch h) rfl rfl (fun _ => rfl) rfl rfl rfl fun hw => by
    simp only [readA]
    simp [-BitVec.getLsbD_eq_getElem, decInt, decTer, need]
theorem popc (f : Un) : Statement (.popc f) :=
  of_A _ (fun _ h => nomatch h) (fun _ h => nomatch h) rfl rfl (fun _ => rfl) rfl rfl rfl fun hw => by
    simp only [readA]
    simp [-BitVec.getLsbD_eq_getElem, decInt, decUn, need]
theorem clz (f : Un) : Statement (.clz f) :=
  of_A _ (fun _ h => nomatch h) (fun _ h => nomatch h) rfl rfl (fun _ => rfl) rfl rfl rfl fun hw => by
    simp only [readA]
    simp [-BitVec.getLsbD_eq_getElem, decInt, decUn, need]
theorem brev (f : Un) : Statement (.brev f) :=
  of_A _ (fun _ h => nomatch h) (fun _ h => nomatch h) rfl rfl (fun _ => rfl) rfl rfl rfl fun hw => by
    simp only [readA]
    simp [-BitVec.getLsbD_eq_getElem, decInt, decUn, need]
theorem lut3 (f : LutF) : Statement (.lut3 f) :=
  of_A _ (fun _ h => nomatch h) (fun _ h => nomatch h) rfl rfl (fun _ => rfl) rfl rfl rfl fun hw => by
    simp only [readA]
    simp [-BitVec.getLsbD_eq_getElem, decInt, decLut, need]
theorem cmp (f : CmpF) : Statement (.cmp f) :=
  of_A _ (fun _ h => nomatch h) (fun _ h => nomatch h) rfl rfl (fun _ => rfl) rfl rfl rfl fun hw => by
    simp only [readA]
    simp [-BitVec.getLsbD_eq_getElem, decInt, decCmp, need]
theorem sel (f : CarryF) : Statement (.sel f) :=
  of_A _ (fun _ h => nomatch h) (fun _ h => nomatch h) rfl rfl (fun _ => rfl) rfl rfl rfl fun hw => by
    simp only [readA]
    simp [-BitVec.getLsbD_eq_getElem, decInt, decCarry, need]
theorem mov (f : Un) : Statement (.mov f) :=
  of_A _ (fun _ h => nomatch h) (fun _ h => nomatch h) rfl rfl (fun _ => rfl) rfl rfl rfl fun hw => by
    simp only [readA]
    simp [-BitVec.getLsbD_eq_getElem, decInt, decUn, need]
theorem lea (f : LeaF) : Statement (.lea f) :=
  of_A _ (fun _ h => nomatch h) (fun _ h => nomatch h) rfl rfl (fun _ => rfl) rfl rfl rfl fun hw => by
    simp only [readA]
    simp [-BitVec.getLsbD_eq_getElem, decInt, decLea, need]
theorem idx2 (f : IdxF) : Statement (.idx2 f) :=
  of_A _ (fun _ h => nomatch h) (fun _ h => nomatch h) rfl rfl (fun _ => rfl) rfl rfl rfl fun hw => by
    simp only [readA]
    simp [-BitVec.getLsbD_eq_getElem, decInt, decIdx2, need]
theorem movi (f : MoviF) : Statement (.movi f) :=
  of_I _ (fun _ h => nomatch h) (fun _ h => nomatch h) rfl rfl (fun _ => rfl) rfl rfl fun hw => by
    simp [-BitVec.getLsbD_eq_getElem, decImmForms, decMovi, need]
theorem addi (f : ImmF) : Statement (.addi f) :=
  of_I _ (fun _ h => nomatch h) (fun _ h => nomatch h) rfl rfl (fun _ => rfl) rfl rfl fun hw => by
    simp [-BitVec.getLsbD_eq_getElem, decImmForms, decImm]
theorem muli (f : ImmF) : Statement (.muli f) :=
  of_I _ (fun _ h => nomatch h) (fun _ h => nomatch h) rfl rfl (fun _ => rfl) rfl rfl fun hw => by
    simp [-BitVec.getLsbD_eq_getElem, decImmForms, decImm]
theorem andi (f : ImmF) : Statement (.andi f) :=
  of_I _ (fun _ h => nomatch h) (fun _ h => nomatch h) rfl rfl (fun _ => rfl) rfl rfl fun hw => by
    simp [-BitVec.getLsbD_eq_getElem, decImmForms, decImm]
theorem ori (f : ImmF) : Statement (.ori f) :=
  of_I _ (fun _ h => nomatch h) (fun _ h => nomatch h) rfl rfl (fun _ => rfl) rfl rfl fun hw => by
    simp [-BitVec.getLsbD_eq_getElem, decImmForms, decImm]
theorem xori (f : ImmF) : Statement (.xori f) :=
  of_I _ (fun _ h => nomatch h) (fun _ h => nomatch h) rfl rfl (fun _ => rfl) rfl rfl fun hw => by
    simp [-BitVec.getLsbD_eq_getElem, decImmForms, decImm]
theorem shli (f : ImmF) : Statement (.shli f) :=
  of_I _ (fun _ h => nomatch h) (fun _ h => nomatch h) rfl rfl (fun _ => rfl) rfl rfl fun hw => by
    simp [-BitVec.getLsbD_eq_getElem, decImmForms, decImm]
theorem shri (f : ImmF) : Statement (.shri f) :=
  of_I _ (fun _ h => nomatch h) (fun _ h => nomatch h) rfl rfl (fun _ => rfl) rfl rfl fun hw => by
    simp [-BitVec.getLsbD_eq_getElem, decImmForms, decImm]
theorem cmpi (f : CmpiF) : Statement (.cmpi f) :=
  of_I _ (fun _ h => nomatch h) (fun _ h => nomatch h) rfl rfl (fun _ => rfl) rfl rfl fun hw => by
    simp [-BitVec.getLsbD_eq_getElem, decImmForms, decCmpi]
theorem fadd (f : FArF) : Statement (.fadd f) :=
  of_A _ (fun _ h => nomatch h) (fun _ h => nomatch h) rfl rfl (fun _ => rfl) rfl rfl rfl fun hw => by
    simp only [readA]
    simp [-BitVec.getLsbD_eq_getElem, decFloat, decFAr, need]
theorem fsub (f : FArF) : Statement (.fsub f) :=
  of_A _ (fun _ h => nomatch h) (fun _ h => nomatch h) rfl rfl (fun _ => rfl) rfl rfl rfl fun hw => by
    simp only [readA]
    simp [-BitVec.getLsbD_eq_getElem, decFloat, decFAr, need]
theorem fmul (f : FArF) : Statement (.fmul f) :=
  of_A _ (fun _ h => nomatch h) (fun _ h => nomatch h) rfl rfl (fun _ => rfl) rfl rfl rfl fun hw => by
    simp only [readA]
    simp [-BitVec.getLsbD_eq_getElem, decFloat, decFAr, need]
theorem fma (f : FmaF) : Statement (.fma f) :=
  of_A _ (fun _ h => nomatch h) (fun _ h => nomatch h) rfl rfl (fun _ => rfl) rfl rfl rfl fun hw => by
    simp only [readA]
    simp [-BitVec.getLsbD_eq_getElem, decFloat, decFma, need]
theorem fmin (f : FMinF) : Statement (.fmin f) :=
  of_A _ (fun _ h => nomatch h) (fun _ h => nomatch h) rfl rfl (fun _ => rfl) rfl rfl rfl fun hw => by
    simp only [readA]
    simp [-BitVec.getLsbD_eq_getElem, decFloat, decFMin, need]
theorem fmax (f : FMinF) : Statement (.fmax f) :=
  of_A _ (fun _ h => nomatch h) (fun _ h => nomatch h) rfl rfl (fun _ => rfl) rfl rfl rfl fun hw => by
    simp only [readA]
    simp [-BitVec.getLsbD_eq_getElem, decFloat, decFMin, need]
theorem fminn (f : FMinF) : Statement (.fminn f) :=
  of_A _ (fun _ h => nomatch h) (fun _ h => nomatch h) rfl rfl (fun _ => rfl) rfl rfl rfl fun hw => by
    simp only [readA]
    simp [-BitVec.getLsbD_eq_getElem, decFloat, decFMin, need]
theorem fmaxn (f : FMinF) : Statement (.fmaxn f) :=
  of_A _ (fun _ h => nomatch h) (fun _ h => nomatch h) rfl rfl (fun _ => rfl) rfl rfl rfl fun hw => by
    simp only [readA]
    simp [-BitVec.getLsbD_eq_getElem, decFloat, decFMin, need]
theorem fcmp (f : FCmpF) : Statement (.fcmp f) :=
  of_A _ (fun _ h => nomatch h) (fun _ h => nomatch h) rfl rfl (fun _ => rfl) rfl rfl rfl fun hw => by
    simp only [readA]
    simp [-BitVec.getLsbD_eq_getElem, decFloat, decFCmp, need]
theorem fclass (f : FClsF) : Statement (.fclass f) :=
  of_A _ (fun _ h => nomatch h) (fun _ h => nomatch h) rfl rfl (fun _ => rfl) rfl rfl rfl fun hw => by
    simp only [readA]
    simp [-BitVec.getLsbD_eq_getElem, decFloat, decFCls, need]
theorem frnd (f : FRndF) : Statement (.frnd f) :=
  of_A _ (fun _ h => nomatch h) (fun _ h => nomatch h) rfl rfl (fun _ => rfl) rfl rfl rfl fun hw => by
    simp only [readA]
    simp [-BitVec.getLsbD_eq_getElem, decFloat, decFRnd, need]
theorem fdot2 (f : FmaF) : Statement (.fdot2 f) :=
  of_A _ (fun _ h => nomatch h) (fun _ h => nomatch h) rfl rfl (fun _ => rfl) rfl rfl rfl fun hw => by
    simp only [readA]
    simp [-BitVec.getLsbD_eq_getElem, decFloat, decFma, need]
theorem rcp (f : SfuF) : Statement (.rcp f) :=
  of_A _ (fun _ h => nomatch h) (fun _ h => nomatch h) rfl rfl (fun _ => rfl) rfl rfl rfl fun hw => by
    simp only [readA]
    simp [-BitVec.getLsbD_eq_getElem, decFloat, decSfu, need]
theorem rsqrt (f : SfuF) : Statement (.rsqrt f) :=
  of_A _ (fun _ h => nomatch h) (fun _ h => nomatch h) rfl rfl (fun _ => rfl) rfl rfl rfl fun hw => by
    simp only [readA]
    simp [-BitVec.getLsbD_eq_getElem, decFloat, decSfu, need]
theorem sqrt (f : SfuF) : Statement (.sqrt f) :=
  of_A _ (fun _ h => nomatch h) (fun _ h => nomatch h) rfl rfl (fun _ => rfl) rfl rfl rfl fun hw => by
    simp only [readA]
    simp [-BitVec.getLsbD_eq_getElem, decFloat, decSfu, need]
theorem exp2 (f : SfuF) : Statement (.exp2 f) :=
  of_A _ (fun _ h => nomatch h) (fun _ h => nomatch h) rfl rfl (fun _ => rfl) rfl rfl rfl fun hw => by
    simp only [readA]
    simp [-BitVec.getLsbD_eq_getElem, decFloat, decSfu, need]
theorem log2 (f : SfuF) : Statement (.log2 f) :=
  of_A _ (fun _ h => nomatch h) (fun _ h => nomatch h) rfl rfl (fun _ => rfl) rfl rfl rfl fun hw => by
    simp only [readA]
    simp [-BitVec.getLsbD_eq_getElem, decFloat, decSfu, need]
theorem sin (f : SfuF) : Statement (.sin f) :=
  of_A _ (fun _ h => nomatch h) (fun _ h => nomatch h) rfl rfl (fun _ => rfl) rfl rfl rfl fun hw => by
    simp only [readA]
    simp [-BitVec.getLsbD_eq_getElem, decFloat, decSfu, need]
theorem cos (f : SfuF) : Statement (.cos f) :=
  of_A _ (fun _ h => nomatch h) (fun _ h => nomatch h) rfl rfl (fun _ => rfl) rfl rfl rfl fun hw => by
    simp only [readA]
    simp [-BitVec.getLsbD_eq_getElem, decFloat, decSfu, need]
theorem tanh (f : SfuF) : Statement (.tanh f) :=
  of_A _ (fun _ h => nomatch h) (fun _ h => nomatch h) rfl rfl (fun _ => rfl) rfl rfl rfl fun hw => by
    simp only [readA]
    simp [-BitVec.getLsbD_eq_getElem, decFloat, decSfu, need]
theorem fdiv (f : FDivF) : Statement (.fdiv f) :=
  of_A _ (fun _ h => nomatch h) (fun _ h => nomatch h) rfl rfl (fun _ => rfl) rfl rfl rfl fun hw => by
    simp only [readA]
    simp [-BitVec.getLsbD_eq_getElem, decFloat, decFDiv, need]
theorem cvt (f : CvtF) : Statement (.cvt f) :=
  of_A _ (fun _ h => nomatch h) (fun _ h => nomatch h) rfl rfl (fun _ => rfl) rfl rfl rfl fun hw => by
    simp only [readA]
    simp [-BitVec.getLsbD_eq_getElem, decFloat, decCvt, need]
theorem cvtpk (f : CvtpkF) : Statement (.cvtpk f) :=
  of_A _ (fun _ h => nomatch h) (fun _ h => nomatch h) rfl rfl (fun _ => rfl) rfl rfl rfl fun hw => by
    simp only [readA]
    simp [-BitVec.getLsbD_eq_getElem, decFloat, decCvtpk, need]
theorem unpk (f : UnpkF) : Statement (.unpk f) :=
  of_A _ (fun _ h => nomatch h) (fun _ h => nomatch h) rfl rfl (fun _ => rfl) rfl rfl rfl fun hw => by
    simp only [readA]
    simp [-BitVec.getLsbD_eq_getElem, decFloat, decUnpk, need]
theorem rng (f : RngF) : Statement (.rng f) :=
  of_A _ (fun _ h => nomatch h) (fun _ h => nomatch h) rfl rfl (fun _ => rfl) rfl rfl rfl fun hw => by
    simp only [readA]
    simp [-BitVec.getLsbD_eq_getElem, decFloat, decRng, need]
theorem smxStep (f : Smx3F) : Statement (.smxStep f) :=
  of_A _ (fun _ h => nomatch h) (fun _ h => nomatch h) rfl rfl (fun _ => rfl) rfl rfl rfl fun hw => by
    simp only [readA]
    simp [-BitVec.getLsbD_eq_getElem, decFloat, decSmx3, need]
theorem smxMerge (f : Smx2F) : Statement (.smxMerge f) :=
  of_A _ (fun _ h => nomatch h) (fun _ h => nomatch h) rfl rfl (fun _ => rfl) rfl rfl rfl fun hw => by
    simp only [readA]
    simp [-BitVec.getLsbD_eq_getElem, decFloat, decSmx2, need]
theorem smxNorm (f : Smx2F) : Statement (.smxNorm f) :=
  of_A _ (fun _ h => nomatch h) (fun _ h => nomatch h) rfl rfl (fun _ => rfl) rfl rfl rfl fun hw => by
    simp only [readA]
    simp [-BitVec.getLsbD_eq_getElem, decFloat, decSmx2, need]
theorem rope (f : Smx3F) : Statement (.rope f) :=
  of_A _ (fun _ h => nomatch h) (fun _ h => nomatch h) rfl rfl (fun _ => rfl) rfl rfl rfl fun hw => by
    simp only [readA]
    simp [-BitVec.getLsbD_eq_getElem, decFloat, decSmx3, need]
theorem dpmul (f : DpmF) : Statement (.dpmul f) :=
  of_A _ (fun _ h => nomatch h) (fun _ h => nomatch h) rfl rfl (fun _ => rfl) rfl rfl rfl fun hw => by
    simp only [readA]
    simp [-BitVec.getLsbD_eq_getElem, decFloat, decDpm, need]
theorem mand (f : MBinF) : Statement (.mand f) :=
  of_A _ (fun _ h => nomatch h) (fun _ h => nomatch h) rfl rfl (fun _ => rfl) rfl rfl rfl fun hw => by
    simp only [readA]
    simp [-BitVec.getLsbD_eq_getElem, decFloat, decMBin, maskRest, need]
theorem mor (f : MBinF) : Statement (.mor f) :=
  of_A _ (fun _ h => nomatch h) (fun _ h => nomatch h) rfl rfl (fun _ => rfl) rfl rfl rfl fun hw => by
    simp only [readA]
    simp [-BitVec.getLsbD_eq_getElem, decFloat, decMBin, maskRest, need]
theorem mxor (f : MBinF) : Statement (.mxor f) :=
  of_A _ (fun _ h => nomatch h) (fun _ h => nomatch h) rfl rfl (fun _ => rfl) rfl rfl rfl fun hw => by
    simp only [readA]
    simp [-BitVec.getLsbD_eq_getElem, decFloat, decMBin, maskRest, need]
theorem mnot (f : MUnF) : Statement (.mnot f) :=
  of_A _ (fun _ h => nomatch h) (fun _ h => nomatch h) rfl rfl (fun _ => rfl) rfl rfl rfl fun hw => by
    simp only [readA]
    simp [-BitVec.getLsbD_eq_getElem, decFloat, decMUn, maskRest, need]
theorem mpop (f : MCntF) : Statement (.mpop f) :=
  of_A _ (fun _ h => nomatch h) (fun _ h => nomatch h) rfl rfl (fun _ => rfl) rfl rfl rfl fun hw => by
    simp only [readA]
    simp [-BitVec.getLsbD_eq_getElem, decFloat, decMCnt, maskRest, need]
theorem mffs (f : MCntF) : Statement (.mffs f) :=
  of_A _ (fun _ h => nomatch h) (fun _ h => nomatch h) rfl rfl (fun _ => rfl) rfl rfl rfl fun hw => by
    simp only [readA]
    simp [-BitVec.getLsbD_eq_getElem, decFloat, decMCnt, maskRest, need]
theorem emget (d : MReg) : Statement (.emget d) :=
  of_A _ (fun _ h => nomatch h) (fun _ h => nomatch h) rfl rfl (fun _ => rfl) rfl rfl rfl fun hw => by
    simp only [readA]
    simp [-BitVec.getLsbD_eq_getElem, decFloat, decEmget, maskRest, need]
theorem emset (a : MReg) : Statement (.emset a) :=
  of_A _ (fun _ h => nomatch h) (fun _ h => nomatch h) rfl rfl (fun _ => rfl) rfl rfl rfl fun hw => by
    simp only [readA]
    simp [-BitVec.getLsbD_eq_getElem, decFloat, decEmset, maskRest, need]
theorem vote (f : VoteF) : Statement (.vote f) :=
  of_A _ (fun _ h => nomatch h) (fun _ h => nomatch h) rfl rfl (fun _ => rfl) rfl rfl rfl fun hw => by
    rw [readA_1]
    simp [-BitVec.getLsbD_eq_getElem, decXln, decVote, need]
theorem shfl (f : ShflF) : Statement (.shfl f) :=
  of_A _ (fun _ h => nomatch h) (fun _ h => nomatch h) rfl rfl (fun _ => rfl) rfl rfl rfl fun hw => by
    rw [readA_1]
    simp [-BitVec.getLsbD_eq_getElem, decXln, decShfl, need]
theorem bcast (f : BcastF) : Statement (.bcast f) :=
  of_A _ (fun _ h => nomatch h) (fun _ h => nomatch h) rfl rfl (fun _ => rfl) rfl rfl rfl fun hw => by
    rw [readA_1]
    simp [-BitVec.getLsbD_eq_getElem, decXln, decBcast, need]
theorem scan (f : FoldF) : Statement (.scan f) :=
  of_A _ (fun _ h => nomatch h) (fun _ h => nomatch h) rfl rfl (fun _ => rfl) rfl rfl rfl fun hw => by
    rw [readA_1]
    simp [-BitVec.getLsbD_eq_getElem, decXln, decFold, need]
theorem redux (f : FoldF) : Statement (.redux f) :=
  of_A _ (fun _ h => nomatch h) (fun _ h => nomatch h) rfl rfl (fun _ => rfl) rfl rfl rfl fun hw => by
    rw [readA_1]
    simp [-BitVec.getLsbD_eq_getElem, decXln, decFold, need]
theorem csamp (f : CsampF) : Statement (.csamp f) :=
  of_A _ (fun _ h => nomatch h) (fun _ h => nomatch h) rfl rfl (fun _ => rfl) rfl rfl rfl fun hw => by
    rw [readA_1]
    simp [-BitVec.getLsbD_eq_getElem, decXln, decCsamp, need]
theorem matchx (f : MatchF) : Statement (.matchx f) :=
  of_A _ (fun _ h => nomatch h) (fun _ h => nomatch h) rfl rfl (fun _ => rfl) rfl rfl rfl fun hw => by
    rw [readA_1]
    simp [-BitVec.getLsbD_eq_getElem, decXln, decMatch, need]
theorem plpk (f : PlanF) : Statement (.plpk f) :=
  of_A _ (fun _ h => nomatch h) (fun _ h => nomatch h) rfl rfl (fun _ => rfl) rfl rfl rfl fun hw => by
    rw [readA_1]
    simp [-BitVec.getLsbD_eq_getElem, decXln, decPlan, need]
theorem plunpk (f : PlanF) : Statement (.plunpk f) :=
  of_A _ (fun _ h => nomatch h) (fun _ h => nomatch h) rfl rfl (fun _ => rfl) rfl rfl rfl fun hw => by
    rw [readA_1]
    simp [-BitVec.getLsbD_eq_getElem, decXln, decPlan, need]
theorem xch (f : XchF) : Statement (.xch f) :=
  of_A _ (fun _ h => nomatch h) (fun _ h => nomatch h) rfl rfl (fun _ => rfl) rfl rfl rfl fun hw => by
    rw [readA_1]
    simp [-BitVec.getLsbD_eq_getElem, decXln, decXch, need]
theorem xchDeadline (warp : Nat) : Statement (.xchDeadline warp) :=
  of_none (fun _ h => nomatch h) (fun _ h => nomatch h) fun _ => rfl
theorem bar (k : BarKind) : Statement (.bar k) :=
  of_A _ (fun _ h => nomatch h) (fun _ h => nomatch h) rfl rfl (fun _ => rfl) rfl rfl rfl fun hw => by
    rw [readA_1]
    simp [-BitVec.getLsbD_eq_getElem, decXln, decBar, need]
theorem barrierRelease (warp : Nat) (k : BarKind) : Statement (.barrierRelease warp k) :=
  of_none (fun _ h => nomatch h) (fun _ h => nomatch h) fun _ => rfl
theorem barrierTimeout (a : Agent) : Statement (.barrierTimeout a) :=
  of_none (fun _ h => nomatch h) (fun _ h => nomatch h) fun _ => rfl
theorem ld (f : MemF) : Statement (.ld f) :=
  of_M _ (fun _ h => nomatch h) (fun _ h => nomatch h) rfl rfl (fun _ => rfl) rfl rfl fun hw => by
    simp [-BitVec.getLsbD_eq_getElem, decMemory, decMem]
theorem st (f : MemF) : Statement (.st f) :=
  of_M _ (fun _ h => nomatch h) (fun _ h => nomatch h) rfl rfl (fun _ => rfl) rfl rfl fun hw => by
    simp [-BitVec.getLsbD_eq_getElem, decMemory, decMem]
theorem lds (f : MemF) : Statement (.lds f) :=
  of_M _ (fun _ h => nomatch h) (fun _ h => nomatch h) rfl rfl (fun _ => rfl) rfl rfl fun hw => by
    simp [-BitVec.getLsbD_eq_getElem, decMemory, decMem]
theorem sts (f : MemF) : Statement (.sts f) :=
  of_M _ (fun _ h => nomatch h) (fun _ h => nomatch h) rfl rfl (fun _ => rfl) rfl rfl fun hw => by
    simp [-BitVec.getLsbD_eq_getElem, decMemory, decMem]
theorem atom (f : AtomF) : Statement (.atom f) :=
  of_M _ (fun _ h => nomatch h) (fun _ h => nomatch h) rfl rfl (fun _ => rfl) rfl rfl fun hw => by
    simp [-BitVec.getLsbD_eq_getElem, decMemory, decAtom]
theorem cas (f : MemF) : Statement (.cas f) :=
  of_M _ (fun _ h => nomatch h) (fun _ h => nomatch h) rfl rfl (fun _ => rfl) rfl rfl fun hw => by
    simp [-BitVec.getLsbD_eq_getElem, decMemory, decMem]
theorem waita (f : MemF) : Statement (.waita f) :=
  of_M _ (fun _ h => nomatch h) (fun _ h => nomatch h) rfl rfl (fun _ => rfl) rfl rfl fun hw => by
    simp [-BitVec.getLsbD_eq_getElem, decMemory, decMem]
theorem waitaTimeout (a : Agent) : Statement (.waitaTimeout a) :=
  of_none (fun _ h => nomatch h) (fun _ h => nomatch h) fun _ => rfl
theorem fence (f : FenceF) : Statement (.fence f) :=
  of_M _ (fun _ h => nomatch h) (fun _ h => nomatch h) rfl rfl (fun _ => rfl) rfl rfl fun hw => by
    simp [-BitVec.getLsbD_eq_getElem, decMemory, decFence, need]
theorem pfch (f : PfchF) : Statement (.pfch f) :=
  of_M _ (fun _ h => nomatch h) (fun _ h => nomatch h) rfl rfl (fun _ => rfl) rfl rfl fun hw => by
    simp [-BitVec.getLsbD_eq_getElem, decMemory, decPfch, need]
theorem brld (f : BrldF) : Statement (.brld f) :=
  of_M _ (fun _ h => nomatch h) (fun _ h => nomatch h) rfl rfl (fun _ => rfl) rfl rfl fun hw => by
    simp [-BitVec.getLsbD_eq_getElem, decMemory, decBrld, need]
theorem brmk (f : BrmkF) : Statement (.brmk f) :=
  of_M _ (fun _ h => nomatch h) (fun _ h => nomatch h) rfl rfl (fun _ => rfl) rfl rfl fun hw => by
    simp [-BitVec.getLsbD_eq_getElem, decMemory, decBrmk, need]
theorem memoryAccessPerformed (acc : Nat) (order : List Nat) : Statement (.memoryAccessPerformed acc order) :=
  of_none (fun _ h => nomatch h) (fun _ h => nomatch h) fun _ => rfl
theorem storeAcknowledged (acc : Nat) : Statement (.storeAcknowledged acc) :=
  of_none (fun _ h => nomatch h) (fun _ h => nomatch h) fun _ => rfl
theorem pageWalk (walk : Nat) : Statement (.pageWalk walk) :=
  of_none (fun _ h => nomatch h) (fun _ h => nomatch h) fun _ => rfl
theorem walkTimeout (walk : Nat) : Statement (.walkTimeout walk) :=
  of_none (fun _ h => nomatch h) (fun _ h => nomatch h) fun _ => rfl
theorem migration (die : Nat) (frames : List Nat) : Statement (.migration die frames) :=
  of_none (fun _ h => nomatch h) (fun _ h => nomatch h) fun _ => rfl
theorem migrationComplete (mig : Nat) : Statement (.migrationComplete mig) :=
  of_none (fun _ h => nomatch h) (fun _ h => nomatch h) fun _ => rfl
theorem ldx (f : LdxF) : Statement (.ldx f) :=
  of_A _ (fun _ h => nomatch h) (fun _ h => nomatch h) rfl rfl (fun _ => rfl) rfl rfl rfl fun hw => by
    rw [readA_3]
    simp [-BitVec.getLsbD_eq_getElem, decReg, decLdx, need]
theorem stx (f : StxF) : Statement (.stx f) :=
  of_A _ (fun _ h => nomatch h) (fun _ h => nomatch h) rfl rfl (fun _ => rfl) rfl rfl rfl fun hw => by
    rw [readA_3]
    simp [-BitVec.getLsbD_eq_getElem, decReg, decStx, need]
theorem wexp (f : WexpF) : Statement (.wexp f) :=
  of_A _ (fun _ h => nomatch h) (fun _ h => nomatch h) rfl rfl (fun _ => rfl) rfl rfl rfl fun hw => by
    rw [readA_3]
    simp [-BitVec.getLsbD_eq_getElem, decReg, decWexp, need]
theorem wrev (f : WrevF) : Statement (.wrev f) :=
  of_A _ (fun _ h => nomatch h) (fun _ h => nomatch h) rfl rfl (fun _ => rfl) rfl rfl rfl fun hw => by
    rw [readA_3]
    simp [-BitVec.getLsbD_eq_getElem, decReg, decOneA, need]
theorem wrd (f : WinF) : Statement (.wrd f) :=
  of_A _ (fun _ h => nomatch h) (fun _ h => nomatch h) rfl rfl (fun _ => rfl) rfl rfl rfl fun hw => by
    rw [readA_3]
    simp [-BitVec.getLsbD_eq_getElem, decReg, decWin, need]
theorem wwr (f : WinF) : Statement (.wwr f) :=
  of_A _ (fun _ h => nomatch h) (fun _ h => nomatch h) rfl rfl (fun _ => rfl) rfl rfl rfl fun hw => by
    rw [readA_3]
    simp [-BitVec.getLsbD_eq_getElem, decReg, decWin, need]
theorem windowRequest (req : Nat) : Statement (.windowRequest req) :=
  of_none (fun _ h => nomatch h) (fun _ h => nomatch h) fun _ => rfl
theorem wgrant (f : WgrantF) : Statement (.wgrant f) :=
  of_A _ (fun _ h => nomatch h) (fun _ h => nomatch h) rfl rfl (fun _ => rfl) rfl rfl rfl fun hw => by
    rw [readA_3]
    simp [-BitVec.getLsbD_eq_getElem, decReg, decWgrant, need]
theorem talloc (f : TallocF) : Statement (.talloc f) :=
  of_A _ (fun _ h => nomatch h) (fun _ h => nomatch h) rfl rfl (fun _ => rfl) rfl rfl rfl fun hw => by
    rw [readA_3]
    simp [-BitVec.getLsbD_eq_getElem, decReg, decTalloc, need]
theorem tfree (f : TfreeF) : Statement (.tfree f) :=
  of_A _ (fun _ h => nomatch h) (fun _ h => nomatch h) rfl rfl (fun _ => rfl) rfl rfl rfl fun hw => by
    rw [readA_3]
    simp [-BitVec.getLsbD_eq_getElem, decReg, decOneA, need]
theorem give (f : GiveF) : Statement (.give f) :=
  of_A _ (fun _ h => nomatch h) (fun _ h => nomatch h) rfl rfl (fun _ => rfl) rfl rfl rfl fun hw => by
    rw [readA_3]
    simp [-BitVec.getLsbD_eq_getElem, decReg, decGive, need]
theorem take (f : TakeF) : Statement (.take f) :=
  of_A _ (fun _ h => nomatch h) (fun _ h => nomatch h) rfl rfl (fun _ => rfl) rfl rfl rfl fun hw => by
    rw [readA_3]
    simp [-BitVec.getLsbD_eq_getElem, decReg, decTake, need]
theorem waitg (f : SyncF) : Statement (.waitg f) :=
  of_A _ (fun _ h => nomatch h) (fun _ h => nomatch h) rfl rfl (fun _ => rfl) rfl rfl rfl fun hw => by
    rw [readA_3]
    simp [-BitVec.getLsbD_eq_getElem, decReg, decSync, need]
theorem syncset (f : SyncF) : Statement (.syncset f) :=
  of_A _ (fun _ h => nomatch h) (fun _ h => nomatch h) rfl rfl (fun _ => rfl) rfl rfl rfl fun hw => by
    rw [readA_3]
    simp [-BitVec.getLsbD_eq_getElem, decReg, decSync, need]
theorem rrot (f : RrotF) : Statement (.rrot f) :=
  of_A _ (fun _ h => nomatch h) (fun _ h => nomatch h) rfl rfl (fun _ => rfl) rfl rfl rfl fun hw => by
    rw [readA_3]
    simp [-BitVec.getLsbD_eq_getElem, decReg, decRrot, need]
theorem rrotDeadline (crew : Nat) : Statement (.rrotDeadline crew) :=
  of_none (fun _ h => nomatch h) (fun _ h => nomatch h) fun _ => rfl
theorem rrotCompletion (crew : Nat) : Statement (.rrotCompletion crew) :=
  of_none (fun _ h => nomatch h) (fun _ h => nomatch h) fun _ => rfl
theorem gstat (f : GstatF) : Statement (.gstat f) :=
  of_A _ (fun _ h => nomatch h) (fun _ h => nomatch h) rfl rfl (fun _ => rfl) rfl rfl rfl fun hw => by
    rw [readA_3]
    simp [-BitVec.getLsbD_eq_getElem, decReg, decGstat, need]
theorem fmask (d : MReg) : Statement (.fmask d) :=
  of_A _ (fun _ h => nomatch h) (fun _ h => nomatch h) rfl rfl (fun _ => rfl) rfl rfl rfl fun hw => by
    rw [readA_3]
    simp [-BitVec.getLsbD_eq_getElem, decReg, decFmask, need]
theorem tget (f : TgetF) : Statement (.tget f) :=
  of_A _ (fun _ h => nomatch h) (fun _ h => nomatch h) rfl rfl (fun _ => rfl) rfl rfl rfl fun hw => by
    rw [readA_3]
    simp [-BitVec.getLsbD_eq_getElem, decReg, decTget, need]
theorem tset (f : TsetF) : Statement (.tset f) :=
  of_A _ (fun _ h => nomatch h) (fun _ h => nomatch h) rfl rfl (fun _ => rfl) rfl rfl rfl fun hw => by
    rw [readA_3]
    simp [-BitVec.getLsbD_eq_getElem, decReg, decTset, need]
theorem qstat (f : QstatF) : Statement (.qstat f) :=
  of_A _ (fun _ h => nomatch h) (fun _ h => nomatch h) rfl rfl (fun _ => rfl) rfl rfl rfl fun hw => by
    rw [readA_3]
    simp [-BitVec.getLsbD_eq_getElem, decReg, decQstat, need]
theorem qmark (q : Fin 8) : Statement (.qmark q) :=
  of_A _ (fun _ h => nomatch h) (fun _ h => nomatch h) rfl rfl (fun _ => rfl) rfl rfl rfl fun hw => by
    rw [readA_3]
    simp [-BitVec.getLsbD_eq_getElem, decReg, decQmark, need]
theorem copy (h : EHdr) (f : CopyF) : Statement (.copy h f) :=
  of_E _ _ (fun _ h => nomatch h) (fun _ h => nomatch h) rfl rfl (fun _ => rfl) rfl rfl fun hw =>
    .inl ⟨rfl, by simp [decEng, need, engOp_mod, engBody_code, engInstr]⟩
theorem copymc (h : EHdr) (f : CopymcF) : Statement (.copymc h f) :=
  of_E _ _ (fun _ h => nomatch h) (fun _ h => nomatch h) rfl rfl (fun _ => rfl) rfl rfl fun hw =>
    .inl ⟨rfl, by simp [decEng, need, engOp_mod, engBody_code, engInstr]⟩
theorem gath (h : EHdr) (f : GathF) : Statement (.gath h f) :=
  of_E _ _ (fun _ h => nomatch h) (fun _ h => nomatch h) rfl rfl (fun _ => rfl) rfl rfl fun hw =>
    .inl ⟨rfl, by simp [decEng, need, engOp_mod, engBody_code, engInstr]⟩
theorem scata (h : EHdr) (f : ScataF) : Statement (.scata h f) :=
  of_E _ _ (fun _ h => nomatch h) (fun _ h => nomatch h) rfl rfl (fun _ => rfl) rfl rfl fun hw =>
    .inl ⟨rfl, by simp [decEng, need, engOp_mod, engBody_code, engInstr]⟩
theorem mma (h : EHdr) (f : MmaF) : Statement (.mma h f) :=
  of_E _ _ (fun _ h => nomatch h) (fun _ h => nomatch h) rfl rfl (fun _ => rfl) rfl rfl fun hw =>
    .inl ⟨rfl, by simp [decEng, need, engOp_mod, engBody_code, engInstr]⟩
theorem tfill (h : EHdr) (f : TfillF) : Statement (.tfill h f) :=
  of_E _ _ (fun _ h => nomatch h) (fun _ h => nomatch h) rfl rfl (fun _ => rfl) rfl rfl fun hw =>
    .inl ⟨rfl, by simp [decEng, need, engOp_mod, engBody_code, engInstr]⟩
theorem eseq (h : EHdr) (f : EseqF) : Statement (.eseq h f) :=
  of_E _ _ (fun _ h => nomatch h) (fun _ h => nomatch h) rfl rfl (fun _ => rfl) rfl rfl fun hw =>
    .inl ⟨rfl, by simp [decEng, need, engOp_mod, engBody_code, engInstr]⟩
theorem engineQueueAccept (a : Agent) : Statement (.engineQueueAccept a) :=
  of_none (fun _ h => nomatch h) (fun _ h => nomatch h) fun _ => rfl
theorem engineLanding (cmd : Nat) : Statement (.engineLanding cmd) :=
  of_none (fun _ h => nomatch h) (fun _ h => nomatch h) fun _ => rfl
theorem engineCommandEnd (cmd : Nat) : Statement (.engineCommandEnd cmd) :=
  of_none (fun _ h => nomatch h) (fun _ h => nomatch h) fun _ => rfl
theorem engineCommandFail (cmd : Nat) : Statement (.engineCommandFail cmd) :=
  of_none (fun _ h => nomatch h) (fun _ h => nomatch h) fun _ => rfl
theorem windowCopyCheck (cmd : Nat) (target : Nat) : Statement (.windowCopyCheck cmd target) :=
  of_none (fun _ h => nomatch h) (fun _ h => nomatch h) fun _ => rfl
theorem bankPartialArrival (cmd : Nat) (bag : Nat) (port : Nat) : Statement (.bankPartialArrival cmd bag port) :=
  of_none (fun _ h => nomatch h) (fun _ h => nomatch h) fun _ => rfl
theorem mmaKgroup (core : Nat) : Statement (.mmaKgroup core) :=
  of_none (fun _ h => nomatch h) (fun _ h => nomatch h) fun _ => rfl
theorem mmaStart (cmd : Nat) : Statement (.mmaStart cmd) :=
  of_none (fun _ h => nomatch h) (fun _ h => nomatch h) fun _ => rfl
theorem kvw (h : EHdr) (f : KvF) : Statement (.kvw h f) :=
  of_E _ _ (fun _ h => nomatch h) (fun _ h => nomatch h) rfl rfl (fun _ => rfl) rfl rfl fun hw =>
    .inl ⟨rfl, by simp [decEng, need, engOp_mod, engBody_code, engInstr]⟩
theorem kvld (h : EHdr) (f : KvF) : Statement (.kvld h f) :=
  of_E _ _ (fun _ h => nomatch h) (fun _ h => nomatch h) rfl rfl (fun _ => rfl) rfl rfl fun hw =>
    .inl ⟨rfl, by simp [decEng, need, engOp_mod, engBody_code, engInstr]⟩
theorem kvst (h : EHdr) (f : KvF) : Statement (.kvst h f) :=
  of_E _ _ (fun _ h => nomatch h) (fun _ h => nomatch h) rfl rfl (fun _ => rfl) rfl rfl fun hw =>
    .inl ⟨rfl, by simp [decEng, need, engOp_mod, engBody_code, engInstr]⟩
theorem kvfork (h : EHdr) (f : KvF) : Statement (.kvfork h f) :=
  of_E _ _ (fun _ h => nomatch h) (fun _ h => nomatch h) rfl rfl (fun _ => rfl) rfl rfl fun hw =>
    .inl ⟨rfl, by simp [decEng, need, engOp_mod, engBody_code, engInstr]⟩
theorem splice (h : EHdr) (f : KvF) : Statement (.splice h f) :=
  of_E _ _ (fun _ h => nomatch h) (fun _ h => nomatch h) rfl rfl (fun _ => rfl) rfl rfl fun hw =>
    .inl ⟨rfl, by simp [decEng, need, engOp_mod, engBody_code, engInstr]⟩
theorem rpopen (h : EHdr) (f : KvF) : Statement (.rpopen h f) :=
  of_E _ _ (fun _ h => nomatch h) (fun _ h => nomatch h) rfl rfl (fun _ => rfl) rfl rfl fun hw =>
    .inl ⟨rfl, by simp [decEng, need, engOp_mod, engBody_code, engInstr]⟩
theorem repairJobStart (cmd : Nat) : Statement (.repairJobStart cmd) :=
  of_none (fun _ h => nomatch h) (fun _ h => nomatch h) fun _ => rfl
theorem repairGraphEnd (die : Nat) (slot : Nat) : Statement (.repairGraphEnd die slot) :=
  of_none (fun _ h => nomatch h) (fun _ h => nomatch h) fun _ => rfl
theorem rpstat (h : EHdr) (f : KvF) : Statement (.rpstat h f) :=
  of_E _ _ (fun _ h => nomatch h) (fun _ h => nomatch h) rfl rfl (fun _ => rfl) rfl rfl fun hw =>
    .inl ⟨rfl, by simp [decEng, need, engOp_mod, engBody_code, engInstr]⟩
theorem rpcancel (h : EHdr) (f : KvF) : Statement (.rpcancel h f) :=
  of_E _ _ (fun _ h => nomatch h) (fun _ h => nomatch h) rfl rfl (fun _ => rfl) rfl rfl fun hw =>
    .inl ⟨rfl, by simp [decEng, need, engOp_mod, engBody_code, engInstr]⟩
theorem kvfree (h : EHdr) (f : KvF) : Statement (.kvfree h f) :=
  of_E _ _ (fun _ h => nomatch h) (fun _ h => nomatch h) rfl rfl (fun _ => rfl) rfl rfl fun hw =>
    .inl ⟨rfl, by simp [decEng, need, engOp_mod, engBody_code, engInstr]⟩
theorem launch (f : LaunchF) : Statement (.launch f) :=
  of_A _ (fun _ h => nomatch h) (fun _ h => nomatch h) rfl rfl (fun _ => rfl) rfl rfl rfl fun hw => by
    rw [readA_5]
    simp [-BitVec.getLsbD_eq_getElem, decSch, decLaunch, need]
theorem launchWaitTimeout (a : Agent) : Statement (.launchWaitTimeout a) :=
  of_none (fun _ h => nomatch h) (fun _ h => nomatch h) fun _ => rfl
theorem wdask (f : WdaskF) : Statement (.wdask f) :=
  of_A _ (fun _ h => nomatch h) (fun _ h => nomatch h) rfl rfl (fun _ => rfl) rfl rfl rfl fun hw => by
    rw [readA_5]
    simp [-BitVec.getLsbD_eq_getElem, decSch, decWdask, need]
theorem workDistributorAnswer (die : Nat) : Statement (.workDistributorAnswer die) :=
  of_none (fun _ h => nomatch h) (fun _ h => nomatch h) fun _ => rfl
theorem ringAcq (f : RingAcqF) : Statement (.ringAcq f) :=
  of_A _ (fun _ h => nomatch h) (fun _ h => nomatch h) rfl rfl (fun _ => rfl) rfl rfl rfl fun hw => by
    rw [readA_5]
    simp [-BitVec.getLsbD_eq_getElem, decSch, decRingAcq, need]
theorem ringCmt (f : RingCmtF) : Statement (.ringCmt f) :=
  of_A _ (fun _ h => nomatch h) (fun _ h => nomatch h) rfl rfl (fun _ => rfl) rfl rfl rfl fun hw => by
    rw [readA_5]
    simp [-BitVec.getLsbD_eq_getElem, decSch, decRingCmt, need]
theorem ringPeek (f : RingPeekF) : Statement (.ringPeek f) :=
  of_A _ (fun _ h => nomatch h) (fun _ h => nomatch h) rfl rfl (fun _ => rfl) rfl rfl rfl fun hw => by
    rw [readA_5]
    simp [-BitVec.getLsbD_eq_getElem, decSch, decRingPeek, need]
theorem ringRel (f : RingRelF) : Statement (.ringRel f) :=
  of_A _ (fun _ h => nomatch h) (fun _ h => nomatch h) rfl rfl (fun _ => rfl) rfl rfl rfl fun hw => by
    rw [readA_5]
    simp [-BitVec.getLsbD_eq_getElem, decSch, decRingRel, need]
theorem ringWaitSatisfied (a : Agent) : Statement (.ringWaitSatisfied a) :=
  of_none (fun _ h => nomatch h) (fun _ h => nomatch h) fun _ => rfl
theorem pipelineReassign (launch : Nat) (stage : Nat) : Statement (.pipelineReassign launch stage) :=
  of_none (fun _ h => nomatch h) (fun _ h => nomatch h) fun _ => rfl
theorem gfire (f : GfireF) : Statement (.gfire f) :=
  of_A _ (fun _ h => nomatch h) (fun _ h => nomatch h) rfl rfl (fun _ => rfl) rfl rfl rfl fun hw => by
    rw [readA_5]
    simp [-BitVec.getLsbD_eq_getElem, decSch, decGfire, need]
theorem gnode (f : GnodeF) : Statement (.gnode f) :=
  of_A _ (fun _ h => nomatch h) (fun _ h => nomatch h) rfl rfl (fun _ => rfl) rfl rfl rfl fun hw => by
    rw [readA_5]
    simp [-BitVec.getLsbD_eq_getElem, decSch, decGnode, need]
theorem gcancel (f : GnodeF) : Statement (.gcancel f) :=
  of_A _ (fun _ h => nomatch h) (fun _ h => nomatch h) rfl rfl (fun _ => rfl) rfl rfl rfl fun hw => by
    rw [readA_5]
    simp [-BitVec.getLsbD_eq_getElem, decSch, decGnode, need]
theorem hnext : Statement .hnext :=
  of_A _ (fun _ h => nomatch h) (fun _ h => nomatch h) rfl rfl (fun _ => rfl) rfl rfl rfl fun hw => by
    rw [readA_5]
    simp [-BitVec.getLsbD_eq_getElem, decSch, decBare, need]
theorem waitpred : Statement .waitpred :=
  of_A _ (fun _ h => nomatch h) (fun _ h => nomatch h) rfl rfl (fun _ => rfl) rfl rfl rfl fun hw => by
    rw [readA_5]
    simp [-BitVec.getLsbD_eq_getElem, decSch, decBare, need]
theorem yield : Statement .yield :=
  of_A _ (fun _ h => nomatch h) (fun _ h => nomatch h) rfl rfl (fun _ => rfl) rfl rfl rfl fun hw => by
    rw [readA_5]
    simp [-BitVec.getLsbD_eq_getElem, decSch, decBare, need]
theorem prio (a : Opnd) : Statement (.prio a) :=
  of_A _ (fun _ h => nomatch h) (fun _ h => nomatch h) rfl rfl (fun _ => rfl) rfl rfl rfl fun hw => by
    rw [readA_5]
    simp [-BitVec.getLsbD_eq_getElem, decSch, decOneA, need]
theorem graphNodeEnd (work : Nat) : Statement (.graphNodeEnd work) :=
  of_none (fun _ h => nomatch h) (fun _ h => nomatch h) fun _ => rfl
theorem graphCancelWalkStep (walk : Nat) : Statement (.graphCancelWalkStep walk) :=
  of_none (fun _ h => nomatch h) (fun _ h => nomatch h) fun _ => rfl
theorem arbiterRun (die : Nat) : Statement (.arbiterRun die) :=
  of_none (fun _ h => nomatch h) (fun _ h => nomatch h) fun _ => rfl
theorem crewEnd (crew : Nat) : Statement (.crewEnd crew) :=
  of_none (fun _ h => nomatch h) (fun _ h => nomatch h) fun _ => rfl
theorem frontEndStallWatchdog (crew : Nat) : Statement (.frontEndStallWatchdog crew) :=
  of_none (fun _ h => nomatch h) (fun _ h => nomatch h) fun _ => rfl
theorem aadd (f : ABinF) : Statement (.aadd f) :=
  of_A _ (fun _ h => nomatch h) (fun _ h => nomatch h) rfl rfl (fun _ => rfl) rfl rfl rfl fun hw => by
    rw [readA_7 _ rfl]
    simp [-BitVec.getLsbD_eq_getElem, decAcc, decABin, need]
theorem asub (f : ABinF) : Statement (.asub f) :=
  of_A _ (fun _ h => nomatch h) (fun _ h => nomatch h) rfl rfl (fun _ => rfl) rfl rfl rfl fun hw => by
    rw [readA_7 _ rfl]
    simp [-BitVec.getLsbD_eq_getElem, decAcc, decABin, need]
theorem amul (f : ABinF) : Statement (.amul f) :=
  of_A _ (fun _ h => nomatch h) (fun _ h => nomatch h) rfl rfl (fun _ => rfl) rfl rfl rfl fun hw => by
    rw [readA_7 _ rfl]
    simp [-BitVec.getLsbD_eq_getElem, decAcc, decABin, need]
theorem ashl (f : ABinF) : Statement (.ashl f) :=
  of_A _ (fun _ h => nomatch h) (fun _ h => nomatch h) rfl rfl (fun _ => rfl) rfl rfl rfl fun hw => by
    rw [readA_7 _ rfl]
    simp [-BitVec.getLsbD_eq_getElem, decAcc, decABin, need]
theorem ashr (f : AShrF) : Statement (.ashr f) :=
  of_A _ (fun _ h => nomatch h) (fun _ h => nomatch h) rfl rfl (fun _ => rfl) rfl rfl rfl fun hw => by
    rw [readA_7 _ rfl]
    simp [-BitVec.getLsbD_eq_getElem, decAcc, decAShr, need]
theorem aand (f : ABinF) : Statement (.aand f) :=
  of_A _ (fun _ h => nomatch h) (fun _ h => nomatch h) rfl rfl (fun _ => rfl) rfl rfl rfl fun hw => by
    rw [readA_7 _ rfl]
    simp [-BitVec.getLsbD_eq_getElem, decAcc, decABin, need]
theorem aor (f : ABinF) : Statement (.aor f) :=
  of_A _ (fun _ h => nomatch h) (fun _ h => nomatch h) rfl rfl (fun _ => rfl) rfl rfl rfl fun hw => by
    rw [readA_7 _ rfl]
    simp [-BitVec.getLsbD_eq_getElem, decAcc, decABin, need]
theorem axor (f : ABinF) : Statement (.axor f) :=
  of_A _ (fun _ h => nomatch h) (fun _ h => nomatch h) rfl rfl (fun _ => rfl) rfl rfl rfl fun hw => by
    rw [readA_7 _ rfl]
    simp [-BitVec.getLsbD_eq_getElem, decAcc, decABin, need]
theorem acmp (f : ACmpF) : Statement (.acmp f) :=
  of_A _ (fun _ h => nomatch h) (fun _ h => nomatch h) rfl rfl (fun _ => rfl) rfl rfl rfl fun hw => by
    rw [readA_7 _ rfl]
    simp [-BitVec.getLsbD_eq_getElem, decAcc, decACmp, need]
theorem amov (f : AMovF) : Statement (.amov f) :=
  of_A _ (fun _ h => nomatch h) (fun _ h => nomatch h) rfl rfl (fun _ => rfl) rfl rfl rfl fun hw => by
    rw [readA_7 _ rfl]
    simp [-BitVec.getLsbD_eq_getElem, decAcc, decAMov, need]
theorem amovi (f : AMoviF) : Statement (.amovi f) :=
  of_I _ (fun _ h => nomatch h) (fun _ h => nomatch h) rfl rfl (fun _ => rfl) rfl rfl fun hw => by
    exact .inr ⟨rfl, rfl, by simp [-BitVec.getLsbD_eq_getElem, decAMovi, need]⟩
theorem ald (f : AldF) : Statement (.ald f) :=
  of_A _ (fun _ h => nomatch h) (fun _ h => nomatch h) rfl rfl (fun _ => rfl) rfl rfl rfl fun hw => by
    rw [readA_7 _ rfl]
    simp [-BitVec.getLsbD_eq_getElem, decAcc, decAld, need]
theorem ast (f : AstF) : Statement (.ast f) :=
  of_A _ (fun _ h => nomatch h) (fun _ h => nomatch h) rfl rfl (fun _ => rfl) rfl rfl rfl fun hw => by
    rw [readA_7 _ rfl]
    simp [-BitVec.getLsbD_eq_getElem, decAcc, decAst, need]
theorem apush (f : ApushF) : Statement (.apush f) :=
  of_A _ (fun _ h => nomatch h) (fun _ h => nomatch h) rfl rfl (fun _ => rfl) rfl rfl rfl fun hw => by
    rw [readA_7 _ rfl]
    simp [-BitVec.getLsbD_eq_getElem, decAcc, decApush, need]
theorem apushm (f : ApushmF) : Statement (.apushm f) :=
  of_A _ (fun _ h => nomatch h) (fun _ h => nomatch h) rfl rfl (fun _ => rfl) rfl rfl rfl fun hw => by
    rw [readA_7 _ rfl]
    simp [-BitVec.getLsbD_eq_getElem, decAcc, decApushm, need]
theorem apop (f : ApopF) : Statement (.apop f) :=
  of_A _ (fun _ h => nomatch h) (fun _ h => nomatch h) rfl rfl (fun _ => rfl) rfl rfl rfl fun hw => by
    rw [readA_7 _ rfl]
    simp [-BitVec.getLsbD_eq_getElem, decAcc, decApop, need]
theorem akvw (f : AkvwF) : Statement (.akvw f) :=
  of_A _ (fun _ h => nomatch h) (fun _ h => nomatch h) rfl rfl (fun _ => rfl) rfl rfl rfl fun hw => by
    rw [readA_7 _ rfl]
    simp [-BitVec.getLsbD_eq_getElem, decAcc, decAkvw, need]
theorem aeng (f : AengF) : Statement (.aeng f) :=
  of_E _ _ (fun _ h => nomatch h) (fun _ h => nomatch h) rfl rfl (fun _ => rfl) rfl rfl fun hw =>
    .inr ⟨rfl, rfl, by simp [decAeng, need, engOp_mod, engBody_code]⟩
theorem await (f : AwaitF) : Statement (.await f) :=
  of_A _ (fun _ h => nomatch h) (fun _ h => nomatch h) rfl rfl (fun _ => rfl) rfl rfl rfl fun hw => by
    rw [readA_7 _ rfl]
    simp [-BitVec.getLsbD_eq_getElem, decAcc, decAwait, need]
theorem aend : Statement .aend :=
  of_A _ (fun _ h => nomatch h) (fun _ h => nomatch h) rfl rfl (fun _ => rfl) rfl rfl rfl fun hw => by
    rw [readA_7 _ rfl]
    simp [-BitVec.getLsbD_eq_getElem, decAcc, decBare, need]
theorem trap (n : Fin 16) : Statement (.trap n) :=
  of_S _ (fun _ h => nomatch h) (fun _ h => nomatch h) rfl rfl (fun _ => rfl) rfl rfl fun hw => by
    simp [-BitVec.getLsbD_eq_getElem, decSys, decTrap, need]
theorem tret (f : TretF) : Statement (.tret f) :=
  of_S _ (fun _ h => nomatch h) (fun _ h => nomatch h) rfl rfl (fun _ => rfl) rfl rfl fun hw => by
    simp [-BitVec.getLsbD_eq_getElem, decSys, decTret, need]
theorem tkill (m : MReg) : Statement (.tkill m) :=
  of_S _ (fun _ h => nomatch h) (fun _ h => nomatch h) rfl rfl (fun _ => rfl) rfl rfl fun hw => by
    simp [-BitVec.getLsbD_eq_getElem, decSys, decTkill, need]
theorem csrrd (f : CsrF) : Statement (.csrrd f) :=
  of_S _ (fun _ h => nomatch h) (fun _ h => nomatch h) rfl rfl (fun _ => rfl) rfl rfl fun hw => by
    simp [-BitVec.getLsbD_eq_getElem, decSys, decCsr, need]
theorem csrwr (f : CsrF) : Statement (.csrwr f) :=
  of_S _ (fun _ h => nomatch h) (fun _ h => nomatch h) rfl rfl (fun _ => rfl) rfl rfl fun hw => by
    simp [-BitVec.getLsbD_eq_getElem, decSys, decCsr, need]
theorem tlbinv (va : Option SReg) : Statement (.tlbinv va) :=
  match va with
  | some k => of_S _ (fun _ h => nomatch h) (fun _ h => nomatch h) rfl rfl (fun _ => rfl) rfl rfl fun hw => by
    simp [decSys, decTlbinv, need]
  | none => of_S _ (fun _ h => nomatch h) (fun _ h => nomatch h) rfl rfl (fun _ => rfl) rfl rfl fun hw => by
    simp [decSys, decTlbinv, need]
theorem drain (f : DrainF) : Statement (.drain f) :=
  of_S _ (fun _ h => nomatch h) (fun _ h => nomatch h) rfl rfl (fun _ => rfl) rfl rfl fun hw => by
    simp [-BitVec.getLsbD_eq_getElem, decSys, decDrain, need]
theorem gcall (g : BitVec 10) : Statement (.gcall g) :=
  of_S _ (fun _ h => nomatch h) (fun _ h => nomatch h) rfl rfl (fun _ => rfl) rfl rfl fun hw => by
    simp [-BitVec.getLsbD_eq_getElem, decSys, decGcall, need]
theorem gret : Statement .gret :=
  of_S _ (fun _ h => nomatch h) (fun _ h => nomatch h) rfl rfl (fun _ => rfl) rfl rfl fun hw => by
    simp [-BitVec.getLsbD_eq_getElem, decSys, decGret, need]
theorem gateTimeout (warp : Nat) (dom : Nat) : Statement (.gateTimeout warp dom) :=
  of_none (fun _ h => nomatch h) (fun _ h => nomatch h) fun _ => rfl
theorem bra (tgt : BitVec 24) : Statement (.bra tgt) :=
  of_B _ (fun _ h => nomatch h) (fun _ h => nomatch h) rfl rfl rfl fun hw fe c hc hs => by
    simp [-BitVec.getLsbD_eq_getElem, decCtl, decBra, need]
theorem brc (f : BrcF) : Statement (.brc f) :=
  by
  obtain ⟨cnd, tgt, join⟩ := f
  cases cnd with
  | mask m inv =>
    refine of_B _ (fun _ h => nomatch h) (fun _ h => nomatch h) rfl rfl rfl fun hw fe c hc hs => ?_
    have hs : (c != 7) = true := hs
    obtain rfl := warp_side hc hs
    simp [-BitVec.getLsbD_eq_getElem, decCtl, decBrc, need]
  | areg k inv =>
    refine of_B _ (fun _ h => nomatch h) (fun _ h => nomatch h) rfl rfl rfl fun hw fe c hc hs => ?_
    have hs : (c == 7) = true := hs
    obtain rfl := front_side hc hs
    have hj : join = 0 := by
      have hw : (join == 0) = true := hw
      simpa using hw
    subst hj
    simp [-BitVec.getLsbD_eq_getElem, decCtl, decBrc, need]
theorem brx (f : BrxF) : Statement (.brx f) :=
  of_B _ (fun _ h => nomatch h) (fun _ h => nomatch h) rfl rfl rfl fun hw fe c hc hs => by
    have hs : (c != 7) = true := hs
    obtain rfl := warp_side hc hs
    simp [-BitVec.getLsbD_eq_getElem, decCtl, decBrx, need]
theorem call (tgt : BitVec 24) : Statement (.call tgt) :=
  of_B _ (fun _ h => nomatch h) (fun _ h => nomatch h) rfl rfl rfl fun hw fe c hc hs => by
    simp [-BitVec.getLsbD_eq_getElem, decCtl, decBra, need]
theorem callx (f : BrxF) : Statement (.callx f) :=
  of_B _ (fun _ h => nomatch h) (fun _ h => nomatch h) rfl rfl rfl fun hw fe c hc hs => by
    have hs : (c != 7) = true := hs
    obtain rfl := warp_side hc hs
    simp [-BitVec.getLsbD_eq_getElem, decCtl, decBrx, need]
theorem ret : Statement .ret :=
  of_B _ (fun _ h => nomatch h) (fun _ h => nomatch h) rfl rfl rfl fun hw fe c hc hs => by
    simp [-BitVec.getLsbD_eq_getElem, decCtl, decCtlBare, need]
theorem loop (f : LoopF) : Statement (.loop f) :=
  of_B _ (fun _ h => nomatch h) (fun _ h => nomatch h) rfl rfl rfl fun hw fe c hc hs => by
    have hs : (c != 7 || decide (f.k.toNat < 32)) = true := hs
    simpa [-BitVec.getLsbD_eq_getElem, decCtl, need] using loop_side hc hs
theorem endl : Statement .endl :=
  of_B _ (fun _ h => nomatch h) (fun _ h => nomatch h) rfl rfl rfl fun hw fe c hc hs => by
    have hs : (c != 7) = true := hs
    obtain rfl := warp_side hc hs
    simp [-BitVec.getLsbD_eq_getElem, decCtl, decCtlBare, need]
theorem handlerTimeout (a : Agent) : Statement (.handlerTimeout a) :=
  of_none (fun _ h => nomatch h) (fun _ h => nomatch h) fun _ => rfl
theorem noticeAnswerTimeout (ctx : Nat) : Statement (.noticeAnswerTimeout ctx) :=
  of_none (fun _ h => nomatch h) (fun _ h => nomatch h) fun _ => rfl
theorem contextRungTimeout (ctx : Nat) : Statement (.contextRungTimeout ctx) :=
  of_none (fun _ h => nomatch h) (fun _ h => nomatch h) fun _ => rfl
theorem partitionResetTimeout (part : Nat) : Statement (.partitionResetTimeout part) :=
  of_none (fun _ h => nomatch h) (fun _ h => nomatch h) fun _ => rfl
theorem registerSoftError (core : Nat) (addr : Nat) : Statement (.registerSoftError core addr) :=
  of_none (fun _ h => nomatch h) (fun _ h => nomatch h) fun _ => rfl
theorem instructionStoreSoftError (die : Nat) (clus : Nat) : Statement (.instructionStoreSoftError die clus) :=
  of_none (fun _ h => nomatch h) (fun _ h => nomatch h) fun _ => rfl
theorem memorySoftError (line : Nat) : Statement (.memorySoftError line) :=
  of_none (fun _ h => nomatch h) (fun _ h => nomatch h) fun _ => rfl
theorem shadowStoreSoftError (die : Nat) (ctx : Nat) : Statement (.shadowStoreSoftError die ctx) :=
  of_none (fun _ h => nomatch h) (fun _ h => nomatch h) fun _ => rfl
theorem tlbSoftError (core : Nat) (entry : Nat) : Statement (.tlbSoftError core entry) :=
  of_none (fun _ h => nomatch h) (fun _ h => nomatch h) fun _ => rfl
theorem portDown (port : Nat) : Statement (.portDown port) :=
  of_none (fun _ h => nomatch h) (fun _ h => nomatch h) fun _ => rfl
theorem preemptAcknowledge (ctx : Nat) (p : Party) : Statement (.preemptAcknowledge ctx p) :=
  of_none (fun _ h => nomatch h) (fun _ h => nomatch h) fun _ => rfl
theorem preemptionTimeout (ctx : Nat) : Statement (.preemptionTimeout ctx) :=
  of_none (fun _ h => nomatch h) (fun _ h => nomatch h) fun _ => rfl
theorem partitionSwap (out : Nat) (inn : Option Nat) : Statement (.partitionSwap out inn) :=
  of_none (fun _ h => nomatch h) (fun _ h => nomatch h) fun _ => rfl
theorem networkRequest (ctx : Nat) : Statement (.networkRequest ctx) :=
  of_none (fun _ h => nomatch h) (fun _ h => nomatch h) fun _ => rfl
theorem networkCompletion (req : Nat) (cause : Nat) (data : List Byte) : Statement (.networkCompletion req cause data) :=
  of_none (fun _ h => nomatch h) (fun _ h => nomatch h) fun _ => rfl
theorem peerRequestReceived (r : PeerReq) : Statement (.peerRequestReceived r) :=
  of_none (fun _ h => nomatch h) (fun _ h => nomatch h) fun _ => rfl
theorem waitTimeout (wait : Nat) : Statement (.waitTimeout wait) :=
  of_none (fun _ h => nomatch h) (fun _ h => nomatch h) fun _ => rfl
theorem hello (h : HostHdr) (sig : BitVec 912) : Statement (.hello h sig) :=
  of_none (fun _ h => nomatch h) (fun _ h => nomatch h) fun _ => rfl
theorem measure (h : HostHdr) : Statement (.measure h) :=
  of_none (fun _ h => nomatch h) (fun _ h => nomatch h) fun _ => rfl
theorem attest (h : HostHdr) (nonce : BitVec 256) : Statement (.attest h nonce) :=
  of_none (fun _ h => nomatch h) (fun _ h => nomatch h) fun _ => rfl
theorem partCreate (h : HostHdr) (f : PartCreateF) : Statement (.partCreate h f) :=
  of_none (fun _ h => nomatch h) (fun _ h => nomatch h) fun _ => rfl
theorem partDestroy (h : HostHdr) (part : Nat) : Statement (.partDestroy h part) :=
  of_none (fun _ h => nomatch h) (fun _ h => nomatch h) fun _ => rfl
theorem partStitch (h : HostHdr) (f : StitchF) : Statement (.partStitch h f) :=
  of_none (fun _ h => nomatch h) (fun _ h => nomatch h) fun _ => rfl
theorem ctxCreate (h : HostHdr) (f : CtxCreateF) : Statement (.ctxCreate h f) :=
  of_none (fun _ h => nomatch h) (fun _ h => nomatch h) fun _ => rfl
theorem ctxDestroy (h : HostHdr) : Statement (.ctxDestroy h) :=
  of_none (fun _ h => nomatch h) (fun _ h => nomatch h) fun _ => rfl
theorem map (h : HostHdr) (l : List PteWrite) : Statement (.map h l) :=
  of_none (fun _ h => nomatch h) (fun _ h => nomatch h) fun _ => rfl
theorem unmap (h : HostHdr) (l : List Nat) : Statement (.unmap h l) :=
  of_none (fun _ h => nomatch h) (fun _ h => nomatch h) fun _ => rfl
theorem write (h : HostHdr) (va : Nat) (bytes : List Byte) : Statement (.write h va bytes) :=
  of_none (fun _ h => nomatch h) (fun _ h => nomatch h) fun _ => rfl
theorem read (h : HostHdr) (va : Nat) (len : Nat) : Statement (.read h va len) :=
  of_none (fun _ h => nomatch h) (fun _ h => nomatch h) fun _ => rfl
theorem gateInstall (h : HostHdr) (idx : BitVec 10) (image : BitVec 512) : Statement (.gateInstall h idx image) :=
  of_none (fun _ h => nomatch h) (fun _ h => nomatch h) fun _ => rfl
theorem graphSubmit (h : HostHdr) (f : SubmitF) : Statement (.graphSubmit h f) :=
  of_none (fun _ h => nomatch h) (fun _ h => nomatch h) fun _ => rfl
theorem graphStatus (h : HostHdr) (graph : Nat) : Statement (.graphStatus h graph) :=
  of_none (fun _ h => nomatch h) (fun _ h => nomatch h) fun _ => rfl
theorem signal (h : HostHdr) (f : SignalF) : Statement (.signal h f) :=
  of_none (fun _ h => nomatch h) (fun _ h => nomatch h) fun _ => rfl
theorem wait (h : HostHdr) (f : WaitF) : Statement (.wait h f) :=
  of_none (fun _ h => nomatch h) (fun _ h => nomatch h) fun _ => rfl
theorem qosSet (h : HostHdr) (f : QosF) : Statement (.qosSet h f) :=
  of_none (fun _ h => nomatch h) (fun _ h => nomatch h) fun _ => rfl
theorem preempt (h : HostHdr) (swapIn : Option Nat) : Statement (.preempt h swapIn) :=
  of_none (fun _ h => nomatch h) (fun _ h => nomatch h) fun _ => rfl
theorem resume (h : HostHdr) : Statement (.resume h) :=
  of_none (fun _ h => nomatch h) (fun _ h => nomatch h) fun _ => rfl
theorem kill (h : HostHdr) : Statement (.kill h) :=
  of_none (fun _ h => nomatch h) (fun _ h => nomatch h) fun _ => rfl
theorem tierPolicy (h : HostHdr) (f : TierF) : Statement (.tierPolicy h f) :=
  of_none (fun _ h => nomatch h) (fun _ h => nomatch h) fun _ => rfl
theorem repairModel (h : HostHdr) (f : ModelF) : Statement (.repairModel h f) :=
  of_none (fun _ h => nomatch h) (fun _ h => nomatch h) fun _ => rfl
theorem stats (h : HostHdr) : Statement (.stats h) :=
  of_none (fun _ h => nomatch h) (fun _ h => nomatch h) fun _ => rfl
theorem powerOn : Statement .powerOn :=
  of_none (fun _ h => nomatch h) (fun _ h => nomatch h) fun _ => rfl
theorem dieLinkRetriesExhausted : Statement .dieLinkRetriesExhausted :=
  of_none (fun _ h => nomatch h) (fun _ h => nomatch h) fun _ => rfl
theorem thermalStop : Statement .thermalStop :=
  of_none (fun _ h => nomatch h) (fun _ h => nomatch h) fun _ => rfl
theorem powerStop : Statement .powerStop :=
  of_none (fun _ h => nomatch h) (fun _ h => nomatch h) fun _ => rfl
theorem clockStop : Statement .clockStop :=
  of_none (fun _ h => nomatch h) (fun _ h => nomatch h) fun _ => rfl
theorem firmwareWatchdog : Statement .firmwareWatchdog :=
  of_none (fun _ h => nomatch h) (fun _ h => nomatch h) fun _ => rfl
theorem weirWindow : Statement .weirWindow :=
  of_none (fun _ h => nomatch h) (fun _ h => nomatch h) fun _ => rfl

end Sys2Proof.Laws.RoundTrip
end

