-- ==== Sys2Proof/Safety.lean ====
section
/-! DEFINITION. What counts as a safe run, in the terms that claims use. -/

namespace Sys2Proof

/-- The form that every step keeps: memory and its poison marks are canonical. -/
def Machine.State.canonical (s : Machine.State) : Bool :=
  Machine.Memory.wf s.mem && Machine.Sparse.wf 0 s.mmarks

/-- A run of the machine is safe if no step of it faults or is refused and every state of it is canonical. -/
def safeRun (s : Machine.State) (n : Nat) : Bool :=
  match Host.Core.run core n s with
  | .next t => t.canonical
  | _ => false

end Sys2Proof
end

