-- ==== Sys2Proof/Safety/Issue.lean ====
section
/-! DEFINITION. The terms in which claims about the instructions of classes 0 to 6 speak: when a strand may issue, when its operands
are in order, and what a completed instruction leaves. Each is said of the state and the operands alone. -/

namespace Sys2Proof.Machine

/-- Strand `x` has the turn and nothing of R34, R105, R122, R171 or R324 holds it back; it has not ended (R111), and its EM lies
in its warp's width (R7). -/
structure Clear (s : State) (x : Who) : Prop where
  who : s.who = some x
  free : ∀ p, x.st.parked = some p → p.1.byEvent = false
  step : x.st.stepArm ≠ 2
  window : ∀ p ∈ x.st.pends, p.left ≠ 0
  alive : x.st.mem ≠ 0
  lanes : ∀ l ∈ lanesOf x.st.em, l < x.width

/-- The vector registers that a source or a destination names, as words of lane `l` (R127 judges these alone). -/
def vecAddrs (x : Who) (o : Opnd) (n l : Nat) : List Nat :=
  match o with
  | .v _ => srcAddrs x o n l
  | _ => []

/-- The words a lane reads and writes through its vector operands. -/
def laneReads (x : Who) (d : OpD) (l : Nat) : List Nat := d.srcs.flatMap fun p => vecAddrs x p.1 p.2 l
def laneWrites (x : Who) (d : OpD) (l : Nat) : List Nat :=
  match d.dst with
  | some (o, n) => vecAddrs x o n l
  | none => []

/-- The words of the sources that a lane consumes, scalars included (R319): those that `carry` names travel with the data. -/
def laneConsumes (x : Who) (d : OpD) (l : Nat) : List Nat :=
  (List.range d.srcs.length).flatMap fun i =>
    if d.carry.contains i then [] else match d.srcs[i]? with
      | some p => srcAddrs x p.1 p.2 l
      | none => []

/-- The issue record of an instruction whose checks find nothing, for the lanes of EM in `only`. -/
def readyOf (s : State) (x : Who) (d : OpD) (only : Mask := 0xFFFFFFFFFFFFFFFF) : Ready :=
  ⟨s, x, d, x.st.em &&& only, [(0, 0), (1, 0), (2, 0), (3, 0)], popEntries x.w.queues d.srcs⟩

/-- A lane's own-frame accesses beside its operands, which an instruction may name by the values it has read. -/
abbrev OwnOf := Ready → Nat → OwnAcc

/-- A lane that supplies operands meets no violation of R127 and no poisoned word (R319). -/
structure LaneOk (s : State) (x : Who) (d : OpD) (a : OwnAcc) (l : Nat) : Prop where
  index : a.bad = false
  reads : ∀ w ∈ a.reads ++ laneReads x d l, ((s.core x.core).gran (w / 128)).own = false ∧ ((s.core x.core).gran (w / 128)).val = true
  writes : ∀ w ∈ a.writes ++ laneWrites x d l, ((s.core x.core).gran (w / 128)).own = false
  clean : ∀ w ∈ laneConsumes x d l ++ a.reads, (s.core x.core).mark w = 0

/-- The operands of an instruction are in order: queue directions (R13, R338), no scalar of a pair in use as a destination (R143),
queue entries and room (R145, R147), no release before the strand's accesses (R224), no register outside the frame (R14), no exported
register touched before an acquire is complete (R180, R185), and every lane that supplies operands is in order. -/
structure OperandsOk (s : State) (x : Who) (d : OpD) (acc : OwnOf := fun _ _ => OwnAcc.none) (only : Mask := 0xFFFFFFFFFFFFFFFF) :
    Prop where
  dirs : queueFault x d = none
  busy : busyDst s x d = false
  room : queueWait x d = false
  supply : x.st.em ≠ 0 → ∀ q, q < 4 → popCount d.srcs q ≤ (x.w.queues.getD q ⟨[], false⟩).entries.length
  release : d.pushes = true → s.unfinished x.agent = false
  codes : x.st.em ≠ 0 → d.outside x = false
  fence : Ready.fencedOff ⟨s, x, d, x.st.em &&& only, [], popEntries x.w.queues d.srcs⟩ acc = false
  lane : ∀ l ∈ lanesOf (x.st.em &&& only), LaneOk s x d (acc (readyOf s x d only) l) l
  same : ∀ l, acc ⟨s, x, d, x.st.em &&& only, [], popEntries x.w.queues d.srcs⟩ l = acc (readyOf s x d only) l

/-! ## What an instruction leaves -/

/-- The words that a result goes to (R9): a vector destination takes each lane's words, a scalar one the lowest lane's. -/
def destAddrs (x : Who) (d : OpD) (m : Mask) : List Nat :=
  match d.dst with
  | some (.v k, n) => (lanesOf m).flatMap fun l => (List.range n).map fun j => x.d.lane x.width (k.val + j) l
  | some (.s k, n) => if m = 0 then [] else (List.range n).map fun j => x.d.scal (k.val + j)
  | _ => []

/-- The warp's queues after an instruction (R145, R146): what the sources pop goes, what the destination pushes is appended. -/
def queuesAfter (r : Ready) (m : Mask) (res : Nat → List Word) : List Queue :=
  if r.x.st.em = 0 then r.x.w.queues
  else
    let left := (List.range 8).map fun q =>
      let u := r.x.w.queues.getD q ⟨[], false⟩
      (⟨u.entries.drop (popCount r.d.srcs q), u.closed⟩ : Queue)
    match r.pushes m res with
    | none => left
    | some (q, es) =>
      let u := left.getD q ⟨[], false⟩
      left.set q ⟨u.entries ++ es, u.closed⟩

/-- ACR with further sticky bits (R19). -/
def Dom.sticky (d : Dom) (bits : Nat) : Dom := { d with csrs := { d.csrs with acr := d.csrs.acr ||| BitVec.ofNat 64 bits } }

/-- The words of a core after writes of a warp (R125, R128): a word of `dst` holds its new value, any other word of a granule that
was written while its VAL was 0 holds 0, and every other word is as before. Nothing of the core but words, marks and granule bits
changes. -/
structure CoreWritten (c c' : Core) (dst : List Nat) : Prop where
  rest : c' = { c with regs := c'.regs, marks := c'.marks, grans := c'.grans }
  words : ∀ a, a ∉ dst →
    c'.word a = (if (∃ w ∈ dst, w / 128 = a / 128) ∧ (c.gran (a / 128)).val = false then 0 else c.word a) ∧
    c'.mark a = (if (∃ w ∈ dst, w / 128 = a / 128) ∧ (c.gran (a / 128)).val = false then 0 else c.mark a)
  grans : ∀ g, c'.gran g =
    if ∃ w ∈ dst, w / 128 = g then { c.gran g with val := true, drt := true } else c.gran g

/-- `t` is `s` but for one core's register space and one warp. -/
structure OnlyWarp (s t : State) (x : Who) : Prop where
  rest : t = { s with cores := t.cores, warps := t.warps }
  warps : ∀ w, w ≠ x.wid → Tbl.find t.warps w = Tbl.find s.warps w
  cores : ∀ c, c ≠ x.core → t.core c = s.core c

/-- A short instruction has completed with the results `res` in the lanes of `m` and the sticky bits `bits` (R9, R33): its
destination holds them, free of poison; its queue entries are popped and pushed; ACR gains the bits; the PC has moved by one
unit; and nothing else has changed. -/
structure Finished (s : State) (x : Who) (d : OpD) (only m : Mask) (res : Nat → List Word) (bits : Nat) (t : State) : Prop where
  frame : OnlyWarp s t x
  warp : Tbl.find t.warps x.wid = some
    { x.w with
      queues := queuesAfter (readyOf s x d only) m res
      doms := Tbl.upd x.w.doms x.st.dom fun k => k.sticky bits
      strands := Tbl.upd x.w.strands x.sid fun st => st.advance 1 }
  core : CoreWritten (s.core x.core) (t.core x.core) (destAddrs x d m)
  vector : ∀ k n, d.dst = some (.v k, n) → ∀ l ∈ lanesOf m, ∀ j, j < n →
    (t.core x.core).word (x.d.lane x.width (k.val + j) l) = (res l).getD j 0 ∧
    (t.core x.core).mark (x.d.lane x.width (k.val + j) l) = 0
  scalar : ∀ k n, d.dst = some (.s k, n) → ∀ l, lowLane m = some l → ∀ j, j < n →
    (t.core x.core).word (x.d.scal (k.val + j)) = (res l).getD j 0 ∧ (t.core x.core).mark (x.d.scal (k.val + j)) = 0

/-- A long-latency instruction has issued (R34): its results, known or not yet, stand with the strand until they land; nothing of
register space has changed. -/
structure Launched (s : State) (x : Who) (d : OpD) (only m : Mask) (la : Nat) (res : Nat → List Word) (bits : Nat) (t : State) :
    Prop where
  rest : t = { s with warps := t.warps, nextId := s.nextId + 1 }
  warps : ∀ w, w ≠ x.wid → Tbl.find t.warps w = Tbl.find s.warps w
  warp : Tbl.find t.warps x.wid = some
    { x.w with
      queues := queuesAfter (readyOf s x { d with dst := none } only) m res
      strands := Tbl.upd x.w.strands x.sid fun st =>
        { st.advance 1 with
          pends := (st.advance 1).pends ++
            [⟨s.nextId, la, (readyOf s x d only).writes m res, (readyOf s x d only).pushes m res, bits, true, false, true, x.st.dom⟩] } }

/-- A short instruction has completed with the mask `v` in the lanes of EM (R11, R46) and the sticky bits `bits`. -/
structure MaskDone (s : State) (x : Who) (d : OpD) (m : MReg) (v : Mask) (bits : Nat) (t : State) : Prop where
  rest : t = { s with warps := t.warps }
  warps : ∀ w, w ≠ x.wid → Tbl.find t.warps w = Tbl.find s.warps w
  warp : Tbl.find t.warps x.wid = some
    { x.w with
      queues := queuesAfter (readyOf s x d) 0 fun _ => []
      doms := Tbl.upd x.w.doms x.st.dom fun k => (k.setMask m ((k.mask m &&& ~~~x.st.em) ||| (v &&& x.st.em))).sticky bits
      strands := Tbl.upd x.w.strands x.sid fun st => st.advance 1 }

/-- A strand has only moved on by `n` units. -/
def Moved (s : State) (x : Who) (n : Nat) (t : State) : Prop :=
  t = { s with warps := Tbl.upd s.warps x.wid fun w => { w with strands := Tbl.upd w.strands x.sid fun st => st.advance n } }

/-- The conditions of R48 that trap: DZ under EDZ, OV under EOV. -/
def noIntTrap (x : Who) (dz ov : Mask) : Prop := ¬ (acrEdz x.d.csrs.acr ∧ dz ≠ 0) ∧ ¬ (acrEov x.d.csrs.acr ∧ ov ≠ 0)
/-- The sticky bits of R48. -/
def intBits (dz ov : Mask) : Nat := (if dz ≠ 0 then 2 ^ 21 else 0) + (if ov ≠ 0 then 2 ^ 22 else 0)
/-- The lanes of EM that raise a condition and count: all, or the lowest where the destination is a scalar (R48, R81). -/
def raised (r : Ready) (p : Nat → Bool) : Mask := maskWhere r.em p &&& r.counted
/-- No enabled flag of R81 is raised by a lane that counts. -/
def noFpTrap (r : Ready) (fl : Nat → Nat) : Prop :=
  ∀ b, b < 5 → (acrFtrap r.x.d.csrs.acr).testBit b = true → maskWhere r.counted (fun l => (fl l).testBit b) = 0
/-- The sticky bits of R81. -/
def fpBits (r : Ready) (fl : Nat → Nat) : Nat :=
  (List.range 5).foldl (fun n b => if maskWhere r.counted (fun l => (fl l).testBit b) ≠ 0 then n + 2 ^ (16 + b) else n) 0

end Sys2Proof.Machine
end

