-- ==== Sys2Proof/Safety/Rules.lean ====
section
/-! DEFINITION. The tables of R50-R59, R83-R100 and R114-R119 as claims read them: for each instruction of classes 0 and 1 its
operands, the words of its result, and the conditions it raises. -/

namespace Sys2Proof.Machine

/-- An integer instruction: its operands, its lookahead if it is a long-latency one, and its result with OV and DZ (R43-R59). -/
structure IntRule where
  (d : OpD) (la : Option Nat) (g : Ready → Nat → IRes)

/-- Two sources of a type, and one. -/
def src2 (t : Ty) (a b : Opnd) : List (Opnd × Nat) := [(a, tyWords t), (b, tyWords t)]
/-- The rule of a binary operation on a type. -/
def binRule (t : Ty) (a b d : Opnd) (g : Nat → Nat → IRes) (la : Option Nat := none) : IntRule :=
  ⟨{ srcs := src2 t a b, dst := some (d, tyWords t) }, la, fun r l => g (r.val 0 l) (r.val 1 l)⟩
/-- The rule of a shift, whose second source is a word. -/
def shiftRule (t : Ty) (a b d : Opnd) (g : Nat → Nat → IRes) : IntRule :=
  ⟨{ srcs := [(a, tyWords t), (b, 1)], dst := some (d, tyWords t) }, none, fun r l => g (r.val 0 l) (r.val 1 l)⟩
/-- The rule of an operation on one source. -/
def unRule (t : Ty) (a d : Opnd) (g : Nat → IRes) : IntRule :=
  ⟨{ srcs := [(a, tyWords t)], dst := some (d, tyWords t) }, none, fun r l => g (r.val 0 l)⟩

/-- R50-R58. -/
def intRule : Instr → Option IntRule
  | .add f => some (binRule f.ty f.a f.b f.d (iadd f.ty f.sat))
  | .sub f => some (binRule f.ty f.a f.b f.d (isub f.ty f.sat))
  | .mul f => some (binRule f.ty f.a f.b f.d (imul f.ty f.sat))
  | .mulhi f => some (binRule f.ty f.a f.b f.d (imulhi f.ty))
  | .mad f => some ⟨{ srcs := src2 f.ty f.a f.b ++ [(f.c, tyWords f.ty)], dst := some (f.d, tyWords f.ty) }, none,
      fun r l => imad f.ty f.sat (r.val 0 l) (r.val 1 l) (r.val 2 l)⟩
  | .div f => some (binRule f.ty f.a f.b f.d (idiv f.ty) (some f.la.toNat))
  | .rem f => some (binRule f.ty f.a f.b f.d (irem f.ty) (some f.la.toNat))
  | .min f => some (binRule f.ty f.a f.b f.d (iminOf f.ty))
  | .max f => some (binRule f.ty f.a f.b f.d (imaxOf f.ty))
  | .abs f => some (unRule f.ty f.a f.d (iabs f.ty f.sat))
  | .neg f => some (unRule f.ty f.a f.d (ineg f.ty f.sat))
  | .shl f => some (shiftRule f.ty f.a f.b f.d (ishl f.ty))
  | .shr f => some (shiftRule f.ty f.a f.b f.d (ishr f.ty))
  | .rot f => some (shiftRule f.ty f.a f.b f.d (irot f.ty))
  | .bfx f => some (shiftRule f.ty f.a f.b f.d (ibfx f.ty))
  | .and f => some (binRule f.ty f.a f.b f.d iand)
  | .or f => some (binRule f.ty f.a f.b f.d ior)
  | .xor f => some (binRule f.ty f.a f.b f.d ixor)
  | .andn f => some (binRule f.ty f.a f.b f.d (iandn f.ty))
  | .not f => some (unRule f.ty f.a f.d (inot f.ty))
  | .popc f => some (unRule f.ty f.a f.d (ipopc f.ty))
  | .clz f => some (unRule f.ty f.a f.d (iclz f.ty))
  | .brev f => some (unRule f.ty f.a f.d (ibrev f.ty))
  | .bfi f => some ⟨{ srcs := [(f.a, tyWords f.ty), (f.b, 1), (f.c, tyWords f.ty)], dst := some (f.d, tyWords f.ty) }, none,
      fun r l => ibfi f.ty (r.val 0 l) (r.val 1 l) (r.val 2 l)⟩
  | .lut3 f => some ⟨{ srcs := src2 f.ty f.a f.b ++ [(f.c, tyWords f.ty)], dst := some (f.d, tyWords f.ty) }, none,
      fun r l => ilut3 f.ty f.tbl (r.val 0 l) (r.val 1 l) (r.val 2 l)⟩
  | .sel f => some ⟨{ srcs := src2 f.ty f.a f.b, dst := some (f.d, tyWords f.ty), masked := true }, none,
      fun r l => ⟨if (r.x.d.mask f.m).getLsbD l then r.val 0 l else r.val 1 l, false, false⟩⟩
  | .mov f => some (unRule f.ty f.a f.d fun a => ⟨a, false, false⟩)
  | .lea f => some ⟨{ srcs := [(f.a, 2), (f.b, 1), (f.c, 1)], dst := some (f.d, 2) }, none,
      fun r l => ilea f.ty f.sh.val (r.val 0 l) (r.val 1 l) (r.val 2 l)⟩
  | .idx2 f => some ⟨{ srcs := [(f.a, 1), (f.b, 1), (f.c, 1)], dst := some (f.d, 1) }, none,
      fun r l => iidx2 f.lay (r.val 0 l) (r.val 1 l) (r.val 2 l)⟩
  | .movi f => some ⟨{ srcs := [], dst := some (f.d, tyWords f.ty) }, none, fun _ _ => ⟨immVal f.ty f.imm, false, false⟩⟩
  | .addi f => some (unRule f.ty f.a f.d fun a => iadd f.ty false a (immVal f.ty f.imm))
  | .muli f => some (unRule f.ty f.a f.d fun a => imul f.ty false a (immVal f.ty f.imm))
  | .andi f => some (unRule f.ty f.a f.d fun a => iand a (immVal f.ty f.imm))
  | .ori f => some (unRule f.ty f.a f.d fun a => ior a (immVal f.ty f.imm))
  | .xori f => some (unRule f.ty f.a f.d fun a => ixor a (immVal f.ty f.imm))
  | .shli f => some (unRule f.ty f.a f.d fun a => ishl f.ty a f.imm.toNat)
  | .shri f => some (unRule f.ty f.a f.d fun a => ishr f.ty a f.imm.toNat)
  | _ => none

/-- The words per lane of a destination. -/
def OpD.words (d : OpD) : Nat := (d.dst.map Prod.snd).getD 0
/-- The words of an integer result. -/
def IntRule.res (q : IntRule) (r : Ready) (l : Nat) : List Word := wordsOf q.d.words (q.g r l).val
/-- The lanes that raise DZ and OV and count (R48). -/
def IntRule.dz (q : IntRule) (r : Ready) : Mask := raised r fun l => (q.g r l).dz
def IntRule.ov (q : IntRule) (r : Ready) : Mask := raised r fun l => (q.g r l).ov

/-- R53: sum or difference, and the bit that goes back to the mask. -/
def carryRule : Instr → Option (CarryF × (Nat → Nat → Nat → Nat × Bool))
  | .addcy f => some (f, iaddcy f.ty)
  | .subbw f => some (f, isubbw f.ty)
  | _ => none

/-- An instruction whose result is a mask: its sources, the mask register, the mask, and the floating flags of each lane. -/
structure MaskRule where
  (srcs : List (Opnd × Nat)) (m : MReg) (v : Ready → Mask) (fl : Ready → Nat → Nat := fun _ _ => 0)

/-- R56, R59, R85, R114. -/
def maskRule : Instr → Option MaskRule
  | .cmp f => some { srcs := src2 f.ty f.a f.b, m := f.m, v := fun r => maskWhere r.em fun l => icmp f.ty f.cond (r.val 0 l) (r.val 1 l) }
  | .cmpi f => some { srcs := [(f.a, tyWords f.ty)], m := f.m, v := fun r => maskWhere r.em fun l => icmp f.ty f.cond (r.val 0 l) (immCmp f.ty f.imm) }
  | .fcmp f => some { srcs := [(f.a, 1), (f.b, 1)], m := f.m, v := fun r => maskWhere r.em fun l => (fcmpV f.cond (r.fval .f32 0 l 0 f.na) (r.fval .f32 1 l 0 f.nb)).1, fl := fun r l => (fcmpV f.cond (r.fval .f32 0 l 0 f.na) (r.fval .f32 1 l 0 f.nb)).2 }
  | .mand f => some { srcs := [], m := f.d, v := fun r => r.x.d.mask f.a &&& r.x.d.mask f.b }
  | .mor f => some { srcs := [], m := f.d, v := fun r => r.x.d.mask f.a ||| r.x.d.mask f.b }
  | .mxor f => some { srcs := [], m := f.d, v := fun r => r.x.d.mask f.a ^^^ r.x.d.mask f.b }
  | .mnot f => some { srcs := [], m := f.d, v := fun r => ~~~r.x.d.mask f.a }
  | _ => none

/-- A floating instruction: its operands, its lookahead if it is a long-latency one, the words of its result, and the flags that a
lane raises (R81). -/
structure FpRule where
  (d : OpD) (la : Option Nat) (res : Ready → Nat → List Word) (fl : Ready → Nat → Nat)

/-- A rule whose result is one register with its flags. -/
def fpRule1 (srcs : List (Opnd × Nat)) (d : Opnd) (n : Nat) (g : Ready → Nat → FRes) (la : Option Nat := none) : FpRule :=
  ⟨{ srcs := srcs, dst := some (d, n) }, la, fun r l => wordsOf n (g r l).val, fun r l => (g r l).flags⟩
/-- A rule whose result is several words. -/
def fpRuleN (srcs : List (Opnd × Nat)) (d : Opnd) (n : Nat) (g : Ready → Nat → List Nat × Nat) : FpRule :=
  ⟨{ srcs := srcs, dst := some (d, n) }, none, fun r l => (g r l).1.map fun v => BitVec.ofNat 32 v, fun r l => (g r l).2⟩
/-- A rule of R89 for one source. -/
def sfuRule (f : SfuF) (g : FFmt → FVal → FRes) : FpRule :=
  fpRule1 [(f.a, 1)] f.d 1 (fun r l => perElem f.ty fun i => g (fmtOf f.ty) (r.fval f.ty 0 l i f.na)) (some f.la.toNat)
/-- A rule of R84. -/
def fminRule (f : FMinF) (g : FFmt → FVal → FVal → FRes) : FpRule :=
  fpRule1 [(f.a, 1), (f.b, 1)] f.d 1 fun r l => perElem f.ty fun i =>
    g (fmtOf f.ty) (r.fval f.ty 0 l i f.na) (r.fval f.ty 1 l i f.nb)
/-- A rule of R83 for two sources. -/
def farRule (f : FArF) (g : FFmt → Mode → FVal → FVal → FRes) : FpRule :=
  fpRule1 (fArSrcs f) f.d 1 fun r l => perElem f.ty fun i =>
    g (fmtOf f.ty) (r.fArMode f l i) (r.fval f.ty 0 l i f.na) (r.fval f.ty 1 l i f.nb)

/-- R83-R100. -/
def fpRule : Instr → Option FpRule
  | .fadd f => some (farRule f faddV)
  | .fsub f => some (farRule f fun k m a b => faddV k m a (subSign b))
  | .fmul f => some (farRule f fmulV)
  | .fma f => some (fpRule1 [(f.a, 1), (f.b, 1), (f.c, 1)] f.d 1 fun r l => perElem f.ty fun i =>
      fmaV (fmtOf f.ty) (fmode r.x f.rnd 32 0) (r.fval f.ty 0 l i f.na) (r.fval f.ty 1 l i f.nb) (r.fval f.ty 2 l i f.nc))
  | .fmin f => some (fminRule f fun k => fminV k false)
  | .fmax f => some (fminRule f fun k => fminV k true)
  | .fminn f => some (fminRule f fun k => fminnV k false)
  | .fmaxn f => some (fminRule f fun k => fminnV k true)
  | .fclass f => some (fpRule1 [(f.a, 1)] f.d 1 fun r l =>
      ⟨if elems f.ty = 2 then
          fclassV (fmtOf f.ty) (elem f.ty (r.val 0 l) 0) + 2 ^ 16 * fclassV (fmtOf f.ty) (elem f.ty (r.val 0 l) 1)
        else fclassV (fmtOf f.ty) (r.val 0 l), 0⟩)
  | .frnd f => some (fpRule1 [(f.a, 1)] f.d 1 fun r l => perElem f.ty fun i =>
      frndV (fmtOf f.ty) (fmode r.x f.rnd 32 0) (r.fval f.ty 0 l i f.na))
  | .fdot2 f => some (fpRule1 [(f.a, 1), (f.b, 1), (f.c, 1)] f.d 1 fun r l =>
      fdot2V (fmode r.x f.rnd 32 0) (r.fval f.ty 0 l 0 f.na) (r.fval f.ty 0 l 1 f.na) (r.fval f.ty 1 l 0 f.nb)
        (r.fval f.ty 1 l 1 f.nb) ((fdec f32 (r.val 2 l)).negIf f.nc))
  | .rcp f => some (sfuRule f frcpV)
  | .rsqrt f => some (sfuRule f frsqrtV)
  | .sqrt f => some (sfuRule f fsqrtV)
  | .exp2 f => some (sfuRule f fexp2V)
  | .log2 f => some (sfuRule f flog2V)
  | .sin f => some (sfuRule f fun k v => fsinV k true v)
  | .cos f => some (sfuRule f fun k v => fsinV k false v)
  | .tanh f => some (sfuRule f ftanhV)
  | .fdiv f => some (fpRule1 [(f.a, 1), (f.b, 1)] f.d 1 (fun r l => perElem f.ty fun i =>
      fdivV (fmtOf f.ty) (r.fval f.ty 0 l i f.na) (r.fval f.ty 1 l i f.nb)) (some f.la.toNat))
  | .cvt f => some (fpRule1 ([(f.a, if f.src.wide then 2 else 1)] ++ if f.rnd = .rs then [(f.z, 1)] else []) f.d
      (if f.dst.wide then 2 else 1) fun r l => cvtV f.dst f.src (fmode r.x f.rnd 32 (r.val 1 l)) f.sat f.na (r.val 0 l))
  | .cvtpk f => some (fpRule1 ([(f.a, 1), (f.b, 1)] ++ if f.rnd = .rs then [(f.z, 1)] else []) f.d 1 fun r l =>
      let e0 := cvtV (pkFmt f.fmt) .f32 (fmode r.x f.rnd 16 (r.val 2 l)) f.sat f.na (r.val 0 l)
      let e1 := cvtV (pkFmt f.fmt) .f32 (fmode r.x f.rnd 16 (r.val 2 l / 2 ^ 16)) f.sat f.nb (r.val 1 l)
      ⟨e0.val + 2 ^ pkBits f.fmt * e1.val, e0.flags ||| e1.flags⟩)
  | .unpk f => some (fpRule1 [(f.a, 1)] f.d 1 fun r l => unpkV f.fmt f.e.val (r.val 0 l))
  | .rng f => some ⟨{ srcs := [(f.a, 4)], dst := some (f.d, 4) }, some f.la.toNat, fun r l =>
      (philox r.x.d.csrs.rngk.toNat (r.word 0 0 l).toNat (r.word 0 1 l).toNat (r.word 0 2 l).toNat (r.word 0 3 l).toNat).map
        fun v => BitVec.ofNat 32 v, fun _ _ => 0⟩
  | .smxStep f => some (fpRuleN [(f.a, 1), (f.b, 1), (f.c, 1)] f.d 4 fun r l => smxStepV (r.val 0 l) (r.val 1 l) (r.val 2 l))
  | .smxMerge f => some (fpRuleN [(f.a, 3), (f.b, 3)] f.d 3 fun r l =>
      smxMergeV (r.word 0 0 l).toNat (r.word 0 1 l).toNat (r.word 0 2 l).toNat (r.word 1 0 l).toNat (r.word 1 1 l).toNat
        (r.word 1 2 l).toNat)
  | .smxNorm f => some (fpRule1 [(f.a, 1), (f.b, 1)] f.d 1 fun r l => smxNormV (r.val 0 l) (r.val 1 l))
  | .rope f => some (fpRuleN [(f.a, 2), (f.b, 1), (f.c, 1)] f.d 2 fun r l =>
      ropeV (r.word 0 0 l).toNat (r.word 0 1 l).toNat (r.val 1 l) (r.val 2 l))
  | .dpmul f => some (fpRule1 [(f.a, 1), (f.b, 1), (f.c, 1)] f.d 1 fun r l => perElem f.ty fun i =>
      dpmulV (fmtOf f.ty) (fmode r.x f.rnd 32 0) (r.fval f.ty 0 l i f.na) (r.val 1 l / 2 ^ (8 * i)) (r.fval f.ty 2 l i f.nc))
  | _ => none

/-- A cross-lane instruction, or one whose result is the same in every lane: its operands, the lanes that supply them, the
further words that a lane reads, the words of its result, and the flags that a lane raises. -/
structure LaneRule where
  (d : OpD) (only : Who → Mask) (acc : Who → OwnOf) (res : Ready → Nat → List Word) (fl : Ready → Nat → Nat)

/-- Every lane, and the participants of a member field (R115). -/
def anyLane : Who → Mask := fun _ => 0xFFFFFFFFFFFFFFFF
def partOf (m : Members) : Who → Mask := fun x => participants x x.st.em m
/-- Nothing is read beside the operands. -/
def noAcc : Who → OwnOf := fun _ _ _ => OwnAcc.none
/-- The lowest participant's word of `b` is read, and no other lane's (R116). -/
def lowAcc (b : Opnd) : Who → OwnOf := fun _ r l => if l = r.low then ⟨false, srcAddrs r.x b 1 l, []⟩ else OwnAcc.none
/-- All four lanes of a lane's slice are read (R119). -/
def sliceAcc (a : Opnd) (n : Nat) : Who → OwnOf := fun x _ l =>
  ⟨false, (List.range 4).flatMap fun i => srcAddrs x a n (l / 4 * 4 + i), []⟩

/-- The rule of a fold (R118). -/
def foldRule (f : FoldF) (g : Ready → Nat → FRes) : LaneRule :=
  ⟨{ srcs := [(f.a, tyWords f.ty)], dst := some (f.d, tyWords f.ty) }, partOf f.mem, noAcc, fun r l => wordsOf (tyWords f.ty) (g r l).val,
    fun r _ => (r.fold f.op f.ty (lanesOf r.em)).flags⟩

/-- The running sums of R119, and the flags of their additions. -/
def csampRun (r : Ready) : List (Nat × Nat) × Nat :=
  csampSums (((lanesOf r.em).map fun l => (l, csampWeight (r.val 0 l))).map fun p => (p.1, p.2.1)) 0 0

/-- R114-R119. -/
def laneRule : Instr → Option LaneRule
  | .mpop f => some ⟨{ srcs := [], dst := some (f.d, 1), masked := true }, anyLane, noAcc, fun r _ =>
      [BitVec.ofNat 32 (lanesOf (r.x.d.mask f.a &&& fullMask r.x.width)).length], fun _ _ => 0⟩
  | .mffs f => some ⟨{ srcs := [], dst := some (f.d, 1), masked := true }, anyLane, noAcc, fun r _ =>
      [match lowLane (r.x.d.mask f.a &&& fullMask r.x.width) with
        | some l => BitVec.ofNat 32 l
        | none => 0xFFFFFFFF], fun _ _ => 0⟩
  | .vote f => some ⟨{ srcs := [], dst := some (f.d, if f.mode = .mask then 2 else 1), masked := true }, partOf f.mem, noAcc,
      fun r _ => voteV f.mode r.em (r.em &&& r.x.d.mask f.p), fun _ _ => 0⟩
  | .shfl f => some ⟨{ srcs := [(f.a, tyWords f.ty), (f.b, 1), (f.c, tyWords f.ty)], dst := some (f.d, tyWords f.ty) }, partOf f.mem, noAcc,
      fun r l => r.pick (tyWords f.ty) l (shflLane f.mode l (r.val 1 l)), fun _ _ => 0⟩
  | .bcast f => some ⟨{ srcs := [(f.a, tyWords f.ty), (f.b, 1), (f.c, tyWords f.ty)], dst := some (f.d, tyWords f.ty), carry := [1] },
      partOf f.mem, lowAcc f.b, fun r l => r.pick (tyWords f.ty) l (r.val 1 r.low), fun _ _ => 0⟩
  | .scan f => some (foldRule f fun r l => r.fold f.op f.ty ((lanesOf r.em).filter fun k => decide (k ≤ l)))
  | .redux f => some (foldRule f fun r _ => r.fold f.op f.ty (lanesOf r.em))
  | .csamp f => some ⟨{ srcs := [(f.a, 1), (f.b, 1)], dst := some (f.d, 1), carry := [1] }, partOf f.mem, lowAcc f.b,
      fun r _ => word1 (csampDraw (csampRun r).1 (r.val 1 r.low)),
      fun r l => (csampRun r).2 ||| if ((lanesOf r.em).map fun l => (l, csampWeight (r.val 0 l))).any fun p => p.1 == l && p.2.2 then fIV else 0⟩
  | .matchx f => some ⟨{ srcs := [(f.a, tyWords f.ty)], dst := some (f.d, 2) }, partOf f.mem, noAcc,
      fun r l => maskWords (maskWhere r.em fun k => r.val 0 k == r.val 0 l), fun _ _ => 0⟩
  | .plpk f => some ⟨{ srcs := [(f.a, 16)], dst := some (f.d, (f.b1.val + 2) / 2) }, anyLane, sliceAcc f.a 16, fun r l =>
      (List.range ((f.b1.val + 2) / 2)).map fun p =>
        let i := 2 * p + l % 4 / 2
        if i < f.b1.val + 1 then wordOfBits fun k => (r.planElem l (32 * (l % 2) + k)).getLsbD i else 0, fun _ _ => 0⟩
  | .plunpk f => some ⟨{ srcs := [(f.a, (f.b1.val + 2) / 2)], dst := some (f.d, 16) }, anyLane, sliceAcc f.a ((f.b1.val + 2) / 2),
      fun r l => (List.range 16).map fun k => wordOfBits fun i => decide (i < f.b1.val + 1) && r.planBit l i (16 * (l % 4) + k),
      fun _ _ => 0⟩
  | _ => none

end Sys2Proof.Machine
end

