-- ==== Sys2Proof/Safety/Memory.lean ====
section
/-! DEFINITION. The terms in which claims about the instructions of class 2 and the events of memory speak: accesses in order, what
an issued access leaves, and what each instruction asks of memory. -/

namespace Sys2Proof.Machine

/-- The lanes of an access that lie in the record's extent, with their virtual addresses (R153). -/
def inExtent (r : Rcd) (lanes : List (Nat × Word)) (off : Int) (z : Nat) : List (Nat × Nat) :=
  lanes.filterMap fun p => (r.address (i32 p.2) off z).map fun va => (p.1, va)

/-- The accesses of an instruction meet no condition of R158 and need no walk: the record is well formed and grants the access, the
scope is the context's, no lane that counts is out of extent, every address is aligned and translated by an L1 TLB or by a walk
that has ended, and its page grants the access; tier 2 accepts it (R169, R171). -/
structure MemOk (s : State) (x : Who) (r : Rcd) (k : AccKind) (scope : Scope) (lanes : List (Nat × Word)) (off : Int) (z : Nat) :
    Prop where
  wf : r.wf = true
  right : k.lacks r = none
  scope : scope = .system → ((Tbl.find s.ctxs x.d.ctx).any Context.sys) = true
  swz : r.swzBad = false
  extent : r.fault = true → ∀ p ∈ lanes, (r.address (i32 p.2) off z).isSome = true
  align : ∀ p ∈ inExtent r lanes off z, p.2 % z = 0
  hit : x.walked = false → ∀ p ∈ inExtent r lanes off z, (s.tlbHit x.core x.d.ctx p.2).isSome = true
  page : ∀ p ∈ inExtent r lanes off z, ∃ pa pr pw px, s.translate x.core x.d.ctx p.2 = .ok pa pr pw px ∧
    k.need.missing pr pw px = none ∧ (tier2 pa = true → k.tier2Bad z = none)
  late : ∀ p ∈ inExtent r lanes off z, s.walkFound x.agent p.2 = none

/-- What an instruction of class 2 asks of memory: its operands, its record, the access it makes, the lanes that make it with their
index words, the lane's part of a request at an address, and the words that a lane out of extent receives at once (R153, R165-R171). -/
structure MemRule where
  (d : OpD) (only : Who → Mask) (own : Who → OwnOf) (rcd : Fin 32) (kind : Ready → AccKind) (scope : Scope) (off : Int) (z : Nat) (sx : Bool)
  (rel acq : Bool) (la : Nat) (lanes : Ready → List (Nat × Word)) (part : Ready → Nat → Nat → Nat → LaneAcc)
  (zeros : Ready → List (Nat × Nat) → List RegWrite)

/-- The parts of the lanes in extent. -/
def partsOf (s : State) (x : Who) (part : Nat → Nat → Nat → LaneAcc) (l : List (Nat × Nat)) : List LaneAcc :=
  l.map fun p => part p.1 p.2 (s.translate x.core x.d.ctx p.2).paOr

/-- Zeros for the lanes of `ls` that are not among those in extent. -/
def zerosOut (ls : List Nat) (ins : List (Nat × Nat)) (dst : Nat → List (Nat × Nat)) : List RegWrite :=
  (ls.filter fun l => !ins.any fun p => p.1 == l).flatMap fun l => (dst l).filterMap fun d => if d.2 < qBase then some ⟨d.2, 0, 0⟩ else none

/-- The words of a `waita` that are defined: its value in words 0 and 1, its status in word 3 (R171). -/
def waitaDst (f : MemF) (r : Ready) : List (Nat × Nat) :=
  ((lanesOf r.em).flatMap r.dsts).filter fun d => decide (d.1 < Width.words f.width) || d.1 == 3

/-- R165-R168, R171: loads, atomics, `cas` and `waita`. -/
def loadRule : Instr → Option MemRule
  | .ld f => some ⟨{ srcs := [(f.idx, 1)], dst := some (f.data, Width.words f.width) }, anyLane, noAcc, f.rcd, fun _ => .load, f.scope,
      f.off.toInt, Width.bytes f.width, f.sx, false, Ord4.acquires f.ord, f.la.toNat,
      fun r => (lanesOf r.em).map fun l => (l, r.word 0 0 l), fun r l va pa => ⟨l, va, pa, [], 0, 0, 0, r.dsts l⟩,
      fun r ins => zerosOut (lanesOf r.em) ins r.dsts⟩
  | .lds f => some ⟨{ srcs := [(f.idx, 1)], dst := some (f.data, Width.words f.width) }, anyLane, noAcc, f.rcd, fun _ => .load, f.scope,
      f.off.toInt, Width.bytes f.width, f.sx, false, Ord4.acquires f.ord, f.la.toNat, fun r => r.lowIndex 0,
      fun r l va pa => ⟨l, va, pa, [], 0, 0, 0, (lanesOf r.em).flatMap r.dsts⟩,
      fun r ins => zerosOut [r.low] ins fun _ => (lanesOf r.em).flatMap r.dsts⟩
  | .atom f => some ⟨{ srcs := [(f.data, Width.words f.width), (f.idx, 1)], dst := some (f.data, Width.words f.width) }, anyLane, noAcc,
      f.rcd, fun _ => .atom f.op, f.scope, f.off.toInt, Width.bytes f.width, f.sx, Ord4.releases f.ord, Ord4.acquires f.ord, f.la.toNat,
      fun r => (lanesOf r.em).map fun l => (l, r.word 1 0 l),
      fun r l va pa => ⟨l, va, pa, [], 0, r.num 0 0 (Width.words f.width) l, 0, r.dsts l⟩, fun r ins => zerosOut (lanesOf r.em) ins r.dsts⟩
  | .cas f => some ⟨{ srcs := [(f.data, 2 * Width.words f.width), (f.idx, 1)], dst := some (f.data, Width.words f.width) }, anyLane, noAcc,
      f.rcd, fun _ => .cas, f.scope, f.off.toInt, Width.bytes f.width, false, Ord4.releases f.ord, Ord4.acquires f.ord, f.la.toNat,
      fun r => (lanesOf r.em).map fun l => (l, r.word 1 0 l),
      fun r l va pa => ⟨l, va, pa, [], 0, r.num 0 0 (Width.words f.width) l, r.num 0 (Width.words f.width) (Width.words f.width) l, r.dsts l⟩,
      fun r ins => zerosOut (lanesOf r.em) ins r.dsts⟩
  | .waita f => some ⟨{ srcs := [(f.data, 4), (f.idx, 1)], dst := some (f.data, 4), carry := [0] }, anyLane,
      fun x r l => if l = r.low then ⟨false, srcAddrs x f.data 3 l, []⟩ else OwnAcc.none, f.rcd,
      fun r => .waita (r.word 0 2 r.low).toNat, f.scope, f.off.toInt, Width.bytes f.width, false, false, Ord4.acquires f.ord, f.la.toNat,
      fun r => r.lowIndex 1, fun r l va pa => ⟨l, va, pa, [], 0, r.num 0 0 (Width.words f.width) r.low, 0, waitaDst f r⟩,
      fun r ins => if ins.isEmpty then (waitaDst f r).map fun d =>
        ⟨d.2, if d.1 = 3 ∧ r.num 0 0 (Width.words f.width) r.low = 0 then 1 else 0, 0⟩ else []⟩
  | _ => none

/-- R165: stores. A lane's data carries its poison (R319). -/
def storeRule : Instr → Option MemRule
  | .st f => some ⟨{ srcs := [(f.data, Width.words f.width), (f.idx, 1)], carry := [0] }, anyLane, noAcc, f.rcd, fun _ => .store, f.scope,
      f.off.toInt, Width.bytes f.width, false, Ord4.releases f.ord, false, 0, fun r => (lanesOf r.em).map fun l => (l, r.word 1 0 l),
      fun r l va pa => ⟨l, va, pa, leBytes (Width.bytes f.width) (r.num 0 0 (Width.words f.width) l), r.anyMark 0 (Width.words f.width) l, 0, 0, []⟩,
      fun _ _ => []⟩
  | .sts f => some ⟨{ srcs := [(f.data, Width.words f.width), (f.idx, 1)], carry := [0] }, lowMask, noAcc, f.rcd, fun _ => .store, f.scope,
      f.off.toInt, Width.bytes f.width, false, Ord4.releases f.ord, false, 0, fun r => r.lowIndex 1,
      fun r l va pa => ⟨l, va, pa, leBytes (Width.bytes f.width) (r.num 0 0 (Width.words f.width) l), r.anyMark 0 (Width.words f.width) l, 0, 0, []⟩,
      fun _ _ => []⟩
  | _ => none

/-- The warp's queues once the sources have been popped. -/
def popped (s : State) (x : Who) (d : OpD) : List Queue := queuesAfter (readyOf s x { d with dst := none }) 0 fun _ => []

/-- The single-copy atomic accesses of parts of z bytes: the halves of a b128 lane are accesses of their own (R178). -/
def singles (z : Nat) (l : List LaneAcc) : List LaneAcc := if z = 16 then l.flatMap fun p => p.halves false else l
/-- The size of such an access. -/
def singleSize (z : Nat) : Nat := if z = 16 then 8 else z

/-- Requests for parts `l` stand in `t`, not yet performed, on behalf of a strand. -/
def Requested (t : State) (x : Who) (k : AccKind) (z : Nat) (sx : Bool) (pend : Option Nat) (from_ : Nat) (l : List LaneAcc) : Prop :=
  ∀ p ∈ l, ∃ id q, from_ ≤ id ∧ Tbl.find t.accs id = some q ∧ p ∈ q.lanes ∧ q.agent = x.agent ∧ q.ctx = x.d.ctx ∧ q.kind = k ∧
    q.size = z ∧ q.sx = sx ∧ q.pend = pend ∧ q.done = false ∧ q.replay = false

/-- A long-latency access has issued (R34, R154): each lane in extent is part of a request, the rest of the result stands with the
strand; no byte of memory, no word of register space and no earlier request has changed. -/
structure AccessIssued (s : State) (x : Who) (d : OpD) (la : Nat) (k : AccKind) (z : Nat) (sx acq : Bool) (parts : List LaneAcc)
    (zeros : List RegWrite) (t : State) : Prop where
  rest : t = { s with
    cores := t.cores, warps := t.warps, accs := t.accs, nextId := t.nextId, walks := s.walks.filter fun p => p.2.agent != x.agent }
  cores : ∀ c, ∃ l, t.core c = { s.core c with tlb := l }
  warps : ∀ w, w ≠ x.wid → Tbl.find t.warps w = Tbl.find s.warps w
  warp : ∃ fenced, (acq = false → fenced = x.st.fenced) ∧ Tbl.find t.warps x.wid = some
    { x.w with
      queues := popped s x d
      strands := Tbl.put x.w.strands x.sid
        { x.st.advance 1 with
          fenced := fenced
          pends := (x.st.advance 1).pends ++
            [⟨s.nextId, la, zeros, (readyOf s x d).pushes x.st.em fun _ => [], 0, parts.isEmpty, true, true, x.st.dom⟩] } }
  older : ∀ id, id ≤ s.nextId → Tbl.find t.accs id = Tbl.find s.accs id
  parts : Requested t x k (singleSize z) sx (some s.nextId) (s.nextId + 1) (singles z parts)

/-- A store has issued (R165): each lane in extent is part of a request, and the strand has moved on. -/
structure StoreIssued (s : State) (x : Who) (d : OpD) (z : Nat) (parts : List LaneAcc) (t : State) : Prop where
  rest : t = { s with
    cores := t.cores, warps := t.warps, accs := t.accs, nextId := t.nextId, walks := s.walks.filter fun p => p.2.agent != x.agent }
  cores : ∀ c, ∃ l, t.core c = { s.core c with tlb := l }
  warps : ∀ w, w ≠ x.wid → Tbl.find t.warps w = Tbl.find s.warps w
  warp : Tbl.find t.warps x.wid = some
    { x.w with queues := popped s x d, strands := Tbl.upd x.w.strands x.sid fun st => st.advance 1 }
  older : ∀ id, id < s.nextId → Tbl.find t.accs id = Tbl.find s.accs id
  parts : Requested t x .store (singleSize z) false none s.nextId (singles z parts)

/-- The lanes of a request that `order` leaves (R178). -/
def leftOf (a : Access) (order : List Nat) : List LaneAcc := (a.pick order).2
/-- The lanes of a request that `order` takes (R178). -/
def taken (a : Access) (order : List Nat) : Access := { a with lanes := (a.pick order).1 }

/-- Lanes of a request that may be performed (R1, R154, R165, R178, R180, R320, R348, R367): it is outstanding, no lane of it is
unfinished, it is no registered `waita`, those it follows are performed, its result's partition is not swapped out, it holds a slot of
its core, its port is up and its weir lets them pass. -/
structure RequestDue (s : State) (id : Nat) (a : Access) (order : List Nat) : Prop where
  find : Tbl.find s.accs id = some a
  todo : a.done = false
  whole : a.replay = false
  fresh : (s.waiters.any fun w => w.acc == id) = false
  after : a.after.all s.performed = true
  here : ¬ (a.pend.isSome = true ∧ s.isOut a.ctx = true)
  slot : s.inSlot id a = true
  port : s.portsDown.contains (s.portOf (a.lanes.headD ⟨0, 0, 0, [], 0, 0, 0, []⟩).pa) = false
  weir : s.weirOpen (s.portOf (a.lanes.headD ⟨0, 0, 0, [], 0, 0, 0, []⟩).pa) (s.classOf a.agent) (taken a order).bytes = true

/-- The state in which lanes of a request are performed: their bytes are drawn from its weir. -/
def drawn (s : State) (a : Access) (order : List Nat) : State :=
  s.weirDraw (s.portOf (a.lanes.headD ⟨0, 0, 0, [], 0, 0, 0, []⟩).pa) (s.classOf a.agent) (taken a order).bytes

/-- Whether a part of a request stores to an address. -/
def LaneAcc.covers (l : LaneAcc) (b : Nat) : Prop := l.pa ≤ b ∧ b < l.pa + l.bytes.length

/-- The words that a load's lanes receive (R165, R319). -/
def loadedWords (s : State) (a : Access) (order : List Nat) : List RegWrite :=
  (a.pick order).1.flatMap fun l => l.results (valueWords a.size a.sx (s.readNat l.pa a.size)) (s.lineMark l.pa)

/-- Queues after entries have been pushed (R146). -/
def pushed (qs : List Queue) : Option (Nat × List QEntry) → List Queue
  | none => qs
  | some (q, es) => qs.set q ⟨(qs.getD q ⟨[], false⟩).entries ++ es, (qs.getD q ⟨[], false⟩).closed⟩

/-- The members of a list at the places that satisfy a condition. -/
def someOf {α : Type} (l : List α) (p : Nat → Bool) : List α := (l.zipIdx.filter fun q => p q.2).map Prod.fst

/-- Whether a request or window access of a long-latency instruction is outstanding beside request `id`. -/
def othersOpen (s : State) (id p : Nat) : Bool :=
  (Tbl.del s.accs id).any (fun r => r.2.pend == some p && !r.2.done) || s.wreqs.any fun r => r.2.pend == p

/-- A strand whose long-latency instruction `p` has received words. -/
def Strand.received (st : Strand) (p : Nat) (l : List RegWrite) (ready : Bool) : Strand :=
  { st with pends := st.pends.map fun q => if q.id = p ∧ q.own = true then q.receive l ready else q }

/-- A crew whose record slot holds a record. -/
def Crew.withRcd (c : Crew) (k : Fin 32) (v : Rcd) : Crew := { c with recs := c.recs.set k.val v }

/-- A crew's strand has written a record slot and moved on by one (R173). -/
structure RcdWritten (s : State) (x : Who) (d : OpD) (k : Fin 32) (v : Rcd) (t : State) : Prop where
  rest : t = { s with crews := t.crews, warps := t.warps }
  crew : Tbl.find t.crews x.w.crew = (Tbl.find s.crews x.w.crew).map fun c => c.withRcd k v
  crews : ∀ c, c ≠ x.w.crew → Tbl.find t.crews c = Tbl.find s.crews c
  warps : ∀ w, w ≠ x.wid → Tbl.find t.warps w = Tbl.find s.warps w
  warp : Tbl.find t.warps x.wid = some
    { x.w with queues := popped s x d, strands := Tbl.upd x.w.strands x.sid fun st => st.advance 1 }

end Sys2Proof.Machine
end

