-- ==== Sys2Proof/Safety/Frames.lean ====
section
/-! DEFINITION. The terms in which claims about the instructions of class 3 speak: indirect names, tiles, operands read once for the
strand, words written, and window accesses. -/

namespace Sys2Proof.Machine

/-- The tile that a tile name stands for in a strand's domain (R132, R339). -/
def tileOf (s : State) (x : Who) (t : Fin 32) : Option Tile := (s.tileAt x.w 8 x.st.dom t.val).map fun q => q.2.2

/-- The words that lane l names in an `ldx`, `stx` or `gstat` of n words (R130). -/
def indirect (x : Who) (lsel : Bool) (n : Nat) (r : Ready) (l : Nat) : Option (List Nat) :=
  regWords x n (r.val 0 l) (r.otherLane lsel 1 l)

/-- R130, R131, R134, R148: the instructions of class 3 that only read, with their operands, the words a lane reads beside them, and
their results. One that names a tile which is not allocated has no rule: it traps. -/
def frameRule (s : State) (x : Who) : Instr → Option LaneRule
  | .ldx f => some ⟨{ srcs := [(f.a, 1), (f.b, 1)], dst := some (f.d, tyWords f.ty) }, anyLane,
      fun _ r l => readsAt (indirect x f.lsel (tyWords f.ty) r l),
      fun r l => ((indirect x f.lsel (tyWords f.ty) r l).getD []).map (s.core x.core).word, fun _ _ => 0⟩
  | .gstat f =>
    let at_ (t : Option Tile) (r : Ready) (l : Nat) : Option (List Nat) := match t with
      | some t => tileWords t 1 (r.val 0 l)
      | none => indirect x f.lsel 1 r l
    let go (t : Option Tile) : LaneRule := ⟨{ srcs := [(f.a, 1), (f.b, 1)], dst := some (f.d, 1) }, anyLane,
      fun _ r l => ⟨(at_ t r l).isNone, [], []⟩,
      fun r l => [BitVec.ofNat 32 (((s.core x.core).gran (((at_ t r l).getD []).headD 0 / 128)).bits)], fun _ _ => 0⟩
    if f.isTile then (tileOf s x f.tile).map fun t => go (some t) else some (go none)
  | .tget f => (tileOf s x f.tile).map fun t => ⟨{ srcs := [(f.a, 1)], dst := some (f.d, tyWords f.ty) }, anyLane,
      fun _ r l => readsAt (tileWords t (tyWords f.ty) (r.val 0 l)),
      fun r l => ((tileWords t (tyWords f.ty) (r.val 0 l)).getD []).map (s.core x.core).word, fun _ _ => 0⟩
  | .qstat f => if x.st.dom = 0 then some ⟨{ srcs := [], dst := some (f.d, 1) }, anyLane, noAcc,
      fun _ _ => [BitVec.ofNat 32 (x.w.queues.getD f.q.val ⟨[], false⟩).stat], fun _ _ => 0⟩ else none
  | _ => none

/-- An instruction that writes words named by index: its operands, the words of each lane, and the index of the data source. -/
structure StxRule where
  (d : OpD) (at_ : Ready → Nat → Option (List Nat)) (data : Nat)

/-- R130, R134. -/
def stxRule (s : State) (x : Who) : Instr → Option StxRule
  | .stx f => some ⟨{ srcs := [(f.a, 1), (f.b, 1), (f.c, tyWords f.ty)] }, indirect x f.lsel (tyWords f.ty), 2⟩
  | .tset f => (tileOf s x f.tile).map fun t => ⟨{ srcs := [(f.a, 1), (f.b, tyWords f.ty)] },
      fun r l => tileWords t (tyWords f.ty) (r.val 0 l), 1⟩
  | _ => none

/-- The writes of an instruction that names words by index, lane after lane (R128). -/
def StxRule.words (q : StxRule) (r : Ready) : List RegWrite :=
  (lanesOf r.em).flatMap fun l => ((q.at_ r l).getD []).zipIdx.map fun p => ⟨p.1, r.word q.data p.2 l, 0⟩

/-- An instruction has written words of its core in order and moved on (R125, R128): of several writes of one word the last is
kept. -/
structure WordsWritten (s : State) (x : Who) (d : OpD) (ws : List RegWrite) (t : State) : Prop where
  frame : OnlyWarp s t x
  warp : Tbl.find t.warps x.wid = some
    { x.w with queues := popped s x d, strands := Tbl.upd x.w.strands x.sid fun st => st.advance 1 }
  core : CoreWritten (s.core x.core) (t.core x.core) (ws.map RegWrite.addr)
  last : ∀ pre w post, ws = pre ++ w :: post → (∀ v ∈ post, v.addr ≠ w.addr) →
    (t.core x.core).word w.addr = w.val ∧ (t.core x.core).mark w.addr = w.mark

/-! ## Operands read once (R129) -/

/-- The operands of an instruction with u operands: none is consumed lane by lane. -/
def uD (srcs : List (Opnd × Nat)) (dst : Option (Opnd × Nat) := none) : OpD :=
  { srcs := srcs, dst := dst, carry := List.range srcs.length }
/-- Only the lowest lane's words are read. -/
def uAcc (x : Who) (srcs : List (Opnd × Nat)) : OwnOf := fun r l =>
  if l = r.low then ⟨false, srcs.flatMap fun p => srcAddrs x p.1 p.2 l, []⟩ else OwnAcc.none
/-- The strand has a lane and the operands are in order. -/
def UOk (s : State) (x : Who) (srcs : List (Opnd × Nat)) (dst : Option (Opnd × Nat) := none) : Prop :=
  x.st.em ≠ 0 ∧ OperandsOk s x (uD srcs dst) (uAcc x srcs)
/-- The value of u operand i (R129). -/
def uVal (s : State) (x : Who) (srcs : List (Opnd × Nat)) (dst : Option (Opnd × Nat)) (i : Nat) : Nat := (readyOf s x (uD srcs dst)).u i
/-- The state with the operands consumed. -/
def uState (s : State) (x : Who) (srcs : List (Opnd × Nat)) (dst : Option (Opnd × Nat) := none) : State := (readyOf s x (uD srcs dst)).commit

/-- A core with a tile of its own allocated at granule g: its words are 0 where Z is set, else undefined (R125, R133). -/
def Core.withTile (c : Core) (t : Tile) (g : Nat) (z : Bool) (seed : Nat) : Core :=
  (if z then (c.take g t.granules).zeroGrans g t.granules else (c.take g t.granules).undefGrans g t.granules seed).updGrans g t.granules
    fun _ => ⟨false, false, z, z⟩
/-- A core whose window slot is in use (R135). -/
def Core.withWin (c : Core) (slot : Nat) (w : Win) : Core := { c with wins := Tbl.put c.wins slot w }
/-- The window that `wexp` exports (R136). -/
def wexpWin (x : Who) (f : WexpF) (k n gen : Nat) : Win := ⟨x.wid, x.st.dom, x.d.ctx, k, n, f.r, f.w, f.l, f.scope, (pairCode f.c).getD 0, gen⟩
/-- A strand with one more grant (R139). -/
def Strand.granted (st : Strand) (g : Grant) : Strand := { st with grants := st.grants ++ [g] }
/-- A core with the OWN bit of granules set or cleared (R140). -/
def Core.owned (c : Core) (l : List Nat) (b : Bool) : Core := l.foldl (fun c g => c.setGran g { c.gran g with own := b }) c

/-- A core whose granules `l` go to the engine side, whose accesses follow the giver's writes `ids` (R140). -/
def Core.handed (c : Core) (l ids : List Nat) : Core := { c.owned l true with given := l.foldl (fun t g => Tbl.put t g ids) c.given }

/-! ## Gangs (R120, R149) -/

/-- A warp has executed one more `xch`, and has no arrival there (R120). -/
def State.exchanged (s : State) (wid : Nat) : State := s.updWarp wid fun w => { w with xchDone := w.xchDone + 1, xchArr := none }

/-- The CINB of a crew (R109). -/
def State.cinbOf (s : State) (c : Crew) : Nat := ((Tbl.find s.warps c.warp0).map Warp.cinb).getD 0

/-- An arrival at `rrot` whose rendezvous has passed, with what is on its way to it (R149). -/
def RrotArr.sent (a : RrotArr) (n : Nat) (data : List (Word × Nat)) (vals : List Bool) : RrotArr :=
  { a with going := true, pend := n, data := data, vals := vals }

/-- The crews of a braid have met at `rrot` (R149, R125): no word has changed; the strand of each has moved on and waits for a
long-latency instruction; its tile has gone to the engine side with writes in flight; and the words, marks and VAL bits of the tile of
the crew before it in CINB order are on their way to it. -/
structure Rotated (s : State) (l : List (Nat × Crew)) (t : State) : Prop where
  words : ∀ c a, (t.core c).word a = (s.core c).word a ∧ (t.core c).mark a = (s.core c).mark a
  crew : ∀ q ∈ l, ∀ p a v b, (l.find? fun p => (s.cinbOf p.2 + 1) % l.length == s.cinbOf q.2) = some p → q.2.rrotArr = some a →
    q.2.rrotTile = some v → p.2.rrotTile = some b → ∃ n,
      Tbl.find t.crews q.1 = some { q.2 with rrotArr := some (a.sent n
        ((List.range b.words).map fun i => ((s.core p.2.core).word (b.word i), (s.core p.2.core).mark (b.word i)))
        ((List.range b.granules).map fun i => ((s.core p.2.core).gran (b.gran + i)).val)) } ∧
      Tbl.find t.warps q.2.warp0 = (Tbl.find s.warps q.2.warp0).map (fun w =>
        { w with strands := Tbl.upd w.strands a.sid fun st =>
            { st.advance 1 with pends := (st.advance 1).pends ++ [⟨n, a.la, [], none, 0, false, false, true, 0⟩] } }) ∧
      ∀ i, i < v.granules → (t.core q.2.core).gran (v.gran + i) = { (s.core q.2.core).gran (v.gran + i) with own := true, inf := true }

/-! ## Window accesses (R137, R138) -/

/-- The operands of `wrd` and `wwr`. -/
def winD (write : Bool) (f : WinF) : OpD :=
  if write then { srcs := [(f.a, 1), (f.b, 1), (f.c, 1), (f.d, tyWords f.ty)], carry := [3] }
  else { srcs := [(f.a, 1), (f.b, 1), (f.c, 1)], dst := some (f.d, tyWords f.ty) }

/-- Every lane's access is admitted: it meets none of the conditions of R137. -/
def Admitted (s : State) (x : Who) (write : Bool) (f : WinF) : Prop :=
  ∀ l ∈ lanesOf x.st.em, s.winCheck x write (tyWords f.ty) ((readyOf s x (winD write f)).word 0 0 l) ((readyOf s x (winD write f)).val 1 l)
    ((readyOf s x (winD write f)).val 2 l) = none

/-- The exporting core and the exporter's words that lane l names (R135, R137). -/
def winTarget (s : State) (x : Who) (write : Bool) (f : WinF) (l : Nat) : Option (Nat × List Nat) :=
  (s.window (dieOf x.core) ((readyOf s x (winD write f)).word 0 0 l)).map fun w =>
    (w.1, s.winWords w.2.2 (tyWords f.ty) ((readyOf s x (winD write f)).val 1 l) ((readyOf s x (winD write f)).val 2 l))

/-- A window access one of whose words has been performed (R186). -/
def WReq.put (q : WReq) (i core : Nat) (l : WLane) : WReq := { q with words := q.words.set i (core, l) }

/-- A request for window words stands in `t`, with one word for a lane. -/
def WindowWord (t : State) (x : Who) (write : Bool) (id pend : Nat) (p : Nat × WLane) : Prop :=
  ∃ q, Tbl.find t.wreqs id = some q ∧ q.write = write ∧ q.agent = x.agent ∧ q.pend = pend ∧ p ∈ q.words

/-- A window access has gone out (R138): no word has changed yet; the strand has moved on and waits for a long-latency instruction,
and one request names every word of every lane, a write with its value and mark. -/
structure WindowIssued (s : State) (x : Who) (write : Bool) (f : WinF) (t : State) : Prop where
  rest : t = { s with warps := t.warps, wreqs := t.wreqs, nextId := t.nextId }
  warps : ∀ w, w ≠ x.wid → Tbl.find t.warps w = Tbl.find s.warps w
  warp : ∃ fenced ready, (Ord4.acquires f.ord = false → fenced = x.st.fenced) ∧ Tbl.find t.warps x.wid = some
    { x.w with
      queues := popped s x (winD write f)
      strands := Tbl.put x.w.strands x.sid
        { x.st.advance 1 with
          fenced := fenced
          pends := (x.st.advance 1).pends ++
            [⟨s.nextId, f.la.toNat, [], (readyOf s x (winD write f)).pushes x.st.em fun _ => [], 0, ready, !write, true, x.st.dom⟩] } }
  older : ∀ id, id ≤ s.nextId → Tbl.find t.wreqs id = Tbl.find s.wreqs id
  reads : write = false → ∀ l ∈ lanesOf x.st.em, ∀ c a, winTarget s x write f l = some (c, a) →
    ∀ d ∈ (readyOf s x (winD write f)).dsts l, WindowWord t x write (s.nextId + 1) s.nextId (c, ⟨l, a.getD d.1 0, d.2, 0, 0, false⟩)
  writes : write = true → ∀ l ∈ lanesOf x.st.em, ∀ c a, winTarget s x write f l = some (c, a) →
    ∀ j, j < a.length → WindowWord t x write (s.nextId + 1) s.nextId
      (c, ⟨l, a.getD j 0, 0, (readyOf s x (winD write f)).word 3 j l, (readyOf s x (winD write f)).mark 3 j l, false⟩)

end Sys2Proof.Machine
end

