-- ==== Sys2Proof/Safety/Checks.lean ====
section
/-! DEFINITION. The terms in which claims about operands that are not in order speak: what an instruction's operands are, and what
strikes a lane (R14, R112, R127, R147, R319). -/

namespace Sys2Proof.Machine

/-- The instructions whose operands are read once (R129): their sources and destination. -/
def uRule : Instr → Option (List (Opnd × Nat) × Option (Opnd × Nat))
  | .talloc f => some ([(f.a, 1), (f.b, 1)], none)
  | .tfree f => some ([(f.a, 1)], none)
  | .wexp f => some ([(f.a, 1), (f.b, 1)], some (f.d, 1))
  | .wrev f => some ([(f.a, 1)], none)
  | .wgrant f => some ([(f.a, 1), (f.b, 1)], none)
  | .give f => some ([(f.a, 1), (f.b, 1)], none)
  | .take f => some ([(f.a, 1), (f.b, 1)], some (f.d, 1))
  | .launch f => some ((.s f.a, 2) :: f.b.toList.map (fun k => (.s k, 2)), some (.s f.d, 1))
  | .ringAcq f => some ([(.s f.a, 2)], some (.s f.d, 1))
  | .ringCmt f => some ([(.s f.a, 2), (f.b, 1)], none)
  | .ringRel f => some ([(.s f.a, 2), (f.b, 1)], none)
  | .ringPeek f => some ([(.s f.a, 2)], some (.s f.d, 1))
  | .gfire f => some ((.s f.a, 2) :: f.b.toList.map (fun k => (.s k, 2)), none)
  | .gnode f => some ([(.s f.a, 2)], some (.s f.d, 1))
  | .gcancel f => some ([(.s f.a, 2)], some (.s f.d, 1))
  | .prio a => some ([(a, 1)], none)
  | _ => none

/-- What an instruction of classes 0 to 3 or 5 takes at issue before anything else: its operands, a lane's further words, and the lanes
that supply operands. -/
def operandsOf (s : State) (x : Who) (i : Instr) : Option (OpD × OwnOf × Mask) :=
  let every : Mask := 0xFFFFFFFFFFFFFFFF
  let none_ : OwnOf := fun _ _ => OwnAcc.none
  ((intRule i).map fun q => (q.d, none_, every)) <|>
  ((carryRule i).map fun q => ({ srcs := src2 q.1.ty q.1.a q.1.b, dst := some (q.1.d, tyWords q.1.ty), masked := true }, none_, every)) <|>
  ((maskRule i).map fun q => ({ srcs := q.srcs }, none_, every)) <|>
  ((fpRule i).map fun q => (q.d, none_, every)) <|>
  ((laneRule i).map fun q => (q.d, q.acc x, q.only x)) <|>
  ((frameRule s x i).map fun q => (q.d, q.acc x, every)) <|>
  ((stxRule s x i).map fun q => (q.d, (fun r l => writesAt (q.at_ r l) : OwnOf), every)) <|>
  (if x.replaying then none else (loadRule i <|> storeRule i).map fun q => (q.d, q.own x, q.only x)) <|>
  if x.st.em = 0 then none else (uRule i).map fun q => (uD q.1 q.2, uAcc x q.1, every)

/-- The record at which the operands are looked at. -/
def firstLook (s : State) (x : Who) (d : OpD) (only : Mask) : Ready := ⟨s, x, d, x.st.em &&& only, [], popEntries x.w.queues d.srcs⟩

/-- R127: what strikes a lane in EM, the first of four that applies: 0 an index, 2 a word on the engine side, 1 a read of an invalid word,
3 a closed and empty queue. A lane that supplies no operands is struck by the operand codes and the queues alone. -/
def strikes (s : State) (x : Who) (d : OpD) (acc : OwnOf) (only : Mask) (l : Nat) : Nat → Prop :=
  let a := acc (firstLook s x d only) l
  let index : Prop := d.outside x = true ∨ (only.getLsbD l = true ∧ a.bad = true)
  let ill : Prop := only.getLsbD l = true ∧
    ∃ w ∈ (a.reads ++ laneReads x d l) ++ (a.writes ++ laneWrites x d l), ((s.core x.core).gran (w / 128)).own = true
  let invalid : Prop := only.getLsbD l = true ∧ ∃ w ∈ a.reads ++ laneReads x d l, ((s.core x.core).gran (w / 128)).val = false
  let closed : Prop := ∃ q, q < 4 ∧ (x.w.queues.getD q ⟨[], false⟩).entries.length < popCount d.srcs q
  fun
  | 0 => index
  | 1 => ¬index ∧ ¬ill ∧ invalid
  | 2 => ¬index ∧ ill
  | 3 => ¬index ∧ ¬ill ∧ ¬invalid ∧ closed
  | _ => False

/-- The lanes of EM that each of the four strikes. -/
def Struck (s : State) (x : Who) (d : OpD) (acc : OwnOf) (only : Mask) (m : Nat → Mask) : Prop :=
  ∀ k l, (m k).getLsbD l = true ↔ x.st.em.getLsbD l = true ∧ strikes s x d acc only l k

/-- Nothing that comes before the lanes' own checks holds the instruction back (R13, R143, R147, R180, R224). -/
structure Issues (s : State) (x : Who) (d : OpD) (acc : OwnOf) (only : Mask) : Prop where
  dirs : queueFault x d = none
  busy : busyDst s x d = false
  room : queueWait x d = false
  release : d.pushes = true → s.unfinished x.agent = false
  fence : Ready.fencedOff (firstLook s x d only) acc = false

end Sys2Proof.Machine
end

