-- ==== Sys2Proof/Safety/Engines.lean ====
section
/-! DEFINITION. The terms in which claims about engine commands speak: the rows of R198 that a command passes, what it takes with it,
and what its acceptance leaves (R196-R201). -/

namespace Sys2Proof.Machine

/-- The class 4 instructions: the header and the command of each. -/
def engInstr : Instr → Option (EHdr × EngBody)
  | .copy h f => some (h, .copy f)
  | .copymc h f => some (h, .copymc f)
  | .gath h f => some (h, .gath f)
  | .scata h f => some (h, .scata f)
  | .mma h f => some (h, .mma f)
  | .tfill h f => some (h, .tfill f)
  | .eseq h f => some (h, .eseq f)
  | .kvw h f => some (h, .kvw f)
  | .kvld h f => some (h, .kvld f)
  | .kvst h f => some (h, .kvst f)
  | .kvfork h f => some (h, .kvfork f)
  | .splice h f => some (h, .splice f)
  | .rpopen h f => some (h, .rpopen f)
  | .rpstat h f => some (h, .rpstat f)
  | .rpcancel h f => some (h, .rpcancel f)
  | .kvfree h f => some (h, .kvfree f)
  | _ => none

/-- The units of the instructions that issue with a class 4 instruction: a copy with THN set takes its `mma` along (R207). -/
def engUnits : EngBody → List Nat
  | .copy f => if f.thn then [2, 2] else [2]
  | _ => [2]

/-- What R255 gives each context-store command: its fields, its use of them, and whether its tile lands data or supplies it. -/
def kvUse : EngBody → Option (KvF × KvUse × Bool × Bool)
  | .kvw f => some (f, ⟨4, [f.sa, f.sb, f.sc], false⟩, false, false)
  | .kvld f => some (f, ⟨0, [f.sa, f.sb, f.sc, f.sd, f.se], true⟩, true, false)
  | .kvst f => some (f, ⟨0, [f.sa, f.sb, f.sc, f.sd, f.se], true⟩, false, true)
  | .kvfork f => some (f, ⟨1, [f.sa, f.sb, f.sc, f.sd], false⟩, false, false)
  | .splice f => some (f, ⟨0, [f.sa, f.sb, f.sc], false⟩, false, false)
  | .rpopen f => some (f, ⟨1, [f.sa, f.sb, f.sc, f.sd, f.se], false⟩, false, false)
  | .rpstat f => some (f, ⟨4, [f.sa], false⟩, false, false)
  | .rpcancel f => some (f, ⟨0, [f.sa], false⟩, false, false)
  | .kvfree f => some (f, ⟨0, [f.sa], false⟩, false, false)
  | _ => none

/-- `rpopen` reads a pair of scalars as its window (R265). -/
def isOpen : EngBody → Bool
  | .rpopen _ => true
  | _ => false

/-- The scalars that a command reads at its issue. -/
def engReads (s : State) (i : Iss) : EngBody → List Nat
  | .copy f => copyReads f
  | .copymc f => copymcReads f (s.mcCount i f)
  | .gath f => [f.isc.toNat, f.isc.toNat + 1, f.bsc.toNat, f.bsc.toNat + 1, f.dsc.toNat]
  | .scata f => [f.isc.toNat, f.isc.toNat + 1, f.dsc.toNat]
  | .mma f => mmaReads f
  | .tfill f => [f.pat.toNat, f.doff.toNat, f.len.toNat]
  | .eseq _ => []
  | b => match kvUse b with
    | some (f, u, _) => u.reads.map BitVec.toNat ++ if isOpen b then [f.se.toNat + 1] else []
    | none => []

/-- The result scalars of a command (R255). -/
def engWrites (b : EngBody) : List Nat :=
  match kvUse b with
  | some (f, u, _) => u.writes f
  | none => []

/-- What the rows of R198 need of a command. -/
def engChk (s : State) (i : Iss) : EngBody → EngChk
  | .copy f => s.copyChk i f
  | .copymc f => s.copymcChk i f
  | .gath f => s.gathChk i f
  | .scata f => s.scataChk i f
  | .mma f => s.mmaChk i f
  | .tfill f => s.tfillChk i f
  | .eseq f => ⟨f.cnt == 0, [], [], [], [], false, [], none⟩
  | b => match kvUse b with
    | some (f, u, land, src) => s.kvChk i f u land src (isOpen b)
    | none => ⟨true, [], [], [], [], false, [], none⟩

/-- The rows of R198 that every class 4 instruction shares, and what precedes them (R30, R143, R319). -/
structure EngOk (s : State) (i : Iss) (h : EHdr) (reads : List Nat) (c : EngChk) (writes : List Nat := []) : Prop where
  pair : h.sync.toNat % 2 = 0 ∧ h.sync.toNat ≤ 46
  busy : ∀ k ∈ h.stat.val :: writes, s.scalarBusy i.wid i.dn k = false
  clean : ∀ k ∈ reads, k < 48 → (s.core i.core).mark (i.d.scal k) = 0
  field : c.field = false
  status : h.stat.val ≠ h.sync.toNat ∧ h.stat.val ≠ h.sync.toNat + 1
  recs : ∀ p ∈ c.recs, (s.ircd i p.1).wf = true ∧ p.2.lacks (s.ircd i p.1) = none
  tiles : ∀ t ∈ c.tiles, (s.itile i t).isSome = true
  given : ∀ g ∈ c.land ++ c.srcs, ((s.core i.core).gran g).own = true
  idle : ∀ g ∈ c.land, s.infElsewhere i.core g i.wid i.dn h.sync.toNat = false

/-- The size, swizzle and row rows of R198. -/
def SizesOk (s : State) (i : Iss) (c : EngChk) : Prop :=
  c.size = false ∧ (∀ r ∈ c.swz, (s.ircd i r).swz = 0) ∧ c.row = none

/-- R233: the rows of a matrix command: its accumulator is no source, no outstanding command and no copy of it names its granules,
its descriptors can be read, the table's last rows find nothing, and the issuer's writes before it, which a descriptor may hold, are
performed (R187, R227). -/
structure MmaOk (s : State) (i : Iss) (f : MmaF) (copied : List Nat) (a b : TDesc) (ct : Tile) : Prop where
  acc : s.itile i f.ct.val = some ct
  apart : f.ct.val ∉ (mmaTiles f).drop 1 ∧ ∀ g ∈ (s.mmaChk i f).land, g ∉ copied
  unused : ∀ g ∈ (s.mmaChk i f).land, s.granCmds i.core g = []
  first : s.readDesc i f.da.toNat = .ok a
  second : s.readDesc i f.db.toNat = .ok b
  last : s.mmaLast i f a b ct = none
  written : s.issuerWrites i = []

/-- The rows of a command's own that follow. -/
def LastOk (s : State) (i : Iss) (h : EHdr) (b : EngBody) : Prop :=
  match b with
  | .mma _ => False
  | .gath f => SizesOk s i (s.gathChk i f) ∧ s.markedWord i (s.gathWords i f) = none
  | .scata f => SizesOk s i (s.scataChk i f) ∧ s.markedWord i (s.scataWords i f) = none
  | b => match kvUse b with
    | some (f, u, _) => s.kvLast i h (engBase b) f u (isOpen b) = none
    | none => SizesOk s i (engChk s i b)

/-- What a command other than `mma` takes with it. -/
def engTake (s : State) (i : Iss) : EngBody → EngTake
  | .copy f => s.copyTake i f (s.copyChk i f)
  | .copymc f =>
    ⟨[s.ircd i f.srec.val], none, if f.stl then s.itile i f.stn.val else none, none, [], (s.copymcChk i f).srcs,
      (List.range (s.mcCount i f)).map fun j => McTarget.fresh (s.scalar i.core i.d (f.doff.toNat + 1 + j))⟩
  | .gath f =>
    ⟨[s.ircd i f.trec.val, s.ircd i f.irec.val, s.ircd i f.brec.val], if f.dtl then s.itile i f.dtn.val else none, none, none,
      (s.gathChk i f).land, (s.gathChk i f).srcs, []⟩
  | .scata f =>
    ⟨[s.ircd i f.trec.val, s.ircd i f.irec.val], none, if f.dtl then s.itile i f.dtn.val else none, none, [], (s.scataChk i f).srcs, []⟩
  | .tfill f => ⟨[], if f.dtl then s.itile i f.dtn.val else none, none, none, (s.tfillChk i f).land, [], []⟩
  | .eseq _ | .mma _ => ⟨[], none, none, none, [], [], []⟩
  | b => match kvUse b with
    | some (f, u, land, src) =>
      ⟨[], if land then (if u.tile then s.itile i f.tn.val else none) else none,
        if src then (if u.tile then s.itile i f.tn.val else none) else none, none, (engChk s i b).land, (engChk s i b).srcs, []⟩
    | none => ⟨[], none, none, none, [], [], []⟩

/-- What a matrix command takes with it. -/
def mmaTake (s : State) (i : Iss) (f : MmaF) (a b : TDesc) (ct : Tile) : EngTake :=
  ⟨[a, b], some ct, (s.mmaOps i f a b).1.tile, (s.mmaOps i f a b).2.tile, (s.mmaChk i f).land, (s.mmaChk i f).srcs, []⟩

/-- A command that an engine has just accepted: the issuer's scalars as they are, and nothing done yet. -/
def newCmd (s : State) (i : Iss) (h : EHdr) (b : EngBody) (k : EngTake) (seq : Nat) (follow waits : Option Nat) : Cmd where
  core := i.core
  wid := i.wid
  dom := i.dn
  ctx := i.ctx
  pair := h.sync.toNat
  stat := h.stat.val
  seq := seq % 2 ^ 20
  fe := i.fe
  body := b
  scal := (List.range 48).map (s.scalar i.core i.d)
  recs := k.recs
  a0 := i.d.a0
  fv := i.d.fv
  width := i.w.width
  tile := k.tile
  src := k.src
  src2 := k.src2
  descp := i.d.descp
  land := k.land
  srcs := k.srcs
  follow := follow
  waits := waits
  after := match b with
    | .eseq _ => s.cmds.filterMap fun p => if p.2.wid = i.wid then some p.1 else none
    | _ => s.issuerUndone i ++ s.givenIds i.core (k.land ++ k.srcs)
  begun := false
  started := false
  parked := false
  done := 0
  ahead := []
  next := 0
  words := []
  aux := 0
  ovr := false
  targets := k.targets
  parts := []
  lists := []
  rows := []
  grow := none
  docGone := false
  retired := none
  job := none

/-- A command has been accepted (R197, R200): it stands under the next number with its warp's next sequence number, at the end of its
core's queue; the granules that it touches have INF set; and nothing else has changed. -/
structure Accepted (s : State) (i : Iss) (h : EHdr) (b : EngBody) (k : EngTake) (seq : Nat) (follow waits : Option Nat) (t : State) :
    Prop where
  rest : t = { s with nextId := s.nextId + 1, cores := t.cores, warps := t.warps, cmds := t.cmds }
  cmd : Tbl.find t.cmds s.nextId = some (newCmd s i h b k seq follow waits)
  cmds : ∀ j, j ≠ s.nextId → Tbl.find t.cmds j = Tbl.find s.cmds j
  cores : ∀ c, c ≠ i.core → t.core c = s.core c
  queue : t.core i.core = { s.core i.core with cmds := (s.core i.core).cmds ++ [s.nextId], grans := (t.core i.core).grans }
  inf : ∀ g, (t.core i.core).gran g =
    if g ∈ k.land ++ k.srcs then { (s.core i.core).gran g with inf := true } else (s.core i.core).gran g
  warps : ∀ w, w ≠ i.wid → Tbl.find t.warps w = Tbl.find s.warps w
  warp : Tbl.find t.warps i.wid = (Tbl.find s.warps i.wid).map fun w => { w with seqno := seq % 2 ^ 20 }

end Sys2Proof.Machine
end

