-- ==== Sys2Proof/Safety/Control.lean ====
section
/-! DEFINITION. The terms in which claims about control and about front-end contexts speak: targets that control may use, forks, and
when a front-end context may issue (R60-R67, R104, R217-R224). -/

namespace Sys2Proof.Machine

/-- A place that control may go to: a clause header that can be fetched (R38, R61). -/
def GoodTarget (s : State) (core ctx : Nat) (p : Pc) : Prop := ∃ w, s.fetchUnit core ctx p = .unit w ∧ Codec.isHeader w = true

/-- `s` with strand `x` changed by `f`. -/
def State.withStrand (s : State) (x : Who) (f : Strand → Strand) : State :=
  { s with warps := Tbl.upd s.warps x.wid fun w => { w with strands := Tbl.upd w.strands x.sid f } }

/-- A strand on one side of a fork: its lanes and membership, where it stands, its return stack, and the split that it descends from. -/
def Strand.sideOf (st : Strand) (x : Who) (sd : Side) (mem : Mask) (n : Nat) : Prop :=
  st.em = sd.em ∧ st.mem = mem ∧ st.pc = sd.pc ∧ st.rstack = sd.rstack ∧ st.split = some n ∧ st.clause = none ∧ st.parked = none ∧
    st.dom = x.st.dom ∧ st.level = x.st.level

/-- R104, R106: a strand has forked, with all the lanes of `all`: the side `first` keeps the entry, and every lane that is in no side; the
sides of `placed` run in the lowest free entries, in order; those of `left` are deferred records of this strand, the last of them the most
recent; all stand at their places under a new split of the join and the depth; nothing of the other strands changes. -/
structure Forked (s : State) (x : Who) (join : Option Pc) (depth : Nat) (all : Mask) (first : Side) (placed left : List Side) (t : State) :
    Prop where
  rest : t = { s with warps := t.warps, nextId := s.nextId + 1 }
  warps : ∀ w, w ≠ x.wid → Tbl.find t.warps w = Tbl.find s.warps w
  warp : ∃ v, Tbl.find t.warps x.wid = some v ∧
    v = { x.w with strands := v.strands, splits := Tbl.put x.w.splits s.nextId ⟨join, depth, x.st.split, []⟩, deferred := v.deferred } ∧
    (∃ a, Tbl.find v.strands x.sid = some a ∧ a.sideOf x first (first.em ||| (x.st.mem &&& ~~~all)) s.nextId) ∧
    (∀ (j : Nat) (sd : Side) (e : Nat), placed[j]? = some sd → x.w.freeEntries[j]? = some e →
      ∃ b, Tbl.find v.strands e = some b ∧ b.sideOf x sd sd.em s.nextId) ∧
    (∀ i, i ≠ x.sid → i ∉ x.w.freeEntries.take placed.length → Tbl.find v.strands i = Tbl.find x.w.strands i) ∧
    v.deferred = (left.reverse.map fun sd => ⟨x.sid, sd.pc, none, sd.em, sd.em, some s.nextId, sd.rstack, x.st.dom⟩) ++ x.w.deferred

/-- R104, R106: what a fork of `keep` and `others` comes to: with entries free for all, `keep` stays and the others run; else the first of
the sides in order runs on, a taken side of `brc` before `keep`, and what finds no entry is deferred; a seventeenth record is refused. -/
structure Forks (s : State) (x : Who) (join : Option Pc) (depth : Nat) (keep : Side) (others : List Side) (taken : Bool) : Prop where
  fits : others.length ≤ x.w.freeEntries.length → ∃ t, s.fork x join depth keep others taken = some t ∧
    Forked s x join depth (keep.em ||| (others.map Side.em).foldl (· ||| ·) 0) keep others [] t
  serial : ∀ first more, (if taken then others ++ [keep] else keep :: others) = first :: more → x.w.freeEntries.length < others.length →
    x.w.deferred.length + (others.length - x.w.freeEntries.length) ≤ 16 → ∃ t, s.fork x join depth keep others taken = some t ∧
    Forked s x join depth (keep.em ||| (others.map Side.em).foldl (· ||| ·) 0) first (more.take x.w.freeEntries.length)
      (more.drop x.w.freeEntries.length) t
  full : x.w.freeEntries.length < others.length → 16 < x.w.deferred.length + (others.length - x.w.freeEntries.length) →
    s.fork x join depth keep others taken = none

/-- R105: strands have fused, with lanes set aside: the lowest entry `k` holds all their lanes and memberships, stands where it
stood, with its return stack, and waits no more; the others are gone; every other strand is as before, and the accesses of all are those of `k`. -/
structure Fused (s : State) (wid : Nat) (w : Warp) (k : Nat) (rest : List Nat) (mates : List Aside) (t : State) (v : Warp) : Prop where
  frame : t = { s with warps := t.warps, accs := t.accs, wreqs := t.wreqs }
  warps : ∀ i, i ≠ wid → Tbl.find t.warps i = Tbl.find s.warps i
  warp : Tbl.find t.warps wid = some v
  kept : ∀ a, Tbl.find w.strands k = some a → ∃ b, Tbl.find v.strands k = some b ∧
    b.em = (((k :: rest).filterMap fun i => (Tbl.find w.strands i).map Strand.em) ++ mates.map Aside.em).foldl (· ||| ·) 0 ∧
    b.mem = (((k :: rest).filterMap fun i => (Tbl.find w.strands i).map Strand.mem) ++ mates.map Aside.mem).foldl (· ||| ·) 0 ∧
    b.rstack = a.rstack ∧ b.dom = a.dom ∧ b.level = a.level ∧ b.parked = none
  gone : ∀ i ∈ rest, i ≠ k → Tbl.find v.strands i = none
  others : ∀ i, i ∉ k :: rest → Tbl.find v.strands i = Tbl.find w.strands i
  accs : t.accs = Tbl.mapVals s.accs fun _ a => { a with agent := match a.agent with
    | .strand v i => if v = wid ∧ i ∈ rest then .strand wid k else .strand v i
    | b => b }

/-! ## Front-end contexts -/

/-- A front-end context has the turn and has not stopped (R217, R223). -/
structure FeClear (s : State) (x : FeWho) : Prop where
  turn : s.cur = .fe x.cid
  crew : Tbl.find s.crews x.cid = some x.k
  fe : x.k.fe = some x.f
  ctx : x.ctx = s.crewCtx x.k
  running : x.f.stopped = none

/-- No load of the context to one of these registers is in flight (R219). -/
def FeFree (s : State) (x : FeWho) (l : List Nat) : Prop :=
  ∀ p ∈ s.accs, p.2.agent = .fe x.cid → p.2.pend.isSome = true → ∀ q ∈ p.2.lanes, ∀ d ∈ q.dst, d.2 / 2 ∉ l

/-- `s` with the context changed by `f`. -/
def State.withFe (s : State) (x : FeWho) (f : FrontEnd → FrontEnd) : State :=
  { s with crews := Tbl.upd s.crews x.cid fun k => { k with fe := k.fe.map f } }

/-- A front-end context with the register that an operand names set and the instruction behind it. -/
def FrontEnd.done (f : FrontEnd) (d : AOpnd) (v : Dword) : FrontEnd :=
  match d with
  | .a k => { f.advance 1 with regs := f.regs.set k.val v }
  | _ => f.advance 1

/-- The arithmetic of class 7 (R219): destination, sources, value. -/
structure FeRule where
  (d a b : AOpnd) (g : Dword → Dword → Dword)

/-- The rules of R219: 64-bit arithmetic that wraps, shifts whose amount is an unsigned number, and a comparison. -/
def feRule : Instr → Option FeRule
  | .aadd f => some ⟨f.d, f.a, f.b, fun a b => a + b⟩
  | .asub f => some ⟨f.d, f.a, f.b, fun a b => a - b⟩
  | .amul f => some ⟨f.d, f.a, f.b, fun a b => a * b⟩
  | .ashl f => some ⟨f.d, f.a, f.b, fun a b => if 64 ≤ b.toNat then 0 else a <<< b.toNat⟩
  | .ashr f => some ⟨f.d, f.a, f.b, fun a b => match f.ty with
      | .i64 => if 64 ≤ b.toNat then (if a.msb then BitVec.allOnes 64 else 0) else a.sshiftRight b.toNat
      | .n64 => if 64 ≤ b.toNat then 0 else a >>> b.toNat⟩
  | .aand f => some ⟨f.d, f.a, f.b, fun a b => a &&& b⟩
  | .aor f => some ⟨f.d, f.a, f.b, fun a b => a ||| b⟩
  | .axor f => some ⟨f.d, f.a, f.b, fun a b => a ^^^ b⟩
  | .acmp f => some ⟨f.d, f.a, f.b, fun a b =>
      let less : Bool := match f.ty with
        | .i64 => decide (a.toInt < b.toInt)
        | .n64 => decide (a.toNat < b.toNat)
      let holds : Bool := match f.cond with
        | .eq => a == b
        | .ne => a != b
        | .lt => less
        | .le => less || a == b
        | .gt => !less && a != b
        | .ge => !less
      if holds then 1 else 0⟩
  | .amovi f => some ⟨f.d, .zero, .zero, fun _ _ => match f.ty with
      | .i64 => BitVec.ofInt 64 f.imm.toInt
      | .n64 => BitVec.ofNat 64 f.imm.toNat⟩
  | _ => none

end Sys2Proof.Machine
end

