-- ==== Sys2Proof/Safety/Host.lean ====
section
/-! DEFINITION. The terms in which claims about the commands of hosts speak: which instruction carries which command, when a mailbox
accepts it, and what it names (R373, R374, R385). -/

namespace Sys2Proof.Machine

/-- The header and the OP of an instruction that is a command of a host (R374). -/
def hostInstr : Instr → Option (HostHdr × Nat)
  | .hello h _ => some (h, 0x01)
  | .measure h => some (h, 0x02)
  | .attest h _ => some (h, 0x03)
  | .partCreate h _ => some (h, 0x04)
  | .partDestroy h _ => some (h, 0x05)
  | .partStitch h _ => some (h, 0x06)
  | .ctxCreate h _ => some (h, 0x07)
  | .ctxDestroy h => some (h, 0x08)
  | .map h _ => some (h, 0x09)
  | .unmap h _ => some (h, 0x0A)
  | .write h _ _ => some (h, 0x0B)
  | .read h _ _ => some (h, 0x0C)
  | .gateInstall h _ _ => some (h, 0x0D)
  | .graphSubmit h _ => some (h, 0x0E)
  | .graphStatus h _ => some (h, 0x0F)
  | .signal h _ => some (h, 0x10)
  | .wait h _ => some (h, 0x11)
  | .qosSet h _ => some (h, 0x12)
  | .preempt h _ => some (h, 0x13)
  | .resume h => some (h, 0x14)
  | .kill h => some (h, 0x15)
  | .tierPolicy h _ => some (h, 0x16)
  | .repairModel h _ => some (h, 0x17)
  | .stats h => some (h, 0x18)
  | _ => none

/-- A header that R373 allows for command `op`, at a mailbox that takes it from its sender (R374), with a SEQ that increases. -/
structure HostHdr.Good (s : State) (h : HostHdr) (op : Nat) : Prop where
  code : h.op = op
  zeros : h.status = 0 ∧ h.f 198 192 = 0 ∧ h.f 95 0 = 0
  len : h.len ≤ 65504
  box : s.boxOk h op = true
  seq : h.box ≠ .port → ∀ n, s.lastSeq h.box = some n → n < h.seq

/-- The mailboxes are open, and one accepts the command. -/
def Takes (s : State) (h : HostHdr) (op : Nat) : Prop := s.boot = .up ∧ HostHdr.Good s h op

/-- The partition of the command holds the context that it names. -/
def Holds (s : State) (h : HostHdr) (c : Context) : Prop := Tbl.find s.ctxs h.ctx = some c ∧ c.part = h.part

/-- The commands that act on the context their header names (R374). -/
def ctxInstr : Instr → Option HostHdr
  | .ctxDestroy h | .map h _ | .unmap h _ | .write h _ _ | .read h _ _ | .graphSubmit h _ | .graphStatus h _ | .signal h _
  | .wait h _ | .preempt h _ | .resume h | .kill h | .tierPolicy h _ | .repairModel h _ => some h
  | _ => none

/-- R385: the first field of the payload failed, or the `i`th did, or no single one. -/
def fieldOff (h : HostHdr) (i : Option Nat) : BitVec 32 :=
  match i with
  | some i => Config.payloadOffset h.op i
  | none => 0xFFFFFFFF

/-- R373, R385: `s` after a command has been answered with the code of its class and a detailed cause. -/
def State.refused (s : State) (h : HostHdr) (code cause : Nat) (field : Option Nat := none) : State :=
  s.reply h code (leBytes 8 (cause + (fieldOff h field).toNat * 2 ^ 32))

end Sys2Proof.Machine
end

