-- ==== Sys2Proof/Safety/Schedule.lean ====
section
/-! DEFINITION. The terms in which claims about rings and records speak (R289-R291). -/

namespace Sys2Proof.Machine

/-- A ring instruction: its operands, the accesses that must be over before it, the block that it names, and its operation. -/
structure RingRule where
  (srcs : List (Opnd × Nat)) (dst : Option (Opnd × Nat)) (past : Prop) (va : Nat) (op : RingOp)

/-- R290, R291: `ring.acq` reads, `ring.cmt` and `ring.rel` are releases. -/
def ringRule (s : State) (x : Who) : Instr → Option RingRule
  | .ringAcq f => some ⟨[(.s f.a, 2)], some (.s f.d, 1), s.undone x.agent = false, s.vaPair x f.a, .acq f.c f.d.val f.la.toNat⟩
  | .ringCmt f => some ⟨[(.s f.a, 2), (f.b, 1)], none, s.settled x.agent = true, s.vaPair x f.a,
      .cmt (if f.cl && f.b == .zero then none else some (uVal s x [(.s f.a, 2), (f.b, 1)] none 1)) f.cl⟩
  | .ringRel f => some ⟨[(.s f.a, 2), (f.b, 1)], none, s.settled x.agent = true, s.vaPair x f.a,
      .rel (uVal s x [(.s f.a, 2), (f.b, 1)] none 1)⟩
  | _ => none

/-- R290, R291: an operation goes on at a block, with the block after it and its ticket: a producer takes RES where a slot is free, a
consumer CLM where an entry is committed, or 0xFFFFFFFF from a closed ring without one; a commit advances CMT, a release REL, where
the ticket is the next; a commit with CL closes the ring. -/
def RingTakes (b : RingBlk) (op : RingOp) (b' : RingBlk) (t : Word) : Prop :=
  match op with
  | .acq false _ _ => b.occupancy < b.slots ∧ b' = b.setRes (ringNext b.res) ∧ t = BitVec.ofNat 32 b.res
  | .acq true _ _ =>
    (b.clm ≠ b.cmt ∧ b' = b.setClm (ringNext b.clm) ∧ t = BitVec.ofNat 32 b.clm) ∨
    (b.clm = b.cmt ∧ b.closed = 1 ∧ b' = b ∧ t = 0xFFFFFFFF)
  | .cmt none close => b' = (if close then b.close else b) ∧ t = 0
  | .cmt (some k) close =>
    k = b.cmt ∧ k < 2 ^ 31 ∧ ringDist b.cmt b.cmt < ringDist b.cmt b.res ∧ t = 0 ∧
    b' = (if close then (b.setCmt (ringNext k)).close else b.setCmt (ringNext k))
  | .rel k => k = b.rel ∧ k < 2 ^ 31 ∧ ringDist b.rel b.rel < ringDist b.rel b.clm ∧ t = 0 ∧ b' = b.setRel (ringNext k)

/-- R290, R291: an operation waits: no slot, no entry in an open ring, or a ticket whose turn has not come. -/
def RingWaits (b : RingBlk) (op : RingOp) : Prop :=
  match op with
  | .acq false _ _ => b.slots ≤ b.occupancy
  | .acq true _ _ => b.clm = b.cmt ∧ b.closed = 0
  | .cmt none _ => False
  | .cmt (some k) _ => k < 2 ^ 31 ∧ ringDist b.cmt k < ringDist b.cmt b.res ∧ k ≠ b.cmt
  | .rel k => k < 2 ^ 31 ∧ ringDist b.rel k < ringDist b.rel b.clm ∧ k ≠ b.rel

end Sys2Proof.Machine
end

