-- ==== Sys2Proof/Certificates/Slice0/Obligations.lean ====
section
/-! DEFINITION. What is claimed of the machine. -/

namespace Sys2Proof.Machine

/-- Every lane below the width. -/
abbrev every : Mask := 0xFFFFFFFFFFFFFFFF

end Sys2Proof.Machine

open Sys2Proof Sys2Proof.Machine

/-! ## Classes 0 and 1 -/

/-- R33, R34, R48, R50, R52, R54, R55, R57, R58: integer instructions of a clear strand whose operands are in order. With EDZ set, a division
by zero in a lane that counts traps with cause 0x18 and those lanes; else, with EOV set, an overflow traps with cause 0x19; nothing of
the instruction has taken effect then. Without such a trap a short one completes: its destination holds the result of its rule, ACR
gains the sticky bits, the PC moves by one, and nothing else changes; `div` and `rem` issue with theirs. -/
def Obligations.IntegerInstructions : Prop :=
  (∀ (i : Instr) (q : IntRule) (s : State) (x : Who), intRule i = some q → q.la = none → Clear s x → OperandsOk s x q.d →
    noIntTrap x (q.dz (readyOf s x q.d)) (q.ov (readyOf s x q.d)) →
    ∃ t, exec i s = .next t ∧ Finished s x q.d every x.st.em (q.res (readyOf s x q.d))
      (intBits (q.dz (readyOf s x q.d)) (q.ov (readyOf s x q.d))) t) ∧
  (∀ (i : Instr) (q : IntRule) (la : Nat) (s : State) (x : Who), intRule i = some q → q.la = some la → Clear s x →
    OperandsOk s x q.d → noIntTrap x (q.dz (readyOf s x q.d)) (q.ov (readyOf s x q.d)) →
    ∃ t, exec i s = .next t ∧ Launched s x q.d every x.st.em la (q.res (readyOf s x q.d))
      (intBits (q.dz (readyOf s x q.d)) (q.ov (readyOf s x q.d))) t) ∧
  (∀ (i : Instr) (q : IntRule) (s : State) (x : Who), intRule i = some q → Clear s x → OperandsOk s x q.d →
    (acrEdz x.d.csrs.acr = true → q.dz (readyOf s x q.d) ≠ 0 →
      exec i s = .next (s.trapAt x.wid x.sid { cause := 0x18, lanes := q.dz (readyOf s x q.d) })) ∧
    (¬ (acrEdz x.d.csrs.acr = true ∧ q.dz (readyOf s x q.d) ≠ 0) → acrEov x.d.csrs.acr = true → q.ov (readyOf s x q.d) ≠ 0 →
      exec i s = .next (s.trapAt x.wid x.sid { cause := 0x19, lanes := q.ov (readyOf s x q.d) })))

/-- R43, R47, R50, R52, R53: what the integer operations compute, in terms of words: sums, differences, products and their high halves,
negations, quotients and remainders, shifts, rotations and reversals; overflow without `.sat`, and the clamped result with it; the
carry of `addcy` and the borrow of `subbw`; and comparisons. R54, R55, R57: minima, maxima and absolute values, bit fields, leading
zeros, `lut3`, `lea` and `idx2`. -/
def Obligations.IntegerFormulas : Prop :=
  (∀ (t : Ty) (w : Nat) (a b : BitVec w), w = ibits t →
    ((iadd t false a.toNat b.toNat).val = (a + b).toNat ∧ (isub t false a.toNat b.toNat).val = (a - b).toNat ∧
      (imul t false a.toNat b.toNat).val = (a * b).toNat ∧ (ineg t false a.toNat).val = (-a).toNat ∧
      (imulhi t a.toNat b.toNat).val = (if t.signed then (a.signExtend (2 * w) * b.signExtend (2 * w)).extractLsb' w w
        else (a.zeroExtend (2 * w) * b.zeroExtend (2 * w)).extractLsb' w w).toNat) ∧
    ((iadd t false a.toNat b.toNat).ov = (if t.signed then a.saddOverflow b else a.uaddOverflow b) ∧
      (isub t false a.toNat b.toNat).ov = (if t.signed then a.ssubOverflow b else a.usubOverflow b) ∧
      ((iadd t true a.toNat b.toNat).ov = false ∧
        ival t (iadd t true a.toNat b.toNat).val = max (imin t) (min (imax t) (ival t a.toNat + ival t b.toNat))) ∧
      ((isub t true a.toNat b.toNat).ov = false ∧
        ival t (isub t true a.toNat b.toNat).val = max (imin t) (min (imax t) (ival t a.toNat - ival t b.toNat))) ∧
      (imul t true a.toNat b.toNat).ov = false ∧
        ival t (imul t true a.toNat b.toNat).val = max (imin t) (min (imax t) (ival t a.toNat * ival t b.toNat))) ∧
    ((idiv t a.toNat b.toNat).val = (if t.signed then a.sdiv b else a / b).toNat ∧
      (irem t a.toNat b.toNat).val = (if t.signed then a.srem b else a % b).toNat ∧
      ((idiv t a.toNat b.toNat).dz = true ↔ b = 0) ∧ ((irem t a.toNat b.toNat).dz = true ↔ b = 0) ∧
      ((idiv t a.toNat b.toNat).ov = true ↔ t.signed = true ∧ a = BitVec.intMin w ∧ b = BitVec.allOnes w)) ∧
    (∀ s : Word, (ishl t a.toNat s.toNat).val = (a <<< s.toNat).toNat ∧
      (ishr t a.toNat s.toNat).val = (if t.signed then a.sshiftRight s.toNat else a >>> s.toNat).toNat ∧
      (irot t a.toNat s.toNat).val = (a.rotateLeft s.toNat).toNat) ∧
    ((inot t a.toNat).val = (~~~a).toNat ∧ (iandn t a.toNat b.toNat).val = (a &&& ~~~b).toNat ∧ (ibrev t a.toNat).val = a.reverse.toNat ∧
      (ipopc t a.toNat).val = (List.range w).countP (fun i => a.getLsbD i)) ∧
    (∀ c : Bool, iaddcy t a.toNat b.toNat (if c then 1 else 0) = ((a + b + BitVec.setWidth w (BitVec.ofBool c)).toNat, BitVec.carry w a b c) ∧
      isubbw t a.toNat b.toNat (if c then 1 else 0) = ((a - b - BitVec.setWidth w (BitVec.ofBool c)).toNat,
        decide (a.toNat < b.toNat + if c then 1 else 0))) ∧
    (icmp t .eq a.toNat b.toNat = (a == b) ∧ icmp t .ne a.toNat b.toNat = (a != b) ∧
      icmp t .lt a.toNat b.toNat = (if t.signed then a.slt b else a.ult b) ∧ icmp t .le a.toNat b.toNat = (if t.signed then a.sle b else a.ule b) ∧
      icmp t .gt a.toNat b.toNat = (if t.signed then b.slt a else b.ult a) ∧ icmp t .ge a.toNat b.toNat = (if t.signed then b.sle a else b.ule a)) ∧
    ((iminOf t a.toNat b.toNat).val = (if (if t.signed then b.slt a else b.ult a) then b else a).toNat ∧
      (imaxOf t a.toNat b.toNat).val = (if (if t.signed then a.slt b else a.ult b) then b else a).toNat ∧
      (iabs t false a.toNat).val = (if t.signed && a.msb then -a else a).toNat ∧
      ((iabs t false a.toNat).ov = true ↔ t.signed = true ∧ a = BitVec.intMin w) ∧
      (iabs t true a.toNat).ov = false ∧ ival t (iabs t true a.toNat).val = min (imax t) (ival t a.toNat).natAbs) ∧
    (∀ c : BitVec w, (imad t false a.toNat b.toNat c.toNat).val = (a * b + c).toNat ∧
      ((imad t false a.toNat b.toNat c.toNat).ov = true ↔ ¬ (imin t ≤ ival t a.toNat * ival t b.toNat + ival t c.toNat ∧
        ival t a.toNat * ival t b.toNat + ival t c.toNat ≤ imax t)) ∧
      (imad t true a.toNat b.toNat c.toNat).ov = false ∧ ival t (imad t true a.toNat b.toNat c.toNat).val =
        max (imin t) (min (imax t) (ival t a.toNat * ival t b.toNat + ival t c.toNat))) ∧
    (∀ (p : Word) (c : BitVec w) (i len : Nat), len = min (p.extractLsb' 8 8).toNat w → i < w →
      (ibfx t a.toNat p.toNat).val.testBit i = (if i < len then (if (p.extractLsb' 0 8).toNat + i < w then
          a.getLsbD ((p.extractLsb' 0 8).toNat + i) else t.signed && a.msb)
        else t.signed && decide (len ≠ 0) && (if (p.extractLsb' 0 8).toNat + (len - 1) < w then
          a.getLsbD ((p.extractLsb' 0 8).toNat + (len - 1)) else a.msb)) ∧
      (ibfi t a.toNat p.toNat c.toNat).val.testBit i = (if (p.extractLsb' 0 8).toNat ≤ i ∧ i < (p.extractLsb' 0 8).toNat + len then
        c.getLsbD (i - (p.extractLsb' 0 8).toNat) else a.getLsbD i)) ∧
    ((iclz t a.toNat).val ≤ w ∧ (∀ i, w - (iclz t a.toNat).val ≤ i → a.getLsbD i = false) ∧
      ((iclz t a.toNat).val < w → a.getLsbD (w - 1 - (iclz t a.toNat).val) = true)) ∧
    ∀ (tbl : BitVec 8) (c : BitVec w) (i : Nat), i < w → (ilut3 t tbl a.toNat b.toNat c.toNat).val.testBit i =
      tbl.getLsbD ((a.getLsbD i).toNat + 2 * (b.getLsbD i).toNat + 4 * (c.getLsbD i).toNat)) ∧
  (∀ (t : Ty) (h : Nat) (a : Dword) (b c : Word), t.wide = true → (ilea t h a.toNat b.toNat c.toNat).val =
    (a + (if t.signed then b.signExtend 64 else b.setWidth 64) <<< h + (if t.signed then c.signExtend 64 else c.setWidth 64)).toNat) ∧
  ∀ r c l : Word, (iidx2 .lin r.toNat c.toNat l.toNat).val = (r * l + c).toNat ∧
    (iidx2 .xr r.toNat c.toNat l.toNat).val = (r * l + (c ^^^ (r &&& 7))).toNat ∧
    (iidx2 .t8 r.toNat c.toNat l.toNat).val = (((r >>> 3) * (l >>> 3) + (c >>> 3)) * 64 + (r &&& 7) * 8 + (c &&& 7)).toNat

/-- R53: `addcy` and `subbw` complete with the sum or difference in the destination and the carry or borrow in the mask. -/
def Obligations.CarryCompletes : Prop :=
  ∀ (i : Instr) (f : CarryF) (g : Nat → Nat → Nat → Nat × Bool) (s : State) (x : Who), carryRule i = some (f, g) → Clear s x →
    OperandsOk s x { srcs := src2 f.ty f.a f.b, dst := some (f.d, tyWords f.ty), masked := true } →
    ∃ u, Finished s x { srcs := src2 f.ty f.a f.b, dst := some (f.d, tyWords f.ty), masked := true } every x.st.em
        (fun l => wordsOf (tyWords f.ty) (g ((readyOf s x { srcs := src2 f.ty f.a f.b, dst := some (f.d, tyWords f.ty), masked := true }).val 0 l)
          ((readyOf s x { srcs := src2 f.ty f.a f.b, dst := some (f.d, tyWords f.ty), masked := true }).val 1 l) (carryIn x f.m l)).1) 0 u ∧
      exec i s = .next (u.setMaskBits x x.st.em f.m (maskWhere x.st.em fun l =>
        (g ((readyOf s x { srcs := src2 f.ty f.a f.b, dst := some (f.d, tyWords f.ty), masked := true }).val 0 l)
          ((readyOf s x { srcs := src2 f.ty f.a f.b, dst := some (f.d, tyWords f.ty), masked := true }).val 1 l) (carryIn x f.m l)).2))

/-- R11, R56, R59, R85, R114: compares and mask instructions write the mask's bits of the lanes in EM and nothing else but ACR; `emget` writes
all W bits of the mask from EM, `emset` makes EM the mask's lanes of the membership, and both move on. -/
def Obligations.MaskInstructions : Prop :=
  (∀ (i : Instr) (q : MaskRule) (s : State) (x : Who), maskRule i = some q → Clear s x → OperandsOk s x { srcs := q.srcs } →
    noFpTrap (readyOf s x { srcs := q.srcs }) (q.fl (readyOf s x { srcs := q.srcs })) →
    ∃ t, exec i s = .next t ∧ MaskDone s x { srcs := q.srcs } q.m (q.v (readyOf s x { srcs := q.srcs }))
      (fpBits (readyOf s x { srcs := q.srcs }) (q.fl (readyOf s x { srcs := q.srcs }))) t) ∧
  (∀ (s : State) (x : Who) (m : MReg), Clear s x →
    exec (.emget m) s = .next ((s.updDom x.wid x.st.dom fun k =>
      k.setMask m ((k.mask m &&& ~~~fullMask x.width) ||| (x.st.em &&& fullMask x.width))).skip x) ∧
    exec (.emset m) s = .next { s with warps := Tbl.upd s.warps x.wid fun w =>
      { w with strands := Tbl.upd w.strands x.sid fun st => { st.advance 1 with em := x.d.mask m &&& st.mem } } })

/-- R34, R81, R83-R89, R91-R100: floating instructions of a clear strand whose operands are in order. An enabled flag raised by a lane that
counts traps with cause 0x1A and the flag's index, the lowest such flag first, and nothing is written; without one a short instruction
completes with the results and the sticky bits of its rule, and one of long latency issues with them. -/
def Obligations.FloatingInstructions : Prop :=
  (∀ (i : Instr) (q : FpRule) (s : State) (x : Who), fpRule i = some q → q.la = none → Clear s x → OperandsOk s x q.d →
    noFpTrap (readyOf s x q.d) (q.fl (readyOf s x q.d)) →
    ∃ t, exec i s = .next t ∧ Finished s x q.d every x.st.em (q.res (readyOf s x q.d)) (fpBits (readyOf s x q.d) (q.fl (readyOf s x q.d))) t) ∧
  (∀ (i : Instr) (q : FpRule) (la : Nat) (s : State) (x : Who), fpRule i = some q → q.la = some la → Clear s x → OperandsOk s x q.d →
    noFpTrap (readyOf s x q.d) (q.fl (readyOf s x q.d)) →
    ∃ t, exec i s = .next t ∧ Launched s x q.d every x.st.em la (q.res (readyOf s x q.d)) (fpBits (readyOf s x q.d) (q.fl (readyOf s x q.d))) t) ∧
  (∀ (i : Instr) (q : FpRule) (s : State) (x : Who) (b : Nat), fpRule i = some q → Clear s x → OperandsOk s x q.d → b < 5 →
    (acrFtrap x.d.csrs.acr).testBit b = true →
    maskWhere (readyOf s x q.d).counted (fun l => (q.fl (readyOf s x q.d) l).testBit b) ≠ 0 →
    (∀ c, c < b → (acrFtrap x.d.csrs.acr).testBit c = true →
      maskWhere (readyOf s x q.d).counted (fun l => (q.fl (readyOf s x q.d) l).testBit c) = 0) →
    exec i s = .next (s.trapAt x.wid x.sid
      { cause := 0x1A + b, lanes := maskWhere (readyOf s x q.d).counted (fun l => (q.fl (readyOf s x q.d) l).testBit b) }))

/-- R71, R75-R80, R83, R85, R89: what floating arithmetic computes, in FP32, FP16 and BF16. A magnitude is rounded to a multiple of a
power of two as the mode says; what is rounded to the format is the number that its code stands for, as long as it does not exceed the
largest finite one, with NX where it is inexact and UF where it is tiny as well; beyond that the overflow result stands, with OF and
NX. A NaN operand gives the first NaN, quieted, and IV where one signals; an invalid operation gives the default NaN and IV. Sums,
products, quotients and roots are those of the exact numbers, rounded once; comparisons are those of the numbers. -/
def Obligations.FloatingValues : Prop :=
  (∀ (md : Mode) (neg st : Bool) (m d k r : Nat) (e l : Int) (p : Nat × Bool), p = roundAt md neg m e l st →
    (l ≤ e → p = (m * 2 ^ (e - l).toNat, st)) ∧
    (e < l → d = (l - e).toNat → k = m / 2 ^ d → r = m % 2 ^ d →
      (p.2 = true ↔ r ≠ 0 ∨ st = true) ∧ (r = 0 → st = false → p.1 = k) ∧ (p.1 = k ∨ p.1 = k + 1) ∧
      ((md = .rne ∨ md = .rna) → (2 * r < 2 ^ d → p.1 = k) ∧ (2 ^ d < 2 * r → p.1 = k + 1) ∧ (2 ^ d = 2 * r → st = true → p.1 = k + 1)) ∧
      (2 ^ d = 2 * r → st = false → (md = .rne → p.1 % 2 = 0) ∧ (md = .rna → p.1 = k + 1)) ∧
      ((r ≠ 0 ∨ st = true) → (md = .rtz → p.1 = k) ∧ (md = .rdn → p.1 = if neg then k + 1 else k) ∧
        (md = .rup → p.1 = if neg then k else k + 1) ∧ ∀ n z, md = .rs n z → p.1 = if z < r * 2 ^ n / 2 ^ d then k + 1 else k))) ∧
  (∀ (f : FFmt) (md : Mode) (sat neg st : Bool) (m big : Nat) (e t l : Int) (p u : Nat × Bool), f ∈ [f32, f16, bf16] → m ≠ 0 →
    t = (bitLen m : Int) + e - (f.mb + 1) → l = max f.emin t → p = roundAt md neg m e l st → u = roundAt md neg m e t st →
    big = (2 ^ (f.mb + 1) - 1) * 2 ^ (2 ^ f.eb - 3) →
    (p.1 * 2 ^ (l - f.emin).toNat ≤ big →
      (∃ (c : Nat) (i : Int), fdec f (fround f md sat neg m e st).val = .num neg c i ∧ f.emin ≤ i ∧
        c * 2 ^ (i - f.emin).toNat = p.1 * 2 ^ (l - f.emin).toNat) ∧
      (fround f md sat neg m e st).flags = (if p.2 then 16 + (if u.1 * 2 ^ (t - f.emin).toNat < 2 ^ (f.mb + (f.emin - t).toNat) then 8 else 0)
        else 0)) ∧
    (big < p.1 * 2 ^ (l - f.emin).toNat → (fround f md sat neg m e st).flags = 4 + 16 ∧
      ((sat = true ∨ md = .rtz ∨ (md = .rdn ∧ neg = false) ∨ (md = .rup ∧ neg = true)) →
        fdec f (fround f md sat neg m e st).val = .num neg (2 ^ (f.mb + 1) - 1) (f.emin + (2 ^ f.eb - 3 : Nat))) ∧
      (sat = false → md ≠ .rtz → ¬ (md = .rdn ∧ neg = false) → ¬ (md = .rup ∧ neg = true) →
        fdec f (fround f md sat neg m e st).val = .inf neg))) ∧
  (∀ (f : FFmt) (md : Mode) (b c : FVal) (n sig : Bool) (fr : Nat), f ∈ [f32, f16, bf16] → fr < 2 ^ 23 →
    nanCode f n fr = (if n then 2 ^ (f.eb + f.mb) else 0) + (2 ^ f.eb - 1) * 2 ^ f.mb + ((fr / 2 ^ (23 - f.mb)) ||| 2 ^ (f.mb - 1)) ∧
    (∀ a, a = .nan n fr sig →
      faddV f md a b = ⟨nanCode f n fr, if sig || b.isSnan then 1 else 0⟩ ∧ fmulV f md a b = ⟨nanCode f n fr, if sig || b.isSnan then 1 else 0⟩ ∧
      (fmaV f md a b c).val = nanCode f n fr ∧ fdivV f a b = ⟨nanCode f n fr, if sig || b.isSnan then 1 else 0⟩ ∧
      (b.isNan = false → faddV f md b a = ⟨nanCode f n fr, if sig then 1 else 0⟩ ∧ fmulV f md b a = ⟨nanCode f n fr, if sig then 1 else 0⟩ ∧
        (fmaV f md b a c).val = nanCode f n fr ∧ (c.isNan = false → (fmaV f md b c a).val = nanCode f n fr)))) ∧
  (∀ (f : FFmt) (md : Mode) (n n' : Bool) (e : Int), f ∈ [f32, f16, bf16] →
    faddV f md (.inf n) (.inf (!n)) = ⟨f.dfltNan, 1⟩ ∧ fmulV f md (.inf n) (.num n' 0 e) = ⟨f.dfltNan, 1⟩ ∧
    fmulV f md (.num n' 0 e) (.inf n) = ⟨f.dfltNan, 1⟩ ∧ fdivV f (.inf n) (.inf n') = ⟨f.dfltNan, 1⟩ ∧ fdivV f (.num n 0 e) (.num n' 0 e) = ⟨f.dfltNan, 1⟩ ∧
    (∀ c : FVal, (fmaV f md (.inf n) (.num n' 0 e) c).flags = 1) ∧ fsqrtV f (.inf true) = ⟨f.dfltNan, 1⟩) ∧
  (f32.dfltNan = 0x7FC00000 ∧ f16.dfltNan = 0x7E00 ∧ bf16.dfltNan = 0x7FC0) ∧
  (∀ (f : FFmt) (md : Mode) (n1 n2 : Bool) (m1 m2 : Nat) (e1 e2 e : Int) (x y : Int), e = min e1 e2 → x = atExp n1 m1 e1 e → y = atExp n2 m2 e2 e →
    (x + y ≠ 0 → faddV f md (.num n1 m1 e1) (.num n2 m2 e2) = froundNum f md false (decide (x + y < 0)) (x + y).natAbs e) ∧
    (x + y = 0 → faddV f md (.num n1 m1 e1) (.num n2 m2 e2) =
      ⟨if (if x = 0 ∧ n1 = n2 then n1 else decide (md = .rdn)) then 2 ^ (f.eb + f.mb) else 0, 0⟩) ∧
    fmulV f md (.num n1 m1 e1) (.num n2 m2 e2) = froundNum f md false (n1 != n2) (m1 * m2) (e1 + e2) ∧
    (∀ c : FVal, c.isNan = false →
      fmaV f md (.num n1 m1 e1) (.num n2 m2 e2) c = faddV f md (.num (n1 != n2) (m1 * m2) (e1 + e2)) c) ∧
    (m1 ≠ 0 → m2 = 0 → fdivV f (.num n1 m1 e1) (.num n2 m2 e2) = ⟨f.infCode + (if n1 != n2 then 2 ^ (f.eb + f.mb) else 0), 2⟩) ∧
    (m1 ≠ 0 → m2 ≠ 0 → ∃ q k st, fdivV f (.num n1 m1 e1) (.num n2 m2 e2) = fround f .rne false (n1 != n2) q (e1 - e2 - (k : Nat)) st ∧
      q * m2 ≤ m1 * 2 ^ k ∧ m1 * 2 ^ k < (q + 1) * m2 ∧ (st = true ↔ q * m2 ≠ m1 * 2 ^ k) ∧ 2 ^ (f.mb + 3) ≤ q) ∧
    (m1 ≠ 0 → ∃ (q k : Nat) (st : Bool) (i : Int), fsqrtV f (.num false m1 e1) = fround f .rne false false q i st ∧ 2 * i + k = e1 ∧
      q * q ≤ m1 * 2 ^ k ∧ m1 * 2 ^ k < (q + 1) * (q + 1) ∧ (st = true ↔ q * q ≠ m1 * 2 ^ k) ∧ 2 ^ (f.mb + 3) ≤ q) ∧
    (m1 ≠ 0 → fsqrtV f (.num true m1 e1) = ⟨f.dfltNan, 1⟩) ∧
    (fcmpV .eq (.num n1 m1 e1) (.num n2 m2 e2) = (decide (x = y), 0) ∧ fcmpV .ne (.num n1 m1 e1) (.num n2 m2 e2) = (decide (x ≠ y), 0) ∧
      fcmpV .lt (.num n1 m1 e1) (.num n2 m2 e2) = (decide (x < y), 0) ∧ fcmpV .le (.num n1 m1 e1) (.num n2 m2 e2) = (decide (x ≤ y), 0) ∧
      fcmpV .gt (.num n1 m1 e1) (.num n2 m2 e2) = (decide (x > y), 0) ∧ fcmpV .ge (.num n1 m1 e1) (.num n2 m2 e2) = (decide (x ≥ y), 0)))

/-- R114-R119: the cross-lane instructions, and the counts of masks, complete for their participants. -/
def Obligations.CrossLaneCompletes : Prop :=
  ∀ (i : Instr) (q : LaneRule) (s : State) (x : Who), laneRule i = some q → Clear s x →
    OperandsOk s x q.d (q.acc x) (q.only x) →
    noFpTrap (readyOf s x q.d (q.only x)) (q.fl (readyOf s x q.d (q.only x))) →
    ∃ t, exec i s = .next t ∧ Finished s x q.d (q.only x) (readyOf s x q.d (q.only x)).em
      (q.res (readyOf s x q.d (q.only x)))
      (fpBits (readyOf s x q.d (q.only x)) (q.fl (readyOf s x q.d (q.only x)))) t

/-- R13, R14, R112, R127, R143, R145, R147, R224, R319, R338: operands that are not in order, for the instructions of classes 0 to 3 and 5
that take their operands at once, in the order of the checks (log 16). A queue code in a callee, in the wrong direction, or of a closed
queue to push to traps with cause 0x2C; a scalar destination of a pair in use, with 0x2E; a queue that is not ready is waited for. Lanes
that an index, a granule on the engine side, an invalid word or a closed queue strikes trap, if ACR or a gate call says so, with the lowest
of 0x20, 0x21 and 0x22 and the lanes it struck; else they are quenched: FMASK and QKIND record them, they leave EM and the membership, the
others get their results, and a strand left without lanes ends. A poisoned word that a lane consumes traps with cause 0x50. -/
def Obligations.OperandChecks : Prop :=
  (∀ (s : State) (x : Who) (i : Instr) (d : OpD) (acc : OwnOf) (only : Mask), Clear s x → operandsOf s x i = some (d, acc, only) →
    (∀ f, i = .waita f → waitaOk f = true ∧ x.st.em ≠ 0) →
    let traps (t : Trap) : Prop := exec i s = .next (s.trapAt x.wid x.sid t)
    (x.st.dom ≠ 0 → (∃ p ∈ d.srcs ++ d.dst.toList, ∃ k, p.1 = .q k) → traps { cause := 0x2C, lanes := x.st.em, detail := 2 }) ∧
    (x.st.dom = 0 → ((∃ p ∈ d.srcs, ∃ k, p.1 = .q k ∧ 4 ≤ k.val) ∨ ∃ k n, d.dst = some (.q k, n) ∧ k.val < 4) →
      traps { cause := 0x2C, lanes := x.st.em }) ∧
    (x.st.dom = 0 → (∀ p ∈ d.srcs, ∀ k, p.1 = .q k → k.val < 4) → ∀ k n, d.dst = some (.q k, n) → 4 ≤ k.val → x.st.em ≠ 0 →
      (x.w.queues.getD k.val ⟨[], false⟩).closed = true → traps { cause := 0x2C, lanes := x.st.em, detail := 1 }) ∧
    (queueFault x d = none →
      (busyDst s x d = true → traps { cause := 0x2E, lanes := x.st.em, detail := 3 }) ∧
      (busyDst s x d = false → queueWait x d = true → exec i s = .next (s.park x.wid x.sid .queue)) ∧
      (busyDst s x d = false → queueWait x d = false → d.pushes = true → s.unfinished x.agent = true →
        exec i s = .next (s.park x.wid x.sid .release))) ∧
    (Issues s x d acc only → ∀ m : Nat → Mask, Struck s x d acc only m →
      ((x.d.csrs.acr.getLsbD 24 = true ∨ x.st.dom ≠ 0) →
        (m 0 ≠ 0 → traps { cause := 0x20, lanes := m 0 }) ∧
        (m 0 = 0 → m 1 ||| m 3 ≠ 0 → traps { cause := 0x21, lanes := m 1 ||| m 3, detail := if m 3 = 0 then 0 else 4 }) ∧
        (m 0 = 0 → m 1 ||| m 3 = 0 → m 2 ≠ 0 → traps { cause := 0x22, lanes := m 2 })) ∧
      ((∀ k, m k = 0) → ∀ (p : Mask) (l a : Nat) (pre post : List Nat),
        (∀ j, p.getLsbD j = true ↔ (x.st.em &&& only).getLsbD j = true ∧
          ∃ w ∈ laneConsumes x d j ++ (acc (readyOf s x d only) j).reads, (s.core x.core).mark w ≠ 0) →
        lowLane p = some l → laneConsumes x d l ++ (acc (readyOf s x d only) l).reads = pre ++ a :: post →
        (∀ w ∈ pre, (s.core x.core).mark w = 0) → (s.core x.core).mark a ≠ 0 →
        traps { cause := 0x50, lanes := p, addr := a, detail := (s.core x.core).mark a }))) ∧
  ∀ (s : State) (x : Who) (i : Instr) (q : IntRule) (m : Nat → Mask) (gone left : Mask) (r : Ready), Clear s x → intRule i = some q →
    q.la = none → x.st.dom = 0 → x.sid ≠ 16 → x.d.csrs.acr.getLsbD 24 = false → Issues s x q.d (fun _ _ => OwnAcc.none) every →
    Struck s x q.d (fun _ _ => OwnAcc.none) every m → gone = m 0 ||| m 1 ||| m 2 ||| m 3 → gone ≠ 0 → left = x.st.em &&& ~~~gone →
    r = ⟨s, x, q.d, left, (List.range 4).map fun k => (k, m k), popEntries x.w.queues q.d.srcs⟩ →
    (∀ l ∈ lanesOf left, ∀ w ∈ laneConsumes x q.d l, (s.core x.core).mark w = 0) → noIntTrap x (q.dz r) (q.ov r) →
    ∃ (u : State) (v : Warp) (e : Dom) (st : Strand), exec i s = .next (if x.st.mem &&& ~~~gone = 0 then u.endStrand x.wid x.sid else u) ∧
      Tbl.find u.warps x.wid = some v ∧ v.dom 0 = some e ∧ e.csrs.fmask = x.d.csrs.fmask ||| gone ∧
      (∀ k, k < 4 → e.csrs.qkind.getLsbD k = (x.d.csrs.qkind.getLsbD k || decide (m k ≠ 0))) ∧
      Tbl.find v.strands x.sid = some st ∧ st.em = left ∧ st.mem = x.st.mem &&& ~~~gone ∧ st.pc = x.st.pc + 1 ∧
      CoreWritten (s.core x.core) (u.core x.core) (destAddrs x q.d left) ∧
      (∀ k n, q.d.dst = some (.v k, n) → ∀ l ∈ lanesOf left, ∀ j, j < n →
        (u.core x.core).word (x.d.lane x.width (k.val + j) l) = (q.res r l).getD j 0) ∧
      (left = 0 → v.queues = x.w.queues)

/-! ## Class 2 -/

/-- R34, R153, R154, R165-R168, R171: a load, atomic, `cas` or `waita` whose strand is clear, whose operands are in order and whose
accesses meet no condition of R158 issues: each lane in extent is part of a line request, a lane out of extent receives zeros, no
memory and no register changes yet. A `waita` needs a lane, and a DATA and WIDTH that R164 allows. A store under the same conditions
issues likewise: the strand moves on, and no memory changes before a request is performed. -/
def Obligations.AccessesIssue : Prop :=
  (∀ (i : Instr) (q : MemRule) (s : State) (x : Who), loadRule i = some q →
    (∀ f, i = .waita f → waitaOk f = true ∧ x.st.em ≠ 0) → Clear s x → OperandsOk s x q.d (q.own x) →
    MemOk s x (s.rcdOf x q.rcd) (q.kind (readyOf s x q.d)) q.scope (q.lanes (readyOf s x q.d)) q.off q.z →
    ∃ t, exec i s = .next t ∧
      AccessIssued s x q.d q.la (q.kind (readyOf s x q.d)) q.z q.sx q.acq
        (partsOf s x (q.part (readyOf s x q.d)) (inExtent (s.rcdOf x q.rcd) (q.lanes (readyOf s x q.d)) q.off q.z))
        (q.zeros (readyOf s x q.d) (inExtent (s.rcdOf x q.rcd) (q.lanes (readyOf s x q.d)) q.off q.z)) t) ∧
  ∀ (i : Instr) (q : MemRule) (s : State) (x : Who), storeRule i = some q → x.replaying = false → Clear s x →
    OperandsOk s x q.d (q.own x) (q.only x) →
    MemOk s x (s.rcdOf x q.rcd) (q.kind (readyOf s x q.d (q.only x))) q.scope (q.lanes (readyOf s x q.d (q.only x))) q.off q.z →
    ∃ t, exec i s = .next t ∧
      StoreIssued s x q.d q.z (partsOf s x (q.part (readyOf s x q.d (q.only x)))
        (inExtent (s.rcdOf x q.rcd) (q.lanes (readyOf s x q.d (q.only x))) q.off q.z)) t

/-- R158: an access through a malformed record traps with cause 0x40; one that the record does not grant, with cause 0x44; one at
scope system in a context without it, with cause 0x52; one through a record whose swizzle cannot be applied, with cause 0x43; each
with the lanes of EM, and in this order. R164: a `waita` whose DATA or WIDTH is not allowed traps with cause 0x46. -/
def Obligations.MemoryTraps : Prop :=
  (∀ (i : Instr) (q : MemRule) (s : State) (x : Who), (loadRule i = some q ∨ storeRule i = some q) → x.replaying = false →
    (∀ f, i = .waita f → waitaOk f = true ∧ x.st.em ≠ 0) → Clear s x → OperandsOk s x q.d (q.own x) (q.only x) →
    ((s.rcdOf x q.rcd).wf = false →
      exec i s = .next ((s.dropWalks x.agent).trapAt x.wid x.sid { cause := 0x40, lanes := x.st.em })) ∧
    (∀ d, (s.rcdOf x q.rcd).wf = true → (q.kind (readyOf s x q.d (q.only x))).lacks (s.rcdOf x q.rcd) = some d →
      exec i s = .next ((s.dropWalks x.agent).trapAt x.wid x.sid { cause := 0x44, lanes := x.st.em, detail := d })) ∧
    ((s.rcdOf x q.rcd).wf = true → (q.kind (readyOf s x q.d (q.only x))).lacks (s.rcdOf x q.rcd) = none → q.scope = .system →
      ((Tbl.find s.ctxs x.d.ctx).any Context.sys) = false →
      exec i s = .next ((s.dropWalks x.agent).trapAt x.wid x.sid { cause := 0x52, lanes := x.st.em })) ∧
    ((s.rcdOf x q.rcd).wf = true → (q.kind (readyOf s x q.d (q.only x))).lacks (s.rcdOf x q.rcd) = none →
      (q.scope = .system → ((Tbl.find s.ctxs x.d.ctx).any Context.sys) = true) → (s.rcdOf x q.rcd).swzBad = true →
      exec i s = .next ((s.dropWalks x.agent).trapAt x.wid x.sid { cause := 0x43, lanes := x.st.em }))) ∧
  ∀ (f : MemF) (s : State) (x : Who), Clear s x → waitaOk f = false →
    exec (.waita f) s = .next (s.trapAt x.wid x.sid { cause := 0x46, lanes := x.st.em })

/-- R107, R171: a `waita` of a strand without lanes only moves on. R170: a fence moves on once every access of its strand is
performed and acknowledged, and waits till then. R368: it draws 64 B from its class, which holds it back for want of them; that the
port is `Config.fencePort` is the model's choice (log 97), and so is the trap of a scope that the context lacks (log 95). R172: a prefetch through a well-formed record completes: the strand moves on, and no
byte, word, mark or request changes. -/
def Obligations.FencesAndPrefetch : Prop :=
  (∀ (s : State) (x : Who), Clear s x →
    (∀ f, waitaOk f = true → x.st.em = 0 →
      OperandsOk s x { srcs := [(f.data, 4), (f.idx, 1)], dst := some (f.data, 4), carry := [0] }
        (fun r l => if l = r.low then ⟨false, srcAddrs x f.data 3 l, []⟩ else OwnAcc.none) →
      ∃ t, exec (.waita f) s = .next t ∧ Moved s x 1 t) ∧
    (∀ f : FenceF, f.scope = .system → ((Tbl.find s.ctxs x.d.ctx).any Context.sys) = false →
      exec (.fence f) s = .next (s.trapAt x.wid x.sid { cause := 0x52, lanes := x.st.em })) ∧
    ∀ f : FenceF, (f.scope = .system → ((Tbl.find s.ctxs x.d.ctx).any Context.sys) = true) →
      (s.settled x.agent = true → s.weirOpen (Config.fencePort s.tick) (s.classOf x.agent) 64 = true →
        ∃ t, exec (.fence f) s = .next t ∧ Moved (s.weirDraw (Config.fencePort s.tick) (s.classOf x.agent) 64) x 1 t) ∧
      (s.settled x.agent = true → s.weirOpen (Config.fencePort s.tick) (s.classOf x.agent) 64 = false →
        exec (.fence f) s = .next ((s.backPressure (Config.fencePort s.tick) (s.classOf x.agent)).park x.wid x.sid .fence)) ∧
      (s.settled x.agent = false → exec (.fence f) s = .next (s.park x.wid x.sid .fence))) ∧
  ∀ (f : PfchF) (s : State) (x : Who), Clear s x → OperandsOk s x { srcs := [(f.idx, 1)] } → (s.rcdOf x f.rcd).wf = true →
    (f.scope = .system → ((Tbl.find s.ctxs x.d.ctx).any Context.sys) = true) →
    ∃ t, exec (.pfch f) s = .next t ∧ t = { s with cores := t.cores, warps := t.warps, faults := t.faults } ∧
      (∀ c, ∃ l, t.core c = { s.core c with tlb := l }) ∧ (∀ w, w ≠ x.wid → Tbl.find t.warps w = Tbl.find s.warps w) ∧
      Tbl.find t.warps x.wid = some
        { x.w with queues := popped s x { srcs := [(f.idx, 1)] }, strands := Tbl.upd x.w.strands x.sid fun st => st.advance 1 }

/-- R173: `brld` puts the record found in memory into its slot, `brmk` the derived one; each moves on. -/
def Obligations.RecordsWritten : Prop :=
  ∀ (s : State) (x : Who), Clear s x → x.st.dom = 0 →
    (∀ (f : BrldF) (r : Ready) (pa : Nat), r = readyOf s x { srcs := [(f.idx, 1)] } → OperandsOk s x { srcs := [(f.idx, 1)] } →
      r.val 0 r.low < x.d.nrec → (s.translate x.core x.d.ctx (x.d.recp + 32 * r.val 0 r.low)).need .read = .ok pa →
      Rcd.wf (BitVec.ofNat 256 (s.readNat pa 32)) = true →
      ∃ t, exec (.brld f) s = .next t ∧ RcdWritten s x { srcs := [(f.idx, 1)] } f.rcd (BitVec.ofNat 256 (s.readNat pa 32)) t) ∧
    ∀ (f : BrmkF) (r : Ready) (o e : Nat), r = readyOf s x { srcs := [(.s f.k, 4)] } → OperandsOk s x { srcs := [(.s f.k, 4)] } →
      o = r.num 0 0 2 r.low → e = r.num 0 2 2 r.low → (s.rcdOf x f.src).wf = true → o + e ≤ (s.rcdOf x f.src).extent →
      ((s.rcdOf x f.src).swz ≠ 0 → o % (8 * (s.rcdOf x f.src).rl * (s.rcdOf x f.src).stride) = 0) →
      ∃ t, exec (.brmk f) s = .next t ∧ RcdWritten s x { srcs := [(.s f.k, 4)] } f.rcd (brmkRcd (s.rcdOf x f.src) f o e) t

/-- R165, R178: lanes of a store that are due are performed: every byte that one of them covers alone holds that lane's byte, every byte
that none covers is as before, and the request goes on with the lanes that are left, or stands as performed until it is
acknowledged. R9, R35, R165: lanes of a load that are due are performed: memory is unchanged, the words read, extended as the
instruction says and with the marks of their lines, stand with the long-latency instruction, which is complete in its values once no
request of it is outstanding, and the request is gone with its last lane. -/
def Obligations.AccessesPerformed : Prop :=
  (∀ (s : State) (id : Nat) (a : Access) (order : List Nat), RequestDue s id a order → a.kind = .store →
    ∃ t, exec (.memoryAccessPerformed id order) s = .next t ∧
      (leftOf a order = [] → Tbl.find t.accs id = some { a with done := true }) ∧
      (leftOf a order ≠ [] → Tbl.find t.accs id = some { a with lanes := leftOf a order }) ∧
      (∀ b, (∀ l ∈ (taken a order).lanes, ¬ l.covers b) → Memory.read t.mem b = Memory.read s.mem b) ∧
      ∀ l ∈ (taken a order).lanes, ∀ b, l.covers b → (∀ m ∈ (taken a order).lanes, m ≠ l → ¬ m.covers b) →
        Memory.read t.mem b = l.bytes.getD (b - l.pa) 0) ∧
  ∀ (s : State) (id : Nat) (a : Access) (order : List Nat) (w i p : Nat), RequestDue s id a order → a.kind = .load → a.agent = .strand w i →
    a.pend = some p →
    ∃ t, exec (.memoryAccessPerformed id order) s = .next t ∧ t.mem = s.mem ∧ t.mmarks = s.mmarks ∧
      (leftOf a order = [] → t.accs = Tbl.del s.accs id) ∧
      (leftOf a order ≠ [] → t.accs = Tbl.upd s.accs id fun a => { a with lanes := leftOf a order }) ∧
      t.warps = Tbl.upd s.warps w fun v =>
        { v with strands := Tbl.upd v.strands i fun st =>
            st.received p (loadedWords s a order) (decide (leftOf a order = []) && !othersOpen s id p) }

/-- R166, R168: an atomic or `cas` of one lane that is due is performed: the location holds the new value, every other byte is as before,
and the lane receives the old one, with the mark of its line: its words stand with the strand's long-latency instruction, once the
line's waiters have been evaluated again (R171). R166: what the new value is. -/
def Obligations.AtomicPerformed : Prop :=
  (∀ (s : State) (id : Nat) (a : Access) (l : LaneAcc) (order : List Nat) (new : Nat), RequestDue s id a order → a.lanes = [l] →
    ((∃ op, a.kind = .atom op ∧ new = atomNew op a.sx a.size (s.readNat l.pa a.size) l.val) ∨
      (a.kind = .cas ∧ new = if s.readNat l.pa a.size = l.val then l.val2 else s.readNat l.pa a.size)) →
    ∃ t u, exec (.memoryAccessPerformed id order) s = .next t ∧
      t.readBytes l.pa a.size = leBytes a.size new ∧
      (∀ b, (b < l.pa ∨ l.pa + a.size ≤ b) → Memory.read t.mem b = Memory.read s.mem b) ∧
      u = ((drawn s a order).writeNat l.pa a.size new).wake (l.pa / 256) ∧ t.accs = Tbl.del u.accs id ∧
      ∀ w i p, a.agent = .strand w i → a.pend = some p → t.warps = Tbl.upd u.warps w fun v =>
        { v with strands := Tbl.upd v.strands i fun st =>
            st.received p (l.results (valueWords a.size false (s.readNat l.pa a.size)) (s.lineMark l.pa)) (!othersOpen u id p) }) ∧
  ∀ (sx : Bool) (z : Nat) (a b : BitVec (8 * z)),
    atomNew .add sx z a.toNat b.toNat = (a + b).toNat ∧ atomNew .and sx z a.toNat b.toNat = (a &&& b).toNat ∧
    atomNew .or sx z a.toNat b.toNat = (a ||| b).toNat ∧ atomNew .xor sx z a.toNat b.toNat = (a ^^^ b).toNat ∧
    atomNew .exch sx z a.toNat b.toNat = b.toNat ∧
    atomNew .min sx z a.toNat b.toNat = (if (if sx then b.slt a else b.ult a) then b else a).toNat ∧
    atomNew .max sx z a.toNat b.toNat = (if (if sx then a.slt b else a.ult b) then b else a).toNat ∧
    atomNew .inc sx z a.toNat b.toNat = (if b.ule a then 0 else a + 1).toNat

/-- R34, R35: a long-latency instruction whose results are known and whose queue has room completes: its words hold them with their
marks, the rest of its core's words follow R125, its entries are pushed, the ACR of the domain that issued it gains its bits (R337), and
nobody waits for it any more; a strand that waits for it alone to end ends (R111). Some of its words may land before that (R35): which,
the event says. -/
def Obligations.LongLatencyCompletes : Prop :=
  ∀ (s : State) (x : Who) (w i op : Nat) (p : Pend), s.strandAt w i = some x →
    (x.st.pends.find? fun p => p.id == op && p.own) = some p → p.ready = true → x.w.hasRoom p.push = true →
    (∃ t : State, exec (.longLatencyCompletion (.strand w i) op []) s = .next (t.endDone w i) ∧ t = { s with cores := t.cores, warps := t.warps } ∧
      (∀ c, c ≠ x.core → t.core c = s.core c) ∧
      CoreWritten (s.core x.core) (t.core x.core) (p.wrs.map RegWrite.addr) ∧
      (∀ r ∈ p.wrs, (∀ r' ∈ p.wrs, r'.addr = r.addr → r' = r) →
        (t.core x.core).word r.addr = r.val ∧ (t.core x.core).mark r.addr = r.mark) ∧
      (∀ v, v ≠ w → Tbl.find t.warps v = Tbl.find s.warps v) ∧
      Tbl.find t.warps w = some
        { x.w with
          queues := pushed x.w.queues p.push
          doms := Tbl.upd x.w.doms p.dom fun d => d.sticky p.sticky
          strands := Tbl.mapVals x.w.strands fun _ st => { st with pends := st.pends.filter fun q => q.id != op } } ∧
      ((∀ n, x.st.parked ≠ some (.ended, n)) → t.endDone w i = t)) ∧
    ∀ early : List Nat, early ≠ [] →
      ∃ t, exec (.longLatencyCompletion (.strand w i) op early) s = .next t ∧ t = { s with cores := t.cores, warps := t.warps } ∧
        (∀ c, c ≠ x.core → t.core c = s.core c) ∧
        CoreWritten (s.core x.core) (t.core x.core) ((someOf p.wrs fun n => early.contains n).map RegWrite.addr) ∧
        (∀ v, v ≠ w → Tbl.find t.warps v = Tbl.find s.warps v) ∧
        Tbl.find t.warps w = some
          { x.w with strands := Tbl.upd x.w.strands i fun st => { st with pends := st.pends.map fun q =>
              if q.id = op then { q with wrs := someOf p.wrs fun n => !early.contains n } else q } }

/-- R23, R147, R157, R158, R165, R171: the further events of memory take place when they are due: a performed store is
acknowledged; a walk that the die runs ends, with a translation that enters the TLB or with a cause; one that has run for 100 µs ends
with cause 0x4D; a `waita` whose timeout has passed completes
with status 2; a strand that has waited at a queue for 2^20 cycles traps with cause 0x2D. -/
def Obligations.MemoryEventsHappen : Prop :=
  ∀ (s : State),
    (∀ id a, Tbl.find s.accs id = some a → a.kind = .store → a.done = true →
      exec (.storeAcknowledged id) s = .next { s with accs := Tbl.del s.accs id }) ∧
    (∀ id w, Tbl.find s.walks id = some w →
      (((s.walks.filter fun p => dieOf p.2.core == dieOf w.core && p.2.ended.isNone).map Prod.fst).take 256).contains id = true → s.isOut w.ctx = false →
      (((s.tlbHit w.core w.ctx w.va).isSome = true ∨ ∀ c d, s.walk w.ctx w.va ≠ .bad c d) →
        exec (.pageWalk id) s = .next ((({ s with walks := Tbl.del s.walks id } : State).fillTlb w.core w.ctx w.va).walkDone w.agent)) ∧
      (∀ c d, s.tlbHit w.core w.ctx w.va = none → s.walk w.ctx w.va = .bad c d →
        exec (.pageWalk id) s = .next (({ s with walks := Tbl.put s.walks id { w with ended := some (c, d) } } : State).walkDone w.agent))) ∧
    (∀ id w, Tbl.find s.walks id = some w → w.ended = none → w.since + 70000 ≤ s.time → s.isOut w.ctx = false →
      exec (.walkTimeout id) s = .next (({ s with walks := Tbl.put s.walks id { w with ended := some (0x4D, 0) } } : State).walkDone w.agent)) ∧
    (∀ a w, (s.waiters.find? fun w => (Tbl.find s.accs w.acc).any fun p => p.agent == a && match p.kind with
        | .waita t => decide (0 < t) && decide (p.since + t ≤ s.time)
        | _ => false) = some w →
      exec (.waitaTimeout a) s = .next (s.endWaita w.acc (s.waitWord w) 2)) ∧
    ∀ w i x t, s.strandAt w i = some x → x.st.parked = some (.queue, t) → t + 2 ^ 20 ≤ s.time → s.strandAwake x = true →
      exec (.queueWaitWatchdog (.strand w i)) s = .next (s.trapAt w i { cause := 0x2D, lanes := x.st.em, atHeader := x.st.clause.isNone })

/-! ## Class 3 -/

/-- R128, R130, R131, R134, R148: the instructions of class 3 that only read complete with the words of the frame, the tile, the granule's
bits or the queue's state in their destination. R131: `fmask` puts FMASK into all W bits of the mask and moves on. `stx` and `tset` write
the words that their lanes name, the highest lane last, and move on. -/
def Obligations.FrameAccesses : Prop :=
  (∀ (i : Instr) (q : LaneRule) (s : State) (x : Who), frameRule s x i = some q → Clear s x → OperandsOk s x q.d (q.acc x) →
    ∃ t, exec i s = .next t ∧ Finished s x q.d every x.st.em (q.res (readyOf s x q.d)) 0 t) ∧
  (∀ (m : MReg) (s : State) (x : Who), Clear s x →
    exec (.fmask m) s = .next ((s.updDom x.wid x.st.dom fun k =>
      k.setMask m ((k.mask m &&& ~~~fullMask x.width) ||| (k.csrs.fmask &&& fullMask x.width))).skip x)) ∧
  ∀ (i : Instr) (q : StxRule) (s : State) (x : Who), stxRule s x i = some q → Clear s x →
    OperandsOk s x q.d (fun r l => writesAt (q.at_ r l)) →
    ∃ t, exec i s = .next t ∧ WordsWritten s x q.d (q.words (readyOf s x q.d)) t

/-- R133, R135, R136, R139: tiles and windows. `talloc` takes the lowest free run, and the tile is named by its slot; `tfree` frees
it; `wexp` puts the window into a free slot and returns its handle; `wrev` frees the slot and advances its generation; `wgrant` adds
a grant for the next `gcall`. Which free run and which free slot is the model's choice (log 6). -/
def Obligations.TilesAndWindows : Prop :=
  ∀ (s : State) (x : Who), Clear s x →
    (∀ (f : TallocF) (a g : Nat) (t : Tile), UOk s x [(f.a, 1), (f.b, 1)] → a = uVal s x [(f.a, 1), (f.b, 1)] none 0 → a < 32 →
      shapeTile (uVal s x [(f.a, 1), (f.b, 1)] none 1) = some t → s.tileAt x.w 8 x.st.dom a = none →
      (s.core x.core).findRun t.granules = some g →
      exec (.talloc f) s = .next ((((uState s x [(f.a, 1), (f.b, 1)]).setCore x.core
        ((s.core x.core).withTile t g f.z s.tick)).setTile x.wid x.w x.st.dom a (some { t with gran := g })).advance x.wid x.sid 1)) ∧
    (∀ (f : TfreeF) (a : Nat) (t : Tile), UOk s x [(f.a, 1)] → a = uVal s x [(f.a, 1)] none 0 → a < 32 →
      (∃ k, s.tileAt x.w 8 x.st.dom a = some (x.st.dom, k, t)) →
      (∀ i, i < t.granules → ((s.core x.core).gran (t.gran + i)).inf = false ∧ ((s.core x.core).gran (t.gran + i)).own = false) →
      x.w.tileMapped x.st.dom a = false →
      (x.st.dom = 0 → ∀ c, Tbl.find s.crews x.w.crew = some c → ∀ i ∈ c.warps, ∀ w, Tbl.find s.warps i = some w → w.tileMapped 0 a = false) →
      exec (.tfree f) s = .next ((((uState s x [(f.a, 1)]).updCore x.core fun c => c.free t.gran t.granules).setTile
        x.wid x.w x.st.dom a none).advance x.wid x.sid 1)) ∧
    (∀ (f : WexpF) (k n slot : Nat), UOk s x [(f.a, 1), (f.b, 1)] (some (f.d, 1)) → k = uVal s x [(f.a, 1), (f.b, 1)] (some (f.d, 1)) 0 →
      n = uVal s x [(f.a, 1), (f.b, 1)] (some (f.d, 1)) 1 → (f.l = true → (pairCode f.c).isSome = true) → 0 < n → k + n ≤ x.d.fv →
      (s.core x.core).freeSlot = some slot →
      ∃ u, Finished s x (uD [(f.a, 1), (f.b, 1)] (some (f.d, 1))) every x.st.em
          (fun _ => [handleOf x.core slot (Sparse.read 0 (s.core x.core).gens slot % 16384)]) 0 u ∧
        exec (.wexp f) s = .next (u.updCore x.core fun c =>
          c.withWin slot (wexpWin x f k n (Sparse.read 0 (s.core x.core).gens slot % 16384)))) ∧
    (∀ (f : WrevF) (h : Word) (c slot : Nat) (w : Win), UOk s x [(f.a, 1)] → h = (readyOf s x (uD [(f.a, 1)])).word 0 0 (readyOf s x (uD [(f.a, 1)])).low →
      s.window (dieOf x.core) h = some (c, slot, w) → w.warp = x.wid → w.dom = x.st.dom → s.winBusy c slot = false →
      exec (.wrev f) s = .next (((uState s x [(f.a, 1)]).updCore c fun k => k.revoke slot).advance x.wid x.sid 1)) ∧
    (∀ (f : WgrantF) (a b : Nat), UOk s x [(f.a, 1), (f.b, 1)] → f.tile = true → a = uVal s x [(f.a, 1), (f.b, 1)] none 0 →
      b = uVal s x [(f.a, 1), (f.b, 1)] none 1 → a < 32 → b < 32 → (s.tileAt x.w 8 x.st.dom a).isSome = true → x.st.grants.length < 4 →
      exec (.wgrant f) s = .next (((uState s x [(f.a, 1), (f.b, 1)]).advance x.wid x.sid 1).updStrand x.wid x.sid fun st =>
        st.granted (.tile a b))) ∧
    ∀ (f : WgrantF) (h : Word) (c slot : Nat) (w : Win), UOk s x [(f.a, 1), (f.b, 1)] → f.tile = false →
      h = (readyOf s x (uD [(f.a, 1), (f.b, 1)])).word 0 0 (readyOf s x (uD [(f.a, 1), (f.b, 1)])).low →
      s.window (dieOf x.core) h = some (c, slot, w) → w.warp = x.wid → w.dom = x.st.dom →
      (f.r = true → w.r = true) → (f.w = true → w.w = true) → (f.l = true → w.l = true) → (f.r || f.w || f.l) = true →
      x.st.grants.length < 4 →
      exec (.wgrant f) s = .next (((uState s x [(f.a, 1), (f.b, 1)]).advance x.wid x.sid 1).updStrand x.wid x.sid fun st =>
        st.granted (.window h f.r f.w f.l))

/-- R140, R143, R144, R148, R201: granules, synchronisation words and queues. `give` hands granules to the engine side, which follows the warp's earlier
writes, once no admitted window access is at work on them, and waits till then; `take`
returns 1 and changes no granule while one has INF set, else 0 and takes them back; `waitg` moves on once the pair's generation has
been reached; `syncset` sets TGT, clears CNT and any pending fault; `qmark` closes an output queue. -/
def Obligations.HandoverAndSync : Prop :=
  ∀ (s : State) (x : Who), Clear s x →
    (∀ (f : GiveF) (l : List Nat), UOk s x [(f.a, 1), (f.b, 1)] →
      s.namedGrans x f.tile (uVal s x [(f.a, 1), (f.b, 1)] none 0) (uVal s x [(f.a, 1), (f.b, 1)] none 1) = .ok l →
      (∀ g ∈ l, ((s.core x.core).gran g).own = false) →
      ((∀ q ∈ s.wreqs, ∀ p ∈ q.2.words, p.2.done = false → p.1 = x.core → p.2.target / 128 ∉ l) →
        exec (.give f) s = .next (((uState s x [(f.a, 1), (f.b, 1)]).updCore x.core fun c =>
          c.handed l (s.warpWrites x.wid)).advance x.wid x.sid 1)) ∧
      ((∃ q ∈ s.wreqs, ∃ p ∈ q.2.words, p.2.done = false ∧ p.1 = x.core ∧ p.2.target / 128 ∈ l) →
        exec (.give f) s = .next (s.park x.wid x.sid .give))) ∧
    (∀ (f : TakeF) (l : List Nat), UOk s x [(f.a, 1), (f.b, 1)] (some (f.d, 1)) →
      s.namedGrans x f.tile (uVal s x [(f.a, 1), (f.b, 1)] (some (f.d, 1)) 0) (uVal s x [(f.a, 1), (f.b, 1)] (some (f.d, 1)) 1) = .ok l →
      ((∃ g ∈ l, ((s.core x.core).gran g).inf = true) →
        ∃ t, exec (.take f) s = .next t ∧ Finished s x (uD [(f.a, 1), (f.b, 1)] (some (f.d, 1))) every x.st.em (fun _ => [1]) 0 t) ∧
      ((∀ g ∈ l, ((s.core x.core).gran g).inf = false) →
        ∃ u, Finished s x (uD [(f.a, 1), (f.b, 1)] (some (f.d, 1))) every x.st.em (fun _ => [0]) 0 u ∧
          exec (.take f) s = .next (u.updCore x.core fun c => c.owned l false))) ∧
    (∀ (f : SyncF) (k : Nat) (hk : k < 48), pairCode f.a = some k → UOk s x [(.s ⟨k, hk⟩, 2), (f.b, 1)] → s.pendingOn x.wid x.st.dom k = none →
      genReached (syncGen (s.pair x.core x.d k)) (uVal s x [(.s ⟨k, hk⟩, 2), (f.b, 1)] none 1 % 65536) = true →
      exec (.waitg f) s = .next ((uState s x [(.s ⟨k, hk⟩, 2), (f.b, 1)]).advance x.wid x.sid 1)) ∧
    (∀ (f : SyncF) (k b : Nat) (hk : k < 48), pairCode f.a = some k → UOk s x [(.s ⟨k, hk⟩, 2), (f.b, 1)] →
      b = uVal s x [(.s ⟨k, hk⟩, 2), (f.b, 1)] none 1 → 0 < b → b ≤ 16777215 → s.pairBusy x.wid x.st.dom k = false →
      exec (.syncset f) s = .next ((((uState s x [(.s ⟨k, hk⟩, 2), (f.b, 1)]).setPair x.core x.d k
        (syncWord (syncGen (s.pair x.core x.d k)) b 0)).clearPending x.wid x.st.dom k).advance x.wid x.sid 1)) ∧
    ∀ (q : Fin 8), x.st.dom = 0 → 4 ≤ q.val →
      exec (.qmark q) s = .next ((s.updWarp x.wid fun w =>
        { w with queues := w.queues.set q.val { w.queues.getD q.val ⟨[], false⟩ with closed := true } }).skip x)

/-- R137, R138, R179: a window access that the exporters admit goes out; R128, R138, R186: of one that is due a word is performed, a write
at the exporter's word, a read of it, one that was not performed before; and with no word left the access is complete and its results
reach the issuer. -/
def Obligations.WindowAccesses : Prop :=
  (∀ (s : State) (x : Who) (f : WinF), Clear s x →
    (OperandsOk s x (winD false f) → Admitted s x false f → ∃ t, exec (.wrd f) s = .next t ∧ WindowIssued s x false f t) ∧
    (OperandsOk s x (winD true f) → Admitted s x true f → ∃ t, exec (.wwr f) s = .next t ∧ WindowIssued s x true f t)) ∧
  ∀ (s : State) (id : Nat) (q : WReq), Tbl.find s.wreqs id = some q → q.after.all s.performed = true →
    (∀ n, q.next n = none ↔ ∀ p ∈ q.words, p.2.done = true) ∧
    (∀ i core l, q.next (Config.eventChoice s.tick) = some i → q.words[i]? = some (core, l) → l.done = false ∧
      (q.write = true → exec (.windowRequest id) s = .next { s.warpWrite core l.target l.val l.mark with
        wreqs := Tbl.put s.wreqs id (q.put i core { l with done := true }) }) ∧
      (q.write = false → exec (.windowRequest id) s = .next { s with
        wreqs := Tbl.put s.wreqs id
          (q.put i core { l with val := (s.core core).word l.target, mark := (s.core core).mark l.target, done := true }) })) ∧
    (q.next (Config.eventChoice s.tick) = none → exec (.windowRequest id) s = .next (({ s with wreqs := Tbl.del s.wreqs id } : State).deliver
      q.agent (some q.pend) (if q.write then [] else q.words.map fun p => ⟨p.2.dst, p.2.val, p.2.mark⟩)))

/-- R107, R129, R283: an instruction with operands read once, or one of class 5 other than `hnext` and `waitpred`, of a strand without lanes
changes nothing but the PC. -/
def Obligations.NoLaneNoEffect : Prop :=
  ∀ (s : State) (x : Who), Clear s x → x.st.em = 0 →
    (∀ f, exec (.talloc f) s = .next (s.skip x)) ∧ (∀ f, exec (.tfree f) s = .next (s.skip x)) ∧ (∀ f, exec (.wexp f) s = .next (s.skip x)) ∧
    (∀ f, exec (.wrev f) s = .next (s.skip x)) ∧ (∀ f, exec (.wgrant f) s = .next (s.skip x)) ∧ (∀ f, exec (.give f) s = .next (s.skip x)) ∧
    (∀ f, exec (.take f) s = .next (s.skip x)) ∧ (∀ f, exec (.launch f) s = .next (s.skip x)) ∧ (∀ f, exec (.wdask f) s = .next (s.skip x)) ∧
    (∀ f, exec (.ringAcq f) s = .next (s.skip x)) ∧ (∀ f, exec (.ringCmt f) s = .next (s.skip x)) ∧
    (∀ f, exec (.ringRel f) s = .next (s.skip x)) ∧ (∀ f, exec (.ringPeek f) s = .next (s.skip x)) ∧
    (∀ f, exec (.gfire f) s = .next (s.skip x)) ∧ (∀ f, exec (.gnode f) s = .next (s.skip x)) ∧
    (∀ f, exec (.gcancel f) s = .next (s.skip x)) ∧ exec .yield s = .next (s.skip x) ∧ ∀ a, exec (.prio a) s = .next (s.skip x)

/-! ## What warps do together -/

/-- R120: an `xch` with its own warp as partner, or with a partner that has arrived in the same form, exchanges: both issue, and the lanes in
both EMs are to receive the partner's A; one whose partner has not arrived waits, and its arrival stands with its warp. R121, R122: a
`bar` parks its strand, whatever its EM; the only strand of its warp, at a `bar` that every other warp of the unit has reached or ended
before, is behind it once the barrier has released. R149: an `rrot` with which every crew of the braid has arrived, each with a tile of
one shape on the warp side, rotates the tiles; else it waits. -/
def Obligations.GangInstructions : Prop :=
  ∀ (s : State) (x : Who), Clear s x → x.st.dom = 0 →
    (∀ (f : XchF) (r : Ready) (pid : Nat) (pw : Warp), (∀ a, x.w.xchArr = some a → a.sid = x.sid) →
      OperandsOk s x (xchOps f.ty.wide f.d f.a) → r = readyOf s x (xchOps f.ty.wide f.d f.a) → s.xchPartner x.wid x.w = .ok (pid, pw) →
      (pid = x.wid → ∃ u, exec (.xch f) s = .next (u.exchanged x.wid) ∧
        Launched s x (xchOps f.ty.wide f.d f.a) every (x.st.em &&& fullMask x.width) f.la.toNat (fun l => r.wordsAt 0 (tyWords f.ty) l) 0 u) ∧
      (∀ a y, pid ≠ x.wid → pw.xchArr = some a → s.strandAt pid a.sid = some y → y.st.mem ≠ 0 → pw.wlog = x.w.wlog → a.wide = f.ty.wide →
        OperandsOk s y (xchOps a.wide a.d a.a) →
        ∃ u v m, exec (.xch f) s = .next ((v.exchanged x.wid).exchanged pid) ∧ m = x.st.em &&& y.st.em &&& fullMask x.width ∧
          Launched s x (xchOps f.ty.wide f.d f.a) every m f.la.toNat
            (fun l => (readyOf s y (xchOps a.wide a.d a.a)).wordsAt 0 (tyWords f.ty) l) 0 u ∧
          Launched u y (xchOps a.wide a.d a.a) every m a.la (fun l => r.wordsAt 0 (tyWords f.ty) l) 0 v) ∧
      (pid ≠ x.wid → pw.xchArr = none →
        exec (.xch f) s = .next ((s.setArr x.wid (some ⟨x.sid, (x.w.xchArr.map XchArr.since).getD s.time, f.ty.wide, f.d, f.a, f.la.toNat⟩)).park
          x.wid x.sid .xch))) ∧
    (∀ k, exec (.bar k) s = .next (s.parkAside x.wid x.sid (.bar k)) ∧
      ∀ (c : Crew), s.crewOf x.w = some c → x.w.strands = [(x.sid, x.st)] → x.w.deferred = [] → x.w.asides = [] → x.w.ended = false →
        s.undoneIds x.agent = [] → x.wid ∈ c.warps → (barKindOf c.superstep k = .ss → c.comm = true → s.spanQuiet c.span = true) →
        (∀ q ∈ s.barUnit x.w.crew c (barKindOf c.superstep k), q.2.rung = none ∧ q.2.rungQ = [] ∧
          ∀ i ∈ q.2.warps, i ≠ x.wid → ∀ v, Tbl.find s.warps i = some v → s.arrived i v c.superstep (barKindOf c.superstep k) = true) →
        (∃ q ∈ s.barUnit x.w.crew c (barKindOf c.superstep k), x.wid ∈ q.2.warps) →
        ∃ t u v st, exec (.bar k) s = .next t ∧ exec (.barrierRelease x.wid k) t = .next u ∧ Tbl.find u.warps x.wid = some v ∧
          Tbl.find v.strands x.sid = some st ∧ st.pc = x.st.pc + 1 ∧ st.em = x.st.em ∧ st.mem = x.st.mem ∧ st.parked = none) ∧
    ∀ (f : RrotF) (c : Crew) (t : Tile) (u : State), s.crewOf x.w = some c → x.w.winc = 0 →
      (∀ a, c.rrotArr = some a → a.sid = x.sid ∧ a.going = false) → Tbl.find c.tiles f.tile.val = some t →
      (∀ i, i < t.granules → ((s.core x.core).gran (t.gran + i)).own = false) →
      u = s.setRrot x.w.crew (some ⟨x.sid, f.tile.val, (c.rrotArr.map RrotArr.since).getD s.time, f.la.toNat, false, 0, [], []⟩) →
      (u.crewsWith fun q => q.braid == c.braid).length = dfield (u.descOf c) 424 422 + 1 →
      ((∀ q ∈ u.crewsWith fun q => q.braid == c.braid, (∃ a, q.2.rrotArr = some a ∧ a.going = false) ∧
          ∃ v, q.2.rrotTile = some v ∧ v.rows = t.rows ∧ v.cols = t.cols ∧ v.esz = t.esz) →
        ((u.crewsWith fun q => q.braid == c.braid).map Prod.fst).Nodup → ((u.crewsWith fun q => q.braid == c.braid).map fun q => q.2.warp0).Nodup →
        (∀ q ∈ u.crewsWith fun q => q.braid == c.braid, Tbl.find u.crews q.1 = some q.2) →
        ∃ v, exec (.rrot f) s = .next v ∧ Rotated u (u.crewsWith fun q => q.braid == c.braid) v) ∧
      ((∃ q ∈ u.crewsWith fun q => q.braid == c.braid, ∀ a, q.2.rrotArr = some a → a.going = true) →
        exec (.rrot f) s = .next (u.park x.wid x.sid .rrot))

/-- R120, R122, R123, R149: the events of gangs. A barrier at which every warp of its unit has arrived, while no crew of it stands at
the crew rung, releases them all, a `bar.ss` changing the step; a strand that has waited 2^24 cycles traps; an `xch` that has waited
14,000 cycles fails with cause 0x35, and so do the crews of an `rrot`; a tile that has been received flips. -/
def Obligations.GangEvents : Prop :=
  ∀ (s : State),
    (∀ (wid : Nat) (k : BarKind) (w : Warp) (c : Crew), Tbl.find s.warps wid = some w → s.crewOf w = some c →
      (∀ q ∈ s.barUnit w.crew c (barKindOf c.superstep k), q.2.rung = none ∧ q.2.rungQ = [] ∧ ∀ i ∈ q.2.warps, ∀ v, Tbl.find s.warps i = some v →
        s.arrived i v c.superstep (barKindOf c.superstep k) = true) →
      (∃ q ∈ s.barUnit w.crew c (barKindOf c.superstep k), ∃ i ∈ q.2.warps, ∃ v, Tbl.find s.warps i = some v ∧ v.ended = false) →
      (barKindOf c.superstep k ≠ .ss →
        exec (.barrierRelease wid k) s = .next (((s.barUnit w.crew c (barKindOf c.superstep k)).flatMap fun q => q.2.warps).foldl State.releaseWarp s)) ∧
      (barKindOf c.superstep k = .ss → (c.comm = true → s.spanQuiet c.span = true) →
        ∃ u, u = ((s.barUnit w.crew c (barKindOf c.superstep k)).flatMap fun q => q.2.warps).foldl State.releaseWarp s ∧
          exec (.barrierRelease wid k) s = .next { u with crews := Tbl.mapVals u.crews fun _ q => if q.span = c.span then { q with comm := !q.comm } else q })) ∧
    (∀ (w i t : Nat) (k : BarKind) (x : Who), s.strandAt w i = some x → x.st.parked = some (.bar k, t) → t + 2 ^ 24 ≤ s.time →
      s.strandAwake x = true → exec (.barrierTimeout (.strand w i)) s = .next (s.trapAt x.wid x.sid { cause := barCause k, lanes := x.st.em })) ∧
    (∀ (wid : Nat) (w : Warp) (a : XchArr), Tbl.find s.warps wid = some w → w.xchArr = some a → a.since + 14000 ≤ s.time →
      (∀ x, s.strandAt wid a.sid = some x → s.strandAwake x = true) → exec (.xchDeadline wid) s = .next (s.xchFail wid a.sid 0x35)) ∧
    (∀ (cid : Nat) (c : Crew), Tbl.find s.crews cid = some c →
      (∃ q ∈ s.crewsWith fun q => q.braid == c.braid, ∃ a, q.2.rrotArr = some a ∧ a.going = false ∧ a.since + 14000 ≤ s.time) →
      s.awake (s.crewCtx c) = true → exec (.rrotDeadline cid) s = .next (s.rrotFail (s.crewsWith fun q => q.braid == c.braid) 0x35)) ∧
    ∀ (cid : Nat) (c : Crew) (a : RrotArr) (t : Tile), Tbl.find s.crews cid = some c → c.rrotArr = some a → c.rrotTile = some t → a.going = true →
      ∃ u, exec (.rrotCompletion cid) s = .next u ∧
        (∀ d, d ≠ c.core → u.core d = s.core d) ∧
        (∀ i p, i < a.data.length → a.data[i]? = some p → (u.core c.core).word (t.word i) = p.1 ∧ (u.core c.core).mark (t.word i) = p.2) ∧
        (∀ i b, a.vals[i]? = some b → (u.core c.core).gran (t.gran + i) = ⟨false, false, b, true⟩) ∧
        Tbl.find u.crews cid = some { c with rrotArr := none, rrotDone := c.rrotDone + 1 }

/-! ## Class 4 -/

/-- R187, R196-R200, R207, R228, R233, R238: a class 4 instruction that passes every row of R198 and its own is accepted where its core's queue
holds fewer than 16 commands: the command takes the next sequence number and the scalars, records and tiles as they are, INF is set on
the granules it touches, the strand moves on, and nothing else changes; with a full queue the strand waits. A matrix command that passes
the rows of R233 is accepted and its accumulator's PROG becomes 0; a copy with THN set takes the `mma` behind it along: both are accepted
together, the second waiting for the first, where the queue has room for two and no lookahead window ends between them (R34), and
the strand moves on past both. -/
def Obligations.EngineCommandsIssue : Prop :=
  (∀ (i : Instr) (h : EHdr) (b : EngBody) (s : State) (x : Who), engInstr i = some (h, b) → Clear s x →
    (∀ f, b = .copy f → f.thn = false) → EngOk s x.iss h (engReads s x.iss b) (engChk s x.iss b) (engWrites b) → LastOk s x.iss h b →
    ((s.core x.core).cmds.length < 16 →
      ∃ t, Accepted s x.iss h b (engTake s x.iss b) (x.w.seqno + 1) none none t ∧ exec i s = .next (t.advance x.wid x.sid 2)) ∧
    (16 ≤ (s.core x.core).cmds.length → exec i s = .next (s.park x.wid x.sid .engine))) ∧
  (∀ (s : State) (x : Who) (h : EHdr) (m : MmaF) (a b : TDesc) (ct : Tile), Clear s x → EngOk s x.iss h (mmaReads m) (s.mmaChk x.iss m) →
    (MmaOk s x.iss m [] a b ct → (s.core x.core).cmds.length < 16 →
      ∃ t, Accepted s x.iss h (.mma m) (mmaTake s x.iss m a b ct) (x.w.seqno + 1) none none t ∧
        exec (.mma h m) s = .next ((t.setProg x.wid x.st.dom m.ct.val 0).advance x.wid x.sid 2)) ∧
    ∀ (ch : EHdr) (f : CopyF), f.thn = true → (∀ p ∈ x.st.pends, p.left ≠ 1) → EngOk s x.iss ch (copyReads f) (s.copyChk x.iss f) → SizesOk s x.iss (s.copyChk x.iss f) →
      x.nextMma = some (h, m) → MmaOk s x.iss m (s.copyChk x.iss f).land a b ct → (s.core x.core).cmds.length < 15 →
      ∃ u t, Accepted s x.iss ch (.copy f) (engTake s x.iss (.copy f)) (x.w.seqno + 1) (some (s.nextId + 1)) none u ∧
        Accepted u x.iss h (.mma m) (mmaTake s x.iss m a b ct) (x.w.seqno + 2) none (some s.nextId) t ∧
        exec (.copy ch f) s = .next (((t.setProg x.wid x.st.dom m.ct.val 0).advance x.wid x.sid 2).advance x.wid x.sid 2))

/-- R30, R143, R198, R319: the rows that every class 4 instruction checks, in their order, each with its cause, detail and address; the
first that fails traps, and nothing of the command has taken effect. -/
def Obligations.EngineCommandTraps : Prop :=
  ∀ (i : Instr) (h : EHdr) (b : EngBody) (s : State) (x : Who) (p : Nat) (c : EngChk), engInstr i = some (h, b) → Clear s x →
    p = h.sync.toNat → c = engChk s x.iss b →
    let stops (t : Trap) : Prop := exec i s = .next (s.trapAt x.wid x.sid { t with lanes := x.st.em })
    ((p % 2 = 1 ∨ 46 < p) → stops { cause := 0x2E }) ∧
    (p % 2 = 0 → p ≤ 46 → (∃ k ∈ h.stat.val :: engWrites b, s.scalarBusy x.wid x.st.dom k = true ∧ k ≠ p ∧ k ≠ p + 1) →
      stops { cause := 0x2E, detail := 3 }) ∧
    (p % 2 = 0 → p ≤ 46 → (∀ k ∈ h.stat.val :: engWrites b, s.scalarBusy x.wid x.st.dom k = true → k = p ∨ k = p + 1) →
      (∀ k pre post, (engReads s x.iss b).filter (fun k => decide (k < 48)) = pre ++ k :: post →
        (∀ j ∈ pre, (s.core x.core).mark (x.d.scal j) = 0) → (s.core x.core).mark (x.d.scal k) ≠ 0 →
        stops { cause := 0x50, addr := x.d.scal k, detail := (s.core x.core).mark (x.d.scal k) }) ∧
      ((∀ k ∈ engReads s x.iss b, k < 48 → (s.core x.core).mark (x.d.scal k) = 0) →
        (c.field = true → stops { cause := engBase b, detail := 1 }) ∧
        (c.field = false → (h.stat.val = p ∨ h.stat.val = p + 1) → stops { cause := engBase b, detail := 2 }) ∧
        (c.field = false → h.stat.val ≠ p → h.stat.val ≠ p + 1 →
          (∀ r k pre post, c.recs = pre ++ (r, k) :: post →
            (∀ q ∈ pre, (s.ircd x.iss q.1).wf = true ∧ q.2.lacks (s.ircd x.iss q.1) = none) →
            ((s.ircd x.iss r).wf = false → stops { cause := engBase b, detail := 0x140, addr := r }) ∧
            ((s.ircd x.iss r).wf = true → k.lacks (s.ircd x.iss r) ≠ none → stops { cause := engBase b, detail := 0x144, addr := r })) ∧
          ((∀ q ∈ c.recs, (s.ircd x.iss q.1).wf = true ∧ q.2.lacks (s.ircd x.iss q.1) = none) →
            (∀ n pre post, c.tiles = pre ++ n :: post → (∀ j ∈ pre, (s.itile x.iss j).isSome = true) → s.itile x.iss n = none →
              stops { cause := 0x29, addr := n }) ∧
            ((∀ n ∈ c.tiles, (s.itile x.iss n).isSome = true) →
              ((∃ g ∈ c.land ++ c.srcs, ((s.core x.core).gran g).own = false) → stops { cause := engBase b, detail := 3 }) ∧
              ((∀ g ∈ c.land ++ c.srcs, ((s.core x.core).gran g).own = true) →
                (∃ g ∈ c.land, s.infElsewhere x.core g x.wid x.st.dom p = true) → stops { cause := engBase b, detail := 4 }))))))

/-- R189, R197, R200, R201, R203, R208, R211, R212, R215, R238, R239: engines at work. An agent that waits for an engine goes on once its
core's queue has room. A command that has not begun stands still while one before it in its queue has yet to begin. A piece of a fill
lands its pattern, whole words of up to 256 B at a time, and counts into the pair; any piece of the chunk in progress that has not
landed may be next, and with the last of them the chunk is done. A piece of any other command is what its rule says, where the weirs
let it pass at once. A command all of which has landed ends with outcome 1, and that is the model's choice, with the last of it that
lands (log 29); one that fails ends with its cause. A copy's first piece is checked at the exporting core; a partial sum joins that of
the engine; a matrix command takes the idle array, and some words of the array's next k-group land, PROG advancing with the last. -/
def Obligations.EngineEventsHappen : Prop :=
  ∀ (s : State),
    (∀ (w i t : Nat) (x : Who), s.strandAt w i = some x → x.st.parked = some (.engine, t) → (s.core x.core).cmds.length < 16 →
      exec (.engineQueueAccept (.strand w i)) s = .next (s.updStrand w i fun st => { st with parked := none })) ∧
    (∀ (c t : Nat) (k : Crew) (f : FrontEnd), Tbl.find s.crews c = some k → k.fe = some f → f.stalled = some (.engine, t) →
      (s.core k.core).cmds.length < 16 → exec (.engineQueueAccept (.fe c)) s = .next (s.updFe c fun g => { g with stalled := none })) ∧
    (∀ (id : Nat) (c : Cmd), Tbl.find s.cmds id = some c → (∀ f, c.body ≠ .mma f) → c.begun = false → s.queueAhead id c = true →
      exec (.engineLanding id) s = .next s.tidyModels) ∧
    (∀ (id : Nat) (c : Cmd) (f : TfillF) (e : RegEnd) (a n : Nat) (pieces : List (Nat × Nat)), Tbl.find s.cmds id = some c → c.body = .tfill f →
      s.cmdRuns id c = true → s.cmdReady c = true → c.begun = true → e = c.regEnd c.tile (c.sc f.doff.toNat) →
      pieces = c.chunk (fun a => min (min 256 (c.sc f.len.toNat - a)) (toChunk a)) (c.sc f.len.toNat) → s.nextPiece c pieces = some (a, n) →
      ((a, n) ∈ pieces ∧ a ∉ c.ahead) ∧
      exec (.engineLanding id) s = .next (((((s.updCore c.core fun k =>
        k.landWords (e.base + (e.off + a) / 4) (List.replicate (n / 4) (c.scal.getD f.pat.toNat 0, 0))).countCmd id n
          (e.span (e.off + a) n)).updCmd id fun c => c.landed pieces a).closeOver id).tidyModels)) ∧
    (∀ (id : Nat) (c : Cmd) (t : State), Tbl.find s.cmds id = some c → (∀ f, c.body ≠ .mma f) → s.cmdNext id c = .go t →
      (s.drawTree c t).weirs = s.weirs → exec (.engineLanding id) s = .next (((s.drawTree c t).closeOver id).tidyModels)) ∧
    (∀ (id : Nat) (c : Cmd), Tbl.find s.cmds id = some c → s.cmdRuns id c = true → s.cmdOver c = true →
      (∀ f, c.body ≠ .copymc f) → (∀ f, c.body ≠ .gath f) → (∀ f, c.body ≠ .eseq f) →
      exec (.engineCommandEnd id) s = .next (s.endCmd id 1 0)) ∧
    (∀ (id : Nat) (c : Cmd) (f : EseqF), Tbl.find s.cmds id = some c → s.cmdRuns id c = true → s.cmdReady c = true → c.body = .eseq f →
      exec (.engineCommandEnd id) s = .next ((s.countCmd id f.cnt.toNat []).endCmd id 1 0)) ∧
    (∀ (id : Nat) (c : Cmd) (t : Trap), Tbl.find s.cmds id = some c → s.cmdNext id c = .fail t → t.cause ≠ 0x59 →
      exec (.engineCommandFail id) s = .next ((s.failCmd id t).tidyModels)) ∧
    (∀ (id j : Nat) (c : Cmd) (t : McTarget), Tbl.find s.cmds id = some c → c.targets[j]? = some t → s.cmdRuns id c = true →
      s.cmdReady c = true → c.begun = true → t.checked = false →
      (∀ u, s.winAdmit c t = .inr u → s.givenIds u.core u.grans = [] →
        exec (.windowCopyCheck id j) s = .next ((s.setTarget id j u).updCore u.core fun k =>
          u.grans.foldl (fun k g => k.setGran g { k.gran g with inf := true }) k)) ∧
      (∀ u, s.winAdmit c t = .inr u → s.givenIds u.core u.grans ≠ [] → exec (.windowCopyCheck id j) s = .next s) ∧
      (∀ e f, s.winAdmit c t = .inl e → c.body = .copy f → exec (.windowCopyCheck id j) s = .next (s.failCmd id e)) ∧
      (∀ e f, s.winAdmit c t = .inl e → c.body = .copymc f →
        exec (.windowCopyCheck id j) s = .next ((s.setTarget id j { t with checked := true, failed := some e }).countSettled id))) ∧
    (∀ (id bag port : Nat) (c : Cmd) (f : GathF) (p : Partial), Tbl.find s.cmds id = some c → s.cmdRuns id c = true → c.body = .gath f →
      c.bagEnd f bag ≤ c.next → p.bag = bag → p.port = port → port ≠ enginePort →
      (c.parts = [p] →
        exec (.bankPartialArrival id bag port) s = .next (s.updCmd id fun c => { c with parts := [{ p with port := enginePort }] })) ∧
      ∀ q : Partial, c.parts = [p, q] → q.bag = bag → q.port = enginePort →
        exec (.bankPartialArrival id bag port) s = .next (s.updCmd id fun c => { c with parts := [⟨bag, enginePort,
          (q.vals.zip p.vals).map fun v => match v with
            | (some a, some b) => some (BitVec.ofNat 32 (add32 a.toNat b.toNat))
            | (some a, none) => some a
            | (none, b) => b,
          (q.marks.zip p.marks).map fun m => firstMark [m.1, m.2]⟩] })) ∧
    (∀ (id : Nat) (c : Cmd) (f : MmaF), Tbl.find s.cmds id = some c → c.body = .mma f → s.cmdRuns id c = true → s.cmdReady c = true →
      s.cmdOver c = false → (s.core c.core).array = none →
      exec (.mmaStart id) s = .next ((s.updCmd id fun c => { c with started := true, begun := true }).updCore c.core fun k => { k with array := some id })) ∧
    ∀ (core id : Nat) (c : Cmd) (f : MmaF) (ct : Tile) (t u : State) (words now left : List (Nat × Word × Nat)), (s.core core).array = some id →
      Tbl.find s.cmds id = some c → c.body = .mma f → s.cmdRuns id c = true → s.cmdReady c = true → c.started = true → c.begun = true →
      c.tile = some ct → c.done + 1 < c.sc f.ks.toNat / 32 →
      ((c.words ≠ [] ∧ t = s ∧ words = c.words) ∨ (c.words = [] ∧ s.mmaGroup c f ct = .ok (t, words))) → t.weirs = s.weirs → t.cmds = s.cmds →
      (now, left) = pickFrom words (Config.wordOrder t.tick) → u = t.updCore c.core (fun k => now.foldl (fun k w => k.engWord w.1 w.2.1 w.2.2) k) →
      (left ≠ [] → exec (.mmaKgroup core) s = .next (u.updCmd id fun c => { c with words := left })) ∧
      (left = [] → exec (.mmaKgroup core) s = .next ((u.updCmd id fun c => { c with words := [], done := c.done + 1 }).setProg
        c.wid c.dom f.ct.val (32 * (c.done + 1))))

/-- R266: repair. A job whose span starts a fork of the path is established in the lowest slot without one (log 6) and its template
fires; once its graph is complete the probe selects its tokens, or the layer's blocks swap and the next layer follows. Each step draws what it
writes from the class of its launch, which may hold it (R367). -/
def Obligations.RepairEventsHappen : Prop :=
  (∀ (s u : State) (id : Nat) (c : Cmd) (f : KvF) (m : Mdl) (q : Nat) (r : SeqRec) (n : Nat) (x : Node) (key gen : Nat),
    Tbl.find s.cmds id = some c → c.body = .rpopen f → s.cmdRuns id c = true → s.mayStep id c = true → c.job = none → u = s.begin id →
    u.seqOf c.ctx (c.sc f.sa.toNat) = some (m, q, r) → m.areaFault u true = none →
    ((m.pathOf u r).find? fun q => q.2.start == c.sc f.sb.toNat) = some (n, x) → x.state = 2 → x.job = noJob →
    c.sc f.sd.toNat / 256 % 256 < m.layers → u.freeJob (dieOf c.core) = some (key, gen) →
    exec (.repairJobStart id) s = .next (s.jobStep c (u.establish id c f m n key gen))) ∧
  ∀ (s : State) (die slot : Nat) (j : Job) (c : Cmd) (m : Mdl), Tbl.find s.jobs (die * 64 + slot) = some j →
    Tbl.find s.cmds j.cmd = some c → s.mdlAt j.model = some m → j.live = true → j.fired = true → s.jobRuns j.cmd c = true →
    m.areaFault s true = none → s.rangeFault c.ctx j.graph 128 .both = none → gGst (s.rec_ c.ctx j.graph) = 2 →
    (j.jst = 1 → exec (.repairGraphEnd die slot) s = .next (s.jobStep c (s.endProbe (die * 64 + slot) m j c))) ∧
    (j.jst ≠ 1 → exec (.repairGraphEnd die slot) s = .next (s.jobStep c
      (((m.swap s j.node j.layer).updJob (die * 64 + slot) fun j => { j with last := j.layer }).nextLayer (die * 64 + slot) m c j.layer)))

/-! ## Class 5 -/

/-- R283-R286, R293, R303: launches and scheduling. A `launch` of a good descriptor takes an entry of the launch store and returns 0; with
a full store a `launch.t` returns 1 and a `launch.w` waits. `wdask` issues, and its request joins those of the die's distributor.
`hnext` sets HNX; `waitpred` goes on once its predecessor has completed; `yield` and `prio` move on. -/
def Obligations.SchedulingCompletes : Prop :=
  ∀ (s : State) (x : Who), Clear s x →
    (∀ (f : LaunchF) (l : List (Opnd × Nat)) (d : BitVec 1024) (stages : List Stage), l = (.s f.a, 2) :: f.b.toList.map (fun k => (.s k, 2)) →
      UOk s x l (some (.s f.d, 1)) → s.settled x.agent = true → s.checkDesc x.d.ctx (s.vaPair x f.a) = .ok (d, stages) →
      (f.dep = true → (s.launchOf x.w).any Launch.depd = false) →
      (s.storeRoom (dieOf x.core) = true →
        ∃ u, Finished s x (uD l (some (.s f.d, 1))) every x.st.em (fun _ => [0]) 0 u ∧
          exec (.launch f) s = .next (((if f.dep then u.markDep x.w else u).makeLaunch x.d.ctx (dieOf x.core) (dfield d 410 408)
            (withArg d (f.b.map fun k => s.pair x.core x.d k.val)) stages
            (if f.dep then (s.crewOf x.w).map Crew.launch else none)).2)) ∧
      (s.storeRoom (dieOf x.core) = false → f.t = true →
        ∃ u, exec (.launch f) s = .next u ∧ Finished s x (uD l (some (.s f.d, 1))) every x.st.em (fun _ => [1]) 0 u) ∧
      (s.storeRoom (dieOf x.core) = false → f.t = false → exec (.launch f) s = .next (s.park x.wid x.sid .store))) ∧
    (∀ (f : WdaskF) (k : Nat) (c : Crew) (l : Launch), x.st.em ≠ 0 → pairCode f.a = some k → x.st.dom = 0 → UOk s x [] (some (.s f.d, 1)) →
      s.crewOf x.w = some c → s.launchOf x.w = some l → dfield l.desc 471 440 ≠ 0 →
      ∃ u, Launched s x (uD [] none) every x.st.em f.la.toNat (fun _ => []) 0 u ∧
        exec (.wdask f) s = .next { u with wdReqs := s.wdReqs ++ [⟨dieOf x.core, c.launch, x.wid, x.st.dom, f.d.val, k⟩] }) ∧
    (∀ c, x.st.dom = 0 → s.crewOf x.w = some c → c.hnx = false →
      exec .hnext s = .next (((s.skip x).updCrew x.w.crew fun c => { c with hnx := true }).earlyTokens)) ∧
    (∀ p, x.st.dom = 0 → (s.launchOf x.w).bind Launch.pred = some p →
      ((∀ l, Tbl.find s.launches p = some l → l.out.isSome = true) →
        exec .waitpred s = .next ((s.skip x).updCrew x.w.crew fun c => { c with pdone := true })) ∧
      (∀ l, Tbl.find s.launches p = some l → l.out = none → exec .waitpred s = .next (s.park x.wid x.sid .pred))) ∧
    (x.st.em ≠ 0 → exec .yield s = .next { s with warps := Tbl.upd s.warps x.wid fun w =>
      { w with strands := Tbl.upd w.strands x.sid fun st => { st.advance 1 with yld := true } } }) ∧
    ∀ a, UOk s x [(a, 1)] → uVal s x [(a, 1)] none 0 ≤ 3 →
      exec (.prio a) s = .next (((uState s x [(a, 1)]).updWarp x.wid fun w => { w with prio := uVal s x [(a, 1)] none 0 }).advance x.wid x.sid 1)

/-- R179, R284, R289-R291, R297, R298, R301, R302: rings. An operation on a well-formed block whose counters are in order goes on where its
end allows it and nobody waits there before it: the block holds its new counters, and a ticket goes to its scalar; where it does not,
the strand waits at the block. `ring.peek` returns the entries that may be taken, or the slots that are free. Graphs. `gfire` starts a
graph in order, or adds a token from outside to a node, and moves on; `gnode` returns the status of a node whose record can be
reached, `gcancel` that and cancels it. -/
def Obligations.RingsAndGraphs : Prop :=
  (∀ (s : State) (x : Who), Clear s x →
    (∀ (i : Instr) (q : RingRule) (b : RingBlk), ringRule s x i = some q → UOk s x q.srcs q.dst → q.past →
      s.ringCheck x.d.ctx q.va = .ok b →
      (∀ b' t, RingTakes b q.op b' t → s.ringQueued x.d.ctx q.va q.op s.ringWaits = false →
        exec i s = .next (((uState s x q.srcs q.dst).putRing x.d.ctx q.va b').ringDone x q.op t)) ∧
      (RingWaits b q.op → exec i s = .next ((uState s x q.srcs q.dst).ringPark x q.va q.op))) ∧
    ∀ (f : RingPeekF) (b : RingBlk), UOk s x [(.s f.a, 2)] (some (.s f.d, 1)) → s.undone x.agent = false →
      s.ringCheck x.d.ctx (s.vaPair x f.a) = .ok b →
      ∃ u, exec (.ringPeek f) s = .next u ∧ Finished s x (uD [(.s f.a, 2)] (some (.s f.d, 1))) every x.st.em
        (fun _ => [BitVec.ofNat 32 (if f.c then ringDist b.clm b.cmt else b.slots - b.occupancy)]) 0 u) ∧
  ∀ (s : State) (x : Who), Clear s x →
    (∀ (f : GfireF) (l : List (Opnd × Nat)) (t : State), l = (.s f.a, 2) :: f.b.toList.map (fun k => (.s k, 2)) → UOk s x l →
      s.settled x.agent = true →
      (if f.start then s.startGraph x.d.ctx (s.vaPair x f.a) (dieOf x.core) ((f.b.map fun k => s.pair x.core x.d k.val).getD 0) none
        else s.outsideToken x.d.ctx (s.vaPair x f.a) (dieOf x.core)) = .ok t →
      exec (.gfire f) s = .next (({ readyOf s x (uD l) with s := t } : Ready).finish x.st.em fun _ => [])) ∧
    ∀ (f : GnodeF), UOk s x [(.s f.a, 2)] (some (.s f.d, 1)) → s.undone x.agent = false →
      s.recFault x.d.ctx (s.vaPair x f.a) 128 .both = none →
      (∃ u, exec (.gnode f) s = .next u ∧ Finished s x (uD [(.s f.a, 2)] (some (.s f.d, 1))) every x.st.em
        (fun _ => [BitVec.ofNat 32 (nodeStatus (s.rec_ x.d.ctx (s.vaPair x f.a)))]) 0 u) ∧
      ∀ n, s.nodeAt x.d.ctx (s.vaPair x f.a) = .ok n →
        exec (.gcancel f) s = .next (({ readyOf s x (uD [(.s f.a, 2)] (some (.s f.d, 1))) with
          s := (s.cancelAt x.d.ctx (s.vaPair x f.a) n).2 } : Ready).finish x.st.em fun _ =>
            [BitVec.ofNat 32 (s.cancelAt x.d.ctx (s.vaPair x f.a) n).1])

/-- R111, R276, R281, R285, R286, R290, R291, R299-R302: the events of launches, rings and graphs. A strand that has waited 2^24 cycles
for the launch store traps; a die's distributor answers its oldest request with the next counter value, or 0xFFFFFFFF; a ring serves its
waiters; a stage whose input has been high for 4,096 cycles gains a crew of another stage, or the refusal is counted; one whose crews
have all ended closes its output ring; a node whose work has ended ends, with its launch's outcome; a cancellation walks to the next node; the arbiter of a die visits its next queue;
a crew whose warps, commands and accesses are over ends; a front-end context that has stalled for 2^20 cycles stops. -/
def Obligations.SchedulingEventsHappen : Prop :=
  ∀ (s : State),
    (∀ w i x t, s.strandAt w i = some x → x.st.parked = some (.store, t) → t + 2 ^ 24 ≤ s.time → s.strandAwake x = true →
      exec (.launchWaitTimeout (.strand w i)) s = .next (s.trapAt w i { cause := 0xA0, lanes := x.st.em })) ∧
    (∀ (die : Nat) (r : WdReq) (l : Launch) (w : Warp) (d : Dom), (s.wdReqs.find? fun r => r.die == die && (Tbl.find s.warps r.wid).isSome) = some r →
      Tbl.find s.launches r.launch = some l → Tbl.find s.warps r.wid = some w → w.dom r.dom = some d →
      (l.counter < dfield l.desc 471 440 → exec (.workDistributorAnswer die) s = .next ((({ s with
        wdReqs := s.wdReqs.erase r
        launches := Tbl.put s.launches r.launch { l with counter := l.counter + 1 } } : State).setScalar (coreOf r.wid) d r.dst
          (BitVec.ofNat 32 l.counter)).countBytes r.wid r.dom r.pair 4).1) ∧
      (dfield l.desc 471 440 ≤ l.counter → exec (.workDistributorAnswer die) s = .next ((({ s with
        wdReqs := s.wdReqs.erase r
        launches := Tbl.put s.launches r.launch l } : State).setScalar (coreOf r.wid) d r.dst 0xFFFFFFFF).countBytes r.wid r.dom r.pair 4).1)) ∧
    (∀ (w i : Nat) (x : Who) (q : RingWait) (b b' : RingBlk) (t : Word), s.strandAt w i = some x →
      (s.ringWaits.find? fun w => w.agent == Agent.strand x.wid x.sid) = some q →
      (∀ c, Tbl.find s.ctxs q.ctx = some c → c.run = .running) → s.ringCheck q.ctx q.block = .ok b → RingTakes b q.op b' t →
      s.ringQueued q.ctx q.block q.op (s.ringWaits.takeWhile fun p => p != q) = false →
      exec (.ringWaitSatisfied (.strand w i)) s = .next
        ((({ s with ringWaits := s.ringWaits.erase q } : State).putRing q.ctx q.block b').ringDone x q.op t)) ∧
    (∀ (lid i t : Nat) (l : Launch) (g : Stage), Tbl.find s.launches lid = some l → l.stages[i]? = some g → g.high = some t → t + 4096 ≤ s.time →
      l.out = none → l.whole = true → l.stageOver i g = false →
      (∀ u, s.moveCrew lid l i = some u → exec (.pipelineReassign lid i) s = .next { u with launches := Tbl.upd u.launches lid fun l =>
        { l with stages := l.stages.modify i fun g => { g with high := g.high.map fun _ => u.time } } }) ∧
      (s.moveCrew lid l i = none → exec (.pipelineReassign lid i) s = .next { s with launches := Tbl.upd s.launches lid fun l =>
        { l with refuse := l.refuse + 1, stages := l.stages.modify i fun g => { g with high := g.high.map fun _ => s.time } } })) ∧
    (∀ (lid i : Nat) (l : Launch) (g : Stage), Tbl.find s.launches lid = some l → l.stages[i]? = some g → l.stageOver i g = true → g.outr ≠ 0 →
      s.rangeFault l.ctx g.outr 64 .both = none →
      exec (.pipelineReassign lid i) s = .next { s.putRing l.ctx g.outr (s.ringAt l.ctx g.outr).close with
        launches := Tbl.upd (s.putRing l.ctx g.outr (s.ringAt l.ctx g.outr).close).launches lid fun l =>
          { l with stages := l.stages.modify i fun g => { g with shut := true } } }) ∧
    (∀ (id : Nat) (w : Work), Tbl.find s.works id = some w → s.graphRuns w.ctx = true → s.graphPage w.ctx w.graph = none →
      (∀ o c, w.st = .ended o c → exec (.graphNodeEnd id) s = .next (s.endNode id w o c 0)) ∧
      (∀ n l, w.st = .launched n → Tbl.find s.launches n = some l →
        (l.out = some .complete → exec (.graphNodeEnd id) s = .next (s.endNode id w 0 0 0)) ∧
        (l.out = some .quenched → exec (.graphNodeEnd id) s = .next (s.endNode id w 1 l.qsum l.qsum)) ∧
        (l.out = some .faulted → exec (.graphNodeEnd id) s = .next (s.endNode id w 2 (l.fcause.getD 0) 0)) ∧
        (l.out = some .killed → exec (.graphNodeEnd id) s = .next (s.endNode id w 2 0xCD 0)))) ∧
    (∀ (id i : Nat) (w : CWalk) (rest : List Nat), Tbl.find s.cwalks id = some w → s.graphRuns w.ctx = true → s.graphPage w.ctx w.graph = none →
      w.todo = i :: rest →
      (nStat (s.rec_ w.ctx (nodeVa w.graph i)) = 0 → exec (.graphCancelWalkStep id) s = .next (({ s.cancelNode w.ctx w.graph i with
        cwalks := Tbl.put (s.cancelNode w.ctx w.graph i).cwalks id
          { w with todo := (s.cancelNode w.ctx w.graph i).succs w.ctx (s.rec_ w.ctx (nodeVa w.graph i)) ++ rest } } : State).graphEnd
            w.ctx w.graph)) ∧
      (nStat (s.rec_ w.ctx (nodeVa w.graph i)) ≠ 0 →
        exec (.graphCancelWalkStep id) s = .next { s with cwalks := Tbl.put s.cwalks id { w with todo := rest } })) ∧
    (∀ (die i part cls : Nat), (∃ q ∈ s.queuesOf die, s.queue q.1 die q.2 ≠ []) → i = ((Tbl.find s.visiting die).getD 0) % (s.queuesOf die).length →
      (s.queuesOf die)[i]? = some (part, cls) →
      ∃ t, exec (.arbiterRun die) s = .next { t with visiting := Tbl.put t.visiting die ((i + 1) % (s.queuesOf die).length) } ∧
        (s.queue part die cls = [] → t = s.setDeficit part die cls 0) ∧
        (s.queue part die cls ≠ [] → s.deficit part die cls ≤ 0 → t = s.setDeficit part die cls (s.deficit part die cls + s.quantum part cls)) ∧
        (s.queue part die cls ≠ [] → 0 < s.deficit part die cls → t = (s.placeHeads part die cls 18432).headPage part die cls)) ∧
    (∀ (cid : Nat) (k : Crew), Tbl.find s.crews cid = some k → s.crewOver cid k = true → exec (.crewEnd cid) s = .next (s.endCrew cid k)) ∧
    ∀ (crew t : Nat) (k : Crew) (f : FrontEnd), Tbl.find s.crews crew = some k → k.fe = some f → f.stalled = some (.queue, t) →
      f.stopped = none → t + 2 ^ 20 ≤ s.time → s.awake (s.crewCtx k) = true →
      exec (.frontEndStallWatchdog crew) s = .next (s.feStop crew { cause := 0x2D })

/-! ## Traps -/

/-- R309-R312: a trap at level 0 of a strand whose warp runs no handler, with TVEC not 0, enters the warp rung: TCAUSE, TPC, TLANES, TADDR and
TDETAIL take the values of the cause, TRUNG names it as FIRST with WHY 0, FE 0 and RUNG 000, the trap record keeps the PC, the
header's PC, EM and the depth of the return stack, and the strand goes on at TVEC / 8 at level 1 with its EM, membership and registers as
they are. A strand whose earlier long-latency instructions are in flight waits for them first, and enters the rung at its turn
once they are complete. The instruction `trap #n` takes it with cause n. -/
def Obligations.TrapEntersHandler : Prop :=
  ∀ (s : State) (x : Who) (t : Trap) (tpc : Pc) (u : State), s.strandAt x.wid x.sid = some x → s.isRungHandler x = false → x.st.level = 0 →
    x.d.csrs.tvec ≠ 0 → tpc = (if t.atHeader then x.st.header else x.st.pc) →
    u = { s with warps := Tbl.upd s.warps x.wid fun w =>
      { w with
        doms := Tbl.upd w.doms x.st.dom fun d =>
          { d with
            trapRec := some (x.st.trapRec x.sid s.time tpc)
            csrs := { d.csrs with
              tcause := BitVec.ofNat 64 (t.cause + if t.eng then 256 else 0)
              tpc := tpc.setWidth 64
              tlanes := t.lanes
              taddr := BitVec.ofNat 64 t.addr
              tdetail := BitVec.ofNat 64 t.detail
              trung := BitVec.ofNat 64 (t.cause % 256 * 2 ^ 24 + x.w.winc * 2 ^ 8) } }
        strands := Tbl.upd w.strands x.sid fun st =>
          { st with
            pc := x.d.csrs.tvec.extractLsb' 3 53
            clause := none
            level := 1
            parked := none
            stepArm := 0
            trapping := none } } } →
    (x.w.otherHandler x.sid = false →
      (x.st.pends = [] → s.trapAt x.wid x.sid t = u) ∧
      (x.st.pends ≠ [] → s.trapAt x.wid x.sid t = (s.park x.wid x.sid .window).updStrand x.wid x.sid fun st => { st with trapping := some t })) ∧
    (x.st.trapping = some t → x.st.pends = [] → s.strandTurn x = .rest u) ∧
    (x.st.trapping = some t → x.st.pends ≠ [] → s.strandTurn x = .rest s) ∧
    ∀ n : Fin 16, Clear s x → exec (.trap n) s = .next (s.trapAt x.wid x.sid { cause := n.val, lanes := x.st.em })

/-- R310, R314-R316: where no handler of the warp can take a trap. A sibling's handler is running: the strand parks before issue. TVEC
is 0, in the warp's own domain: the chain comes to the crew rung with WHY 0. The trap is one of the warp-rung handler itself: it comes there with
WHY 0xCA. R317: a trap of the crew-rung handler enters the context rung with the values of that trap, FIRST, FWINC, FE and RUNG as
they were and WHY 0xCA; that its strand parks is the model's choice (log 45). -/
def Obligations.TrapsEscalate : Prop :=
  ∀ (s : State) (x : Who) (t : Trap) (tpc : Pc), s.strandAt x.wid x.sid = some x → tpc = (if t.atHeader then x.st.header else x.st.pc) →
    (s.isRungHandler x = false → x.st.level = 0 → x.w.otherHandler x.sid = true →
      s.trapAt x.wid x.sid t = s.park x.wid x.sid .handler) ∧
    (s.isRungHandler x = false → x.st.level = 0 → x.w.otherHandler x.sid = false → x.st.pends = [] → x.d.csrs.tvec = 0 → x.st.dom = 0 →
      s.trapAt x.wid x.sid t = (({ s with warps := Tbl.upd s.warps x.wid fun w =>
        { w with
          doms := Tbl.upd w.doms 0 fun d => { d with trapRec := some (x.st.trapRec x.sid s.time tpc) }
          strands := Tbl.upd w.strands x.sid fun st => { st with parked := none, stepArm := 0, trapping := none } } } : State).enterCrew x.w.crew
          ⟨x.wid, x.sid, t, tpc, 0, t.cause, false, s.time⟩)) ∧
    (s.isRungHandler x = false → x.st.level = 1 → x.st.dom = 0 → ∀ r, x.d.trapRec = some r →
      s.trapAt x.wid x.sid t = s.enterCrew x.w.crew
        ⟨x.wid, r.sid, t, tpc, 0xCA, (x.d.csrs.trung.extractLsb' 24 8).toNat, false, s.time⟩) ∧
    (s.isRungHandler x = true → x.st.dom = 0 →
      s.trapAt x.wid x.sid t = (s.park x.wid x.sid .handler).enterCtx x.d.ctx t.cause
        [BitVec.ofNat 64 (t.cause + if t.eng then 256 else 0), tpc.setWidth 64, t.lanes, BitVec.ofNat 64 t.addr, BitVec.ofNat 64 t.detail,
          x.d.csrs.trung &&& 0xFFFFFFFFFF00FFFF ||| 0xCA0000, widOf x.wid x.w])

/-- R315, R316: a chain that comes to the crew rung waits there, and the strand that opened it parks. Once no handler runs there and
every strand of the crew has stopped, the first chain enters the rung, at the turn of the strand that opened it: with TVECC not 0 a
handler strand runs in the lowest live warp at TVECC / 8 and level 1 on every lane that has not exited, TRUNG holds FIRST, WHY, FWINC, FE
and RUNG 001, and the trap CSRs of the trap stand in that warp; with TVECC 0 the context rung is entered with WHY 0. -/
def Obligations.CrewRungEntered : Prop :=
  (∀ (s : State) (crew : Nat) (r : RungReq),
    s.enterCrew crew r = (if r.fe then s else s.park r.warp r.sid .handler).updCrew crew fun k => { k with rungQ := k.rungQ ++ [r] }) ∧
  (∀ (s u : State) (crew : Nat) (r : RungReq) (x : Who), u = { s with cur := .strand r.warp r.sid } → u.who = some x → x.wid = r.warp →
    x.sid = r.sid → x.w.crew = crew → u.mayIssue x = false → r.fe = false →
    s.issueTurn (.strand r.warp r.sid) = .rest (u.openRung crew fun q => !q.fe && q.warp == r.warp && q.sid == r.sid)) ∧
  ∀ (s : State) (crew : Nat) (k : Crew) (r : RungReq) (rest : List RungReq) (p : RungReq → Bool), Tbl.find s.crews crew = some k →
    k.rungQ = r :: rest → p r = true →
    ((k.rung.isSome = true ∨ s.crewStopped k r = false) → s.openRung crew p = s) ∧
    ∀ (ow h : Warp) (hw : Nat) (d : Dom) (c : Context), k.rung = none → s.crewStopped k r = true → Tbl.find s.ctxs (s.crewCtx k) = some c →
      c.run = .running → Tbl.find s.warps r.warp = some ow → s.handlerWarp k = some (hw, h) → h.dom 0 = some d →
      (d.csrs.tvecc = 0 → s.openRung crew p = (s.updCrew crew fun k => { k with rungQ := k.rungQ.drop 1 }).enterCtx d.ctx r.trap.cause
        [BitVec.ofNat 64 (r.trap.cause + if r.trap.eng then 256 else 0), r.tpc.setWidth 64, r.trap.lanes, BitVec.ofNat 64 r.trap.addr,
          BitVec.ofNat 64 r.trap.detail, BitVec.ofNat 64 (r.first % 256 * 2 ^ 24 + ow.winc * 2 ^ 8 + if r.fe then 16 else 0), widOf r.warp ow]) ∧
      (d.csrs.tvecc ≠ 0 → ∃ st : Strand,
        (st.pc = d.csrs.tvecc.extractLsb' 3 53 ∧ st.level = 1 ∧ st.em = h.unexited ∧ st.mem = h.unexited ∧ st.rstack = [] ∧ st.dom = 0 ∧
          st.clause = none ∧ st.parked = none) ∧
        s.openRung crew p = ((s.updCrew crew fun k => { k with rungQ := k.rungQ.drop 1 }).updWarp hw fun w =>
          { w with
            doms := Tbl.upd w.doms 0 fun e =>
              { e with csrs := { e.csrs with
                tcause := BitVec.ofNat 64 (r.trap.cause + if r.trap.eng then 256 else 0)
                tpc := r.tpc.setWidth 64
                tlanes := r.trap.lanes
                taddr := BitVec.ofNat 64 r.trap.addr
                tdetail := BitVec.ofNat 64 r.trap.detail
                trung := BitVec.ofNat 64 (r.first % 256 * 2 ^ 24 + r.why * 2 ^ 16 + ow.winc * 2 ^ 8 + (if r.fe then 16 else 0) + 1) } }
            strands := Tbl.put w.strands 16 st }).updCrew crew fun k =>
              { k with rung := some ⟨hw, 16, d.csrs, r.warp, r.sid, r.fe, r.since, s.time⟩ })

/-! ## Class 6 -/

/-- R323-R325: `tret` at the warp rung, with the return stack at the depth of the trap and a place that its mode may go to, returns: the
strand goes on there at level 0 with the saved EM within its membership, the trap record is gone, and STEP arms one instruction;
`tret.kill` of a warp's own trap ends the crew as faulted with TCAUSE. At the crew rung the chain ends and the strand that opened it
returns. R325: `tkill` takes the lanes of its mask from the strand and moves on; a crew-rung handler takes them from its warp's stopped
strands and records as well. -/
def Obligations.TrapReturns : Prop :=
  ∀ (s : State) (x : Who), Clear s x → x.st.level ≠ 0 →
    (∀ (f : TretF) (r : TrapRec) (pc : Pc) (cl : Option Clause), s.isRungHandler x = false → x.d.trapRec = some r →
      x.st.rstack.length = r.depth →
      (f.mode ≠ .kill → s.tretPlace x.core x.d.ctx r (x.d.csrs.tpc.extractLsb' 0 53) f.mode = .at_ pc cl →
        exec (.tret f) s = .next { s with warps := Tbl.upd s.warps x.wid fun w =>
          { w with
            doms := Tbl.upd w.doms x.st.dom fun d => { d with trapRec := none }
            strands := Tbl.upd w.strands x.sid fun st =>
              { st with
                pc := pc
                clause := cl
                em := r.em &&& st.mem
                level := 0
                parked := none
                rstack := st.rstack.drop (st.rstack.length - r.depth)
                stepArm := if f.step then 1 else 0 } } }) ∧
      (f.mode = .kill → x.st.dom = 0 →
        exec (.tret f) s = .next (s.haltCrew x.w.crew (some (x.d.csrs.tcause.extractLsb' 0 8).toNat) false))) ∧
    (∀ (f : TretF) (k : Crew) (r : CrewRung) (y : Who) (rec_ : TrapRec) (pc : Pc) (cl : Option Clause), s.isRungHandler x = true → x.st.dom = 0 →
      Tbl.find s.crews x.w.crew = some k → k.rung = some r → x.st.rstack = [] → x.st.pends = [] → r.fe = false → f.mode ≠ .kill →
      s.strandAt r.openWarp r.openSid = some y → y.d.trapRec = some rec_ →
      s.tretPlace y.core y.d.ctx rec_ (x.d.csrs.tpc.extractLsb' 0 53) f.mode = .at_ pc cl →
      exec (.tret f) s = .next ((s.endRung x.w.crew).returnTo r.openWarp r.openSid rec_ pc cl f.step)) ∧
    ∀ m : MReg,
      (x.sid ≠ 16 → exec (.tkill m) s = .next (s.withStrand x fun st =>
        { st.advance 1 with em := st.em &&& ~~~(x.d.mask m &&& x.st.mem), mem := st.mem &&& ~~~(x.d.mask m &&& x.st.mem) })) ∧
      (x.sid = 16 → exec (.tkill m) s = .next ((s.exitLanes x.wid 16 (x.d.mask m &&& x.st.mem)).advance x.wid 16 1))

/-- R16, R326-R328: `csrrd` puts a listed CSR's value into its pair; `csrwr` of a CSR that the level may write, with a value that its layout
permits, writes it, and a read then gives the value, TLANES its W bits; `tlbinv` in a handler removes the ASID's translations, or those of a page, from the partition's cores;
`drain` moves on once what it names is over, of the commands those that the warp had issued when it began, and waits till then. -/
def Obligations.SystemCompletes : Prop :=
  ∀ (s : State) (x : Who), Clear s x →
    (∀ (f : CsrF) (v : Dword), s.csrRead x f.csr.toNat = some v → OperandsOk s x { srcs := [], dst := some (.s f.k, 2) } →
      ∃ t, exec (.csrrd f) s = .next t ∧ Finished s x { srcs := [], dst := some (.s f.k, 2) } every x.st.em
        (fun _ => [v.extractLsb' 0 32, v.extractLsb' 32 32]) 0 t) ∧
    (∀ (f : CsrF) (v : Dword), (s.csrRead x f.csr.toNat).isSome = true → csrWriteLevel f.csr.toNat ≠ 2 →
      (csrWriteLevel f.csr.toNat = 1 → x.st.level ≠ 0) → OperandsOk s x { srcs := [(.s f.k, 2)] } → v = s.pair x.core x.d f.k.val →
      csrValueOk f.csr.toNat v = true →
      ∃ t, t = ((readyOf s x { srcs := [(.s f.k, 2)] }).commit.csrWrite x f.csr.toNat v).skip x ∧ exec (.csrwr f) s = .next t ∧
        ∀ y, t.who = some y → (f.csr.toNat = 0x023 ∨ f.csr.toNat = 0x024 → (Tbl.find s.ctxs x.d.ctx).isSome = true) →
          t.csrRead y f.csr.toNat = some (if f.csr.toNat = 0x00A then v &&& fullMask x.width else v)) ∧
    (x.st.level ≠ 0 →
      exec (.tlbinv none) s = .next (((readyOf s x { srcs := [] }).commit.shoot fun c e =>
        s.partCores (((Tbl.find s.ctxs x.d.ctx).map Context.part).getD 0) c && e.asid == s.asidOf x.d.ctx).skip x) ∧
      ∀ k : SReg, OperandsOk s x { srcs := [(.s k, 2)] } →
        exec (.tlbinv (some k)) s = .next (((readyOf s x { srcs := [(.s k, 2)] }).commit.shoot fun c e =>
          s.partCores (((Tbl.find s.ctxs x.d.ctx).map Context.part).getD 0) c &&
            e.holds (s.asidOf x.d.ctx) (s.pair x.core x.d k.val).toNat).skip x)) ∧
    ∀ (f : DrainF) (n : Nat), (∀ m t, x.st.parked = some (.drain m, t) → n = m) → ((∀ m t, x.st.parked ≠ some (.drain m, t)) → n = s.nextId) →
      ((f.ld = true → s.loadsDone x = true) → (f.st = true → s.settled x.agent = true) →
        (f.eng = true → ∀ p ∈ s.cmds, p.1 < n → p.2.fe = false → p.2.wid ≠ x.wid) → exec (.drain f) s = .next (s.skip x)) ∧
      ((f.ld = true ∧ s.loadsDone x = false ∨ f.st = true ∧ s.settled x.agent = false ∨
          f.eng = true ∧ ∃ p ∈ s.cmds, p.1 < n ∧ p.2.fe = false ∧ p.2.wid = x.wid) →
        exec (.drain f) s = .next (s.park x.wid x.sid (.drain n)))

/-- R326, R329, R322: what level 0 may not do. `tret`, `tkill` and `tlbinv` at level 0, and `csrwr` to a CSR that only level 1 writes,
raise cause 0x16; a CSR that R16 does not list, cause 0xC9; one that is never written, 0xC8; a value that its layout does not permit,
0x11. -/
def Obligations.PrivilegedTrap : Prop :=
  ∀ (s : State) (x : Who), Clear s x →
    (x.st.level = 0 →
      (∀ f, exec (.tret f) s = .next (s.trapAt x.wid x.sid { cause := 0x16, lanes := x.st.em })) ∧
      (∀ m, exec (.tkill m) s = .next (s.trapAt x.wid x.sid { cause := 0x16, lanes := x.st.em })) ∧
      (∀ v, exec (.tlbinv v) s = .next (s.trapAt x.wid x.sid { cause := 0x16, lanes := x.st.em })) ∧
      ∀ f : CsrF, f.csr.toNat ∈ [0x008, 0x009, 0x00A, 0x00B, 0x00C, 0x00D, 0x010, 0x011, 0x012, 0x023, 0x024] →
        exec (.csrwr f) s = .next (s.trapAt x.wid x.sid { cause := 0x16, lanes := x.st.em })) ∧
    (∀ f : CsrF, f.csr.toNat ∈ [0x001, 0x002, 0x003, 0x018, 0x019, 0x01B, 0x020, 0x021, 0x030, 0x031] →
      exec (.csrwr f) s = .next (s.trapAt x.wid x.sid { cause := 0xC8, lanes := x.st.em })) ∧
    (∀ f : CsrF, s.csrRead x f.csr.toNat = none →
      exec (.csrrd f) s = .next (s.trapAt x.wid x.sid { cause := 0xC9, lanes := x.st.em }) ∧
      exec (.csrwr f) s = .next (s.trapAt x.wid x.sid { cause := 0xC9, lanes := x.st.em })) ∧
    ∀ f : CsrF, f.csr.toNat ∈ [0x000, 0x01A] → OperandsOk s x { srcs := [(.s f.k, 2)] } →
      csrValueOk f.csr.toNat (s.pair x.core x.d f.k.val) = false →
      exec (.csrwr f) s = .next (s.trapAt x.wid x.sid { cause := 0x11, lanes := x.st.em })

/-- R332-R337: a `gcall` of a valid gate of the caller's partition that permits its context, less than four deep, from a call that may nest,
with frames wide enough and arguments that can be read, obtains a frame from the gate pool and enters the callee: the strand stands at
ENTRY in a new domain at level 0 with an empty return stack, its lanes unchanged, and the rest of the warp's strands are as before;
with the pool or the domains exhausted it moves on with GSTAT code 0xC2. Which run and which number the callee has is the model's choice
(log 6). R340: `gret` with every lane of the call at it, and nothing of the callee outstanding, returns to the caller, which stands as at its
`gcall` with the callee's domain gone; it waits while a lane is elsewhere, or a result, a command or a window access of the callee is outstanding. -/
def Obligations.GateCalls : Prop :=
  ∀ (s : State) (x : Who), Clear s x →
    (∀ (gi : BitVec 10) (g : BitVec 512) (n : Nat), g = s.gate gi.toNat → g.getLsbD 511 = true → gfield g 504 500 = s.partOf x.d.ctx →
      (g.getLsbD 510 = true ∨ s.gatePermits g x.d.ctx = true) → gdepth x.w 8 x.st.dom ≠ 4 → (∀ k, x.d.call = some k → k.nest = true) →
      gfield g 480 476 ≤ x.d.fv → gfield g 475 471 ≤ x.d.fv →
      (∀ l ∈ lanesOf x.st.em, ∀ k, k < gfield g 480 476 →
        ((s.core x.core).gran (x.d.lane x.width k l / 128)).own = false ∧ ((s.core x.core).gran (x.d.lane x.width k l / 128)).val = true) →
      n = (1152 + 8 * gfield g 487 481 * x.width + 127) / 128 →
      (∀ i dn, (s.core x.core).findPool n = some i → Tbl.freeFrom x.w.doms 128 1 = some dn →
        ∃ t v st, exec (.gcall gi) s = .next t ∧ t = s.enterCallee x gi.toNat g (1024 - (s.core x.core).pool + i) n dn ∧
          Tbl.find t.warps x.wid = some v ∧ Tbl.find v.strands x.sid = some st ∧
          st.pc = BitVec.ofNat 53 (gfield g 447 392 / 8) ∧ st.dom = dn ∧ st.level = 0 ∧ st.rstack = [] ∧ st.em = x.st.em ∧ st.mem = x.st.mem ∧
          ∀ j, j ≠ x.sid → Tbl.find v.strands j = Tbl.find x.w.strands j) ∧
      ((s.core x.core).findPool n = none ∨ Tbl.freeFrom x.w.doms 128 1 = none →
        exec (.gcall gi) s = .next ((((s.updDom x.wid x.st.dom fun d =>
          { d with csrs := { d.csrs with gstat := gstatOf 0xC2 0 false gi.toNat } }).fenceAll x).updStrand
            x.wid x.sid fun st => { st with grants := [] }).skip x))) ∧
    ∀ (k : Call) (cd : Dom), x.d.call = some k → x.st.rstack = [] →
      (callGathered x = false → exec .gret s = .next (s.parkAside x.wid x.sid .gret)) ∧
      (callGathered x = true →
        ((∃ p ∈ x.w.strands, p.2.dom = x.st.dom ∧ p.2.pends ≠ []) ∨ (∃ c ∈ s.cmds, c.2.wid = x.wid ∧ c.2.dom = x.st.dom) ∨
            (∃ i ∈ s.calleeWins x, s.winBusy x.core i = true) →
          exec .gret s = .next (s.park x.wid x.sid .gret)) ∧
        (x.w.dom k.callerDom = some cd → k.callerDom ≠ x.st.dom → (∀ p ∈ x.w.strands, p.2.dom = x.st.dom → p.2.pends = []) →
          (∀ c ∈ s.cmds, ¬ (c.2.wid = x.wid ∧ c.2.dom = x.st.dom)) → (∀ i ∈ s.calleeWins x, s.winBusy x.core i = false) →
          (∀ p ∈ x.w.pfaults, p.dom ≠ x.st.dom) → (∀ i, i < 4 → s.scalarBusy x.wid k.callerDom i = false) →
          ∃ t v j st e, exec .gret s = .next t ∧ t = ((((s.copyResults x cd k).1.leaveCall x.wid x.st.dom k).scrubCallee x.wid x.st.dom).updDom
              x.wid k.callerDom fun d => { d with csrs := { d.csrs with gstat := gstatOf 0 0 (s.copyResults x cd k).2 k.gate } }) ∧
            Tbl.find t.warps x.wid = some v ∧ v.dom x.st.dom = none ∧ v.dom k.callerDom = some e ∧
            e.csrs.gstat = gstatOf 0 0 (s.copyResults x cd k).2 k.gate ∧ Tbl.find v.strands j = some st ∧ st.pc = k.retPc ∧
            st.clause = k.retClause ∧ st.em = k.em ∧ st.mem = k.mem ∧ st.rstack = k.rstack ∧ st.dom = k.callerDom ∧ st.level = k.level ∧
            st.parked = none))

/-- R342: a gate call that is killed. A trap in a callee whose TVEC is 0 kills its call with code 0xC5 and the trap's cause, and the host of the
callee's context hears of it, and so does `tret.kill` in a callee with TCAUSE. A call without commands or inner calls of its own that is
killed: the caller stands behind its `gcall` with the EM, membership and return stack that it had there, GSTAT holds the code, the cause, the
gate and whether a result register was left, every other result register and s0 to s3 of the caller hold 0, and the callee's domain is
gone. -/
def Obligations.CallsKilled : Prop :=
  (∀ (s : State) (x : Who) (t : Trap) (tpc : Pc), s.strandAt x.wid x.sid = some x → x.st.dom ≠ 0 → x.st.level = 0 →
    x.w.otherHandler x.sid = false → x.st.pends = [] → x.d.csrs.tvec = 0 → tpc = (if t.atHeader then x.st.header else x.st.pc) →
    s.trapAt x.wid x.sid t = (({ s with warps := Tbl.upd s.warps x.wid fun w =>
      { w with
        doms := Tbl.upd w.doms x.st.dom fun d => { d with trapRec := some (x.st.trapRec x.sid s.time tpc) }
        strands := Tbl.upd w.strands x.sid fun st => { st with parked := none, stepArm := 0, trapping := none } } } : State).notify
          ⟨0xC5, s.partOf x.d.ctx, x.d.ctx, rungVals (x.d.csrs.ofTrap t tpc (trungOf t.cause 0 x.w.winc false 0)) (widOf x.wid x.w)⟩).killCall
            8 x.wid x.st.dom 0xC5 t.cause) ∧
  (∀ (s : State) (x : Who) (f : TretF) (r : TrapRec), Clear s x → x.st.level ≠ 0 → x.st.dom ≠ 0 → x.d.trapRec = some r →
    x.st.rstack.length = r.depth → f.mode = .kill →
    exec (.tret f) s = .next ((s.notify ⟨0xC5, s.partOf x.d.ctx, x.d.ctx, rungVals x.d.csrs (widOf x.wid x.w)⟩).killCall
      8 x.wid x.st.dom 0xC5 (x.d.csrs.tcause.extractLsb' 0 8).toNat)) ∧
  ∀ (s t : State) (n wid dn code fcause : Nat) (w : Warp) (d cd : Dom) (k : Call) (lost : Bool), Tbl.find s.warps wid = some w →
    w.dom dn = some d → d.call = some k → k.callerDom ≠ dn → w.dom k.callerDom = some cd →
    (∀ p ∈ w.doms, p.1 ≠ 0 → ∀ c, p.2.call = some c → c.callerDom ≠ dn) → (∀ c ∈ s.cmds, ¬ (c.2.wid = wid ∧ c.2.dom = dn)) →
    (lost = true ↔ ∃ r l, r < k.nres ∧ l ∈ lanesOf k.em ∧ ((s.core (coreOf wid)).gran (cd.lane w.width r l / 128)).own = true) →
    t = s.killCall (n + 1) wid dn code fcause →
    ∃ v e j st, Tbl.find t.warps wid = some v ∧ v.dom dn = none ∧ v.dom k.callerDom = some e ∧
      e.csrs.gstat = gstatOf code fcause lost k.gate ∧ Tbl.find v.strands j = some st ∧ st.pc = k.retPc ∧ st.clause = k.retClause ∧
      st.em = k.em ∧ st.mem = k.mem ∧ st.rstack = k.rstack ∧ st.dom = k.callerDom ∧ st.level = k.level ∧ st.parked = none ∧
      (∀ r l, r < k.nres → l ∈ lanesOf k.em → ((s.core (coreOf wid)).gran (cd.lane w.width r l / 128)).own = false →
        (t.core (coreOf wid)).word (cd.lane w.width r l) = 0) ∧
      ∀ i, i < 4 → (t.core (coreOf wid)).word (cd.scal i) = 0

/-! ## Headers and control -/

/-- R20-R24, R36, R39, R179, R318: a clause header of classes 0 to 6, at which no join waits, whose clause can be fetched and whose waits hold,
opens its clause: the first word is next and the clause holds the units behind the header. With queues not ready the strand waits for them,
and with SWEN, LDRN or SACK not met at the header; a clause that cannot be fetched traps at its header with the cause (R163). A header of class 7 traps with cause 0x12. A front-end context opens only a header of
class 7 without waits, and stops with cause 0x7C at any other. An illegal opcode traps with cause 0x10, and nothing of it takes effect; a
front-end context stops, with that cause where the opcode is illegal in every class, and else with cause 0x7C. -/
def Obligations.HeadersAndIllegalOpcodes : Prop :=
  ((∀ (h : Header) (s : State) (x : Who), s.who = some x → (∀ p, x.st.parked = some p → p.1.byEvent = false) → x.st.stepArm ≠ 2 →
    s.reachJoin x.wid x.sid = none →
    (h.cls.val = 7 → exec (.clauseHeader h) s = .next (s.trapAt x.wid x.sid { cause := 0x12, lanes := x.st.em, atHeader := true })) ∧
    (h.cls.val ≠ 7 → ∀ c d va, s.clauseBody x.core x.d.ctx x.st.pc (h.cnt.val + 1) = .error (.bad c d, va) → exec (.clauseHeader h) s =
      .next (s.trapAt x.wid x.sid { cause := c, lanes := x.st.em, addr := pcVa x.st.pc, detail := d, atHeader := true })) ∧
    (h.cls.val ≠ 7 → ∀ units, s.clauseBody x.core x.d.ctx x.st.pc (h.cnt.val + 1) = .ok units →
      (h.swen = true → (∀ a ∈ [x.d.scal h.swk.toNat, x.d.scal (h.swk.toNat + 1), x.d.scal h.swg.toNat], (s.core x.core).mark a = 0) ∧
        s.pendingOn x.wid x.st.dom h.swk.toNat = none) →
      (queuesReady x h.qwait = false → exec (.clauseHeader h) s = .next (s.park x.wid x.sid .queue)) ∧
      (queuesReady x h.qwait = true →
        ((h.swen = true ∧ genReached (syncGen (s.pair x.core x.d h.swk.toNat)) ((s.scalar x.core x.d h.swg.toNat).toNat % 65536) = false ∨
            h.ldrn = true ∧ s.loadsDone x = false ∨ h.sack = true ∧ s.settled x.agent = false) →
          exec (.clauseHeader h) s = .next (s.park x.wid x.sid .header)) ∧
        ((h.swen = true → genReached (syncGen (s.pair x.core x.d h.swk.toNat)) ((s.scalar x.core x.d h.swg.toNat).toNat % 65536) = true) →
          (h.ldrn = true → s.loadsDone x = true) → (h.sack = true → s.settled x.agent = true) →
          exec (.clauseHeader h) s = .next (s.withStrand x fun st =>
            { st with
              pc := st.pc + 1
              clause := some ⟨x.st.pc, h.cls, h.cnt.val + 1, h.yld, units⟩
              parked := none }))))) ∧
  ∀ (h : Header) (s : State) (x : FeWho), FeClear s x →
    ((h.cls.val ≠ 7 ∨ h.qwait ≠ 0 ∨ h.ldrn = true ∨ h.sack = true ∨ h.swen = true ∨ h.yld = true) →
      exec (.clauseHeader h) s = .next (s.feStop x.cid { cause := 0x7C })) ∧
    (h.cls.val = 7 → h.qwait = 0 → h.ldrn = false → h.sack = false → h.swen = false → h.yld = false →
      ∀ units, s.clauseBody x.k.core x.ctx x.f.pc (h.cnt.val + 1) = .ok units →
      exec (.clauseHeader h) s = .next (s.withFe x fun f =>
        { f with
          pc := f.pc + 1
          clause := some ⟨x.f.pc, h.cls, h.cnt.val + 1, h.yld, units⟩
          stalled := none }))) ∧
  ((∀ (w : Unit64) (s : State) (x : Who), Clear s x →
    exec (.illegalOpcode w) s = .next (s.trapAt x.wid x.sid { cause := 0x10, lanes := x.st.em })) ∧
  ∀ (w : Unit64) (s : State) (x : FeWho), FeClear s x →
    exec (.illegalOpcode w) s = .next (s.feStop x.cid { cause := if 0x1F8 ≤ Codec.opcode w then 0x10 else 0x7C }))

/-- R38, R60-R66, R104: control of strands. A branch goes to its target, which is a clause header; `brc` goes to the next clause with no lane
taken, to its target with all taken, and else forks, its taken side first where no entry is free; `brx` and `callx` whose lanes select one entry go to it; `call` pushes the address
of the next clause, `ret` pops; `loop` counts its scalar down and goes back till it is 0; `end` takes the lanes of EM from the strand for
good, which ends with its last one. -/
def Obligations.ControlTransfers : Prop :=
  ∀ (s : State) (x : Who), Clear s x →
    (∀ t : BitVec 24, GoodTarget s x.core x.d.ctx (x.st.header + t.signExtend 53) →
      exec (.bra t) s = .next (s.withStrand x fun st => st.jump (x.st.header + t.signExtend 53))) ∧
    (∀ (f : BrcF) (m : MReg) (inv : Bool) (taken : Mask), f.cond = .mask m inv →
      taken = x.st.em &&& (if inv then ~~~x.d.mask m else x.d.mask m) →
      (taken = 0 → exec (.brc f) s = .next (s.withStrand x fun st => st.jump x.st.nextClause)) ∧
      (taken ≠ 0 → x.st.em &&& ~~~taken = 0 → GoodTarget s x.core x.d.ctx (x.st.header + f.tgt.signExtend 53) →
        exec (.brc f) s = .next (s.withStrand x fun st => st.jump (x.st.header + f.tgt.signExtend 53))) ∧
      (taken ≠ 0 → x.st.em &&& ~~~taken ≠ 0 → GoodTarget s x.core x.d.ctx (x.st.header + f.tgt.signExtend 53) →
        (f.join ≠ 0 → GoodTarget s x.core x.d.ctx (x.st.header + f.join.signExtend 53)) →
        ∀ o, o = s.fork x (if f.join = 0 then none else some (x.st.header + f.join.signExtend 53)) x.st.rstack.length
            ⟨x.st.em &&& ~~~taken, x.st.nextClause, x.st.rstack⟩ [⟨taken, x.st.header + f.tgt.signExtend 53, x.st.rstack⟩] true →
          (∀ t, o = some t → exec (.brc f) s = .next t) ∧
          (o = none → exec (.brc f) s = .next (s.trapAt x.wid x.sid { cause := 0x2B, lanes := x.st.em, detail := 2 })))) ∧
    (∀ (f : BrxF) (e : Nat) (t u : Unit64) (tp p : Pc), OperandsOk s x { srcs := [(f.idx, 1)] } → tp = x.st.header + f.off.signExtend 53 →
      x.st.em ≠ 0 → (∀ l ∈ lanesOf x.st.em, (readyOf s x { srcs := [(f.idx, 1)] }).val 0 l = e) → s.fetchUnit x.core x.d.ctx tp = .unit t →
      e < (t.extractLsb' 0 16).toNat → t.extractLsb' 36 28 = 0 → s.fetchUnit x.core x.d.ctx (tp + 1 + BitVec.ofNat 53 e) = .unit u →
      u.extractLsb' 24 40 = 0 → p = tp + (u.extractLsb' 0 24).signExtend 53 → GoodTarget s x.core x.d.ctx p →
      exec (.brx f) s = .next ((readyOf s x { srcs := [(f.idx, 1)] }).commit.withStrand x fun st => st.jump p) ∧
      (x.st.rstack.length < 32 → ∃ v, v = ((readyOf s x { srcs := [(f.idx, 1)] }).commit.withStrand x fun st =>
          { st.jump p with rstack := x.st.nextClause :: x.st.rstack }) ∧
        exec (.callx f) s = .next (v.cleanReturn x.wid x.sid))) ∧
    (∀ t : BitVec 24, GoodTarget s x.core x.d.ctx (x.st.header + t.signExtend 53) →
      (x.st.rstack.length < 32 → ∃ v, v = (s.withStrand x fun st =>
          { st.jump (x.st.header + t.signExtend 53) with rstack := x.st.nextClause :: st.rstack }) ∧
        exec (.call t) s = .next (v.cleanReturn x.wid x.sid)) ∧
      (32 ≤ x.st.rstack.length → exec (.call t) s = .next (s.trapAt x.wid x.sid { cause := 0x2B, lanes := x.st.em, detail := 1 }))) ∧
    (∀ (p : Pc) (rest : List Pc), x.st.rstack = p :: rest → (∀ a ∈ returnWords x.d x.sid rest.length, (s.core x.core).mark a = 0) →
      GoodTarget s x.core x.d.ctx p → exec .ret s = .next (s.withStrand x fun st => { st.jump p with rstack := rest })) ∧
    (x.st.rstack = [] → exec .ret s = .next (s.trapAt x.wid x.sid { cause := 0x13, lanes := x.st.em, detail := 2 })) ∧
    (∀ (f : LoopF) (k : Nat) (v : Word), k = f.k.toNat → k < 48 → s.scalarBusy x.wid x.st.dom k = false →
      (s.core x.core).mark (x.d.scal k) = 0 → v = s.scalar x.core x.d k - 1 →
      (v = 0 → exec (.loop f) s = .next ((s.setScalar x.core x.d k 0).withStrand x fun st => st.jump x.st.nextClause)) ∧
      (v ≠ 0 → GoodTarget s x.core x.d.ctx (x.st.header + f.tgt.signExtend 53) →
        exec (.loop f) s = .next ((s.setScalar x.core x.d k v).withStrand x fun st => st.jump (x.st.header + f.tgt.signExtend 53)))) ∧
    (x.st.dom = 0 → x.sid ≠ 16 → x.st.mem &&& ~~~x.st.em ≠ 0 → exec .endl s = .next (s.withStrand x fun st =>
      { st.jump x.st.nextClause with em := st.em &&& ~~~x.st.em, mem := st.mem &&& ~~~x.st.em })) ∧
    (x.st.dom = 0 → x.sid ≠ 16 → x.st.mem &&& ~~~x.st.em = 0 → exec .endl s = .next ((s.withStrand x fun st =>
      { st.jump x.st.nextClause with em := st.em &&& ~~~x.st.em, mem := st.mem &&& ~~~x.st.em }).endStrand x.wid x.sid)) ∧
    (x.st.dom ≠ 0 → exec .endl s = .next (s.trapAt x.wid x.sid { cause := 0xC4, lanes := x.st.em, detail := 1 }))

/-- R63, R66, R104-R106, R122: strands part and meet. What a fork comes to: with an entry free for every further side they all run; else
the first side runs on in the entry, and what finds none is deferred. `brx` and `callx` whose lanes select several entries fork in the
order of the entries. A strand that reaches the innermost join of its ancestry, at its depth, waits there; one that holds a deferred record
sets its lanes aside and resumes the most recent; when all that descend from the split are there, they fuse, and the split is gone. The
last lane of a strand that holds a record ends into that record; without one the entry is free, and the warp ends with its last. A warp
whose strands stand at one `bar`, at one depth, is one strand behind it once released, with the lanes set aside there; lanes set aside at another
`bar` go on as records. -/
def Obligations.Divergence : Prop :=
  (∀ (s : State) (x : Who) (join : Option Pc) (depth : Nat) (keep : Side) (others : List Side) (taken : Bool),
    Tbl.find s.warps x.wid = some x.w → Tbl.find x.w.strands x.sid = some x.st → Forks s x join depth keep others taken) ∧
  (∀ (s u : State) (x y : Who) (f : BrxF) (tp : Pc) (hd : Unit64) (gs : List (Nat × Mask)) (us : List Unit64) (join : Option Pc)
      (sides : List (Mask × Pc)) (a b : Mask × Pc) (more : List (Mask × Pc)), Clear s x → OperandsOk s x { srcs := [(f.idx, 1)] } →
    tp = x.st.header + f.off.signExtend 53 → s.fetchUnit x.core x.d.ctx tp = .unit hd → hd.extractLsb' 36 28 = 0 →
    gs = groupBy ((lanesOf x.st.em).map fun l => (l, (readyOf s x { srcs := [(f.idx, 1)] }).val 0 l)) →
    (∀ l ∈ lanesOf x.st.em, (readyOf s x { srcs := [(f.idx, 1)] }).val 0 l < (hd.extractLsb' 0 16).toNat) →
    us.length = gs.length → (∀ p ∈ gs.zip us, s.fetchUnit x.core x.d.ctx (tp + 1 + BitVec.ofNat 53 p.1.1) = .unit p.2 ∧ p.2.extractLsb' 24 40 = 0) →
    join = (if hd.extractLsb' 16 20 = 0 then none else some (tp + (hd.extractLsb' 16 20).signExtend 53)) →
    (∀ p, join = some p → GoodTarget s x.core x.d.ctx p) →
    sides = (gs.zip us).map (fun g => (g.1.2, tp + (g.2.extractLsb' 0 24).signExtend 53)) → (∀ p ∈ sides, GoodTarget s x.core x.d.ctx p.2) →
    sides = a :: b :: more → u = (readyOf s x { srcs := [(f.idx, 1)] }).commit → u.strandAt x.wid x.sid = some y →
    (∀ o, o = u.fork y join x.st.rstack.length ⟨a.1, a.2, x.st.rstack⟩ ((b :: more).map fun p => ⟨p.1, p.2, x.st.rstack⟩) false →
      (∀ t, o = some t → exec (.brx f) s = .next t) ∧
      (o = none → exec (.brx f) s = .next (s.trapAt x.wid x.sid { cause := 0x2B, lanes := x.st.em, detail := 2 }))) ∧
    (x.st.rstack.length < 32 → ∀ o, o = u.fork y join x.st.rstack.length ⟨a.1, a.2, x.st.nextClause :: x.st.rstack⟩
        ((b :: more).map fun p => ⟨p.1, p.2, x.st.nextClause :: x.st.rstack⟩) false →
      (∀ t, o = some t → exec (.callx f) s = .next (t.cleanReturn x.wid x.sid)) ∧
      (o = none → exec (.callx f) s = .next (s.trapAt x.wid x.sid { cause := 0x2B, lanes := x.st.em, detail := 2 })))) ∧
  (∀ (s u : State) (x : Who) (i : Nat) (w : Warp), s.strandAt x.wid x.sid = some x →
    reachedJoin x.w.splits 64 x.st.split x.st.pc x.st.rstack.length = some i → u = s.park x.wid x.sid (.join i) →
    Tbl.find u.warps x.wid = some w →
    (u.fusable x.wid w i = false → (∀ d ∈ x.w.deferred, d.holder ≠ x.sid) → s.reachJoin x.wid x.sid = some u) ∧
    (u.fusable x.wid w i = false → ∀ d, (x.w.deferred.find? fun d => d.holder == x.sid) = some d →
      s.reachJoin x.wid x.sid = some (({ s with warps := Tbl.upd s.warps x.wid fun w =>
        { w with
          asides := ⟨x.sid, .join i, x.st.pc, x.st.clause, x.st.em, x.st.mem, x.st.split, x.st.rstack, x.st.dom⟩ :: w.asides
          deferred := w.deferred.erase d
          strands := Tbl.put w.strands x.sid
            (x.st.resumeAt d.pc d.clause d.em d.mem d.split d.rstack d.dom none) } } : State).tryJoin x.wid i)) ∧
    (u.fusable x.wid w i = true → ∀ k rest, (w.strands.filterMap fun p => if p.2.parked.any (fun q => q.1 == .join i) then some p.1 else none) =
        k :: rest → (k :: rest).Nodup → (Tbl.find w.strands k).isSome = true →
      ∃ t v, s.reachJoin x.wid x.sid = some t ∧ Fused u x.wid w k rest (w.asides.filter fun a => a.wait == .join i) t v ∧
        Tbl.find v.splits i = none ∧ ∀ b, Tbl.find v.strands k = some b → b.split = (Tbl.find w.splits i).bind Split.parent)) ∧
  (∀ (s t : State) (x : Who) (h : Header), s.who = some x → (∀ p, x.st.parked = some p → p.1.byEvent = false) → x.st.stepArm ≠ 2 →
    s.reachJoin x.wid x.sid = some t → exec (.clauseHeader h) s = .next t) ∧
  (∀ (s : State) (x : Who), s.strandAt x.wid x.sid = some x →
    (∀ d, (x.w.deferred.find? fun d => d.holder == x.sid) = some d →
      s.endStrand x.wid x.sid = { s with warps := Tbl.upd s.warps x.wid fun w =>
        { w with
          deferred := w.deferred.erase d
          strands := Tbl.put w.strands x.sid
            (x.st.resumeAt d.pc d.clause d.em d.mem d.split d.rstack d.dom none) } }) ∧
    ((∀ d ∈ x.w.deferred, d.holder ≠ x.sid) → (∀ a ∈ x.w.asides, a.holder ≠ x.sid) → (∀ p ∈ x.st.pends, p.own = false) →
      ∃ (u : State) (v : Warp), s.endStrand x.wid x.sid = u.releaseJoins x.wid ∧ u = { s with warps := u.warps } ∧ Tbl.find u.warps x.wid = some v ∧
        v.strands = Tbl.del x.w.strands x.sid ∧ (v.ended = true ↔ x.w.ended = true ∨ ∀ p ∈ Tbl.del x.w.strands x.sid, p.1 = 16))) ∧
  ∀ (s : State) (wid k n : Nat) (w : Warp) (rest : List Nat) (pc : Pc), Tbl.find s.warps wid = some w → Tbl.keys w.strands = k :: rest →
    (k :: rest).Nodup → (∀ p ∈ w.strands, p.2.pc = pc ∧ p.2.rstack.length = n ∧ ∃ j t, p.2.parked = some (.bar j, t)) →
    ∃ v, Fused s wid w k rest (w.asides.filter fun a => a.wait.isBar && (a.pc, a.rstack.length) == (pc, n)) (s.releaseWarp wid) v ∧
      (∀ b, Tbl.find v.strands k = some b → b.pc = pc + 1) ∧ v.asides = (w.inherit k rest).asides.filter (fun a => !a.wait.isBar) ∧
      v.deferred = (((w.inherit k rest).asides.filter fun a => a.wait.isBar && !((a.pc, a.rstack.length) == (pc, n))).map fun a =>
        ⟨a.holder, (afterBar a.pc a.clause).1, (afterBar a.pc a.clause).2, a.em, a.mem, a.split, a.rstack, a.dom⟩) ++ (w.inherit k rest).deferred

/-! ## Class 7 -/

/-- R60, R218, R219: front-end contexts. Control: `bra`, `call`, `ret` and `loop` as for strands, on the context's registers; `brc` on a
register; `brx`, `callx` and `end` are invalid and stop the context. Arithmetic completes: the destination holds the 64-bit result, a
`zero` destination aside, and nothing else changes; with a load to a register of the instruction in flight it waits. -/
def Obligations.FrontEndBasics : Prop :=
  (∀ (s : State) (x : FeWho), FeClear s x →
    (∀ t : BitVec 24, GoodTarget s x.k.core x.ctx (x.f.header + t.signExtend 53) →
      exec (.bra t) s = .next (s.withFe x fun f => f.jump (x.f.header + t.signExtend 53))) ∧
    (∀ (f : BrcF) (k : Fin 32) (inv : Bool), f.cond = .areg k inv → f.join = 0 → FeFree s x [k.val] →
      ((if inv then x.reg k.val = 0 else x.reg k.val ≠ 0) → GoodTarget s x.k.core x.ctx (x.f.header + f.tgt.signExtend 53) →
        exec (.brc f) s = .next (s.withFe x fun g => g.jump (x.f.header + f.tgt.signExtend 53))) ∧
      ((if inv then x.reg k.val ≠ 0 else x.reg k.val = 0) → exec (.brc f) s = .next (s.withFe x fun g => g.jump x.f.nextClause))) ∧
    (∀ t : BitVec 24, x.f.rstack.length < 32 → GoodTarget s x.k.core x.ctx (x.f.header + t.signExtend 53) →
      exec (.call t) s = .next (s.withFe x fun f =>
        { f.jump (x.f.header + t.signExtend 53) with rstack := x.f.nextClause :: f.rstack })) ∧
    (∀ (p : Pc) (rest : List Pc), x.f.rstack = p :: rest → GoodTarget s x.k.core x.ctx p →
      exec .ret s = .next (s.withFe x fun f => { f.jump p with rstack := rest })) ∧
    (∀ (f : LoopF) (k : Nat), k = f.k.toNat → k < 32 → FeFree s x [k] →
      (x.reg k = 1 → exec (.loop f) s = .next (s.withFe x fun g => { g.jump x.f.nextClause with regs := g.regs.set k 0 })) ∧
      (x.reg k ≠ 1 → GoodTarget s x.k.core x.ctx (x.f.header + f.tgt.signExtend 53) →
        exec (.loop f) s = .next (s.withFe x fun g =>
          { g.jump (x.f.header + f.tgt.signExtend 53) with regs := g.regs.set k (x.reg k - 1) }))) ∧
    (∀ f, exec (.brx f) s = .next (s.feStop x.cid { cause := 0x7C })) ∧ (∀ f, exec (.callx f) s = .next (s.feStop x.cid { cause := 0x7C })) ∧
    exec .endl s = .next (s.feStop x.cid { cause := 0x7C })) ∧
  ∀ (i : Instr) (q : FeRule) (s : State) (x : FeWho), feRule i = some q → FeClear s x →
    (FeFree s x (AOpnd.regs q.d ++ AOpnd.regs q.a ++ AOpnd.regs q.b) →
      exec i s = .next (s.withFe x fun f => f.done q.d (q.g (x.val q.a) (x.val q.b)))) ∧
    (¬ FeFree s x (AOpnd.regs q.d ++ AOpnd.regs q.a ++ AOpnd.regs q.b) → exec i s = .next (s.stall x.cid .release))

/-- R220, R221, R224: the queues of front-end contexts. `amov` moves between registers and queues, a scalar entry at a time; `apush` pushes one vector
entry whose lane l is A + l · B, `apushm` one whose words it has loaded; `apop` takes the head of an output queue, a vector entry as pairs
of words. A push waits for room and for the context's accesses, a pop for an entry. -/
def Obligations.FrontEndQueues : Prop :=
  ∀ (s : State) (x : FeWho) (i : Nat) (w : Warp), FeClear s x →
    (∀ f : AMovF, (∀ k, f.a ≠ .q k) → (∀ k, f.d ≠ .q k) → FeFree s x (AOpnd.regs f.d ++ AOpnd.regs f.a) →
      exec (.amov f) s = .next (s.withFe x fun g => g.done f.d (x.val f.a))) ∧
    (∀ (f : AMovF) (q : Fin 8), f.d = .q q → (∀ k, f.a ≠ .q k) → FeFree s x (AOpnd.regs f.a) → s.feWarp x f.warp = some (i, w) →
      (w.queue q.val).entries.length < 16 → s.unfinished (.fe x.cid) = false →
      exec (.amov f) s = .next ((s.push i (some (q.val, [⟨false, [(x.val f.a).setWidth 32]⟩]))).withFe x fun g => g.advance 1)) ∧
    (∀ (f : AMovF) (q : Fin 8) (e : QEntry) (l : List QEntry), f.a = .q q → (∀ k, f.d ≠ .q k) → FeFree s x (AOpnd.regs f.d) →
      s.feWarp x f.warp = some (i, w) → (w.queue q.val).entries = e :: l →
      exec (.amov f) s = .next ((s.fePop i q.val).withFe x fun g => g.done f.d ((e.words.getD 0 0).setWidth 64))) ∧
    (∀ f : ApushF, FeFree s x (AOpnd.regs f.a ++ AOpnd.regs f.b) → s.feWarp x f.warp = some (i, w) →
      (16 ≤ (w.queue f.q.val).entries.length → exec (.apush f) s = .next (s.stall x.cid .queue)) ∧
      ((w.queue f.q.val).entries.length < 16 → s.unfinished (.fe x.cid) = true → exec (.apush f) s = .next (s.stall x.cid .release)) ∧
      ((w.queue f.q.val).entries.length < 16 → s.unfinished (.fe x.cid) = false →
        exec (.apush f) s = .next ((s.push i (some (f.q.val, [⟨true, (List.range w.width).map fun l =>
          (x.val f.a + BitVec.ofNat 64 l * x.val f.b).setWidth 32⟩]))).withFe x fun g => g.advance 1))) ∧
    (∀ (f : ApushmF) (ws : List Word), FeFree s x (AOpnd.regs f.a) → s.feWarp x f.warp = some (i, w) → x.f.arriving = some ws →
      (w.queue f.q.val).entries.length < 16 → s.unfinished (.fe x.cid) = false →
      exec (.apushm f) s = .next ((s.push i (some (f.q.val, [⟨true, ws⟩]))).withFe x fun g => { g.advance 1 with arriving := none })) ∧
    ∀ (f : ApopF), s.feWarp x f.warp = some (i, w) →
      (∀ (e : QEntry) (l : List QEntry), (w.queue (4 + f.q.val)).entries = e :: l → FeFree s x ((popRegs f.d.val e).map Prod.fst) →
        f.d.val + (popRegs f.d.val e).length ≤ 32 →
        exec (.apop f) s = .next ((s.fePop i (4 + f.q.val)).withFe x fun g =>
          { g.advance 1 with regs := (popRegs f.d.val e).foldl (fun r p => r.set p.1 p.2) g.regs })) ∧
      ((w.queue (4 + f.q.val)).entries = [] → (w.queue (4 + f.q.val)).closed = false → exec (.apop f) s = .next (s.stall x.cid .queue))

/-- R221-R223: memory, commands and the end of front-end contexts. `ald` requests its word, and its register is in flight; `ast` requests its
store; `akvw` sets its four registers from the context store; `aeng` issues a command for a warp, as the warp would; `await` goes on
once the pair's generation is reached, and waits till then; `aend` stops the context without a cause and closes the queues to its warps. -/
def Obligations.FrontEndCommands : Prop :=
  ∀ (s : State) (x : FeWho), FeClear s x → x.f.stalled = none →
    (∀ (f : AldF) (l va : Nat) (tr : Tr), FeFree s x (AOpnd.regs f.d ++ AOpnd.regs f.a) →
      s.memCheck (.fe x.cid) x.k.core x.ctx 0 (x.rcd f.rcd) .load .warp [(0, (x.val f.a).setWidth 32)] 0 (AWidth.bytes f.width) false =
        .ok [(l, va, tr)] → tr.isReplay = false →
      ∃ u, u = ((s.dropWalks (.fe x.cid)).fillTlb x.k.core x.ctx va).feRequest x (x.rcd f.rcd) .load (AWidth.bytes f.width)
          [⟨l, va, tr.paOr, [], 0, 0, 0, (AOpnd.regs f.d).flatMap fun d => [(0, 2 * d), (1, 2 * d + 1)]⟩] (some 0) ∧
        exec (.ald f) s = .next (u.withFe x fun g => g.advance 1)) ∧
    (∀ (f : AstF) (l va : Nat) (tr : Tr), FeFree s x (AOpnd.regs f.a ++ AOpnd.regs f.b) →
      s.memCheck (.fe x.cid) x.k.core x.ctx 0 (x.rcd f.rcd) .store .warp [(0, (x.val f.a).setWidth 32)] 0 (AWidth.bytes f.width) false =
        .ok [(l, va, tr)] → tr.isReplay = false →
      ∃ u, u = ((s.dropWalks (.fe x.cid)).fillTlb x.k.core x.ctx va).feRequest x (x.rcd f.rcd) .store (AWidth.bytes f.width)
          [⟨l, va, tr.paOr, leBytes (AWidth.bytes f.width) (x.val f.b).toNat, 0, 0, 0, []⟩] none ∧
        exec (.ast f) s = .next (u.withFe x fun g => g.advance 1)) ∧
    (∀ (f : AkvwF) (m : Mdl) (n : Nat) (r : SeqRec) (q : KvPos),
      FeFree s x (((List.range 4).map fun i => f.d.val + i) ++ AOpnd.regs f.a ++ AOpnd.regs f.b ++ AOpnd.regs f.c) →
      (x.val f.a).toNat < 2 ^ 32 → s.seqOf x.ctx (x.val f.a).toNat = some (m, n, r) → m.areaFault s false = none →
      m.resolve s r (x.val f.b).toNat (x.val f.c).toNat false = .ok q →
      exec (.akvw f) s = .next (s.withFe x fun g =>
        { g.advance 1 with
          regs := (((g.regs.set f.d.val (BitVec.ofNat 64 (m.pool + q.block * m.bsize))).set (f.d.val + 1) (BitVec.ofNat 64 (q.k % 16))).set
            (f.d.val + 2) (BitVec.ofNat 64 q.abs)).set (f.d.val + 3) (BitVec.ofNat 64 (if q.wm = 0 then 0 else 1)) })) ∧
    (∀ (f : AengF) (wid : Nat) (w : Warp) (d : Dom) (i : Iss) (h : EHdr), s.feWarp x f.wt = some (wid, w) → w.dom 0 = some d →
      i = x.iss wid w d → h = ⟨0, f.sync, f.stat⟩ → (∀ c, f.body = .copy c → c.thn = false) → EngOk s i h (engReads s i f.body) (engChk s i f.body) (engWrites f.body) →
      LastOk s i h f.body →
      ((s.core x.k.core).cmds.length < 16 → ∃ t, Accepted s i h f.body (engTake s i f.body) (w.seqno + 1) none none t ∧
        exec (.aeng f) s = .next (t.withFe x fun g => g.advance 2)) ∧
      (16 ≤ (s.core x.k.core).cmds.length → exec (.aeng f) s = .next (s.stall x.cid .engine))) ∧
    (∀ (f : AwaitF) (wid k : Nat) (w : Warp) (d : Dom), k = f.k.toNat → FeFree s x (AOpnd.regs f.a) → s.feWarp x f.warp = some (wid, w) →
      w.dom 0 = some d → (s.core x.k.core).mark (d.scal k) = 0 → (s.core x.k.core).mark (d.scal (k + 1)) = 0 → s.pendingOn wid 0 k = none →
      (genReached (syncGen (s.pair x.k.core d k)) ((x.val f.a).toNat % 65536) = true →
        exec (.await f) s = .next (s.withFe x fun g => g.advance 1)) ∧
      (genReached (syncGen (s.pair x.k.core d k)) ((x.val f.a).toNat % 65536) = false → exec (.await f) s = .next (s.stall x.cid .sync))) ∧
    exec .aend s = .next ((s.withFe x fun f => { f with stopped := some { cause := 0 }, stalled := none }).closeFeQueues x.k)

/-! ## Timers, errors and ports -/

/-- R315, R317, R318, R343, R349, R374: what runs out. A handler of the warp rung or of the crew rung that has run for its TTIME is
over; a gate call that has run for its TIMEOUT is killed and the host notified; a context whose notice is 10 ms old is killed, and one
whose notice is 20 ms old takes its partition along, as does one that has not stopped 1 ms after it was asked to; a partition reset of
200 ms resets the device. A WAIT is answered by 0 when its condition holds, and else by 1 after its timeout; the two numbers are the
model's (log 7). -/
def Obligations.TimersExpire : Prop :=
  ∀ (s : State),
    (∀ (w i : Nat) (x : Who) (c : Context) (t : TrapRec), s.strandAt w i = some x → Tbl.find s.ctxs x.d.ctx = some c → c.run = .running →
      (∀ k, Tbl.find s.crews x.w.crew = some k → k.rung = none ∧ k.rungQ = []) → x.st.level = 1 → x.opened = false → x.d.trapRec = some t →
      t.sid = x.sid →
      t.start + 700 * (x.d.csrs.ttime.extractLsb' 0 16).toNat ≤ s.time →
      exec (.handlerTimeout (.strand w i)) s = .next (s.leaveWarpRung x { cause := 0xCB, lanes := x.st.em } x.st.pc 0xCB
        (trungFirst x.d.csrs.trung) x.sid)) ∧
    (∀ (w i : Nat) (x : Who) (c : Context) (k : Crew) (r : CrewRung), s.strandAt w i = some x → Tbl.find s.ctxs x.d.ctx = some c →
      c.run = .running → Tbl.find s.crews x.w.crew = some k → k.rung = some r → r.warp = x.wid → r.sid = x.sid → x.w.dom 0 = some x.d →
      r.start + 700 * (x.d.csrs.ttime.extractLsb' 16 16).toNat ≤ s.time →
      exec (.handlerTimeout (.strand w i)) s = .next ((s.park x.wid x.sid .handler).enterCtx x.d.ctx 0xCB (rungVals (x.d.csrs.ofTrap { cause := 0xCB, lanes := x.st.em }
        x.st.pc (x.d.csrs.trung &&& 0xFFFFFFFFFF00FFFF ||| 0xCB0000)) (widOf x.wid x.w)))) ∧
    (∀ (wid dn : Nat) (w : Warp) (d : Dom) (k : Call) (c : Crew), Tbl.find s.warps wid = some w → w.dom dn = some d → d.call = some k →
      Tbl.find s.crews w.crew = some c → s.awake (s.crewCtx c) = true → k.start + 700 * k.tout ≤ s.time →
      exec (.gateTimeout wid dn) s = .next
        ((s.notify ⟨0xC6, s.partOf d.ctx, d.ctx, rungVals d.csrs (widOf wid w)⟩).killCall 8 wid dn 0xC6 0)) ∧
    (∀ (ctx t : Nat) (c : Context) (r : CtxRung), Tbl.find s.ctxs ctx = some c → c.rung = some r → r.noticed = some t →
      (t + 7000000 ≤ s.time → exec (.noticeAnswerTimeout ctx) s = .next (s.killCtx ctx none)) ∧
      (t + 14000000 ≤ s.time → exec (.contextRungTimeout ctx) s = .next (s.resetPart c.part))) ∧
    (∀ (ctx : Nat) (c : Context), Tbl.find s.ctxs ctx = some c → c.run = .stopping → c.since + 700000 ≤ s.time →
      exec (.preemptionTimeout ctx) s = .next (s.resetPart c.part)) ∧
    (∀ (n t : Nat) (p : Part), Tbl.find s.parts n = some p → p.run = .resetting t → t + 140000000 ≤ s.time →
      exec (.partitionResetTimeout n) s = .next s.resetDevice) ∧
    ∀ (n : Nat) (w : HostWait), Tbl.find s.waits n = some w →
      (s.waitHolds w.ctx w.cond = true →
        exec (.waitTimeout n) s = .next (({ s with waits := Tbl.del s.waits n } : State).reply w.hdr 0 (leBytes 8 0))) ∧
      (s.waitHolds w.ctx w.cond = false → w.since + 700 * w.timeout ≤ s.time →
        exec (.waitTimeout n) s = .next (({ s with waits := Tbl.del s.waits n } : State).reply w.hdr 0 (leBytes 8 1)))

/-- R318-R320, R367, R376: power-on, errors and ports. Start-up measures, and goes on unless the fuses fail, which every port that comes up is told with 0xE4. An
uncorrectable error marks the word or the line, or drops the entry, and is counted; one in a shadow store kills the context. Machine
checks reset the device, and three of them stop arithmetic. A memory port that goes down is counted, and the accesses that wait for it
fail; with a network port fail the requests of the ordered flows on it, with the last one every request, with 0x59. At a window of the weirs
every allowance is its budget, less what a step had drawn ahead (log 97). -/
def Obligations.ErrorsAndStops : Prop :=
  (∀ s : State, s.boot = .off →
    ∃ t : State, t = { s with measured := some Config.measurement, portsUp := Config.portsUpAtStart, upSince := s.time } ∧
      (Config.fusesPass = true → exec .powerOn s = .next { t with boot := .up }) ∧
      (Config.fusesPass = false →
        exec .powerOn s = .next { t with
          boot := .stopped
          outbox := s.outbox ++ ((List.range 32).filter fun i => Config.portsUpAtStart.getLsbD i).map fun i =>
            .notice (.port (384 + i)) ⟨0xE4, 0, 0, bareVals 0xE4⟩ })) ∧
  (∀ (s : State) (core addr : Nat), core < 2304 → addr < 131072 →
    ∃ t : State, exec (.registerSoftError core addr) s = .next (t.count 0x54) ∧ (t.core core).mark addr = 0x54 ∧
      (∀ b, (t.core core).word b = (s.core core).word b) ∧ (∀ b, b ≠ addr → (t.core core).mark b = (s.core core).mark b) ∧
      (∀ c, c ≠ core → t.core c = s.core c) ∧ t = { s with cores := t.cores }) ∧
  (∀ (s : State) (die clus : Nat), die < 4 → clus < 72 → exec (.instructionStoreSoftError die clus) s = .next (s.count 0x55)) ∧
  (∀ (s : State) (line : Nat), s.populated (256 * line) = true →
    (tier2 (256 * line) = false → exec (.memorySoftError line) s = .next ((s.setLineMark (256 * line) 0x56).count 0x56)) ∧
    (tier2 (256 * line) = true → exec (.memorySoftError line) s = .next ((s.setLineMark (256 * line) 0x57).count 0x57))) ∧
  (∀ (s : State) (die ctx : Nat) (c : Context) (v : Saved) (p : Nat × Core), Tbl.find s.ctxs ctx = some c → c.run ≠ .killed →
    Tbl.find s.saved c.part = some v → p ∈ v.cores → dieOf p.1 = die →
    exec (.shadowStoreSoftError die ctx) s = .next (((s.count 0x5A).enterCtx ctx 0x5A (bareVals 0x5A)).killCtx ctx (some 0x5A))) ∧
  (∀ (s : State) (core e : Nat), e < (s.core core).tlb.length →
    exec (.tlbSoftError core e) s = .next ((s.updCore core fun c => { c with tlb := c.tlb.eraseIdx e }).count 0x5B)) ∧
  (∀ s : State, exec .dieLinkRetriesExhausted s = .next (s.count 0x58).resetDevice ∧
    exec .firmwareWatchdog s = .next (s.count 0x5F).resetDevice ∧
    exec .thermalStop s = .next (({ s with arith := some 0x5C } : State).count 0x5C).resetDevice ∧
    exec .powerStop s = .next (({ s with arith := some 0x5D } : State).count 0x5D).resetDevice ∧
    exec .clockStop s = .next (({ s with arith := some 0x5E } : State).count 0x5E).resetDevice) ∧
  (∀ (s : State) (port : Nat), s.portsDown.contains port = false →
    ∃ t : State, t = ({ s with portsDown := s.portsDown ++ [port] } : State).count 0x59 ∧
      (port < 400 → exec (.portDown port) s = .next ((s.accs.filter fun p => !p.2.done && !p.2.replay &&
        t.portOf (p.2.lanes.headD ⟨0, 0, 0, [], 0, 0, 0, []⟩).pa == port && t.awake p.2.ctx).foldl (fun (s : State) p => s.failAccess p.1 p.2) t)) ∧
      (400 ≤ port → port < 416 → t.anyNetUp = false →
        exec (.portDown port) s = .next (s.nets.foldl (fun u q => u.netStatus q.2 0x59) { t with nets := [] })) ∧
      (400 ≤ port → port < 416 → t.anyNetUp = true → (∀ q ∈ s.nets, q.2.ordered = true) →
        exec (.portDown port) s = .next ((s.nets.filter fun q => s.flowPort q.2.ctx q.2.peer == some (port - 400)).foldl
          (fun u q => u.netStatus q.2 0x59)
          { t with nets := s.nets.filter fun q => !(s.flowPort q.2.ctx q.2.peer == some (port - 400)) }))) ∧
  ∀ s : State, exec .weirWindow s = .next { s with weirs := s.weirs.map fun w => { w with left := w.budget + min w.left 0 } }

/-- R159, R160, R163: migration. The sequencer of a die takes its oldest fault whose page is not moving: one whose page is present by now
replays; one whose page lies behind a port that is down is reported with 0x4F; one whose span is its own page begins to move it, if no
instruction store holds a clause of it, into the frame found for it, with HOME 10. A migration that ends leaves its pages present, and
their faults replay; before that its lines move as the weirs let them (R367). Which frame it is is the model's choice where none is
offered (log 13). -/
def Obligations.PagesMove : Prop :=
  (∀ (s : State) (die level pte : Nat) (frames : List Nat) (f : FaultEnt) (e : Pte) (va : Nat),
    (s.faults.find? fun f => f.die == die && !s.moving f.ctx f.va && (Tbl.find s.ctxs f.ctx).any fun c => c.run == .running) = some f →
    s.walk f.ctx f.va = .leaf level pte e → va = f.va / 2 ^ e.log * 2 ^ e.log →
    (e.v = true → exec (.migration die frames) s = .next (s.replayAll f.ctx fun v => v / 2 ^ e.log * 2 ^ e.log == va)) ∧
    (e.v = false → e.home = 1 → f.span ≤ e.log → s.walk f.ctx va = .leaf level pte e → s.codeHeld f.ctx va (2 ^ e.log) = false →
      ((tier2 e.addr && !s.reachable e.addr) = true → exec (.migration die frames) s = .next
        (s.enterCtx f.ctx 0x4F (s.faultVals f.who 0x4F f.va))) ∧
      ((tier2 e.addr && !s.reachable e.addr) = false → ∀ (u : State) (fr : Nat), s.pickFrame die f.ctx e.log e.addr frames = some (u, fr) →
        ∃ t : State, t = u.writeLeaves level va pte e (e.place false 2 e.addr) ∧
          exec (.migration die frames) s = .next { t with
            nextId := t.nextId + 1
            migs := Tbl.put t.migs t.nextId ⟨die, f.ctx, [(va, e.log, e.addr, fr)], t.faultClass f, 0⟩ }))) ∧
  ∀ (s t : State) (id n : Nat) (m : Mig), Tbl.find s.migs id = some m → s.isOut m.ctx = false →
    ((s.weirs = [] ∧ t = s) ∨ (s.weirs ≠ [] ∧ s.moveLines m.cls (m.moves.drop m.lines) m.lines = (n, t))) →
    ((s.weirs = [] ∨ m.moves.length ≤ n) → exec (.migrationComplete id) s = .next
      ((m.pages.foldl (fun (s : State) p => s.endMove m.ctx p) { t with migs := Tbl.del t.migs id }).replayAll m.ctx fun v =>
        m.pages.any fun p => v / 2 ^ p.2.1 == p.1 / 2 ^ p.2.1)) ∧
    (s.weirs ≠ [] → n < m.moves.length →
      exec (.migrationComplete id) s = .next { t with migs := Tbl.put s.migs id { m with lines := n } })

/-- R369-R371: the network. The engine takes the next committed slot of a running context's send ring, and releases it: a request that
passes its checks goes out with the bytes it sends, one that fails is answered with its cause at once. A request that is answered
writes its status and adds to its completion word, once none before it of its ordered flow is outstanding; one that reads gets its bytes
first. A peer's request whose key the context accepts,
and whose ranges it may write, is performed: its bytes, and then its signal. -/
def Obligations.NetworkRequests : Prop :=
  (∀ (s : State) (ctx slot : Nat) (c : Context) (b b1 b2 : RingBlk) (t u : Word) (r : NetReq), Tbl.find s.ctxs ctx = some c → c.run = .running →
    s.ringCheck ctx c.sendRing = .ok b → b.slog = 6 → b.step (.acq true 0 0) = .ok b1 t → b1 ≠ b →
    slot = b.f 503 448 + t.toNat % b.slots * 64 → s.recFault ctx slot 64 .both = none → r = ⟨ctx, slot, s.vrec ctx slot 512, []⟩ →
    b1.step (.rel t.toNat) = .ok b2 u →
    (s.netCheck c r = .ok → ∃ v : State, v = s.putRing ctx c.sendRing b2 ∧
      exec (.networkRequest ctx) s = .next { v with
        nextId := v.nextId + 1
        nets := Tbl.put v.nets v.nextId { r with data := if r.op ≤ 2 then s.vread ctx r.lva r.len else [] } }) ∧
    ∀ cause, s.netCheck c r = .fail cause →
      exec (.networkRequest ctx) s = .next ((s.putRing ctx c.sendRing b2).netStatus r cause)) ∧
  (∀ (s : State) (n cause : Nat) (data : List Byte) (r : NetReq), Tbl.find s.nets n = some r → cause ∈ [0, 0x48, 0x49, 0x4B, 0x59, 0x4F] →
    s.flowBefore n r = false →
    ((cause ≠ 0 ∨ r.op ≠ 4) → exec (.networkCompletion n cause []) s = .next (({ s with nets := Tbl.del s.nets n } : State).netStatus r cause)) ∧
    (cause = 0 → r.op = 4 → data.length = r.len → s.rangeFault r.ctx r.lva r.len .write = none →
      exec (.networkCompletion n cause data) s = .next
        ((({ s with nets := Tbl.del s.nets n } : State).landBytes r.ctx r.lva data).netStatus r 0))) ∧
  ∀ (s : State) (r : PeerReq) (c : Context), Tbl.find s.ctxs r.ctx = some c → c.run ≠ .killed → (∃ p ∈ c.peers, p.key = r.key) →
    s.anyNetUp = true → (r.op.toNat ∈ [1, 2] → r.bytes.length = r.len ∧ s.rangeFault r.ctx r.rva r.len .write = none) →
    (r.op.toNat ∈ [2, 3] → r.sva % 8 = 0 ∧ s.rangeFault r.ctx r.sva 8 .both = none) →
    ∃ t : State, t = s.landBytes r.ctx r.rva r.bytes ∧
      (r.op.toNat = 1 → exec (.peerRequestReceived r) s = .next t) ∧
      (r.op.toNat = 2 → exec (.peerRequestReceived r) s = .next (t.signalAt r.ctx r.sva r.sadd)) ∧
      (r.op.toNat = 3 → exec (.peerRequestReceived r) s = .next (s.signalAt r.ctx r.sva r.sadd))

/-- R171, R347-R352: pre-emption and the swap. A party of a stopping context acknowledges at its boundary, once, and a command leaves its core's
array (R239); one that waits in a `waita` resumes with status 1 first. Once every context of a partition has stopped, a PREEMPT that names a partition that is out, and that
fits, sends the one to the shadow store and brings the other back; one that does not fit is answered with 0xCE. -/
def Obligations.PreemptionAndSwap : Prop :=
  (∀ (s : State) (ctx : Nat) (p : Party) (c : Context), Tbl.find s.ctxs ctx = some c → c.run = .stopping → p ∈ s.parties ctx →
    (∀ a w, p = .agent a → (s.waiters.find? fun w => (Tbl.find s.accs w.acc).any fun q => q.agent == a) = some w →
      exec (.preemptAcknowledge ctx p) s = .next (s.endWaita w.acc (s.waitWord w) 1)) ∧
    ((∀ a, p = .agent a → s.waiterOf a = none) → s.atBoundary p = true →
      ∃ t : State, t = (s.leaveArray p).updCtx ctx (fun c => { c with acks := if c.acks.contains p then c.acks else p :: c.acks }) ∧
        exec (.preemptAcknowledge ctx p) s = .next (t.tryStop ctx) ∧
        ((∃ q ∈ t.parties ctx, ∀ k, Tbl.find t.ctxs ctx = some k → q ∉ k.acks) → t.tryStop ctx = t) ∧
        ((∀ k, Tbl.find t.ctxs ctx = some k → ∀ q ∈ t.parties ctx, q ∈ k.acks ∧ t.atBoundary q = true) →
          t.tryStop ctx = ((t.updCtx ctx fun c => { c with run := .stopped, since := s.time, acks := [], pstate := 0 }).sendRungNotice
            ctx).answerHeld fun h => h.ctx == ctx && h.swapIn.isNone))) ∧
  ∀ (s : State) (out i : Nat) (h : Held) (p q : Part), (s.held.find? fun h => h.part == out && h.swapIn == some i) = some h →
    Tbl.find s.parts out = some p → Tbl.find s.parts i = some q → p.run = .resident → q.run = .out →
    (∀ c ∈ s.ctxsOf out, ∃ k, Tbl.find s.ctxs c = some k ∧ (k.run = .stopped ∨ k.run = .killed)) →
    (s.shadowFits p (some i) = true → s.clustersFree i q (some out) = true →
      exec (.partitionSwap out (some i)) s = .next
        ((({ (s.swapOut out p) with held := s.held.filter (· ≠ h) } : State).swapIn i q).reply h.hdr 0 [])) ∧
    (s.shadowFits p (some i) = false →
      exec (.partitionSwap out (some i)) s = .next
        (({ s with held := s.held.filter (· ≠ h) } : State).reply h.hdr 0xEE (leBytes 8 (0xCE + 0xFFFFFFFF * 2 ^ 32))))

/-! ## Commands of hosts -/

/-- R373, R374, R376: nothing is received before the mailboxes are open; a header that R373 does not allow, or that the mailbox does not
take from its sender, is answered with 0xE2; a context that the command's partition does not hold, with the code of the class and
0xD0. Nothing else happens then, but that SEQ is taken of a good header. -/
def Obligations.HeadersOfCommands : Prop :=
  (∀ (i : Instr) (h : HostHdr) (op : Nat) (s : State), hostInstr i = some (h, op) →
    (s.boot ≠ .up → exec i s = .next s) ∧
    (s.boot = .up → ¬ HostHdr.Good s h op → exec i s = .next (s.reply h 0xE2 []))) ∧
  ∀ (i : Instr) (h : HostHdr) (op : Nat) (s : State), ctxInstr i = some h → hostInstr i = some (h, op) → Takes s h op →
    (∀ c, ¬ Holds s h c) → exec i s = .next ((s.takeSeq h).refused h (classCode op) 0xD0)

/-- R281, R318, R320, R336, R365, R367, R368, R374, R376: the commands of the device, and those that make and end contexts. -/
def Obligations.DeviceCommands : Prop :=
  ∀ (s u : State) (h : HostHdr), u = s.takeSeq h →
    (∀ sig, Takes s h 0x01 →
      (Config.operatorVerifies (Config.sessionNonce s.tick) sig = true → exec (.hello h sig) s = .next
        (({ u with session := some (h.src, Config.sessionNonce s.tick) } : State).reply h 0
          (leBytes 8 Config.deviceId.toNat ++ leBytes 32 (Config.sessionNonce s.tick).toNat ++ leBytes 8 s.cxlPorts.length ++
            leBytes 8 s.portsNow ++ leBytes 8 s.rtc))) ∧
      (Config.operatorVerifies (Config.sessionNonce s.tick) sig = false → exec (.hello h sig) s = .next (u.refused h 0xE7 0x11 (some 0)))) ∧
    (Takes s h 0x02 → ∀ m, s.measured = some m → exec (.measure h) s = .next (u.reply h 0 (leBytes 64 m.toNat))) ∧
    (∀ n, Takes s h 0x03 →
      (Config.deviceKeyPresent = true → exec (.attest h n) s = .next (u.reply h 0 (leBytes 114 (Config.attestSignature n).toNat))) ∧
      (Config.deviceKeyPresent = false → exec (.attest h n) s = .next (u.reply h 0xE3 []))) ∧
    (∀ (f : PartCreateF) (p : Part), Takes s h 0x04 → p = ⟨f.clusters, f.host, f.gatePool, [], [], .resident⟩ → f.num < 32 →
      (∀ c ∈ f.clusters, c.1 < 4) → (f.clusters.map Prod.fst).eraseDups.length = f.clusters.length → Tbl.find s.parts f.num = none →
      (∀ q ∈ s.parts, q.2.run ≠ .out → ∀ a ∈ q.2.clusters, ∀ b ∈ f.clusters, a.1 = b.1 → a.2 &&& b.2 = 0) →
      (∀ c ∈ f.clusters, c.2 ≠ 0 → s.partsOn c.1 ≠ 8) → f.gatePool ≤ 1024 →
      ∃ t : State, exec (.partCreate h f) s = .next t ∧ t = { u with cores := t.cores, parts := Tbl.put s.parts f.num p, outbox := t.outbox } ∧
        t.outbox = s.outbox ++ [.reply ⟨h.box, h.op, h.tag, h.part, h.ctx, 0, []⟩] ∧
        (∀ c ∈ p.cores, t.core c = { Core.empty with pool := f.gatePool, gens := (s.core c).gens }) ∧
        ∀ c, c ∉ p.cores → t.core c = s.core c) ∧
    (∀ (n : Nat) (p : Part), Takes s h 0x05 → Tbl.find s.parts n = some p →
      ∃ t : State, exec (.partDestroy h n) s = .next t ∧ Tbl.find t.parts n = none ∧ (∀ g ∈ t.gates, gfield g.2 504 500 ≠ n) ∧
        (∀ w ∈ t.weirs, w.part ≠ n) ∧ t.outbox.getLast? = some (.reply ⟨h.box, h.op, h.tag, h.part, h.ctx, 0, []⟩)) ∧
    (∀ (f : StitchF) (p : Part), Takes s h 0x06 → Tbl.find s.parts f.part = some p → f.die < 4 →
      (s.regionBad f p = true → exec (.partStitch h f) s = .next (u.refused h 0xE8 0xE5)) ∧
      (s.regionBad f p = false → ∃ l, l = p.regions.filter (fun r => !(r.1 == f.die && r.2.1 == f.bitmap)) ++
          (if shapeField f.shape 15 14 = 0 then [] else [(f.die, f.bitmap, f.shape)]) ∧
        exec (.partStitch h f) s = .next (({ u with parts := Tbl.put s.parts f.part { p with regions := l } } : State).reply h 0 []))) ∧
    (∀ (f : CtxCreateF), Takes s h 0x07 → f.root % 8192 = 0 → s.populated f.root = true → f.peers.length ≤ 64 →
      Tbl.find s.ctxs h.ctx = none → (∀ c ∈ s.ctxs, c.2.asid ≠ f.asid.toNat) →
      exec (.ctxCreate h f) s = .next (({ u with ctxs := Tbl.put s.ctxs h.ctx (Context.create h.part f) } : State).reply h 0 [])) ∧
    (∀ (c : Context), Takes s h 0x08 → Holds s h c →
      ∃ t : State, t = (u.killCtx h.ctx none).onPart c.part (fun s => s.forgetCtx h.ctx) ∧ exec (.ctxDestroy h) s = .next (t.reply h 0 []) ∧
        Tbl.find t.ctxs h.ctx = none ∧ ∀ g ∈ t.gates, gfield g.2 499 488 = h.ctx → g.2.getLsbD 511 = false) ∧
    (∀ (f : QosF) (p : Part), Takes s h 0x12 → Tbl.find s.parts f.part = some p → f.quanta.length ≤ 8 →
      (∀ b ∈ f.budgets, b.1 < 400 ∧ b.2.1 < 4) → (f.budgets.map fun b => (b.1, b.2.1)).eraseDups.length = f.budgets.length →
      ((∀ b ∈ f.budgets, (((newWeirs s.weirs f).filter fun w => w.port == b.1).map Weir.budget).sum ≤ portCapacity b.1) →
        exec (.qosSet h f) s = .next (({ u with
          weirs := newWeirs s.weirs f
          parts := Tbl.put s.parts f.part { p with quanta := if f.quanta = [] then p.quanta else f.quanta } } : State).reply h 0 [])) ∧
      ((∃ b ∈ f.budgets, portCapacity b.1 < (((newWeirs s.weirs f).filter fun w => w.port == b.1).map Weir.budget).sum) →
        exec (.qosSet h f) s = .next (u.refused h 0xED 0xE6))) ∧
    (Takes s h 0x18 → exec (.stats h) s = .next (u.reply h 0 s.statBytes))

/-- R152, R155, R157, R190, R246, R289, R296, R298, R317, R333, R347, R351, R352, R374: the commands that a partition gives about a
context it holds. -/
def Obligations.PartitionCommands : Prop :=
  ∀ (s u : State) (h : HostHdr) (c : Context), u = s.takeSeq h →
    (∀ (g : BitVec 10) (e : BitVec 512), Takes s h 0x0D →
      (s.gateBad h.part e = true → exec (.gateInstall h g e) s = .next (u.refused h 0xEB 0xC0)) ∧
      (s.gateBad h.part e = false →
        exec (.gateInstall h g e) s = .next (({ u with gates := Tbl.put s.gates g.toNat (gateOwned e h.part) } : State).reply h 0 []))) ∧
    (Holds s h c →
      (∀ l, Takes s h 0x09 →
        (∀ t, l.foldlM (fun (s : State) p => s.writePte h.ctx p) u = some t → exec (.map h l) s = .next (t.reply h 0 [])) ∧
        (l.foldlM (fun (s : State) p => s.writePte h.ctx p) u = none → exec (.map h l) s = .next (u.refused h 0xEA 0x11 (some 0)))) ∧
      (∀ l, Takes s h 0x0A →
        (∀ t, l.foldlM (fun (s : State) va => s.unmapOne h.ctx va) u = some t → exec (.unmap h l) s = .next (t.reply h 0 [])) ∧
        (l.foldlM (fun (s : State) va => s.unmapOne h.ctx va) u = none → exec (.unmap h l) s = .next (u.refused h 0xEA 0x11 (some 0)))) ∧
      (∀ va l, Takes s h 0x0B → s.hostReach h.ctx va l.length = none →
        exec (.write h va l) s = .next ((u.hostPut h.ctx va l).reply h 0 [])) ∧
      (∀ va n, Takes s h 0x0C → n ≤ 65504 → s.hostReach h.ctx va n = none →
        exec (.read h va n) s = .next (u.reply h 0 (s.hostGet h.ctx va n))) ∧
      (∀ (f : SubmitF) (pred : Option Nat), Takes s h 0x0E → c.run ≠ .killed → s.submitPred h.part f.pred = some pred →
        (∀ t, u.startGraph h.ctx f.graph (s.homeDie h.part) f.arg pred = .ok t → exec (.graphSubmit h f) s = .next (t.reply h 0 [])) ∧
        (∀ t, u.startGraph h.ctx f.graph (s.homeDie h.part) f.arg pred = .error (.trap t) → exec (.graphSubmit h f) s = .next (u.refused h 0xEC t.cause))) ∧
      (∀ va, Takes s h 0x0F → s.recFault h.ctx va 128 .read = none →
        ((s.rec_ h.ctx va).getLsbD 1023 = true → exec (.graphStatus h va) s = .next (u.reply h 0 (s.vread h.ctx va 128))) ∧
        ((s.rec_ h.ctx va).getLsbD 1023 = false → exec (.graphStatus h va) s = .next (u.refused h 0xEC 0xD0 (some 0)))) ∧
      (Takes s h 0x10 → c.run ≠ .killed →
        (∀ va t, u.outsideToken h.ctx va (s.homeDie h.part) = .ok t → exec (.signal h (.token va)) s = .next (t.reply h 0 [])) ∧
        (∀ va b, s.ringCheck h.ctx va = .ok b → exec (.signal h (.close va)) s = .next ((u.putRing h.ctx va b.close).reply h 0 []))) ∧
      (∀ f : WaitF, Takes s h 0x11 → exec (.wait h f) s = .next { u with
        nextId := s.nextId + 1
        waits := Tbl.put s.waits s.nextId ⟨h, h.ctx, f.cond, s.time, f.timeout⟩ }) ∧
      (Takes s h 0x13 →
        ((c.run = .stopped ∨ c.run = .killed) → exec (.preempt h none) s = .next (u.reply h 0 [])) ∧
        (c.run = .running → exec (.preempt h none) s = .next { u with
          held := s.held ++ [⟨h, h.ctx, h.part, none⟩]
          ctxs := Tbl.upd s.ctxs h.ctx fun c => { c with run := .stopping, since := s.time, acks := [], pstate := 0xCE } }) ∧
        (∀ (i : Nat) (q p : Part), Tbl.find s.parts i = some q → Tbl.find s.parts h.part = some p → p.run = .resident →
          ∃ t : State, t = (s.ctxsOf h.part).foldl State.requestStop u ∧
            exec (.preempt h (some i)) s = .next { t with held := t.held ++ [⟨h, h.ctx, h.part, some i⟩] })) ∧
      (∀ p : Part, Takes s h 0x14 → Tbl.find s.parts h.part = some p →
        (c.run = .stopped → p.run ≠ .out → exec (.resume h) s = .next ((u.resumeCtx h.ctx).reply h 0 [])) ∧
        (c.run = .stopped → p.run = .out → s.clustersFree h.part p none = true →
          exec (.resume h) s = .next (((u.swapIn h.part p).resumeCtx h.ctx).reply h 0 [])) ∧
        (c.run ≠ .stopped → exec (.resume h) s = .next (u.refused h 0xEE 0xD1))) ∧
      (Takes s h 0x15 → ∃ t : State, t = u.killCtx h.ctx none ∧
        exec (.kill h) s = .next (t.reply h 0 (if (Tbl.find t.ctxs h.ctx).any Context.abandoned then leBytes 8 0x51 else leBytes 8 0))) ∧
      (∀ f : TierF, Takes s h 0x16 → f.tier < 3 →
        exec (.tierPolicy h f) s = .next ((u.updCtx h.ctx fun c => { c with tier := f.tier, pins := f.pin }).reply h 0 [])) ∧
      ∀ (f : ModelF) (key : Nat), Takes s h 0x17 → key = h.ctx * 16 + f.slot.val →
        (Tbl.find s.models key = none → f.rcd.getLsbD 1023 = true → modelBad f.rcd = false →
          (∀ t, u.installModel (s.homeDie h.part) h.ctx f.slot.val f.rcd = some t → exec (.repairModel h f) s = .next (t.reply h 0 [])) ∧
          (u.installModel (s.homeDie h.part) h.ctx f.slot.val f.rcd = none → exec (.repairModel h f) s = .next (u.refused h 0xEF 0xD2))) ∧
        (Tbl.find s.models key = none → f.rcd.getLsbD 1023 = false → exec (.repairModel h f) s = .next (u.refused h 0xEF 0xD0 (some 0))) ∧
        (∀ m, Tbl.find s.models key = some m → f.rcd.getLsbD 1023 = true → modelBad f.rcd = false → modelFixed f.rcd = modelFixed m.rcd →
          exec (.repairModel h f) s = .next (({ u with models := Tbl.put s.models key { m with rcd := f.rcd } } : State).reply h 0 [])) ∧
        (∀ m, Tbl.find s.models key = some m → f.rcd.getLsbD 1023 = false →
          exec (.repairModel h f) s = .next ((u.uninstallModel key).reply h 0 [])))

/-! ## Steps, encodings and the state after reset -/

/-- R142: a landing of b bytes that stays below the target adds to CNT and does nothing else to the pair. One that reaches it clears
CNT, advances GEN modulo 65,536 and flips every granule landed under the pair since its last flip: warp side, nothing in flight, valid. -/
def Obligations.LandingsCount : Prop :=
  ∀ (s t : State) (wid dom pair b : Nat) (w : Warp) (d : Dom), Tbl.find s.warps wid = some w → w.dom dom = some d →
    (s.countBytes wid dom pair b).1 = t →
    (syncCnt (s.pair (coreOf wid) d pair) + b < syncTgt (s.pair (coreOf wid) d pair) →
      syncCnt (t.pair (coreOf wid) d pair) = syncCnt (s.pair (coreOf wid) d pair) + b ∧
      syncTgt (t.pair (coreOf wid) d pair) = syncTgt (s.pair (coreOf wid) d pair) ∧
      syncGen (t.pair (coreOf wid) d pair) = syncGen (s.pair (coreOf wid) d pair) ∧ t.flips = s.flips) ∧
    (syncTgt (s.pair (coreOf wid) d pair) ≤ syncCnt (s.pair (coreOf wid) d pair) + b →
      syncCnt (t.pair (coreOf wid) d pair) = 0 ∧
      syncTgt (t.pair (coreOf wid) d pair) = syncTgt (s.pair (coreOf wid) d pair) ∧
      syncGen (t.pair (coreOf wid) d pair) = (syncGen (s.pair (coreOf wid) d pair) + 1) % 65536 ∧
      (∀ f ∈ s.flips, f.wid = wid → f.dom = dom → f.pair = pair → ∀ g ∈ f.grans,
        (t.core (coreOf wid)).gran g = ⟨false, false, true, true⟩) ∧
      ∀ f, f ∈ t.flips ↔ f ∈ s.flips ∧ ¬ (f.wid = wid ∧ f.dom = dom ∧ f.pair = pair)) ∧
    (∀ c, c ≠ coreOf wid → t.core c = s.core c) ∧
    ∀ a, a ≠ d.scal pair → a ≠ d.scal (pair + 1) → a / 128 ≠ d.scal pair / 128 → a / 128 ≠ d.scal (pair + 1) / 128 →
      (t.core (coreOf wid)).word a = (s.core (coreOf wid)).word a

/-- R324: a strand that was resumed to run one instruction stands armed behind it, wherever that led; whatever word of classes 0 to 6 it
would issue next traps with cause 0x1F instead, with the lanes of its EM, and has no effect. -/
def Obligations.SingleStep : Prop :=
  (∀ (st : Strand) (n : Nat) (p : Pc), st.stepArm = 1 → (st.advance n).stepArm = 2 ∧ (st.jump p).stepArm = 2) ∧
  ∀ (i : Instr) (s : State) (x : Who) (c : Fin 8), Codec.classOf i = some c → c ≠ 7 → s.who = some x →
    (∀ p, x.st.parked = some p → p.1.byEvent = false) → x.st.stepArm = 2 →
    exec i s = .next (s.trapAt x.wid x.sid { cause := 0x1F, lanes := x.st.em })

/-- R20-R22, R37, R163: a step at which an agent has the turn runs the decoded instruction. `u` is the state with time passed and the
turn taken (log 3, log 4 say what those are). A strand or a front-end context inside a clause runs what its PC's unit decodes to, with the
unit behind it where the word takes two; a word that is no instruction traps with its cause (R40), in a strand whose lookahead windows let it
issue; one at a header runs the header found in code memory. An event that has the turn happens. -/
def Obligations.StepRunsDecoded : Prop :=
  (∀ (s u : State) (a : Agent) (rest : List Turn), s.agenda = .issue a :: rest → u = { s.passTime with agenda := rest, cur := a } →
    (∀ x, u.who = some x → u.mayIssue x = true → x.st.trapping = none →
      (∀ (c : Clause) (i : Instr), x.st.clause = some c →
        Codec.decodeWord c.cls (c.unitAt x.st.pc).2.2 (c.unitAt x.st.pc).1 (c.unitAt x.st.pc).2.1 = .ok i → step s = exec i u) ∧
      (∀ (c : Clause) (e : Codec.DecodeError), x.st.clause = some c → Clear u x →
        Codec.decodeWord c.cls (c.unitAt x.st.pc).2.2 (c.unitAt x.st.pc).1 (c.unitAt x.st.pc).2.1 = .error e →
        step s = .next (u.trapAt x.wid x.sid { cause := errorCause e, lanes := x.st.em })) ∧
      ∀ (w : Unit64) (i : Instr), x.st.clause = none → x.st.stepArm ≠ 2 → u.reachJoin x.wid x.sid = none →
        u.fetchUnit x.core x.d.ctx x.st.pc = .unit w → Codec.decodeHeader w = .ok i → step s = exec i u) ∧
    ∀ cid k f, u.who = none → u.whoFe = some (cid, k, f) → u.feMayIssue k f = true →
      (∀ (c : Clause) (i : Instr), f.clause = some c →
        Codec.decodeWord c.cls (c.unitAt f.pc).2.2 (c.unitAt f.pc).1 (c.unitAt f.pc).2.1 = .ok i → step s = exec i u) ∧
      ∀ (w : Unit64) (i : Instr), f.clause = none → u.fetchUnit k.core (u.crewCtx k) f.pc = .unit w → Codec.decodeHeader w = .ok i →
        step s = exec i u) ∧
  ∀ (s : State) (i : Instr) (rest : List Turn), s.agenda = .occur i :: rest → Codec.classOf i = none → (∀ h, i ≠ .clauseHeader h) →
    (∀ w, i ≠ .illegalOpcode w) → step s = exec i { s.passTime with agenda := rest }

/-- R20, R21, R37-R40, R46, R60: decoding an encoded well-formed instruction gives it back, in every clause it may stand in. -/
def Obligations.RoundTrip : Prop := ∀ i : Instr, Sys2Proof.Laws.RoundTrip.Statement i

/-- R20, R41, R46, R60, R174: words that the spec writes out, and what they stand for. R22, R30, R38-R40: what is refused: a header with
HINT 10, a reserved bit or a SWK that is odd; a control instruction before the last word of its clause; a class 4 instruction whose word
0 is the last one; a reserved bit, and a destination that is none; an opcode of no instruction is the illegal one. -/
def Obligations.DecodedWords : Prop :=
  (Codec.decodeHeader 0xB4C000220C000000).toOption = some (.clauseHeader ⟨3, 0, false, 0, false, false, true, 4, 6⟩) ∧
  (Codec.decodeHeader 0xB504000000000000).toOption = some (.clauseHeader ⟨4, 1, false, 0, false, false, false, 0, 0⟩) ∧
  (Codec.decodeWord 0 0 0x2180080080402400 0).toOption = some (.fma ⟨.f32, .dflt, false, false, false, .v 4, .v 1, .v 2, .v 4⟩) ∧
  (Codec.decodeWord 0 0 0x14003EA01FFFFFFF 0).toOption = some (.cmpi ⟨.i32, .eq, 1, .s 20, 0x1FFFFFFF⟩) ∧
  (Codec.decodeWord 0 0 0xF8B000000C000000 0).toOption = some (.brc ⟨.mask 3 false, 6, 0⟩) ∧
  (Codec.decodeWord 1 0 0x00800A0278604C42 0).toOption = some (.shfl ⟨.down, .f32, .v 5, .v 4, .s 3, .v 9, .m 1⟩) ∧
  (Codec.decodeWord 2 0 0x02080FFC11280040 0).toOption = some (.atom ⟨1, .add, .v 7, .zero, 4, .b32, false, .device, .plain, 64⟩) ∧
  (Codec.decodeWord 3 0 0x00000A01FF1FC100 0).toOption = some (.ldx ⟨.n32, false, .v 5, .v 3, .zero⟩) ∧
  (Codec.decodeWord 4 1 0x0208810001FFF400 0x0102033091200000).toOption = some (.mma ⟨1, 4, 2⟩ ⟨63, 63, 5, 1, 2, false, 1, true, 12, 4, true, false, 9, 0⟩) ∧
  (Codec.decodeWord 5 0 0x008FA9E27F1FC100 0).toOption = some (.wdask ⟨1, 20, .s 4⟩) ∧
  (Codec.decodeWord 6 0 0x02807D0014000000 0).toOption = some (.csrrd ⟨40, 0x00A⟩) ∧
  (Codec.decodeWord 6 0 0x0081000000000000 0).toOption = some (.tret ⟨false, .resume⟩) ∧
  (Codec.decodeWord 7 0 0x00000400003FC300 0).toOption = some (.aadd ⟨.a 2, .a 0, .a 1⟩) ∧
  Codec.decodeHeader 0xB6C000220C000000 = .error .badHeader ∧ Codec.decodeHeader 0xB4C000220C000001 = .error .badHeader ∧
  Codec.decodeHeader 0xB4C000228C000000 = .error .badHeader ∧
  Codec.decodeWord 6 0 0x02807D0014000001 0 = .error .reserved ∧ Codec.decodeWord 0 0 0x2187F20080402400 0 = .error .reserved ∧
  ∀ (cls : Fin 8) (left : Nat) (w v : Unit64),
    (0x1F0 ≤ Codec.opcode w → Codec.opcode w ≤ 0x1F7 → left ≠ 0 → Codec.decodeWord cls left w v = .error .controlNotLast) ∧
    (Codec.opcode w < 0x010 → Codec.decodeWord 4 0 w v = .error .crosses) ∧
    (0x1F8 ≤ Codec.opcode w ∨ (0x0B ≤ Codec.opcode w ∧ Codec.opcode w < 0x1F0 ∧ (cls = 1 ∨ cls = 2)) ∨
        (0x14 ≤ Codec.opcode w ∧ Codec.opcode w < 0x1F0 ∧ (cls = 3 ∨ cls = 7)) ∨ (0x10 ≤ Codec.opcode w ∧ Codec.opcode w < 0x1F0 ∧ cls = 4) ∨
        (0x0D ≤ Codec.opcode w ∧ Codec.opcode w < 0x1F0 ∧ cls = 5) ∨ (0x09 ≤ Codec.opcode w ∧ Codec.opcode w < 0x1F0 ∧ cls = 6) ∨
        (0x88 ≤ Codec.opcode w ∧ Codec.opcode w < 0x1F0 ∧ cls = 0) →
      Codec.decodeWord cls left w v = .ok (.illegalOpcode w))

/-- R12, R311, R374, R376: the device after reset is off: no partition, context, crew or warp is there, no session is open and no gate
is valid; its first step is power-on. That an unlisted byte then reads 0 is the model's choice (log 1). A warp at its start has the PC
of its launch, every lane of its width, an empty return stack, masks and ACR 0, and its CSRs at 0 but for TVEC, TVECC and TTIME. -/
def Obligations.StartingStates : Prop :=
  (State.reset.boot = .off ∧ State.reset.parts = [] ∧ State.reset.ctxs = [] ∧ State.reset.crews = [] ∧ State.reset.warps = [] ∧
    State.reset.session = none ∧ (∀ g, (State.reset.gate g).getLsbD 511 = false) ∧ (∀ a, Memory.read State.reset.mem a = 0) ∧
    step State.reset = exec .powerOn State.reset.passTime) ∧
  ∀ (p : Placing) (crew winc cinb bins gran : Nat) (w : Warp), w = p.warp crew winc cinb bins gran →
    (∃ st, w.strands = [(0, st)] ∧ st.pc = BitVec.ofNat 53 (dfield p.desc 1015 960 / 8) ∧ st.em = fullMask p.shape.width ∧
      st.mem = fullMask p.shape.width ∧ st.rstack = [] ∧ st.level = 0) ∧
    ∃ d, w.dom 0 = some d ∧ d.ctx = p.ctx ∧ (∀ m, d.mask m = 0) ∧ d.csrs.acr = 0 ∧ d.csrs.fmask = 0 ∧ d.csrs.tcause = 0 ∧ d.csrs.tpc = 0 ∧
      d.csrs.tlanes = 0 ∧ d.csrs.taddr = 0 ∧ d.csrs.tdetail = 0 ∧ d.csrs.trung = 0 ∧ d.csrs.gstat = 0 ∧ d.csrs.rngk = 0 ∧
      d.csrs.tvec = BitVec.ofNat 64 (dfield p.desc 903 848) ∧ d.csrs.tvecc = BitVec.ofNat 64 (dfield p.desc 847 792) ∧
      d.csrs.ttime = 0x07D000C8

/-- The canonical form of memory and of its poison marks holds after reset (the model's own representation). -/
def Obligations.CanonicalAtReset : Prop := State.reset.canonical = true

/-- Every step keeps the canonical form of memory and of its poison marks: equal memories stay equal data (the model's own
representation of R151 and R319). -/
def Obligations.CanonicalKept : Prop := ∀ s t : State, s.canonical = true → step s = .next t → t.canonical = true
end

