-- ==== Sys2Proof/Laws/Tbl.lean ====
section
/-! SUPPORT. Tables and sparse memories: reading after writing, updates that compose, and the canonical form. -/

namespace Sys2Proof.Machine

namespace Tbl

variable {α : Type}

@[simp] theorem find_nil (i : Nat) : find ([] : Tbl α) i = none := rfl

theorem find_put (t : Tbl α) (i j : Nat) (a : α) : find (put t i a) j = if i = j then some a else find t j := by
  induction t with
  | nil => simp [put, find]
  | cons p t ih =>
    obtain ⟨k, b⟩ := p
    simp only [put]
    split
    · simp [find]
    · split
      · subst_vars; by_cases h : k = j <;> simp [find, h]
      · simp only [find, ih]; split <;> split <;> simp_all

@[simp] theorem find_put_self (t : Tbl α) (i : Nat) (a : α) : find (put t i a) i = some a := by simp [find_put]

theorem find_put_ne (t : Tbl α) {i j : Nat} (a : α) (h : i ≠ j) : find (put t i a) j = find t j := by simp [find_put, h]

theorem find_del (t : Tbl α) (i j : Nat) : find (del t i) j = if i = j then none else find t j := by
  induction t with
  | nil => simp [del]
  | cons p t ih =>
    obtain ⟨k, b⟩ := p
    simp only [del]
    split
    · subst_vars; simp only [ih, find]; split <;> simp_all
    · simp only [find, ih]; split <;> split <;> simp_all

theorem put_put (t : Tbl α) (i : Nat) (a b : α) : put (put t i a) i b = put t i b := by
  induction t with
  | nil => simp [put]
  | cons p t ih =>
    obtain ⟨k, c⟩ := p
    by_cases h : i < k
    · simp [put, h]
    · by_cases h' : i = k
      · simp [put, h']
      · simp [put, h, h', ih]

theorem find_upd (t : Tbl α) (i j : Nat) (f : α → α) : find (upd t i f) j = if i = j then (find t j).map f else find t j := by
  unfold upd
  cases h : find t i with
  | none => by_cases e : i = j <;> simp_all
  | some a => simp only [find_put]; by_cases e : i = j <;> simp_all

theorem upd_upd (t : Tbl α) (i : Nat) (f g : α → α) : upd (upd t i f) i g = upd t i fun a => g (f a) := by
  unfold upd
  cases h : find t i with
  | none => simp [h]
  | some a => simp [put_put]

theorem find_mapVals (t : Tbl α) (f : Nat → α → α) (i : Nat) : find (mapVals t f) i = (find t i).map (f i) := by
  induction t with
  | nil => rfl
  | cons p t ih =>
    obtain ⟨k, b⟩ := p
    simp only [mapVals, List.map_cons, find]
    split
    · subst_vars; rfl
    · simpa [mapVals] using ih

/-- Looking up in a table of which only some keys are kept. -/
theorem find_filter_key (t : Tbl α) (p : Nat → Bool) (i : Nat) :
    find (t.filter fun q => p q.1) i = if p i then find t i else none := by
  induction t with
  | nil => simp
  | cons q t ih =>
    obtain ⟨k, b⟩ := q
    by_cases h : p k
    · simp only [List.filter, h, find, ih]; split <;> simp_all
    · simp only [List.filter, h, find, ih]
      by_cases e : k = i
      · subst e; simp [h]
      · simp [e]

/-- Every key of a table lies above `n`. -/
def above (n : Nat) (t : Tbl α) : Prop := ∀ p ∈ t, n < p.1

theorem sorted_cons (p : Nat × α) (t : Tbl α) : sorted (p :: t) = true ↔ above p.1 t ∧ sorted t = true := by
  induction t generalizing p with
  | nil => simp [sorted, above]
  | cons q t ih =>
    simp only [sorted, Bool.and_eq_true, decide_eq_true_eq, ih q]
    constructor
    · rintro ⟨h, ha, hs⟩
      exact ⟨fun r hr => by rcases List.mem_cons.1 hr with rfl | hr; exact h; exact Nat.lt_trans h (ha r hr), ha, hs⟩
    · rintro ⟨h, ha, hs⟩
      exact ⟨h q (List.mem_cons_self ..), ha, hs⟩

theorem mem_put {t : Tbl α} {i : Nat} {a : α} {p : Nat × α} (h : p ∈ put t i a) : p = (i, a) ∨ p ∈ t := by
  induction t with
  | nil => simpa [put] using h
  | cons q t ih =>
    obtain ⟨k, b⟩ := q
    simp only [put] at h
    split at h
    · simpa using h
    · split at h
      · simp only [List.mem_cons] at h ⊢; rcases h with h | h <;> simp [h]
      · simp only [List.mem_cons] at h ⊢
        rcases h with h | h
        · simp [h]
        · rcases ih h with h | h <;> simp [h]

theorem mem_del {t : Tbl α} {i : Nat} {p : Nat × α} (h : p ∈ del t i) : p ∈ t := by
  induction t with
  | nil => simp [del] at h
  | cons q t ih =>
    obtain ⟨k, b⟩ := q
    simp only [del] at h
    split at h
    · exact List.mem_cons_of_mem _ (ih h)
    · rcases List.mem_cons.1 h with h | h
      · simp [h]
      · exact List.mem_cons_of_mem _ (ih h)

theorem sorted_put {t : Tbl α} (h : sorted t = true) (i : Nat) (a : α) : sorted (put t i a) = true := by
  induction t with
  | nil => rfl
  | cons q t ih =>
    obtain ⟨k, b⟩ := q
    obtain ⟨ha, hs⟩ := (sorted_cons _ _).1 h
    simp only [put]
    split
    · rename_i hik
      exact (sorted_cons _ _).2 ⟨fun r hr => by
        rcases List.mem_cons.1 hr with rfl | hr
        · exact hik
        · exact Nat.lt_trans hik (ha r hr), h⟩
    · split
      · rename_i e; exact (sorted_cons _ _).2 ⟨fun r hr => by simpa [e] using ha r hr, hs⟩
      · refine (sorted_cons _ _).2 ⟨fun r hr => ?_, ih hs⟩
        rcases mem_put hr with rfl | hr
        · show k < i; omega
        · exact ha r hr

theorem sorted_del {t : Tbl α} (h : sorted t = true) (i : Nat) : sorted (del t i) = true := by
  induction t with
  | nil => rfl
  | cons q t ih =>
    obtain ⟨k, b⟩ := q
    obtain ⟨ha, hs⟩ := (sorted_cons _ _).1 h
    simp only [del]
    split
    · exact ih hs
    · exact (sorted_cons _ _).2 ⟨fun r hr => ha r (mem_del hr), ih hs⟩

theorem sorted_filter {t : Tbl α} (h : sorted t = true) (p : Nat × α → Bool) : sorted (t.filter p) = true := by
  induction t with
  | nil => rfl
  | cons q t ih =>
    obtain ⟨ha, hs⟩ := (sorted_cons _ _).1 h
    simp only [List.filter]
    split
    · exact (sorted_cons _ _).2 ⟨fun r hr => ha r (List.mem_filter.1 hr).1, ih hs⟩
    · exact ih hs

end Tbl

namespace Sparse

variable {α : Type}

theorem read_clear (z : α) (m : Tbl α) (i n j : Nat) :
    read z (clear m i n) j = if i ≤ j ∧ j < i + n then z else read z m j := by
  unfold read clear
  rw [Tbl.find_filter_key m (fun k => decide (k < i) || decide (i + n ≤ k))]
  by_cases h : i ≤ j ∧ j < i + n
  · have : (decide (j < i) || decide (i + n ≤ j)) = false := by simp; omega
    simp [this, h]
  · have : (decide (j < i) || decide (i + n ≤ j)) = true := by simp; omega
    simp [this, h]

variable [DecidableEq α]

theorem read_write (z : α) (m : Tbl α) (i j : Nat) (a : α) : read z (write z m i a) j = if i = j then a else read z m j := by
  unfold read write
  by_cases e : a = z
  · simp only [e, if_true, Tbl.find_del]; by_cases h : i = j <;> simp [h]
  · simp only [e, if_false, Tbl.find_put]; by_cases h : i = j <;> simp [h]

@[simp] theorem read_write_self (z : α) (m : Tbl α) (i : Nat) (a : α) : read z (write z m i a) i = a := by simp [read_write]

theorem read_write_ne (z : α) (m : Tbl α) {i j : Nat} (a : α) (h : i ≠ j) : read z (write z m i a) j = read z m j := by
  simp [read_write, h]

/-- Reading after a list of values has been written. -/
theorem read_writeList (z : α) (l : List α) (m : Tbl α) (i j : Nat) :
    read z (writeList z m i l) j = if i ≤ j ∧ j < i + l.length then l.getD (j - i) z else read z m j := by
  induction l generalizing m i with
  | nil => simp [writeList] <;> omega
  | cons a l ih =>
    simp only [writeList, ih, read_write, List.length_cons]
    by_cases h : i = j
    · subst h; simp <;> omega
    · by_cases h' : i + 1 ≤ j ∧ j < i + 1 + l.length
      · have e : j - i = (j - (i + 1)) + 1 := by omega
        rw [if_pos h', if_pos ⟨by omega, by omega⟩, e]; simp
      · rw [if_neg h', if_neg h, if_neg (by omega)]

theorem wf_iff (z : α) (m : Tbl α) : wf z m = true ↔ Tbl.sorted m = true ∧ ∀ p ∈ m, p.2 ≠ z := by
  simp [wf]

theorem wf_write {z : α} {m : Tbl α} (h : wf z m = true) (i : Nat) (a : α) : wf z (write z m i a) = true := by
  obtain ⟨hs, ha⟩ := (wf_iff _ _).1 h
  unfold write
  split
  · exact (wf_iff _ _).2 ⟨Tbl.sorted_del hs i, fun p hp => ha p (Tbl.mem_del hp)⟩
  · rename_i e
    refine (wf_iff _ _).2 ⟨Tbl.sorted_put hs i a, fun p hp => ?_⟩
    rcases Tbl.mem_put hp with rfl | hp
    · exact e
    · exact ha p hp

theorem wf_writeList {z : α} {m : Tbl α} (h : wf z m = true) (i : Nat) (l : List α) : wf z (writeList z m i l) = true := by
  induction l generalizing m i with
  | nil => exact h
  | cons a l ih => exact ih (wf_write h i a) _

theorem wf_clear {z : α} {m : Tbl α} (h : wf z m = true) (i n : Nat) : wf z (clear m i n) = true := by
  obtain ⟨hs, ha⟩ := (wf_iff _ _).1 h
  exact (wf_iff _ _).2 ⟨Tbl.sorted_filter hs _, fun p hp => ha p (List.mem_filter.1 hp).1⟩

end Sparse

end Sys2Proof.Machine
end

