-- ==== Sys2Proof/Laws/Core.lean ====
section
/-! SUPPORT. Register space: what a write of a warp does to the words, marks and granules of its core, and what landing a list of
words does. -/

namespace Sys2Proof.Machine

namespace Core

theorem word_zeroGrans (c : Core) (g a : Nat) : (c.zeroGrans g 1).word a = if a / 128 = g then 0 else c.word a := by
  unfold word zeroGrans
  simp only [Sparse.read_clear]
  by_cases h : a / 128 = g
  · rw [if_pos (by omega), if_pos h]
  · rw [if_neg (by omega), if_neg h]

theorem mark_zeroGrans (c : Core) (g a : Nat) : (c.zeroGrans g 1).mark a = if a / 128 = g then 0 else c.mark a := by
  unfold mark zeroGrans
  simp only [Sparse.read_clear]
  by_cases h : a / 128 = g
  · rw [if_pos (by omega), if_pos h]
  · rw [if_neg (by omega), if_neg h]

theorem gran_setGran (c : Core) (g h : Nat) (v : Gran) : (c.setGran g v).gran h = if g = h then v else c.gran h := by
  unfold gran setGran
  simp only [Sparse.read_write]

theorem word_landWord (c : Core) (a b : Nat) (v : Word) (mk : Nat) : (c.landWord a v mk).word b = if a = b then v else c.word b := by
  unfold word landWord
  simp only [Sparse.read_write]

theorem mark_landWord (c : Core) (a b : Nat) (v : Word) (mk : Nat) : (c.landWord a v mk).mark b = if a = b then mk else c.mark b := by
  unfold mark landWord
  simp only [Sparse.read_write]

/-- What a write of a warp changes: the word, the rest of an invalid granule, and the granule's bits. -/
theorem warpWrite_word (c : Core) (a b : Nat) (v : Word) (mk : Nat) : (c.warpWrite a v mk).word b =
    if a = b then v else if b / 128 = a / 128 ∧ (c.gran (a / 128)).val = false then 0 else c.word b := by
  show ((if (c.gran (a / 128)).val then c else c.zeroGrans (a / 128) 1).landWord a v mk).word b = _
  rw [word_landWord]
  cases h : (c.gran (a / 128)).val <;> simp [word_zeroGrans]

theorem warpWrite_mark (c : Core) (a b : Nat) (v : Word) (mk : Nat) : (c.warpWrite a v mk).mark b =
    if a = b then mk else if b / 128 = a / 128 ∧ (c.gran (a / 128)).val = false then 0 else c.mark b := by
  show ((if (c.gran (a / 128)).val then c else c.zeroGrans (a / 128) 1).landWord a v mk).mark b = _
  rw [mark_landWord]
  cases h : (c.gran (a / 128)).val <;> simp [mark_zeroGrans]

theorem warpWrite_gran (c : Core) (a g : Nat) (v : Word) (mk : Nat) : (c.warpWrite a v mk).gran g =
    if a / 128 = g then { c.gran g with val := true, drt := true } else c.gran g := by
  show (((if (c.gran (a / 128)).val then c else c.zeroGrans (a / 128) 1).landWord a v mk).setGran (a / 128) _).gran g = _
  rw [gran_setGran]
  split
  · subst_vars; rfl
  · cases h : (c.gran (a / 128)).val <;> rfl

theorem warpWrite_rest (c : Core) (a : Nat) (v : Word) (mk : Nat) : ∃ r m g, c.warpWrite a v mk = { c with regs := r, marks := m, grans := g } := by
  unfold warpWrite
  cases h : (c.gran (a / 128)).val <;> simp only [h, if_true, Bool.false_eq_true, if_false] <;> exact ⟨_, _, _, rfl⟩

/-- Words written into a core one after another. -/
def landAll (c : Core) (l : List RegWrite) : Core := l.foldl (fun c w => c.warpWrite w.addr w.val w.mark) c

theorem landAll_rest (c : Core) (l : List RegWrite) : ∃ r m g, c.landAll l = { c with regs := r, marks := m, grans := g } := by
  induction l generalizing c with
  | nil => exact ⟨c.regs, c.marks, c.grans, rfl⟩
  | cons w l ih =>
    obtain ⟨r, m, g, e⟩ := warpWrite_rest c w.addr w.val w.mark
    obtain ⟨r', m', g', e'⟩ := ih (c.warpWrite w.addr w.val w.mark)
    refine ⟨r', m', g', ?_⟩
    show landAll (c.warpWrite w.addr w.val w.mark) l = _
    rw [e', e]

theorem landAll_gran (c : Core) (l : List RegWrite) (g : Nat) : (c.landAll l).gran g =
    if ∃ w ∈ l, w.addr / 128 = g then { c.gran g with val := true, drt := true } else c.gran g := by
  induction l generalizing c with
  | nil => simp [landAll]
  | cons w l ih =>
    show (landAll (c.warpWrite w.addr w.val w.mark) l).gran g = _
    rw [ih, warpWrite_gran]
    by_cases h : w.addr / 128 = g
    · simp [h]
    · simp [h]

/-- A word that none of the writes names. -/
theorem landAll_other (c : Core) (l : List RegWrite) (a : Nat) (h : ∀ w ∈ l, w.addr ≠ a) :
    (c.landAll l).word a = (if (∃ w ∈ l, w.addr / 128 = a / 128) ∧ (c.gran (a / 128)).val = false then 0 else c.word a) ∧
    (c.landAll l).mark a = (if (∃ w ∈ l, w.addr / 128 = a / 128) ∧ (c.gran (a / 128)).val = false then 0 else c.mark a) := by
  induction l generalizing c with
  | nil => simp [landAll]
  | cons w l ih =>
    have hw : w.addr ≠ a := h w (List.mem_cons_self ..)
    have hl : ∀ v ∈ l, v.addr ≠ a := fun v hv => h v (List.mem_cons_of_mem _ hv)
    show (landAll (c.warpWrite w.addr w.val w.mark) l).word a = _ ∧ (landAll (c.warpWrite w.addr w.val w.mark) l).mark a = _
    obtain ⟨e1, e2⟩ := ih (c.warpWrite w.addr w.val w.mark) hl
    rw [e1, e2, warpWrite_gran, warpWrite_word, warpWrite_mark, if_neg hw, if_neg hw]
    by_cases e : w.addr / 128 = a / 128
    · cases hv : (c.gran (a / 128)).val <;> simp [e, hv]
    · have e' : ¬ a / 128 = w.addr / 128 := fun k => e k.symm
      simp [e, e']

/-- A word that exactly one of the writes names, or several with one value. -/
theorem landAll_at (c : Core) (l : List RegWrite) (a : Nat) (v : Word) (mk : Nat) (hm : ∃ w ∈ l, w.addr = a)
    (h : ∀ w ∈ l, w.addr = a → w.val = v ∧ w.mark = mk) : (c.landAll l).word a = v ∧ (c.landAll l).mark a = mk := by
  induction l generalizing c with
  | nil => simp at hm
  | cons w l ih =>
    show (landAll (c.warpWrite w.addr w.val w.mark) l).word a = v ∧ (landAll (c.warpWrite w.addr w.val w.mark) l).mark a = mk
    by_cases hl : ∃ w ∈ l, w.addr = a
    · exact ih _ hl fun u hu => h u (List.mem_cons_of_mem _ hu)
    · have hl' : ∀ u ∈ l, u.addr ≠ a := fun u hu e => hl ⟨u, hu, e⟩
      obtain ⟨u, hu, e⟩ := hm
      have hw : w.addr = a := by
        rcases List.mem_cons.1 hu with rfl | hu
        · exact e
        · exact absurd e (hl' u hu)
      obtain ⟨hv, hk⟩ := h w (List.mem_cons_self ..) hw
      obtain ⟨e1, e2⟩ := landAll_other (c.warpWrite w.addr w.val w.mark) l a hl'
      rw [e1, e2, warpWrite_gran, warpWrite_word, warpWrite_mark]
      simp [hw, hv, hk]

end Core

/-! ## Cores in the state -/

theorem core_setCore (s : State) (c d : Nat) (k : Core) : (s.setCore c k).core d = if c = d then k else s.core d := by
  unfold State.core State.setCore
  rw [Tbl.find_put]
  split <;> rfl

theorem core_updCore (s : State) (c d : Nat) (f : Core → Core) : (s.updCore c f).core d = if c = d then f (s.core d) else s.core d := by
  unfold State.updCore
  rw [core_setCore]
  split
  · subst_vars; rfl
  · rfl

/-- Landing words changes one core's register space and nothing else. -/
theorem land_spec (s : State) (core : Nat) (l : List RegWrite) :
    ∃ cs, s.land core l = { s with cores := cs } ∧ ((s.land core l).core core = (s.core core).landAll l) ∧
      ∀ c, c ≠ core → (s.land core l).core c = s.core c := by
  induction l generalizing s with
  | nil => exact ⟨s.cores, rfl, rfl, fun _ _ => rfl⟩
  | cons w l ih =>
    obtain ⟨cs, e, e1, e2⟩ := ih (s.warpWrite core w.addr w.val w.mark)
    refine ⟨cs, ?_, ?_, ?_⟩
    · show State.land (s.warpWrite core w.addr w.val w.mark) core l = _
      rw [e]; rfl
    · show (State.land (s.warpWrite core w.addr w.val w.mark) core l).core core = _
      rw [e1]
      unfold State.warpWrite
      rw [core_updCore, if_pos rfl]
      rfl
    · intro c hc
      show (State.land (s.warpWrite core w.addr w.val w.mark) core l).core c = _
      rw [e2 c hc]
      unfold State.warpWrite
      rw [core_updCore, if_neg (fun h => hc h.symm)]

/-- What landing leaves, in the terms of claims: the words of the list hold what it says. -/
theorem landAll_written (c : Core) (l : List RegWrite) (dst : List Nat) (h : ∀ a, a ∈ dst ↔ ∃ w ∈ l, w.addr = a) :
    CoreWritten c (c.landAll l) dst := by
  have hex (g : Nat) : (∃ w ∈ l, w.addr / 128 = g) ↔ ∃ w ∈ dst, w / 128 = g := by
    constructor
    · rintro ⟨w, hw, e⟩; exact ⟨w.addr, (h _).2 ⟨w, hw, rfl⟩, e⟩
    · rintro ⟨a, ha, e⟩; obtain ⟨w, hw, rfl⟩ := (h _).1 ha; exact ⟨w, hw, e⟩
  refine ⟨?_, fun a ha => ?_, fun g => ?_⟩
  · obtain ⟨r, m, g, e⟩ := Core.landAll_rest c l
    rw [e]
  · have := Core.landAll_other c l a fun w hw e => ha ((h a).2 ⟨w, hw, e⟩)
    simpa only [hex] using this
  · have := Core.landAll_gran c l g
    simpa only [hex] using this

end Sys2Proof.Machine
end

