-- ==== Sys2Proof/Laws/Issue.lean ====
section
/-! SUPPORT. The common beginnings and ends of the instructions of classes 0 to 6: who issues, operands in order, and what a
completed instruction leaves. Each says once what its operation does, for the claims to cite. -/

namespace Sys2Proof.Machine

/-! ## Who -/

/-- What it means that strand `x` is live. -/
theorem strandAt_spec {s : State} {w i : Nat} {x : Who} (h : s.strandAt w i = some x) :
    x.wid = w ∧ x.sid = i ∧ x.core = coreOf w ∧ Tbl.find s.warps w = some x.w ∧ Tbl.find x.w.strands i = some x.st ∧
      Tbl.find x.w.doms x.st.dom = some x.d := by
  unfold State.strandAt at h
  split at h
  · cases h
  · split at h
    · cases h
    · split at h
      · cases h
      · cases h; exact ⟨rfl, rfl, rfl, ‹_›, ‹_›, ‹_›⟩

/-- A strand that has the turn is live. -/
theorem who_spec {s : State} {x : Who} (h : s.who = some x) :
    s.cur = .strand x.wid x.sid ∧ s.strandAt x.wid x.sid = some x ∧ x.core = coreOf x.wid ∧
      Tbl.find s.warps x.wid = some x.w ∧ Tbl.find x.w.strands x.sid = some x.st ∧ Tbl.find x.w.doms x.st.dom = some x.d := by
  unfold State.who at h
  split at h
  · rename_i w i hc
    obtain ⟨rfl, rfl, hk⟩ := strandAt_spec h
    exact ⟨hc, h, hk⟩
  · cases h

/-- A strand that is clear goes on with its instruction. -/
theorem issue_clear {s : State} {x : Who} (h : Clear s x) (k : Who → State) : issue s k = .next (k x) := by
  unfold issue
  rw [h.who]
  simp only
  have h1 : (x.st.parked.any fun p => p.1.byEvent) = false := by
    cases e : x.st.parked with
    | none => rfl
    | some p => simpa using h.free p e
  have h3 : (x.st.pends.any fun p => p.left == 0) = false := by
    rw [List.any_eq_false]; intro p hp; simpa using h.window p hp
  rw [h1, h3]
  simp [h.step]

/-! ## Operands in order -/

theorem maskOf_nil : maskOf [] = 0 := rfl

/-- A lane that is in order meets no violation. -/
theorem violation_ok {s : State} {x : Who} {d : OpD} {a : OwnAcc} {l : Nat} {em : Mask} {q : List (Nat × Mask)} {ents : List (List QEntry)}
    (ho : d.outside x = false) (h : LaneOk s x d a l) : violation ⟨s, x, d, em, q, ents⟩ a false l = none := by
  have hr : ∀ w ∈ a.reads ++ laneReads x d l, ((s.core x.core).gran (w / 128)).own = false := fun w hw => (h.reads w hw).1
  have hv : ∀ w ∈ a.reads ++ laneReads x d l, ((s.core x.core).gran (w / 128)).val = true := fun w hw => (h.reads w hw).2
  have hs : ((a.reads ++ laneReads x d l ++ (a.writes ++ laneWrites x d l)).any fun w => ((s.core x.core).gran (w / 128)).own) = false := by
    rw [List.any_eq_false]; intro w hw
    rcases List.mem_append.1 hw with hw | hw
    · simpa using hr w hw
    · simpa using h.writes w hw
  have hn : ((a.reads ++ laneReads x d l).any fun w => !((s.core x.core).gran (w / 128)).val) = false := by
    rw [List.any_eq_false]; intro w hw; simpa using hv w hw
  have hi := h.index
  clear h hr hv
  unfold violation
  obtain ⟨srcs, dst, carry, masked⟩ := d
  simp only [ho, hi, Bool.or_false, Bool.false_eq_true, if_false]
  cases dst with
  | none => exact (if_neg (by rw [Bool.not_eq_true]; exact hs)).trans (if_neg (by rw [Bool.not_eq_true]; exact hn))
  | some p => exact (if_neg (by rw [Bool.not_eq_true]; exact hs)).trans (if_neg (by rw [Bool.not_eq_true]; exact hn))

theorem filterMap_none {α β : Type} {l : List α} {f : α → Option β} (h : ∀ a ∈ l, f a = none) : l.filterMap f = [] := by
  rw [List.filterMap_eq_nil_iff]; exact h

theorem lanesOf_zero : lanesOf 0#64 = [] := by
  unfold lanesOf
  rw [List.filter_eq_nil_iff]; intro l _; simp

theorem mem_lanesOf {m : Mask} {l : Nat} : l ∈ lanesOf m ↔ l < 64 ∧ m.getLsbD l = true := by
  unfold lanesOf; simp

theorem lanesOf_ne_zero {m : Mask} {l : Nat} (h : l ∈ lanesOf m) : m ≠ 0 := by
  rintro rfl; exact absurd (lanesOf_zero ▸ h : l ∈ []) (by simp)

/-- Operands in order: the instruction is ready. -/
theorem beginOp_ok {s : State} {x : Who} {d : OpD} {acc : OwnOf} {only : Mask} (h : OperandsOk s x d acc only) :
    beginOp s x d acc only = .go (readyOf s x d only) := by
  unfold beginOp
  rw [h.dirs, h.busy, h.room]
  have hrel : (d.pushes && s.unfinished x.agent) = false := by
    cases e : d.pushes with
    | false => rfl
    | true => simpa using h.release e
  simp only [Bool.false_eq_true, if_false, hrel, h.fence]
  have hv : ((lanesOf x.st.em).filterMap fun l =>
      (if only.getLsbD l then violation ⟨s, x, d, x.st.em &&& only, [], popEntries x.w.queues d.srcs⟩
          (acc ⟨s, x, d, x.st.em &&& only, [], popEntries x.w.queues d.srcs⟩ l)
          ((List.range 4).any fun q => decide ((x.w.queues.getD q ⟨[], false⟩).entries.length < popCount d.srcs q)) l
        else outerViolation ⟨s, x, d, x.st.em &&& only, [], popEntries x.w.queues d.srcs⟩
          ((List.range 4).any fun q => decide ((x.w.queues.getD q ⟨[], false⟩).entries.length < popCount d.srcs q))).map
        fun k => (k, l)) = [] := by
    apply filterMap_none
    intro l hl
    have hem : x.st.em ≠ 0 := lanesOf_ne_zero hl
    have hc : ((List.range 4).any fun q => decide ((x.w.queues.getD q ⟨[], false⟩).entries.length < popCount d.srcs q)) = false := by
      rw [List.any_eq_false]; intro q hq
      have := h.supply hem q (by simpa using hq)
      simp; simpa using this
    have hout := h.codes hem
    rw [hc]
    split
    · rename_i ho
      rw [h.same, violation_ok hout (h.lane l (mem_lanesOf.2 ⟨(mem_lanesOf.1 hl).1, by simp [(mem_lanesOf.1 hl).2, ho]⟩))]; rfl
    · unfold outerViolation; simp [hout]
  rw [hv]
  simp only [ne_eq, not_true_eq_false, false_and, if_false, List.filterMap_nil, List.map_nil, maskOf_nil]
  have hem : x.st.em &&& only &&& ~~~0 = x.st.em &&& only := BitVec.and_allOnes
  rw [hem]
  have hq : ((List.range 4).map fun k => ((k, (0 : Mask)) : Nat × Mask)) = [(0, 0), (1, 0), (2, 0), (3, 0)] := rfl
  rw [hq]
  have hp : ((lanesOf (x.st.em &&& only)).filterMap fun l =>
      (((List.range d.srcs.length).flatMap fun i =>
        if d.carry.contains i then [] else match d.srcs[i]? with
          | some p => srcAddrs x p.1 p.2 l
          | none => []) ++
        (acc (readyOf s x d only) l).reads).find? (fun a => (s.core x.core).mark a != 0) |>.map fun a => (l, a)) = [] := by
    apply filterMap_none
    intro l hl
    rw [Option.map_eq_none_iff, List.find?_eq_none]
    intro w hw
    have := (h.lane l hl).clean w hw
    simp [this]
  unfold readyOf at hp ⊢
  split
  · rename_i heq; exact absurd (heq.symm.trans hp) (by simp)
  · rfl

end Sys2Proof.Machine
end

