-- ==== Sys2Proof/Laws/Finish.lean ====
section
/-! SUPPORT. What a completed instruction of classes 0 to 6 leaves: short ones, long-latency ones and those whose result is a mask. -/

namespace Sys2Proof.Machine

@[simp] theorem advance_mem (st : Strand) (n : Nat) : (st.advance n).mem = st.mem := rfl
@[simp] theorem advance_level (st : Strand) (n : Nat) : (st.advance n).level = st.level := rfl
@[simp] theorem advance_pc (st : Strand) (n : Nat) : (st.advance n).pc = st.pc + BitVec.ofNat 53 n := rfl
@[simp] theorem advance_em (st : Strand) (n : Nat) : (st.advance n).em = st.em := rfl
@[simp] theorem advance_dom (st : Strand) (n : Nat) : (st.advance n).dom = st.dom := rfl
@[simp] theorem advance_rstack (st : Strand) (n : Nat) : (st.advance n).rstack = st.rstack := rfl
@[simp] theorem advance_parked (st : Strand) (n : Nat) : (st.advance n).parked = none := rfl
@[simp] theorem readyOf_s (s : State) (x : Who) (d : OpD) (o : Mask) : (readyOf s x d o).s = s := rfl
@[simp] theorem readyOf_x (s : State) (x : Who) (d : OpD) (o : Mask) : (readyOf s x d o).x = x := rfl
@[simp] theorem readyOf_d (s : State) (x : Who) (d : OpD) (o : Mask) : (readyOf s x d o).d = d := rfl
@[simp] theorem readyOf_em (s : State) (x : Who) (d : OpD) (o : Mask) : (readyOf s x d o).em = x.st.em &&& o := rfl

theorem em_all (s : State) (x : Who) (d : OpD) : (readyOf s x d).em = x.st.em := BitVec.and_allOnes

/-- Nothing is quenched: every lane of EM lives. -/
theorem live_ready (s : State) (x : Who) (d : OpD) (o : Mask) : (readyOf s x d o).live = x.st.em := by
  show x.st.em &&& ~~~([0, 0, 0, 0] : List Mask).foldl (· ||| ·) 0 = x.st.em
  have h : ~~~([0, 0, 0, 0] : List Mask).foldl (· ||| ·) 0 = BitVec.allOnes 64 := by decide
  rw [h, BitVec.and_allOnes]

/-- A strand with a lane does not end. -/
theorem endIfEmpty_of {s : State} {w i : Nat} (h : ∀ y, s.strandAt w i = some y → y.st.mem ≠ 0) :
    s.endIfEmpty w i = s := by
  unfold State.endIfEmpty
  split
  · rename_i y e; rw [if_pos (h y e)]
  · rfl

/-- The pops of an instruction of which no lane is quenched. -/
theorem commit_ready (s : State) (x : Who) (d : OpD) (o : Mask) :
    (readyOf s x d o).commit = if x.st.em = 0 then s else
      s.updWarp x.wid fun w =>
        { w with queues := (List.range 8).map fun q =>
            let u := w.queues.getD q ⟨[], false⟩
            { u with entries := u.entries.drop (popCount d.srcs q) } } := by
  unfold Ready.commit
  rw [live_ready]
  have : s.quench x [(0, 0), (1, 0), (2, 0), (3, 0)] = s := rfl
  show (if x.st.em = 0 then s.quench x [(0, 0), (1, 0), (2, 0), (3, 0)] else (s.quench x [(0, 0), (1, 0), (2, 0), (3, 0)]).updWarp _ _) = _
  rw [this]; rfl

/-- Pops and pushes touch the queues of one warp. -/
theorem commit_push (s : State) (x : Who) (d d' : OpD) (o m : Mask) (res : Nat → List Word) (hw : Tbl.find s.warps x.wid = some x.w)
    (cs : Tbl Core) (hd : d.srcs = d'.srcs) :
    ∃ W, ({ (readyOf s x d o).commit with cores := cs } : State).push x.wid ((readyOf s x d' o).pushes m res) =
        { s with cores := cs, warps := W } ∧
      (∀ w, w ≠ x.wid → Tbl.find W w = Tbl.find s.warps w) ∧
      Tbl.find W x.wid = some { x.w with queues := queuesAfter (readyOf s x d' o) m res } := by
  rw [commit_ready]
  by_cases he : x.st.em = 0
  · have hp : (readyOf s x d' o).pushes m res = none := by
      unfold Ready.pushes; rw [live_ready]; split
      · rw [if_pos he]
      · rfl
    rw [hp, if_pos he]
    refine ⟨s.warps, rfl, fun _ _ => rfl, ?_⟩
    rw [hw]; unfold queuesAfter; simp [he]
  · rw [if_neg he]
    have hq : queuesAfter (readyOf s x d' o) m res = (match (readyOf s x d' o).pushes m res with
        | none => (List.range 8).map fun q =>
            (⟨(x.w.queues.getD q ⟨[], false⟩).entries.drop (popCount d.srcs q), (x.w.queues.getD q ⟨[], false⟩).closed⟩ : Queue)
        | some (q, es) =>
          let left := (List.range 8).map fun q =>
            (⟨(x.w.queues.getD q ⟨[], false⟩).entries.drop (popCount d.srcs q), (x.w.queues.getD q ⟨[], false⟩).closed⟩ : Queue)
          left.set q ⟨(left.getD q ⟨[], false⟩).entries ++ es, (left.getD q ⟨[], false⟩).closed⟩) := by
      unfold queuesAfter
      rw [hd]
      simp only [readyOf_x, readyOf_d, he, if_false]
      try rfl
    rw [hq]
    cases hp : (readyOf s x d' o).pushes m res with
    | none =>
      refine ⟨_, rfl, fun w h => ?_, ?_⟩
      · show Tbl.find (Tbl.upd s.warps x.wid _) w = _
        rw [Tbl.find_upd, if_neg (fun e => h e.symm)]
      · show Tbl.find (Tbl.upd s.warps x.wid _) x.wid = _
        rw [Tbl.find_upd, if_pos rfl, hw]; rfl
    | some p =>
      obtain ⟨q, es⟩ := p
      refine ⟨_, rfl, fun w h => ?_, ?_⟩
      · show Tbl.find (Tbl.upd (Tbl.upd s.warps x.wid _) x.wid _) w = _
        rw [Tbl.find_upd, if_neg (fun e => h e.symm), Tbl.find_upd, if_neg (fun e => h e.symm)]
      · show Tbl.find (Tbl.upd (Tbl.upd s.warps x.wid _) x.wid _) x.wid = _
        rw [Tbl.find_upd, if_pos rfl, Tbl.find_upd, if_pos rfl, hw]; rfl

/-- The writes of a result go to its destination. -/
theorem writes_dest (s : State) (x : Who) (d : OpD) (o m : Mask) (res : Nat → List Word) (a : Nat) :
    a ∈ destAddrs x d m ↔ ∃ w ∈ (readyOf s x d o).writes m res, w.addr = a := by
  unfold destAddrs Ready.writes
  simp only [readyOf_d, readyOf_x]
  obtain ⟨srcs, dst, carry⟩ := d
  cases dst with
  | none => simp
  | some p =>
    obtain ⟨q, n⟩ := p
    cases q
    case v k =>
      constructor
      · intro h
        obtain ⟨l, hl, h⟩ := List.mem_flatMap.1 h
        obtain ⟨j, hj, rfl⟩ := List.mem_map.1 h
        exact ⟨_, List.mem_flatMap.2 ⟨l, hl, List.mem_map.2 ⟨j, hj, rfl⟩⟩, rfl⟩
      · rintro ⟨w, hw, rfl⟩
        obtain ⟨l, hl, hw⟩ := List.mem_flatMap.1 hw
        obtain ⟨j, hj, rfl⟩ := List.mem_map.1 hw
        exact List.mem_flatMap.2 ⟨l, hl, List.mem_map.2 ⟨j, hj, rfl⟩⟩
    case s k =>
      by_cases hm : m = 0
      · subst hm; simp [lowLane]; erw [lanesOf_zero]; simp
      · cases e : lowLane m with
        | none =>
          exfalso; apply hm
          unfold lowLane at e
          rw [List.head?_eq_none_iff] at e
          apply BitVec.eq_of_getLsbD_eq
          intro i hi
          have : i ∉ lanesOf m := by rw [e]; simp
          rw [mem_lanesOf] at this
          simpa [hi] using this
        | some l =>
          simp only [hm, if_false]
          constructor
          · intro h
            obtain ⟨j, hj, rfl⟩ := List.mem_map.1 h
            exact ⟨_, List.mem_map.2 ⟨j, hj, rfl⟩, rfl⟩
          · rintro ⟨w, hw, rfl⟩
            obtain ⟨j, hj, rfl⟩ := List.mem_map.1 hw
            exact List.mem_map.2 ⟨j, hj, rfl⟩
    all_goals simp

/-- Two lanes of a frame share no word. -/
theorem lane_inj {d : Dom} {w k j l j' l' : Nat} (hl : l < w) (hl' : l' < w) (h : d.lane w (k + j) l = d.lane w (k + j') l') :
    j = j' ∧ l = l' := by
  unfold Dom.lane at h
  have h : (k + j) * w + l = (k + j') * w + l' := by omega
  rw [Nat.add_mul, Nat.add_mul] at h
  have h : j * w + l = j' * w + l' := by omega
  have hj : j = j' := by
    have h1 : (j * w + l) / w = j := by rw [Nat.mul_comm, Nat.mul_add_div (by omega), Nat.div_eq_of_lt hl]; rfl
    have h2 : (j' * w + l') / w = j' := by rw [Nat.mul_comm, Nat.mul_add_div (by omega), Nat.div_eq_of_lt hl']; rfl
    rw [h] at h1; omega
  subst hj
  exact ⟨rfl, by omega⟩

/-- A short instruction completes. -/
theorem finish_done {s : State} {x : Who} (hc : Clear s x) (d : OpD) (o m : Mask) (res : Nat → List Word) (bits : Nat)
    (hm : ∀ l ∈ lanesOf m, l < x.width) : Finished s x d o m res bits ((readyOf s x d o).finish m res bits) := by
  obtain ⟨hcur, hat, hcore, hw, hst, hdom⟩ := who_spec hc.who
  obtain ⟨cs, e, e1, e2⟩ := land_spec (readyOf s x d o).commit x.core ((readyOf s x d o).writes m res)
  obtain ⟨W, p1, p2, p3⟩ := commit_push s x d d o m res hw cs rfl
  have hcm : ∀ c, (readyOf s x d o).commit.core c = s.core c := by
    intro c; rw [commit_ready]; split <;> rfl
  have hT : (((readyOf s x d o).commit.land x.core ((readyOf s x d o).writes m res)).push x.wid
      ((readyOf s x d o).pushes m res)) = { s with cores := cs, warps := W } := by rw [e, p1]
  let T : State := { s with
    cores := cs
    warps := Tbl.upd (Tbl.upd W x.wid fun w => w.updDom x.st.dom fun k => k.sticky bits) x.wid fun w => w.updStrand x.sid fun st => st.advance 1 }
  have hfind : Tbl.find T.warps x.wid = some
      { x.w with
        queues := queuesAfter (readyOf s x d o) m res
        doms := Tbl.upd x.w.doms x.st.dom fun k => k.sticky bits
        strands := Tbl.upd x.w.strands x.sid fun st => st.advance 1 } := by
    show Tbl.find (Tbl.upd (Tbl.upd W x.wid _) x.wid _) x.wid = _
    rw [Tbl.find_upd, if_pos rfl, Tbl.find_upd, if_pos rfl, p3]; rfl
  have hfin : (readyOf s x d o).finish m res bits = T := by
    have : (readyOf s x d o).finish m res bits = T.endIfEmpty x.wid x.sid := by
      show (((((readyOf s x d o).commit.land x.core ((readyOf s x d o).writes m res)).push x.wid
        ((readyOf s x d o).pushes m res)).sticky x.wid x.st.dom bits).advance x.wid x.sid 1).endIfEmpty x.wid x.sid = _
      rw [hT]; rfl
    rw [this]
    apply endIfEmpty_of
    intro y hy
    obtain ⟨-, -, -, yw, yst, -⟩ := strandAt_spec hy
    have yw := Option.some.inj (hfind.symm.trans yw)
    have : Tbl.find (Tbl.upd x.w.strands x.sid fun st => st.advance 1) x.sid = some y.st := by rw [← yst, ← yw]
    rw [Tbl.find_upd, if_pos rfl, hst] at this
    simp only [Option.map_some, Option.some.injEq] at this
    rw [← this]
    exact hc.alive
  have hcs : ∀ c, T.core c = ((readyOf s x d o).commit.land x.core ((readyOf s x d o).writes m res)).core c := by
    intro c; rw [e]; rfl
  have hcore' : T.core x.core = (s.core x.core).landAll ((readyOf s x d o).writes m res) := by
    rw [hcs, e1, hcm]
  rw [hfin]
  refine ⟨⟨rfl, fun w h => ?_, fun c h => ?_⟩, hfind, ?_, ?_, ?_⟩
  · show Tbl.find (Tbl.upd (Tbl.upd W x.wid _) x.wid _) w = _
    rw [Tbl.find_upd, if_neg (fun e => h e.symm), Tbl.find_upd, if_neg (fun e => h e.symm), p2 w h]
  · rw [hcs, e2 c h, hcm]
  · rw [hcore']
    exact landAll_written _ _ _ (writes_dest s x d o m res)
  · intro k n hd l hl j hj
    rw [hcore']
    have hwr : (readyOf s x d o).writes m res =
        (lanesOf m).flatMap fun l => (List.range n).map fun j => ⟨x.d.lane x.width (k.val + j) l, (res l).getD j 0, 0⟩ := by
      unfold Ready.writes; simp [hd]
    apply Core.landAll_at
    · rw [hwr]
      exact ⟨_, List.mem_flatMap.2 ⟨l, hl, List.mem_map.2 ⟨j, List.mem_range.2 hj, rfl⟩⟩, rfl⟩
    · intro w hw ha
      rw [hwr] at hw
      obtain ⟨l', hl', hw⟩ := List.mem_flatMap.1 hw
      obtain ⟨j', hj', rfl⟩ := List.mem_map.1 hw
      obtain ⟨rfl, rfl⟩ := lane_inj (hm l' hl') (hm l hl) ha
      exact ⟨rfl, rfl⟩
  · intro k n hd l hl j hj
    rw [hcore']
    have hwr : (readyOf s x d o).writes m res =
        (List.range n).map fun j => ⟨x.d.scal (k.val + j), (res l).getD j 0, 0⟩ := by
      unfold Ready.writes; simp [hd, hl]
    apply Core.landAll_at
    · rw [hwr]
      exact ⟨_, List.mem_map.2 ⟨j, List.mem_range.2 hj, rfl⟩, rfl⟩
    · intro w hw ha
      rw [hwr] at hw
      obtain ⟨j', hj', rfl⟩ := List.mem_map.1 hw
      have : j' = j := by unfold Dom.scal at ha; simp only at ha; omega
      subst this
      exact ⟨rfl, rfl⟩

/-- The strand of a live strand's warp after its fields other than the strands have changed and the strand by `f`. -/
theorem alive_after {s t : State} {x : Who} (hc : Clear s x) {w' : Warp} (f : Strand → Strand)
    (ht : Tbl.find t.warps x.wid = some w') (hw : w'.strands = Tbl.upd x.w.strands x.sid f)
    (hf : (f x.st).mem = x.st.mem) : t.endIfEmpty x.wid x.sid = t := by
  obtain ⟨-, -, -, -, hst, -⟩ := who_spec hc.who
  apply endIfEmpty_of
  intro y hy
  obtain ⟨-, -, -, yw, yst, -⟩ := strandAt_spec hy
  have yw := Option.some.inj (ht.symm.trans yw)
  have : Tbl.find (Tbl.upd x.w.strands x.sid f) x.sid = some y.st := by rw [← yst, ← yw, hw]
  rw [Tbl.find_upd, if_pos rfl, hst] at this
  simp only [Option.map_some, Option.some.injEq] at this
  rw [← this, hf]
  exact hc.alive

/-- A long-latency instruction whose results are known issues. -/
theorem launch_done {s : State} {x : Who} (hc : Clear s x) (d : OpD) (o m : Mask) (la : Nat) (res : Nat → List Word) (bits : Nat) :
    Launched s x d o m la res bits ((readyOf s x d o).launch la m res bits) := by
  obtain ⟨hcur, hat, hcore, hw, hst, hdom⟩ := who_spec hc.who
  obtain ⟨W, p1, p2, p3⟩ := commit_push s x d { d with dst := none } o m res hw s.cores rfl
  have hp : (readyOf s x { d with dst := none } o).pushes m res = none := rfl
  rw [hp] at p1
  have hcm : (readyOf s x d o).commit = { s with warps := W } := by
    have : ({ (readyOf s x d o).commit with cores := s.cores } : State) = (readyOf s x d o).commit := by
      rw [commit_ready]; split <;> rfl
    rw [← this]; exact p1
  let p : Pend := ⟨s.nextId, la, (readyOf s x d o).writes m res, (readyOf s x d o).pushes m res, bits, true, false, true, x.st.dom⟩
  let T : State := { s with
    nextId := s.nextId + 1
    warps := Tbl.upd (Tbl.upd W x.wid fun w => w.updStrand x.sid fun st => st.advance 1) x.wid fun w =>
      w.updStrand x.sid fun st => { st with pends := st.pends ++ [p] } }
  have hfind : Tbl.find T.warps x.wid = some
      { x.w with
        queues := queuesAfter (readyOf s x { d with dst := none } o) m res
        strands := Tbl.upd x.w.strands x.sid fun st => { st.advance 1 with pends := (st.advance 1).pends ++ [p] } } := by
    show Tbl.find (Tbl.upd (Tbl.upd W x.wid _) x.wid _) x.wid = _
    rw [Tbl.find_upd, if_pos rfl, Tbl.find_upd, if_pos rfl, p3]
    simp only [Option.map_some, Warp.updStrand, Tbl.upd_upd]
  have hfin : (readyOf s x d o).launch la m res bits = T := by
    have : (readyOf s x d o).launch la m res bits = T.endIfEmpty x.wid x.sid := by
      unfold Ready.launch
      rw [hcm]; rfl
    rw [this]
    exact alive_after hc _ hfind rfl rfl
  rw [hfin]
  refine ⟨rfl, fun w h => ?_, hfind⟩
  show Tbl.find (Tbl.upd (Tbl.upd W x.wid _) x.wid _) w = _
  rw [Tbl.find_upd, if_neg (fun e => h e.symm), Tbl.find_upd, if_neg (fun e => h e.symm), p2 w h]

/-- An instruction whose result is a mask completes. -/
theorem finishMask_done {s : State} {x : Who} (hc : Clear s x) (d : OpD) (hd : d.dst = none) (m : MReg) (v : Mask) (bits : Nat) :
    MaskDone s x d m v bits ((readyOf s x d).finishMask m v bits) := by
  obtain ⟨hcur, hat, hcore, hw, hst, hdom⟩ := who_spec hc.who
  obtain ⟨W, p1, p2, p3⟩ := commit_push s x d d 0xFFFFFFFFFFFFFFFF 0 (fun _ => []) hw s.cores rfl
  have hp : (readyOf s x d).pushes 0 (fun _ => []) = none := by unfold Ready.pushes; simp [hd]
  rw [hp] at p1
  have hcm : (readyOf s x d).commit = { s with warps := W } := by
    have : ({ (readyOf s x d).commit with cores := s.cores } : State) = (readyOf s x d).commit := by
      rw [commit_ready]; split <;> rfl
    rw [← this]; exact p1
  let T : State := { s with
    warps := Tbl.upd (Tbl.upd (Tbl.upd W x.wid fun w => w.updDom x.st.dom fun k =>
        k.setMask m ((k.mask m &&& ~~~x.st.em) ||| (v &&& x.st.em))) x.wid fun w => w.updDom x.st.dom fun k => k.sticky bits) x.wid
      fun w => w.updStrand x.sid fun st => st.advance 1 }
  have hfind : Tbl.find T.warps x.wid = some
      { x.w with
        queues := queuesAfter (readyOf s x d) 0 fun _ => []
        doms := Tbl.upd x.w.doms x.st.dom fun k => (k.setMask m ((k.mask m &&& ~~~x.st.em) ||| (v &&& x.st.em))).sticky bits
        strands := Tbl.upd x.w.strands x.sid fun st => st.advance 1 } := by
    show Tbl.find (Tbl.upd (Tbl.upd (Tbl.upd W x.wid _) x.wid _) x.wid _) x.wid = _
    rw [Tbl.find_upd, if_pos rfl, Tbl.find_upd, if_pos rfl, Tbl.find_upd, if_pos rfl, p3]
    simp only [Option.map_some, Warp.updStrand, Warp.updDom, Tbl.upd_upd]
  have hfin : (readyOf s x d).finishMask m v bits = T := by
    have : (readyOf s x d).finishMask m v bits = T.endIfEmpty x.wid x.sid := by
      unfold Ready.finishMask
      rw [hcm, em_all]; rfl
    rw [this]
    exact alive_after hc _ hfind rfl rfl
  rw [hfin]
  refine ⟨rfl, fun w h => ?_, hfind⟩
  show Tbl.find (Tbl.upd (Tbl.upd (Tbl.upd W x.wid _) x.wid _) x.wid _) w = _
  rw [Tbl.find_upd, if_neg (fun e => h e.symm), Tbl.find_upd, if_neg (fun e => h e.symm), Tbl.find_upd, if_neg (fun e => h e.symm), p2 w h]

/-! ## The completion of R48 and R81 -/

theorem completeInt_ok (r : Ready) (dz ov : Mask) (fin : Nat → State) (h : noIntTrap r.x (dz &&& r.counted) (ov &&& r.counted)) :
    completeInt r dz ov fin = fin (intBits (dz &&& r.counted) (ov &&& r.counted)) := by
  unfold completeInt
  simp only [h.1, h.2, if_false]
  rfl

theorem completeFp_ok (r : Ready) (fl : Nat → Nat) (fin : Nat → State) (h : noFpTrap r fl) :
    completeFp r fl fin = fin (fpBits r fl) := by
  have hn : ((List.range 5).find? fun b => (acrFtrap r.x.d.csrs.acr).testBit b && decide (flagLanes r.counted fl b ≠ 0)) = none := by
    rw [List.find?_eq_none]
    intro b hb
    cases e : (acrFtrap r.x.d.csrs.acr).testBit b
    · simp
    · have := h b (by simpa using hb) e
      simp [flagLanes, this]
  unfold completeFp
  simp only [hn]
  rfl

end Sys2Proof.Machine
end

