-- ==== Sys2Proof/Laws/ClassZero.lean ====
section
/-! SUPPORT. The shared operations of classes 0 and 1: with a clear strand, operands in order and no enabled trap, each completes. -/

namespace Sys2Proof.Machine

/-- Every lane below the width. -/
abbrev allLanes : Mask := 0xFFFFFFFFFFFFFFFF

theorem intOp_done {s : State} {x : Who} {srcs : List (Opnd × Nat)} {d : Opnd} {n : Nat} {g : Ready → Nat → IRes}
    {masked : Bool} (hc : Clear s x)
    (ho : OperandsOk s x { srcs := srcs, dst := some (d, n), masked := masked })
    (ht : noIntTrap x (raised (readyOf s x { srcs := srcs, dst := some (d, n), masked := masked }) fun l => (g (readyOf s x { srcs := srcs, dst := some (d, n), masked := masked }) l).dz)
      (raised (readyOf s x { srcs := srcs, dst := some (d, n), masked := masked }) fun l => (g (readyOf s x { srcs := srcs, dst := some (d, n), masked := masked }) l).ov)) :
    ∃ t, intOp s srcs d n g masked = .next t ∧ Finished s x { srcs := srcs, dst := some (d, n), masked := masked } allLanes x.st.em
      (fun l => wordsOf n (g (readyOf s x { srcs := srcs, dst := some (d, n), masked := masked }) l).val)
      (intBits (raised (readyOf s x { srcs := srcs, dst := some (d, n), masked := masked }) fun l => (g (readyOf s x { srcs := srcs, dst := some (d, n), masked := masked }) l).dz)
        (raised (readyOf s x { srcs := srcs, dst := some (d, n), masked := masked }) fun l => (g (readyOf s x { srcs := srcs, dst := some (d, n), masked := masked }) l).ov)) t := by
  unfold raised at ht ⊢
  refine ⟨_, issue_clear hc _, ?_⟩
  simp only [beginOp_ok ho]
  rw [completeInt_ok (readyOf s x { srcs := srcs, dst := some (d, n), masked := masked }) _ _ _ ht, em_all]
  exact finish_done hc _ _ _ _ _ hc.lanes

theorem intLong_done {s : State} {x : Who} {la : BitVec 4} {srcs : List (Opnd × Nat)} {d : Opnd} {n : Nat} {g : Ready → Nat → IRes}
    (hc : Clear s x) (ho : OperandsOk s x { srcs := srcs, dst := some (d, n) })
    (ht : noIntTrap x (raised (readyOf s x { srcs := srcs, dst := some (d, n) }) fun l => (g (readyOf s x { srcs := srcs, dst := some (d, n) }) l).dz)
      (raised (readyOf s x { srcs := srcs, dst := some (d, n) }) fun l => (g (readyOf s x { srcs := srcs, dst := some (d, n) }) l).ov)) :
    ∃ t, intLong s la srcs d n g = .next t ∧ Launched s x { srcs := srcs, dst := some (d, n) } allLanes x.st.em la.toNat
      (fun l => wordsOf n (g (readyOf s x { srcs := srcs, dst := some (d, n) }) l).val)
      (intBits (raised (readyOf s x { srcs := srcs, dst := some (d, n) }) fun l => (g (readyOf s x { srcs := srcs, dst := some (d, n) }) l).dz)
        (raised (readyOf s x { srcs := srcs, dst := some (d, n) }) fun l => (g (readyOf s x { srcs := srcs, dst := some (d, n) }) l).ov)) t := by
  unfold raised at ht ⊢
  refine ⟨_, issue_clear hc _, ?_⟩
  simp only [beginOp_ok ho]
  rw [completeInt_ok (readyOf s x { srcs := srcs, dst := some (d, n) }) _ _ _ ht, em_all]
  exact launch_done hc _ _ _ _ _ _

theorem fpOp_done {s : State} {x : Who} {srcs : List (Opnd × Nat)} {d : Opnd} {n : Nat} {g : Ready → Nat → FRes} (hc : Clear s x)
    (ho : OperandsOk s x { srcs := srcs, dst := some (d, n) })
    (ht : noFpTrap (readyOf s x { srcs := srcs, dst := some (d, n) }) fun l => (g (readyOf s x { srcs := srcs, dst := some (d, n) }) l).flags) :
    ∃ t, fpOp s srcs d n g = .next t ∧ Finished s x { srcs := srcs, dst := some (d, n) } allLanes x.st.em
      (fun l => wordsOf n (g (readyOf s x { srcs := srcs, dst := some (d, n) }) l).val)
      (fpBits (readyOf s x { srcs := srcs, dst := some (d, n) }) fun l => (g (readyOf s x { srcs := srcs, dst := some (d, n) }) l).flags) t := by
  refine ⟨_, issue_clear hc _, ?_⟩
  simp only [beginOp_ok ho]
  rw [completeFp_ok _ _ _ ht, em_all]
  exact finish_done hc _ _ _ _ _ hc.lanes

theorem fpLong_done {s : State} {x : Who} {la : BitVec 4} {srcs : List (Opnd × Nat)} {d : Opnd} {g : Ready → Nat → FRes} (hc : Clear s x)
    (ho : OperandsOk s x { srcs := srcs, dst := some (d, 1) })
    (ht : noFpTrap (readyOf s x { srcs := srcs, dst := some (d, 1) }) fun l => (g (readyOf s x { srcs := srcs, dst := some (d, 1) }) l).flags) :
    ∃ t, fpLong s la srcs d g = .next t ∧ Launched s x { srcs := srcs, dst := some (d, 1) } allLanes x.st.em la.toNat
      (fun l => wordsOf 1 (g (readyOf s x { srcs := srcs, dst := some (d, 1) }) l).val)
      (fpBits (readyOf s x { srcs := srcs, dst := some (d, 1) }) fun l => (g (readyOf s x { srcs := srcs, dst := some (d, 1) }) l).flags) t := by
  refine ⟨_, issue_clear hc _, ?_⟩
  simp only [beginOp_ok ho]
  rw [completeFp_ok _ _ _ ht, em_all]
  exact launch_done hc _ _ _ _ _ _

theorem fpMany_done {s : State} {x : Who} {srcs : List (Opnd × Nat)} {d : Opnd} {n : Nat} {g : Ready → Nat → List Nat × Nat}
    (hc : Clear s x) (ho : OperandsOk s x { srcs := srcs, dst := some (d, n) })
    (ht : noFpTrap (readyOf s x { srcs := srcs, dst := some (d, n) }) fun l => (g (readyOf s x { srcs := srcs, dst := some (d, n) }) l).2) :
    ∃ t, fpMany s srcs d n g = .next t ∧ Finished s x { srcs := srcs, dst := some (d, n) } allLanes x.st.em
      (fun l => (g (readyOf s x { srcs := srcs, dst := some (d, n) }) l).1.map fun v => BitVec.ofNat 32 v)
      (fpBits (readyOf s x { srcs := srcs, dst := some (d, n) }) fun l => (g (readyOf s x { srcs := srcs, dst := some (d, n) }) l).2) t := by
  refine ⟨_, issue_clear hc _, ?_⟩
  simp only [beginOp_ok ho]
  rw [completeFp_ok _ _ _ ht, em_all]
  exact finish_done hc _ _ _ _ _ hc.lanes

theorem mem_insertBy {α : Type} (le : α → α → Bool) (a b : α) (l : List α) : b ∈ insertBy le a l ↔ b = a ∨ b ∈ l := by
  induction l with
  | nil => simp [insertBy]
  | cons c l ih =>
    unfold insertBy
    split <;> simp [ih]
    exact ⟨fun h => h.elim (.inr ∘ .inl) (·.elim .inl (.inr ∘ .inr)), fun h => h.elim (.inr ∘ .inl) (·.elim .inl (.inr ∘ .inr))⟩
theorem mem_sortBy {α : Type} (le : α → α → Bool) (b : α) (l : List α) : b ∈ sortBy le l ↔ b ∈ l := by
  induction l with
  | nil => rfl
  | cons c l ih => rw [sortBy, List.foldr_cons, mem_insertBy, ← sortBy, ih, List.mem_cons]

theorem maskWhere_false (m : Mask) : maskWhere m (fun _ => false) = 0 := by
  have h : (lanesOf m).filter (fun _ => false) = [] := List.filter_eq_nil_iff.2 fun _ _ => by simp
  unfold maskWhere; rw [h]; rfl

/-- An instruction that raises no flag adds no sticky bit. -/
theorem fpBits_zero (r : Ready) : (fpBits r fun _ => 0) = 0 := by
  unfold fpBits
  simp [maskWhere_false, List.range, List.range.loop]

/-- A lane of the participants lies in EM. -/
theorem mem_lanes_and {a b : Mask} {l : Nat} (h : l ∈ lanesOf (a &&& b)) : l ∈ lanesOf a := by
  rw [mem_lanesOf] at h ⊢; simp at h; exact ⟨h.1, h.2.1⟩

/-- A cross-lane instruction without flags completes. -/
theorem laneOp_done {s : State} {x : Who} {mem : Members} {d : OpD} {acc : OwnOf} {k : Ready → State} {res : Ready → Nat → List Word}
    {bits : Nat} (hc : Clear s x) (ho : OperandsOk s x d acc (participants x x.st.em mem))
    (hk : k (readyOf s x d (participants x x.st.em mem)) = (readyOf s x d (participants x x.st.em mem)).finish
      (readyOf s x d (participants x x.st.em mem)).em (res (readyOf s x d (participants x x.st.em mem))) bits) :
    ∃ t, laneOp s mem d k acc = .next t ∧ Finished s x d (participants x x.st.em mem)
      (readyOf s x d (participants x x.st.em mem)).em (res (readyOf s x d (participants x x.st.em mem))) bits t := by
  refine ⟨_, issue_clear hc _, ?_⟩
  simp only [beginOp_ok ho, hk]
  exact finish_done hc _ _ _ _ _ fun l hl => hc.lanes l (mem_lanes_and hl)

theorem uniformOp_done {s : State} {x : Who} {d : Opnd} {g : Who → Word} (hc : Clear s x)
    (ho : OperandsOk s x { srcs := [], dst := some (d, 1), masked := true }) :
    ∃ t, uniformOp s d g = .next t ∧ Finished s x { srcs := [], dst := some (d, 1), masked := true } allLanes x.st.em (fun _ => [g x]) 0 t := by
  refine ⟨_, issue_clear hc _, ?_⟩
  simp only [beginOp_ok ho]
  rw [em_all]
  exact finish_done hc _ _ _ _ _ hc.lanes

theorem maskOp_done {s : State} {x : Who} {d : MReg} {g : Who → Mask} (hc : Clear s x) (ho : OperandsOk s x { srcs := [] }) :
    ∃ t, maskOp s d g = .next t ∧ MaskDone s x { srcs := [] } d (g x) 0 t := by
  refine ⟨_, issue_clear hc _, ?_⟩
  simp only [beginOp_ok ho]
  exact finishMask_done hc _ rfl _ _ _

theorem carryOp_done {s : State} {x : Who} {f : CarryF} {g : Nat → Nat → Nat → Nat × Bool} (hc : Clear s x)
    (ho : OperandsOk s x { srcs := src2 f.ty f.a f.b, dst := some (f.d, tyWords f.ty), masked := true }) :
    ∃ u, Finished s x { srcs := src2 f.ty f.a f.b, dst := some (f.d, tyWords f.ty), masked := true } allLanes x.st.em
        (fun l => wordsOf (tyWords f.ty) (g ((readyOf s x { srcs := src2 f.ty f.a f.b, dst := some (f.d, tyWords f.ty), masked := true }).val 0 l)
          ((readyOf s x { srcs := src2 f.ty f.a f.b, dst := some (f.d, tyWords f.ty), masked := true }).val 1 l) (carryIn x f.m l)).1) 0 u ∧
      carryOp f g s = .next (u.setMaskBits x x.st.em f.m (maskWhere x.st.em fun l =>
        (g ((readyOf s x { srcs := src2 f.ty f.a f.b, dst := some (f.d, tyWords f.ty), masked := true }).val 0 l)
          ((readyOf s x { srcs := src2 f.ty f.a f.b, dst := some (f.d, tyWords f.ty), masked := true }).val 1 l) (carryIn x f.m l)).2)) := by
  refine ⟨_, finish_done hc _ _ _ _ _ hc.lanes, ?_⟩
  unfold carryOp
  rw [issue_clear hc]
  have ho' : beginOp s x { srcs := [(f.a, tyWords f.ty), (f.b, tyWords f.ty)], dst := some (f.d, tyWords f.ty), masked := true } = _ := beginOp_ok ho
  simp only [ho', em_all]
  rfl

theorem planOp_done {s : State} {x : Who} {f : PlanF} {n m : Nat} {g : Ready → Nat → List Word} (hc : Clear s x)
    (ho : OperandsOk s x { srcs := [(f.a, n)], dst := some (f.d, m) } (sliceAcc f.a n x)) :
    ∃ t, planOp s f n m g = .next t ∧ Finished s x { srcs := [(f.a, n)], dst := some (f.d, m) } allLanes x.st.em
      (g (readyOf s x { srcs := [(f.a, n)], dst := some (f.d, m) })) 0 t := by
  refine ⟨_, issue_clear hc _, ?_⟩
  have h := beginOp_ok ho
  unfold sliceAcc at h
  simp only [h, em_all]
  exact finish_done hc _ _ _ _ _ hc.lanes

end Sys2Proof.Machine
end

