-- ==== Sys2Proof/Laws/Access.lean ====
section
/-! SUPPORT. Memory accesses at issue: the checks that find nothing, the requests that go out, and what an issued access leaves. -/

namespace Sys2Proof.Machine

/-! ## Checks -/

/-- The translations of the lanes in extent. -/
def transOf (s : State) (x : Who) (l : List (Nat × Nat)) : List (Nat × Nat × Tr) :=
  l.map fun p => (p.1, p.2, s.translate x.core x.d.ctx p.2)

theorem laneCause_ok {k : AccKind} {z pa : Nat} {pr pw px : Bool} (h1 : k.need.missing pr pw px = none)
    (h2 : tier2 pa = true → k.tier2Bad z = none) : laneCause k z (.ok pa pr pw px) = none := by
  unfold laneCause Tr.need
  simp only [h1]
  split
  · exact h2 ‹_›
  · rfl

/-- Accesses in order pass every check of R158. -/
theorem memCheck_ok {s : State} {x : Who} {em : Mask} {r : Rcd} {k : AccKind} {scope : Scope} {lanes : List (Nat × Word)} {off : Int}
    {z : Nat} (h : MemOk s x r k scope lanes off z) :
    s.memCheck x.agent x.core x.d.ctx em r k scope lanes off z x.walked = .ok (transOf s x (inExtent r lanes off z)) := by
  unfold State.memCheck
  have hs : ¬ (scope = .system ∧ (!((Tbl.find s.ctxs x.d.ctx).any Context.sys)) = true) := by
    rintro ⟨e, e'⟩; rw [h.scope e] at e'; cases e'
  simp only [h.wf, h.right, h.swz, Bool.not_true, Bool.false_eq_true, if_false, hs]
  have ho : (if r.fault then lanes.filter fun p => (r.address (i32 p.2) off z).isNone else []) = [] := by
    split
    · rename_i hf
      rw [List.filter_eq_nil_iff]
      intro p hp
      have := h.extent hf p hp
      simp [Option.isSome_iff_ne_none] at this ⊢
      exact this
    · rfl
  have hm : ((lanes.filterMap fun p => (r.address (i32 p.2) off z).map fun va => (p.1, va)).filter fun p => decide (p.2 % z ≠ 0)) = [] := by
    rw [List.filter_eq_nil_iff]
    intro p hp
    have := h.align p hp
    simp [this]
  rw [ho, hm]
  simp only
  have hw : (!x.walked && ((List.map Prod.snd ((lanes.filterMap fun p => (r.address (i32 p.2) off z).map fun va => (p.1, va)).filter
      fun p => (s.tlbHit x.core x.d.ctx p.2).isNone)) != [])) = false := by
    cases hx : x.walked with
    | true => rfl
    | false =>
      have : ((lanes.filterMap fun p => (r.address (i32 p.2) off z).map fun va => (p.1, va)).filter
          fun p => (s.tlbHit x.core x.d.ctx p.2).isNone) = [] := by
        rw [List.filter_eq_nil_iff]
        intro p hp
        have := h.hit hx p hp
        simp [Option.isSome_iff_ne_none] at this ⊢
        exact this
      rw [this]; rfl
  rw [hw]
  simp only [Bool.false_eq_true, if_false]
  have ht : ((lanes.filterMap fun p => (r.address (i32 p.2) off z).map fun va => (p.1, va)).map fun p =>
      (p.1, p.2, s.foundFor x.agent x.core x.d.ctx p.2)) = transOf s x (inExtent r lanes off z) := by
    unfold transOf
    apply List.map_congr_left
    intro p hp
    unfold State.foundFor
    rw [h.late p hp]
  rw [ht]
  have hb : ((transOf s x (inExtent r lanes off z)).filterMap fun p => (laneCause k z p.2.2).map fun c => (p.1, p.2.1, c)) = [] := by
    apply filterMap_none
    intro p hp
    obtain ⟨q, hq, rfl⟩ := List.mem_map.1 hp
    obtain ⟨pa, pr, pw, px, e, h1, h2⟩ := h.page q hq
    simp only [e, laneCause_ok h1 h2, Option.map_none]
  rw [hb]; rfl

/-! ## Requests -/

/-- One line's request. -/
theorem request_step (a : Agent) (core ctx : Nat) (k : AccKind) (z : Nat) (sx : Bool) (r : Rcd) (lanes : List (LaneAcc × Bool))
    (after : List Nat) (acq : Bool) (pend : Option Nat) (pc : Pc) (hr : ∀ p ∈ lanes, p.2 = false) (lines : List Nat) (q : State × List Nat) :
    ∃ accs n ids, (lines.foldl (fun (q : State × List Nat) line =>
        let ls := lanes.filter fun p => p.1.va / 256 == line
        let replay := ls.any Prod.snd
        let (n, s) := q.1.fresh
        let acc : Access := ⟨a, ctx, k, z, sx, r, ls.map Prod.fst, after, pend, acq, false, replay, s.time, core, pc⟩
        let s : State := { s with accs := Tbl.put s.accs n acc }
        (if replay then s.takeFault (dieOf core) ctx (line * 256) (.access n) r.tier else s, q.2 ++ [n])) q) =
      ({ q.1 with accs := accs, nextId := n }, ids) ∧ q.1.nextId ≤ n ∧ (∀ i, i ∈ q.2 → i ∈ ids) ∧
      (∀ id, id < q.1.nextId → Tbl.find accs id = Tbl.find q.1.accs id) ∧
      ∀ line ∈ lines, ∃ id acc, q.1.nextId ≤ id ∧ id ∈ ids ∧ Tbl.find accs id = some acc ∧
        acc.lanes = (lanes.filter fun p => p.1.va / 256 == line).map Prod.fst ∧ acc.agent = a ∧ acc.ctx = ctx ∧ acc.kind = k ∧
        acc.size = z ∧ acc.sx = sx ∧ acc.pend = pend ∧ acc.done = false ∧ acc.replay = false ∧ acc.after = after := by
  induction lines generalizing q with
  | nil => exact ⟨q.1.accs, q.1.nextId, q.2, rfl, Nat.le_refl _, fun _ h => h, fun _ _ => rfl, by simp⟩
  | cons line lines ih =>
    have hn : ((lanes.filter fun p => p.1.va / 256 == line).any Prod.snd) = false := by
      rw [List.any_eq_false]; intro p hp
      simp [hr p (List.mem_filter.1 hp).1]
    let acc : Access := ⟨a, ctx, k, z, sx, r, (lanes.filter fun p => p.1.va / 256 == line).map Prod.fst, after, pend, acq, false, false, q.1.time, core, pc⟩
    let q' : State × List Nat := ({ q.1 with accs := Tbl.put q.1.accs q.1.nextId acc, nextId := q.1.nextId + 1 }, q.2 ++ [q.1.nextId])
    obtain ⟨accs, n, ids, e, h1, h2, h3, h4⟩ := ih q'
    refine ⟨accs, n, ids, ?_, ?_, ?_, ?_, ?_⟩
    · rw [List.foldl_cons]
      have : (let ls := lanes.filter fun p => p.1.va / 256 == line
        let replay := ls.any Prod.snd
        let (n, s) := q.1.fresh
        let acc : Access := ⟨a, ctx, k, z, sx, r, ls.map Prod.fst, after, pend, acq, false, replay, s.time, core, pc⟩
        let s : State := { s with accs := Tbl.put s.accs n acc }
        (if replay then s.takeFault (dieOf core) ctx (line * 256) (.access n) r.tier else s, q.2 ++ [n])) = q' := by
        simp only [hn, State.fresh]; rfl
      rw [this, e]
    · have : q.1.nextId + 1 ≤ n := h1
      omega
    · intro i hi; exact h2 i (List.mem_append_left _ hi)
    · intro id hid
      have : id < q.1.nextId + 1 := by omega
      rw [h3 id this]
      show Tbl.find (Tbl.put q.1.accs q.1.nextId acc) id = _
      rw [Tbl.find_put_ne _ _ (by omega)]
    · intro l hl
      rcases List.mem_cons.1 hl with rfl | hl
      · refine ⟨q.1.nextId, acc, Nat.le_refl _, h2 _ (List.mem_append_right _ (by simp)), ?_, rfl, rfl, rfl, rfl, rfl, rfl, rfl, rfl, rfl, rfl⟩
        rw [h3 q.1.nextId (Nat.lt_succ_self _)]
        exact Tbl.find_put_self _ _ _
      · obtain ⟨id, acc', g1, g2⟩ := h4 l hl
        have g1 : q.1.nextId + 1 ≤ id := g1
        exact ⟨id, acc', by omega, g2⟩

/-- The accesses of parts none of whose pages is missing. -/
theorem atomicParts_done (z : Nat) (parts : List LaneAcc) :
    atomicParts z (parts.map fun p => (p, false)) = (singleSize z, (singles z parts).map fun p => (p, false)) := by
  unfold atomicParts singleSize singles
  split
  · simp only [List.flatMap_map, List.map_flatMap]
  · rfl

/-- The requests of an instruction, none of whose lanes is unfinished (R154, R178). -/
theorem request_spec (s : State) (a : Agent) (core ctx : Nat) (k : AccKind) (z : Nat) (sx : Bool) (r : Rcd)
    (lanes : List (LaneAcc × Bool)) (parts : List LaneAcc) (rel acq : Bool) (pend : Option Nat) (hr : lanes = parts.map fun p => (p, false)) :
    ∃ accs n ids, s.request a core ctx k z sx r lanes rel acq pend = ({ s with accs := accs, nextId := n }, ids) ∧ s.nextId ≤ n ∧
      (∀ id, id < s.nextId → Tbl.find accs id = Tbl.find s.accs id) ∧
      ∀ p ∈ singles z parts, ∃ id acc, s.nextId ≤ id ∧ id ∈ ids ∧ Tbl.find accs id = some acc ∧ p ∈ acc.lanes ∧ acc.agent = a ∧ acc.ctx = ctx ∧
        acc.kind = k ∧ acc.size = singleSize z ∧ acc.sx = sx ∧ acc.pend = pend ∧ acc.done = false ∧ acc.replay = false := by
  subst hr
  unfold State.request
  rw [atomicParts_done]
  let lanes : List (LaneAcc × Bool) := (singles z parts).map fun p => (p, false)
  have hr : ∀ p ∈ lanes, p.2 = false := by
    intro p hp; obtain ⟨q, -, rfl⟩ := List.mem_map.1 hp; rfl
  obtain ⟨accs, n, ids, e, h1, -, h3, h4⟩ := request_step a core ctx k (singleSize z) sx r lanes (s.before a (singleSize z) (lanes.map Prod.fst) rel) acq pend (s.pcOf a) hr
    (sortBy (fun i j => decide (i ≤ j)) (lanes.map fun p => p.1.va / 256).eraseDups) (s, [])
  refine ⟨accs, n, ids, e, h1, h3, fun p hp => ?_⟩
  have hl : p.va / 256 ∈ sortBy (fun i j => decide (i ≤ j)) (lanes.map fun p => p.1.va / 256).eraseDups := by
    rw [mem_sortBy, List.mem_eraseDups]
    exact List.mem_map.2 ⟨(p, false), List.mem_map.2 ⟨p, hp, rfl⟩, rfl⟩
  obtain ⟨id, acc, g1, g2, g3, g4, g⟩ := h4 _ hl
  refine ⟨id, acc, g1, g2, g3, ?_, g.1, g.2.1, g.2.2.1, g.2.2.2.1, g.2.2.2.2.1, g.2.2.2.2.2.1, g.2.2.2.2.2.2.1, g.2.2.2.2.2.2.2.1⟩
  rw [g4]
  exact List.mem_map.2 ⟨(p, false), List.mem_filter.2 ⟨List.mem_map.2 ⟨p, hp, rfl⟩, by simp⟩, rfl⟩

/-! ## Translations enter the TLB -/

/-- Filling a TLB changes one core's TLB. -/
theorem fillTlb_spec (s : State) (core ctx va : Nat) :
    ∃ cs, s.fillTlb core ctx va = { s with cores := cs } ∧ ∀ c, ∃ l, (s.fillTlb core ctx va).core c = { s.core c with tlb := l } := by
  have hu (e : TlbEntry) : ∃ cs, (s.updCore core fun c => c.tlbFill e) = { s with cores := cs } ∧
      ∀ c, ∃ l, (s.updCore core fun c => c.tlbFill e).core c = { s.core c with tlb := l } := by
    refine ⟨_, rfl, fun c => ?_⟩
    rw [core_updCore]
    split
    · exact ⟨_, rfl⟩
    · exact ⟨(s.core c).tlb, rfl⟩
  have hn : ∃ cs, s = { s with cores := cs } ∧ ∀ c, ∃ l, s.core c = { s.core c with tlb := l } :=
    ⟨s.cores, rfl, fun c => ⟨(s.core c).tlb, rfl⟩⟩
  unfold State.fillTlb
  split
  · exact hu _
  · split
    · split
      · exact hu _
      · exact hn
    · exact hn

theorem fillAll_spec (core ctx : Nat) (trs : List (Nat × Nat × Tr)) (s : State) :
    ∃ cs, trs.foldl (fun s p => s.fillTlb core ctx p.2.1) s = { s with cores := cs } ∧
      ∀ c, ∃ l, (trs.foldl (fun s p => s.fillTlb core ctx p.2.1) s).core c = { s.core c with tlb := l } := by
  induction trs generalizing s with
  | nil => exact ⟨s.cores, rfl, fun c => ⟨(s.core c).tlb, rfl⟩⟩
  | cons p trs ih =>
    obtain ⟨cs, e, h⟩ := fillTlb_spec s core ctx p.2.1
    obtain ⟨cs', e', h'⟩ := ih (s.fillTlb core ctx p.2.1)
    refine ⟨cs', ?_, fun c => ?_⟩
    · rw [List.foldl_cons, e', e]
    · obtain ⟨l, hl⟩ := h' c
      obtain ⟨l', hl'⟩ := h c
      exact ⟨l, by rw [List.foldl_cons, hl, hl']⟩

/-- The pops of an instruction, as one warp's change. -/
theorem commit_popped {s : State} {x : Who} (hw : Tbl.find s.warps x.wid = some x.w) (d : OpD) (o : Mask) :
    ∃ W, (readyOf s x d o).commit = { s with warps := W } ∧ (∀ w, w ≠ x.wid → Tbl.find W w = Tbl.find s.warps w) ∧
      Tbl.find W x.wid = some { x.w with queues := popped s x d } := by
  obtain ⟨W, p1, p2, p3⟩ := commit_push s x d { d with dst := none } o 0 (fun _ => []) hw s.cores rfl
  have hp : (readyOf s x { d with dst := none } o).pushes 0 (fun _ => []) = none := rfl
  rw [hp] at p1
  refine ⟨W, ?_, p2, p3⟩
  have : ({ (readyOf s x d o).commit with cores := s.cores } : State) = (readyOf s x d o).commit := by
    rw [commit_ready]; split <;> rfl
  rw [← this]; exact p1

/-- The operands are consumed and the translations enter the TLB (R157). -/
theorem issued_spec {s : State} {x : Who} (hw : Tbl.find s.warps x.wid = some x.w) (d : OpD) (o : Mask) (trs : List (Nat × Nat × Tr)) :
    ∃ W cs, (readyOf s x d o).issued trs =
        { s with warps := W, cores := cs, walks := s.walks.filter fun p => p.2.agent != x.agent } ∧
      (∀ w, w ≠ x.wid → Tbl.find W w = Tbl.find s.warps w) ∧ Tbl.find W x.wid = some { x.w with queues := popped s x d } ∧
      ∀ c, ∃ l, ((Tbl.find cs c).getD Core.empty) = { s.core c with tlb := l } := by
  obtain ⟨W, e, h1, h2⟩ := commit_popped hw d o
  obtain ⟨cs, e', h⟩ := fillAll_spec x.core x.d.ctx trs ((readyOf s x d o).commit.dropWalks x.agent)
  refine ⟨W, cs, ?_, h1, h2, fun c => ?_⟩
  · unfold Ready.issued
    show trs.foldl (fun s p => s.fillTlb x.core x.d.ctx p.2.1) ((readyOf s x d o).commit.dropWalks x.agent) = _
    rw [e', e]; rfl
  · obtain ⟨l, hl⟩ := h c
    refine ⟨l, ?_⟩
    rw [e'] at hl
    show State.core { (readyOf s x d o).commit.dropWalks x.agent with cores := cs } c = _
    rw [hl, e]; rfl

/-- A long-latency access none of whose lanes is unfinished issues. -/
theorem longAccess_done {s : State} {x : Who} (hc : Clear s x) (d : OpD) (la : BitVec 4) (k : AccKind) (z : Nat) (sx rel acq : Bool)
    (rcd : Rcd) (trs : List (Nat × Nat × Tr)) (parts : List LaneAcc) (zeros : List RegWrite) (accs : List (LaneAcc × Bool))
    (ha : accs = parts.map fun p => (p, false)) :
    AccessIssued s x d la.toNat k z sx acq parts zeros ((readyOf s x d).longAccess la k z sx rel acq rcd trs accs zeros) := by
  obtain ⟨hcur, hat, hcore, hw, hst, hdom⟩ := who_spec hc.who
  obtain ⟨W, cs, e, w1, w2, wc⟩ := issued_spec hw d 0xFFFFFFFFFFFFFFFF trs
  let p : Pend := ⟨s.nextId, la.toNat, zeros, (readyOf s x d).pushes (readyOf s x d).em fun _ => [], 0, accs.isEmpty, true, true, x.st.dom⟩
  let s1 : State := { s with
    warps := Tbl.upd (Tbl.upd W x.wid fun w => w.updStrand x.sid fun st => st.advance 1) x.wid fun w =>
      w.updStrand x.sid fun st => { st with pends := st.pends ++ [p] }
    cores := cs
    walks := s.walks.filter fun p => p.2.agent != x.agent
    nextId := s.nextId + 1 }
  obtain ⟨as, n, ids, er, r1, r2, r3⟩ := request_spec s1 x.agent x.core x.d.ctx k z sx rcd accs parts rel acq (some s.nextId) ha
  let s2 : State := { s1 with accs := as, nextId := n }
  let s3 : State := if acq then s2.fenceAfter x.wid x.sid ids else s2
  have h1 : (readyOf s x d).longAccess la k z sx rel acq rcd trs accs zeros = s3.endIfEmpty x.wid x.sid := by
    unfold Ready.longAccess
    rw [e]
    show (let q := s1.request x.agent x.core x.d.ctx k z sx rcd accs rel acq (some s.nextId)
      (if acq then q.1.fenceAfter x.wid x.sid q.2 else q.1).endIfEmpty x.wid x.sid) = _
    rw [er]
  have hs1 : Tbl.find s1.warps x.wid = some { x.w with
      queues := popped s x d
      strands := Tbl.upd x.w.strands x.sid fun st => { st.advance 1 with pends := (st.advance 1).pends ++ [p] } } := by
    show Tbl.find (Tbl.upd (Tbl.upd W x.wid _) x.wid _) x.wid = _
    rw [Tbl.find_upd, if_pos rfl, Tbl.find_upd, if_pos rfl, w2]
    simp only [Option.map_some, Warp.updStrand, Tbl.upd_upd]
  have hupd (f : Strand → Strand) : Tbl.upd x.w.strands x.sid f = Tbl.put x.w.strands x.sid (f x.st) := by
    unfold Tbl.upd; rw [hst]
  have hf : ∃ fenced, (acq = false → fenced = x.st.fenced) ∧ Tbl.find s3.warps x.wid = some { x.w with
      queues := popped s x d
      strands := Tbl.put x.w.strands x.sid { x.st.advance 1 with
        fenced := fenced
        pends := (x.st.advance 1).pends ++ [p] } } := by
    cases acq with
    | false =>
      refine ⟨x.st.fenced, fun _ => rfl, ?_⟩
      show Tbl.find s1.warps x.wid = _
      rw [hs1, hupd]; rfl
    | true =>
      refine ⟨ids ++ x.st.fenced.filter fun i => !s2.performed i, (fun h => nomatch h), ?_⟩
      show Tbl.find (Tbl.upd s1.warps x.wid _) x.wid = _
      rw [Tbl.find_upd, if_pos rfl, hs1]
      simp only [Option.map_some, Warp.updStrand, Tbl.upd_upd]
      rw [hupd]
      rfl
  obtain ⟨fenced, hf1, hf2⟩ := hf
  have hend : s3.endIfEmpty x.wid x.sid = s3 := by
    refine alive_after hc (fun st => { st.advance 1 with fenced := fenced, pends := (st.advance 1).pends ++ [p] }) hf2 ?_ rfl
    rw [hupd]
  have h3 : ∃ W', s3 = { s2 with warps := W' } ∧ ∀ w, w ≠ x.wid → Tbl.find W' w = Tbl.find s.warps w := by
    have hs1w : ∀ w, w ≠ x.wid → Tbl.find s1.warps w = Tbl.find s.warps w := by
      intro w h
      show Tbl.find (Tbl.upd (Tbl.upd W x.wid _) x.wid _) w = _
      rw [Tbl.find_upd, if_neg (fun e => h e.symm), Tbl.find_upd, if_neg (fun e => h e.symm), w1 w h]
    cases acq with
    | false => exact ⟨s1.warps, rfl, hs1w⟩
    | true =>
      refine ⟨_, rfl, fun w h => ?_⟩
      show Tbl.find (Tbl.upd s1.warps x.wid _) w = _
      rw [Tbl.find_upd, if_neg (fun e => h e.symm), hs1w w h]
  obtain ⟨W', hW, hW'⟩ := h3
  rw [h1, hend]
  refine ⟨?_, fun c => ?_, fun w h => ?_, ⟨fenced, hf1, ?_⟩, fun id h => ?_, fun q hq => ?_⟩
  · rw [hW]
  · rw [hW]; exact wc c
  · rw [hW]; exact hW' w h
  · rw [hf2]
    have : accs.isEmpty = parts.isEmpty := by rw [ha]; cases parts <;> rfl
    simp only [p, this, em_all]
  · rw [hW]
    show Tbl.find as id = _
    rw [r2 id (Nat.lt_succ_of_le h)]
  · obtain ⟨id, acc, g1, -, g2, g3⟩ := r3 _ hq
    refine ⟨id, acc, g1, ?_, g3⟩
    rw [hW]; exact g2

/-- A store none of whose lanes is unfinished issues. -/
theorem storeAccess_done {s : State} {x : Who} (hc : Clear s x) (d : OpD) (o : Mask) (z : Nat) (rel : Bool) (rcd : Rcd) (n : Nat)
    (l : List (Nat × Nat)) (hl : ∀ p ∈ l, (s.translate x.core x.d.ctx p.2).isReplay = false) :
    StoreIssued s x d z (partsOf s x (fun i va pa => ⟨i, va, pa, leBytes z ((readyOf s x d o).num 0 0 n i), (readyOf s x d o).anyMark 0 n i, 0, 0, []⟩) l)
      ((readyOf s x d o).storeAccess rcd z rel (transOf s x l) n) := by
  obtain ⟨hcur, hat, hcore, hw, hst, hdom⟩ := who_spec hc.who
  obtain ⟨W, cs, e, w1, w2, wc⟩ := issued_spec hw d o (transOf s x l)
  let accs : List (LaneAcc × Bool) := (transOf s x l).map fun p =>
    ((⟨p.1, p.2.1, p.2.2.paOr, leBytes z ((readyOf s x d o).num 0 0 n p.1), (readyOf s x d o).anyMark 0 n p.1, 0, 0, []⟩ : LaneAcc), p.2.2.isReplay)
  let part (i va pa : Nat) : LaneAcc := ⟨i, va, pa, leBytes z ((readyOf s x d o).num 0 0 n i), (readyOf s x d o).anyMark 0 n i, 0, 0, []⟩
  have ha : accs = (partsOf s x part l).map fun p => (p, false) := by
    show ((transOf s x l).map fun p => (part p.1 p.2.1 p.2.2.paOr, p.2.2.isReplay)) = _
    unfold transOf partsOf
    rw [List.map_map, List.map_map]
    apply List.map_congr_left
    intro p hp
    simp [hl p hp]
  let s1 : State := { s with warps := W, cores := cs, walks := s.walks.filter fun p => p.2.agent != x.agent }
  obtain ⟨as, m, ids, er, r1, r2, r3⟩ := request_spec s1 x.agent x.core x.d.ctx .store z false rcd accs _ rel false none ha
  let s3 : State := { s1 with
    accs := as
    nextId := m
    warps := Tbl.upd W x.wid fun w => w.updStrand x.sid fun st => st.advance 1 }
  have hany : accs.any Prod.snd = false := by rw [ha, List.any_eq_false]; intro p hp; obtain ⟨q, -, rfl⟩ := List.mem_map.1 hp; simp
  have h1 : (readyOf s x d o).storeAccess rcd z rel (transOf s x l) n = s3.endIfEmpty x.wid x.sid := by
    unfold Ready.storeAccess
    rw [e]
    show (let q := s1.request x.agent x.core x.d.ctx .store z false rcd accs rel false none
      if accs.any Prod.snd then q.1.park x.wid x.sid .replay else (q.1.advance x.wid x.sid 1).endIfEmpty x.wid x.sid) = _
    rw [er, hany]; rfl
  have hf : Tbl.find s3.warps x.wid = some
      { x.w with queues := popped s x d, strands := Tbl.upd x.w.strands x.sid fun st => st.advance 1 } := by
    show Tbl.find (Tbl.upd W x.wid _) x.wid = _
    rw [Tbl.find_upd, if_pos rfl, w2]; rfl
  rw [h1, alive_after hc _ hf rfl rfl]
  refine ⟨rfl, fun c => wc c, fun w h => ?_, hf, r2, fun q hq => ?_⟩
  · show Tbl.find (Tbl.upd W x.wid _) w = _
    rw [Tbl.find_upd, if_neg (fun e => h e.symm), w1 w h]
  · obtain ⟨id, acc, g1, -, g2, g3⟩ := r3 _ hq
    exact ⟨id, acc, g1, g2, g3⟩

/-! ## Instructions -/

/-- Accesses in order go on with their translations. -/
theorem memOp_ok {s : State} {x : Who} {r : Rcd} {k : AccKind} {scope : Scope} {lanes : List (Nat × Word)} {off : Int} {z : Nat}
    (h : MemOk s x r k scope lanes off z) (go : State → List (Nat × Nat × Tr) → State) :
    memOp s x r k scope lanes off z go = go s (transOf s x (inExtent r lanes off z)) := by
  unfold memOp
  rw [memCheck_ok h]

/-- No lane of accesses in order is unfinished. -/
theorem noReplay {s : State} {x : Who} {r : Rcd} {k : AccKind} {scope : Scope} {lanes : List (Nat × Word)} {off : Int} {z : Nat}
    (h : MemOk s x r k scope lanes off z) : ∀ p ∈ inExtent r lanes off z, (s.translate x.core x.d.ctx p.2).isReplay = false := by
  intro p hp
  obtain ⟨pa, a, b, c, e, -⟩ := h.page p hp
  rw [e]; rfl

theorem parts_map (s : State) (x : Who) (part : Nat → Nat → Nat → LaneAcc) (l : List (Nat × Nat))
    (h : ∀ p ∈ l, (s.translate x.core x.d.ctx p.2).isReplay = false) :
    ((transOf s x l).map fun p => (part p.1 p.2.1 p.2.2.paOr, p.2.2.isReplay)) = (partsOf s x part l).map fun p => (p, false) := by
  unfold transOf partsOf
  rw [List.map_map, List.map_map]
  apply List.map_congr_left
  intro p hp
  simp [h p hp]

theorem zeros_eq (s : State) (x : Who) (ls : List Nat) (l : List (Nat × Nat)) (dst : Nat → List (Nat × Nat)) :
    zerosFor ls (transOf s x l) dst = zerosOut ls l dst := by
  unfold zerosFor zerosOut transOf
  simp only [List.any_map]; rfl

/-- A long-latency access in order issues. -/
theorem loadOp_done {s : State} {x : Who} {d : OpD} {r : Rcd} {k : AccKind} {scope : Scope} {lanes : List (Nat × Word)} {off : Int}
    {z : Nat} (hc : Clear s x) (hm : MemOk s x r k scope lanes off z) (la : BitVec 4) (sx rel acq : Bool)
    (part : Nat → Nat → Nat → LaneAcc) (zs : List (Nat × Nat × Tr) → List RegWrite) (zeros : List RegWrite)
    (hz : zs (transOf s x (inExtent r lanes off z)) = zeros) :
    AccessIssued s x d la.toNat k z sx acq (partsOf s x part (inExtent r lanes off z)) zeros
      (memOp s x r k scope lanes off z fun _ trs => (readyOf s x d).longAccess la k z sx rel acq r trs
        (trs.map fun p => (part p.1 p.2.1 p.2.2.paOr, p.2.2.isReplay)) (zs trs)) := by
  rw [memOp_ok hm, hz]
  exact longAccess_done hc d la k z sx rel acq r _ _ _ _ (parts_map s x part _ (noReplay hm))

end Sys2Proof.Machine
end

