-- ==== Sys2Proof/Laws/Checks.lean ====
section
/-! SUPPORT. Operands that are not in order: every instruction that takes its operands at once begins with the same checks, and what
those find decides alone. -/

namespace Sys2Proof.Machine

/-- An instruction that begins with the checks of its operands. -/
def Opens (i : Instr) (s : State) (x : Who) (d : OpD) (acc : OwnOf) (only : Mask) : Prop :=
  ∃ k : Ready → State, exec i s = .next (match beginOp s x d acc only with
    | .halt t => t
    | .go r => k r)

abbrev noOwn : OwnOf := fun _ _ => OwnAcc.none
abbrev everyLane : Mask := 0xFFFFFFFFFFFFFFFF

theorem opens_int {s : State} {x : Who} {i : Instr} {q : IntRule} (hc : Clear s x) (h : intRule i = some q) :
    Opens i s x q.d noOwn everyLane := by
  cases i <;> first | (cases h; done) | skip
  all_goals (cases h; exact ⟨_, issue_clear hc _⟩)

theorem opens_carry {s : State} {x : Who} {i : Instr} {f : CarryF} {g : Nat → Nat → Nat → Nat × Bool} (hc : Clear s x)
    (h : carryRule i = some (f, g)) :
    Opens i s x { srcs := src2 f.ty f.a f.b, dst := some (f.d, tyWords f.ty), masked := true } noOwn everyLane := by
  cases i <;> first | (cases h; done) | skip
  all_goals (cases h; exact ⟨_, issue_clear hc _⟩)

theorem opens_mask {s : State} {x : Who} {i : Instr} {q : MaskRule} (hc : Clear s x) (h : maskRule i = some q) :
    Opens i s x { srcs := q.srcs } noOwn everyLane := by
  cases i <;> first | (cases h; done) | skip
  all_goals (cases h; exact ⟨_, issue_clear hc _⟩)

theorem opens_fp {s : State} {x : Who} {i : Instr} {q : FpRule} (hc : Clear s x) (h : fpRule i = some q) :
    Opens i s x q.d noOwn everyLane := by
  cases i <;> first | (cases h; done) | skip
  all_goals (cases h; exact ⟨_, issue_clear hc _⟩)

theorem opens_lane {s : State} {x : Who} {i : Instr} {q : LaneRule} (hc : Clear s x) (h : laneRule i = some q) :
    Opens i s x q.d (q.acc x) (q.only x) := by
  cases i <;> first | (cases h; done) | skip
  all_goals (cases h; exact ⟨_, issue_clear hc _⟩)

theorem opens_frame {s : State} {x : Who} {i : Instr} {q : LaneRule} (hc : Clear s x) (h : frameRule s x i = some q) :
    Opens i s x q.d (q.acc x) everyLane := by
  cases i <;> first | (cases h; done) | skip
  case ldx f => cases h; exact ⟨_, issue_clear hc _⟩
  case gstat f =>
    simp only [frameRule] at h
    split at h
    · rename_i ht
      unfold tileOf at h
      cases e : s.tileAt x.w 8 x.st.dom f.tile.val with
      | none => simp [e] at h
      | some t =>
        simp only [e, Option.map_some, Option.some.injEq] at h
        subst h
        refine ⟨fun r => r.finish r.em fun l =>
          [BitVec.ofNat 32 (((s.core x.core).gran (((tileWords t.2.2 1 (r.val 0 l)).getD []).headD 0 / 128)).bits)], (issue_clear hc _).trans ?_⟩
        simp only [e, ht, true_and, Option.isNone_some, Bool.false_eq_true, if_false, if_true, Option.bind_some] <;> rfl
    · rename_i ht
      cases h
      refine ⟨fun r => r.finish r.em fun l =>
          [BitVec.ofNat 32 (((s.core x.core).gran (((indirect x f.lsel 1 r l).getD []).headD 0 / 128)).bits)], (issue_clear hc _).trans ?_⟩
      simp only [ht, false_and, if_false, Bool.false_eq_true]
      rfl
  case tget f =>
    simp only [frameRule, tileOf] at h
    cases e : s.tileAt x.w 8 x.st.dom f.tile.val with
    | none => simp [e] at h
    | some t =>
      obtain ⟨a, b, t⟩ := t
      simp only [e, Option.map_some, Option.some.injEq] at h
      subst h
      refine ⟨fun r => r.finish r.em fun l => ((tileWords t (tyWords f.ty) (r.val 0 l)).getD []).map (s.core x.core).word,
        (issue_clear hc _).trans ?_⟩
      simp only [e] <;> rfl
  case qstat f =>
    simp only [frameRule] at h
    split at h
    · rename_i hd
      cases h
      refine ⟨fun r => r.finish r.em fun _ => [BitVec.ofNat 32 (x.w.queues.getD f.q.val ⟨[], false⟩).stat], (issue_clear hc _).trans ?_⟩
      simp only [hd, ne_eq, not_true_eq_false, if_false]
      rfl
    · cases h

theorem opens_stx {s : State} {x : Who} {i : Instr} {q : StxRule} (hc : Clear s x) (h : stxRule s x i = some q) :
    Opens i s x q.d (fun r l => writesAt (q.at_ r l)) everyLane := by
  cases i <;> first | (cases h; done) | skip
  case stx f => cases h; exact ⟨_, issue_clear hc _⟩
  case tset f =>
    simp only [stxRule, tileOf] at h
    cases e : s.tileAt x.w 8 x.st.dom f.tile.val with
    | none => simp [e] at h
    | some t =>
      obtain ⟨a, b, t⟩ := t
      simp only [e, Option.map_some, Option.some.injEq] at h
      subst h
      refine ⟨fun r => r.finishWords ((lanesOf r.em).flatMap fun l =>
          ((tileWords t (tyWords f.ty) (r.val 0 l)).getD []).zipIdx.map fun p => ⟨p.1, r.word 1 p.2 l, 0⟩), (issue_clear hc _).trans ?_⟩
      simp only [e] <;> rfl

theorem opens_load {s : State} {x : Who} {i : Instr} {q : MemRule} (hc : Clear s x) (h : loadRule i = some q)
    (hw : ∀ f, i = .waita f → waitaOk f = true ∧ x.st.em ≠ 0) : Opens i s x q.d (q.own x) (q.only x) := by
  cases i <;> first | (cases h; done) | skip
  case waita f =>
    cases h
    have hw := (hw f rfl).1
    simp only [Opens, exec, execWaita]
    rw [issue_clear hc]
    simp only [hw, Bool.not_true, Bool.false_eq_true, if_false]
    exact ⟨_, rfl⟩
  all_goals (cases h; exact ⟨_, issue_clear hc _⟩)

theorem opens_store {s : State} {x : Who} {i : Instr} {q : MemRule} (hc : Clear s x) (hr : x.replaying = false) (h : storeRule i = some q) :
    Opens i s x q.d (q.own x) (q.only x) := by
  cases i <;> first | (cases h; done) | skip
  all_goals
    cases h
    simp only [Opens, exec, execSt, execSts]
    rw [issue_clear hc]
    simp only [hr, Bool.false_eq_true, if_false]
    exact ⟨_, rfl⟩

theorem opens_u {s : State} {x : Who} {i : Instr} {q : List (Opnd × Nat) × Option (Opnd × Nat)} (hc : Clear s x) (he : x.st.em ≠ 0)
    (h : uRule i = some q) : Opens i s x (uD q.1 q.2) (uAcc x q.1) everyLane := by
  cases i <;> first | (cases h; done) | skip
  all_goals
    cases h
    simp only [Opens, exec, execTalloc, execTfree, execWexp, execWrev, execWgrant, execGive, execTake, execLaunch, execRingAcq, execRingCmt,
      execRingRel, execRingPeek, execGfire, execGnode, execGcancel, execPrio]
    rw [issue_clear hc]
    simp only [uOp, he, if_false]
    exact ⟨_, rfl⟩

/-- Every instruction that `operandsOf` names begins with the checks of its operands. -/
theorem opens {s : State} {x : Who} {i : Instr} {d : OpD} {acc : OwnOf} {only : Mask} (hc : Clear s x)
    (h : operandsOf s x i = some (d, acc, only)) (hw : ∀ f, i = .waita f → waitaOk f = true ∧ x.st.em ≠ 0) : Opens i s x d acc only := by
  have pick {α : Type} {o : Option α} {o' : Option (OpD × OwnOf × Mask)} {g : α → OpD × OwnOf × Mask}
      (h : ((o.map g) <|> o') = some (d, acc, only)) : (∃ q, o = some q ∧ g q = (d, acc, only)) ∨ o' = some (d, acc, only) := by
    cases o with
    | none => exact .inr h
    | some q => exact .inl ⟨q, rfl, by simpa using h⟩
  unfold operandsOf at h
  rcases pick h with ⟨q, e, hq⟩ | h
  · cases hq; exact opens_int hc e
  rcases pick h with ⟨q, e, hq⟩ | h
  · cases hq; exact opens_carry hc e
  rcases pick h with ⟨q, e, hq⟩ | h
  · cases hq; exact opens_mask hc e
  rcases pick h with ⟨q, e, hq⟩ | h
  · cases hq; exact opens_fp hc e
  rcases pick h with ⟨q, e, hq⟩ | h
  · cases hq; exact opens_lane hc e
  rcases pick h with ⟨q, e, hq⟩ | h
  · cases hq; exact opens_frame hc e
  rcases pick h with ⟨q, e, hq⟩ | h
  · cases hq; exact opens_stx hc e
  have last (h : (if x.st.em = 0 then none else (uRule i).map fun q => (uD q.1 q.2, uAcc x q.1, everyLane)) = some (d, acc, only)) :
      Opens i s x d acc only := by
    split at h
    · cases h
    · rename_i he
      cases e : uRule i with
      | none => simp [e] at h
      | some q => rw [e] at h; cases h; exact opens_u hc he e
  by_cases hr : x.replaying = true
  · rw [if_pos hr] at h; exact last h
  · rw [if_neg hr] at h
    rcases pick h with ⟨q, e, hq⟩ | h
    · cases hq
      cases e1 : loadRule i with
      | some q' => rw [e1] at e; cases e; exact opens_load hc e1 hw
      | none => rw [e1] at e; exact opens_store hc (by simpa using hr) e
    · exact last h

/-! ## What the checks find -/

theorem closed_iff (x : Who) (d : OpD) :
    ((List.range 4).any fun q => decide ((x.w.queues.getD q ⟨[], false⟩).entries.length < popCount d.srcs q)) = true ↔
      ∃ q, q < 4 ∧ (x.w.queues.getD q ⟨[], false⟩).entries.length < popCount d.srcs q := by
  simp

/-- The first violation of a lane is the one that strikes it. -/
theorem violation_iff (s : State) (x : Who) (d : OpD) (acc : OwnOf) (only : Mask) (closed : Bool) (l k : Nat)
    (hcl : closed = true ↔ ∃ q, q < 4 ∧ (x.w.queues.getD q ⟨[], false⟩).entries.length < popCount d.srcs q) :
    (if only.getLsbD l then violation (firstLook s x d only) (acc (firstLook s x d only) l) closed l
      else outerViolation (firstLook s x d only) closed) = some k ↔ strikes s x d acc only l k := by
  have hw : ∀ (r : Ready) (l : Nat), r.x = x → r.d = d → r.s = s → violation r (acc (firstLook s x d only) l) closed l =
      (if ((acc (firstLook s x d only) l).bad || d.outside x) then some 0
       else if ((acc (firstLook s x d only) l).reads ++ laneReads x d l ++ ((acc (firstLook s x d only) l).writes ++ laneWrites x d l)).any
          (fun a => ((s.core x.core).gran (a / 128)).own) then some 2
       else if ((acc (firstLook s x d only) l).reads ++ laneReads x d l).any (fun a => !((s.core x.core).gran (a / 128)).val) then some 1
       else if closed then some 3 else none) := by
    intro r l h1 h2 h3
    subst h1 h2 h3
    unfold violation laneWrites
    obtain ⟨srcs, dst, carry, masked⟩ := r.d
    cases dst <;> rfl
  have e1 : (((acc (firstLook s x d only) l).reads ++ laneReads x d l ++ ((acc (firstLook s x d only) l).writes ++ laneWrites x d l)).any
      fun a => ((s.core x.core).gran (a / 128)).own) = true ↔
      ∃ w ∈ (acc (firstLook s x d only) l).reads ++ laneReads x d l ++ ((acc (firstLook s x d only) l).writes ++ laneWrites x d l),
        ((s.core x.core).gran (w / 128)).own = true := by rw [List.any_eq_true]
  have e2 : (((acc (firstLook s x d only) l).reads ++ laneReads x d l).any fun a => !((s.core x.core).gran (a / 128)).val) = true ↔
      ∃ w ∈ (acc (firstLook s x d only) l).reads ++ laneReads x d l, ((s.core x.core).gran (w / 128)).val = false := by
    rw [List.any_eq_true]; simp only [Bool.not_eq_true']
  rw [hw _ _ rfl rfl rfl]
  unfold strikes
  simp only [← e1, ← e2, ← hcl]
  generalize (((acc (firstLook s x d only) l).reads ++ laneReads x d l ++ ((acc (firstLook s x d only) l).writes ++ laneWrites x d l)).any
      fun a => ((s.core x.core).gran (a / 128)).own) = own
  generalize (((acc (firstLook s x d only) l).reads ++ laneReads x d l).any fun a => !((s.core x.core).gran (a / 128)).val) = inv
  generalize (acc (firstLook s x d only) l).bad = bad
  have ho : outerViolation (firstLook s x d only) closed = if d.outside x then some 0 else if closed then some 3 else none := rfl
  rw [ho]
  generalize d.outside x = out
  generalize only.getLsbD l = here
  rcases k with _ | _ | _ | _ | k <;> cases out <;> cases here <;> cases bad <;> cases own <;> cases inv <;> cases closed <;> simp

theorem getLsbD_maskOf (l : List Nat) (i : Nat) : (maskOf l).getLsbD i = true ↔ i ∈ l ∧ i < 64 := by
  have gen : ∀ (l : List Nat) (m : Mask), (l.foldl (fun m i => m ||| (1#64 <<< i)) m).getLsbD i = true ↔
      m.getLsbD i = true ∨ (i ∈ l ∧ i < 64) := by
    intro l
    induction l with
    | nil => intro m; simp
    | cons a l ih =>
      intro m
      rw [List.foldl_cons, ih, BitVec.getLsbD_or, Bool.or_eq_true, List.mem_cons]
      have : (1#64 <<< a).getLsbD i = true ↔ i = a ∧ i < 64 := by
        rw [BitVec.getLsbD_shiftLeft]
        simp only [BitVec.getLsbD_one, Bool.and_eq_true, decide_eq_true_eq, Bool.not_eq_true', decide_eq_false_iff_not]
        omega
      rw [this]
      constructor
      · rintro ((h | h) | h)
        · exact .inl h
        · exact .inr ⟨.inl h.1, h.2⟩
        · exact .inr ⟨.inr h.1, h.2⟩
      · rintro (h | ⟨h | h, h2⟩)
        · exact .inl (.inl h)
        · exact .inl (.inr ⟨h, h2⟩)
        · exact .inr ⟨h, h2⟩
  unfold maskOf; rw [gen]; simp

theorem mask_ext {a b : Mask} (h : ∀ i, a.getLsbD i = true ↔ b.getLsbD i = true) : a = b := by
  apply BitVec.eq_of_getLsbD_eq
  intro i _
  exact Bool.eq_iff_iff.2 (h i)

theorem mask_lt {m : Mask} {i : Nat} (h : m.getLsbD i = true) : i < 64 := BitVec.lt_of_getLsbD h

theorem maskOf_eq_nil {l : List Nat} (hl : ∀ i ∈ l, i < 64) : maskOf l = 0 ↔ l = [] := by
  constructor
  · intro h
    cases l with
    | nil => rfl
    | cons a l =>
      have : (maskOf (a :: l)).getLsbD a = true := (getLsbD_maskOf _ _).2 ⟨List.mem_cons_self .., hl a (List.mem_cons_self ..)⟩
      rw [h] at this; simp at this
  · rintro rfl; rfl

theorem cases_eq (L : List (Nat × Nat)) (k : Mask → Nat → Prep) (r : Prep) :
    (match L with
      | (_, a) :: _ => k (maskOf (L.map Prod.fst)) a
      | [] => r) =
    match L with
      | (l, a) :: rest => k (maskOf (l :: rest.map Prod.fst)) a
      | [] => r := by
  cases L <;> rfl

/-- What the checks of operands come to once nothing holds the instruction back, by the lanes that each violation strikes. -/
theorem beginOp_struck {s : State} {x : Who} {d : OpD} {acc : OwnOf} {only : Mask} {m : Nat → Mask} (h : Issues s x d acc only)
    (hm : Struck s x d acc only m) :
    beginOp s x d acc only =
      if ¬ (m 0 = 0 ∧ m 1 = 0 ∧ m 2 = 0 ∧ m 3 = 0) ∧ (x.d.csrs.acr.getLsbD 24 || decide (x.st.dom ≠ 0)) = true then
        if m 0 ≠ 0 then .halt (s.trapAt x.wid x.sid { cause := 0x20, lanes := m 0 })
        else if m 1 ||| m 3 ≠ 0 then
          .halt (s.trapAt x.wid x.sid { cause := 0x21, lanes := m 1 ||| m 3, detail := if m 3 ≠ 0 then 4 else 0 })
        else .halt (s.trapAt x.wid x.sid { cause := 0x22, lanes := m 2 })
      else
        let r : Ready := ⟨s, x, d, x.st.em &&& only &&& ~~~(m 0 ||| m 1 ||| m 2 ||| m 3), (List.range 4).map fun k => (k, m k),
          popEntries x.w.queues d.srcs⟩
        match (lanesOf r.em).filterMap fun l =>
          ((laneConsumes x d l ++ (acc r l).reads).find? fun a => (s.core x.core).mark a != 0).map fun a => (l, a) with
        | (l, a) :: rest => .halt (s.trapAt x.wid x.sid
            { cause := 0x50, lanes := maskOf (l :: rest.map Prod.fst), addr := a, detail := (s.core x.core).mark a })
        | [] => .go r := by
  unfold beginOp
  rw [h.dirs, h.busy, h.room]
  have hrel : (d.pushes && s.unfinished x.agent) = false := by
    cases e : d.pushes with
    | false => rfl
    | true => simpa using h.release e
  have hf : Ready.fencedOff ⟨s, x, d, x.st.em &&& only, [], popEntries x.w.queues d.srcs⟩ acc = false := h.fence
  simp only [Bool.false_eq_true, if_false, hrel, hf]
  generalize hcl : ((List.range 4).any fun q => decide ((x.w.queues.getD q ⟨[], false⟩).entries.length < popCount d.srcs q)) = closed
  have hv : ∀ l k, (if only.getLsbD l then violation (firstLook s x d only) (acc (firstLook s x d only) l) closed l
      else outerViolation (firstLook s x d only) closed) = some k ↔ strikes s x d acc only l k := fun l k =>
    violation_iff s x d acc only closed l k (hcl ▸ closed_iff x d)
  have hfl : (⟨s, x, d, x.st.em &&& only, [], popEntries x.w.queues d.srcs⟩ : Ready) = firstLook s x d only := rfl
  rw [hfl]
  generalize hviol : ((lanesOf x.st.em).filterMap fun l =>
    (if only.getLsbD l then violation (firstLook s x d only) (acc (firstLook s x d only) l) closed l
      else outerViolation (firstLook s x d only) closed).map fun k => (k, l)) = viol
  have mem : ∀ k l, (k, l) ∈ viol ↔ (m k).getLsbD l = true := by
    intro k l
    rw [← hviol, List.mem_filterMap, hm k l]
    constructor
    · rintro ⟨j, hj, e⟩
      rw [Option.map_eq_some_iff] at e
      obtain ⟨k', e1, e2⟩ := e
      cases e2
      exact ⟨(mem_lanesOf.1 hj).2, (hv _ _).1 e1⟩
    · rintro ⟨h1, h2⟩
      exact ⟨l, mem_lanesOf.2 ⟨mask_lt h1, h1⟩, by rw [(hv l k).2 h2]; rfl⟩
  have big : ∀ k l, (m k).getLsbD l = true → k < 4 := by
    intro k l hk
    have := ((hm k l).1 hk).2
    match k with
    | 0 | 1 | 2 | 3 => decide
    | n + 4 => exact this.elim
  have hw : ∀ k, maskOf (viol.filterMap fun p => if p.1 = k then some p.2 else none) = m k := by
    intro k
    apply mask_ext
    intro i
    rw [getLsbD_maskOf, List.mem_filterMap]
    constructor
    · rintro ⟨⟨⟨k', l⟩, hp, e⟩, _⟩
      simp only at e
      split at e
      · rename_i hk; cases e; exact hk ▸ (mem k' i).1 hp
      · cases e
    · intro hi
      exact ⟨⟨(k, i), (mem k i).2 hi, by simp⟩, mask_lt hi⟩
  have lt : ∀ k, ∀ i ∈ viol.filterMap (fun p => if p.1 = k then some p.2 else none), i < 64 := by
    intro k i hi
    rw [List.mem_filterMap] at hi
    obtain ⟨⟨k', l⟩, hp, e⟩ := hi
    simp only at e
    split at e
    · cases e; exact mask_lt ((mem k' i).1 hp)
    · cases e
  have hn : ∀ k, viol.filterMap (fun p => if p.1 = k then some p.2 else none) = [] ↔ m k = 0 := fun k => by
    rw [← hw k, maskOf_eq_nil (lt k)]
  have hne : viol ≠ [] ↔ ¬ (m 0 = 0 ∧ m 1 = 0 ∧ m 2 = 0 ∧ m 3 = 0) := by
    refine not_congr ⟨?_, ?_⟩
    · intro e
      have z : ∀ k, m k = 0 := fun k => (hn k).1 (by rw [e]; rfl)
      exact ⟨z 0, z 1, z 2, z 3⟩
    · rintro ⟨h0, h1, h2, h3⟩
      rw [List.eq_nil_iff_forall_not_mem]
      rintro ⟨k, l⟩ hp
      have hb := (mem k l).1 hp
      have := big k l hb
      rcases (by omega : k = 0 ∨ k = 1 ∨ k = 2 ∨ k = 3) with rfl | rfl | rfl | rfl
      · rw [h0] at hb; simp at hb
      · rw [h1] at hb; simp at hb
      · rw [h2] at hb; simp at hb
      · rw [h3] at hb; simp at hb
  have hall : maskOf (viol.map Prod.snd) = m 0 ||| m 1 ||| m 2 ||| m 3 := by
    apply mask_ext
    intro i
    rw [getLsbD_maskOf, List.mem_map]
    simp only [BitVec.getLsbD_or, Bool.or_eq_true]
    constructor
    · rintro ⟨⟨⟨k, l⟩, hp, rfl⟩, _⟩
      have hb := (mem k l).1 hp
      have := big k l hb
      rcases (by omega : k = 0 ∨ k = 1 ∨ k = 2 ∨ k = 3) with rfl | rfl | rfl | rfl <;> simp [hb]
    · rintro (((hi | hi) | hi) | hi)
      · exact ⟨⟨(0, i), (mem 0 i).2 hi, rfl⟩, mask_lt hi⟩
      · exact ⟨⟨(1, i), (mem 1 i).2 hi, rfl⟩, mask_lt hi⟩
      · exact ⟨⟨(2, i), (mem 2 i).2 hi, rfl⟩, mask_lt hi⟩
      · exact ⟨⟨(3, i), (mem 3 i).2 hi, rfl⟩, mask_lt hi⟩
  have happ : maskOf (viol.filterMap (fun p => if p.1 = 1 then some p.2 else none) ++
      viol.filterMap (fun p => if p.1 = 3 then some p.2 else none)) = m 1 ||| m 3 := by
    rw [← hw 1, ← hw 3]
    apply mask_ext
    intro i
    rw [getLsbD_maskOf, BitVec.getLsbD_or, Bool.or_eq_true, getLsbD_maskOf, getLsbD_maskOf, List.mem_append]
    exact or_and_right
  have hor : viol.filterMap (fun p => if p.1 = 1 then some p.2 else none) ++
      viol.filterMap (fun p => if p.1 = 3 then some p.2 else none) ≠ [] ↔ m 1 ||| m 3 ≠ 0 := by
    rw [← happ]
    refine not_congr (maskOf_eq_nil fun i hi => ?_).symm
    rcases List.mem_append.1 hi with hi | hi
    · exact lt 1 i hi
    · exact lt 3 i hi
  simp only [hne, hn, hor, hw, happ, hall, ne_eq]
  split
  · rfl
  · simp only [laneConsumes]
    exact cases_eq _ (fun p a => .halt (s.trapAt x.wid x.sid
      { cause := 0x50, lanes := p, addr := a, detail := (s.core x.core).mark a })) _

end Sys2Proof.Machine
end

