-- ==== Sys2Proof/Laws/Engines.lean ====
section
/-! SUPPORT. Engine commands: the rows of R198 that a command passes, and what its acceptance does. -/

namespace Sys2Proof.Machine

theorem setInf_gran (l : List Nat) (c : Core) (g : Nat) :
    (l.foldl (fun k g => k.setGran g { k.gran g with inf := true }) c).gran g =
      if g ∈ l then { c.gran g with inf := true } else c.gran g := by
  induction l generalizing c with
  | nil => simp
  | cons a l ih =>
    rw [List.foldl_cons, ih, Core.gran_setGran]
    by_cases h : a = g
    · subst h; by_cases h2 : a ∈ l <;> simp [h2]
    · have h' : ¬ g = a := fun e => h e.symm
      simp [h, h']

theorem setInf_rest (l : List Nat) (c : Core) :
    l.foldl (fun k g => k.setGran g { k.gran g with inf := true }) c =
      { c with grans := (l.foldl (fun k g => k.setGran g { k.gran g with inf := true }) c).grans } := by
  induction l generalizing c with
  | nil => rfl
  | cons a l ih => rw [List.foldl_cons]; exact (ih _).trans rfl

/-- What acceptance does. -/
theorem accept_spec (s : State) (i : Iss) (h : EHdr) (b : EngBody) (k : EngTake) (follow waits : Option Nat) :
    (s.accept i h b k follow waits).2 = s.nextId ∧
    Accepted s i h b k (i.w.seqno + if waits.isSome then 2 else 1) follow waits (s.accept i h b k follow waits).1 := by
  have hs : (i.w.seqno + if waits.isSome then 2 else 1) % 2 ^ 20 =
      (if waits.isSome then ((i.w.seqno + 1) % 2 ^ 20 + 1) % 2 ^ 20 else (i.w.seqno + 1) % 2 ^ 20) := by
    split <;> omega
  have hc : ∀ c, (s.accept i h b k follow waits).1.core c = (s.updCore i.core fun c =>
      { ((k.land ++ k.srcs).foldl (fun k g => k.setGran g { k.gran g with inf := true }) c) with cmds := c.cmds ++ [s.nextId] }).core c :=
    fun _ => rfl
  refine ⟨rfl, rfl, ?_, fun j hj => ?_, fun c hne => ?_, ?_, fun g => ?_, fun w hw => ?_, ?_⟩
  · show Tbl.find (Tbl.put s.cmds s.nextId _) s.nextId = _
    rw [Tbl.find_put_self]
    unfold newCmd
    rw [hs]
    rfl
  · show Tbl.find (Tbl.put s.cmds s.nextId _) j = _
    rw [Tbl.find_put_ne _ _ (fun e => hj e.symm)]
  · rw [hc, core_updCore, if_neg (fun e => hne e.symm)]
  · have e : (s.accept i h b k follow waits).1.core i.core = { ((k.land ++ k.srcs).foldl (fun k g =>
        k.setGran g { k.gran g with inf := true }) (s.core i.core)) with cmds := (s.core i.core).cmds ++ [s.nextId] } := by
      rw [hc, core_updCore, if_pos rfl]
    rw [e, setInf_rest]
  · rw [hc, core_updCore, if_pos rfl]
    exact setInf_gran (k.land ++ k.srcs) (s.core i.core) g
  · show Tbl.find (Tbl.upd s.warps i.wid _) w = _
    rw [Tbl.find_upd, if_neg (fun e => hw e.symm)]
  · show Tbl.find (Tbl.upd s.warps i.wid _) i.wid = _
    rw [Tbl.find_upd, if_pos rfl, hs]

/-! ## The rows -/

theorem engPre_ok {s : State} {i : Iss} {h : EHdr} {reads writes : List Nat} {c : EngChk} (q : EngOk s i h reads c writes) :
    s.engPre i h reads writes = none := by
  unfold State.engPre
  have h1 : badSync h.sync.toNat = false := by have := q.pair; unfold badSync; simp only [decide_eq_false_iff_not]; omega
  have h3 : ((h.stat.val :: writes).any fun k => s.scalarBusy i.wid i.dn k && !(k == h.sync.toNat || k == h.sync.toNat + 1)) = false := by
    rw [List.any_eq_false]; intro k hk; simp [q.busy k hk]
  have h2 : ((reads.filter fun k => decide (k < 48)).map i.d.scal).find? (fun a => (s.core i.core).mark a != 0) = none := by
    rw [List.find?_eq_none]
    intro a ha
    obtain ⟨k, hk, rfl⟩ := List.mem_map.1 ha
    obtain ⟨hk, hl⟩ := List.mem_filter.1 hk
    simp [q.clean k hk (of_decide_eq_true hl)]
  simp only [h1, h3, Bool.false_eq_true, if_false, h2]
  rfl

theorem badRec_ok {s : State} {i : Iss} (e : Nat) {l : List (Nat × AccKind)}
    (h : ∀ p ∈ l, (s.ircd i p.1).wf = true ∧ p.2.lacks (s.ircd i p.1) = none) : s.badRec i e l = none := by
  unfold State.badRec
  rw [List.findSome?_eq_none_iff]
  intro p hp
  simp [(h p hp).1, (h p hp).2]

theorem engFirst_ok {s : State} {i : Iss} {h : EHdr} {reads writes : List Nat} {c : EngChk} (q : EngOk s i h reads c writes) (e : Nat) :
    s.engFirst i h e c = none := by
  unfold State.engFirst
  have h1 : ¬ (h.stat.val = h.sync.toNat ∨ h.stat.val = h.sync.toNat + 1) := by have := q.status; omega
  have h2 : (c.tiles.find? fun t => (s.itile i t).isNone) = none := by
    rw [List.find?_eq_none]; intro t ht; have := q.tiles t ht; simp [Option.isSome_iff_ne_none.1 this]
  have h3 : ((c.land ++ c.srcs).any fun g => !((s.core i.core).gran g).own) = false := by
    rw [List.any_eq_false]; intro g hg; simp [q.given g hg]
  have h4 : (c.land.any fun g => s.infElsewhere i.core g i.wid i.dn h.sync.toNat) = false := by
    rw [List.any_eq_false]; intro g hg; simp [q.idle g hg]
  simp only [q.field, h1, badRec_ok e q.recs, h2, h3, h4, Bool.false_eq_true, if_false]

theorem engLast_ok {s : State} {i : Iss} {c : EngChk} (q : SizesOk s i c) (e : Nat) : s.engLast i e c = none := by
  unfold State.engLast
  have h1 : (c.swz.find? fun r => (s.ircd i r).swz != 0) = none := by
    rw [List.find?_eq_none]; intro r hr; simp [q.2.1 r hr]
  simp only [q.1, h1, q.2.2, Bool.false_eq_true, if_false, Option.map_none]

/-- A command whose rows all pass is accepted where its core's queue has room, and waits for room otherwise. -/
theorem admitOne_ok {s : State} {i : Iss} {h : EHdr} {b : EngBody} {reads : List Nat} {c : EngChk} {k : EngTake}
    (q : EngOk s i h reads c) (z : SizesOk s i c) :
    s.admitOne i h b reads c k = if s.queueRoom i.core 1 then .done (s.accept i h b k none none).1 s.nextId else .full := by
  unfold State.admitOne
  simp only [engPre_ok q, engFirst_ok q, engLast_ok z]
  cases s.queueRoom i.core 1 <;> rfl

theorem admitKv_ok {s : State} {i : Iss} {h : EHdr} {b : EngBody} {f : KvF} {u : KvUse} {land src op : Bool}
    (q : EngOk s i h (u.reads.map BitVec.toNat ++ if op then [f.se.toNat + 1] else []) (s.kvChk i f u land src op) (u.writes f))
    (z : s.kvLast i h (engBase b) f u op = none) :
    s.admitKv i h b f u land src op = if s.queueRoom i.core 1 then
      .done (s.accept i h b ⟨[], if land then (if u.tile then s.itile i f.tn.val else none) else none,
        if src then (if u.tile then s.itile i f.tn.val else none) else none, none, (s.kvChk i f u land src op).land,
        (s.kvChk i f u land src op).srcs, []⟩ none none).1 s.nextId else .full := by
  unfold State.admitKv
  simp only [engPre_ok q, engFirst_ok q, z]
  cases s.queueRoom i.core 1 <;> rfl

theorem mmaAdmit_ok {s : State} {i : Iss} {h : EHdr} {f : MmaF} {copied : List Nat} {a b : TDesc} {ct : Tile}
    (q : EngOk s i h (mmaReads f) (s.mmaChk i f)) (z : MmaOk s i f copied a b ct) :
    s.mmaAdmit i h f copied = .ok (mmaTake s i f a b ct) := by
  unfold State.mmaAdmit
  have h1 : (((mmaTiles f).drop 1).contains f.ct.val || (s.mmaChk i f).land.any copied.contains) = false := by
    rw [Bool.or_eq_false_iff]
    refine ⟨by simpa using z.apart.1, ?_⟩
    rw [List.any_eq_false]; intro g hg; simpa using z.apart.2 g hg
  have h2 : ((s.mmaChk i f).land.any fun g => s.granCmds i.core g != []) = false := by
    rw [List.any_eq_false]; intro g hg; simp [z.unused g hg]
  simp only [engPre_ok q, engFirst_ok q, h1, h2, z.first, z.second, z.acc, z.last, z.written, List.isEmpty_nil, Bool.not_true, Bool.false_eq_true, if_false]
  rfl

/-- A class 4 instruction other than `mma` and a copy with one, all of whose rows pass. -/
theorem admitBody_ok {s : State} {i : Iss} {h : EHdr} {next : Option (EHdr × MmaF)} {b : EngBody}
    (q : EngOk s i h (engReads s i b) (engChk s i b) (engWrites b)) (z : LastOk s i h b) (hn : ∀ f, b = .copy f → f.thn = false) :
    s.admitBody i h next b =
      if s.queueRoom i.core 1 then .done (s.accept i h b (engTake s i b) none none).1 s.nextId else .full := by
  cases b
  case copy f =>
    have e : s.admitBody i h next (.copy f) = s.admitOne i h (.copy f) (copyReads f) (s.copyChk i f) (s.copyTake i f (s.copyChk i f)) := by
      show s.admitCopy i h f next = _
      unfold State.admitCopy
      simp [hn f rfl]
    rw [e]; exact admitOne_ok q z
  case copymc f => exact admitOne_ok q z
  case gath f =>
    obtain ⟨z1, z2⟩ := z
    show s.admitGath i h f = _
    unfold State.admitGath
    simp only [z2]
    erw [admitOne_ok q z1]
    cases s.queueRoom i.core 1 <;> rfl
  case scata f =>
    obtain ⟨z1, z2⟩ := z
    show s.admitScata i h f = _
    unfold State.admitScata
    simp only [z2]
    erw [admitOne_ok q z1]
    cases s.queueRoom i.core 1 <;> rfl
  case mma f => exact z.elim
  case tfill f => exact admitOne_ok q z
  case eseq f => exact admitOne_ok q z
  case kvw f => exact admitKv_ok q z
  case kvld f => exact admitKv_ok q z
  case kvst f => exact admitKv_ok q z
  case kvfork f => exact admitKv_ok q z
  case kvfree f => exact admitKv_ok q z
  case splice f => exact admitKv_ok q z
  case rpopen f => exact admitKv_ok q z
  case rpstat f => exact admitKv_ok q z
  case rpcancel f => exact admitKv_ok q z

/-- A matrix command on its own. -/
theorem admitMma_ok {s : State} {i : Iss} {h : EHdr} {f : MmaF} {a b : TDesc} {ct : Tile}
    (q : EngOk s i h (mmaReads f) (s.mmaChk i f)) (z : MmaOk s i f [] a b ct) (hr : s.queueRoom i.core 1 = true) :
    s.admitMma i h f = .done ((s.accept i h (.mma f) (mmaTake s i f a b ct) none none).1.setProg i.wid i.dn f.ct.val 0) s.nextId := by
  unfold State.admitMma
  rw [mmaAdmit_ok q z]
  simp only [hr]
  rfl

/-- A copy and the matrix command that goes with it. -/
theorem admitPair_ok {s : State} {i : Iss} {h mh : EHdr} {f : CopyF} {m : MmaF} {a b : TDesc} {ct : Tile}
    (ht : f.thn = true) (q : EngOk s i h (copyReads f) (s.copyChk i f)) (z : SizesOk s i (s.copyChk i f))
    (q' : EngOk s i mh (mmaReads m) (s.mmaChk i m)) (z' : MmaOk s i m (s.copyChk i f).land a b ct) (hr : s.queueRoom i.core 2 = true) :
    s.admitCopy i h f (some (mh, m)) = .done
      (((s.accept i h (.copy f) (s.copyTake i f (s.copyChk i f)) (some (s.nextId + 1)) none).1.accept i mh (.mma m) (mmaTake s i m a b ct)
        none (some s.nextId)).1.setProg i.wid i.dn m.ct.val 0) s.nextId := by
  unfold State.admitCopy
  simp only [ht, Bool.not_true, Bool.false_eq_true, if_false, engPre_ok q, engFirst_ok q, engLast_ok z, mmaAdmit_ok q' z', hr]
  rfl

/-! ## The first row that fails -/

/-- A common row fails: the first of them is the trap. -/
def FirstRow (s : State) (i : Iss) (h : EHdr) (reads : List Nat) (e : Nat) (c : EngChk) (t : Trap) (writes : List Nat := []) : Prop :=
  s.engPre i h reads writes = some t ∨ (s.engPre i h reads writes = none ∧ s.engFirst i h e c = some t)

theorem admitOne_trap {s : State} {i : Iss} {h : EHdr} {b : EngBody} {reads : List Nat} {c : EngChk} {k : EngTake} {t : Trap}
    (q : FirstRow s i h reads (engBase b) c t) : s.admitOne i h b reads c k = .trap t := by
  unfold State.admitOne
  rcases q with q | ⟨q1, q2⟩
  · simp only [q]
  · simp only [q1, q2]

theorem admitKv_trap {s : State} {i : Iss} {h : EHdr} {b : EngBody} {f : KvF} {u : KvUse} {land src op : Bool} {t : Trap}
    (q : FirstRow s i h (u.reads.map BitVec.toNat ++ if op then [f.se.toNat + 1] else []) (engBase b) (s.kvChk i f u land src op) t (u.writes f)) :
    s.admitKv i h b f u land src op = .trap t := by
  unfold State.admitKv
  rcases q with q | ⟨q1, q2⟩
  · simp only [q]
  · simp only [q1, q2]

theorem admitBody_trap {s : State} {i : Iss} {h : EHdr} {next : Option (EHdr × MmaF)} {b : EngBody} {t : Trap}
    (q : FirstRow s i h (engReads s i b) (engBase b) (engChk s i b) t (engWrites b)) : s.admitBody i h next b = .trap t := by
  cases b
  case copy f =>
    show s.admitCopy i h f next = _
    unfold State.admitCopy
    cases f.thn
    · exact admitOne_trap q
    · simp only [Bool.not_true, Bool.false_eq_true, if_false]
      rcases q with q | ⟨q1, q2⟩
      · have q : s.engPre i h (copyReads f) = some t := q
        simp only [q]
      · have q1 : s.engPre i h (copyReads f) = none := q1
        have q2 : s.engFirst i h 0x60 (s.copyChk i f) = some t := q2
        simp only [q1, q2]
  case copymc f => exact admitOne_trap q
  case gath f =>
    show s.admitGath i h f = _
    unfold State.admitGath
    simp only
    erw [admitOne_trap q]
  case scata f =>
    show s.admitScata i h f = _
    unfold State.admitScata
    simp only
    erw [admitOne_trap q]
  case mma f =>
    show s.admitMma i h f = _
    have : s.mmaAdmit i h f [] = .error (.trap t) := by
      unfold State.mmaAdmit
      rcases q with q | ⟨q1, q2⟩
      · have q : s.engPre i h (mmaReads f) = some t := q
        simp only [q]
      · have q1 : s.engPre i h (mmaReads f) = none := q1
        have q2 : s.engFirst i h 0x6C (s.mmaChk i f) = some t := q2
        simp only [q1, q2]
    unfold State.admitMma
    rw [this]
  case tfill f => exact admitOne_trap q
  case eseq f => exact admitOne_trap q
  all_goals exact admitKv_trap q

/-- The issue of a class 4 instruction. -/
theorem exec_eng {i : Instr} {h : EHdr} {b : EngBody} {s : State} {x : Who} (e : engInstr i = some (h, b)) (hc : Clear s x) :
    exec i s = .next (s.engIssued x (engUnits b) (s.admitBody x.iss h x.nextMma b)) := by
  cases i <;> first | (cases e; exact issue_clear hc _) | (cases e)

end Sys2Proof.Machine
end

