-- ==== Sys2Proof/Laws/Frames.lean ====
section
/-! SUPPORT. The shared operations of class 3: operands read once, words written, and window accesses that go out. -/

namespace Sys2Proof.Machine

/-- Operands read once, in order: the instruction goes on. -/
theorem uOp_ok {s : State} {x : Who} {srcs : List (Opnd × Nat)} {dst : Option (Opnd × Nat)} (h : UOk s x srcs dst) (k : Ready → State) :
    uOp s x srcs dst k = k (readyOf s x (uD srcs dst)) := by
  unfold uOp
  rw [if_neg h.1]
  have hb := beginOp_ok h.2
  unfold uD uAcc at hb
  simp only [hb]
  have he : ¬ (readyOf s x { srcs := srcs, dst := dst, carry := List.range srcs.length }).em = 0 := by rw [em_all]; exact h.1
  rw [if_neg he]
  rfl

/-- A strand without lanes only moves on. -/
theorem uOp_skip {s : State} {x : Who} {srcs : List (Opnd × Nat)} {dst : Option (Opnd × Nat)} (h : x.st.em = 0) (k : Ready → State) :
    uOp s x srcs dst k = s.skip x := by
  unfold uOp; rw [if_pos h]

/-- The instruction's strand moves on in a state whose warp still holds it: it does not end. -/
theorem advance_alive {s t : State} {x : Who} (hc : Clear s x) {w' : Warp} (ht : Tbl.find t.warps x.wid = some w')
    (hw : Tbl.find w'.strands x.sid = some x.st) (f : Strand → Strand) (hf : (f x.st).mem = x.st.mem) :
    (t.updStrand x.wid x.sid f).endIfEmpty x.wid x.sid = t.updStrand x.wid x.sid f := by
  apply endIfEmpty_of
  intro y hy
  obtain ⟨-, -, -, yw, yst, -⟩ := strandAt_spec hy
  have hu : Tbl.find (t.updStrand x.wid x.sid f).warps x.wid = some (w'.updStrand x.sid f) := by
    show Tbl.find (Tbl.upd t.warps x.wid _) x.wid = _
    rw [Tbl.find_upd, if_pos rfl, ht]; rfl
  have yw := Option.some.inj (hu.symm.trans yw)
  have : Tbl.find (Tbl.upd w'.strands x.sid f) x.sid = some y.st := by rw [← yst, ← yw]; rfl
  rw [Tbl.find_upd, if_pos rfl, hw] at this
  simp only [Option.map_some, Option.some.injEq] at this
  rw [← this, hf]
  exact hc.alive

/-- After the operands are consumed, the strand is still what it was. -/
theorem commit_strand {s : State} {x : Who} (hc : Clear s x) (d : OpD) (o : Mask) :
    ∃ w', Tbl.find (readyOf s x d o).commit.warps x.wid = some w' ∧ Tbl.find w'.strands x.sid = some x.st := by
  obtain ⟨-, -, -, hw, hst, -⟩ := who_spec hc.who
  obtain ⟨W, e, -, h2⟩ := commit_popped hw d o
  rw [e]
  exact ⟨_, h2, hst⟩

/-- Words written one after another: the last write of a word stays. -/
theorem landAll_last (c : Core) (l : List RegWrite) (pre post : List RegWrite) (w : RegWrite) (e : l = pre ++ w :: post)
    (h : ∀ v ∈ post, v.addr ≠ w.addr) : (c.landAll l).word w.addr = w.val ∧ (c.landAll l).mark w.addr = w.mark := by
  have : c.landAll l = ((c.landAll pre).warpWrite w.addr w.val w.mark).landAll post := by
    rw [e]; unfold Core.landAll; rw [List.foldl_append, List.foldl_cons]
  rw [this]
  obtain ⟨e1, e2⟩ := Core.landAll_other ((c.landAll pre).warpWrite w.addr w.val w.mark) post w.addr h
  rw [e1, e2, Core.warpWrite_gran, Core.warpWrite_word, Core.warpWrite_mark]
  simp

/-- An instruction that writes words by index completes. -/
theorem finishWords_done {s : State} {x : Who} (hc : Clear s x) (d : OpD) (ws : List RegWrite) :
    WordsWritten s x d ws ((readyOf s x d).finishWords ws) := by
  obtain ⟨hcur, hat, hcore, hw, hst, hdom⟩ := who_spec hc.who
  obtain ⟨W, ec, w1, w2⟩ := commit_popped hw d 0xFFFFFFFFFFFFFFFF
  obtain ⟨cs, e, e1, e2⟩ := land_spec (readyOf s x d).commit x.core ws
  have hcm : ∀ c, (readyOf s x d).commit.core c = s.core c := by intro c; rw [ec]; rfl
  let T : State := { s with cores := cs, warps := Tbl.upd W x.wid fun w => w.updStrand x.sid fun st => st.advance 1 }
  have hfind : Tbl.find T.warps x.wid = some
      { x.w with queues := popped s x d, strands := Tbl.upd x.w.strands x.sid fun st => st.advance 1 } := by
    show Tbl.find (Tbl.upd W x.wid _) x.wid = _
    rw [Tbl.find_upd, if_pos rfl, w2]; rfl
  have hT : (readyOf s x d).finishWords ws = T := by
    have : (readyOf s x d).finishWords ws = T.endIfEmpty x.wid x.sid := by
      show (((readyOf s x d).commit.land x.core ws).advance x.wid x.sid 1).endIfEmpty x.wid x.sid = _
      rw [e, ec]; rfl
    rw [this]
    exact alive_after hc _ hfind rfl rfl
  have hcs : ∀ c, T.core c = ((readyOf s x d).commit.land x.core ws).core c := by intro c; rw [e]; rfl
  have hcore' : T.core x.core = (s.core x.core).landAll ws := by rw [hcs, e1, hcm]
  rw [hT]
  refine ⟨⟨rfl, fun w h => ?_, fun c h => ?_⟩, hfind, ?_, fun pre w post h1 h2 => ?_⟩
  · show Tbl.find (Tbl.upd W x.wid _) w = _
    rw [Tbl.find_upd, if_neg (fun e => h e.symm), w1 w h]
  · rw [hcs, e2 c h, hcm]
  · rw [hcore']
    exact landAll_written _ _ _ fun a => by simp [List.mem_map]
  · rw [hcore']
    exact landAll_last _ _ pre post w h1 h2

end Sys2Proof.Machine
end

