-- ==== Sys2Proof/Laws/Host.lean ====
section
/-! SUPPORT. Laws of the commands of hosts: a good header is accepted, any other answered with 0xE2, and the instruction that carries
a command runs it. -/

namespace Sys2Proof.Machine

/-- What acceptance leaves. -/
theorem takeSeq_eq (s : State) (h : HostHdr) : s.takeSeq h = { s with seqs := (s.takeSeq h).seqs } := by
  unfold State.takeSeq; split <;> rfl

/-- A command that a mailbox takes is performed. -/
theorem hostCmd_takes {s : State} {h : HostHdr} {op : Nat} (ht : Takes s h op) (k : State → State) :
    hostCmd h op s k = .next (k (s.takeSeq h)) := by
  obtain ⟨hu, ⟨h1, ⟨h2, h3, h4⟩, h5, h6, h7⟩⟩ := ht
  have hs : s.seqOk h = true := by
    unfold State.seqOk
    by_cases hb : h.box = .port
    · simp [hb]
    · rcases hl : s.lastSeq h.box with _ | n
      · simp
      · simp [h7 hb n hl]
  simp [hostCmd, hu, HostHdr.wellFormed, h1, h2, h3, h4, h5, h6, hs]

/-- One with a bad header is answered with 0xE2. -/
theorem hostCmd_bad {s : State} {h : HostHdr} {op : Nat} (hu : s.boot = .up) (hb : ¬ HostHdr.Good s h op) (k : State → State) :
    hostCmd h op s k = .next (s.reply h 0xE2 []) := by
  have : (HostHdr.wellFormed h op && s.boxOk h op && s.seqOk h) = false := by
    refine Bool.eq_false_iff.mpr fun hq => hb ?_
    simp only [HostHdr.wellFormed, Bool.and_eq_true, beq_iff_eq, decide_eq_true_eq] at hq
    obtain ⟨⟨⟨⟨⟨⟨h1, h2⟩, h3⟩, h4⟩, h5⟩, h6⟩, h7⟩ := hq
    refine ⟨h1, ⟨h2, h3, h4⟩, h5, h6, fun hp n hn => ?_⟩
    simpa only [State.seqOk, Bool.or_eq_true, beq_iff_eq, hp, false_or, hn, Option.all_some, decide_eq_true_eq] using h7
  simp [hostCmd, hu, this]

/-- An instruction that carries a command runs it. -/
theorem exec_host {i : Instr} {h : HostHdr} {op : Nat} (s : State) (hi : hostInstr i = some (h, op)) :
    ∃ k, exec i s = hostCmd h op s k := by
  cases i <;> simp only [hostInstr, reduceCtorEq, Option.some.injEq, Prod.mk.injEq] at hi <;> obtain ⟨rfl, rfl⟩ := hi
  case hello => exact ⟨_, show execHello _ _ s = _ by unfold execHello; rfl⟩
  case measure => exact ⟨_, show execMeasure _ s = _ by unfold execMeasure; rfl⟩
  case attest => exact ⟨_, show execAttest _ _ s = _ by unfold execAttest; rfl⟩
  case partCreate => exact ⟨_, show execPartCreate _ _ s = _ by unfold execPartCreate; rfl⟩
  case partDestroy => exact ⟨_, show execPartDestroy _ _ s = _ by unfold execPartDestroy; rfl⟩
  case partStitch => exact ⟨_, show execPartStitch _ _ s = _ by unfold execPartStitch; rfl⟩
  case ctxCreate => exact ⟨_, show execCtxCreate _ _ s = _ by unfold execCtxCreate; rfl⟩
  case ctxDestroy => exact ⟨_, show execCtxDestroy _ s = _ by unfold execCtxDestroy; rfl⟩
  case map => exact ⟨_, show execMap _ _ s = _ by unfold execMap; rfl⟩
  case unmap => exact ⟨_, show execUnmap _ _ s = _ by unfold execUnmap; rfl⟩
  case write => exact ⟨_, show execWrite _ _ _ s = _ by unfold execWrite; rfl⟩
  case read => exact ⟨_, show execRead _ _ _ s = _ by unfold execRead; rfl⟩
  case gateInstall => exact ⟨_, show execGateInstall _ _ _ s = _ by unfold execGateInstall; rfl⟩
  case graphSubmit => exact ⟨_, show execGraphSubmit _ _ s = _ by unfold execGraphSubmit; rfl⟩
  case graphStatus => exact ⟨_, show execGraphStatus _ _ s = _ by unfold execGraphStatus; rfl⟩
  case signal => exact ⟨_, show execSignal _ _ s = _ by unfold execSignal; rfl⟩
  case wait => exact ⟨_, show execWait _ _ s = _ by unfold execWait; rfl⟩
  case qosSet => exact ⟨_, show execQosSet _ _ s = _ by unfold execQosSet; rfl⟩
  case preempt => exact ⟨_, show execPreempt _ _ s = _ by unfold execPreempt; rfl⟩
  case resume => exact ⟨_, show execResume _ s = _ by unfold execResume; rfl⟩
  case kill => exact ⟨_, show execKill _ s = _ by unfold execKill; rfl⟩
  case tierPolicy => exact ⟨_, show execTierPolicy _ _ s = _ by unfold execTierPolicy; rfl⟩
  case repairModel => exact ⟨_, show execRepairModel _ _ s = _ by unfold execRepairModel; rfl⟩
  case stats => exact ⟨_, show execStats _ s = _ by unfold execStats; rfl⟩

/-- One that acts on a context looks it up first. -/
theorem exec_ctx {i : Instr} {h : HostHdr} {op : Nat} (s : State) (hc : ctxInstr i = some h) (hi : hostInstr i = some (h, op)) :
    ∃ k : Context → State → State, exec i s = hostCmd h op s fun s => s.withCtx h fun c => k c s := by
  cases i <;> simp only [ctxInstr, hostInstr, reduceCtorEq, Option.some.injEq, Prod.mk.injEq] at hi hc <;> obtain ⟨rfl, rfl⟩ := hi
  case ctxDestroy => exact ⟨fun c s => _, show execCtxDestroy _ s = _ by unfold execCtxDestroy; rfl⟩
  case map => exact ⟨fun c s => _, show execMap _ _ s = _ by unfold execMap; rfl⟩
  case unmap => exact ⟨fun c s => _, show execUnmap _ _ s = _ by unfold execUnmap; rfl⟩
  case write => exact ⟨fun c s => _, show execWrite _ _ _ s = _ by unfold execWrite; rfl⟩
  case read => exact ⟨fun c s => _, show execRead _ _ _ s = _ by unfold execRead; rfl⟩
  case graphSubmit => exact ⟨fun c s => _, show execGraphSubmit _ _ s = _ by unfold execGraphSubmit; rfl⟩
  case graphStatus => exact ⟨fun c s => _, show execGraphStatus _ _ s = _ by unfold execGraphStatus; rfl⟩
  case signal => exact ⟨fun c s => _, show execSignal _ _ s = _ by unfold execSignal; rfl⟩
  case wait => exact ⟨fun c s => _, show execWait _ _ s = _ by unfold execWait; rfl⟩
  case preempt => exact ⟨fun c s => _, show execPreempt _ _ s = _ by unfold execPreempt; rfl⟩
  case resume => exact ⟨fun c s => _, show execResume _ s = _ by unfold execResume; rfl⟩
  case kill => exact ⟨fun c s => _, show execKill _ s = _ by unfold execKill; rfl⟩
  case tierPolicy => exact ⟨fun c s => _, show execTierPolicy _ _ s = _ by unfold execTierPolicy; rfl⟩
  case repairModel => exact ⟨fun c s => _, show execRepairModel _ _ s = _ by unfold execRepairModel; rfl⟩

end Sys2Proof.Machine
end

