-- ==== Sys2Proof/Laws/Memory.lean ====
section
/-! SUPPORT. Memory keeps its canonical form: every operation that changes bytes or poison marks keeps it, and reset has it. -/

namespace Sys2Proof.Machine

namespace Memory

/-- The empty memory is canonical. -/
theorem wf_nil : wf [] = true := rfl

theorem wf_write {m : List Host.Cell} (h : wf m = true) (a : Nat) (b : Byte) : wf (write m a b) = true := Sparse.wf_write h a b

theorem wf_writeList {m : List Host.Cell} (h : wf m = true) (a : Nat) (l : List Byte) : wf (Sparse.writeList memDefault m a l) = true :=
  Sparse.wf_writeList h a l

theorem wf_clear {m : List Host.Cell} (h : wf m = true) (a n : Nat) : wf (Sparse.clear m a n) = true := Sparse.wf_clear h a n

/-- A read after a write. -/
theorem read_write (m : List Host.Cell) (a b : Nat) (v : Byte) : read (write m a v) b = if a = b then v else read m b :=
  Sparse.read_write memDefault m a b v

/-- A read after a list of bytes has been written. -/
theorem read_writeList (m : List Host.Cell) (l : List Byte) (a b : Nat) :
    read (Sparse.writeList memDefault m a l) b = if a ≤ b ∧ b < a + l.length then l.getD (b - a) 0 else read m b :=
  Sparse.read_writeList memDefault l m a b

end Memory

namespace State

theorem canonical_iff (s : State) : s.canonical = true ↔ Memory.wf s.mem = true ∧ Sparse.wf 0 s.mmarks = true := by
  simp [State.canonical]

theorem reset_canonical : State.reset.canonical = true := rfl

theorem writeBytes_canonical {s : State} (h : s.canonical = true) (a : Nat) (l : List Byte) : (s.writeBytes a l).canonical = true := by
  rw [canonical_iff] at h ⊢
  exact ⟨Memory.wf_writeList h.1 a l, h.2⟩

theorem writeNat_canonical {s : State} (h : s.canonical = true) (a n v : Nat) : (s.writeNat a n v).canonical = true :=
  writeBytes_canonical h _ _

theorem setLineMark_canonical {s : State} (h : s.canonical = true) (a m : Nat) : (s.setLineMark a m).canonical = true := by
  rw [canonical_iff] at h ⊢
  exact ⟨h.1, Sparse.wf_write h.2 _ _⟩

/-- What changes neither bytes nor marks keeps the form. -/
theorem same_canonical {s t : State} (h : s.canonical = true) (hm : t.mem = s.mem) (hk : t.mmarks = s.mmarks) : t.canonical = true := by
  rw [canonical_iff] at h ⊢
  rw [hm, hk]; exact h

theorem foldl_wf {α : Type} (l : List α) (g : α → Nat × Byte) {m : List Host.Cell} (h : Memory.wf m = true) :
    Memory.wf (l.foldl (fun m c => Memory.write m (g c).1 (g c).2) m) = true := by
  induction l generalizing m with
  | nil => exact h
  | cons a l ih => exact ih (Memory.wf_write h _ _)

theorem foldl_marks {α : Type} (l : List α) (g : α → Nat × Nat) {m : Tbl Nat} (h : Sparse.wf 0 m = true) :
    Sparse.wf 0 (l.foldl (fun m c => Sparse.write 0 m (g c).1 (g c).2) m) = true := by
  induction l generalizing m with
  | nil => exact h
  | cons a l ih => exact ih (Sparse.wf_write h _ _)

theorem moveFrame_canonical {s : State} (h : s.canonical = true) (old new size : Nat) : (s.moveFrame old new size).canonical = true := by
  unfold State.moveFrame
  split
  · exact h
  · rw [canonical_iff] at h ⊢
    exact ⟨foldl_wf _ (fun c : Host.Cell => (c.1 - old + new, c.2)) (Memory.wf_clear (Memory.wf_clear h.1 _ _) _ _),
      foldl_marks _ (fun c : Nat × Nat => (c.1 - old / 256 + new / 256, c.2)) (Sparse.wf_clear (Sparse.wf_clear h.2 _ _) _ _)⟩

/-- A fold of steps that keep the form keeps it. -/
theorem foldl_canonical {α : Type} (l : List α) (f : State → α → State) (hf : ∀ s a, s.canonical = true → (f s a).canonical = true)
    {s : State} (h : s.canonical = true) : (l.foldl f s).canonical = true := by
  induction l generalizing s with
  | nil => exact h
  | cons a l ih => exact ih (hf s a h)

theorem vzero_canonical {s : State} (h : s.canonical = true) (ctx va n : Nat) : (s.vzero ctx va n).canonical = true := by
  refine foldl_canonical _ _ (fun s p h => ?_) h
  split
  · refine setLineMark_canonical ?_ _ _
    rw [canonical_iff] at h ⊢
    exact ⟨Memory.wf_clear h.1 _ _, h.2⟩
  · exact h

theorem vcopy_canonical {s : State} (h : s.canonical = true) (ctx src dst n : Nat) : (s.vcopy ctx src dst n).canonical = true := by
  refine foldl_canonical _ _ (fun s p h => ?_) h
  split
  · exact setLineMark_canonical (writeBytes_canonical h _ _) _ _
  · exact h

end State
end Sys2Proof.Machine
end

