-- ==== Sys2Proof/Laws/State.lean ====
section
/-! SUPPORT. What each update of the state does to each field: the field it names is updated, and every other one is as before. -/

namespace Sys2Proof.Machine
namespace State

variable (s : State)

/-! ## setCore -/

@[simp] theorem setCore_time (c : Nat) (k : Core) : (s.setCore c k).time = s.time := rfl
@[simp] theorem setCore_rtc (c : Nat) (k : Core) : (s.setCore c k).rtc = s.rtc := rfl
@[simp] theorem setCore_upSince (c : Nat) (k : Core) : (s.setCore c k).upSince = s.upSince := rfl
@[simp] theorem setCore_tick (c : Nat) (k : Core) : (s.setCore c k).tick = s.tick := rfl
@[simp] theorem setCore_agenda (c : Nat) (k : Core) : (s.setCore c k).agenda = s.agenda := rfl
@[simp] theorem setCore_cur (c : Nat) (k : Core) : (s.setCore c k).cur = s.cur := rfl
@[simp] theorem setCore_nextId (c : Nat) (k : Core) : (s.setCore c k).nextId = s.nextId := rfl
@[simp] theorem setCore_boot (c : Nat) (k : Core) : (s.setCore c k).boot = s.boot := rfl
@[simp] theorem setCore_arith (c : Nat) (k : Core) : (s.setCore c k).arith = s.arith := rfl
@[simp] theorem setCore_measured (c : Nat) (k : Core) : (s.setCore c k).measured = s.measured := rfl
@[simp] theorem setCore_mem (c : Nat) (k : Core) : (s.setCore c k).mem = s.mem := rfl
@[simp] theorem setCore_mmarks (c : Nat) (k : Core) : (s.setCore c k).mmarks = s.mmarks := rfl
@[simp] theorem setCore_accs (c : Nat) (k : Core) : (s.setCore c k).accs = s.accs := rfl
@[simp] theorem setCore_waiters (c : Nat) (k : Core) : (s.setCore c k).waiters = s.waiters := rfl
@[simp] theorem setCore_wreqs (c : Nat) (k : Core) : (s.setCore c k).wreqs = s.wreqs := rfl
@[simp] theorem setCore_cores (c : Nat) (k : Core) : (s.setCore c k).cores = Tbl.put s.cores c k := rfl
@[simp] theorem setCore_warps (c : Nat) (k : Core) : (s.setCore c k).warps = s.warps := rfl
@[simp] theorem setCore_crews (c : Nat) (k : Core) : (s.setCore c k).crews = s.crews := rfl
@[simp] theorem setCore_cmds (c : Nat) (k : Core) : (s.setCore c k).cmds = s.cmds := rfl
@[simp] theorem setCore_flips (c : Nat) (k : Core) : (s.setCore c k).flips = s.flips := rfl
@[simp] theorem setCore_launches (c : Nat) (k : Core) : (s.setCore c k).launches = s.launches := rfl
@[simp] theorem setCore_works (c : Nat) (k : Core) : (s.setCore c k).works = s.works := rfl
@[simp] theorem setCore_cwalks (c : Nat) (k : Core) : (s.setCore c k).cwalks = s.cwalks := rfl
@[simp] theorem setCore_jobs (c : Nat) (k : Core) : (s.setCore c k).jobs = s.jobs := rfl
@[simp] theorem setCore_ringWaits (c : Nat) (k : Core) : (s.setCore c k).ringWaits = s.ringWaits := rfl
@[simp] theorem setCore_wdReqs (c : Nat) (k : Core) : (s.setCore c k).wdReqs = s.wdReqs := rfl
@[simp] theorem setCore_walks (c : Nat) (k : Core) : (s.setCore c k).walks = s.walks := rfl
@[simp] theorem setCore_faults (c : Nat) (k : Core) : (s.setCore c k).faults = s.faults := rfl
@[simp] theorem setCore_migs (c : Nat) (k : Core) : (s.setCore c k).migs = s.migs := rfl
@[simp] theorem setCore_movedIn (c : Nat) (k : Core) : (s.setCore c k).movedIn = s.movedIn := rfl
@[simp] theorem setCore_parts (c : Nat) (k : Core) : (s.setCore c k).parts = s.parts := rfl
@[simp] theorem setCore_ctxs (c : Nat) (k : Core) : (s.setCore c k).ctxs = s.ctxs := rfl
@[simp] theorem setCore_models (c : Nat) (k : Core) : (s.setCore c k).models = s.models := rfl
@[simp] theorem setCore_deficits (c : Nat) (k : Core) : (s.setCore c k).deficits = s.deficits := rfl
@[simp] theorem setCore_visiting (c : Nat) (k : Core) : (s.setCore c k).visiting = s.visiting := rfl
@[simp] theorem setCore_gates (c : Nat) (k : Core) : (s.setCore c k).gates = s.gates := rfl
@[simp] theorem setCore_weirs (c : Nat) (k : Core) : (s.setCore c k).weirs = s.weirs := rfl
@[simp] theorem setCore_portsDown (c : Nat) (k : Core) : (s.setCore c k).portsDown = s.portsDown := rfl
@[simp] theorem setCore_portsUp (c : Nat) (k : Core) : (s.setCore c k).portsUp = s.portsUp := rfl
@[simp] theorem setCore_session (c : Nat) (k : Core) : (s.setCore c k).session = s.session := rfl
@[simp] theorem setCore_seqs (c : Nat) (k : Core) : (s.setCore c k).seqs = s.seqs := rfl
@[simp] theorem setCore_outbox (c : Nat) (k : Core) : (s.setCore c k).outbox = s.outbox := rfl
@[simp] theorem setCore_served (c : Nat) (k : Core) : (s.setCore c k).served = s.served := rfl
@[simp] theorem setCore_waits (c : Nat) (k : Core) : (s.setCore c k).waits = s.waits := rfl
@[simp] theorem setCore_held (c : Nat) (k : Core) : (s.setCore c k).held = s.held := rfl
@[simp] theorem setCore_nets (c : Nat) (k : Core) : (s.setCore c k).nets = s.nets := rfl
@[simp] theorem setCore_saved (c : Nat) (k : Core) : (s.setCore c k).saved = s.saved := rfl
@[simp] theorem setCore_stats (c : Nat) (k : Core) : (s.setCore c k).stats = s.stats := rfl

/-! ## updCore -/

@[simp] theorem updCore_time (c : Nat) (f : Core → Core) : (s.updCore c f).time = s.time := rfl
@[simp] theorem updCore_rtc (c : Nat) (f : Core → Core) : (s.updCore c f).rtc = s.rtc := rfl
@[simp] theorem updCore_upSince (c : Nat) (f : Core → Core) : (s.updCore c f).upSince = s.upSince := rfl
@[simp] theorem updCore_tick (c : Nat) (f : Core → Core) : (s.updCore c f).tick = s.tick := rfl
@[simp] theorem updCore_agenda (c : Nat) (f : Core → Core) : (s.updCore c f).agenda = s.agenda := rfl
@[simp] theorem updCore_cur (c : Nat) (f : Core → Core) : (s.updCore c f).cur = s.cur := rfl
@[simp] theorem updCore_nextId (c : Nat) (f : Core → Core) : (s.updCore c f).nextId = s.nextId := rfl
@[simp] theorem updCore_boot (c : Nat) (f : Core → Core) : (s.updCore c f).boot = s.boot := rfl
@[simp] theorem updCore_arith (c : Nat) (f : Core → Core) : (s.updCore c f).arith = s.arith := rfl
@[simp] theorem updCore_measured (c : Nat) (f : Core → Core) : (s.updCore c f).measured = s.measured := rfl
@[simp] theorem updCore_mem (c : Nat) (f : Core → Core) : (s.updCore c f).mem = s.mem := rfl
@[simp] theorem updCore_mmarks (c : Nat) (f : Core → Core) : (s.updCore c f).mmarks = s.mmarks := rfl
@[simp] theorem updCore_accs (c : Nat) (f : Core → Core) : (s.updCore c f).accs = s.accs := rfl
@[simp] theorem updCore_waiters (c : Nat) (f : Core → Core) : (s.updCore c f).waiters = s.waiters := rfl
@[simp] theorem updCore_wreqs (c : Nat) (f : Core → Core) : (s.updCore c f).wreqs = s.wreqs := rfl
@[simp] theorem updCore_cores (c : Nat) (f : Core → Core) : (s.updCore c f).cores = Tbl.put s.cores c (f (s.core c)) := rfl
@[simp] theorem updCore_warps (c : Nat) (f : Core → Core) : (s.updCore c f).warps = s.warps := rfl
@[simp] theorem updCore_crews (c : Nat) (f : Core → Core) : (s.updCore c f).crews = s.crews := rfl
@[simp] theorem updCore_cmds (c : Nat) (f : Core → Core) : (s.updCore c f).cmds = s.cmds := rfl
@[simp] theorem updCore_flips (c : Nat) (f : Core → Core) : (s.updCore c f).flips = s.flips := rfl
@[simp] theorem updCore_launches (c : Nat) (f : Core → Core) : (s.updCore c f).launches = s.launches := rfl
@[simp] theorem updCore_works (c : Nat) (f : Core → Core) : (s.updCore c f).works = s.works := rfl
@[simp] theorem updCore_cwalks (c : Nat) (f : Core → Core) : (s.updCore c f).cwalks = s.cwalks := rfl
@[simp] theorem updCore_jobs (c : Nat) (f : Core → Core) : (s.updCore c f).jobs = s.jobs := rfl
@[simp] theorem updCore_ringWaits (c : Nat) (f : Core → Core) : (s.updCore c f).ringWaits = s.ringWaits := rfl
@[simp] theorem updCore_wdReqs (c : Nat) (f : Core → Core) : (s.updCore c f).wdReqs = s.wdReqs := rfl
@[simp] theorem updCore_walks (c : Nat) (f : Core → Core) : (s.updCore c f).walks = s.walks := rfl
@[simp] theorem updCore_faults (c : Nat) (f : Core → Core) : (s.updCore c f).faults = s.faults := rfl
@[simp] theorem updCore_migs (c : Nat) (f : Core → Core) : (s.updCore c f).migs = s.migs := rfl
@[simp] theorem updCore_movedIn (c : Nat) (f : Core → Core) : (s.updCore c f).movedIn = s.movedIn := rfl
@[simp] theorem updCore_parts (c : Nat) (f : Core → Core) : (s.updCore c f).parts = s.parts := rfl
@[simp] theorem updCore_ctxs (c : Nat) (f : Core → Core) : (s.updCore c f).ctxs = s.ctxs := rfl
@[simp] theorem updCore_models (c : Nat) (f : Core → Core) : (s.updCore c f).models = s.models := rfl
@[simp] theorem updCore_deficits (c : Nat) (f : Core → Core) : (s.updCore c f).deficits = s.deficits := rfl
@[simp] theorem updCore_visiting (c : Nat) (f : Core → Core) : (s.updCore c f).visiting = s.visiting := rfl
@[simp] theorem updCore_gates (c : Nat) (f : Core → Core) : (s.updCore c f).gates = s.gates := rfl
@[simp] theorem updCore_weirs (c : Nat) (f : Core → Core) : (s.updCore c f).weirs = s.weirs := rfl
@[simp] theorem updCore_portsDown (c : Nat) (f : Core → Core) : (s.updCore c f).portsDown = s.portsDown := rfl
@[simp] theorem updCore_portsUp (c : Nat) (f : Core → Core) : (s.updCore c f).portsUp = s.portsUp := rfl
@[simp] theorem updCore_session (c : Nat) (f : Core → Core) : (s.updCore c f).session = s.session := rfl
@[simp] theorem updCore_seqs (c : Nat) (f : Core → Core) : (s.updCore c f).seqs = s.seqs := rfl
@[simp] theorem updCore_outbox (c : Nat) (f : Core → Core) : (s.updCore c f).outbox = s.outbox := rfl
@[simp] theorem updCore_served (c : Nat) (f : Core → Core) : (s.updCore c f).served = s.served := rfl
@[simp] theorem updCore_waits (c : Nat) (f : Core → Core) : (s.updCore c f).waits = s.waits := rfl
@[simp] theorem updCore_held (c : Nat) (f : Core → Core) : (s.updCore c f).held = s.held := rfl
@[simp] theorem updCore_nets (c : Nat) (f : Core → Core) : (s.updCore c f).nets = s.nets := rfl
@[simp] theorem updCore_saved (c : Nat) (f : Core → Core) : (s.updCore c f).saved = s.saved := rfl
@[simp] theorem updCore_stats (c : Nat) (f : Core → Core) : (s.updCore c f).stats = s.stats := rfl

/-! ## updWarp -/

@[simp] theorem updWarp_time (w : Nat) (f : Warp → Warp) : (s.updWarp w f).time = s.time := rfl
@[simp] theorem updWarp_rtc (w : Nat) (f : Warp → Warp) : (s.updWarp w f).rtc = s.rtc := rfl
@[simp] theorem updWarp_upSince (w : Nat) (f : Warp → Warp) : (s.updWarp w f).upSince = s.upSince := rfl
@[simp] theorem updWarp_tick (w : Nat) (f : Warp → Warp) : (s.updWarp w f).tick = s.tick := rfl
@[simp] theorem updWarp_agenda (w : Nat) (f : Warp → Warp) : (s.updWarp w f).agenda = s.agenda := rfl
@[simp] theorem updWarp_cur (w : Nat) (f : Warp → Warp) : (s.updWarp w f).cur = s.cur := rfl
@[simp] theorem updWarp_nextId (w : Nat) (f : Warp → Warp) : (s.updWarp w f).nextId = s.nextId := rfl
@[simp] theorem updWarp_boot (w : Nat) (f : Warp → Warp) : (s.updWarp w f).boot = s.boot := rfl
@[simp] theorem updWarp_arith (w : Nat) (f : Warp → Warp) : (s.updWarp w f).arith = s.arith := rfl
@[simp] theorem updWarp_measured (w : Nat) (f : Warp → Warp) : (s.updWarp w f).measured = s.measured := rfl
@[simp] theorem updWarp_mem (w : Nat) (f : Warp → Warp) : (s.updWarp w f).mem = s.mem := rfl
@[simp] theorem updWarp_mmarks (w : Nat) (f : Warp → Warp) : (s.updWarp w f).mmarks = s.mmarks := rfl
@[simp] theorem updWarp_accs (w : Nat) (f : Warp → Warp) : (s.updWarp w f).accs = s.accs := rfl
@[simp] theorem updWarp_waiters (w : Nat) (f : Warp → Warp) : (s.updWarp w f).waiters = s.waiters := rfl
@[simp] theorem updWarp_wreqs (w : Nat) (f : Warp → Warp) : (s.updWarp w f).wreqs = s.wreqs := rfl
@[simp] theorem updWarp_cores (w : Nat) (f : Warp → Warp) : (s.updWarp w f).cores = s.cores := rfl
@[simp] theorem updWarp_warps (w : Nat) (f : Warp → Warp) : (s.updWarp w f).warps = Tbl.upd s.warps w f := rfl
@[simp] theorem updWarp_crews (w : Nat) (f : Warp → Warp) : (s.updWarp w f).crews = s.crews := rfl
@[simp] theorem updWarp_cmds (w : Nat) (f : Warp → Warp) : (s.updWarp w f).cmds = s.cmds := rfl
@[simp] theorem updWarp_flips (w : Nat) (f : Warp → Warp) : (s.updWarp w f).flips = s.flips := rfl
@[simp] theorem updWarp_launches (w : Nat) (f : Warp → Warp) : (s.updWarp w f).launches = s.launches := rfl
@[simp] theorem updWarp_works (w : Nat) (f : Warp → Warp) : (s.updWarp w f).works = s.works := rfl
@[simp] theorem updWarp_cwalks (w : Nat) (f : Warp → Warp) : (s.updWarp w f).cwalks = s.cwalks := rfl
@[simp] theorem updWarp_jobs (w : Nat) (f : Warp → Warp) : (s.updWarp w f).jobs = s.jobs := rfl
@[simp] theorem updWarp_ringWaits (w : Nat) (f : Warp → Warp) : (s.updWarp w f).ringWaits = s.ringWaits := rfl
@[simp] theorem updWarp_wdReqs (w : Nat) (f : Warp → Warp) : (s.updWarp w f).wdReqs = s.wdReqs := rfl
@[simp] theorem updWarp_walks (w : Nat) (f : Warp → Warp) : (s.updWarp w f).walks = s.walks := rfl
@[simp] theorem updWarp_faults (w : Nat) (f : Warp → Warp) : (s.updWarp w f).faults = s.faults := rfl
@[simp] theorem updWarp_migs (w : Nat) (f : Warp → Warp) : (s.updWarp w f).migs = s.migs := rfl
@[simp] theorem updWarp_movedIn (w : Nat) (f : Warp → Warp) : (s.updWarp w f).movedIn = s.movedIn := rfl
@[simp] theorem updWarp_parts (w : Nat) (f : Warp → Warp) : (s.updWarp w f).parts = s.parts := rfl
@[simp] theorem updWarp_ctxs (w : Nat) (f : Warp → Warp) : (s.updWarp w f).ctxs = s.ctxs := rfl
@[simp] theorem updWarp_models (w : Nat) (f : Warp → Warp) : (s.updWarp w f).models = s.models := rfl
@[simp] theorem updWarp_deficits (w : Nat) (f : Warp → Warp) : (s.updWarp w f).deficits = s.deficits := rfl
@[simp] theorem updWarp_visiting (w : Nat) (f : Warp → Warp) : (s.updWarp w f).visiting = s.visiting := rfl
@[simp] theorem updWarp_gates (w : Nat) (f : Warp → Warp) : (s.updWarp w f).gates = s.gates := rfl
@[simp] theorem updWarp_weirs (w : Nat) (f : Warp → Warp) : (s.updWarp w f).weirs = s.weirs := rfl
@[simp] theorem updWarp_portsDown (w : Nat) (f : Warp → Warp) : (s.updWarp w f).portsDown = s.portsDown := rfl
@[simp] theorem updWarp_portsUp (w : Nat) (f : Warp → Warp) : (s.updWarp w f).portsUp = s.portsUp := rfl
@[simp] theorem updWarp_session (w : Nat) (f : Warp → Warp) : (s.updWarp w f).session = s.session := rfl
@[simp] theorem updWarp_seqs (w : Nat) (f : Warp → Warp) : (s.updWarp w f).seqs = s.seqs := rfl
@[simp] theorem updWarp_outbox (w : Nat) (f : Warp → Warp) : (s.updWarp w f).outbox = s.outbox := rfl
@[simp] theorem updWarp_served (w : Nat) (f : Warp → Warp) : (s.updWarp w f).served = s.served := rfl
@[simp] theorem updWarp_waits (w : Nat) (f : Warp → Warp) : (s.updWarp w f).waits = s.waits := rfl
@[simp] theorem updWarp_held (w : Nat) (f : Warp → Warp) : (s.updWarp w f).held = s.held := rfl
@[simp] theorem updWarp_nets (w : Nat) (f : Warp → Warp) : (s.updWarp w f).nets = s.nets := rfl
@[simp] theorem updWarp_saved (w : Nat) (f : Warp → Warp) : (s.updWarp w f).saved = s.saved := rfl
@[simp] theorem updWarp_stats (w : Nat) (f : Warp → Warp) : (s.updWarp w f).stats = s.stats := rfl

/-! ## updStrand -/

@[simp] theorem updStrand_time (w i : Nat) (f : Strand → Strand) : (s.updStrand w i f).time = s.time := rfl
@[simp] theorem updStrand_rtc (w i : Nat) (f : Strand → Strand) : (s.updStrand w i f).rtc = s.rtc := rfl
@[simp] theorem updStrand_upSince (w i : Nat) (f : Strand → Strand) : (s.updStrand w i f).upSince = s.upSince := rfl
@[simp] theorem updStrand_tick (w i : Nat) (f : Strand → Strand) : (s.updStrand w i f).tick = s.tick := rfl
@[simp] theorem updStrand_agenda (w i : Nat) (f : Strand → Strand) : (s.updStrand w i f).agenda = s.agenda := rfl
@[simp] theorem updStrand_cur (w i : Nat) (f : Strand → Strand) : (s.updStrand w i f).cur = s.cur := rfl
@[simp] theorem updStrand_nextId (w i : Nat) (f : Strand → Strand) : (s.updStrand w i f).nextId = s.nextId := rfl
@[simp] theorem updStrand_boot (w i : Nat) (f : Strand → Strand) : (s.updStrand w i f).boot = s.boot := rfl
@[simp] theorem updStrand_arith (w i : Nat) (f : Strand → Strand) : (s.updStrand w i f).arith = s.arith := rfl
@[simp] theorem updStrand_measured (w i : Nat) (f : Strand → Strand) : (s.updStrand w i f).measured = s.measured := rfl
@[simp] theorem updStrand_mem (w i : Nat) (f : Strand → Strand) : (s.updStrand w i f).mem = s.mem := rfl
@[simp] theorem updStrand_mmarks (w i : Nat) (f : Strand → Strand) : (s.updStrand w i f).mmarks = s.mmarks := rfl
@[simp] theorem updStrand_accs (w i : Nat) (f : Strand → Strand) : (s.updStrand w i f).accs = s.accs := rfl
@[simp] theorem updStrand_waiters (w i : Nat) (f : Strand → Strand) : (s.updStrand w i f).waiters = s.waiters := rfl
@[simp] theorem updStrand_wreqs (w i : Nat) (f : Strand → Strand) : (s.updStrand w i f).wreqs = s.wreqs := rfl
@[simp] theorem updStrand_cores (w i : Nat) (f : Strand → Strand) : (s.updStrand w i f).cores = s.cores := rfl
@[simp] theorem updStrand_warps (w i : Nat) (f : Strand → Strand) : (s.updStrand w i f).warps = Tbl.upd s.warps w fun x => x.updStrand i f := rfl
@[simp] theorem updStrand_crews (w i : Nat) (f : Strand → Strand) : (s.updStrand w i f).crews = s.crews := rfl
@[simp] theorem updStrand_cmds (w i : Nat) (f : Strand → Strand) : (s.updStrand w i f).cmds = s.cmds := rfl
@[simp] theorem updStrand_flips (w i : Nat) (f : Strand → Strand) : (s.updStrand w i f).flips = s.flips := rfl
@[simp] theorem updStrand_launches (w i : Nat) (f : Strand → Strand) : (s.updStrand w i f).launches = s.launches := rfl
@[simp] theorem updStrand_works (w i : Nat) (f : Strand → Strand) : (s.updStrand w i f).works = s.works := rfl
@[simp] theorem updStrand_cwalks (w i : Nat) (f : Strand → Strand) : (s.updStrand w i f).cwalks = s.cwalks := rfl
@[simp] theorem updStrand_jobs (w i : Nat) (f : Strand → Strand) : (s.updStrand w i f).jobs = s.jobs := rfl
@[simp] theorem updStrand_ringWaits (w i : Nat) (f : Strand → Strand) : (s.updStrand w i f).ringWaits = s.ringWaits := rfl
@[simp] theorem updStrand_wdReqs (w i : Nat) (f : Strand → Strand) : (s.updStrand w i f).wdReqs = s.wdReqs := rfl
@[simp] theorem updStrand_walks (w i : Nat) (f : Strand → Strand) : (s.updStrand w i f).walks = s.walks := rfl
@[simp] theorem updStrand_faults (w i : Nat) (f : Strand → Strand) : (s.updStrand w i f).faults = s.faults := rfl
@[simp] theorem updStrand_migs (w i : Nat) (f : Strand → Strand) : (s.updStrand w i f).migs = s.migs := rfl
@[simp] theorem updStrand_movedIn (w i : Nat) (f : Strand → Strand) : (s.updStrand w i f).movedIn = s.movedIn := rfl
@[simp] theorem updStrand_parts (w i : Nat) (f : Strand → Strand) : (s.updStrand w i f).parts = s.parts := rfl
@[simp] theorem updStrand_ctxs (w i : Nat) (f : Strand → Strand) : (s.updStrand w i f).ctxs = s.ctxs := rfl
@[simp] theorem updStrand_models (w i : Nat) (f : Strand → Strand) : (s.updStrand w i f).models = s.models := rfl
@[simp] theorem updStrand_deficits (w i : Nat) (f : Strand → Strand) : (s.updStrand w i f).deficits = s.deficits := rfl
@[simp] theorem updStrand_visiting (w i : Nat) (f : Strand → Strand) : (s.updStrand w i f).visiting = s.visiting := rfl
@[simp] theorem updStrand_gates (w i : Nat) (f : Strand → Strand) : (s.updStrand w i f).gates = s.gates := rfl
@[simp] theorem updStrand_weirs (w i : Nat) (f : Strand → Strand) : (s.updStrand w i f).weirs = s.weirs := rfl
@[simp] theorem updStrand_portsDown (w i : Nat) (f : Strand → Strand) : (s.updStrand w i f).portsDown = s.portsDown := rfl
@[simp] theorem updStrand_portsUp (w i : Nat) (f : Strand → Strand) : (s.updStrand w i f).portsUp = s.portsUp := rfl
@[simp] theorem updStrand_session (w i : Nat) (f : Strand → Strand) : (s.updStrand w i f).session = s.session := rfl
@[simp] theorem updStrand_seqs (w i : Nat) (f : Strand → Strand) : (s.updStrand w i f).seqs = s.seqs := rfl
@[simp] theorem updStrand_outbox (w i : Nat) (f : Strand → Strand) : (s.updStrand w i f).outbox = s.outbox := rfl
@[simp] theorem updStrand_served (w i : Nat) (f : Strand → Strand) : (s.updStrand w i f).served = s.served := rfl
@[simp] theorem updStrand_waits (w i : Nat) (f : Strand → Strand) : (s.updStrand w i f).waits = s.waits := rfl
@[simp] theorem updStrand_held (w i : Nat) (f : Strand → Strand) : (s.updStrand w i f).held = s.held := rfl
@[simp] theorem updStrand_nets (w i : Nat) (f : Strand → Strand) : (s.updStrand w i f).nets = s.nets := rfl
@[simp] theorem updStrand_saved (w i : Nat) (f : Strand → Strand) : (s.updStrand w i f).saved = s.saved := rfl
@[simp] theorem updStrand_stats (w i : Nat) (f : Strand → Strand) : (s.updStrand w i f).stats = s.stats := rfl

/-! ## updDom -/

@[simp] theorem updDom_time (w d : Nat) (f : Dom → Dom) : (s.updDom w d f).time = s.time := rfl
@[simp] theorem updDom_rtc (w d : Nat) (f : Dom → Dom) : (s.updDom w d f).rtc = s.rtc := rfl
@[simp] theorem updDom_upSince (w d : Nat) (f : Dom → Dom) : (s.updDom w d f).upSince = s.upSince := rfl
@[simp] theorem updDom_tick (w d : Nat) (f : Dom → Dom) : (s.updDom w d f).tick = s.tick := rfl
@[simp] theorem updDom_agenda (w d : Nat) (f : Dom → Dom) : (s.updDom w d f).agenda = s.agenda := rfl
@[simp] theorem updDom_cur (w d : Nat) (f : Dom → Dom) : (s.updDom w d f).cur = s.cur := rfl
@[simp] theorem updDom_nextId (w d : Nat) (f : Dom → Dom) : (s.updDom w d f).nextId = s.nextId := rfl
@[simp] theorem updDom_boot (w d : Nat) (f : Dom → Dom) : (s.updDom w d f).boot = s.boot := rfl
@[simp] theorem updDom_arith (w d : Nat) (f : Dom → Dom) : (s.updDom w d f).arith = s.arith := rfl
@[simp] theorem updDom_measured (w d : Nat) (f : Dom → Dom) : (s.updDom w d f).measured = s.measured := rfl
@[simp] theorem updDom_mem (w d : Nat) (f : Dom → Dom) : (s.updDom w d f).mem = s.mem := rfl
@[simp] theorem updDom_mmarks (w d : Nat) (f : Dom → Dom) : (s.updDom w d f).mmarks = s.mmarks := rfl
@[simp] theorem updDom_accs (w d : Nat) (f : Dom → Dom) : (s.updDom w d f).accs = s.accs := rfl
@[simp] theorem updDom_waiters (w d : Nat) (f : Dom → Dom) : (s.updDom w d f).waiters = s.waiters := rfl
@[simp] theorem updDom_wreqs (w d : Nat) (f : Dom → Dom) : (s.updDom w d f).wreqs = s.wreqs := rfl
@[simp] theorem updDom_cores (w d : Nat) (f : Dom → Dom) : (s.updDom w d f).cores = s.cores := rfl
@[simp] theorem updDom_warps (w d : Nat) (f : Dom → Dom) : (s.updDom w d f).warps = Tbl.upd s.warps w fun x => x.updDom d f := rfl
@[simp] theorem updDom_crews (w d : Nat) (f : Dom → Dom) : (s.updDom w d f).crews = s.crews := rfl
@[simp] theorem updDom_cmds (w d : Nat) (f : Dom → Dom) : (s.updDom w d f).cmds = s.cmds := rfl
@[simp] theorem updDom_flips (w d : Nat) (f : Dom → Dom) : (s.updDom w d f).flips = s.flips := rfl
@[simp] theorem updDom_launches (w d : Nat) (f : Dom → Dom) : (s.updDom w d f).launches = s.launches := rfl
@[simp] theorem updDom_works (w d : Nat) (f : Dom → Dom) : (s.updDom w d f).works = s.works := rfl
@[simp] theorem updDom_cwalks (w d : Nat) (f : Dom → Dom) : (s.updDom w d f).cwalks = s.cwalks := rfl
@[simp] theorem updDom_jobs (w d : Nat) (f : Dom → Dom) : (s.updDom w d f).jobs = s.jobs := rfl
@[simp] theorem updDom_ringWaits (w d : Nat) (f : Dom → Dom) : (s.updDom w d f).ringWaits = s.ringWaits := rfl
@[simp] theorem updDom_wdReqs (w d : Nat) (f : Dom → Dom) : (s.updDom w d f).wdReqs = s.wdReqs := rfl
@[simp] theorem updDom_walks (w d : Nat) (f : Dom → Dom) : (s.updDom w d f).walks = s.walks := rfl
@[simp] theorem updDom_faults (w d : Nat) (f : Dom → Dom) : (s.updDom w d f).faults = s.faults := rfl
@[simp] theorem updDom_migs (w d : Nat) (f : Dom → Dom) : (s.updDom w d f).migs = s.migs := rfl
@[simp] theorem updDom_movedIn (w d : Nat) (f : Dom → Dom) : (s.updDom w d f).movedIn = s.movedIn := rfl
@[simp] theorem updDom_parts (w d : Nat) (f : Dom → Dom) : (s.updDom w d f).parts = s.parts := rfl
@[simp] theorem updDom_ctxs (w d : Nat) (f : Dom → Dom) : (s.updDom w d f).ctxs = s.ctxs := rfl
@[simp] theorem updDom_models (w d : Nat) (f : Dom → Dom) : (s.updDom w d f).models = s.models := rfl
@[simp] theorem updDom_deficits (w d : Nat) (f : Dom → Dom) : (s.updDom w d f).deficits = s.deficits := rfl
@[simp] theorem updDom_visiting (w d : Nat) (f : Dom → Dom) : (s.updDom w d f).visiting = s.visiting := rfl
@[simp] theorem updDom_gates (w d : Nat) (f : Dom → Dom) : (s.updDom w d f).gates = s.gates := rfl
@[simp] theorem updDom_weirs (w d : Nat) (f : Dom → Dom) : (s.updDom w d f).weirs = s.weirs := rfl
@[simp] theorem updDom_portsDown (w d : Nat) (f : Dom → Dom) : (s.updDom w d f).portsDown = s.portsDown := rfl
@[simp] theorem updDom_portsUp (w d : Nat) (f : Dom → Dom) : (s.updDom w d f).portsUp = s.portsUp := rfl
@[simp] theorem updDom_session (w d : Nat) (f : Dom → Dom) : (s.updDom w d f).session = s.session := rfl
@[simp] theorem updDom_seqs (w d : Nat) (f : Dom → Dom) : (s.updDom w d f).seqs = s.seqs := rfl
@[simp] theorem updDom_outbox (w d : Nat) (f : Dom → Dom) : (s.updDom w d f).outbox = s.outbox := rfl
@[simp] theorem updDom_served (w d : Nat) (f : Dom → Dom) : (s.updDom w d f).served = s.served := rfl
@[simp] theorem updDom_waits (w d : Nat) (f : Dom → Dom) : (s.updDom w d f).waits = s.waits := rfl
@[simp] theorem updDom_held (w d : Nat) (f : Dom → Dom) : (s.updDom w d f).held = s.held := rfl
@[simp] theorem updDom_nets (w d : Nat) (f : Dom → Dom) : (s.updDom w d f).nets = s.nets := rfl
@[simp] theorem updDom_saved (w d : Nat) (f : Dom → Dom) : (s.updDom w d f).saved = s.saved := rfl
@[simp] theorem updDom_stats (w d : Nat) (f : Dom → Dom) : (s.updDom w d f).stats = s.stats := rfl

/-! ## updCrew -/

@[simp] theorem updCrew_time (c : Nat) (f : Crew → Crew) : (s.updCrew c f).time = s.time := rfl
@[simp] theorem updCrew_rtc (c : Nat) (f : Crew → Crew) : (s.updCrew c f).rtc = s.rtc := rfl
@[simp] theorem updCrew_upSince (c : Nat) (f : Crew → Crew) : (s.updCrew c f).upSince = s.upSince := rfl
@[simp] theorem updCrew_tick (c : Nat) (f : Crew → Crew) : (s.updCrew c f).tick = s.tick := rfl
@[simp] theorem updCrew_agenda (c : Nat) (f : Crew → Crew) : (s.updCrew c f).agenda = s.agenda := rfl
@[simp] theorem updCrew_cur (c : Nat) (f : Crew → Crew) : (s.updCrew c f).cur = s.cur := rfl
@[simp] theorem updCrew_nextId (c : Nat) (f : Crew → Crew) : (s.updCrew c f).nextId = s.nextId := rfl
@[simp] theorem updCrew_boot (c : Nat) (f : Crew → Crew) : (s.updCrew c f).boot = s.boot := rfl
@[simp] theorem updCrew_arith (c : Nat) (f : Crew → Crew) : (s.updCrew c f).arith = s.arith := rfl
@[simp] theorem updCrew_measured (c : Nat) (f : Crew → Crew) : (s.updCrew c f).measured = s.measured := rfl
@[simp] theorem updCrew_mem (c : Nat) (f : Crew → Crew) : (s.updCrew c f).mem = s.mem := rfl
@[simp] theorem updCrew_mmarks (c : Nat) (f : Crew → Crew) : (s.updCrew c f).mmarks = s.mmarks := rfl
@[simp] theorem updCrew_accs (c : Nat) (f : Crew → Crew) : (s.updCrew c f).accs = s.accs := rfl
@[simp] theorem updCrew_waiters (c : Nat) (f : Crew → Crew) : (s.updCrew c f).waiters = s.waiters := rfl
@[simp] theorem updCrew_wreqs (c : Nat) (f : Crew → Crew) : (s.updCrew c f).wreqs = s.wreqs := rfl
@[simp] theorem updCrew_cores (c : Nat) (f : Crew → Crew) : (s.updCrew c f).cores = s.cores := rfl
@[simp] theorem updCrew_warps (c : Nat) (f : Crew → Crew) : (s.updCrew c f).warps = s.warps := rfl
@[simp] theorem updCrew_crews (c : Nat) (f : Crew → Crew) : (s.updCrew c f).crews = Tbl.upd s.crews c f := rfl
@[simp] theorem updCrew_cmds (c : Nat) (f : Crew → Crew) : (s.updCrew c f).cmds = s.cmds := rfl
@[simp] theorem updCrew_flips (c : Nat) (f : Crew → Crew) : (s.updCrew c f).flips = s.flips := rfl
@[simp] theorem updCrew_launches (c : Nat) (f : Crew → Crew) : (s.updCrew c f).launches = s.launches := rfl
@[simp] theorem updCrew_works (c : Nat) (f : Crew → Crew) : (s.updCrew c f).works = s.works := rfl
@[simp] theorem updCrew_cwalks (c : Nat) (f : Crew → Crew) : (s.updCrew c f).cwalks = s.cwalks := rfl
@[simp] theorem updCrew_jobs (c : Nat) (f : Crew → Crew) : (s.updCrew c f).jobs = s.jobs := rfl
@[simp] theorem updCrew_ringWaits (c : Nat) (f : Crew → Crew) : (s.updCrew c f).ringWaits = s.ringWaits := rfl
@[simp] theorem updCrew_wdReqs (c : Nat) (f : Crew → Crew) : (s.updCrew c f).wdReqs = s.wdReqs := rfl
@[simp] theorem updCrew_walks (c : Nat) (f : Crew → Crew) : (s.updCrew c f).walks = s.walks := rfl
@[simp] theorem updCrew_faults (c : Nat) (f : Crew → Crew) : (s.updCrew c f).faults = s.faults := rfl
@[simp] theorem updCrew_migs (c : Nat) (f : Crew → Crew) : (s.updCrew c f).migs = s.migs := rfl
@[simp] theorem updCrew_movedIn (c : Nat) (f : Crew → Crew) : (s.updCrew c f).movedIn = s.movedIn := rfl
@[simp] theorem updCrew_parts (c : Nat) (f : Crew → Crew) : (s.updCrew c f).parts = s.parts := rfl
@[simp] theorem updCrew_ctxs (c : Nat) (f : Crew → Crew) : (s.updCrew c f).ctxs = s.ctxs := rfl
@[simp] theorem updCrew_models (c : Nat) (f : Crew → Crew) : (s.updCrew c f).models = s.models := rfl
@[simp] theorem updCrew_deficits (c : Nat) (f : Crew → Crew) : (s.updCrew c f).deficits = s.deficits := rfl
@[simp] theorem updCrew_visiting (c : Nat) (f : Crew → Crew) : (s.updCrew c f).visiting = s.visiting := rfl
@[simp] theorem updCrew_gates (c : Nat) (f : Crew → Crew) : (s.updCrew c f).gates = s.gates := rfl
@[simp] theorem updCrew_weirs (c : Nat) (f : Crew → Crew) : (s.updCrew c f).weirs = s.weirs := rfl
@[simp] theorem updCrew_portsDown (c : Nat) (f : Crew → Crew) : (s.updCrew c f).portsDown = s.portsDown := rfl
@[simp] theorem updCrew_portsUp (c : Nat) (f : Crew → Crew) : (s.updCrew c f).portsUp = s.portsUp := rfl
@[simp] theorem updCrew_session (c : Nat) (f : Crew → Crew) : (s.updCrew c f).session = s.session := rfl
@[simp] theorem updCrew_seqs (c : Nat) (f : Crew → Crew) : (s.updCrew c f).seqs = s.seqs := rfl
@[simp] theorem updCrew_outbox (c : Nat) (f : Crew → Crew) : (s.updCrew c f).outbox = s.outbox := rfl
@[simp] theorem updCrew_served (c : Nat) (f : Crew → Crew) : (s.updCrew c f).served = s.served := rfl
@[simp] theorem updCrew_waits (c : Nat) (f : Crew → Crew) : (s.updCrew c f).waits = s.waits := rfl
@[simp] theorem updCrew_held (c : Nat) (f : Crew → Crew) : (s.updCrew c f).held = s.held := rfl
@[simp] theorem updCrew_nets (c : Nat) (f : Crew → Crew) : (s.updCrew c f).nets = s.nets := rfl
@[simp] theorem updCrew_saved (c : Nat) (f : Crew → Crew) : (s.updCrew c f).saved = s.saved := rfl
@[simp] theorem updCrew_stats (c : Nat) (f : Crew → Crew) : (s.updCrew c f).stats = s.stats := rfl

/-! ## updCtx -/

@[simp] theorem updCtx_time (c : Nat) (f : Context → Context) : (s.updCtx c f).time = s.time := rfl
@[simp] theorem updCtx_rtc (c : Nat) (f : Context → Context) : (s.updCtx c f).rtc = s.rtc := rfl
@[simp] theorem updCtx_upSince (c : Nat) (f : Context → Context) : (s.updCtx c f).upSince = s.upSince := rfl
@[simp] theorem updCtx_tick (c : Nat) (f : Context → Context) : (s.updCtx c f).tick = s.tick := rfl
@[simp] theorem updCtx_agenda (c : Nat) (f : Context → Context) : (s.updCtx c f).agenda = s.agenda := rfl
@[simp] theorem updCtx_cur (c : Nat) (f : Context → Context) : (s.updCtx c f).cur = s.cur := rfl
@[simp] theorem updCtx_nextId (c : Nat) (f : Context → Context) : (s.updCtx c f).nextId = s.nextId := rfl
@[simp] theorem updCtx_boot (c : Nat) (f : Context → Context) : (s.updCtx c f).boot = s.boot := rfl
@[simp] theorem updCtx_arith (c : Nat) (f : Context → Context) : (s.updCtx c f).arith = s.arith := rfl
@[simp] theorem updCtx_measured (c : Nat) (f : Context → Context) : (s.updCtx c f).measured = s.measured := rfl
@[simp] theorem updCtx_mem (c : Nat) (f : Context → Context) : (s.updCtx c f).mem = s.mem := rfl
@[simp] theorem updCtx_mmarks (c : Nat) (f : Context → Context) : (s.updCtx c f).mmarks = s.mmarks := rfl
@[simp] theorem updCtx_accs (c : Nat) (f : Context → Context) : (s.updCtx c f).accs = s.accs := rfl
@[simp] theorem updCtx_waiters (c : Nat) (f : Context → Context) : (s.updCtx c f).waiters = s.waiters := rfl
@[simp] theorem updCtx_wreqs (c : Nat) (f : Context → Context) : (s.updCtx c f).wreqs = s.wreqs := rfl
@[simp] theorem updCtx_cores (c : Nat) (f : Context → Context) : (s.updCtx c f).cores = s.cores := rfl
@[simp] theorem updCtx_warps (c : Nat) (f : Context → Context) : (s.updCtx c f).warps = s.warps := rfl
@[simp] theorem updCtx_crews (c : Nat) (f : Context → Context) : (s.updCtx c f).crews = s.crews := rfl
@[simp] theorem updCtx_cmds (c : Nat) (f : Context → Context) : (s.updCtx c f).cmds = s.cmds := rfl
@[simp] theorem updCtx_flips (c : Nat) (f : Context → Context) : (s.updCtx c f).flips = s.flips := rfl
@[simp] theorem updCtx_launches (c : Nat) (f : Context → Context) : (s.updCtx c f).launches = s.launches := rfl
@[simp] theorem updCtx_works (c : Nat) (f : Context → Context) : (s.updCtx c f).works = s.works := rfl
@[simp] theorem updCtx_cwalks (c : Nat) (f : Context → Context) : (s.updCtx c f).cwalks = s.cwalks := rfl
@[simp] theorem updCtx_jobs (c : Nat) (f : Context → Context) : (s.updCtx c f).jobs = s.jobs := rfl
@[simp] theorem updCtx_ringWaits (c : Nat) (f : Context → Context) : (s.updCtx c f).ringWaits = s.ringWaits := rfl
@[simp] theorem updCtx_wdReqs (c : Nat) (f : Context → Context) : (s.updCtx c f).wdReqs = s.wdReqs := rfl
@[simp] theorem updCtx_walks (c : Nat) (f : Context → Context) : (s.updCtx c f).walks = s.walks := rfl
@[simp] theorem updCtx_faults (c : Nat) (f : Context → Context) : (s.updCtx c f).faults = s.faults := rfl
@[simp] theorem updCtx_migs (c : Nat) (f : Context → Context) : (s.updCtx c f).migs = s.migs := rfl
@[simp] theorem updCtx_movedIn (c : Nat) (f : Context → Context) : (s.updCtx c f).movedIn = s.movedIn := rfl
@[simp] theorem updCtx_parts (c : Nat) (f : Context → Context) : (s.updCtx c f).parts = s.parts := rfl
@[simp] theorem updCtx_ctxs (c : Nat) (f : Context → Context) : (s.updCtx c f).ctxs = Tbl.upd s.ctxs c f := rfl
@[simp] theorem updCtx_models (c : Nat) (f : Context → Context) : (s.updCtx c f).models = s.models := rfl
@[simp] theorem updCtx_deficits (c : Nat) (f : Context → Context) : (s.updCtx c f).deficits = s.deficits := rfl
@[simp] theorem updCtx_visiting (c : Nat) (f : Context → Context) : (s.updCtx c f).visiting = s.visiting := rfl
@[simp] theorem updCtx_gates (c : Nat) (f : Context → Context) : (s.updCtx c f).gates = s.gates := rfl
@[simp] theorem updCtx_weirs (c : Nat) (f : Context → Context) : (s.updCtx c f).weirs = s.weirs := rfl
@[simp] theorem updCtx_portsDown (c : Nat) (f : Context → Context) : (s.updCtx c f).portsDown = s.portsDown := rfl
@[simp] theorem updCtx_portsUp (c : Nat) (f : Context → Context) : (s.updCtx c f).portsUp = s.portsUp := rfl
@[simp] theorem updCtx_session (c : Nat) (f : Context → Context) : (s.updCtx c f).session = s.session := rfl
@[simp] theorem updCtx_seqs (c : Nat) (f : Context → Context) : (s.updCtx c f).seqs = s.seqs := rfl
@[simp] theorem updCtx_outbox (c : Nat) (f : Context → Context) : (s.updCtx c f).outbox = s.outbox := rfl
@[simp] theorem updCtx_served (c : Nat) (f : Context → Context) : (s.updCtx c f).served = s.served := rfl
@[simp] theorem updCtx_waits (c : Nat) (f : Context → Context) : (s.updCtx c f).waits = s.waits := rfl
@[simp] theorem updCtx_held (c : Nat) (f : Context → Context) : (s.updCtx c f).held = s.held := rfl
@[simp] theorem updCtx_nets (c : Nat) (f : Context → Context) : (s.updCtx c f).nets = s.nets := rfl
@[simp] theorem updCtx_saved (c : Nat) (f : Context → Context) : (s.updCtx c f).saved = s.saved := rfl
@[simp] theorem updCtx_stats (c : Nat) (f : Context → Context) : (s.updCtx c f).stats = s.stats := rfl

/-! ## updCmd -/

@[simp] theorem updCmd_time (i : Nat) (f : Cmd → Cmd) : (s.updCmd i f).time = s.time := rfl
@[simp] theorem updCmd_rtc (i : Nat) (f : Cmd → Cmd) : (s.updCmd i f).rtc = s.rtc := rfl
@[simp] theorem updCmd_upSince (i : Nat) (f : Cmd → Cmd) : (s.updCmd i f).upSince = s.upSince := rfl
@[simp] theorem updCmd_tick (i : Nat) (f : Cmd → Cmd) : (s.updCmd i f).tick = s.tick := rfl
@[simp] theorem updCmd_agenda (i : Nat) (f : Cmd → Cmd) : (s.updCmd i f).agenda = s.agenda := rfl
@[simp] theorem updCmd_cur (i : Nat) (f : Cmd → Cmd) : (s.updCmd i f).cur = s.cur := rfl
@[simp] theorem updCmd_nextId (i : Nat) (f : Cmd → Cmd) : (s.updCmd i f).nextId = s.nextId := rfl
@[simp] theorem updCmd_boot (i : Nat) (f : Cmd → Cmd) : (s.updCmd i f).boot = s.boot := rfl
@[simp] theorem updCmd_arith (i : Nat) (f : Cmd → Cmd) : (s.updCmd i f).arith = s.arith := rfl
@[simp] theorem updCmd_measured (i : Nat) (f : Cmd → Cmd) : (s.updCmd i f).measured = s.measured := rfl
@[simp] theorem updCmd_mem (i : Nat) (f : Cmd → Cmd) : (s.updCmd i f).mem = s.mem := rfl
@[simp] theorem updCmd_mmarks (i : Nat) (f : Cmd → Cmd) : (s.updCmd i f).mmarks = s.mmarks := rfl
@[simp] theorem updCmd_accs (i : Nat) (f : Cmd → Cmd) : (s.updCmd i f).accs = s.accs := rfl
@[simp] theorem updCmd_waiters (i : Nat) (f : Cmd → Cmd) : (s.updCmd i f).waiters = s.waiters := rfl
@[simp] theorem updCmd_wreqs (i : Nat) (f : Cmd → Cmd) : (s.updCmd i f).wreqs = s.wreqs := rfl
@[simp] theorem updCmd_cores (i : Nat) (f : Cmd → Cmd) : (s.updCmd i f).cores = s.cores := rfl
@[simp] theorem updCmd_warps (i : Nat) (f : Cmd → Cmd) : (s.updCmd i f).warps = s.warps := rfl
@[simp] theorem updCmd_crews (i : Nat) (f : Cmd → Cmd) : (s.updCmd i f).crews = s.crews := rfl
@[simp] theorem updCmd_cmds (i : Nat) (f : Cmd → Cmd) : (s.updCmd i f).cmds = Tbl.upd s.cmds i f := rfl
@[simp] theorem updCmd_flips (i : Nat) (f : Cmd → Cmd) : (s.updCmd i f).flips = s.flips := rfl
@[simp] theorem updCmd_launches (i : Nat) (f : Cmd → Cmd) : (s.updCmd i f).launches = s.launches := rfl
@[simp] theorem updCmd_works (i : Nat) (f : Cmd → Cmd) : (s.updCmd i f).works = s.works := rfl
@[simp] theorem updCmd_cwalks (i : Nat) (f : Cmd → Cmd) : (s.updCmd i f).cwalks = s.cwalks := rfl
@[simp] theorem updCmd_jobs (i : Nat) (f : Cmd → Cmd) : (s.updCmd i f).jobs = s.jobs := rfl
@[simp] theorem updCmd_ringWaits (i : Nat) (f : Cmd → Cmd) : (s.updCmd i f).ringWaits = s.ringWaits := rfl
@[simp] theorem updCmd_wdReqs (i : Nat) (f : Cmd → Cmd) : (s.updCmd i f).wdReqs = s.wdReqs := rfl
@[simp] theorem updCmd_walks (i : Nat) (f : Cmd → Cmd) : (s.updCmd i f).walks = s.walks := rfl
@[simp] theorem updCmd_faults (i : Nat) (f : Cmd → Cmd) : (s.updCmd i f).faults = s.faults := rfl
@[simp] theorem updCmd_migs (i : Nat) (f : Cmd → Cmd) : (s.updCmd i f).migs = s.migs := rfl
@[simp] theorem updCmd_movedIn (i : Nat) (f : Cmd → Cmd) : (s.updCmd i f).movedIn = s.movedIn := rfl
@[simp] theorem updCmd_parts (i : Nat) (f : Cmd → Cmd) : (s.updCmd i f).parts = s.parts := rfl
@[simp] theorem updCmd_ctxs (i : Nat) (f : Cmd → Cmd) : (s.updCmd i f).ctxs = s.ctxs := rfl
@[simp] theorem updCmd_models (i : Nat) (f : Cmd → Cmd) : (s.updCmd i f).models = s.models := rfl
@[simp] theorem updCmd_deficits (i : Nat) (f : Cmd → Cmd) : (s.updCmd i f).deficits = s.deficits := rfl
@[simp] theorem updCmd_visiting (i : Nat) (f : Cmd → Cmd) : (s.updCmd i f).visiting = s.visiting := rfl
@[simp] theorem updCmd_gates (i : Nat) (f : Cmd → Cmd) : (s.updCmd i f).gates = s.gates := rfl
@[simp] theorem updCmd_weirs (i : Nat) (f : Cmd → Cmd) : (s.updCmd i f).weirs = s.weirs := rfl
@[simp] theorem updCmd_portsDown (i : Nat) (f : Cmd → Cmd) : (s.updCmd i f).portsDown = s.portsDown := rfl
@[simp] theorem updCmd_portsUp (i : Nat) (f : Cmd → Cmd) : (s.updCmd i f).portsUp = s.portsUp := rfl
@[simp] theorem updCmd_session (i : Nat) (f : Cmd → Cmd) : (s.updCmd i f).session = s.session := rfl
@[simp] theorem updCmd_seqs (i : Nat) (f : Cmd → Cmd) : (s.updCmd i f).seqs = s.seqs := rfl
@[simp] theorem updCmd_outbox (i : Nat) (f : Cmd → Cmd) : (s.updCmd i f).outbox = s.outbox := rfl
@[simp] theorem updCmd_served (i : Nat) (f : Cmd → Cmd) : (s.updCmd i f).served = s.served := rfl
@[simp] theorem updCmd_waits (i : Nat) (f : Cmd → Cmd) : (s.updCmd i f).waits = s.waits := rfl
@[simp] theorem updCmd_held (i : Nat) (f : Cmd → Cmd) : (s.updCmd i f).held = s.held := rfl
@[simp] theorem updCmd_nets (i : Nat) (f : Cmd → Cmd) : (s.updCmd i f).nets = s.nets := rfl
@[simp] theorem updCmd_saved (i : Nat) (f : Cmd → Cmd) : (s.updCmd i f).saved = s.saved := rfl
@[simp] theorem updCmd_stats (i : Nat) (f : Cmd → Cmd) : (s.updCmd i f).stats = s.stats := rfl

/-! ## updJob -/

@[simp] theorem updJob_time (i : Nat) (f : Job → Job) : (s.updJob i f).time = s.time := rfl
@[simp] theorem updJob_rtc (i : Nat) (f : Job → Job) : (s.updJob i f).rtc = s.rtc := rfl
@[simp] theorem updJob_upSince (i : Nat) (f : Job → Job) : (s.updJob i f).upSince = s.upSince := rfl
@[simp] theorem updJob_tick (i : Nat) (f : Job → Job) : (s.updJob i f).tick = s.tick := rfl
@[simp] theorem updJob_agenda (i : Nat) (f : Job → Job) : (s.updJob i f).agenda = s.agenda := rfl
@[simp] theorem updJob_cur (i : Nat) (f : Job → Job) : (s.updJob i f).cur = s.cur := rfl
@[simp] theorem updJob_nextId (i : Nat) (f : Job → Job) : (s.updJob i f).nextId = s.nextId := rfl
@[simp] theorem updJob_boot (i : Nat) (f : Job → Job) : (s.updJob i f).boot = s.boot := rfl
@[simp] theorem updJob_arith (i : Nat) (f : Job → Job) : (s.updJob i f).arith = s.arith := rfl
@[simp] theorem updJob_measured (i : Nat) (f : Job → Job) : (s.updJob i f).measured = s.measured := rfl
@[simp] theorem updJob_mem (i : Nat) (f : Job → Job) : (s.updJob i f).mem = s.mem := rfl
@[simp] theorem updJob_mmarks (i : Nat) (f : Job → Job) : (s.updJob i f).mmarks = s.mmarks := rfl
@[simp] theorem updJob_accs (i : Nat) (f : Job → Job) : (s.updJob i f).accs = s.accs := rfl
@[simp] theorem updJob_waiters (i : Nat) (f : Job → Job) : (s.updJob i f).waiters = s.waiters := rfl
@[simp] theorem updJob_wreqs (i : Nat) (f : Job → Job) : (s.updJob i f).wreqs = s.wreqs := rfl
@[simp] theorem updJob_cores (i : Nat) (f : Job → Job) : (s.updJob i f).cores = s.cores := rfl
@[simp] theorem updJob_warps (i : Nat) (f : Job → Job) : (s.updJob i f).warps = s.warps := rfl
@[simp] theorem updJob_crews (i : Nat) (f : Job → Job) : (s.updJob i f).crews = s.crews := rfl
@[simp] theorem updJob_cmds (i : Nat) (f : Job → Job) : (s.updJob i f).cmds = s.cmds := rfl
@[simp] theorem updJob_flips (i : Nat) (f : Job → Job) : (s.updJob i f).flips = s.flips := rfl
@[simp] theorem updJob_launches (i : Nat) (f : Job → Job) : (s.updJob i f).launches = s.launches := rfl
@[simp] theorem updJob_works (i : Nat) (f : Job → Job) : (s.updJob i f).works = s.works := rfl
@[simp] theorem updJob_cwalks (i : Nat) (f : Job → Job) : (s.updJob i f).cwalks = s.cwalks := rfl
@[simp] theorem updJob_jobs (i : Nat) (f : Job → Job) : (s.updJob i f).jobs = Tbl.upd s.jobs i f := rfl
@[simp] theorem updJob_ringWaits (i : Nat) (f : Job → Job) : (s.updJob i f).ringWaits = s.ringWaits := rfl
@[simp] theorem updJob_wdReqs (i : Nat) (f : Job → Job) : (s.updJob i f).wdReqs = s.wdReqs := rfl
@[simp] theorem updJob_walks (i : Nat) (f : Job → Job) : (s.updJob i f).walks = s.walks := rfl
@[simp] theorem updJob_faults (i : Nat) (f : Job → Job) : (s.updJob i f).faults = s.faults := rfl
@[simp] theorem updJob_migs (i : Nat) (f : Job → Job) : (s.updJob i f).migs = s.migs := rfl
@[simp] theorem updJob_movedIn (i : Nat) (f : Job → Job) : (s.updJob i f).movedIn = s.movedIn := rfl
@[simp] theorem updJob_parts (i : Nat) (f : Job → Job) : (s.updJob i f).parts = s.parts := rfl
@[simp] theorem updJob_ctxs (i : Nat) (f : Job → Job) : (s.updJob i f).ctxs = s.ctxs := rfl
@[simp] theorem updJob_models (i : Nat) (f : Job → Job) : (s.updJob i f).models = s.models := rfl
@[simp] theorem updJob_deficits (i : Nat) (f : Job → Job) : (s.updJob i f).deficits = s.deficits := rfl
@[simp] theorem updJob_visiting (i : Nat) (f : Job → Job) : (s.updJob i f).visiting = s.visiting := rfl
@[simp] theorem updJob_gates (i : Nat) (f : Job → Job) : (s.updJob i f).gates = s.gates := rfl
@[simp] theorem updJob_weirs (i : Nat) (f : Job → Job) : (s.updJob i f).weirs = s.weirs := rfl
@[simp] theorem updJob_portsDown (i : Nat) (f : Job → Job) : (s.updJob i f).portsDown = s.portsDown := rfl
@[simp] theorem updJob_portsUp (i : Nat) (f : Job → Job) : (s.updJob i f).portsUp = s.portsUp := rfl
@[simp] theorem updJob_session (i : Nat) (f : Job → Job) : (s.updJob i f).session = s.session := rfl
@[simp] theorem updJob_seqs (i : Nat) (f : Job → Job) : (s.updJob i f).seqs = s.seqs := rfl
@[simp] theorem updJob_outbox (i : Nat) (f : Job → Job) : (s.updJob i f).outbox = s.outbox := rfl
@[simp] theorem updJob_served (i : Nat) (f : Job → Job) : (s.updJob i f).served = s.served := rfl
@[simp] theorem updJob_waits (i : Nat) (f : Job → Job) : (s.updJob i f).waits = s.waits := rfl
@[simp] theorem updJob_held (i : Nat) (f : Job → Job) : (s.updJob i f).held = s.held := rfl
@[simp] theorem updJob_nets (i : Nat) (f : Job → Job) : (s.updJob i f).nets = s.nets := rfl
@[simp] theorem updJob_saved (i : Nat) (f : Job → Job) : (s.updJob i f).saved = s.saved := rfl
@[simp] theorem updJob_stats (i : Nat) (f : Job → Job) : (s.updJob i f).stats = s.stats := rfl

/-! ## writeBytes -/

@[simp] theorem writeBytes_time (a : Nat) (l : List Byte) : (s.writeBytes a l).time = s.time := rfl
@[simp] theorem writeBytes_rtc (a : Nat) (l : List Byte) : (s.writeBytes a l).rtc = s.rtc := rfl
@[simp] theorem writeBytes_upSince (a : Nat) (l : List Byte) : (s.writeBytes a l).upSince = s.upSince := rfl
@[simp] theorem writeBytes_tick (a : Nat) (l : List Byte) : (s.writeBytes a l).tick = s.tick := rfl
@[simp] theorem writeBytes_agenda (a : Nat) (l : List Byte) : (s.writeBytes a l).agenda = s.agenda := rfl
@[simp] theorem writeBytes_cur (a : Nat) (l : List Byte) : (s.writeBytes a l).cur = s.cur := rfl
@[simp] theorem writeBytes_nextId (a : Nat) (l : List Byte) : (s.writeBytes a l).nextId = s.nextId := rfl
@[simp] theorem writeBytes_boot (a : Nat) (l : List Byte) : (s.writeBytes a l).boot = s.boot := rfl
@[simp] theorem writeBytes_arith (a : Nat) (l : List Byte) : (s.writeBytes a l).arith = s.arith := rfl
@[simp] theorem writeBytes_measured (a : Nat) (l : List Byte) : (s.writeBytes a l).measured = s.measured := rfl
@[simp] theorem writeBytes_mem (a : Nat) (l : List Byte) : (s.writeBytes a l).mem = Sparse.writeList memDefault s.mem a l := rfl
@[simp] theorem writeBytes_mmarks (a : Nat) (l : List Byte) : (s.writeBytes a l).mmarks = s.mmarks := rfl
@[simp] theorem writeBytes_accs (a : Nat) (l : List Byte) : (s.writeBytes a l).accs = s.accs := rfl
@[simp] theorem writeBytes_waiters (a : Nat) (l : List Byte) : (s.writeBytes a l).waiters = s.waiters := rfl
@[simp] theorem writeBytes_wreqs (a : Nat) (l : List Byte) : (s.writeBytes a l).wreqs = s.wreqs := rfl
@[simp] theorem writeBytes_cores (a : Nat) (l : List Byte) : (s.writeBytes a l).cores = s.cores := rfl
@[simp] theorem writeBytes_warps (a : Nat) (l : List Byte) : (s.writeBytes a l).warps = s.warps := rfl
@[simp] theorem writeBytes_crews (a : Nat) (l : List Byte) : (s.writeBytes a l).crews = s.crews := rfl
@[simp] theorem writeBytes_cmds (a : Nat) (l : List Byte) : (s.writeBytes a l).cmds = s.cmds := rfl
@[simp] theorem writeBytes_flips (a : Nat) (l : List Byte) : (s.writeBytes a l).flips = s.flips := rfl
@[simp] theorem writeBytes_launches (a : Nat) (l : List Byte) : (s.writeBytes a l).launches = s.launches := rfl
@[simp] theorem writeBytes_works (a : Nat) (l : List Byte) : (s.writeBytes a l).works = s.works := rfl
@[simp] theorem writeBytes_cwalks (a : Nat) (l : List Byte) : (s.writeBytes a l).cwalks = s.cwalks := rfl
@[simp] theorem writeBytes_jobs (a : Nat) (l : List Byte) : (s.writeBytes a l).jobs = s.jobs := rfl
@[simp] theorem writeBytes_ringWaits (a : Nat) (l : List Byte) : (s.writeBytes a l).ringWaits = s.ringWaits := rfl
@[simp] theorem writeBytes_wdReqs (a : Nat) (l : List Byte) : (s.writeBytes a l).wdReqs = s.wdReqs := rfl
@[simp] theorem writeBytes_walks (a : Nat) (l : List Byte) : (s.writeBytes a l).walks = s.walks := rfl
@[simp] theorem writeBytes_faults (a : Nat) (l : List Byte) : (s.writeBytes a l).faults = s.faults := rfl
@[simp] theorem writeBytes_migs (a : Nat) (l : List Byte) : (s.writeBytes a l).migs = s.migs := rfl
@[simp] theorem writeBytes_movedIn (a : Nat) (l : List Byte) : (s.writeBytes a l).movedIn = s.movedIn := rfl
@[simp] theorem writeBytes_parts (a : Nat) (l : List Byte) : (s.writeBytes a l).parts = s.parts := rfl
@[simp] theorem writeBytes_ctxs (a : Nat) (l : List Byte) : (s.writeBytes a l).ctxs = s.ctxs := rfl
@[simp] theorem writeBytes_models (a : Nat) (l : List Byte) : (s.writeBytes a l).models = s.models := rfl
@[simp] theorem writeBytes_deficits (a : Nat) (l : List Byte) : (s.writeBytes a l).deficits = s.deficits := rfl
@[simp] theorem writeBytes_visiting (a : Nat) (l : List Byte) : (s.writeBytes a l).visiting = s.visiting := rfl
@[simp] theorem writeBytes_gates (a : Nat) (l : List Byte) : (s.writeBytes a l).gates = s.gates := rfl
@[simp] theorem writeBytes_weirs (a : Nat) (l : List Byte) : (s.writeBytes a l).weirs = s.weirs := rfl
@[simp] theorem writeBytes_portsDown (a : Nat) (l : List Byte) : (s.writeBytes a l).portsDown = s.portsDown := rfl
@[simp] theorem writeBytes_portsUp (a : Nat) (l : List Byte) : (s.writeBytes a l).portsUp = s.portsUp := rfl
@[simp] theorem writeBytes_session (a : Nat) (l : List Byte) : (s.writeBytes a l).session = s.session := rfl
@[simp] theorem writeBytes_seqs (a : Nat) (l : List Byte) : (s.writeBytes a l).seqs = s.seqs := rfl
@[simp] theorem writeBytes_outbox (a : Nat) (l : List Byte) : (s.writeBytes a l).outbox = s.outbox := rfl
@[simp] theorem writeBytes_served (a : Nat) (l : List Byte) : (s.writeBytes a l).served = s.served := rfl
@[simp] theorem writeBytes_waits (a : Nat) (l : List Byte) : (s.writeBytes a l).waits = s.waits := rfl
@[simp] theorem writeBytes_held (a : Nat) (l : List Byte) : (s.writeBytes a l).held = s.held := rfl
@[simp] theorem writeBytes_nets (a : Nat) (l : List Byte) : (s.writeBytes a l).nets = s.nets := rfl
@[simp] theorem writeBytes_saved (a : Nat) (l : List Byte) : (s.writeBytes a l).saved = s.saved := rfl
@[simp] theorem writeBytes_stats (a : Nat) (l : List Byte) : (s.writeBytes a l).stats = s.stats := rfl

/-! ## setLineMark -/

@[simp] theorem setLineMark_time (a m : Nat) : (s.setLineMark a m).time = s.time := rfl
@[simp] theorem setLineMark_rtc (a m : Nat) : (s.setLineMark a m).rtc = s.rtc := rfl
@[simp] theorem setLineMark_upSince (a m : Nat) : (s.setLineMark a m).upSince = s.upSince := rfl
@[simp] theorem setLineMark_tick (a m : Nat) : (s.setLineMark a m).tick = s.tick := rfl
@[simp] theorem setLineMark_agenda (a m : Nat) : (s.setLineMark a m).agenda = s.agenda := rfl
@[simp] theorem setLineMark_cur (a m : Nat) : (s.setLineMark a m).cur = s.cur := rfl
@[simp] theorem setLineMark_nextId (a m : Nat) : (s.setLineMark a m).nextId = s.nextId := rfl
@[simp] theorem setLineMark_boot (a m : Nat) : (s.setLineMark a m).boot = s.boot := rfl
@[simp] theorem setLineMark_arith (a m : Nat) : (s.setLineMark a m).arith = s.arith := rfl
@[simp] theorem setLineMark_measured (a m : Nat) : (s.setLineMark a m).measured = s.measured := rfl
@[simp] theorem setLineMark_mem (a m : Nat) : (s.setLineMark a m).mem = s.mem := rfl
@[simp] theorem setLineMark_mmarks (a m : Nat) : (s.setLineMark a m).mmarks = Sparse.write 0 s.mmarks (a / 256) m := rfl
@[simp] theorem setLineMark_accs (a m : Nat) : (s.setLineMark a m).accs = s.accs := rfl
@[simp] theorem setLineMark_waiters (a m : Nat) : (s.setLineMark a m).waiters = s.waiters := rfl
@[simp] theorem setLineMark_wreqs (a m : Nat) : (s.setLineMark a m).wreqs = s.wreqs := rfl
@[simp] theorem setLineMark_cores (a m : Nat) : (s.setLineMark a m).cores = s.cores := rfl
@[simp] theorem setLineMark_warps (a m : Nat) : (s.setLineMark a m).warps = s.warps := rfl
@[simp] theorem setLineMark_crews (a m : Nat) : (s.setLineMark a m).crews = s.crews := rfl
@[simp] theorem setLineMark_cmds (a m : Nat) : (s.setLineMark a m).cmds = s.cmds := rfl
@[simp] theorem setLineMark_flips (a m : Nat) : (s.setLineMark a m).flips = s.flips := rfl
@[simp] theorem setLineMark_launches (a m : Nat) : (s.setLineMark a m).launches = s.launches := rfl
@[simp] theorem setLineMark_works (a m : Nat) : (s.setLineMark a m).works = s.works := rfl
@[simp] theorem setLineMark_cwalks (a m : Nat) : (s.setLineMark a m).cwalks = s.cwalks := rfl
@[simp] theorem setLineMark_jobs (a m : Nat) : (s.setLineMark a m).jobs = s.jobs := rfl
@[simp] theorem setLineMark_ringWaits (a m : Nat) : (s.setLineMark a m).ringWaits = s.ringWaits := rfl
@[simp] theorem setLineMark_wdReqs (a m : Nat) : (s.setLineMark a m).wdReqs = s.wdReqs := rfl
@[simp] theorem setLineMark_walks (a m : Nat) : (s.setLineMark a m).walks = s.walks := rfl
@[simp] theorem setLineMark_faults (a m : Nat) : (s.setLineMark a m).faults = s.faults := rfl
@[simp] theorem setLineMark_migs (a m : Nat) : (s.setLineMark a m).migs = s.migs := rfl
@[simp] theorem setLineMark_movedIn (a m : Nat) : (s.setLineMark a m).movedIn = s.movedIn := rfl
@[simp] theorem setLineMark_parts (a m : Nat) : (s.setLineMark a m).parts = s.parts := rfl
@[simp] theorem setLineMark_ctxs (a m : Nat) : (s.setLineMark a m).ctxs = s.ctxs := rfl
@[simp] theorem setLineMark_models (a m : Nat) : (s.setLineMark a m).models = s.models := rfl
@[simp] theorem setLineMark_deficits (a m : Nat) : (s.setLineMark a m).deficits = s.deficits := rfl
@[simp] theorem setLineMark_visiting (a m : Nat) : (s.setLineMark a m).visiting = s.visiting := rfl
@[simp] theorem setLineMark_gates (a m : Nat) : (s.setLineMark a m).gates = s.gates := rfl
@[simp] theorem setLineMark_weirs (a m : Nat) : (s.setLineMark a m).weirs = s.weirs := rfl
@[simp] theorem setLineMark_portsDown (a m : Nat) : (s.setLineMark a m).portsDown = s.portsDown := rfl
@[simp] theorem setLineMark_portsUp (a m : Nat) : (s.setLineMark a m).portsUp = s.portsUp := rfl
@[simp] theorem setLineMark_session (a m : Nat) : (s.setLineMark a m).session = s.session := rfl
@[simp] theorem setLineMark_seqs (a m : Nat) : (s.setLineMark a m).seqs = s.seqs := rfl
@[simp] theorem setLineMark_outbox (a m : Nat) : (s.setLineMark a m).outbox = s.outbox := rfl
@[simp] theorem setLineMark_served (a m : Nat) : (s.setLineMark a m).served = s.served := rfl
@[simp] theorem setLineMark_waits (a m : Nat) : (s.setLineMark a m).waits = s.waits := rfl
@[simp] theorem setLineMark_held (a m : Nat) : (s.setLineMark a m).held = s.held := rfl
@[simp] theorem setLineMark_nets (a m : Nat) : (s.setLineMark a m).nets = s.nets := rfl
@[simp] theorem setLineMark_saved (a m : Nat) : (s.setLineMark a m).saved = s.saved := rfl
@[simp] theorem setLineMark_stats (a m : Nat) : (s.setLineMark a m).stats = s.stats := rfl

/-! ## count -/

@[simp] theorem count_time (k : Nat) : (s.count k).time = s.time := rfl
@[simp] theorem count_rtc (k : Nat) : (s.count k).rtc = s.rtc := rfl
@[simp] theorem count_upSince (k : Nat) : (s.count k).upSince = s.upSince := rfl
@[simp] theorem count_tick (k : Nat) : (s.count k).tick = s.tick := rfl
@[simp] theorem count_agenda (k : Nat) : (s.count k).agenda = s.agenda := rfl
@[simp] theorem count_cur (k : Nat) : (s.count k).cur = s.cur := rfl
@[simp] theorem count_nextId (k : Nat) : (s.count k).nextId = s.nextId := rfl
@[simp] theorem count_boot (k : Nat) : (s.count k).boot = s.boot := rfl
@[simp] theorem count_arith (k : Nat) : (s.count k).arith = s.arith := rfl
@[simp] theorem count_measured (k : Nat) : (s.count k).measured = s.measured := rfl
@[simp] theorem count_mem (k : Nat) : (s.count k).mem = s.mem := rfl
@[simp] theorem count_mmarks (k : Nat) : (s.count k).mmarks = s.mmarks := rfl
@[simp] theorem count_accs (k : Nat) : (s.count k).accs = s.accs := rfl
@[simp] theorem count_waiters (k : Nat) : (s.count k).waiters = s.waiters := rfl
@[simp] theorem count_wreqs (k : Nat) : (s.count k).wreqs = s.wreqs := rfl
@[simp] theorem count_cores (k : Nat) : (s.count k).cores = s.cores := rfl
@[simp] theorem count_warps (k : Nat) : (s.count k).warps = s.warps := rfl
@[simp] theorem count_crews (k : Nat) : (s.count k).crews = s.crews := rfl
@[simp] theorem count_cmds (k : Nat) : (s.count k).cmds = s.cmds := rfl
@[simp] theorem count_flips (k : Nat) : (s.count k).flips = s.flips := rfl
@[simp] theorem count_launches (k : Nat) : (s.count k).launches = s.launches := rfl
@[simp] theorem count_works (k : Nat) : (s.count k).works = s.works := rfl
@[simp] theorem count_cwalks (k : Nat) : (s.count k).cwalks = s.cwalks := rfl
@[simp] theorem count_jobs (k : Nat) : (s.count k).jobs = s.jobs := rfl
@[simp] theorem count_ringWaits (k : Nat) : (s.count k).ringWaits = s.ringWaits := rfl
@[simp] theorem count_wdReqs (k : Nat) : (s.count k).wdReqs = s.wdReqs := rfl
@[simp] theorem count_walks (k : Nat) : (s.count k).walks = s.walks := rfl
@[simp] theorem count_faults (k : Nat) : (s.count k).faults = s.faults := rfl
@[simp] theorem count_migs (k : Nat) : (s.count k).migs = s.migs := rfl
@[simp] theorem count_movedIn (k : Nat) : (s.count k).movedIn = s.movedIn := rfl
@[simp] theorem count_parts (k : Nat) : (s.count k).parts = s.parts := rfl
@[simp] theorem count_ctxs (k : Nat) : (s.count k).ctxs = s.ctxs := rfl
@[simp] theorem count_models (k : Nat) : (s.count k).models = s.models := rfl
@[simp] theorem count_deficits (k : Nat) : (s.count k).deficits = s.deficits := rfl
@[simp] theorem count_visiting (k : Nat) : (s.count k).visiting = s.visiting := rfl
@[simp] theorem count_gates (k : Nat) : (s.count k).gates = s.gates := rfl
@[simp] theorem count_weirs (k : Nat) : (s.count k).weirs = s.weirs := rfl
@[simp] theorem count_portsDown (k : Nat) : (s.count k).portsDown = s.portsDown := rfl
@[simp] theorem count_portsUp (k : Nat) : (s.count k).portsUp = s.portsUp := rfl
@[simp] theorem count_session (k : Nat) : (s.count k).session = s.session := rfl
@[simp] theorem count_seqs (k : Nat) : (s.count k).seqs = s.seqs := rfl
@[simp] theorem count_outbox (k : Nat) : (s.count k).outbox = s.outbox := rfl
@[simp] theorem count_served (k : Nat) : (s.count k).served = s.served := rfl
@[simp] theorem count_waits (k : Nat) : (s.count k).waits = s.waits := rfl
@[simp] theorem count_held (k : Nat) : (s.count k).held = s.held := rfl
@[simp] theorem count_nets (k : Nat) : (s.count k).nets = s.nets := rfl
@[simp] theorem count_saved (k : Nat) : (s.count k).saved = s.saved := rfl
@[simp] theorem count_stats (k : Nat) : (s.count k).stats = Tbl.put s.stats k (((Tbl.find s.stats k).getD 0) + 1) := rfl

/-! ## notify -/

@[simp] theorem notify_time (n : Notice) : (s.notify n).time = s.time := rfl
@[simp] theorem notify_rtc (n : Notice) : (s.notify n).rtc = s.rtc := rfl
@[simp] theorem notify_upSince (n : Notice) : (s.notify n).upSince = s.upSince := rfl
@[simp] theorem notify_tick (n : Notice) : (s.notify n).tick = s.tick := rfl
@[simp] theorem notify_agenda (n : Notice) : (s.notify n).agenda = s.agenda := rfl
@[simp] theorem notify_cur (n : Notice) : (s.notify n).cur = s.cur := rfl
@[simp] theorem notify_nextId (n : Notice) : (s.notify n).nextId = s.nextId := rfl
@[simp] theorem notify_boot (n : Notice) : (s.notify n).boot = s.boot := rfl
@[simp] theorem notify_arith (n : Notice) : (s.notify n).arith = s.arith := rfl
@[simp] theorem notify_measured (n : Notice) : (s.notify n).measured = s.measured := rfl
@[simp] theorem notify_mem (n : Notice) : (s.notify n).mem = s.mem := rfl
@[simp] theorem notify_mmarks (n : Notice) : (s.notify n).mmarks = s.mmarks := rfl
@[simp] theorem notify_accs (n : Notice) : (s.notify n).accs = s.accs := rfl
@[simp] theorem notify_waiters (n : Notice) : (s.notify n).waiters = s.waiters := rfl
@[simp] theorem notify_wreqs (n : Notice) : (s.notify n).wreqs = s.wreqs := rfl
@[simp] theorem notify_cores (n : Notice) : (s.notify n).cores = s.cores := rfl
@[simp] theorem notify_warps (n : Notice) : (s.notify n).warps = s.warps := rfl
@[simp] theorem notify_crews (n : Notice) : (s.notify n).crews = s.crews := rfl
@[simp] theorem notify_cmds (n : Notice) : (s.notify n).cmds = s.cmds := rfl
@[simp] theorem notify_flips (n : Notice) : (s.notify n).flips = s.flips := rfl
@[simp] theorem notify_launches (n : Notice) : (s.notify n).launches = s.launches := rfl
@[simp] theorem notify_works (n : Notice) : (s.notify n).works = s.works := rfl
@[simp] theorem notify_cwalks (n : Notice) : (s.notify n).cwalks = s.cwalks := rfl
@[simp] theorem notify_jobs (n : Notice) : (s.notify n).jobs = s.jobs := rfl
@[simp] theorem notify_ringWaits (n : Notice) : (s.notify n).ringWaits = s.ringWaits := rfl
@[simp] theorem notify_wdReqs (n : Notice) : (s.notify n).wdReqs = s.wdReqs := rfl
@[simp] theorem notify_walks (n : Notice) : (s.notify n).walks = s.walks := rfl
@[simp] theorem notify_faults (n : Notice) : (s.notify n).faults = s.faults := rfl
@[simp] theorem notify_migs (n : Notice) : (s.notify n).migs = s.migs := rfl
@[simp] theorem notify_movedIn (n : Notice) : (s.notify n).movedIn = s.movedIn := rfl
@[simp] theorem notify_parts (n : Notice) : (s.notify n).parts = s.parts := rfl
@[simp] theorem notify_ctxs (n : Notice) : (s.notify n).ctxs = s.ctxs := rfl
@[simp] theorem notify_models (n : Notice) : (s.notify n).models = s.models := rfl
@[simp] theorem notify_deficits (n : Notice) : (s.notify n).deficits = s.deficits := rfl
@[simp] theorem notify_visiting (n : Notice) : (s.notify n).visiting = s.visiting := rfl
@[simp] theorem notify_gates (n : Notice) : (s.notify n).gates = s.gates := rfl
@[simp] theorem notify_weirs (n : Notice) : (s.notify n).weirs = s.weirs := rfl
@[simp] theorem notify_portsDown (n : Notice) : (s.notify n).portsDown = s.portsDown := rfl
@[simp] theorem notify_portsUp (n : Notice) : (s.notify n).portsUp = s.portsUp := rfl
@[simp] theorem notify_session (n : Notice) : (s.notify n).session = s.session := rfl
@[simp] theorem notify_seqs (n : Notice) : (s.notify n).seqs = s.seqs := rfl
@[simp] theorem notify_outbox (n : Notice) : (s.notify n).outbox = s.outbox ++ [.notice n.box n] := rfl
@[simp] theorem notify_served (n : Notice) : (s.notify n).served = s.served := rfl
@[simp] theorem notify_waits (n : Notice) : (s.notify n).waits = s.waits := rfl
@[simp] theorem notify_held (n : Notice) : (s.notify n).held = s.held := rfl
@[simp] theorem notify_nets (n : Notice) : (s.notify n).nets = s.nets := rfl
@[simp] theorem notify_saved (n : Notice) : (s.notify n).saved = s.saved := rfl
@[simp] theorem notify_stats (n : Notice) : (s.notify n).stats = s.stats := rfl

end State
end Sys2Proof.Machine
end

