-- ==== Sys2Proof/Tests/Bench.lean ====
section
/-! SUPPORT. Small states for the tests, and checks that decide when the hypotheses of a statement hold of them. -/

namespace Sys2Proof.Tests

open Sys2Proof.Machine

/-- A device with one crew of one warp of four lanes, whose strand 0 stands at the word of a clause of class 0 and has the turn. Its code
page holds the header and the word at 0x10000, with a header behind them. -/
def bench : State :=
  { State.reset.place [Codec.headerWord ⟨0, 0, false, 0, false, false, false, 0, 0⟩, 0,
      Codec.headerWord ⟨0, 0, false, 0, false, false, false, 0, 0⟩] with agenda := [], cur := .strand 0 0 }

/-- The same with its strand, its domain, its warp, its core or its crew changed. -/
def strand (s : State) (f : Strand → Strand) : State := s.updStrand 0 0 f
def dom (s : State) (f : Dom → Dom) : State := s.updDom 0 0 f
def csrs (s : State) (f : Csrs → Csrs) : State := s.updDom 0 0 fun d => { d with csrs := f d.csrs }
def warp (s : State) (f : Warp → Warp) : State := s.updWarp 0 f
def core (s : State) (f : Core → Core) : State := s.updCore 0 f
def crew (s : State) (f : Crew → Crew) : State := s.updCrew 0 f
/-- A scalar of the warp, and a vector register of lane 0. -/
def scal (s : State) (k : Nat) (v : Word) : State :=
  core s fun c => { c with regs := Tbl.put c.regs (placeDom.scal k) v }
def vec (s : State) (k : Nat) (v : Word) : State :=
  core s fun c => { c with regs := Tbl.put c.regs (placeDom.lane 4 k 0) v }
/-- A pair of scalars. -/
def pair (s : State) (k : Nat) (v : Nat) : State := scal (scal s k (BitVec.ofNat 32 v)) (k + 1) (BitVec.ofNat 32 (v / 2 ^ 32))
/-- Bytes of memory: n of them from a physical address on. -/
def poke (s : State) (pa n v : Nat) : State := s.writeNat pa n v

/-- A record of n bytes at 0x10100 with stride 4, by rights PA, PW and PR, and the swizzle fields of R152. -/
def buffer (n rights : Nat) (swz rl : Nat := 0) : Rcd :=
  BitVec.ofNat 256 (0x10100 + n * 2 ^ 64 + (4 + rl * 2 ^ 24 + swz * 2 ^ 40 + rights * 2 ^ 42) * 2 ^ 128 + 2 ^ 191)
/-- A device whose crew holds a record in slot 0, and whose core translates the code page, which is readable and writable. -/
def benchM (r : Rcd) : State :=
  core (crew bench fun c => { c with recs := c.recs.set 0 r }) fun c => { c with tlb := [⟨0, 0x10000, 16, 0x10000, true, true, true, false⟩] }

/-- The strand that has the turn. -/
def issuer (s : State) : Who := s.who.getD ⟨0, 0, 0, placeWarp [], placeStrand 0 none, placeDom⟩

/-- An answer that is no error. -/
theorem ok_of {ε α : Type} {e : Except ε α} {a : α} (h : e.toOption = some a) : e = .ok a := by
  cases e with
  | error _ => cases h
  | ok b => exact congrArg Except.ok (Option.some.inj h)

/-- An answer that is an error. -/
theorem err_of {ε α : Type} {e : Except ε α} {b : ε} (h : (match e with | .error b => some b | .ok _ => none) = some b) : e = .error b := by
  cases e with
  | error a => exact congrArg Except.error (Option.some.inj h)
  | ok _ => cases h

/-- Decides `Clear`. -/
def clearB (s : State) (x : Who) : Bool :=
  decide (s.who = some x) && (x.st.parked.all fun p => !p.1.byEvent) && x.st.stepArm != 2 && (x.st.pends.all fun p => p.left != 0) &&
    x.st.mem != 0 && (lanesOf x.st.em).all fun l => decide (l < x.width)

theorem clear_of {s : State} {x : Who} (h : clearB s x = true) : Clear s x := by
  simp only [clearB, Bool.and_eq_true, decide_eq_true_eq, bne_iff_ne, List.all_eq_true, Bool.not_eq_true', Option.all_eq_true] at h
  obtain ⟨⟨⟨⟨⟨h1, h2⟩, h3⟩, h4⟩, h5⟩, h6⟩ := h
  exact ⟨h1, h2, h3, h4, h5, h6⟩

/-- Decides `LaneOk` and `OperandsOk`. -/
def laneB (s : State) (x : Who) (d : OpD) (a : OwnAcc) (l : Nat) : Bool :=
  !a.bad &&
  ((a.reads ++ laneReads x d l).all fun w => !((s.core x.core).gran (w / 128)).own && ((s.core x.core).gran (w / 128)).val) &&
  ((a.writes ++ laneWrites x d l).all fun w => !((s.core x.core).gran (w / 128)).own) &&
  (laneConsumes x d l ++ a.reads).all fun w => (s.core x.core).mark w == 0

def operandsB (s : State) (x : Who) (d : OpD) (acc : OwnOf) (only : Mask) : Bool :=
  (queueFault x d).isNone && !busyDst s x d && !queueWait x d &&
  (x.st.em == 0 || (List.range 4).all fun q => decide (popCount d.srcs q ≤ (x.w.queues.getD q ⟨[], false⟩).entries.length)) &&
  (!d.pushes || !s.unfinished x.agent) && (x.st.em == 0 || !d.outside x) &&
  !Ready.fencedOff ⟨s, x, d, x.st.em &&& only, [], popEntries x.w.queues d.srcs⟩ acc && (lanesOf (x.st.em &&& only)).all fun l => laneB s x d (acc (readyOf s x d only) l) l

theorem lane_of {s : State} {x : Who} {d : OpD} {a : OwnAcc} {l : Nat} (h : laneB s x d a l = true) : LaneOk s x d a l := by
  simp only [laneB, Bool.and_eq_true, List.all_eq_true, Bool.not_eq_true', beq_iff_eq] at h
  obtain ⟨⟨⟨h1, h4⟩, h5⟩, h6⟩ := h
  exact ⟨h1, h4, h5, h6⟩

theorem operands_of {s : State} {x : Who} {d : OpD} {acc : OwnOf} {only : Mask} (h : operandsB s x d acc only = true)
    (e : ∀ l, acc ⟨s, x, d, x.st.em &&& only, [], popEntries x.w.queues d.srcs⟩ l = acc (readyOf s x d only) l) :
    OperandsOk s x d acc only := by
  simp only [operandsB, Bool.and_eq_true, List.all_eq_true, Bool.not_eq_true', Option.isNone_iff_eq_none, Bool.or_eq_true, beq_iff_eq] at h
  obtain ⟨⟨⟨⟨⟨⟨⟨h1, h2⟩, h3⟩, h4⟩, h5⟩, h7⟩, h8⟩, h6⟩ := h
  refine ⟨h1, h2, h3, fun hn q hq => ?_, fun hp => ?_, h7.resolve_left, h8, fun l hl => lane_of (h6 l hl), e⟩
  · exact of_decide_eq_true ((h4.resolve_left hn) q (List.mem_range.mpr hq))
  · rcases h5 with h5 | h5
    · rw [hp] at h5; cases h5
    · exact h5

/-- Decides `UOk`. -/
theorem u_of {s : State} {x : Who} {srcs : List (Opnd × Nat)} {dst : Option (Opnd × Nat)}
    (h : (x.st.em != 0 && operandsB s x (uD srcs dst) (uAcc x srcs) 0xFFFFFFFFFFFFFFFF) = true) : UOk s x srcs dst := by
  rw [Bool.and_eq_true, bne_iff_ne] at h
  exact ⟨h.1, operands_of h.2 fun _ => rfl⟩

/-- Decides `MemOk`. -/
def memB (s : State) (x : Who) (r : Rcd) (k : AccKind) (scope : Scope) (lanes : List (Nat × Word)) (off : Int) (z : Nat) : Bool :=
  r.wf && (k.lacks r).isNone && (scope != .system || (Tbl.find s.ctxs x.d.ctx).any Context.sys) && !r.swzBad &&
  (!r.fault || lanes.all fun p => (r.address (i32 p.2) off z).isSome) && ((inExtent r lanes off z).all fun p => p.2 % z == 0) &&
  (x.walked || (inExtent r lanes off z).all fun p => (s.tlbHit x.core x.d.ctx p.2).isSome) &&
  ((inExtent r lanes off z).all fun p => match s.translate x.core x.d.ctx p.2 with
    | .ok pa pr pw px => (k.need.missing pr pw px).isNone && (!tier2 pa || (k.tier2Bad z).isNone)
    | _ => false) && (inExtent r lanes off z).all fun p => (s.walkFound x.agent p.2).isNone

theorem mem_of {s : State} {x : Who} {r : Rcd} {k : AccKind} {scope : Scope} {lanes : List (Nat × Word)} {off : Int} {z : Nat}
    (h : memB s x r k scope lanes off z = true) : MemOk s x r k scope lanes off z := by
  simp only [memB, Bool.and_eq_true, List.all_eq_true, Bool.not_eq_true', Option.isNone_iff_eq_none, Bool.or_eq_true, beq_iff_eq,
    bne_iff_ne] at h
  obtain ⟨⟨⟨⟨⟨⟨⟨⟨h1, h2⟩, h3⟩, h4⟩, h5⟩, h6⟩, h7⟩, h8⟩, h9⟩ := h
  refine ⟨h1, h2, fun e => h3.resolve_left (· e), h4, fun e p hp => ?_, h6, fun e p hp => ?_, fun p hp => ?_, h9⟩
  · rcases h5 with h5 | h5
    · rw [e] at h5; cases h5
    · exact h5 p hp
  · rcases h7 with h7 | h7
    · rw [e] at h7; cases h7
    · exact h7 p hp
  · have h := h8 p hp
    revert h
    cases s.translate x.core x.d.ctx p.2 with
    | ok pa pr pw px =>
      intro h
      simp only [Bool.and_eq_true, Option.isNone_iff_eq_none, Bool.or_eq_true, Bool.not_eq_true'] at h
      refine ⟨pa, pr, pw, px, rfl, h.1, fun e => ?_⟩
      rcases h.2 with h' | h'
      · rw [e] at h'; cases h'
      · exact h'
    | _ => intro h; cases h

end Sys2Proof.Tests
end

