-- ==== Sys2Proof/Tests/Meets0.lean ====
section
/-! SUPPORT. For the statements about classes 0, 1 and 2: for each clause, a state and operands that meet its hypotheses together, at an
edge of their range. -/

namespace Sys2Proof.Tests

set_option Elab.async false

open Sys2Proof.Machine

/-! ## Classes 0 and 1 -/

/-- v2 and v3 of lane 0. -/
def two (a b : Word) : State := vec (vec bench 2 a) 3 b
/-- The same with ACR. -/
def twoAcr (acr : Dword) (a b : Word) : State := csrs (two a b) fun c => { c with acr := acr }

/-- `add.i32 v1, v2, v3` of 0x7FFFFFFF and 1, which overflows, with EOV clear. -/
theorem test_meets_integer_short : ∃ i q s x, intRule i = some q ∧ q.la = none ∧ Clear s x ∧ OperandsOk s x q.d ∧
    noIntTrap x (q.dz (readyOf s x q.d)) (q.ov (readyOf s x q.d)) ∧ q.ov (readyOf s x q.d) ≠ 0 :=
  ⟨.add ⟨.i32, false, .v 1, .v 2, .v 3⟩, _, two 0x7FFFFFFF 1, issuer (two 0x7FFFFFFF 1), rfl, rfl, clear_of (by decide +kernel),
    operands_of (by decide +kernel) fun _ => rfl, by unfold noIntTrap; decide +kernel, by decide +kernel⟩
/-- `div.i32 ~0 v1, v2, v3` of 7 by 0, with EDZ clear. -/
theorem test_meets_integer_long : ∃ i q la s x, intRule i = some q ∧ q.la = some la ∧ Clear s x ∧ OperandsOk s x q.d ∧
    noIntTrap x (q.dz (readyOf s x q.d)) (q.ov (readyOf s x q.d)) ∧ q.dz (readyOf s x q.d) ≠ 0 :=
  ⟨.div ⟨0, .i32, .v 1, .v 2, .v 3⟩, _, _, two 7 0, issuer (two 7 0), rfl, rfl, clear_of (by decide +kernel),
    operands_of (by decide +kernel) fun _ => rfl, by unfold noIntTrap; decide +kernel, by decide +kernel⟩
/-- The same with EDZ set. -/
theorem test_meets_integer_dz : ∃ i q s x, intRule i = some q ∧ Clear s x ∧ OperandsOk s x q.d ∧ acrEdz x.d.csrs.acr = true ∧
    q.dz (readyOf s x q.d) ≠ 0 :=
  ⟨.div ⟨0, .i32, .v 1, .v 2, .v 3⟩, _, twoAcr 0x100 7 0, issuer (twoAcr 0x100 7 0), rfl, clear_of (by decide +kernel),
    operands_of (by decide +kernel) fun _ => rfl, by decide +kernel, by decide +kernel⟩
/-- The overflow with EOV set. -/
theorem test_meets_integer_ov : ∃ i q s x, intRule i = some q ∧ Clear s x ∧ OperandsOk s x q.d ∧
    ¬ (acrEdz x.d.csrs.acr = true ∧ q.dz (readyOf s x q.d) ≠ 0) ∧ acrEov x.d.csrs.acr = true ∧ q.ov (readyOf s x q.d) ≠ 0 :=
  ⟨.add ⟨.i32, false, .v 1, .v 2, .v 3⟩, _, twoAcr 0x300 0x7FFFFFFF 1, issuer (twoAcr 0x300 0x7FFFFFFF 1), rfl, clear_of (by decide +kernel),
    operands_of (by decide +kernel) fun _ => rfl, by decide +kernel, by decide +kernel, by decide +kernel⟩
/-- Both widths. -/
theorem test_meets_formulas : (∃ t, 32 = ibits t) ∧ ∃ t, 64 = ibits t := ⟨⟨.n32, rfl⟩, ⟨.i64, rfl⟩⟩
/-- `addcy.n32` of 0xFFFFFFFF and 1. -/
theorem test_meets_carry : ∃ i f g s x, carryRule i = some (f, g) ∧ Clear s x ∧
    OperandsOk s x { srcs := src2 f.ty f.a f.b, dst := some (f.d, tyWords f.ty), masked := true } :=
  ⟨.addcy ⟨.n32, .v 1, .v 2, .v 3, 7⟩, _, _, two 0xFFFFFFFF 1, issuer (two 0xFFFFFFFF 1), rfl, clear_of (by decide +kernel),
    operands_of (by decide +kernel) fun _ => rfl⟩
/-- `fcmp.lt` of a NaN, with IV not enabled. -/
theorem test_meets_mask : ∃ i q s x, maskRule i = some q ∧ Clear s x ∧ OperandsOk s x { srcs := q.srcs } ∧
    noFpTrap (readyOf s x { srcs := q.srcs }) (q.fl (readyOf s x { srcs := q.srcs })) :=
  ⟨.fcmp ⟨.lt, false, false, 7, .v 2, .v 3⟩, _, two 0x7FC00000 1, issuer (two 0x7FC00000 1), rfl, clear_of (by decide +kernel),
    operands_of (by decide +kernel) fun _ => rfl, by unfold noFpTrap; decide +kernel⟩
/-- `fadd` of two infinities of unlike sign, IV not enabled. -/
theorem test_meets_floating_short : ∃ i q s x, fpRule i = some q ∧ q.la = none ∧ Clear s x ∧ OperandsOk s x q.d ∧
    noFpTrap (readyOf s x q.d) (q.fl (readyOf s x q.d)) :=
  ⟨.fadd ⟨.f32, .dflt, false, false, .v 1, .v 2, .v 3, .zero⟩, _, two 0x7F800000 0xFF800000, issuer (two 0x7F800000 0xFF800000), rfl, rfl,
    clear_of (by decide +kernel), operands_of (by decide +kernel) fun _ => rfl, by unfold noFpTrap; decide +kernel⟩
/-- `rcp` of 0, DZ not enabled. -/
theorem test_meets_floating_long : ∃ i q la s x, fpRule i = some q ∧ q.la = some la ∧ Clear s x ∧ OperandsOk s x q.d ∧
    noFpTrap (readyOf s x q.d) (q.fl (readyOf s x q.d)) :=
  ⟨.rcp ⟨15, .f32, false, false, .v 1, .v 2⟩, _, _, two 0 0, issuer (two 0 0), rfl, rfl, clear_of (by decide +kernel),
    operands_of (by decide +kernel) fun _ => rfl, by unfold noFpTrap; decide +kernel⟩
/-- `fmul` of the two greatest numbers raises OF and NX; with NX alone enabled, bit 4 is the lowest enabled flag. -/
theorem test_meets_floating_trap : ∃ i q s x b, fpRule i = some q ∧ Clear s x ∧ OperandsOk s x q.d ∧ b < 5 ∧
    (acrFtrap x.d.csrs.acr).testBit b = true ∧ maskWhere (readyOf s x q.d).counted (fun l => (q.fl (readyOf s x q.d) l).testBit b) ≠ 0 ∧
    ∀ c, c < b → (acrFtrap x.d.csrs.acr).testBit c = true →
      maskWhere (readyOf s x q.d).counted (fun l => (q.fl (readyOf s x q.d) l).testBit c) = 0 :=
  ⟨.fmul ⟨.f32, .dflt, false, false, .v 1, .v 2, .v 3, .zero⟩, _, twoAcr 0x80 0x7F7FFFFF 0x7F7FFFFF, issuer (twoAcr 0x80 0x7F7FFFFF 0x7F7FFFFF), 4,
    rfl, clear_of (by decide +kernel), operands_of (by decide +kernel) fun _ => rfl, by decide, by decide +kernel, by decide +kernel,
    by decide +kernel⟩
/-- `bcast` from lane 3, and `redux.add` of three numbers of a member mask. -/
theorem test_meets_cross_lane : ∃ i q s x, laneRule i = some q ∧ Clear s x ∧ OperandsOk s x q.d (q.acc x) (q.only x) ∧
    noFpTrap (readyOf s x q.d (q.only x)) (q.fl (readyOf s x q.d (q.only x))) :=
  ⟨.bcast ⟨.n32, .v 1, .v 2, .v 3, .v 4, .all⟩, _, two 5 3, issuer (two 5 3), rfl, clear_of (by decide +kernel),
    operands_of (by decide +kernel) fun _ => rfl, by unfold noFpTrap; decide +kernel⟩

/-! ## Class 2 -/

/-- `ld.b32 ~0 v1, b0[v2+0]` through a record of 16 bytes: lane 0 reads its last word, and the others read word 0. -/
def loadF : MemF := ⟨0, .v 1, .v 2, 0, .b32, false, .warp, .plain, 0⟩
/-- A device with the record, and v2 of lane 0. -/
def mem1 (r : Rcd) (v : Word) : State := vec (benchM r) 2 v

theorem test_meets_load : ∃ i q s x, loadRule i = some q ∧ (∀ f, i = .waita f → waitaOk f = true ∧ x.st.em ≠ 0) ∧ Clear s x ∧
    OperandsOk s x q.d (q.own x) ∧ MemOk s x (s.rcdOf x q.rcd) (q.kind (readyOf s x q.d)) q.scope (q.lanes (readyOf s x q.d)) q.off q.z :=
  ⟨.ld loadF, _, mem1 (buffer 16 7) 3, issuer (mem1 (buffer 16 7) 3), rfl, fun _ h => (by cases h), clear_of (by decide +kernel),
    operands_of (by decide +kernel) fun _ => rfl, mem_of (by decide +kernel)⟩
/-- A `waita` with a lane. -/
theorem test_meets_waita : ∃ f q s x, loadRule (.waita f) = some q ∧ waitaOk f = true ∧ x.st.em ≠ 0 ∧ Clear s x ∧
    OperandsOk s x q.d (q.own x) ∧ MemOk s x (s.rcdOf x q.rcd) (q.kind (readyOf s x q.d)) q.scope (q.lanes (readyOf s x q.d)) q.off q.z :=
  ⟨⟨0, .v 4, .v 2, 0, .b32, false, .device, .acq, 0⟩, _, mem1 (buffer 16 7) 3, issuer (mem1 (buffer 16 7) 3), rfl, by decide, by decide +kernel,
    clear_of (by decide +kernel), operands_of (by decide +kernel) fun _ => rfl, mem_of (by decide +kernel)⟩
/-- A store of the last word. -/
theorem test_meets_store : ∃ i q s x, storeRule i = some q ∧ x.replaying = false ∧ Clear s x ∧ OperandsOk s x q.d (q.own x) (q.only x) ∧
    MemOk s x (s.rcdOf x q.rcd) (q.kind (readyOf s x q.d (q.only x))) q.scope (q.lanes (readyOf s x q.d (q.only x))) q.off q.z :=
  ⟨.st loadF, _, mem1 (buffer 16 7) 3, issuer (mem1 (buffer 16 7) 3), rfl, by decide +kernel, clear_of (by decide +kernel),
    operands_of (by decide +kernel) fun _ => rfl, mem_of (by decide +kernel)⟩
/-- The four conditions of MemoryTraps: record 0 is not VALID; it grants no right; the scope is system in a context without it; its row
length is 0. -/
theorem test_meets_trap_record : ∃ i q s x, loadRule i = some q ∧ x.replaying = false ∧ Clear s x ∧ OperandsOk s x q.d (q.own x) (q.only x) ∧
    (s.rcdOf x q.rcd).wf = false :=
  ⟨.ld loadF, _, mem1 0 3, issuer (mem1 0 3), rfl, by decide +kernel, clear_of (by decide +kernel), operands_of (by decide +kernel) fun _ => rfl,
    by decide +kernel⟩
theorem test_meets_trap_right : ∃ i q s x d, storeRule i = some q ∧ Clear s x ∧ OperandsOk s x q.d (q.own x) (q.only x) ∧
    (s.rcdOf x q.rcd).wf = true ∧ (q.kind (readyOf s x q.d (q.only x))).lacks (s.rcdOf x q.rcd) = some d :=
  ⟨.st loadF, _, mem1 (buffer 16 5) 3, issuer (mem1 (buffer 16 5) 3), 0, rfl, clear_of (by decide +kernel),
    operands_of (by decide +kernel) fun _ => rfl, by decide +kernel, by decide +kernel⟩
/-- A context without scope system. -/
def noSys : State := { mem1 (buffer 16 7) 3 with ctxs := [(0, { placeCtx with sys := false })] }
theorem test_meets_trap_scope : ∃ i q s x, loadRule i = some q ∧ Clear s x ∧ OperandsOk s x q.d (q.own x) (q.only x) ∧
    (s.rcdOf x q.rcd).wf = true ∧ (q.kind (readyOf s x q.d (q.only x))).lacks (s.rcdOf x q.rcd) = none ∧ q.scope = .system ∧
    ((Tbl.find s.ctxs x.d.ctx).any Context.sys) = false :=
  ⟨.ld { loadF with scope := .system, ord := .acq }, _, noSys, issuer noSys, rfl, clear_of (by decide +kernel),
    operands_of (by decide +kernel) fun _ => rfl, by decide +kernel, by decide +kernel, rfl, by decide +kernel⟩
theorem test_meets_trap_swizzle : ∃ i q s x, loadRule i = some q ∧ Clear s x ∧ OperandsOk s x q.d (q.own x) (q.only x) ∧
    (s.rcdOf x q.rcd).wf = true ∧ (q.kind (readyOf s x q.d (q.only x))).lacks (s.rcdOf x q.rcd) = none ∧
    (q.scope = .system → ((Tbl.find s.ctxs x.d.ctx).any Context.sys) = true) ∧ (s.rcdOf x q.rcd).swzBad = true :=
  ⟨.ld loadF, _, mem1 (buffer 16 7 1 0) 3, issuer (mem1 (buffer 16 7 1 0) 3), rfl, clear_of (by decide +kernel),
    operands_of (by decide +kernel) fun _ => rfl, by decide +kernel, by decide +kernel, fun h => (by cases h), by decide +kernel⟩
/-- A `waita` of a byte. -/
theorem test_meets_trap_waita : ∃ f s x, Clear s x ∧ waitaOk f = false :=
  ⟨{ loadF with width := .b8 }, bench, issuer bench, clear_of (by decide +kernel), rfl⟩
/-- A `waita` of a strand without lanes; a fence with nothing outstanding, and with a store that is not acknowledged; a prefetch. -/
def lanes0 (s : State) : State := strand s fun st => { st with em := 0 }
theorem test_meets_waita_none : ∃ s x f, Clear s x ∧ waitaOk f = true ∧ x.st.em = 0 ∧
    OperandsOk s x { srcs := [(f.data, 4), (f.idx, 1)], dst := some (f.data, 4), carry := [0] }
      (fun r l => if l = r.low then ⟨false, srcAddrs x f.data 3 l, []⟩ else OwnAcc.none) :=
  ⟨lanes0 bench, issuer (lanes0 bench), { loadF with data := .v 4 }, clear_of (by decide +kernel), by decide, by decide +kernel,
    operands_of (by decide +kernel) fun _ => rfl⟩
/-- A store of the strand, to 4 bytes at 0x10100: not yet performed, or performed. -/
def storeAcc (done : Bool) : Access :=
  ⟨.strand 0 0, 0, .store, 4, false, 0, [⟨0, 0x10100, 0x10100, [1, 2, 3, 4], 0, 0, 0, []⟩], [], none, false, done, false, 0, 0, 0⟩
def withStore (done : Bool) : State := { bench with accs := [(5, storeAcc done)], nextId := 6 }
/-- A fence may draw, may not, and has something outstanding; the context lacks scope system. -/
theorem test_meets_fence : (∃ s x, Clear s x ∧ s.settled x.agent = true ∧ s.weirOpen (Config.fencePort s.tick) (s.classOf x.agent) 64 = true) ∧
    (∃ s x, Clear s x ∧ s.settled x.agent = false) ∧
    ∃ s x, Clear s x ∧ ((Tbl.find s.ctxs x.d.ctx).any Context.sys) = false :=
  ⟨⟨bench, issuer bench, clear_of (by decide +kernel), by decide +kernel, by decide +kernel⟩,
    ⟨withStore true, issuer (withStore true), clear_of (by decide +kernel), by decide +kernel⟩,
    ⟨noSys, issuer noSys, clear_of (by decide +kernel), by decide +kernel⟩⟩
/-- The class of the strand has 63 bytes left at the port that a fence draws from. -/
def dry : State := { bench with weirs := [⟨Config.fencePort bench.tick, (bench.classOf (.strand 0 0)).1, (bench.classOf (.strand 0 0)).2, 100, 63⟩] }
theorem test_meets_fence_dry : ∃ s x, Clear s x ∧ s.settled x.agent = true ∧
    s.weirOpen (Config.fencePort s.tick) (s.classOf x.agent) 64 = false :=
  ⟨dry, issuer dry, clear_of (by decide +kernel), by decide +kernel, by
    have h : dry.classOf (issuer dry).agent = bench.classOf (.strand 0 0) := by decide +kernel
    rw [h]; simp [State.weirOpen, dry]⟩
theorem test_meets_prefetch : ∃ s x f, Clear s x ∧ OperandsOk s x { srcs := [(PfchF.idx f, 1)] } ∧ (s.rcdOf x f.rcd).wf = true ∧
    (f.scope = .system → ((Tbl.find s.ctxs x.d.ctx).any Context.sys) = true) :=
  ⟨benchM (buffer 16 0), issuer (benchM (buffer 16 0)), ⟨.v 2, 0, .b32, .system, 0⟩, clear_of (by decide +kernel),
    operands_of (by decide +kernel) fun _ => rfl, by decide +kernel, fun _ => by decide +kernel⟩
/-- The buffer table of a warp holds one record at 0x10100, and index 0 is below NREC. -/
def recTable : State := poke (dom (benchM 0) fun d => { d with recp := 0x10100, nrec := 1 }) 0x10100 32 (buffer 16 7).toNat
theorem test_meets_brld : ∃ s x f r pa, Clear s x ∧ x.st.dom = 0 ∧ r = readyOf s x { srcs := [(BrldF.idx f, 1)] } ∧
    OperandsOk s x { srcs := [(f.idx, 1)] } ∧ r.val 0 r.low < x.d.nrec ∧
    (s.translate x.core x.d.ctx (x.d.recp + 32 * r.val 0 r.low)).need .read = .ok pa ∧ Rcd.wf (BitVec.ofNat 256 (s.readNat pa 32)) = true :=
  ⟨recTable, issuer recTable, ⟨31, .zero⟩, _, 0x10100, clear_of (by decide +kernel), by decide +kernel, rfl,
    operands_of (by decide +kernel) fun _ => rfl, by decide +kernel, by rfl, by decide +kernel⟩
/-- `brmk` of the whole of a record: offset 12 and extent 4 of 16 bytes. -/
def derive : State := pair (pair (benchM (buffer 16 7)) 4 12) 6 4
theorem test_meets_brmk : ∃ s x f r o e, Clear s x ∧ x.st.dom = 0 ∧ r = readyOf s x { srcs := [(.s (BrmkF.k f), 4)] } ∧
    OperandsOk s x { srcs := [(.s f.k, 4)] } ∧ o = r.num 0 0 2 r.low ∧ e = r.num 0 2 2 r.low ∧ (s.rcdOf x f.src).wf = true ∧
    o + e ≤ (s.rcdOf x f.src).extent ∧ ((s.rcdOf x f.src).swz ≠ 0 → o % (8 * (s.rcdOf x f.src).rl * (s.rcdOf x f.src).stride) = 0) ∧ 0 < e :=
  ⟨derive, issuer derive, ⟨1, 0, true, true, true, 4⟩, _, 12, 4, clear_of (by decide +kernel), by decide +kernel, rfl,
    operands_of (by decide +kernel) fun _ => rfl, by decide +kernel, by decide +kernel, by decide +kernel, by decide +kernel, by decide +kernel,
    by decide⟩

/-! ## The events of memory -/

theorem test_meets_store_performed : ∃ s id a order, RequestDue s id a order ∧ a.kind = .store ∧ leftOf a order = [] :=
  ⟨withStore false, 5, storeAcc false, [0], ⟨by decide +kernel, rfl, rfl, by decide +kernel, by decide +kernel, by decide +kernel, by decide +kernel, by decide +kernel, by decide +kernel⟩, rfl, rfl⟩
/-- Of two lanes, the second is performed first. -/
def twoLanes : Access :=
  ⟨.strand 0 0, 0, .store, 4, false, 0, [⟨0, 0x10100, 0x10100, [1, 2, 3, 4], 0, 0, 0, []⟩, ⟨1, 0x10104, 0x10104, [5, 6, 7, 8], 0, 0, 0, []⟩], [],
    none, false, false, false, 0, 0, 0⟩
def withTwo : State := { bench with accs := [(5, twoLanes)], nextId := 6 }
theorem test_meets_store_part : ∃ s id a order, RequestDue s id a order ∧ a.kind = .store ∧ leftOf a order ≠ [] :=
  ⟨withTwo, 5, twoLanes, [1], ⟨by decide +kernel, rfl, rfl, by decide +kernel, by decide +kernel, by decide +kernel, by decide +kernel, by decide +kernel, by decide +kernel⟩, rfl, by decide⟩
/-- A load of the strand for the words of v1, whose long-latency instruction is number 4. -/
def loadAcc (k : AccKind) : Access :=
  ⟨.strand 0 0, 0, k, 4, false, 0, [⟨0, 0x101FC, 0x101FC, [], 0, 0, 7, [(0, placeDom.lane 4 1 0)]⟩], [], some 4, false, false, false, 0, 0, 0⟩
def withLoad (k : AccKind) : State := { bench with accs := [(5, loadAcc k)], nextId := 6 }
theorem test_meets_load_performed : ∃ s id a order w i p, RequestDue s id a order ∧ a.kind = .load ∧ a.agent = .strand w i ∧ a.pend = some p :=
  ⟨withLoad .load, 5, loadAcc .load, [], 0, 0, 4, ⟨by decide +kernel, rfl, rfl, by decide +kernel, by decide +kernel, by decide +kernel, by decide +kernel, by decide +kernel, by decide +kernel⟩, rfl, rfl, rfl⟩
theorem test_meets_atomic_performed : ∃ s id a order l op, RequestDue s id a order ∧ a.lanes = [l] ∧ a.kind = .atom op :=
  ⟨withLoad (.atom .inc), 5, loadAcc (.atom .inc), [], _, .inc, ⟨by decide +kernel, rfl, rfl, by decide +kernel, by decide +kernel, by decide +kernel, by decide +kernel, by decide +kernel, by decide +kernel⟩, rfl, rfl⟩
theorem test_meets_cas_performed : ∃ s id a order l, RequestDue s id a order ∧ a.lanes = [l] ∧ a.kind = .cas :=
  ⟨withLoad .cas, 5, loadAcc .cas, [], _, ⟨by decide +kernel, rfl, rfl, by decide +kernel, by decide +kernel, by decide +kernel, by decide +kernel, by decide +kernel, by decide +kernel⟩, rfl, rfl⟩
/-- A long-latency instruction that pushes a word to q4, which has room for one more. -/
def pend1 : Pend := ⟨4, 0, [⟨placeDom.lane 4 1 0, 7, 0⟩], some (4, [⟨true, [1, 2, 3, 4]⟩]), 0, true, true, true, 0⟩
def landing : State :=
  warp (strand bench fun st => { st with pends := [pend1] }) fun w =>
    { w with queues := w.queues.set 4 ⟨List.replicate 15 ⟨false, [0]⟩, false⟩ }
theorem test_meets_completion : ∃ (s : State) (w i op : Nat) (x : Who) (p : Pend), s.strandAt w i = some x ∧ (x.st.pends.find? fun p => p.id == op && p.own) = some p ∧
    p.ready = true ∧ x.w.hasRoom p.push = true :=
  ⟨landing, 0, 0, 4, issuer landing, pend1, by decide +kernel, by decide +kernel, rfl, by decide +kernel⟩
/-- A performed store; a walk of 70,000 cycles; a `waita` of 16 cycles; a strand that has waited 2^20 cycles. -/
theorem test_meets_acknowledged : ∃ s id a, Tbl.find (State.accs s) id = some a ∧ a.kind = .store ∧ a.done = true :=
  ⟨withStore true, 5, storeAcc true, by decide +kernel, rfl, rfl⟩
def walking : State := { bench with walks := [(5, ⟨.strand 0 0, 0, 0, 0x20000, 0, none⟩)], time := 70000 }
theorem test_meets_walk : ∃ s id w, Tbl.find (State.walks s) id = some w ∧
    (((s.walks.filter fun p => dieOf p.2.core == dieOf w.core && p.2.ended.isNone).map Prod.fst).take 256).contains id = true ∧ s.isOut w.ctx = false ∧
    w.ended = none ∧ w.since + 70000 ≤ s.time :=
  ⟨walking, 5, ⟨.strand 0 0, 0, 0, 0x20000, 0, none⟩, by decide +kernel, by decide +kernel, by decide +kernel, rfl, by decide +kernel⟩
def waiting : State := { withLoad (.waita 16) with waiters := [⟨5, 0x101FC, 4, 0⟩], time := 16 }
theorem test_meets_waita_timeout : ∃ s a w, ((State.waiters s).find? fun w => (Tbl.find s.accs w.acc).any fun p => p.agent == a && match p.kind with
    | .waita t => decide (0 < t) && decide (p.since + t ≤ s.time)
    | _ => false) = some w := ⟨waiting, .strand 0 0, ⟨5, 0x101FC, 4, 0⟩, by decide +kernel⟩
/-- A strand parked for a reason at time 0, and now. -/
def parkedAt (r : Wait) (t : Nat) : State := { strand bench fun st => { st with parked := some (r, 0) } with time := t }
theorem test_meets_queue_watchdog : ∃ s w i x t, State.strandAt s w i = some x ∧ x.st.parked = some (.queue, t) ∧ t + 2 ^ 20 ≤ s.time ∧
    s.strandAwake x = true :=
  ⟨parkedAt .queue (2 ^ 20), 0, 0, issuer (parkedAt .queue (2 ^ 20)), 0, by decide +kernel, by decide +kernel, by decide +kernel, by decide +kernel⟩

end Sys2Proof.Tests
end

