-- ==== Sys2Proof/Tests/Meets1.lean ====
section
/-! SUPPORT. For the statements about class 3 and about gangs: for each clause, a state and operands that meet its hypotheses together,
at an edge of their range. -/

namespace Sys2Proof.Tests

set_option Elab.async false

open Sys2Proof.Machine

/-! ## Class 3 -/

/-- A tile of one granule, 8 rows of 16 words, in slot 31. -/
def tile1 : Tile := ⟨38, 8, 16, 4, 0⟩
def tiled : State := crew bench fun c => { c with tiles := [(31, tile1)] }
/-- Lane 0 names the last register of its frame. -/
def last : State := vec bench 2 959

theorem test_meets_ldx : ∃ i q s x, frameRule s x i = some q ∧ Clear s x ∧ OperandsOk s x q.d (q.acc x) :=
  ⟨.ldx ⟨.n32, false, .v 1, .v 2, .zero⟩, _, last, issuer last, rfl, clear_of (by decide +kernel), operands_of (by decide +kernel) fun _ => rfl⟩
/-- The last word of a tile. -/
def lastT : State := vec tiled 2 127
theorem test_meets_tget : ∃ q s x, frameRule s x (.tget ⟨.n32, .v 1, .v 2, 31⟩) = some q ∧ Clear s x ∧ OperandsOk s x q.d (q.acc x) :=
  ⟨_, lastT, issuer lastT, rfl, clear_of (by decide +kernel), operands_of (by decide +kernel) fun _ => rfl⟩
theorem test_meets_stx : ∃ i q s x, stxRule s x i = some q ∧ Clear s x ∧ OperandsOk s x q.d (fun r l => writesAt (q.at_ r l)) :=
  ⟨.stx ⟨.n32, false, .v 2, .zero, .v 3⟩, _, last, issuer last, rfl, clear_of (by decide +kernel), operands_of (by decide +kernel) fun _ => rfl⟩

/-- Scalars s4 and s5. -/
def sc (s : State) (a b : Word) : State := scal (scal s 4 a) 5 b
/-- `talloc` of slot 31 with the shape of 8 × 16 words: rows 7, columns 15, ESZ 2. -/
def allocs : State := sc bench 31 9159
theorem test_meets_talloc : ∃ s x f a g t, Clear s x ∧ UOk s x [(TallocF.a f, 1), (f.b, 1)] ∧ a = uVal s x [(f.a, 1), (f.b, 1)] none 0 ∧
    a < 32 ∧ shapeTile (uVal s x [(f.a, 1), (f.b, 1)] none 1) = some t ∧ s.tileAt x.w 8 x.st.dom a = none ∧
    (s.core x.core).findRun t.granules = some g :=
  ⟨allocs, issuer allocs, ⟨.s 4, .s 5, true⟩, 31, 39, ⟨0, 8, 16, 4, 0⟩, clear_of (by decide +kernel), u_of (by decide +kernel), by decide +kernel,
    by decide, by decide +kernel, by decide +kernel, by decide +kernel⟩
def tiledS (a b : Word) : State := sc tiled a b
theorem test_meets_tfree : ∃ s x f a t, Clear s x ∧ UOk s x [(TfreeF.a f, 1)] ∧ a = uVal s x [(f.a, 1)] none 0 ∧ a < 32 ∧
    (∃ k, s.tileAt x.w 8 x.st.dom a = some (x.st.dom, k, t)) ∧
    (∀ i, i < t.granules → ((s.core x.core).gran (t.gran + i)).inf = false ∧ ((s.core x.core).gran (t.gran + i)).own = false) ∧
    x.w.tileMapped x.st.dom a = false ∧
    ((Tbl.find s.crews x.w.crew).all fun c => c.warps.all fun i => (Tbl.find s.warps i).all fun w => !w.tileMapped 0 a) = true :=
  ⟨tiledS 31 0, issuer (tiledS 31 0), ⟨.s 4⟩, 31, tile1, clear_of (by decide +kernel), u_of (by decide +kernel), by decide +kernel, by decide,
    ⟨31, by decide +kernel⟩, by decide +kernel, by decide +kernel, by decide +kernel⟩
/-- A window of the frame's last register, read and landing rights, for the crew; and one that stands in slot 63, generation 0x3FFE. -/
def win1 : Win := ⟨0, 0, 0, 959, 1, true, true, true, .crew, 4, 0x3FFE⟩
def handle1 : Word := handleOf 0 63 0x3FFE
def windowed : State := core bench fun c => { c with wins := [(63, win1)], gens := [(63, 0x3FFE)] }
def windowedS : State := sc windowed handle1 31
def exports : State := sc bench 959 1
theorem test_meets_wexp : ∃ s x f k n slot, Clear s x ∧ UOk s x [(WexpF.a f, 1), (f.b, 1)] (some (f.d, 1)) ∧
    k = uVal s x [(f.a, 1), (f.b, 1)] (some (f.d, 1)) 0 ∧ n = uVal s x [(f.a, 1), (f.b, 1)] (some (f.d, 1)) 1 ∧
    (f.l = true → (pairCode f.c).isSome = true) ∧ 0 < n ∧ k + n ≤ x.d.fv ∧ (s.core x.core).freeSlot = some slot :=
  ⟨exports, issuer exports, ⟨.s 8, .s 4, .s 5, .s 46, true, false, true, .crew⟩, 959, 1, 0, clear_of (by decide +kernel), u_of (by decide +kernel),
    by decide +kernel, by decide +kernel, fun _ => rfl, by decide, by decide +kernel, by decide +kernel⟩
theorem test_meets_wrev : ∃ s x f h c slot w, Clear s x ∧ UOk s x [(WrevF.a f, 1)] ∧
    h = (readyOf s x (uD [(f.a, 1)])).word 0 0 (readyOf s x (uD [(f.a, 1)])).low ∧ s.window (dieOf x.core) h = some (c, slot, w) ∧
    w.warp = x.wid ∧ w.dom = x.st.dom ∧ s.winBusy c slot = false :=
  ⟨windowedS, issuer windowedS, ⟨.s 4⟩, handle1, 0, 63, win1, clear_of (by decide +kernel), u_of (by decide +kernel), by decide +kernel,
    by decide +kernel, by decide +kernel, by decide +kernel, by decide +kernel⟩
/-- Three grants already wait for the next call. -/
def granting (s : State) : State := strand s fun st => { st with grants := List.replicate 3 (.tile 0 0) }
theorem test_meets_wgrant_tile : ∃ s x f a b, Clear s x ∧ UOk s x [(WgrantF.a f, 1), (f.b, 1)] ∧ f.tile = true ∧
    a = uVal s x [(f.a, 1), (f.b, 1)] none 0 ∧ b = uVal s x [(f.a, 1), (f.b, 1)] none 1 ∧ a < 32 ∧ b < 32 ∧
    (s.tileAt x.w 8 x.st.dom a).isSome = true ∧ x.st.grants.length < 4 :=
  ⟨granting (tiledS 31 31), issuer (granting (tiledS 31 31)), ⟨.s 4, .s 5, false, false, false, true⟩, 31, 31, clear_of (by decide +kernel),
    u_of (by decide +kernel), rfl, by decide +kernel, by decide +kernel, by decide, by decide, by decide +kernel, by decide +kernel⟩
theorem test_meets_wgrant_window : ∃ s x f h c slot w, Clear s x ∧ UOk s x [(WgrantF.a f, 1), (f.b, 1)] ∧ f.tile = false ∧
    h = (readyOf s x (uD [(f.a, 1), (f.b, 1)])).word 0 0 (readyOf s x (uD [(f.a, 1), (f.b, 1)])).low ∧
    s.window (dieOf x.core) h = some (c, slot, w) ∧ w.warp = x.wid ∧ w.dom = x.st.dom ∧
    (f.r = true → w.r = true) ∧ (f.w = true → w.w = true) ∧ (f.l = true → w.l = true) ∧ (f.r || f.w || f.l) = true ∧ x.st.grants.length < 4 :=
  ⟨granting windowedS, issuer (granting windowedS), ⟨.s 4, .zero, true, true, true, false⟩, handle1, 0, 63, win1, clear_of (by decide +kernel),
    u_of (by decide +kernel), rfl, by decide +kernel, by decide +kernel, by decide +kernel, by decide +kernel, fun _ => rfl, fun _ => rfl,
    fun _ => rfl, rfl, by decide +kernel⟩

/-- `give` and `take` of the frame's last granule, 32 registers of four lanes. -/
def handed : State := sc bench 928 32
theorem test_meets_give : ∃ s x f l, Clear s x ∧ UOk s x [(GiveF.a f, 1), (f.b, 1)] ∧
    s.namedGrans x f.tile (uVal s x [(f.a, 1), (f.b, 1)] none 0) (uVal s x [(f.a, 1), (f.b, 1)] none 1) = .ok l ∧
    (∀ g ∈ l, ((s.core x.core).gran g).own = false) ∧ (∀ q ∈ s.wreqs, ∀ p ∈ q.2.words, p.2.done = false → p.1 = x.core → p.2.target / 128 ∉ l) ∧ l ≠ [] :=
  ⟨handed, issuer handed, ⟨.s 4, .s 5, .core, false⟩, [38], clear_of (by decide +kernel), u_of (by decide +kernel), ok_of (by decide +kernel), by decide +kernel,
    fun _ h => (by cases h), by decide⟩
/-- A granule with INF set, and one without. -/
def given (inf : Bool) : State := core handed fun c => c.setGran 38 ⟨true, inf, true, true⟩
theorem test_meets_take_busy : ∃ s x f l, Clear s x ∧ UOk s x [(TakeF.a f, 1), (f.b, 1)] (some (f.d, 1)) ∧
    s.namedGrans x f.tile (uVal s x [(f.a, 1), (f.b, 1)] (some (f.d, 1)) 0) (uVal s x [(f.a, 1), (f.b, 1)] (some (f.d, 1)) 1) = .ok l ∧
    ∃ g ∈ l, ((s.core x.core).gran g).inf = true :=
  ⟨given true, issuer (given true), ⟨.s 8, .s 4, .s 5, false⟩, [38], clear_of (by decide +kernel), u_of (by decide +kernel), ok_of (by decide +kernel),
    38, by decide, by decide +kernel⟩
theorem test_meets_take_idle : ∃ s x f l, Clear s x ∧ UOk s x [(TakeF.a f, 1), (f.b, 1)] (some (f.d, 1)) ∧
    s.namedGrans x f.tile (uVal s x [(f.a, 1), (f.b, 1)] (some (f.d, 1)) 0) (uVal s x [(f.a, 1), (f.b, 1)] (some (f.d, 1)) 1) = .ok l ∧
    ∀ g ∈ l, ((s.core x.core).gran g).inf = false :=
  ⟨given false, issuer (given false), ⟨.s 8, .s 4, .s 5, false⟩, [38], clear_of (by decide +kernel), u_of (by decide +kernel), ok_of (by decide +kernel),
    by decide +kernel⟩
/-- GEN 0x8000 and the wait for 1: the distance is 32,767. -/
def gens : State := scal (pair bench 46 (0x8000 * 2 ^ 48)) 5 1
theorem test_meets_waitg : ∃ s x f k, ∃ hk : k < 48, Clear s x ∧ pairCode (SyncF.a f) = some k ∧ UOk s x [(.s ⟨k, hk⟩, 2), (f.b, 1)] ∧
    s.pendingOn x.wid x.st.dom k = none ∧
    genReached (syncGen (s.pair x.core x.d k)) (uVal s x [(.s ⟨k, hk⟩, 2), (f.b, 1)] none 1 % 65536) = true :=
  ⟨gens, issuer gens, ⟨.s 46, .s 5⟩, 46, by decide, clear_of (by decide +kernel), rfl, u_of (by decide +kernel), by decide +kernel, by decide +kernel⟩
/-- The greatest target. -/
def target : State := scal bench 5 16777215
theorem test_meets_syncset : ∃ s x f k b, ∃ hk : k < 48, Clear s x ∧ pairCode (SyncF.a f) = some k ∧ UOk s x [(.s ⟨k, hk⟩, 2), (f.b, 1)] ∧
    b = uVal s x [(.s ⟨k, hk⟩, 2), (f.b, 1)] none 1 ∧ 0 < b ∧ b ≤ 16777215 ∧ s.pairBusy x.wid x.st.dom k = false :=
  ⟨target, issuer target, ⟨.s 46, .s 5⟩, 46, 16777215, by decide, clear_of (by decide +kernel), rfl, u_of (by decide +kernel), by decide +kernel,
    by decide, by decide, by decide +kernel⟩
theorem test_meets_qmark : ∃ s x, ∃ q : Fin 8, Clear s x ∧ x.st.dom = 0 ∧ 4 ≤ q.val := ⟨bench, issuer bench, 7, clear_of (by decide +kernel), rfl, by decide⟩

/-- `wrd` and `wwr` of lane 3 of the window's one register, by its own warp. -/
def remote : State := vec (scal (scal windowed 4 handle1) 5 3) 1 0
theorem test_meets_wrd : ∃ s x f, Clear s x ∧ OperandsOk s x (winD false f) ∧ Admitted s x false f :=
  ⟨remote, issuer remote, ⟨2, .n32, .v 6, .s 4, .zero, .s 5, .plain⟩, clear_of (by decide +kernel), operands_of (by decide +kernel) fun _ => rfl,
    by unfold Admitted; decide +kernel⟩
theorem test_meets_wwr : ∃ s x f, Clear s x ∧ OperandsOk s x (winD true f) ∧ Admitted s x true f :=
  ⟨remote, issuer remote, ⟨2, .n32, .v 6, .s 4, .zero, .s 5, .plain⟩, clear_of (by decide +kernel), operands_of (by decide +kernel) fun _ => rfl,
    by unfold Admitted; decide +kernel⟩
/-- Requests for a window word. -/
def wreq1 (w d : Bool) : WReq := ⟨.strand 0 0, 4, w, [(0, 63)], 0, [(0, ⟨0, placeDom.lane 4 959 3, 0, 7, 0, d⟩)], []⟩
def requested (w d : Bool) : State := { windowed with wreqs := [(5, wreq1 w d)] }
/-- Its one word is next, or it has none left. -/
theorem test_meets_window_request (w : Bool) : ∃ s id q i core l, Tbl.find (State.wreqs s) id = some q ∧ q.after.all s.performed = true ∧
    q.write = w ∧ q.next (Config.eventChoice s.tick) = some i ∧ q.words[i]? = some (core, l) := by
  refine ⟨requested w false, 5, wreq1 w false, 0, 0, _, by cases w <;> decide +kernel, rfl, rfl, ?_, rfl⟩
  have h : ∀ n, (wreq1 w false).next n = some 0 := fun n => by
    have : (List.range (wreq1 w false).words.length).filter (fun i => ((wreq1 w false).words[i]?).any fun p => !p.2.done) = [0] := by
      cases w <;> decide +kernel
    unfold WReq.next
    rw [this]
    simp [Nat.mod_one]
  exact h _
theorem test_meets_window_complete : ∃ s id q, Tbl.find (State.wreqs s) id = some q ∧ q.after.all s.performed = true ∧
    q.next (Config.eventChoice s.tick) = none :=
  ⟨requested true true, 5, wreq1 true true, by decide +kernel, rfl, by
    have : (List.range (wreq1 true true).words.length).filter (fun i => ((wreq1 true true).words[i]?).any fun p => !p.2.done) = [] := by
      decide +kernel
    unfold WReq.next
    rw [this]
    simp⟩
/-- `give` of the window's granule while the window's word is to be performed. -/
def giving : State := { handed with wreqs := [(5, wreq1 true false)] }
theorem test_meets_give_busy : ∃ s x f l, Clear s x ∧ UOk s x [(GiveF.a f, 1), (f.b, 1)] ∧
    s.namedGrans x f.tile (uVal s x [(f.a, 1), (f.b, 1)] none 0) (uVal s x [(f.a, 1), (f.b, 1)] none 1) = .ok l ∧
    (∀ g ∈ l, ((s.core x.core).gran g).own = false) ∧
    ∃ q ∈ s.wreqs, ∃ p ∈ q.2.words, p.2.done = false ∧ p.1 = x.core ∧ p.2.target / 128 ∈ l :=
  ⟨giving, issuer giving, ⟨.s 4, .s 5, .core, false⟩, [38], clear_of (by decide +kernel), u_of (by decide +kernel), ok_of (by decide +kernel),
    by decide +kernel, (5, wreq1 true false), List.mem_singleton.2 rfl, _, List.mem_singleton.2 rfl, rfl, by decide +kernel, by decide +kernel⟩
theorem test_meets_no_lane : ∃ s x, Clear s x ∧ x.st.em = 0 :=
  ⟨strand bench fun st => { st with em := 0 }, issuer (strand bench fun st => { st with em := 0 }), clear_of (by decide +kernel), by decide +kernel⟩

/-! ## Gangs -/

/-- Two crews of one span on clusters 0 and 1, with exchange key 1, so that warps 0 and 256 are partners. -/
def twin : State :=
  { bench with
    launches := [(0, { placeLaunch with desc := BitVec.ofNat 1024 (2 ^ 411 + 2 ^ 422) })]
    crews := Tbl.put (Tbl.mapVals bench.crews fun _ c => { c with clusters := [0, 1] }) 1
      { placeCrew ⟨0, none, List.replicate 32 0, [], none, none, none⟩ with core := 8, warps := [256], braid := 0, clusters := [0, 1] }
    warps := Tbl.put bench.warps 256 { placeWarp [(0, placeStrand 0x2001 (some ⟨0x2000, 1, 1, false, [0]⟩))] with crew := 1, cinb := 0 }
    cores := Tbl.put bench.cores 8 (bench.core 0) }
def xchF : XchF := ⟨3, .n32, .v 1, .v 2⟩
theorem test_meets_xch_self : ∃ s x f pw, Clear s x ∧ x.st.dom = 0 ∧ (∀ a, x.w.xchArr = some a → a.sid = x.sid) ∧
    OperandsOk s x (xchOps (XchF.ty f).wide f.d f.a) ∧ s.xchPartner x.wid x.w = .ok (x.wid, pw) :=
  ⟨bench, issuer bench, xchF, (issuer bench).w, clear_of (by decide +kernel), rfl, fun _ h => (by cases h), operands_of (by decide +kernel) fun _ => rfl,
    ok_of (by decide +kernel)⟩
/-- The partner has arrived, or has not. -/
def arrive : XchArr := ⟨0, 0, false, .v 1, .v 2, 0⟩
def met : State := { twin with warps := Tbl.upd twin.warps 256 fun w => { w with xchArr := some arrive } }
def partner (s : State) : Warp := (Tbl.find s.warps 256).getD (placeWarp [])
def partnerW (s : State) : Who := (s.strandAt 256 0).getD (issuer s)
theorem no_arr (s : State) (h : (issuer s).w.xchArr = none) : (issuer s).w.xchArr = none := h
theorem test_meets_xch_met : ∃ s x f pid pw a y, Clear s x ∧ x.st.dom = 0 ∧ (∀ a, x.w.xchArr = some a → a.sid = x.sid) ∧
    OperandsOk s x (xchOps (XchF.ty f).wide f.d f.a) ∧ s.xchPartner x.wid x.w = .ok (pid, pw) ∧ pid ≠ x.wid ∧ pw.xchArr = some a ∧
    s.strandAt pid a.sid = some y ∧ y.st.mem ≠ 0 ∧ pw.wlog = x.w.wlog ∧ a.wide = f.ty.wide ∧ OperandsOk s y (xchOps a.wide a.d a.a) :=
  ⟨met, issuer met, xchF, 256, partner met, arrive, partnerW met, clear_of (by decide +kernel), by decide +kernel, fun _ h => (by rw [no_arr met (by decide +kernel)] at h; cases h),
    operands_of (by decide +kernel) fun _ => rfl, ok_of (by decide +kernel), by decide +kernel, by decide +kernel, by decide +kernel, by decide +kernel, by decide +kernel, rfl,
    operands_of (by decide +kernel) fun _ => rfl⟩
theorem test_meets_xch_alone : ∃ s x f pid pw, Clear s x ∧ x.st.dom = 0 ∧ (∀ a, x.w.xchArr = some a → a.sid = x.sid) ∧
    OperandsOk s x (xchOps (XchF.ty f).wide f.d f.a) ∧ s.xchPartner x.wid x.w = .ok (pid, pw) ∧ pid ≠ x.wid ∧ pw.xchArr = none :=
  ⟨twin, issuer twin, xchF, 256, partner twin, clear_of (by decide +kernel), by decide +kernel, fun _ h => (by rw [no_arr twin (by decide +kernel)] at h; cases h),
    operands_of (by decide +kernel) fun _ => rfl, ok_of (by decide +kernel), by decide +kernel, by decide +kernel⟩
/-- A braid of two crews, each with a tile in slot 31; the other crew has arrived, or has not. -/
def rot : RrotArr := ⟨0, 31, 0, 0, false, 0, [], []⟩
def twin31 (arr : Option RrotArr) : State :=
  { twin with crews := twin.crews.map fun p => (p.1, { p.2 with tiles := [(31, tile1)], rrotArr := if p.1 = 0 then none else arr }) }
def crew0 (s : State) : Crew := (Tbl.find s.crews 0).getD (placeCrew ⟨0, none, [], [], none, none, none⟩)
def crew1 (s : State) : Crew := (Tbl.find s.crews 1).getD (crew0 s)
def rotState (arr : Option RrotArr) : State := (twin31 arr).setRrot 0 (some rot)
/-- What every clause about `rrot` needs. -/
def RrotHyps (s : State) (x : Who) (f : RrotF) (c : Crew) (t : Tile) (u : State) : Prop :=
  Clear s x ∧ x.st.dom = 0 ∧ s.crewOf x.w = some c ∧ x.w.winc = 0 ∧ (∀ a, c.rrotArr = some a → a.sid = x.sid ∧ a.going = false) ∧
  Tbl.find c.tiles f.tile.val = some t ∧ (∀ i, i < t.granules → ((s.core x.core).gran (t.gran + i)).own = false) ∧
  u = s.setRrot x.w.crew (some ⟨x.sid, f.tile.val, (c.rrotArr.map RrotArr.since).getD s.time, f.la.toNat, false, 0, [], []⟩) ∧
  (u.crewsWith fun q => q.braid == c.braid).length = dfield (u.descOf c) 424 422 + 1
theorem test_meets_rrot_met : ∃ s x f c t u, RrotHyps s x f c t u ∧
    (∀ q ∈ u.crewsWith fun q => q.braid == c.braid, (∃ a, q.2.rrotArr = some a ∧ a.going = false) ∧
      ∃ v, q.2.rrotTile = some v ∧ v.rows = t.rows ∧ v.cols = t.cols ∧ v.esz = t.esz) ∧
    ((u.crewsWith fun q => q.braid == c.braid).map Prod.fst).Nodup ∧ ((u.crewsWith fun q => q.braid == c.braid).map fun q => q.2.warp0).Nodup ∧
    ∀ q ∈ u.crewsWith fun q => q.braid == c.braid, Tbl.find u.crews q.1 = some q.2 := by
  refine ⟨twin31 (some rot), issuer (twin31 (some rot)), ⟨0, 31⟩, crew0 (twin31 (some rot)), tile1, rotState (some rot),
    ⟨clear_of (by decide +kernel), by decide +kernel, by decide +kernel, by decide +kernel, fun _ h => (by cases h), by decide +kernel,
      by decide +kernel, by decide +kernel, by decide +kernel⟩, ?_, by decide +kernel, by decide +kernel, by decide +kernel⟩
  have e : ((rotState (some rot)).crewsWith fun q => q.braid == (crew0 (twin31 (some rot))).braid) =
    [(0, crew0 (rotState (some rot))), (1, crew1 (rotState (some rot)))] := by decide +kernel
  rw [e]
  intro q hq
  rcases List.mem_cons.mp hq with rfl | hq
  · exact ⟨⟨rot, by decide +kernel, rfl⟩, tile1, by decide +kernel, rfl, rfl, rfl⟩
  · cases List.mem_singleton.mp hq
    exact ⟨⟨rot, by decide +kernel, rfl⟩, tile1, by decide +kernel, rfl, rfl, rfl⟩
theorem test_meets_rrot_alone : ∃ s x f c t u, RrotHyps s x f c t u ∧
    ∃ q ∈ u.crewsWith fun q => q.braid == c.braid, ∀ a, q.2.rrotArr = some a → a.going = true :=
  ⟨twin31 none, issuer (twin31 none), ⟨0, 31⟩, crew0 (twin31 none), tile1, rotState none,
    ⟨clear_of (by decide +kernel), by decide +kernel, by decide +kernel, by decide +kernel, fun _ h => (by cases h), by decide +kernel,
      by decide +kernel, by decide +kernel, by decide +kernel⟩, (1, crew1 (rotState none)), by decide +kernel, fun _ h => (by cases h)⟩

/-- The one warp of a crew stands at `bar.crew`, or, in superstep mode, at `bar.ss`. -/
def barred (k : BarKind) : State :=
  crew (strand bench fun st => { st with parked := some (.bar k, 0) }) fun c => { c with superstep := k == .ss }
def barWarp (k : BarKind) : Warp := (Tbl.find (barred k).warps 0).getD (placeWarp [])
theorem test_meets_barrier (k : BarKind) : ∃ s wid w c, Tbl.find (State.warps s) wid = some w ∧ s.crewOf w = some c ∧
    (∀ q ∈ s.barUnit w.crew c (barKindOf c.superstep k), q.2.rung = none ∧ q.2.rungQ = [] ∧ ∀ i ∈ q.2.warps, ∀ v, Tbl.find s.warps i = some v →
      s.arrived i v c.superstep (barKindOf c.superstep k) = true) ∧
    (∃ q ∈ s.barUnit w.crew c (barKindOf c.superstep k), ∃ i ∈ q.2.warps, ∃ v, Tbl.find s.warps i = some v ∧ v.ended = false) ∧
    (barKindOf c.superstep k = .ss ↔ k = .ss) ∧ (c.comm = true → s.spanQuiet c.span = true) := by
  refine ⟨barred k, 0, barWarp k, crew0 (barred k), by cases k <;> decide +kernel, by cases k <;> decide +kernel, ?_, ?_,
    by cases k <;> decide +kernel, by cases k <;> decide +kernel⟩
  · have e : (barred k).barUnit (barWarp k).crew (crew0 (barred k)) (barKindOf (crew0 (barred k)).superstep k) = [(0, crew0 (barred k))] := by
      cases k <;> decide +kernel
    rw [e]
    intro q hq
    cases List.mem_singleton.mp hq
    refine ⟨by cases k <;> decide +kernel, by cases k <;> decide +kernel, fun i hi v hv => ?_⟩
    have hi : i = 0 := by
      have : (crew0 (barred k)).warps = [0] := by cases k <;> decide +kernel
      rw [this] at hi; simpa using hi
    subst hi
    have hv : v = barWarp k := by
      have : Tbl.find (barred k).warps 0 = some (barWarp k) := by cases k <;> decide +kernel
      rw [this] at hv; exact (Option.some.inj hv).symm
    subst hv
    cases k <;> decide +kernel
  · exact ⟨(0, crew0 (barred k)), by cases k <;> decide +kernel, 0, by cases k <;> decide +kernel, barWarp k, by cases k <;> decide +kernel,
      by cases k <;> decide +kernel⟩
/-- The strand at its `bar`, alone in its crew. -/
theorem test_meets_bar : ∃ s x k c, Clear s x ∧ x.st.dom = 0 ∧ s.crewOf x.w = some c ∧ x.w.strands = [(x.sid, x.st)] ∧ x.w.deferred = [] ∧
    x.w.asides = [] ∧ x.w.ended = false ∧ s.undoneIds x.agent = [] ∧ x.wid ∈ c.warps ∧
    (barKindOf c.superstep k = .ss → c.comm = true → s.spanQuiet c.span = true) ∧
    s.barUnit x.w.crew c (barKindOf c.superstep k) = [(0, c)] ∧ c.rung = none ∧ c.rungQ = [] ∧ c.warps = [x.wid] :=
  ⟨bench, issuer bench, .crew, crew0 bench, clear_of (by decide +kernel), by decide +kernel⟩
def late (s : State) (t : Nat) : State := { s with time := t }
theorem test_meets_barrier_timeout : ∃ s w i t k x, State.strandAt s w i = some x ∧ x.st.parked = some (.bar k, t) ∧ t + 2 ^ 24 ≤ s.time ∧
    s.strandAwake x = true :=
  ⟨late (barred .span) (2 ^ 24), 0, 0, 0, .span, issuer (late (barred .span) (2 ^ 24)), by decide +kernel, by decide +kernel, by decide +kernel,
    by decide +kernel⟩
theorem test_meets_xch_deadline : ∃ s wid w a, Tbl.find (State.warps s) wid = some w ∧ w.xchArr = some a ∧ a.since + 14000 ≤ s.time ∧
    ∃ x, s.strandAt wid a.sid = some x ∧ s.strandAwake x = true :=
  ⟨late met 14000, 256, partner met, arrive, by decide +kernel, by decide +kernel, by decide +kernel, partnerW met, by decide +kernel,
    by decide +kernel⟩
theorem test_meets_rrot_deadline : ∃ s cid c, Tbl.find (State.crews s) cid = some c ∧
    (∃ q ∈ s.crewsWith fun q => q.braid == c.braid, ∃ a, q.2.rrotArr = some a ∧ a.going = false ∧ a.since + 14000 ≤ s.time) ∧
    s.awake (s.crewCtx c) = true :=
  ⟨late (twin31 (some rot)) 14000, 1, crew1 (twin31 (some rot)), by decide +kernel,
    ⟨(1, crew1 (twin31 (some rot))), by decide +kernel, rot, by decide +kernel, rfl, by decide +kernel⟩, by decide +kernel⟩
def rotGo : RrotArr := { rot with going := true, data := [(7, 0)], vals := [true] }
theorem test_meets_rrot_completion : ∃ s cid c a t, Tbl.find (State.crews s) cid = some c ∧ c.rrotArr = some a ∧ c.rrotTile = some t ∧
    a.going = true :=
  ⟨twin31 (some rotGo), 1, crew1 (twin31 (some rotGo)), rotGo, tile1, by decide +kernel, by decide +kernel, by decide +kernel, rfl⟩

end Sys2Proof.Tests
end

