-- ==== Sys2Proof/Tests/Meets2.lean ====
section
/-! SUPPORT. For the statements about class 4: for each clause, a state and operands that meet its hypotheses together, at an edge of their
range. -/

namespace Sys2Proof.Tests

set_option Elab.async false

open Sys2Proof.Machine

/-- A command that names pair 4 and status s2. -/
def hdr4 : EHdr := ⟨0, 4, 2⟩
/-- `tfill` of the frame's last granule: pattern in s8, offset s9 = 14,848, length s10 = 512. -/
def fillF : TfillF := ⟨8, 9, 10, false, 0⟩
def fill : State := core (scal (scal (scal bench 8 7) 9 14848) 10 512) fun c => c.setGran 38 ⟨true, false, true, true⟩
/-- A queue of n commands. -/
def queued (s : State) (n : Nat) : State := core s fun c => { c with cmds := List.replicate n 99 }

theorem test_meets_engine (n : Nat) (h : n = 15 ∨ n = 16) : ∃ i h b s x, engInstr i = some (h, b) ∧ Clear s x ∧
    (∀ f, b = .copy f → f.thn = false) ∧ EngOk s x.iss h (engReads s x.iss b) (engChk s x.iss b) (engWrites b) ∧ LastOk s x.iss h b ∧
    (s.core x.core).cmds.length = n := by
  rcases h with rfl | rfl
  · exact ⟨.tfill hdr4 fillF, _, _, queued fill 15, issuer (queued fill 15), rfl, clear_of (by decide +kernel), fun _ h => (by cases h),
      ⟨by decide +kernel, by decide +kernel, by decide +kernel, by decide +kernel, by decide +kernel, by decide +kernel, by decide +kernel,
        by decide +kernel, by decide +kernel⟩, ⟨by decide +kernel, by decide +kernel, by decide +kernel⟩, by decide +kernel⟩
  · exact ⟨.tfill hdr4 fillF, _, _, queued fill 16, issuer (queued fill 16), rfl, clear_of (by decide +kernel), fun _ h => (by cases h),
      ⟨by decide +kernel, by decide +kernel, by decide +kernel, by decide +kernel, by decide +kernel, by decide +kernel, by decide +kernel,
        by decide +kernel, by decide +kernel⟩, ⟨by decide +kernel, by decide +kernel, by decide +kernel⟩, by decide +kernel⟩

/-- `mma` of one element over K = 32, both operands streamed from address 0, in E4M3: descriptor 1 stands at 0x10140, accumulator in t4. -/
def mmaF : MmaF := ⟨0, 0, 5, 1, 1, true, 14, true, 14, 4, false, false, 12, 0⟩
def desc1 : TDesc := BitVec.ofNat 256 (2 ^ 63 + 7 * 2 ^ 58 + 63 * 2 ^ 17)
def tile4 : Tile := ⟨38, 8, 16, 4, 0⟩
def matrix (k : Word) : State :=
  core (poke (scal (crew (dom (benchM (buffer 4096 7)) fun d => { d with descp := 0x10100 }) fun c => { c with tiles := [(4, tile4)] }) 12 k)
    0x10140 32 desc1.toNat) fun c => c.setGran 38 ⟨true, false, true, true⟩
theorem test_meets_mma : ∃ s x h m a b ct, Clear s x ∧ EngOk s x.iss h (mmaReads m) (s.mmaChk x.iss m) ∧ MmaOk s x.iss m [] a b ct ∧
    (s.core x.core).cmds.length < 16 :=
  ⟨queued (matrix 32) 15, issuer (queued (matrix 32) 15), hdr4, mmaF, desc1, desc1, tile4, clear_of (by decide +kernel),
    ⟨by decide +kernel, by decide +kernel, by decide +kernel, by decide +kernel, by decide +kernel, by decide +kernel, by decide +kernel,
      by decide +kernel, by decide +kernel⟩,
    ⟨by decide +kernel, by decide +kernel, by decide +kernel, ok_of (by decide +kernel), ok_of (by decide +kernel), by decide +kernel, by decide +kernel⟩,
    by decide +kernel⟩
/-- `copy` with THN of one granule's 512 bytes through b0 to the frame's granule 37 (offset 14,336), in a clause with the `mma` behind it. -/
def copyF : CopyF := ⟨0, 5, true, 0, 0, 16, 9, 20, false, 0, false, 0⟩
def thenClause : Clause := ⟨0x2000, 4, 4, false, Codec.encode (.copy hdr4 copyF) ++ Codec.encode (.mma hdr4 mmaF)⟩
def thenState : State :=
  queued (core (scal (scal (scal (strand (matrix 32) fun st => { st with clause := some thenClause }) 9 14336) 20 512) 21 1) fun c =>
    c.setGran 37 ⟨true, false, true, true⟩) 14
theorem test_meets_copy_then : ∃ s x h m a b ct ch f, Clear s x ∧ EngOk s x.iss h (mmaReads m) (s.mmaChk x.iss m) ∧ CopyF.thn f = true ∧ (∀ p ∈ x.st.pends, p.left ≠ 1) ∧
    EngOk s x.iss ch (copyReads f) (s.copyChk x.iss f) ∧ SizesOk s x.iss (s.copyChk x.iss f) ∧ x.nextMma = some (h, m) ∧
    MmaOk s x.iss m (s.copyChk x.iss f).land a b ct ∧ (s.core x.core).cmds.length < 15 :=
  ⟨thenState, issuer thenState, hdr4, mmaF, desc1, desc1, tile4, hdr4, copyF, clear_of (by decide +kernel),
    ⟨by decide +kernel, by decide +kernel, by decide +kernel, by decide +kernel, by decide +kernel, by decide +kernel, by decide +kernel,
      by decide +kernel, by decide +kernel⟩, rfl, by decide +kernel,
    ⟨by decide +kernel, by decide +kernel, by decide +kernel, by decide +kernel, by decide +kernel, by decide +kernel, by decide +kernel,
      by decide +kernel, by decide +kernel⟩,
    ⟨by decide +kernel, by decide +kernel, by decide +kernel⟩, by decide +kernel,
    ⟨by decide +kernel, by decide +kernel, by decide +kernel, ok_of (by decide +kernel), ok_of (by decide +kernel), by decide +kernel, by decide +kernel⟩,
    by decide +kernel⟩

/-! ## The rows of R198 that trap -/

/-- SYNC 47; a status scalar within a busy pair; a poisoned operand; a count of 0; a status within the pair; a record that is not valid; one without
the right; a tile that is not allocated; a granule that the warps own; one in flight for another pair. -/
def TrapHyps (i : Instr) (h : EHdr) (b : EngBody) (s : State) (x : Who) (c : EngChk) : Prop :=
  engInstr i = some (h, b) ∧ Clear s x ∧ c = engChk s x.iss b
theorem test_meets_engine_pair : ∃ i h b s x c, TrapHyps i h b s x c ∧ (h.sync.toNat % 2 = 1 ∨ 46 < h.sync.toNat) :=
  ⟨.tfill ⟨0, 47, 2⟩ fillF, _, _, fill, issuer fill, _, ⟨rfl, clear_of (by decide +kernel), rfl⟩, by decide⟩
/-- The command of `fill` outstanding, whose pair is busy. -/
def fillCmd : Cmd := newCmd fill (issuer fill).iss hdr4 (.tfill fillF) (engTake fill (issuer fill).iss (.tfill fillF)) 1 none none
def filling : State :=
  { core fill fun c => { (c.setGran 38 ⟨true, true, true, true⟩) with cmds := [5] } with cmds := [(5, fillCmd)], nextId := 6 }
theorem test_meets_engine_busy : ∃ i h b s x c, TrapHyps i h b s x c ∧ h.sync.toNat % 2 = 0 ∧ h.sync.toNat ≤ 46 ∧
    s.scalarBusy x.wid x.st.dom h.stat.val = true ∧ h.stat.val ≠ h.sync.toNat ∧ h.stat.val ≠ h.sync.toNat + 1 :=
  ⟨.tfill ⟨0, 46, 4⟩ fillF, _, _, filling, issuer filling, _, ⟨rfl, clear_of (by decide +kernel), rfl⟩, by decide, by decide,
    by decide +kernel, by decide, by decide⟩
def poisoned : State := core fill fun c => { c with marks := [(placeDom.scal 9, 0x54)] }
theorem test_meets_engine_poison : ∃ i h b s x c k pre post, TrapHyps i h b s x c ∧ h.sync.toNat % 2 = 0 ∧ h.sync.toNat ≤ 46 ∧
    s.scalarBusy x.wid x.st.dom h.stat.val = false ∧ (engReads s x.iss b).filter (fun k => decide (k < 48)) = pre ++ k :: post ∧
    (∀ j ∈ pre, (s.core x.core).mark (x.d.scal j) = 0) ∧ (s.core x.core).mark (x.d.scal k) ≠ 0 :=
  ⟨.tfill hdr4 fillF, _, _, poisoned, issuer poisoned, _, 9, [8], [10], ⟨rfl, clear_of (by decide +kernel), rfl⟩, by decide, by decide,
    by decide +kernel, by decide +kernel, by decide +kernel, by decide +kernel⟩
/-- What the later rows share: a good pair, a status that is not busy, and clean operands. -/
def Later (i : Instr) (h : EHdr) (b : EngBody) (s : State) (x : Who) (c : EngChk) : Prop :=
  TrapHyps i h b s x c ∧ h.sync.toNat % 2 = 0 ∧ h.sync.toNat ≤ 46 ∧ s.scalarBusy x.wid x.st.dom h.stat.val = false ∧
  ∀ k ∈ engReads s x.iss b, k < 48 → (s.core x.core).mark (x.d.scal k) = 0
theorem test_meets_engine_field : ∃ i h b s x c, Later i h b s x c ∧ c.field = true :=
  ⟨.eseq hdr4 ⟨0⟩, _, _, fill, issuer fill, _, ⟨⟨rfl, clear_of (by decide +kernel), rfl⟩, by decide, by decide, by decide +kernel,
    by decide +kernel⟩, by decide +kernel⟩
theorem test_meets_engine_status : ∃ i h b s x c, Later i h b s x c ∧ c.field = false ∧ h.stat.val = h.sync.toNat + 1 :=
  ⟨.eseq ⟨0, 46, 47⟩ ⟨1⟩, _, _, fill, issuer fill, _, ⟨⟨rfl, clear_of (by decide +kernel), rfl⟩, by decide, by decide, by decide +kernel,
    by decide +kernel⟩, by decide +kernel, by decide⟩
/-- A copy of one word of memory to granule 37, its record as it may be. -/
def copyM : CopyF := { copyF with thn := false }
def copyState (r : Rcd) (own : Bool) : State :=
  core (scal (scal (scal (benchM r) 9 14336) 20 4) 21 1) fun c => c.setGran 37 ⟨own, false, true, true⟩
theorem test_meets_engine_record : ∃ i h b s x c r k pre post, Later i h b s x c ∧ c.field = false ∧ c.recs = pre ++ (r, k) :: post ∧
    (∀ q ∈ pre, (s.ircd x.iss q.1).wf = true ∧ q.2.lacks (s.ircd x.iss q.1) = none) ∧ (s.ircd x.iss r).wf = false :=
  ⟨.copy hdr4 copyM, _, _, copyState 0 true, issuer (copyState 0 true), _, 0, .load, [], [],
    ⟨⟨rfl, clear_of (by decide +kernel), rfl⟩, by decide, by decide, by decide +kernel, by decide +kernel⟩, by decide +kernel,
    by decide +kernel, fun _ h => (by cases h), by decide +kernel⟩
theorem test_meets_engine_right : ∃ i h b s x c r k pre post, Later i h b s x c ∧ c.field = false ∧ c.recs = pre ++ (r, k) :: post ∧
    (∀ q ∈ pre, (s.ircd x.iss q.1).wf = true ∧ q.2.lacks (s.ircd x.iss q.1) = none) ∧ (s.ircd x.iss r).wf = true ∧
    k.lacks (s.ircd x.iss r) ≠ none :=
  ⟨.copy hdr4 copyM, _, _, copyState (buffer 512 6) true, issuer (copyState (buffer 512 6) true), _, 0, .load, [], [],
    ⟨⟨rfl, clear_of (by decide +kernel), rfl⟩, by decide, by decide, by decide +kernel, by decide +kernel⟩, by decide +kernel,
    by decide +kernel, fun _ h => (by cases h), by decide +kernel, by decide +kernel⟩
/-- What the rows after the records share. -/
def Recorded (i : Instr) (h : EHdr) (b : EngBody) (s : State) (x : Who) (c : EngChk) : Prop :=
  Later i h b s x c ∧ c.field = false ∧ h.stat.val ≠ h.sync.toNat ∧ h.stat.val ≠ h.sync.toNat + 1 ∧
  ∀ q ∈ c.recs, (s.ircd x.iss q.1).wf = true ∧ q.2.lacks (s.ircd x.iss q.1) = none
theorem test_meets_engine_tile : ∃ i h b s x c n pre post, Recorded i h b s x c ∧ c.tiles = pre ++ n :: post ∧
    (∀ j ∈ pre, (s.itile x.iss j).isSome = true) ∧ s.itile x.iss n = none :=
  ⟨.tfill hdr4 { fillF with dtl := true, dtn := 31 }, _, _, fill, issuer fill, _, 31, [], [],
    ⟨⟨⟨rfl, clear_of (by decide +kernel), rfl⟩, by decide, by decide, by decide +kernel, by decide +kernel⟩, by decide +kernel, by decide, by decide,
      by decide +kernel⟩, by decide +kernel, fun _ h => (by cases h), by decide +kernel⟩
theorem test_meets_engine_owner : ∃ i h b s x c, Recorded i h b s x c ∧ (∀ n ∈ c.tiles, (s.itile x.iss n).isSome = true) ∧
    ∃ g ∈ c.land ++ c.srcs, ((s.core x.core).gran g).own = false :=
  ⟨.copy hdr4 copyM, _, _, copyState (buffer 512 7) false, issuer (copyState (buffer 512 7) false), _,
    ⟨⟨⟨rfl, clear_of (by decide +kernel), rfl⟩, by decide, by decide, by decide +kernel, by decide +kernel⟩, by decide +kernel, by decide, by decide,
      by decide +kernel⟩, by decide +kernel, 37, by decide +kernel, by decide +kernel⟩
theorem test_meets_engine_elsewhere : ∃ i h b s x c, Recorded i h b s x c ∧ (∀ n ∈ c.tiles, (s.itile x.iss n).isSome = true) ∧
    (∀ g ∈ c.land ++ c.srcs, ((s.core x.core).gran g).own = true) ∧
    ∃ g ∈ c.land, s.infElsewhere x.core g x.wid x.st.dom h.sync.toNat = true :=
  ⟨.tfill ⟨0, 46, 3⟩ fillF, _, _, filling, issuer filling, _,
    ⟨⟨⟨rfl, clear_of (by decide +kernel), rfl⟩, by decide, by decide, by decide +kernel, by decide +kernel⟩, by decide +kernel, by decide, by decide,
      by decide +kernel⟩, by decide +kernel, by decide +kernel, 38, by decide +kernel, by decide +kernel⟩

/-! ## Engines at work -/

/-- A step of an engine that goes on, or fails. -/
theorem go_of {n : Next} {p : State → Bool} (h : (match n with | .go t => p t | _ => false) = true) : ∃ t, n = .go t ∧ p t = true := by
  cases n with
  | go t => exact ⟨t, rfl, h⟩
  | _ => cases h
theorem fail_of {n : Next} {p : Trap → Bool} (h : (match n with | .fail t => p t | _ => false) = true) : ∃ t, n = .fail t ∧ p t = true := by
  cases n with
  | fail t => exact ⟨t, rfl, h⟩
  | _ => cases h

def parkedEng : State := queued (strand bench fun st => { st with parked := some (.engine, 0) }) 15
theorem test_meets_accept : ∃ s w i t x, State.strandAt s w i = some x ∧ x.st.parked = some (.engine, t) ∧ (s.core x.core).cmds.length < 16 :=
  ⟨parkedEng, 0, 0, 0, issuer parkedEng, by decide +kernel, by decide +kernel, by decide +kernel⟩
def feEng : FrontEnd := ⟨0x2000, none, List.replicate 32 0, [], some (.engine, 0), none, none⟩
def stalledEng : State := queued (crew bench fun c => { c with fe := some feEng }) 15
def crewOf0 (s : State) : Crew := (Tbl.find s.crews 0).getD (placeCrew feEng)
theorem test_meets_accept_fe : ∃ s c t k f, Tbl.find (State.crews s) c = some k ∧ k.fe = some f ∧ f.stalled = some (.engine, t) ∧
    (s.core k.core).cmds.length < 16 :=
  ⟨stalledEng, 0, 0, crewOf0 stalledEng, feEng, by decide +kernel, by decide +kernel, rfl, by decide +kernel⟩
/-- The machine's choice among one. -/
theorem choose_one {α : Type} (s : State) (a : α) : s.choose [a] = some a := by simp [State.choose, Nat.mod_one]
/-- A fill of one word that has begun, and whose one piece is next. -/
def fill4 : State := scal fill 10 4
def fillCmd4 : Cmd :=
  { newCmd fill4 (issuer fill4).iss hdr4 (.tfill fillF) (engTake fill4 (issuer fill4).iss (.tfill fillF)) 1 none none with begun := true }
def filling4 : State :=
  { core fill4 fun c => { (c.setGran 38 ⟨true, true, true, true⟩) with cmds := [5] } with cmds := [(5, fillCmd4)], nextId := 6 }
theorem test_meets_fill : ∃ s id c f e a n pieces, Tbl.find (State.cmds s) id = some c ∧ c.body = .tfill f ∧ s.cmdRuns id c = true ∧
    s.cmdReady c = true ∧ c.begun = true ∧ e = c.regEnd c.tile (c.sc f.doff.toNat) ∧
    pieces = c.chunk (fun a => min (min 256 (c.sc f.len.toNat - a)) (toChunk a)) (c.sc f.len.toNat) ∧ s.nextPiece c pieces = some (a, n) := by
  refine ⟨filling4, 5, fillCmd4, fillF, _, 0, 4, [(0, 4)], by decide +kernel, rfl, by decide +kernel, by decide +kernel, rfl, rfl,
    by decide +kernel, ?_⟩
  have : ([(0, 4)] : List (Nat × Nat)).filter (fun p => !fillCmd4.ahead.contains p.1) = [(0, 4)] := by decide +kernel
  unfold State.nextPiece
  rw [this, choose_one]
/-- A command at work in a state. -/
def running (s : State) (h : EHdr) (b : EngBody) (f : Cmd → Cmd) : State :=
  { s with
    cmds := [(5, f (newCmd s (issuer s).iss h b (engTake s (issuer s).iss b) 1 none none))]
    cores := (core s fun c => { c with cmds := [5] }).cores
    nextId := 6 }
def cmd5 (s : State) : Cmd := (Tbl.find s.cmds 5).getD fillCmd
def copying (r : Rcd) : State := running (copyState r true) hdr4 (.copy copyM) id
def sequel : State := running bench hdr4 (.eseq ⟨1⟩) id
theorem test_meets_landing : ∃ s id c t, Tbl.find (State.cmds s) id = some c ∧ (∀ f, c.body ≠ .mma f) ∧ s.cmdNext id c = .go t ∧
    (s.drawTree c t).weirs = s.weirs := by
  obtain ⟨t, h, e⟩ := go_of (n := sequel.cmdNext 5 (cmd5 sequel))
    (p := fun t => decide ((sequel.drawTree (cmd5 sequel) t).weirs = sequel.weirs)) (by decide +kernel)
  exact ⟨sequel, 5, cmd5 sequel, t, by decide +kernel, fun _ h => (by cases h), h, of_decide_eq_true e⟩
/-- Behind a command that has not begun, another has to stand still. -/
def second : State := { core (copying (buffer 512 7)) fun c => { c with cmds := [5, 6] } with cmds := (copying (buffer 512 7)).cmds ++ [(6, cmd5 (copying (buffer 512 7)))] }
theorem test_meets_in_order : ∃ s id c, Tbl.find (State.cmds s) id = some c ∧ (∀ f, c.body ≠ .mma f) ∧ c.begun = false ∧ s.queueAhead id c = true :=
  ⟨second, 6, cmd5 (copying (buffer 512 7)), by decide +kernel, fun _ h => (by cases h), by decide +kernel, by decide +kernel⟩
/-- The copy with all its bytes landed. -/
def copied : State := running (copyState (buffer 512 7) true) hdr4 (.copy copyM) fun c => { c with done := 4 }
theorem test_meets_end : ∃ s id c, Tbl.find (State.cmds s) id = some c ∧ s.cmdRuns id c = true ∧ s.cmdOver c = true ∧
    (∀ f, c.body ≠ .copymc f) ∧ (∀ f, c.body ≠ .gath f) ∧ ∀ f, c.body ≠ .eseq f :=
  ⟨copied, 5, cmd5 copied, by decide +kernel, by decide +kernel, by decide +kernel, fun _ h => (by cases h), fun _ h => (by cases h),
    fun _ h => (by cases h)⟩
theorem test_meets_end_eseq : ∃ s id c f, Tbl.find (State.cmds s) id = some c ∧ s.cmdRuns id c = true ∧ s.cmdReady c = true ∧ c.body = .eseq f :=
  ⟨sequel, 5, cmd5 sequel, ⟨1⟩, by decide +kernel, by decide +kernel, by decide +kernel, by decide +kernel⟩
/-- A `kvfree` of a handle that names no sequence. -/
def failing : State := running bench hdr4 (.kvfree ⟨0, 5, 0, false, false, 12, 0, 0, 0, 0, false, 0⟩) id
theorem test_meets_fail : ∃ s id c t, Tbl.find (State.cmds s) id = some c ∧ s.cmdNext id c = .fail t ∧ t.cause ≠ 0x59 := by
  obtain ⟨t, h, e⟩ := fail_of (n := failing.cmdNext 5 (cmd5 failing)) (p := fun t => t.cause != 0x59) (by decide +kernel)
  exact ⟨failing, 5, cmd5 failing, t, by decide +kernel, h, by simpa using e⟩
/-- A copy of one granule from registers into a window of its own warp: handle in s22, offset s23 = 0. -/
def intoWin : CopyF := ⟨2, 5, false, 0, 0, 9, 22, 20, false, 0, false, 0⟩
def winOf (l : Bool) : Win := ⟨0, 0, 0, 0, 32, true, true, l, .crew, 4, 0⟩
def winState (l : Bool) (b : EngBody) : State :=
  let s := scal (scal (scal (scal bench 9 14848) 20 512) 21 1) 22 (handleOf 0 63 0)
  running (core s fun c => { ((c.setGran 38 ⟨true, true, true, true⟩).setGran 9 ⟨true, false, true, true⟩) with wins := [(63, winOf l)] })
    hdr4 b fun c => { c with begun := true, targets := [McTarget.fresh (handleOf 0 63 0)] }
def CheckHyps (s : State) (id j : Nat) (c : Cmd) (t : McTarget) : Prop :=
  Tbl.find s.cmds id = some c ∧ c.targets[j]? = some t ∧ s.cmdRuns id c = true ∧ s.cmdReady c = true ∧ c.begun = true ∧ t.checked = false
theorem inl_of {α β : Type} {n : α ⊕ β} (h : n.isLeft = true) : ∃ e, n = .inl e := by
  cases n with
  | inl e => exact ⟨e, rfl⟩
  | inr _ => cases h
theorem inr_of {α β : Type} {n : α ⊕ β} (h : n.isRight = true) : ∃ e, n = .inr e := by
  cases n with
  | inr e => exact ⟨e, rfl⟩
  | inl _ => cases h
theorem inr_p {α β : Type} {n : α ⊕ β} {p : β → Bool} (h : (match n with | .inr b => p b | _ => false) = true) : ∃ e, n = .inr e ∧ p e = true := by
  cases n with
  | inr e => exact ⟨e, rfl, h⟩
  | inl _ => cases h
theorem test_meets_window_check : ∃ s id j c t u, CheckHyps s id j c t ∧ s.winAdmit c t = .inr u ∧ s.givenIds u.core u.grans = [] := by
  obtain ⟨u, h, e⟩ := inr_p (n := (winState true (.copy intoWin)).winAdmit (cmd5 (winState true (.copy intoWin))) (McTarget.fresh (handleOf 0 63 0)))
    (p := fun u => decide ((winState true (.copy intoWin)).givenIds u.core u.grans = [])) (by decide +kernel)
  exact ⟨winState true (.copy intoWin), 5, 0, cmd5 (winState true (.copy intoWin)), McTarget.fresh (handleOf 0 63 0), u,
    ⟨by decide +kernel, by decide +kernel, by decide +kernel, by decide +kernel, by decide +kernel, rfl⟩, h, of_decide_eq_true e⟩
/-- A store before the granule was given is outstanding. -/
def winGiven : State :=
  { core (winState true (.copy intoWin)) fun c => { c with given := [(0, [7]), (1, [7]), (8, [7]), (9, [7])] } with
    accs := [(7, ⟨.strand 0 0, 0, .store, 4, false, 0, [⟨0, 0x10100, 0x10100, [1, 2, 3, 4], 0, 0, 0, []⟩], [], none, false, false, false, 0, 0, 0⟩)] }
theorem test_meets_window_later : ∃ s id j c t u, CheckHyps s id j c t ∧ s.winAdmit c t = .inr u ∧ s.givenIds u.core u.grans ≠ [] := by
  obtain ⟨u, h, e⟩ := inr_p (n := winGiven.winAdmit (cmd5 winGiven) (McTarget.fresh (handleOf 0 63 0)))
    (p := fun u => decide (winGiven.givenIds u.core u.grans ≠ [])) (by decide +kernel)
  exact ⟨winGiven, 5, 0, cmd5 winGiven, McTarget.fresh (handleOf 0 63 0), u,
    ⟨by decide +kernel, by decide +kernel, by decide +kernel, by decide +kernel, by decide +kernel, rfl⟩, h, of_decide_eq_true e⟩
theorem test_meets_window_refused : ∃ s id j c t e f, CheckHyps s id j c t ∧ s.winAdmit c t = .inl e ∧ c.body = .copy f := by
  obtain ⟨e, h⟩ := inl_of (n := (winState false (.copy intoWin)).winAdmit (cmd5 (winState false (.copy intoWin))) (McTarget.fresh (handleOf 0 63 0)))
    (by decide +kernel)
  exact ⟨winState false (.copy intoWin), 5, 0, cmd5 (winState false (.copy intoWin)), McTarget.fresh (handleOf 0 63 0), e, intoWin,
    ⟨by decide +kernel, by decide +kernel, by decide +kernel, by decide +kernel, by decide +kernel, rfl⟩, h, by decide +kernel⟩
/-- `copymc` to one target. -/
def mcF : CopymcF := ⟨true, 5, 0, 9, 24, 20, false, 0⟩
theorem test_meets_window_skipped : ∃ s id j c t e f, CheckHyps s id j c t ∧ s.winAdmit c t = .inl e ∧ c.body = .copymc f := by
  obtain ⟨e, h⟩ := inl_of (n := (winState false (.copymc mcF)).winAdmit (cmd5 (winState false (.copymc mcF))) (McTarget.fresh (handleOf 0 63 0)))
    (by decide +kernel)
  exact ⟨winState false (.copymc mcF), 5, 0, cmd5 (winState false (.copymc mcF)), McTarget.fresh (handleOf 0 63 0), e, mcF,
    ⟨by decide +kernel, by decide +kernel, by decide +kernel, by decide +kernel, by decide +kernel, rfl⟩, h, by decide +kernel⟩
/-- A gather with one partial sum on its way from port 3. -/
def part1 : Partial := ⟨0, 3, [some 7], [0]⟩
def gathF : GathF := ⟨1, 0, false, false, 0, false, 5, 0, 0, 8, 10, 0, 0, 9, false, 0⟩
def gathering (l : List Partial) : State :=
  running (copyState (buffer 512 7) true) hdr4 (.gath gathF) fun c => { c with started := true, next := 1, parts := l }
theorem test_meets_partial : ∃ s id bag port c f p, Tbl.find (State.cmds s) id = some c ∧ s.cmdRuns id c = true ∧ c.body = .gath f ∧
    c.bagEnd f bag ≤ c.next ∧ c.parts = [p] ∧ p.bag = bag ∧ p.port = port ∧ port ≠ enginePort :=
  ⟨gathering [part1], 5, 0, 3, cmd5 (gathering [part1]), gathF, part1, by decide +kernel, by decide +kernel, by decide +kernel, by decide +kernel,
    by decide +kernel, rfl, rfl, by decide⟩
/-- The engine holds a sum of the bag already. -/
def engPart : Partial := ⟨0, enginePort, [some 1], [0]⟩
theorem test_meets_partial_sum : ∃ s id bag port c f p q, Tbl.find (State.cmds s) id = some c ∧ s.cmdRuns id c = true ∧ c.body = .gath f ∧
    c.bagEnd f bag ≤ c.next ∧ c.parts = [p, q] ∧ p.bag = bag ∧ p.port = port ∧ port ≠ enginePort ∧ q.bag = bag ∧ q.port = enginePort :=
  ⟨gathering [part1, engPart], 5, 0, 3, cmd5 (gathering [part1, engPart]), gathF, part1, engPart, by decide +kernel, by decide +kernel,
    by decide +kernel, by decide +kernel, by decide +kernel, rfl, rfl, by decide, rfl, rfl⟩
/-- A matrix command that may start, and one of two k-groups that has. -/
def mmaRun (k : Word) (on : Bool) : State :=
  let s := running (matrix k) hdr4 (.mma mmaF) fun c =>
    { c with started := on, begun := on, recs := [desc1, desc1], tile := some tile4, land := [38] }
  if on then core s fun c => { c with array := some 5 } else s
theorem test_meets_mma_start : ∃ s id c f, Tbl.find (State.cmds s) id = some c ∧ c.body = .mma f ∧ s.cmdRuns id c = true ∧
    s.cmdReady c = true ∧ s.cmdOver c = false ∧ (s.core c.core).array = none :=
  ⟨mmaRun 32 false, 5, cmd5 (mmaRun 32 false), mmaF, by decide +kernel, by decide +kernel, by decide +kernel, by decide +kernel, by decide +kernel,
    by decide +kernel⟩
def zeroVa : State := scal (scal (mmaRun 64 true) 14 0x10100) 15 0
def kgroup : State :=
  { zeroVa with cmds := zeroVa.cmds.map fun p => (p.1, { p.2 with scal := (List.range 48).map (zeroVa.scalar 0 placeDom) }) }
theorem test_meets_mma_kgroup : ∃ s core id c f ct t words, (State.core s core).array = some id ∧ Tbl.find s.cmds id = some c ∧ c.body = .mma f ∧
    s.cmdRuns id c = true ∧ s.cmdReady c = true ∧ c.started = true ∧ c.begun = true ∧ c.tile = some ct ∧ c.done + 1 < c.sc f.ks.toNat / 32 ∧
    c.words = [] ∧ s.mmaGroup c f ct = .ok (t, words) ∧ t.weirs = s.weirs ∧ t.cmds = s.cmds := by
  have h : ((kgroup.mmaGroup (cmd5 kgroup) mmaF tile4).toOption.any fun t => decide (t.1.weirs = kgroup.weirs) && decide (t.1.cmds = kgroup.cmds)) = true := by
    decide +kernel
  obtain ⟨t, e, w⟩ := Option.any_eq_true .. |>.mp h
  rw [Bool.and_eq_true] at w
  exact ⟨kgroup, 0, 5, cmd5 kgroup, mmaF, tile4, t.1, t.2, by decide +kernel, by decide +kernel, by decide +kernel, by decide +kernel, by decide +kernel,
    by decide +kernel, by decide +kernel, by decide +kernel, by decide +kernel, by decide +kernel, ok_of e, of_decide_eq_true w.1, of_decide_eq_true w.2⟩
/-- Words of the group are left to land. -/
def kwords : State := { kgroup with cmds := kgroup.cmds.map fun p => (p.1, { p.2 with words := [(4864, 1, 0)] }) }
theorem test_meets_mma_words : ∃ s core id c f ct, (State.core s core).array = some id ∧ Tbl.find s.cmds id = some c ∧ c.body = .mma f ∧
    s.cmdRuns id c = true ∧ s.cmdReady c = true ∧ c.started = true ∧ c.begun = true ∧ c.tile = some ct ∧ c.done + 1 < c.sc f.ks.toNat / 32 ∧
    c.words ≠ [] :=
  ⟨kwords, 0, 5, cmd5 kwords, mmaF, tile4, by decide +kernel, by decide +kernel, by decide +kernel, by decide +kernel, by decide +kernel,
    by decide +kernel, by decide +kernel, by decide +kernel, by decide +kernel, by decide +kernel⟩

/-! ## Repair -/

/-- A model of one node, one layer and one head in a page of 1 GiB at 0x40000000; sequence 0 ends at node 0. -/
def storeRcd : BitVec 1024 := BitVec.ofNat 1024 (2 ^ 1023 + 2 * 2 ^ 984 + 2 ^ 976 + 0x40000000 * 2 ^ 912 + 0x40100000 * 2 ^ 856 + 0x40200000 * 2 ^ 800
  + 0x40300000 * 2 ^ 744 + 0x40400000 * 2 ^ 688 + 2 ^ 480 + 2 ^ 448 + 2 ^ 416)
def store : Mdl := ⟨0, 0, storeRcd⟩
def node0 (job : Nat) : Node := ⟨0x40300000, noNode, noNode, noNode, 0, 1, 0, 0, 0, 1, noNode, job, 0, 0, 2⟩
def seq0 : SeqRec := ⟨0, 1, 0, true, 0⟩
def stored (job : Nat) : State :=
  poke (poke (poke { bench with models := [(0, ⟨storeRcd, [(0, 1)], [], [0], []⟩)] } 0x4080 8 0x40000079) 0x40100000 128 (node0 job).toNat)
    0x40200000 16 seq0.toNat
/-- `rpopen` of sequence s12, start s13, threshold s14, probe depth and layer s16, window s18. -/
def openF : KvF := ⟨8, 5, 0, false, false, 12, 13, 14, 16, 18, false, 0⟩
def opening : State := running (stored noJob) hdr4 (.rpopen openF) id
theorem test_meets_job_start : ∃ s u id c f m q r n x key gen, Tbl.find (State.cmds s) id = some c ∧ c.body = .rpopen f ∧ s.cmdRuns id c = true ∧
    s.mayStep id c = true ∧ c.job = none ∧ u = s.begin id ∧ u.seqOf c.ctx (c.sc f.sa.toNat) = some (m, q, r) ∧ m.areaFault u true = none ∧
    ((m.pathOf u r).find? fun q => q.2.start == c.sc f.sb.toNat) = some (n, x) ∧ x.state = 2 ∧ x.job = noJob ∧
    c.sc f.sd.toNat / 256 % 256 < m.layers ∧ u.freeJob (dieOf c.core) = some (key, gen) :=
  ⟨opening, opening.begin 5, 5, cmd5 opening, openF, store, 0, seq0, 0, node0 noJob, 0, 0, by decide +kernel⟩
/-- A job whose graph at 0x41000000 has ended: the probe's, or a layer's. -/
def job1 (jst : Nat) : Job := ⟨0, jst, 1, 0, 0, true, 0, 0, 0, 5, 0, 0x41001000, 1, 0, 0, true, 0x41000000, false, 0⟩
def repairing (jst : Nat) : State :=
  { poke (running (stored 0) hdr4 (.rpopen openF) fun c => { c with started := true, job := some 0 }) 0x41000000 128 (2 ^ 1023 + 2 * 2 ^ 1020) with
    jobs := [(0, job1 jst)] }
theorem test_meets_graph_end (jst : Nat) (h : jst = 1 ∨ jst = 2) : ∃ s die slot j c m, Tbl.find (State.jobs s) (die * 64 + slot) = some j ∧
    Tbl.find s.cmds j.cmd = some c ∧ s.mdlAt j.model = some m ∧ j.live = true ∧ j.fired = true ∧ s.jobRuns j.cmd c = true ∧
    m.areaFault s true = none ∧ s.rangeFault c.ctx j.graph 128 .both = none ∧ gGst (s.rec_ c.ctx j.graph) = 2 ∧ j.jst = jst := by
  rcases h with rfl | rfl
  · exact ⟨repairing 1, 0, 0, job1 1, cmd5 (repairing 1), store, by decide +kernel⟩
  · exact ⟨repairing 2, 0, 0, job1 2, cmd5 (repairing 2), store, by decide +kernel⟩

end Sys2Proof.Tests
end

