-- ==== Sys2Proof/Tests/Meets3.lean ====
section
/-! SUPPORT. For the statements about class 5: for each clause, a state and operands that meet its hypotheses together, at an edge of their
range. -/

namespace Sys2Proof.Tests

set_option Elab.async false

open Sys2Proof.Machine

theorem some_of {ε α : Type} {e : Except ε α} (h : e.toOption.isSome = true) : ∃ a, e = .ok a := by
  cases e with
  | error _ => cases h
  | ok b => exact ⟨b, rfl⟩

/-- The smallest descriptor that passes, of one crew of one warp with 8 registers, and where it stands. -/
def descWord : Nat := 2 ^ 1023 + 2 ^ 433 + 2 ^ 472
def launching : State := poke (pair bench 4 0x10100) 0x10100 128 descWord
/-- The same with 4,096 launches pending. -/
def pendingLaunch : Launch := { placeLaunch with desc := BitVec.ofNat 1024 (2 ^ 472), placed := 0, prio := 7 }
def storeFull : State := { launching with launches := launching.launches ++ (List.range 4096).map fun i => (i + 1, pendingLaunch) }

def LaunchHyps (s : State) (x : Who) (f : LaunchF) (l : List (Opnd × Nat)) (d : BitVec 1024) (g : List Stage) : Prop :=
  Clear s x ∧ l = (.s f.a, 2) :: f.b.toList.map (fun k => (.s k, 2)) ∧ UOk s x l (some (.s f.d, 1)) ∧ s.settled x.agent = true ∧
  s.checkDesc x.d.ctx (s.vaPair x f.a) = .ok (d, g) ∧ (f.dep = true → (s.launchOf x.w).any Launch.depd = false)
theorem test_meets_launch : ∃ s x f l d g, LaunchHyps s x f l d g ∧ s.storeRoom (dieOf x.core) = true ∧ f.dep = true ∧ f.b ≠ none :=
  ⟨launching, issuer launching, ⟨8, 4, some 6, false, true⟩, _, BitVec.ofNat 1024 descWord, [],
    ⟨clear_of (by decide +kernel), rfl, u_of (by decide +kernel), by decide +kernel, ok_of (by decide +kernel), by decide +kernel⟩,
    by decide +kernel, rfl, by decide⟩
theorem test_meets_launch_full (t : Bool) : ∃ s x f l d g, LaunchHyps s x f l d g ∧ s.storeRoom (dieOf x.core) = false ∧ f.t = t := by
  cases t
  · exact ⟨storeFull, issuer storeFull, ⟨8, 4, none, false, false⟩, _, BitVec.ofNat 1024 descWord, [],
      ⟨clear_of (by decide +kernel), rfl, u_of (by decide +kernel), by decide +kernel, ok_of (by decide +kernel), by decide +kernel⟩,
      by decide +kernel, rfl⟩
  · exact ⟨storeFull, issuer storeFull, ⟨8, 4, none, true, false⟩, _, BitVec.ofNat 1024 descWord, [],
      ⟨clear_of (by decide +kernel), rfl, u_of (by decide +kernel), by decide +kernel, ok_of (by decide +kernel), by decide +kernel⟩,
      by decide +kernel, rfl⟩
/-- A launch that declares a limit, a predecessor whose outcome is known or not. -/
def limit (n : Nat) : Launch := { placeLaunch with desc := BitVec.ofNat 1024 (n * 2 ^ 440) }
def counted : State := { bench with launches := [(0, limit 1)] }
theorem test_meets_wdask : ∃ s x f k c l, Clear s x ∧ pairCode (WdaskF.a f) = some k ∧ x.st.dom = 0 ∧ UOk s x [] (some (.s f.d, 1)) ∧
    s.crewOf x.w = some c ∧ s.launchOf x.w = some l ∧ dfield l.desc 471 440 ≠ 0 :=
  ⟨counted, issuer counted, ⟨15, 47, .s 46⟩, 46, (issuer counted).w |> counted.crewOf |>.getD (placeCrew ⟨0, none, [], [], none, none, none⟩),
    limit 1, clear_of (by decide +kernel), rfl, rfl, u_of (by decide +kernel), by decide +kernel, by decide +kernel, by decide +kernel⟩
def crew00 : Crew := (bench.crewOf (issuer bench).w).getD (placeCrew ⟨0, none, [], [], none, none, none⟩)
theorem test_meets_hnext : ∃ s x c, Clear s x ∧ x.st.dom = 0 ∧ s.crewOf x.w = some c ∧ c.hnx = false :=
  ⟨bench, issuer bench, crew00, clear_of (by decide +kernel), rfl, by decide +kernel, by decide +kernel⟩
def follows (out : Option LOut) : State :=
  { bench with launches := [(0, { placeLaunch with pred := some 7 }), (7, { placeLaunch with out := out })] }
theorem test_meets_waitpred_done : ∃ s x p, Clear s x ∧ x.st.dom = 0 ∧ (s.launchOf x.w).bind Launch.pred = some p ∧
    ∀ l, Tbl.find s.launches p = some l → l.out.isSome = true := by
  refine ⟨follows (some .killed), issuer (follows (some .killed)), 7, clear_of (by decide +kernel), rfl, by decide +kernel, ?_⟩
  intro l h
  have e : Tbl.find (follows (some .killed)).launches 7 = some { placeLaunch with out := some .killed } := by decide +kernel
  rw [e] at h; cases h; rfl
theorem test_meets_waitpred_waits : ∃ s x p l, Clear s x ∧ x.st.dom = 0 ∧ (s.launchOf x.w).bind Launch.pred = some p ∧
    Tbl.find s.launches p = some l ∧ l.out = none :=
  ⟨follows none, issuer (follows none), 7, { placeLaunch with out := none }, clear_of (by decide +kernel), rfl, by decide +kernel, by decide +kernel,
    rfl⟩
theorem test_meets_prio : ∃ s x a, Clear s x ∧ UOk s x [(a, 1)] ∧ uVal s x [(a, 1)] none 0 ≤ 3 :=
  ⟨scal bench 5 3, issuer (scal bench 5 3), .s 5, clear_of (by decide +kernel), u_of (by decide +kernel), by decide +kernel⟩

/-! ## Rings -/

/-- A block of 2^n slots of 32 bytes. -/
def blk (n closed res cmt clm rel : Nat) : Nat := n * 2 ^ 444 + 5 * 2 ^ 440 + closed * 2 ^ 384 + res * 2 ^ 352 + cmt * 2 ^ 320 + clm * 2 ^ 288 + rel * 2 ^ 256
/-- The last counter before they wrap. -/
def top : Nat := 2 ^ 31 - 1
def ringS (b k : Nat) : State := poke (scal (pair bench 4 0x10100) 6 (BitVec.ofNat 32 k)) 0x10100 64 b
def ringB (b : Nat) : RingBlk := ⟨BitVec.ofNat 512 b⟩
def RingHyps (s : State) (x : Who) (i : Instr) (q : RingRule) (b : RingBlk) : Prop :=
  Clear s x ∧ ringRule s x i = some q ∧ UOk s x q.srcs q.dst ∧ q.past ∧ s.ringCheck x.d.ctx q.va = .ok b
def RingGoes (s : State) (x : Who) (i : Instr) (q : RingRule) (b b' : RingBlk) (t : Word) : Prop :=
  RingHyps s x i q b ∧ RingTakes b q.op b' t ∧ s.ringQueued x.d.ctx q.va q.op s.ringWaits = false
def acqF (c : Bool) : RingAcqF := ⟨0, 8, 4, c, .warp⟩

theorem test_meets_ring_produce : ∃ s x i q b b' t, RingGoes s x i q b b' t ∧ ∃ d l, q.op = .acq false d l :=
  ⟨ringS (blk 0 0 top top top top) 0, issuer (ringS (blk 0 0 top top top top) 0), .ringAcq (acqF false), _, ringB (blk 0 0 top top top top),
    ringB (blk 0 0 0 top top top), BitVec.ofNat 32 top,
    ⟨⟨clear_of (by decide +kernel), rfl, u_of (by decide +kernel), (by decide +kernel : State.undone _ _ = false), ok_of (by decide +kernel)⟩,
      (by decide +kernel : _ < _ ∧ ringB (blk 0 0 0 top top top) = _ ∧ BitVec.ofNat 32 top = _), by decide +kernel⟩, _, _, rfl⟩
theorem test_meets_ring_claim : ∃ s x i q b b' t, RingGoes s x i q b b' t ∧ b.clm ≠ b.cmt ∧ ∃ d l, q.op = .acq true d l :=
  ⟨ringS (blk 0 0 0 0 top top) 0, issuer (ringS (blk 0 0 0 0 top top) 0), .ringAcq (acqF true), _, ringB (blk 0 0 0 0 top top),
    ringB (blk 0 0 0 0 0 top), BitVec.ofNat 32 top,
    ⟨⟨clear_of (by decide +kernel), rfl, u_of (by decide +kernel), (by decide +kernel : State.undone _ _ = false), ok_of (by decide +kernel)⟩,
      .inl (by decide +kernel : _ ≠ _ ∧ ringB (blk 0 0 0 0 0 top) = _ ∧ BitVec.ofNat 32 top = _), by decide +kernel⟩, by decide +kernel, _, _, rfl⟩
theorem test_meets_ring_closed : ∃ s x i q b t, RingGoes s x i q b b t ∧ b.clm = b.cmt ∧ ∃ d l, q.op = .acq true d l :=
  ⟨ringS (blk 0 1 top top top top) 0, issuer (ringS (blk 0 1 top top top top) 0), .ringAcq (acqF true), _, ringB (blk 0 1 top top top top),
    0xFFFFFFFF,
    ⟨⟨clear_of (by decide +kernel), rfl, u_of (by decide +kernel), (by decide +kernel : State.undone _ _ = false), ok_of (by decide +kernel)⟩,
      .inr ⟨by decide +kernel, by decide +kernel, rfl, rfl⟩, by decide +kernel⟩, by decide +kernel, _, _, rfl⟩
theorem test_meets_ring_close : ∃ s x i q b b' t, RingGoes s x i q b b' t ∧ q.op = .cmt none true :=
  ⟨ringS (blk 0 0 top top top top) 0, issuer (ringS (blk 0 0 top top top top) 0), .ringCmt ⟨4, .zero, true, .warp⟩, _, ringB (blk 0 0 top top top top),
    ringB (blk 0 1 top top top top), 0,
    ⟨⟨clear_of (by decide +kernel), rfl, u_of (by decide +kernel), (by decide +kernel : State.settled _ _ = true), ok_of (by decide +kernel)⟩,
      (by decide +kernel : ringB (blk 0 1 top top top top) = _ ∧ (0 : Word) = 0), by decide +kernel⟩, rfl⟩
def committing : State := ringS (blk 0 0 0 top top top) top
theorem test_meets_ring_commit : ∃ s x i q b b' t, RingGoes s x i q b b' t ∧ ∃ k, q.op = .cmt (some k) true ∧ k = top := by
  refine ⟨committing, issuer committing, .ringCmt ⟨4, .s 6, true, .warp⟩, _, ringB (blk 0 0 0 top top top),
    ((ringB (blk 0 0 0 top top top)).setCmt (ringNext (uVal committing (issuer committing) [(.s 4, 2), (.s 6, 1)] none 1))).close, 0,
    ⟨⟨clear_of (by decide +kernel), rfl, u_of (by decide +kernel), (by decide +kernel : State.settled _ _ = true), ok_of (by decide +kernel)⟩,
      ?_, by decide +kernel⟩, top, ?_, rfl⟩
  · exact And.intro (by decide +kernel) (And.intro (by decide +kernel) (And.intro (by decide +kernel) (And.intro rfl (if_pos rfl).symm)))
  · exact congrArg (fun k => RingOp.cmt (some k) true)
      (by decide +kernel : uVal committing (issuer committing) [(.s 4, 2), (.s 6, 1)] none 1 = top)
theorem test_meets_ring_release : ∃ s x i q b b' t, RingGoes s x i q b b' t ∧ ∃ k, q.op = .rel k :=
  ⟨ringS (blk 0 0 0 0 0 top) top, issuer (ringS (blk 0 0 0 0 0 top) top), .ringRel ⟨4, .s 6, .warp⟩, _,
    ringB (blk 0 0 0 0 0 top), ringB (blk 0 0 0 0 0 0), 0,
    ⟨⟨clear_of (by decide +kernel), rfl, u_of (by decide +kernel), (by decide +kernel : State.settled _ _ = true), ok_of (by decide +kernel)⟩,
      (by decide +kernel : uVal (ringS (blk 0 0 0 0 0 top) top) (issuer (ringS (blk 0 0 0 0 0 top) top)) [(.s 4, 2), (.s 6, 1)] none 1 = _ ∧
        _ < _ ∧ _ < _ ∧ (0 : Word) = 0 ∧ ringB (blk 0 0 0 0 0 0) = _), by decide +kernel⟩, _, rfl⟩

theorem test_meets_ring_full : ∃ s x i q b, RingHyps s x i q b ∧ RingWaits b q.op ∧ ∃ d l, q.op = .acq false d l :=
  ⟨ringS (blk 0 0 0 0 top top) 0, issuer (ringS (blk 0 0 0 0 top top) 0), .ringAcq (acqF false), _, ringB (blk 0 0 0 0 top top),
    ⟨clear_of (by decide +kernel), rfl, u_of (by decide +kernel), (by decide +kernel : State.undone _ _ = false), ok_of (by decide +kernel)⟩,
    (by decide +kernel : _ ≤ (ringB (blk 0 0 0 0 top top)).occupancy), _, _, rfl⟩
theorem test_meets_ring_empty : ∃ s x i q b, RingHyps s x i q b ∧ RingWaits b q.op ∧ ∃ d l, q.op = .acq true d l :=
  ⟨ringS (blk 0 0 top top top top) 0, issuer (ringS (blk 0 0 top top top top) 0), .ringAcq (acqF true), _, ringB (blk 0 0 top top top top),
    ⟨clear_of (by decide +kernel), rfl, u_of (by decide +kernel), (by decide +kernel : State.undone _ _ = false), ok_of (by decide +kernel)⟩,
    (by decide +kernel : (ringB (blk 0 0 top top top top)).clm = _ ∧ (ringB (blk 0 0 top top top top)).closed = 0), _, _, rfl⟩
theorem test_meets_ring_commit_early : ∃ s x i q b, RingHyps s x i q b ∧ RingWaits b q.op ∧ ∃ k, q.op = .cmt (some k) false :=
  ⟨ringS (blk 1 0 1 top top top) 0, issuer (ringS (blk 1 0 1 top top top) 0), .ringCmt ⟨4, .s 6, false, .warp⟩, _, ringB (blk 1 0 1 top top top),
    ⟨clear_of (by decide +kernel), rfl, u_of (by decide +kernel), (by decide +kernel : State.settled _ _ = true), ok_of (by decide +kernel)⟩,
    (by decide +kernel : _ < _ ∧ ringDist (ringB (blk 1 0 1 top top top)).cmt
      (uVal (ringS (blk 1 0 1 top top top) 0) (issuer (ringS (blk 1 0 1 top top top) 0)) [(.s 4, 2), (.s 6, 1)] none 1) < _ ∧ _ ≠ _), _, rfl⟩
theorem test_meets_ring_release_early : ∃ s x i q b, RingHyps s x i q b ∧ RingWaits b q.op ∧ ∃ k, q.op = .rel k :=
  ⟨ringS (blk 1 0 1 1 1 top) 0, issuer (ringS (blk 1 0 1 1 1 top) 0), .ringRel ⟨4, .s 6, .warp⟩, _, ringB (blk 1 0 1 1 1 top),
    ⟨clear_of (by decide +kernel), rfl, u_of (by decide +kernel), (by decide +kernel : State.settled _ _ = true), ok_of (by decide +kernel)⟩,
    (by decide +kernel : _ < _ ∧ ringDist (ringB (blk 1 0 1 1 1 top)).rel
      (uVal (ringS (blk 1 0 1 1 1 top) 0) (issuer (ringS (blk 1 0 1 1 1 top) 0)) [(.s 4, 2), (.s 6, 1)] none 1) < _ ∧ _ ≠ _), _, rfl⟩
theorem test_meets_ring_peek : ∃ s x f b, Clear s x ∧ UOk s x [(.s (RingPeekF.a f), 2)] (some (.s f.d, 1)) ∧ s.undone x.agent = false ∧
    s.ringCheck x.d.ctx (s.vaPair x f.a) = .ok b :=
  ⟨ringS (blk 0 0 0 0 top top) 0, issuer (ringS (blk 0 0 0 0 top top) 0), ⟨8, 4, true⟩, ringB (blk 0 0 0 0 top top),
    clear_of (by decide +kernel), u_of (by decide +kernel), by decide +kernel, ok_of (by decide +kernel)⟩

/-! ## Graphs -/

/-- A graph of one kernel node that needs some tokens and has no successor, with its status; the pair s4 names `va`. -/
def graphS (va gst stat need : Nat) : State :=
  poke (poke (pair bench 4 va) 0x10200 128 (2 ^ 1023 + gst * 2 ^ 1020 + 2 ^ 992)) 0x10280 128 (stat * 2 ^ 1004 + need * 2 ^ 976 + (2 ^ 96 - 1) * 2 ^ 864)
def gfireE (s : State) (f : GfireF) : Except GErr State :=
  if f.start then s.startGraph (issuer s).d.ctx (s.vaPair (issuer s) f.a) (dieOf (issuer s).core)
    ((f.b.map fun k => s.pair (issuer s).core (issuer s).d k.val).getD 0) none
  else s.outsideToken (issuer s).d.ctx (s.vaPair (issuer s) f.a) (dieOf (issuer s).core)
theorem test_meets_gfire (start : Bool) : ∃ s x f l t, Clear s x ∧ l = (.s (GfireF.a f), 2) :: f.b.toList.map (fun k => (.s k, 2)) ∧ UOk s x l ∧
    s.settled x.agent = true ∧ f.start = start ∧
    (if f.start then s.startGraph x.d.ctx (s.vaPair x f.a) (dieOf x.core) ((f.b.map fun k => s.pair x.core x.d k.val).getD 0) none
      else s.outsideToken x.d.ctx (s.vaPair x f.a) (dieOf x.core)) = .ok t := by
  cases start
  · obtain ⟨t, h⟩ := some_of (e := gfireE (graphS 0x10280 1 0 2) ⟨4, none, false⟩) (by decide +kernel)
    exact ⟨graphS 0x10280 1 0 2, issuer (graphS 0x10280 1 0 2), ⟨4, none, false⟩, _, t, clear_of (by decide +kernel), rfl, u_of (by decide +kernel),
      by decide +kernel, rfl, h⟩
  · obtain ⟨t, h⟩ := some_of (e := gfireE (graphS 0x10200 0 0 1) ⟨4, some 6, true⟩) (by decide +kernel)
    exact ⟨graphS 0x10200 0 0 1, issuer (graphS 0x10200 0 0 1), ⟨4, some 6, true⟩, _, t, clear_of (by decide +kernel), rfl, u_of (by decide +kernel),
      by decide +kernel, rfl, h⟩
theorem test_meets_gnode : ∃ s x f, Clear s x ∧ UOk s x [(.s (GnodeF.a f), 2)] (some (.s f.d, 1)) ∧ s.undone x.agent = false ∧
    s.recFault x.d.ctx (s.vaPair x f.a) 128 .both = none :=
  ⟨graphS 0x1FF80 1 0 1, issuer (graphS 0x1FF80 1 0 1), ⟨8, 4⟩, clear_of (by decide +kernel), u_of (by decide +kernel), by decide +kernel, by decide +kernel⟩

theorem test_meets_gcancel : ∃ s x f n, Clear s x ∧ UOk s x [(.s (GnodeF.a f), 2)] (some (.s f.d, 1)) ∧ s.undone x.agent = false ∧
    s.recFault x.d.ctx (s.vaPair x f.a) 128 .both = none ∧ s.nodeAt x.d.ctx (s.vaPair x f.a) = .ok n := by
  obtain ⟨n, h⟩ := some_of (e := (graphS 0x10280 1 0 1).nodeAt (issuer (graphS 0x10280 1 0 1)).d.ctx
    ((graphS 0x10280 1 0 1).vaPair (issuer (graphS 0x10280 1 0 1)) 4)) (by decide +kernel)
  exact ⟨graphS 0x10280 1 0 1, issuer (graphS 0x10280 1 0 1), ⟨8, 4⟩, n, clear_of (by decide +kernel), u_of (by decide +kernel), by decide +kernel,
    by decide +kernel, h⟩

/-! ## Events -/

def at_ (s : State) (t : Nat) : State := { s with time := t }
theorem test_meets_launch_timeout : ∃ s w i x t, State.strandAt s w i = some x ∧ x.st.parked = some (.store, t) ∧ t + 2 ^ 24 ≤ s.time ∧
    s.strandAwake x = true :=
  ⟨at_ (strand bench fun st => { st with parked := some (.store, 0) }) (2 ^ 24), 0, 0,
    issuer (at_ (strand bench fun st => { st with parked := some (.store, 0) }) (2 ^ 24)), 0, by decide +kernel, by decide +kernel, by decide +kernel,
    by decide +kernel⟩
def asked : WdReq := ⟨0, 0, 0, 0, 8, 46⟩
def asking (n : Nat) : State := { bench with launches := [(0, { limit 1 with counter := n })], wdReqs := [asked] }
theorem test_meets_distributor (n : Nat) (h : n = 0 ∨ n = 1) : ∃ s die r l w d,
    ((State.wdReqs s).find? fun r => r.die == die && (Tbl.find s.warps r.wid).isSome) = some r ∧ Tbl.find s.launches r.launch = some l ∧
    Tbl.find s.warps r.wid = some w ∧ w.dom r.dom = some d ∧ l.counter = n ∧ dfield l.desc 471 440 = 1 := by
  rcases h with rfl | rfl
  · exact ⟨asking 0, 0, asked, _, (issuer bench).w, (issuer bench).d, by decide +kernel, rfl, by decide +kernel, by decide +kernel, rfl, by decide +kernel⟩
  · exact ⟨asking 1, 0, asked, _, (issuer bench).w, (issuer bench).d, by decide +kernel, rfl, by decide +kernel, by decide +kernel, rfl, by decide +kernel⟩
/-- A strand that waits at a ring in which a slot is free again. -/
def ringWaiter : RingWait := ⟨.strand 0 0, 0, 0x10100, .acq false 8 0⟩
def waitingS : State :=
  { strand (ringS (blk 0 0 top top top top) 0) fun st => { st with parked := some (.ring, 0) } with ringWaits := [ringWaiter] }
theorem test_meets_ring_served : ∃ s w i x q b b' t, State.strandAt s w i = some x ∧
    (s.ringWaits.find? fun w => w.agent == Agent.strand x.wid x.sid) = some q ∧ (∀ c, Tbl.find s.ctxs q.ctx = some c → c.run = .running) ∧
    s.ringCheck q.ctx q.block = .ok b ∧ RingTakes b q.op b' t ∧ s.ringQueued q.ctx q.block q.op (s.ringWaits.takeWhile fun p => p != q) = false := by
  refine ⟨waitingS, 0, 0, issuer waitingS, ringWaiter, ringB (blk 0 0 top top top top), ringB (blk 0 0 0 top top top), BitVec.ofNat 32 top,
    by decide +kernel, by decide +kernel, ?_, ok_of (by decide +kernel),
    (by decide +kernel : _ < _ ∧ ringB (blk 0 0 0 top top top) = _ ∧ BitVec.ofNat 32 top = _), by decide +kernel⟩
  intro c h
  have e : Tbl.find waitingS.ctxs ringWaiter.ctx = some placeCtx := by decide +kernel
  rw [e] at h; cases h; rfl
/-- A pipeline of two stages with rings at 0x10100 and 0x10140: stage 0 may lose a crew or not; its crew waits for a claim. -/
def stageDesc : BitVec 1024 := BitVec.ofNat 1024 descWord
def pipe (minc : Nat) : Launch :=
  { placeLaunch with desc := stageDesc, placed := 3, stages := [⟨stageDesc, 0x10100, 0x10140, 2, minc, none, 2, false⟩, ⟨stageDesc, 0x10140, 0, 1, 1, some 0, 1, false⟩] }
def piping (minc : Nat) : State :=
  { crew (poke (poke bench 0x10100 64 (blk 0 0 0 0 0 0)) 0x10140 64 (blk 0 0 0 0 0 0)) fun c => { c with stage := some 0, fe := none } with
    time := 4096
    launches := [(0, pipe minc)]
    ringWaits := [⟨.strand 0 0, 0, 0x10100, .acq true 8 0⟩] }
theorem test_meets_reassign (minc : Nat) (h : minc = 1 ∨ minc = 2) : ∃ s lid i t l g, Tbl.find (State.launches s) lid = some l ∧ l.stages[i]? = some g ∧
    g.high = some t ∧ t + 4096 ≤ s.time ∧ l.out = none ∧ l.whole = true ∧ l.stageOver i g = false ∧ ((s.moveCrew lid l i).isSome = true ↔ minc = 1) := by
  rcases h with rfl | rfl
  · exact ⟨piping 1, 0, 1, 0, pipe 1, _, rfl, rfl, rfl, by decide +kernel, rfl, by decide +kernel, by decide +kernel, by decide +kernel⟩
  · exact ⟨piping 2, 0, 1, 0, pipe 2, _, rfl, rfl, rfl, by decide +kernel, rfl, by decide +kernel, by decide +kernel, by decide +kernel⟩
/-- The crews of stage 0 have all ended. -/
def drained : Launch := { pipe 1 with stages := [⟨stageDesc, 0x10100, 0x10140, 2, 1, none, 0, false⟩] }
def draining : State := { piping 1 with launches := [(0, drained)] }
theorem test_meets_stage_over : ∃ s lid i l g, Tbl.find (State.launches s) lid = some l ∧ l.stages[i]? = some g ∧ l.stageOver i g = true ∧
    g.outr ≠ 0 ∧ s.rangeFault l.ctx g.outr 64 .both = none :=
  ⟨draining, 0, 0, drained, _, rfl, rfl, by decide +kernel, by decide +kernel, by decide +kernel⟩
/-- A node at work, whose launch has an outcome. -/
def working (st : WorkSt) (out : LOut) : State :=
  { graphS 0x10200 1 1 0 with works := [(5, ⟨0, 0x10200, 0, 0, none, st, false, false⟩)], launches := (7, { placeLaunch with out := some out }) :: bench.launches }
theorem test_meets_node_ended : ∃ s id w o c, Tbl.find (State.works s) id = some w ∧ s.graphRuns w.ctx = true ∧
    s.graphPage w.ctx w.graph = none ∧ w.st = .ended o c :=
  ⟨working (.ended 2 0x62) .complete, 5, _, 2, 0x62, rfl, by decide +kernel, by decide +kernel, rfl⟩
theorem test_meets_node_launched (out : LOut) : ∃ s id w n l, Tbl.find (State.works s) id = some w ∧ s.graphRuns w.ctx = true ∧ s.graphPage w.ctx w.graph = none ∧
    w.st = .launched n ∧ Tbl.find s.launches n = some l ∧ l.out = some out := by
  cases out <;> exact ⟨working (.launched 7) _, 5, _, 7, _, rfl, by decide +kernel, by decide +kernel, rfl, rfl, rfl⟩
def walkingGraph (stat : Nat) : State := { graphS 0x10200 1 stat 1 with cwalks := [(5, ⟨0, 0x10200, [0]⟩)] }
theorem test_meets_cancel_walk (stat : Nat) (h : stat = 0 ∨ stat = 5) : ∃ s id i w rest, Tbl.find (State.cwalks s) id = some w ∧
    s.graphRuns w.ctx = true ∧ s.graphPage w.ctx w.graph = none ∧ w.todo = i :: rest ∧ nStat (s.rec_ w.ctx (nodeVa w.graph i)) = stat := by
  rcases h with rfl | rfl
  · exact ⟨walkingGraph 0, 5, 0, _, [], rfl, by decide +kernel, by decide +kernel, rfl, by decide +kernel⟩
  · exact ⟨walkingGraph 5, 5, 0, _, [], rfl, by decide +kernel, by decide +kernel, rfl, by decide +kernel⟩
/-- One launch of class 7 pending, and the queue that the arbiter visits: an empty one, one without credit, one with it. -/
def arbiter (visit : Nat) (credit : Int) : State :=
  { bench with launches := bench.launches ++ [(7, pendingLaunch)], visiting := [(0, visit)], deficits := [(7, credit)] }
def ArbHyps (s : State) (die i part cls : Nat) : Prop :=
  (∃ q ∈ s.queuesOf die, s.queue q.1 die q.2 ≠ []) ∧ i = ((Tbl.find s.visiting die).getD 0) % (s.queuesOf die).length ∧
  (s.queuesOf die)[i]? = some (part, cls)
theorem test_meets_arbiter_empty : ∃ s die i part cls, ArbHyps s die i part cls ∧ s.queue part die cls = [] :=
  ⟨arbiter 6 0, 0, 6, 0, 6, ⟨⟨(0, 7), by decide +kernel, by decide +kernel⟩, by decide +kernel, by decide +kernel⟩, by decide +kernel⟩
theorem test_meets_arbiter_credit (credit : Int) (h : credit = 0 ∨ credit = 1) : ∃ s die i part cls, ArbHyps s die i part cls ∧
    s.queue part die cls ≠ [] ∧ s.deficit part die cls = credit := by
  rcases h with rfl | rfl
  · exact ⟨arbiter 7 0, 0, 7, 0, 7, ⟨⟨(0, 7), by decide +kernel, by decide +kernel⟩, by decide +kernel, by decide +kernel⟩, by decide +kernel, by decide +kernel⟩
  · exact ⟨arbiter 7 1, 0, 7, 0, 7, ⟨⟨(0, 7), by decide +kernel, by decide +kernel⟩, by decide +kernel, by decide +kernel⟩, by decide +kernel, by decide +kernel⟩
/-- A crew whose warp has ended and whose front-end context has stopped; one that waits for a queue. -/
def front (f : FrontEnd → FrontEnd) (s : State) : State := crew s fun c => { c with fe := c.fe.map f }
def over_ : State := warp (front (fun f => { f with stopped := some { cause := 0 } }) bench) fun w => { w with strands := [], ended := true }
theorem test_meets_crew_end : ∃ s cid k, Tbl.find (State.crews s) cid = some k ∧ s.crewOver cid k = true :=
  ⟨over_, 0, (Tbl.find over_.crews 0).getD crew00, by decide +kernel, by decide +kernel⟩
def stalling : State := at_ (front (fun f => { f with stalled := some (.queue, 0) }) bench) (2 ^ 20)
theorem test_meets_front_stall : ∃ s cid t k f, Tbl.find (State.crews s) cid = some k ∧ k.fe = some f ∧ f.stalled = some (.queue, t) ∧
    f.stopped = none ∧ t + 2 ^ 20 ≤ s.time ∧ s.awake (s.crewCtx k) = true :=
  ⟨stalling, 0, 0, (Tbl.find stalling.crews 0).getD crew00, ((Tbl.find stalling.crews 0).bind Crew.fe).getD ⟨0, none, [], [], none, none, none⟩,
    by decide +kernel, by decide +kernel, by decide +kernel, by decide +kernel, by decide +kernel, by decide +kernel⟩

end Sys2Proof.Tests
end

