-- ==== Sys2Proof/Tests/Meets4.lean ====
section
/-! SUPPORT. For the statements about traps, class 6, headers and control of strands: for each clause, a state and operands that meet its
hypotheses together, at an edge of their range. -/

namespace Sys2Proof.Tests

set_option Elab.async false

open Sys2Proof.Machine

/-! ## Traps -/

def trap0 : Trap := { cause := 0xFF, eng := true, atHeader := true }
def vectored : State := csrs bench fun c => { c with tvec := 8 }
theorem test_meets_trap : ∃ s x, ∃ t : Trap, ∃ tpc : Pc, State.strandAt s x.wid x.sid = some x ∧ s.isRungHandler x = false ∧ x.st.level = 0 ∧
    x.w.otherHandler x.sid = false ∧ x.st.pends = [] ∧ x.d.csrs.tvec ≠ 0 ∧ tpc = (if t.atHeader then x.st.header else x.st.pc) ∧ Clear s x :=
  ⟨vectored, issuer vectored, trap0, 0x2000, by decide +kernel, by decide +kernel, by decide +kernel, by decide +kernel, by decide +kernel, by decide +kernel,
    by decide +kernel, clear_of (by decide +kernel)⟩
/-- The same with a load in flight, before or after the trap has been found. -/
def loading (t : Option Trap) : State :=
  strand vectored fun st => { st with pends := [⟨5, 15, [], none, 0, false, true, true, 0⟩], trapping := t }
theorem test_meets_trap_waits : ∃ s x, State.strandAt s x.wid x.sid = some x ∧ s.isRungHandler x = false ∧ x.st.level = 0 ∧
    x.w.otherHandler x.sid = false ∧ x.st.pends ≠ [] ∧ x.d.csrs.tvec ≠ 0 :=
  ⟨loading none, issuer (loading none), by decide +kernel⟩
theorem test_meets_trapping : (∃ s x, State.strandAt s x.wid x.sid = some x ∧ x.st.level = 0 ∧ x.d.csrs.tvec ≠ 0 ∧ x.st.trapping = some trap0 ∧
      x.st.pends ≠ []) ∧
    ∃ s x, State.strandAt s x.wid x.sid = some x ∧ x.st.level = 0 ∧ x.d.csrs.tvec ≠ 0 ∧ x.st.trapping = some trap0 ∧ x.st.pends = [] :=
  ⟨⟨loading (some trap0), issuer (loading (some trap0)), by decide +kernel⟩,
    strand vectored fun st => { st with trapping := some trap0 }, issuer (strand vectored fun st => { st with trapping := some trap0 }),
    by decide +kernel⟩
/-- A trap record of strand i. -/
def clause0 : Clause := ⟨0x2000, 0, 1, false, [0]⟩
def rec_ (i depth : Nat) : TrapRec := ⟨i, 0x2001, 0x2000, some clause0, 7, depth, 0⟩
def recorded (i depth : Nat) (s : State) : State := dom s fun d => { d with trapRec := some (rec_ i depth) }
theorem test_meets_trap_sibling : ∃ s x, ∃ t : Trap, ∃ tpc : Pc, State.strandAt s x.wid x.sid = some x ∧ tpc = (if t.atHeader then x.st.header else x.st.pc) ∧
    s.isRungHandler x = false ∧ x.st.level = 0 ∧ x.w.otherHandler x.sid = true :=
  ⟨recorded 15 0 vectored, issuer (recorded 15 0 vectored), trap0, _, by decide +kernel, rfl, by decide +kernel⟩
theorem test_meets_trap_no_handler : ∃ s x, ∃ t : Trap, ∃ tpc : Pc, State.strandAt s x.wid x.sid = some x ∧
    tpc = (if t.atHeader then x.st.header else x.st.pc) ∧ s.isRungHandler x = false ∧ x.st.level = 0 ∧ x.w.otherHandler x.sid = false ∧
    x.st.pends = [] ∧ x.d.csrs.tvec = 0 ∧ x.st.dom = 0 :=
  ⟨bench, issuer bench, trap0, _, by decide +kernel, rfl, by decide +kernel⟩
/-- A strand in the warp-rung handler, with its own trap to return from, or another's. -/
def handling (depth : Nat) (stack : List Pc) : State :=
  strand (recorded 0 depth vectored) fun st => { st with level := 1, rstack := stack }
theorem test_meets_trap_in_handler : ∃ s x, ∃ t : Trap, ∃ tpc : Pc, ∃ r, State.strandAt s x.wid x.sid = some x ∧
    tpc = (if t.atHeader then x.st.header else x.st.pc) ∧ s.isRungHandler x = false ∧ x.st.level = 1 ∧ x.st.dom = 0 ∧ x.d.trapRec = some r :=
  ⟨handling 0 [], issuer (handling 0 []), trap0, _, rec_ 0 0, by decide +kernel, rfl, by decide +kernel⟩
/-- Strand 16 of the warp runs the crew-rung handler, which strand 0 has opened. -/
def rung : CrewRung := ⟨0, 16, Csrs.fresh 0 0, 0, 0, false, 0, 0⟩
def runged (tpc : Dword) : State :=
  { warp (crew (csrs (handling 0 []) fun c => { c with tpc := tpc }) fun c => { c with rung := some rung }) fun w =>
      { w with strands := Tbl.put w.strands 16 { placeStrand 0x2001 (some clause0) with level := 1 } } with cur := .strand 0 16 }
theorem test_meets_trap_in_rung : ∃ s x, ∃ t : Trap, ∃ tpc : Pc, State.strandAt s x.wid x.sid = some x ∧
    tpc = (if t.atHeader then x.st.header else x.st.pc) ∧ s.isRungHandler x = true ∧ x.st.dom = 0 :=
  ⟨runged 0, issuer (runged 0), trap0, _, by decide +kernel, rfl, by decide +kernel⟩

/-- Strand 0 has come to the crew rung, where it has stopped, or another is inside its clause still; a handler runs there, or none. -/
def req : RungReq := ⟨0, 0, trap0, 0x2000, 0xCA, 0xFF, false, 0⟩
def chained (v : Dword) : State :=
  crew (csrs (strand bench fun st => { st with parked := some (.handler, 0) }) fun c => { c with tvecc := v }) fun c => { c with rungQ := [req] }
def crewIn (s : State) : Crew := (Tbl.find s.crews 0).getD (placeCrew ⟨0, none, [], [], none, none, none⟩)
def warpIn (s : State) : Warp := (Tbl.find s.warps 0).getD (placeWarp [])
theorem test_meets_rung_turn : ∃ s u : State, ∃ crew, ∃ r : RungReq, ∃ x, u = { s with cur := .strand r.warp r.sid } ∧ State.who u = some x ∧ x.wid = r.warp ∧
    x.sid = r.sid ∧ x.w.crew = crew ∧ u.mayIssue x = false ∧ r.fe = false :=
  ⟨chained 8, _, 0, req, issuer (chained 8), rfl, by decide +kernel⟩
def openP (r : RungReq) : Bool := !r.fe && r.warp == 0 && r.sid == 0
def entered : State := crew (chained 8) fun c => { c with rung := some rung }
def inside : State := warp (chained 8) fun w => { w with strands := Tbl.put w.strands 1 (placeStrand 0x2001 (some clause0)) }
theorem test_meets_rung_busy : ∃ s crew k, ∃ r : RungReq, ∃ rest, ∃ p : RungReq → Bool, Tbl.find (State.crews s) crew = some k ∧ k.rungQ = r :: rest ∧ p r = true ∧
    k.rung.isSome = true :=
  ⟨entered, 0, crewIn entered, req, [], openP, by decide +kernel⟩
theorem test_meets_rung_early : ∃ s crew k, ∃ r : RungReq, ∃ rest, ∃ p : RungReq → Bool, Tbl.find (State.crews s) crew = some k ∧ k.rungQ = r :: rest ∧ p r = true ∧
    s.crewStopped k r = false :=
  ⟨inside, 0, crewIn inside, req, [], openP, by decide +kernel⟩
theorem test_meets_rung (v : Dword) (h : v = 0 ∨ v = 8) : ∃ s crew k, ∃ r : RungReq, ∃ rest, ∃ p : RungReq → Bool, ∃ ow h hw d c, Tbl.find (State.crews s) crew = some k ∧
    k.rungQ = r :: rest ∧ p r = true ∧ k.rung = none ∧ s.crewStopped k r = true ∧ Tbl.find s.ctxs (s.crewCtx k) = some c ∧ c.run = .running ∧
    Tbl.find s.warps r.warp = some ow ∧ s.handlerWarp k = some (hw, h) ∧ h.dom 0 = some d ∧ d.csrs.tvecc = v := by
  rcases h with rfl | rfl
  · exact ⟨chained 0, 0, crewIn (chained 0), req, [], openP, warpIn (chained 0), warpIn (chained 0), 0, (issuer (chained 0)).d, placeCtx, by decide +kernel⟩
  · exact ⟨chained 8, 0, crewIn (chained 8), req, [], openP, warpIn (chained 8), warpIn (chained 8), 0, (issuer (chained 8)).d, placeCtx, by decide +kernel⟩

/-! ## Class 6 -/

/-- A handler at the depth of its trap, whose TPC names the first word of the trap's clause. -/
def returning : State := csrs (handling 1 [0x2002]) fun c => { c with tpc := 0x2001 }
theorem test_meets_tret : ∃ s x f r pc cl, Clear s x ∧ x.st.level ≠ 0 ∧ s.isRungHandler x = false ∧ x.d.trapRec = some r ∧ x.st.rstack.length = r.depth ∧
    TretF.mode f ≠ .kill ∧ s.tretPlace x.core x.d.ctx r (x.d.csrs.tpc.extractLsb' 0 53) f.mode = .at_ pc cl :=
  ⟨returning, issuer returning, ⟨true, .skip⟩, rec_ 0 1, 0x2002, none, clear_of (by decide +kernel), by decide +kernel⟩
theorem test_meets_tret_kill : ∃ s x f r, Clear s x ∧ x.st.level ≠ 0 ∧ s.isRungHandler x = false ∧ x.d.trapRec = some r ∧ x.st.rstack.length = r.depth ∧
    TretF.mode f = .kill ∧ x.st.dom = 0 :=
  ⟨returning, issuer returning, ⟨false, .kill⟩, rec_ 0 1, clear_of (by decide +kernel), by decide +kernel, by decide +kernel, by decide +kernel,
    by decide +kernel, rfl, by decide +kernel⟩
def opener (s : State) : Who := (s.strandAt 0 0).getD (issuer s)
theorem test_meets_tret_rung : ∃ s x f k r y rc pc cl, Clear s x ∧ x.st.level ≠ 0 ∧ s.isRungHandler x = true ∧ x.st.dom = 0 ∧
    Tbl.find s.crews x.w.crew = some k ∧ k.rung = some r ∧ x.st.rstack = [] ∧ x.st.pends = [] ∧ r.fe = false ∧ TretF.mode f ≠ .kill ∧
    s.strandAt r.openWarp r.openSid = some y ∧ y.d.trapRec = some rc ∧
    s.tretPlace y.core y.d.ctx rc (x.d.csrs.tpc.extractLsb' 0 53) f.mode = .at_ pc cl :=
  ⟨runged 0x2002, issuer (runged 0x2002), ⟨false, .resume⟩, crewIn (runged 0x2002), rung, opener (runged 0x2002), rec_ 0 0, 0x2002, none,
    clear_of (by decide +kernel), by decide +kernel⟩
theorem test_meets_tkill : (∃ s x, Clear s x ∧ x.st.level ≠ 0 ∧ x.sid ≠ 16) ∧ ∃ s x, Clear s x ∧ x.st.level ≠ 0 ∧ x.sid = 16 :=
  ⟨⟨handling 0 [], issuer (handling 0 []), clear_of (by decide +kernel), by decide +kernel⟩,
    runged 0, issuer (runged 0), clear_of (by decide +kernel), by decide +kernel⟩

theorem test_meets_csrrd : ∃ s x f v, Clear s x ∧ s.csrRead x (CsrF.csr f).toNat = some v ∧ OperandsOk s x { srcs := [], dst := some (.s f.k, 2) } :=
  ⟨bench, issuer bench, ⟨46, 0x031⟩, 0, clear_of (by decide +kernel), by decide +kernel, operands_of (by decide +kernel) fun _ => rfl⟩
def cause1FF : State := pair (handling 0 []) 46 0x1FF
theorem test_meets_csrwr : ∃ s x f v, Clear s x ∧ (s.csrRead x (CsrF.csr f).toNat).isSome = true ∧ csrWriteLevel f.csr.toNat ≠ 2 ∧
    (csrWriteLevel f.csr.toNat = 1 → x.st.level ≠ 0) ∧ OperandsOk s x { srcs := [(.s f.k, 2)] } ∧ v = s.pair x.core x.d f.k.val ∧
    csrValueOk f.csr.toNat v = true :=
  ⟨cause1FF, issuer cause1FF, ⟨46, 0x008⟩, _, clear_of (by decide +kernel), by decide +kernel, by decide, by decide +kernel,
    operands_of (by decide +kernel) fun _ => rfl, rfl, by decide +kernel⟩
theorem test_meets_tlbinv : ∃ s x k, Clear s x ∧ x.st.level ≠ 0 ∧ OperandsOk s x { srcs := [(.s k, 2)] } :=
  ⟨handling 0 [], issuer (handling 0 []), 46, clear_of (by decide +kernel), by decide +kernel, operands_of (by decide +kernel) fun _ => rfl⟩
theorem test_meets_drain : ∃ s x f n, Clear s x ∧ (∀ m t, x.st.parked = some (.drain m, t) → n = m) ∧
    ((∀ m t, x.st.parked ≠ some (.drain m, t)) → n = s.nextId) ∧ (DrainF.ld f = true → s.loadsDone x = true) ∧ (f.st = true → s.settled x.agent = true) ∧
    (f.eng = true → ∀ p ∈ s.cmds, p.1 < n → p.2.fe = false → p.2.wid ≠ x.wid) :=
  ⟨bench, issuer bench, ⟨true, true, true⟩, _, clear_of (by decide +kernel), fun m t h => (by rw [show (issuer bench).st.parked = none by decide +kernel] at h; cases h),
    fun _ => rfl, by decide +kernel, by decide +kernel, by decide +kernel⟩
/-- A store of the strand that is not acknowledged, while its `drain` waits. -/
def unacked (s : State) : State :=
  { strand s fun st => { st with parked := some (.drain 9, 0) } with
    accs := [(3, ⟨.strand 0 0, 0, .store, 4, false, 0, [], [], none, false, true, false, 0, 0, 0⟩)] }
theorem test_meets_drain_waits : ∃ s x f n, Clear s x ∧ (∀ m t, x.st.parked = some (.drain m, t) → n = m) ∧
    ((∀ m t, x.st.parked ≠ some (.drain m, t)) → n = s.nextId) ∧ (DrainF.ld f = true ∧ s.loadsDone x = false ∨ f.st = true ∧ s.settled x.agent = false ∨
    f.eng = true ∧ ∃ p ∈ s.cmds, p.1 < n ∧ p.2.fe = false ∧ p.2.wid = x.wid) := by
  have e : (issuer (unacked bench)).st.parked = some (.drain 9, 0) := by decide +kernel
  exact ⟨unacked bench, issuer (unacked bench), ⟨false, true, false⟩, 9, clear_of (by decide +kernel),
    fun m t h => (by rw [e] at h; cases h; rfl), fun h => absurd e (h 9 0), .inr (.inl ⟨rfl, by decide +kernel⟩)⟩
theorem test_meets_privileged : ∃ s x, ∃ f : CsrF, Clear s x ∧ x.st.level = 0 ∧
    f.csr.toNat ∈ [0x008, 0x009, 0x00A, 0x00B, 0x00C, 0x00D, 0x010, 0x011, 0x012, 0x023, 0x024] :=
  ⟨bench, issuer bench, ⟨46, 0x024⟩, clear_of (by decide +kernel), by decide +kernel, by decide⟩
theorem test_meets_read_only : ∃ s x, ∃ f : CsrF, Clear s x ∧
    f.csr.toNat ∈ [0x001, 0x002, 0x003, 0x018, 0x019, 0x01B, 0x020, 0x021, 0x030, 0x031] :=
  ⟨bench, issuer bench, ⟨46, 0x031⟩, clear_of (by decide +kernel), by decide⟩
theorem test_meets_unlisted : ∃ s x, ∃ f : CsrF, Clear s x ∧ s.csrRead x f.csr.toNat = none :=
  ⟨bench, issuer bench, ⟨46, 0x004⟩, clear_of (by decide +kernel), by decide +kernel⟩
theorem test_meets_value : ∃ s x, ∃ f : CsrF, Clear s x ∧ f.csr.toNat ∈ [0x000, 0x01A] ∧ OperandsOk s x { srcs := [(.s f.k, 2)] } ∧
    csrValueOk f.csr.toNat (s.pair x.core x.d f.k.val) = false :=
  ⟨pair bench 46 6, issuer (pair bench 46 6), ⟨46, 0x000⟩, clear_of (by decide +kernel), by decide, operands_of (by decide +kernel) fun _ => rfl,
    by decide +kernel⟩

/-- Gate 1023, valid for any context: entry 0x10000, 8 registers, one argument; a pool of p granules. -/
def gate1023 : BitVec 512 := BitVec.ofNat 512 (2 ^ 511 + 2 ^ 510 + 2 ^ 481 + 2 ^ 476 + 0x10000 * 2 ^ 392)
def pooled (p : Nat) : State := { core bench fun c => { c with pool := p } with gates := [(1023, gate1023)] }
def GateHyps (s : State) (x : Who) (gi : BitVec 10) (g : BitVec 512) (n : Nat) : Prop :=
  Clear s x ∧ g = s.gate gi.toNat ∧ g.getLsbD 511 = true ∧ gfield g 504 500 = s.partOf x.d.ctx ∧
  (g.getLsbD 510 = true ∨ s.gatePermits g x.d.ctx = true) ∧ gdepth x.w 8 x.st.dom ≠ 4 ∧ (∀ k, x.d.call = some k → k.nest = true) ∧
  gfield g 480 476 ≤ x.d.fv ∧ gfield g 475 471 ≤ x.d.fv ∧
  (∀ l ∈ lanesOf x.st.em, ∀ k, k < gfield g 480 476 →
    ((s.core x.core).gran (x.d.lane x.width k l / 128)).own = false ∧ ((s.core x.core).gran (x.d.lane x.width k l / 128)).val = true) ∧
  n = (1152 + 8 * gfield g 487 481 * x.width + 127) / 128
theorem gate_hyps (p : Nat) (h : p = 9 ∨ p = 10) : GateHyps (pooled p) (issuer (pooled p)) 1023 gate1023 10 := by
  have nc : ∀ k, (issuer (pooled p)).d.call = some k → k.nest = true := by
    have e : (issuer (pooled p)).d.call = none := by rcases h with rfl | rfl <;> decide +kernel
    intro k hk; rw [e] at hk; cases hk
  rcases h with rfl | rfl <;>
    exact ⟨clear_of (by decide +kernel), by decide +kernel, by decide +kernel, by decide +kernel, .inl (by decide +kernel), by decide +kernel, nc,
      by decide +kernel, by decide +kernel, by decide +kernel, by decide +kernel⟩
theorem test_meets_gcall : ∃ s x gi g n i dn, GateHyps s x gi g n ∧ (s.core x.core).findPool n = some i ∧ Tbl.freeFrom x.w.doms 128 1 = some dn :=
  ⟨pooled 10, issuer (pooled 10), 1023, gate1023, 10, 0, 1, gate_hyps 10 (.inr rfl), by decide +kernel, by decide +kernel⟩
theorem test_meets_gcall_pool : ∃ s x gi g n, GateHyps s x gi g n ∧ (s.core x.core).findPool n = none :=
  ⟨pooled 9, issuer (pooled 9), 1023, gate1023, 10, gate_hyps 9 (.inl rfl), by decide +kernel⟩
/-- A strand in domain 1, which domain 0 has called; another strand of the call runs, or there is none. -/
def call1 : Call := ⟨1023, false, false, 1, 0, 0, 0x2002, none, 15, 15, [], 0, 0, none, 0, 0, [], []⟩
def calledS (two : Bool) : State :=
  warp (strand bench fun st => { st with dom := 1 }) fun w =>
    { w with
      doms := Tbl.put w.doms 1 { placeDom with fv := 8, call := some call1 }
      strands := if two then Tbl.put w.strands 1 { placeStrand 0x2002 none with dom := 1 } else w.strands }
theorem test_meets_gret_waits : ∃ s x k, Clear s x ∧ x.d.call = some k ∧ x.st.rstack = [] ∧ callGathered x = false :=
  ⟨calledS true, issuer (calledS true), call1, clear_of (by decide +kernel), by decide +kernel, by decide +kernel, by decide +kernel⟩
theorem test_meets_gret : ∃ s x k cd, Clear s x ∧ x.d.call = some k ∧ x.st.rstack = [] ∧ callGathered x = true ∧ x.w.dom k.callerDom = some cd ∧
    k.callerDom ≠ x.st.dom ∧ (∀ p ∈ x.w.strands, p.2.dom = x.st.dom → p.2.pends = []) ∧ (∀ c ∈ s.cmds, ¬ (c.2.wid = x.wid ∧ c.2.dom = x.st.dom)) ∧
    (∀ i ∈ s.calleeWins x, s.winBusy x.core i = false) ∧ (∀ p ∈ x.w.pfaults, p.dom ≠ x.st.dom) ∧
    ∀ i, i < 4 → s.scalarBusy x.wid k.callerDom i = false :=
  ⟨calledS false, issuer (calledS false), call1, placeDom, clear_of (by decide +kernel), by decide +kernel⟩
/-- A result of the callee is in flight. -/
def calledBusy : State := strand (calledS false) fun st => { st with pends := [⟨5, 15, [], none, 0, true, false, true, 1⟩] }
theorem test_meets_gret_busy : ∃ s x k, Clear s x ∧ x.d.call = some k ∧ x.st.rstack = [] ∧ callGathered x = true ∧
    ∃ p ∈ x.w.strands, p.2.dom = x.st.dom ∧ p.2.pends ≠ [] :=
  ⟨calledBusy, issuer calledBusy, call1, clear_of (by decide +kernel), by decide +kernel⟩
/-- A callee whose TVEC is 0 traps; it kills its own call from its handler; its call is killed, with a result register on the engine side. -/
theorem test_meets_callee_trap : ∃ s x, State.strandAt s x.wid x.sid = some x ∧ x.st.dom ≠ 0 ∧ x.st.level = 0 ∧ x.w.otherHandler x.sid = false ∧
    x.st.pends = [] ∧ x.d.csrs.tvec = 0 :=
  ⟨calledS false, issuer (calledS false), by decide +kernel⟩
def calledHandler : State :=
  warp (strand (calledS false) fun st => { st with level := 1 }) fun w => { w with doms := Tbl.upd w.doms 1 fun d => { d with trapRec := some (rec_ 0 0) } }
theorem test_meets_callee_kill : ∃ s x r, Clear s x ∧ x.st.level ≠ 0 ∧ x.st.dom ≠ 0 ∧ x.d.trapRec = some r ∧ x.st.rstack.length = r.depth :=
  ⟨calledHandler, issuer calledHandler, rec_ 0 0, clear_of (by decide +kernel), by decide +kernel⟩
def calleeDom : Dom := { placeDom with fv := 8, call := some call1 }
theorem test_meets_call_killed : ∃ s wid dn w d cd k, Tbl.find (State.warps s) wid = some w ∧ w.dom dn = some d ∧ d.call = some k ∧ k.callerDom ≠ dn ∧
    w.dom k.callerDom = some cd ∧ (w.doms.all fun p => p.1 == 0 || p.2.call.all fun c => c.callerDom != dn) = true ∧
    (∀ c ∈ s.cmds, ¬ (c.2.wid = wid ∧ c.2.dom = dn)) ∧
    ((s.core (coreOf wid)).gran (cd.lane w.width 0 0 / 128)).own = true ∧ 0 < k.nres ∧ 0 ∈ lanesOf k.em :=
  ⟨core (calledS false) fun c => c.setGran (placeDom.lane 4 0 0 / 128) ⟨true, false, true, true⟩, 0, 1, (issuer (calledS false)).w, calleeDom, placeDom,
    call1, by decide +kernel⟩

/-! ## Headers and control -/

/-- A strand at its clause header. -/
def atHeader (s : State) : State := strand s fun st => { st with pc := 0x2000, clause := none }
def free_parked (x : Who) : Prop := ∀ p, x.st.parked = some p → p.1.byEvent = false
theorem free_of {x : Who} (h : (x.st.parked.all fun p => !p.1.byEvent) = true) : free_parked x := by
  intro p hp; rw [hp] at h; simpa using h
def AtHeader (s : State) (x : Who) : Prop := s.who = some x ∧ free_parked x ∧ x.st.stepArm ≠ 2 ∧ s.reachJoin x.wid x.sid = none
def hdr (cls : Fin 8) : Header := ⟨cls, 0, true, 0, false, false, false, 0, 0⟩
theorem test_meets_header_seven : ∃ s x h, AtHeader s x ∧ (Header.cls h).val = 7 :=
  ⟨atHeader bench, issuer (atHeader bench), hdr 7, ⟨by decide +kernel, free_of (by decide +kernel), by decide +kernel, by decide +kernel⟩, rfl⟩
/-- A header on the last unit of the code page; the page behind it may not be executed. -/
def atEdge : State :=
  core (strand bench fun st => { st with pc := 0x3FFF, clause := none }) fun c =>
    { c with tlb := [⟨0, 0x10000, 16, 0x10000, true, true, true, false⟩, ⟨0, 0x20000, 16, 0x20000, true, true, false, false⟩] }
theorem test_meets_header_fault : ∃ s x h c d va, AtHeader s x ∧ (Header.cls h).val ≠ 7 ∧
    s.clauseBody x.core x.d.ctx x.st.pc (h.cnt.val + 1) = .error (.bad c d, va) :=
  ⟨atEdge, issuer atEdge, hdr 6, 0x4A, 0, 0x20000, ⟨by decide +kernel, free_of (by decide +kernel), by decide +kernel, by decide +kernel⟩,
    by decide, by rfl⟩
def SwenOk (h : Header) (s : State) (x : Who) : Prop :=
  h.swen = true → (∀ a ∈ [x.d.scal h.swk.toNat, x.d.scal (h.swk.toNat + 1), x.d.scal h.swg.toNat], (s.core x.core).mark a = 0) ∧
    s.pendingOn x.wid x.st.dom h.swk.toNat = none
def AtOpen (s : State) (x : Who) (h : Header) : Prop :=
  AtHeader s x ∧ h.cls.val ≠ 7 ∧ (s.clauseBody x.core x.d.ctx x.st.pc (h.cnt.val + 1)).toOption.isSome = true ∧ SwenOk h s x
theorem test_meets_header_queue : ∃ s x h, AtOpen s x h ∧ queuesReady x h.qwait = false :=
  ⟨atHeader bench, issuer (atHeader bench), { hdr 6 with qwait := 1 },
    ⟨⟨by decide +kernel, free_of (by decide +kernel), by decide +kernel, by decide +kernel⟩, by decide, by decide +kernel, fun h => (by cases h)⟩,
    by decide +kernel⟩
/-- A header that waits for all it can: the output queues, the pair s46, loads and stores. -/
def full : Header := ⟨6, 0, true, 0xF0, true, true, true, 46, 5⟩
def awaited (g : Nat) : State := atHeader (scal (pair bench 46 (g * 2 ^ 48)) 5 1)
theorem test_meets_header_waits : ∃ s x h, AtOpen s x h ∧ queuesReady x h.qwait = true ∧
    (h.swen = true ∧ genReached (syncGen (s.pair x.core x.d h.swk.toNat)) ((s.scalar x.core x.d h.swg.toNat).toNat % 65536) = false ∨
      h.ldrn = true ∧ s.loadsDone x = false ∨ h.sack = true ∧ s.settled x.agent = false) :=
  ⟨awaited 0, issuer (awaited 0), full,
    ⟨⟨by decide +kernel, free_of (by decide +kernel), by decide +kernel, by decide +kernel⟩, by decide, by decide +kernel,
      fun _ => ⟨by decide +kernel, by decide +kernel⟩⟩, by decide +kernel, .inl ⟨rfl, by decide +kernel⟩⟩
theorem test_meets_header_opens : ∃ s x h, AtOpen s x h ∧ queuesReady x h.qwait = true ∧
    (h.swen = true → genReached (syncGen (s.pair x.core x.d h.swk.toNat)) ((s.scalar x.core x.d h.swg.toNat).toNat % 65536) = true) ∧
    (h.ldrn = true → s.loadsDone x = true) ∧ (h.sack = true → s.settled x.agent = true) :=
  ⟨awaited 0x8000, issuer (awaited 0x8000), full,
    ⟨⟨by decide +kernel, free_of (by decide +kernel), by decide +kernel, by decide +kernel⟩, by decide, by decide +kernel,
      fun _ => ⟨by decide +kernel, by decide +kernel⟩⟩, by decide +kernel, by decide +kernel, by decide +kernel, by decide +kernel⟩

def targetB (s : State) (core ctx : Nat) (p : Pc) : Bool := match s.fetchUnit core ctx p with
  | .unit w => Codec.isHeader w
  | _ => false
theorem target_of {s : State} {core ctx : Nat} {p : Pc} (h : targetB s core ctx p = true) : GoodTarget s core ctx p := by
  unfold targetB at h; unfold GoodTarget
  cases e : s.fetchUnit core ctx p with
  | unit w => rw [e] at h; exact ⟨w, rfl, h⟩
  | _ => rw [e] at h; cases h
theorem test_meets_bra : ∃ s x, ∃ t : BitVec 24, Clear s x ∧ GoodTarget s x.core x.d.ctx (x.st.header + t.signExtend 53) :=
  ⟨bench, issuer bench, 2, clear_of (by decide +kernel), target_of (by decide +kernel)⟩
/-- The lanes of m7. -/
def masked (m : Mask) : State := dom bench fun d => { d with masks := d.masks.set 7 m }
theorem test_meets_brc_none : ∃ s x f m inv taken, Clear s x ∧ BrcF.cond f = .mask m inv ∧
    taken = x.st.em &&& (if inv then ~~~x.d.mask m else x.d.mask m) ∧ taken = 0 :=
  ⟨masked 15, issuer (masked 15), ⟨.mask 7 true, 2, 0⟩, 7, true, 0, clear_of (by decide +kernel), rfl, by decide +kernel, rfl⟩
theorem test_meets_brc_all : ∃ s x f m inv taken, Clear s x ∧ BrcF.cond f = .mask m inv ∧
    taken = x.st.em &&& (if inv then ~~~x.d.mask m else x.d.mask m) ∧ taken ≠ 0 ∧ x.st.em &&& ~~~taken = 0 ∧
    GoodTarget s x.core x.d.ctx (x.st.header + f.tgt.signExtend 53) :=
  ⟨masked 15, issuer (masked 15), ⟨.mask 7 false, 2, 0⟩, 7, false, 15, clear_of (by decide +kernel), rfl, by decide +kernel, by decide, by decide +kernel,
    target_of (by decide +kernel)⟩
/-- Entry 15 alone is free. -/
def crowded : State := warp (masked 8) fun w =>
  { w with strands := w.strands ++ (List.range 14).map fun i => (i + 1, { placeStrand 0x2000 none with em := 0, mem := 0 }) }
theorem test_meets_brc_fork : ∃ s x f m inv taken, Clear s x ∧ BrcF.cond f = .mask m inv ∧
    taken = x.st.em &&& (if inv then ~~~x.d.mask m else x.d.mask m) ∧ taken ≠ 0 ∧ x.st.em &&& ~~~taken ≠ 0 ∧
    GoodTarget s x.core x.d.ctx (x.st.header + f.tgt.signExtend 53) ∧ f.join ≠ 0 ∧
    GoodTarget s x.core x.d.ctx (x.st.header + f.join.signExtend 53) ∧ x.w.freeEntries = [15] :=
  ⟨crowded, issuer crowded, ⟨.mask 7 false, 0, 2⟩, 7, false, 8, clear_of (by decide +kernel), rfl, by decide +kernel, by decide, by decide +kernel,
    target_of (by decide +kernel), by decide, target_of (by decide +kernel), by decide +kernel⟩
/-- A table of one entry behind the clauses, which leads back to the second header. -/
def tabled (stack : List Pc) : State :=
  poke (poke (strand bench fun st => { st with rstack := stack }) 0x10018 8 1) 0x10020 8 0xFFFFFF
theorem test_meets_brx : ∃ s x f e t u tp p, Clear s x ∧ OperandsOk s x { srcs := [(BrxF.idx f, 1)] } ∧ tp = x.st.header + f.off.signExtend 53 ∧
    x.st.em ≠ 0 ∧ (∀ l ∈ lanesOf x.st.em, (readyOf s x { srcs := [(f.idx, 1)] }).val 0 l = e) ∧ s.fetchUnit x.core x.d.ctx tp = .unit t ∧
    e < (t.extractLsb' 0 16).toNat ∧ t.extractLsb' 36 28 = 0 ∧ s.fetchUnit x.core x.d.ctx (tp + 1 + BitVec.ofNat 53 e) = .unit u ∧
    u.extractLsb' 24 40 = 0 ∧ p = tp + (u.extractLsb' 0 24).signExtend 53 ∧ GoodTarget s x.core x.d.ctx p ∧ x.st.rstack.length < 32 :=
  ⟨tabled (List.replicate 31 0), issuer (tabled (List.replicate 31 0)), ⟨3, .s 5⟩, 0, 1, 0xFFFFFF, 0x2003, 0x2002, clear_of (by decide +kernel),
    operands_of (by decide +kernel) fun _ => rfl, by decide +kernel, by decide +kernel, by decide +kernel, by decide +kernel, by decide +kernel,
    by decide +kernel, by decide +kernel, by decide +kernel, by decide +kernel, target_of (by decide +kernel), by decide +kernel⟩
def stacked (l : List Pc) : State := strand bench fun st => { st with rstack := l }
theorem test_meets_call (n : Nat) (h : n = 31 ∨ n = 32) : ∃ s x, ∃ t : BitVec 24, Clear s x ∧
    GoodTarget s x.core x.d.ctx (x.st.header + t.signExtend 53) ∧ x.st.rstack.length = n := by
  rcases h with rfl | rfl
  · exact ⟨stacked (List.replicate 31 0), issuer (stacked (List.replicate 31 0)), 2, clear_of (by decide +kernel), target_of (by decide +kernel),
      by decide +kernel⟩
  · exact ⟨stacked (List.replicate 32 0), issuer (stacked (List.replicate 32 0)), 2, clear_of (by decide +kernel), target_of (by decide +kernel),
      by decide +kernel⟩
theorem test_meets_ret : ∃ s x p rest, Clear s x ∧ x.st.rstack = p :: rest ∧
    (∀ a ∈ returnWords x.d x.sid rest.length, (s.core x.core).mark a = 0) ∧ GoodTarget s x.core x.d.ctx p :=
  ⟨stacked (List.replicate 32 0x2002), issuer (stacked (List.replicate 32 0x2002)), 0x2002, List.replicate 31 0x2002, clear_of (by decide +kernel),
    by decide +kernel, by decide +kernel, target_of (by decide +kernel)⟩
theorem test_meets_ret_empty : ∃ s x, Clear s x ∧ x.st.rstack = [] := ⟨bench, issuer bench, clear_of (by decide +kernel), by decide +kernel⟩
theorem test_meets_loop (n : Word) (h : n = 0 ∨ n = 1) : ∃ s x f k v, Clear s x ∧ k = (LoopF.k f).toNat ∧ k < 48 ∧
    s.scalarBusy x.wid x.st.dom k = false ∧ (s.core x.core).mark (x.d.scal k) = 0 ∧ v = s.scalar x.core x.d k - 1 ∧ v = n - 1 ∧
    GoodTarget s x.core x.d.ctx (x.st.header + f.tgt.signExtend 53) := by
  rcases h with rfl | rfl
  · exact ⟨scal bench 47 0, issuer (scal bench 47 0), ⟨47, 0⟩, 47, 0xFFFFFFFF, clear_of (by decide +kernel), rfl, by decide, by decide +kernel,
      by decide +kernel, by decide +kernel, rfl, target_of (by decide +kernel)⟩
  · exact ⟨scal bench 47 1, issuer (scal bench 47 1), ⟨47, 0⟩, 47, 0, clear_of (by decide +kernel), rfl, by decide, by decide +kernel,
      by decide +kernel, by decide +kernel, rfl, target_of (by decide +kernel)⟩
theorem test_meets_end_instr : (∃ s x, Clear s x ∧ x.st.dom = 0 ∧ x.sid ≠ 16 ∧ x.st.mem &&& ~~~x.st.em = 0) ∧
    (∃ s x, Clear s x ∧ x.st.dom = 0 ∧ x.sid ≠ 16 ∧ x.st.mem &&& ~~~x.st.em ≠ 0) ∧ ∃ s x, Clear s x ∧ x.st.dom ≠ 0 :=
  ⟨⟨bench, issuer bench, clear_of (by decide +kernel), by decide +kernel⟩,
    ⟨strand bench fun st => { st with em := 7 }, issuer (strand bench fun st => { st with em := 7 }), clear_of (by decide +kernel), by decide +kernel⟩,
    calledS false, issuer (calledS false), clear_of (by decide +kernel), by decide +kernel⟩

end Sys2Proof.Tests
end

