-- ==== Sys2Proof/Tests/Meets5.lean ====
section
/-! SUPPORT. For the statements about front-end contexts: for each clause, a state and operands that meet its hypotheses together, at an edge
of their range. -/

namespace Sys2Proof.Tests

set_option Elab.async false

open Sys2Proof.Machine

/-- The context of the crew has the turn, at the word of a clause of class 7, with f done to it. -/
def fe0 : FrontEnd := ⟨0x2001, some ⟨0x2000, 7, 1, false, [0]⟩, List.replicate 32 0, [], none, none, none⟩
def feS (f : FrontEnd → FrontEnd) (s : State) : State := { crew s fun c => { c with fe := some (f fe0) } with cur := .fe 0 }
def feCrew (s : State) : Crew := (Tbl.find s.crews 0).getD (placeCrew fe0)
def feWho (s : State) : FeWho := ⟨0, feCrew s, (feCrew s).fe.getD fe0, s.crewCtx (feCrew s)⟩
def feB (s : State) : Bool :=
  decide (s.cur = .fe 0) && decide (Tbl.find s.crews 0 = some (feCrew s)) && decide ((feCrew s).fe = some ((feCrew s).fe.getD fe0)) &&
    decide (((feCrew s).fe.getD fe0).stopped = none)
theorem fe_of {s : State} (h : feB s = true) : FeClear s (feWho s) := by
  simp only [feB, Bool.and_eq_true, decide_eq_true_eq] at h
  exact ⟨h.1.1.1, h.1.1.2, h.1.2, rfl, h.2⟩
theorem free_regs {s : State} {x : FeWho} {l : List Nat} (h : s.accs = []) : FeFree s x l := by
  intro p hp; rw [h] at hp; cases hp
def feTargetB (s : State) (p : Pc) : Bool := match s.fetchUnit (feWho s).k.core (feWho s).ctx p with
  | .unit w => Codec.isHeader w
  | _ => false
theorem fe_target {s : State} {p : Pc} (h : feTargetB s p = true) : GoodTarget s (feWho s).k.core (feWho s).ctx p := by
  unfold feTargetB at h; unfold GoodTarget
  cases e : s.fetchUnit (feWho s).k.core (feWho s).ctx p with
  | unit w => rw [e] at h; exact ⟨w, rfl, h⟩
  | _ => rw [e] at h; cases h

/-! ## Headers, illegal opcodes, control -/

def feAtHeader : State := feS (fun f => { f with pc := 0x2000, clause := none }) bench
def fh (cls : Fin 8) (yld : Bool) : Header := ⟨cls, 0, yld, 0, false, false, false, 0, 0⟩
theorem test_meets_fe_header_bad : ∃ s x h, FeClear s x ∧ (Header.cls h).val = 7 ∧ h.yld = true :=
  ⟨feAtHeader, feWho feAtHeader, fh 7 true, fe_of (by decide +kernel), rfl, rfl⟩
theorem test_meets_fe_header_class : ∃ s x h, FeClear s x ∧ (Header.cls h).val ≠ 7 :=
  ⟨feAtHeader, feWho feAtHeader, fh 6 false, fe_of (by decide +kernel), by decide⟩
theorem test_meets_fe_header : ∃ s x h, FeClear s x ∧ (Header.cls h).val = 7 ∧ h.qwait = 0 ∧ h.ldrn = false ∧ h.sack = false ∧ h.swen = false ∧
    h.yld = false ∧ (s.clauseBody x.k.core x.ctx x.f.pc (h.cnt.val + 1)).toOption.isSome = true :=
  ⟨feAtHeader, feWho feAtHeader, fh 7 false, fe_of (by decide +kernel), by decide +kernel⟩
def feBench : State := feS id bench
theorem test_meets_fe_bra : ∃ s x, ∃ t : BitVec 24, FeClear s x ∧ GoodTarget s x.k.core x.ctx (x.f.header + t.signExtend 53) ∧
    x.f.rstack.length < 32 :=
  ⟨feS (fun f => { f with rstack := List.replicate 31 0 }) bench, feWho (feS (fun f => { f with rstack := List.replicate 31 0 }) bench), 2,
    fe_of (by decide +kernel), fe_target (by decide +kernel), by decide +kernel⟩
/-- Register a31 holds 1. -/
def a31 (v : Dword) : State := feS (fun f => { f with regs := f.regs.set 31 v }) bench
theorem test_meets_fe_brc (inv : Bool) : ∃ s x f k, FeClear s x ∧ BrcF.cond f = .areg k inv ∧ f.join = 0 ∧ FeFree s x [k.val] ∧
    (if inv then x.reg k.val = 0 else x.reg k.val ≠ 0) ∧ GoodTarget s x.k.core x.ctx (x.f.header + f.tgt.signExtend 53) := by
  cases inv
  · exact ⟨a31 1, feWho (a31 1), ⟨.areg 31 false, 2, 0⟩, 31, fe_of (by decide +kernel), rfl, rfl, free_regs rfl, by decide +kernel,
      fe_target (by decide +kernel)⟩
  · exact ⟨a31 0, feWho (a31 0), ⟨.areg 31 true, 2, 0⟩, 31, fe_of (by decide +kernel), rfl, rfl, free_regs rfl, by decide +kernel,
      fe_target (by decide +kernel)⟩
theorem test_meets_fe_brc_not (inv : Bool) : ∃ s x f k, FeClear s x ∧ BrcF.cond f = .areg k inv ∧ f.join = 0 ∧ FeFree s x [k.val] ∧
    (if inv then x.reg k.val ≠ 0 else x.reg k.val = 0) := by
  cases inv
  · exact ⟨a31 0, feWho (a31 0), ⟨.areg 31 false, 2, 0⟩, 31, fe_of (by decide +kernel), rfl, rfl, free_regs rfl, by decide +kernel⟩
  · exact ⟨a31 1, feWho (a31 1), ⟨.areg 31 true, 2, 0⟩, 31, fe_of (by decide +kernel), rfl, rfl, free_regs rfl, by decide +kernel⟩
theorem test_meets_fe_ret : ∃ s x p rest, FeClear s x ∧ x.f.rstack = p :: rest ∧ GoodTarget s x.k.core x.ctx p :=
  ⟨feS (fun f => { f with rstack := [0x2002] }) bench, feWho (feS (fun f => { f with rstack := [0x2002] }) bench), 0x2002, [], fe_of (by decide +kernel),
    by decide +kernel, fe_target (by decide +kernel)⟩
theorem test_meets_fe_loop (v : Dword) (h : v = 0 ∨ v = 1) : ∃ s x f k, FeClear s x ∧ k = (LoopF.k f).toNat ∧ k < 32 ∧ FeFree s x [k] ∧ x.reg k = v ∧
    GoodTarget s x.k.core x.ctx (x.f.header + f.tgt.signExtend 53) := by
  rcases h with rfl | rfl
  · exact ⟨a31 0, feWho (a31 0), ⟨31, 0⟩, 31, fe_of (by decide +kernel), rfl, by decide, free_regs rfl, by decide +kernel, fe_target (by decide +kernel)⟩
  · exact ⟨a31 1, feWho (a31 1), ⟨31, 0⟩, 31, fe_of (by decide +kernel), rfl, by decide, free_regs rfl, by decide +kernel, fe_target (by decide +kernel)⟩

/-! ## Arithmetic and queues -/

theorem test_meets_fe_arith : ∃ i q s x, feRule i = some q ∧ FeClear s x ∧ FeFree s x (AOpnd.regs q.d ++ AOpnd.regs q.a ++ AOpnd.regs q.b) :=
  ⟨.aadd ⟨.a 31, .a 31, .a 0⟩, _, feBench, feWho feBench, rfl, fe_of (by decide +kernel), free_regs rfl⟩
/-- A load of the context to a31 on its way; a store of it that is not performed. -/
def ofFe (k : AccKind) (pend : Option Nat) (dst : List (Nat × Nat)) : State :=
  { feBench with accs := [(3, ⟨.fe 0, 0, k, 8, false, 0, [⟨0, 0x10100, 0x10100, [], 0, 0, 0, dst⟩], [], pend, false, false, false, 0, 0, 0⟩)] }
theorem test_meets_fe_arith_waits : ∃ i q s x, feRule i = some q ∧ FeClear s x ∧ ¬ FeFree s x (AOpnd.regs q.d ++ AOpnd.regs q.a ++ AOpnd.regs q.b) := by
  refine ⟨.aadd ⟨.a 0, .zero, .a 31⟩, _, ofFe .load (some 0) [(1, 63)], feWho (ofFe .load (some 0) [(1, 63)]), rfl, fe_of (by decide +kernel), ?_⟩
  intro h
  exact h _ (List.mem_singleton.mpr rfl) rfl rfl _ (List.mem_singleton.mpr rfl) _ (List.mem_singleton.mpr rfl) (by decide)
theorem test_meets_amov : ∃ s x f, FeClear s x ∧ (∀ k, AMovF.a f ≠ .q k) ∧ (∀ k, f.d ≠ .q k) ∧ FeFree s x (AOpnd.regs f.d ++ AOpnd.regs f.a) :=
  ⟨feBench, feWho feBench, ⟨.a 0, .a 31, 31⟩, fe_of (by decide +kernel), fun _ h => (by cases h), fun _ h => (by cases h), free_regs rfl⟩
/-- Queue q of the warp with n entries, the first a vector entry or not. -/
def entry (vec : Bool) : QEntry := ⟨vec, if vec then [1, 2, 3, 4] else [1]⟩
def filled (q n : Nat) (vec : Bool) (s : State) : State :=
  warp s fun w => { w with queues := w.queues.set q ⟨List.replicate n (entry vec), false⟩ }
def warpOf (s : State) : Warp := (Tbl.find s.warps 0).getD (placeWarp [])
theorem test_meets_amov_push : ∃ s x i w f q, FeClear s x ∧ AMovF.d f = .q q ∧ (∀ k, f.a ≠ .q k) ∧ FeFree s x (AOpnd.regs f.a) ∧
    s.feWarp x f.warp = some (i, w) ∧ (w.queue q.val).entries.length < 16 ∧ s.unfinished (.fe x.cid) = false :=
  ⟨filled 3 15 true feBench, feWho (filled 3 15 true feBench), 0, warpOf (filled 3 15 true feBench), ⟨.q 3, .zero, 0⟩, 3, fe_of (by decide +kernel), rfl,
    fun _ h => (by cases h), free_regs rfl, by decide +kernel, by decide +kernel, by decide +kernel⟩
theorem test_meets_amov_pop : ∃ s x i w f q e l, FeClear s x ∧ AMovF.a f = .q q ∧ (∀ k, f.d ≠ .q k) ∧ FeFree s x (AOpnd.regs f.d) ∧
    s.feWarp x f.warp = some (i, w) ∧ (w.queue q.val).entries = e :: l :=
  ⟨filled 7 1 false feBench, feWho (filled 7 1 false feBench), 0, warpOf (filled 7 1 false feBench), ⟨.a 31, .q 7, 0⟩, 7, entry false, [],
    fe_of (by decide +kernel), rfl, fun _ h => (by cases h), free_regs rfl, by decide +kernel, by decide +kernel⟩
def storing (n : Nat) : State :=
  filled 3 n true (ofFe .store none [])
theorem test_meets_apush (n : Nat) (h : n = 15 ∨ n = 16) (busy : Bool) : ∃ s x i w f, FeClear s x ∧ FeFree s x (AOpnd.regs (ApushF.a f) ++ AOpnd.regs f.b) ∧
    s.feWarp x f.warp = some (i, w) ∧ (w.queue f.q.val).entries.length = n ∧ s.unfinished (.fe x.cid) = busy := by
  have st : ∀ n, FeFree (storing n) (feWho (storing n)) (AOpnd.regs (.a 0) ++ AOpnd.regs (.a 1)) := by
    intro n p hp _ hb
    rw [show (storing n).accs = [(3, _)] from rfl, List.mem_singleton] at hp
    rw [hp] at hb; cases hb
  cases busy <;> rcases h with rfl | rfl
  · exact ⟨filled 3 15 true feBench, feWho (filled 3 15 true feBench), 0, warpOf (filled 3 15 true feBench), ⟨3, .a 0, .a 1, 0⟩, fe_of (by decide +kernel),
      free_regs rfl, by decide +kernel, by decide +kernel, by decide +kernel⟩
  · exact ⟨filled 3 16 true feBench, feWho (filled 3 16 true feBench), 0, warpOf (filled 3 16 true feBench), ⟨3, .a 0, .a 1, 0⟩, fe_of (by decide +kernel),
      free_regs rfl, by decide +kernel, by decide +kernel, by decide +kernel⟩
  · exact ⟨storing 15, feWho (storing 15), 0, warpOf (storing 15), ⟨3, .a 0, .a 1, 0⟩, fe_of (by decide +kernel), st 15, by decide +kernel, by decide +kernel,
      by decide +kernel⟩
  · exact ⟨storing 16, feWho (storing 16), 0, warpOf (storing 16), ⟨3, .a 0, .a 1, 0⟩, fe_of (by decide +kernel), st 16, by decide +kernel, by decide +kernel,
      by decide +kernel⟩
def arrived : State := filled 3 15 true (feS (fun f => { f with arriving := some [1, 2, 3, 4] }) bench)
theorem test_meets_apushm : ∃ s x i w f ws, FeClear s x ∧ FeFree s x (AOpnd.regs (ApushmF.a f)) ∧ s.feWarp x f.warp = some (i, w) ∧
    x.f.arriving = some ws ∧ (w.queue f.q.val).entries.length < 16 ∧ s.unfinished (.fe x.cid) = false :=
  ⟨arrived, feWho arrived, 0, warpOf arrived, ⟨3, .a 0, 31, 0⟩, [1, 2, 3, 4], fe_of (by decide +kernel), free_regs rfl, by decide +kernel,
    by decide +kernel, by decide +kernel, by decide +kernel⟩
/-- A vector entry of four words fills a30 and a31. -/
theorem test_meets_apop : ∃ s x i w f e l, FeClear s x ∧ s.feWarp x (ApopF.warp f) = some (i, w) ∧ (w.queue (4 + f.q.val)).entries = e :: l ∧
    FeFree s x ((popRegs f.d.val e).map Prod.fst) ∧ f.d.val + (popRegs f.d.val e).length ≤ 32 :=
  ⟨filled 7 1 true feBench, feWho (filled 7 1 true feBench), 0, warpOf (filled 7 1 true feBench), ⟨30, 3, 0⟩, entry true, [], fe_of (by decide +kernel),
    by decide +kernel, by decide +kernel, free_regs rfl, by decide +kernel⟩
theorem test_meets_apop_waits : ∃ s x i w f, FeClear s x ∧ s.feWarp x (ApopF.warp f) = some (i, w) ∧ (w.queue (4 + f.q.val)).entries = [] ∧
    (w.queue (4 + f.q.val)).closed = false :=
  ⟨feBench, feWho feBench, 0, warpOf feBench, ⟨31, 3, 0⟩, fe_of (by decide +kernel), by decide +kernel, by decide +kernel, by decide +kernel⟩

/-! ## Memory and commands -/

/-- Record 0 holds one element of 8 bytes. -/
def feMem : State := feS id (benchM (buffer 8 7))
def chk (s : State) (k : AccKind) : MemChk := s.memCheck (.fe 0) (feWho s).k.core (feWho s).ctx 0 ((feWho s).rcd 0) k .warp [(0, 0)] 0 8 false
theorem one_of {c : MemChk} (h : (match c with | .ok [(_, _, tr)] => !tr.isReplay | _ => false) = true) :
    ∃ l va tr, c = .ok [(l, va, tr)] ∧ tr.isReplay = false := by
  revert h
  match c with
  | .ok [(l, va, tr)] => intro h; exact ⟨l, va, tr, rfl, by simpa using h⟩
  | .ok [] => intro h; cases h
  | .ok (_ :: _ :: _) => intro h; cases h
  | .trap _ => intro h; cases h
  | .walk _ => intro h; cases h
theorem test_meets_ald : ∃ s x f l va tr, FeClear s x ∧ x.f.stalled = none ∧ FeFree s x (AOpnd.regs (AldF.d f) ++ AOpnd.regs f.a) ∧
    s.memCheck (.fe x.cid) x.k.core x.ctx 0 (x.rcd f.rcd) .load .warp [(0, (x.val f.a).setWidth 32)] 0 (AWidth.bytes f.width) false =
      .ok [(l, va, tr)] ∧ tr.isReplay = false := by
  obtain ⟨l, va, tr, e, h⟩ := one_of (c := chk feMem .load) (by decide +kernel)
  exact ⟨feMem, feWho feMem, ⟨.a 31, .zero, 0, .b64⟩, l, va, tr, fe_of (by decide +kernel), by decide +kernel, free_regs rfl, e, h⟩
theorem test_meets_ast : ∃ s x f l va tr, FeClear s x ∧ x.f.stalled = none ∧ FeFree s x (AOpnd.regs (AstF.a f) ++ AOpnd.regs f.b) ∧
    s.memCheck (.fe x.cid) x.k.core x.ctx 0 (x.rcd f.rcd) .store .warp [(0, (x.val f.a).setWidth 32)] 0 (AWidth.bytes f.width) false =
      .ok [(l, va, tr)] ∧ tr.isReplay = false := by
  obtain ⟨l, va, tr, e, h⟩ := one_of (c := chk feMem .store) (by decide +kernel)
  exact ⟨feMem, feWho feMem, ⟨.zero, .a 31, 0, .b64⟩, l, va, tr, fe_of (by decide +kernel), by decide +kernel, free_regs rfl, e, h⟩
/-- A model of one node, one layer and one head in a page of 1 GiB at 0x40000000; sequence 0 holds one position. -/
def kvRcd : BitVec 1024 := BitVec.ofNat 1024 (2 ^ 1023 + 2 * 2 ^ 984 + 2 ^ 976 + 0x40000000 * 2 ^ 912 + 0x40100000 * 2 ^ 856 + 0x40200000 * 2 ^ 800
  + 0x40300000 * 2 ^ 744 + 0x40400000 * 2 ^ 688 + 2 ^ 480 + 2 ^ 448 + 2 ^ 416)
def kvNode : Node := ⟨0x40300000, noNode, noNode, noNode, 0, 1, 0, 0, 0, 1, noNode, noJob, 0, 0, 2⟩
def kvSeq : SeqRec := ⟨0, 1, 0, true, 0⟩
def kvS : State :=
  feS id (poke (poke (poke { bench with models := [(0, ⟨kvRcd, [(0, 1)], [], [0], []⟩)] } 0x4080 8 0x40000079) 0x40100000 128 kvNode.toNat) 0x40200000 16
    kvSeq.toNat)
theorem test_meets_akvw : ∃ s x f m n r q, FeClear s x ∧ x.f.stalled = none ∧
    FeFree s x (((List.range 4).map fun i => (AkvwF.d f).val + i) ++ AOpnd.regs f.a ++ AOpnd.regs f.b ++ AOpnd.regs f.c) ∧
    (x.val f.a).toNat < 2 ^ 32 ∧ s.seqOf x.ctx (x.val f.a).toNat = some (m, n, r) ∧ m.areaFault s false = none ∧
    m.resolve s r (x.val f.b).toNat (x.val f.c).toNat false = .ok q := by
  have h : ((Mdl.resolve ⟨0, 0, kvRcd⟩ kvS kvSeq 0 0 false).toOption.isSome) = true := by decide +kernel
  cases e : Mdl.resolve ⟨0, 0, kvRcd⟩ kvS kvSeq 0 0 false with
  | error _ => rw [e] at h; cases h
  | ok q =>
    exact ⟨kvS, feWho kvS, ⟨28, .a 0, .zero, .zero⟩, ⟨0, 0, kvRcd⟩, 0, kvSeq, q, fe_of (by decide +kernel), by decide +kernel, free_regs rfl, by decide +kernel,
      by decide +kernel, by decide +kernel, e⟩
/-- `tfill` of the frame's last granule: pattern in s8, offset s9 = 14,848, length s10 = 512; n commands stand in the queue. -/
def feFill (n : Nat) : State :=
  feS id (core (scal (scal (scal bench 8 7) 9 14848) 10 512) fun c =>
    { c.setGran 38 ⟨true, false, true, true⟩ with cmds := List.replicate n 99 })
def fillBody : EngBody := .tfill ⟨8, 9, 10, false, 0⟩
theorem test_meets_aeng (n : Nat) (h : n = 15 ∨ n = 16) : ∃ s x f wid w d i h, FeClear s x ∧ x.f.stalled = none ∧ s.feWarp x (AengF.wt f) = some (wid, w) ∧
    w.dom 0 = some d ∧ i = x.iss wid w d ∧ h = ⟨0, f.sync, f.stat⟩ ∧ (∀ c, f.body = .copy c → c.thn = false) ∧
    EngOk s i h (engReads s i f.body) (engChk s i f.body) (engWrites f.body) ∧ LastOk s i h f.body ∧ (s.core x.k.core).cmds.length = n := by
  rcases h with rfl | rfl
  · exact ⟨feFill 15, feWho (feFill 15), ⟨46, 2, 0, fillBody⟩, 0, warpOf (feFill 15), placeDom, _, _, fe_of (by decide +kernel), by decide +kernel,
      by decide +kernel, by decide +kernel, rfl, rfl, fun _ h => (by cases h),
      ⟨by decide +kernel, by decide +kernel, by decide +kernel, by decide +kernel, by decide +kernel, by decide +kernel, by decide +kernel,
        by decide +kernel, by decide +kernel⟩, ⟨by decide +kernel, by decide +kernel, by decide +kernel⟩, by decide +kernel⟩
  · exact ⟨feFill 16, feWho (feFill 16), ⟨46, 2, 0, fillBody⟩, 0, warpOf (feFill 16), placeDom, _, _, fe_of (by decide +kernel), by decide +kernel,
      by decide +kernel, by decide +kernel, rfl, rfl, fun _ h => (by cases h),
      ⟨by decide +kernel, by decide +kernel, by decide +kernel, by decide +kernel, by decide +kernel, by decide +kernel, by decide +kernel,
        by decide +kernel, by decide +kernel⟩, ⟨by decide +kernel, by decide +kernel, by decide +kernel⟩, by decide +kernel⟩
/-- The pair s46 at generation g; the context waits for 1. -/
def feGen (g : Nat) : State := feS (fun f => { f with regs := f.regs.set 31 1 }) (pair bench 46 (g * 2 ^ 48))
theorem test_meets_await (g : Nat) (h : g = 0x8000 ∨ g = 0) : ∃ s x f wid k w d, FeClear s x ∧ x.f.stalled = none ∧ k = (AwaitF.k f).toNat ∧
    FeFree s x (AOpnd.regs f.a) ∧ s.feWarp x f.warp = some (wid, w) ∧ w.dom 0 = some d ∧ (s.core x.k.core).mark (d.scal k) = 0 ∧
    (s.core x.k.core).mark (d.scal (k + 1)) = 0 ∧ s.pendingOn wid 0 k = none ∧
    genReached (syncGen (s.pair x.k.core d k)) ((x.val f.a).toNat % 65536) = decide (g = 0x8000) := by
  rcases h with rfl | rfl
  · exact ⟨feGen 0x8000, feWho (feGen 0x8000), ⟨.a 31, 46, 0⟩, 0, 46, warpOf (feGen 0x8000), placeDom, fe_of (by decide +kernel), by decide +kernel, rfl,
      free_regs rfl, by decide +kernel⟩
  · exact ⟨feGen 0, feWho (feGen 0), ⟨.a 31, 46, 0⟩, 0, 46, warpOf (feGen 0), placeDom, fe_of (by decide +kernel), by decide +kernel, rfl,
      free_regs rfl, by decide +kernel⟩

end Sys2Proof.Tests
end

