-- ==== Sys2Proof/Tests/Meets6.lean ====
section
/-! SUPPORT. For the statements about the commands of hosts: for each clause, a state and a command that meet its hypotheses together, at an
edge of their range. What Config leaves open (a signature, a key, the fuses) has no value here: those branches are named together. -/

namespace Sys2Proof.Tests

set_option Elab.async false

open Sys2Proof.Machine

/-- A header of 65,504 bytes of payload and SEQ 8. -/
def head (box : Mailbox) (op part ctx : Nat) : HostHdr :=
  ⟨box, 0, BitVec.ofNat 256 (op * 2 ^ 240 + 0xFFFF * 2 ^ 224 + part * 2 ^ 219 + ctx * 2 ^ 207 + 65504 * 2 ^ 160 + 8 * 2 ^ 96)⟩
/-- The device's mailbox, and that of partition 0. -/
def dev (op : Nat) (ctx : Nat := 0) : HostHdr := head .device op 0 ctx
def cmd (op : Nat) (ctx : Nat := 0) : HostHdr := head (.part 0) op 0 ctx
/-- A session is open; both mailboxes have taken SEQ 7. -/
def hosted : State := { bench with session := some (0, 1), seqs := [(.device, 7), (.part 0, 7)], measured := some 5 }
def takesB (s : State) (h : HostHdr) (op : Nat) : Bool :=
  decide (s.boot = .up) && decide (h.op = op) && decide (h.status = 0 ∧ h.f 198 192 = 0 ∧ h.f 95 0 = 0) && decide (h.len ≤ 65504) && s.boxOk h op &&
    (h.box == .port || (s.lastSeq h.box).all fun n => decide (n < h.seq))
theorem takes_of {s : State} {h : HostHdr} {op : Nat} (hb : takesB s h op = true) : Takes s h op := by
  simp only [takesB, Bool.and_eq_true, decide_eq_true_eq, Bool.or_eq_true, beq_iff_eq] at hb
  obtain ⟨⟨⟨⟨⟨h1, h2⟩, h3⟩, h4⟩, h5⟩, h6⟩ := hb
  refine ⟨h1, h2, h3, h4, h5, fun hp n hn => ?_⟩
  rcases h6 with h6 | h6
  · exact absurd h6 hp
  · rw [hn] at h6; exact of_decide_eq_true h6
theorem not_good {s : State} {h : HostHdr} {op : Nat} (hb : s.boxOk h op = false) : ¬ HostHdr.Good s h op := fun g => by
  rw [g.box] at hb; cases hb
def ctxIn (s : State) (i : Nat) : Context := (Tbl.find s.ctxs i).getD placeCtx
def partIn (s : State) (i : Nat) : Part := (Tbl.find s.parts i).getD ⟨[], 0, 0, [], [], .out⟩

/-! ## Headers -/

theorem test_meets_closed : ∃ i h op s, hostInstr i = some (h, op) ∧ State.boot s ≠ .up := ⟨.measure (dev 2), dev 2, 2, State.reset, rfl, by decide⟩
theorem test_meets_bad_header : ∃ i h op s, hostInstr i = some (h, op) ∧ State.boot s = .up ∧ ¬ HostHdr.Good s h op :=
  ⟨.kill (dev 0x15), dev 0x15, 0x15, hosted, rfl, by decide, not_good (by decide +kernel)⟩
theorem test_meets_no_context : ∃ i h op s, ctxInstr i = some h ∧ hostInstr i = some (h, op) ∧ Takes s h op ∧ ∀ c, ¬ Holds s h c := by
  refine ⟨.kill (cmd 0x15 4095), cmd 0x15 4095, 0x15, hosted, rfl, rfl, takes_of (by decide +kernel), fun c h => ?_⟩
  have e : Tbl.find hosted.ctxs (cmd 0x15 4095).ctx = none := by decide +kernel
  rw [h.1] at e; cases e

/-! ## Commands of the device -/

theorem test_meets_hello : ∃ s h sig, Takes s h 0x01 ∧
    (Config.operatorVerifies (Config.sessionNonce s.tick) sig = true ∨ Config.operatorVerifies (Config.sessionNonce s.tick) sig = false) :=
  ⟨hosted, dev 1, 0, takes_of (by decide +kernel), Bool.eq_false_or_eq_true _⟩
theorem test_meets_measure : ∃ s h m, Takes s h 0x02 ∧ s.measured = some m := ⟨hosted, dev 2, 5, takes_of (by decide +kernel), rfl⟩
theorem test_meets_attest : ∃ s h, Takes s h 0x03 ∧ (Config.deviceKeyPresent = true ∨ Config.deviceKeyPresent = false) :=
  ⟨hosted, dev 3, takes_of (by decide +kernel), Bool.eq_false_or_eq_true _⟩
/-- The last partition, with the last cluster of the last die, whose cores are gate pools wholly. -/
def newPart : PartCreateF := ⟨31, [(3, 1#72 <<< 71)], 9, 1024⟩
theorem test_meets_part_create : ∃ s h, ∃ f : PartCreateF, ∃ p : Part, Takes s h 0x04 ∧ p = ⟨f.clusters, f.host, f.gatePool, [], [], .resident⟩ ∧ f.num < 32 ∧
    (∀ c ∈ f.clusters, c.1 < 4) ∧ (f.clusters.map Prod.fst).eraseDups.length = f.clusters.length ∧ Tbl.find s.parts f.num = none ∧
    (∀ q ∈ s.parts, q.2.run ≠ .out → ∀ a ∈ q.2.clusters, ∀ b ∈ f.clusters, a.1 = b.1 → a.2 &&& b.2 = 0) ∧
    (∀ c ∈ f.clusters, c.2 ≠ 0 → s.partsOn c.1 ≠ 8) ∧ f.gatePool ≤ 1024 :=
  ⟨hosted, dev 4, newPart, _, takes_of (by decide +kernel), rfl, by decide, by decide, by decide, by decide +kernel, by decide +kernel,
    by decide +kernel, by decide⟩
theorem test_meets_part_destroy : ∃ s h n p, Takes s h 0x05 ∧ Tbl.find s.parts n = some p :=
  ⟨hosted, dev 5, 0, partIn hosted 0, takes_of (by decide +kernel), by decide +kernel⟩
/-- Partition 0 with two clusters; the second becomes a region. -/
def wide : State := { hosted with parts := [(0, ⟨[(0, 3)], 0, 0, [], [], .resident⟩)] }
theorem test_meets_stitch (bad : Bool) : ∃ s h, ∃ f : StitchF, ∃ p, Takes s h 0x06 ∧ Tbl.find s.parts f.part = some p ∧ f.die < 4 ∧ s.regionBad f p = bad := by
  cases bad
  · exact ⟨wide, dev 6, ⟨0, 0, 2, 0x4000⟩, partIn wide 0, takes_of (by decide +kernel), by decide +kernel, by decide, by decide +kernel⟩
  · exact ⟨wide, dev 6, ⟨0, 3, 2, 0x4000⟩, partIn wide 0, takes_of (by decide +kernel), by decide +kernel, by decide, by decide +kernel⟩
theorem test_meets_ctx_create : ∃ s h, ∃ f : CtxCreateF, Takes s h 0x07 ∧ f.root % 8192 = 0 ∧ s.populated f.root = true ∧ f.peers.length ≤ 64 ∧
    Tbl.find s.ctxs h.ctx = none ∧ ∀ c ∈ s.ctxs, c.2.asid ≠ f.asid.toNat :=
  ⟨hosted, cmd 7 4095, ⟨0xFFFF, 0x8000, 0, List.replicate 64 ⟨0, 0, 0, 0⟩, true⟩, takes_of (by decide +kernel), by decide, by decide +kernel, by decide,
    by decide +kernel, by decide +kernel⟩
theorem test_meets_ctx_destroy : ∃ s h c, Takes s h 0x08 ∧ Holds s h c :=
  ⟨hosted, cmd 8, ctxIn hosted 0, takes_of (by decide +kernel), by decide +kernel, by decide +kernel⟩
def budget (n : Nat) : QosF := ⟨0, List.replicate 8 1, [(399, 3, n)]⟩
def QosHyps (s : State) (h : HostHdr) (f : QosF) (p : Part) : Prop :=
  Takes s h 0x12 ∧ Tbl.find s.parts f.part = some p ∧ f.quanta.length ≤ 8 ∧ (∀ b ∈ f.budgets, b.1 < 400 ∧ b.2.1 < 4) ∧
  (f.budgets.map fun b => (b.1, b.2.1)).eraseDups.length = f.budgets.length
theorem test_meets_qos : ∃ s h f p, QosHyps s h f p ∧
    ∀ b ∈ f.budgets, (((newWeirs s.weirs f).filter fun w => w.port == b.1).map Weir.budget).sum ≤ portCapacity b.1 :=
  ⟨hosted, dev 0x12, budget 125000, partIn hosted 0, ⟨takes_of (by decide +kernel), by decide +kernel, by decide, by decide, by decide⟩, by decide +kernel⟩
theorem test_meets_qos_refused : ∃ s h f p, QosHyps s h f p ∧
    ∃ b ∈ f.budgets, portCapacity b.1 < (((newWeirs s.weirs f).filter fun w => w.port == b.1).map Weir.budget).sum :=
  ⟨hosted, dev 0x12, budget 125001, partIn hosted 0, ⟨takes_of (by decide +kernel), by decide +kernel, by decide, by decide, by decide⟩, by decide +kernel⟩
theorem test_meets_stats : ∃ s h, Takes s h 0x18 := ⟨hosted, cmd 0x18, takes_of (by decide +kernel)⟩

/-! ## Commands of a partition -/

/-- A gate of 120 · 8 registers, 16 arguments and 16 results, in context 0. -/
def gateImage : BitVec 512 := BitVec.ofNat 512 (2 ^ 511 + 120 * 2 ^ 481 + 16 * 2 ^ 476 + 16 * 2 ^ 471 + 32 * 2 ^ 465 + 2 ^ 449)
theorem test_meets_gate (bad : Bool) : ∃ s h e, Takes s h 0x0D ∧ s.gateBad h.part e = bad := by
  cases bad
  · exact ⟨hosted, cmd 0x0D, gateImage, takes_of (by decide +kernel), by decide +kernel⟩
  · exact ⟨hosted, cmd 0x0D, gateImage + 2 ^ 481, takes_of (by decide +kernel), by decide +kernel⟩
/-- What the further clauses share: context 0 is held. -/
def Named (s u : State) (h : HostHdr) (c : Context) (op : Nat) : Prop := Takes s h op ∧ Holds s h c ∧ u = s.takeSeq h
theorem named {s : State} {op : Nat} (ht : takesB s (cmd op) op = true) (hh : (decide (Tbl.find s.ctxs (cmd op).ctx = some (ctxIn s 0)) &&
    decide ((ctxIn s 0).part = (cmd op).part)) = true) : Named s (s.takeSeq (cmd op)) (cmd op) (ctxIn s 0) op := by
  simp only [Bool.and_eq_true, decide_eq_true_eq] at hh
  exact ⟨takes_of ht, hh, rfl⟩
theorem test_meets_map : ∃ s u h c, ∃ l : List PteWrite, ∃ t, Named s u h c 0x09 ∧ l.foldlM (fun (s : State) p => s.writePte h.ctx p) u = some t ∧ l ≠ [] := by
  have h : (([⟨0xFFFFFF, 0, 0⟩] : List PteWrite).foldlM (fun (s : State) p => s.writePte (cmd 0x09).ctx p) (hosted.takeSeq (cmd 0x09))).isSome = true := by decide +kernel
  obtain ⟨t, e⟩ := Option.isSome_iff_exists.mp h
  exact ⟨hosted, _, cmd 0x09, ctxIn hosted 0, _, t, named (by decide +kernel) (by decide +kernel), e, by simp⟩
theorem test_meets_map_bad : ∃ s u h c, ∃ l : List PteWrite, Named s u h c 0x09 ∧ l.foldlM (fun (s : State) p => s.writePte h.ctx p) u = none :=
  ⟨hosted, _, cmd 0x09, ctxIn hosted 0, [⟨2 ^ 55, 0, 0⟩], named (by decide +kernel) (by decide +kernel), by decide +kernel⟩
theorem test_meets_unmap : ∃ s u h c, ∃ l : List Nat, ∃ t, Named s u h c 0x0A ∧ l.foldlM (fun (s : State) va => s.unmapOne h.ctx va) u = some t ∧ l ≠ [] := by
  have h : ([0x1FFFF].foldlM (fun (s : State) va => s.unmapOne (cmd 0x0A).ctx va) (hosted.takeSeq (cmd 0x0A))).isSome = true := by decide +kernel
  obtain ⟨t, e⟩ := Option.isSome_iff_exists.mp h
  exact ⟨hosted, _, cmd 0x0A, ctxIn hosted 0, _, t, named (by decide +kernel) (by decide +kernel), e, by simp⟩
theorem test_meets_unmap_bad : ∃ s u h c, ∃ l : List Nat, Named s u h c 0x0A ∧ l.foldlM (fun (s : State) va => s.unmapOne h.ctx va) u = none :=
  ⟨hosted, _, cmd 0x0A, ctxIn hosted 0, [0x20000], named (by decide +kernel) (by decide +kernel), by decide +kernel⟩
/-- A page of 1 GiB at 0x40000000, of which the mailbox reads two lines. -/
def paged : State := poke hosted 0x4080 8 0x40000079
theorem test_meets_write : ∃ s u h c va, ∃ l : List Byte, Named s u h c 0x0B ∧ s.hostReach h.ctx va l.length = none :=
  ⟨hosted, _, cmd 0x0B, ctxIn hosted 0, 0x1FFFF, [5], named (by decide +kernel) (by decide +kernel), by decide +kernel⟩
theorem test_meets_read : ∃ s u h c va n, Named s u h c 0x0C ∧ n ≤ 65504 ∧ s.hostReach h.ctx va n = none :=
  ⟨paged, _, cmd 0x0C, ctxIn paged 0, 0x40000000, 512, named (by decide +kernel) (by decide +kernel), by decide, by decide +kernel⟩
/-- A graph of one node that needs two tokens, at 0x10200, with the states of the graph and its node. -/
def graphAt (s : State) (gst valid : Nat) : State :=
  poke (poke s 0x10200 128 (valid * 2 ^ 1023 + gst * 2 ^ 1020 + 2 ^ 992)) 0x10280 128 (2 * 2 ^ 976 + (2 ^ 96 - 1) * 2 ^ 864)
theorem test_meets_submit : ∃ s u h c f pred t, Named s u h c 0x0E ∧ c.run ≠ .killed ∧ s.submitPred h.part (SubmitF.pred f) = some pred ∧
    u.startGraph h.ctx f.graph (s.homeDie h.part) f.arg pred = .ok t := by
  have h : (((graphAt hosted 0 1).takeSeq (cmd 0x0E)).startGraph (cmd 0x0E).ctx 0x10200 0 7 (some 0)).toOption.isSome = true := by decide +kernel
  obtain ⟨t, e⟩ := Option.isSome_iff_exists.mp h
  exact ⟨graphAt hosted 0 1, _, cmd 0x0E, ctxIn (graphAt hosted 0 1) 0, ⟨0x10200, 7, some 0⟩, some 0, t, named (by decide +kernel) (by decide +kernel),
    by decide +kernel, by decide +kernel, ok_of e⟩
theorem error_of {ε α : Type} {p : ε → Bool} {e : Except ε α} (h : (match e with | .error x => p x | .ok _ => false) = true) : ∃ x, e = .error x ∧ p x = true := by
  cases e with
  | error x => exact ⟨x, rfl, h⟩
  | ok _ => cases h
def isTrap : GErr → Bool
  | .trap _ => true
  | .page _ => false
theorem test_meets_submit_bad : ∃ s u h c f pred t, Named s u h c 0x0E ∧ c.run ≠ .killed ∧ s.submitPred h.part (SubmitF.pred f) = some pred ∧
    u.startGraph h.ctx f.graph (s.homeDie h.part) f.arg pred = .error (.trap t) := by
  obtain ⟨x, e, hx⟩ := error_of (p := isTrap) (e := ((graphAt hosted 1 1).takeSeq (cmd 0x0E)).startGraph (cmd 0x0E).ctx 0x10200 0 7 none) (by decide +kernel)
  cases x with
  | page _ => cases hx
  | trap t =>
    exact ⟨graphAt hosted 1 1, _, cmd 0x0E, ctxIn (graphAt hosted 1 1) 0, ⟨0x10200, 7, none⟩, none, t, named (by decide +kernel) (by decide +kernel),
      by decide +kernel, by decide +kernel, e⟩
theorem test_meets_status (valid : Bool) : ∃ s u h c va, Named s u h c 0x0F ∧ s.recFault h.ctx va 128 .read = none ∧
    (s.rec_ h.ctx va).getLsbD 1023 = valid := by
  cases valid
  · exact ⟨graphAt hosted 2 0, _, cmd 0x0F, ctxIn (graphAt hosted 2 0) 0, 0x10200, named (by decide +kernel) (by decide +kernel), by decide +kernel,
      by decide +kernel⟩
  · exact ⟨graphAt hosted 2 1, _, cmd 0x0F, ctxIn (graphAt hosted 2 1) 0, 0x10200, named (by decide +kernel) (by decide +kernel), by decide +kernel,
      by decide +kernel⟩
theorem test_meets_signal_token : ∃ s u h c va t, Named s u h c 0x10 ∧ c.run ≠ .killed ∧ u.outsideToken h.ctx va (s.homeDie h.part) = .ok t := by
  have h : (((graphAt hosted 1 1).takeSeq (cmd 0x10)).outsideToken (cmd 0x10).ctx 0x10280 0).toOption.isSome = true := by decide +kernel
  obtain ⟨t, e⟩ := Option.isSome_iff_exists.mp h
  exact ⟨graphAt hosted 1 1, _, cmd 0x10, ctxIn (graphAt hosted 1 1) 0, 0x10280, t, named (by decide +kernel) (by decide +kernel), by decide +kernel, ok_of e⟩
/-- A ring of one slot of 64 bytes at 0x10100, full. -/
def ringed : State := poke hosted 0x10100 64 (6 * 2 ^ 440 + 2 ^ 352 + 2 ^ 320)
theorem test_meets_signal_close : ∃ s u h c va b, Named s u h c 0x10 ∧ c.run ≠ .killed ∧ s.ringCheck h.ctx va = .ok b :=
  ⟨ringed, _, cmd 0x10, ctxIn ringed 0, 0x10100, ⟨BitVec.ofNat 512 (6 * 2 ^ 440 + 2 ^ 352 + 2 ^ 320)⟩, named (by decide +kernel) (by decide +kernel),
    by decide +kernel, ok_of (by decide +kernel)⟩
theorem test_meets_wait : ∃ s u h c, ∃ f : WaitF, Named s u h c 0x11 ∧ f.timeout = 0 :=
  ⟨hosted, _, cmd 0x11, ctxIn hosted 0, ⟨.word 0x1FFFC 0, 0⟩, named (by decide +kernel) (by decide +kernel), rfl⟩
def ctxRun (r : CtxRun) (s : State) : State := s.updCtx 0 fun c => { c with run := r }
theorem test_meets_preempt (r : CtxRun) (h : r = .stopped ∨ r = .killed ∨ r = .running) : ∃ s u h c, Named s u h c 0x13 ∧ c.run = r := by
  rcases h with rfl | rfl | rfl
  · exact ⟨ctxRun .stopped hosted, _, cmd 0x13, ctxIn (ctxRun .stopped hosted) 0, named (by decide +kernel) (by decide +kernel), by decide +kernel⟩
  · exact ⟨ctxRun .killed hosted, _, cmd 0x13, ctxIn (ctxRun .killed hosted) 0, named (by decide +kernel) (by decide +kernel), by decide +kernel⟩
  · exact ⟨hosted, _, cmd 0x13, ctxIn hosted 0, named (by decide +kernel) (by decide +kernel), by decide +kernel⟩
/-- Partition 31 is out. -/
def outPart : Part := ⟨[(0, 1)], 0, 0, [], [], .out⟩
def twoParts : State := { hosted with parts := Tbl.put hosted.parts 31 outPart }
theorem test_meets_preempt_swap : ∃ s u h c i q p, Named s u h c 0x13 ∧ Tbl.find s.parts i = some q ∧ Tbl.find s.parts h.part = some p ∧ p.run = .resident :=
  ⟨twoParts, _, cmd 0x13, ctxIn twoParts 0, 31, outPart, partIn twoParts 0, named (by decide +kernel) (by decide +kernel), by decide +kernel,
    by decide +kernel, by decide +kernel⟩
/-- The context is stopped, its partition resident or out. -/
def resumed (r : PartRun) : State :=
  { ctxRun .stopped hosted with parts := [(0, { outPart with run := r })] }
theorem test_meets_resume (r : PartRun) (h : r = .resident ∨ r = .out) : ∃ s u h c p, Named s u h c 0x14 ∧ Tbl.find s.parts h.part = some p ∧
    c.run = .stopped ∧ p.run = r ∧ s.clustersFree h.part p none = true := by
  rcases h with rfl | rfl
  · exact ⟨resumed .resident, _, cmd 0x14, ctxIn (resumed .resident) 0, { outPart with run := .resident }, named (by decide +kernel) (by decide +kernel),
      by decide +kernel, by decide +kernel, rfl, by decide +kernel⟩
  · exact ⟨resumed .out, _, cmd 0x14, ctxIn (resumed .out) 0, outPart, named (by decide +kernel) (by decide +kernel),
      by decide +kernel, by decide +kernel, rfl, by decide +kernel⟩
theorem test_meets_resume_refused : ∃ s u h c p, Named s u h c 0x14 ∧ Tbl.find s.parts h.part = some p ∧ c.run ≠ .stopped :=
  ⟨hosted, _, cmd 0x14, ctxIn hosted 0, partIn hosted 0, named (by decide +kernel) (by decide +kernel), by decide +kernel, by decide +kernel⟩
theorem test_meets_kill : ∃ s u h c, Named s u h c 0x15 := ⟨hosted, _, cmd 0x15, ctxIn hosted 0, named (by decide +kernel) (by decide +kernel)⟩
theorem test_meets_tier : ∃ s u h c, ∃ f : TierF, Named s u h c 0x16 ∧ f.tier < 3 :=
  ⟨hosted, _, cmd 0x16, ctxIn hosted 0, ⟨2, [(0x10000, 65536)]⟩, named (by decide +kernel) (by decide +kernel), by decide⟩
/-- A model of 255 layers and 64 heads in slot 15. -/
def modelRcd (dver v : Nat) : BitVec 1024 := BitVec.ofNat 1024 (v * 2 ^ 1023 + dver * 2 ^ 992 + 255 * 2 ^ 984 + 64 * 2 ^ 976)
def modelled : State := { hosted with models := [(15, ⟨modelRcd 0 1, [], [], [], []⟩)] }
theorem test_meets_model_new : ∃ s u h c f key, Named s u h c 0x17 ∧ key = h.ctx * 16 + (ModelF.slot f).val ∧ Tbl.find s.models key = none ∧
    f.rcd.getLsbD 1023 = true ∧ modelBad f.rcd = false :=
  ⟨hosted, _, cmd 0x17, ctxIn hosted 0, ⟨15, modelRcd 0 1⟩, 15, named (by decide +kernel) (by decide +kernel), by decide +kernel, by decide +kernel,
    by decide +kernel, by decide +kernel⟩
theorem test_meets_model_update : ∃ s u h c f key m, Named s u h c 0x17 ∧ key = h.ctx * 16 + (ModelF.slot f).val ∧ Tbl.find s.models key = some m ∧
    m.rcd.getLsbD 1023 = true ∧ f.rcd.getLsbD 1023 = true ∧ modelBad f.rcd = false ∧ modelFixed f.rcd = modelFixed m.rcd :=
  ⟨modelled, _, cmd 0x17, ctxIn modelled 0, ⟨15, modelRcd 0xFFFF 1⟩, 15, ⟨modelRcd 0 1, [], [], [], []⟩, named (by decide +kernel) (by decide +kernel),
    by decide +kernel, by decide +kernel, by decide +kernel, by decide +kernel, by decide +kernel, by decide +kernel⟩
theorem test_meets_model_gone : ∃ s u h c f key m, Named s u h c 0x17 ∧ key = h.ctx * 16 + (ModelF.slot f).val ∧ Tbl.find s.models key = some m ∧
    m.rcd.getLsbD 1023 = true ∧ f.rcd.getLsbD 1023 = false :=
  ⟨modelled, _, cmd 0x17, ctxIn modelled 0, ⟨15, modelRcd 0 0⟩, 15, ⟨modelRcd 0 1, [], [], [], []⟩, named (by decide +kernel) (by decide +kernel),
    by decide +kernel, by decide +kernel, by decide +kernel, by decide +kernel⟩

end Sys2Proof.Tests
end

