-- ==== Sys2Proof/Tests/Meets7.lean ====
section
/-! SUPPORT. For the statements about timers, errors, pages, the network, pre-emption, landings and steps: for each clause, a state that meets
its hypotheses together, at an edge of their range. -/

namespace Sys2Proof.Tests

set_option Elab.async false

open Sys2Proof.Machine

def timed (t : Nat) (s : State) : State := { s with time := t }
def warp0 (s : State) : Warp := (Tbl.find s.warps 0).getD (placeWarp [])
def crew0_ (s : State) : Crew := (Tbl.find s.crews 0).getD (placeCrew ⟨0, none, [], [], none, none, none⟩)
def ctx0 (s : State) : Context := (Tbl.find s.ctxs 0).getD placeCtx
def ctxS (f : Context → Context) (s : State) : State := s.updCtx 0 f

/-! ## Timers -/

/-- A handler of the warp rung, whose 200 µs are over; one of the crew rung, whose 2 ms are. -/
def record0 : TrapRec := ⟨0, 0x2001, 0x2000, some ⟨0x2000, 0, 1, false, [0]⟩, 15, 0, 0⟩
def handler0 : State :=
  timed 140000 (strand (dom bench fun d => { d with trapRec := some record0 }) fun st => { st with level := 1 })
theorem test_meets_handler_timeout : ∃ s w i x c t, State.strandAt s w i = some x ∧ Tbl.find s.ctxs x.d.ctx = some c ∧ c.run = .running ∧
    (∃ k, Tbl.find s.crews x.w.crew = some k ∧ k.rung = none ∧ k.rungQ = []) ∧ x.st.level = 1 ∧ x.opened = false ∧ x.d.trapRec = some t ∧
    t.sid = x.sid ∧ t.start + 700 * (x.d.csrs.ttime.extractLsb' 0 16).toNat ≤ s.time :=
  ⟨handler0, 0, 0, issuer handler0, ctx0 handler0, record0, by decide +kernel, by decide +kernel, by decide +kernel,
    ⟨crew0_ handler0, by decide +kernel⟩, by decide +kernel⟩
def rung0 : CrewRung := ⟨0, 16, Csrs.fresh 0 0, 0, 0, false, 0, 0⟩
def handler16 : State :=
  timed 1400000 { warp (crew bench fun c => { c with rung := some rung0 }) fun w =>
    { w with strands := Tbl.put w.strands 16 { placeStrand 0x2000 none with level := 1 } } with cur := .strand 0 16 }
theorem test_meets_rung_timeout : ∃ s w i x c k r, State.strandAt s w i = some x ∧ Tbl.find s.ctxs x.d.ctx = some c ∧ c.run = .running ∧
    Tbl.find s.crews x.w.crew = some k ∧ k.rung = some r ∧ r.warp = x.wid ∧ r.sid = x.sid ∧ x.w.dom 0 = some x.d ∧
    r.start + 700 * (x.d.csrs.ttime.extractLsb' 16 16).toNat ≤ s.time :=
  ⟨handler16, 0, 16, issuer handler16, ctx0 handler16, crew0_ handler16, rung0, by decide +kernel⟩
def callT : Call := ⟨1023, false, false, 1, 65535, 0, 0x2002, none, 15, 15, [], 0, 0, none, 0, 0, [], []⟩
def domT : Dom := { placeDom with fv := 8, call := some callT }
def called0 : State := timed 45874500 (warp bench fun w => { w with doms := Tbl.put w.doms 1 domT })
theorem test_meets_gate_timeout : ∃ s wid dn w d k c, Tbl.find (State.warps s) wid = some w ∧ w.dom dn = some d ∧ d.call = some k ∧
    Tbl.find s.crews w.crew = some c ∧ s.awake (s.crewCtx c) = true ∧ k.start + 700 * k.tout ≤ s.time :=
  ⟨called0, 0, 1, warp0 called0, domT, callT, crew0_ called0, by decide +kernel⟩
def noticed0 (t : Nat) : State := timed t (ctxS (fun c => { c with run := .stopped, rung := some ⟨some 0, 0x4F, []⟩ }) bench)
theorem test_meets_notice_timeout (t : Nat) (h : t = 7000000 ∨ t = 14000000) : ∃ s ctx at_ c r, Tbl.find (State.ctxs s) ctx = some c ∧ c.rung = some r ∧
    r.noticed = some at_ ∧ at_ + t = s.time := by
  rcases h with rfl | rfl
  · exact ⟨noticed0 7000000, 0, 0, ctx0 (noticed0 7000000), ⟨some 0, 0x4F, []⟩, by decide +kernel⟩
  · exact ⟨noticed0 14000000, 0, 0, ctx0 (noticed0 14000000), ⟨some 0, 0x4F, []⟩, by decide +kernel⟩
def stopping0 : State := timed 700000 (ctxS (fun c => { c with run := .stopping }) bench)
theorem test_meets_stop_timeout : ∃ s ctx c, Tbl.find (State.ctxs s) ctx = some c ∧ c.run = .stopping ∧ c.since + 700000 ≤ s.time :=
  ⟨stopping0, 0, ctx0 stopping0, by decide +kernel⟩
theorem test_meets_reset_timeout : ∃ s n t p, Tbl.find (State.parts s) n = some p ∧ p.run = .resetting t ∧ t + 140000000 ≤ s.time :=
  ⟨timed 140000000 { bench with parts := [(0, ⟨[(0, 1)], 0, 0, [], [], .resetting 0⟩)] }, 0, 0, ⟨[(0, 1)], 0, 0, [], [], .resetting 0⟩, by decide +kernel⟩
/-- A WAIT for a word of code that is not 0, or for one of 0. -/
def wait0 (v : BitVec 32) : HostWait := ⟨⟨.part 0, 0, 0⟩, 0, .word 0x10100 v, 0, 1⟩
def waiting0 (v : BitVec 32) : State := timed 700 { bench with waits := [(3, wait0 v)] }
theorem test_meets_wait_holds : ∃ s n w, Tbl.find (State.waits s) n = some w ∧ s.waitHolds w.ctx w.cond = true :=
  ⟨waiting0 1, 3, wait0 1, by decide +kernel⟩
theorem test_meets_wait_timeout : ∃ s n w, Tbl.find (State.waits s) n = some w ∧ s.waitHolds w.ctx w.cond = false ∧ w.since + 700 * w.timeout ≤ s.time :=
  ⟨waiting0 0, 3, wait0 0, by decide +kernel⟩

/-! ## Errors and ports -/

theorem test_meets_off : ∃ s, State.boot s = .off ∧ (Config.fusesPass = true ∨ Config.fusesPass = false) := ⟨State.reset, rfl, Bool.eq_false_or_eq_true _⟩
theorem test_meets_soft_error : ∃ core addr die clus : Nat, core < 2304 ∧ addr < 131072 ∧ die < 4 ∧ clus < 72 := ⟨2303, 131071, 3, 71, by decide⟩
/-- One expander is up. -/
def expander : State := { bench with portsUp := 1 }
theorem test_meets_line_error (t : Bool) : ∃ s line, State.populated s (256 * line) = true ∧ tier2 (256 * line) = t := by
  cases t
  · exact ⟨expander, (3 * 2 ^ 48 + 144 * 2 ^ 30) / 256 - 1, by decide +kernel⟩
  · exact ⟨expander, (8 * 2 ^ 48 + 2 ^ 41) / 256 - 1, by decide +kernel⟩
def savedP : Saved := ⟨[(2303, Core.empty)], [], [], [], [], 0⟩
def shadowed : State := { bench with saved := [(0, savedP)] }
theorem test_meets_shadow_error : ∃ s die ctx c v p, Tbl.find (State.ctxs s) ctx = some c ∧ c.run ≠ .killed ∧ Tbl.find s.saved c.part = some v ∧
    p ∈ v.cores ∧ dieOf p.1 = die :=
  ⟨shadowed, 3, 0, ctx0 shadowed, savedP, (2303, Core.empty), by decide +kernel⟩
theorem test_meets_tlb_error : ∃ s core e, e < (State.core s core).tlb.length := ⟨benchM 0, 0, 0, by decide +kernel⟩
theorem test_meets_port (port : Nat) (h : port = 399 ∨ port = 415) : ∃ s t, (State.portsDown s).contains port = false ∧
    t = ({ s with portsDown := s.portsDown ++ [port] } : State).count 0x59 ∧ (port < 400 ∨ port < 416 ∧ t.anyNetUp = false) := by
  rcases h with rfl | rfl
  · exact ⟨bench, _, by decide +kernel, rfl, .inl (by decide)⟩
  · exact ⟨{ bench with portsUp := 1 <<< 31 }, _, by decide +kernel, rfl, .inr ⟨by decide, by decide +kernel⟩⟩
/-- Of two network ports one goes down, and one ordered request is out. -/
def twoNets : State := { bench with portsUp := 3 <<< 30, nets := [(3, ⟨0, 0x10200, 0, []⟩)] }
theorem test_meets_port_flows : ∃ s t port, (State.portsDown s).contains port = false ∧
    t = ({ s with portsDown := s.portsDown ++ [port] } : State).count 0x59 ∧ 400 ≤ port ∧ port < 416 ∧ t.anyNetUp = true ∧
    ∀ q ∈ s.nets, q.2.ordered = true :=
  ⟨twoNets, _, 415, by decide +kernel, rfl, by decide, by decide, by decide +kernel, by decide +kernel⟩

/-! ## Pages -/

/-- Page 0x10000 of context 0 with another leaf, and a fault on it with the hint "cheap". -/
def fault0 : FaultEnt := ⟨0, 0, 0x1FFFF, .other, 2, 16⟩
def leafed (e : Nat) : State := { strand (poke bench 0x6008 8 e) fun st => { st with pc := 0x2000, clause := none } with faults := [fault0] }
def PageHyps (s : State) (die level pte : Nat) (f : FaultEnt) (e : Pte) (va : Nat) : Prop :=
  (s.faults.find? fun f => f.die == die && !s.moving f.ctx f.va && (Tbl.find s.ctxs f.ctx).any fun c => c.run == .running) = some f ∧
  s.walk f.ctx f.va = .leaf level pte e ∧ va = f.va / 2 ^ e.log * 2 ^ e.log
theorem test_meets_page_present : ∃ s die level pte f e va, PageHyps s die level pte f e va ∧ e.v = true :=
  ⟨leafed 0x10071, 0, 0, 0x6008, fault0, 0x10071, 0x10000, ⟨by decide +kernel, by decide +kernel, by decide +kernel⟩, by decide⟩
/-- A page of another tier behind a port that is down; one that lies in the die already. -/
def farLeaf : Nat := 8 * 2 ^ 48 + 0x170
def behind : State := { leafed farLeaf with portsDown := [384] }
theorem test_meets_page_unreachable : ∃ s die level pte f e va, PageHyps s die level pte f e va ∧ e.v = false ∧ e.home = 1 ∧ f.span ≤ e.log ∧
    s.walk f.ctx va = .leaf level pte e ∧ s.codeHeld f.ctx va (2 ^ e.log) = false ∧ (tier2 e.addr && !s.reachable e.addr) = true :=
  ⟨behind, 0, 0, 0x6008, fault0, BitVec.ofNat 64 farLeaf, 0x10000, ⟨by decide +kernel, by decide +kernel, by decide +kernel⟩, by decide +kernel, by decide +kernel,
    by decide +kernel, by decide +kernel, by decide +kernel, by decide +kernel⟩
theorem test_meets_page_moves : ∃ s die level pte f e va u fr, PageHyps s die level pte f e va ∧ e.v = false ∧ e.home = 1 ∧ f.span ≤ e.log ∧
    s.walk f.ctx va = .leaf level pte e ∧ s.codeHeld f.ctx va (2 ^ e.log) = false ∧ (tier2 e.addr && !s.reachable e.addr) = false ∧ s.pickFrame die f.ctx e.log e.addr [] = some (u, fr) :=
  ⟨leafed 0x10170, 0, 0, 0x6008, fault0, 0x10170, 0x10000, leafed 0x10170, 0x10000, ⟨by decide +kernel, by decide +kernel, by decide +kernel⟩,
    by decide +kernel, by decide +kernel, by decide +kernel, by decide +kernel, by decide +kernel, by decide +kernel, by decide +kernel⟩
/-- A page of 256 lines moves; with a weir of too few bytes, by none. -/
def mig0 : Mig := ⟨0, 0, [(0x10000, 16, 0x10000, 0x20000)], (0, 0), 0⟩
def moving0 (l : List Weir) : State := { bench with migs := [(3, mig0)], weirs := l }
theorem test_meets_migration_end : ∃ s id m, Tbl.find (State.migs s) id = some m ∧ s.isOut m.ctx = false ∧ s.weirs = [] :=
  ⟨moving0 [], 3, mig0, by decide +kernel⟩
def weir0 : Weir := { port := bench.portOf 0x10000, part := 0, cls := 0, budget := 255, left := 255 }
theorem shut {s : State} {p : Nat} (h : s.weirs = [⟨p, 0, 0, 255, 255⟩]) : s.weirOpen p (0, 0) 256 = false := by
  simp [State.weirOpen, h]
theorem test_meets_migration_held : ∃ s id m, Tbl.find (State.migs s) id = some m ∧ s.isOut m.ctx = false ∧ s.weirs ≠ [] ∧
    (s.moveLines m.cls (m.moves.drop m.lines) m.lines).1 < m.moves.length := by
  refine ⟨moving0 [weir0], 3, mig0, by decide +kernel, by decide +kernel, by decide, ?_⟩
  have e : ∃ l, mig0.moves.drop mig0.lines = (0x10000, 0x20000) :: l := ⟨mig0.moves.tail, by decide +kernel⟩
  have n : mig0.moves.length = 256 := by decide +kernel
  have c : (moving0 [weir0]).weirOpen ((moving0 [weir0]).portOf 0x10000) mig0.cls 256 = false := by
    rw [show (moving0 [weir0]).portOf 0x10000 = bench.portOf 0x10000 by unfold State.portOf; rfl]
    exact shut rfl
  obtain ⟨l, e⟩ := e
  rw [e, n, State.moveLines, c]
  exact Nat.zero_lt_succ 255

/-! ## The network -/

/-- A send ring of one slot at 0x10100 with data at 0x10200, one committed request there, for peer `peer`; one network port is up. -/
def sendBlk : Nat := 0x10200 * 2 ^ 448 + 6 * 2 ^ 440 + 2 ^ 352 + 2 ^ 320
def peer0 : Peer := ⟨0, 0, 0, 77⟩
def reqRcd (op peer len : Nat) : Nat := op * 2 ^ 504 + peer * 2 ^ 498 + len * 2 ^ 448 + 0x10300 * 2 ^ 392
def sending (peer : Nat) : State :=
  { poke (poke (ctxS (fun c => { c with sendRing := 0x10100, peers := [peer0] }) bench) 0x10100 64 sendBlk) 0x10200 64 (reqRcd 1 peer 4) with portsUp := 1 <<< 31 }
def ring (res cmt clm rel : Nat) : RingBlk :=
  ⟨BitVec.ofNat 512 (0x10200 * 2 ^ 448 + 6 * 2 ^ 440 + res * 2 ^ 352 + cmt * 2 ^ 320 + clm * 2 ^ 288 + rel * 2 ^ 256)⟩
def netReq (peer : Nat) : NetReq := ⟨0, 0x10200, BitVec.ofNat 512 (reqRcd 1 peer 4), []⟩
def NetHyps (s : State) (ctx slot : Nat) (c : Context) (b b1 b2 : RingBlk) (t u : Word) (r : NetReq) : Prop :=
  Tbl.find s.ctxs ctx = some c ∧ c.run = .running ∧ s.ringCheck ctx c.sendRing = .ok b ∧ b.slog = 6 ∧ b.step (.acq true 0 0) = .ok b1 t ∧ b1 ≠ b ∧
  slot = b.f 503 448 + t.toNat % b.slots * 64 ∧ s.recFault ctx slot 64 .both = none ∧ r = ⟨ctx, slot, s.vrec ctx slot 512, []⟩ ∧
  b1.step (.rel t.toNat) = .ok b2 u
theorem net_hyps (p : Nat) (h : p = 0 ∨ p = 1) :
    NetHyps (sending p) 0 0x10200 (ctx0 (sending p)) (ring 1 1 0 0) (ring 1 1 1 0) (ring 1 1 1 1) 0 0 (netReq p) := by
  rcases h with rfl | rfl <;>
    exact ⟨by decide +kernel, by decide +kernel, ok_of (by decide +kernel), by decide +kernel, by decide +kernel, by decide +kernel, by decide +kernel,
      by decide +kernel, by decide +kernel, by decide +kernel⟩
theorem test_meets_net_request : ∃ s ctx slot c b b1 b2 t u r, NetHyps s ctx slot c b b1 b2 t u r ∧ s.netCheck c r = .ok :=
  ⟨sending 0, 0, _, _, _, _, _, _, _, _, net_hyps 0 (.inl rfl), by decide +kernel⟩
theorem test_meets_net_refused : ∃ s ctx slot c b b1 b2 t u r cause, NetHyps s ctx slot c b b1 b2 t u r ∧ s.netCheck c r = .fail cause :=
  ⟨sending 1, 0, _, _, _, _, _, _, _, _, 0x4B, net_hyps 1 (.inr rfl), by decide +kernel⟩
/-- A request that reads. -/
def readReq : NetReq := ⟨0, 0x10200, BitVec.ofNat 512 (reqRcd 4 0 4), []⟩
def outstanding : State := { bench with nets := [(3, readReq)] }
theorem test_meets_net_fails : ∃ s n cause r, Tbl.find (State.nets s) n = some r ∧ s.flowBefore n r = false ∧
    cause ∈ [0, 0x48, 0x49, 0x4B, 0x59, 0x4F] ∧ (cause ≠ 0 ∨ r.op ≠ 4) :=
  ⟨outstanding, 3, 0x4F, readReq, by decide +kernel⟩
theorem test_meets_net_reads : ∃ s n cause data r, Tbl.find (State.nets s) n = some r ∧ s.flowBefore n r = false ∧
    cause ∈ [0, 0x48, 0x49, 0x4B, 0x59, 0x4F] ∧ cause = 0 ∧ r.op = 4 ∧
    List.length data = r.len ∧ (data : List Byte) = [1, 2, 3, 4] ∧ s.rangeFault r.ctx r.lva r.len .write = none :=
  ⟨outstanding, 3, 0, [1, 2, 3, 4], readReq, by decide +kernel⟩
def peerReq (op : BitVec 8) : PeerReq := ⟨0, 77, op, 0x1FFFC, [1, 2, 3, 4], 4, 0x1FFF8, 1⟩
theorem test_meets_peer (op : BitVec 8) (h : op = 1 ∨ op = 2 ∨ op = 3) : ∃ s r c, Tbl.find (State.ctxs s) (PeerReq.ctx r) = some c ∧ c.run ≠ .killed ∧
    (∃ p ∈ c.peers, p.key = r.key) ∧ s.anyNetUp = true ∧ (r.op.toNat ∈ [1, 2] → r.bytes.length = r.len ∧ s.rangeFault r.ctx r.rva r.len .write = none) ∧
    (r.op.toNat ∈ [2, 3] → r.sva % 8 = 0 ∧ s.rangeFault r.ctx r.sva 8 .both = none) ∧ r.op = op := by
  rcases h with rfl | rfl | rfl
  · exact ⟨sending 0, peerReq 1, ctx0 (sending 0), by decide +kernel, by decide +kernel, ⟨peer0, by decide +kernel⟩, by decide +kernel, by decide +kernel,
      by decide +kernel, rfl⟩
  · exact ⟨sending 0, peerReq 2, ctx0 (sending 0), by decide +kernel, by decide +kernel, ⟨peer0, by decide +kernel⟩, by decide +kernel, by decide +kernel,
      by decide +kernel, rfl⟩
  · exact ⟨sending 0, peerReq 3, ctx0 (sending 0), by decide +kernel, by decide +kernel, ⟨peer0, by decide +kernel⟩, by decide +kernel, by decide +kernel,
      by decide +kernel, rfl⟩

/-! ## Pre-emption and the swap -/

/-- A stopping context whose strand has a registered `waita`; one whose strand and front-end context stand at their boundaries. -/
def waitAcc : Access := ⟨.strand 0 0, 0, .waita 0, 4, false, 0, [⟨0, 0x10100, 0x10100, [], 0, 0, 0, [(0, 4)]⟩], [], some 4, false, true, false, 0, 0, 0⟩
def stopS : State := ctxS (fun c => { c with run := .stopping }) bench
def waitingS_ : State := { stopS with accs := [(3, waitAcc)], waiters := [⟨3, 0x10100, 4, 0⟩] }
theorem test_meets_ack_waita : ∃ s ctx p c a w, Tbl.find (State.ctxs s) ctx = some c ∧ c.run = .stopping ∧ p ∈ s.parties ctx ∧ p = .agent a ∧
    (s.waiters.find? fun w => (Tbl.find s.accs w.acc).any fun q => q.agent == a) = some w :=
  ⟨waitingS_, 0, .agent (.strand 0 0), ctx0 waitingS_, .strand 0 0, ⟨3, 0x10100, 4, 0⟩, by decide +kernel, by decide +kernel, by decide +kernel, rfl,
    by decide +kernel⟩
/-- A strand that no clause holds, as the context acknowledges, first of its parties or lastParty. -/
def quietS (acks : List Party) : State := ctxS (fun c => { c with acks := acks }) (strand stopS fun st => { st with pc := 0x2000, clause := none })
def lastParty : Party := .agent (.strand 0 0)
theorem quiet_waiters (l : List Party) : ∀ a, lastParty = .agent a → (quietS l).waiterOf a = none := fun _ _ => rfl
def acked (l : List Party) : State := (quietS l).updCtx 0 fun c => { c with acks := if c.acks.contains lastParty then c.acks else lastParty :: c.acks }
theorem test_meets_ack_first : ∃ s ctx p c t, Tbl.find (State.ctxs s) ctx = some c ∧ c.run = .stopping ∧ p ∈ s.parties ctx ∧
    (∀ a, p = .agent a → s.waiterOf a = none) ∧ s.atBoundary p = true ∧
    t = (s.leaveArray p).updCtx ctx (fun c => { c with acks := if c.acks.contains p then c.acks else p :: c.acks }) ∧
    ∃ q ∈ t.parties ctx, ∀ k, Tbl.find t.ctxs ctx = some k → q ∉ k.acks := by
  refine ⟨quietS [], 0, lastParty, ctx0 (quietS []), acked [], by decide +kernel, by decide +kernel, by decide +kernel, quiet_waiters [], by decide +kernel, rfl,
    .agent (.fe 0), by decide +kernel, fun k hk => ?_⟩
  have e : Tbl.find (acked []).ctxs 0 = some (ctx0 (acked [])) := by decide +kernel
  rw [e] at hk; cases hk; decide +kernel
def rest_ : List Party := (quietS []).parties 0
theorem test_meets_ack_last : ∃ s ctx p c t, Tbl.find (State.ctxs s) ctx = some c ∧ c.run = .stopping ∧ p ∈ s.parties ctx ∧
    (∀ a, p = .agent a → s.waiterOf a = none) ∧ s.atBoundary p = true ∧
    t = (s.leaveArray p).updCtx ctx (fun c => { c with acks := if c.acks.contains p then c.acks else p :: c.acks }) ∧
    ∀ k, Tbl.find t.ctxs ctx = some k → ∀ q ∈ t.parties ctx, q ∈ k.acks ∧ t.atBoundary q = true := by
  refine ⟨quietS rest_, 0, lastParty, ctx0 (quietS rest_), acked rest_, by decide +kernel, by decide +kernel, by decide +kernel, quiet_waiters rest_,
    by decide +kernel, rfl, fun k hk => ?_⟩
  have e : Tbl.find (acked rest_).ctxs 0 = some (ctx0 (acked rest_)) := by decide +kernel
  rw [e] at hk; cases hk; decide +kernel
/-- Partition 0, stopped, makes room for partition 31; its cores fill the shadow store of die 0 or a granule more. -/
def heldS : Held := ⟨⟨.part 0, 0, 0⟩, 0, 0, some 31⟩
def outP : Part := ⟨[(0, 1)], 0, 0, [], [], .out⟩
def inP (clusters : BitVec 72) : Part := ⟨[(0, clusters)], 0, 0, [], [], .resident⟩
def fullCore (n : Nat) : Core := { Core.empty with grans := (List.range n).map fun g => (g, ⟨false, false, true, false⟩) }
def swapping (clusters : BitVec 72) (n : Nat) : State :=
  { ctxS (fun c => { c with run := .stopped }) bench with
    held := [heldS], parts := [(0, inP clusters), (31, outP)], cores := (List.range 320).map fun i => (i, fullCore n) }
def SwapHyps (s : State) (out i : Nat) (h : Held) (p q : Part) : Prop :=
  (s.held.find? fun h => h.part == out && h.swapIn == some i) = some h ∧ Tbl.find s.parts out = some p ∧ Tbl.find s.parts i = some q ∧
  p.run = .resident ∧ q.run = .out ∧ ∀ c ∈ s.ctxsOf out, ∃ k, Tbl.find s.ctxs c = some k ∧ (k.run = .stopped ∨ k.run = .killed)
theorem swap_hyps (clusters : BitVec 72) (n : Nat) : SwapHyps (swapping clusters n) 0 31 heldS (inP clusters) outP := by
  refine ⟨rfl, rfl, rfl, rfl, rfl, fun c hc => ?_⟩
  have e : (swapping clusters n).ctxsOf 0 = [0] := rfl
  rw [e, List.mem_singleton] at hc
  exact ⟨{ placeCtx with run := .stopped }, by rw [hc]; rfl, .inl rfl⟩
theorem test_meets_swap : ∃ s out i h p q, SwapHyps s out i h p q ∧ s.shadowFits p (some i) = true ∧ s.clustersFree i q (some out) = true :=
  ⟨swapping 1 1, 0, 31, heldS, inP 1, outP, swap_hyps 1 1, by decide +kernel, by decide +kernel⟩
theorem test_meets_swap_full : ∃ s out i h p q, SwapHyps s out i h p q ∧ s.shadowFits p (some i) = false :=
  ⟨swapping 0xFFFFFFFFFF 1025, 0, 31, heldS, inP 0xFFFFFFFFFF, outP, swap_hyps _ _, by decide +kernel⟩

/-! ## Landings, steps, encodings -/

/-- A pair at generation 0xFFFF with 4 bytes to go. -/
def pairS : State := pair bench 46 (0xFFFF * 2 ^ 48 + 8 * 2 ^ 24 + 4)
theorem test_meets_land_ends (b : Nat) (h : b = 3 ∨ b = 4) : ∃ s wid dom pair w d, Tbl.find (State.warps s) wid = some w ∧ w.dom dom = some d ∧
    syncCnt (s.pair (coreOf wid) d pair) + b + (if b = 3 then 1 else 0) = syncTgt (s.pair (coreOf wid) d pair) := by
  rcases h with rfl | rfl
  · exact ⟨pairS, 0, 0, 46, warp0 pairS, placeDom, by decide +kernel⟩
  · exact ⟨pairS, 0, 0, 46, warp0 pairS, placeDom, by decide +kernel⟩
theorem test_meets_armed : ∃ st : Strand, st.stepArm = 1 := ⟨{ placeStrand 0 none with stepArm := 1 }, rfl⟩
def armed2 : State := strand bench fun st => { st with stepArm := 2 }
theorem test_meets_single_step : ∃ i s x c, Codec.classOf i = some c ∧ c ≠ 7 ∧ State.who s = some x ∧
    (∀ p, x.st.parked = some p → p.1.byEvent = false) ∧ x.st.stepArm = 2 := by
  refine ⟨.yield, armed2, issuer armed2, 5, rfl, by decide, by decide +kernel, ?_, by decide +kernel⟩
  have e : (issuer armed2).st.parked = none := by decide +kernel
  intro p hp; rw [e] at hp; cases hp
/-- Turns of the strand, inside its clause or at its header, of the context, and of an event. -/
def turn (a : Turn) (s : State) : State := { s with agenda := [a] }
def mine (a : Agent) (s : State) : State := { s.passTime with agenda := [], cur := a }
def inClause : State := strand bench fun st => { st with clause := some ⟨0x2000, 5, 1, false, [(Codec.encode .yield).headD 0]⟩ }
theorem test_meets_step_word : ∃ s u a rest x c i, State.agenda s = .issue a :: rest ∧ u = { s.passTime with agenda := rest, cur := a } ∧ u.who = some x ∧
    u.mayIssue x = true ∧ x.st.trapping = none ∧ x.st.clause = some c ∧
    Codec.decodeWord c.cls (c.unitAt x.st.pc).2.2 (c.unitAt x.st.pc).1 (c.unitAt x.st.pc).2.1 = .ok i :=
  ⟨turn (.issue (.strand 0 0)) inClause, _, .strand 0 0, [], issuer inClause, ⟨0x2000, 5, 1, false, [(Codec.encode .yield).headD 0]⟩, .yield, rfl, rfl,
    by decide +kernel, by decide +kernel, by decide +kernel, by decide +kernel, ok_of (by decide +kernel)⟩
/-- A word of class 4 whose second unit would lie beyond the clause. -/
def crossing : State := strand bench fun st => { st with clause := some ⟨0x2000, 4, 1, false, [0]⟩ }
theorem test_meets_step_no_word : ∃ s u a rest x c e, State.agenda s = .issue a :: rest ∧ u = { s.passTime with agenda := rest, cur := a } ∧
    u.who = some x ∧ u.mayIssue x = true ∧ x.st.trapping = none ∧ x.st.clause = some c ∧ Clear u x ∧
    Codec.decodeWord c.cls (c.unitAt x.st.pc).2.2 (c.unitAt x.st.pc).1 (c.unitAt x.st.pc).2.1 = .error e :=
  ⟨turn (.issue (.strand 0 0)) crossing, _, .strand 0 0, [], issuer crossing, ⟨0x2000, 4, 1, false, [0]⟩, .crosses, rfl, rfl,
    by decide +kernel, by decide +kernel, by decide +kernel, by decide +kernel, clear_of (by decide +kernel), err_of (by decide +kernel)⟩
def headed : State := strand bench fun st => { st with pc := 0x2000, clause := none }
theorem test_meets_step_header : ∃ s u a rest x w i, State.agenda s = .issue a :: rest ∧ u = { s.passTime with agenda := rest, cur := a } ∧ u.who = some x ∧
    u.mayIssue x = true ∧ x.st.trapping = none ∧ x.st.clause = none ∧ x.st.stepArm ≠ 2 ∧ u.reachJoin x.wid x.sid = none ∧ u.fetchUnit x.core x.d.ctx x.st.pc = .unit w ∧
    Codec.decodeHeader w = .ok i :=
  ⟨turn (.issue (.strand 0 0)) headed, _, .strand 0 0, [], issuer headed, Codec.headerWord ⟨0, 0, false, 0, false, false, false, 0, 0⟩,
    .clauseHeader ⟨0, 0, false, 0, false, false, false, 0, 0⟩, rfl, rfl, by decide +kernel, by decide +kernel, by decide +kernel, by decide +kernel,
    by decide +kernel, by decide +kernel, by decide +kernel, ok_of (by decide +kernel)⟩
def feF (cl : Option Clause) : FrontEnd := ⟨if cl.isSome then 0x2001 else 0x2000, cl, List.replicate 32 0, [], none, none, none⟩
def feT (cl : Option Clause) : State := { crew bench fun c => { c with fe := some (feF cl) } with cur := .fe 0 }
def feClause : Clause := ⟨0x2000, 7, 1, false, [(Codec.encode .aend).headD 0]⟩
theorem test_meets_step_fe : ∃ s u a rest cid k f c i, State.agenda s = .issue a :: rest ∧ u = { s.passTime with agenda := rest, cur := a } ∧ u.who = none ∧
    u.whoFe = some (cid, k, f) ∧ u.feMayIssue k f = true ∧ f.clause = some c ∧
    Codec.decodeWord c.cls (c.unitAt f.pc).2.2 (c.unitAt f.pc).1 (c.unitAt f.pc).2.1 = .ok i :=
  ⟨turn (.issue (.fe 0)) (feT (some feClause)), _, .fe 0, [], 0, crew0_ (feT (some feClause)), feF (some feClause), feClause, .aend, rfl, rfl,
    by decide +kernel, by decide +kernel, by decide +kernel, rfl, ok_of (by decide +kernel)⟩
theorem test_meets_step_fe_header : ∃ s u a rest cid k f w i, State.agenda s = .issue a :: rest ∧ u = { s.passTime with agenda := rest, cur := a } ∧
    u.who = none ∧ u.whoFe = some (cid, k, f) ∧ u.feMayIssue k f = true ∧ f.clause = none ∧ u.fetchUnit k.core (u.crewCtx k) f.pc = .unit w ∧
    Codec.decodeHeader w = .ok i :=
  ⟨turn (.issue (.fe 0)) (feT none), _, .fe 0, [], 0, crew0_ (feT none), feF none, Codec.headerWord ⟨0, 0, false, 0, false, false, false, 0, 0⟩,
    .clauseHeader ⟨0, 0, false, 0, false, false, false, 0, 0⟩, rfl, rfl, by decide +kernel, by decide +kernel, by decide +kernel, rfl, by decide +kernel,
    ok_of (by decide +kernel)⟩
theorem test_meets_step_event : ∃ s i rest, State.agenda s = .occur i :: rest ∧ Codec.classOf i = none ∧ (∀ h, i ≠ .clauseHeader h) ∧
    ∀ w, i ≠ .illegalOpcode w := ⟨turn (.occur .weirWindow) bench, .weirWindow, [], rfl, rfl, fun _ h => (by cases h), fun _ h => (by cases h)⟩
theorem test_meets_canonical : ∃ s t : State, s.canonical = true ∧ step s = .next t := ⟨turn (.occur .weirWindow) bench, _, by decide +kernel, rfl⟩
/-- Words at the edges of their fields: a control word, which stands in every class, and a word of two units. -/
theorem test_meets_round_trip : (Instr.bra 0xFFFFFF).wf = true ∧ (∀ c, Sys2Proof.Laws.RoundTrip.standsIn c (.bra 0xFFFFFF) = true) ∧
    (Instr.eseq ⟨15, 46, 47⟩ ⟨0xFFFFFF⟩).wf = true ∧ Sys2Proof.Laws.RoundTrip.standsIn 4 (.eseq ⟨15, 46, 47⟩ ⟨0xFFFFFF⟩) = true := by decide +kernel

end Sys2Proof.Tests
end

