-- ==== Sys2Proof/Tests/Meets8.lean ====
section
/-! SUPPORT. For the statements about operands that are not in order, the values of floating operations, and divergence: for each clause, a
state and operands that meet its hypotheses together, at an edge of their range. -/

namespace Sys2Proof.Tests

set_option Elab.async false

open Sys2Proof.Machine

/-! ## Operands -/

/-- Decides `strikes`: the first of the four that applies, or 4. -/
def strikeB (s : State) (x : Who) (d : OpD) (acc : OwnOf) (only : Mask) (l : Nat) : Nat :=
  let a := acc (firstLook s x d only) l
  if d.outside x || (only.getLsbD l && a.bad) then 0
  else if only.getLsbD l && ((a.reads ++ laneReads x d l) ++ (a.writes ++ laneWrites x d l)).any (fun w => ((s.core x.core).gran (w / 128)).own) then 2
  else if only.getLsbD l && (a.reads ++ laneReads x d l).any (fun w => !((s.core x.core).gran (w / 128)).val) then 1
  else if (List.range 4).any (fun q => decide ((x.w.queues.getD q ⟨[], false⟩).entries.length < popCount d.srcs q)) then 3
  else 4
theorem strikes_iff (s : State) (x : Who) (d : OpD) (acc : OwnOf) (only : Mask) (l k : Nat) (hk : k < 4) :
    strikes s x d acc only l k ↔ strikeB s x d acc only l = k := by
  have e : ∀ b : Bool, (∃ q, q < 4 ∧ (x.w.queues.getD q ⟨[], false⟩).entries.length < popCount d.srcs q) ↔
      (List.range 4).any (fun q => decide ((x.w.queues.getD q ⟨[], false⟩).entries.length < popCount d.srcs q)) = true := by simp
  simp only [strikes, strikeB, e true, Bool.or_eq_true, Bool.and_eq_true, List.any_eq_true, Bool.not_eq_true']
  match k, hk with
  | 0, _ | 1, _ | 2, _ | 3, _ => repeat' split
                                 all_goals simp_all
theorem struck_of {s : State} {x : Who} {d : OpD} {acc : OwnOf} {only : Mask} {m : Nat → Mask} (h4 : ∀ k, m (k + 4) = 0)
    (h : ((List.range 4).all fun k => (List.range 64).all fun l =>
      (m k).getLsbD l == (x.st.em.getLsbD l && strikeB s x d acc only l == k)) = true) : Struck s x d acc only m := by
  intro k l
  by_cases hl : l < 64
  · by_cases hk : k < 4
    · have := List.all_eq_true.mp (List.all_eq_true.mp h k (List.mem_range.mpr hk)) l (List.mem_range.mpr hl)
      rw [eq_of_beq this, strikes_iff _ _ _ _ _ _ _ hk, Bool.and_eq_true, beq_iff_eq]
    · obtain ⟨j, rfl⟩ : ∃ j, k = j + 4 := ⟨k - 4, by omega⟩
      simp [h4, strikes]
  · simp [BitVec.getLsbD_of_ge _ _ (Nat.le_of_not_lt hl)]
/-- The mask of one of the four, and none of the others. -/
def only_ (k : Nat) (m : Mask) (j : Nat) : Mask := if j = k ∧ k < 4 then m else 0
theorem only_four {k : Nat} {m : Mask} (j : Nat) : only_ k m (j + 4) = 0 := if_neg (by omega)

/-- What every clause asks. -/
def Asks (i : Instr) (s : State) (x : Who) (d : OpD) (acc : OwnOf) (only : Mask) : Prop :=
  Clear s x ∧ operandsOf s x i = some (d, acc, only) ∧ ∀ f, i = .waita f → waitaOk f = true ∧ x.st.em ≠ 0
/-- `add.n32 d, a, v3`. -/
def addI (d a : Opnd) : Instr := .add ⟨.n32, false, d, a, .v 3⟩
theorem asks (d a : Opnd) {s : State} (h : clearB s (issuer s) = true) :
    Asks (addI d a) s (issuer s) { srcs := [(a, 1), (.v 3, 1)], dst := some (d, 1) } (fun _ _ => OwnAcc.none) 0xFFFFFFFFFFFFFFFF :=
  ⟨clear_of h, rfl, fun _ h => by cases h⟩
/-- The strand in a callee. -/
def callee : State := warp (strand bench fun st => { st with dom := 1 }) fun w => { w with doms := Tbl.put w.doms 1 placeDom }
theorem test_meets_callee_queue : ∃ i s x d acc only, Asks i s x d acc only ∧ x.st.dom ≠ 0 ∧ ∃ p ∈ d.srcs ++ d.dst.toList, ∃ k, p.1 = .q k :=
  ⟨_, callee, _, _, _, _, asks (.q 7) (.v 2) (by decide +kernel), by decide +kernel, (.q 7, 1), by decide, 7, rfl⟩
theorem test_meets_queue_direction : (∃ i s x d acc only, Asks i s x d acc only ∧ x.st.dom = 0 ∧ ∃ p ∈ d.srcs, ∃ k, p.1 = .q k ∧ 4 ≤ k.val) ∧
    ∃ i s x d acc only, Asks i s x d acc only ∧ x.st.dom = 0 ∧ ∃ k n, OpD.dst d = some (.q k, n) ∧ k.val < 4 :=
  ⟨⟨_, bench, _, _, _, _, asks (.v 1) (.q 4) (by decide +kernel), by decide +kernel, (.q 4, 1), by decide, 4, rfl, by decide⟩,
    _, bench, _, _, _, _, asks (.q 3) (.v 2) (by decide +kernel), by decide +kernel, 3, 1, rfl, by decide⟩
/-- A queue with entries, or closed. -/
def queueS (q : Nat) (e : List QEntry) (closed : Bool) : State := warp bench fun w => { w with queues := w.queues.set q ⟨e, closed⟩ }
theorem test_meets_closed_queue : ∃ i s x d acc only, Asks i s x d acc only ∧ x.st.dom = 0 ∧ (∀ p ∈ d.srcs, ∀ k, p.1 = .q k → k.val < 4) ∧
    ∃ k n, OpD.dst d = some (.q k, n) ∧ 4 ≤ k.val ∧ x.st.em ≠ 0 ∧ (x.w.queues.getD k.val ⟨[], false⟩).closed = true :=
  ⟨_, queueS 7 [] true, _, _, _, _, asks (.q 7) (.v 2) (by decide +kernel), by decide +kernel,
    by decide +kernel, 7, 1, rfl, by decide, by decide +kernel⟩
/-- A command of the warp with the pair s46. -/
def pairCmd : State :=
  let t := newCmd bench (issuer bench).iss ⟨0, 46, 44⟩ (.tfill ⟨31, 8, 9, false, 0⟩) (engTake bench (issuer bench).iss (.tfill ⟨31, 8, 9, false, 0⟩)) 1 none none
  { bench with cmds := [(5, t)] }
theorem test_meets_busy_pair : ∃ i s x d acc only, Asks i s x d acc only ∧ queueFault x d = none ∧ busyDst s x d = true :=
  ⟨_, pairCmd, _, _, _, _, asks (.s 47) (.v 2) (by decide +kernel), by decide +kernel, by decide +kernel⟩
theorem test_meets_queue_wait : ∃ i s x d acc only, Asks i s x d acc only ∧ queueFault x d = none ∧ busyDst s x d = false ∧ queueWait x d = true :=
  ⟨_, bench, _, _, _, _, asks (.v 1) (.q 3) (by decide +kernel), by decide +kernel, by decide +kernel, by decide +kernel⟩
/-- The strand has an access that is not acknowledged. -/
def writing : State := { bench with accs := [(3, ⟨.strand 0 0, 0, .store, 4, false, 0, [], [], none, false, false, false, 0, 0, 0⟩)] }
theorem test_meets_release_wait : ∃ i s x d acc only, Asks i s x d acc only ∧ queueFault x d = none ∧ busyDst s x d = false ∧ queueWait x d = false ∧
    d.pushes = true ∧ s.unfinished x.agent = true :=
  ⟨_, writing, _, _, _, _, asks (.q 4) (.v 2) (by decide +kernel), by decide +kernel, by decide +kernel, by decide +kernel, by decide +kernel, by decide +kernel⟩

/-- Decides `Issues`. -/
def issuesB (s : State) (x : Who) (d : OpD) (acc : OwnOf) (only : Mask) : Bool :=
  (queueFault x d).isNone && !busyDst s x d && !queueWait x d && (!d.pushes || !s.unfinished x.agent) && !Ready.fencedOff (firstLook s x d only) acc
theorem issues_of {s : State} {x : Who} {d : OpD} {acc : OwnOf} {only : Mask} (h : issuesB s x d acc only = true) : Issues s x d acc only := by
  simp only [issuesB, Bool.and_eq_true, Bool.not_eq_true', Option.isNone_iff_eq_none, Bool.or_eq_true] at h
  obtain ⟨⟨⟨⟨h1, h2⟩, h3⟩, h4⟩, h5⟩ := h
  refine ⟨h1, h2, h3, fun hp => ?_, h5⟩
  rcases h4 with h4 | h4
  · rw [hp] at h4; cases h4
  · exact h4
/-- A register behind the frame; granules on the engine side; words that are not valid; a queue that is closed and empty. -/
def wrongS (k : Nat) (acr : Dword) : State :=
  csrs (match k with
    | 1 => core bench fun c => c.setGran (placeDom.lane 4 2 0 / 128) ⟨false, false, false, false⟩
    | 2 => core bench fun c => c.setGran (placeDom.lane 4 2 0 / 128) ⟨true, false, true, false⟩
    | 3 => queueS 3 [] true
    | _ => dom bench fun d => { d with fv := 8 }) fun c => { c with acr := acr }
def wrongA (k : Nat) : Opnd := match k with
  | 0 => .v 8
  | 3 => .q 3
  | _ => .v 2
def addD (k : Nat) : OpD := { srcs := [(wrongA k, 1), (.v 3, 1)], dst := some (.v 1, 1) }
def StrikeHyps (i : Instr) (s : State) (x : Who) (d : OpD) (acc : OwnOf) (only : Mask) (m : Nat → Mask) : Prop :=
  Asks i s x d acc only ∧ Issues s x d acc only ∧ Struck s x d acc only m
def strikeAllB (k : Nat) (acr : Dword) (m : Mask) : Bool :=
  let s := wrongS k acr
  clearB s (issuer s) && issuesB s (issuer s) (addD k) (fun _ _ => OwnAcc.none) 0xFFFFFFFFFFFFFFFF &&
    (List.range 4).all fun j => (List.range 64).all fun l =>
      (only_ k m j).getLsbD l == ((issuer s).st.em.getLsbD l && strikeB s (issuer s) (addD k) (fun _ _ => OwnAcc.none) 0xFFFFFFFFFFFFFFFF l == j)
theorem strike_hyps {k : Nat} {acr : Dword} {m : Mask} (h : strikeAllB k acr m = true) :
    StrikeHyps (addI (.v 1) (wrongA k)) (wrongS k acr) (issuer (wrongS k acr)) (addD k) (fun _ _ => OwnAcc.none) 0xFFFFFFFFFFFFFFFF (only_ k m) := by
  unfold strikeAllB at h
  rw [Bool.and_eq_true, Bool.and_eq_true] at h
  exact ⟨asks _ _ h.1.1, issues_of h.1.2, struck_of only_four h.2⟩
theorem test_meets_struck (k : Nat) (h : k < 4) : ∃ i s x d acc only m, StrikeHyps i s x d acc only m ∧ x.d.csrs.acr.getLsbD 24 = true ∧ m k ≠ 0 ∧
    ∀ j, j ≠ k → m j = 0 :=
  match k, h with
  | 0, _ => ⟨_, _, _, _, _, _, _, strike_hyps (k := 0) (acr := 0x1000000) (m := 15) (by decide +kernel), by decide +kernel, by decide, fun _ h => if_neg (h ·.1)⟩
  | 1, _ => ⟨_, _, _, _, _, _, _, strike_hyps (k := 1) (acr := 0x1000000) (m := 15) (by decide +kernel), by decide +kernel, by decide, fun _ h => if_neg (h ·.1)⟩
  | 2, _ => ⟨_, _, _, _, _, _, _, strike_hyps (k := 2) (acr := 0x1000000) (m := 15) (by decide +kernel), by decide +kernel, by decide, fun _ h => if_neg (h ·.1)⟩
  | 3, _ => ⟨_, _, _, _, _, _, _, strike_hyps (k := 3) (acr := 0x1000000) (m := 15) (by decide +kernel), by decide +kernel, by decide, fun _ h => if_neg (h ·.1)⟩
/-- The word of v2 of lane 3 is poisoned. -/
def poisonedV : State := core bench fun c => { c with marks := [(placeDom.lane 4 2 3, 0x54)] }
theorem test_meets_poison : ∃ i s x d acc only m p l a pre post, StrikeHyps i s x d acc only m ∧ (∀ k, m k = 0) ∧
    (∀ j, BitVec.getLsbD p j = true ↔ (x.st.em &&& only).getLsbD j = true ∧
      ∃ w ∈ laneConsumes x d j ++ (acc (readyOf s x d only) j).reads, (s.core x.core).mark w ≠ 0) ∧ lowLane p = some l ∧
    laneConsumes x d l ++ (acc (readyOf s x d only) l).reads = pre ++ a :: post ∧ (∀ w ∈ pre, (s.core x.core).mark w = 0) ∧
    (s.core x.core).mark a ≠ 0 := by
  refine ⟨addI (.v 1) (.v 2), poisonedV, issuer poisonedV, addD 1, _, _, only_ 4 0, 8, 3, placeDom.lane 4 2 3, [], [placeDom.lane 4 3 3],
    ⟨asks _ _ (by decide +kernel), issues_of (by decide +kernel), struck_of only_four (by decide +kernel)⟩, fun _ => if_neg (by omega), fun j => ?_,
    by decide +kernel, by decide +kernel, by decide +kernel, by decide +kernel⟩
  have e : ((issuer poisonedV).st.em &&& 0xFFFFFFFFFFFFFFFF) = 15 := by decide +kernel
  rw [e]
  by_cases h : j < 4
  · match j, h with
    | 0, _ | 1, _ | 2, _ | 3, _ => decide +kernel
  · have a : ∀ m : Mask, m.toNat < 16 → m.getLsbD j = false := fun m hm => by
      rw [BitVec.getLsbD]; exact Nat.testBit_lt_two_pow (Nat.lt_of_lt_of_le hm (Nat.pow_le_pow_right (n := 2) (i := 4) (by decide) (by omega)))
    rw [a 8 (by decide), a 15 (by decide)]; simp
/-- `add` of a frame with an invalid word, QTRAP clear. -/
theorem test_meets_quench : ∃ s x i q m gone left r, Clear s x ∧ intRule i = some q ∧ q.la = none ∧ x.st.dom = 0 ∧ x.sid ≠ 16 ∧
    x.d.csrs.acr.getLsbD 24 = false ∧ Issues s x q.d (fun _ _ => OwnAcc.none) every ∧ Struck s x q.d (fun _ _ => OwnAcc.none) every m ∧
    gone = m 0 ||| m 1 ||| m 2 ||| m 3 ∧ gone ≠ 0 ∧ left = x.st.em &&& ~~~gone ∧
    r = ⟨s, x, q.d, left, (List.range 4).map fun k => (k, m k), popEntries x.w.queues q.d.srcs⟩ ∧
    (∀ l ∈ lanesOf left, ∀ w ∈ laneConsumes x q.d l, (s.core x.core).mark w = 0) ∧ noIntTrap x (q.dz r) (q.ov r) :=
  ⟨wrongS 1 0, issuer (wrongS 1 0), addI (.v 1) (.v 2), _, only_ 1 15, 15, _, _, clear_of (by decide +kernel), rfl, rfl, by decide +kernel,
    by decide +kernel, by decide +kernel, issues_of (by decide +kernel), struck_of only_four (by decide +kernel), by decide +kernel, by decide, rfl, rfl,
    by decide +kernel, by unfold noIntTrap; decide +kernel⟩

/-! ## Values of floating operations -/

/-- 3 at exponent 0 to a multiple of 4, of 2, with bits below and without, and of 1. -/
theorem test_meets_round_at : (∀ md : Mode, ∃ m e l p, p = roundAt md false m e l true ∧ l ≤ e) ∧
    ∀ (m : Nat) (st : Bool), (m = 1 ∨ m = 2 ∨ m = 3) → ∃ d k r e l, ∀ (md : Mode) (neg : Bool), ∃ p, p = roundAt md neg m e l st ∧ e < l ∧
      d = (l - e).toNat ∧ k = m / 2 ^ d ∧ r = m % 2 ^ d ∧ ((m = 1 ∧ 2 * r < 2 ^ d) ∨ (m = 2 ∧ 2 ^ d = 2 * r) ∨ (m = 3 ∧ 2 ^ d < 2 * r)) := by
  refine ⟨fun md => ⟨3, 0, 0, _, rfl, by decide⟩, fun m st h => ⟨2, m / 4, m % 4, 0, 2, fun md neg => ⟨_, rfl, by decide, by decide, rfl, rfl, ?_⟩⟩⟩
  rcases h with rfl | rfl | rfl <;> decide
/-- Codes of binary16: the greatest finite magnitude, and half a unit more, which rounds beyond it. -/
def RoundHyps (f : FFmt) (md : Mode) (neg st : Bool) (m big : Nat) (e t l : Int) (p u : Nat × Bool) : Prop :=
  f ∈ [f32, f16, bf16] ∧ m ≠ 0 ∧ t = (bitLen m : Int) + e - (f.mb + 1) ∧ l = max f.emin t ∧ p = roundAt md neg m e l st ∧ u = roundAt md neg m e t st ∧
  big = (2 ^ (f.mb + 1) - 1) * 2 ^ (2 ^ f.eb - 3)
theorem test_meets_rounded : ∃ f md neg st m big e t l p u, RoundHyps f md neg st m big e t l p u ∧ p.1 * 2 ^ (l - f.emin).toNat ≤ big :=
  ⟨f16, .rne, true, true, 4094, _, 4, _, _, _, _, ⟨by decide, by decide, rfl, rfl, rfl, rfl, rfl⟩, by decide +kernel⟩
theorem test_meets_beyond : (∃ f md neg st m big e t l p u, RoundHyps f md neg st m big e t l p u ∧ big < p.1 * 2 ^ (l - f.emin).toNat ∧
      md = .rup ∧ neg = true) ∧
    ∃ f md neg st m big e t l p u, RoundHyps f md neg st m big e t l p u ∧ big < p.1 * 2 ^ (l - f.emin).toNat ∧ md ≠ .rtz ∧
      ¬ (md = .rdn ∧ neg = false) ∧ ¬ (md = .rup ∧ neg = true) :=
  ⟨⟨f16, .rup, true, false, 1, _, 16, _, _, _, _, ⟨by decide, by decide, rfl, rfl, rfl, rfl, rfl⟩, by decide +kernel, rfl, rfl⟩,
    f16, .rne, true, false, 4095, _, 4, _, _, _, _, ⟨by decide, by decide, rfl, rfl, rfl, rfl, rfl⟩, by decide +kernel, by decide, by decide, by decide⟩
/-- A signalling NaN beside a number; 1 and its opposite; 0 and a number beside 0. -/
theorem test_meets_values : (∃ f a b c, f ∈ [f32, f16, bf16] ∧ 2 ^ 23 - 1 < 2 ^ 23 ∧ a = FVal.nan true (2 ^ 23 - 1) true ∧ FVal.isNan b = false ∧
      FVal.isNan c = false) ∧
    (∃ n1 n2 m1 m2 e1 e2 e x y, e = min e1 e2 ∧ x = atExp n1 m1 e1 e ∧ y = atExp n2 m2 e2 e ∧ x + y = 0 ∧ m1 ≠ 0 ∧ m2 ≠ 0) ∧
    ∃ n1 n2 m1 m2 e1 e2 e x y, e = min e1 e2 ∧ x = atExp n1 m1 e1 e ∧ y = atExp n2 m2 e2 e ∧ x + y ≠ 0 ∧ m1 ≠ 0 ∧ m2 = 0 :=
  ⟨⟨bf16, _, .inf true, .num true 0 0, by decide, by decide, rfl, rfl, rfl⟩,
    ⟨false, true, 2, 1, 0, 1, 0, 2, -2, by decide, by decide, by decide, by decide, by decide, by decide⟩,
    ⟨true, true, 1, 0, 0, 5, 0, -1, 0, by decide, by decide, by decide, by decide, by decide, rfl⟩⟩

/-! ## Divergence -/

/-- A fork with an entry for every side, without one, and without room for a record: 15 entries taken, and 16 records held. -/
def sideS : Side := ⟨8, 0x2002, []⟩
def fullEntries (n : Nat) : State := warp bench fun w =>
  { w with
    strands := w.strands ++ (List.range 15).map fun i => (i + 1, { placeStrand 0x2000 none with em := 0, mem := 0 })
    deferred := List.replicate n ⟨0, 0x2002, none, 0, 0, none, [], 0⟩ }
theorem test_meets_fork : (∃ s x others, Tbl.find (State.warps s) (Who.wid x) = some x.w ∧ Tbl.find x.w.strands x.sid = some x.st ∧
      List.length others ≤ x.w.freeEntries.length ∧ others = [sideS]) ∧
    (∃ s x others, Tbl.find (State.warps s) (Who.wid x) = some x.w ∧ Tbl.find x.w.strands x.sid = some x.st ∧
      x.w.freeEntries.length < List.length others ∧ others = [sideS] ∧ x.w.deferred.length + (others.length - x.w.freeEntries.length) ≤ 16) ∧
    ∃ s x others, Tbl.find (State.warps s) (Who.wid x) = some x.w ∧ Tbl.find x.w.strands x.sid = some x.st ∧
      x.w.freeEntries.length < List.length others ∧ others = [sideS] ∧ 16 < x.w.deferred.length + (others.length - x.w.freeEntries.length) :=
  ⟨⟨bench, issuer bench, [sideS], by decide +kernel, by decide +kernel, by decide +kernel, rfl⟩,
    ⟨fullEntries 15, issuer (fullEntries 15), [sideS], by decide +kernel, by decide +kernel, by decide +kernel, rfl, by decide +kernel⟩,
    fullEntries 16, issuer (fullEntries 16), [sideS], by decide +kernel, by decide +kernel, by decide +kernel, rfl, by decide +kernel⟩

def headB (s : State) (core ctx : Nat) (p : Pc) : Bool := match s.fetchUnit core ctx p with
  | .unit w => Codec.isHeader w
  | _ => false
theorem good_of {s : State} {core ctx : Nat} {p : Pc} (h : headB s core ctx p = true) : GoodTarget s core ctx p := by
  unfold headB at h; unfold GoodTarget
  cases e : s.fetchUnit core ctx p with
  | unit w => rw [e] at h; exact ⟨w, rfl, h⟩
  | _ => rw [e] at h; cases h
/-- A table of two entries behind the clauses, with a join: all lead back to the second header. Lane 3 selects its last entry. -/
def tabled2 : State :=
  core (poke (poke (poke (strand bench fun st => { st with rstack := List.replicate 31 0 }) 0x10018 8 (2 + 0xFFFFF * 2 ^ 16)) 0x10020 8 0xFFFFFF) 0x10028 8 0xFFFFFF)
    fun c => { c with regs := Tbl.put c.regs (placeDom.lane 4 5 3) 1 }
theorem test_meets_branch_groups : ∃ (s u : State) (x y : Who) (f : BrxF) (tp : Pc) (hd : Unit64) (gs : List (Nat × Mask)) (us : List Unit64)
      (join : Option Pc) (sides : List (Mask × Pc)) (a b : Mask × Pc) (more : List (Mask × Pc)), Clear s x ∧ OperandsOk s x { srcs := [(f.idx, 1)] } ∧
    tp = x.st.header + f.off.signExtend 53 ∧ s.fetchUnit x.core x.d.ctx tp = .unit hd ∧ hd.extractLsb' 36 28 = 0 ∧
    gs = groupBy ((lanesOf x.st.em).map fun l => (l, (readyOf s x { srcs := [(f.idx, 1)] }).val 0 l)) ∧
    (∀ l ∈ lanesOf x.st.em, (readyOf s x { srcs := [(f.idx, 1)] }).val 0 l < (hd.extractLsb' 0 16).toNat) ∧
    us.length = gs.length ∧ (∀ p ∈ gs.zip us, s.fetchUnit x.core x.d.ctx (tp + 1 + BitVec.ofNat 53 p.1.1) = .unit p.2 ∧ p.2.extractLsb' 24 40 = 0) ∧
    join = (if hd.extractLsb' 16 20 = 0 then none else some (tp + (hd.extractLsb' 16 20).signExtend 53)) ∧
    (∀ p, join = some p → GoodTarget s x.core x.d.ctx p) ∧
    sides = (gs.zip us).map (fun g => (g.1.2, tp + (g.2.extractLsb' 0 24).signExtend 53)) ∧ (∀ p ∈ sides, GoodTarget s x.core x.d.ctx p.2) ∧
    sides = a :: b :: more ∧ u = (readyOf s x { srcs := [(f.idx, 1)] }).commit ∧ u.strandAt x.wid x.sid = some y ∧ x.st.rstack.length < 32 := by
  have h : ((readyOf tabled2 (issuer tabled2) { srcs := [(.v 5, 1)] }).commit.strandAt 0 0).isSome = true := by decide +kernel
  obtain ⟨y, hy⟩ := Option.isSome_iff_exists.mp h
  refine ⟨tabled2, _, issuer tabled2, y, ⟨3, .v 5⟩, 0x2003, 2 + 0xFFFFF * 2 ^ 16, [(0, 7), (1, 8)], [0xFFFFFF, 0xFFFFFF], some 0x2002,
    [(7, 0x2002), (8, 0x2002)], (7, 0x2002), (8, 0x2002), [], clear_of (by decide +kernel), operands_of (by decide +kernel) fun _ => rfl,
    by decide +kernel, by decide +kernel, by decide, by decide +kernel, by decide +kernel, rfl, by decide +kernel, by decide +kernel, fun p hp => ?_, by decide,
    fun p hp => ?_, rfl, rfl, hy, by decide +kernel⟩
  · cases hp; exact good_of (by decide +kernel)
  · simp only [List.mem_cons, List.not_mem_nil, or_false] at hp
    rcases hp with rfl | rfl <;> exact good_of (by decide +kernel)

/-- A strand of lanes 0 to 2 at the join of its split, with another of lane 3 that waits there or runs, and with or without a record. -/
def joining (waits : Bool) (record : Bool) : State :=
  warp (strand bench fun st => { st with pc := 0x2000, clause := none, em := 7, mem := 7, split := some 0 }) fun w =>
    { w with
      splits := [(0, ⟨some 0x2000, 0, none, []⟩)]
      strands := Tbl.put w.strands 15
        { placeStrand 0x2000 none with em := 8, mem := 8, split := some 0, parked := if waits then some (.join 0, 0) else none }
      deferred := if record then [⟨0, 0x2002, none, 0, 0, some 0, [], 0⟩] else [] }
def JoinHyps (s : State) (x : Who) (i : Nat) (u : State) (w : Warp) : Prop :=
  s.strandAt x.wid x.sid = some x ∧ reachedJoin x.w.splits 64 x.st.split x.st.pc x.st.rstack.length = some i ∧ u = s.park x.wid x.sid (.join i) ∧
  Tbl.find u.warps x.wid = some w
def parkedW (s : State) : Warp := (Tbl.find (s.park 0 0 (.join 0)).warps 0).getD (placeWarp [])
theorem test_meets_join_waits : ∃ s x i u w, JoinHyps s x i u w ∧ u.fusable x.wid w i = false ∧ ∀ d ∈ x.w.deferred, d.holder ≠ x.sid :=
  ⟨joining false false, issuer (joining false false), 0, _, parkedW (joining false false),
    ⟨by decide +kernel, by decide +kernel, rfl, by decide +kernel⟩, by decide +kernel, by decide +kernel⟩
theorem test_meets_join_resumes : ∃ s x i u w d, JoinHyps s x i u w ∧ u.fusable x.wid w i = false ∧
    (x.w.deferred.find? fun d => d.holder == x.sid) = some d :=
  ⟨joining true true, issuer (joining true true), 0, _, parkedW (joining true true), ⟨0, 0x2002, none, 0, 0, some 0, [], 0⟩,
    ⟨by decide +kernel, by decide +kernel, rfl, by decide +kernel⟩, by decide +kernel, by decide +kernel⟩
theorem test_meets_join_fuses : ∃ s x i u w k rest, JoinHyps s x i u w ∧ u.fusable x.wid w i = true ∧
    (w.strands.filterMap fun p => if p.2.parked.any (fun q => q.1 == .join i) then some p.1 else none) = k :: rest ∧ (k :: rest).Nodup ∧
    (Tbl.find w.strands k).isSome = true :=
  ⟨joining true false, issuer (joining true false), 0, _, parkedW (joining true false), 0, [15],
    ⟨by decide +kernel, by decide +kernel, rfl, by decide +kernel⟩, by decide +kernel, by decide +kernel, by decide,
    by decide +kernel⟩
theorem test_meets_join_header : ∃ s t x, State.who s = some x ∧ (∀ p, x.st.parked = some p → p.1.byEvent = false) ∧ x.st.stepArm ≠ 2 ∧
    s.reachJoin x.wid x.sid = some t := by
  have h : ((joining true false).reachJoin 0 0).isSome = true := by decide +kernel
  obtain ⟨t, e⟩ := Option.isSome_iff_exists.mp h
  have n : (issuer (joining true false)).st.parked = none := by decide +kernel
  exact ⟨joining true false, t, issuer (joining true false), by decide +kernel, (fun p hp => by rw [n] at hp; cases hp), by decide +kernel, e⟩
theorem test_meets_strand_ends : (∃ s x d, State.strandAt s x.wid x.sid = some x ∧ (x.w.deferred.find? fun d => d.holder == x.sid) = some d) ∧
    ∃ s x, State.strandAt s x.wid x.sid = some x ∧ (∀ d ∈ x.w.deferred, d.holder ≠ x.sid) ∧ (∀ a ∈ x.w.asides, a.holder ≠ x.sid) ∧
      ∀ p ∈ x.st.pends, p.own = false :=
  ⟨⟨joining true true, issuer (joining true true), ⟨0, 0x2002, none, 0, 0, some 0, [], 0⟩, by decide +kernel, by decide +kernel⟩,
    bench, issuer bench, by decide +kernel, by decide +kernel, by decide +kernel, by decide +kernel⟩
/-- Two strands at one `bar`, and lanes set aside there and at another. -/
def asideS (k : BarKind) (pc : Pc) : Aside := ⟨15, .bar k, pc, none, 0, 0, none, [], 0⟩
def atBar : State :=
  warp (strand bench fun st => { st with em := 7, mem := 7, parked := some (.bar .crew, 0) }) fun w =>
    { w with
      strands := Tbl.put w.strands 15
        { placeStrand (w.strands.headD (0, placeStrand 0 none)).2.pc none with em := 8, mem := 8, parked := some (.bar .crew, 0) }
      asides := [asideS .crew 0x2001, asideS .ss 0x3000] }
theorem test_meets_released : ∃ s wid k n w rest pc, Tbl.find (State.warps s) wid = some w ∧ Tbl.keys w.strands = k :: rest ∧ (k :: rest).Nodup ∧
    ∀ p ∈ w.strands, p.2.pc = pc ∧ p.2.rstack.length = n ∧ p.2.parked.any (fun q => q.1.isBar) = true :=
  ⟨atBar, 0, 0, 0, (issuer atBar).w, [15], (issuer atBar).st.pc, by decide +kernel, by decide +kernel, by decide, by decide +kernel⟩

end Sys2Proof.Tests
end

