-- ==== Sys2Proof/Tests/Slice0.lean ====
section
/-! SUPPORT. What the checks on encodings refuse, and words of the manual with what they stand for. Every expected value is taken from
the manual's own text or table, named in the test's docstring. -/

namespace Sys2Proof

set_option Elab.async false

/-! ## Encodings that are refused -/

/-- Types: R43 (integers alone), R50 (`abs` signed), R53 (`addcy` unsigned), R57 (`lea` 64 bits), R83 (floating), R100, R119. -/
theorem test_wf_types : ([.add ⟨.f32, false, .v 0, .v 1, .v 2⟩, .abs ⟨.n32, false, .v 0, .v 1⟩, .addcy ⟨.i32, .v 0, .v 1, .v 2, 0⟩,
    .lea ⟨.i32, 0, .v 0, .v 2, .v 4, .v 5⟩, .fadd ⟨.i32, .dflt, false, false, .v 0, .v 1, .v 2, .zero⟩,
    .fdot2 ⟨.f32, .dflt, false, false, false, .v 0, .v 1, .v 2, .v 3⟩, .matchx ⟨.i32, .v 0, .v 2, .all⟩, .ldx ⟨.f32, false, .v 0, .v 1, .zero⟩,
    .xch ⟨0, .i64, .v 0, .v 2⟩] : List Instr).all (fun i => !i.wf) = true := by decide

/-- R10: a pair has an even base; R13: a special operand is no destination; R82: a range lies in one kind and is aligned. -/
theorem test_wf_operands : ([.add ⟨.i64, false, .v 1, .v 2, .v 4⟩, .add ⟨.i64, false, .v 0, .v 3, .v 4⟩, .add ⟨.i32, false, .lane, .v 1, .v 2⟩,
    .mov ⟨.i64, .v 0, .emhi⟩, .rng ⟨0, .v 2, .v 4⟩, .rng ⟨0, .v 0, .s 46⟩, .rope ⟨false, .v 1, .v 2, .v 4, .v 5⟩,
    .smxMerge ⟨false, .v 958, .v 0, .v 4⟩, .plpk ⟨7, .v 0, .v 945⟩, .vote ⟨.mask, .v 1, 0, .all⟩, .csrrd ⟨41, 0⟩, .launch ⟨0, 1, none, false, false⟩,
    .tlbinv (some 3)] : List Instr).all (fun i => !i.wf) = true := by decide

/-- R83, R89-R93: a stochastic source without its rounding mode, an integer source with NA, `e8m0` and `dp8` roundings, an element number. -/
theorem test_wf_floating : ([.fadd ⟨.f32, .rne, false, false, .v 0, .v 1, .v 2, .v 3⟩, .fma ⟨.f32, .rs, false, false, false, .v 0, .v 1, .v 2, .v 3⟩,
    .cvt ⟨.f32, .i32, .rne, false, true, .v 0, .v 1, .zero⟩, .cvt ⟨.e8m0, .f32, .rs, false, false, .v 0, .v 1, .v 2⟩,
    .cvt ⟨.dp8, .f32, .rtz, false, false, .v 0, .v 1, .zero⟩, .unpk ⟨.f16, 2, .v 0, .v 1⟩, .unpk ⟨.e4m3, 4, .v 0, .v 1⟩,
    .scan ⟨.xor, .f32, .v 0, .v 1, .all⟩] : List Instr).all (fun i => !i.wf) = true := by decide

/-- R164, R166, R168, R170, R173: SX at 32 bits, a store with SX or acquire, a plain access with a scope, `lds` with a vector index,
`fadd` of 64 bits, `cas` of an unaligned range, a plain fence, `brmk` of an unaligned scalar. -/
theorem test_wf_memory : ([.ld ⟨0, .v 0, .v 1, 0, .b32, true, .warp, .plain, 0⟩, .st ⟨0, .v 0, .v 1, 0, .b8, true, .warp, .plain, 0⟩,
    .st ⟨1, .v 0, .v 1, 0, .b32, false, .warp, .plain, 0⟩, .ld ⟨0, .v 0, .v 1, 0, .b32, false, .device, .rel, 0⟩,
    .st ⟨0, .v 0, .v 1, 0, .b32, false, .device, .acq, 0⟩, .ld ⟨0, .v 0, .v 1, 0, .b32, false, .device, .plain, 0⟩,
    .ld ⟨0, .v 2, .v 1, 0, .b128, false, .warp, .plain, 0⟩, .lds ⟨0, .v 0, .v 1, 0, .b32, false, .warp, .plain, 0⟩,
    .sts ⟨0, .v 0, .q 0, 0, .b32, false, .warp, .plain, 0⟩, .atom ⟨0, .fadd, .v 0, .v 1, 0, .b64, false, .warp, .plain, 0⟩,
    .atom ⟨0, .add, .v 0, .v 1, 0, .b32, true, .warp, .plain, 0⟩, .cas ⟨0, .v 1, .v 2, 0, .b32, false, .warp, .plain, 0⟩,
    .waita ⟨0, .v 0, .s 4, 0, .b32, true, .warp, .plain, 0⟩, .waita ⟨0, .v 0, .s 4, 0, .b32, false, .warp, .rel, 0⟩, .fence ⟨.device, .plain⟩,
    .brld ⟨0, .v 1⟩, .brmk ⟨0, 1, true, true, true, 42⟩] : List Instr).all (fun i => !i.wf) = true := by decide

/-- R130, R134, R136, R138-R140, R148: fields that a form does not use, and windows without rights. -/
theorem test_wf_frames : ([.ldx ⟨.n32, false, .v 0, .v 1, .v 2⟩, .wexp ⟨.v 0, .s 0, .s 1, .zero, false, false, false, .crew⟩,
    .wexp ⟨.v 0, .s 0, .s 1, .zero, false, false, true, .crew⟩, .wrd ⟨0, .n32, .v 0, .s 0, .v 1, .v 2, .rel⟩,
    .wwr ⟨0, .n32, .v 0, .s 0, .v 1, .v 2, .acq⟩, .wgrant ⟨.s 0, .s 1, true, false, false, true⟩, .wgrant ⟨.s 0, .s 1, true, false, false, false⟩,
    .give ⟨.s 0, .s 1, .warp, true⟩, .take ⟨.v 0, .s 0, .s 1, true⟩, .gstat ⟨.v 0, .v 1, .zero, 3, false, false⟩,
    .gstat ⟨.v 0, .v 1, .v 2, 3, true, true⟩, .tget ⟨.i32, .v 0, .v 1, 0⟩, .qstat ⟨.lane, 0⟩] : List Instr).all (fun i => !i.wf) = true := by
  decide

/-- R204, R209, R213, R254, R255: fields that an engine command does not use are 0. -/
theorem test_wf_engines : ([.copy ⟨0, 0, 2⟩ ⟨0, 5, false, 0, 1, 0, 0, 0, false, 0, false, 0⟩,
    .copy ⟨0, 0, 2⟩ ⟨1, 5, false, 1, 0, 0, 0, 0, false, 0, false, 0⟩, .copy ⟨0, 0, 2⟩ ⟨0, 5, false, 0, 0, 0, 0, 0, false, 0, false, 3⟩,
    .copymc ⟨0, 0, 2⟩ ⟨true, 5, 1, 0, 0, 0, false, 0⟩, .gath ⟨0, 0, 2⟩ ⟨0, 0, false, false, 0, true, 5, 0, 1, 0, 0, 0, 0, 0, false, 0⟩,
    .scata ⟨0, 0, 2⟩ ⟨0, 0, true, 5, 0, 1, 0, 0, 0, false, 0⟩, .tfill ⟨0, 0, 2⟩ ⟨0, 0, 0, false, 1⟩,
    .kvld ⟨0, 0, 2⟩ ⟨0, 7, 0, false, false, 0, 0, 0, 0, 0, false, 0⟩, .kvld ⟨0, 0, 2⟩ ⟨0, 5, 3, false, false, 0, 0, 0, 0, 0, false, 0⟩,
    .kvld ⟨0, 0, 2⟩ ⟨8, 5, 0, false, false, 0, 0, 0, 0, 0, false, 0⟩, .kvfree ⟨0, 0, 2⟩ ⟨0, 5, 0, false, false, 0, 1, 0, 0, 0, false, 0⟩,
    .rpstat ⟨0, 0, 2⟩ ⟨4, 5, 0, false, false, 0, 0, 0, 0, 0, true, 1⟩] : List Instr).all (fun i => !i.wf) = true := by decide

/-- R21, R62, R66, R219-R222, R328: a header's SWK, `brc` with a join on a register, `loop`'s scalar, the front-end's operands, `drain` of
nothing. -/
theorem test_wf_control : ([.clauseHeader ⟨0, 0, false, 0, false, false, true, 3, 6⟩, .clauseHeader ⟨0, 0, false, 0, false, false, true, 48, 6⟩,
    .clauseHeader ⟨0, 0, false, 0, false, false, true, 4, 48⟩, .brc ⟨.areg 1 false, 6, 1⟩, .loop ⟨48, 0⟩, .drain ⟨false, false, false⟩,
    .aadd ⟨.a 0, .a 1, .q 4⟩, .amov ⟨.q 4, .a 0, 0⟩, .amov ⟨.a 0, .q 3, 0⟩, .amov ⟨.a 0, .a 1, 1⟩, .akvw ⟨29, .a 0, .a 1, .a 2⟩, .await ⟨.a 0, 5, 0⟩,
    .await ⟨.a 0, 48, 0⟩, .apush ⟨0, .q 4, .a 0, 0⟩, .ast ⟨.a 0, .q 4, 0, .b64⟩] : List Instr).all (fun i => !i.wf) = true := by decide

/-! ## Words of the manual -/

/-- R41's example. -/
theorem test_decode_fma : (Codec.decodeWord 0 0 0x2180080080402400 0).toOption =
    some (.fma ⟨.f32, .dflt, false, false, false, .v 4, .v 1, .v 2, .v 4⟩) := by decide +kernel
/-- Section 11, unit 26: DST 0x020, SRCA 0x010, SRCB 0x3D1, SRCC 0x018. -/
theorem test_decode_fma_scalar : (Codec.decodeWord 0 0 0x218040087A20C400 0).toOption =
    some (.fma ⟨.f32, .dflt, false, false, false, .v 32, .v 16, .s 17, .v 24⟩) := by decide +kernel
/-- Section 02's example of R53: DST 8, SRCA 0, SRCB 4, m1, TYPE 3. -/
theorem test_decode_addcy : (Codec.decodeWord 0 0 0x0580100000800B00 0).toOption = some (.addcy ⟨.n64, .v 8, .v 0, .v 4, 1⟩) := by decide +kernel
/-- Section 14, unit 17: m1, s20, type i32, condition 000, comparand all ones. -/
theorem test_decode_cmpi : (Codec.decodeWord 0 0 0x14003EA01FFFFFFF 0).toOption = some (.cmpi ⟨.i32, .eq, 1, .s 20, 0x1FFFFFFF⟩) := by decide +kernel
/-- Section 03's example of R91. -/
theorem test_decode_cvt : (Codec.decodeWord 0 0 0x30000C019C9FC010 0).toOption =
    some (.cvt ⟨.e4m3, .f32, .dflt, true, false, .v 6, .v 3, .zero⟩) := by decide +kernel
/-- R26, R114: OP 0x080, DST m2, A m0, B m1, C 0x3F8, TYPE 1. -/
theorem test_decode_mand : (Codec.decodeWord 0 0 0x40000400003FC100 0).toOption = some (.mand ⟨2, 0, 1⟩) := by decide +kernel
/-- Section 04's example of R117. -/
theorem test_decode_shfl : (Codec.decodeWord 1 0 0x00800A0278604C42 0).toOption = some (.shfl ⟨.down, .f32, .v 5, .v 4, .s 3, .v 9, .m 1⟩) := by decide +kernel
/-- Section 04's example of R121. -/
theorem test_decode_bar : (Codec.decodeWord 1 0 0x0507F1FC7F1FC000 0).toOption = some (.bar .crew) := by decide +kernel
/-- Section 06's example of R154. -/
theorem test_decode_ld : (Codec.decodeWord 2 0 0x00000A010D000000 0).toOption =
    some (.ld ⟨0, .v 5, .v 2, 3, .b32, false, .warp, .plain, 0⟩) := by decide +kernel
/-- The same with `~2`. -/
theorem test_decode_ld_lookahead : (Codec.decodeWord 2 0 0x00100A010D000000 0).toOption =
    some (.ld ⟨2, .v 5, .v 2, 3, .b32, false, .warp, .plain, 0⟩) := by decide +kernel
/-- Section 06's example of R166. -/
theorem test_decode_atom : (Codec.decodeWord 2 0 0x02080FFC11280040 0).toOption =
    some (.atom ⟨1, .add, .v 7, .zero, 4, .b32, false, .device, .plain, 64⟩) := by decide +kernel
/-- Section 08, units 13, 18 and 27. -/
theorem test_decode_ld_acq : (Codec.decodeWord 2 0 0x000011FC012A0010 0).toOption =
    some (.ld ⟨0, .v 8, .zero, 0, .b32, false, .device, .acq, 16⟩) := by decide +kernel
theorem test_decode_waita : (Codec.decodeWord 2 0 0x030011FC012A0010 0).toOption =
    some (.waita ⟨0, .v 8, .zero, 0, .b32, false, .device, .acq, 16⟩) := by decide +kernel
theorem test_decode_st_rel : (Codec.decodeWord 2 0 0x00800FFC012C0010 0).toOption =
    some (.st ⟨0, .v 7, .zero, 0, .b32, false, .device, .rel, 16⟩) := by decide +kernel
/-- Section 14, unit 42. -/
theorem test_decode_sts : (Codec.decodeWord 2 0 0x0187FBEA85000000 0).toOption =
    some (.sts ⟨0, .item, .s 21, 1, .b32, false, .warp, .plain, 0⟩) := by decide +kernel
/-- Section 07's example of R170. -/
theorem test_decode_fence : (Codec.decodeWord 2 0 0x0387F1FC002C0000 0).toOption = some (.fence ⟨.device, .rel⟩) := by decide +kernel
/-- Section 05's examples of R130 and R138. -/
theorem test_decode_ldx : (Codec.decodeWord 3 0 0x00000A01FF1FC100 0).toOption = some (.ldx ⟨.n32, false, .v 5, .v 3, .zero⟩) := by decide +kernel
theorem test_decode_wrd : (Codec.decodeWord 3 0 0x02100DE200401900 0).toOption = some (.wrd ⟨2, .n32, .v 6, .s 4, .v 2, .v 3, .plain⟩) := by decide +kernel
/-- Section 17, units 12 and 17. -/
theorem test_decode_wexp : (Codec.decodeWord 3 0 0x010791E6F9DFC180 0).toOption =
    some (.wexp ⟨.s 8, .s 13, .s 14, .zero, true, false, false, .crew⟩) := by decide +kernel
theorem test_decode_tget : (Codec.decodeWord 3 0 0x080011FCFF1FC100 0).toOption = some (.tget ⟨.n32, .v 8, .lane, 0⟩) := by decide +kernel
/-- Section 09's example of R204. -/
theorem test_decode_copy : (Codec.decodeWord 4 1 0x0000810000500000 0x180C290000000000).toOption =
    some (.copy ⟨0, 4, 2⟩ ⟨0, 5, false, 3, 0, 12, 10, 16, false, 0, false, 0⟩) := by decide +kernel
/-- Section 14, units 39 and 40. -/
theorem test_decode_copy_tile : (Codec.decodeWord 4 1 0x0001018000D00000 0x001E70C800000000).toOption =
    some (.copy ⟨0, 8, 3⟩ ⟨1, 5, false, 0, 0, 30, 28, 12, true, 0, false, 0⟩) := by decide +kernel
/-- Section 10's example of R228. -/
theorem test_decode_mma : (Codec.decodeWord 4 1 0x0208810001FFF400 0x0102033091200000).toOption =
    some (.mma ⟨1, 4, 2⟩ ⟨63, 63, 5, 1, 2, false, 1, true, 12, 4, true, false, 9, 0⟩) := by decide +kernel
/-- Section 11, units 19 to 24. -/
theorem test_decode_gath : (Codec.decodeWord 4 1 0x0100810000805000 0x004828400E600000).toOption =
    some (.gath ⟨0, 4, 2⟩ ⟨1, 0, false, false, 0, false, 5, 0, 1, 8, 10, 2, 7, 12, false, 0⟩) := by decide +kernel
theorem test_decode_gath_mean : (Codec.decodeWord 4 1 0x0100818001105000 0x004828400E680000).toOption =
    some (.gath ⟨0, 4, 3⟩ ⟨2, 0, true, false, 0, false, 5, 0, 1, 8, 10, 2, 7, 13, false, 0⟩) := by decide +kernel
theorem test_decode_eseq : (Codec.decodeWord 4 1 0x0780838000000000 0x0000040000000000).toOption = some (.eseq ⟨0, 4, 7⟩ ⟨4⟩) := by decide +kernel
/-- Section 12's examples of R255. -/
theorem test_decode_kvw : (Codec.decodeWord 4 1 0x0300810000450000 0x30D3800000000000).toOption =
    some (.kvw ⟨0, 4, 2⟩ ⟨8, 5, 0, false, false, 12, 13, 14, 0, 0, false, 0⟩) := by decide +kernel
theorem test_decode_kvld : (Codec.decodeWord 4 1 0x0388810000050000 0x30D38F4230000000).toOption =
    some (.kvld ⟨1, 4, 2⟩ ⟨0, 5, 0, false, false, 12, 13, 14, 15, 16, true, 3⟩) := by decide +kernel
/-- Section 18's table: `kvld.fault.v` and `rpopen`. -/
theorem test_decode_kvld_v : (Codec.decodeWord 4 1 0x0380818000056000 0x20A2CC2620000000).toOption =
    some (.kvld ⟨0, 4, 3⟩ ⟨0, 5, 1, true, false, 8, 10, 11, 12, 9, true, 2⟩) := by decide +kernel
theorem test_decode_rpopen : (Codec.decodeWord 4 1 0x0580810000DD0000 0x3165DA0000000000).toOption =
    some (.rpopen ⟨0, 4, 2⟩ ⟨27, 5, 0, false, false, 12, 22, 23, 26, 0, false, 0⟩) := by decide +kernel
/-- Section 13's examples of R286 and R293. -/
theorem test_decode_wdask : (Codec.decodeWord 5 0 0x008FA9E27F1FC100 0).toOption = some (.wdask ⟨1, 20, .s 4⟩) := by decide +kernel
theorem test_decode_hnext : (Codec.decodeWord 5 0 0x0487F1FC7F1FC100 0).toOption = some .hnext := by decide +kernel
/-- Section 15's table. -/
theorem test_decode_csrrd : (Codec.decodeWord 6 0 0x02807D0014000000 0).toOption = some (.csrrd ⟨40, 0x00A⟩) := by decide +kernel
theorem test_decode_tret : (Codec.decodeWord 6 0 0x0080000000000000 0).toOption = some (.tret ⟨false, .retry⟩) := by decide +kernel
theorem test_decode_tret_skip : (Codec.decodeWord 6 0 0x0080800000000000 0).toOption = some (.tret ⟨false, .skip⟩) := by decide +kernel
theorem test_decode_trap : (Codec.decodeWord 6 0 0x0001800000000000 0).toOption = some (.trap 3) := by decide +kernel
theorem test_decode_drain : (Codec.decodeWord 6 0 0x0401800000000000 0).toOption = some (.drain ⟨true, true, false⟩) := by decide +kernel
/-- Section 16's examples of R333. -/
theorem test_decode_gcall : (Codec.decodeWord 6 0 0x018000A000000000 0).toOption = some (.gcall 5) := by decide +kernel
theorem test_decode_gret : (Codec.decodeWord 6 0 0x0200000000000000 0).toOption = some .gret := by decide +kernel
/-- Section 08, units 16 and 19; section 17, unit 23; section 02's example of R66. -/
theorem test_decode_brc : (Codec.decodeWord 0 0 0xF8B000000C000000 0).toOption = some (.brc ⟨.mask 3 false, 6, 0⟩) := by decide +kernel
theorem test_decode_brc_not : (Codec.decodeWord 0 0 0xF898000020000000 0).toOption = some (.brc ⟨.mask 1 true, 16, 0⟩) := by decide +kernel
theorem test_decode_bra : (Codec.decodeWord 0 0 0xF801FFFFFA000000 0).toOption = some (.bra 0xFFFFFD) := by decide +kernel
theorem test_decode_loop : (Codec.decodeWord 0 0 0xFB10000000000000 0).toOption = some (.loop ⟨8, 0⟩) := by decide +kernel
/-- Section 01, R41; section 11, units 18 and 25; section 15's table. -/
theorem test_decode_header_swen : (Codec.decodeHeader 0xB4C000220C000000).toOption =
    some (.clauseHeader ⟨3, 0, false, 0, false, false, true, 4, 6⟩) := by decide +kernel
theorem test_decode_header_eng : (Codec.decodeHeader 0xB514000000000000).toOption =
    some (.clauseHeader ⟨4, 5, false, 0, false, false, false, 0, 0⟩) := by decide +kernel

theorem test_decode_header_alu : (Codec.decodeHeader 0xB40800220C000000).toOption =
    some (.clauseHeader ⟨0, 2, false, 0, false, false, true, 4, 6⟩) := by decide +kernel
/-- R32, R219: OP 0x000, DST a2, A a0, B a1, C 0x3F8, TYPE 3; and OP 0x00C, A a3, B a4, record 2, width 11. -/
theorem test_decode_aadd : (Codec.decodeWord 7 0 0x00000400003FC300 0).toOption = some (.aadd ⟨.a 2, .a 0, .a 1⟩) := by decide +kernel
theorem test_decode_ast : (Codec.decodeWord 7 0 0x0607F001809FC316 0).toOption = some (.ast ⟨.a 3, .a 4, 2, .b64⟩) := by decide +kernel

/-- R15, R39: a bit that a word does not use is refused with cause 0x11, and an opcode that no class has is illegal (R40). -/
theorem test_decode_reserved : (Codec.decodeWord 0 0 0x2180080080402401 0).toOption = none := by decide +kernel
theorem test_decode_illegal : (Codec.decodeWord 6 0 0xFFFFFFFFFFFFFFFF 0).toOption = some (.illegalOpcode 0xFFFFFFFFFFFFFFFF) := by decide +kernel
theorem test_decode_no_header : (Codec.decodeHeader 0x2180080080402400).toOption = none := by decide +kernel

/-- A placed crew runs the word that `withFetchWord` is given: R26's OP 0x000, DST v1, A v2, B v3, C 0x3F8, TYPE 0 is the `add` of R50. -/
theorem test_place_add : (match (Machine.State.reset.withFetchWord 64 0x00000201007FC000).plan with
    | .run i _ => some i
    | .rest _ => none) = some (.add ⟨.i32, false, .v 1, .v 2, .v 3⟩) := by decide +kernel

/-! ## Values that the manual works out -/

open Machine

/-- Section 02's example of R53: the low dwords give 0 and a carry, the high dwords 1 and none. -/
theorem test_addcy_low : iaddcy .n64 0xFFFFFFFFFFFFFFFF 1 0 = (0, true) := by decide +kernel
theorem test_addcy_high : iaddcy .n64 0 0 1 = (1, false) := by decide +kernel
/-- R52: division by zero, and the most negative number by -1. -/
theorem test_div_zero : idiv .i32 7 0 = ⟨0, false, true⟩ ∧ irem .i32 7 0 = ⟨7, false, true⟩ := by decide +kernel
theorem test_div_overflow : idiv .i32 0x80000000 0xFFFFFFFF = ⟨0x80000000, true, false⟩ := by decide +kernel
/-- R57's example of `idx2.t8`. -/
theorem test_idx2 : (iidx2 .t8 10 3 64).val = 531 := by decide +kernel
/-- R94's table of conversions. -/
theorem test_cvt_e4m3 : cvtV .e4m3 .f32 .rne false false 0x3E99999A = ⟨0x2A, fNX⟩ ∧ cvtV .e4m3 .f32 .rne false false 0x43E60000 = ⟨0x7E, fNX⟩ ∧
    cvtV .e4m3 .f32 .rne false false 0x43FA0000 = ⟨0x7F, fOF + fNX⟩ ∧ cvtV .e4m3 .f32 .rne true false 0x43FA0000 = ⟨0x7E, fOF + fNX⟩ := by
  decide +kernel
theorem test_cvt_narrow : cvtV .e2m1 .f32 .rne false false 0x40A00000 = ⟨0x6, fNX⟩ ∧ cvtV .dp8 .f32 .rne false false 0x41600000 = ⟨0x76, fNX⟩ ∧
    cvtV .dp8 .f32 .rne false false 0xC0400000 = ⟨0xDC, 0⟩ := by decide +kernel
/-- R94's last row, and what it says of `cvt`. -/
theorem test_cvtpk_rs : cvtV .bf16 .f32 (.rs 16 0x3FFF) false false 0x3F804000 = ⟨0x3F81, fNX⟩ ∧
    cvtV .bf16 .f32 (.rs 16 0x4000) false false 0x3F804000 = ⟨0x3F80, fNX⟩ ∧
    cvtV .bf16 .f32 (.rs 32 0x3FFFFFFF) false false 0x3F804000 = ⟨0x3F81, fNX⟩ := by decide +kernel
/-- R80: a NaN of E4M3 with its sign. -/
theorem test_unpk_nan : unpkV .e4m3 0 0xFF = ⟨0xFFC00000, 0⟩ ∧ unpkV .e4m3 0 0x7F = ⟨0x7FC00000, 0⟩ := by decide +kernel
/-- R99: a sum of weights that is 0. -/
theorem test_smx_norm : smxNormV 0x7F800000 0x80000000 = ⟨0, 0⟩ := by decide +kernel
/-- Section 04's example of `csamp`: weights 1, 0, 2, 1. -/
theorem test_csamp : ([0x80000000, 0x40000000, 0x3FFFFFFF].map fun rw =>
    csampDraw (csampSums [(0, 0x3F800000), (1, 0), (2, 0x40000000), (3, 0x3F800000)] 0 0).1 rw) = [2, 2, 0] := by decide +kernel
/-- Section 06's example of R153: a swizzled record, a lane inside and two outside. -/
theorem test_address : ([643, 0, 4096, -1].map fun i => Rcd.address (BitVec.ofNat 256 (0x1000000000 + 16384 * 2 ^ 64 + (4 + 64 * 2 ^ 24 + 2 ^ 40) * 2 ^ 128
    + 2 ^ 191)) i 0 4) = [some 0x100000084C, some 0x1000000000, none, none] := by decide +kernel
/-- Section 10's example of R234: 4096 · 4096 + 1 · 1 in one group, and 1 in the next. -/
theorem test_mma_groups : groupSum [prod4 (elemVal 6 0x4580) (fdec f32 0x3F800000) (elemVal 6 0x4580) (fdec f32 0x3F800000),
      prod4 (elemVal 6 0x3F80) (fdec f32 0x3F800000) (elemVal 6 0x3F80) (fdec f32 0x3F800000)] = 0x4B800000 ∧
    accAdd false false 0x4B800000 (.inr 0x3F800000) = 0x4B800000 := by decide +kernel
/-- R23, R144: (GEN - w) mod 65,536 < 32,768, at the edges of the range. -/
theorem test_gen_reached : genReached 0 0xFFFF = true ∧ genReached 0 1 = false ∧ genReached 0x8000 0 = false ∧ genReached 0x7FFF 0 = true := by
  decide +kernel

end Sys2Proof
end

namespace Sys2Proof.Laws.RoundTrip

/-- Each instruction's own lemma, along the constructors of `Instr`. -/
theorem statement : ∀ i : Instr, Statement i := fun i =>
  match i with
    | .clauseHeader h => clauseHeader h | .queueWaitWatchdog a => queueWaitWatchdog a
    | .longLatencyCompletion a op early => longLatencyCompletion a op early | .add f => add f | .sub f => sub f | .mul f => mul f
    | .mulhi f => mulhi f | .mad f => mad f | .div f => div f | .rem f => rem f | .min f => min f | .max f => max f | .abs f => abs f
    | .neg f => neg f | .addcy f => addcy f | .subbw f => subbw f | .shl f => shl f | .shr f => shr f | .rot f => rot f
    | .and f => and f | .or f => or f | .xor f => xor f | .not f => not f | .andn f => andn f | .bfx f => bfx f | .bfi f => bfi f
    | .popc f => popc f | .clz f => clz f | .brev f => brev f | .lut3 f => lut3 f | .cmp f => cmp f | .sel f => sel f | .mov f => mov f
    | .lea f => lea f | .idx2 f => idx2 f | .movi f => movi f | .addi f => addi f | .muli f => muli f | .andi f => andi f
    | .ori f => ori f | .xori f => xori f | .shli f => shli f | .shri f => shri f | .cmpi f => cmpi f | .fadd f => fadd f
    | .fsub f => fsub f | .fmul f => fmul f | .fma f => fma f | .fmin f => fmin f | .fmax f => fmax f | .fminn f => fminn f
    | .fmaxn f => fmaxn f | .fcmp f => fcmp f | .fclass f => fclass f | .frnd f => frnd f | .fdot2 f => fdot2 f | .rcp f => rcp f
    | .rsqrt f => rsqrt f | .sqrt f => sqrt f | .exp2 f => exp2 f | .log2 f => log2 f | .sin f => sin f | .cos f => cos f
    | .tanh f => tanh f | .fdiv f => fdiv f | .cvt f => cvt f | .cvtpk f => cvtpk f | .unpk f => unpk f | .rng f => rng f
    | .smxStep f => smxStep f | .smxMerge f => smxMerge f | .smxNorm f => smxNorm f | .rope f => rope f | .dpmul f => dpmul f
    | .mand f => mand f | .mor f => mor f | .mxor f => mxor f | .mnot f => mnot f | .mpop f => mpop f | .mffs f => mffs f
    | .emget d => emget d | .emset a => emset a | .vote f => vote f | .shfl f => shfl f | .bcast f => bcast f | .scan f => scan f
    | .redux f => redux f | .csamp f => csamp f | .matchx f => matchx f | .plpk f => plpk f | .plunpk f => plunpk f | .xch f => xch f
    | .xchDeadline warp => xchDeadline warp | .bar k => bar k | .barrierRelease warp k => barrierRelease warp k
    | .barrierTimeout a => barrierTimeout a | .ld f => ld f | .st f => st f | .lds f => lds f | .sts f => sts f | .atom f => atom f
    | .cas f => cas f | .waita f => waita f | .waitaTimeout a => waitaTimeout a | .fence f => fence f | .pfch f => pfch f
    | .brld f => brld f | .brmk f => brmk f | .memoryAccessPerformed acc order => memoryAccessPerformed acc order
    | .storeAcknowledged acc => storeAcknowledged acc | .pageWalk walk => pageWalk walk | .walkTimeout walk => walkTimeout walk
    | .migration die frames => migration die frames | .migrationComplete mig => migrationComplete mig | .ldx f => ldx f
    | .stx f => stx f | .wexp f => wexp f | .wrev f => wrev f | .wrd f => wrd f | .wwr f => wwr f
    | .windowRequest req => windowRequest req | .wgrant f => wgrant f | .talloc f => talloc f | .tfree f => tfree f | .give f => give f
    | .take f => take f | .waitg f => waitg f | .syncset f => syncset f | .rrot f => rrot f | .rrotDeadline crew => rrotDeadline crew
    | .rrotCompletion crew => rrotCompletion crew | .gstat f => gstat f | .fmask d => fmask d | .tget f => tget f | .tset f => tset f
    | .qstat f => qstat f | .qmark q => qmark q | .copy h f => copy h f | .copymc h f => copymc h f | .gath h f => gath h f
    | .scata h f => scata h f | .mma h f => mma h f | .tfill h f => tfill h f | .eseq h f => eseq h f
    | .engineQueueAccept a => engineQueueAccept a | .engineLanding cmd => engineLanding cmd
    | .engineCommandEnd cmd => engineCommandEnd cmd | .engineCommandFail cmd => engineCommandFail cmd
    | .windowCopyCheck cmd target => windowCopyCheck cmd target | .bankPartialArrival cmd bag port => bankPartialArrival cmd bag port
    | .mmaKgroup core => mmaKgroup core | .mmaStart cmd => mmaStart cmd | .kvw h f => kvw h f | .kvld h f => kvld h f
    | .kvst h f => kvst h f | .kvfork h f => kvfork h f | .splice h f => splice h f | .rpopen h f => rpopen h f
    | .repairJobStart cmd => repairJobStart cmd | .repairGraphEnd die slot => repairGraphEnd die slot | .rpstat h f => rpstat h f
    | .rpcancel h f => rpcancel h f | .kvfree h f => kvfree h f | .launch f => launch f | .launchWaitTimeout a => launchWaitTimeout a
    | .wdask f => wdask f | .workDistributorAnswer die => workDistributorAnswer die | .ringAcq f => ringAcq f | .ringCmt f => ringCmt f
    | .ringPeek f => ringPeek f | .ringRel f => ringRel f | .ringWaitSatisfied a => ringWaitSatisfied a
    | .pipelineReassign launch stage => pipelineReassign launch stage | .gfire f => gfire f | .gnode f => gnode f
    | .gcancel f => gcancel f | .hnext => hnext | .waitpred => waitpred | .yield => yield | .prio a => prio a
    | .graphNodeEnd work => graphNodeEnd work | .graphCancelWalkStep walk => graphCancelWalkStep walk
    | .arbiterRun die => arbiterRun die | .crewEnd crew => crewEnd crew | .frontEndStallWatchdog crew => frontEndStallWatchdog crew
    | .aadd f => aadd f | .asub f => asub f | .amul f => amul f | .ashl f => ashl f | .ashr f => ashr f | .aand f => aand f
    | .aor f => aor f | .axor f => axor f | .acmp f => acmp f | .amov f => amov f | .amovi f => amovi f | .ald f => ald f
    | .ast f => ast f | .apush f => apush f | .apushm f => apushm f | .apop f => apop f | .akvw f => akvw f | .aeng f => aeng f
    | .await f => await f | .aend => aend | .trap n => trap n | .tret f => tret f | .tkill m => tkill m | .csrrd f => csrrd f
    | .csrwr f => csrwr f | .tlbinv va => tlbinv va | .drain f => drain f | .gcall g => gcall g | .gret => gret
    | .gateTimeout warp dom => gateTimeout warp dom | .bra tgt => bra tgt | .brc f => brc f | .brx f => brx f | .call tgt => call tgt
    | .callx f => callx f | .ret => ret | .loop f => loop f | .endl => endl | .handlerTimeout a => handlerTimeout a
    | .noticeAnswerTimeout ctx => noticeAnswerTimeout ctx | .contextRungTimeout ctx => contextRungTimeout ctx
    | .partitionResetTimeout part => partitionResetTimeout part | .registerSoftError core addr => registerSoftError core addr
    | .instructionStoreSoftError die clus => instructionStoreSoftError die clus | .memorySoftError line => memorySoftError line
    | .shadowStoreSoftError die ctx => shadowStoreSoftError die ctx | .tlbSoftError core entry => tlbSoftError core entry
    | .portDown port => portDown port | .preemptAcknowledge ctx p => preemptAcknowledge ctx p
    | .preemptionTimeout ctx => preemptionTimeout ctx | .partitionSwap out inn => partitionSwap out inn
    | .networkRequest ctx => networkRequest ctx | .networkCompletion req cause data => networkCompletion req cause data
    | .peerRequestReceived r => peerRequestReceived r | .illegalOpcode w => illegalOpcode w | .waitTimeout wait => waitTimeout wait
    | .hello h sig => hello h sig | .measure h => measure h | .attest h nonce => attest h nonce | .partCreate h f => partCreate h f
    | .partDestroy h part => partDestroy h part | .partStitch h f => partStitch h f | .ctxCreate h f => ctxCreate h f
    | .ctxDestroy h => ctxDestroy h | .map h l => map h l | .unmap h l => unmap h l | .write h va bytes => write h va bytes
    | .read h va len => read h va len | .gateInstall h idx image => gateInstall h idx image | .graphSubmit h f => graphSubmit h f
    | .graphStatus h graph => graphStatus h graph | .signal h f => signal h f | .wait h f => wait h f | .qosSet h f => qosSet h f
    | .preempt h swapIn => preempt h swapIn | .resume h => resume h | .kill h => kill h | .tierPolicy h f => tierPolicy h f
    | .repairModel h f => repairModel h f | .stats h => stats h | .powerOn => powerOn
    | .dieLinkRetriesExhausted => dieLinkRetriesExhausted | .thermalStop => thermalStop | .powerStop => powerStop
    | .clockStop => clockStop | .firmwareWatchdog => firmwareWatchdog | .weirWindow => weirWindow

end Sys2Proof.Laws.RoundTrip

namespace Sys2Proof.Machine

/-- Settles O56: every constructor of `Instr` has its own lemma, with its own layout of fields. -/
theorem roundTrip : Obligations.RoundTrip := Laws.RoundTrip.statement

end Sys2Proof.Machine


section
/-! Who issues: a strand or a front-end context, and what each finds at a header (R20-R24, R36, R218). -/

namespace Sys2Proof.Machine

/-- What a strand issues. -/
theorem byIssuer_strand {s : State} {x : Who} (h : s.who = some x) (a b : Out) : byIssuer s a b = a := by
  simp only [byIssuer, (who_spec h).1]

theorem byIssuer_clear {s : State} {x : Who} (h : Clear s x) (a b : Out) : byIssuer s a b = a := byIssuer_strand h.who a b

section
variable {s : State} {x : FeWho} (h : FeClear s x)
include h

/-- What a front-end context issues. -/
theorem byIssuer_fe (a b : Out) : byIssuer s a b = b := by
  simp only [byIssuer, h.turn]

/-- A front-end context that has not stopped goes on with its instruction. -/
theorem feIssue_clear (k : FeWho → State) : feIssue s k = .next (k x) := by
  have hw : s.whoFe = some (x.cid, x.k, x.f) := by simp only [State.whoFe, h.turn, h.crew, h.fe]
  simp only [feIssue, hw, h.running, ← h.ctx]
  rfl

end

/-- A strand at a header, at which it is neither parked by an event nor armed. -/
theorem clauseHeader_enters {s : State} {x : Who} (hx : s.who = some x) (hp : ∀ p, x.st.parked = some p → p.1.byEvent = false)
    (hs : x.st.stepArm ≠ 2) (h : Header) : exec (.clauseHeader h) s = .next (s.enterClause x h) := by
  have hn : (x.st.parked.any fun p => p.1.byEvent) = false := by
    cases e : x.st.parked with
    | none => rfl
    | some p => exact hp p e
  simp only [exec, execClauseHeader, byIssuer_strand hx, hx, hn, if_neg hs]
  rfl

/-- A header's clause is the units behind it. -/
theorem openClause_ok {s : State} {core ctx : Nat} {pc : Pc} {h : Header} {l : List Unit64}
    (hb : s.clauseBody core ctx pc (h.cnt.val + 1) = .ok l) :
    s.openClause core ctx pc h = .ok ⟨pc, h.cls, h.cnt.val + 1, h.yld, l⟩ := by
  simp only [State.openClause, hb]

theorem openClause_error {s : State} {core ctx : Nat} {pc : Pc} {h : Header} {e : Fetched × Nat}
    (hb : s.clauseBody core ctx pc (h.cnt.val + 1) = .error e) : s.openClause core ctx pc h = .error e := by
  simp only [State.openClause, hb]

/-- What a header waits for beside its queues (R23): its synchronisation, its loads and its stores. -/
def headerHolds (h : Header) (s : State) (x : Who) : Bool :=
  (!h.swen || genReached (syncGen (s.pair x.core x.d h.swk.toNat)) ((s.scalar x.core x.d h.swg.toNat).toNat % 65536)) &&
    (!h.ldrn || s.loadsDone x) && (!h.sack || s.settled x.agent)

/-- A condition that is switched on must hold. -/
theorem not_or_iff_imp (a b : Bool) : (!a || b) = true ↔ (a = true → b = true) := by
  cases a <;> cases b <;> decide

theorem headerHolds_iff (h : Header) (s : State) (x : Who) : headerHolds h s x = true ↔
    (h.swen = true → genReached (syncGen (s.pair x.core x.d h.swk.toNat)) ((s.scalar x.core x.d h.swg.toNat).toNat % 65536) = true) ∧
      (h.ldrn = true → s.loadsDone x = true) ∧ (h.sack = true → s.settled x.agent = true) := by
  simp only [headerHolds, Bool.and_eq_true, not_or_iff_imp, and_assoc]

section
variable {s : State} {x : Who} {h : Header} {units : List Unit64} (hj : s.reachJoin x.wid x.sid = none) (hc : h.cls.val ≠ 7)
  (hb : s.clauseBody x.core x.d.ctx x.st.pc (h.cnt.val + 1) = .ok units)
  (hm : h.swen = true → (∀ a ∈ [x.d.scal h.swk.toNat, x.d.scal (h.swk.toNat + 1), x.d.scal h.swg.toNat], (s.core x.core).mark a = 0) ∧
    s.pendingOn x.wid x.st.dom h.swk.toNat = none)
include hj hc hb hm

/-- A clause that can be fetched, with nothing marked or pending under the header's synchronisation. -/
theorem enterClause_waits : s.enterClause x h =
    if !queuesReady x h.qwait then s.park x.wid x.sid .queue
    else if !headerHolds h s x then s.park x.wid x.sid .header
    else s.withStrand x fun st =>
      { st with
        pc := st.pc + 1
        clause := some ⟨x.st.pc, h.cls, h.cnt.val + 1, h.yld, units⟩
        parked := none } := by
  have hmark : (if h.swen then (Header.syncWords h x.d).find? fun a => (s.core x.core).mark a != 0 else none) = none := by
    split
    next hs =>
      rw [List.find?_eq_none]
      intro a ha
      simpa using (hm hs).1 a ha
    next => rfl
  have hpend : (if h.swen then s.pendingOn x.wid x.st.dom h.swk.toNat else none) = none := by
    split
    next hs => exact (hm hs).2
    next => rfl
  simp only [State.enterClause, hj, if_neg hc, openClause_ok hb, hmark, hpend, headerHolds, Bool.not_and, Bool.not_or, Bool.not_not]
  rfl

end

/-- A header of a class that no warp issues, or of a clause that cannot be fetched, traps (R22, R163). -/
theorem enterClause_traps {s : State} {x : Who} {h : Header} (hj : s.reachJoin x.wid x.sid = none) :
    (h.cls.val = 7 → s.enterClause x h = s.trapAt x.wid x.sid { cause := 0x12, lanes := x.st.em, atHeader := true }) ∧
    (h.cls.val ≠ 7 → ∀ c d va, s.clauseBody x.core x.d.ctx x.st.pc (h.cnt.val + 1) = .error (.bad c d, va) → s.enterClause x h =
      s.trapAt x.wid x.sid { cause := c, lanes := x.st.em, addr := pcVa x.st.pc, detail := d, atHeader := true }) := by
  refine ⟨fun hc => ?_, fun hc c d va hb => ?_⟩
  · simp only [State.enterClause, hj, if_pos hc]
  · simp only [State.enterClause, hj, if_neg hc, openClause_error hb]

/-- The header of a strand's clause: traps, waits and the way in. -/
theorem clauseHeader_strand (h : Header) (s : State) (x : Who) (hx : s.who = some x)
    (hp : ∀ p, x.st.parked = some p → p.1.byEvent = false) (hs : x.st.stepArm ≠ 2) (hj : s.reachJoin x.wid x.sid = none) :
    (h.cls.val = 7 → exec (.clauseHeader h) s = .next (s.trapAt x.wid x.sid { cause := 0x12, lanes := x.st.em, atHeader := true })) ∧
    (h.cls.val ≠ 7 → ∀ c d va, s.clauseBody x.core x.d.ctx x.st.pc (h.cnt.val + 1) = .error (.bad c d, va) → exec (.clauseHeader h) s =
      .next (s.trapAt x.wid x.sid { cause := c, lanes := x.st.em, addr := pcVa x.st.pc, detail := d, atHeader := true })) ∧
    (h.cls.val ≠ 7 → ∀ units, s.clauseBody x.core x.d.ctx x.st.pc (h.cnt.val + 1) = .ok units →
      (h.swen = true → (∀ a ∈ [x.d.scal h.swk.toNat, x.d.scal (h.swk.toNat + 1), x.d.scal h.swg.toNat], (s.core x.core).mark a = 0) ∧
        s.pendingOn x.wid x.st.dom h.swk.toNat = none) →
      (queuesReady x h.qwait = false → exec (.clauseHeader h) s = .next (s.park x.wid x.sid .queue)) ∧
      (queuesReady x h.qwait = true →
        (headerHolds h s x = false → exec (.clauseHeader h) s = .next (s.park x.wid x.sid .header)) ∧
        (headerHolds h s x = true → exec (.clauseHeader h) s = .next (s.withStrand x fun st =>
          { st with
            pc := st.pc + 1
            clause := some ⟨x.st.pc, h.cls, h.cnt.val + 1, h.yld, units⟩
            parked := none })))) := by
  rw [clauseHeader_enters hx hp hs h]
  obtain ⟨h7, hbad⟩ := enterClause_traps (h := h) hj
  refine ⟨fun hc => by rw [h7 hc], fun hc c d va hb => by rw [hbad hc c d va hb], fun hc units hb hm => ?_⟩
  rw [enterClause_waits hj hc hb hm]
  refine ⟨fun hq => ?_, fun hq => ⟨fun hw => ?_, fun hw => ?_⟩⟩
  · simp [hq]
  · simp [hq, hw]
  · simp [hq, hw]

/-- The header of a front-end context: it stops, or goes in (R218). -/
theorem clauseHeader_fe (h : Header) (s : State) (x : FeWho) (hc : FeClear s x) :
    ((h.cls.val ≠ 7 ∨ h.qwait ≠ 0 ∨ h.ldrn = true ∨ h.sack = true ∨ h.swen = true ∨ h.yld = true) →
      exec (.clauseHeader h) s = .next (s.feStop x.cid { cause := 0x7C })) ∧
    (h.cls.val = 7 → h.qwait = 0 → h.ldrn = false → h.sack = false → h.swen = false → h.yld = false →
      ∀ units, s.clauseBody x.k.core x.ctx x.f.pc (h.cnt.val + 1) = .ok units →
      exec (.clauseHeader h) s = .next (s.withFe x fun f =>
        { f with
          pc := f.pc + 1
          clause := some ⟨x.f.pc, h.cls, h.cnt.val + 1, h.yld, units⟩
          stalled := none })) := by
  have e : exec (.clauseHeader h) s = .next (s.feEnterClause x h) := (byIssuer_fe hc _ _).trans (feIssue_clear hc _)
  rw [e]
  refine ⟨fun hbad => ?_, fun h1 h2 h3 h4 h5 h6 units hb => ?_⟩
  · simp only [State.feEnterClause, if_pos hbad]
  · simp only [State.feEnterClause, openClause_ok hb, h1, h2, h3, h4, h5, h6]
    rfl

/-- An illegal opcode traps, or stops its front end (R39, R218). -/
theorem illegalOpcode_strand (w : Unit64) {s : State} {x : Who} (hc : Clear s x) :
    exec (.illegalOpcode w) s = .next (s.trapAt x.wid x.sid { cause := 0x10, lanes := x.st.em }) :=
  (byIssuer_clear hc _ _).trans (issue_clear hc _)

theorem illegalOpcode_fe (w : Unit64) {s : State} {x : FeWho} (hc : FeClear s x) :
    exec (.illegalOpcode w) s = .next (s.feStop x.cid { cause := if 0x1F8 ≤ Codec.opcode w then 0x10 else 0x7C }) :=
  (byIssuer_fe hc _ _).trans (feIssue_clear hc _)

/-- Settles O39: headers and illegal opcodes, of strands and of front-end contexts. -/
theorem headersAndIllegalOpcodes : Obligations.HeadersAndIllegalOpcodes := by
  refine ⟨⟨fun h s x hx hp hs hj => ?_, clauseHeader_fe⟩, fun w s x hc => illegalOpcode_strand w hc, fun w s x hc => illegalOpcode_fe w hc⟩
  obtain ⟨h7, hbad, hok⟩ := clauseHeader_strand h s x hx hp hs hj
  refine ⟨h7, hbad, fun hc units hb hm => ?_⟩
  obtain ⟨hqueue, hready⟩ := hok hc units hb hm
  refine ⟨hqueue, fun hq => ⟨fun hw => (hready hq).1 ?_, fun hw hl hk => (hready hq).2 ((headerHolds_iff h s x).2 ⟨hw, hl, hk⟩)⟩⟩
  rw [← Bool.not_eq_true, headerHolds_iff]
  rintro ⟨h1, h2, h3⟩
  rcases hw with ⟨e, hw⟩ | ⟨e, hw⟩ | ⟨e, hw⟩
  · simp [h1 e] at hw
  · simp [h2 e] at hw
  · simp [h3 e] at hw

end Sys2Proof.Machine
end


section
/-! Transfers of control (R38, R60-R66, R104). -/

namespace Sys2Proof.Machine

/-- Two updates agree where they agree on the entry. -/
theorem Tbl.upd_congr {α : Type} {t : Tbl α} {i : Nat} {a : α} {f g : α → α} (h : Tbl.find t i = some a) (e : f a = g a) :
    Tbl.upd t i f = Tbl.upd t i g := by
  simp only [Tbl.upd, h, e]

/-- Good targets are no reason to stop (R61). -/
theorem targets_good {s : State} {x : Who} {l : List (Pc × Nat)} (h : ∀ p ∈ l, GoodTarget s x.core x.d.ctx p.1) (k : State) :
    s.targets x l k = k := by
  have hb : s.badTarget x.core x.d.ctx l = none := by
    rw [State.badTarget, List.findSome?_eq_none_iff]
    intro p hp
    obtain ⟨w, hw, hh⟩ := h p hp
    simp only [hw, hh, if_true]
  simp only [State.targets, hb]

theorem targets_good_one {s : State} {x : Who} {p : Pc} (h : GoodTarget s x.core x.d.ctx p) (n : Nat) (k : State) :
    s.targets x [(p, n)] k = k :=
  targets_good (fun q hq => by rw [List.mem_singleton.1 hq]; exact h) k

theorem targets_nil (s : State) (x : Who) (k : State) : s.targets x [] k = k := targets_good (fun _ h => absurd h List.not_mem_nil) k

/-- A jump with a further change of the strand is one change. -/
theorem jump_updStrand (s : State) (x : Who) (p : Pc) (f : Strand → Strand) :
    (s.jump x.wid x.sid p).updStrand x.wid x.sid f = s.withStrand x fun st => f (st.jump p) := by
  simp only [State.jump, State.updStrand, State.updWarp, State.withStrand, Warp.updStrand, Tbl.upd_upd]

/-- Changes of a strand that agree on it. -/
theorem withStrand_congr {s : State} {x : Who} {w : Warp} {st : Strand} {f g : Strand → Strand} (hw : Tbl.find s.warps x.wid = some w)
    (hs : Tbl.find w.strands x.sid = some st) (h : f st = g st) : s.withStrand x f = s.withStrand x g := by
  simp only [State.withStrand]
  rw [Tbl.upd_congr hw]
  simp only [Tbl.upd_congr hs h]

section
variable {s : State} {x : Who} (hc : Clear s x)
include hc

/-- A strand of class 0 to 6 at an instruction of control. -/
theorem control_issues (k : Who → State) (b : Out) : byIssuer s (issue s k) b = .next (k x) :=
  (byIssuer_clear hc _ _).trans (issue_clear hc k)

theorem bra_jumps {t : BitVec 24} (h : GoodTarget s x.core x.d.ctx (x.st.header + t.signExtend 53)) :
    exec (.bra t) s = .next (s.withStrand x fun st => st.jump (x.st.header + t.signExtend 53)) :=
  (control_issues hc _ _).trans (congrArg Host.Outcome.next (targets_good_one h 0 _))

/-- A `brc` of a strand decides by the lanes of EM that its mask takes (R62). -/
theorem brc_branches {f : BrcF} {m : MReg} {inv : Bool} (hf : f.cond = .mask m inv) :
    exec (.brc f) s = .next (s.branch x (x.st.em &&& if inv then ~~~x.d.mask m else x.d.mask m) f) := by
  refine (control_issues hc _ _).trans ?_
  simp only [hf]

end

/-- The three ways of a branch: none taken, all taken, and some. -/
theorem branch_none (s : State) (x : Who) (f : BrcF) : s.branch x 0 f = s.withStrand x fun st => st.jump x.st.nextClause := by
  rw [State.branch, if_pos rfl]
  rfl

section
variable {s : State} {x : Who} {f : BrcF} {taken : Mask} (ht : taken ≠ 0)
  (hg : GoodTarget s x.core x.d.ctx (x.st.header + f.tgt.signExtend 53))
include ht hg

theorem branch_all (hr : x.st.em &&& ~~~taken = 0) :
    s.branch x taken f = s.withStrand x fun st => st.jump (x.st.header + f.tgt.signExtend 53) := by
  rw [State.branch, if_neg ht, if_pos hr]
  exact targets_good_one hg 0 _

theorem branch_some (hr : x.st.em &&& ~~~taken ≠ 0)
    (hj : f.join ≠ 0 → GoodTarget s x.core x.d.ctx (x.st.header + f.join.signExtend 53)) :
    s.branch x taken f = match s.fork x (if f.join = 0 then none else some (x.st.header + f.join.signExtend 53)) x.st.rstack.length
        ⟨x.st.em &&& ~~~taken, x.st.nextClause, x.st.rstack⟩ [⟨taken, x.st.header + f.tgt.signExtend 53, x.st.rstack⟩] true with
      | some t => t
      | none => s.trap x 0x2B 2 := by
  rw [State.branch, if_neg ht, if_neg hr]
  refine (targets_good (fun p hp => ?_) _).trans rfl
  rcases List.mem_cons.1 hp with rfl | hp
  · exact hg
  · obtain ⟨j, hj', rfl⟩ := List.mem_map.1 hp
    by_cases e : f.join = 0
    · simp [e] at hj'
    · simp only [e, if_false, Option.toList_some, List.mem_singleton] at hj'
      subst hj'
      exact hj e

end

section
variable {s : State} {x : Who} (hc : Clear s x)
include hc

theorem call_pushes {t : BitVec 24} (h : GoodTarget s x.core x.d.ctx (x.st.header + t.signExtend 53)) :
    exec (.call t) s = .next (if 32 ≤ x.st.rstack.length then s.trap x 0x2B 1 else
      (s.withStrand x fun st => { st.jump (x.st.header + t.signExtend 53) with rstack := x.st.nextClause :: st.rstack }).cleanReturn
        x.wid x.sid) := by
  refine (control_issues hc _ _).trans (congrArg Host.Outcome.next ((targets_good_one h 0 _).trans ?_))
  simp only [jump_updStrand]
  rfl

theorem ret_pops {p : Pc} {rest : List Pc} (hr : x.st.rstack = p :: rest)
    (hm : ∀ a ∈ returnWords x.d x.sid rest.length, (s.core x.core).mark a = 0) (h : GoodTarget s x.core x.d.ctx p) :
    exec .ret s = .next (s.withStrand x fun st => { st.jump p with rstack := rest }) := by
  have hf : ((returnWords x.d x.sid rest.length).find? fun a => (s.core x.core).mark a != 0) = none := by
    rw [List.find?_eq_none]
    intro a ha
    simp [hm a ha]
  refine (control_issues hc _ _).trans ?_
  simp only [hr, hf, targets_good_one h, jump_updStrand]

theorem ret_empty (hr : x.st.rstack = []) :
    exec .ret s = .next (s.trapAt x.wid x.sid { cause := 0x13, lanes := x.st.em, detail := 2 }) := by
  refine (control_issues hc _ _).trans ?_
  simp only [hr]
  rfl

/-- A scalar that can be counted down is (R64). -/
theorem loop_counts {f : LoopF} (hk : f.k.toNat < 48) (hb : s.scalarBusy x.wid x.st.dom f.k.toNat = false)
    (hm : (s.core x.core).mark (x.d.scal f.k.toNat) = 0) :
    (s.scalar x.core x.d f.k.toNat - 1 = 0 →
      exec (.loop f) s = .next ((s.setScalar x.core x.d f.k.toNat 0).withStrand x fun st => st.jump x.st.nextClause)) ∧
    (s.scalar x.core x.d f.k.toNat - 1 ≠ 0 → GoodTarget s x.core x.d.ctx (x.st.header + f.tgt.signExtend 53) →
      exec (.loop f) s = .next ((s.setScalar x.core x.d f.k.toNat (s.scalar x.core x.d f.k.toNat - 1)).withStrand x fun st =>
        st.jump (x.st.header + f.tgt.signExtend 53))) := by
  refine ⟨fun hv => ?_, fun hv h => ?_⟩
  · refine (control_issues hc _ _).trans ?_
    simp only [if_neg (Nat.not_le.2 hk), hb, hm, hv, if_true, targets_nil]
    rfl
  · refine (control_issues hc _ _).trans ?_
    have hg : GoodTarget s x.core x.d.ctx (x.st.relative 24 f.tgt) := h
    simp only [if_neg (Nat.not_le.2 hk), hb, hm, if_neg hv, targets_good_one hg 0, ne_eq, not_true_eq_false, Bool.false_eq_true, if_false]
    rfl

/-- `end` in a callee (R338). -/
theorem endl_callee (hd : x.st.dom ≠ 0) :
    exec .endl s = .next (s.trapAt x.wid x.sid { cause := 0xC4, lanes := x.st.em, detail := 1 }) := by
  refine (control_issues hc _ _).trans ?_
  simp only [if_pos hd]
  rfl

/-- The lanes of EM exit (R66). -/
theorem endl_exits (hd : x.st.dom = 0) (hs : x.sid ≠ 16) :
    exec .endl s = .next ((s.withStrand x fun st =>
      { st.jump x.st.nextClause with em := st.em &&& ~~~x.st.em, mem := st.mem &&& ~~~x.st.em }).endIfEmpty x.wid x.sid) := by
  refine (control_issues hc _ _).trans ?_
  have hr : x.sid ≠ rungSid := hs
  simp only [if_neg (not_not_intro hd), State.dropLanes, State.exitLanes, if_pos hr, jump_updStrand]
  rfl

/-- A changed strand is found again. -/
theorem strandAt_withStrand (f : Strand → Strand) (hd : (f x.st).dom = x.st.dom) :
    (s.withStrand x f).strandAt x.wid x.sid = some { x with w := x.w.updStrand x.sid f, st := f x.st } := by
  obtain ⟨-, -, hcore, hw, hst, hdom⟩ := who_spec hc.who
  have h1 : Tbl.find (s.withStrand x f).warps x.wid = some (x.w.updStrand x.sid f) := by
    rw [State.withStrand, Tbl.find_upd, if_pos rfl, hw]
    rfl
  have h2 : Tbl.find (x.w.updStrand x.sid f).strands x.sid = some (f x.st) := by
    rw [Warp.updStrand, Tbl.find_upd, if_pos rfl, hst]
    rfl
  have h3 : (x.w.updStrand x.sid f).dom (f x.st).dom = some x.d := by
    rw [hd]
    exact hdom
  simp only [State.strandAt, h1, h2, h3, hcore]

/-- What a strand without lanes comes to (R66). -/
theorem endIfEmpty_withStrand (f : Strand → Strand) (hd : (f x.st).dom = x.st.dom) (hs : x.sid ≠ 16) :
    (s.withStrand x f).endIfEmpty x.wid x.sid =
      if (f x.st).mem = 0 then (s.withStrand x f).endStrand x.wid x.sid else s.withStrand x f := by
  have hr : ¬x.sid = rungSid := hs
  rw [State.endIfEmpty, strandAt_withStrand hc f hd]
  simp only [ne_eq, ite_not, if_neg hr]

end

/-! ## Branch tables (R63) -/

/-- Lanes that all select one entry are one group. -/
theorem groupBy_one {ls : List Nat} {v : Nat → Nat} {e : Nat} (h : ls ≠ []) (hv : ∀ l ∈ ls, v l = e) :
    groupBy (ls.map fun l => (l, v l)) = [(e, maskOf ls)] := by
  have hs : (ls.map fun l => (l, v l)).map Prod.snd = List.replicate ls.length e := by
    rw [List.map_map, List.eq_replicate_iff]
    refine ⟨by simp, fun b hb => ?_⟩
    obtain ⟨l, hl, rfl⟩ := List.mem_map.1 hb
    exact hv l hl
  have hn : ls.length ≠ 0 := fun e => h (List.length_eq_zero_iff.1 e)
  have hf : ((ls.map fun l => (l, v l)).filter fun p => p.2 == e) = ls.map fun l => (l, v l) := by
    rw [List.filter_eq_self]
    intro p hp
    obtain ⟨l, hl, rfl⟩ := List.mem_map.1 hp
    simp [hv l hl]
  have he : (List.replicate ls.length e).eraseDups = [e] := by
    obtain ⟨n, hn⟩ := Nat.exists_eq_succ_of_ne_zero hn
    rw [hn, List.replicate_succ, List.eraseDups_cons]
    simp
  unfold groupBy
  rw [hs, he]
  show [(e, maskOf _)] = _
  rw [hf, List.map_map]
  simp [Function.comp_def]

/-- The mask of a mask's lanes. -/
theorem maskOf_lanesOf (m : Mask) : maskOf (lanesOf m) = m := by
  apply BitVec.eq_of_getLsbD_eq
  intro i hi
  rw [Bool.eq_iff_iff, getLsbD_maskOf, mem_lanesOf]
  simp [hi]

theorem tableUnits_one {s : State} {x : Who} {p : Pc} {u : Unit64} (h : s.fetchUnit x.core x.d.ctx p = .unit u) :
    s.tableUnits x [p] = .ok [u] := by
  simp only [State.tableUnits, State.fetchUnits, h]

/-- The strand of a change of a state that holds it keeps its lanes where the change does. -/
theorem updStrand_alive {s t : State} {x : Who} (hc : Clear s x) {w : Warp} (ht : Tbl.find t.warps x.wid = some w)
    (hw : Tbl.find w.strands x.sid = some x.st) {f : Strand → Strand} (hf : (f x.st).mem = x.st.mem) {y : Who}
    (hy : (t.updStrand x.wid x.sid f).strandAt x.wid x.sid = some y) : y.st.mem ≠ 0 := by
  obtain ⟨-, -, -, yw, yst, -⟩ := strandAt_spec hy
  have hu : Tbl.find (t.updStrand x.wid x.sid f).warps x.wid = some (w.updStrand x.sid f) := by
    show Tbl.find (Tbl.upd t.warps x.wid _) x.wid = _
    rw [Tbl.find_upd, if_pos rfl, ht]
    rfl
  rw [← Option.some.inj (hu.symm.trans yw), Warp.updStrand, Tbl.find_upd, if_pos rfl, hw] at yst
  rw [← Option.some.inj yst, hf]
  exact hc.alive

/-- Marks of return words are no part of any warp. -/
theorem strandAt_cleanReturn (s : State) (w i v j : Nat) : (s.cleanReturn w i).strandAt v j = s.strandAt v j := by
  unfold State.cleanReturn
  split <;> rfl

section
variable {s : State} {x : Who} {f : BrxF} {e : Nat} {t u : Unit64} (hc : Clear s x) (ho : OperandsOk s x { srcs := [(f.idx, 1)] })
  (hem : x.st.em ≠ 0) (hv : ∀ l ∈ lanesOf x.st.em, (readyOf s x { srcs := [(f.idx, 1)] }).val 0 l = e)
  (ht : s.fetchUnit x.core x.d.ctx (x.st.header + f.off.signExtend 53) = .unit t) (he : e < (t.extractLsb' 0 16).toNat)
  (hz : t.extractLsb' 36 28 = 0)
  (hu : s.fetchUnit x.core x.d.ctx (x.st.header + f.off.signExtend 53 + 1 + BitVec.ofNat 53 e) = .unit u) (hz' : u.extractLsb' 24 40 = 0)
  (hg : GoodTarget s x.core x.d.ctx (x.st.header + f.off.signExtend 53 + (u.extractLsb' 0 24).signExtend 53))
include hc ho hem hv ht he hz hu hz' hg

omit hc in
/-- A table of whose entries the lanes of EM select one: the strand goes to it, with a return address where one is pushed. -/
theorem tableBranch_one (push : Option Pc) (hp : push.isSome = true → x.st.rstack.length < 32) :
    s.tableBranch x f push = ((if push.isSome then fun v => v.cleanReturn x.wid x.sid else id)
      ((readyOf s x { srcs := [(f.idx, 1)] }).commit.withStrand x fun st =>
        { st.jump (x.st.header + f.off.signExtend 53 + (u.extractLsb' 0 24).signExtend 53) with
          rstack := push.toList ++ x.st.rstack })).endIfEmpty x.wid x.sid := by
  have hne : lanesOf x.st.em ≠ [] := fun h => hem (by rw [← maskOf_lanesOf x.st.em, h, maskOf_nil])
  have hgroup := groupBy_one hne hv
  rw [maskOf_lanesOf] at hgroup
  have hpast : ∀ p ∈ (lanesOf x.st.em).map fun l => (l, (readyOf s x { srcs := [(f.idx, 1)] }).val 0 l),
      ¬(t.extractLsb' 0 16).toNat ≤ p.2 := by
    intro p hp
    obtain ⟨l, hl, rfl⟩ := List.mem_map.1 hp
    rw [hv l hl]
    exact Nat.not_le.2 he
  have hany : ([u].any fun u => u.extractLsb' 24 40 != 0) = false := by simp [hz']
  unfold State.tableBranch
  simp only [beginOp_ok ho, em_all, Strand.relative, tableUnits_one ht, List.headD_cons, hgroup, hz, List.map_cons, List.map_nil,
    tableUnits_one hu]
  refine (if_neg fun h => h (List.filter_eq_nil_iff.2 fun p hp h => hpast p hp (of_decide_eq_true h))).trans ?_
  rw [if_neg (not_not_intro rfl), hany, if_neg Bool.false_ne_true]
  simp only [List.zip_cons_cons, List.zip_nil_right, List.map_cons, List.map_nil]
  rw [targets_good_one hg]
  cases push with
  | none =>
    simp only [jump_updStrand]
    rfl
  | some q =>
    have hlen : ¬32 < (q :: x.st.rstack).length := Nat.not_lt.2 (hp rfl)
    simp only [jump_updStrand, hlen, decide_false, Bool.and_false, Bool.false_and, Bool.false_eq_true, if_false]
    rfl

/-- `brx` goes to the entry. -/
theorem brx_jumps : exec (.brx f) s = .next ((readyOf s x { srcs := [(f.idx, 1)] }).commit.withStrand x fun st =>
    st.jump (x.st.header + f.off.signExtend 53 + (u.extractLsb' 0 24).signExtend 53)) := by
  obtain ⟨w, hw, hst⟩ := commit_strand hc { srcs := [(f.idx, 1)] } 0xFFFFFFFFFFFFFFFF
  refine (control_issues hc _ _).trans (congrArg Host.Outcome.next ?_)
  rw [tableBranch_one ho hem hv ht he hz hu hz' hg none fun h => absurd h Bool.false_ne_true]
  refine (endIfEmpty_of fun y hy => updStrand_alive hc hw hst ?_ hy).trans (withStrand_congr hw hst ?_) <;> rfl

/-- `callx` goes to the entry with a return address (R65). -/
theorem callx_jumps (hl : x.st.rstack.length < 32) :
    exec (.callx f) s = .next (((readyOf s x { srcs := [(f.idx, 1)] }).commit.withStrand x fun st =>
      { st.jump (x.st.header + f.off.signExtend 53 + (u.extractLsb' 0 24).signExtend 53) with
        rstack := x.st.nextClause :: x.st.rstack }).cleanReturn x.wid x.sid) := by
  obtain ⟨w, hw, hst⟩ := commit_strand hc { srcs := [(f.idx, 1)] } 0xFFFFFFFFFFFFFFFF
  refine (control_issues hc _ _).trans (congrArg Host.Outcome.next ?_)
  rw [tableBranch_one ho hem hv ht he hz hu hz' hg (some x.st.nextClause) fun _ => hl]
  refine endIfEmpty_of fun y hy => updStrand_alive hc hw hst ?_ ((strandAt_cleanReturn ..).symm.trans hy)
  rfl

end

/-- Settles O40, transfer by transfer. -/
theorem controlTransfers : Obligations.ControlTransfers := by
  intro s x hc
  refine ⟨fun t h => bra_jumps hc h, fun f m inv taken hf ht => ?_, fun f e t u tp p ho htp hem hv ht he hz hu hz' hp hg => ?_,
    fun t h => ⟨fun hl => ⟨_, rfl, ?_⟩, fun hl => ?_⟩, fun p rest hr hm h => ret_pops hc hr hm h, fun hr => ret_empty hc hr,
    fun f k v hk h48 hb hm hv => ?_, fun hd hs hmem => ?_, fun hd hs hmem => ?_, fun hd => endl_callee hc hd⟩
  · rw [brc_branches hc hf, ← ht]
    refine ⟨fun h0 => by rw [h0, branch_none], fun h0 hr hg => by rw [branch_all h0 hg hr], fun h0 hr hg hj o ho => ?_⟩
    rw [branch_some h0 hg hr hj, ← ho]
    exact ⟨fun t e => by rw [e], fun e => by rw [e]; rfl⟩
  · subst htp hp
    exact ⟨brx_jumps hc ho hem hv ht he hz hu hz' hg, fun hl => ⟨_, rfl, callx_jumps hc ho hem hv ht he hz hu hz' hg hl⟩⟩
  · rw [call_pushes hc h, if_neg (Nat.not_le.2 hl)]
  · rw [call_pushes hc h, if_pos hl]
    rfl
  · subst hk hv
    exact loop_counts hc h48 hb hm
  · rw [endl_exits hc hd hs, endIfEmpty_withStrand hc _ rfl hs, if_neg]
    exact hmem
  · rw [endl_exits hc hd hs, endIfEmpty_withStrand hc _ rfl hs, if_pos]
    exact hmem

end Sys2Proof.Machine
end


section
/-! Words of long-latency instructions land (R34, R35). -/

namespace Sys2Proof.Machine

/-- A push changes nothing but its warp's queues (R146). -/
theorem push_spec {s : State} {w : Nat} {W : Warp} (hw : Tbl.find s.warps w = some W) (p : Option (Nat × List QEntry)) :
    ∃ T, s.push w p = { s with warps := T } ∧ Tbl.find T w = some { W with queues := pushed W.queues p } ∧
      ∀ v, v ≠ w → Tbl.find T v = Tbl.find s.warps v := by
  cases p with
  | none => exact ⟨s.warps, rfl, hw, fun _ _ => rfl⟩
  | some e =>
    refine ⟨_, rfl, ?_, fun v hv => ?_⟩
    · rw [Tbl.find_upd, if_pos rfl, hw]
      rfl
    · rw [Tbl.find_upd, if_neg hv.symm]

/-- A word that no two different writes of a list name holds what the list writes. -/
theorem Core.landAll_unique (c : Core) {l : List RegWrite} {r : RegWrite} (hr : r ∈ l) (hu : ∀ r' ∈ l, r'.addr = r.addr → r' = r) :
    (c.landAll l).word r.addr = r.val ∧ (c.landAll l).mark r.addr = r.mark :=
  Core.landAll_at c l r.addr r.val r.mark ⟨r, hr, rfl⟩ fun w hw e => by rw [hu w hw e]; exact ⟨rfl, rfl⟩

/-- A strand that is not ended already does not end with its last long-latency instruction. -/
theorem endDone_of_not_ended {s : State} {w i : Nat} (h : ∀ x, s.strandAt w i = some x → ∀ n, x.st.parked ≠ some (.ended, n)) :
    s.endDone w i = s := by
  unfold State.endDone
  split
  next x hx =>
    have hp : (x.st.parked.any fun p => p.1 == .ended) = false := by
      cases e : x.st.parked with
      | none => rfl
      | some p =>
        obtain ⟨k, n⟩ := p
        simpa using fun hk => h x hx n (by rw [e, hk])
    simp [hp]
  next => rfl

/-- The writes of a list have the list's addresses as their destination. -/
theorem landAll_addrs (c : Core) (l : List RegWrite) : CoreWritten c (c.landAll l) (l.map RegWrite.addr) :=
  landAll_written c l _ fun _ => List.mem_map

section
variable {s : State} {x : Who} {w i op : Nat} {p : Pend} (hx : s.strandAt w i = some x)
  (hp : (x.st.pends.find? fun p => p.id == op && p.own) = some p)
include hx hp

/-- What a completion leaves, before the strand may end. -/
theorem longLatencyCompletion_all (hr : p.ready = true) (hq : x.w.hasRoom p.push = true) :
    exec (.longLatencyCompletion (.strand w i) op []) s =
      .next (((((s.land x.core p.wrs).push w p.push).sticky w p.dom p.sticky).dropPends w [op]).endDone w i) := by
  simp only [exec, execLongLatencyCompletion, hx, hp, hr, hq]
  rfl

/-- Some words land early (R35). -/
theorem longLatencyCompletion_early {early : List Nat} (he : early ≠ []) :
    exec (.longLatencyCompletion (.strand w i) op early) s =
      .next ((s.land x.core (someOf p.wrs fun n => early.contains n)).updStrand w i fun st => { st with pends := st.pends.map fun q =>
        if q.id = op then { q with wrs := someOf p.wrs fun n => !early.contains n } else q }) := by
  simp only [exec, execLongLatencyCompletion, hx, hp, if_pos he]
  rfl

end

/-- Settles O15: the words land in the core, and what the completion does beside that is an update of the one warp. -/
theorem longLatencyCompletes : Obligations.LongLatencyCompletes := by
  intro s x w i op p hx hp hr hq
  obtain ⟨-, -, -, hw, hst, -⟩ := strandAt_spec hx
  refine ⟨⟨_, longLatencyCompletion_all hx hp hr hq, ?_⟩, fun early he => ⟨_, longLatencyCompletion_early hx hp he, ?_⟩⟩
  · obtain ⟨cs, e, hc, hother⟩ := land_spec s x.core p.wrs
    have hw' : Tbl.find (s.land x.core p.wrs).warps w = some x.w := by rw [e]; exact hw
    obtain ⟨T, hT, hTw, hTo⟩ := push_spec hw' p.push
    have hwarp : Tbl.find ((((s.land x.core p.wrs).push w p.push).sticky w p.dom p.sticky).dropPends w [op]).warps w = some
        { x.w with
          queues := pushed x.w.queues p.push
          doms := Tbl.upd x.w.doms p.dom fun d => d.sticky p.sticky
          strands := Tbl.mapVals x.w.strands fun _ st => { st with pends := st.pends.filter fun q => q.id != op } } := by
      rw [hT]
      show Tbl.find (Tbl.upd (Tbl.upd T w _) w _) w = _
      rw [Tbl.find_upd, if_pos rfl, Tbl.find_upd, if_pos rfl, hTw]
      simp only [Option.map_some, List.contains_cons, List.contains_nil, Bool.or_false]
      rfl
    refine ⟨?_, ?_, ?_, fun r hr hu => ?_, fun v hv => ?_, hwarp, fun hn => ?_⟩
    · rw [hT, e]; rfl
    · intro c hc'
      rw [hT]
      exact hother c hc'
    · rw [hT]
      show CoreWritten _ ((s.land x.core p.wrs).core x.core) _
      rw [hc]
      exact landAll_addrs _ _
    · rw [hT]
      show ((s.land x.core p.wrs).core x.core).word _ = _ ∧ ((s.land x.core p.wrs).core x.core).mark _ = _
      rw [hc]
      exact Core.landAll_unique _ hr hu
    · rw [hT]
      show Tbl.find (Tbl.upd (Tbl.upd T w _) w _) v = _
      rw [Tbl.find_upd, if_neg hv.symm, Tbl.find_upd, if_neg hv.symm, hTo v hv, e]
    · refine endDone_of_not_ended fun y hy n hn' => hn n ?_
      obtain ⟨-, -, -, hyw, hys, -⟩ := strandAt_spec hy
      rw [← Option.some.inj (hwarp.symm.trans hyw), Tbl.find_mapVals, hst] at hys
      exact (congrArg Strand.parked (Option.some.inj hys)).trans hn'
  · obtain ⟨cs, e, hc, hother⟩ := land_spec s x.core (someOf p.wrs fun n => early.contains n)
    refine ⟨?_, hother, ?_, fun v hv => ?_, ?_⟩
    · rw [e]; rfl
    · show CoreWritten _ ((s.land x.core _).core x.core) _
      rw [hc]
      exact landAll_addrs _ _
    · rw [e]
      show Tbl.find (Tbl.upd s.warps w _) v = _
      rw [Tbl.find_upd, if_neg hv.symm]
    · rw [e]
      show Tbl.find (Tbl.upd s.warps w _) w = _
      rw [Tbl.find_upd, if_pos rfl, hw]
      rfl

end Sys2Proof.Machine
end


section
/-! What the instructions of classes 0 and 1 do behind the checks of their operands, said once for each table of rules. -/

namespace Sys2Proof.Machine

/-- The state that operands come to: where they stop, or how the instruction goes on. -/
def Prep.andThen (p : Prep) (k : Ready → State) : State :=
  match p with
  | .halt s => s
  | .go r => k r

@[simp] theorem Prep.go_andThen (r : Ready) (k : Ready → State) : (Prep.go r).andThen k = k r := rfl

/-- An instruction that raises no flag completes without a sticky bit. -/
theorem completeFp_noFlags (r : Ready) (fin : Nat → State) : completeFp r (fun _ => 0) fin = fin 0 := by
  have h : noFpTrap r fun _ => 0 := fun b _ _ => by simp [maskWhere_false]
  rw [completeFp_ok r _ fin h, fpBits_zero]

/-- The first enabled flag that a counted lane raises traps (R81). -/
theorem completeFp_trap {r : Ready} {fl : Nat → Nat} {fin : Nat → State} {b : Nat} (hb : b < 5)
    (he : (acrFtrap r.x.d.csrs.acr).testBit b = true) (hr : maskWhere r.counted (fun l => (fl l).testBit b) ≠ 0)
    (hlow : ∀ c, c < b → (acrFtrap r.x.d.csrs.acr).testBit c = true → maskWhere r.counted (fun l => (fl l).testBit c) = 0) :
    completeFp r fl fin = r.s.trapAt r.x.wid r.x.sid
      { cause := 0x1A + b, lanes := maskWhere r.counted fun l => (fl l).testBit b } := by
  have hf : ((List.range 5).find? fun c => (acrFtrap r.x.d.csrs.acr).testBit c && decide (flagLanes r.counted fl c ≠ 0)) = some b := by
    rw [List.find?_range_eq_some]
    refine ⟨by rw [he, Bool.true_and]; exact decide_eq_true hr, List.mem_range.2 hb, fun c hc => ?_⟩
    cases e : (acrFtrap r.x.d.csrs.acr).testBit c
    · simp
    · simp [flagLanes, hlow c hc e]
  unfold completeFp
  simp only [hf]
  rfl

/-- A compare or mask instruction whose operands are in order writes its mask (R11). -/
theorem maskRule_done {i : Instr} {q : MaskRule} {s : State} {x : Who} (hq : maskRule i = some q) (hc : Clear s x)
    (ho : OperandsOk s x { srcs := q.srcs })
    (ht : noFpTrap (readyOf s x { srcs := q.srcs }) (q.fl (readyOf s x { srcs := q.srcs }))) :
    ∃ t, exec i s = .next t ∧ MaskDone s x { srcs := q.srcs } q.m (q.v (readyOf s x { srcs := q.srcs }))
      (fpBits (readyOf s x { srcs := q.srcs }) (q.fl (readyOf s x { srcs := q.srcs }))) t := by
  cases i <;> first | (cases hq; done) | skip
  case fcmp f =>
    cases hq
    refine ⟨_, issue_clear hc _, ?_⟩
    simp only [beginOp_ok ho]
    rw [completeFp_ok _ _ _ ht]
    exact finishMask_done hc _ rfl _ _ _
  case cmp f | cmpi f =>
    cases hq
    rw [fpBits_zero]
    refine ⟨_, issue_clear hc _, ?_⟩
    have hb := beginOp_ok ho
    unfold src2 at hb
    simp only [hb]
    exact finishMask_done hc _ rfl _ _ _
  all_goals
    cases hq
    rw [fpBits_zero]
    exact maskOp_done hc ho

/-- `emset` (R114): the PC and EM change, and nothing else. -/
theorem emset_moves (s : State) (x : Who) (m : MReg) (hc : Clear s x) :
    exec (.emset m) s = .next { s with warps := Tbl.upd s.warps x.wid fun w =>
      { w with strands := Tbl.upd w.strands x.sid fun st => { st.advance 1 with em := x.d.mask m &&& st.mem } } } := by
  refine (issue_clear hc _).trans ?_
  simp only [State.skip, State.advance, State.updStrand, State.updWarp, Warp.updStrand, Tbl.upd_upd, advance_mem]

/-- Settles O4: the rules of R85 and R114 one by one, and `emget` and `emset`. -/
theorem maskInstructions : Obligations.MaskInstructions :=
  ⟨fun _ _ _ _ hq hc ho ht => maskRule_done hq hc ho ht, fun s x m hc => ⟨issue_clear hc _, emset_moves s x m hc⟩⟩

/-- How a floating instruction completes with its sticky bits: at once, or by issuing with its results (R34). -/
def FpRule.complete (q : FpRule) (r : Ready) (bits : Nat) : State :=
  match q.la with
  | none => r.finish r.em (q.res r) bits
  | some la => r.launch la r.em (q.res r) bits

/-- The meaning of an instruction with a floating rule. -/
theorem exec_fpRule {i : Instr} {q : FpRule} {s : State} {x : Who} (hq : fpRule i = some q) (hc : Clear s x) :
    exec i s = .next ((beginOp s x q.d).andThen fun r => completeFp r (q.fl r) (q.complete r)) := by
  cases i <;> first | (cases hq; done) | skip
  case rng f =>
    cases hq
    simp only [completeFp_noFlags]
    exact issue_clear hc _
  all_goals
    cases hq
    exact issue_clear hc _

/-- One whose operands are in order and that raises no enabled flag. -/
theorem exec_fpRule_ok {i : Instr} {q : FpRule} {s : State} {x : Who} (hq : fpRule i = some q) (hc : Clear s x) (ho : OperandsOk s x q.d)
    (ht : noFpTrap (readyOf s x q.d) (q.fl (readyOf s x q.d))) :
    exec i s = .next (q.complete (readyOf s x q.d) (fpBits (readyOf s x q.d) (q.fl (readyOf s x q.d)))) := by
  rw [exec_fpRule hq hc, beginOp_ok ho, Prep.go_andThen, completeFp_ok _ _ _ ht]

theorem FpRule.short_done {q : FpRule} {s : State} {x : Who} (hl : q.la = none) (hc : Clear s x) (bits : Nat) :
    Finished s x q.d every x.st.em (q.res (readyOf s x q.d)) bits (q.complete (readyOf s x q.d) bits) := by
  simp only [FpRule.complete, hl, em_all]
  exact finish_done hc q.d _ _ _ _ hc.lanes

theorem FpRule.long_done {q : FpRule} {la : Nat} {s : State} {x : Who} (hl : q.la = some la) (hc : Clear s x) (bits : Nat) :
    Launched s x q.d every x.st.em la (q.res (readyOf s x q.d)) bits (q.complete (readyOf s x q.d) bits) := by
  simp only [FpRule.complete, hl, em_all]
  exact launch_done hc q.d _ _ _ _ _

/-- Settles O5: one meaning for every rule of R83-R100, which completes, launches or traps by the flags of its lanes. -/
theorem floatingInstructions : Obligations.FloatingInstructions := by
  refine ⟨fun i q s x hq hl hc ho ht => ?_, fun i q la s x hq hl hc ho ht => ?_, fun i q s x b hq hc ho hb he hr hlow => ?_⟩
  · exact ⟨_, exec_fpRule_ok hq hc ho ht, FpRule.short_done hl hc _⟩
  · exact ⟨_, exec_fpRule_ok hq hc ho ht, FpRule.long_done hl hc _⟩
  · rw [exec_fpRule hq hc, beginOp_ok ho, Prep.go_andThen, completeFp_trap (r := readyOf s x q.d) hb he hr hlow]
    rfl

end Sys2Proof.Machine
end


section
/-! Operands that are not in order (R13, R14, R112, R127, R143, R145, R147, R224, R319, R338). -/

namespace Sys2Proof.Machine

/-- An instruction that begins with the checks of its operands stops where they stop. -/
theorem Opens.halts {i : Instr} {s t : State} {x : Who} {d : OpD} {acc : OwnOf} {only : Mask} (h : Opens i s x d acc only)
    (hb : beginOp s x d acc only = .halt t) : exec i s = .next t := by
  obtain ⟨k, hk⟩ := h
  rw [hk, hb]

/-! ## Queues (R13, R147, R338) -/

section
variable {x : Who} {d : OpD}

theorem queueFault_callee (hd : x.st.dom ≠ 0) (hq : ∃ p ∈ d.srcs ++ d.dst.toList, ∃ k, p.1 = .q k) : queueFault x d = some 2 := by
  obtain ⟨p, hp, k, hk⟩ := hq
  have hany : (d.srcs.filterMap fun p => opndQueue p.1) ≠ [] ∨ (d.dst.bind fun p => opndQueue p.1).isSome = true := by
    rcases List.mem_append.1 hp with hp | hp
    · refine .inl (List.ne_nil_of_mem (a := k.val) (List.mem_filterMap.2 ⟨p, hp, ?_⟩))
      rw [hk]
      rfl
    · refine .inr ?_
      rw [Option.mem_toList.1 hp, Option.bind_some, hk]
      rfl
  simp only [queueFault, if_pos (And.intro hd hany)]

theorem queueFault_direction (hd : x.st.dom = 0)
    (hq : (∃ p ∈ d.srcs, ∃ k, p.1 = .q k ∧ 4 ≤ k.val) ∨ ∃ k n, d.dst = some (.q k, n) ∧ k.val < 4) : queueFault x d = some 0 := by
  have hany : ((d.srcs.filterMap fun p => opndQueue p.1).any (fun q => decide (4 ≤ q)) ||
      (d.dst.bind fun p => opndQueue p.1).any fun q => decide (q < 4)) = true := by
    rcases hq with ⟨p, hp, k, hk, h4⟩ | ⟨k, n, hk, h4⟩
    · refine Bool.or_eq_true_iff.2 (.inl (List.any_eq_true.2 ⟨k.val, List.mem_filterMap.2 ⟨p, hp, ?_⟩, decide_eq_true h4⟩))
      rw [hk]
      rfl
    · refine Bool.or_eq_true_iff.2 (.inr ?_)
      rw [hk]
      exact decide_eq_true h4
  simp only [queueFault, hd, ne_eq, not_true_eq_false, false_and, if_false, hany, if_true]

theorem queueFault_closed (hd : x.st.dom = 0) (hs : ∀ p ∈ d.srcs, ∀ k, p.1 = .q k → k.val < 4) {k : Fin 8} {n : Nat}
    (hk : d.dst = some (.q k, n)) (h4 : 4 ≤ k.val) (hem : x.st.em ≠ 0) (hc : (x.w.queues.getD k.val ⟨[], false⟩).closed = true) :
    queueFault x d = some 1 := by
  have hany : ((d.srcs.filterMap fun p => opndQueue p.1).any (fun q => decide (4 ≤ q)) ||
      (d.dst.bind fun p => opndQueue p.1).any fun q => decide (q < 4)) = false := by
    refine Bool.or_eq_false_iff.2 ⟨List.any_eq_false.2 fun q hq => ?_, ?_⟩
    · obtain ⟨p, hp, e⟩ := List.mem_filterMap.1 hq
      cases hp1 : p.1 with
      | q j =>
        rw [hp1] at e
        cases e
        simpa using hs p hp j hp1
      | _ => rw [hp1] at e; cases e
    · rw [hk]
      exact decide_eq_false (Nat.not_lt.2 h4)
  have hcl : (x.st.em ≠ 0 ∧ (d.dst.bind fun p => opndQueue p.1).any (fun q => (x.w.queues.getD q ⟨[], false⟩).closed) = true) := by
    refine ⟨hem, ?_⟩
    rw [hk]
    exact hc
  simp only [queueFault, hd, ne_eq, not_true_eq_false, false_and, if_false, hany, Bool.false_eq_true]
  rw [if_pos hcl]

end

section
variable {s : State} {x : Who} {d : OpD} {acc : OwnOf} {only : Mask}

theorem beginOp_queueFault {k : Nat} (h : queueFault x d = some k) :
    beginOp s x d acc only = .halt (s.trapAt x.wid x.sid { cause := 0x2C, lanes := x.st.em, detail := k }) := by
  simp only [beginOp, h]
  rfl

theorem beginOp_busy (h : queueFault x d = none) (hb : busyDst s x d = true) :
    beginOp s x d acc only = .halt (s.trapAt x.wid x.sid { cause := 0x2E, lanes := x.st.em, detail := 3 }) := by
  simp only [beginOp, h, hb, if_true]
  rfl

theorem beginOp_queueWait (h : queueFault x d = none) (hb : busyDst s x d = false) (hw : queueWait x d = true) :
    beginOp s x d acc only = .halt (s.park x.wid x.sid .queue) := by
  simp only [beginOp, h, hb, hw, Bool.false_eq_true, if_false, if_true]

theorem beginOp_release (h : queueFault x d = none) (hb : busyDst s x d = false) (hw : queueWait x d = false) (hp : d.pushes = true)
    (hu : s.unfinished x.agent = true) : beginOp s x d acc only = .halt (s.park x.wid x.sid .release) := by
  simp only [beginOp, h, hb, hw, hp, hu, Bool.false_eq_true, if_false, Bool.and_self, if_true]

end

/-! ## Poisoned words (R319) -/

/-- The first marked word that a lane consumes. -/
def poisonOf (s : State) (x : Who) (d : OpD) (a : Nat → OwnAcc) (l : Nat) : Option Nat :=
  (laneConsumes x d l ++ (a l).reads).find? fun w => (s.core x.core).mark w != 0

theorem poisonOf_isSome (s : State) (x : Who) (d : OpD) (a : Nat → OwnAcc) (l : Nat) :
    (poisonOf s x d a l).isSome = true ↔ ∃ w ∈ laneConsumes x d l ++ (a l).reads, (s.core x.core).mark w ≠ 0 := by
  simp only [poisonOf, List.find?_isSome, bne_iff_ne]

theorem poisonOf_split {s : State} {x : Who} {d : OpD} {a : Nat → OwnAcc} {l w : Nat} {pre post : List Nat}
    (e : laneConsumes x d l ++ (a l).reads = pre ++ w :: post) (hpre : ∀ v ∈ pre, (s.core x.core).mark v = 0)
    (hw : (s.core x.core).mark w ≠ 0) : poisonOf s x d a l = some w := by
  rw [poisonOf, List.find?_eq_some_iff_append]
  exact ⟨by simpa using hw, pre, post, e, fun v hv => by simp [hpre v hv]⟩

/-- The lanes for which a list of lanes has something. -/
theorem map_fst_filterMap (f : Nat → Option Nat) (ls : List Nat) :
    (ls.filterMap fun l => (f l).map fun a => (l, a)).map Prod.fst = ls.filter fun l => (f l).isSome := by
  induction ls with
  | nil => rfl
  | cons l ls ih => cases e : f l <;> simp [e, ih]

/-- The lanes of a mask that are the lanes of another for which `f` has something. -/
theorem lanesOf_filter {m p : Mask} {f : Nat → Bool} (h : ∀ j, p.getLsbD j = true ↔ m.getLsbD j = true ∧ f j = true) :
    (lanesOf m).filter f = lanesOf p := by
  unfold lanesOf
  rw [List.filter_filter]
  refine List.filter_congr fun j _ => ?_
  rw [Bool.eq_iff_iff, h j, Bool.and_eq_true, and_comm]

/-- A list of pairs whose first parts are known begins with the lowest lane and what it has. -/
theorem filterMap_cons {f : Nat → Option Nat} {m p : Mask} {l a : Nat}
    (hp : ∀ j, p.getLsbD j = true ↔ m.getLsbD j = true ∧ (f j).isSome = true)
    (hl : lowLane p = some l) (ha : f l = some a) :
    ∃ rest, ((lanesOf m).filterMap fun l => (f l).map fun a => (l, a)) = (l, a) :: rest ∧ l :: rest.map Prod.fst = lanesOf p := by
  have hfst : ((lanesOf m).filterMap fun l => (f l).map fun a => (l, a)).map Prod.fst = lanesOf p := by
    rw [map_fst_filterMap, lanesOf_filter hp]
  cases e : (lanesOf m).filterMap fun l => (f l).map fun a => (l, a) with
  | nil =>
    rw [e] at hfst
    rw [lowLane, ← hfst] at hl
    cases hl
  | cons q rest =>
    obtain ⟨l', a'⟩ := q
    rw [e, List.map_cons] at hfst
    rw [lowLane, ← hfst] at hl
    cases hl
    have hmem : (l', a') ∈ (lanesOf m).filterMap fun l => (f l).map fun a => (l, a) := by
      rw [e]
      exact List.mem_cons_self ..
    obtain ⟨j, -, h⟩ := List.mem_filterMap.1 hmem
    obtain ⟨b, hb, h⟩ := Option.map_eq_some_iff.1 h
    cases h
    rw [hb] at ha
    cases ha
    exact ⟨rest, rfl, hfst⟩

/-- Lanes that are struck are quenched: what is left of EM, and the lanes of each kind (R112, R113). -/
def struckReady (s : State) (x : Who) (d : OpD) (only : Mask) (m : Nat → Mask) : Ready :=
  ⟨s, x, d, x.st.em &&& only &&& ~~~(m 0 ||| m 1 ||| m 2 ||| m 3), (List.range 4).map fun k => (k, m k), popEntries x.w.queues d.srcs⟩

@[simp] theorem struckReady_x (s : State) (x : Who) (d : OpD) (only : Mask) (m : Nat → Mask) : (struckReady s x d only m).x = x := rfl

/-- Where no lane is struck. -/
theorem struckReady_none (s : State) (x : Who) (d : OpD) (only : Mask) {m : Nat → Mask} (hm : ∀ k, m k = 0) :
    struckReady s x d only m = readyOf s x d only := by
  have he : x.st.em &&& only &&& ~~~(m 0 ||| m 1 ||| m 2 ||| m 3) = x.st.em &&& only := by
    rw [hm, hm, hm, hm]
    exact BitVec.and_allOnes
  have hq : ((List.range 4).map fun k => (k, m k)) = [(0, 0), (1, 0), (2, 0), (3, 0)] := by
    simp [List.range_succ, hm]
  rw [struckReady, he, hq]
  rfl

section
variable {s : State} {x : Who} {d : OpD} {acc : OwnOf} {only : Mask} {m : Nat → Mask} (hi : Issues s x d acc only)
  (hs : Struck s x d acc only m)
include hi hs

/-- Where the lanes that are struck do not trap, the marked words that the others consume decide. -/
theorem beginOp_quenches
    (hn : ¬(¬(m 0 = 0 ∧ m 1 = 0 ∧ m 2 = 0 ∧ m 3 = 0) ∧ (x.d.csrs.acr.getLsbD 24 || decide (x.st.dom ≠ 0)) = true)) :
    beginOp s x d acc only = match (lanesOf (struckReady s x d only m).em).filterMap fun l =>
        (poisonOf s x d (acc (struckReady s x d only m)) l).map fun a => (l, a) with
      | (l, a) :: rest => .halt (s.trapAt x.wid x.sid
          { cause := 0x50, lanes := maskOf (l :: rest.map Prod.fst), addr := a, detail := (s.core x.core).mark a })
      | [] => .go (struckReady s x d only m) := by
  rw [beginOp_struck hi hs, if_neg hn]
  rfl

/-- Behind the lanes that are struck, a marked word that a lane consumes traps. -/
theorem beginOp_poison (hm : ∀ k, m k = 0) {p : Mask} {l a : Nat} {pre post : List Nat}
    (hp : ∀ j, p.getLsbD j = true ↔ (x.st.em &&& only).getLsbD j = true ∧
      ∃ w ∈ laneConsumes x d j ++ (acc (readyOf s x d only) j).reads, (s.core x.core).mark w ≠ 0)
    (hl : lowLane p = some l) (e : laneConsumes x d l ++ (acc (readyOf s x d only) l).reads = pre ++ a :: post)
    (hpre : ∀ w ∈ pre, (s.core x.core).mark w = 0) (ha : (s.core x.core).mark a ≠ 0) :
    beginOp s x d acc only =
      .halt (s.trapAt x.wid x.sid { cause := 0x50, lanes := p, addr := a, detail := (s.core x.core).mark a }) := by
  have hp' (j : Nat) : p.getLsbD j = true ↔ (readyOf s x d only).em.getLsbD j = true ∧
      (poisonOf s x d (acc (readyOf s x d only)) j).isSome = true := by
    rw [poisonOf_isSome]
    exact hp j
  obtain ⟨rest, hrest, hlanes⟩ := filterMap_cons hp' hl (poisonOf_split e hpre ha)
  rw [beginOp_quenches hi hs fun h => h.1 ⟨hm 0, hm 1, hm 2, hm 3⟩, struckReady_none s x d only hm, hrest]
  simp only [hlanes, maskOf_lanesOf]

end

/-- The traps of lanes that are struck, the lowest cause first (R127). -/
theorem beginOp_traps {s : State} {x : Who} {d : OpD} {acc : OwnOf} {only : Mask} {m : Nat → Mask} (hi : Issues s x d acc only)
    (hs : Struck s x d acc only m) (ht : x.d.csrs.acr.getLsbD 24 = true ∨ x.st.dom ≠ 0) (hm : ¬(m 0 = 0 ∧ m 1 = 0 ∧ m 2 = 0 ∧ m 3 = 0)) :
    beginOp s x d acc only = .halt (s.trapAt x.wid x.sid
      (if m 0 ≠ 0 then { cause := 0x20, lanes := m 0 }
      else if m 1 ||| m 3 ≠ 0 then { cause := 0x21, lanes := m 1 ||| m 3, detail := if m 3 ≠ 0 then 4 else 0 }
      else { cause := 0x22, lanes := m 2 })) := by
  have ht' : (x.d.csrs.acr.getLsbD 24 || decide (x.st.dom ≠ 0)) = true := by
    rw [Bool.or_eq_true, decide_eq_true_iff]
    exact ht
  rw [beginOp_struck hi hs, if_pos ⟨hm, ht'⟩]
  split
  · rfl
  · split <;> rfl

/-! ## Quench (R112, R113) -/

/-- The kinds of a list of quenched lanes. -/
def kindsOf (l : List (Nat × Mask)) (k : BitVec 4) : BitVec 4 :=
  l.foldl (fun (q : BitVec 4) (p : Nat × Mask) => if p.2 = 0 then q else q ||| (1#4 <<< p.1)) k

theorem getLsbD_kindsOf (l : List (Nat × Mask)) (k : BitVec 4) {i : Nat} (hi : i < 4) :
    (kindsOf l k).getLsbD i = (k.getLsbD i || l.any fun p => decide (p.2 ≠ 0) && p.1 == i) := by
  induction l generalizing k with
  | nil => simp [kindsOf]
  | cons p l ih =>
    have hs : kindsOf (p :: l) k = kindsOf l (if p.2 = 0 then k else k ||| (1#4 <<< p.1)) := rfl
    rw [hs, ih, List.any_cons]
    by_cases hp : p.2 = 0
    · simp [hp]
    · have hbit : (1#4 <<< p.1).getLsbD i = (p.1 == i) := by
        rw [BitVec.getLsbD_shiftLeft, BitVec.getLsbD_one, Bool.eq_iff_iff]
        simp only [Bool.and_eq_true, decide_eq_true_eq, Bool.not_eq_true', decide_eq_false_iff_not, beq_iff_eq]
        omega
      rw [if_neg hp, decide_eq_true hp, Bool.true_and, BitVec.getLsbD_or, hbit, Bool.or_assoc]

/-- FMASK and QKIND of a domain of which lanes have been quenched. -/
def Dom.quenched (d : Dom) (l : List (Nat × Mask)) (gone : Mask) : Dom :=
  { d with csrs := { d.csrs with fmask := d.csrs.fmask ||| gone, qkind := kindsOf l d.csrs.qkind } }

section
variable {s : State} {x : Who} {d : OpD} {m : Nat → Mask} {gone : Mask} (hg : gone = m 0 ||| m 1 ||| m 2 ||| m 3)
include hg

theorem struckReady_gone : ((struckReady s x d every m).quench.map Prod.snd).foldl (· ||| ·) 0 = gone := by
  have hz : (0 : Mask) ||| m 0 = m 0 := BitVec.zero_or
  rw [hg]
  show (((0 ||| m 0) ||| m 1) ||| m 2) ||| m 3 = _
  rw [hz]

theorem struckReady_em : (struckReady s x d every m).em = x.st.em &&& ~~~gone := by
  have he : x.st.em &&& every = x.st.em := BitVec.and_allOnes
  rw [hg, struckReady, he]

theorem struckReady_live : (struckReady s x d every m).live = x.st.em &&& ~~~gone := by
  rw [Ready.live, struckReady_gone hg]
  rfl

variable (h0 : gone ≠ 0) (hs : x.sid ≠ 16)
include h0 hs

theorem struck_quench : s.quench x (struckReady s x d every m).quench =
    (s.updDom x.wid x.st.dom fun k => k.quenched (struckReady s x d every m).quench gone).updStrand x.wid x.sid fun st => st.strip gone := by
  have hr : x.sid ≠ rungSid := hs
  simp only [State.quench, struckReady_gone hg, if_neg h0, State.exitLanes, if_pos hr]
  rfl

/-- What is committed of an instruction some of whose lanes are quenched. -/
theorem struck_commit (hw : Tbl.find s.warps x.wid = some x.w) :
    ∃ qs, (struckReady s x d every m).commit = { s with warps := (struckReady s x d every m).commit.warps } ∧
      (x.st.em &&& ~~~gone = 0 → qs = x.w.queues) ∧ Tbl.find (struckReady s x d every m).commit.warps x.wid = some { x.w with
        queues := qs
        doms := Tbl.upd x.w.doms x.st.dom fun k => k.quenched (struckReady s x d every m).quench gone
        strands := Tbl.upd x.w.strands x.sid fun st => st.strip gone } := by
  have hfind : Tbl.find ((s.updDom x.wid x.st.dom fun k => k.quenched (struckReady s x d every m).quench gone).updStrand x.wid x.sid
      fun st => st.strip gone).warps x.wid = some { x.w with
        doms := Tbl.upd x.w.doms x.st.dom fun k => k.quenched (struckReady s x d every m).quench gone
        strands := Tbl.upd x.w.strands x.sid fun st => st.strip gone } := by
    show Tbl.find (Tbl.upd (Tbl.upd s.warps x.wid _) x.wid _) x.wid = _
    rw [Tbl.find_upd, if_pos rfl, Tbl.find_upd, if_pos rfl, hw]
    rfl
  by_cases hl : x.st.em &&& ~~~gone = 0
  · have e : (struckReady s x d every m).commit = _ := (if_pos ((struckReady_live hg).trans hl)).trans (struck_quench hg h0 hs)
    rw [e]
    exact ⟨x.w.queues, rfl, fun _ => rfl, hfind⟩
  · have e : (struckReady s x d every m).commit = State.updWarp _ x.wid _ :=
      (if_neg fun h => hl ((struckReady_live hg).symm.trans h)).trans
        (congrArg (fun t : State => t.updWarp x.wid _) (struck_quench hg h0 hs))
    rw [e]
    refine ⟨(List.range 8).map fun q => ⟨(x.w.queues.getD q ⟨[], false⟩).entries.drop (popCount d.srcs q),
      (x.w.queues.getD q ⟨[], false⟩).closed⟩, rfl, fun h => absurd h hl, ?_⟩
    rw [State.updWarp, Tbl.find_upd, if_pos rfl]
    exact congrArg (Option.map _) hfind

end

/-- The words of a vector result stand in the lanes that receive it. -/
theorem landAll_lanes (c : Core) {s : State} {x : Who} {d : OpD} {m : Mask} (res : Nat → List Word) (hm : ∀ l ∈ lanesOf m, l < x.width)
    {k : Fin 960} {n : Nat} (hd : d.dst = some (.v k, n)) {l j : Nat} (hl : l ∈ lanesOf m) (hj : j < n) :
    (c.landAll ((readyOf s x d).writes m res)).word (x.d.lane x.width (k.val + j) l) = (res l).getD j 0 := by
  have hwr : (readyOf s x d).writes m res =
      (lanesOf m).flatMap fun l => (List.range n).map fun j => ⟨x.d.lane x.width (k.val + j) l, (res l).getD j 0, 0⟩ := by
    simp [Ready.writes, hd]
  rw [hwr]
  refine (Core.landAll_at c _ _ ((res l).getD j 0) 0 ?_ fun w hw ha => ?_).1
  · exact ⟨_, List.mem_flatMap.2 ⟨l, hl, List.mem_map.2 ⟨j, List.mem_range.2 hj, rfl⟩⟩, rfl⟩
  obtain ⟨l', hl', hw⟩ := List.mem_flatMap.1 hw
  obtain ⟨j', -, rfl⟩ := List.mem_map.1 hw
  obtain ⟨rfl, rfl⟩ := lane_inj (hm l' hl') (hm l hl) ha
  exact ⟨rfl, rfl⟩

/-- The meaning of a short integer instruction. -/
theorem exec_intRule {i : Instr} {q : IntRule} {s : State} {x : Who} (hq : intRule i = some q) (hl : q.la = none) (hc : Clear s x) :
    exec i s = .next ((beginOp s x q.d).andThen fun r =>
      completeInt r (maskWhere r.em fun l => (q.g r l).dz) (maskWhere r.em fun l => (q.g r l).ov) fun bits => r.finish r.em (q.res r) bits) := by
  cases i <;> first | (cases hq; done) | skip
  case div f | rem f =>
    cases hq
    cases hl
  all_goals
    cases hq
    exact issue_clear hc _

/-- What a strand that is there comes to if it is left without lanes (R66, R112). -/
theorem endIfEmpty_found {u : State} {wid sid : Nat} {v : Warp} {st : Strand} {e : Dom} (hv : Tbl.find u.warps wid = some v)
    (hst : Tbl.find v.strands sid = some st) (he : Tbl.find v.doms st.dom = some e) (hs : sid ≠ 16) :
    u.endIfEmpty wid sid = if st.mem = 0 then u.endStrand wid sid else u := by
  have hr : ¬sid = rungSid := hs
  have hat : u.strandAt wid sid = some ⟨wid, sid, coreOf wid, v, st, e⟩ := by simp only [State.strandAt, hv, hst, Warp.dom, he]
  simp only [State.endIfEmpty, hat, ne_eq, ite_not, if_neg hr]

/-- What the completion of a short instruction leaves before its strand may end. -/
def Ready.delivered (r : Ready) (m : Mask) (res : Nat → List Word) (bits : Nat) : State :=
  ((((r.commit.land r.x.core (r.writes m res)).push r.x.wid (r.pushes m res)).sticky r.x.wid r.x.st.dom bits)).advance r.x.wid r.x.sid 1

theorem finish_eq (r : Ready) (m : Mask) (res : Nat → List Word) (bits : Nat) :
    r.finish m res bits = (r.delivered m res bits).endIfEmpty r.x.wid r.x.sid := rfl

section
variable {s : State} {x : Who} {d : OpD} {m : Nat → Mask} {gone : Mask} (hc : Clear s x) (hg : gone = m 0 ||| m 1 ||| m 2 ||| m 3)
  (h0 : gone ≠ 0) (hs : x.sid ≠ 16)
include hc hg h0 hs

/-- What a short instruction leaves whose struck lanes are quenched: FMASK and QKIND record them, they leave the strand, and the others
get their results (R112, R113). -/
theorem struck_delivered (res : Nat → List Word) (bits : Nat) :
    ∃ qs, (x.st.em &&& ~~~gone = 0 → qs = x.w.queues) ∧
      Tbl.find ((struckReady s x d every m).delivered (struckReady s x d every m).em res bits).warps x.wid = some { x.w with
        queues := pushed qs ((struckReady s x d every m).pushes (struckReady s x d every m).em res)
        doms := Tbl.upd x.w.doms x.st.dom fun k => (k.quenched (struckReady s x d every m).quench gone).sticky bits
        strands := Tbl.upd x.w.strands x.sid fun st => (st.strip gone).advance 1 } ∧
      ((struckReady s x d every m).delivered (struckReady s x d every m).em res bits).core x.core =
        (s.core x.core).landAll ((readyOf s x d).writes (x.st.em &&& ~~~gone) res) := by
  obtain ⟨-, -, -, hw, -, -⟩ := who_spec hc.who
  obtain ⟨qs, e, hqs, hW⟩ := struck_commit (d := d) hg h0 hs hw
  obtain ⟨cs, el, hcl, -⟩ := land_spec (struckReady s x d every m).commit x.core
    ((struckReady s x d every m).writes (struckReady s x d every m).em res)
  have hwarps := congrArg State.warps el
  rw [← show _ = (struckReady s x d every m).commit.warps from hwarps] at hW
  obtain ⟨T, hT, hTw, -⟩ := push_spec hW ((struckReady s x d every m).pushes (struckReady s x d every m).em res)
  refine ⟨qs, hqs, ?_, ?_⟩
  · show Tbl.find (Tbl.upd (Tbl.upd ((State.land _ _ _).push _ _).warps x.wid _) x.wid _) x.wid = _
    rw [Tbl.find_upd, if_pos rfl, Tbl.find_upd, if_pos rfl]
    refine (congrArg (fun t => Option.map _ (Option.map _ t)) ((congrArg (fun t : State => Tbl.find t.warps x.wid) hT).trans hTw)).trans ?_
    simp only [Option.map_some, Warp.updDom, Warp.updStrand, struckReady_x, Tbl.upd_upd]
    rfl
  · refine (congrArg (fun t : State => t.core x.core) hT).trans (hcl.trans ?_)
    rw [e, struckReady_em hg]
    rfl

end

/-- Nothing is pushed where no lane is left. -/
theorem pushes_of_live_zero {r : Ready} (h : r.live = 0) (m : Mask) (res : Nat → List Word) : r.pushes m res = none := by
  unfold Ready.pushes
  split
  · rw [if_pos h]
  · rfl

/-- The kinds of the lanes that are struck (R113). -/
theorem quenched_qkind (s : State) (x : Who) (d : OpD) (m : Nat → Mask) (gone : Mask) (c : Dom) {k : Nat} (hk : k < 4) :
    (c.quenched (struckReady s x d every m).quench gone).csrs.qkind.getLsbD k = (c.csrs.qkind.getLsbD k || decide (m k ≠ 0)) := by
  have hany : ((List.range 4).map fun k => (k, m k)).any (fun p => decide (p.2 ≠ 0) && p.1 == k) = decide (m k ≠ 0) := by
    rw [Bool.eq_iff_iff, List.any_map, List.any_eq_true]
    simp only [Function.comp_apply, Bool.and_eq_true, decide_eq_true_eq, beq_iff_eq, List.mem_range]
    exact ⟨fun ⟨j, _, hj, e⟩ => e ▸ hj, fun h => ⟨k, hk, h, rfl⟩⟩
  exact (getLsbD_kindsOf _ _ hk).trans (congrArg _ hany)

section
variable {s : State} {x : Who} {i : Instr} {q : IntRule} {m : Nat → Mask} {gone : Mask} (hc : Clear s x) (hq : intRule i = some q)
  (hl : q.la = none) (hdom : x.st.dom = 0) (hacr : x.d.csrs.acr.getLsbD 24 = false) (hi : Issues s x q.d (fun _ _ => OwnAcc.none) every)
  (hst : Struck s x q.d (fun _ _ => OwnAcc.none) every m)
  (hclean : ∀ l ∈ lanesOf (struckReady s x q.d every m).em, ∀ w ∈ laneConsumes x q.d l, (s.core x.core).mark w = 0)
include hc hq hl hdom hacr hi hst hclean

/-- A short integer instruction whose struck lanes are quenched goes on with the others. -/
theorem intRule_quenches (ht : noIntTrap x (q.dz (struckReady s x q.d every m)) (q.ov (struckReady s x q.d every m))) :
    ∃ bits, exec i s = .next ((struckReady s x q.d every m).finish (struckReady s x q.d every m).em
      (q.res (struckReady s x q.d every m)) bits) := by
  have hn : ¬(¬(m 0 = 0 ∧ m 1 = 0 ∧ m 2 = 0 ∧ m 3 = 0) ∧ (x.d.csrs.acr.getLsbD 24 || decide (x.st.dom ≠ 0)) = true) := by
    rw [hacr, hdom]
    exact fun h => Bool.false_ne_true h.2
  have hnil : ((lanesOf (struckReady s x q.d every m).em).filterMap fun l =>
      (poisonOf s x q.d (fun _ => OwnAcc.none) l).map fun a => (l, a)) = [] := by
    rw [List.filterMap_eq_nil_iff]
    intro l hlane
    rw [Option.map_eq_none_iff, poisonOf, List.find?_eq_none]
    intro w hw
    have hw' : w ∈ laneConsumes x q.d l := by simpa [OwnAcc.none] using hw
    simp [hclean l hlane w hw']
  have hb : beginOp s x q.d = .go (struckReady s x q.d every m) := by
    refine (beginOp_quenches hi hst hn).trans ?_
    rw [hnil]
  refine ⟨intBits (q.dz (struckReady s x q.d every m)) (q.ov (struckReady s x q.d every m)), (exec_intRule hq hl hc).trans ?_⟩
  rw [hb, Prep.go_andThen]
  exact congrArg Host.Outcome.next (completeInt_ok (struckReady s x q.d every m) _ _ _ ht)

end

/-- Settles O8: the checks in their order, and the quench of the lanes that are struck. -/
theorem operandChecks : Obligations.OperandChecks := by
  refine ⟨fun s x i d acc only hc ho hw => ?_, fun s x i q m gone left r hc hq hl hdom hsid hacr hi hst hg h0 hleft hr hclean ht => ?_⟩
  · have h := opens hc ho hw
    refine ⟨fun hd hq => h.halts (beginOp_queueFault (queueFault_callee hd hq)),
      fun hd hq => h.halts (beginOp_queueFault (queueFault_direction hd hq)),
      fun hd hs k n hk h4 hem hcl => h.halts (beginOp_queueFault (queueFault_closed hd hs hk h4 hem hcl)),
      fun hf => ⟨fun hb => h.halts (beginOp_busy hf hb), fun hb hw => h.halts (beginOp_queueWait hf hb hw),
        fun hb hw hp hu => h.halts (beginOp_release hf hb hw hp hu)⟩,
      fun hi m hs => ⟨fun ht => ⟨fun h0 => ?_, fun h0 h13 => ?_, fun h0 h13 h2 => ?_⟩,
        fun hm p l a pre post hp hl e hpre ha => h.halts (beginOp_poison hi hs hm hp hl e hpre ha)⟩⟩
    · refine h.halts ((beginOp_traps hi hs ht fun hz => h0 hz.1).trans ?_)
      rw [if_pos h0]
    · refine h.halts ((beginOp_traps hi hs ht fun ⟨_, h1, _, h3⟩ => h13 (by rw [h1, h3]; rfl)).trans ?_)
      rw [if_neg (not_not_intro h0), if_pos h13]
      simp only [ne_eq, ite_not]
    · refine h.halts ((beginOp_traps hi hs ht fun ⟨_, _, hz, _⟩ => h2 hz).trans ?_)
      rw [if_neg (not_not_intro h0), if_neg (not_not_intro h13)]
  · obtain ⟨-, -, -, -, hstrand, hdomain⟩ := who_spec hc.who
    have hem := struckReady_em (s := s) (x := x) (d := q.d) hg
    have hr' : r = struckReady s x q.d every m := by
      rw [hr, hleft, ← hem]
      rfl
    subst hleft hr'
    obtain ⟨bits, hexec⟩ := intRule_quenches hc hq hl hdom hacr hi hst (by rw [hem]; exact hclean) ht
    obtain ⟨qs, hqs, hwarp, hcore⟩ := struck_delivered hc hg h0 hsid (q.res (struckReady s x q.d every m)) bits
    have hfs : Tbl.find (Tbl.upd x.w.strands x.sid fun st => (st.strip gone).advance 1) x.sid = some ((x.st.strip gone).advance 1) := by
      rw [Tbl.find_upd, if_pos rfl, hstrand]
      rfl
    have hfd : Tbl.find (Tbl.upd x.w.doms x.st.dom fun k => (k.quenched (struckReady s x q.d every m).quench gone).sticky bits) x.st.dom =
        some ((x.d.quenched (struckReady s x q.d every m).quench gone).sticky bits) := by
      rw [Tbl.find_upd, if_pos rfl]
      exact congrArg (Option.map _) hdomain
    have hfd0 : Tbl.find (Tbl.upd x.w.doms x.st.dom fun k => (k.quenched (struckReady s x q.d every m).quench gone).sticky bits) 0 =
        some ((x.d.quenched (struckReady s x q.d every m).quench gone).sticky bits) := by
      rw [← hfd, hdom]
    refine ⟨_, _, (x.d.quenched (struckReady s x q.d every m).quench gone).sticky bits, _,
      hexec.trans (congrArg Host.Outcome.next ?_), hwarp, hfd0, rfl, fun k hk => quenched_qkind s x q.d m gone x.d hk,
      hfs, rfl, rfl, rfl, ?_, fun k n hd l hlane j hj => ?_, fun hz => ?_⟩
    · rw [finish_eq]
      exact endIfEmpty_found hwarp hfs hfd hsid
    · rw [hcore]
      exact landAll_written _ _ _ (writes_dest s x q.d every _ _)
    · rw [hcore]
      refine landAll_lanes _ _ (fun l hl => hc.lanes l ?_) hd hlane hj
      have hl' := mem_lanesOf.1 hl
      rw [BitVec.getLsbD_and, Bool.and_eq_true] at hl'
      exact mem_lanesOf.2 ⟨hl'.1, hl'.2.1⟩
    · show pushed qs _ = _
      rw [pushes_of_live_zero ((struckReady_live hg).trans hz), hqs hz]
      rfl

end Sys2Proof.Machine
end


section
/-! The accesses of class 2 that pass their checks (R153-R171): what each instruction asks of memory is its rule's, so one lemma about
the rule says what has issued. -/

namespace Sys2Proof.Machine

/-- A lane without a translation is a lane out of extent. -/
theorem transOf_isEmpty (s : State) (x : Who) (l : List (Nat × Nat)) : (transOf s x l).isEmpty = l.isEmpty := List.isEmpty_map

theorem anyLane_eq (x : Who) : anyLane x = 0xFFFFFFFFFFFFFFFF := rfl
theorem noAcc_eq (x : Who) : noAcc x = fun _ _ => OwnAcc.none := rfl

/-- The accesses of a rule of long latency, in order, issue with the rule's parts and zeros. -/
theorem MemRule.access_issued {q : MemRule} {s : State} {x : Who} (hc : Clear s x)
    (hm : MemOk s x (s.rcdOf x q.rcd) (q.kind (readyOf s x q.d)) q.scope (q.lanes (readyOf s x q.d)) q.off q.z)
    (la : BitVec 4) (hl : la.toNat = q.la) (rel : Bool) (zs : List (Nat × Nat × Tr) → List RegWrite)
    (hz : ∀ l, zs (transOf s x l) = q.zeros (readyOf s x q.d) l) :
    AccessIssued s x q.d q.la (q.kind (readyOf s x q.d)) q.z q.sx q.acq
      (partsOf s x (q.part (readyOf s x q.d)) (inExtent (s.rcdOf x q.rcd) (q.lanes (readyOf s x q.d)) q.off q.z))
      (q.zeros (readyOf s x q.d) (inExtent (s.rcdOf x q.rcd) (q.lanes (readyOf s x q.d)) q.off q.z))
      (memOp s x (s.rcdOf x q.rcd) (q.kind (readyOf s x q.d)) q.scope (q.lanes (readyOf s x q.d)) q.off q.z fun _ trs =>
        (readyOf s x q.d).longAccess la (q.kind (readyOf s x q.d)) q.z q.sx rel q.acq (s.rcdOf x q.rcd) trs
          (trs.map fun p => (q.part (readyOf s x q.d) p.1 p.2.1 p.2.2.paOr, p.2.2.isReplay)) (zs trs)) := by
  rw [← hl]
  exact loadOp_done hc hm la q.sx rel q.acq _ zs _ (hz _)

/-- A load, atomic, `cas` or `waita` in order issues. -/
theorem loadRule_done {i : Instr} {q : MemRule} {s : State} {x : Who} (hq : loadRule i = some q)
    (hw : ∀ f, i = .waita f → waitaOk f = true ∧ x.st.em ≠ 0) (hc : Clear s x) (ho : OperandsOk s x q.d (q.own x))
    (hm : MemOk s x (s.rcdOf x q.rcd) (q.kind (readyOf s x q.d)) q.scope (q.lanes (readyOf s x q.d)) q.off q.z) :
    ∃ t, exec i s = .next t ∧
      AccessIssued s x q.d q.la (q.kind (readyOf s x q.d)) q.z q.sx q.acq
        (partsOf s x (q.part (readyOf s x q.d)) (inExtent (s.rcdOf x q.rcd) (q.lanes (readyOf s x q.d)) q.off q.z))
        (q.zeros (readyOf s x q.d) (inExtent (s.rcdOf x q.rcd) (q.lanes (readyOf s x q.d)) q.off q.z)) t := by
  have hb := beginOp_ok ho
  have issued := MemRule.access_issued hc hm
  have hem : (readyOf s x q.d).em ≠ 0 ↔ x.st.em ≠ 0 := by rw [em_all]
  cases i <;> first | (cases hq; done) | skip
  case waita f =>
    obtain ⟨hf, he⟩ := hw f rfl
    have he' := hem.2 he
    cases hq
    refine ⟨_, issue_clear hc _, ?_⟩
    simp only at hb he'
    simp only [hf, Bool.not_true, Bool.false_eq_true, if_false, hb, if_neg he']
    refine issued f.la rfl _ _ fun l => ?_
    simp only [transOf_isEmpty]
    rfl
  all_goals
    cases hq
    simp only [noAcc_eq] at hb
    refine ⟨_, issue_clear hc _, ?_⟩
    simp only [hb]
    refine issued _ rfl _ _ fun l => ?_
    exact zeros_eq ..

/-- A store of a strand that does not replay, in order, issues. -/
theorem storeRule_done {i : Instr} {q : MemRule} {s : State} {x : Who} (hq : storeRule i = some q) (hr : x.replaying = false)
    (hc : Clear s x) (ho : OperandsOk s x q.d (q.own x) (q.only x))
    (hm : MemOk s x (s.rcdOf x q.rcd) (q.kind (readyOf s x q.d (q.only x))) q.scope (q.lanes (readyOf s x q.d (q.only x))) q.off q.z) :
    ∃ t, exec i s = .next t ∧
      StoreIssued s x q.d q.z (partsOf s x (q.part (readyOf s x q.d (q.only x)))
        (inExtent (s.rcdOf x q.rcd) (q.lanes (readyOf s x q.d (q.only x))) q.off q.z)) t := by
  have hb := beginOp_ok ho
  have hrep := noReplay hm
  cases i <;> first | (cases hq; done) | skip
  all_goals
    cases hq
    simp only [noAcc_eq, anyLane_eq] at hb hm hrep ⊢
    refine ⟨_, issue_clear hc _, ?_⟩
    simp only [hr, Bool.false_eq_true, if_false, hb]
    rw [memOp_ok hm]
    exact storeAccess_done hc _ _ _ _ _ _ _ hrep

/-- Settles O9: the rules of loads and of stores issue their requests. -/
theorem accessesIssue : Obligations.AccessesIssue :=
  ⟨fun _ _ _ _ hq hw hc ho hm => loadRule_done hq hw hc ho hm, fun _ _ _ _ hq hr hc ho hm => storeRule_done hq hr hc ho hm⟩

end Sys2Proof.Machine
end


section
/-! The events of memory that are due (R23, R147, R157, R158, R165, R171). -/

namespace Sys2Proof.Machine

section
variable {s : State} {id : Nat} {w : Walk} (hw : Tbl.find s.walks id = some w)
  (hr : (((s.walks.filter fun p => dieOf p.2.core == dieOf w.core && p.2.ended.isNone).map Prod.fst).take 256).contains id = true)
  (ho : s.isOut w.ctx = false)
include hw hr ho

/-- A walk that its die runs, and that finds a page, ends with the page's translation (R157). -/
theorem pageWalk_translates (h : (s.tlbHit w.core w.ctx w.va).isSome = true ∨ ∀ c d, s.walk w.ctx w.va ≠ .bad c d) :
    exec (.pageWalk id) s = .next ((({ s with walks := Tbl.del s.walks id } : State).fillTlb w.core w.ctx w.va).walkDone w.agent) := by
  simp only [exec, execPageWalk, hw]
  rw [if_neg (by simp only [hr, ho]; decide)]
  split
  next c d hnone hbad =>
    rcases h with h | h
    · rw [hnone] at h
      cases h
    · exact absurd hbad (h c d)
  next => rfl

/-- A walk that its die runs, and that finds no page, ends with the cause that it found. -/
theorem pageWalk_fails {c d : Nat} (hn : s.tlbHit w.core w.ctx w.va = none) (hb : s.walk w.ctx w.va = .bad c d) :
    exec (.pageWalk id) s = .next (s.endWalk id w (c, d)) := by
  simp only [exec, execPageWalk, hw]
  rw [if_neg (by simp only [hr, ho]; decide)]
  simp only [hn, hb]

end

/-- A watchdog of a strand that has waited at a queue for its time (R23, R147). -/
theorem queueWaitWatchdog_traps {s : State} {w i : Nat} {x : Who} {t : Nat} (hx : s.strandAt w i = some x)
    (hp : x.st.parked = some (.queue, t)) (ht : t + 2 ^ 20 ≤ s.time) (ha : s.strandAwake x = true) :
    exec (.queueWaitWatchdog (.strand w i)) s =
      .next (s.trapAt w i { cause := 0x2D, lanes := x.st.em, atHeader := x.st.clause.isNone }) := by
  have hd : ¬(s.time < t + 2 ^ 20 ∨ ¬s.strandAwake x = true) := by
    simpa [ha] using ht
  simp only [exec, execQueueWaitWatchdog, hx, hp, if_neg hd]

/-- Settles O16, event by event. -/
theorem memoryEventsHappen : Obligations.MemoryEventsHappen := by
  intro s
  refine ⟨fun id a ha hk hd => ?_, fun id w hw hr ho => ⟨pageWalk_translates hw hr ho, fun c d hn hb => ?_⟩,
    fun id w hw he hs ho => ?_, fun a w h => ?_, fun w i x t hx hp ht ha => queueWaitWatchdog_traps hx hp ht ha⟩
  · simp only [exec, execStoreAcknowledged, ha, hk, hd, and_self, if_true]
  · exact pageWalk_fails hw hr ho hn hb
  · have hdue : ¬(w.ended.isSome = true ∨ s.time < w.since + 70000 ∨ s.isOut w.ctx = true) := by
      simp [he, ho, hs]
    simp only [exec, execWalkTimeout, hw, if_neg hdue]
    rfl
  · simp only [exec, execWaitaTimeout]
    split
    next hnone => cases hnone.symm.trans h
    next v hv =>
      cases hv.symm.trans h
      rfl

end Sys2Proof.Machine
end


section
/-! The rows that every class 4 instruction checks, in their order (R30, R143, R198, R319). -/

namespace Sys2Proof.Machine

theorem badSync_iff (p : Nat) : badSync p = true ↔ p % 2 = 1 ∨ 46 < p := decide_eq_true_iff

/-- SYNC names a pair, and its status and result scalars belong to no other pair in use. -/
structure PairOk (s : State) (i : Iss) (h : EHdr) (writes : List Nat) : Prop where
  even : h.sync.toNat % 2 = 0
  low : h.sync.toNat ≤ 46
  free : ∀ k ∈ h.stat.val :: writes, s.scalarBusy i.wid i.dn k = true → k = h.sync.toNat ∨ k = h.sync.toNat + 1

section
variable {s : State} {i : Iss} {h : EHdr} {reads writes : List Nat}

theorem engPre_badSync (hp : h.sync.toNat % 2 = 1 ∨ 46 < h.sync.toNat) : s.engPre i h reads writes = some { cause := 0x2E } := by
  simp only [State.engPre, (badSync_iff _).2 hp, if_true]

theorem badSync_false (h1 : h.sync.toNat % 2 = 0) (h2 : h.sync.toNat ≤ 46) : badSync h.sync.toNat = false := by
  rw [← Bool.not_eq_true, badSync_iff]
  omega

theorem engPre_busy (h1 : h.sync.toNat % 2 = 0) (h2 : h.sync.toNat ≤ 46)
    (hb : ∃ k ∈ h.stat.val :: writes, s.scalarBusy i.wid i.dn k = true ∧ k ≠ h.sync.toNat ∧ k ≠ h.sync.toNat + 1) :
    s.engPre i h reads writes = some { cause := 0x2E, detail := 3 } := by
  have hany : ((h.stat.val :: writes).any fun k => s.scalarBusy i.wid i.dn k && !(k == h.sync.toNat || k == h.sync.toNat + 1)) = true := by
    obtain ⟨k, hk, hb, hn, hn'⟩ := hb
    exact List.any_eq_true.2 ⟨k, hk, by simp [hb, hn, hn']⟩
  simp only [State.engPre, badSync_false h1 h2, Bool.false_eq_true, if_false, hany, if_true]

/-- Behind the pair the marks of the scalars that are read decide. -/
theorem engPre_of_pair (hp : PairOk s i h writes) : s.engPre i h reads writes =
    (((reads.filter fun k => decide (k < 48)).map i.d.scal).find? fun a => (s.core i.core).mark a != 0).map fun a =>
      { cause := 0x50, addr := a, detail := (s.core i.core).mark a } := by
  have hany : ((h.stat.val :: writes).any fun k => s.scalarBusy i.wid i.dn k && !(k == h.sync.toNat || k == h.sync.toNat + 1)) = false := by
    rw [List.any_eq_false]
    intro k hk
    cases hb : s.scalarBusy i.wid i.dn k
    · simp
    · rcases hp.free k hk hb with rfl | rfl <;> simp
  simp only [State.engPre, badSync_false hp.even hp.low, hany, Bool.false_eq_true, if_false]

theorem engPre_marked (hp : PairOk s i h writes) {k : Nat} {pre post : List Nat}
    (e : (reads.filter fun k => decide (k < 48)) = pre ++ k :: post) (hpre : ∀ j ∈ pre, (s.core i.core).mark (i.d.scal j) = 0)
    (hk : (s.core i.core).mark (i.d.scal k) ≠ 0) :
    s.engPre i h reads writes = some { cause := 0x50, addr := i.d.scal k, detail := (s.core i.core).mark (i.d.scal k) } := by
  have hf : ((reads.filter fun k => decide (k < 48)).map i.d.scal).find? (fun a => (s.core i.core).mark a != 0) = some (i.d.scal k) := by
    rw [List.find?_eq_some_iff_append]
    refine ⟨by simpa using hk, pre.map i.d.scal, post.map i.d.scal, by rw [e, List.map_append, List.map_cons], fun a ha => ?_⟩
    obtain ⟨j, hj, rfl⟩ := List.mem_map.1 ha
    simp [hpre j hj]
  rw [engPre_of_pair hp, hf]
  rfl

theorem engPre_clean (hp : PairOk s i h writes) (hc : ∀ k ∈ reads, k < 48 → (s.core i.core).mark (i.d.scal k) = 0) :
    s.engPre i h reads writes = none := by
  have hf : ((reads.filter fun k => decide (k < 48)).map i.d.scal).find? (fun a => (s.core i.core).mark a != 0) = none := by
    rw [List.find?_eq_none]
    intro a ha
    obtain ⟨k, hk, rfl⟩ := List.mem_map.1 ha
    obtain ⟨hk, hl⟩ := List.mem_filter.1 hk
    simp [hc k hk (of_decide_eq_true hl)]
  rw [engPre_of_pair hp, hf]
  rfl

end

section
variable {s : State} {i : Iss} {h : EHdr} {e : Nat} {c : EngChk}

theorem engFirst_field (hf : c.field = true) : s.engFirst i h e c = some { cause := e, detail := 1 } := by
  simp only [State.engFirst, hf, if_true]

theorem engFirst_status (hf : c.field = false) (hs : h.stat.val = h.sync.toNat ∨ h.stat.val = h.sync.toNat + 1) :
    s.engFirst i h e c = some { cause := e, detail := 2 } := by
  simp only [State.engFirst, hf, Bool.false_eq_true, if_false, if_pos hs]

/-- The first bad record of a list. -/
theorem badRec_split {l pre post : List (Nat × AccKind)} {r : Nat} {k : AccKind} (hl : l = pre ++ (r, k) :: post)
    (hpre : ∀ q ∈ pre, (s.ircd i q.1).wf = true ∧ q.2.lacks (s.ircd i q.1) = none) :
    s.badRec i e l = s.badRec i e ((r, k) :: post) := by
  have hn := badRec_ok e hpre
  unfold State.badRec at hn ⊢
  rw [hl, List.findSome?_append, hn, Option.none_or]

theorem badRec_wf {r : Nat} {k : AccKind} {post : List (Nat × AccKind)} (hw : (s.ircd i r).wf = false) :
    s.badRec i e ((r, k) :: post) = some { cause := e, detail := 0x140, addr := r } := by
  simp [State.badRec, hw]

theorem badRec_right {r : Nat} {k : AccKind} {post : List (Nat × AccKind)} (hw : (s.ircd i r).wf = true)
    (hk : k.lacks (s.ircd i r) ≠ none) : s.badRec i e ((r, k) :: post) = some { cause := e, detail := 0x144, addr := r } := by
  simp [State.badRec, hw, Option.isSome_iff_ne_none, hk]

section
variable (hf : c.field = false) (hs : ¬(h.stat.val = h.sync.toNat ∨ h.stat.val = h.sync.toNat + 1))
include hf hs

theorem engFirst_record {t : Trap} (hr : s.badRec i e c.recs = some t) : s.engFirst i h e c = some t := by
  simp only [State.engFirst, hf, Bool.false_eq_true, if_false, if_neg hs, hr]

variable (hr : ∀ q ∈ c.recs, (s.ircd i q.1).wf = true ∧ q.2.lacks (s.ircd i q.1) = none)
include hr

theorem engFirst_tile {n : Nat} {pre post : List Nat} (hl : c.tiles = pre ++ n :: post)
    (hpre : ∀ j ∈ pre, (s.itile i j).isSome = true) (hn : s.itile i n = none) :
    s.engFirst i h e c = some { cause := 0x29, addr := n } := by
  have ht : (c.tiles.find? fun t => (s.itile i t).isNone) = some n := by
    rw [List.find?_eq_some_iff_append]
    exact ⟨by simp [hn], pre, post, hl, fun a ha => by simpa [Option.isSome_iff_ne_none] using hpre a ha⟩
  simp only [State.engFirst, hf, Bool.false_eq_true, if_false, if_neg hs, badRec_ok e hr, ht]

variable (ht : ∀ n ∈ c.tiles, (s.itile i n).isSome = true)
include ht

/-- Behind the tiles the granules decide. -/
theorem engFirst_granules : s.engFirst i h e c =
    if (c.land ++ c.srcs).any fun g => !((s.core i.core).gran g).own then some { cause := e, detail := 3 }
    else if c.land.any fun g => s.infElsewhere i.core g i.wid i.dn h.sync.toNat then some { cause := e, detail := 4 }
    else none := by
  have hn : (c.tiles.find? fun t => (s.itile i t).isNone) = none := by
    rw [List.find?_eq_none]
    intro t h
    simpa [Option.isSome_iff_ne_none] using ht t h
  simp only [State.engFirst, hf, Bool.false_eq_true, if_false, if_neg hs, badRec_ok e hr, hn]

theorem engFirst_given (hg : ∃ g ∈ c.land ++ c.srcs, ((s.core i.core).gran g).own = false) :
    s.engFirst i h e c = some { cause := e, detail := 3 } := by
  rw [engFirst_granules hf hs hr ht, if_pos]
  obtain ⟨g, hg, ho⟩ := hg
  exact List.any_eq_true.2 ⟨g, hg, by simp [ho]⟩

theorem engFirst_inFlight (hg : ∀ g ∈ c.land ++ c.srcs, ((s.core i.core).gran g).own = true)
    (hi : ∃ g ∈ c.land, s.infElsewhere i.core g i.wid i.dn h.sync.toNat = true) :
    s.engFirst i h e c = some { cause := e, detail := 4 } := by
  have hown : ¬((c.land ++ c.srcs).any fun g => !((s.core i.core).gran g).own) = true := by
    rw [List.any_eq_true]
    rintro ⟨g, hgm, ho⟩
    simp [hg g hgm] at ho
  rw [engFirst_granules hf hs hr ht, if_neg hown, if_pos]
  exact List.any_eq_true.2 hi

end
end

/-- The first common row that fails is the instruction's trap. -/
theorem firstRow_traps {i : Instr} {h : EHdr} {b : EngBody} {s : State} {x : Who} {t : Trap} (e : engInstr i = some (h, b)) (hc : Clear s x)
    (q : FirstRow s x.iss h (engReads s x.iss b) (engBase b) (engChk s x.iss b) t (engWrites b)) :
    exec i s = .next (s.trapAt x.wid x.sid { t with lanes := x.st.em }) := by
  rw [exec_eng e hc, admitBody_trap q]
  rfl

/-- Settles O25: row after row, each behind those before it. -/
theorem engineCommandTraps : Obligations.EngineCommandTraps := by
  intro i h b s x p c e hc hp hchk
  subst hp hchk
  have stops {t : Trap} : FirstRow s x.iss h (engReads s x.iss b) (engBase b) (engChk s x.iss b) t (engWrites b) →
      exec i s = .next (s.trapAt x.wid x.sid { t with lanes := x.st.em }) := firstRow_traps e hc
  refine ⟨fun hp => stops (.inl (engPre_badSync hp)), fun h1 h2 hb => stops (.inl (engPre_busy h1 h2 hb)), fun h1 h2 hb => ?_⟩
  have hpair : PairOk s x.iss h (engWrites b) := ⟨h1, h2, hb⟩
  refine ⟨fun k pre post hl hpre hk => stops (.inl (engPre_marked hpair hl hpre hk)), fun hclean => ?_⟩
  have hpre := engPre_clean hpair hclean
  refine ⟨fun hf => stops (.inr ⟨hpre, engFirst_field hf⟩), fun hf hs => stops (.inr ⟨hpre, engFirst_status hf hs⟩), fun hf hs hs' => ?_⟩
  have hstat : ¬(h.stat.val = h.sync.toNat ∨ h.stat.val = h.sync.toNat + 1) := not_or.2 ⟨hs, hs'⟩
  refine ⟨fun r k pre post hl hq => ⟨fun hw => ?_, fun hw hk => ?_⟩,
    fun hr => ⟨fun n pre post hl hq hn => ?_, fun ht => ⟨fun hg => ?_, fun hg hi => ?_⟩⟩⟩
  · exact stops (.inr ⟨hpre, engFirst_record hf hstat ((badRec_split hl hq).trans (badRec_wf hw))⟩)
  · exact stops (.inr ⟨hpre, engFirst_record hf hstat ((badRec_split hl hq).trans (badRec_right hw hk))⟩)
  · exact stops (.inr ⟨hpre, engFirst_tile hf hstat hr hl hq hn⟩)
  · exact stops (.inr ⟨hpre, engFirst_given hf hstat hr ht hg⟩)
  · exact stops (.inr ⟨hpre, engFirst_inFlight hf hstat hr ht hg hi⟩)

end Sys2Proof.Machine
end


section
/-! `csrrd`, `csrwr`, `tlbinv` and `drain` (R16, R326-R328). -/

namespace Sys2Proof.Machine

/-- An instruction without operands has them in order. -/
theorem operandsOk_none (s : State) (x : Who) : OperandsOk s x { srcs := [] } where
  dirs := by simp [queueFault]
  busy := rfl
  room := by simp [queueWait, popCount]
  supply := fun _ _ _ => by simp [popCount]
  release := fun h => absurd h Bool.false_ne_true
  codes := fun _ => rfl
  fence := by simp [Ready.fencedOff, Ready.touched, OwnAcc.none]
  lane := fun l _ =>
    { index := rfl
      reads := fun w h => absurd h List.not_mem_nil
      writes := fun w h => absurd h List.not_mem_nil
      clean := fun w h => absurd h List.not_mem_nil }
  same := fun _ => rfl

/-- A CSR that some level may write is one of the domain's own, or one of the two of its context. -/
theorem csrWriteLevel_cases {n : Nat} (h : csrWriteLevel n ≠ 2) :
    (n = 0x000 ∨ n = 0x01A ∨ n = 0x022 ∨ (0x008 ≤ n ∧ n ≤ 0x00D) ∨ (0x010 ≤ n ∧ n ≤ 0x012)) ∨ n = 0x023 ∨ n = 0x024 := by
  refine Decidable.byContradiction fun hn => h ?_
  unfold csrWriteLevel
  rw [if_neg (by omega), if_neg (by omega)]

/-- A written CSR of a domain is read back; TLANES holds W bits (R16). -/
theorem csrRead_write {t : State} {y : Who} {c : Csrs} {n width : Nat} {v : Dword} (h : y.d.csrs = c.write n v width)
    (hn : n = 0x000 ∨ n = 0x01A ∨ n = 0x022 ∨ (0x008 ≤ n ∧ n ≤ 0x00D) ∨ (0x010 ≤ n ∧ n ≤ 0x012)) :
    t.csrRead y n = some (if n = 0x00A then v &&& fullMask width else v) := by
  have cases : n = 0x000 ∨ n = 0x01A ∨ n = 0x022 ∨ n = 0x008 ∨ n = 0x009 ∨ n = 0x00A ∨ n = 0x00B ∨ n = 0x00C ∨ n = 0x00D ∨
      n = 0x010 ∨ n = 0x011 ∨ n = 0x012 := by omega
  rcases cases with rfl | rfl | rfl | rfl | rfl | rfl | rfl | rfl | rfl | rfl | rfl | rfl <;> simp only [State.csrRead, h, Csrs.write] <;> rfl

/-- The CSRs of a context (R161). -/
theorem csrRead_pfth (t : State) (y : Who) {k : Context} (h : Tbl.find t.ctxs y.d.ctx = some k) :
    t.csrRead y 0x023 = some (BitVec.ofNat 64 k.pfth) ∧ t.csrRead y 0x024 = some (BitVec.ofNat 64 k.pfbs) := by
  simp only [State.csrRead, h]
  exact ⟨rfl, rfl⟩

/-- The domain of a strand that has moved on. -/
theorem who_skip {u : State} {x y : Who} {w : Warp} {e : Dom} (hy : (u.skip x).who = some y) (hcur : u.cur = .strand x.wid x.sid)
    (hw : Tbl.find u.warps x.wid = some w) (hst : Tbl.find w.strands x.sid = some x.st) (hd : Tbl.find w.doms x.st.dom = some e) :
    y.d = e := by
  obtain ⟨ycur, -, -, yw, yst, yd⟩ := who_spec hy
  have hwarp : Tbl.find (u.skip x).warps x.wid = some (w.updStrand x.sid fun st => st.advance 1) := by
    show Tbl.find (Tbl.upd u.warps x.wid _) x.wid = _
    rw [Tbl.find_upd, if_pos rfl, hw]
    rfl
  have hcur' : Agent.strand x.wid x.sid = .strand y.wid y.sid := hcur.symm.trans ycur
  injection hcur' with hwid hsid
  rw [← hwid, hwarp] at yw
  rw [← hsid, ← Option.some.inj yw, Warp.updStrand, Tbl.find_upd, if_pos rfl, hst] at yst
  have hdom : y.st.dom = x.st.dom := by
    rw [← Option.some.inj yst]
    rfl
  rw [hdom, ← Option.some.inj yw] at yd
  exact Option.some.inj (yd.symm.trans hd)

/-- A CSR that is written is read back by the strand that goes on (R326). -/
theorem csrRead_csrWrite {u : State} {x y : Who} {w : Warp} {n : Nat} {v : Dword} (hcur : u.cur = .strand x.wid x.sid)
    (hw : Tbl.find u.warps x.wid = some w) (hst : Tbl.find w.strands x.sid = some x.st) (hd : Tbl.find w.doms x.st.dom = some x.d)
    (hn : csrWriteLevel n ≠ 2) (hc : n = 0x023 ∨ n = 0x024 → (Tbl.find u.ctxs x.d.ctx).isSome = true)
    (hy : ((u.csrWrite x n v).skip x).who = some y) :
    ((u.csrWrite x n v).skip x).csrRead y n = some (if n = 0x00A then v &&& fullMask x.width else v) := by
  rcases csrWriteLevel_cases hn with hn | hn
  · have e : u.csrWrite x n v = u.updDom x.wid x.st.dom fun d => { d with csrs := d.csrs.write n v x.width } := by
      unfold State.csrWrite
      split
      · omega
      · omega
      · rfl
    rw [e] at hy ⊢
    have hd' : y.d = { x.d with csrs := x.d.csrs.write n v x.width } := by
      refine who_skip (w := w.updDom x.st.dom fun d => { d with csrs := d.csrs.write n v x.width }) hy hcur ?_ hst ?_
      · show Tbl.find (Tbl.upd u.warps x.wid _) x.wid = _
        rw [Tbl.find_upd, if_pos rfl, hw]
        rfl
      · rw [Warp.updDom, Tbl.find_upd, if_pos rfl, hd]
        rfl
    exact csrRead_write (c := x.d.csrs) (by rw [hd']) hn
  · obtain ⟨k, hk⟩ := Option.isSome_iff_exists.1 (hc hn)
    have found (f : Context → Context) : Tbl.find ((u.updCtx x.d.ctx f).skip x).ctxs x.d.ctx = some (f k) := by
      show Tbl.find (Tbl.upd u.ctxs x.d.ctx f) x.d.ctx = _
      rw [Tbl.find_upd, if_pos rfl, hk]
      rfl
    rcases hn with rfl | rfl
    · have hd' : y.d = x.d := who_skip hy hcur hw hst hd
      refine (csrRead_pfth _ y (k := { k with pfth := v.toNat }) ?_).1.trans (by simp)
      rw [hd']
      exact found _
    · have hd' : y.d = x.d := who_skip hy hcur hw hst hd
      refine (csrRead_pfth _ y (k := { k with pfbs := v.toNat }) ?_).2.trans (by simp)
      rw [hd']
      exact found _

section
variable {s : State} {x : Who} (hc : Clear s x)
include hc

theorem csrrd_completes {f : CsrF} {v : Dword} (hv : s.csrRead x f.csr.toNat = some v)
    (ho : OperandsOk s x { srcs := [], dst := some (.s f.k, 2) }) :
    ∃ t, exec (.csrrd f) s = .next t ∧ Finished s x { srcs := [], dst := some (.s f.k, 2) } every x.st.em
      (fun _ => [v.extractLsb' 0 32, v.extractLsb' 32 32]) 0 t := by
  refine ⟨_, issue_clear hc _, ?_⟩
  simp only [hv, beginOp_ok ho, em_all]
  exact finish_done hc _ _ _ _ _ hc.lanes

theorem csrwr_completes {f : CsrF} (hr : (s.csrRead x f.csr.toNat).isSome = true) (hl : csrWriteLevel f.csr.toNat ≠ 2)
    (hp : csrWriteLevel f.csr.toNat = 1 → x.st.level ≠ 0) (ho : OperandsOk s x { srcs := [(.s f.k, 2)] })
    (hv : csrValueOk f.csr.toNat (s.pair x.core x.d f.k.val) = true) :
    exec (.csrwr f) s =
      .next (((readyOf s x { srcs := [(.s f.k, 2)] }).commit.csrWrite x f.csr.toNat (s.pair x.core x.d f.k.val)).skip x) := by
  refine (issue_clear hc _).trans ?_
  have hnone : ¬(s.csrRead x f.csr.toNat).isNone = true := by simp [← Option.not_isSome, hr]
  have hpriv : ¬(csrWriteLevel f.csr.toNat = 1 ∧ x.st.level = 0) := fun h => hp h.1 h.2
  simp only [if_neg hnone, if_neg hpriv, if_neg hl, beginOp_ok ho, hv, Bool.not_true, Bool.false_eq_true, if_false]

end

/-- How far a `drain` waits (R328): to the next command, or to where it began to wait. -/
def drainUpto (s : State) (x : Who) : Nat :=
  match x.st.parked with
  | some (.drain n, _) => n
  | _ => s.nextId

theorem drainUpto_eq {s : State} {x : Who} {n : Nat} (h1 : ∀ m t, x.st.parked = some (.drain m, t) → n = m)
    (h2 : (∀ m t, x.st.parked ≠ some (.drain m, t)) → n = s.nextId) : drainUpto s x = n := by
  unfold drainUpto
  split
  next m t hp => exact (h1 m t hp).symm
  next hp => exact (h2 hp).symm

/-- What a `drain` waits for (R328). -/
def drained (f : DrainF) (s : State) (x : Who) (n : Nat) : Prop :=
  (f.ld = true → s.loadsDone x = true) ∧ (f.st = true → s.settled x.agent = true) ∧
    (f.eng = true → ∀ p ∈ s.cmds, p.1 < n → p.2.fe = false → p.2.wid ≠ x.wid)

theorem drained_iff (f : DrainF) (s : State) (x : Who) (n : Nat) : drained f s x n ↔
    ((f.ld && !s.loadsDone x) || (f.st && !s.settled x.agent) ||
      (f.eng && s.cmds.any fun p => p.2.wid == x.wid && !p.2.fe && decide (p.1 < n))) = false := by
  have hany : (s.cmds.any fun p => p.2.wid == x.wid && !p.2.fe && decide (p.1 < n)) = false ↔
      ∀ p ∈ s.cmds, p.1 < n → p.2.fe = false → p.2.wid ≠ x.wid := by
    rw [List.any_eq_false]
    refine forall₂_congr fun p _ => ?_
    simp only [Bool.and_eq_true, beq_iff_eq, Bool.not_eq_true', decide_eq_true_eq]
    exact ⟨fun h hn hf hw => h ⟨⟨hw, hf⟩, hn⟩, fun h ⟨⟨hw, hf⟩, hn⟩ => h hn hf hw⟩
  rw [drained, ← hany]
  simp only [Bool.or_eq_false_iff, Bool.and_eq_false_imp, Bool.not_eq_false', and_assoc]

/-- A `drain` moves on once what it names is over. -/
theorem drain_waits {s : State} {x : Who} (hc : Clear s x) (f : DrainF) :
    (drained f s x (drainUpto s x) → exec (.drain f) s = .next (s.skip x)) ∧
    (¬drained f s x (drainUpto s x) → exec (.drain f) s = .next (s.park x.wid x.sid (.drain (drainUpto s x)))) := by
  have e := issue_clear hc fun x => if (f.ld && !s.loadsDone x) || (f.st && !s.settled x.agent) ||
      (f.eng && s.cmds.any fun p => p.2.wid == x.wid && !p.2.fe && decide (p.1 < drainUpto s x)) then
    s.park x.wid x.sid (.drain (drainUpto s x)) else s.skip x
  rw [drained_iff]
  refine ⟨fun h => ?_, fun h => ?_⟩
  · rw [h] at e
    exact e
  · rw [Bool.not_eq_false] at h
    rw [h] at e
    exact e

/-- Settles O35, instruction by instruction. -/
theorem systemCompletes : Obligations.SystemCompletes := by
  intro s x hc
  obtain ⟨hcur, -, -, hw, hst, hd⟩ := who_spec hc.who
  refine ⟨fun f v hv ho => csrrd_completes hc hv ho, fun f v hr hl hp ho hv hok => ?_, fun hl => ⟨?_, fun k ho => ?_⟩,
    fun f n h1 h2 => ⟨fun hld hstore heng => ?_, fun h => ?_⟩⟩
  · subst hv
    refine ⟨_, rfl, csrwr_completes hc hr hl hp ho hok, fun y hy hctx => ?_⟩
    obtain ⟨W, e, -, hW⟩ := commit_popped hw { srcs := [(.s f.k, 2)] } every
    rw [e] at hy ⊢
    exact csrRead_csrWrite hcur hW hst hd hl hctx hy
  · refine (issue_clear hc _).trans ?_
    simp only [if_neg hl, Option.toList_none, List.map_nil, beginOp_ok (operandsOk_none s x)]
  · refine (issue_clear hc _).trans ?_
    simp only [if_neg hl, Option.toList_some, List.map_cons, List.map_nil, beginOp_ok ho]
  · obtain rfl := drainUpto_eq h1 h2
    exact (drain_waits hc f).1 ⟨hld, hstore, heng⟩
  · obtain rfl := drainUpto_eq h1 h2
    refine (drain_waits hc f).2 ?_
    rintro ⟨hld, hstore, heng⟩
    rcases h with ⟨e, h⟩ | ⟨e, h⟩ | ⟨e, p, hp, hn, hf, hw⟩
    · simp [hld e] at h
    · simp [hstore e] at h
    · exact heng e p hp hn hf hw

end Sys2Proof.Machine
end


section
/-! A step at which the agenda names whose turn it is (R20-R22, R37, R163). -/

namespace Sys2Proof.Machine

/-- What a step makes of a turn: the machine rests, or an instruction runs. -/
def Todo.outcome : Todo → Out
  | .rest t => .next t
  | .run i t => exec i t

theorem step_eq (s : State) : step s = s.passTime.plan.outcome := rfl

section
variable {s u : State} {a : Agent} {rest : List Turn} (ha : s.agenda = .issue a :: rest)
  (hu : u = { s.passTime with agenda := rest, cur := a })
include ha hu

/-- A turn that the agenda gives to an agent. -/
theorem step_issue : step s = (match u.who, u.whoFe with
    | some x, _ =>
      if u.mayIssue x then u.strandTurn x
      else .rest (u.openRung x.w.crew fun r => !r.fe && r.warp == x.wid && r.sid == x.sid)
    | none, some (cid, k, f) => if u.feMayIssue k f then u.fetchFe cid k f else .rest (u.openRung cid fun r => r.fe)
    | none, none => .rest u : Todo).outcome := by
  have hp : s.passTime.agenda = .issue a :: rest := ha
  subst hu
  rw [step_eq, State.plan]
  simp only [hp] <;> rfl

/-- A strand that may issue and traps at nothing fetches. -/
theorem step_strand {x : Who} (hx : u.who = some x) (hm : u.mayIssue x = true) (ht : x.st.trapping = none) :
    step s = (u.fetchStrand x).outcome := by
  rw [step_issue ha hu]
  simp only [hx, hm, if_true, State.strandTurn, ht]

/-- A front-end context that may issue fetches. -/
theorem step_fe {cid : Nat} {k : Crew} {f : FrontEnd} (hx : u.who = none) (hf : u.whoFe = some (cid, k, f))
    (hm : u.feMayIssue k f = true) : step s = (u.fetchFe cid k f).outcome := by
  rw [step_issue ha hu]
  simp only [hx, hf, hm, if_true]

end

/-- An event that the agenda names happens, when it is no instruction. -/
theorem step_occur {s : State} {i : Instr} {rest : List Turn} (ha : s.agenda = .occur i :: rest) (hc : Codec.classOf i = none)
    (hh : ∀ h, i ≠ .clauseHeader h) (hw : ∀ w, i ≠ .illegalOpcode w) : step s = exec i { s.passTime with agenda := rest } := by
  have hp : s.passTime.agenda = .occur i :: rest := ha
  rw [step_eq, State.plan]
  -- `hh` and `hw` rule out the arms of the two instructions that have no class.
  simp only [hp, hc] <;> rfl

/-- A trap at the issue of a strand that is clear. -/
theorem issueTrap_clear {s : State} {x : Who} (hc : Clear s x) (cause : Nat) : s.issueTrap cause = s.trap x cause := by
  simp only [State.issueTrap, issue_clear hc]

/-- Settles O55: what the agent whose turn it is fetches, case by case of what it finds there. -/
theorem stepRunsDecoded : Obligations.StepRunsDecoded := by
  refine ⟨fun s u a rest ha hu => ⟨fun x hx hm ht => ⟨fun c i hc hd => ?_, fun c e hc hclear hd => ?_, fun w i hc hs hj hw hd => ?_⟩,
    fun cid k f hx hf hm => ⟨fun c i hc hd => ?_, fun w i hc hw hd => ?_⟩⟩, fun s i rest ha hc hh hw => step_occur ha hc hh hw⟩
  · rw [step_strand ha hu hx hm ht]
    simp only [State.fetchStrand, hc, Strand.decoded, hd, Todo.outcome]
  · rw [step_strand ha hu hx hm ht]
    simp only [State.fetchStrand, hc, Strand.decoded, hd, Todo.outcome, issueTrap_clear hclear]
    rfl
  · rw [step_strand ha hu hx hm ht]
    simp only [State.fetchStrand, hc, if_neg hs, hj, hw, hd, Todo.outcome]
  · rw [step_fe ha hu hx hf hm]
    simp only [State.fetchFe, hc, hd, Todo.outcome]
  · rw [step_fe ha hu hx hf hm]
    simp only [State.fetchFe, hc, hw, hd, Todo.outcome]

end Sys2Proof.Machine
end


section
/-! Words that decode, and words that are refused (R20-R22, R30, R38-R41). -/

namespace Sys2Proof.Codec

theorem isControl_iff (op : Nat) : isControl op = true ↔ 0x1F0 ≤ op ∧ op ≤ 0x1F7 := by
  simp only [isControl, Bool.and_eq_true, decide_eq_true_eq]

theorem isControl_false {op : Nat} (h : op < 0x1F0 ∨ 0x1F7 < op) : isControl op = false := by
  rw [← Bool.not_eq_true, isControl_iff]
  omega

/-- Control opcodes stand in every class. -/
theorem allocated_of_isControl (cls : Fin 8) {op : Nat} (h : isControl op = true) : allocated cls op = true := by
  rw [allocated, h, Bool.true_or]

/-- A control instruction ends its clause (R38). -/
theorem decodeWord_controlNotLast (cls : Fin 8) {left : Nat} {w : Unit64} (v : Unit64) (h : isControl (opcode w) = true) (hl : left ≠ 0) :
    decodeWord cls left w v = .error .controlNotLast := by
  simp only [decodeWord, allocated_of_isControl cls h, h, if_true]
  exact if_pos ((Bool.true_and _).trans (bne_iff_ne.2 hl))

/-- A class 4 instruction takes two words of its clause (R30). -/
theorem decodeWord_crosses {w : Unit64} (v : Unit64) (h : opcode w < 0x010) : decodeWord 4 0 w v = .error .crosses := by
  have hc : isControl (opcode w) = false := isControl_false (.inl (Nat.lt_trans h (by decide)))
  have ha : allocated 4 (opcode w) = true := by
    show (isControl (opcode w) || decide (opcode w < 0x010)) = true
    rw [hc, Bool.false_or]
    exact decide_eq_true h
  have ht : twoUnits 4 (opcode w) = true := by
    rw [twoUnits, hc]
    rfl
  simp only [decodeWord, ha, hc, ht, Bool.false_and, Bool.true_and, Bool.false_eq_true, beq_self_eq_true, if_false, if_true]

/-- An opcode that the class does not allocate is the illegal one (R39). -/
theorem decodeWord_illegal {cls : Fin 8} {w : Unit64} (left : Nat) (v : Unit64) (h : allocated cls (opcode w) = false) :
    decodeWord cls left w v = .ok (.illegalOpcode w) := by
  simp only [decodeWord, h, Bool.false_eq_true, if_false]

/-- Where the opcodes of a class end, but for the control ones. -/
def opcodeEnd : Fin 8 → Nat
  | 0 => 0x88
  | 1 => 0x0B
  | 2 => 0x0B
  | 3 => 0x14
  | 4 => 0x10
  | 5 => 0x0D
  | 6 => 0x09
  | 7 => 0x14

theorem opcodeEnd_le (cls : Fin 8) : opcodeEnd cls ≤ 0x88 := by
  revert cls
  decide

/-- An opcode is in no range that ends at or below it. -/
theorem not_in_range {op n : Nat} (hc : isControl op = false) (h : n ≤ op) : (isControl op || decide (op < n)) = false := by
  rw [hc, Bool.false_or]
  exact decide_eq_false (Nat.not_lt.2 h)

/-- Behind the end of a class no opcode but the control ones is allocated. -/
theorem not_allocated (cls : Fin 8) {op : Nat} (hc : isControl op = false) (h : opcodeEnd cls ≤ op) : allocated cls op = false :=
  match cls, h with
  | 0, h => by
    have h : 0x88 ≤ op := h
    show (isControl op || (decide (op < 0x029) || (decide (0x040 ≤ op) && decide (op < 0x04C)) || (decide (0x050 ≤ op) && decide (op < 0x059)) ||
      (decide (0x060 ≤ op) && decide (op < 0x063)) || (decide (0x070 ≤ op) && decide (op < 0x076)) ||
      (decide (0x080 ≤ op) && decide (op < 0x088)))) = false
    simp only [hc, Bool.false_or, Bool.or_eq_false_iff, Bool.and_eq_false_iff, decide_eq_false_iff_not]
    omega
  | 1, h => not_in_range hc h
  | 2, h => not_in_range hc h
  | 3, h => not_in_range hc h
  | 4, h => not_in_range hc h
  | 5, h => not_in_range hc h
  | 6, h => not_in_range hc h
  | 7, h => not_in_range hc h

/-- The opcodes past the control ones. -/
theorem not_allocated_above (cls : Fin 8) {op : Nat} (h : 0x1F8 ≤ op) : allocated cls op = false :=
  not_allocated cls (isControl_false (.inr h)) (Nat.le_trans (opcodeEnd_le cls) (Nat.le_trans (by decide) h))

/-- The opcodes between those of a class and the control ones. -/
theorem not_allocated_between {cls : Fin 8} {op : Nat} (h : op < 0x1F0) (hop : opcodeEnd cls ≤ op) : allocated cls op = false :=
  not_allocated cls (isControl_false (.inl h)) hop

/-- The error of a word that the decoder refuses. -/
def refusedAs (r : Except DecodeError Instr) (e : DecodeError) : Bool :=
  match r with
  | .error e' => decide (e' = e)
  | .ok _ => false

theorem eq_error_of_refusedAs {r : Except DecodeError Instr} {e : DecodeError} (h : refusedAs r e = true) : r = .error e := by
  cases r with
  | error e' => exact congrArg Except.error (of_decide_eq_true h)
  | ok i => exact absurd h Bool.false_ne_true

end Sys2Proof.Codec

namespace Sys2Proof.Machine

/-- Settles O57: the words one by one, and the three kinds of refusal. -/
theorem decodedWords : Obligations.DecodedWords := by
  refine ⟨?_, ?_, ?_, ?_, ?_, ?_, ?_, ?_, ?_, ?_, ?_, ?_, ?_, Codec.eq_error_of_refusedAs ?_, Codec.eq_error_of_refusedAs ?_,
    Codec.eq_error_of_refusedAs ?_, Codec.eq_error_of_refusedAs ?_, Codec.eq_error_of_refusedAs ?_, fun cls left w v => ?refused⟩
  case refused =>
    refine ⟨fun h1 h2 hl => Codec.decodeWord_controlNotLast cls v ((Codec.isControl_iff _).2 ⟨h1, h2⟩) hl,
      fun h => Codec.decodeWord_crosses v h, fun h => Codec.decodeWord_illegal _ _ ?_⟩
    rcases h with h | ⟨ho, h, rfl | rfl⟩ | ⟨ho, h, rfl | rfl⟩ | ⟨ho, h, rfl⟩ | ⟨ho, h, rfl⟩ | ⟨ho, h, rfl⟩ | ⟨ho, h, rfl⟩
    · exact Codec.not_allocated_above cls h
    all_goals exact Codec.not_allocated_between h ho
  all_goals decide +kernel

end Sys2Proof.Machine
end


section
/-! What reset and a launch leave (R12, R311, R374, R376). -/

namespace Sys2Proof.Machine

/-- The device after reset chooses power-on as its first step. -/
theorem step_reset : step State.reset = exec .powerOn State.reset.passTime := rfl

/-- After reset there is no gate table yet (log 2). -/
theorem reset_gate (g : Nat) : State.reset.gate g = 0#512 := rfl

/-- TTIME at launch: 2,000 and 200 in its two fields (R12). -/
theorem ttimeReset_eq : ttimeReset = 0x07D000C8 := by decide

/-- Every mask register of a fresh domain is 0. -/
theorem replicate_mask (m : MReg) : (List.replicate 8 (0 : Mask)).getD m.val 0 = 0 := by
  revert m
  decide

/-- Settles O58: what reset leaves, and the strand and the domain of a warp at its start. -/
theorem startingStates : Obligations.StartingStates := by
  refine ⟨⟨rfl, rfl, rfl, rfl, rfl, rfl, fun g => ?_, fun a => rfl, step_reset⟩, fun p crew winc cinb bins gran w hw => ?_⟩
  · rw [reset_gate, BitVec.getLsbD_zero]
  · subst hw
    exact ⟨⟨_, rfl, rfl, rfl, rfl, rfl, rfl⟩,
      _, rfl, rfl, replicate_mask, rfl, rfl, rfl, rfl, rfl, rfl, rfl, rfl, rfl, rfl, rfl, rfl, ttimeReset_eq⟩

end Sys2Proof.Machine
end


section
/-! The values of floating arithmetic (R71, R75-R80, R83, R85, R89). -/

namespace Sys2Proof.Machine

/-! ### Lengths of magnitudes -/

theorem bitLen_le_iff {n k : Nat} : bitLen n ≤ k ↔ n < 2 ^ k := by
  unfold bitLen
  split
  · next h => subst h; exact iff_of_true (Nat.zero_le _) (Nat.two_pow_pos _)
  · next h => rw [Nat.succ_le_iff, Nat.log2_lt h]

theorem lt_bitLen_iff {n k : Nat} : k < bitLen n ↔ 2 ^ k ≤ n := by
  rw [← Nat.not_le, bitLen_le_iff, Nat.not_lt]

theorem bitLen_mul_two_pow {n : Nat} (h : n ≠ 0) (d : Nat) : bitLen (n * 2 ^ d) = bitLen n + d := by
  have hup : n * 2 ^ d < 2 ^ (bitLen n + d) := by
    rw [Nat.pow_add]
    exact Nat.mul_lt_mul_of_pos_right (bitLen_le_iff.1 (Nat.le_refl _)) (Nat.two_pow_pos _)
  have hpos : 0 < bitLen n := lt_bitLen_iff.2 (Nat.pos_of_ne_zero h)
  have hlow : 2 ^ (bitLen n - 1 + d) ≤ n * 2 ^ d := by
    rw [Nat.pow_add]
    exact Nat.mul_le_mul_right _ (lt_bitLen_iff.1 (by omega))
  have hle := bitLen_le_iff.2 hup
  have hlt := lt_bitLen_iff.2 hlow
  omega

/-- A comparison of a magnitude u × 2^t with 2^(a + k), in units of the lesser of 2^t and 2^a. -/
theorem bitLen_add_le_iff {u : Nat} (hu : u ≠ 0) (t a : Int) (k : Nat) :
    (bitLen u : Int) + t ≤ a + k ↔ u * 2 ^ (t - a).toNat < 2 ^ (k + (a - t).toNat) := by
  rw [← bitLen_le_iff, bitLen_mul_two_pow hu]
  omega

/-! ### Rounding to a multiple of a power of two (R75, R76) -/

section
variable {md : Mode} {neg st : Bool} {m : Nat} {e l : Int}

/-- Where nothing lies below the place, the multiple is exact but for what follows. -/
theorem roundAt_of_le (h : l ≤ e) : roundAt md neg m e l st = (m * 2 ^ (e - l).toNat, st) := if_pos h

/-- What lies below the place is cut off, and may add one. -/
theorem roundAt_of_lt {d : Nat} (h : e < l) (hd : d = (l - e).toNat) : roundAt md neg m e l st =
    (if roundsUp md neg (m / 2 ^ d) (m % 2 ^ d) d st then m / 2 ^ d + 1 else m / 2 ^ d, decide (m % 2 ^ d ≠ 0) || st) := by
  subst hd
  exact if_neg (Int.not_le.2 h)

/-- A magnitude below 2^(l + w) has at most 2^w as its multiple of 2^l. -/
theorem roundAt_le {w : Nat} (hm : m ≠ 0) (h : (bitLen m : Int) + e ≤ l + w) : (roundAt md neg m e l st).1 ≤ 2 ^ w := by
  by_cases hl : l ≤ e
  · rw [roundAt_of_le hl]
    exact Nat.le_of_lt (bitLen_le_iff.1 (by rw [bitLen_mul_two_pow hm]; omega))
  · rw [roundAt_of_lt (Int.not_le.1 hl) rfl]
    have hq : m / 2 ^ (l - e).toNat < 2 ^ w := by
      rw [Nat.div_lt_iff_lt_mul (Nat.two_pow_pos _), ← Nat.pow_add]
      exact bitLen_le_iff.1 (by omega)
    dsimp only
    split <;> omega

/-- A magnitude of 2^(l + w) or more has at least 2^w as its multiple of 2^l. -/
theorem le_roundAt {w : Nat} (hm : m ≠ 0) (h : l + w < (bitLen m : Int) + e) : 2 ^ w ≤ (roundAt md neg m e l st).1 := by
  by_cases hl : l ≤ e
  · rw [roundAt_of_le hl]
    exact lt_bitLen_iff.1 (by rw [bitLen_mul_two_pow hm]; omega)
  · rw [roundAt_of_lt (Int.not_le.1 hl) rfl]
    have hq : 2 ^ w ≤ m / 2 ^ (l - e).toNat := by
      rw [Nat.le_div_iff_mul_le (Nat.two_pow_pos _), ← Nat.pow_add]
      exact lt_bitLen_iff.1 (by omega)
    dsimp only
    split <;> omega

end

section
variable {md : Mode} {neg st : Bool} {q r d : Nat}

/-- What is exact is not rounded up. -/
theorem roundsUp_exact (hr : r = 0) (hs : st = false) : roundsUp md neg q r d st = false := by
  simp only [roundsUp, hr, hs, decide_true, Bool.not_false, Bool.and_self, if_true]

theorem inexact_iff : (decide (r = 0) && !st) = false ↔ r ≠ 0 ∨ st = true := by
  cases st <;> simp

/-- Less than half a unit is cut off by the modes that round to nearest. -/
theorem roundsUp_below (h : md = .rne ∨ md = .rna) (hr : 2 * r < 2 ^ d) : roundsUp md neg q r d st = false := by
  rcases h with rfl | rfl <;> simp [roundsUp, Nat.ne_of_gt hr, Nat.not_lt.2 (Nat.le_of_lt hr), Nat.not_le.2 hr]

/-- More than half a unit adds one in the modes that round to nearest. -/
theorem roundsUp_above (h : md = .rne ∨ md = .rna) (hr : 2 ^ d < 2 * r) : roundsUp md neg q r d st = true := by
  have h0 : r ≠ 0 := by rintro rfl; exact absurd hr (Nat.not_lt_zero _)
  rcases h with rfl | rfl <;> simp [roundsUp, h0, hr, Nat.le_of_lt hr]

/-- Half a unit with more below it adds one as well. -/
theorem roundsUp_half_sticky (h : md = .rne ∨ md = .rna) (hr : 2 ^ d = 2 * r) : roundsUp md neg q r d true = true := by
  rcases h with rfl | rfl <;> simp [roundsUp, hr]

/-- Half a unit goes to the even multiple under RNE. -/
theorem roundsUp_half_rne (hr : 2 ^ d = 2 * r) : roundsUp .rne neg q r d false = (q % 2 == 1) := by
  have h0 : r ≠ 0 := by rintro rfl; exact Nat.ne_of_gt (Nat.two_pow_pos d) hr
  simp [roundsUp, h0, hr]

/-- Half a unit goes away from zero under RNA. -/
theorem roundsUp_half_rna (hr : 2 ^ d = 2 * r) : roundsUp .rna neg q r d false = true := by
  have h0 : r ≠ 0 := by rintro rfl; exact Nat.ne_of_gt (Nat.two_pow_pos d) hr
  simp [roundsUp, h0, hr]

theorem roundsUp_rtz : roundsUp .rtz neg q r d st = false := ite_self _

section
variable (h : r ≠ 0 ∨ st = true)
include h

theorem roundsUp_rdn : roundsUp .rdn neg q r d st = neg := by simp [roundsUp, inexact_iff.2 h]
theorem roundsUp_rup : roundsUp .rup neg q r d st = !neg := by simp [roundsUp, inexact_iff.2 h]
theorem roundsUp_rs (n z : Nat) : roundsUp (.rs n z) neg q r d st = decide (z < r * 2 ^ n / 2 ^ d) := by
  simp [roundsUp, inexact_iff.2 h]

end
end

/-- A magnitude with bits below the place is rounded as its mode says (R75, R76). -/
theorem roundAt_below {md : Mode} {neg st : Bool} {m d k r : Nat} {e l : Int} {p : Nat × Bool} (hp : p = roundAt md neg m e l st)
    (hl : e < l) (hd : d = (l - e).toNat) (hk : k = m / 2 ^ d) (hr : r = m % 2 ^ d) :
    (p.2 = true ↔ r ≠ 0 ∨ st = true) ∧ (r = 0 → st = false → p.1 = k) ∧ (p.1 = k ∨ p.1 = k + 1) ∧
    ((md = .rne ∨ md = .rna) →
      (2 * r < 2 ^ d → p.1 = k) ∧ (2 ^ d < 2 * r → p.1 = k + 1) ∧ (2 ^ d = 2 * r → st = true → p.1 = k + 1)) ∧
    (2 ^ d = 2 * r → st = false → (md = .rne → p.1 % 2 = 0) ∧ (md = .rna → p.1 = k + 1)) ∧
    ((r ≠ 0 ∨ st = true) → (md = .rtz → p.1 = k) ∧ (md = .rdn → p.1 = if neg then k + 1 else k) ∧
      (md = .rup → p.1 = if neg then k else k + 1) ∧ ∀ n z, md = .rs n z → p.1 = if z < r * 2 ^ n / 2 ^ d then k + 1 else k) := by
  rw [roundAt_of_lt hl hd, ← hk, ← hr] at hp
  subst hp
  refine ⟨by simp, fun h0 hs => by simp [roundsUp_exact h0 hs], by split <;> simp, fun hn => ⟨fun h => ?_, fun h => ?_, ?_⟩,
    fun h hs => ⟨?_, ?_⟩, fun h => ⟨?_, ?_, ?_, ?_⟩⟩
  · simp [roundsUp_below hn h]
  · simp [roundsUp_above hn h]
  · rintro h rfl
    simp [roundsUp_half_sticky hn h]
  · rintro rfl
    simp only [hs, roundsUp_half_rne h, beq_iff_eq]
    split <;> omega
  · rintro rfl
    simp [hs, roundsUp_half_rna h]
  · rintro rfl
    simp [roundsUp_rtz]
  · rintro rfl
    simp only [roundsUp_rdn h]
  · rintro rfl
    simp only [roundsUp_rup h]
    cases neg <;> rfl
  · rintro n z rfl
    simp only [roundsUp_rs h, decide_eq_true_eq]

/-! ### The codes of the formats with infinities and NaNs (R70) -/

/-- A format with infinities and NaNs at the top exponent, of the size of FP32 at most. -/
structure FFmt.Ieee (f : FFmt) : Prop where
  sp : f.sp = .ieee
  two_le_eb : 2 ≤ f.eb
  one_le_mb : 1 ≤ f.mb
  mb_le : f.mb ≤ 23

theorem FFmt.Ieee.of_mem {f : FFmt} (h : f ∈ [f32, f16, bf16]) : f.Ieee := by
  simp only [List.mem_cons, List.not_mem_nil, or_false] at h
  rcases h with rfl | rfl | rfl <;> exact ⟨rfl, by decide, by decide, by decide⟩

/-- The significand of a finite code lies in its units of 2^emin, or in the units of the place that its exponent gives. -/
theorem FFmt.magOf_subnormal (f : FFmt) {q : Nat} (h : q < 2 ^ f.mb) : f.magOf q = (q, f.emin) := by
  simp only [FFmt.magOf, Nat.div_eq_of_lt h, Nat.mod_eq_of_lt h, if_true]

theorem FFmt.magOf_normal (f : FFmt) {j q : Nat} (h : 2 ^ f.mb ≤ q) (h' : q < 2 ^ (f.mb + 1)) :
    f.magOf (j * 2 ^ f.mb + q) = (q, f.emin + j) := by
  obtain ⟨r, rfl⟩ := Nat.exists_eq_add_of_le h
  have hr : r < 2 ^ f.mb := by rw [Nat.pow_succ] at h'; omega
  have hc : j * 2 ^ f.mb + (2 ^ f.mb + r) = r + (j + 1) * 2 ^ f.mb := by rw [Nat.succ_mul]; omega
  have hdiv : (r + (j + 1) * 2 ^ f.mb) / 2 ^ f.mb = j + 1 := by
    rw [Nat.add_mul_div_right _ _ (Nat.two_pow_pos _), Nat.div_eq_of_lt hr, Nat.zero_add]
  simp only [FFmt.magOf, hc, hdiv, Nat.add_mul_mod_self_right, Nat.mod_eq_of_lt hr, Nat.add_one_ne_zero, if_false,
    Nat.add_sub_cancel]
  rw [Nat.add_comm r]

/-- The sign and the magnitude of a code. -/
theorem FFmt.signed_code (f : FFmt) (neg : Bool) {c : Nat} (hc : c < f.signBit) :
    decide (f.signBit ≤ (zeroCode f neg + c) % (2 * f.signBit)) = neg ∧ (zeroCode f neg + c) % f.signBit = c := by
  cases neg
  · have h2 : c < 2 * f.signBit := by omega
    simp [zeroCode, Nat.mod_eq_of_lt hc, Nat.mod_eq_of_lt h2, hc]
  · have h2 : f.signBit + c < 2 * f.signBit := by omega
    simp [zeroCode, Nat.mod_eq_of_lt hc, Nat.mod_eq_of_lt h2]

section
variable {f : FFmt} (hf : f.Ieee)
include hf

theorem FFmt.Ieee.infCode_eq : f.infCode = (2 ^ f.eb - 1) * 2 ^ f.mb := by
  simp only [FFmt.infCode, hf.sp]

theorem FFmt.Ieee.four_le : 4 ≤ 2 ^ f.eb := Nat.pow_le_pow_right (n := 2) (by decide) hf.two_le_eb

/-- The codes from that of the infinity on are no magnitudes. -/
theorem FFmt.Ieee.maxCode_lt_iff {c : Nat} : f.maxCode < c ↔ f.infCode ≤ c := by
  have hpos : 0 < (2 ^ f.eb - 1) * 2 ^ f.mb := Nat.mul_pos (by have := hf.four_le; omega) (Nat.two_pow_pos _)
  simp only [FFmt.maxCode, hf.infCode_eq, hf.sp]
  omega

theorem FFmt.Ieee.infCode_lt_signBit : f.infCode < f.signBit := by
  rw [hf.infCode_eq, FFmt.signBit, Nat.pow_add]
  exact Nat.mul_lt_mul_of_pos_right (Nat.sub_lt (Nat.two_pow_pos _) Nat.one_pos) (Nat.two_pow_pos _)

/-- A code below that of the infinity stands for a number. -/
theorem fdec_num (neg : Bool) {c : Nat} (hc : c < f.infCode) :
    fdec f (zeroCode f neg + c) = .num neg (f.magOf c).1 (f.magOf c).2 := by
  obtain ⟨hs, hm⟩ := f.signed_code neg (Nat.lt_trans hc hf.infCode_lt_signBit)
  have he : c / 2 ^ f.mb ≠ 2 ^ f.eb - 1 := by
    rw [hf.infCode_eq] at hc
    exact Nat.ne_of_lt (Nat.div_lt_of_lt_mul (by rwa [Nat.mul_comm]))
  simp only [fdec, hf.sp, hs, hm, if_neg he]

theorem fdec_infCode (neg : Bool) : fdec f (zeroCode f neg + f.infCode) = .inf neg := by
  obtain ⟨hs, hm⟩ := f.signed_code neg hf.infCode_lt_signBit
  have he : f.infCode / 2 ^ f.mb = 2 ^ f.eb - 1 := by rw [hf.infCode_eq, Nat.mul_div_cancel _ (Nat.two_pow_pos _)]
  have h0 : f.infCode % 2 ^ f.mb = 0 := by rw [hf.infCode_eq, Nat.mul_mod_left]
  simp only [fdec, hf.sp, hs, hm, he, h0, if_true]

end

/-! ### Rounding to a format (R75-R78) -/

section
variable {f : FFmt} {j q : Nat} (hq : q ≤ 2 ^ (f.mb + 1)) (hj : j ≠ 0 → 2 ^ f.mb ≤ q)
include hq hj

/-- A rounded magnitude q × 2^j is subnormal or normal; one that was rounded up to the next power of two has the code and the value of
the normal one there. -/
theorem FFmt.code_cases : (j = 0 ∧ q < 2 ^ f.mb) ∨ ∃ j' q', 2 ^ f.mb ≤ q' ∧ q' < 2 ^ (f.mb + 1) ∧
    j * 2 ^ f.mb + q = j' * 2 ^ f.mb + q' ∧ q * 2 ^ j = q' * 2 ^ j' := by
  have h2 : 2 ^ (f.mb + 1) = 2 * 2 ^ f.mb := Nat.pow_succ'
  have hp := Nat.two_pow_pos f.mb
  rcases Nat.lt_or_ge q (2 ^ f.mb) with h | h
  · exact .inl ⟨Decidable.byContradiction fun h0 => absurd (hj h0) (Nat.not_le.2 h), h⟩
  · right
    rcases Nat.lt_or_eq_of_le hq with h' | rfl
    · exact ⟨j, q, h, h', rfl, rfl⟩
    · exact ⟨j + 1, 2 ^ f.mb, Nat.le_refl _, by omega, by rw [Nat.succ_mul]; omega, by rw [h2, Nat.pow_succ, Nat.mul_comm 2, Nat.mul_assoc, Nat.mul_comm 2]⟩

/-- The code of a rounded magnitude stands for it. -/
theorem FFmt.magOf_code : ∃ (c : Nat) (i : Int), f.magOf (j * 2 ^ f.mb + q) = (c, i) ∧ f.emin ≤ i ∧
    c * 2 ^ (i - f.emin).toNat = q * 2 ^ j := by
  rcases FFmt.code_cases hq hj with ⟨rfl, h⟩ | ⟨j', q', h, h', hc, hv⟩
  · refine ⟨q, f.emin, ?_, Int.le_refl _, by rw [Int.sub_self, Int.toNat_zero]⟩
    rw [Nat.zero_mul, Nat.zero_add, f.magOf_subnormal h]
  · refine ⟨q', f.emin + j', by rw [hc, f.magOf_normal h h'], by omega, ?_⟩
    rw [hv, show (f.emin + j' - f.emin).toNat = j' by omega]

/-- The code of a rounded magnitude is beyond the finite ones where the magnitude is beyond the largest finite one. -/
theorem FFmt.Ieee.infCode_le_iff (hf : f.Ieee) :
    f.infCode ≤ j * 2 ^ f.mb + q ↔ (2 ^ (f.mb + 1) - 1) * 2 ^ (2 ^ f.eb - 3) < q * 2 ^ j := by
  have h2 : 2 ^ (f.mb + 1) = 2 * 2 ^ f.mb := Nat.pow_succ'
  have hp := Nat.two_pow_pos f.mb
  obtain ⟨k, hk⟩ := Nat.exists_eq_add_of_le' (Nat.le_trans (show 3 ≤ 4 by decide) hf.four_le)
  rw [hf.infCode_eq, hk, Nat.add_sub_cancel, show k + 3 - 1 = k + 2 by omega]
  rcases FFmt.code_cases hq hj with ⟨rfl, h⟩ | ⟨j', q', h, h', hc, hv⟩
  · have hcode : 2 ^ f.mb ≤ (k + 2) * 2 ^ f.mb := Nat.le_mul_of_pos_left _ (by omega)
    have hval : 2 ^ (f.mb + 1) - 1 ≤ (2 ^ (f.mb + 1) - 1) * 2 ^ k := Nat.le_mul_of_pos_right _ (Nat.two_pow_pos _)
    omega
  · rw [hc, hv]
    rcases (Nat.lt_or_ge k j').symm with hle | hgt
    · have hcode : (j' + 2) * 2 ^ f.mb ≤ (k + 2) * 2 ^ f.mb := Nat.mul_le_mul_right _ (by omega)
      have hval : q' * 2 ^ j' ≤ (2 ^ (f.mb + 1) - 1) * 2 ^ k :=
        Nat.mul_le_mul (by omega) (Nat.pow_le_pow_right Nat.two_pos hle)
      have hadd : (j' + 2) * 2 ^ f.mb = j' * 2 ^ f.mb + 2 * 2 ^ f.mb := Nat.add_mul ..
      exact iff_of_false (by omega) (by omega)
    · have hcode : (k + 2) * 2 ^ f.mb ≤ (j' + 1) * 2 ^ f.mb := Nat.mul_le_mul_right _ (by omega)
      have hadd : (j' + 1) * 2 ^ f.mb = j' * 2 ^ f.mb + 2 ^ f.mb := Nat.succ_mul ..
      have hval : (2 ^ (f.mb + 1) - 1) * 2 ^ k < q' * 2 ^ j' := calc
        (2 ^ (f.mb + 1) - 1) * 2 ^ k < 2 ^ (f.mb + 1) * 2 ^ k := Nat.mul_lt_mul_of_pos_right (by omega) (Nat.two_pow_pos _)
        _ = 2 ^ f.mb * 2 ^ (k + 1) := by rw [Nat.pow_succ, Nat.pow_succ', Nat.mul_assoc]
        _ ≤ q' * 2 ^ j' := Nat.mul_le_mul h (Nat.pow_le_pow_right Nat.two_pos hgt)
      exact iff_of_true (by omega) hval

end

/-- The largest finite magnitude. -/
theorem FFmt.Ieee.magOf_maxCode {f : FFmt} (hf : f.Ieee) :
    f.magOf f.maxCode = (2 ^ (f.mb + 1) - 1, f.emin + (2 ^ f.eb - 3 : Nat)) := by
  have h2 : 2 ^ (f.mb + 1) = 2 * 2 ^ f.mb := Nat.pow_succ'
  have hp := Nat.two_pow_pos f.mb
  obtain ⟨k, hk⟩ := Nat.exists_eq_add_of_le' (Nat.le_trans (show 3 ≤ 4 by decide) hf.four_le)
  have hc : f.maxCode = k * 2 ^ f.mb + (2 ^ (f.mb + 1) - 1) := by
    have hadd : (k + 2) * 2 ^ f.mb = k * 2 ^ f.mb + 2 * 2 ^ f.mb := Nat.add_mul ..
    simp only [FFmt.maxCode, hf.sp, hk, show k + 3 - 1 = k + 2 by omega]
    omega
  rw [hc, hk, Nat.add_sub_cancel]
  exact f.magOf_normal (by omega) (by omega)

section
variable {f : FFmt} (hf : f.Ieee) {md : Mode} {neg sat : Bool}
include hf

/-- The overflow result is the largest finite number where it is clamped or the mode rounds towards zero on its side (R77). -/
theorem fdec_overflow_toMax (h : sat = true ∨ md = .rtz ∨ (md = .rdn ∧ neg = false) ∨ (md = .rup ∧ neg = true)) :
    fdec f (overflowRes f md neg sat).val = .num neg (2 ^ (f.mb + 1) - 1) (f.emin + (2 ^ f.eb - 3 : Nat)) := by
  have hval : (overflowRes f md neg sat).val = zeroCode f neg + f.maxCode := by
    rcases h with rfl | rfl | ⟨rfl, rfl⟩ | ⟨rfl, rfl⟩ <;> simp [overflowRes, zeroCode]
  rw [hval, fdec_num hf neg (hf.maxCode_lt_iff.2 (Nat.le_refl _)), hf.magOf_maxCode]

/-- In the other cases it is the infinity. -/
theorem fdec_overflow_toInf (hs : sat = false) (hz : md ≠ .rtz) (hd : ¬ (md = .rdn ∧ neg = false)) (hu : ¬ (md = .rup ∧ neg = true)) :
    fdec f (overflowRes f md neg sat).val = .inf neg := by
  have hval : (overflowRes f md neg sat).val = zeroCode f neg + f.infCode := by
    subst hs
    cases md with
    | rtz => exact absurd rfl hz
    | rdn =>
      have hn : neg = true := (Bool.eq_false_or_eq_true neg).resolve_right fun hn => hd ⟨rfl, hn⟩
      simp [overflowRes, zeroCode, hf.sp, hn]
    | rup =>
      have hn : neg = false := (Bool.eq_false_or_eq_true neg).resolve_left fun hn => hu ⟨rfl, hn⟩
      simp [overflowRes, zeroCode, hf.sp, hn]
    | rne | rna | rs k z => simp [overflowRes, zeroCode, hf.sp]
  rw [hval, fdec_infCode hf]

end

theorem overflowRes_flags (f : FFmt) (md : Mode) (neg sat : Bool) : (overflowRes f md neg sat).flags = 4 + 16 := rfl

/-- A magnitude is rounded at the place of its format, and the code of what results is either finite or overflows. -/
theorem fround_eq {f : FFmt} {md : Mode} {neg st : Bool} {m : Nat} {e t l : Int} {p u : Nat × Bool}
    (ht : t = (bitLen m : Int) + e - (f.mb + 1)) (hl : l = max f.emin t)
    (hp : p = roundAt md neg m e l st) (hu : u = roundAt md neg m e t st) (sat : Bool) : fround f md sat neg m e st =
    if f.maxCode < (l - f.emin).toNat * 2 ^ f.mb + p.1 then overflowRes f md neg sat
    else ⟨zeroCode f neg + ((l - f.emin).toNat * 2 ^ f.mb + p.1),
      if p.2 then fNX + (if decide ((bitLen u.1 : Int) + t ≤ 1 - (f.bias : Int)) then fUF else 0) else 0⟩ := by
  subst ht hl hp hu
  rfl

section
variable {f : FFmt} {md : Mode} {neg st : Bool} {m : Nat} {e t l : Int} {p : Nat × Bool} (hm : m ≠ 0)
  (ht : t = (bitLen m : Int) + e - (f.mb + 1)) (hl : l = max f.emin t) (hp : p = roundAt md neg m e l st)

include hm ht

/-- A result is tiny where it is below the least normal number when rounded without a bound of the exponent (R78). -/
theorem tiny_iff {u : Nat × Bool} (hu : u = roundAt md neg m e t st) : ((bitLen u.1 : Int) + t ≤ 1 - (f.bias : Int)) ↔
    u.1 * 2 ^ (t - f.emin).toNat < 2 ^ (f.mb + (f.emin - t).toNat) := by
  have hu0 : 2 ^ f.mb ≤ u.1 := by
    subst hu
    exact le_roundAt hm (by omega)
  rw [← bitLen_add_le_iff (Nat.ne_of_gt (Nat.lt_of_lt_of_le (Nat.two_pow_pos _) hu0)), FFmt.emin]
  omega

include hl hp

/-- A rounded magnitude has no more bits than the format, and no fewer above the place of the subnormal ones. -/
theorem fround_multiple_le : p.1 ≤ 2 ^ (f.mb + 1) := by
  subst hp
  exact roundAt_le hm (by omega)

theorem le_fround_multiple (hj : (l - f.emin).toNat ≠ 0) : 2 ^ f.mb ≤ p.1 := by
  subst hp
  exact le_roundAt hm (by omega)

/-- A result beyond the largest finite one overflows (R77). -/
theorem fround_overflow (hf : f.Ieee) (h : (2 ^ (f.mb + 1) - 1) * 2 ^ (2 ^ f.eb - 3) < p.1 * 2 ^ (l - f.emin).toNat) (sat : Bool) :
    fround f md sat neg m e st = overflowRes f md neg sat := by
  rw [fround_eq ht hl hp rfl, if_pos]
  rw [hf.maxCode_lt_iff, hf.infCode_le_iff (fround_multiple_le hm ht hl hp) (le_fround_multiple hm ht hl hp)]
  exact h

/-- Another result is the number that its code stands for, with its flags (R77, R78, R80). -/
theorem fround_finite (hf : f.Ieee) {u : Nat × Bool} (hu : u = roundAt md neg m e t st)
    (h : p.1 * 2 ^ (l - f.emin).toNat ≤ (2 ^ (f.mb + 1) - 1) * 2 ^ (2 ^ f.eb - 3)) (sat : Bool) :
    (∃ (c : Nat) (i : Int), fdec f (fround f md sat neg m e st).val = .num neg c i ∧ f.emin ≤ i ∧
      c * 2 ^ (i - f.emin).toNat = p.1 * 2 ^ (l - f.emin).toNat) ∧
    (fround f md sat neg m e st).flags =
      if p.2 then 16 + (if u.1 * 2 ^ (t - f.emin).toNat < 2 ^ (f.mb + (f.emin - t).toNat) then 8 else 0) else 0 := by
  have hq := fround_multiple_le hm ht hl hp
  have hj := le_fround_multiple hm ht hl hp
  have hc := mt (hf.infCode_le_iff hq hj).1 (Nat.not_lt.2 h)
  rw [fround_eq ht hl hp hu, if_neg (mt hf.maxCode_lt_iff.1 hc)]
  refine ⟨?_, ?_⟩
  · obtain ⟨c, i, hmag, hi, hv⟩ := FFmt.magOf_code hq hj
    exact ⟨c, i, by rw [fdec_num hf neg (Nat.not_le.1 hc), hmag], hi, hv⟩
  · simp only [tiny_iff hm ht hu, decide_eq_true_eq, fNX, fUF]

end

/-! ### NaNs and invalid operations (R79, R80) -/

theorem isSnan_of_not_isNan {a : FVal} (h : a.isNan = false) : a.isSnan = false := by
  cases a with
  | nan n fr s => cases h
  | inf n => rfl
  | num n m e => rfl

/-- The first NaN is the result, quieted. -/
theorem nanOf_nan (f : FFmt) (n sig : Bool) (fr : Nat) (xs : List FVal) :
    nanOf f (.nan n fr sig :: xs) = some ⟨nanCode f n fr, if sig || xs.any FVal.isSnan then 1 else 0⟩ := rfl

/-- What is no NaN before it does not matter. -/
theorem nanOf_cons {a : FVal} (h : a.isNan = false) (f : FFmt) (xs : List FVal) : nanOf f (a :: xs) = nanOf f xs := by
  simp only [nanOf, List.find?_cons, h, List.any_cons, isSnan_of_not_isNan h, Bool.false_or]

section
variable {f : FFmt} {md : Mode} {a b c : FVal} {r : FRes}

theorem faddV_of_nan (h : nanOf f [a, b] = some r) : faddV f md a b = r := by simp only [faddV, h]
theorem fmulV_of_nan (h : nanOf f [a, b] = some r) : fmulV f md a b = r := by simp only [fmulV, h]
theorem fdivV_of_nan (h : nanOf f [a, b] = some r) : fdivV f a b = r := by simp only [fdivV, h]
theorem fmaV_of_nan (h : nanOf f [a, b, c] = some r) : (fmaV f md a b c).val = r.val := by simp only [fmaV, h]

/-- A product of infinity and zero is invalid, whatever is added. -/
theorem fmaV_of_bad (ha : a.isNan = false) (hb : b.isNan = false) (hm : mulExact a b = none) : (fmaV f md a b c).flags = 1 := by
  unfold fmaV
  split
  · simp [ha, hb, hm, fIV]
  · simp only [hm, invalid, fIV]

end

/-- Setting the bit above a number adds it; setting the top bit of a number changes nothing. -/
theorem or_two_pow_eq {m k : Nat} (h : m < 2 ^ (k + 1)) : m ||| 2 ^ k = if m < 2 ^ k then m + 2 ^ k else m := by
  have hset {r : Nat} (hr : r < 2 ^ k) : 2 ^ k + r = 2 ^ k ||| r := by
    rw [← Nat.mul_one (2 ^ k)]
    exact Nat.two_pow_add_eq_or_of_lt hr 1
  split
  · next hm => rw [Nat.add_comm, hset hm, Nat.or_comm]
  · next hm =>
    obtain ⟨r, rfl⟩ := Nat.exists_eq_add_of_le (Nat.not_lt.1 hm)
    rw [hset (by rw [Nat.pow_succ] at h; omega), Nat.or_comm, ← Nat.or_assoc, Nat.or_self]

/-- The payload is cut from the low end, and its top bit set. -/
theorem nanCode_eq {f : FFmt} (hf : f.Ieee) (n : Bool) {fr : Nat} (h : fr < 2 ^ 23) : nanCode f n fr =
    (if n then 2 ^ (f.eb + f.mb) else 0) + (2 ^ f.eb - 1) * 2 ^ f.mb + ((fr / 2 ^ (23 - f.mb)) ||| 2 ^ (f.mb - 1)) := by
  have hm : fr / 2 ^ (23 - f.mb) < 2 ^ (f.mb - 1 + 1) := by
    rw [Nat.div_lt_iff_lt_mul (Nat.two_pow_pos _), Nat.sub_add_cancel hf.one_le_mb, ← Nat.pow_add, Nat.add_sub_cancel' hf.mb_le]
    exact h
  simp only [nanCode, hf.sp, hf.infCode_eq, or_two_pow_eq hm, FFmt.signBit, Nat.add_assoc]

/-! ### Sums, products and comparisons of numbers (R83, R85) -/

section
variable {n1 n2 : Bool} {m1 m2 : Nat} {e1 e2 e x y : Int}

theorem atExp_eq_zero_iff (n : Bool) (m : Nat) (e e0 : Int) : atExp n m e e0 = 0 ↔ m = 0 := by
  have hz : m * 2 ^ (e - e0).toNat = 0 ↔ m = 0 :=
    ⟨fun h => (Nat.mul_eq_zero.1 h).resolve_right (Nat.ne_of_gt (Nat.two_pow_pos _)), fun h => by rw [h, Nat.zero_mul]⟩
  rw [← hz]
  cases n
  · exact Int.natCast_eq_zero
  · exact Int.neg_eq_zero.trans Int.natCast_eq_zero

/-- No number is a NaN. -/
theorem nanOf_one_num (f : FFmt) : nanOf f [.num n1 m1 e1] = none := rfl
theorem nanOf_num (f : FFmt) : nanOf f [.num n1 m1 e1, .num n2 m2 e2] = none := rfl

/-- A sum of numbers is rounded once. -/
theorem faddV_num (f : FFmt) (md : Mode) : faddV f md (.num n1 m1 e1) (.num n2 m2 e2) =
    froundNum f md false (addExact md n1 m1 e1 n2 m2 e2).1 (addExact md n1 m1 e1 n2 m2 e2).2.1 (addExact md n1 m1 e1 n2 m2 e2).2.2 := rfl

/-- A product is added as the exact number that it is. -/
theorem fmaV_num (f : FFmt) (md : Mode) {c : FVal} (hc : c.isNan = false) : fmaV f md (.num n1 m1 e1) (.num n2 m2 e2) c =
    faddV f md (.num (n1 != n2) (m1 * m2) (e1 + e2)) c := by
  cases c with
  | nan n fr sig => cases hc
  | inf n => rfl
  | num n m e => rfl

section
variable (he : e = min e1 e2) (hx : x = atExp n1 m1 e1 e) (hy : y = atExp n2 m2 e2 e)
include he hx hy

theorem addExact_ne_zero (md : Mode) (h : x + y ≠ 0) : addExact md n1 m1 e1 n2 m2 e2 = (decide (x + y < 0), (x + y).natAbs, e) := by
  subst hx hy he
  exact if_neg h

/-- A sum that is zero has the sign of two like zeros, else that of its mode. -/
theorem addExact_zero (md : Mode) (h : x + y = 0) :
    addExact md n1 m1 e1 n2 m2 e2 = (if x = 0 ∧ n1 = n2 then n1 else decide (md = .rdn), 0, 0) := by
  have hz : (m1 = 0 ∧ m2 = 0 ∧ n1 = n2) ↔ (x = 0 ∧ n1 = n2) := by
    rw [← atExp_eq_zero_iff n1 m1 e1 e, ← atExp_eq_zero_iff n2 m2 e2 e, ← hx, ← hy]
    exact ⟨fun ⟨h1, _, h3⟩ => ⟨h1, h3⟩, fun ⟨h1, h3⟩ => ⟨h1, by omega, h3⟩⟩
  simp only [← hz]
  subst hx hy he
  exact if_pos h

theorem fless_num : fless false (.num n1 m1 e1) (.num n2 m2 e2) = decide (x < y) ∧
    fless false (.num n2 m2 e2) (.num n1 m1 e1) = decide (y < x) := by
  subst hx hy he
  simp only [fless, Int.min_comm e2, Bool.false_and, Bool.or_false, and_self]

/-- Numbers are compared as such, and no flag is raised. -/
theorem fcmpV_num :
    fcmpV .eq (.num n1 m1 e1) (.num n2 m2 e2) = (decide (x = y), 0) ∧ fcmpV .ne (.num n1 m1 e1) (.num n2 m2 e2) = (decide (x ≠ y), 0) ∧
    fcmpV .lt (.num n1 m1 e1) (.num n2 m2 e2) = (decide (x < y), 0) ∧ fcmpV .le (.num n1 m1 e1) (.num n2 m2 e2) = (decide (x ≤ y), 0) ∧
    fcmpV .gt (.num n1 m1 e1) (.num n2 m2 e2) = (decide (x > y), 0) ∧ fcmpV .ge (.num n1 m1 e1) (.num n2 m2 e2) = (decide (x ≥ y), 0) := by
  obtain ⟨hlt, hgt⟩ := fless_num he hx hy
  clear hx hy
  simp only [fcmpV, hlt, hgt, FVal.isNan, FVal.isSnan]
  rcases Int.lt_trichotomy x y with h | h | h
  · simp [h, Int.not_lt.2 (Int.le_of_lt h), Int.ne_of_lt h, Int.le_of_lt h, Int.not_le.2 h]
  · simp [h]
  · simp [h, Int.not_lt.2 (Int.le_of_lt h), Int.ne_of_gt h, Int.le_of_lt h, Int.not_le.2 h]

end
end

/-! ### Quotients and roots (R89) -/

theorem fdivV_num (f : FFmt) (n1 n2 : Bool) {m1 m2 : Nat} (e1 e2 : Int) (h1 : m1 ≠ 0) (h2 : m2 ≠ 0) :
    fdivV f (.num n1 m1 e1) (.num n2 m2 e2) = fround f .rne false (n1 != n2) (divX (f.mb + 4) m1 e1 m2 e2).1
      (divX (f.mb + 4) m1 e1 m2 e2).2.1 (divX (f.mb + 4) m1 e1 m2 e2).2.2 := by
  simp only [fdivV, nanOf_num, if_neg h1, if_neg h2]

theorem fdivV_by_zero (f : FFmt) (n1 n2 : Bool) {m1 : Nat} (e1 e2 : Int) (h1 : m1 ≠ 0) :
    fdivV f (.num n1 m1 e1) (.num n2 0 e2) = ⟨f.infCode + zeroCode f (n1 != n2), 2⟩ := by
  simp only [fdivV, nanOf_num, if_true, if_neg h1, fDZ]

theorem fsqrtV_num (f : FFmt) {m : Nat} (e : Int) (h : m ≠ 0) : fsqrtV f (.num false m e) =
    fround f .rne false false (sqrtX (f.mb + 4) m e).1 (sqrtX (f.mb + 4) m e).2.1 (sqrtX (f.mb + 4) m e).2.2 := by
  simp only [fsqrtV, nanOf_one_num, if_neg h, Bool.false_eq_true, if_false]

theorem fsqrtV_negative (f : FFmt) {m : Nat} (e : Int) (h : m ≠ 0) : fsqrtV f (.num true m e) = invalid f := by
  simp only [fsqrtV, nanOf_one_num, if_neg h, if_true]

/-- A quotient with its sticky mark has at least as many bits as it was asked for. -/
theorem divX_spec (p m1 m2 : Nat) (e1 e2 : Int) (h1 : m1 ≠ 0) (h2 : m2 ≠ 0) : ∃ q k st, divX p m1 e1 m2 e2 = (q, e1 - e2 - (k : Nat), st) ∧
    q * m2 ≤ m1 * 2 ^ k ∧ m1 * 2 ^ k < (q + 1) * m2 ∧ (st = true ↔ q * m2 ≠ m1 * 2 ^ k) ∧ 2 ^ p ≤ q := by
  have hpos := Nat.pos_of_ne_zero h2
  refine ⟨m1 * 2 ^ (p + bitLen m2) / m2, p + bitLen m2, _, rfl, Nat.div_mul_le_self _ _, ?_, ?_, ?_⟩
  · exact Nat.lt_mul_of_div_lt (Nat.lt_succ_self _) hpos
  · rw [decide_eq_true_eq, ne_eq, ← Nat.dvd_iff_mod_eq_zero, Nat.dvd_iff_div_mul_eq]
  · rw [Nat.le_div_iff_mul_le hpos]
    calc 2 ^ p * m2 ≤ 2 ^ p * 2 ^ bitLen m2 := Nat.mul_le_mul_left _ (Nat.le_of_lt (bitLen_le_iff.1 (Nat.le_refl _)))
      _ = 2 ^ (p + bitLen m2) := (Nat.pow_add ..).symm
      _ ≤ m1 * 2 ^ (p + bitLen m2) := Nat.le_mul_of_pos_left _ (Nat.pos_of_ne_zero h1)

/-- Two bits a step give the integer square root. -/
theorem isqrt_spec {k n : Nat} (h : n < 4 ^ k) : isqrt k n * isqrt k n ≤ n ∧ n < (isqrt k n + 1) * (isqrt k n + 1) := by
  induction k generalizing n with
  | zero => rw [Nat.lt_one_iff.1 h]; decide
  | succ k ih =>
    obtain ⟨hlo, hhi⟩ := ih (n := n / 4) (by rw [Nat.pow_succ] at h; omega)
    simp only [isqrt]
    generalize isqrt k (n / 4) = a at hlo hhi ⊢
    have hsq : 2 * a * (2 * a) = 4 * (a * a) := Nat.mul_mul_mul_comm ..
    have hsq' : (2 * a + 1 + 1) * (2 * a + 1 + 1) = 4 * ((a + 1) * (a + 1)) := Nat.mul_mul_mul_comm 2 (a + 1) 2 (a + 1)
    split
    · next hr => exact ⟨hr, by rw [hsq']; omega⟩
    · next hr => exact ⟨by rw [hsq]; omega, Nat.not_le.1 hr⟩

/-- A number that is no larger than the square of another has no larger root. -/
theorem le_of_mul_self_le_lt {a r n : Nat} (ha : a * a ≤ n) (hr : n < (r + 1) * (r + 1)) : a ≤ r :=
  Nat.le_of_lt_succ (Nat.mul_self_lt_mul_self_iff.1 (Nat.lt_of_le_of_lt ha hr))

/-- A root with its sticky mark has at least as many bits as it was asked for. -/
theorem sqrtX_spec (p m : Nat) (e : Int) (h : m ≠ 0) : ∃ (q k : Nat) (st : Bool) (i : Int), sqrtX p m e = (q, i, st) ∧ 2 * i + k = e ∧
    q * q ≤ m * 2 ^ k ∧ m * 2 ^ k < (q + 1) * (q + 1) ∧ (st = true ↔ q * q ≠ m * 2 ^ k) ∧ 2 ^ p ≤ q := by
  obtain ⟨s, hs⟩ : ∃ s, s = 2 * p + (if e % 2 = 0 then 0 else 1) := ⟨_, rfl⟩
  obtain ⟨hlo, hhi⟩ := isqrt_spec (k := bitLen (m * 2 ^ s)) (n := m * 2 ^ s)
    (Nat.lt_of_lt_of_le (bitLen_le_iff.1 (Nat.le_refl _)) (Nat.pow_le_pow_left (by decide) _))
  refine ⟨_, s, _, (e - s) / 2, by simp only [sqrtX, ← hs], ?_, hlo, hhi, decide_eq_true_iff, le_of_mul_self_le_lt ?_ hhi⟩
  · split at hs <;> omega
  · rw [← Nat.pow_add]
    calc 2 ^ (p + p) ≤ 2 ^ s := Nat.pow_le_pow_right Nat.two_pos (by omega)
      _ ≤ m * 2 ^ s := Nat.le_mul_of_pos_left _ (Nat.pos_of_ne_zero h)

/-- A quotient of numbers is rounded once, from more bits than the format has. -/
theorem fdivV_rounded (f : FFmt) (n1 n2 : Bool) {m1 m2 : Nat} (e1 e2 : Int) (h1 : m1 ≠ 0) (h2 : m2 ≠ 0) : ∃ q k st,
    fdivV f (.num n1 m1 e1) (.num n2 m2 e2) = fround f .rne false (n1 != n2) q (e1 - e2 - (k : Nat)) st ∧
    q * m2 ≤ m1 * 2 ^ k ∧ m1 * 2 ^ k < (q + 1) * m2 ∧ (st = true ↔ q * m2 ≠ m1 * 2 ^ k) ∧ 2 ^ (f.mb + 3) ≤ q := by
  obtain ⟨q, k, st, hdiv, hle, hlt, hst, hq⟩ := divX_spec (f.mb + 4) m1 m2 e1 e2 h1 h2
  refine ⟨q, k, st, ?_, hle, hlt, hst, Nat.le_trans (Nat.pow_le_pow_right Nat.two_pos (by omega)) hq⟩
  rw [fdivV_num f n1 n2 e1 e2 h1 h2, hdiv]

/-- A root of a positive number is rounded once, from more bits than the format has. -/
theorem fsqrtV_rounded (f : FFmt) {m : Nat} (e : Int) (h : m ≠ 0) : ∃ (q k : Nat) (st : Bool) (i : Int),
    fsqrtV f (.num false m e) = fround f .rne false false q i st ∧ 2 * i + k = e ∧
    q * q ≤ m * 2 ^ k ∧ m * 2 ^ k < (q + 1) * (q + 1) ∧ (st = true ↔ q * q ≠ m * 2 ^ k) ∧ 2 ^ (f.mb + 3) ≤ q := by
  obtain ⟨q, k, st, i, hroot, hi, hle, hlt, hst, hq⟩ := sqrtX_spec (f.mb + 4) m e h
  refine ⟨q, k, st, i, ?_, hi, hle, hlt, hst, Nat.le_trans (Nat.pow_le_pow_right Nat.two_pos (by omega)) hq⟩
  rw [fsqrtV_num f e h, hroot]

/-! ### What floating arithmetic computes -/

/-- Settles O6: rounding by its cases, codes of rounded magnitudes, NaNs in their order, and each operation on exact numbers. -/
theorem floatingValues : Obligations.FloatingValues := by
  refine ⟨?_, ?_, ?_, ?_, by decide, ?_⟩
  · intro md neg st m d k r e l p hp
    exact ⟨fun hl => hp.trans (roundAt_of_le hl), roundAt_below hp⟩
  · intro f md sat neg st m big e t l p u hf hm ht hl hp hu hbig
    have hi := FFmt.Ieee.of_mem hf
    subst hbig
    refine ⟨fun h => fround_finite hm ht hl hp hi hu h sat, fun h => ?_⟩
    rw [fround_overflow hm ht hl hp hi h]
    exact ⟨overflowRes_flags .., fdec_overflow_toMax hi, fdec_overflow_toInf hi⟩
  · intro f md b c n sig fr hf hfr
    refine ⟨nanCode_eq (.of_mem hf) n hfr, fun a ha => ?_⟩
    subst ha
    have hab : nanOf f [.nan n fr sig, b] = some ⟨nanCode f n fr, if sig || b.isSnan then 1 else 0⟩ := by
      rw [nanOf_nan, List.any_cons, List.any_nil, Bool.or_false]
    refine ⟨faddV_of_nan hab, fmulV_of_nan hab, fmaV_of_nan (nanOf_nan ..), fdivV_of_nan hab, fun hb => ?_⟩
    have hba : nanOf f [b, .nan n fr sig] = some ⟨nanCode f n fr, if sig then 1 else 0⟩ := by
      rw [nanOf_cons hb, nanOf_nan, List.any_nil, Bool.or_false]
    refine ⟨faddV_of_nan hba, fmulV_of_nan hba, fmaV_of_nan ((nanOf_cons hb ..).trans (nanOf_nan ..)), fun hc => ?_⟩
    exact fmaV_of_nan ((nanOf_cons hb ..).trans ((nanOf_cons hc ..).trans (nanOf_nan ..)))
  · intro f md n n' e hf
    refine ⟨?_, rfl, rfl, rfl, rfl, fun c => fmaV_of_bad rfl rfl rfl, rfl⟩
    cases n <;> rfl
  · intro f md n1 n2 m1 m2 e1 e2 e x y he hx hy
    refine ⟨fun h => ?_, fun h => ?_, rfl, fun c => fmaV_num f md, fun h1 h2 => ?_, fdivV_rounded f n1 n2 e1 e2, fsqrtV_rounded f e1,
      fsqrtV_negative f e1, fcmpV_num he hx hy⟩
    · rw [faddV_num, addExact_ne_zero he hx hy md h]
    · rw [faddV_num, addExact_zero he hx hy md h]
      rfl
    · subst h2
      exact fdivV_by_zero f n1 n2 e1 e2 h1

end Sys2Proof.Machine
end


section
/-! Landings under a synchronisation pair (R141, R142). -/

namespace Sys2Proof.Machine

/-! ### Fields of a synchronisation word (R141) -/

theorem syncGen_syncWord (g t c : Nat) : syncGen (syncWord g t c) = g % 65536 := by
  have h : (syncWord g t c).extractLsb' 48 16 = BitVec.ofNat 16 g :=
    (BitVec.extractLsb'_append_eq_of_le (by decide)).trans BitVec.extractLsb'_append_eq_left
  simp only [syncGen, h, BitVec.toNat_ofNat]

theorem syncTgt_syncWord (g t c : Nat) : syncTgt (syncWord g t c) = t % 2 ^ 24 := by
  have h : (syncWord g t c).extractLsb' 24 24 = BitVec.ofNat 24 t :=
    (BitVec.extractLsb'_append_eq_of_le (by decide)).trans BitVec.extractLsb'_append_eq_right
  simp only [syncTgt, h, BitVec.toNat_ofNat]

theorem syncCnt_syncWord (g t c : Nat) : syncCnt (syncWord g t c) = c % 2 ^ 24 := by
  have h : (syncWord g t c).extractLsb' 0 24 = BitVec.ofNat 24 c := BitVec.extractLsb'_append_eq_right
  simp only [syncCnt, h, BitVec.toNat_ofNat]

theorem syncTgt_lt (p : Dword) : syncTgt p < 2 ^ 24 := BitVec.isLt _
theorem syncGen_lt (p : Dword) : syncGen p < 65536 := BitVec.isLt _

/-! ### Writing a pair (R10, R125) -/

/-- The two writes that a pair is. -/
def pairWrites (d : Dom) (k : Nat) (v : Dword) : List RegWrite :=
  [⟨d.scal k, v.extractLsb' 0 32, 0⟩, ⟨d.scal (k + 1), v.extractLsb' 32 32, 0⟩]

theorem setPair_eq_land (s : State) (core : Nat) (d : Dom) (k : Nat) (v : Dword) :
    s.setPair core d k v = s.land core (pairWrites d k v) := rfl

section
variable (s : State) (core : Nat) (d : Dom) (k : Nat) (v : Dword)

theorem core_setPair : (s.setPair core d k v).core core = (s.core core).landAll (pairWrites d k v) := by
  obtain ⟨cs, -, h, -⟩ := land_spec s core (pairWrites d k v)
  rw [setPair_eq_land, h]

theorem core_setPair_ne {c : Nat} (h : c ≠ core) : (s.setPair core d k v).core c = s.core c := by
  obtain ⟨cs, -, -, hne⟩ := land_spec s core (pairWrites d k v)
  rw [setPair_eq_land, hne c h]

/-- A pair reads what was written to it. -/
theorem pair_setPair : (s.setPair core d k v).pair core d k = v := by
  have hlo : ((s.core core).landAll (pairWrites d k v)).word (d.scal k) = v.extractLsb' 0 32 :=
    (landAll_last _ _ [] [⟨d.scal (k + 1), v.extractLsb' 32 32, 0⟩] ⟨d.scal k, _, 0⟩ rfl (by simp [Dom.scal])).1
  have hhi : ((s.core core).landAll (pairWrites d k v)).word (d.scal (k + 1)) = v.extractLsb' 32 32 :=
    (landAll_last _ _ [⟨d.scal k, v.extractLsb' 0 32, 0⟩] [] ⟨d.scal (k + 1), _, 0⟩ rfl (by simp)).1
  rw [State.pair, State.scalar, State.scalar, core_setPair, hlo, hhi]
  exact BitVec.extractLsb'_append_extractLsb'

/-- A word that lies in neither granule of a pair is as before when the pair is written. -/
theorem word_setPair {a : Nat} (h : a / 128 ≠ d.scal k / 128) (h' : a / 128 ≠ d.scal (k + 1) / 128) :
    ((s.setPair core d k v).core core).word a = (s.core core).word a := by
  have hne : ∀ w ∈ pairWrites d k v, w.addr / 128 ≠ a / 128 := by
    simp only [pairWrites, List.forall_mem_cons]
    exact ⟨h.symm, h'.symm, by simp⟩
  rw [core_setPair, (Core.landAll_other _ _ a fun w hw e => hne w hw (by rw [e])).1, if_neg]
  rintro ⟨⟨w, hw, e⟩, -⟩
  exact hne w hw e

/-- A granule that is valid and dirty stays as it is when a pair is written. -/
theorem gran_setPair_valid {g : Nat} {own inf : Bool} (h : (s.core core).gran g = ⟨own, inf, true, true⟩) :
    ((s.setPair core d k v).core core).gran g = ⟨own, inf, true, true⟩ := by
  rw [core_setPair, Core.landAll_gran, h, ite_self]

end

/-! ### Flips (R125) -/

theorem word_flip (c : Core) (l : List Nat) (a : Nat) : (c.flip l).word a = c.word a := by
  induction l generalizing c with
  | nil => rfl
  | cons g l ih => exact ih (c.setGran g _)

theorem gran_flip (c : Core) (l : List Nat) (g : Nat) :
    (c.flip l).gran g = if g ∈ l then ⟨false, false, true, true⟩ else c.gran g := by
  induction l generalizing c with
  | nil => rfl
  | cons h l ih =>
    refine (ih (c.setGran h _)).trans ?_
    rw [Core.gran_setGran]
    by_cases hl : g ∈ l
    · simp [hl]
    · simp [hl, eq_comm]

/-! ### Counting (R142) -/

/-- Whether a landing was recorded under a pair of a warp's domain. -/
def Flip.under (f : Flip) (wid dom pair : Nat) : Bool := f.wid == wid && f.dom == dom && f.pair == pair

theorem Flip.under_iff (f : Flip) (wid dom pair : Nat) : f.under wid dom pair = true ↔ f.wid = wid ∧ f.dom = dom ∧ f.pair = pair := by
  simp [Flip.under, and_assoc]

/-- The state in which the granules landed under a pair have flipped. -/
def State.flipUnder (s : State) (wid dom pair : Nat) : State :=
  ({ s with flips := s.flips.filter fun f => !f.under wid dom pair } : State).updCore (coreOf wid) fun c =>
    c.flip ((s.flips.filter fun f => f.under wid dom pair).flatMap Flip.grans)

section
variable {s : State} {wid dom pair b : Nat} {w : Warp} {d : Dom} (hw : Tbl.find s.warps wid = some w) (hd : w.dom dom = some d)
include hw hd

theorem countBytes_below (h : syncCnt (s.pair (coreOf wid) d pair) + b < syncTgt (s.pair (coreOf wid) d pair)) :
    (s.countBytes wid dom pair b).1 = s.setPair (coreOf wid) d pair (syncWord (syncGen (s.pair (coreOf wid) d pair))
      (syncTgt (s.pair (coreOf wid) d pair)) (syncCnt (s.pair (coreOf wid) d pair) + b)) := by
  simp only [State.countBytes, hw, hd, Option.bind_some, if_neg (Nat.not_le.2 h)]

theorem countBytes_reached (h : syncTgt (s.pair (coreOf wid) d pair) ≤ syncCnt (s.pair (coreOf wid) d pair) + b) :
    (s.countBytes wid dom pair b).1 = (s.flipUnder wid dom pair).setPair (coreOf wid) d pair
      (syncWord ((syncGen (s.pair (coreOf wid) d pair) + 1) % 65536) (syncTgt (s.pair (coreOf wid) d pair)) 0) := by
  simp only [State.countBytes, hw, hd, Option.bind_some, if_pos h]
  rfl

end

/-- Settles O53: below the target the pair alone is written; at it the landed granules flip first, and the pair's word after them. -/
theorem landingsCount : Obligations.LandingsCount := by
  intro s t wid dom pair b w d hw hd ht
  subst ht
  have hlt := syncTgt_lt (s.pair (coreOf wid) d pair)
  have hgen := syncGen_lt (s.pair (coreOf wid) d pair)
  rcases Nat.lt_or_ge (syncCnt (s.pair (coreOf wid) d pair) + b) (syncTgt (s.pair (coreOf wid) d pair)) with h | h
  · rw [countBytes_below hw hd h]
    refine ⟨fun _ => ?_, fun h' => absurd h (Nat.not_lt.2 h'), fun c hc => core_setPair_ne _ _ _ _ _ hc,
      fun a _ _ h1 h2 => word_setPair _ _ _ _ _ h1 h2⟩
    rw [pair_setPair, syncCnt_syncWord, syncTgt_syncWord, syncGen_syncWord, Nat.mod_eq_of_lt hlt, Nat.mod_eq_of_lt hgen,
      Nat.mod_eq_of_lt (Nat.lt_trans h hlt)]
    exact ⟨rfl, rfl, rfl, rfl⟩
  · rw [countBytes_reached hw hd h]
    refine ⟨fun h' => absurd h' (Nat.not_lt.2 h), fun _ => ?_, fun c hc => ?_, fun a _ _ h1 h2 => ?_⟩
    · rw [pair_setPair, syncCnt_syncWord, syncTgt_syncWord, syncGen_syncWord, Nat.mod_eq_of_lt hlt, Nat.mod_mod]
      refine ⟨rfl, rfl, rfl, fun f hf h1 h2 h3 g hg => ?_, fun f => ?_⟩
      · apply gran_setPair_valid
        rw [State.flipUnder, core_updCore, if_pos rfl, gran_flip, if_pos]
        exact List.mem_flatMap.2 ⟨f, List.mem_filter.2 ⟨hf, (f.under_iff ..).2 ⟨h1, h2, h3⟩⟩, hg⟩
      · show f ∈ s.flips.filter (fun f => !f.under wid dom pair) ↔ _
        rw [List.mem_filter, ← f.under_iff, Bool.not_eq_true', Bool.not_eq_true]
    · rw [core_setPair_ne _ _ _ _ _ hc, State.flipUnder, core_updCore, if_neg hc.symm]
      rfl
    · rw [word_setPair _ _ _ _ _ h1 h2, State.flipUnder, core_updCore, if_pos rfl, word_flip]
      rfl

end Sys2Proof.Machine
end


section
/-! The instructions of class 3 that read or write the words they name (R128, R130, R131, R134, R148). -/

namespace Sys2Proof.Machine

/-- A strand's domain names a tile: its own, or one that it was granted (R132, R339). -/
theorem tileAt_of_tileOf {s : State} {x : Who} {n : Fin 32} {t : Tile} (h : tileOf s x n = some t) :
    ∃ dn k, s.tileAt x.w 8 x.st.dom n.val = some (dn, k, t) := by
  simp only [tileOf, Option.map_eq_some_iff] at h
  obtain ⟨⟨dn, k, t'⟩, e, rfl⟩ := h
  exact ⟨dn, k, e⟩

/-- The meaning of an instruction that only reads: its operands, then the words of its rule. -/
theorem exec_frameRule {i : Instr} {q : LaneRule} {s : State} {x : Who} (hq : frameRule s x i = some q) (hc : Clear s x) :
    exec i s = .next ((beginOp s x q.d (q.acc x)).andThen fun r => r.finish r.em (q.res r)) := by
  cases i
  case ldx f =>
    cases hq
    exact issue_clear hc _
  case gstat f =>
    simp only [frameRule] at hq
    split at hq
    next ht =>
      obtain ⟨t, e, rfl⟩ := Option.map_eq_some_iff.1 hq
      obtain ⟨dn, k, e⟩ := tileAt_of_tileOf e
      refine (issue_clear hc _).trans ?_
      simp only [e, ht, true_and, Option.isNone_some, Bool.false_eq_true, if_false, if_true, Option.bind_some]
      rfl
    next ht =>
      cases hq
      refine (issue_clear hc _).trans ?_
      simp only [ht]
      rfl
  case tget f =>
    obtain ⟨t, e, rfl⟩ := Option.map_eq_some_iff.1 hq
    obtain ⟨dn, k, e⟩ := tileAt_of_tileOf e
    refine (issue_clear hc _).trans ?_
    simp only [e]
    rfl
  case qstat f =>
    simp only [frameRule] at hq
    split at hq
    next hd =>
      cases hq
      refine (issue_clear hc _).trans ?_
      simp only [hd, ne_eq, not_true_eq_false, if_false]
      rfl
    next => cases hq
  all_goals cases hq

/-- The meaning of an instruction that writes words by index. -/
theorem exec_stxRule {i : Instr} {q : StxRule} {s : State} {x : Who} (hq : stxRule s x i = some q) (hc : Clear s x) :
    exec i s = .next ((beginOp s x q.d fun r l => writesAt (q.at_ r l)).andThen fun r => r.finishWords (q.words r)) := by
  cases i
  case stx f =>
    cases hq
    exact issue_clear hc _
  case tset f =>
    obtain ⟨t, e, rfl⟩ := Option.map_eq_some_iff.1 hq
    obtain ⟨dn, k, e⟩ := tileAt_of_tileOf e
    refine (issue_clear hc _).trans ?_
    simp only [e]
    rfl
  all_goals cases hq

/-- Settles O17: a rule that only reads finishes with its words, `fmask` writes its mask, and a rule that writes lands its words. -/
theorem frameAccesses : Obligations.FrameAccesses := by
  refine ⟨fun i q s x hq hc ho => ⟨_, exec_frameRule hq hc, ?_⟩, fun m s x hc => issue_clear hc _,
    fun i q s x hq hc ho => ⟨_, exec_stxRule hq hc, ?_⟩⟩
  · rw [beginOp_ok ho, Prep.go_andThen, em_all]
    exact finish_done hc _ _ _ _ _ hc.lanes
  · rw [beginOp_ok ho, Prep.go_andThen]
    exact finishWords_done hc _ _

end Sys2Proof.Machine
end


section
/-! The instructions of class 3 whose operands are read once: tiles and windows (R129, R133, R135, R136, R139). -/

namespace Sys2Proof.Machine

/-! ### Operands read once, and a strand that moves on (R129) -/

/-- What an instruction with u operands does once they are in order. -/
theorem issue_uOp {s : State} {x : Who} (hc : Clear s x) {srcs : List (Opnd × Nat)} {dst : Option (Opnd × Nat)}
    (h : UOk s x srcs dst) (k : Who → Ready → State) :
    (issue s fun y => uOp s y srcs dst (k y)) = .next (k x (readyOf s x (uD srcs dst))) := by
  rw [issue_clear hc, uOp_ok h]

/-- The warp of a strand still holds it as it issued. -/
def State.Holds (t : State) (x : Who) : Prop := ∃ w, Tbl.find t.warps x.wid = some w ∧ Tbl.find w.strands x.sid = some x.st

/-- Reading operands does not touch the strand. -/
theorem holds_uState {s : State} {x : Who} (hc : Clear s x) (srcs : List (Opnd × Nat)) (dst : Option (Opnd × Nat)) :
    (uState s x srcs dst).Holds x := commit_strand hc _ _

/-- A change of a warp that leaves its strands leaves the strand. -/
theorem State.Holds.updWarp {t : State} {x : Who} (h : t.Holds x) (wid : Nat) {f : Warp → Warp} (hf : ∀ w, (f w).strands = w.strands) :
    (t.updWarp wid f).Holds x := by
  obtain ⟨w, hw, hs⟩ := h
  by_cases e : wid = x.wid
  · refine ⟨f w, ?_, by rw [hf]; exact hs⟩
    rw [State.updWarp_warps, Tbl.find_upd, if_pos e, hw]
    rfl
  · refine ⟨w, ?_, hs⟩
    rw [State.updWarp_warps, Tbl.find_upd, if_neg e, hw]

/-- A change that leaves the warps leaves the strand. -/
theorem State.Holds.of_warps {t u : State} {x : Who} (h : t.Holds x) (e : u.warps = t.warps) : u.Holds x := by
  unfold State.Holds
  rw [e]
  exact h

/-- Naming a tile, or no longer, changes a crew or a domain. -/
theorem State.Holds.setTile {t : State} {x : Who} (h : t.Holds x) (w : Warp) (dn n : Nat) (v : Option Tile) :
    (t.setTile x.wid w dn n v).Holds x := by
  by_cases e : dn = 0
  · simp only [State.setTile, if_pos e]
    exact h
  · simp only [State.setTile, if_neg e]
    exact h.updWarp x.wid fun _ => rfl

/-- The strand of an instruction with effect `t` moves on, and has a lane left. -/
theorem endIfEmpty_advance {s t : State} {x : Who} (hc : Clear s x) (h : t.Holds x) :
    (t.advance x.wid x.sid 1).endIfEmpty x.wid x.sid = t.advance x.wid x.sid 1 := by
  obtain ⟨w, hw, hs⟩ := h
  exact advance_alive hc hw hs _ rfl

/-- A right that is asked for only where it is held. -/
theorem and_not_of_imp {a b : Bool} (h : a = true → b = true) : (a && !b) = false := by
  cases a
  · rfl
  · rw [h rfl]
    rfl

/-! ### Tiles (R133) -/

/-- Allocation of the lowest free run. -/
theorem allocTile_of_findRun {c : Core} {t : Tile} {g : Nat} (h : c.findRun t.granules = some g) (z : Bool) (seed : Nat) :
    c.allocTile t z seed = some (c.withTile t g z seed, { t with gran := g }) := by
  simp only [Core.allocTile, h]
  rfl

section
variable {s : State} {x : Who} (hc : Clear s x)
include hc

/-- A tile is named by its slot, and holds zeros or words that are not defined (R124, R133). -/
theorem talloc_takes {f : TallocF} {a g : Nat} {t : Tile} (hu : UOk s x [(f.a, 1), (f.b, 1)])
    (ha : a = uVal s x [(f.a, 1), (f.b, 1)] none 0) (hlt : a < 32) (ht : shapeTile (uVal s x [(f.a, 1), (f.b, 1)] none 1) = some t)
    (hn : s.tileAt x.w 8 x.st.dom a = none) (hg : (s.core x.core).findRun t.granules = some g) :
    exec (.talloc f) s = .next ((((uState s x [(f.a, 1), (f.b, 1)]).setCore x.core
      ((s.core x.core).withTile t g f.z s.tick)).setTile x.wid x.w x.st.dom a (some { t with gran := g })).advance x.wid x.sid 1) := by
  have h0 : (readyOf s x (uD [(f.a, 1), (f.b, 1)])).u 0 = a := ha.symm
  have h1 : shapeTile ((readyOf s x (uD [(f.a, 1), (f.b, 1)])).u 1) = some t := ht
  refine (issue_uOp hc hu _).trans (congrArg Host.Outcome.next ?_)
  simp only [h0, h1, hn, allocTile_of_findRun hg, if_neg (Nat.not_le.2 hlt), Option.isSome_none, Bool.false_eq_true, if_false]
  refine endIfEmpty_advance hc (State.Holds.setTile ?_ ..)
  exact (holds_uState hc _ _).of_warps rfl

/-- A tile whose granules are all at rest, and that no call has mapped, is freed (R133, R339). -/
theorem tfree_frees {f : TfreeF} {a : Nat} {t : Tile} (hu : UOk s x [(f.a, 1)]) (ha : a = uVal s x [(f.a, 1)] none 0) (hlt : a < 32)
    (ht : ∃ k, s.tileAt x.w 8 x.st.dom a = some (x.st.dom, k, t))
    (hg : ∀ i, i < t.granules → ((s.core x.core).gran (t.gran + i)).inf = false ∧ ((s.core x.core).gran (t.gran + i)).own = false)
    (hm : x.w.tileMapped x.st.dom a = false)
    (hcrew : x.st.dom = 0 → ∀ c, Tbl.find s.crews x.w.crew = some c → ∀ i ∈ c.warps, ∀ w, Tbl.find s.warps i = some w →
      w.tileMapped 0 a = false) :
    exec (.tfree f) s = .next ((((uState s x [(f.a, 1)]).updCore x.core fun c => c.free t.gran t.granules).setTile
      x.wid x.w x.st.dom a none).advance x.wid x.sid 1) := by
  obtain ⟨k, ht⟩ := ht
  have h0 : (readyOf s x (uD [(f.a, 1)])).u 0 = a := ha.symm
  have hinf : ((List.range t.granules).map fun i => (s.core x.core).gran (t.gran + i)).any Gran.inf = false := by
    simp only [List.any_map, List.any_eq_false, List.mem_range]
    exact fun i hi => by simp [(hg i hi).1]
  have hown : ((List.range t.granules).map fun i => (s.core x.core).gran (t.gran + i)).any Gran.own = false := by
    simp only [List.any_map, List.any_eq_false, List.mem_range]
    exact fun i hi => by simp [(hg i hi).2]
  have hmates : ¬(x.st.dom = 0 ∧ ((((Tbl.find s.crews x.w.crew).map Crew.warps).getD []).any
      fun i => (Tbl.find s.warps i).any fun w => w.tileMapped 0 a) = true) := by
    rintro ⟨hd, hany⟩
    obtain ⟨i, hi, hmap⟩ := List.any_eq_true.1 hany
    obtain ⟨w, hw, hmap⟩ := (Option.any_eq_true _ _).1 hmap
    cases hcr : Tbl.find s.crews x.w.crew with
    | none => simp [hcr] at hi
    | some c =>
      rw [hcr] at hi
      exact absurd hmap (Bool.not_eq_true _ ▸ hcrew hd c hcr i hi w hw)
  refine (issue_uOp hc hu _).trans (congrArg Host.Outcome.next ?_)
  simp only [h0, ht, hinf, hown, hm, hmates, if_neg (Nat.not_le.2 hlt), ne_eq, not_true_eq_false, Bool.false_eq_true, or_self, if_false]
  refine endIfEmpty_advance hc (State.Holds.setTile ?_ ..)
  exact (holds_uState hc _ _).of_warps rfl

/-! ### Windows (R136, R139) -/

/-- A window goes into the lowest free slot, with the slot's generation in its handle (R135, R136). -/
theorem wexp_exports {f : WexpF} {k n slot : Nat} (hu : UOk s x [(f.a, 1), (f.b, 1)] (some (f.d, 1)))
    (hk : k = uVal s x [(f.a, 1), (f.b, 1)] (some (f.d, 1)) 0) (hn : n = uVal s x [(f.a, 1), (f.b, 1)] (some (f.d, 1)) 1)
    (hl : f.l = true → (pairCode f.c).isSome = true) (hpos : 0 < n) (hfit : k + n ≤ x.d.fv)
    (hs : (s.core x.core).freeSlot = some slot) :
    ∃ u, Finished s x (uD [(f.a, 1), (f.b, 1)] (some (f.d, 1))) every x.st.em
        (fun _ => [handleOf x.core slot (Sparse.read 0 (s.core x.core).gens slot % 16384)]) 0 u ∧
      exec (.wexp f) s = .next (u.updCore x.core fun c =>
        c.withWin slot (wexpWin x f k n (Sparse.read 0 (s.core x.core).gens slot % 16384))) := by
  have h0 : (readyOf s x (uD [(f.a, 1), (f.b, 1)] (some (f.d, 1)))).u 0 = k := hk.symm
  have h1 : (readyOf s x (uD [(f.a, 1), (f.b, 1)] (some (f.d, 1)))).u 1 = n := hn.symm
  have hpair : ¬(f.l = true ∧ (pairCode f.c).isNone = true) := by
    rintro ⟨h, hp⟩
    have := hl h
    rw [Option.isNone_iff_eq_none.1 hp] at this
    cases this
  have hrange : ¬(n = 0 ∨ x.d.fv < k + n) := by omega
  refine ⟨_, finish_done hc _ _ _ _ _ hc.lanes, (issue_uOp hc hu _).trans (congrArg Host.Outcome.next ?_)⟩
  simp only [h0, h1, hs, if_neg hpair, if_neg hrange, em_all]
  rfl

/-- A window at which no admitted access is at work is revoked by its exporter (R139). -/
theorem wrev_revokes {f : WrevF} {h : Word} {c slot : Nat} {w : Win} (hu : UOk s x [(f.a, 1)])
    (hh : h = (readyOf s x (uD [(f.a, 1)])).word 0 0 (readyOf s x (uD [(f.a, 1)])).low)
    (hw : s.window (dieOf x.core) h = some (c, slot, w)) (hwarp : w.warp = x.wid) (hdom : w.dom = x.st.dom)
    (hb : s.winBusy c slot = false) :
    exec (.wrev f) s = .next (((uState s x [(f.a, 1)]).updCore c fun k => k.revoke slot).advance x.wid x.sid 1) := by
  subst hh
  refine (issue_uOp hc hu _).trans (congrArg Host.Outcome.next ?_)
  simp only [hw, hwarp, hdom, hb, ne_eq, not_true_eq_false, or_self, Bool.false_eq_true, if_false]
  exact endIfEmpty_advance hc ((holds_uState hc _ _).of_warps rfl)

/-- A grant is added behind the instruction that made it. -/
theorem endIfEmpty_granted {t : State} (h : t.Holds x) (g : Grant) :
    ((t.advance x.wid x.sid 1).updStrand x.wid x.sid fun st => st.granted g).endIfEmpty x.wid x.sid =
      (t.advance x.wid x.sid 1).updStrand x.wid x.sid fun st => st.granted g := by
  obtain ⟨w, hw, hs⟩ := h
  have e : ((t.advance x.wid x.sid 1).updStrand x.wid x.sid fun st => st.granted g) =
      t.updStrand x.wid x.sid fun st => (st.advance 1).granted g := by
    simp only [State.advance, State.updStrand, State.updWarp, Warp.updStrand, Tbl.upd_upd]
  rw [e]
  exact advance_alive hc hw hs _ rfl

/-- A tile of the granter's domain is granted under a slot of the callee (R339). -/
theorem wgrant_tile {f : WgrantF} {a b : Nat} (hu : UOk s x [(f.a, 1), (f.b, 1)]) (hf : f.tile = true)
    (ha : a = uVal s x [(f.a, 1), (f.b, 1)] none 0) (hb : b = uVal s x [(f.a, 1), (f.b, 1)] none 1) (hla : a < 32) (hlb : b < 32)
    (ht : (s.tileAt x.w 8 x.st.dom a).isSome = true) (hg : x.st.grants.length < 4) :
    exec (.wgrant f) s = .next (((uState s x [(f.a, 1), (f.b, 1)]).advance x.wid x.sid 1).updStrand x.wid x.sid fun st =>
      st.granted (.tile a b)) := by
  have h0 : (readyOf s x (uD [(f.a, 1), (f.b, 1)])).u 0 = a := ha.symm
  have h1 : (readyOf s x (uD [(f.a, 1), (f.b, 1)])).u 1 = b := hb.symm
  have hroom : ¬(32 ≤ b ∨ 4 ≤ x.st.grants.length) := by omega
  have hsome : ¬(s.tileAt x.w 8 x.st.dom a).isNone = true := by simpa [Option.isSome_iff_ne_none] using ht
  refine (issue_uOp hc hu _).trans (congrArg Host.Outcome.next ?_)
  simp only [h0, h1, hf, if_true, if_neg (Nat.not_le.2 hla), if_neg hsome, if_neg hroom]
  exact endIfEmpty_granted hc (holds_uState hc _ _) _

/-- A window of the granter's is granted with no right that it lacks (R139). -/
theorem wgrant_window {f : WgrantF} {h : Word} {c slot : Nat} {w : Win} (hu : UOk s x [(f.a, 1), (f.b, 1)]) (hf : f.tile = false)
    (hh : h = (readyOf s x (uD [(f.a, 1), (f.b, 1)])).word 0 0 (readyOf s x (uD [(f.a, 1), (f.b, 1)])).low)
    (hw : s.window (dieOf x.core) h = some (c, slot, w)) (hwarp : w.warp = x.wid) (hdom : w.dom = x.st.dom)
    (hr : f.r = true → w.r = true) (hww : f.w = true → w.w = true) (hl : f.l = true → w.l = true) (hany : (f.r || f.w || f.l) = true)
    (hg : x.st.grants.length < 4) :
    exec (.wgrant f) s = .next (((uState s x [(f.a, 1), (f.b, 1)]).advance x.wid x.sid 1).updStrand x.wid x.sid fun st =>
      st.granted (.window h f.r f.w f.l)) := by
  subst hh
  have hwider : ((f.r && !w.r) || (f.w && !w.w) || (f.l && !w.l) || !(f.r || f.w || f.l)) = false := by
    rw [hany, and_not_of_imp hr, and_not_of_imp hww, and_not_of_imp hl]
    rfl
  refine (issue_uOp hc hu _).trans (congrArg Host.Outcome.next ?_)
  simp only [hf, hw, hwarp, hdom, hwider, Nat.not_le.2 hg, ne_eq, not_true_eq_false, or_self, Bool.false_eq_true, if_false]
  exact endIfEmpty_granted hc (holds_uState hc _ _) _

end

/-- Settles O18, instruction by instruction. -/
theorem tilesAndWindows : Obligations.TilesAndWindows := fun _ _ hc =>
  ⟨fun _ _ _ _ => talloc_takes hc, fun _ _ _ => tfree_frees hc, fun _ _ _ _ => wexp_exports hc, fun _ _ _ _ _ => wrev_revokes hc,
    fun _ _ _ => wgrant_tile hc, fun _ _ _ _ _ => wgrant_window hc⟩

end Sys2Proof.Machine
end


section
/-! Granules change sides, and synchronisation words (R140, R143, R144, R148, R201). -/

namespace Sys2Proof.Machine

/-! ### Granules handed over (R140) -/

/-- What a core notes of the writes before a `give` has no part in who owns its granules. -/
theorem owned_given (c : Core) (t : Tbl (List Nat)) (l : List Nat) (b : Bool) :
    ({ c with given := t } : Core).owned l b = { c.owned l b with given := t } := by
  induction l generalizing c with
  | nil => rfl
  | cons g l ih => exact ih (c.setGran g { c.gran g with own := b })

/-- Granule by granule, a `give` sets OWN and notes the writes that come before it. -/
theorem handed_eq_foldl (c : Core) (l ids : List Nat) :
    l.foldl (fun c g => { (c.setGran g { c.gran g with own := true }) with given := Tbl.put c.given g ids }) c = c.handed l ids := by
  induction l generalizing c with
  | nil => rfl
  | cons g l ih =>
    refine (ih _).trans ?_
    rw [Core.handed, owned_given]
    rfl

section
variable {s : State} {x : Who} (hc : Clear s x)
include hc

section
variable {f : GiveF} {l : List Nat} (hu : UOk s x [(f.a, 1), (f.b, 1)])
  (hl : s.namedGrans x f.tile (uVal s x [(f.a, 1), (f.b, 1)] none 0) (uVal s x [(f.a, 1), (f.b, 1)] none 1) = .ok l)
  (ho : ∀ g ∈ l, ((s.core x.core).gran g).own = false)
include hu hl ho

/-- A `give` of granules on the warp side waits for the window accesses that are at work on them, and then hands them over. -/
theorem exec_give : exec (.give f) s = .next
    (if s.wreqs.any fun q => q.2.words.any fun p => !p.2.done && p.1 == x.core && l.contains (p.2.target / 128) then
      s.park x.wid x.sid .give
    else ((uState s x [(f.a, 1), (f.b, 1)]).updCore x.core fun c => c.handed l (s.warpWrites x.wid)).advance x.wid x.sid 1) := by
  have hn : s.namedGrans x f.tile ((readyOf s x (uD [(f.a, 1), (f.b, 1)])).u 0) ((readyOf s x (uD [(f.a, 1), (f.b, 1)])).u 1) = .ok l := hl
  have hown : (l.any fun g => ((s.core x.core).gran g).own) = false := by
    rw [List.any_eq_false]
    exact fun g hg => by simp [ho g hg]
  refine (issue_uOp hc hu _).trans (congrArg Host.Outcome.next ?_)
  simp only [hn, hown, Bool.false_eq_true, if_false, handed_eq_foldl]
  split
  · rfl
  · exact endIfEmpty_advance hc ((holds_uState hc _ _).of_warps rfl)

theorem give_hands (hw : ∀ q ∈ s.wreqs, ∀ p ∈ q.2.words, p.2.done = false → p.1 = x.core → p.2.target / 128 ∉ l) :
    exec (.give f) s = .next (((uState s x [(f.a, 1), (f.b, 1)]).updCore x.core fun c =>
      c.handed l (s.warpWrites x.wid)).advance x.wid x.sid 1) := by
  rw [exec_give hc hu hl ho, if_neg]
  simp only [List.any_eq_true, Bool.and_eq_true, Bool.not_eq_true', beq_iff_eq, List.contains_iff_mem]
  rintro ⟨q, hq, p, hp, ⟨hd, he⟩, hm⟩
  exact hw q hq p hp hd he hm

theorem give_waits (hw : ∃ q ∈ s.wreqs, ∃ p ∈ q.2.words, p.2.done = false ∧ p.1 = x.core ∧ p.2.target / 128 ∈ l) :
    exec (.give f) s = .next (s.park x.wid x.sid .give) := by
  rw [exec_give hc hu hl ho, if_pos]
  simp only [List.any_eq_true, Bool.and_eq_true, Bool.not_eq_true', beq_iff_eq, List.contains_iff_mem]
  obtain ⟨q, hq, p, hp, hd, he, hm⟩ := hw
  exact ⟨q, hq, p, hp, ⟨hd, he⟩, hm⟩

end

section
variable {f : TakeF} {l : List Nat} (hu : UOk s x [(f.a, 1), (f.b, 1)] (some (f.d, 1)))
  (hl : s.namedGrans x f.tile (uVal s x [(f.a, 1), (f.b, 1)] (some (f.d, 1)) 0) (uVal s x [(f.a, 1), (f.b, 1)] (some (f.d, 1)) 1) = .ok l)
include hu hl

/-- The two answers of a `take`. -/
theorem exec_take : exec (.take f) s = .next
    (if l.any fun g => ((s.core x.core).gran g).inf then
      (readyOf s x (uD [(f.a, 1), (f.b, 1)] (some (f.d, 1)))).finish x.st.em fun _ => [1]
    else ((readyOf s x (uD [(f.a, 1), (f.b, 1)] (some (f.d, 1)))).finish x.st.em fun _ => [0]).updCore x.core fun c =>
      c.owned l false) := by
  have hn : s.namedGrans x f.tile ((readyOf s x (uD [(f.a, 1), (f.b, 1)] (some (f.d, 1)))).u 0)
    ((readyOf s x (uD [(f.a, 1), (f.b, 1)] (some (f.d, 1)))).u 1) = .ok l := hl
  refine (issue_uOp hc hu _).trans (congrArg Host.Outcome.next ?_)
  simp only [hn, em_all]
  rfl

theorem take_fails (hg : ∃ g ∈ l, ((s.core x.core).gran g).inf = true) :
    ∃ t, exec (.take f) s = .next t ∧ Finished s x (uD [(f.a, 1), (f.b, 1)] (some (f.d, 1))) every x.st.em (fun _ => [1]) 0 t := by
  refine ⟨_, exec_take hc hu hl, ?_⟩
  rw [if_pos (List.any_eq_true.2 hg)]
  exact finish_done hc _ _ _ _ _ hc.lanes

theorem take_takes (hg : ∀ g ∈ l, ((s.core x.core).gran g).inf = false) :
    ∃ u, Finished s x (uD [(f.a, 1), (f.b, 1)] (some (f.d, 1))) every x.st.em (fun _ => [0]) 0 u ∧
      exec (.take f) s = .next (u.updCore x.core fun c => c.owned l false) := by
  refine ⟨_, finish_done hc _ _ _ _ _ hc.lanes, ?_⟩
  rw [exec_take hc hu hl, if_neg]
  intro h
  obtain ⟨g, hg', h⟩ := List.any_eq_true.1 h
  rw [hg g hg'] at h
  cases h

end

/-! ### Synchronisation words (R143, R144, R201) -/

section
variable {f : SyncF} {k : Nat} {hk : k < 48} (hp : pairCode f.a = some k) (hu : UOk s x [(.s ⟨k, hk⟩, 2), (f.b, 1)])
include hp hu

/-- An instruction that names a pair reads the pair and its second operand. -/
theorem issue_pair (g : Who → Nat → Ready → State) :
    (issue s fun y => match pairCode f.a with
      | none => s.trap y 0x2E
      | some j => uOp s y [(.s ⟨j % 48, Nat.mod_lt _ (by decide)⟩, 2), (f.b, 1)] none (g y j)) =
    .next (g x k (readyOf s x (uD [(.s ⟨k, hk⟩, 2), (f.b, 1)]))) := by
  have hmod : (⟨k % 48, Nat.mod_lt _ (by decide)⟩ : Fin 48) = ⟨k, hk⟩ := Fin.ext (Nat.mod_eq_of_lt hk)
  simp only [hp, hmod]
  exact issue_uOp hc hu fun y => g y k

/-- A `waitg` moves on where no fault is pending on the pair and its generation has been reached (R144). -/
theorem waitg_passes (hn : s.pendingOn x.wid x.st.dom k = none)
    (hg : genReached (syncGen (s.pair x.core x.d k)) (uVal s x [(.s ⟨k, hk⟩, 2), (f.b, 1)] none 1 % 65536) = true) :
    exec (.waitg f) s = .next ((uState s x [(.s ⟨k, hk⟩, 2), (f.b, 1)]).advance x.wid x.sid 1) := by
  have hg' : genReached (syncGen (s.pair x.core x.d k)) ((readyOf s x (uD [(.s ⟨k, hk⟩, 2), (f.b, 1)])).u 1 % 65536) = true := hg
  refine (issue_pair hc hp hu _).trans (congrArg Host.Outcome.next ?_)
  simp only [hn, hg', if_true]
  exact endIfEmpty_advance hc (holds_uState hc _ _)

/-- A `syncset` keeps the generation (R143, R201). -/
theorem syncset_sets {b : Nat} (hb : b = uVal s x [(.s ⟨k, hk⟩, 2), (f.b, 1)] none 1) (hpos : 0 < b) (hle : b ≤ 16777215)
    (hbusy : s.pairBusy x.wid x.st.dom k = false) :
    exec (.syncset f) s = .next ((((uState s x [(.s ⟨k, hk⟩, 2), (f.b, 1)]).setPair x.core x.d k
      (syncWord (syncGen (s.pair x.core x.d k)) b 0)).clearPending x.wid x.st.dom k).advance x.wid x.sid 1) := by
  have h1 : (readyOf s x (uD [(.s ⟨k, hk⟩, 2), (f.b, 1)])).u 1 = b := hb.symm
  have hrange : ¬(b = 0 ∨ 16777215 < b) := by omega
  refine (issue_pair hc hp hu _).trans (congrArg Host.Outcome.next ?_)
  simp only [h1, hbusy, if_neg hrange, Bool.false_eq_true, if_false]
  refine endIfEmpty_advance hc (State.Holds.updWarp ?_ _ fun _ => rfl)
  exact (holds_uState hc _ _).of_warps rfl

end

/-- An output queue is closed by a strand of the warp's own domain (R148, R338). -/
theorem qmark_closes {q : Fin 8} (hd : x.st.dom = 0) (hq : 4 ≤ q.val) :
    exec (.qmark q) s = .next ((s.updWarp x.wid fun w =>
      { w with queues := w.queues.set q.val { w.queues.getD q.val ⟨[], false⟩ with closed := true } }).skip x) := by
  refine (issue_clear hc _).trans ?_
  simp only [hd, ne_eq, not_true_eq_false, if_neg (Nat.not_lt.2 hq), if_false]

end

/-- Settles O19, instruction by instruction. -/
theorem handoverAndSync : Obligations.HandoverAndSync := fun _ _ hc =>
  ⟨fun _ _ hu hl ho => ⟨give_hands hc hu hl ho, give_waits hc hu hl ho⟩,
    fun _ _ hu hl => ⟨take_fails hc hu hl, take_takes hc hu hl⟩,
    fun _ _ _ => waitg_passes hc, fun _ _ _ _ hp hu => syncset_sets hc hp hu, fun _ => qmark_closes hc⟩

end Sys2Proof.Machine
end


section
/-! Window accesses at the issuer and at the exporter (R128, R137, R138, R179, R186). -/

namespace Sys2Proof.Machine

/-! ### Admission (R137) -/

/-- Accesses that every exporter admits go on with the window of each lane. -/
theorem winOp_admitted {r : Ready} {write : Bool} {n : Nat}
    (h : ∀ l ∈ lanesOf r.em, r.s.winCheck r.x write n (r.word 0 0 l) (r.val 1 l) (r.val 2 l) = none)
    (go : List (Nat × Nat × Nat × Win) → State) :
    r.winOp write n go =
      go ((lanesOf r.em).filterMap fun l => (r.s.window (dieOf r.x.core) (r.word 0 0 l)).map fun w => (l, w.1, w.2.1, w.2.2)) := by
  have hb : ((lanesOf r.em).filterMap fun l =>
      (r.s.winCheck r.x write n (r.word 0 0 l) (r.val 1 l) (r.val 2 l)).map fun b => (l, b)) = [] :=
    filterMap_none fun l hl => by rw [h l hl]; rfl
  simp only [Ready.winOp, hb, leastBy]

/-! ### What goes out (R138, R179) -/

/-- The state of a window access that has gone out: one strand has moved on and waits, and one request stands with every word, if there
is a word. -/
structure WindowOut (s : State) (x : Who) (d : OpD) (la : Nat) (write : Bool) (ord : Ord4) (words : List (Nat × WLane)) (t : State) :
    Prop where
  rest : t = { s with warps := t.warps, wreqs := t.wreqs, nextId := t.nextId }
  warps : ∀ w, w ≠ x.wid → Tbl.find t.warps w = Tbl.find s.warps w
  warp : ∃ fenced, (Ord4.acquires ord = false → fenced = x.st.fenced) ∧ Tbl.find t.warps x.wid = some
    { x.w with
      queues := popped s x d
      strands := Tbl.put x.w.strands x.sid
        { x.st.advance 1 with
          fenced := fenced
          pends := (x.st.advance 1).pends ++
            [⟨s.nextId, la, [], (readyOf s x d).pushes x.st.em fun _ => [], 0, words.isEmpty, !write, true, x.st.dom⟩] } }
  request : ∃ q : WReq, q.write = write ∧ q.agent = x.agent ∧ q.pend = s.nextId ∧ q.words = words ∧
    t.wreqs = if words.isEmpty then s.wreqs else Tbl.put s.wreqs (s.nextId + 1) q

theorem winAccess_out {s : State} {x : Who} (hc : Clear s x) (d : OpD) (la : BitVec 4) (write : Bool) (ord : Ord4)
    (words : List (Nat × WLane)) (wins : List (Nat × Nat)) :
    WindowOut s x d la.toNat write ord words ((readyOf s x d).winAccess la write ord words wins) := by
  obtain ⟨-, -, -, hw, hst, -⟩ := who_spec hc.who
  obtain ⟨W, e, w1, w2⟩ := commit_popped hw d every
  let p : Pend := ⟨s.nextId, la.toNat, [], (readyOf s x d).pushes x.st.em fun _ => [], 0, words.isEmpty, !write, true, x.st.dom⟩
  let q : WReq := ⟨x.agent, s.nextId, write, wins, ((Tbl.find s.crews x.w.crew).map Crew.span).getD 0, words,
    s.winBefore x (Ord4.releases ord) (words.map fun p => (p.1, p.2.target))⟩
  let s1 : State := { s with
    warps := Tbl.upd W x.wid fun w => w.updStrand x.sid fun st => { st.advance 1 with pends := (st.advance 1).pends ++ [p] }
    wreqs := if words.isEmpty then s.wreqs else Tbl.put s.wreqs (s.nextId + 1) q
    nextId := s.nextId + 2 }
  have hout : (readyOf s x d).winAccess la write ord words wins =
      (if Ord4.acquires ord then s1.fenceAfter x.wid x.sid [s.nextId + 1] else s1).endIfEmpty x.wid x.sid := by
    unfold Ready.winAccess
    rw [e]
    simp only [s1, State.fresh, State.advance, State.updStrand, State.updWarp, Warp.updStrand, Tbl.upd_upd, em_all, readyOf_x]
    by_cases hn : words.isEmpty = true
    · simp only [if_pos hn]
      rfl
    · simp only [if_neg hn]
      rfl
  have hs1 : Tbl.find s1.warps x.wid = some { x.w with
      queues := popped s x d
      strands := Tbl.upd x.w.strands x.sid fun st => { st.advance 1 with pends := (st.advance 1).pends ++ [p] } } := by
    show Tbl.find (Tbl.upd W x.wid _) x.wid = _
    rw [Tbl.find_upd, if_pos rfl, w2]
    rfl
  have hs1' : ∀ w, w ≠ x.wid → Tbl.find s1.warps w = Tbl.find s.warps w := fun w h => by
    show Tbl.find (Tbl.upd W x.wid _) w = _
    rw [Tbl.find_upd, if_neg h.symm, w1 w h]
  have hupd (f : Strand → Strand) : Tbl.upd x.w.strands x.sid f = Tbl.put x.w.strands x.sid (f x.st) := by
    simp only [Tbl.upd, hst]
  rw [hout]
  cases hq : Ord4.acquires ord with
  | false =>
    rw [if_neg Bool.false_ne_true, alive_after hc _ hs1 rfl rfl]
    exact ⟨rfl, hs1', ⟨x.st.fenced, fun _ => rfl, by rw [hs1, hupd]; rfl⟩, q, rfl, rfl, rfl, rfl, rfl⟩
  | true =>
    have hs2 : Tbl.find (s1.fenceAfter x.wid x.sid [s.nextId + 1]).warps x.wid = some { x.w with
        queues := popped s x d
        strands := Tbl.upd x.w.strands x.sid fun st => { st.advance 1 with
          fenced := [s.nextId + 1] ++ st.fenced.filter fun i => !s1.performed i
          pends := (st.advance 1).pends ++ [p] } } := by
      show Tbl.find (Tbl.upd s1.warps x.wid _) x.wid = _
      rw [Tbl.find_upd, if_pos rfl, hs1]
      simp only [Option.map_some, Warp.updStrand, Tbl.upd_upd]
      rfl
    rw [if_pos rfl, alive_after hc _ hs2 rfl rfl]
    refine ⟨rfl, fun w h => ?_, ⟨_, fun h => absurd (hq.symm.trans h) (by decide), by rw [hs2, hupd]⟩, q, rfl, rfl, rfl, rfl, rfl⟩
    show Tbl.find (Tbl.upd s1.warps x.wid _) w = _
    rw [Tbl.find_upd, if_neg h.symm, hs1' w h]

/-- A word of an access that has gone out stands in its request. -/
theorem WindowOut.word {s t : State} {x : Who} {d : OpD} {la : Nat} {write : Bool} {ord : Ord4} {words : List (Nat × WLane)}
    (h : WindowOut s x d la write ord words t) {p : Nat × WLane} (hp : p ∈ words) :
    WindowWord t x write (s.nextId + 1) s.nextId p := by
  obtain ⟨q, hwrite, hagent, hpend, hwords, e⟩ := h.request
  refine ⟨q, ?_, hwrite, hagent, hpend, by rw [hwords]; exact hp⟩
  rw [e, if_neg (by rw [List.isEmpty_iff]; exact List.ne_nil_of_mem hp), Tbl.find_put_self]

/-- The requests of before stay as they are. -/
theorem WindowOut.older {s t : State} {x : Who} {d : OpD} {la : Nat} {write : Bool} {ord : Ord4} {words : List (Nat × WLane)}
    (h : WindowOut s x d la write ord words t) {id : Nat} (hid : id ≤ s.nextId) : Tbl.find t.wreqs id = Tbl.find s.wreqs id := by
  obtain ⟨q, -, -, -, -, e⟩ := h.request
  rw [e]
  split
  · rfl
  · exact Tbl.find_put_ne _ _ (by omega)

/-- The lanes of an access, each with the exporting core, the slot and the window of its handle (R135, R137). -/
def winLanes (s : State) (x : Who) (write : Bool) (f : WinF) : List (Nat × Nat × Nat × Win) :=
  (lanesOf x.st.em).filterMap fun l =>
    (s.window (dieOf x.core) ((readyOf s x (winD write f)).word 0 0 l)).map fun w => (l, w.1, w.2.1, w.2.2)

/-- The exporter's words that an entry of `winLanes` names. -/
def laneWords (s : State) (x : Who) (write : Bool) (f : WinF) (w : Nat × Nat × Nat × Win) : List Nat :=
  s.winWords w.2.2.2 (tyWords f.ty) ((readyOf s x (winD write f)).val 1 w.1) ((readyOf s x (winD write f)).val 2 w.1)

theorem winLanes_of_target {s : State} {x : Who} {write : Bool} {f : WinF} {l c : Nat} {a : List Nat} (hl : l ∈ lanesOf x.st.em)
    (h : winTarget s x write f l = some (c, a)) :
    ∃ w ∈ winLanes s x write f, w.1 = l ∧ w.2.1 = c ∧ laneWords s x write f w = a := by
  obtain ⟨⟨c', slot, w⟩, hw, e⟩ := Option.map_eq_some_iff.1 h
  cases e
  exact ⟨(l, c', slot, w), List.mem_filterMap.2 ⟨l, hl, by rw [hw]; rfl⟩, rfl, rfl, rfl⟩

/-- The words of a read: one for each word of the destination. -/
def wrdWords (s : State) (x : Who) (f : WinF) : List (Nat × WLane) :=
  (winLanes s x false f).flatMap fun w =>
    ((readyOf s x (winD false f)).dsts w.1).map fun d => (w.2.1, ⟨w.1, (laneWords s x false f w).getD d.1 0, d.2, 0, 0, false⟩)

/-- The words of a write, with the data and its poison (R319). -/
def wwrWords (s : State) (x : Who) (f : WinF) : List (Nat × WLane) :=
  (winLanes s x true f).flatMap fun w => (laneWords s x true f w).zipIdx.map fun a =>
    (w.2.1, ⟨w.1, a.1, 0, (readyOf s x (winD true f)).word 3 a.2 w.1, (readyOf s x (winD true f)).mark 3 a.2 w.1, false⟩)

section
variable {s : State} {x : Who} {f : WinF} (hc : Clear s x)
include hc

theorem wrd_out (ho : OperandsOk s x (winD false f)) (ha : Admitted s x false f) :
    ∃ t, exec (.wrd f) s = .next t ∧ WindowOut s x (winD false f) f.la.toNat false f.ord (wrdWords s x f) t := by
  have hb : beginOp s x { srcs := [(f.a, 1), (f.b, 1), (f.c, 1)], dst := some (f.d, tyWords f.ty) } = .go (readyOf s x (winD false f)) :=
    beginOp_ok ho
  refine ⟨_, issue_clear hc _, ?_⟩
  simp only [hb]
  rw [winOp_admitted (by rw [em_all]; exact ha), em_all]
  exact winAccess_out hc _ _ _ _ (wrdWords s x f) _

theorem wwr_out (ho : OperandsOk s x (winD true f)) (ha : Admitted s x true f) :
    ∃ t, exec (.wwr f) s = .next t ∧ WindowOut s x (winD true f) f.la.toNat true f.ord (wwrWords s x f) t := by
  have hb : beginOp s x { srcs := [(f.a, 1), (f.b, 1), (f.c, 1), (f.d, tyWords f.ty)], carry := [3] } = .go (readyOf s x (winD true f)) :=
    beginOp_ok ho
  refine ⟨_, issue_clear hc _, ?_⟩
  simp only [hb]
  rw [winOp_admitted (by rw [em_all]; exact ha), em_all]
  exact winAccess_out hc _ _ _ _ (wwrWords s x f) _

end

/-- An access goes out as R138 says where its words are those that its lanes name. -/
theorem WindowOut.issued {s t : State} {x : Who} {write : Bool} {f : WinF} {words : List (Nat × WLane)}
    (h : WindowOut s x (winD write f) f.la.toNat write f.ord words t)
    (hr : write = false → ∀ w ∈ winLanes s x write f, ∀ d ∈ (readyOf s x (winD write f)).dsts w.1,
      (w.2.1, ⟨w.1, (laneWords s x write f w).getD d.1 0, d.2, 0, 0, false⟩) ∈ words)
    (hw : write = true → ∀ w ∈ winLanes s x write f, ∀ j, j < (laneWords s x write f w).length →
      (w.2.1, ⟨w.1, (laneWords s x write f w).getD j 0, 0, (readyOf s x (winD write f)).word 3 j w.1,
        (readyOf s x (winD write f)).mark 3 j w.1, false⟩) ∈ words) : WindowIssued s x write f t := by
  obtain ⟨fenced, hf, hwarp⟩ := h.warp
  refine ⟨h.rest, h.warps, ⟨fenced, _, hf, hwarp⟩, fun id => h.older, fun e l hl c a ht d hd => ?_, fun e l hl c a ht j hj => ?_⟩
  · obtain ⟨w, hwl, rfl, rfl, rfl⟩ := winLanes_of_target hl ht
    exact h.word (hr e w hwl d hd)
  · obtain ⟨w, hwl, rfl, rfl, rfl⟩ := winLanes_of_target hl ht
    exact h.word (hw e w hwl j hj)

theorem wrd_issued {s : State} {x : Who} {f : WinF} (hc : Clear s x) (ho : OperandsOk s x (winD false f)) (ha : Admitted s x false f) :
    ∃ t, exec (.wrd f) s = .next t ∧ WindowIssued s x false f t := by
  obtain ⟨t, e, h⟩ := wrd_out hc ho ha
  refine ⟨t, e, h.issued (fun _ w hw d hd => ?_) nofun⟩
  exact List.mem_flatMap.2 ⟨w, hw, List.mem_map.2 ⟨d, hd, rfl⟩⟩

theorem wwr_issued {s : State} {x : Who} {f : WinF} (hc : Clear s x) (ho : OperandsOk s x (winD true f)) (ha : Admitted s x true f) :
    ∃ t, exec (.wwr f) s = .next t ∧ WindowIssued s x true f t := by
  obtain ⟨t, e, h⟩ := wwr_out hc ho ha
  refine ⟨t, e, h.issued nofun fun _ w hw j hj => ?_⟩
  refine List.mem_flatMap.2 ⟨w, hw, List.mem_map.2 ⟨((laneWords s x true f w).getD j 0, j), ?_, rfl⟩⟩
  rw [List.mem_zipIdx_iff_getElem?]
  simp [hj]

/-! ### Performing (R128, R138, R186) -/

/-- The words of a window access that are still to be performed. -/
def WReq.left (q : WReq) : List Nat := (List.range q.words.length).filter fun i => (q.words[i]?).any fun p => !p.2.done

theorem WReq.next_eq (q : WReq) (n : Nat) : q.next n = q.left[n % max 1 q.left.length]? := rfl

theorem WReq.mem_left {q : WReq} {i : Nat} : i ∈ q.left ↔ ∃ p, q.words[i]? = some p ∧ p.2.done = false := by
  rw [WReq.left, List.mem_filter, List.mem_range, Option.any_eq_true]
  simp only [Bool.not_eq_true', and_iff_right_iff_imp]
  rintro ⟨p, hp, -⟩
  exact (List.getElem?_eq_some_iff.1 hp).1

/-- Nothing is next when every word has been performed, and only then. -/
theorem WReq.next_none_iff (q : WReq) (n : Nat) : q.next n = none ↔ ∀ p ∈ q.words, p.2.done = true := by
  have hnil : q.next n = none ↔ q.left = [] := by
    rw [q.next_eq, List.getElem?_eq_none_iff]
    refine ⟨fun h => ?_, fun h => by simp [h]⟩
    have hlt : n % max 1 q.left.length < max 1 q.left.length := Nat.mod_lt _ (by omega)
    exact List.length_eq_zero_iff.1 (by omega)
  rw [hnil, List.eq_nil_iff_forall_not_mem]
  refine ⟨fun h p hp => ?_, fun h i hi => ?_⟩
  · obtain ⟨i, hi⟩ := List.mem_iff_getElem?.1 hp
    rw [← Bool.not_eq_false]
    exact fun hd => h i (WReq.mem_left.2 ⟨p, hi, hd⟩)
  · obtain ⟨p, hp, hd⟩ := WReq.mem_left.1 hi
    rw [h p (List.mem_of_getElem? hp)] at hd
    cases hd

/-- The word that is next was not performed before. -/
theorem WReq.next_left {q : WReq} {n i : Nat} {p : Nat × WLane} (h : q.next n = some i) (hp : q.words[i]? = some p) :
    p.2.done = false := by
  obtain ⟨p', hp', hd⟩ := WReq.mem_left.1 (List.mem_of_getElem? (q.next_eq n ▸ h))
  rw [hp] at hp'
  cases hp'
  exact hd

section
variable {s : State} {id : Nat} {q : WReq} (hq : Tbl.find s.wreqs id = some q) (ha : q.after.all s.performed = true)
include hq ha

/-- One word of a window access that is due is performed at the exporter. -/
theorem windowRequest_word {i core : Nat} {l : WLane} (hn : q.next (Config.eventChoice s.tick) = some i)
    (hl : q.words[i]? = some (core, l)) :
    exec (.windowRequest id) s = .next { (s.windowWord q.write core l).1 with
      wreqs := Tbl.put (s.windowWord q.write core l).1.wreqs id (q.put i core (s.windowWord q.write core l).2) } := by
  simp only [exec, execWindowRequest, hq, ha, Bool.not_true, Bool.false_eq_true, if_false, hn, Option.bind_some, hl, Option.map_some]
  rfl

/-- A window access with no word left is complete. -/
theorem windowRequest_ends (hn : q.next (Config.eventChoice s.tick) = none) :
    exec (.windowRequest id) s = .next (({ s with wreqs := Tbl.del s.wreqs id } : State).deliver q.agent (some q.pend)
      (if q.write then [] else q.words.map fun p => ⟨p.2.dst, p.2.val, p.2.mark⟩)) := by
  simp only [exec, execWindowRequest, hq, ha, Bool.not_true, Bool.false_eq_true, if_false, hn, Option.bind_none]

end

/-- Settles O20: admitted accesses go out with the words of their lanes, and a request that is due performs word after word. -/
theorem windowAccesses : Obligations.WindowAccesses := by
  refine ⟨fun s x f hc => ⟨wrd_issued hc, wwr_issued hc⟩, fun s id q hq ha => ⟨q.next_none_iff, fun i core l hn hl => ?_,
    windowRequest_ends hq ha⟩⟩
  have hd : l.done = false := WReq.next_left hn hl
  refine ⟨hd, fun hw => ?_, fun hw => ?_⟩
  · rw [windowRequest_word hq ha hn hl]
    simp only [State.windowWord, hd, hw, Bool.false_eq_true, if_false, if_true]
    rfl
  · rw [windowRequest_word hq ha hn hl]
    simp only [State.windowWord, hd, hw, Bool.false_eq_true, if_false]

end Sys2Proof.Machine
end


section
/-! Class 4 instructions that pass every row are accepted (R187, R196-R200, R207, R228, R233, R238). -/

namespace Sys2Proof.Machine

/-- Without a follow-on one instruction issues. -/
theorem engUnits_alone {b : EngBody} (ht : ∀ f, b = .copy f → f.thn = false) : engUnits b = [2] := by
  cases b
  case copy f => simp only [engUnits, ht f rfl, Bool.false_eq_true, if_false]
  all_goals rfl

section
variable {s : State} {x : Who} (hc : Clear s x)
include hc

section
variable {i : Instr} {h : EHdr} {b : EngBody} (e : engInstr i = some (h, b)) (ht : ∀ f, b = .copy f → f.thn = false)
  (q : EngOk s x.iss h (engReads s x.iss b) (engChk s x.iss b) (engWrites b)) (z : LastOk s x.iss h b)
include e ht q z

/-- A command all of whose rows pass asks for one place in its core's queue. -/
theorem exec_eng_passed : exec i s = .next (s.engIssued x (engUnits b)
    (if s.queueRoom x.core 1 then .done (s.accept x.iss h b (engTake s x.iss b) none none).1 s.nextId else .full)) := by
  rw [exec_eng e hc, admitBody_ok q z ht]
  rfl

theorem engCommand_accepted (hr : (s.core x.core).cmds.length < 16) :
    ∃ t, Accepted s x.iss h b (engTake s x.iss b) (x.w.seqno + 1) none none t ∧ exec i s = .next (t.advance x.wid x.sid 2) := by
  have hroom : s.queueRoom x.core 1 = true := decide_eq_true hr
  refine ⟨_, (accept_spec s x.iss h b (engTake s x.iss b) none none).2, ?_⟩
  rw [exec_eng_passed hc e ht q z, engUnits_alone ht, hroom]
  rfl

theorem engCommand_waits (hr : 16 ≤ (s.core x.core).cmds.length) : exec i s = .next (s.park x.wid x.sid .engine) := by
  have hfull : s.queueRoom x.core 1 = false := decide_eq_false (by omega)
  rw [exec_eng_passed hc e ht q z, hfull]
  rfl

end

section
variable {h : EHdr} {m : MmaF} {a b : TDesc} {ct : Tile} (q : EngOk s x.iss h (mmaReads m) (s.mmaChk x.iss m))
include q

theorem mma_accepted (z : MmaOk s x.iss m [] a b ct) (hr : (s.core x.core).cmds.length < 16) :
    ∃ t, Accepted s x.iss h (.mma m) (mmaTake s x.iss m a b ct) (x.w.seqno + 1) none none t ∧
      exec (.mma h m) s = .next ((t.setProg x.wid x.st.dom m.ct.val 0).advance x.wid x.sid 2) := by
  refine ⟨_, (accept_spec s x.iss h (.mma m) (mmaTake s x.iss m a b ct) none none).2, ?_⟩
  refine (issue_clear hc _).trans (congrArg Host.Outcome.next ?_)
  rw [admitMma_ok q z (decide_eq_true hr)]
  rfl

/-- A copy and its matrix command are accepted one after the other, and the strand moves on past both (R34, R207). -/
theorem copyPair_accepted {ch : EHdr} {f : CopyF} (ht : f.thn = true) (hw : ∀ p ∈ x.st.pends, p.left ≠ 1)
    (qc : EngOk s x.iss ch (copyReads f) (s.copyChk x.iss f)) (zc : SizesOk s x.iss (s.copyChk x.iss f))
    (hn : x.nextMma = some (h, m)) (z : MmaOk s x.iss m (s.copyChk x.iss f).land a b ct) (hr : (s.core x.core).cmds.length < 15) :
    ∃ u t, Accepted s x.iss ch (.copy f) (engTake s x.iss (.copy f)) (x.w.seqno + 1) (some (s.nextId + 1)) none u ∧
      Accepted u x.iss h (.mma m) (mmaTake s x.iss m a b ct) (x.w.seqno + 2) none (some s.nextId) t ∧
      exec (.copy ch f) s = .next (((t.setProg x.wid x.st.dom m.ct.val 0).advance x.wid x.sid 2).advance x.wid x.sid 2) := by
  have hroom : s.queueRoom x.iss.core 2 = true := decide_eq_true (show (s.core x.core).cmds.length + 2 ≤ 16 by omega)
  have hwin : (x.st.pends.any fun p => p.left == 1) = false := by
    rw [List.any_eq_false]
    exact fun p hp => by simpa using hw p hp
  refine ⟨_, _, (accept_spec s x.iss ch (.copy f) (engTake s x.iss (.copy f)) (some (s.nextId + 1)) none).2,
    (accept_spec _ x.iss h (.mma m) (mmaTake s x.iss m a b ct) none (some s.nextId)).2, ?_⟩
  refine (issue_clear hc _).trans (congrArg Host.Outcome.next ?_)
  rw [hn, admitPair_ok ht qc zc q z hroom]
  simp only [State.engIssued, hwin, Bool.and_false, Bool.false_eq_true, if_false, ht, if_true]
  rfl

end

end

/-- Settles O24: a command with room, a full queue, a matrix command alone, and a copy that takes one along. -/
theorem engineCommandsIssue : Obligations.EngineCommandsIssue :=
  ⟨fun _ _ _ _ _ e hc ht q z => ⟨engCommand_accepted hc e ht q z, engCommand_waits hc e ht q z⟩,
    fun _ _ _ _ _ _ _ hc q => ⟨mma_accepted hc q, fun _ _ ht hw qc zc hn z hr => copyPair_accepted hc q ht hw qc zc hn z hr⟩⟩

end Sys2Proof.Machine
end


section
/-! Rings and graphs: operations that go on or wait at a block, and the records of nodes (R179, R284, R289-R291, R297, R298, R301, R302). -/

namespace Sys2Proof.Machine

/-! ### A ring control block (R289-R291) -/

/-- An operation that its end allows gives the block after it and its ticket. -/
theorem step_of_takes {b b' : RingBlk} {op : RingOp} {t : Word} (h : RingTakes b op b' t) : b.step op = .ok b' t := by
  match op with
  | .acq false _ _ =>
    obtain ⟨hlt, rfl, rfl⟩ := h
    exact if_pos hlt
  | .acq true _ _ =>
    rcases h with ⟨hne, rfl, rfl⟩ | ⟨heq, hcl, rfl, rfl⟩
    · exact if_pos hne
    · simp only [RingBlk.step, heq, hcl, ne_eq, not_true_eq_false, if_false, if_true]
  | .cmt none _ =>
    obtain ⟨rfl, rfl⟩ := h
    rfl
  | .cmt (some _) close =>
    obtain ⟨rfl, hk, hd, rfl, rfl⟩ := h
    have hgood : ¬(2 ^ 31 ≤ b.cmt ∨ ringDist b.cmt b.res ≤ ringDist b.cmt b.cmt) := by omega
    simp only [RingBlk.step, if_neg hgood, if_true]
  | .rel _ =>
    obtain ⟨rfl, hk, hd, rfl, rfl⟩ := h
    have hgood : ¬(2 ^ 31 ≤ b.rel ∨ ringDist b.rel b.clm ≤ ringDist b.rel b.rel) := by omega
    simp only [RingBlk.step, if_neg hgood, if_true]

/-- An operation waits where it finds no slot or entry, or where its ticket's turn has not come. -/
theorem step_of_waits {b : RingBlk} {op : RingOp} (h : RingWaits b op) : b.step op = .wait := by
  match op with
  | .acq false _ _ => exact if_neg (Nat.not_lt.2 h)
  | .acq true _ _ =>
    obtain ⟨heq, hcl⟩ := h
    simp only [RingBlk.step, heq, hcl, ne_eq, not_true_eq_false, if_false, Nat.zero_ne_one]
  | .cmt none _ => exact h.elim
  | .cmt (some k) _ =>
    obtain ⟨hk, hd, hne⟩ := h
    have hgood : ¬(2 ^ 31 ≤ k ∨ ringDist b.cmt b.res ≤ ringDist b.cmt k) := by omega
    simp only [RingBlk.step, if_neg hgood, if_neg hne]
  | .rel k =>
    obtain ⟨hk, hd, hne⟩ := h
    have hgood : ¬(2 ^ 31 ≤ k ∨ ringDist b.rel b.clm ≤ ringDist b.rel k) := by omega
    simp only [RingBlk.step, if_neg hgood, if_neg hne]

/-! ### What an instruction waits for before it acts (R179, R285) -/

theorem afterReads_done {s : State} {x : Who} (h : s.undone x.agent = false) (k : State) : afterReads s x k = k := by
  rw [afterReads, h, if_neg (by decide)]

theorem afterAll_settled {s : State} {x : Who} (h : s.settled x.agent = true) (k : State) : afterAll s x k = k := if_pos h

section
variable {s : State} {x : Who} (hc : Clear s x)
include hc

/-! ### Ring instructions -/

section
variable {i : Instr} {q : RingRule} {b : RingBlk} (hq : ringRule s x i = some q) (hu : UOk s x q.srcs q.dst) (hp : q.past)
include hq hu hp

/-- A ring instruction whose earlier accesses are over carries out its operation. -/
theorem exec_ringRule : exec i s = .next ((readyOf s x (uD q.srcs q.dst)).ring q.va q.op) := by
  cases i
  case ringAcq f =>
    cases hq
    exact (issue_uOp hc hu _).trans (congrArg Host.Outcome.next (afterReads_done hp _))
  case ringCmt f =>
    cases hq
    exact (issue_uOp hc hu _).trans (congrArg Host.Outcome.next (afterAll_settled hp _))
  case ringRel f =>
    cases hq
    exact (issue_uOp hc hu _).trans (congrArg Host.Outcome.next (afterAll_settled hp _))
  all_goals cases hq

variable (hb : s.ringCheck x.d.ctx q.va = .ok b)
include hb

theorem ring_takes {b' : RingBlk} {t : Word} (ht : RingTakes b q.op b' t) (hw : s.ringQueued x.d.ctx q.va q.op s.ringWaits = false) :
    exec i s = .next (((uState s x q.srcs q.dst).putRing x.d.ctx q.va b').ringDone x q.op t) := by
  rw [exec_ringRule hc hq hu hp]
  simp only [Ready.ring, readyOf_s, readyOf_x, hb, step_of_takes ht, hw, Bool.false_eq_true, if_false]
  rfl

theorem ring_waits (hw : RingWaits b q.op) : exec i s = .next ((uState s x q.srcs q.dst).ringPark x q.va q.op) := by
  rw [exec_ringRule hc hq hu hp]
  simp only [Ready.ring, readyOf_s, readyOf_x, hb, step_of_waits hw]
  rfl

end

/-- `ring.peek` answers the entries that may be taken, or the free slots (R291). -/
theorem ringPeek_answers {f : RingPeekF} {b : RingBlk} (hu : UOk s x [(.s f.a, 2)] (some (.s f.d, 1))) (hp : s.undone x.agent = false)
    (hb : s.ringCheck x.d.ctx (s.vaPair x f.a) = .ok b) :
    ∃ u, exec (.ringPeek f) s = .next u ∧ Finished s x (uD [(.s f.a, 2)] (some (.s f.d, 1))) every x.st.em
      (fun _ => [BitVec.ofNat 32 (if f.c then ringDist b.clm b.cmt else b.slots - b.occupancy)]) 0 u := by
  refine ⟨_, (issue_uOp hc hu _).trans (congrArg Host.Outcome.next (afterReads_done hp _)), ?_⟩
  simp only [hb, em_all]
  exact finish_done hc _ _ _ _ _ hc.lanes

/-! ### Graph instructions (R298, R302) -/

theorem gfire_fires {f : GfireF} {l : List (Opnd × Nat)} {t : State} (hl : l = (.s f.a, 2) :: f.b.toList.map (fun k => (.s k, 2)))
    (hu : UOk s x l) (hp : s.settled x.agent = true)
    (ht : (if f.start then s.startGraph x.d.ctx (s.vaPair x f.a) (dieOf x.core) ((f.b.map fun k => s.pair x.core x.d k.val).getD 0) none
      else s.outsideToken x.d.ctx (s.vaPair x f.a) (dieOf x.core)) = .ok t) :
    exec (.gfire f) s = .next (({ readyOf s x (uD l) with s := t } : Ready).finish x.st.em fun _ => []) := by
  subst hl
  refine (issue_uOp hc hu _).trans (congrArg Host.Outcome.next ((afterAll_settled hp _).trans ?_))
  simp only [ht, em_all]

section
variable {f : GnodeF} (hu : UOk s x [(.s f.a, 2)] (some (.s f.d, 1))) (hp : s.undone x.agent = false)
  (hr : s.recFault x.d.ctx (s.vaPair x f.a) 128 .both = none)
include hu hp hr

theorem gnode_answers : ∃ u, exec (.gnode f) s = .next u ∧ Finished s x (uD [(.s f.a, 2)] (some (.s f.d, 1))) every x.st.em
    (fun _ => [BitVec.ofNat 32 (nodeStatus (s.rec_ x.d.ctx (s.vaPair x f.a)))]) 0 u := by
  refine ⟨_, (issue_uOp hc hu _).trans (congrArg Host.Outcome.next (afterReads_done hp _)), ?_⟩
  simp only [hr, em_all]
  exact finish_done hc _ _ _ _ _ hc.lanes

theorem gcancel_cancels {n : Option (Nat × Nat)} (hn : s.nodeAt x.d.ctx (s.vaPair x f.a) = .ok n) :
    exec (.gcancel f) s = .next (({ readyOf s x (uD [(.s f.a, 2)] (some (.s f.d, 1))) with
      s := (s.cancelAt x.d.ctx (s.vaPair x f.a) n).2 } : Ready).finish x.st.em fun _ =>
        [BitVec.ofNat 32 (s.cancelAt x.d.ctx (s.vaPair x f.a) n).1]) := by
  refine (issue_uOp hc hu _).trans (congrArg Host.Outcome.next ((afterReads_done hp _).trans ?_))
  simp only [hr, hn, em_all]

end

end

/-- Settles O29: operations of rings, and `gfire`, `gnode` and `gcancel`. -/
theorem ringsAndGraphs : Obligations.RingsAndGraphs :=
  ⟨fun _ _ hc => ⟨fun _ _ _ hq hu hp hb => ⟨fun _ _ ht hw => ring_takes hc hq hu hp hb ht hw, ring_waits hc hq hu hp hb⟩,
      fun _ _ hu hp hb => ringPeek_answers hc hu hp hb⟩,
    fun _ _ hc => ⟨fun _ _ _ hl hu hp ht => gfire_fires hc hl hu hp ht,
      fun _ hu hp hr => ⟨gnode_answers hc hu hp hr, fun _ hn => gcancel_cancels hc hu hp hr hn⟩⟩⟩

end Sys2Proof.Machine
end


section
/-! Engines at work: pieces that land, commands that end or fail, targets that are checked, and the array (R189, R197, R200, R201, R203, R208,
R211, R212, R215, R238, R239). -/

namespace Sys2Proof.Machine

/-! ### Room in a core's queue (R197) -/

theorem queueRoom_one {s : State} {c : Nat} (h : (s.core c).cmds.length < 16) : s.queueRoom c 1 = true := decide_eq_true h

/-- A strand that waits for an engine goes on once there is room. -/
theorem engineQueueAccept_strand {s : State} {w i t : Nat} {x : Who} (hx : s.strandAt w i = some x)
    (hp : x.st.parked = some (.engine, t)) (hr : (s.core x.core).cmds.length < 16) :
    exec (.engineQueueAccept (.strand w i)) s = .next (s.updStrand w i fun st => { st with parked := none }) := by
  simp only [exec, execEngineQueueAccept, hx, hp, queueRoom_one hr, Option.any_some, beq_self_eq_true, Bool.and_self, if_true]

/-- A front-end context that waits for an engine goes on once there is room. -/
theorem engineQueueAccept_fe {s : State} {c t : Nat} {k : Crew} {f : FrontEnd} (hk : Tbl.find s.crews c = some k) (hf : k.fe = some f)
    (hs : f.stalled = some (.engine, t)) (hr : (s.core k.core).cmds.length < 16) :
    exec (.engineQueueAccept (.fe c)) s = .next (s.updFe c fun g => { g with stalled := none }) := by
  simp only [exec, execEngineQueueAccept, hk, hf, hs, queueRoom_one hr, Option.any_some, beq_self_eq_true, Bool.and_self, if_true]

/-! ### Weirs that let a step pass (R367) -/

/-- A step that leaves the allowances as they are is held by no weir. -/
theorem throughWeirs_same {s t : State} (h : t.weirs = s.weirs) : s.throughWeirs t = t := by
  have hnone : ((s.weirs.zip t.weirs).filter fun p =>
      decide (p.2.left < p.1.left) && decide (p.2.left < 0) && !(decide (p.1.left = p.1.budget) && decide (256 ≤ p.1.budget))) = [] := by
    rw [h, List.filter_eq_nil_iff]
    intro p hp
    have hself : p.1 = p.2 := by
      rw [List.zip_eq_zipWith, List.zipWith_self] at hp
      obtain ⟨w, -, rfl⟩ := List.mem_map.1 hp
      rfl
    rw [hself]
    simp
  simp only [State.throughWeirs, hnone, List.isEmpty_nil, if_true]

theorem setPair_weirs (s : State) (core : Nat) (d : Dom) (k : Nat) (v : Dword) : (s.setPair core d k v).weirs = s.weirs := by
  obtain ⟨cs, e, -, -⟩ := land_spec s core (pairWrites d k v)
  rw [setPair_eq_land, e]

theorem countBytes_weirs (s : State) (wid dom pair b : Nat) : (s.countBytes wid dom pair b).1.weirs = s.weirs := by
  unfold State.countBytes
  split
  · rfl
  · dsimp only
    split <;> exact setPair_weirs _ _ _ _ _

theorem countCmd_weirs (s : State) (id b : Nat) (l : List Nat) : (s.countCmd id b l).weirs = s.weirs := by
  unfold State.countCmd
  split
  · rfl
  · dsimp only
    split <;> exact countBytes_weirs _ _ _ _ _

/-- A tile's entry, set or deleted, changes a crew or a domain: neither the weirs nor the commands. -/
theorem setTile_rest (s : State) (wid : Nat) (w : Warp) (dn n : Nat) (v : Option Tile) :
    (s.setTile wid w dn n v).weirs = s.weirs ∧ (s.setTile wid w dn n v).cmds = s.cmds := by
  by_cases e : dn = 0
  · simp only [State.setTile, if_pos e, State.updCrew_weirs, State.updCrew_cmds, and_self]
  · simp only [State.setTile, if_neg e, State.updDom_weirs, State.updDom_cmds, and_self]

theorem setProg_rest (s : State) (wid dn slot prog : Nat) :
    (s.setProg wid dn slot prog).weirs = s.weirs ∧ (s.setProg wid dn slot prog).cmds = s.cmds := by
  unfold State.setProg
  split
  · exact ⟨rfl, rfl⟩
  · split
    · exact ⟨rfl, rfl⟩
    · exact setTile_rest _ _ _ _ _ _

/-! ### Partial sums of a bag (R215) -/

/-- What two partial sums of a bag come to in a lane: a lane that one of them alone holds is taken as it is. -/
def joinLane : Option Word × Option Word → Option Word
  | (some a, some b) => some (BitVec.ofNat 32 (add32 a.toNat b.toNat))
  | (some a, none) => some a
  | (none, b) => b

/-- The partial sum at the engine with that of a port added to it, lane by lane; the engine's mark stays where it has one. -/
def Partial.joined (q p : Partial) : Partial :=
  ⟨q.bag, enginePort, (q.vals.zip p.vals).map joinLane, (q.marks.zip p.marks).map fun m => firstMark [m.1, m.2]⟩

/-! ### The next step of a command (R197, R206, R211) -/

section
variable {s : State} {id : Nat} {c : Cmd}

/-- The next step of a command that has begun is its kind's. -/
theorem cmdNext_begun {t : State} (hr : s.cmdRuns id c = true) (hd : s.cmdReady c = true) (hb : c.begun = true)
    (hn : s.bodyNext id c = .go t) : s.cmdNext id c = .go t := by
  simp only [State.cmdNext, State.mayStep, hr, hd, hb, Bool.true_or, Bool.and_self, Bool.not_true, Bool.false_eq_true, if_false, hn, if_true]

/-- A command that has not begun waits for those before it in its queue that have yet to begin. -/
theorem cmdNext_behind (hb : c.begun = false) (hq : s.queueAhead id c = true) : s.cmdNext id c = .wait := by
  simp only [State.cmdNext, State.mayStep, hb, hq, Bool.not_true, Bool.or_self, Bool.and_false, Bool.not_false, if_true]

/-- The piece that is next is one of those that have not landed. -/
theorem nextPiece_left {pieces : List (Nat × Nat)} {a n : Nat} (h : s.nextPiece c pieces = some (a, n)) : (a, n) ∈ pieces ∧ a ∉ c.ahead := by
  obtain ⟨hp, ha⟩ := List.mem_filter.1 (List.mem_of_getElem? h)
  exact ⟨hp, by simpa using ha⟩

/-- A command that is not over goes on. -/
theorem closeOver_open (hc : Tbl.find s.cmds id = some c) (ho : s.cmdOver c = false) : s.closeOver id = s := by
  simp only [State.closeOver, hc, ho, Bool.false_eq_true, if_false]

theorem cmdStep_go {t : State} (hw : (s.drawTree c t).weirs = s.weirs) : s.cmdStep id c (.go t) = (s.drawTree c t).closeOver id := by
  rw [State.cmdStep, throughWeirs_same hw]

section
variable (hc : Tbl.find s.cmds id = some c)
include hc

/-- A landing is the next step of a command; an `mma` alone moves by the array's events (R238). -/
theorem engineLanding_steps (hm : ∀ f, c.body ≠ .mma f) :
    exec (.engineLanding id) s = .next ((s.cmdStep id c (s.cmdNext id c)).tidyModels) := by
  simp only [exec, execEngineLanding, hc]

theorem engineLanding_behind (hm : ∀ f, c.body ≠ .mma f) (hb : c.begun = false) (hq : s.queueAhead id c = true) :
    exec (.engineLanding id) s = .next s.tidyModels := by
  rw [engineLanding_steps hc hm, cmdNext_behind hb hq]
  rfl

theorem engineLanding_go {t : State} (hm : ∀ f, c.body ≠ .mma f) (hn : s.cmdNext id c = .go t) (hw : (s.drawTree c t).weirs = s.weirs) :
    exec (.engineLanding id) s = .next (((s.drawTree c t).closeOver id).tidyModels) := by
  rw [engineLanding_steps hc hm, hn, cmdStep_go hw]

/-- A piece of a fill lands its pattern and counts (R211). -/
theorem engineLanding_tfill {f : TfillF} {e : RegEnd} {a n : Nat} {pieces : List (Nat × Nat)} (hf : c.body = .tfill f)
    (hr : s.cmdRuns id c = true) (hd : s.cmdReady c = true) (hb : c.begun = true) (he : e = c.regEnd c.tile (c.sc f.doff.toNat))
    (hp : pieces = c.chunk (fun a => min (min 256 (c.sc f.len.toNat - a)) (toChunk a)) (c.sc f.len.toNat))
    (hn : s.nextPiece c pieces = some (a, n)) :
    exec (.engineLanding id) s = .next (((((s.updCore c.core fun k =>
      k.landWords (e.base + (e.off + a) / 4) (List.replicate (n / 4) (c.scal.getD f.pat.toNat 0, 0))).countCmd id n
        (e.span (e.off + a) n)).updCmd id fun c => c.landed pieces a).closeOver id).tidyModels) := by
  subst he hp
  have hm : ∀ g, c.body ≠ .mma g := by simp [hf]
  have hdraw (t : State) : s.drawTree c t = t := by simp only [State.drawTree, hf]
  have hstep : s.cmdNext id c = .go _ := cmdNext_begun hr hd hb (by
    simp only [State.bodyNext, hf, State.tfillNext, hn]
    rfl)
  rw [engineLanding_go hc hm hstep (by rw [hdraw, State.updCmd_weirs, countCmd_weirs, State.updCore_weirs]), hdraw]

/-! ### Ends and failures (R199, R201, R212) -/

theorem engineCommandEnd_over (hr : s.cmdRuns id c = true) (ho : s.cmdOver c = true) :
    exec (.engineCommandEnd id) s = .next (s.closeCmd id c) := by
  simp only [exec, execEngineCommandEnd, hc, hr, ho, Bool.and_self, if_true]

theorem engineCommandEnd_plain (hr : s.cmdRuns id c = true) (ho : s.cmdOver c = true) (h1 : ∀ f, c.body ≠ .copymc f)
    (h2 : ∀ f, c.body ≠ .gath f) (h3 : ∀ f, c.body ≠ .eseq f) : exec (.engineCommandEnd id) s = .next (s.endCmd id 1 0) := by
  rw [engineCommandEnd_over hc hr ho]
  simp only [State.closeCmd]

/-- An `eseq` ends once the commands before it have, and counts at its end (R212). -/
theorem engineCommandEnd_eseq {f : EseqF} (hr : s.cmdRuns id c = true) (hd : s.cmdReady c = true) (hf : c.body = .eseq f) :
    exec (.engineCommandEnd id) s = .next ((s.countCmd id f.cnt.toNat []).endCmd id 1 0) := by
  have ho : s.cmdOver c = true := by simp only [State.cmdOver, hf, hd]
  rw [engineCommandEnd_over hc hr ho]
  simp only [State.closeCmd, hf]

theorem engineCommandFail_fails {t : Trap} (hn : s.cmdNext id c = .fail t) (ht : t.cause ≠ 0x59) :
    exec (.engineCommandFail id) s = .next ((s.failCmd id t).tidyModels) := by
  simp only [exec, execEngineCommandFail, hc, hn, State.failAfter, if_neg ht]

/-! ### A copy at an exporting core (R208, R210) -/

section
variable {j : Nat} {t : McTarget} (hj : c.targets[j]? = some t) (hr : s.cmdRuns id c = true) (hd : s.cmdReady c = true)
  (hb : c.begun = true) (hk : t.checked = false)
include hj hr hd hb hk

/-- A target that has not been seen is checked. -/
theorem windowCopyCheck_checks : exec (.windowCopyCheck id j) s = .next (s.checkTarget id c j t) := by
  simp only [exec, execWindowCopyCheck, hc, hj, hr, hd, hb, hk, Bool.not_false, Bool.and_self, if_true]

theorem windowCopyCheck_admits {u : McTarget} (hu : s.winAdmit c t = .inr u) (hg : s.givenIds u.core u.grans = []) :
    exec (.windowCopyCheck id j) s = .next ((s.setTarget id j u).updCore u.core fun k =>
      u.grans.foldl (fun k g => k.setGran g { k.gran g with inf := true }) k) := by
  rw [windowCopyCheck_checks hc hj hr hd hb hk]
  simp only [State.checkTarget, hu, hg, ne_eq, not_true_eq_false, if_false]

theorem windowCopyCheck_holds {u : McTarget} (hu : s.winAdmit c t = .inr u) (hg : s.givenIds u.core u.grans ≠ []) :
    exec (.windowCopyCheck id j) s = .next s := by
  rw [windowCopyCheck_checks hc hj hr hd hb hk]
  simp only [State.checkTarget, hu, if_pos hg]

theorem windowCopyCheck_failsCopy {e : Trap} {f : CopyF} (he : s.winAdmit c t = .inl e) (hf : c.body = .copy f) :
    exec (.windowCopyCheck id j) s = .next (s.failCmd id e) := by
  rw [windowCopyCheck_checks hc hj hr hd hb hk]
  simp only [State.checkTarget, he, hf]

theorem windowCopyCheck_failsTarget {e : Trap} {f : CopymcF} (he : s.winAdmit c t = .inl e) (hf : c.body = .copymc f) :
    exec (.windowCopyCheck id j) s = .next ((s.setTarget id j { t with checked := true, failed := some e }).countSettled id) := by
  rw [windowCopyCheck_checks hc hj hr hd hb hk]
  simp only [State.checkTarget, he, hf]

end

/-! ### A port's partial sum arrives (R215) -/

section
variable {f : GathF} {bag port : Nat} {p : Partial} (hr : s.cmdRuns id c = true) (hf : c.body = .gath f) (hread : c.bagEnd f bag ≤ c.next)
  (hbag : p.bag = bag) (hport : p.port = port) (hne : port ≠ enginePort)
include hr hf hread hbag hport hne

/-- A partial sum without another of its bag at the engine is the engine's. -/
theorem bankPartialArrival_first (hp : c.parts = [p]) :
    exec (.bankPartialArrival id bag port) s = .next (s.updCmd id fun c => { c with parts := [{ p with port := enginePort }] }) := by
  subst hbag hport
  have hfind : [p].find? (fun r => r.bag == p.bag && r.port == p.port && r.port != enginePort) = some p := by simp [hne]
  have hrest : [p].filter (fun r => !(r.bag == p.bag && r.port == p.port)) = [] := by simp
  simp only [exec, execBankPartialArrival, State.arrive, hc, hr, hp, hf, hfind, hrest, decide_eq_true hread, Bool.not_true, Bool.false_eq_true,
    if_false, if_true, List.find?_nil, List.filter_nil]

/-- Another is joined to that of its bag at the engine. -/
theorem bankPartialArrival_joins {q : Partial} (hp : c.parts = [p, q]) (hq : q.bag = bag) (he : q.port = enginePort) :
    exec (.bankPartialArrival id bag port) s = .next (s.updCmd id fun c => { c with parts := [q.joined p] }) := by
  subst hbag hport
  have hfind : [p, q].find? (fun r => r.bag == p.bag && r.port == p.port && r.port != enginePort) = some p := by simp [hne]
  have hrest : [p, q].filter (fun r => !(r.bag == p.bag && r.port == p.port)) = [q] := by simp [he, hne.symm]
  have hown : [q].find? (fun r => r.bag == p.bag && r.port == enginePort) = some q := by simp [hq, he]
  have hnone : [q].filter (fun r => !(r.bag == p.bag && r.port == enginePort)) = [] := by simp [hq, he]
  simp only [exec, execBankPartialArrival, State.arrive, hc, hr, hp, hf, hfind, hrest, hown, hnone, decide_eq_true hread, Bool.not_true,
    Bool.false_eq_true, if_false, if_true, Partial.joined, hq, Host.Outcome.next.injEq]
  refine congrArg (s.updCmd id) (funext fun k => congrArg (fun l => { k with parts := [⟨p.bag, enginePort, l,
    (q.marks.zip p.marks).map fun m : Nat × Nat => firstMark [m.1, m.2]⟩] }) (List.map_congr_left fun v _ => ?_))
  rcases v with ⟨_ | _, _ | _⟩ <;> rfl

end

/-! ### The array (R237-R240) -/

theorem mmaStart_takes {f : MmaF} (hf : c.body = .mma f) (hr : s.cmdRuns id c = true) (hd : s.cmdReady c = true)
    (ho : s.cmdOver c = false) (ha : (s.core c.core).array = none) :
    exec (.mmaStart id) s = .next ((s.updCmd id fun c => { c with started := true, begun := true }).updCore c.core fun k =>
      { k with array := some id }) := by
  simp only [exec, execMmaStart, hc, hf, hr, hd, ho, ha, Option.isNone_none, Bool.not_false, Bool.and_self, if_true]

end

/-- The words of a k-group that have yet to land: those that are left of it, or those of the next one. -/
def State.GroupWords (s : State) (c : Cmd) (f : MmaF) (ct : Tile) (t : State) (words : List (Nat × Word × Nat)) : Prop :=
  (c.words ≠ [] ∧ t = s ∧ words = c.words) ∨ (c.words = [] ∧ s.mmaGroup c f ct = .ok (t, words))

/-- What lands of a k-group that is not the last: with the last of its words PROG advances. -/
theorem mmaNext_lands {f : MmaF} {ct : Tile} {t u : State} {words now left : List (Nat × Word × Nat)} (hst : c.started = true)
    (hct : c.tile = some ct) (hlast : c.done + 1 < c.sc f.ks.toNat / 32) (hg : s.GroupWords c f ct t words)
    (hpick : (now, left) = pickFrom words (Config.wordOrder t.tick))
    (hu : u = t.updCore c.core fun k => now.foldl (fun k w => k.engWord w.1 w.2.1 w.2.2) k) :
    s.mmaNext id c f = .go (if left ≠ [] then u.updCmd id fun c => { c with words := left }
      else (u.updCmd id fun c => { c with words := [], done := c.done + 1 }).setProg c.wid c.dom f.ct.val (32 * (c.done + 1))) := by
  have hmore : ¬c.sc f.ks.toNat / 32 ≤ c.done := by omega
  have hwords : (if c.words.isEmpty then s.mmaGroup c f ct else .ok (s, c.words)) = .ok (t, words) := by
    rcases hg with ⟨hw, rfl, rfl⟩ | ⟨hw, hg⟩
    · rw [if_neg (by simpa using hw)]
    · rw [if_pos (by simp [hw]), hg]
  subst hu
  simp only [State.mmaNext, hct, hst, decide_eq_false hmore, Bool.not_true, Bool.or_self, Bool.false_eq_true, if_false, hwords, ← hpick,
    if_pos hlast]
  cases left <;> rfl

/-- A matrix command with a k-group left goes on when a field of it has changed. -/
theorem closeOver_kgroups {t : State} {f : MmaF} {g : Cmd → Cmd} (hc : Tbl.find s.cmds id = some c) (ht : t.cmds = Tbl.upd s.cmds id g)
    (hf : (g c).body = .mma f) (hd : (g c).done < (g c).sc f.ks.toNat / 32) : t.closeOver id = t := by
  refine closeOver_open (c := g c) (by rw [ht, Tbl.find_upd, if_pos rfl, hc]; rfl) ?_
  simp only [State.cmdOver, hf, decide_eq_false (Nat.not_le.2 hd), Bool.and_false]

end

/-- The k-group that is next of a running command lands or goes on (R238, R239). -/
theorem mmaKgroup_lands {s t u : State} {core id : Nat} {c : Cmd} {f : MmaF} {ct : Tile} {words now left : List (Nat × Word × Nat)}
    (ha : (s.core core).array = some id) (hc : Tbl.find s.cmds id = some c) (hf : c.body = .mma f) (hr : s.cmdRuns id c = true)
    (hd : s.cmdReady c = true) (hst : c.started = true) (hb : c.begun = true) (hct : c.tile = some ct)
    (hlast : c.done + 1 < c.sc f.ks.toNat / 32) (hg : s.GroupWords c f ct t words) (hw : t.weirs = s.weirs) (hcm : t.cmds = s.cmds)
    (hpick : (now, left) = pickFrom words (Config.wordOrder t.tick))
    (hu : u = t.updCore c.core fun k => now.foldl (fun k w => k.engWord w.1 w.2.1 w.2.2) k) :
    exec (.mmaKgroup core) s = .next (if left ≠ [] then u.updCmd id fun c => { c with words := left }
      else (u.updCmd id fun c => { c with words := [], done := c.done + 1 }).setProg c.wid c.dom f.ct.val (32 * (c.done + 1))) := by
  have hdraw (t : State) : s.drawTree c t = t := by simp only [State.drawTree, hf]
  have huw : u.weirs = s.weirs := by rw [hu, State.updCore_weirs, hw]
  have huc : u.cmds = s.cmds := by rw [hu, State.updCore_cmds, hcm]
  have hnext := cmdNext_begun hr hd hb (show s.bodyNext id c = .go _ by
    simp only [State.bodyNext, hf]
    exact mmaNext_lands (id := id) hst hct hlast hg hpick hu)
  simp only [exec, execMmaKgroup, ha, hc, hnext]
  refine congrArg Host.Outcome.next ?_
  split
  · rw [cmdStep_go (by rw [hdraw, State.updCmd_weirs, huw]), hdraw]
    exact closeOver_kgroups hc (by rw [State.updCmd_cmds, huc]) hf (Nat.lt_of_succ_lt hlast)
  · obtain ⟨hpw, hpc⟩ := setProg_rest (u.updCmd id fun c => { c with words := [], done := c.done + 1 }) c.wid c.dom f.ct.val (32 * (c.done + 1))
    rw [cmdStep_go (by rw [hdraw, hpw, State.updCmd_weirs, huw]), hdraw]
    exact closeOver_kgroups hc (by rw [hpc, State.updCmd_cmds, huc]) hf hlast

/-- Settles O26, event by event. -/
theorem engineEventsHappen : Obligations.EngineEventsHappen := by
  intro s
  refine ⟨fun _ _ _ _ hx hp hr => engineQueueAccept_strand hx hp hr, fun _ _ _ _ hk hf hs hr => engineQueueAccept_fe hk hf hs hr,
    fun _ _ hc hm hb hq => engineLanding_behind hc hm hb hq,
    fun _ _ _ _ _ _ _ hc hf hr hd hb he hp hn => ⟨nextPiece_left hn, engineLanding_tfill hc hf hr hd hb he hp hn⟩,
    fun _ _ _ hc hm hn hw => engineLanding_go hc hm hn hw, fun _ _ hc hr ho h1 h2 h3 => engineCommandEnd_plain hc hr ho h1 h2 h3,
    fun _ _ _ hc hr hd hf => engineCommandEnd_eseq hc hr hd hf, fun _ _ _ hc hn ht => engineCommandFail_fails hc hn ht,
    fun _ _ _ _ hc hj hr hd hb hk => ⟨fun _ hu hg => windowCopyCheck_admits hc hj hr hd hb hk hu hg,
      fun _ hu hg => windowCopyCheck_holds hc hj hr hd hb hk hu hg, fun _ _ he hf => windowCopyCheck_failsCopy hc hj hr hd hb hk he hf,
      fun _ _ he hf => windowCopyCheck_failsTarget hc hj hr hd hb hk he hf⟩,
    fun _ _ _ _ _ _ hc hr hf hread hbag hport hne => ⟨bankPartialArrival_first hc hr hf hread hbag hport hne, fun q hp hq he => ?_⟩,
    fun _ _ _ hc hf hr hd ho ha => mmaStart_takes hc hf hr hd ho ha, fun _ _ _ _ _ _ _ _ _ _ ha hc hf hr hd hst hb hct hlast hg hw hcm
      hpick hu => ⟨fun hl => ?_, fun hl => ?_⟩⟩
  · subst hq
    exact bankPartialArrival_joins hc hr hf hread hbag hport hne hp rfl he
  · rw [mmaKgroup_lands ha hc hf hr hd hst hb hct hlast hg hw hcm hpick hu, if_pos hl]
  · rw [mmaKgroup_lands ha hc hf hr hd hst hb hct hlast hg hw hcm hpick hu, if_neg (not_not_intro hl)]

end Sys2Proof.Machine
end


section
/-! Front-end contexts: what an instruction of class 7 waits for, and the queues of the crew's warps (R217, R219, R220, R224). -/

namespace Sys2Proof.Machine

section
variable {s : State} {x : FeWho}

/-! ### The common parts of class 7 -/

theorem feLoading_free {l : List Nat} (h : FeFree s x l) : s.feLoading x l = false := by
  rw [State.feLoading, List.any_eq_false]
  intro p hp hload
  simp only [Bool.and_eq_true, beq_iff_eq, List.any_eq_true, List.contains_iff_mem] at hload
  obtain ⟨⟨hagent, hpend⟩, q, hq, d, hd, hmem⟩ := hload
  exact h p hp hagent hpend q hq d hd hmem

theorem feReady_free {l : List Nat} (h : FeFree s x l) (k : State) : s.feReady x l k = k := by
  simp only [State.feReady, feLoading_free h, Bool.false_eq_true, if_false]

/-- An instruction none of whose registers is being loaded goes on. -/
theorem feIssue_free {l : List Nat} (hc : FeClear s x) (h : FeFree s x l) (k : FeWho → State) :
    feIssue s (fun y => s.feReady y l (k y)) = .next (k x) := by
  rw [feIssue_clear hc, feReady_free h]

theorem feSet_eq_done (d : AOpnd) (v : Dword) : s.feSet x d v = s.withFe x fun g => g.done d v := by
  cases d <;> rfl

section
variable {i : Nat} {w : Warp}

theorem feAtWarp_found {n : Fin 32} (h : s.feWarp x n = some (i, w)) (k : Nat → Warp → State) : s.feAtWarp x n k = k i w := by
  simp only [State.feAtWarp, h]

theorem feRoom_full {q : Nat} (h : 16 ≤ (w.queue q).entries.length) (k : State) : s.feRoom x w q k = s.stall x.cid .queue := by
  rw [State.feRoom, if_pos h]

theorem feRoom_unfinished {q : Nat} (h : (w.queue q).entries.length < 16) (hu : s.unfinished (.fe x.cid) = true) (k : State) :
    s.feRoom x w q k = s.stall x.cid .release := by
  rw [State.feRoom, if_neg (Nat.not_le.2 h), if_pos hu]

theorem feRoom_free {q : Nat} (h : (w.queue q).entries.length < 16) (hu : s.unfinished (.fe x.cid) = false) (k : State) :
    s.feRoom x w q k = k := by
  rw [State.feRoom, if_neg (Nat.not_le.2 h), if_neg (Bool.eq_false_iff.1 hu)]

theorem feHead_cons {q : Nat} {e : QEntry} {l : List QEntry} (h : (w.queue q).entries = e :: l) (k : QEntry → State) :
    s.feHead x w q k = k e := by
  simp only [State.feHead, h]

theorem feHead_empty {q : Nat} (h : (w.queue q).entries = []) (ho : (w.queue q).closed = false) (k : QEntry → State) :
    s.feHead x w q k = s.stall x.cid .queue := by
  simp only [State.feHead, h, ho, Bool.false_eq_true, if_false]

end

/-! ### `amov` (R220) -/

section
variable (hc : FeClear s x) {f : AMovF}
include hc

theorem amov_registers (ha : ∀ k, f.a ≠ .q k) (hd : ∀ k, f.d ≠ .q k) (hf : FeFree s x (AOpnd.regs f.d ++ AOpnd.regs f.a)) :
    exec (.amov f) s = .next (s.withFe x fun g => g.done f.d (x.val f.a)) := by
  obtain ⟨d, a, n⟩ := f
  show execAmov ⟨d, a, n⟩ s = _
  refine (feIssue_free hc hf _).trans (congrArg Host.Outcome.next ?_)
  cases d with
  | q k => exact absurd rfl (hd k)
  | a _ | zero =>
    cases a with
    | q k => exact absurd rfl (ha k)
    | a _ | zero => exact feSet_eq_done _ _

variable {i : Nat} {w : Warp} {q : Fin 8} (hw : s.feWarp x f.warp = some (i, w))
include hw

theorem amov_pushes (hd : f.d = .q q) (ha : ∀ k, f.a ≠ .q k) (hf : FeFree s x (AOpnd.regs f.a))
    (hroom : (w.queue q.val).entries.length < 16) (hu : s.unfinished (.fe x.cid) = false) :
    exec (.amov f) s = .next ((s.push i (some (q.val, [⟨false, [(x.val f.a).setWidth 32]⟩]))).withFe x fun g => g.advance 1) := by
  obtain ⟨d, a, n⟩ := f
  subst hd
  show execAmov ⟨.q q, a, n⟩ s = _
  refine (feIssue_free hc hf _).trans (congrArg Host.Outcome.next ?_)
  cases a with
  | q k => exact absurd rfl (ha k)
  | a _ | zero => exact (feAtWarp_found hw _).trans (feRoom_free hroom hu _)

theorem amov_pops {e : QEntry} {l : List QEntry} (ha : f.a = .q q) (hd : ∀ k, f.d ≠ .q k) (hf : FeFree s x (AOpnd.regs f.d))
    (he : (w.queue q.val).entries = e :: l) :
    exec (.amov f) s = .next ((s.fePop i q.val).withFe x fun g => g.done f.d ((e.words.getD 0 0).setWidth 64)) := by
  obtain ⟨d, a, n⟩ := f
  subst ha
  have hfree : FeFree s x (AOpnd.regs d ++ AOpnd.regs (.q q)) := by rwa [show AOpnd.regs (.q q) = [] from rfl, List.append_nil]
  show execAmov ⟨d, .q q, n⟩ s = _
  refine (feIssue_free hc hfree _).trans (congrArg Host.Outcome.next ?_)
  refine (feAtWarp_found hw _).trans ((feHead_cons he _).trans ?_)
  cases d with
  | q k => exact absurd rfl (hd k)
  | a _ | zero => exact feSet_eq_done _ _

end

/-! ### `apush`, `apushm` and `apop` (R219, R220) -/

section
variable (hc : FeClear s x) {i : Nat} {w : Warp}
include hc

/-- Past its interlock `apush` finds its warp, and the queue's room decides. -/
theorem exec_apush_room {f : ApushF} (hf : FeFree s x (AOpnd.regs f.a ++ AOpnd.regs f.b)) (hw : s.feWarp x f.warp = some (i, w)) :
    exec (.apush f) s = .next (s.feRoom x w f.q.val ((s.push i (some (f.q.val, [⟨true, (List.range w.width).map fun l =>
      (x.val f.a + BitVec.ofNat 64 l * x.val f.b).setWidth 32⟩]))).withFe x fun g => g.advance 1)) := by
  show execApush f s = _
  exact (feIssue_free hc hf _).trans (congrArg Host.Outcome.next (feAtWarp_found hw _))

theorem apushm_pushes {f : ApushmF} {ws : List Word} (hf : FeFree s x (AOpnd.regs f.a)) (hw : s.feWarp x f.warp = some (i, w))
    (ha : x.f.arriving = some ws) (hroom : (w.queue f.q.val).entries.length < 16) (hu : s.unfinished (.fe x.cid) = false) :
    exec (.apushm f) s = .next ((s.push i (some (f.q.val, [⟨true, ws⟩]))).withFe x fun g => { g.advance 1 with arriving := none }) := by
  show execApushm f s = _
  refine (feIssue_free hc hf _).trans (congrArg Host.Outcome.next ((feAtWarp_found hw _).trans ?_))
  simp only [ha]
  exact feRoom_free hroom hu _

section
variable {f : ApopF} (hw : s.feWarp x f.warp = some (i, w))
include hw

/-- `apop` finds its warp and asks for the head of the queue. -/
theorem exec_apop_head : exec (.apop f) s = .next (s.feHead x w (4 + f.q.val) fun e =>
    if 32 < f.d.val + (popRegs f.d.val e).length then s.feStop x.cid { cause := 0x7C }
    else s.feReady x ((popRegs f.d.val e).map Prod.fst) ((s.fePop i (4 + f.q.val)).withFe x fun g =>
      { g.advance 1 with regs := (popRegs f.d.val e).foldl (fun r p => r.set p.1 p.2) g.regs })) := by
  show execApop f s = _
  exact (feIssue_clear hc _).trans (congrArg Host.Outcome.next (feAtWarp_found hw _))

theorem apop_pops {e : QEntry} {l : List QEntry} (he : (w.queue (4 + f.q.val)).entries = e :: l)
    (hf : FeFree s x ((popRegs f.d.val e).map Prod.fst)) (hfits : f.d.val + (popRegs f.d.val e).length ≤ 32) :
    exec (.apop f) s = .next ((s.fePop i (4 + f.q.val)).withFe x fun g =>
      { g.advance 1 with regs := (popRegs f.d.val e).foldl (fun r p => r.set p.1 p.2) g.regs }) := by
  rw [exec_apop_head hc hw, feHead_cons he, if_neg (Nat.not_lt.2 hfits), feReady_free hf]

theorem apop_waits (he : (w.queue (4 + f.q.val)).entries = []) (ho : (w.queue (4 + f.q.val)).closed = false) :
    exec (.apop f) s = .next (s.stall x.cid .queue) := by
  rw [exec_apop_head hc hw, feHead_empty he ho]

end

end

end

/-- Settles O43, instruction by instruction. -/
theorem frontEndQueues : Obligations.FrontEndQueues := by
  intro s x i w hc
  refine ⟨fun _ => amov_registers hc, fun _ _ hd ha hf hw => amov_pushes hc hw hd ha hf,
    fun _ _ _ _ ha hd hf hw => amov_pops hc hw ha hd hf, fun f hf hw => ?_, fun _ _ hf hw => apushm_pushes hc hf hw,
    fun _ hw => ⟨fun _ _ => apop_pops hc hw, apop_waits hc hw⟩⟩
  rw [exec_apush_room hc hf hw]
  exact ⟨fun h => by rw [feRoom_full h], fun h hu => by rw [feRoom_unfinished h hu], fun h hu => by rw [feRoom_free h hu]⟩

end Sys2Proof.Machine
end


section
/-! Front-end contexts: their accesses to memory, their engine commands, and their end (R221-R223). -/

namespace Sys2Proof.Machine

section
variable {s : State} {x : FeWho} (hc : FeClear s x)

/-! ### Memory (R221) -/

/-- An access of one lane that passes its checks, by a context that waits for no walk: its translation enters the TLB, and it goes out. -/
theorem feMem_one {r : Rcd} {k : AccKind} {lanes : List (Nat × Word)} {z l va : Nat} {tr : Tr} (hs : x.f.stalled = none)
    (hm : s.memCheck (.fe x.cid) x.k.core x.ctx 0 r k .warp lanes 0 z false = .ok [(l, va, tr)]) (ht : tr.isReplay = false)
    (go : State → List (Nat × Nat × Tr) → State) :
    s.feMem x r k lanes z go = go ((s.dropWalks (.fe x.cid)).fillTlb x.k.core x.ctx va) [(l, va, tr)] := by
  simp only [State.feMem, hs, Option.any_none, Bool.false_eq_true, if_false, hm, List.find?_cons, ht, List.find?_nil, List.foldl_cons,
    List.foldl_nil]

section
variable {l va : Nat} {tr : Tr}
include hc

theorem ald_requests {f : AldF} (hs : x.f.stalled = none) (hf : FeFree s x (AOpnd.regs f.d ++ AOpnd.regs f.a))
    (hm : s.memCheck (.fe x.cid) x.k.core x.ctx 0 (x.rcd f.rcd) .load .warp [(0, (x.val f.a).setWidth 32)] 0 (AWidth.bytes f.width) false =
      .ok [(l, va, tr)]) (ht : tr.isReplay = false) :
    exec (.ald f) s = .next ((((s.dropWalks (.fe x.cid)).fillTlb x.k.core x.ctx va).feRequest x (x.rcd f.rcd) .load (AWidth.bytes f.width)
      [⟨l, va, tr.paOr, [], 0, 0, 0, (AOpnd.regs f.d).flatMap fun d => [(0, 2 * d), (1, 2 * d + 1)]⟩] (some 0)).withFe x fun g => g.advance 1) := by
  show execAld f s = _
  exact (feIssue_free hc hf _).trans (congrArg Host.Outcome.next (feMem_one hs hm ht _))

theorem ast_requests {f : AstF} (hs : x.f.stalled = none) (hf : FeFree s x (AOpnd.regs f.a ++ AOpnd.regs f.b))
    (hm : s.memCheck (.fe x.cid) x.k.core x.ctx 0 (x.rcd f.rcd) .store .warp [(0, (x.val f.a).setWidth 32)] 0 (AWidth.bytes f.width) false =
      .ok [(l, va, tr)]) (ht : tr.isReplay = false) :
    exec (.ast f) s = .next ((((s.dropWalks (.fe x.cid)).fillTlb x.k.core x.ctx va).feRequest x (x.rcd f.rcd) .store (AWidth.bytes f.width)
      [⟨l, va, tr.paOr, leBytes (AWidth.bytes f.width) (x.val f.b).toNat, 0, 0, 0, []⟩] none).withFe x fun g => g.advance 1) := by
  show execAst f s = _
  exact (feIssue_free hc hf _).trans (congrArg Host.Outcome.next (feMem_one hs hm ht _))

end

/-! ### `akvw`, `aeng`, `await` and `aend` (R222, R223) -/

include hc

theorem akvw_resolves {f : AkvwF} {m : Mdl} {n : Nat} {r : SeqRec} {q : KvPos}
    (hf : FeFree s x (((List.range 4).map fun i => f.d.val + i) ++ AOpnd.regs f.a ++ AOpnd.regs f.b ++ AOpnd.regs f.c))
    (hlow : (x.val f.a).toNat < 2 ^ 32) (hseq : s.seqOf x.ctx (x.val f.a).toNat = some (m, n, r)) (harea : m.areaFault s false = none)
    (hq : m.resolve s r (x.val f.b).toNat (x.val f.c).toNat false = .ok q) :
    exec (.akvw f) s = .next (s.withFe x fun g =>
      { g.advance 1 with
        regs := (((g.regs.set f.d.val (BitVec.ofNat 64 (m.pool + q.block * m.bsize))).set (f.d.val + 1) (BitVec.ofNat 64 (q.k % 16))).set
          (f.d.val + 2) (BitVec.ofNat 64 q.abs)).set (f.d.val + 3) (BitVec.ofNat 64 (if q.wm = 0 then 0 else 1)) }) := by
  show execAkvw f s = _
  refine (feIssue_free hc hf _).trans (congrArg Host.Outcome.next ?_)
  simp only [if_pos hlow, hseq, harea, hq]
  rfl

section
variable {f : AengF} {wid : Nat} {w : Warp} {d : Dom} (hw : s.feWarp x f.wt = some (wid, w)) (hd : w.dom 0 = some d)
  (ht : ∀ c, f.body = .copy c → c.thn = false)
  (q : EngOk s (x.iss wid w d) ⟨0, f.sync, f.stat⟩ (engReads s (x.iss wid w d) f.body) (engChk s (x.iss wid w d) f.body) (engWrites f.body))
  (z : LastOk s (x.iss wid w d) ⟨0, f.sync, f.stat⟩ f.body)
include hw hd ht q z

/-- `aeng` passes every row: the room in the core's queue, which a command holds till its end (log 58), decides between its acceptance
and a wait. -/
theorem exec_aeng_passed : exec (.aeng f) s = .next (if s.queueRoom x.k.core 1 then
    (s.accept (x.iss wid w d) ⟨0, f.sync, f.stat⟩ f.body (engTake s (x.iss wid w d) f.body) none none).1.withFe x fun g => g.advance 2
    else s.stall x.cid .engine) := by
  have hsync : badSync f.sync.toNat = false := badSync_false q.pair.1 q.pair.2
  show execAeng f s = _
  refine (feIssue_clear hc _).trans (congrArg Host.Outcome.next ?_)
  rw [hsync, if_neg Bool.false_ne_true, feAtWarp_found hw]
  simp only [hd, admitBody_ok q z ht]
  show _ = if s.queueRoom (x.iss wid w d).core 1 then _ else _
  cases s.queueRoom (x.iss wid w d).core 1 with
  | false => rfl
  | true =>
    simp only [if_true]
    split
    next c e => rw [ht c e]; rfl
    next => rfl

theorem aeng_accepted (hr : (s.core x.k.core).cmds.length < 16) :
    ∃ t, Accepted s (x.iss wid w d) ⟨0, f.sync, f.stat⟩ f.body (engTake s (x.iss wid w d) f.body) (w.seqno + 1) none none t ∧
      exec (.aeng f) s = .next (t.withFe x fun g => g.advance 2) := by
  refine ⟨_, (accept_spec s (x.iss wid w d) ⟨0, f.sync, f.stat⟩ f.body (engTake s (x.iss wid w d) f.body) none none).2, ?_⟩
  rw [exec_aeng_passed hc hw hd ht q z, queueRoom_one hr, if_pos rfl]

theorem aeng_waits (hr : 16 ≤ (s.core x.k.core).cmds.length) : exec (.aeng f) s = .next (s.stall x.cid .engine) := by
  have hfull : s.queueRoom x.k.core 1 = false := decide_eq_false (by omega)
  rw [exec_aeng_passed hc hw hd ht q z, hfull, if_neg Bool.false_ne_true]

end

section
variable {f : AwaitF} {wid : Nat} {w : Warp} {d : Dom}

/-- With neither word of its pair marked and nothing pending on it, `await` turns on the pair's generation alone. -/
theorem exec_await_unmarked (hf : FeFree s x (AOpnd.regs f.a)) (hw : s.feWarp x f.warp = some (wid, w)) (hd : w.dom 0 = some d)
    (hlo : (s.core x.k.core).mark (d.scal f.k.toNat) = 0) (hhi : (s.core x.k.core).mark (d.scal (f.k.toNat + 1)) = 0)
    (hp : s.pendingOn wid 0 f.k.toNat = none) :
    exec (.await f) s = .next (if genReached (syncGen (s.pair x.k.core d f.k.toNat)) ((x.val f.a).toNat % 65536)
      then s.withFe x fun g => g.advance 1 else s.stall x.cid .sync) := by
  show execAwait f s = _
  refine (feIssue_free hc hf _).trans (congrArg Host.Outcome.next ((feAtWarp_found hw _).trans ?_))
  have hmark : ([d.scal f.k.toNat, d.scal (f.k.toNat + 1)].find? fun a => (s.core x.k.core).mark a != 0) = none := by
    simp [hlo, hhi]
  simp only [hd, hmark, hp]
  rfl

end

/-- `aend` stops the context for no cause, and its warps find their queues closed. -/
theorem exec_aend_closes : exec .aend s =
    .next ((s.withFe x fun f => { f with stopped := some { cause := 0 }, stalled := none }).closeFeQueues x.k) := by
  show execAend s = _
  exact feIssue_clear hc _

end

/-- Settles O44, instruction by instruction. -/
theorem frontEndCommands : Obligations.FrontEndCommands := by
  intro s x hc hs
  refine ⟨fun _ _ _ _ hf hm ht => ⟨_, rfl, ald_requests hc hs hf hm ht⟩, fun _ _ _ _ hf hm ht => ⟨_, rfl, ast_requests hc hs hf hm ht⟩,
    fun _ _ _ _ _ => akvw_resolves hc, fun _ _ _ _ _ _ hw hd hi hh ht q z => ?_, fun _ _ _ _ _ hk hf hw hd hlo hhi hp => ?_,
    exec_aend_closes hc⟩
  · subst hi hh
    exact ⟨aeng_accepted hc hw hd ht q z, aeng_waits hc hw hd ht q z⟩
  · subst hk
    rw [exec_await_unmarked hc hf hw hd hlo hhi hp]
    exact ⟨fun h => by rw [if_pos h], fun h => by rw [if_neg (Bool.eq_false_iff.1 h)]⟩

end Sys2Proof.Machine
end

section
/-! Repair jobs: established for an `rpopen` that nothing keeps from it, and moved on by the end of their graph (R266, R347, R367). -/

namespace Sys2Proof.Machine

/-! ### What a step of the repair engine passes (R266, R347) -/

/-- An `rpopen` with no job yet has none that its context could have stopped. -/
theorem jobRuns_without_job {s : State} {id : Nat} {c : Cmd} (hj : c.job = none) : s.jobRuns id c = s.cmdRuns id c := by
  simp only [State.jobRuns, hj, Option.any_none, Bool.not_false, Bool.and_true]

/-- A store whose areas can be reached stops nothing. -/
theorem areaStop_reached {s : State} {id : Nat} {c : Cmd} {m : Mdl} (h : m.areaFault s true = none) (fail : Trap → State) (k : State) :
    s.areaStop id c m fail k = k := by
  simp only [State.areaStop, h]

/-- A spliced node without a job may have one, at a depth that the model has. -/
theorem jobRefused_none {m : Mdl} {x : Node} {depth : Nat} (hs : x.state = 2) (hj : x.job = noJob) (hd : depth < m.layers) :
    m.jobRefused x depth = none := by
  simp only [Mdl.jobRefused, hs, hj, if_neg (Nat.not_le.2 hd), ne_eq, not_true_eq_false, if_false]

/-! ### A job begins (R266) -/

theorem repairJobStart_establishes {s : State} {id : Nat} {c : Cmd} {f : KvF} {m : Mdl} {q : Nat} {r : SeqRec} {n : Nat} {x : Node}
    {key gen : Nat} (hc : Tbl.find s.cmds id = some c) (hf : c.body = .rpopen f) (hr : s.cmdRuns id c = true)
    (hm : s.mayStep id c = true) (hj : c.job = none) (hq : (s.begin id).seqOf c.ctx (c.sc f.sa.toNat) = some (m, q, r))
    (ha : m.areaFault (s.begin id) true = none)
    (hn : ((m.pathOf (s.begin id) r).find? fun q => q.2.start == c.sc f.sb.toNat) = some (n, x))
    (hx : m.jobRefused x (c.sc f.sd.toNat / 256 % 256) = none) (hk : (s.begin id).freeJob (dieOf c.core) = some (key, gen)) :
    exec (.repairJobStart id) s = .next (s.jobStep c ((s.begin id).establish id c f m n key gen)) := by
  have hruns : s.jobRuns id c = true := (jobRuns_without_job hj).trans hr
  simp only [exec, execRepairJobStart, hc, hf, hruns, hm, hj, hq, areaStop_reached ha, hn, hx, hk, Bool.not_true, Bool.or_self,
    Bool.false_eq_true, if_false]

/-! ### A template graph ends (R266) -/

section
variable {s : State} {die slot : Nat} {j : Job} {c : Cmd} {m : Mdl} (hj : Tbl.find s.jobs (die * 64 + slot) = some j)
  (hc : Tbl.find s.cmds j.cmd = some c) (hm : s.mdlAt j.model = some m) (hl : j.live = true) (hf : j.fired = true)
  (hr : s.jobRuns j.cmd c = true) (ha : m.areaFault s true = none) (hg : s.rangeFault c.ctx j.graph 128 .both = none)
  (hgst : gGst (s.rec_ c.ctx j.graph) = 2)
include hj hc hm hl hf hr ha hg hgst

/-- A complete graph is the probe's or a layer's. -/
theorem repairGraphEnd_complete : exec (.repairGraphEnd die slot) s = .next (s.jobStep c
    (if j.jst = 1 then s.endProbe (die * 64 + slot) m j c
    else ((m.swap s j.node j.layer).updJob (die * 64 + slot) fun j => { j with last := j.layer }).nextLayer (die * 64 + slot) m c j.layer)) := by
  have hended : (2 : Nat) ≠ 1 := by decide
  simp only [exec, execRepairGraphEnd, hj, hc, hm, hl, hf, hr, areaStop_reached ha, hg, hgst, if_neg hended, ne_eq, not_true_eq_false,
    Bool.not_true, Bool.or_self, Bool.false_eq_true, if_false]

end

/-- Settles O27: a job that nothing refuses is established, and a complete graph is the probe's or a layer's. -/
theorem repairEventsHappen : Obligations.RepairEventsHappen := by
  refine ⟨fun s u id c f m q r n x key gen hc hf hr hm hj hu hq ha hn hx hjob hd hk => ?_,
    fun s die slot j c m hj hc hm hl hf hr ha hg hgst => ?_⟩
  · subst hu
    exact repairJobStart_establishes hc hf hr hm hj hq ha hn (jobRefused_none hx hjob hd) hk
  · rw [repairGraphEnd_complete hj hc hm hl hf hr ha hg hgst]
    exact ⟨fun h => by rw [if_pos h], fun h => by rw [if_neg h]⟩

end Sys2Proof.Machine
end


section
/-! Launches and scheduling: `launch`, `wdask`, `hnext`, `waitpred`, `yield` and `prio` (R283-R286, R293, R303). -/

namespace Sys2Proof.Machine

section
variable {s : State} {x : Who} (hc : Clear s x)
include hc

/-! ### `launch` (R285) -/

section
variable {f : LaunchF} {l : List (Opnd × Nat)} {d : BitVec 1024} {stages : List Stage}
  (hl : l = (.s f.a, 2) :: f.b.toList.map (fun k => (.s k, 2))) (hu : UOk s x l (some (.s f.d, 1))) (hp : s.settled x.agent = true)
  (hd : s.checkDesc x.d.ctx (s.vaPair x f.a) = .ok (d, stages)) (hdep : f.dep = true → (s.launchOf x.w).any Launch.depd = false)
include hl hu hp hd hdep

/-- What a `launch` of a good descriptor comes to is the launch store's to say. -/
theorem exec_launch_good : exec (.launch f) s = .next (
    if s.storeRoom (dieOf x.core) then
      ((if f.dep then ((readyOf s x (uD l (some (.s f.d, 1)))).finish x.st.em fun _ => [0]).markDep x.w
        else (readyOf s x (uD l (some (.s f.d, 1)))).finish x.st.em fun _ => [0]).makeLaunch x.d.ctx (dieOf x.core) (dfield d 410 408)
          (withArg d (f.b.map fun k => s.pair x.core x.d k.val)) stages (if f.dep then (s.crewOf x.w).map Crew.launch else none)).2
    else if f.t then (readyOf s x (uD l (some (.s f.d, 1)))).finish x.st.em fun _ => [1]
    else s.park x.wid x.sid .store) := by
  subst hl
  have hfree : (f.dep && (s.launchOf x.w).any Launch.depd) = false := by
    rw [Bool.and_eq_false_imp]
    exact hdep
  refine (issue_uOp hc hu _).trans (congrArg Host.Outcome.next ((afterAll_settled hp _).trans ?_))
  simp only [hd, hfree, em_all, Bool.false_eq_true, if_false]

theorem launch_enters (hr : s.storeRoom (dieOf x.core) = true) :
    ∃ u, Finished s x (uD l (some (.s f.d, 1))) every x.st.em (fun _ => [0]) 0 u ∧
      exec (.launch f) s = .next (((if f.dep then u.markDep x.w else u).makeLaunch x.d.ctx (dieOf x.core) (dfield d 410 408)
        (withArg d (f.b.map fun k => s.pair x.core x.d k.val)) stages (if f.dep then (s.crewOf x.w).map Crew.launch else none)).2) := by
  refine ⟨_, finish_done hc _ _ _ _ _ hc.lanes, ?_⟩
  rw [exec_launch_good hc hl hu hp hd hdep, if_pos hr]

theorem launch_refused (hr : s.storeRoom (dieOf x.core) = false) (ht : f.t = true) :
    ∃ u, exec (.launch f) s = .next u ∧ Finished s x (uD l (some (.s f.d, 1))) every x.st.em (fun _ => [1]) 0 u := by
  refine ⟨_, ?_, finish_done hc _ _ _ _ _ hc.lanes⟩
  rw [exec_launch_good hc hl hu hp hd hdep, hr, if_neg Bool.false_ne_true, if_pos ht]

theorem launch_waits (hr : s.storeRoom (dieOf x.core) = false) (ht : f.t = false) :
    exec (.launch f) s = .next (s.park x.wid x.sid .store) := by
  rw [exec_launch_good hc hl hu hp hd hdep, hr, ht, if_neg Bool.false_ne_true, if_neg Bool.false_ne_true]

end

/-! ### `wdask` (R286) -/

omit hc in
/-- Issuing asks no distributor. -/
theorem Launched.wdReqs {d : OpD} {o m : Mask} {la : Nat} {res : Nat → List Word} {bits : Nat} {t : State}
    (h : Launched s x d o m la res bits t) : t.wdReqs = s.wdReqs := by rw [h.rest]

theorem wdask_asks {f : WdaskF} {k : Nat} {c : Crew} {l : Launch} (hk : pairCode f.a = some k) (hd : x.st.dom = 0)
    (hu : UOk s x [] (some (.s f.d, 1))) (hcr : s.crewOf x.w = some c) (hl : s.launchOf x.w = some l) (hn : dfield l.desc 471 440 ≠ 0) :
    ∃ u, Launched s x (uD [] none) every x.st.em f.la.toNat (fun _ => []) 0 u ∧
      exec (.wdask f) s = .next { u with wdReqs := s.wdReqs ++ [⟨dieOf x.core, c.launch, x.wid, x.st.dom, f.d.val, k⟩] } := by
  have hlaunch := launch_done hc (uD [] none) every x.st.em f.la.toNat (fun _ => []) 0
  refine ⟨_, hlaunch, (issue_clear hc _).trans (congrArg Host.Outcome.next ?_)⟩
  rw [if_neg hu.1]
  simp only [hk]
  rw [if_neg (not_not_intro hd), uOp_ok hu]
  simp only [hcr, hl, if_neg hn, em_all, ← hlaunch.wdReqs]
  rfl

/-! ### `hnext` and `waitpred` (R293) -/

theorem hnext_marks {c : Crew} (hd : x.st.dom = 0) (hcr : s.crewOf x.w = some c) (hn : c.hnx = false) :
    exec .hnext s = .next (((s.skip x).updCrew x.w.crew fun c => { c with hnx := true }).earlyTokens) := by
  refine (issue_clear hc _).trans ?_
  simp only [hd, hcr, hn, ne_eq, not_true_eq_false, Bool.false_eq_true, if_false]

section
variable {p : Nat} (hd : x.st.dom = 0) (hp : (s.launchOf x.w).bind Launch.pred = some p)
include hd hp

/-- `waitpred` looks at the predecessor's outcome; one that has left the store has completed. -/
theorem exec_waitpred : exec .waitpred s = .next (if (Tbl.find s.launches p).all fun l => l.out.isSome then
    (s.skip x).updCrew x.w.crew fun c => { c with pdone := true } else s.park x.wid x.sid .pred) := by
  refine (issue_clear hc _).trans ?_
  simp only [hd, hp, ne_eq, not_true_eq_false, if_false]

theorem waitpred_passes (ho : ∀ l, Tbl.find s.launches p = some l → l.out.isSome = true) :
    exec .waitpred s = .next ((s.skip x).updCrew x.w.crew fun c => { c with pdone := true }) := by
  rw [exec_waitpred hc hd hp, if_pos ((Option.all_eq_true _ _).2 ho)]

theorem waitpred_waits {l : Launch} (hl : Tbl.find s.launches p = some l) (ho : l.out = none) :
    exec .waitpred s = .next (s.park x.wid x.sid .pred) := by
  rw [exec_waitpred hc hd hp, hl, Option.all_some, ho, Option.isSome_none, if_neg Bool.false_ne_true]

end

/-! ### `yield` and `prio` (R303) -/

theorem yield_yields (he : x.st.em ≠ 0) : exec .yield s = .next { s with warps := Tbl.upd s.warps x.wid fun w =>
    { w with strands := Tbl.upd w.strands x.sid fun st => { st.advance 1 with yld := true } } } := by
  have hyld (b : Bool) : (b || x.st.em != 0) = true := by rw [bne_iff_ne.2 he, Bool.or_true]
  refine (issue_clear hc _).trans ?_
  simp only [State.skip, State.advance, State.updStrand, State.updWarp, Warp.updStrand, Tbl.upd_upd, hyld]

theorem prio_sets {a : Opnd} (hu : UOk s x [(a, 1)]) (hv : uVal s x [(a, 1)] none 0 ≤ 3) :
    exec (.prio a) s = .next (((uState s x [(a, 1)]).updWarp x.wid fun w => { w with prio := uVal s x [(a, 1)] none 0 }).advance
      x.wid x.sid 1) := by
  refine (issue_uOp hc hu _).trans (congrArg Host.Outcome.next ((if_neg (Nat.not_lt.2 hv)).trans ?_))
  exact endIfEmpty_advance hc ((holds_uState hc _ _).updWarp x.wid fun _ => rfl)

end

/-- Settles O28, instruction by instruction. -/
theorem schedulingCompletes : Obligations.SchedulingCompletes := fun _ _ hc =>
  ⟨fun _ _ _ _ hl hu hp hd hdep => ⟨launch_enters hc hl hu hp hd hdep, launch_refused hc hl hu hp hd hdep,
      launch_waits hc hl hu hp hd hdep⟩,
    fun _ _ _ _ _ hk hd hu hcr hl hn => wdask_asks hc hk hd hu hcr hl hn, fun _ hd hcr hn => hnext_marks hc hd hcr hn,
    fun _ hd hp => ⟨waitpred_passes hc hd hp, fun _ hl ho => waitpred_waits hc hd hp hl ho⟩, yield_yields hc,
    fun _ hu hv => prio_sets hc hu hv⟩

end Sys2Proof.Machine
end


section
/-! The commands of the device: identity, partitions, regions, budgets, contexts and statistics (R281, R318, R320, R336, R365, R367, R368,
R374, R376). -/

namespace Sys2Proof.Machine

/-! ### What acceptance leaves (R373) -/

section
variable (s : State) (h : HostHdr)

@[simp] theorem takeSeq_tick : (s.takeSeq h).tick = s.tick := by rw [takeSeq_eq]
@[simp] theorem takeSeq_rtc : (s.takeSeq h).rtc = s.rtc := by rw [takeSeq_eq]
@[simp] theorem takeSeq_measured : (s.takeSeq h).measured = s.measured := by rw [takeSeq_eq]
@[simp] theorem takeSeq_parts : (s.takeSeq h).parts = s.parts := by rw [takeSeq_eq]
@[simp] theorem takeSeq_ctxs : (s.takeSeq h).ctxs = s.ctxs := by rw [takeSeq_eq]
@[simp] theorem takeSeq_weirs : (s.takeSeq h).weirs = s.weirs := by rw [takeSeq_eq]
@[simp] theorem takeSeq_outbox : (s.takeSeq h).outbox = s.outbox := by rw [takeSeq_eq]
@[simp] theorem takeSeq_core (c : Nat) : (s.takeSeq h).core c = s.core c := by rw [takeSeq_eq]; rfl
@[simp] theorem takeSeq_partsOn (die : Nat) : (s.takeSeq h).partsOn die = s.partsOn die := by rw [takeSeq_eq]; rfl
@[simp] theorem takeSeq_cxlPorts : (s.takeSeq h).cxlPorts = s.cxlPorts := by rw [takeSeq_eq]; rfl
@[simp] theorem takeSeq_portsNow : (s.takeSeq h).portsNow = s.portsNow := by rw [takeSeq_eq]; rfl
@[simp] theorem takeSeq_populated (pa : Nat) : (s.takeSeq h).populated pa = s.populated pa := by rw [takeSeq_eq]; rfl
@[simp] theorem takeSeq_regionBad (f : StitchF) (p : Part) : (s.takeSeq h).regionBad f p = s.regionBad f p := by rw [takeSeq_eq]; rfl
@[simp] theorem takeSeq_statBytes : (s.takeSeq h).statBytes = s.statBytes := by rw [takeSeq_eq]; rfl

end

/-- A command that fails its own checks is answered with the code of its class (R385). -/
theorem reject_refused (s : State) (h : HostHdr) (detail : Nat) (field : Option Nat) :
    s.reject h detail field = s.refused h (classCode h.op) detail field := by
  cases field <;> rfl

section
variable {s : State} {h : HostHdr}

/-! ### Identity and statistics (R320, R374, R376) -/

theorem exec_hello {sig : BitVec 912} (ht : Takes s h 0x01) : exec (.hello h sig) s = .next (
    if Config.operatorVerifies (Config.sessionNonce s.tick) sig then
      ({ s.takeSeq h with session := some (h.src, Config.sessionNonce s.tick) } : State).reply h 0
        (leBytes 8 Config.deviceId.toNat ++ leBytes 32 (Config.sessionNonce s.tick).toNat ++ leBytes 8 s.cxlPorts.length ++
          leBytes 8 s.portsNow ++ leBytes 8 s.rtc)
    else (s.takeSeq h).refused h 0xE7 0x11 (some 0)) := by
  have hcode : classCode 0x01 = 0xE7 := rfl
  simp only [exec, execHello, hostCmd_takes ht, takeSeq_tick, takeSeq_cxlPorts, takeSeq_portsNow, takeSeq_rtc, reject_refused, ht.2.code,
    hcode]
  cases Config.operatorVerifies (Config.sessionNonce s.tick) sig
  · rw [Bool.not_false, if_pos rfl, if_neg Bool.false_ne_true]
  · rw [Bool.not_true, if_neg Bool.false_ne_true, if_pos rfl]

theorem measure_answers {m : BitVec 512} (ht : Takes s h 0x02) (hm : s.measured = some m) :
    exec (.measure h) s = .next ((s.takeSeq h).reply h 0 (leBytes 64 m.toNat)) := by
  simp only [exec, execMeasure, hostCmd_takes ht, State.measurement, takeSeq_measured, hm, Option.getD_some]

theorem exec_attest {n : BitVec 256} (ht : Takes s h 0x03) : exec (.attest h n) s = .next (
    if Config.deviceKeyPresent then (s.takeSeq h).reply h 0 (leBytes 114 (Config.attestSignature n).toNat)
    else (s.takeSeq h).reply h 0xE3 []) := by
  simp only [exec, execAttest, hostCmd_takes ht]

theorem stats_answers (ht : Takes s h 0x18) : exec (.stats h) s = .next ((s.takeSeq h).reply h 0 s.statBytes) := by
  simp only [exec, execStats, hostCmd_takes ht, takeSeq_statBytes]

/-! ### Partitions (R318, R336, R374) -/

/-- A core as a new partition finds it: empty, with its gate pool set aside, and job generations that go on. -/
def Core.assigned (pool : Nat) (k : Core) : Core := { Core.empty with pool := pool, gens := k.gens }

/-- A partition that is made takes its cores. -/
def State.assignCores (s : State) (l : List Nat) (pool : Nat) : State := l.foldl (fun s c => s.updCore c (Core.assigned pool)) s

/-- Every core of the list is assigned, however often it stands there, and nothing else changes. -/
theorem assignCores_spec (pool : Nat) (l : List Nat) (s : State) :
    ∃ cs, s.assignCores l pool = { s with cores := cs } ∧ (∀ c ∈ l, (s.assignCores l pool).core c = Core.assigned pool (s.core c)) ∧
      ∀ c, c ∉ l → (s.assignCores l pool).core c = s.core c := by
  induction l generalizing s with
  | nil => exact ⟨s.cores, rfl, fun _ h => (List.not_mem_nil h).elim, fun _ _ => rfl⟩
  | cons a l ih =>
    have hcons : s.assignCores (a :: l) pool = (s.updCore a (Core.assigned pool)).assignCores l pool := rfl
    obtain ⟨cs, e, hin, hout⟩ := ih (s.updCore a (Core.assigned pool))
    rw [hcons]
    refine ⟨cs, e, fun c hc => ?_, fun c hc => ?_⟩
    · by_cases hl : c ∈ l
      · rw [hin c hl, core_updCore]
        split
        · rfl
        · rfl
      · rw [hout c hl, core_updCore, if_pos ((List.mem_cons.1 hc).resolve_right hl).symm]
    · obtain ⟨hne, hl⟩ := not_or.1 (mt List.mem_cons.2 hc)
      rw [hout c hl, core_updCore, if_neg (Ne.symm hne)]

@[simp] theorem assignCores_parts (pool : Nat) (l : List Nat) (s : State) : (s.assignCores l pool).parts = s.parts := by
  obtain ⟨cs, e, -⟩ := assignCores_spec pool l s
  rw [e]

/-- Sets of clusters that share no cluster of a die do not overlap. -/
theorem overlap_false {a b : List (Nat × BitVec 72)} (h : ∀ c ∈ a, ∀ d ∈ b, c.1 = d.1 → c.2 &&& d.2 = 0) :
    overlap a b = false := by
  simp only [overlap, List.any_eq_false]
  intro c hc hb
  obtain ⟨d, hd, hcd⟩ := List.any_eq_true.1 hb
  obtain ⟨he, hz⟩ := Bool.and_eq_true_iff.1 hcd
  exact bne_iff_ne.1 hz (h c hc d hd (beq_iff_eq.1 he))

section
variable {f : PartCreateF} {p : Part} (ht : Takes s h 0x04) (hnum : f.num < 32) (hdie : ∀ c ∈ f.clusters, c.1 < 4)
  (honce : (f.clusters.map Prod.fst).eraseDups.length = f.clusters.length) (hnew : Tbl.find s.parts f.num = none)
  (hfree : ∀ q ∈ s.parts, q.2.run ≠ .out → ∀ a ∈ q.2.clusters, ∀ b ∈ f.clusters, a.1 = b.1 → a.2 &&& b.2 = 0)
  (hroom : ∀ c ∈ f.clusters, c.2 ≠ 0 → s.partsOn c.1 ≠ 8) (hpool : f.gatePool ≤ 1024)
include ht hnum hdie honce hnew hfree hroom hpool

/-- A partition whose fields pass the checks gets its cores. -/
theorem exec_partCreate (hp : p = ⟨f.clusters, f.host, f.gatePool, [], [], .resident⟩) : exec (.partCreate h f) s = .next
    (({ (s.takeSeq h).assignCores p.cores f.gatePool with parts := Tbl.put s.parts f.num p } : State).reply h 0 []) := by
  have hdies : (f.clusters.any fun c => decide (4 ≤ c.1)) = false := by
    rw [List.any_eq_false]
    exact fun c hc => by rw [decide_eq_true_iff]; exact Nat.not_le.2 (hdie c hc)
  have hdistinct : ((f.clusters.map Prod.fst).eraseDups.length != f.clusters.length) = false := by rw [honce, bne_self_eq_false]
  have hclear : (s.parts.any fun q => q.2.run != .out && overlap q.2.clusters f.clusters) = false := by
    rw [List.any_eq_false]
    intro q hq hb
    obtain ⟨hrun, ho⟩ := Bool.and_eq_true_iff.1 hb
    rw [overlap_false (hfree q hq (bne_iff_ne.1 hrun))] at ho
    exact Bool.false_ne_true ho
  have hplace : (f.clusters.any fun c => c.2 != 0 && s.partsOn c.1 == 8) = false := by
    rw [List.any_eq_false]
    intro c hc hb
    obtain ⟨hz, he⟩ := Bool.and_eq_true_iff.1 hb
    exact hroom c hc (bne_iff_ne.1 hz) (beq_iff_eq.1 he)
  subst hp
  simp only [exec, execPartCreate, hostCmd_takes ht, takeSeq_parts, takeSeq_partsOn, if_neg (Nat.not_le.2 hnum), hdies, hdistinct, hnew,
    Option.isSome_none, hclear, hplace, if_neg (Nat.not_lt.2 hpool), Bool.or_self, Bool.false_eq_true, if_false]
  rw [← takeSeq_parts s h, ← assignCores_parts f.gatePool (Part.cores _) (s.takeSeq h)]
  rfl

theorem partCreate_makes (hp : p = ⟨f.clusters, f.host, f.gatePool, [], [], .resident⟩) :
    ∃ t : State, exec (.partCreate h f) s = .next t ∧
      t = { s.takeSeq h with cores := t.cores, parts := Tbl.put s.parts f.num p, outbox := t.outbox } ∧
      t.outbox = s.outbox ++ [.reply ⟨h.box, h.op, h.tag, h.part, h.ctx, 0, []⟩] ∧
      (∀ c ∈ p.cores, t.core c = { Core.empty with pool := f.gatePool, gens := (s.core c).gens }) ∧
      ∀ c, c ∉ p.cores → t.core c = s.core c := by
  obtain ⟨cs, e, hin, hout⟩ := assignCores_spec f.gatePool p.cores (s.takeSeq h)
  refine ⟨_, exec_partCreate ht hnum hdie honce hnew hfree hroom hpool hp, ?_, ?_, fun c hc => ?_, fun c hc => ?_⟩
  · rw [e]
    rfl
  · rw [e]
    exact congrArg (· ++ _) (takeSeq_outbox s h)
  · exact (hin c hc).trans (congrArg (Core.assigned f.gatePool) (takeSeq_core s h c))
  · exact (hout c hc).trans (takeSeq_core s h c)

end

theorem partDestroy_clears {n : Nat} {p : Part} (ht : Takes s h 0x05) (hp : Tbl.find s.parts n = some p) :
    ∃ t : State, exec (.partDestroy h n) s = .next t ∧ Tbl.find t.parts n = none ∧ (∀ g ∈ t.gates, gfield g.2 504 500 ≠ n) ∧
      (∀ w ∈ t.weirs, w.part ≠ n) ∧ t.outbox.getLast? = some (.reply ⟨h.box, h.op, h.tag, h.part, h.ctx, 0, []⟩) := by
  simp only [exec, execPartDestroy, hostCmd_takes ht, takeSeq_parts, hp]
  refine ⟨_, rfl, (Tbl.find_del _ n n).trans (if_pos rfl), fun g hg => ?_, fun w hw => ?_, List.getLast?_concat⟩
  · exact bne_iff_ne.1 (List.mem_filter.1 hg).2
  · exact bne_iff_ne.1 (List.mem_filter.1 hw).2

/-! ### Regions (R365) -/

theorem exec_partStitch {f : StitchF} {p : Part} (ht : Takes s h 0x06) (hp : Tbl.find s.parts f.part = some p) (hd : f.die < 4) :
    exec (.partStitch h f) s = .next (if s.regionBad f p then (s.takeSeq h).refused h 0xE8 0xE5 else
      ({ s.takeSeq h with parts := Tbl.put s.parts f.part { p with
        regions := p.regions.filter (fun r => !(r.1 == f.die && r.2.1 == f.bitmap)) ++
          (if shapeField f.shape 15 14 = 0 then [] else [(f.die, f.bitmap, f.shape)]) } } : State).reply h 0 []) := by
  have hcode : classCode 0x06 = 0xE8 := rfl
  simp only [exec, execPartStitch, hostCmd_takes ht, takeSeq_parts, takeSeq_regionBad, hp, if_neg (Nat.not_le.2 hd), reject_refused,
    ht.2.code, hcode]
  by_cases hs : shapeField f.shape 15 14 = 0
  · simp only [hs, if_true, List.append_nil]
  · simp only [hs, if_false]

/-! ### Contexts (R374) -/

theorem ctxCreate_makes {f : CtxCreateF} (ht : Takes s h 0x07) (hr : f.root % 8192 = 0) (hpop : s.populated f.root = true)
    (hpeers : f.peers.length ≤ 64) (hnew : Tbl.find s.ctxs h.ctx = none) (hasid : ∀ c ∈ s.ctxs, c.2.asid ≠ f.asid.toNat) :
    exec (.ctxCreate h f) s = .next (({ s.takeSeq h with
      ctxs := Tbl.put s.ctxs h.ctx (Context.create h.part f) } : State).reply h 0 []) := by
  have hfree : (s.ctxs.any fun c => c.2.asid == f.asid.toNat) = false :=
    List.any_eq_false.2 fun c hc he => hasid c hc (beq_iff_eq.1 he)
  simp only [exec, execCtxCreate, hostCmd_takes ht, takeSeq_populated, takeSeq_ctxs, hr, hpop, if_neg (Nat.not_lt.2 hpeers), hnew, hfree,
    ne_eq, not_true_eq_false, or_self, Option.isSome_none, Bool.false_eq_true, if_false]

/-- Commands that are rejected one after another change the outbox alone. -/
theorem foldl_reject_rest {α : Type} (l : List α) (g : α → HostHdr) (detail : Nat) (s : State) :
    l.foldl (fun s a => s.reject (g a) detail) s =
      { s with outbox := (l.foldl (fun s a => s.reject (g a) detail) s).outbox } := by
  induction l generalizing s with
  | nil => rfl
  | cons a l ih => exact ih (s.reject (g a) detail)

/-- What forgetting a context does to the contexts and the gate table (R333, R374). -/
theorem forgetCtx_tables (s : State) (ctx : Nat) : (s.forgetCtx ctx).ctxs = Tbl.del s.ctxs ctx ∧
    (s.forgetCtx ctx).gates = Tbl.mapVals s.gates fun _ g => if gfield g 499 488 = ctx then g &&& ~~~(1#512 <<< 511) else g := by
  unfold State.forgetCtx State.shoot
  exact ⟨congrArg State.ctxs (foldl_reject_rest _ _ _ _), congrArg State.gates (foldl_reject_rest _ _ _ _)⟩

/-- An operation on a partition that is swapped out meets the contexts and gates that the device holds, and leaves its own. -/
theorem onPart_tables (s : State) (pn : Nat) (k : State → State) :
    ∃ v : State, (s.onPart pn k).ctxs = (k v).ctxs ∧ (s.onPart pn k).gates = (k v).gates := by
  unfold State.onPart
  split
  · split
    · exact ⟨s, rfl, rfl⟩
    · exact ⟨_, rfl, rfl⟩
  · exact ⟨s, rfl, rfl⟩

/-- A gate that runs in the context which is forgotten has lost its V bit. -/
theorem gate_forgotten (g : BitVec 512) (ctx : Nat)
    (h : gfield (if gfield g 499 488 = ctx then g &&& ~~~(1#512 <<< 511) else g) 499 488 = ctx) :
    (if gfield g 499 488 = ctx then g &&& ~~~(1#512 <<< 511) else g).getLsbD 511 = false := by
  by_cases e : gfield g 499 488 = ctx
  · have hbit : (1#512 <<< 511).getLsbD 511 = true := by
      simp only [BitVec.getLsbD_shiftLeft, BitVec.getLsbD_one, Nat.reduceLT, Nat.sub_self, decide_true, decide_false, Bool.not_false,
        Bool.and_self]
    rw [if_pos e, BitVec.getLsbD_and, BitVec.getLsbD_not, hbit, Bool.not_true, Bool.and_false, Bool.and_false]
  · rw [if_neg e] at h
    exact absurd h e

/-- A context that is forgotten is in no table, and no gate of it is valid. -/
theorem forgetCtx_gone (s : State) (ctx : Nat) : Tbl.find (s.forgetCtx ctx).ctxs ctx = none ∧
    ∀ g ∈ (s.forgetCtx ctx).gates, gfield g.2 499 488 = ctx → g.2.getLsbD 511 = false := by
  obtain ⟨hc, hg⟩ := forgetCtx_tables s ctx
  rw [hc, hg]
  refine ⟨(Tbl.find_del _ ctx ctx).trans (if_pos rfl), fun g h => ?_⟩
  obtain ⟨q, -, rfl⟩ := List.mem_map.1 h
  exact gate_forgotten q.2 ctx

theorem ctxDestroy_forgets {c : Context} (ht : Takes s h 0x08) (hh : Holds s h c) :
    ∃ t : State, t = ((s.takeSeq h).killCtx h.ctx none).onPart c.part (fun s => s.forgetCtx h.ctx) ∧
      exec (.ctxDestroy h) s = .next (t.reply h 0 []) ∧ Tbl.find t.ctxs h.ctx = none ∧
      ∀ g ∈ t.gates, gfield g.2 499 488 = h.ctx → g.2.getLsbD 511 = false := by
  obtain ⟨hc, hpart⟩ := hh
  obtain ⟨v, hctxs, hgates⟩ := onPart_tables ((s.takeSeq h).killCtx h.ctx none) c.part fun s => s.forgetCtx h.ctx
  refine ⟨_, rfl, ?_, ?_⟩
  · simp only [exec, execCtxDestroy, hostCmd_takes ht, State.withCtx, takeSeq_ctxs, hc, if_pos hpart]
  · rw [hctxs, hgates]
    exact forgetCtx_gone v h.ctx

/-! ### Quanta and budgets (R281, R367, R368) -/

/-- What holds of some different value of a field holds of the field of some element. -/
theorem any_eraseDups_map {α β : Type} [BEq β] [LawfulBEq β] (l : List α) (g : α → β) (q : β → Bool) :
    ((l.map g).eraseDups.any q) = true ↔ ∃ a ∈ l, q (g a) = true := by
  rw [List.any_eq_true]
  constructor
  · rintro ⟨b, hb, hq⟩
    obtain ⟨a, ha, rfl⟩ := List.mem_map.1 (List.mem_eraseDups.1 hb)
    exact ⟨a, ha, hq⟩
  · rintro ⟨a, ha, hq⟩
    exact ⟨g a, List.mem_eraseDups.2 (List.mem_map.2 ⟨a, ha, rfl⟩), hq⟩

section
variable {f : QosF} {p : Part} (ht : Takes s h 0x12) (hp : Tbl.find s.parts f.part = some p) (hq : f.quanta.length ≤ 8)
  (hb : ∀ b ∈ f.budgets, b.1 < 400 ∧ b.2.1 < 4) (honce : (f.budgets.map fun b => (b.1, b.2.1)).eraseDups.length = f.budgets.length)
include ht hp hq hb honce

/-- Budgets of ports and classes that exist are judged by the capacity of the ports that they name. -/
theorem exec_qosSet : exec (.qosSet h f) s = .next (
    if ∃ b ∈ f.budgets, portCapacity b.1 < (((newWeirs s.weirs f).filter fun w => w.port == b.1).map Weir.budget).sum then
      (s.takeSeq h).refused h 0xED 0xE6
    else ({ s.takeSeq h with
      weirs := newWeirs s.weirs f
      parts := Tbl.put s.parts f.part { p with quanta := if f.quanta = [] then p.quanta else f.quanta } } : State).reply h 0 []) := by
  have hports : (f.budgets.any fun b => decide (400 ≤ b.1 ∨ 4 ≤ b.2.1)) = false :=
    List.any_eq_false.2 fun b hm ho => by
      have hgood := hb b hm
      have hbad := of_decide_eq_true ho
      omega
  have hdistinct : ((f.budgets.map fun b => (b.1, b.2.1)).eraseDups.length != f.budgets.length) = false := by rw [honce, bne_self_eq_false]
  have hcode : classCode 0x12 = 0xED := rfl
  simp only [exec, execQosSet, hostCmd_takes ht, takeSeq_parts, takeSeq_weirs, hp, if_neg (Nat.not_lt.2 hq), hports, hdistinct,
    Bool.or_self, Bool.false_eq_true, if_false, reject_refused, ht.2.code, hcode, any_eraseDups_map, decide_eq_true_eq]

end

end

/-- Settles O51, command by command. -/
theorem deviceCommands : Obligations.DeviceCommands := by
  rintro s _ h rfl
  refine ⟨fun sig ht => ?_, fun ht _ hm => measure_answers ht hm, fun n ht => ?_, fun f p ht hp hn hd ho hf hfree hr hpool => ?_,
    fun n p ht hp => partDestroy_clears ht hp, fun f p ht hp hd => ?_, fun f ht hr hpop hpeers hnew hasid => ?_,
    fun c ht hh => ctxDestroy_forgets ht hh, fun f p ht hp hq hb honce => ?_, stats_answers⟩
  · rw [exec_hello ht]
    exact ⟨fun hv => by rw [if_pos hv], fun hv => by rw [hv, if_neg Bool.false_ne_true]⟩
  · rw [exec_attest ht]
    exact ⟨fun hk => by rw [if_pos hk], fun hk => by rw [hk, if_neg Bool.false_ne_true]⟩
  · exact partCreate_makes ht hn hd ho hf hfree hr hpool hp
  · rw [exec_partStitch ht hp hd]
    exact ⟨fun hb => by rw [if_pos hb], fun hb => ⟨_, rfl, by rw [hb, if_neg Bool.false_ne_true]⟩⟩
  · exact ctxCreate_makes ht hr hpop hpeers hnew hasid
  · rw [exec_qosSet ht hp hq hb honce]
    exact ⟨fun hc => by rw [if_neg fun ⟨b, hm, hlt⟩ => Nat.not_lt.2 (hc b hm) hlt], fun hc => by rw [if_pos hc]⟩

end Sys2Proof.Machine
end


section
/-! Taking a trap: where it enters a handler, and where the chain goes up (R309-R317). -/

namespace Sys2Proof.Machine

/-! ### Changes of one warp -/

/-- A domain and then a strand of one warp change: one change of the warp. -/
theorem updStrand_updDom (s : State) (wid dn sid : Nat) (f : Dom → Dom) (g : Strand → Strand) :
    (s.updDom wid dn f).updStrand wid sid g = { s with warps := Tbl.upd s.warps wid fun w =>
      { w with doms := Tbl.upd w.doms dn f, strands := Tbl.upd w.strands sid g } } := by
  simp only [State.updStrand, State.updDom, State.updWarp, Warp.updDom, Warp.updStrand, Tbl.upd_upd]

/-! ### The ways of a trap (R309, R310, R312, R315) -/

section
variable {s : State} {x : Who} (hx : s.strandAt x.wid x.sid = some x) (t : Trap)
include hx

theorem trapAt_rungHandler (hh : s.isRungHandler x = true) (hd : x.st.dom = 0) :
    s.trapAt x.wid x.sid t = (s.park x.wid x.sid .handler).enterCtx x.d.ctx t.cause (rungVals
      (x.d.csrs.ofTrap t (x.st.tpcOf t) (x.d.csrs.trung &&& 0xFFFFFFFFFF00FFFF ||| 0xCA0000)) (widOf x.wid x.w)) := by
  obtain ⟨r, hr⟩ : ∃ r, (Tbl.find s.crews x.w.crew).bind Crew.rung = some r := by
    unfold State.isRungHandler at hh
    split at hh
    next r hr => exact ⟨r, hr⟩
    next => cases hh
  simp only [State.trapAt, hx, hh, hd, beq_self_eq_true, Bool.and_true, if_true, hr]
  rfl

theorem trapAt_handler (hh : s.isRungHandler x = false) (hl : x.st.level = 1) :
    s.trapAt x.wid x.sid t = s.leaveWarpRung x t (x.st.tpcOf t) 0xCA (trungFirst x.d.csrs.trung)
      ((x.d.trapRec.map TrapRec.sid).getD x.sid) := by
  simp only [State.trapAt, hx, hh, Bool.false_and, Bool.false_eq_true, if_false, hl, if_true]

variable (hh : s.isRungHandler x = false) (hl : x.st.level = 0)
include hh hl

theorem trapAt_level0 : s.trapAt x.wid x.sid t =
    if x.w.otherHandler x.sid then s.park x.wid x.sid .handler
    else if x.st.pends = [] then s.enterTrap x t
    else (s.park x.wid x.sid .window).updStrand x.wid x.sid fun st => { st with trapping := some t } := by
  have h1 : ¬x.st.level = 1 := by omega
  simp only [State.trapAt, hx, hh, Bool.false_and, Bool.false_eq_true, if_false, h1]

theorem trapAt_sibling (ho : x.w.otherHandler x.sid = true) : s.trapAt x.wid x.sid t = s.park x.wid x.sid .handler := by
  rw [trapAt_level0 hx t hh hl, if_pos ho]

theorem trapAt_enters (ho : x.w.otherHandler x.sid = false) (hp : x.st.pends = []) : s.trapAt x.wid x.sid t = s.enterTrap x t := by
  rw [trapAt_level0 hx t hh hl, ho, if_neg Bool.false_ne_true, if_pos hp]

theorem trapAt_waits (ho : x.w.otherHandler x.sid = false) (hp : x.st.pends ≠ []) : s.trapAt x.wid x.sid t =
    (s.park x.wid x.sid .window).updStrand x.wid x.sid fun st => { st with trapping := some t } := by
  rw [trapAt_level0 hx t hh hl, ho, if_neg Bool.false_ne_true, if_neg hp]

end

/-! ### The warp rung is entered (R312), or left (R315) -/

/-- With a handler, all of the entry is one change of the warp. -/
theorem enterTrap_tvec (s : State) (x : Who) (t : Trap) (hv : x.d.csrs.tvec ≠ 0) :
    s.enterTrap x t = { s with warps := Tbl.upd s.warps x.wid fun w =>
      { w with
        doms := Tbl.upd w.doms x.st.dom fun d =>
          { d with
            trapRec := some (x.st.trapRec x.sid s.time (x.st.tpcOf t))
            csrs := d.csrs.ofTrap t (x.st.tpcOf t) (trungOf t.cause 0 x.w.winc false 0) }
        strands := Tbl.upd w.strands x.sid fun st =>
          { st with
            pc := x.d.csrs.tvec.extractLsb' 3 53
            clause := none
            level := 1
            parked := none
            stepArm := 0
            trapping := none } } } := by
  simp only [State.enterTrap, if_neg hv, updStrand_updDom, Tbl.upd_upd]

theorem enterTrap_noHandler (s : State) (x : Who) (t : Trap) (hv : x.d.csrs.tvec = 0) :
    s.enterTrap x t = ({ s with warps := Tbl.upd s.warps x.wid fun w =>
      { w with
        doms := Tbl.upd w.doms x.st.dom fun d => { d with trapRec := some (x.st.trapRec x.sid s.time (x.st.tpcOf t)) }
        strands := Tbl.upd w.strands x.sid fun st => { st with parked := none, stepArm := 0, trapping := none } } } : State).leaveWarpRung
          x t (x.st.tpcOf t) 0 t.cause x.sid := by
  simp only [State.enterTrap, if_pos hv, updStrand_updDom]

theorem leaveWarpRung_crew (s : State) {x : Who} (t : Trap) (tpc : Pc) (why first opener : Nat) (hd : x.st.dom = 0) :
    s.leaveWarpRung x t tpc why first opener = s.enterCrew x.w.crew ⟨x.wid, opener, t, tpc, why, first, false, s.time⟩ := if_pos hd

/-- TRUNG with WHY 0 and RUNG 000 (R311). -/
theorem trungOf_why0 (first fwinc : Nat) (fe : Bool) :
    trungOf first 0 fwinc fe 0 = BitVec.ofNat 64 (first % 256 * 2 ^ 24 + fwinc * 2 ^ 8 + if fe then 16 else 0) := by
  simp only [trungOf, Nat.zero_mul, Nat.add_zero]

/-! ### The turn of a strand whose trap waits (R309) -/

theorem strandTurn_trapping (s : State) {x : Who} {t : Trap} (ht : x.st.trapping = some t) :
    s.strandTurn x = .rest (if x.st.pends = [] then s.enterTrap x t else s) := by
  simp only [State.strandTurn, ht]

/-- Settles O31: at once, at the strand's turn behind its long-latency instructions, and by `trap #n`. -/
theorem trapEntersHandler : Obligations.TrapEntersHandler := by
  rintro s x t _ u hx hh hl hv rfl hu
  have entered : s.enterTrap x t = u := by
    rw [enterTrap_tvec s x t hv, trungOf_why0, if_neg Bool.false_ne_true, Nat.add_zero, hu]
    rfl
  refine ⟨fun ho => ⟨fun hp => ?_, trapAt_waits hx t hh hl ho⟩, fun ht hp => ?_, fun ht hp => ?_, fun n hc => issue_clear hc _⟩
  · rw [trapAt_enters hx t hh hl ho hp, entered]
  · rw [strandTurn_trapping s ht, if_pos hp, entered]
  · rw [strandTurn_trapping s ht, if_neg hp]

/-- Settles O32, by the four places at which a trap meets no handler. -/
theorem trapsEscalate : Obligations.TrapsEscalate := by
  rintro s x t _ hx rfl
  refine ⟨trapAt_sibling hx t, fun hh hl ho hp hv hd => ?_, fun hh hl hd r hr => ?_, fun hh hd => trapAt_rungHandler hx t hh hd⟩
  · rw [trapAt_enters hx t hh hl ho hp, enterTrap_noHandler s x t hv, leaveWarpRung_crew _ _ _ _ _ _ hd, hd]
    rfl
  · rw [trapAt_handler hx t hh hl, leaveWarpRung_crew _ _ _ _ _ _ hd, hr]
    rfl

end Sys2Proof.Machine
end

section
/-! A chain of traps at the crew rung (R315, R316). -/

namespace Sys2Proof.Machine

/-- What a strand that may not issue does with its turn: the chain that it opened enters the crew rung, if it can (R316). -/
theorem issueTurn_stopped {s u : State} {a : Agent} {x : Who} (hu : u = { s with cur := a }) (hx : u.who = some x)
    (hm : u.mayIssue x = false) :
    s.issueTurn a = .rest (u.openRung x.w.crew fun r => !r.fe && r.warp == x.wid && r.sid == x.sid) := by
  subst hu
  simp only [State.issueTurn, hx, hm, Bool.false_eq_true, if_false]

section
variable {s : State} {crew : Nat} {k : Crew} {r : RungReq} {rest : List RungReq} (hk : Tbl.find s.crews crew = some k)
  (hq : k.rungQ = r :: rest) (p : RungReq → Bool)
include hk hq

theorem openRung_waits (h : k.rung.isSome = true ∨ s.crewStopped k r = false) : s.openRung crew p = s := by
  simp only [State.openRung, hk, hq]
  cases hr : k.rung with
  | some _ => rfl
  | none =>
    have hs : s.crewStopped k r = false := h.resolve_left (by rw [hr]; exact Bool.false_ne_true)
    simp only [hs, Bool.and_false, Bool.false_and, Bool.false_eq_true, if_false]

theorem openRung_starts {c : Context} (hp : p r = true) (hr : k.rung = none) (hs : s.crewStopped k r = true)
    (hc : Tbl.find s.ctxs (s.crewCtx k) = some c) (hrun : c.run = .running) : s.openRung crew p = s.startRung crew k r := by
  simp only [State.openRung, hk, hq, hr, hp, hs, hc, hrun, Option.any_some, beq_self_eq_true, Bool.and_self, if_true]

end

/-- The strand of a crew-rung handler as it starts (R316). -/
def rungStrand (tvecc : Dword) (lanes : Mask) : Strand :=
  ⟨tvecc.extractLsb' 3 53, none, lanes, lanes, [], none, 0, none, [], 1, 0, [], false, [], [], none⟩

section
variable {s : State} {k : Crew} {r : RungReq} {ow h : Warp} {hw : Nat} {d : Dom} (crew : Nat)
  (ho : Tbl.find s.warps r.warp = some ow) (hh : s.handlerWarp k = some (hw, h)) (hd : h.dom 0 = some d)
include ho hh hd

theorem startRung_noHandler (hv : d.csrs.tvecc = 0) : s.startRung crew k r =
    (s.updCrew crew fun k => { k with rungQ := k.rungQ.drop 1 }).enterCtx d.ctx r.trap.cause
      (rungVals (d.csrs.ofTrap r.trap r.tpc (trungOf r.first 0 ow.winc r.fe 0)) (widOf r.warp ow)) := by
  simp only [State.startRung, ho, hh, hd, if_pos hv]

theorem startRung_handler (hv : d.csrs.tvecc ≠ 0) : s.startRung crew k r =
    ((s.updCrew crew fun k => { k with rungQ := k.rungQ.drop 1 }).updWarp hw fun w =>
      { w with
        doms := Tbl.upd w.doms 0 fun e => { e with csrs := e.csrs.ofTrap r.trap r.tpc (trungOf r.first r.why ow.winc r.fe 1) }
        strands := Tbl.put w.strands 16 (rungStrand d.csrs.tvecc h.unexited) }).updCrew crew fun k =>
          { k with rung := some ⟨hw, 16, d.csrs, r.warp, r.sid, r.fe, r.since, s.time⟩ } := by
  simp only [State.startRung, ho, hh, hd, if_neg hv]
  rfl

end

/-- Settles O33: the chain that waits, the turn at which it enters, and the rung with and without a handler. -/
theorem crewRungEntered : Obligations.CrewRungEntered := by
  refine ⟨fun s crew r => rfl, ?_, ?_⟩
  · rintro s u _ r x hu hx hwid hsid rfl hm hf
    rw [issueTurn_stopped hu hx hm, hwid, hsid]
  · intro s crew k r rest p hk hq hp
    refine ⟨openRung_waits hk hq p, fun ow h hw d c hr hs hc hrun ho hh hd => ?_⟩
    rw [openRung_starts hk hq p hp hr hs hc hrun]
    refine ⟨fun hv => ?_, fun hv => ⟨rungStrand d.csrs.tvecc h.unexited, ⟨rfl, rfl, rfl, rfl, rfl, rfl, rfl, rfl⟩, ?_⟩⟩
    · rw [startRung_noHandler crew ho hh hd hv, trungOf_why0]
      rfl
    · rw [startRung_handler crew ho hh hd hv]
      rfl

end Sys2Proof.Machine
end


section
/-! `tret`, `tkill`, and what level 0 may not do (R322-R326, R329). -/

namespace Sys2Proof.Machine

/-- A strand with lanes left returns: one change of its warp (R323). -/
theorem returnTo_alive {s : State} {x : Who} (hx : s.strandAt x.wid x.sid = some x) (hm : x.st.mem ≠ 0) (r : TrapRec) (pc : Pc)
    (cl : Option Clause) (step : Bool) :
    s.returnTo x.wid x.sid r pc cl step = { s with warps := Tbl.upd s.warps x.wid fun w =>
      { w with
        doms := Tbl.upd w.doms x.st.dom fun d => { d with trapRec := none }
        strands := Tbl.upd w.strands x.sid fun st =>
          { st with
            pc := pc
            clause := cl
            em := r.em &&& st.mem
            level := 0
            parked := none
            rstack := st.rstack.drop (st.rstack.length - r.depth)
            stepArm := if step then 1 else 0 } } } := by
  simp only [State.returnTo, hx, if_neg hm, State.updStrand, State.updDom, State.updWarp, Warp.updDom, Warp.updStrand, Tbl.upd_upd]

/-! ### `tret` at the warp rung -/

section
variable {s : State} {x : Who} {f : TretF} {r : TrapRec} (hr : x.d.trapRec = some r) (hd : x.st.rstack.length = r.depth)
include hr hd

theorem warpReturn_place {pc : Pc} {cl : Option Clause} (hm : f.mode ≠ .kill)
    (hp : s.tretPlace x.core x.d.ctx r (x.d.csrs.tpc.extractLsb' 0 53) f.mode = .at_ pc cl) :
    s.warpReturn x f = s.returnTo x.wid x.sid r pc cl f.step := by
  simp only [State.warpReturn, hr, hd, ne_eq, not_true_eq_false, if_false, if_neg hm, hp]

theorem warpReturn_kill (hm : f.mode = .kill) (h0 : x.st.dom = 0) :
    s.warpReturn x f = s.haltCrew x.w.crew (some (x.d.csrs.tcause.extractLsb' 0 8).toNat) false := by
  simp only [State.warpReturn, hr, hd, ne_eq, not_true_eq_false, if_false, if_pos hm, if_pos h0]

end

/-! ### `tret` at the crew rung -/

theorem rungReturn_place {s : State} {x y : Who} {f : TretF} {k : Crew} {r : CrewRung} {tr : TrapRec} {pc : Pc} {cl : Option Clause}
    (hk : Tbl.find s.crews x.w.crew = some k) (hr : k.rung = some r) (hs : x.st.rstack = []) (hp : x.st.pends = []) (hf : r.fe = false)
    (hm : f.mode ≠ .kill) (hy : s.strandAt r.openWarp r.openSid = some y) (ht : y.d.trapRec = some tr)
    (hpl : s.tretPlace y.core y.d.ctx tr (x.d.csrs.tpc.extractLsb' 0 53) f.mode = .at_ pc cl) :
    s.rungReturn x f = (s.endRung x.w.crew).returnTo r.openWarp r.openSid tr pc cl f.step := by
  simp only [State.rungReturn, hk, Option.bind_some, hr, hs, hp, ne_eq, not_true_eq_false, if_false, if_neg hm, hf, Bool.false_eq_true, hy,
    ht, hpl]

/-! ### Lanes that exit (R325) -/

/-- Lanes that leave another strand than a crew-rung handler leave that strand alone. -/
theorem exitLanes_strand (s : State) (wid : Nat) {sid : Nat} (m : Mask) (h : sid ≠ 16) :
    s.exitLanes wid sid m = s.updStrand wid sid fun st => st.strip m := if_pos h

/-- A strand that loses lanes and moves on: one change of the strand. -/
theorem strip_advance (s : State) (x : Who) (m : Mask) (n : Nat) :
    (s.updStrand x.wid x.sid fun st => st.strip m).advance x.wid x.sid n =
      s.withStrand x fun st => { st.advance n with em := st.em &&& ~~~m, mem := st.mem &&& ~~~m } := by
  simp only [State.advance, State.updStrand, State.updWarp, Warp.updStrand, State.withStrand, Tbl.upd_upd]
  rfl

/-! ### The two instructions at level 1 -/

section
variable {s : State} {x : Who} (hc : Clear s x)
include hc

section
variable (hl : x.st.level ≠ 0)
include hl

theorem exec_tret_warp (f : TretF) (hh : s.isRungHandler x = false) : exec (.tret f) s = .next (s.warpReturn x f) := by
  refine (issue_clear hc _).trans ?_
  simp only [if_neg hl, hh, Bool.false_and, Bool.false_eq_true, if_false]

theorem exec_tret_rung (f : TretF) (hh : s.isRungHandler x = true) (hd : x.st.dom = 0) :
    exec (.tret f) s = .next (s.rungReturn x f) := by
  refine (issue_clear hc _).trans ?_
  simp only [if_neg hl, hh, hd, beq_self_eq_true, Bool.and_self, if_true]

theorem exec_tkill (m : MReg) :
    exec (.tkill m) s = .next ((s.exitLanes x.wid x.sid (x.d.mask m &&& x.st.mem)).advance x.wid x.sid 1) := by
  refine (issue_clear hc _).trans ?_
  simp only [if_neg hl]

end

/-! ### What level 0 may not do (R329), and CSRs that are refused (R326) -/

section
variable (hl : x.st.level = 0)
include hl

theorem tret_level0 (f : TretF) : exec (.tret f) s = .next (s.trap x 0x16) := (issue_clear hc _).trans (by simp only [if_pos hl])
theorem tkill_level0 (m : MReg) : exec (.tkill m) s = .next (s.trap x 0x16) := (issue_clear hc _).trans (by simp only [if_pos hl])
theorem tlbinv_level0 (v : Option SReg) : exec (.tlbinv v) s = .next (s.trap x 0x16) :=
  (issue_clear hc _).trans (by simp only [if_pos hl])

end

theorem csrrd_unlisted {f : CsrF} (h : s.csrRead x f.csr.toNat = none) : exec (.csrrd f) s = .next (s.trap x 0xC9) :=
  (issue_clear hc _).trans (by simp only [h])

theorem csrwr_unlisted {f : CsrF} (h : s.csrRead x f.csr.toNat = none) : exec (.csrwr f) s = .next (s.trap x 0xC9) :=
  (issue_clear hc _).trans (by simp only [h, Option.isNone_none, if_true])

section
variable {f : CsrF} (h : (s.csrRead x f.csr.toNat).isNone = false)
include h

theorem csrwr_level0 (hw : csrWriteLevel f.csr.toNat = 1) (hl : x.st.level = 0) : exec (.csrwr f) s = .next (s.trap x 0x16) :=
  (issue_clear hc _).trans (by simp only [h, Bool.false_eq_true, if_false, hw, hl, and_self, if_true])

theorem csrwr_never (hw : csrWriteLevel f.csr.toNat = 2) : exec (.csrwr f) s = .next (s.trap x 0xC8) :=
  (issue_clear hc _).trans (by
    have hne : ¬(csrWriteLevel f.csr.toNat = 1 ∧ x.st.level = 0) := fun e => by omega
    simp only [h, Bool.false_eq_true, if_false, if_neg hne, if_pos hw])

theorem csrwr_badValue (hw : csrWriteLevel f.csr.toNat = 0) (ho : OperandsOk s x { srcs := [(.s f.k, 2)] })
    (hv : csrValueOk f.csr.toNat (s.pair x.core x.d f.k.val) = false) : exec (.csrwr f) s = .next (s.trap x 0x11) :=
  (issue_clear hc _).trans (by
    have hne : ¬(csrWriteLevel f.csr.toNat = 1 ∧ x.st.level = 0) := fun e => by omega
    have hnever : ¬csrWriteLevel f.csr.toNat = 2 := by omega
    simp only [h, Bool.false_eq_true, if_false, if_neg hne, if_neg hnever, beginOp_ok ho, hv, Bool.not_false, if_true])

end

end

/-- The CSRs that R16 lists (R326). -/
def csrListed : List Nat :=
  [0x000, 0x001, 0x002, 0x003, 0x008, 0x009, 0x00A, 0x00B, 0x00C, 0x00D, 0x010, 0x011, 0x012, 0x018, 0x019, 0x01A, 0x01B, 0x020, 0x021,
    0x022, 0x023, 0x024, 0x030, 0x031]

theorem csrRead_listed (s : State) (x : Who) {n : Nat} (h : n ∈ csrListed) : (s.csrRead x n).isNone = false := by
  simp only [csrListed, List.mem_cons, List.not_mem_nil, or_false] at h
  rcases h with rfl | rfl | rfl | rfl | rfl | rfl | rfl | rfl | rfl | rfl | rfl | rfl | rfl | rfl | rfl | rfl | rfl | rfl | rfl | rfl |
    rfl | rfl | rfl | rfl <;> rfl

/-- Settles O34, `tret` at each rung and `tkill` of each kind of strand. -/
theorem trapReturns : Obligations.TrapReturns := by
  intro s x hc hl
  obtain ⟨-, hx, -⟩ := who_spec hc.who
  refine ⟨fun f r pc cl hh hr hd => ⟨fun hm hp => ?_, fun hm h0 => ?_⟩, ?_, fun m => ⟨fun hs => ?_, fun hs => ?_⟩⟩
  · rw [exec_tret_warp hc hl f hh, warpReturn_place hr hd hm hp, returnTo_alive hx hc.alive]
  · rw [exec_tret_warp hc hl f hh, warpReturn_kill hr hd hm h0]
  · intro f k r y tr pc cl hh h0 hk hr hs hp hf hm hy ht hpl
    rw [exec_tret_rung hc hl f hh h0, rungReturn_place hk hr hs hp hf hm hy ht hpl]
  · rw [exec_tkill hc hl, exitLanes_strand s x.wid _ hs, strip_advance]
  · rw [exec_tkill hc hl, hs]

/-- Settles O36: the level first, then the CSR's number, its write level and its layout. -/
theorem privilegedTrap : Obligations.PrivilegedTrap := by
  intro s x hc
  refine ⟨fun hl => ⟨fun f => tret_level0 hc hl f, fun m => tkill_level0 hc hl m, fun v => tlbinv_level0 hc hl v, fun f hf => ?_⟩,
    fun f hf => ?_, fun f hn => ⟨csrrd_unlisted hc hn, csrwr_unlisted hc hn⟩, fun f hf ho hv => ?_⟩
  · have level : ∀ n ∈ [0x008, 0x009, 0x00A, 0x00B, 0x00C, 0x00D, 0x010, 0x011, 0x012, 0x023, 0x024],
        n ∈ csrListed ∧ csrWriteLevel n = 1 := by decide
    exact csrwr_level0 hc (csrRead_listed s x (level _ hf).1) (level _ hf).2 hl
  · have level : ∀ n ∈ [0x001, 0x002, 0x003, 0x018, 0x019, 0x01B, 0x020, 0x021, 0x030, 0x031], n ∈ csrListed ∧ csrWriteLevel n = 2 := by
      decide
    exact csrwr_never hc (csrRead_listed s x (level _ hf).1) (level _ hf).2
  · have level : ∀ n ∈ [0x000, 0x01A], n ∈ csrListed ∧ csrWriteLevel n = 0 := by decide
    exact csrwr_badValue hc (csrRead_listed s x (level _ hf).1) (level _ hf).2 ho hv

end Sys2Proof.Machine
end

section
/-! The single step of `tret` (R324). -/

namespace Sys2Proof.Machine

/-- A step that is due traps before anything of the instruction. -/
theorem issue_stepDue {s : State} {x : Who} (hx : s.who = some x) (hp : ∀ p, x.st.parked = some p → p.1.byEvent = false)
    (hs : x.st.stepArm = 2) (k : Who → State) : issue s k = .next (s.trapAt x.wid x.sid { cause := 0x1F, lanes := x.st.em }) := by
  have hw : (x.st.parked.any fun p => p.1.byEvent) = false := by
    cases e : x.st.parked with
    | none => rfl
    | some p => exact hp p e
  simp only [issue, hx, hw, Bool.false_eq_true, if_false, hs, if_true]

/-- Every instruction of classes 0 to 6 of a strand begins with the common checks of `issue`. -/
theorem exec_issues {i : Instr} {s : State} {x : Who} {c : Fin 8} (h : Codec.classOf i = some c) (hc : c ≠ 7) (hx : s.who = some x) :
    ∃ k, exec i s = issue s k := by
  cases i <;> first | (cases h; done) | skip
  case aadd | asub | amul | ashl | ashr | aand | aor | axor | acmp | amov | amovi | ald | ast | apush | apushm | apop | akvw | aeng | await |
      aend => cases h; exact absurd rfl hc
  case bra | brc | brx | call | callx | ret | loop | endl => exact ⟨_, byIssuer_strand hx _ _⟩
  all_goals exact ⟨_, rfl⟩

/-- Settles O54: the arming of a strand that moves on, and the trap at the beginning that all instructions share. -/
theorem singleStep : Obligations.SingleStep := by
  refine ⟨fun st n p h => ⟨if_pos h, if_pos h⟩, fun i s x c h hc hx hp hs => ?_⟩
  obtain ⟨k, hk⟩ := exec_issues h hc hx
  rw [hk, issue_stepDue hx hp hs]

end Sys2Proof.Machine
end


section
/-! What runs out: the timers of handlers, of gate calls, of notices, of resets, of pre-emptions and of WAITs (R315, R317, R318, R343,
R349, R374). -/

namespace Sys2Proof.Machine

/-! ### Handlers (R315) -/

section
variable {s : State} {x : Who}

theorem isRungHandler_of_rung {k : Crew} {r : CrewRung} (hk : Tbl.find s.crews x.w.crew = some k) (hr : k.rung = some r)
    (hw : r.warp = x.wid) (hs : r.sid = x.sid) : s.isRungHandler x = true := by
  simp only [State.isRungHandler, hk, Option.bind_some, hr, hw, hs, beq_self_eq_true, Bool.and_self]

theorem isRungHandler_of_noRung (h : ∀ k, Tbl.find s.crews x.w.crew = some k → k.rung = none) : s.isRungHandler x = false := by
  unfold State.isRungHandler
  cases hk : Tbl.find s.crews x.w.crew with
  | none => rfl
  | some k => simp only [Option.bind_some, h k hk]

theorem handlerLate_warp {t : TrapRec} (hk : ∀ k, Tbl.find s.crews x.w.crew = some k → k.rung = none ∧ k.rungQ = [])
    (hl : x.st.level = 1) (ho : x.opened = false) (ht : x.d.trapRec = some t) (hs : t.sid = x.sid)
    (hlate : t.start + 700 * (x.d.csrs.ttime.extractLsb' 0 16).toNat ≤ s.time) : s.handlerLate x = true := by
  have here : (decide (x.st.level = 1) && !x.opened && x.d.trapRec.any fun t =>
      t.sid == x.sid && decide (t.start + 700 * (x.d.csrs.ttime.extractLsb' 0 16).toNat ≤ s.time)) = true := by
    simp only [hl, ho, ht, hs, Option.any_some, beq_self_eq_true, decide_true, Bool.not_false, Bool.and_self, decide_eq_true hlate]
  unfold State.handlerLate
  simp only [here]
  cases hc : Tbl.find s.crews x.w.crew with
  | none => rfl
  | some k =>
    obtain ⟨hr, hq⟩ := hk k hc
    simp only [hr, hq, List.isEmpty_nil, Bool.and_self]

theorem handlerLate_crew {k : Crew} {r : CrewRung} (hk : Tbl.find s.crews x.w.crew = some k) (hr : k.rung = some r) (hw : r.warp = x.wid)
    (hs : r.sid = x.sid) (hd : x.w.dom 0 = some x.d)
    (hlate : r.start + 700 * (x.d.csrs.ttime.extractLsb' 16 16).toNat ≤ s.time) : s.handlerLate x = true := by
  simp only [State.handlerLate, hk, hr, hw, hs, hd, and_self, decide_true, Option.map_some, Option.any_some, decide_eq_true hlate, Bool.or_true,
    Bool.and_self]

variable (hx : s.strandAt x.wid x.sid = some x)
include hx

theorem handlerTimeout_late (h : s.handlerLate x = true) :
    exec (.handlerTimeout (.strand x.wid x.sid)) s = .next (s.handlerExpired x.wid x.sid) := by
  simp only [exec, execHandlerTimeout, hx, h, if_true]

theorem handlerExpired_warp (h : s.isRungHandler x = false) : s.handlerExpired x.wid x.sid =
    s.leaveWarpRung x { cause := 0xCB, lanes := x.st.em } x.st.pc 0xCB (trungFirst x.d.csrs.trung)
      ((x.d.trapRec.map TrapRec.sid).getD x.sid) := by
  simp only [State.handlerExpired, hx, h, Bool.false_eq_true, if_false]

theorem handlerExpired_crew (h : s.isRungHandler x = true) : s.handlerExpired x.wid x.sid =
    (s.park x.wid x.sid .handler).enterCtx x.d.ctx 0xCB (rungVals (x.d.csrs.ofTrap { cause := 0xCB, lanes := x.st.em } x.st.pc
      (x.d.csrs.trung &&& 0xFFFFFFFFFF00FFFF ||| 0xCB0000)) (widOf x.wid x.w)) := by
  simp only [State.handlerExpired, hx, h, if_true]
  rfl

end

/-! ### Gate calls (R343) -/

theorem gateTimeout_late {s : State} {wid dn : Nat} {w : Warp} {d : Dom} {k : Call} (hw : Tbl.find s.warps wid = some w)
    (hd : w.dom dn = some d) (hk : d.call = some k) (ht : k.start + 700 * k.tout ≤ s.time) :
    exec (.gateTimeout wid dn) s = .next
      ((s.notify ⟨0xC6, s.partOf d.ctx, d.ctx, rungVals d.csrs (widOf wid w)⟩).killCall 8 wid dn 0xC6 0) := by
  simp only [exec, execGateTimeout, hw, hd, hk, Option.bind_some, Option.map_some, if_neg (Nat.not_lt.2 ht)]

/-! ### Notices (R317) -/

section
variable {s : State} {ctx t : Nat} {c : Context} {r : CtxRung} (hc : Tbl.find s.ctxs ctx = some c) (hr : c.rung = some r)
  (hn : r.noticed = some t)
include hc hr hn

theorem noticedAt_sent : s.noticedAt ctx = some t := by
  simp only [State.noticedAt, hc, Option.bind_some, hr, hn]

theorem noticeAnswerTimeout_late (h : t + 7000000 ≤ s.time) : exec (.noticeAnswerTimeout ctx) s = .next (s.killCtx ctx none) := by
  simp only [exec, execNoticeAnswerTimeout, noticedAt_sent hc hr hn, if_neg (Nat.not_lt.2 h)]

theorem contextRungTimeout_late (h : t + 14000000 ≤ s.time) : exec (.contextRungTimeout ctx) s = .next (s.resetPart c.part) := by
  simp only [exec, execContextRungTimeout, noticedAt_sent hc hr hn, hc, if_neg (Nat.not_lt.2 h)]

end

/-! ### Pre-emptions and resets (R318, R349) -/

theorem preemptionTimeout_late {s : State} {ctx : Nat} {c : Context} (hc : Tbl.find s.ctxs ctx = some c) (hr : c.run = .stopping)
    (h : c.since + 700000 ≤ s.time) : exec (.preemptionTimeout ctx) s = .next (s.resetPart c.part) := by
  simp only [exec, execPreemptionTimeout, hc, if_pos (And.intro hr h)]

theorem partitionResetTimeout_late {s : State} {n t : Nat} {p : Part} (hp : Tbl.find s.parts n = some p) (hr : p.run = .resetting t)
    (h : t + 140000000 ≤ s.time) : exec (.partitionResetTimeout n) s = .next s.resetDevice := by
  simp only [exec, execPartitionResetTimeout, hp, Option.map_some, hr, if_neg (Nat.not_lt.2 h)]

/-! ### WAITs (R374) -/

section
variable {s : State} {n : Nat} {w : HostWait} (hw : Tbl.find s.waits n = some w)
include hw

theorem waitTimeout_holds (h : s.waitHolds w.ctx w.cond = true) :
    exec (.waitTimeout n) s = .next (({ s with waits := Tbl.del s.waits n } : State).reply w.hdr 0 (leBytes 8 0)) := by
  simp only [exec, execWaitTimeout, hw, if_pos h]

theorem waitTimeout_late (h : s.waitHolds w.ctx w.cond = false) (ht : w.since + 700 * w.timeout ≤ s.time) :
    exec (.waitTimeout n) s = .next (({ s with waits := Tbl.del s.waits n } : State).reply w.hdr 0 (leBytes 8 1)) := by
  simp only [exec, execWaitTimeout, hw, h, Bool.false_eq_true, if_false, if_pos ht]

end

/-- Settles O45, timer by timer. -/
theorem timersExpire : Obligations.TimersExpire := by
  intro s
  refine ⟨?_, ?_, fun wid dn w d k c hw hd hk _ _ ht => gateTimeout_late hw hd hk ht,
    fun ctx t c r hc hr hn => ⟨noticeAnswerTimeout_late hc hr hn, contextRungTimeout_late hc hr hn⟩,
    fun ctx c hc hr h => preemptionTimeout_late hc hr h, fun n t p hp hr h => partitionResetTimeout_late hp hr h,
    fun n w hw => ⟨waitTimeout_holds hw, waitTimeout_late hw⟩⟩
  · intro w i x c t hx _ _ hk hl ho ht hs hlate
    obtain ⟨rfl, rfl, -⟩ := strandAt_spec hx
    rw [handlerTimeout_late hx (handlerLate_warp hk hl ho ht hs hlate), handlerExpired_warp hx (isRungHandler_of_noRung fun k h => (hk k h).1),
      ht, Option.map_some, Option.getD_some, hs]
  · intro w i x c k r hx _ _ hk hr hw hs hd hlate
    obtain ⟨rfl, rfl, -⟩ := strandAt_spec hx
    rw [handlerTimeout_late hx (handlerLate_crew hk hr hw hs hd hlate), handlerExpired_crew hx (isRungHandler_of_rung hk hr hw hs)]

end Sys2Proof.Machine
end

section
/-! Power-on, errors, machine checks, ports that go down, and the windows of the weirs (R318-R320, R367, R376). -/

namespace Sys2Proof.Machine

/-! ### Power-on (R376) -/

section
variable {s : State} (hb : s.boot = .off)
include hb

theorem powerOn_starts (hf : Config.fusesPass = true) : exec .powerOn s =
    .next { s with measured := some Config.measurement, portsUp := Config.portsUpAtStart, upSince := s.time, boot := .up } := by
  have hoff : ¬s.boot ≠ .off := fun h => h hb
  simp only [exec, execPowerOn, if_neg hoff, if_pos hf]

theorem powerOn_stops (hf : Config.fusesPass = false) : exec .powerOn s = .next
    { s with
      measured := some Config.measurement
      portsUp := Config.portsUpAtStart
      upSince := s.time
      boot := .stopped
      outbox := s.outbox ++ ((List.range 32).filter fun i => Config.portsUpAtStart.getLsbD i).map fun i =>
        .notice (.port (384 + i)) ⟨0xE4, 0, 0, bareVals 0xE4⟩ } := by
  have hoff : ¬s.boot ≠ .off := fun h => h hb
  simp only [exec, execPowerOn, if_neg hoff, hf, Bool.false_eq_true, if_false]

end

/-! ### Soft errors (R319, R320) -/

/-- A register word is marked with the cause, and nothing else of the device but the count changes. -/
theorem registerSoftError_marks (s : State) {core addr : Nat} (hc : core < 2304) (ha : addr < 131072) :
    exec (.registerSoftError core addr) s =
      .next ((s.updCore core fun c => { c with marks := Sparse.write 0 c.marks addr 0x54 }).count 0x54) := by
  simp only [exec, execRegisterSoftError, if_pos (And.intro hc (show addr < 2 ^ 17 from ha))]

theorem mark_writeMark (c : Core) (addr b mk : Nat) : ({ c with marks := Sparse.write 0 c.marks addr mk } : Core).mark b =
    if addr = b then mk else c.mark b := Sparse.read_write 0 c.marks addr b mk

theorem instructionStoreSoftError_counts (s : State) {die clus : Nat} (hd : die < 4) (hc : clus < 72) :
    exec (.instructionStoreSoftError die clus) s = .next (s.count 0x55) := by
  simp only [exec, execInstructionStoreSoftError, if_pos (And.intro hd hc)]

theorem memorySoftError_marks {s : State} {line : Nat} (h : s.populated (256 * line) = true) :
    exec (.memorySoftError line) s =
      .next ((s.setLineMark (256 * line) (if tier2 (256 * line) then 0x57 else 0x56)).count (if tier2 (256 * line) then 0x57 else 0x56)) := by
  simp only [exec, execMemorySoftError, if_pos h]

theorem shadowStoreSoftError_kills {s : State} {die ctx : Nat} {c : Context} {v : Saved} {p : Nat × Core}
    (hc : Tbl.find s.ctxs ctx = some c) (hr : c.run ≠ .killed) (hv : Tbl.find s.saved c.part = some v) (hp : p ∈ v.cores)
    (hd : dieOf p.1 = die) : exec (.shadowStoreSoftError die ctx) s =
      .next (((s.count 0x5A).enterCtx ctx 0x5A (bareVals 0x5A)).killCtx ctx (some 0x5A)) := by
  have here : (v.cores.any fun p => dieOf p.1 == die) = true := List.any_eq_true.2 ⟨p, hp, beq_iff_eq.2 hd⟩
  have alive : (c.run == .killed) = false := beq_eq_false_iff_ne.2 hr
  simp only [exec, execShadowStoreSoftError, hc, hv, Option.any_some, here, alive, Bool.not_true, Bool.or_false, Bool.false_eq_true, if_false]

theorem tlbSoftError_drops {s : State} {core e : Nat} (h : e < (s.core core).tlb.length) :
    exec (.tlbSoftError core e) s = .next ((s.updCore core fun c => { c with tlb := c.tlb.eraseIdx e }).count 0x5B) := by
  simp only [exec, execTlbSoftError, if_pos h]

/-! ### Ports that go down (R320, R369) -/

theorem failNets_all (s : State) {p : Nat → NetReq → Bool} (cause : Nat) (h : ∀ q ∈ s.nets, p q.1 q.2 = true) :
    s.failNets p cause = s.nets.foldl (fun u q => u.netStatus q.2 cause) { s with nets := [] } := by
  have kept : (s.nets.filter fun q => p q.1 q.2) = s.nets := List.filter_eq_self.2 h
  have left : (s.nets.filter fun q => !p q.1 q.2) = [] := List.filter_eq_nil_iff.2 fun q hq => by rw [h q hq]; exact Bool.false_ne_true
  simp only [State.failNets, kept, left]

theorem failNets_congr (s : State) {p q : Nat → NetReq → Bool} (cause : Nat) (h : ∀ e ∈ s.nets, p e.1 e.2 = q e.1 e.2) :
    s.failNets p cause = s.failNets q cause := by
  have same : (s.nets.filter fun e => p e.1 e.2) = s.nets.filter fun e => q e.1 e.2 := List.filter_congr h
  have others : (s.nets.filter fun e => !p e.1 e.2) = s.nets.filter fun e => !q e.1 e.2 :=
    List.filter_congr fun e he => congrArg (!·) (h e he)
  simp only [State.failNets, same, others]

section
variable {s t : State} {port : Nat} (hu : s.portsDown.contains port = false)
  (ht : t = ({ s with portsDown := s.portsDown ++ [port] } : State).count 0x59)
include hu ht

/-- A memory port: the accesses that wait for it fail. -/
theorem portDown_memory (hp : port < 400) : exec (.portDown port) s = .next ((s.accs.filter fun p => !p.2.done && !p.2.replay &&
    t.portOf (p.2.lanes.headD ⟨0, 0, 0, [], 0, 0, 0, []⟩).pa == port && t.awake p.2.ctx).foldl (fun (s : State) p => s.failAccess p.1 p.2) t) := by
  have hon : ¬(416 ≤ port ∨ s.portsDown.contains port = true) := by simp only [hu, Bool.false_eq_true, or_false]; omega
  subst ht
  simp only [exec, execPortDown, if_neg hon, if_neg (Nat.not_le.2 hp)]
  rfl

/-- A network port: the requests that the model chooses fail. -/
theorem portDown_network (h1 : 400 ≤ port) (h2 : port < 416) : exec (.portDown port) s = .next (t.failNets (fun i r => !t.anyNetUp ||
    if r.ordered then s.flowPort r.ctx r.peer == some (port - 400) else Config.eventChoice (t.tick + i) % 16 == port - 400) 0x59) := by
  have hon : ¬(416 ≤ port ∨ s.portsDown.contains port = true) := by simp only [hu, Bool.false_eq_true, or_false]; omega
  subst ht
  simp only [exec, execPortDown, if_neg hon, if_pos h1]

/-- The last network port: every request fails. -/
theorem portDown_last (h1 : 400 ≤ port) (h2 : port < 416) (hn : t.anyNetUp = false) :
    exec (.portDown port) s = .next (t.nets.foldl (fun u q => u.netStatus q.2 0x59) { t with nets := [] }) := by
  rw [portDown_network hu ht h1 h2, failNets_all t 0x59 fun q _ => by rw [hn]; rfl]

/-- A port of ordered flows alone: the requests of the flows that it carries fail. -/
theorem portDown_ordered (h1 : 400 ≤ port) (h2 : port < 416) (hn : t.anyNetUp = true) (ho : ∀ q ∈ t.nets, q.2.ordered = true) :
    exec (.portDown port) s = .next (t.failNets (fun _ r => s.flowPort r.ctx r.peer == some (port - 400)) 0x59) := by
  rw [portDown_network hu ht h1 h2]
  refine congrArg Host.Outcome.next (failNets_congr t 0x59 fun q hq => ?_)
  rw [hn, ho q hq]
  rfl

end

/-- Settles O46, event by event. -/
theorem errorsAndStops : Obligations.ErrorsAndStops := by
  refine ⟨fun s hb => ⟨_, rfl, powerOn_starts hb, powerOn_stops hb⟩, ?_,
    fun s die clus hd hc => instructionStoreSoftError_counts s hd hc, fun s line h => ?_,
    fun s die ctx c v p hc hr hv hp hd => shadowStoreSoftError_kills hc hr hv hp hd, fun s core e h => tlbSoftError_drops h,
    fun s => ⟨rfl, rfl, rfl, rfl, rfl⟩, fun s port hu => ?_, fun s => rfl⟩
  · intro s core addr hc ha
    refine ⟨_, registerSoftError_marks s hc ha, ?_, fun b => ?_, fun b hb => ?_, fun c hne => ?_, rfl⟩
    · rw [core_updCore, if_pos rfl, mark_writeMark, if_pos rfl]
    · rw [core_updCore, if_pos rfl]
      rfl
    · rw [core_updCore, if_pos rfl, mark_writeMark, if_neg hb.symm]
    · rw [core_updCore, if_neg hne.symm]
  · rw [memorySoftError_marks h]
    exact ⟨fun ht => by rw [ht]; rfl, fun ht => by rw [ht]; rfl⟩
  · exact ⟨_, rfl, portDown_memory hu rfl, portDown_last hu rfl, portDown_ordered hu rfl⟩

end Sys2Proof.Machine
end

section
/-! Commands of hosts with bad headers, and those that name a context which their partition does not hold (R373, R374, R376). -/

namespace Sys2Proof.Machine

/-- Nothing is received while the mailboxes are closed (R376). -/
theorem hostCmd_closed {s : State} (hb : s.boot ≠ .up) (h : HostHdr) (op : Nat) (k : State → State) : hostCmd h op s k = .next s := by
  simp only [hostCmd, if_pos hb]

/-- A context that the command's partition does not hold: the code of the class and 0xD0 (R373). -/
theorem withCtx_foreign {s : State} {h : HostHdr} (hn : ∀ c, ¬ Holds s h c) (k : Context → State) :
    s.withCtx h k = s.refused h (classCode h.op) 0xD0 := by
  rw [State.withCtx]
  split
  next c hc =>
    have hpart : c.part ≠ h.part := fun e => hn c ⟨hc, e⟩
    rw [if_neg hpart, reject_refused]
  next => exact reject_refused s h 0xD0 none

/-- Acceptance makes no context and moves none to another partition. -/
theorem takeSeq_holds (s : State) (h : HostHdr) (c : Context) : Holds (s.takeSeq h) h c ↔ Holds s h c := by
  simp only [Holds, takeSeq_ctxs]

/-- Settles O50: what a mailbox does not take, and what it takes for a context of another partition. -/
theorem headersOfCommands : Obligations.HeadersOfCommands := by
  refine ⟨fun i h op s hi => ?_, fun i h op s hc hi ht hn => ?_⟩
  · obtain ⟨k, hk⟩ := exec_host s hi
    rw [hk]
    exact ⟨fun hb => hostCmd_closed hb h op k, fun hu hg => hostCmd_bad hu hg k⟩
  · obtain ⟨k, hk⟩ := exec_ctx s hc hi
    have hn' : ∀ c, ¬ Holds (s.takeSeq h) h c := fun c => mt (takeSeq_holds s h c).1 (hn c)
    rw [hk, hostCmd_takes ht, withCtx_foreign hn', ht.2.code]

end Sys2Proof.Machine
end

section
/-! The network: work requests of send rings, their answers, and requests of peers (R369-R371). -/

namespace Sys2Proof.Machine

/-! ### Work requests go out (R371) -/

section
variable {s : State} {ctx slot : Nat} {c : Context} {b b1 b2 : RingBlk} {t u : Word} {r : NetReq} (hc : Tbl.find s.ctxs ctx = some c)
  (hrun : c.run = .running) (hb : s.ringCheck ctx c.sendRing = .ok b) (hlog : b.slog = 6) (hacq : b.step (.acq true 0 0) = .ok b1 t)
  (hne : b1 ≠ b) (hslot : slot = b.f 503 448 + t.toNat % b.slots * 64) (hrec : s.recFault ctx slot 64 .both = none)
  (hr : r = ⟨ctx, slot, s.vrec ctx slot 512, []⟩) (hrel : b1.step (.rel t.toNat) = .ok b2 u)
include hc hrun hb hlog hacq hne hslot hrec hr hrel

/-- The next committed slot is read and released; what follows is the request's own check. -/
theorem exec_networkRequest : exec (.networkRequest ctx) s = .next (
    match s.netCheck c r with
    | .page va => s.wantPage 0 ctx va
    | .fail cause => (s.putRing ctx c.sendRing b2).netStatus r cause
    | .ok =>
      { s.putRing ctx c.sendRing b2 with
        nextId := (s.putRing ctx c.sendRing b2).nextId + 1
        nets := Tbl.put (s.putRing ctx c.sendRing b2).nets (s.putRing ctx c.sendRing b2).nextId
          { r with data := if r.op ≤ 2 then s.vread ctx r.lva r.len else [] } }) := by
  subst hr hslot
  simp only [exec, execNetworkRequest, hc, hrun, hb, hlog, hacq, hne, hrec, hrel, ne_eq, not_true_eq_false, if_false]
  rfl

theorem networkRequest_sends (hk : s.netCheck c r = .ok) : ∃ v : State, v = s.putRing ctx c.sendRing b2 ∧
    exec (.networkRequest ctx) s = .next { v with
      nextId := v.nextId + 1
      nets := Tbl.put v.nets v.nextId { r with data := if r.op ≤ 2 then s.vread ctx r.lva r.len else [] } } := by
  refine ⟨_, rfl, ?_⟩
  rw [exec_networkRequest hc hrun hb hlog hacq hne hslot hrec hr hrel, hk]

theorem networkRequest_fails {cause : Nat} (hk : s.netCheck c r = .fail cause) :
    exec (.networkRequest ctx) s = .next ((s.putRing ctx c.sendRing b2).netStatus r cause) := by
  rw [exec_networkRequest hc hrun hb hlog hacq hne hslot hrec hr hrel, hk]

end

/-! ### Work requests are answered (R371) -/

section
variable {s : State} {n cause : Nat} {r : NetReq} (hf : Tbl.find s.nets n = some r) (hcause : netAnswers.contains cause = true)
  (hflow : s.flowBefore n r = false)
include hf hcause hflow

theorem networkCompletion_ends (h : cause ≠ 0 ∨ r.op ≠ 4) :
    exec (.networkCompletion n cause []) s = .next (({ s with nets := Tbl.del s.nets n } : State).netStatus r cause) := by
  simp only [exec, execNetworkCompletion, hf, hcause, hflow, Bool.not_true, Bool.or_self, Bool.false_eq_true, if_false, if_pos h, if_true]

/-- A request that reads ends with all its bytes. -/
theorem networkCompletion_reads {data : List Byte} (h0 : cause = 0) (h4 : r.op = 4) (hlen : data.length = r.len)
    (hrange : s.rangeFault r.ctx r.lva r.len .write = none) : exec (.networkCompletion n cause data) s = .next
      ((({ s with nets := Tbl.del s.nets n } : State).landBytes r.ctx r.lva data).netStatus r 0) := by
  have h : ¬(cause ≠ 0 ∨ r.op ≠ 4) := not_or.2 ⟨not_not_intro h0, not_not_intro h4⟩
  simp only [exec, execNetworkCompletion, hf, hcause, hflow, Bool.not_true, Bool.or_self, Bool.false_eq_true, if_false, if_neg h, hlen,
    ne_eq, not_true_eq_false, hrange]

end

/-! ### Requests of peers (R370, R371) -/

section
variable {s : State} {r : PeerReq} {c : Context} (hc : Tbl.find s.ctxs r.ctx = some c) (hrun : c.run ≠ .killed)
  (hkey : ∃ p ∈ c.peers, p.key = r.key) (hup : s.anyNetUp = true)
  (hdata : r.op.toNat ∈ [1, 2] → r.bytes.length = r.len ∧ s.rangeFault r.ctx r.rva r.len .write = none)
  (hsig : r.op.toNat ∈ [2, 3] → r.sva % 8 = 0 ∧ s.rangeFault r.ctx r.sva 8 .both = none)
include hc hrun hkey hup hdata hsig

/-- A request that is accepted: bytes first where it writes, then the signal where it has one. -/
theorem exec_peerRequest : exec (.peerRequestReceived r) s = .next (
    if r.op.toNat = 2 ∨ r.op.toNat = 3 then
      (if r.op.toNat = 1 ∨ r.op.toNat = 2 then s.landBytes r.ctx r.rva r.bytes else s).signalAt r.ctx r.sva r.sadd
    else if r.op.toNat = 1 ∨ r.op.toNat = 2 then s.landBytes r.ctx r.rva r.bytes else s) := by
  have hacc : c.accepts r.key = true := by
    obtain ⟨p, hp, e⟩ := hkey
    exact List.any_eq_true.2 ⟨p, hp, beq_iff_eq.2 e⟩
  simp only [List.mem_cons, List.not_mem_nil, or_false] at hdata hsig
  have hlen : ¬((r.op.toNat = 1 ∨ r.op.toNat = 2) ∧ r.bytes.length ≠ r.len) := fun ⟨h, e⟩ => e (hdata h).1
  have hal : ¬((r.op.toNat = 2 ∨ r.op.toNat = 3) ∧ r.sva % 8 ≠ 0) := fun ⟨h, e⟩ => e (hsig h).1
  have hd : (if r.op.toNat = 1 ∨ r.op.toNat = 2 then s.rangeFault r.ctx r.rva r.len .write else none) = none := by
    split
    next h => exact (hdata h).2
    next => rfl
  have hs : (if r.op.toNat = 2 ∨ r.op.toNat = 3 then s.rangeFault r.ctx r.sva 8 .both else none) = none := by
    split
    next h => exact (hsig h).2
    next => rfl
  simp only [exec, execPeerRequestReceived, hc, hrun, hacc, hup, decide_eq_true_eq, not_true_eq_false, or_self, hlen, hal, if_false, hd, hs,
    Option.orElse_eq_orElse, Option.orElse_none]

end

/-- Settles O48: a slot of a send ring, an answer, and a request of a peer. -/
theorem networkRequests : Obligations.NetworkRequests := by
  refine ⟨?_, ?_, ?_⟩
  · intro s ctx slot c b b1 b2 t u r hc hrun hb hlog hacq hne hslot hrec hr hrel
    exact ⟨networkRequest_sends hc hrun hb hlog hacq hne hslot hrec hr hrel,
      fun _ hk => networkRequest_fails hc hrun hb hlog hacq hne hslot hrec hr hrel hk⟩
  · intro s n cause data r hf hcause hflow
    have hcause' : netAnswers.contains cause = true := List.contains_iff_mem.2 hcause
    exact ⟨networkCompletion_ends hf hcause' hflow, networkCompletion_reads hf hcause' hflow⟩
  · intro s r c hc hrun hkey hup hdata hsig
    have performed := exec_peerRequest hc hrun hkey hup hdata hsig
    refine ⟨_, rfl, fun h1 => ?_, fun h2 => ?_, fun h3 => ?_⟩
    · rw [performed, if_neg (by omega), if_pos (Or.inl h1)]
    · rw [performed, if_pos (Or.inl h2), if_pos (Or.inr h2)]
    · rw [performed, if_pos (Or.inr h3), if_neg (by omega)]

end Sys2Proof.Machine
end

section
/-! The end of a gate call: the caller continues, the callee's frame is scrubbed, and GSTAT says how it went (R340-R342, R346). -/

namespace Sys2Proof.Machine

/-- Looking up the entry that was put, after every entry has changed. -/
theorem Tbl.find_mapVals_put {α : Type} (t : Tbl α) (i : Nat) (a : α) (f : Nat → α → α) :
    find (mapVals (put t i a) f) i = some (f i a) := by
  rw [find_mapVals, find_put_self, Option.map_some]

/-! ### Scrubbed granules (R346) -/

namespace Core

/-- The words of a run of granules are 0. -/
theorem word_zeroGrans_run (c : Core) (g n a : Nat) :
    (c.zeroGrans g n).word a = if g ≤ a / 128 ∧ a / 128 < g + n then 0 else c.word a := by
  have hrun : (128 * g ≤ a ∧ a < 128 * g + 128 * n) ↔ (g ≤ a / 128 ∧ a / 128 < g + n) := by omega
  simp only [word, zeroGrans, Sparse.read_clear, hrun]

theorem updGrans_regs (c : Core) (g n : Nat) (f : Gran → Gran) : (c.updGrans g n f).regs = c.regs :=
  List.foldlRecOn (motive := fun k : Core => k.regs = c.regs) _ _ rfl fun _ h _ _ => h

theorem word_scrub (c : Core) (g n a : Nat) :
    (c.scrub g n).word a = if g ≤ a / 128 ∧ a / 128 < g + n then 0 else c.word a := by
  rw [← word_zeroGrans_run, word, word]
  exact congrArg (Sparse.read 0 · a) (updGrans_regs (c.zeroGrans g n) g n _)

theorem word_scrub_of_zero {c : Core} {a : Nat} (g n : Nat) (h : c.word a = 0) : (c.scrub g n).word a = 0 := by
  rw [word_scrub, h, ite_self]

theorem revokeAll_regs (c : Core) (p : Win → Bool) : (c.revokeAll p).regs = c.regs := by
  refine List.foldlRecOn (motive := fun k : Core => k.regs = c.regs) _ _ rfl fun k h q _ => ?_
  rw [revoke]
  split
  · exact h
  · exact h

end Core

/-- What the end of a call does to the core: its windows are revoked, its frame and tiles scrubbed, and under DEEP the translations of
the callee's ASID removed. -/
def Dom.scrubIn (d : Dom) (width wid dn asid : Nat) (c : Core) : Core :=
  let c := d.tiles.foldl (fun c t => c.scrub t.2.gran t.2.granules)
    ((c.revokeAll fun v => v.warp == wid && v.dom == dn).scrub (d.a0 / 128) (d.granules width))
  match d.call with
  | some k => if k.deep then { c with tlb := c.tlb.filter fun e => e.asid != asid } else c
  | none => c

/-- A word of the frame is 0 behind the scrub, and so is one that was 0. -/
theorem scrubIn_word (d : Dom) (width wid dn asid : Nat) {c : Core} {a : Nat}
    (h : (d.a0 / 128 ≤ a / 128 ∧ a / 128 < d.a0 / 128 + d.granules width) ∨ c.word a = 0) :
    (d.scrubIn width wid dn asid c).word a = 0 := by
  have hframe : ((c.revokeAll fun v => v.warp == wid && v.dom == dn).scrub (d.a0 / 128) (d.granules width)).word a = 0 := by
    rw [Core.word_scrub, Core.word, Core.revokeAll_regs]
    rcases h with h | h
    · exact if_pos h
    · exact (congrArg _ h).trans (ite_self _)
  have htiles := List.foldlRecOn (motive := fun c : Core => c.word a = 0) d.tiles (fun c t => c.scrub t.2.gran t.2.granules) hframe
    fun _ hz t _ => Core.word_scrub_of_zero t.2.gran t.2.granules hz
  rw [Dom.scrubIn]
  split
  · split
    · exact htiles
    · exact htiles
  · exact htiles

/-! ### Accesses to the callee's windows (R139) -/

/-- From `s` to `t` only window accesses to a run of granules were performed. -/
def State.SettledIn (core g n : Nat) (s t : State) : Prop :=
  t.warps = s.warps ∧ ∀ a, ¬(g ≤ a / 128 ∧ a / 128 < g + n) → (t.core core).word a = (s.core core).word a

theorem windowWord_settled {s t : State} {core g n : Nat} (h : State.SettledIn core g n s t) (write : Bool) (l : WLane)
    (hl : g ≤ l.target / 128 ∧ l.target / 128 < g + n) : State.SettledIn core g n s (t.windowWord write core l).1 := by
  rw [State.windowWord]
  split
  · exact h
  split
  · refine ⟨h.1, fun a ha => ?_⟩
    have hne : l.target ≠ a := fun e => ha (e ▸ hl)
    have hgran : ¬(a / 128 = l.target / 128 ∧ ((t.core core).gran (l.target / 128)).val = false) := fun e => ha (e.1 ▸ hl)
    show ((t.warpWrite core l.target l.val l.mark).core core).word a = _
    rw [State.warpWrite, core_updCore, if_pos rfl, Core.warpWrite_word, if_neg hne, if_neg hgran]
    exact h.2 a ha
  · exact h

theorem settleWindows_settled (s : State) (core g n : Nat) : State.SettledIn core g n s (s.settleWindows core g n) := by
  rw [State.settleWindows]
  refine List.foldlRecOn _ _ ⟨rfl, fun _ _ => rfl⟩ fun u hu r _ => ?_
  refine List.foldlRecOn (motive := fun q : State × List (Nat × WLane) => State.SettledIn core g n s q.1) _ _ hu fun q hq p _ => ?_
  dsimp only
  split
  next hp =>
    simp only [Bool.and_eq_true, beq_iff_eq, decide_eq_true_eq] at hp
    obtain ⟨⟨rfl, hlo⟩, hhi⟩ := hp
    exact windowWord_settled hq r.2.write p.2 ⟨hlo, hhi⟩
  next => exact hq

/-! ### The callee goes, and its caller continues -/

section
variable {s : State} {wid dn : Nat} {w : Warp} (hw : Tbl.find s.warps wid = some w)
include hw

theorem scrubCallee_eq {d : Dom} (hd : w.dom dn = some d) :
    s.scrubCallee wid dn = ((s.settleWindows (coreOf wid) (d.a0 / 128) (d.granules w.width)).updCore (coreOf wid)
      (d.scrubIn w.width wid dn (((Tbl.find s.ctxs d.ctx).map Context.asid).getD 0))).updWarp wid fun w =>
        { w with doms := Tbl.del w.doms dn, pfaults := w.pfaults.filter fun f => f.dom != dn } := by
  simp only [State.scrubCallee, hw, hd]
  rfl

theorem scrubCallee_warp {d : Dom} (hd : w.dom dn = some d) : Tbl.find (s.scrubCallee wid dn).warps wid =
    some { w with doms := Tbl.del w.doms dn, pfaults := w.pfaults.filter fun f => f.dom != dn } := by
  rw [scrubCallee_eq hw hd]
  show Tbl.find (Tbl.upd (s.settleWindows _ _ _).warps wid _) wid = _
  rw [(settleWindows_settled s _ _ _).1, Tbl.find_upd, if_pos rfl, hw]
  rfl

/-- Words of the core that are 0 stay 0, wherever they lie. -/
theorem scrubCallee_word {d : Dom} (hd : w.dom dn = some d) {a : Nat} (hz : (s.core (coreOf wid)).word a = 0) :
    ((s.scrubCallee wid dn).core (coreOf wid)).word a = 0 := by
  rw [scrubCallee_eq hw hd]
  show (State.core (State.updCore _ _ _) _).word a = 0
  rw [core_updCore, if_pos rfl]
  refine scrubIn_word d _ _ _ _ ?_
  by_cases hin : d.a0 / 128 ≤ a / 128 ∧ a / 128 < d.a0 / 128 + d.granules w.width
  · exact Or.inl hin
  · exact Or.inr (((settleWindows_settled s _ _ _).2 a hin).trans hz)

end

/-- A strand stands behind the `gcall` of a call, as it stood at it. -/
def Strand.Behind (st : Strand) (k : Call) : Prop :=
  st.pc = k.retPc ∧ st.clause = k.retClause ∧ st.em = k.em ∧ st.mem = k.mem ∧ st.rstack = k.rstack ∧ st.dom = k.callerDom ∧
    st.level = k.level ∧ st.parked = none

theorem leaveCall_warp {s : State} {wid : Nat} {w : Warp} (hw : Tbl.find s.warps wid = some w) (dn : Nat) (k : Call) :
    ∃ v j st, Tbl.find (s.leaveCall wid dn k).warps wid = some v ∧ v.doms = w.doms ∧ Tbl.find v.strands j = some st ∧
      st.Behind k := by
  simp only [State.leaveCall, hw, State.adopt, State.dropPends, State.updWarp, Tbl.upd_upd, Tbl.find_upd, if_true, Option.map_some]
  refine ⟨_, ?sid, ?caller, rfl, rfl, ?found, ?behind⟩
  case found =>
    dsimp only
    exact Tbl.find_mapVals_put _ _ _ _
  case behind => exact ⟨rfl, rfl, rfl, rfl, rfl, rfl, rfl, rfl⟩

theorem leaveCall_core (s : State) (wid dn : Nat) (k : Call) (c : Nat) : (s.leaveCall wid dn k).core c = s.core c := by
  rw [State.leaveCall]
  split
  · rfl
  · rfl

/-- `s` with the call of domain `dn` over, and GSTAT saying how. -/
def State.endCall (s : State) (wid dn : Nat) (k : Call) (gstat : Dword) : State :=
  ((s.leaveCall wid dn k).scrubCallee wid dn).updDom wid k.callerDom fun d => { d with csrs := { d.csrs with gstat := gstat } }

section
variable {s : State} {wid dn : Nat} {w : Warp} {d cd : Dom} {k : Call} (hw : Tbl.find s.warps wid = some w) (hd : w.dom dn = some d)
include hw hd

/-- The callee's domain is gone, GSTAT is written, and a strand stands behind the `gcall`. -/
theorem endCall_warp (hcd : w.dom k.callerDom = some cd) (hne : k.callerDom ≠ dn) (gstat : Dword) :
    ∃ v j st e, Tbl.find (s.endCall wid dn k gstat).warps wid = some v ∧ v.dom dn = none ∧ v.dom k.callerDom = some e ∧
      e.csrs.gstat = gstat ∧ Tbl.find v.strands j = some st ∧ st.Behind k := by
  obtain ⟨v, j, st, hv, hdoms, hst, hbehind⟩ := leaveCall_warp hw dn k
  have hvd : v.dom dn = some d := by rw [Warp.dom, hdoms]; exact hd
  have hvc : Tbl.find v.doms k.callerDom = some cd := by rw [hdoms]; exact hcd
  have hend : Tbl.find (s.endCall wid dn k gstat).warps wid = some (Warp.updDom
      { v with doms := Tbl.del v.doms dn, pfaults := v.pfaults.filter fun f => f.dom != dn } k.callerDom
        fun d => { d with csrs := { d.csrs with gstat := gstat } }) := by
    show Tbl.find (Tbl.upd _ wid _) wid = _
    rw [Tbl.find_upd, if_pos rfl, scrubCallee_warp hv hvd]
    rfl
  refine ⟨_, j, st, { cd with csrs := { cd.csrs with gstat := gstat } }, hend, ?_, ?_, rfl, hst, hbehind⟩
  · show Tbl.find (Tbl.upd (Tbl.del v.doms dn) k.callerDom _) dn = none
    rw [Tbl.find_upd, if_neg hne, Tbl.find_del, if_pos rfl]
  · show Tbl.find (Tbl.upd (Tbl.del v.doms dn) k.callerDom _) k.callerDom = _
    rw [Tbl.find_upd, if_pos rfl, Tbl.find_del, if_neg hne.symm, hvc]
    rfl

theorem endCall_word {a : Nat} (k : Call) (gstat : Dword) (hz : (s.core (coreOf wid)).word a = 0) :
    ((s.endCall wid dn k gstat).core (coreOf wid)).word a = 0 := by
  obtain ⟨v, j, st, hv, hdoms, -⟩ := leaveCall_warp hw dn k
  have hvd : v.dom dn = some d := by rw [Warp.dom, hdoms]; exact hd
  refine scrubCallee_word hv hvd ?_
  rw [leaveCall_core, hz]

end

end Sys2Proof.Machine
end

section
/-! Gate calls that are killed: by a trap without a handler, by `tret.kill`, and what a kill leaves to the caller (R342). -/

namespace Sys2Proof.Machine

/-! ### What kills a call -/

/-- A trap in a callee goes up: its call is killed, and the host of the callee's context hears of it. -/
theorem leaveWarpRung_callee (s : State) {x : Who} (t : Trap) (tpc : Pc) (why first opener : Nat) (hd : x.st.dom ≠ 0) :
    s.leaveWarpRung x t tpc why first opener =
      (s.notify ⟨0xC5, s.partOf x.d.ctx, x.d.ctx,
        rungVals (x.d.csrs.ofTrap t tpc (trungOf first why x.w.winc false 0)) (widOf x.wid x.w)⟩).killCall 8 x.wid x.st.dom 0xC5 first := if_neg hd

theorem trapAt_callee {s : State} {x : Who} (hx : s.strandAt x.wid x.sid = some x) (t : Trap) (hd : x.st.dom ≠ 0) (hl : x.st.level = 0)
    (ho : x.w.otherHandler x.sid = false) (hp : x.st.pends = []) : s.trapAt x.wid x.sid t = s.enterTrap x t := by
  have hrung : ¬(s.isRungHandler x && x.st.dom == 0) = true := fun h => hd (beq_iff_eq.1 (Bool.and_eq_true_iff.1 h).2)
  have hlevel : ¬x.st.level = 1 := by omega
  simp only [State.trapAt, hx, if_neg hrung, if_neg hlevel, ho, Bool.false_eq_true, if_false, if_pos hp]

theorem exec_tret_callee {s : State} {x : Who} (hc : Clear s x) (hl : x.st.level ≠ 0) (hd : x.st.dom ≠ 0) (f : TretF) :
    exec (.tret f) s = .next (s.warpReturn x f) := by
  refine (issue_clear hc _).trans ?_
  simp only [if_neg hl, beq_eq_false_iff_ne.2 hd, Bool.and_false, Bool.false_eq_true, if_false]

theorem warpReturn_killCall (s : State) {x : Who} {f : TretF} {r : TrapRec} (hr : x.d.trapRec = some r) (hs : x.st.rstack.length = r.depth)
    (hm : f.mode = .kill) (hd : x.st.dom ≠ 0) : s.warpReturn x f =
      (s.notify ⟨0xC5, s.partOf x.d.ctx, x.d.ctx, rungVals x.d.csrs (widOf x.wid x.w)⟩).killCall
        8 x.wid x.st.dom 0xC5 (x.d.csrs.tcause.extractLsb' 0 8).toNat := by
  simp only [State.warpReturn, hr, hs, ne_eq, not_true_eq_false, if_false, if_pos hm, if_neg hd]
  rfl

/-! ### Words that become 0 -/

/-- From `s` to `t` words of a core became 0; the warps and the owners of its granules are as before. -/
structure State.Zeroing (core : Nat) (s t : State) : Prop where
  warps : t.warps = s.warps
  own : ∀ g, ((t.core core).gran g).own = ((s.core core).gran g).own
  zero : ∀ a, (s.core core).word a = 0 → (t.core core).word a = 0

theorem State.Zeroing.refl (core : Nat) (s : State) : State.Zeroing core s s := ⟨rfl, fun _ => rfl, fun _ h => h⟩

theorem State.Zeroing.trans {core : Nat} {s t u : State} (h : State.Zeroing core s t) (h' : State.Zeroing core t u) :
    State.Zeroing core s u :=
  ⟨h'.warps.trans h.warps, fun g => (h'.own g).trans (h.own g), fun a hz => h'.zero a (h.zero a hz)⟩

theorem warpWrite_zeroWord (s : State) (core a b : Nat) (h : a = b ∨ (s.core core).word b = 0) :
    ((s.warpWrite core a 0 0).core core).word b = 0 := by
  rw [State.warpWrite, core_updCore, if_pos rfl, Core.warpWrite_word]
  rcases h with h | h
  · exact if_pos h
  · rw [h, ite_self, ite_self]

theorem warpWrite_zeroing (s : State) (core a : Nat) : State.Zeroing core s (s.warpWrite core a 0 0) := by
  refine ⟨rfl, fun g => ?_, fun b hz => warpWrite_zeroWord s core a b (Or.inr hz)⟩
  rw [State.warpWrite, core_updCore, if_pos rfl, Core.warpWrite_gran]
  split
  · rfl
  · rfl

section
variable {α : Type} {core : Nat} {f : State → α → State} (hf : ∀ s b, State.Zeroing core s (f s b))
include hf

theorem foldl_zeroing (l : List α) (s : State) : State.Zeroing core s (l.foldl f s) :=
  List.foldlRecOn l f (.refl core s) fun _ h b _ => h.trans (hf _ b)

/-- A word that one of the operations writes is 0 behind all of them. -/
theorem foldl_zeroing_word {a : Nat} {b : α} {l : List α} (hb : b ∈ l) {s : State}
    (hz : ∀ t, State.Zeroing core s t → ((f t b).core core).word a = 0) : ((l.foldl f s).core core).word a = 0 := by
  induction l generalizing s with
  | nil => cases hb
  | cons c l ih =>
    rcases List.mem_cons.1 hb with rfl | hb
    · exact (foldl_zeroing hf l (f s b)).zero a (hz s (.refl core s))
    · exact ih hb fun t ht => hz t ((hf s c).trans ht)

end

/-! ### The results of a call that is killed -/

/-- The words of the result registers of a call, in the caller's frame. -/
def Call.resultWords (k : Call) (w : Warp) (cd : Dom) : List Nat :=
  (List.range k.nres).flatMap fun r => (lanesOf k.em).map fun l => cd.lane w.width r l

theorem mem_resultWords {k : Call} {w : Warp} {cd : Dom} {a : Nat} :
    a ∈ k.resultWords w cd ↔ ∃ r l, r < k.nres ∧ l ∈ lanesOf k.em ∧ cd.lane w.width r l = a := by
  simp only [Call.resultWords, List.mem_flatMap, List.mem_range, List.mem_map]
  exact ⟨fun ⟨r, hr, l, hl, e⟩ => ⟨r, l, hr, hl, e⟩, fun ⟨r, l, hr, hl, e⟩ => ⟨r, hr, l, hl, e⟩⟩

/-- A result word becomes 0, unless the engine side holds its granule. -/
def State.zeroResult (core : Nat) (s : State) (a : Nat) : State :=
  if ((s.core core).gran (a / 128)).own then s else s.warpWrite core a 0 0

theorem zeroResult_zeroing (core : Nat) (s : State) (a : Nat) : State.Zeroing core s (s.zeroResult core a) := by
  rw [State.zeroResult]
  split
  · exact .refl core s
  · exact warpWrite_zeroing s core a

section
variable (s : State) (wid : Nat) (w : Warp) (cd : Dom) (k : Call)

theorem zeroResults_eq : s.zeroResults wid w cd k =
    ((List.range 4).foldl (fun s i => s.setScalar (coreOf wid) cd i 0) ((k.resultWords w cd).foldl (State.zeroResult (coreOf wid)) s),
      (k.resultWords w cd).any fun a => ((s.core (coreOf wid)).gran (a / 128)).own) := rfl

theorem zeroResults_results : State.Zeroing (coreOf wid) s ((k.resultWords w cd).foldl (State.zeroResult (coreOf wid)) s) :=
  foldl_zeroing (zeroResult_zeroing (coreOf wid)) _ s

theorem zeroScalar_zeroing (t : State) (i : Nat) : State.Zeroing (coreOf wid) t (t.setScalar (coreOf wid) cd i 0) :=
  warpWrite_zeroing t (coreOf wid) (cd.scal i)

theorem zeroResults_warps : (s.zeroResults wid w cd k).1.warps = s.warps :=
  (foldl_zeroing (zeroScalar_zeroing wid cd) _ _).warps.trans (zeroResults_results s wid w cd k).warps

theorem zeroResults_scalar {i : Nat} (hi : i < 4) : ((s.zeroResults wid w cd k).1.core (coreOf wid)).word (cd.scal i) = 0 :=
  foldl_zeroing_word (zeroScalar_zeroing wid cd) (List.mem_range.2 hi) fun t _ => warpWrite_zeroWord t _ _ _ (Or.inl rfl)

theorem zeroResults_word {a : Nat} (ha : a ∈ k.resultWords w cd) (ho : ((s.core (coreOf wid)).gran (a / 128)).own = false) :
    ((s.zeroResults wid w cd k).1.core (coreOf wid)).word a = 0 := by
  refine (foldl_zeroing (zeroScalar_zeroing wid cd) _ _).zero a ?_
  refine foldl_zeroing_word (zeroResult_zeroing (coreOf wid)) ha fun t ht => ?_
  rw [State.zeroResult, ht.own, ho, if_neg Bool.false_ne_true]
  exact warpWrite_zeroWord t _ a a (Or.inl rfl)

theorem zeroResults_lost : (s.zeroResults wid w cd k).2 = true ↔
    ∃ r l, r < k.nres ∧ l ∈ lanesOf k.em ∧ ((s.core (coreOf wid)).gran (cd.lane w.width r l / 128)).own = true := by
  rw [zeroResults_eq, List.any_eq_true]
  constructor
  · rintro ⟨a, ha, ho⟩
    obtain ⟨r, l, hr, hl, rfl⟩ := mem_resultWords.1 ha
    exact ⟨r, l, hr, hl, ho⟩
  · rintro ⟨r, l, hr, hl, ho⟩
    exact ⟨_, mem_resultWords.2 ⟨r, l, hr, hl, rfl⟩, ho⟩

end

/-! ### A call without commands and inner calls is killed -/

theorem abandon_none {s : State} {p : Cmd → Bool} (h : ∀ c ∈ s.cmds, p c.2 = false) (aux : Nat) : s.abandon p aux = s := by
  have hnil : (s.cmds.filter fun q => p q.2) = [] := List.filter_eq_nil_iff.2 fun c hc => Bool.eq_false_iff.1 (h c hc)
  rw [State.abandon, hnil, List.foldl_nil]

theorem killCall_alone {s : State} {wid dn : Nat} {w : Warp} {d cd : Dom} {k : Call} (hw : Tbl.find s.warps wid = some w)
    (hd : w.dom dn = some d) (hk : d.call = some k) (hcd : w.dom k.callerDom = some cd)
    (hinner : ∀ p ∈ w.doms, p.1 ≠ 0 → ∀ c, p.2.call = some c → c.callerDom ≠ dn)
    (hcmds : ∀ c ∈ s.cmds, ¬ (c.2.wid = wid ∧ c.2.dom = dn)) (n code fcause : Nat) :
    s.killCall (n + 1) wid dn code fcause = (s.zeroResults wid w cd k).1.endCall wid dn k
      (gstatOf code fcause (s.zeroResults wid w cd k).2 k.gate) := by
  have hnone : (w.doms.filterMap fun p => if p.2.call.any (fun c => c.callerDom == dn && p.1 != 0) then some p.1 else none) = [] := by
    refine filterMap_none fun p hp => if_neg fun hany => ?_
    obtain ⟨c, hc, hq⟩ := (Option.any_eq_true _ _).1 hany
    obtain ⟨hcaller, hdom⟩ := Bool.and_eq_true_iff.1 hq
    exact hinner p hp (bne_iff_ne.1 hdom) c hc (beq_iff_eq.1 hcaller)
  have hfree : s.abandon (fun c => c.wid == wid && c.dom == dn) 0xC5 = s := by
    refine abandon_none (fun c hc => Bool.eq_false_iff.2 fun hq => ?_) _
    obtain ⟨h1, h2⟩ := Bool.and_eq_true_iff.1 hq
    exact hcmds c hc ⟨beq_iff_eq.1 h1, beq_iff_eq.1 h2⟩
  simp only [State.killCall, hw, hnone, List.foldl_nil, hd, Option.bind_some, hk, hcd, hfree]
  rfl

/-- Settles O38: the two ways to a kill, and what it leaves. -/
theorem callsKilled : Obligations.CallsKilled := by
  refine ⟨?_, ?_, ?_⟩
  · rintro s x t _ hx hd hl ho hp hv rfl
    rw [trapAt_callee hx t hd hl ho hp, enterTrap_noHandler s x t hv, leaveWarpRung_callee _ _ _ _ _ _ hd]
    rfl
  · intro s x f r hc hl hd hr hs hm
    rw [exec_tret_callee hc hl hd, warpReturn_killCall s hr hs hm hd]
  · rintro s _ n wid dn code fcause w d cd k lost hw hd hk hne hcd hinner hcmds hlost rfl
    rw [killCall_alone hw hd hk hcd hinner hcmds]
    have hw' : Tbl.find (s.zeroResults wid w cd k).1.warps wid = some w := by rw [zeroResults_warps, hw]
    have hlost' : (s.zeroResults wid w cd k).2 = lost := Bool.eq_iff_iff.2 ((zeroResults_lost s wid w cd k).trans hlost.symm)
    obtain ⟨v, j, st, e, hv, hgone, he, hg, hst, h1, h2, h3, h4, h5, h6, h7, h8⟩ :=
      endCall_warp hw' hd hcd hne (gstatOf code fcause (s.zeroResults wid w cd k).2 k.gate)
    refine ⟨v, e, j, st, hv, hgone, he, hlost' ▸ hg, hst, h1, h2, h3, h4, h5, h6, h7, h8, fun r l hr hl ho => ?_, fun i hi => ?_⟩
    · exact endCall_word hw' hd k _ (zeroResults_word s wid w cd k (mem_resultWords.2 ⟨r, l, hr, hl, rfl⟩) ho)
    · exact endCall_word hw' hd k _ (zeroResults_scalar s wid w cd k hi)

end Sys2Proof.Machine
end

section
/-! Gate calls: `gcall` passes its checks and enters, or finds no frame; `gret` waits, or returns (R332-R337, R340). -/

namespace Sys2Proof.Machine

/-! ### Words that are copied between frames (R337, R340) -/

theorem copyWords_warps (core : Nat) (l : List (Nat × Nat)) (s : State) :
    (l.foldl (fun s p => s.copyWord core p.1 p.2) s).warps = s.warps :=
  List.foldlRecOn (motive := fun t : State => t.warps = s.warps) l _ rfl fun _ h _ _ => h

theorem copyResults_warps (s : State) (x : Who) (cd : Dom) (k : Call) : (s.copyResults x cd k).1.warps = s.warps :=
  copyWords_warps x.core _ s

/-! ### `gcall` (R335-R337) -/

theorem argViolation_none {s : State} {x : Who} {n l : Nat}
    (h : ∀ k, k < n → ((s.core x.core).gran (x.d.lane x.width k l / 128)).own = false ∧
      ((s.core x.core).gran (x.d.lane x.width k l / 128)).val = true) : s.argViolation x n l = none := by
  have hown : (((List.range n).map fun k => (s.core x.core).gran (x.d.lane x.width k l / 128)).any Gran.own) = false := by
    rw [List.any_map, List.any_eq_false]
    exact fun k hk => Bool.eq_false_iff.1 (h k (List.mem_range.1 hk)).1
  have hval : (((List.range n).map fun k => (s.core x.core).gran (x.d.lane x.width k l / 128)).any fun g => !g.val) = false := by
    rw [List.any_map, List.any_eq_false]
    exact fun k hk => by rw [Function.comp_apply, (h k (List.mem_range.1 hk)).2]; exact Bool.false_ne_true
  simp only [State.argViolation, hown, hval, Bool.false_eq_true, if_false]

section
variable {s : State} {x : Who} {g : BitVec 512} (hvalid : g.getLsbD 511 = true) (hpart : gfield g 504 500 = s.partOf x.d.ctx)
  (hperm : g.getLsbD 510 = true ∨ s.gatePermits g x.d.ctx = true) (hdepth : gdepth x.w 8 x.st.dom ≠ 4)
  (hnest : ∀ k, x.d.call = some k → k.nest = true) (hargs : gfield g 480 476 ≤ x.d.fv) (hres : gfield g 475 471 ≤ x.d.fv)
  (hread : ∀ l ∈ lanesOf x.st.em, ∀ k, k < gfield g 480 476 →
    ((s.core x.core).gran (x.d.lane x.width k l / 128)).own = false ∧ ((s.core x.core).gran (x.d.lane x.width k l / 128)).val = true)
include hvalid hpart hperm hdepth hnest hargs hres hread

theorem gcallCheck_passes : s.gcallCheck x g = none := by
  have hgate : (!g.getLsbD 511 || gfield g 504 500 != s.partOf x.d.ctx) = false := by rw [hvalid, hpart, bne_self_eq_false]; rfl
  have hpermit : (!g.getLsbD 510 && !s.gatePermits g x.d.ctx) = false := by
    rcases hperm with h | h
    · rw [h]; rfl
    · rw [h, Bool.not_true, Bool.and_false]
  have hmay : (x.d.call.any fun c => !c.nest) = false := by
    refine Bool.eq_false_iff.2 fun h => ?_
    obtain ⟨k, hk, hn⟩ := (Option.any_eq_true _ _).1 h
    rw [hnest k hk] at hn
    cases hn
  have hwide : ¬(x.d.fv < gfield g 480 476 ∨ x.d.fv < gfield g 475 471) := by omega
  have hbad : ((lanesOf x.st.em).filterMap fun l => (s.argViolation x (gfield g 480 476) l).map fun c => (l, c)) = [] :=
    filterMap_none fun l hl => by rw [argViolation_none (hread l hl)]; rfl
  simp only [State.gcallCheck, hgate, hpermit, if_neg hdepth, hmay, if_neg hwide, hbad, List.filterMap_nil, ne_eq, not_true_eq_false,
    Bool.false_eq_true, if_false]

variable (hc : Clear s x) {gi : BitVec 10} (hg : g = s.gate gi.toNat) {n : Nat}
  (hn : n = (1152 + 8 * gfield g 487 481 * x.width + 127) / 128)
include hc hg hn

theorem gcall_enters {i dn : Nat} (hi : (s.core x.core).findPool n = some i) (hdn : Tbl.freeFrom x.w.doms 128 1 = some dn) :
    exec (.gcall gi) s = .next (s.enterCallee x gi.toNat g (1024 - (s.core x.core).pool + i) n dn) := by
  have hcheck := gcallCheck_passes hvalid hpart hperm hdepth hnest hargs hres hread
  subst hg hn
  exact (issue_clear hc _).trans (by simp only [hcheck, hi, hdn])

/-- No frame or no domain is free: GSTAT says so, and the strand moves on behind a full fence (R345). -/
theorem gcall_exhausted (h : (s.core x.core).findPool n = none ∨ Tbl.freeFrom x.w.doms 128 1 = none) :
    exec (.gcall gi) s = .next ((((s.updDom x.wid x.st.dom fun d =>
      { d with csrs := { d.csrs with gstat := gstatOf 0xC2 0 false gi.toNat } }).fenceAll x).updStrand
        x.wid x.sid fun st => { st with grants := [] }).skip x) := by
  have hcheck := gcallCheck_passes hvalid hpart hperm hdepth hnest hargs hres hread
  subst hg hn
  refine (issue_clear hc _).trans ?_
  simp only [hcheck]
  split
  next hi hdn =>
    rcases h with h | h
    · rw [h] at hi
      cases hi
    · rw [h] at hdn
      cases hdn
  next => rfl

end

/-- The strand stands at ENTRY in its new domain, its lanes unchanged, and the warp's other strands are as before. -/
theorem enterCallee_strands {s : State} {x : Who} (hw : Tbl.find s.warps x.wid = some x.w) (hst : Tbl.find x.w.strands x.sid = some x.st)
    (gi : Nat) (g : BitVec 512) (gran n dn : Nat) :
    ∃ v st, Tbl.find (s.enterCallee x gi g gran n dn).warps x.wid = some v ∧ Tbl.find v.strands x.sid = some st ∧
      st.pc = BitVec.ofNat 53 (gfield g 447 392 / 8) ∧ st.dom = dn ∧ st.level = 0 ∧ st.rstack = [] ∧ st.em = x.st.em ∧
      st.mem = x.st.mem ∧ ∀ j, j ≠ x.sid → Tbl.find v.strands j = Tbl.find x.w.strands j := by
  simp only [State.enterCallee, State.fenceAll, State.updStrand, State.updWarp, Warp.updStrand, copyWords_warps, State.updCore,
    State.setCore, Tbl.upd_upd, Tbl.find_upd, hw, if_true, Option.map_some]
  refine ⟨_, ?entered, rfl, ?found, ?place⟩
  case found =>
    dsimp only
    rw [Tbl.find_upd, if_pos rfl, hst]
    rfl
  case place => exact ⟨rfl, rfl, rfl, rfl, rfl, rfl, fun j hj => by rw [Tbl.find_upd, if_neg (Ne.symm hj)]⟩

/-! ### `gret` (R340) -/

/-- A result, a command or a window access of a callee is outstanding. -/
def State.calleeBusy (s : State) (x : Who) : Bool :=
  (x.w.strands.any fun p => p.2.dom == x.st.dom && p.2.pends != []) || (s.cmds.any fun c => c.2.wid == x.wid && c.2.dom == x.st.dom) ||
    (s.calleeWins x).any fun i => s.winBusy x.core i

theorem calleeBusy_iff (s : State) (x : Who) : s.calleeBusy x = true ↔
    (∃ p ∈ x.w.strands, p.2.dom = x.st.dom ∧ p.2.pends ≠ []) ∨
    (∃ c ∈ s.cmds, c.2.wid = x.wid ∧ c.2.dom = x.st.dom) ∨ ∃ i ∈ s.calleeWins x, s.winBusy x.core i = true := by
  simp only [State.calleeBusy, Bool.or_eq_true, List.any_eq_true, Bool.and_eq_true, beq_iff_eq, bne_iff_ne, or_assoc]

theorem calleeFault_none {s : State} {x : Who} (hw : Tbl.find s.warps x.wid = some x.w) (h : ∀ p ∈ x.w.pfaults, p.dom ≠ x.st.dom) :
    s.calleeFault x = none := by
  rw [State.calleeFault, hw, Option.map_some, Option.bind_some, List.find?_eq_none]
  exact fun p hp => mt beq_iff_eq.1 (h p hp)

section
variable {s : State} {x : Who} (hc : Clear s x) {k : Call} (hk : x.d.call = some k) (hr : x.st.rstack = [])
include hc hk hr

theorem gret_gathers (hg : callGathered x = false) : exec .gret s = .next (s.parkAside x.wid x.sid .gret) :=
  (issue_clear hc _).trans (by simp only [hk, hr, hg, ne_eq, not_true_eq_false, if_false, Bool.not_false, if_true])

variable (hg : callGathered x = true)
include hg

theorem exec_gret : exec .gret s = .next (
    if s.calleeBusy x then s.park x.wid x.sid .gret
    else match s.calleeFault x, x.w.dom k.callerDom with
      | some p, _ => s.trapPending x p.pair p.trap
      | none, none => s
      | none, some cd =>
        if (List.range 4).any fun i => s.scalarBusy x.wid k.callerDom i then s.trap x 0x2E 3
        else (s.copyResults x cd k).1.endCall x.wid x.st.dom k (gstatOf 0 0 (s.copyResults x cd k).2 k.gate)) := by
  refine (issue_clear hc _).trans ?_
  simp only [hk, hr, hg, ne_eq, not_true_eq_false, if_false, Bool.not_true, Bool.false_eq_true]
  rfl

theorem gret_waits (hb : s.calleeBusy x = true) : exec .gret s = .next (s.park x.wid x.sid .gret) := by
  rw [exec_gret hc hk hr hg, if_pos hb]

theorem gret_returns {cd : Dom} (hcd : x.w.dom k.callerDom = some cd) (hb : s.calleeBusy x = false) (hf : s.calleeFault x = none)
    (hs : ∀ i, i < 4 → s.scalarBusy x.wid k.callerDom i = false) : exec .gret s = .next
      ((s.copyResults x cd k).1.endCall x.wid x.st.dom k (gstatOf 0 0 (s.copyResults x cd k).2 k.gate)) := by
  have hfree : ((List.range 4).any fun i => s.scalarBusy x.wid k.callerDom i) = false := by
    rw [List.any_eq_false]
    exact fun i hi => Bool.eq_false_iff.1 (hs i (List.mem_range.1 hi))
  rw [exec_gret hc hk hr hg, hb, if_neg Bool.false_ne_true]
  simp only [hf, hcd, hfree, Bool.false_eq_true, if_false]

end

/-- Settles O37: `gcall` with and without a frame, and `gret` with lanes elsewhere, with something outstanding, and at the end. -/
theorem gateCalls : Obligations.GateCalls := by
  intro s x hc
  obtain ⟨-, -, -, hw, hst, hd⟩ := who_spec hc.who
  refine ⟨?_, fun k cd hk hr => ⟨gret_gathers hc hk hr, fun hg => ⟨fun hb => ?_, ?_⟩⟩⟩
  · intro gi g n hg hvalid hpart hperm hdepth hnest hargs hres hread hn
    refine ⟨fun i dn hi hdn => ?_, gcall_exhausted hvalid hpart hperm hdepth hnest hargs hres hread hc hg hn⟩
    obtain ⟨v, st, hv, hplace⟩ := enterCallee_strands hw hst gi.toNat g (1024 - (s.core x.core).pool + i) n dn
    exact ⟨_, v, st, gcall_enters hvalid hpart hperm hdepth hnest hargs hres hread hc hg hn hi hdn, rfl, hv, hplace⟩
  · exact gret_waits hc hk hr hg ((calleeBusy_iff s x).2 hb)
  · intro hcd hne hpends hcmds hwins hfaults hfree
    have hbusy : s.calleeBusy x = false := by
      rw [Bool.eq_false_iff, Ne, calleeBusy_iff]
      rintro (⟨p, hp, hpd, h⟩ | ⟨c, hcm, h⟩ | ⟨i, hi, h⟩)
      · exact h (hpends p hp hpd)
      · exact hcmds c hcm h
      · exact Bool.false_ne_true ((hwins i hi).symm.trans h)
    have hw' : Tbl.find (s.copyResults x cd k).1.warps x.wid = some x.w := by rw [copyResults_warps, hw]
    obtain ⟨v, j, st, e, hv, hgone, he, hgstat, hj, hbehind⟩ :=
      endCall_warp hw' hd hcd hne (gstatOf 0 0 (s.copyResults x cd k).2 k.gate)
    exact ⟨_, v, j, st, e, gret_returns hc hk hr hg hcd hbusy (calleeFault_none hw hfaults) hfree, rfl, hv, hgone, he, hgstat,
      hj, hbehind⟩

end Sys2Proof.Machine
end


section
/-! Integer instructions and cross-lane instructions complete (R48, R53, R114-R119). -/

namespace Sys2Proof.Machine

/-- Settles O59. -/
theorem canonicalAtReset : Obligations.CanonicalAtReset := State.reset_canonical

/-- How an integer instruction completes with its sticky bits: at once, or by issuing with its results (R34). -/
def IntRule.complete (q : IntRule) (r : Ready) (bits : Nat) : State :=
  match q.la with
  | none => r.finish r.em (q.res r) bits
  | some la => r.launch la r.em (q.res r) bits

/-- The meaning of an integer instruction, short or of long latency. -/
theorem exec_intRule_complete {i : Instr} {q : IntRule} {s : State} {x : Who} (hq : intRule i = some q) (hc : Clear s x) :
    exec i s = .next ((beginOp s x q.d).andThen fun r =>
      completeInt r (maskWhere r.em fun l => (q.g r l).dz) (maskWhere r.em fun l => (q.g r l).ov) (q.complete r)) := by
  cases hl : q.la with
  | none =>
    have hk : ∀ r, q.complete r = fun bits => r.finish r.em (q.res r) bits := fun r => by
      funext bits
      simp only [IntRule.complete, hl]
    simp only [hk]
    exact exec_intRule hq hl hc
  | some la =>
    cases i <;> first | (cases hq; done) | skip
    case div f | rem f =>
      cases hq
      exact issue_clear hc _
    all_goals
      cases hq
      cases hl

/-- One whose operands are in order: R48 decides with the lanes that raise a condition and count. -/
theorem exec_intRule_ready {i : Instr} {q : IntRule} {s : State} {x : Who} (hq : intRule i = some q) (hc : Clear s x)
    (ho : OperandsOk s x q.d) : exec i s = .next
      (completeInt (readyOf s x q.d) (maskWhere (readyOf s x q.d).em fun l => (q.g (readyOf s x q.d) l).dz)
        (maskWhere (readyOf s x q.d).em fun l => (q.g (readyOf s x q.d) l).ov) (q.complete (readyOf s x q.d))) := by
  rw [exec_intRule_complete hq hc, beginOp_ok ho, Prep.go_andThen]

theorem exec_intRule_ok {i : Instr} {q : IntRule} {s : State} {x : Who} (hq : intRule i = some q) (hc : Clear s x) (ho : OperandsOk s x q.d)
    (ht : noIntTrap x (q.dz (readyOf s x q.d)) (q.ov (readyOf s x q.d))) :
    exec i s = .next (q.complete (readyOf s x q.d) (intBits (q.dz (readyOf s x q.d)) (q.ov (readyOf s x q.d)))) := by
  simp only [IntRule.dz, IntRule.ov, raised] at ht ⊢
  rw [exec_intRule_ready hq hc ho, completeInt_ok (readyOf s x q.d) _ _ _ ht]

/-- A division by zero traps first (R48). -/
theorem completeInt_dz {r : Ready} {dz ov : Mask} {fin : Nat → State} (he : acrEdz r.x.d.csrs.acr = true) (h : dz &&& r.counted ≠ 0) :
    completeInt r dz ov fin = r.s.trapAt r.x.wid r.x.sid { cause := 0x18, lanes := dz &&& r.counted } := by
  rw [completeInt, if_pos ⟨he, h⟩]

/-- An overflow traps where no division by zero has (R48). -/
theorem completeInt_ov {r : Ready} {dz ov : Mask} {fin : Nat → State} (hd : ¬ (acrEdz r.x.d.csrs.acr = true ∧ dz &&& r.counted ≠ 0))
    (he : acrEov r.x.d.csrs.acr = true) (h : ov &&& r.counted ≠ 0) :
    completeInt r dz ov fin = r.s.trapAt r.x.wid r.x.sid { cause := 0x19, lanes := ov &&& r.counted } := by
  rw [completeInt, if_neg hd, if_pos ⟨he, h⟩]

/-- Settles O1: one meaning for every rule of R50-R58, which traps, completes or launches as R48 says. -/
theorem integerInstructions : Obligations.IntegerInstructions := by
  refine ⟨fun i q s x hq hl hc ho ht => ⟨_, exec_intRule_ok hq hc ho ht, ?_⟩,
    fun i q la s x hq hl hc ho ht => ⟨_, exec_intRule_ok hq hc ho ht, ?_⟩,
    fun i q s x hq hc ho => ⟨fun he hz => ?_, fun hd he hv => ?_⟩⟩
  · simp only [IntRule.complete, hl, em_all]
    exact finish_done hc q.d _ _ _ _ hc.lanes
  · simp only [IntRule.complete, hl, em_all]
    exact launch_done hc q.d _ _ _ _ _
  · rw [exec_intRule_ready hq hc ho, completeInt_dz (r := readyOf s x q.d) he hz]
    rfl
  · rw [exec_intRule_ready hq hc ho, completeInt_ov (r := readyOf s x q.d) hd he hv]
    rfl

/-- Settles O3: both are the carry operation, which completes. -/
theorem carryCompletes : Obligations.CarryCompletes := by
  intro i f g s x hq hc ho
  cases i <;> first | (cases hq; done) | skip
  case addcy f | subbw f =>
    cases hq
    exact carryOp_done hc ho

/-- The meaning of a cross-lane instruction (R115-R119): the participants go on, and the flags that they raise become sticky or trap. -/
theorem exec_laneRule {i : Instr} {q : LaneRule} {s : State} {x : Who} (hq : laneRule i = some q) (hc : Clear s x)
    (hp : ∀ f, i ≠ .mpop f) (hf : ∀ f, i ≠ .mffs f) : exec i s = .next ((beginOp s x q.d (q.acc x) (q.only x)).andThen fun r =>
      completeFp r (q.fl r) fun bits => r.finish r.em (q.res r) bits) := by
  cases i <;> first | (cases hq; done) | skip
  case mpop f => exact absurd rfl (hp f)
  case mffs f => exact absurd rfl (hf f)
  case scan f | redux f | csamp f =>
    cases hq
    exact issue_clear hc _
  all_goals
    cases hq
    simp only [completeFp_noFlags]
    exact issue_clear hc _

/-- A count of a mask, or its lowest lane (R114), stands in every lane of EM. -/
theorem uniformOp_ready {s : State} {x : Who} {d : Opnd} (g : Who → Word) (hc : Clear s x)
    (ho : OperandsOk s x { srcs := [], dst := some (d, 1), masked := true }) : uniformOp s d g = .next
      ((readyOf s x { srcs := [], dst := some (d, 1), masked := true }).finish x.st.em fun _ => [g x]) := by
  refine (issue_clear hc _).trans ?_
  simp only [beginOp_ok ho, em_all]

/-- One of R114-R119 whose operands are in order. -/
theorem exec_laneRule_ready {i : Instr} {q : LaneRule} {s : State} {x : Who} (hq : laneRule i = some q) (hc : Clear s x)
    (ho : OperandsOk s x q.d (q.acc x) (q.only x)) : exec i s = .next
      (completeFp (readyOf s x q.d (q.only x)) (q.fl (readyOf s x q.d (q.only x))) fun bits =>
        (readyOf s x q.d (q.only x)).finish (readyOf s x q.d (q.only x)).em (q.res (readyOf s x q.d (q.only x))) bits) := by
  by_cases hp : ∀ f, i ≠ .mpop f
  · by_cases hf : ∀ f, i ≠ .mffs f
    · rw [exec_laneRule hq hc hp hf, beginOp_ok ho, Prep.go_andThen]
    · obtain ⟨f, hi⟩ := not_forall_not.1 hf
      subst hi
      cases hq
      rw [completeFp_noFlags]
      exact (uniformOp_ready _ hc ho).trans (by rw [← em_all s x]; rfl)
  · obtain ⟨f, hi⟩ := not_forall_not.1 hp
    subst hi
    cases hq
    rw [completeFp_noFlags]
    exact (uniformOp_ready _ hc ho).trans (by rw [← em_all s x]; rfl)

/-- Settles O7: a lane that takes part lies in EM, and so within the warp's width. -/
theorem crossLaneCompletes : Obligations.CrossLaneCompletes := by
  intro i q s x hq hc ho ht
  refine ⟨_, exec_laneRule_ready hq hc ho, ?_⟩
  rw [completeFp_ok _ _ _ ht]
  exact finish_done hc _ _ _ _ _ fun l hl => hc.lanes l (mem_lanes_and hl)

end Sys2Proof.Machine
end


section
/-! Integer arithmetic in terms of words (R43-R57): an operand is the number that its type makes of a word, and a result is the word of an
integer. -/

namespace Sys2Proof.Machine

/-! ### Operands and results as words -/

theorem ibits_pos (t : Ty) : 0 < ibits t := by
  unfold ibits
  split <;> decide

theorem two_pow_ibits (t : Ty) : (2 : Int) ^ ibits t = 2 * 2 ^ (ibits t - 1) := by
  rw [← pow_succ', Nat.sub_add_cancel (ibits_pos t)]

/-- An operand is the signed or the unsigned value of its word (R43). -/
theorem ival_toNat (t : Ty) (a : BitVec (ibits t)) : ival t a.toNat = if t.signed then a.toInt else (a.toNat : Int) := by
  have hp : 2 ^ ibits t = 2 * 2 ^ (ibits t - 1) := by rw [← pow_succ', Nat.sub_add_cancel (ibits_pos t)]
  unfold ival
  cases t.signed
  · rfl
  · rw [BitVec.toInt_eq_toNat_cond]
    by_cases h : 2 ^ (ibits t - 1) ≤ a.toNat
    · simp only [h, decide_true, Bool.and_self, if_true]
      rw [if_neg (by omega)]
      push_cast
      rfl
    · simp only [h, decide_false, Bool.and_false, Bool.false_eq_true, if_false, if_true]
      rw [if_pos (by omega)]

/-- A result is the word of the exact integer (R47). -/
theorem iwrap_eq (t : Ty) (r : Int) : iwrap t r = (BitVec.ofInt (ibits t) r).toNat := by
  rw [BitVec.toNat_ofInt]
  push_cast
  rfl

@[simp] theorem ofInt_ival (t : Ty) (a : BitVec (ibits t)) : BitVec.ofInt (ibits t) (ival t a.toNat) = a := by
  rw [ival_toNat]
  split
  · exact BitVec.ofInt_toInt
  · rw [BitVec.ofInt_natCast, BitVec.ofNat_toNat, BitVec.setWidth_eq]

theorem ofInt_sub {w : Nat} (x y : Int) : BitVec.ofInt w (x - y) = BitVec.ofInt w x - BitVec.ofInt w y := by
  rw [Int.sub_eq_add_neg, BitVec.ofInt_add, BitVec.ofInt_neg, BitVec.sub_eq_add_neg]

theorem ival_bounds (t : Ty) (a : BitVec (ibits t)) : imin t ≤ ival t a.toNat ∧ ival t a.toNat ≤ imax t := by
  rw [ival_toNat]
  unfold imin imax
  cases t.signed
  · have := a.isLt
    simp only [Bool.false_eq_true, if_false]
    zify at this
    omega
  · have := a.toInt_lt
    simp only [if_true]
    exact ⟨a.le_toInt, by omega⟩

theorem imin_le_imax (t : Ty) : imin t ≤ imax t := (ival_bounds t 0).1.trans (ival_bounds t 0).2

/-- A number within the type's range survives narrowing. -/
theorem ival_iwrap {t : Ty} {r : Int} (h1 : imin t ≤ r) (h2 : r ≤ imax t) : ival t (iwrap t r) = r := by
  have hp := two_pow_ibits t
  have hq : (0 : Int) < 2 ^ (ibits t - 1) := by positivity
  rw [iwrap_eq, ival_toNat]
  unfold imin at h1
  unfold imax at h2
  cases hs : t.signed
  · simp only [hs, Bool.false_eq_true, if_false] at h1 h2 ⊢
    rw [BitVec.toNat_ofInt]
    push_cast
    rw [Int.emod_eq_of_lt h1 (by omega)]
    exact Int.toNat_of_nonneg h1
  · simp only [hs, if_true] at h1 h2 ⊢
    exact BitVec.toInt_ofInt_eq_self (ibits_pos t) h1 (by omega)

/-- Two words are the same if their values are. -/
theorem ival_inj (t : Ty) {a b : BitVec (ibits t)} (h : ival t a.toNat = ival t b.toNat) : a = b := by
  rw [← ofInt_ival t a, h, ofInt_ival]

/-! ### Narrowing (R47) -/

theorem ifit_val (t : Ty) (r : Int) : (ifit t false r).val = (BitVec.ofInt (ibits t) r).toNat := by
  rw [← iwrap_eq]
  unfold ifit
  split <;> rfl

theorem ifit_ov (t : Ty) (r : Int) : (ifit t false r).ov = true ↔ ¬ (imin t ≤ r ∧ r ≤ imax t) := by
  unfold ifit
  by_cases h : imin t ≤ r ∧ r ≤ imax t <;> simp [h]

theorem ifit_sat_ov (t : Ty) (r : Int) : (ifit t true r).ov = false := by
  unfold ifit
  split <;> rfl

/-- With `.sat` the result is the exact one, clamped to the type's range. -/
theorem ifit_sat_val (t : Ty) (r : Int) : ival t (ifit t true r).val = max (imin t) (min (imax t) r) := by
  have hb := imin_le_imax t
  unfold ifit
  by_cases h : imin t ≤ r ∧ r ≤ imax t
  · rw [if_pos h]
    exact (ival_iwrap h.1 h.2).trans (by omega)
  · rw [if_neg h, if_pos rfl]
    by_cases hl : r < imin t
    · simp only [if_pos hl]
      exact (ival_iwrap (le_refl _) hb).trans (by omega)
    · simp only [if_neg hl]
      exact (ival_iwrap hb (le_refl _)).trans (by omega)

/-! ### Sums, differences, products (R50) -/

theorem iadd_val (t : Ty) (a b : BitVec (ibits t)) : (iadd t false a.toNat b.toNat).val = (a + b).toNat := by
  rw [iadd, ifit_val, BitVec.ofInt_add, ofInt_ival, ofInt_ival]

theorem isub_val (t : Ty) (a b : BitVec (ibits t)) : (isub t false a.toNat b.toNat).val = (a - b).toNat := by
  rw [isub, ifit_val, ofInt_sub, ofInt_ival, ofInt_ival]

theorem imul_val (t : Ty) (a b : BitVec (ibits t)) : (imul t false a.toNat b.toNat).val = (a * b).toNat := by
  rw [imul, ifit_val, BitVec.ofInt_mul, ofInt_ival, ofInt_ival]

theorem imad_val (t : Ty) (a b c : BitVec (ibits t)) : (imad t false a.toNat b.toNat c.toNat).val = (a * b + c).toNat := by
  rw [imad, ifit_val, BitVec.ofInt_add, BitVec.ofInt_mul, ofInt_ival, ofInt_ival, ofInt_ival]

theorem ineg_val (t : Ty) (a : BitVec (ibits t)) : (ineg t false a.toNat).val = (-a).toNat := by
  rw [ineg, ifit_val, BitVec.ofInt_neg, ofInt_ival]

theorem iadd_ov (t : Ty) (a b : BitVec (ibits t)) :
    (iadd t false a.toNat b.toNat).ov = if t.signed then a.saddOverflow b else a.uaddOverflow b := by
  rw [Bool.eq_iff_iff, iadd, ifit_ov, ival_toNat, ival_toNat]
  unfold imin imax
  cases t.signed
  · simp only [Bool.false_eq_true, if_false, BitVec.uaddOverflow, decide_eq_true_eq]
    zify
    omega
  · simp only [if_true, BitVec.saddOverflow, Bool.or_eq_true, decide_eq_true_eq]
    omega

theorem isub_ov (t : Ty) (a b : BitVec (ibits t)) :
    (isub t false a.toNat b.toNat).ov = if t.signed then a.ssubOverflow b else a.usubOverflow b := by
  rw [Bool.eq_iff_iff, isub, ifit_ov, ival_toNat, ival_toNat]
  unfold imin imax
  cases t.signed
  · have := a.isLt
    simp only [Bool.false_eq_true, if_false, BitVec.usubOverflow, decide_eq_true_eq]
    zify at this ⊢
    omega
  · simp only [if_true, BitVec.ssubOverflow, Bool.or_eq_true, decide_eq_true_eq]
    omega

/-- A quotient of a remainder is a remainder of the quotient. -/
theorem emod_mul_ediv (r : Int) {m k : Int} (hm : 0 < m) : r % (m * k) / m = r / m % k := by
  rw [Int.emod_def, Int.emod_def, ← Int.ediv_ediv_of_nonneg hm.le, mul_assoc, Int.sub_mul_ediv_left _ _ hm.ne']

/-- The high half of a product: an arithmetic shift of the exact integer by the width. -/
theorem extractHigh_ofInt (w : Nat) (r : Int) : (BitVec.ofInt (2 * w) r).extractLsb' w w = BitVec.ofInt w (r.fdiv (2 ^ w)) := by
  apply BitVec.eq_of_toNat_eq
  have hw : (0 : Int) < 2 ^ w := by positivity
  rw [BitVec.extractLsb'_toNat, BitVec.toNat_ofInt, BitVec.toNat_ofInt, Nat.shiftRight_eq_div_pow, Int.fdiv_eq_ediv_of_nonneg _ hw.le]
  zify
  rw [Int.toNat_of_nonneg (Int.emod_nonneg _ (by positivity)), Int.toNat_of_nonneg (Int.emod_nonneg _ (by positivity)), two_mul, pow_add,
    emod_mul_ediv r hw, Int.emod_emod_of_dvd _ dvd_rfl]

theorem imulhi_val (t : Ty) (a b : BitVec (ibits t)) : (imulhi t a.toNat b.toNat).val =
    (if t.signed then (a.signExtend (2 * ibits t) * b.signExtend (2 * ibits t)).extractLsb' (ibits t) (ibits t)
      else (a.zeroExtend (2 * ibits t) * b.zeroExtend (2 * ibits t)).extractLsb' (ibits t) (ibits t)).toNat := by
  rw [imulhi, iwrap_eq, ← extractHigh_ofInt, BitVec.ofInt_mul, ival_toNat, ival_toNat]
  cases t.signed
  · simp only [Bool.false_eq_true, if_false, BitVec.ofInt_natCast, BitVec.ofNat_toNat]
  · rfl

/-! ### Quotients and remainders (R52) -/

theorem ival_zero_iff (t : Ty) (b : BitVec (ibits t)) : ival t b.toNat = 0 ↔ b = 0 := by
  have h0 : ival t (0 : BitVec (ibits t)).toNat = 0 := by
    rw [ival_toNat]
    simp
  exact ⟨fun h => ival_inj t (h.trans h0.symm), fun h => h ▸ h0⟩

theorem toNat_zero_iff {w : Nat} (b : BitVec w) : b.toNat = 0 ↔ b = 0 := by
  rw [← BitVec.toNat_inj, BitVec.ofNat_eq_ofNat, BitVec.toNat_zero]

theorem idiv_dz (t : Ty) (a b : BitVec (ibits t)) : (idiv t a.toNat b.toNat).dz = true ↔ b = 0 := by
  rw [← toNat_zero_iff, idiv]
  split
  · simpa
  · split <;> simpa

theorem irem_dz (t : Ty) (a b : BitVec (ibits t)) : (irem t a.toNat b.toNat).dz = true ↔ b = 0 := by
  rw [← toNat_zero_iff, irem]
  split
  · simpa
  · split <;> simpa

/-- The one quotient out of range: the least number by -1. -/
theorem ival_eq_imin {t : Ty} (hs : t.signed = true) (a : BitVec (ibits t)) : ival t a.toNat = imin t ↔ a = BitVec.intMin (ibits t) := by
  have h : (BitVec.intMin (ibits t)).toInt = imin t := by
    rw [BitVec.toInt_intMin_of_pos (ibits_pos t), imin, if_pos hs]
  rw [ival_toNat, if_pos hs, ← h, BitVec.toInt_inj]

theorem ival_eq_neg_one {t : Ty} (hs : t.signed = true) (b : BitVec (ibits t)) : ival t b.toNat = -1 ↔ b = BitVec.allOnes (ibits t) := by
  have h : (BitVec.allOnes (ibits t)).toInt = -1 := by
    rw [BitVec.toInt_allOnes, if_pos (ibits_pos t)]
  rw [ival_toNat, if_pos hs, ← h, BitVec.toInt_inj]

theorem allOnes_ne_zero (t : Ty) : (BitVec.allOnes (ibits t)).toNat ≠ 0 := by
  have := Nat.one_lt_two_pow (ibits_pos t).ne'
  rw [BitVec.toNat_allOnes]
  omega

theorem idiv_ov (t : Ty) (a b : BitVec (ibits t)) : (idiv t a.toNat b.toNat).ov = true ↔
    t.signed = true ∧ a = BitVec.intMin (ibits t) ∧ b = BitVec.allOnes (ibits t) := by
  have hover : (t.signed = true ∧ ival t a.toNat = imin t ∧ ival t b.toNat = -1) ↔
      t.signed = true ∧ a = BitVec.intMin (ibits t) ∧ b = BitVec.allOnes (ibits t) :=
    and_congr_right fun hs => and_congr (ival_eq_imin hs a) (ival_eq_neg_one hs b)
  rw [idiv]
  by_cases hb : b.toNat = 0
  · rw [if_pos hb]
    refine ⟨fun h => absurd h Bool.false_ne_true, fun h => absurd hb ?_⟩
    rw [h.2.2]
    exact allOnes_ne_zero t
  · rw [if_neg hb, ← hover]
    split
    · simpa
    · exact ⟨fun h => absurd h Bool.false_ne_true, fun h => absurd h ‹_›⟩

/-- The quotient of a number within range, narrowed. -/
theorem ofInt_tdiv (t : Ty) (a b : BitVec (ibits t)) : BitVec.ofInt (ibits t) ((ival t a.toNat).tdiv (ival t b.toNat)) =
    if t.signed then a.sdiv b else a / b := by
  rw [ival_toNat, ival_toNat]
  cases t.signed
  · simp only [Bool.false_eq_true, if_false]
    rw [← Int.ofNat_tdiv, BitVec.ofInt_natCast, ← BitVec.toNat_udiv, BitVec.ofNat_toNat, BitVec.setWidth_eq]
  · simp only [if_true]
    apply BitVec.eq_of_toInt_eq
    rw [BitVec.toInt_sdiv, BitVec.toInt_ofInt]

theorem idiv_val (t : Ty) (a b : BitVec (ibits t)) :
    (idiv t a.toNat b.toNat).val = (if t.signed then a.sdiv b else a / b).toNat := by
  rw [← ofInt_tdiv, idiv]
  split
  case isTrue hb => rw [(ival_zero_iff t b).2 ((toNat_zero_iff b).1 hb)]; simp
  case isFalse hb =>
    split
    case isTrue h =>
      obtain ⟨hs, ha, hm⟩ := h
      rw [iwrap_eq, ← ha, ofInt_ival, hm, Int.tdiv_neg, Int.tdiv_one, BitVec.ofInt_neg, ofInt_ival, (ival_eq_imin hs a).1 ha,
        BitVec.neg_intMin]
    case isFalse => rw [iwrap_eq]

theorem ofInt_tmod (t : Ty) (a b : BitVec (ibits t)) : BitVec.ofInt (ibits t) ((ival t a.toNat).tmod (ival t b.toNat)) =
    if t.signed then a.srem b else a % b := by
  rw [ival_toNat, ival_toNat]
  cases t.signed
  · simp only [Bool.false_eq_true, if_false]
    rw [← Int.ofNat_tmod, BitVec.ofInt_natCast, ← BitVec.toNat_umod, BitVec.ofNat_toNat, BitVec.setWidth_eq]
  · simp only [if_true]
    rw [← BitVec.toInt_srem, BitVec.ofInt_toInt]

theorem irem_val (t : Ty) (a b : BitVec (ibits t)) :
    (irem t a.toNat b.toNat).val = (if t.signed then a.srem b else a % b).toNat := by
  rw [← ofInt_tmod, irem]
  split
  case isTrue hb => rw [(ival_zero_iff t b).2 ((toNat_zero_iff b).1 hb), Int.tmod_zero, ofInt_ival]
  case isFalse hb =>
    split
    case isTrue h => rw [h.2.2, Int.tmod_neg, Int.tmod_one, BitVec.ofInt_ofNat, BitVec.toNat_ofNat, Nat.zero_mod]
    case isFalse => rw [iwrap_eq, Int.tmod_def, mul_comm]

/-! ### Shifts and rotations (R45, R50) -/

theorem ishl_val (t : Ty) (a : BitVec (ibits t)) (n : Nat) : (ishl t a.toNat n).val = (a <<< n).toNat := by
  rw [ishl, BitVec.toNat_shiftLeft, Nat.shiftLeft_eq]
  split
  case isTrue h => exact ((Nat.dvd_iff_mod_eq_zero ..).1 (Dvd.dvd.mul_left (pow_dvd_pow 2 h) _)).symm
  case isFalse => rfl

theorem ival_neg (t : Ty) (a : BitVec (ibits t)) : ival t a.toNat < 0 ↔ (t.signed && a.msb) = true := by
  rw [ival_toNat, BitVec.msb_eq_toInt]
  cases t.signed <;> simp

/-- From the width on, a shift leaves the sign. -/
theorem ival_ediv_of_le (t : Ty) (a : BitVec (ibits t)) {n : Nat} (h : ibits t ≤ n) :
    ival t a.toNat / 2 ^ n = if ival t a.toNat < 0 then -1 else 0 := by
  have hp := two_pow_ibits t
  have hn : (2 : Int) ^ ibits t ≤ 2 ^ n := pow_le_pow_right₀ (by decide) h
  have hq : (0 : Int) < 2 ^ (ibits t - 1) := by positivity
  obtain ⟨h1, h2⟩ := ival_bounds t a
  have hb : -(2 ^ ibits t : Int) ≤ ival t a.toNat ∧ ival t a.toNat < 2 ^ ibits t := by
    unfold imin at h1
    unfold imax at h2
    cases hs : t.signed <;> simp only [hs, Bool.false_eq_true, if_false, if_true] at h1 h2 <;> omega
  split
  case isTrue hneg => exact Int.ediv_eq_neg_one_of_neg_of_le hneg (by omega)
  case isFalse hpos => exact Int.ediv_eq_zero_of_lt (Int.not_lt.1 hpos) (by omega)

theorem ival_ediv_min (t : Ty) (a : BitVec (ibits t)) (n : Nat) : ival t a.toNat / 2 ^ min n (ibits t) = ival t a.toNat / 2 ^ n := by
  rcases le_total n (ibits t) with h | h
  · rw [min_eq_left h]
  · rw [min_eq_right h, ival_ediv_of_le t a le_rfl, ival_ediv_of_le t a h]

theorem ishr_val (t : Ty) (a : BitVec (ibits t)) (n : Nat) :
    (ishr t a.toNat n).val = (if t.signed then a.sshiftRight n else a >>> n).toNat := by
  rw [ishr, iwrap_eq, Int.fdiv_eq_ediv_of_nonneg _ (by positivity), ival_ediv_min, ival_toNat]
  cases t.signed
  · simp only [Bool.false_eq_true, if_false]
    have hd : ((a.toNat : Int) / 2 ^ n) = ((a >>> n).toNat : Int) := by
      rw [BitVec.toNat_ushiftRight, Nat.shiftRight_eq_div_pow]
      push_cast
      rfl
    rw [hd, BitVec.ofInt_natCast, BitVec.ofNat_toNat, BitVec.setWidth_eq]
  · simp only [if_true]
    have hd : a.toInt / 2 ^ n = (a.sshiftRight n).toInt := by
      rw [BitVec.toInt_sshiftRight, Int.shiftRight_eq_div_pow]
      push_cast
      rfl
    rw [hd, BitVec.ofInt_toInt]

/-- What a shift to the left leaves within a width. -/
theorem mul_two_pow_mod (x : Nat) {k w : Nat} (h : k ≤ w) : x * 2 ^ k % 2 ^ w = 2 ^ k * (x % 2 ^ (w - k)) := by
  obtain ⟨j, rfl⟩ := Nat.exists_eq_add_of_le h
  rw [Nat.add_sub_cancel_left, pow_add, mul_comm, Nat.mul_mod_mul_left]

theorem irot_val (t : Ty) (a : BitVec (ibits t)) (n : Nat) : (irot t a.toNat n).val = (a.rotateLeft n).toNat := by
  have hk : n % ibits t ≤ ibits t := (Nat.mod_lt _ (ibits_pos t)).le
  have hlow : a.toNat / 2 ^ (ibits t - n % ibits t) < 2 ^ (n % ibits t) := by
    rw [Nat.div_lt_iff_lt_mul (by positivity), ← pow_add, Nat.add_sub_cancel' hk]
    exact a.isLt
  rw [BitVec.toNat_rotateLeft, Nat.shiftLeft_eq, Nat.shiftRight_eq_div_pow, mul_two_pow_mod _ hk,
    ← Nat.two_pow_add_eq_or_of_lt hlow, ← mul_two_pow_mod _ hk]
  rfl

/-! ### Bits (R50, R54, R55) -/

theorem inot_val (t : Ty) (a : BitVec (ibits t)) : (inot t a.toNat).val = (~~~a).toNat := BitVec.toNat_not.symm

theorem iandn_val (t : Ty) (a b : BitVec (ibits t)) : (iandn t a.toNat b.toNat).val = (a &&& ~~~b).toNat := by
  rw [BitVec.toNat_and, BitVec.toNat_not]
  rfl

theorem sumBits_eq_sum (f : Nat → Nat) (n : Nat) : sumBits f n = ∑ i ∈ Finset.range n, f i := by
  induction n with
  | zero => rfl
  | succ n ih => rw [sumBits, ih, Finset.sum_range_succ, add_comm]

/-- Bits weighed with their places make the number that has them. -/
theorem sumBits_testBit (p : Nat → Bool) (n : Nat) : sumBits (fun i => if p i then 2 ^ i else 0) n < 2 ^ n ∧
    ∀ i, (sumBits (fun i => if p i then 2 ^ i else 0) n).testBit i = (decide (i < n) && p i) := by
  induction n with
  | zero => exact ⟨Nat.one_pos, fun i => by simp [sumBits]⟩
  | succ n ih =>
    obtain ⟨hlt, hbit⟩ := ih
    rw [sumBits]
    cases hp : p n
    · simp only [Bool.false_eq_true, if_false, Nat.zero_add, hbit]
      refine ⟨hlt.trans (Nat.pow_lt_pow_succ (by decide)), fun i => ?_⟩
      rcases lt_trichotomy i n with h | rfl | h
      · simp [h, Nat.lt_succ_of_lt h]
      · simp [hp]
      · simp [Nat.not_lt.2 h.le, Nat.not_lt.2 (Nat.succ_le_of_lt h)]
    · simp only [if_true]
      refine ⟨by rw [pow_succ]; omega, fun i => ?_⟩
      rcases lt_trichotomy i n with h | rfl | h
      · rw [Nat.testBit_two_pow_add_gt h, hbit]
        simp [h, Nat.lt_succ_of_lt h]
      · rw [Nat.testBit_two_pow_add_eq, hbit]
        simp [hp]
      · rw [Nat.testBit_lt_two_pow]
        · simp [Nat.not_lt.2 (Nat.succ_le_of_lt h)]
        · calc 2 ^ n + sumBits (fun i => if p i then 2 ^ i else 0) n < 2 ^ (n + 1) := by rw [pow_succ]; omega
            _ ≤ 2 ^ i := Nat.pow_le_pow_right (by decide) h

theorem ipopc_val (t : Ty) (a : BitVec (ibits t)) :
    (ipopc t a.toNat).val = (List.range (ibits t)).countP (fun i => a.getLsbD i) := by
  have h : ∀ n, sumBits (fun i => if a.toNat.testBit i then 1 else 0) n = (List.range n).countP fun i => a.getLsbD i := by
    intro n
    induction n with
    | zero => rfl
    | succ n ih => rw [sumBits, ih, List.range_succ, List.countP_append, List.countP_singleton, add_comm]; rfl
  exact h _

theorem ibrev_val (t : Ty) (a : BitVec (ibits t)) : (ibrev t a.toNat).val = a.reverse.toNat := by
  have hsum : (ibrev t a.toNat).val = sumBits (fun i => if a.toNat.testBit (ibits t - 1 - i) then 2 ^ i else 0) (ibits t) := by
    rw [sumBits_eq_sum, ← Finset.sum_range_reflect]
    refine (sumBits_eq_sum _ _).trans (Finset.sum_congr rfl fun i hi => ?_)
    have hi := Finset.mem_range.1 hi
    rw [show ibits t - 1 - (ibits t - 1 - i) = i by omega]
  apply Nat.eq_of_testBit_eq
  intro i
  rw [hsum, (sumBits_testBit (fun i => a.toNat.testBit (ibits t - 1 - i)) _).2 i, BitVec.testBit_toNat, BitVec.testBit_toNat,
    BitVec.getLsbD_reverse, BitVec.getMsbD]

theorem ilut3_bit (t : Ty) (tbl : BitVec 8) (a b c : BitVec (ibits t)) {i : Nat} (hi : i < ibits t) :
    (ilut3 t tbl a.toNat b.toNat c.toNat).val.testBit i =
      tbl.getLsbD ((a.getLsbD i).toNat + 2 * (b.getLsbD i).toNat + 4 * (c.getLsbD i).toNat) := by
  refine ((sumBits_testBit (fun i => tbl.getLsbD ((if a.toNat.testBit i then 1 else 0) + (if b.toNat.testBit i then 2 else 0) +
    if c.toNat.testBit i then 4 else 0)) _).2 i).trans ?_
  rw [decide_eq_true hi, Bool.true_and, BitVec.testBit_toNat, BitVec.testBit_toNat, BitVec.testBit_toNat]
  cases a.getLsbD i <;> cases b.getLsbD i <;> cases c.getLsbD i <;> rfl

/-- The leading zeros of a word (R54). -/
theorem iclz_spec (t : Ty) (a : BitVec (ibits t)) : (iclz t a.toNat).val ≤ ibits t ∧
    (∀ i, ibits t - (iclz t a.toNat).val ≤ i → a.getLsbD i = false) ∧
    ((iclz t a.toNat).val < ibits t → a.getLsbD (ibits t - 1 - (iclz t a.toNat).val) = true) := by
  have hw := ibits_pos t
  unfold iclz
  by_cases ha : a.toNat = 0
  · simp only [ha, if_true]
    refine ⟨le_refl _, fun i _ => ?_, fun h => absurd h (lt_irrefl _)⟩
    rw [← BitVec.testBit_toNat, ha, Nat.zero_testBit]
  · simp only [ha, if_false]
    have hl : a.toNat.log2 < ibits t := (Nat.log2_lt ha).2 a.isLt
    refine ⟨by omega, fun i hi => ?_, fun _ => ?_⟩
    · rw [← BitVec.testBit_toNat]
      exact Nat.testBit_lt_two_pow ((Nat.log2_lt ha).1 (by omega))
    · rw [← BitVec.testBit_toNat, show ibits t - 1 - (ibits t - 1 - a.toNat.log2) = a.toNat.log2 by omega]
      exact Nat.testBit_log2 ha

/-! ### Carries (R53) -/

theorem toNat_carry (t : Ty) (c : Bool) : (BitVec.setWidth (ibits t) (BitVec.ofBool c)).toNat = if c then 1 else 0 := by
  have := Nat.one_lt_two_pow (ibits_pos t).ne'
  cases c <;> simp [Nat.mod_eq_of_lt this]

theorem iaddcy_eq (t : Ty) (a b : BitVec (ibits t)) (c : Bool) : iaddcy t a.toNat b.toNat (if c then 1 else 0) =
    ((a + b + BitVec.setWidth (ibits t) (BitVec.ofBool c)).toNat, BitVec.carry (ibits t) a b c) := by
  refine Prod.ext ?_ ?_
  · rw [BitVec.toNat_add, BitVec.toNat_add, toNat_carry, Nat.mod_add_mod]
    rfl
  · rw [BitVec.carry, Nat.mod_eq_of_lt a.isLt, Nat.mod_eq_of_lt b.isLt]
    cases c <;> rfl

theorem isubbw_eq (t : Ty) (a b : BitVec (ibits t)) (c : Bool) : isubbw t a.toNat b.toNat (if c then 1 else 0) =
    ((a - b - BitVec.setWidth (ibits t) (BitVec.ofBool c)).toNat, decide (a.toNat < b.toNat + if c then 1 else 0)) := by
  have hn : ∀ x : BitVec (ibits t), BitVec.ofInt (ibits t) (x.toNat : Int) = x := fun x => by
    rw [BitVec.ofInt_natCast, BitVec.ofNat_toNat, BitVec.setWidth_eq]
  refine Prod.ext ?_ ?_
  · rw [isubbw, iwrap_eq, ofInt_sub, ofInt_sub, hn, hn, ← toNat_carry, hn]
  · rw [isubbw, decide_eq_decide]
    split <;> omega

/-! ### Comparisons (R54-R56) -/

theorem ival_lt (t : Ty) (a b : BitVec (ibits t)) :
    decide (ival t a.toNat < ival t b.toNat) = if t.signed then a.slt b else a.ult b := by
  rw [ival_toNat, ival_toNat]
  cases t.signed
  · simp [BitVec.ult]
  · rfl

theorem ival_le (t : Ty) (a b : BitVec (ibits t)) :
    decide (ival t a.toNat ≤ ival t b.toNat) = if t.signed then a.sle b else a.ule b := by
  rw [ival_toNat, ival_toNat]
  cases t.signed
  · simp [BitVec.ule]
  · rfl

theorem icmp_eq (t : Ty) (a b : BitVec (ibits t)) :
    icmp t .eq a.toNat b.toNat = (a == b) ∧ icmp t .ne a.toNat b.toNat = (a != b) ∧
      icmp t .lt a.toNat b.toNat = (if t.signed then a.slt b else a.ult b) ∧ icmp t .le a.toNat b.toNat = (if t.signed then a.sle b else a.ule b) ∧
      icmp t .gt a.toNat b.toNat = (if t.signed then b.slt a else b.ult a) ∧
      icmp t .ge a.toNat b.toNat = (if t.signed then b.sle a else b.ule a) := by
  have heq : ival t a.toNat = ival t b.toNat ↔ a = b := ⟨ival_inj t, fun h => h ▸ rfl⟩
  refine ⟨?_, ?_, ival_lt t a b, ival_le t a b, ival_lt t b a, ival_le t b a⟩
  · rw [icmp, Bool.eq_iff_iff, decide_eq_true_eq, beq_iff_eq, heq]
  · rw [icmp, Bool.eq_iff_iff, decide_eq_true_eq, bne_iff_ne, ne_eq, heq]

theorem iminOf_val (t : Ty) (a b : BitVec (ibits t)) :
    (iminOf t a.toNat b.toNat).val = (if (if t.signed then b.slt a else b.ult a) then b else a).toNat := by
  rw [← ival_lt, iminOf]
  by_cases h : ival t a.toNat ≤ ival t b.toNat
  · simp [h, Int.not_lt.2 h]
  · simp [h, Int.not_le.1 h]

theorem imaxOf_val (t : Ty) (a b : BitVec (ibits t)) :
    (imaxOf t a.toNat b.toNat).val = (if (if t.signed then a.slt b else a.ult b) then b else a).toNat := by
  rw [← ival_lt, imaxOf]
  rcases lt_trichotomy (ival t a.toNat) (ival t b.toNat) with h | h | h
  · simp [h, h.le]
  · simp [ival_inj t h]
  · simp [h.not_ge, h.not_gt]

/-! ### Absolute values (R50) -/

theorem iabs_eq (t : Ty) (sat : Bool) (a : Nat) : iabs t sat a = ifit t sat (ival t a).natAbs := by
  rw [iabs]
  congr 1
  split <;> omega

theorem iabs_val (t : Ty) (a : BitVec (ibits t)) : (iabs t false a.toNat).val = (if t.signed && a.msb then -a else a).toNat := by
  rw [iabs, ifit_val]
  by_cases h : ival t a.toNat < 0
  · rw [if_pos h, if_pos ((ival_neg t a).1 h), BitVec.ofInt_neg, ofInt_ival]
  · rw [if_neg h, if_neg (mt (ival_neg t a).2 h), ofInt_ival]

theorem iabs_ov (t : Ty) (a : BitVec (ibits t)) : (iabs t false a.toNat).ov = true ↔ t.signed = true ∧ a = BitVec.intMin (ibits t) := by
  obtain ⟨h1, h2⟩ := ival_bounds t a
  have hq : (0 : Int) < 2 ^ (ibits t - 1) := by positivity
  rw [iabs_eq, ifit_ov]
  cases hs : t.signed
  · simp only [imin, imax, hs, Bool.false_eq_true, if_false, false_and, iff_false, not_not] at h1 h2 ⊢
    omega
  · rw [← ival_eq_imin hs]
    simp only [imin, imax, hs, if_true, true_and] at h1 h2 ⊢
    omega

theorem iabs_sat_val (t : Ty) (a : BitVec (ibits t)) : ival t (iabs t true a.toNat).val = min (imax t) (ival t a.toNat).natAbs := by
  have h : imin t ≤ 0 := by
    unfold imin
    split
    · exact neg_nonpos.2 (by positivity)
    · rfl
  have hb := imin_le_imax t
  rw [iabs_eq, ifit_sat_val]
  omega

/-! ### Bit fields (R54) -/

/-- The bits of an integer modulo a power of two. -/
theorem testBit_emod (x : Int) (n i : Nat) : (x % 2 ^ n).toNat.testBit i = (decide (i < n) && decide (x / 2 ^ i % 2 = 1)) := by
  have h0 : 0 ≤ x % 2 ^ n := Int.emod_nonneg _ (by positivity)
  by_cases hi : i < n
  · obtain ⟨j, rfl⟩ := Nat.exists_eq_add_of_lt hi
    have hd : x % 2 ^ (i + j + 1) / 2 ^ i % 2 = x / 2 ^ i % 2 := by
      rw [add_assoc, pow_add, emod_mul_ediv x (by positivity), Int.emod_emod_of_dvd _ (dvd_pow_self 2 (Nat.succ_ne_zero j))]
    rw [Nat.testBit_eq_decide_div_mod_eq, decide_eq_true hi, Bool.true_and, decide_eq_decide, ← hd]
    zify
    rw [Int.toNat_of_nonneg h0]
  · have hlt : (x % 2 ^ n).toNat < 2 ^ i := by
      zify
      rw [Int.toNat_of_nonneg h0]
      exact (Int.emod_lt_of_pos _ (by positivity)).trans_le (pow_le_pow_right₀ (by decide) (Nat.not_lt.1 hi))
    rw [Nat.testBit_lt_two_pow hlt, decide_eq_false hi, Bool.false_and]

/-- The bits of an operand as an integer: those of its word, and the sign from the width on. -/
theorem ival_bit (t : Ty) (a : BitVec (ibits t)) (j : Nat) :
    decide (ival t a.toNat / 2 ^ j % 2 = 1) = if j < ibits t then a.getLsbD j else t.signed && a.msb := by
  by_cases hj : j < ibits t
  · have h := testBit_emod (ival t a.toNat) (ibits t) j
    rw [decide_eq_true hj, Bool.true_and] at h
    rw [if_pos hj, ← h, ← BitVec.testBit_toNat]
    exact congrArg (fun n => n.testBit j) ((iwrap_eq t _).trans (congrArg _ (ofInt_ival t a)))
  · rw [if_neg hj, ival_ediv_of_le t a (Nat.not_lt.1 hj), Bool.eq_iff_iff, ← ival_neg, decide_eq_true_eq]
    by_cases h : ival t a.toNat < 0 <;> simp [h]

/-- The field that `bfx` takes, before its sign. -/
theorem field_bit (t : Ty) (a : BitVec (ibits t)) (p len i : Nat) :
    ((ival t a.toNat).fdiv (2 ^ p) % 2 ^ len).toNat.testBit i =
      (decide (i < len) && if p + i < ibits t then a.getLsbD (p + i) else t.signed && a.msb) := by
  rw [Int.fdiv_eq_ediv_of_nonneg _ (by positivity), testBit_emod, Int.ediv_ediv_of_nonneg (by positivity), ← pow_add, ival_bit]

/-- The sign of a field of `len` bits: its highest bit. -/
theorem le_field_iff {f : Int} {len : Nat} (hl : len ≠ 0) (h0 : 0 ≤ f) (h1 : f < 2 ^ len) :
    (2 : Int) ^ (len - 1) ≤ f ↔ f.toNat.testBit (len - 1) = true := by
  obtain ⟨n, rfl⟩ := Nat.exists_eq_succ_of_ne_zero hl
  obtain ⟨m, rfl⟩ := Int.eq_ofNat_of_zero_le h0
  have h1 : m < 2 ^ n * 2 := by
    rw [← pow_succ]
    exact_mod_cast h1
  rw [Nat.succ_sub_one, Int.toNat_natCast, Nat.testBit_eq_decide_div_mod_eq, decide_eq_true_eq]
  have hq : m / 2 ^ n < 2 := (Nat.div_lt_iff_lt_mul (by positivity)).2 (by rwa [mul_comm])
  have hle : 2 ^ n ≤ m ↔ 1 ≤ m / 2 ^ n := by rw [Nat.le_div_iff_mul_le (by positivity), Nat.one_mul]
  rw [show ((2 : Int) ^ n ≤ m) ↔ 2 ^ n ≤ m by exact_mod_cast Iff.rfl, hle]
  generalize m / 2 ^ n = q at hq
  omega

/-- A field whose sign is set, extended. -/
theorem extended_bit {f : Int} {len w i : Nat} (h0 : 0 ≤ f) (h1 : f < 2 ^ len) (hi : i < w) :
    ((f - 2 ^ len) % 2 ^ w).toNat.testBit i = if i < len then f.toNat.testBit i else true := by
  rw [testBit_emod, decide_eq_true hi, Bool.true_and]
  by_cases h : i < len
  · obtain ⟨j, rfl⟩ := Nat.exists_eq_add_of_lt h
    rw [if_pos h, ← Int.emod_eq_of_lt h0 h1, testBit_emod, decide_eq_true h, Bool.true_and, Int.emod_eq_of_lt h0 h1, decide_eq_decide,
      add_assoc, pow_add, Int.sub_mul_ediv_left _ _ (by positivity), pow_succ]
    omega
  · have hle : (2 : Int) ^ len ≤ 2 ^ i := pow_le_pow_right₀ (by decide) (Nat.not_lt.1 h)
    rw [if_neg h, Int.ediv_eq_neg_one_of_neg_of_le (by omega) (by omega)]
    rfl

theorem ibfx_bit (t : Ty) (a : BitVec (ibits t)) (p : Word) {i len : Nat} (hl : len = min (p.extractLsb' 8 8).toNat (ibits t))
    (hi : i < ibits t) : (ibfx t a.toNat p.toNat).val.testBit i =
      (if i < len then (if (p.extractLsb' 0 8).toNat + i < ibits t then
          a.getLsbD ((p.extractLsb' 0 8).toNat + i) else t.signed && a.msb)
        else t.signed && decide (len ≠ 0) && (if (p.extractLsb' 0 8).toNat + (len - 1) < ibits t then
          a.getLsbD ((p.extractLsb' 0 8).toNat + (len - 1)) else a.msb)) := by
  have hpos : bfPos p.toNat = (p.extractLsb' 0 8).toNat := by
    rw [BitVec.extractLsb'_toNat, Nat.shiftRight_zero]
    rfl
  have hlen : bfLen t p.toNat = len := by
    rw [hl, BitVec.extractLsb'_toNat, Nat.shiftRight_eq_div_pow]
    rfl
  rw [ibfx, hpos, hlen]
  generalize (p.extractLsb' 0 8).toNat = pos
  have hfield := field_bit t a pos len
  have h0 : 0 ≤ (ival t a.toNat).fdiv (2 ^ pos) % 2 ^ len := Int.emod_nonneg _ (by positivity)
  have h1 : (ival t a.toNat).fdiv (2 ^ pos) % 2 ^ len < 2 ^ len := Int.emod_lt_of_pos _ (by positivity)
  generalize (ival t a.toNat).fdiv (2 ^ pos) % 2 ^ len = f at hfield h0 h1
  dsimp only
  by_cases hz : len = 0
  · simp [hz]
  · rw [if_neg hz]
    by_cases hs : t.signed = true ∧ (2 : Int) ^ (len - 1) ≤ f
    · rw [if_pos hs, iwrap, extended_bit h0 h1 hi, hfield]
      have hsign := (le_field_iff hz h0 h1).1 hs.2
      rw [hfield, decide_eq_true (by omega), Bool.true_and, hs.1, Bool.true_and] at hsign
      by_cases h : i < len <;> simp [h, hz, hs.1, hsign]
    · rw [if_neg hs, hfield]
      by_cases h : i < len
      · simp [h]
      · have hsign : t.signed = true → f.toNat.testBit (len - 1) = false := fun ht =>
          Bool.eq_false_iff.2 fun hb => hs ⟨ht, (le_field_iff hz h0 h1).2 hb⟩
        rw [hfield, decide_eq_true (by omega), Bool.true_and] at hsign
        cases ht : t.signed
        · simp [h]
        · have := hsign ht
          rw [ht, Bool.true_and] at this
          simp [h, hz, this]

theorem ibfi_bit (t : Ty) (a c : BitVec (ibits t)) (p : Word) {i len : Nat} (hl : len = min (p.extractLsb' 8 8).toNat (ibits t))
    (hi : i < ibits t) : (ibfi t a.toNat p.toNat c.toNat).val.testBit i =
      (if (p.extractLsb' 0 8).toNat ≤ i ∧ i < (p.extractLsb' 0 8).toNat + len then
        c.getLsbD (i - (p.extractLsb' 0 8).toNat) else a.getLsbD i) := by
  have hpos : bfPos p.toNat = (p.extractLsb' 0 8).toNat := by
    rw [BitVec.extractLsb'_toNat, Nat.shiftRight_zero]
    rfl
  have hlen : bfLen t p.toNat = len := by
    rw [hl, BitVec.extractLsb'_toNat, Nat.shiftRight_eq_div_pow]
    rfl
  rw [ibfi, hpos, hlen]
  generalize (p.extractLsb' 0 8).toNat = pos
  have hm : ((2 ^ len - 1) * 2 ^ pos % 2 ^ ibits t).testBit i = (decide (pos ≤ i) && decide (i - pos < len)) := by
    rw [Nat.testBit_mod_two_pow, decide_eq_true hi, Bool.true_and, Nat.testBit_mul_two_pow, Nat.testBit_two_pow_sub_one]
  have hlt : (2 ^ len - 1) * 2 ^ pos % 2 ^ ibits t < 2 ^ ibits t := Nat.mod_lt _ (by positivity)
  simp only [Nat.testBit_or, Nat.testBit_and, Nat.sub_sub, Nat.add_comm 1]
  rw [Nat.testBit_two_pow_sub_succ hlt, hm, Nat.testBit_mul_two_pow, decide_eq_true hi, Bool.true_and, BitVec.testBit_toNat,
    BitVec.testBit_toNat]
  by_cases h1 : pos ≤ i
  · by_cases h2 : i - pos < len
    · simp [h1, h2, show i < pos + len by omega]
    · simp [h1, h2, show ¬ i < pos + len by omega]
  · simp [h1]

/-! ### Addresses and indices (R57) -/

theorem ilea_val {t : Ty} (ht : t.wide = true) (h : Nat) (a : Dword) (b c : Word) : (ilea t h a.toNat b.toNat c.toNat).val =
    (a + (if t.signed then b.signExtend 64 else b.setWidth 64) <<< h + (if t.signed then c.signExtend 64 else c.setWidth 64)).toNat := by
  have hw : ibits t = 64 := if_pos ht
  have hext : ∀ d : Word, BitVec.ofInt 64 (extWord t.signed d.toNat) = if t.signed then d.signExtend 64 else d.setWidth 64 := by
    intro d
    cases t.signed
    · rw [extWord, Bool.false_and, if_neg Bool.false_ne_true, if_neg Bool.false_ne_true, BitVec.ofInt_natCast, BitVec.ofNat_toNat]
    · have hd : extWord true d.toNat = d.toInt := by
        rw [BitVec.toInt_eq_toNat_cond, extWord, Bool.true_and]
        by_cases hle : 2 ^ 31 ≤ d.toNat
        · rw [if_pos (decide_eq_true hle), if_neg (by omega)]
          rfl
        · rw [if_neg (by simpa using hle), if_pos (by omega)]
      rw [hd, if_pos rfl]
      rfl
  have hpow : BitVec.ofInt 64 (2 ^ h) = BitVec.twoPow 64 h := by
    apply BitVec.eq_of_toNat_eq
    rw [BitVec.toNat_twoPow, BitVec.toNat_ofInt]
    exact Int.toNat_natCast _
  rw [ilea, iwrap_eq, hw, BitVec.ofInt_add, BitVec.ofInt_add, BitVec.ofInt_mul, hext, hext, BitVec.ofInt_natCast, BitVec.ofNat_toNat,
    BitVec.setWidth_eq, hpow, BitVec.mul_twoPow_eq_shiftLeft]

theorem iidx2_val (r c l : Word) : (iidx2 .lin r.toNat c.toNat l.toNat).val = (r * l + c).toNat ∧
    (iidx2 .xr r.toNat c.toNat l.toNat).val = (r * l + (c ^^^ (r &&& 7))).toNat ∧
    (iidx2 .t8 r.toNat c.toNat l.toNat).val = (((r >>> 3) * (l >>> 3) + (c >>> 3)) * 64 + (r &&& 7) * 8 + (c &&& 7)).toNat := by
  have hand : ∀ n : Nat, n &&& 7 = n % 8 := fun n => Nat.and_two_pow_sub_one_eq_mod n 3
  refine ⟨?_, ?_, ?_⟩
  · simp [iidx2, layIndex, BitVec.toNat_add, BitVec.toNat_mul]
  · simp [iidx2, layIndex, BitVec.toNat_add, BitVec.toNat_mul, hand]
  · simp [iidx2, layIndex, BitVec.toNat_add, BitVec.toNat_mul, hand, Nat.shiftRight_eq_div_pow, Nat.add_mod, Nat.mul_mod]

theorem iadd_sat (t : Ty) (a b : Nat) : (iadd t true a b).ov = false ∧
    ival t (iadd t true a b).val = max (imin t) (min (imax t) (ival t a + ival t b)) := ⟨ifit_sat_ov t _, ifit_sat_val t _⟩

theorem isub_sat (t : Ty) (a b : Nat) : (isub t true a b).ov = false ∧
    ival t (isub t true a b).val = max (imin t) (min (imax t) (ival t a - ival t b)) := ⟨ifit_sat_ov t _, ifit_sat_val t _⟩

/-- Settles O2, operation by operation. -/
theorem integerFormulas : Obligations.IntegerFormulas := by
  refine ⟨?_, fun t h a b c ht => ilea_val ht h a b c, iidx2_val⟩
  rintro t w a b rfl
  refine ⟨⟨iadd_val t a b, isub_val t a b, imul_val t a b, ineg_val t a, imulhi_val t a b⟩,
    ⟨iadd_ov t a b, isub_ov t a b, iadd_sat t _ _, isub_sat t _ _, ifit_sat_ov t _, ifit_sat_val t _⟩,
    ⟨idiv_val t a b, irem_val t a b, idiv_dz t a b, irem_dz t a b, idiv_ov t a b⟩,
    fun n => ⟨ishl_val t a _, ishr_val t a _, irot_val t a _⟩,
    ⟨inot_val t a, iandn_val t a b, ibrev_val t a, ipopc_val t a⟩,
    fun c => ⟨iaddcy_eq t a b c, isubbw_eq t a b c⟩, icmp_eq t a b,
    ⟨iminOf_val t a b, imaxOf_val t a b, iabs_val t a, iabs_ov t a, ifit_sat_ov t _, iabs_sat_val t a⟩,
    fun c => ⟨imad_val t a b c, ifit_ov t _, ifit_sat_ov t _, ifit_sat_val t _⟩,
    fun p c i len hl hi => ⟨ibfx_bit t a p hl hi, ibfi_bit t a c p hl hi⟩, iclz_spec t a,
    fun tbl c i hi => ilut3_bit t tbl a b c hi⟩

end Sys2Proof.Machine
end


section
/-! The first checks of R158: accesses that trap before any lane of theirs is looked at (R158, R164). -/

namespace Sys2Proof.Machine

section
variable {s : State} {x : Who} {r : Rcd} {k : AccKind} {scope : Scope} {lanes : List (Nat × Word)} {off : Int} {z : Nat}
  {go : State → List (Nat × Nat × Tr) → State}

/-- What a check finds is taken as a trap, once the strand's walks are dropped. -/
theorem memOp_trap {t : Trap} (h : s.memCheck x.agent x.core x.d.ctx x.st.em r k scope lanes off z x.walked = .trap t) :
    memOp s x r k scope lanes off z go = (s.dropWalks x.agent).trapAt x.wid x.sid t := by
  rw [memOp, h]

theorem memOp_malformed (h : r.wf = false) :
    memOp s x r k scope lanes off z go = (s.dropWalks x.agent).trapAt x.wid x.sid { cause := 0x40, lanes := x.st.em } := by
  refine memOp_trap ?_
  rw [State.memCheck, h, Bool.not_false, if_pos rfl]

variable (hw : r.wf = true)
include hw

theorem memOp_lacks {d : Nat} (h : k.lacks r = some d) :
    memOp s x r k scope lanes off z go = (s.dropWalks x.agent).trapAt x.wid x.sid { cause := 0x44, lanes := x.st.em, detail := d } := by
  refine memOp_trap ?_
  rw [State.memCheck, hw, Bool.not_true, if_neg Bool.false_ne_true, h]

variable (hr : k.lacks r = none)
include hr

theorem memOp_scope (h : scope = .system) (hs : ((Tbl.find s.ctxs x.d.ctx).any Context.sys) = false) :
    memOp s x r k scope lanes off z go = (s.dropWalks x.agent).trapAt x.wid x.sid { cause := 0x52, lanes := x.st.em } := by
  refine memOp_trap ?_
  rw [State.memCheck, hw, Bool.not_true, if_neg Bool.false_ne_true, hr]
  exact if_pos ⟨h, by rw [hs]; rfl⟩

theorem memOp_swizzle (hs : scope = .system → ((Tbl.find s.ctxs x.d.ctx).any Context.sys) = true) (h : r.swzBad = true) :
    memOp s x r k scope lanes off z go = (s.dropWalks x.agent).trapAt x.wid x.sid { cause := 0x43, lanes := x.st.em } := by
  refine memOp_trap ?_
  have hn : ¬ (scope = .system ∧ (!((Tbl.find s.ctxs x.d.ctx).any Context.sys)) = true) := fun ⟨e, e'⟩ => by
    rw [hs e] at e'
    exact Bool.false_ne_true e'
  rw [State.memCheck, hw, Bool.not_true, if_neg Bool.false_ne_true, hr]
  exact (if_neg hn).trans (if_pos h)

end

/-- A load, atomic, `cas` or `waita` whose operands are in order comes to the checks of R158. -/
theorem exec_loadRule {i : Instr} {q : MemRule} {s : State} {x : Who} (hq : loadRule i = some q)
    (hw : ∀ f, i = .waita f → waitaOk f = true ∧ x.st.em ≠ 0) (hc : Clear s x) (ho : OperandsOk s x q.d (q.own x) (q.only x)) :
    ∃ t, exec i s = .next t ∧ ∃ go, t = memOp s x (s.rcdOf x q.rcd) (q.kind (readyOf s x q.d (q.only x))) q.scope
      (q.lanes (readyOf s x q.d (q.only x))) q.off q.z go := by
  have hb := beginOp_ok ho
  have hem : (readyOf s x q.d).em ≠ 0 ↔ x.st.em ≠ 0 := by rw [em_all]
  cases i <;> first | (cases hq; done) | skip
  case waita f =>
    obtain ⟨hf, he⟩ := hw f rfl
    have he' := hem.2 he
    cases hq
    refine ⟨_, issue_clear hc _, ?_⟩
    simp only [anyLane_eq] at hb he'
    simp only [hf, Bool.not_true, Bool.false_eq_true, if_false, hb, if_neg he']
    exact ⟨_, rfl⟩
  all_goals
    cases hq
    simp only [noAcc_eq, anyLane_eq] at hb
    refine ⟨_, issue_clear hc _, ?_⟩
    simp only [hb]
    exact ⟨_, rfl⟩

/-- So does a store of a strand that does not replay. -/
theorem exec_storeRule {i : Instr} {q : MemRule} {s : State} {x : Who} (hq : storeRule i = some q) (hr : x.replaying = false)
    (hc : Clear s x) (ho : OperandsOk s x q.d (q.own x) (q.only x)) :
    ∃ t, exec i s = .next t ∧ ∃ go, t = memOp s x (s.rcdOf x q.rcd) (q.kind (readyOf s x q.d (q.only x))) q.scope
      (q.lanes (readyOf s x q.d (q.only x))) q.off q.z go := by
  have hb := beginOp_ok ho
  cases i <;> first | (cases hq; done) | skip
  all_goals
    cases hq
    simp only [noAcc_eq, anyLane_eq] at hb
    refine ⟨_, issue_clear hc _, ?_⟩
    simp only [hr, Bool.false_eq_true, if_false, hb]
    exact ⟨_, rfl⟩

/-- A `waita` whose DATA or WIDTH is not allowed (R164). -/
theorem waita_refused {f : MemF} {s : State} {x : Who} (hc : Clear s x) (hf : waitaOk f = false) :
    exec (.waita f) s = .next (s.trapAt x.wid x.sid { cause := 0x46, lanes := x.st.em }) := by
  refine (issue_clear hc _).trans ?_
  simp only [hf, Bool.not_false, if_true]
  rfl

/-- Settles O10: every access comes to the checks of R158, whose first four are taken in their order. -/
theorem memoryTraps : Obligations.MemoryTraps := by
  refine ⟨fun i q s x hq hr hw hc ho => ?_, fun f s x hc hf => waita_refused hc hf⟩
  obtain ⟨_, h, go, rfl⟩ := hq.elim (exec_loadRule · hw hc ho) (exec_storeRule · hr hc ho)
  simp only [h]
  exact ⟨fun h0 => by rw [memOp_malformed h0], fun d hwf hl => by rw [memOp_lacks hwf hl],
    fun hwf hl hs hn => by rw [memOp_scope hwf hl hs hn], fun hwf hl hs hb => by rw [memOp_swizzle hwf hl hs hb]⟩

end Sys2Proof.Machine
end


section
/-! Fences, prefetches and a `waita` without lanes (R107, R170-R172, R368). -/

namespace Sys2Proof.Machine

section
variable {s : State} {x : Who} (hc : Clear s x)
include hc

theorem holds_clear : s.Holds x := by
  obtain ⟨-, -, -, hw, hst, -⟩ := who_spec hc.who
  exact ⟨x.w, hw, hst⟩

/-- A `waita` of a strand without lanes takes nothing from its queues. -/
theorem waita_empty {f : MemF} (hf : waitaOk f = true) (he : x.st.em = 0)
    (ho : OperandsOk s x { srcs := [(f.data, 4), (f.idx, 1)], dst := some (f.data, 4), carry := [0] }
      (fun r l => if l = r.low then ⟨false, srcAddrs x f.data 3 l, []⟩ else OwnAcc.none)) :
    exec (.waita f) s = .next (s.advance x.wid x.sid 1) := by
  refine (issue_clear hc _).trans ?_
  simp only [hf, Bool.not_true, Bool.false_eq_true, if_false, beginOp_ok ho, em_all, he, if_true]
  rw [commit_ready, if_pos he, endIfEmpty_advance hc (holds_clear hc)]

/-- A fence that its context lacks the scope for. -/
theorem fence_refused {f : FenceF} (hs : f.scope = .system) (hn : ((Tbl.find s.ctxs x.d.ctx).any Context.sys) = false) :
    exec (.fence f) s = .next (s.trapAt x.wid x.sid { cause := 0x52, lanes := x.st.em }) :=
  (issue_clear hc _).trans (congrArg _ (if_pos ⟨hs, by rw [hn]; rfl⟩))

variable {f : FenceF} (hs : f.scope = .system → ((Tbl.find s.ctxs x.d.ctx).any Context.sys) = true)
include hs

/-- A fence within its scope waits for its strand's accesses, and then for its weir. -/
theorem exec_fence_scoped : exec (.fence f) s = .next
    (if !s.settled x.agent then s.park x.wid x.sid .fence
    else if !s.weirOpen (Config.fencePort s.tick) (s.classOf x.agent) 64 then
      (s.backPressure (Config.fencePort s.tick) (s.classOf x.agent)).park x.wid x.sid .fence
    else (s.weirDraw (Config.fencePort s.tick) (s.classOf x.agent) 64).skip x) := by
  have hn : ¬ (f.scope = .system ∧ (!((Tbl.find s.ctxs x.d.ctx).any Context.sys)) = true) := fun ⟨e, e'⟩ => by
    rw [hs e] at e'
    exact Bool.false_ne_true e'
  exact (issue_clear hc _).trans (congrArg _ (if_neg hn))

theorem fence_passes (hd : s.settled x.agent = true) (hw : s.weirOpen (Config.fencePort s.tick) (s.classOf x.agent) 64 = true) :
    exec (.fence f) s = .next ((s.weirDraw (Config.fencePort s.tick) (s.classOf x.agent) 64).skip x) := by
  rw [exec_fence_scoped hc hs, hd, hw]
  rfl

theorem fence_held (hd : s.settled x.agent = true) (hw : s.weirOpen (Config.fencePort s.tick) (s.classOf x.agent) 64 = false) :
    exec (.fence f) s = .next ((s.backPressure (Config.fencePort s.tick) (s.classOf x.agent)).park x.wid x.sid .fence) := by
  rw [exec_fence_scoped hc hs, hd, hw]
  rfl

theorem fence_waits (hd : s.settled x.agent = false) : exec (.fence f) s = .next (s.park x.wid x.sid .fence) := by
  rw [exec_fence_scoped hc hs, hd]
  rfl

end

/-! ### Prefetches (R172) -/

/-- What a prefetch does with an address: a translation that may be read enters the TLB, a page that is missing is reported. -/
def State.prefetch (s : State) (x : Who) (rcd : Rcd) (va : Nat) : State :=
  match s.translate x.core x.d.ctx va with
  | .ok _ rd _ _ => if rd then s.fillTlb x.core x.d.ctx va else s
  | .replay rd _ _ => if rd then s.takeFault (dieOf x.core) x.d.ctx va .other rcd.tier else s
  | .bad .. => s

/-- Only TLBs and the fault buffers differ. -/
def TlbsAndFaults (s t : State) : Prop :=
  t = { s with cores := t.cores, faults := t.faults } ∧ ∀ c, ∃ l, t.core c = { s.core c with tlb := l }

theorem TlbsAndFaults.refl (s : State) : TlbsAndFaults s s := ⟨rfl, fun c => ⟨(s.core c).tlb, rfl⟩⟩

theorem TlbsAndFaults.trans {s t u : State} (h : TlbsAndFaults s t) (h' : TlbsAndFaults t u) : TlbsAndFaults s u := by
  obtain ⟨e, hl⟩ := h
  obtain ⟨e', hl'⟩ := h'
  refine ⟨e'.trans (congrArg (fun t : State => { t with cores := u.cores, faults := u.faults }) e), fun c => ?_⟩
  obtain ⟨l, hc⟩ := hl c
  obtain ⟨l', hc'⟩ := hl' c
  exact ⟨l', by rw [hc', hc]⟩

theorem fillTlb_tlbsAndFaults (s : State) (core ctx va : Nat) : TlbsAndFaults s (s.fillTlb core ctx va) := by
  obtain ⟨cs, e, h⟩ := fillTlb_spec s core ctx va
  exact ⟨by rw [e], h⟩

theorem takeFault_tlbsAndFaults (s : State) (die ctx va : Nat) (who : Faulter) (tier : Nat) :
    TlbsAndFaults s (s.takeFault die ctx va who tier) := by
  unfold State.takeFault
  split
  · exact .refl s
  · exact ⟨rfl, fun c => ⟨(s.core c).tlb, rfl⟩⟩

theorem prefetch_tlbsAndFaults (s : State) (x : Who) (rcd : Rcd) (va : Nat) : TlbsAndFaults s (s.prefetch x rcd va) := by
  unfold State.prefetch
  split
  · split
    · exact fillTlb_tlbsAndFaults ..
    · exact .refl s
  · split
    · exact takeFault_tlbsAndFaults ..
    · exact .refl s
  · exact .refl s

theorem prefetchAll_tlbsAndFaults (x : Who) (rcd : Rcd) (vas : List Nat) (s : State) :
    TlbsAndFaults s (vas.foldl (fun s va => s.prefetch x rcd va) s) := by
  induction vas generalizing s with
  | nil => exact .refl s
  | cons va vas ih => exact (prefetch_tlbsAndFaults s x rcd va).trans (ih _)

/-- A prefetch through a well-formed record, within its scope: its addresses are touched one after another. -/
theorem exec_pfch {f : PfchF} {s : State} {x : Who} (hc : Clear s x) (ho : OperandsOk s x { srcs := [(f.idx, 1)] })
    (hw : (s.rcdOf x f.rcd).wf = true) (hs : f.scope = .system → ((Tbl.find s.ctxs x.d.ctx).any Context.sys) = true) :
    ∃ t, exec (.pfch f) s = .next t ∧ ∃ vas : List Nat, t = ((vas.foldl (fun u va => u.prefetch x (s.rcdOf x f.rcd) va)
      (readyOf s x { srcs := [(f.idx, 1)] }).commit).advance x.wid x.sid 1).endIfEmpty x.wid x.sid := by
  have hn : ¬ (f.scope = .system ∧ (!((Tbl.find s.ctxs x.d.ctx).any Context.sys)) = true) := fun ⟨e, e'⟩ => by
    rw [hs e] at e'
    exact Bool.false_ne_true e'
  refine ⟨_, issue_clear hc _, ?_⟩
  simp only [beginOp_ok ho, hw, Bool.not_true, Bool.false_eq_true, if_false, hn]
  exact ⟨_, rfl⟩

/-- Settles O11. -/
theorem fencesAndPrefetch : Obligations.FencesAndPrefetch := by
  refine ⟨fun s x hc => ⟨fun f hf he ho => ⟨_, waita_empty hc hf he ho, rfl⟩, fun f hs hn => fence_refused hc hs hn,
    fun f hs => ⟨fun hd hw => ⟨_, fence_passes hc hs hd hw, rfl⟩, fence_held hc hs, fence_waits hc hs⟩⟩,
    fun f s x hc ho hw hs => ?_⟩
  obtain ⟨-, -, -, hfound, -, -⟩ := who_spec hc.who
  obtain ⟨W, e, w1, w2⟩ := commit_popped hfound { srcs := [(f.idx, 1)] } every
  obtain ⟨_, hx, vas, rfl⟩ := exec_pfch hc ho hw hs
  obtain ⟨hu, hcores⟩ := prefetchAll_tlbsAndFaults x (s.rcdOf x f.rcd) vas (readyOf s x { srcs := [(f.idx, 1)] }).commit
  generalize List.foldl _ _ vas = u at hu hcores hx
  have hholds : (readyOf s x { srcs := [(f.idx, 1)] }).commit.Holds x := commit_strand hc _ _
  rw [endIfEmpty_advance hc (hholds.of_warps (by rw [hu]))] at hx
  have hwarps : u.warps = W := (congrArg State.warps hu).trans (congrArg State.warps e)
  have hupd : (u.advance x.wid x.sid 1).warps = Tbl.upd W x.wid fun w => w.updStrand x.sid fun st => st.advance 1 := by
    rw [← hwarps]
    rfl
  refine ⟨_, hx, ?_, fun c => ?_, fun w hne => ?_, ?_⟩
  · rw [e] at hu
    exact congrArg (fun t : State => { t with warps := (u.advance x.wid x.sid 1).warps }) hu
  · obtain ⟨l, hl⟩ := hcores c
    exact ⟨l, hl.trans (congrArg (fun t : State => { t.core c with tlb := l }) e)⟩
  · rw [hupd, Tbl.find_upd, if_neg (Ne.symm hne), w1 w hne]
  · rw [hupd, Tbl.find_upd, if_pos rfl, w2]
    rfl

end Sys2Proof.Machine
end


section
/-! Records put into their slots (R152, R173). -/

namespace Sys2Proof.Machine

section
variable {s : State} {x : Who} (hc : Clear s x) (hd : x.st.dom = 0)
include hc hd

/-- A crew's strand writes a record slot of its crew and moves on. -/
theorem setRcd_written (d : OpD) (k : Fin 32) (v : Rcd) :
    RcdWritten s x d k v ((((readyOf s x d).commit.setRcd x k v).advance x.wid x.sid 1).endIfEmpty x.wid x.sid) := by
  obtain ⟨-, -, -, hw, -, -⟩ := who_spec hc.who
  obtain ⟨W, e, w1, w2⟩ := commit_popped hw d every
  have hset : (readyOf s x d).commit.setRcd x k v = { s with crews := Tbl.upd s.crews x.w.crew fun c => c.withRcd k v, warps := W } := by
    rw [State.setRcd, if_pos hd]
    exact congrArg (fun t : State => t.updCrew x.w.crew fun c => c.withRcd k v) e
  have hholds : (readyOf s x d).commit.Holds x := commit_strand hc _ _
  rw [endIfEmpty_advance hc (hholds.of_warps (by rw [hset]; exact (congrArg State.warps e).symm)), hset]
  refine ⟨rfl, ?_, fun c hne => ?_, fun w hne => ?_, ?_⟩
  · exact (Tbl.find_upd ..).trans (if_pos rfl)
  · exact (Tbl.find_upd ..).trans (if_neg (Ne.symm hne))
  · exact ((Tbl.find_upd ..).trans (if_neg (Ne.symm hne))).trans (w1 w hne)
  · refine ((Tbl.find_upd ..).trans (if_pos rfl)).trans ?_
    rw [w2]
    rfl

/-- `brld` of a record that may be read and is well formed. -/
theorem brld_writes {f : BrldF} {pa : Nat} (ho : OperandsOk s x { srcs := [(f.idx, 1)] })
    (hn : (readyOf s x { srcs := [(f.idx, 1)] }).val 0 (readyOf s x { srcs := [(f.idx, 1)] }).low < x.d.nrec)
    (ht : (s.translate x.core x.d.ctx
      (x.d.recp + 32 * (readyOf s x { srcs := [(f.idx, 1)] }).val 0 (readyOf s x { srcs := [(f.idx, 1)] }).low)).need .read = .ok pa)
    (hv : Rcd.wf (BitVec.ofNat 256 (s.readNat pa 32)) = true) :
    ∃ t, exec (.brld f) s = .next t ∧ RcdWritten s x { srcs := [(f.idx, 1)] } f.rcd (BitVec.ofNat 256 (s.readNat pa 32)) t := by
  refine ⟨_, issue_clear hc _, ?_⟩
  simp only [beginOp_ok ho, Nat.not_le.2 hn, if_false, ht, hv, Bool.not_true, Bool.false_eq_true]
  exact setRcd_written hc hd _ _ _

/-- `brmk` within its source record. -/
theorem brmk_writes {f : BrmkF} {o e : Nat} (ho : OperandsOk s x { srcs := [(.s f.k, 4)] })
    (hof : o = (readyOf s x { srcs := [(.s f.k, 4)] }).num 0 0 2 (readyOf s x { srcs := [(.s f.k, 4)] }).low)
    (hef : e = (readyOf s x { srcs := [(.s f.k, 4)] }).num 0 2 2 (readyOf s x { srcs := [(.s f.k, 4)] }).low)
    (hv : (s.rcdOf x f.src).wf = true) (he : o + e ≤ (s.rcdOf x f.src).extent)
    (hz : (s.rcdOf x f.src).swz ≠ 0 → o % (8 * (s.rcdOf x f.src).rl * (s.rcdOf x f.src).stride) = 0) :
    ∃ t, exec (.brmk f) s = .next t ∧ RcdWritten s x { srcs := [(.s f.k, 4)] } f.rcd (brmkRcd (s.rcdOf x f.src) f o e) t := by
  subst hof hef
  refine ⟨_, issue_clear hc _, ?_⟩
  simp only [beginOp_ok ho, hv, Bool.not_true, Bool.false_eq_true, if_false, Nat.not_lt.2 he]
  rw [if_neg fun h => h.2 (hz h.1)]
  exact setRcd_written hc hd _ _ _

end

/-- Settles O12. -/
theorem recordsWritten : Obligations.RecordsWritten := by
  refine fun s x hc hd => ⟨?_, ?_⟩
  · rintro f r pa rfl ho hn ht hv
    exact brld_writes hc hd ho hn ht hv
  · rintro f r o e rfl ho hof hef hv he hz
    exact brmk_writes hc hd ho hof hef hv he hz

end Sys2Proof.Machine
end


section
/-! Requests that are due are performed at their ports (R9, R35, R165-R168, R171, R178). -/

namespace Sys2Proof.Machine

/-- What a table finds stands in it. -/
theorem Tbl.mem_of_find {α : Type} {t : Tbl α} {i : Nat} {a : α} (h : Tbl.find t i = some a) : (i, a) ∈ t := by
  induction t with
  | nil => cases h
  | cons p t ih =>
    rw [Tbl.find] at h
    split at h
    case isTrue e =>
      cases h
      exact e ▸ List.mem_cons_self
    case isFalse => exact List.mem_cons_of_mem _ (ih h)

/-! ### Results return (R34, R171, R221) -/

/-- Results reach a strand or a front-end context, and nothing else changes. -/
theorem deliver_rest (s : State) (a : Agent) (p : Option Nat) (l : List RegWrite) :
    ∃ ws cs, s.deliver a p l = { s with warps := ws, crews := cs } := by
  unfold State.deliver
  split
  · exact ⟨_, s.crews, rfl⟩
  · exact ⟨s.warps, _, rfl⟩
  · exact ⟨s.warps, s.crews, rfl⟩

@[simp] theorem deliver_mem (s : State) (a : Agent) (p : Option Nat) (l : List RegWrite) : (s.deliver a p l).mem = s.mem := by
  obtain ⟨_, _, e⟩ := deliver_rest s a p l
  rw [e]

@[simp] theorem deliver_mmarks (s : State) (a : Agent) (p : Option Nat) (l : List RegWrite) : (s.deliver a p l).mmarks = s.mmarks := by
  obtain ⟨_, _, e⟩ := deliver_rest s a p l
  rw [e]

@[simp] theorem deliver_accs (s : State) (a : Agent) (p : Option Nat) (l : List RegWrite) : (s.deliver a p l).accs = s.accs := by
  obtain ⟨_, _, e⟩ := deliver_rest s a p l
  rw [e]

@[simp] theorem deliver_waiters (s : State) (a : Agent) (p : Option Nat) (l : List RegWrite) : (s.deliver a p l).waiters = s.waiters := by
  obtain ⟨_, _, e⟩ := deliver_rest s a p l
  rw [e]

/-- A strand's long-latency instruction receives the words; its values are complete once nothing of it is open. -/
theorem deliver_strand_warps (s : State) (w i p : Nat) (l : List RegWrite) :
    (s.deliver (.strand w i) (some p) l).warps = Tbl.upd s.warps w fun v =>
      { v with strands := Tbl.upd v.strands i fun st =>
          st.received p l !((s.accs.any fun q => q.2.pend == some p && !q.2.done) || s.wreqs.any fun q => q.2.pend == p) } := rfl

/-- A `waita` that completes leaves memory as it is. -/
theorem endWaita_mem (s : State) (id word status : Nat) :
    (s.endWaita id word status).mem = s.mem ∧ (s.endWaita id word status).mmarks = s.mmarks := by
  unfold State.endWaita
  split
  · exact ⟨rfl, rfl⟩
  · exact ⟨deliver_mem .., deliver_mmarks ..⟩

/-- It takes away its own request, and no waiter but its own. -/
theorem endWaita_others (s : State) (id word status : Nat) :
    (∀ n, n ≠ id → Tbl.find (s.endWaita id word status).accs n = Tbl.find s.accs n) ∧
      ∀ w ∈ (s.endWaita id word status).waiters, w ∈ s.waiters := by
  unfold State.endWaita
  split
  · exact ⟨fun _ _ => rfl, fun _ h => h⟩
  · refine ⟨fun n hn => ?_, fun w hw => ?_⟩
    · rw [deliver_accs]
      exact (Tbl.find_del ..).trans (if_neg (Ne.symm hn))
    · rw [deliver_waiters] at hw
      exact (List.mem_filter.1 hw).1

/-- What completing `waita`s of the waiters `ws` leaves: memory and marks, and the requests of others. -/
structure Woken (ws : List Waiter) (s t : State) : Prop where
  mem : t.mem = s.mem
  mmarks : t.mmarks = s.mmarks
  waiters : ∀ w ∈ t.waiters, w ∈ s.waiters
  accs : ∀ n, (∀ w ∈ ws, w.acc ≠ n) → Tbl.find t.accs n = Tbl.find s.accs n

theorem Woken.trans {ws : List Waiter} {s t u : State} (h : Woken ws s t) (h' : Woken ws t u) : Woken ws s u where
  mem := h'.mem.trans h.mem
  mmarks := h'.mmarks.trans h.mmarks
  waiters w hw := h.waiters w (h'.waiters w hw)
  accs n hn := (h'.accs n hn).trans (h.accs n hn)

theorem endWaita_woken {ws : List Waiter} {w : Waiter} (hw : w ∈ ws) (s : State) (word status : Nat) :
    Woken ws s (s.endWaita w.acc word status) where
  mem := (endWaita_mem ..).1
  mmarks := (endWaita_mem ..).2
  waiters := (endWaita_others ..).2
  accs n hn := (endWaita_others ..).1 n (Ne.symm (hn w hw))

/-- The waiters of a line are evaluated again (R171). -/
theorem wake_woken (s : State) (line : Nat) : Woken s.waiters s (s.wake line) := by
  have hfold : ∀ (l : List Waiter) (t : State), (∀ w ∈ l, w ∈ s.waiters) → Woken s.waiters t (l.foldl (fun s w =>
      s.endWaita w.acc (s.waitWord w) (if s.waitWord w ≠ w.want then 0 else 1)) t) := by
    intro l
    induction l with
    | nil => exact fun t _ => ⟨rfl, rfl, fun _ h => h, fun _ _ => rfl⟩
    | cons w l ih => exact fun t hl =>
        (endWaita_woken (hl w List.mem_cons_self) t _ _).trans (ih _ fun v hv => hl v (List.mem_cons_of_mem _ hv))
  exact hfold _ s fun w hw => (List.mem_filter.1 hw).1

/-! ### A request that is due (R154, R165, R367) -/

theorem performed_due {s : State} {id : Nat} {a : Access} {order : List Nat} (h : RequestDue s id a order) :
    exec (.memoryAccessPerformed id order) s = .next ((drawn s a order).perform id order) := by
  have hout : (a.pend.isSome && s.isOut a.ctx) = false := by
    rw [Bool.eq_false_iff, Ne, Bool.and_eq_true]
    exact h.here
  have hfly : s.inFlight id a = true := by
    rw [State.inFlight, h.whole, h.after, h.fresh, hout]
    rfl
  show Host.Outcome.next _ = _
  congr 1
  simp only [h.find, h.todo, hfly, h.slot, h.port, Bool.not_true, Bool.or_self, Bool.false_eq_true, if_false]
  exact if_neg (by rw [Bool.not_eq_true, Bool.not_eq_false']; exact h.weir)

theorem leaveLanes_none {s : State} {id : Nat} {l : List LaneAcc} (h : l = []) : s.leaveLanes id l = { s with accs := Tbl.del s.accs id } := by
  rw [h]
  rfl

theorem leaveLanes_some {s : State} {id : Nat} {l : List LaneAcc} (h : l ≠ []) :
    s.leaveLanes id l = { s with accs := Tbl.upd s.accs id fun a => { a with lanes := l } } := by
  rw [State.leaveLanes, if_neg (by rwa [List.isEmpty_iff])]

theorem leaveLanes_warps (s : State) (id : Nat) (l : List LaneAcc) : (s.leaveLanes id l).warps = s.warps := by
  unfold State.leaveLanes
  split <;> rfl

theorem leaveLanes_mem (s : State) (id : Nat) (l : List LaneAcc) : (s.leaveLanes id l).mem = s.mem ∧ (s.leaveLanes id l).mmarks = s.mmarks := by
  unfold State.leaveLanes
  split <;> exact ⟨rfl, rfl⟩

theorem leaveLanes_wreqs (s : State) (id : Nat) (l : List LaneAcc) : (s.leaveLanes id l).wreqs = s.wreqs := by
  unfold State.leaveLanes
  split <;> rfl

/-! ### Stores (R165, R178) -/

theorem storeLane_mem (s : State) (l : LaneAcc) : (s.storeLane l).mem = Sparse.writeList memDefault s.mem l.pa l.bytes := by
  unfold State.storeLane
  dsimp only
  split <;> rfl

theorem storeLane_rest (s : State) (l : LaneAcc) : (s.storeLane l).waiters = s.waiters ∧ (s.storeLane l).accs = s.accs := by
  unfold State.storeLane
  dsimp only
  split <;> exact ⟨rfl, rfl⟩

/-- The lanes of a store are performed one after another, and after each the line's waiters are evaluated (R171). -/
def State.storeLanes (s : State) (line : Nat) (l : List LaneAcc) : State := l.foldl (fun s l => (s.storeLane l).wake line) s

/-- The request of the store itself waits for nothing, and stands. -/
theorem storeLanes_accs (line : Nat) (l : List LaneAcc) (s : State) {n : Nat} (hn : ∀ w ∈ s.waiters, w.acc ≠ n) :
    Tbl.find (s.storeLanes line l).accs n = Tbl.find s.accs n := by
  induction l generalizing s with
  | nil => rfl
  | cons a l ih =>
    obtain ⟨hw, ha⟩ := storeLane_rest s a
    have hwoken := wake_woken (s.storeLane a) line
    rw [hw] at hwoken
    refine (ih _ fun w hw' => hn w (hw ▸ hwoken.waiters w hw')).trans ?_
    rw [hwoken.accs n hn, ha]

/-- A byte that no lane covers is as before. -/
theorem storeLanes_other (line : Nat) (l : List LaneAcc) (s : State) {b : Nat} (hb : ∀ a ∈ l, ¬ a.covers b) :
    Memory.read (s.storeLanes line l).mem b = Memory.read s.mem b := by
  induction l generalizing s with
  | nil => rfl
  | cons a l ih =>
    refine (ih _ fun c hc => hb c (List.mem_cons_of_mem _ hc)).trans ?_
    rw [(wake_woken _ line).mem, storeLane_mem, Memory.read_writeList]
    exact if_neg (hb a List.mem_cons_self)

/-- A byte that one lane covers, and no other lane, is that lane's. -/
theorem storeLanes_covered (line : Nat) (l : List LaneAcc) (s : State) {a : LaneAcc} {b : Nat} (ha : a ∈ l) (hb : a.covers b)
    (ho : ∀ c ∈ l, c ≠ a → ¬ c.covers b) : Memory.read (s.storeLanes line l).mem b = a.bytes.getD (b - a.pa) 0 := by
  induction l generalizing s with
  | nil => exact absurd ha List.not_mem_nil
  | cons c l ih =>
    by_cases hl : a ∈ l
    · exact ih _ hl fun d hd => ho d (List.mem_cons_of_mem _ hd)
    · obtain rfl : a = c := (List.mem_cons.1 ha).resolve_right hl
      refine (storeLanes_other line l _ fun d hd => ho d (List.mem_cons_of_mem _ hd) fun e => hl (e ▸ hd)).trans ?_
      rw [(wake_woken _ line).mem, storeLane_mem, Memory.read_writeList]
      exact if_pos hb

/-- What the performance of a store comes to. -/
theorem perform_store {s : State} {id : Nat} {a : Access} {order : List Nat} (hf : Tbl.find s.accs id = some a) (hk : a.kind = .store) :
    ∃ line t, (t = s ∨ ∃ pa, t = s.setLineMark pa 0) ∧
      (leftOf a order = [] → s.perform id order = { t.storeLanes line (taken a order).lanes with
        accs := Tbl.upd (t.storeLanes line (taken a order).lanes).accs id fun a => { a with done := true } }) ∧
      (leftOf a order ≠ [] → s.perform id order = (t.storeLanes line (taken a order).lanes).leaveLanes id (leftOf a order)) := by
  refine ⟨(a.lanes.headD ⟨0, 0, 0, [], 0, 0, 0, []⟩).pa / 256, if wholeLine a.size a.lanes then
    s.setLineMark ((a.lanes.headD ⟨0, 0, 0, [], 0, 0, 0, []⟩).pa / 256 * 256) 0 else s, ?_, fun hl => ?_, fun hl => ?_⟩
  · split
    · exact .inr ⟨_, rfl⟩
    · exact .inl rfl
  · unfold State.perform
    simp only [hf, hk]
    exact if_pos (List.isEmpty_iff.2 hl)
  · unfold State.perform
    simp only [hf, hk]
    exact if_neg (by rwa [List.isEmpty_iff])

theorem store_performed {s : State} {id : Nat} {a : Access} {order : List Nat} (h : RequestDue s id a order) (hk : a.kind = .store) :
    ∃ t, exec (.memoryAccessPerformed id order) s = .next t ∧
      (leftOf a order = [] → Tbl.find t.accs id = some { a with done := true }) ∧
      (leftOf a order ≠ [] → Tbl.find t.accs id = some { a with lanes := leftOf a order }) ∧
      (∀ b, (∀ l ∈ (taken a order).lanes, ¬ l.covers b) → Memory.read t.mem b = Memory.read s.mem b) ∧
      ∀ l ∈ (taken a order).lanes, ∀ b, l.covers b → (∀ m ∈ (taken a order).lanes, m ≠ l → ¬ m.covers b) →
        Memory.read t.mem b = l.bytes.getD (b - l.pa) 0 := by
  have hd : Tbl.find (drawn s a order).accs id = some a := h.find
  obtain ⟨line, t, ht, hall, hsome⟩ := perform_store (order := order) hd hk
  have hacc : t.accs = s.accs ∧ t.waiters = s.waiters ∧ t.mem = s.mem := by
    rcases ht with rfl | ⟨pa, rfl⟩ <;> exact ⟨rfl, rfl, rfl⟩
  obtain ⟨haccs, hwaiters, hmem⟩ := hacc
  have hfind : Tbl.find (t.storeLanes line (taken a order).lanes).accs id = some a := by
    have hfresh := h.fresh
    rw [List.any_eq_false] at hfresh
    rw [storeLanes_accs, haccs, h.find]
    rw [hwaiters]
    exact fun w hw e => hfresh w hw (beq_iff_eq.2 e)
  have hpm : ((drawn s a order).perform id order).mem = (t.storeLanes line (taken a order).lanes).mem := by
    by_cases hl : leftOf a order = []
    · rw [hall hl]
    · rw [hsome hl, (leaveLanes_mem ..).1]
  refine ⟨_, performed_due h, fun hl => ?_, fun hl => ?_, fun b hb => ?_, fun l hl b hb ho => ?_⟩
  · rw [hall hl]
    exact (Tbl.find_upd ..).trans ((if_pos rfl).trans (by rw [hfind]; rfl))
  · rw [hsome hl, leaveLanes_some hl]
    exact (Tbl.find_upd ..).trans ((if_pos rfl).trans (by rw [hfind]; rfl))
  · rw [hpm, storeLanes_other line _ t hb, hmem]
  · rw [hpm]
    exact storeLanes_covered line _ t hl hb ho

/-! ### Loads (R9, R35, R165) -/

theorem perform_load {s : State} {id : Nat} {a : Access} {order : List Nat} (hf : Tbl.find s.accs id = some a) (hk : a.kind = .load) :
    s.perform id order = (s.leaveLanes id (leftOf a order)).deliver a.agent a.pend (loadedWords s a order) := by
  unfold State.perform
  simp only [hf, hk]
  rfl

/-- A request of the same long-latency instruction that is left is still open. -/
theorem leaveLanes_open {s : State} {id p : Nat} {a : Access} {l : List LaneAcc} (hf : Tbl.find s.accs id = some a) (hp : a.pend = some p)
    (hd : a.done = false) : (((s.leaveLanes id l).accs.any fun q => q.2.pend == some p && !q.2.done) ||
      s.wreqs.any fun q => q.2.pend == p) = !(decide (l = []) && !othersOpen s id p) := by
  by_cases hl : l = []
  · rw [leaveLanes_none hl, decide_eq_true hl, Bool.true_and, Bool.not_not]
    rfl
  · rw [leaveLanes_some hl, decide_eq_false hl, Bool.false_and, Bool.not_false]
    have hmem : (id, { a with lanes := l }) ∈ Tbl.upd s.accs id fun a => { a with lanes := l } :=
      Tbl.mem_of_find ((Tbl.find_upd ..).trans ((if_pos rfl).trans (by rw [hf]; rfl)))
    rw [Bool.or_eq_true, List.any_eq_true]
    exact .inl ⟨_, hmem, by simp [hp, hd]⟩

theorem load_performed {s : State} {id : Nat} {a : Access} {order : List Nat} {w i p : Nat} (h : RequestDue s id a order)
    (hk : a.kind = .load) (ha : a.agent = .strand w i) (hp : a.pend = some p) :
    ∃ t, exec (.memoryAccessPerformed id order) s = .next t ∧ t.mem = s.mem ∧ t.mmarks = s.mmarks ∧
      (leftOf a order = [] → t.accs = Tbl.del s.accs id) ∧
      (leftOf a order ≠ [] → t.accs = Tbl.upd s.accs id fun a => { a with lanes := leftOf a order }) ∧
      t.warps = Tbl.upd s.warps w fun v =>
        { v with strands := Tbl.upd v.strands i fun st =>
            st.received p (loadedWords s a order) (decide (leftOf a order = []) && !othersOpen s id p) } := by
  have hd : Tbl.find (drawn s a order).accs id = some a := h.find
  refine ⟨_, performed_due h, ?_⟩
  rw [perform_load hd hk, ha, hp]
  refine ⟨?_, ?_, fun hl => ?_, fun hl => ?_, ?_⟩
  · rw [deliver_mem, (leaveLanes_mem ..).1]
    rfl
  · rw [deliver_mmarks, (leaveLanes_mem ..).2]
    rfl
  · rw [deliver_accs, leaveLanes_none hl]
    rfl
  · rw [deliver_accs, leaveLanes_some hl]
    exact Tbl.upd_congr hd rfl
  · rw [deliver_strand_warps, leaveLanes_wreqs, leaveLanes_open hd hp h.todo, leaveLanes_warps, Bool.not_not]
    rfl

/-- Settles O13. -/
theorem accessesPerformed : Obligations.AccessesPerformed :=
  ⟨fun _ _ _ _ h hk => store_performed h hk, fun _ _ _ _ _ _ _ h hk ha hp => load_performed h hk ha hp⟩

/-! ### Atomics (R166, R168) -/

/-- The places that an order names in a list of one. -/
theorem filter_eraseDups_one (l : List Nat) :
    (l.eraseDups.filter fun i => decide (i < 1)) = [] ∨ (l.eraseDups.filter fun i => decide (i < 1)) = [0] := by
  induction h : l.length using Nat.strong_induction_on generalizing l with
  | _ n ih =>
    subst h
    cases l with
    | nil => exact .inl rfl
    | cons a l =>
      rw [List.eraseDups_cons]
      by_cases ha : a = 0
      · subst ha
        exact .inr (by simp)
      · have hskip : decide (a < 1) = false := decide_eq_false (by omega)
        rw [List.filter_cons, hskip]
        exact ih _ (Nat.lt_succ_of_le (List.length_filter_le ..)) _ rfl

/-- A request of one lane is performed at once, whatever the order. -/
theorem pick_one {a : Access} {l : LaneAcc} (h : a.lanes = [l]) (order : List Nat) : a.pick order = ([l], []) := by
  rw [Access.pick, h, pickFrom]
  rcases filter_eraseDups_one order with e | e <;> simp only [List.length_singleton, e] <;> rfl

/-- The new value of an atomic or `cas` (R166, R168). -/
def Access.newOf (a : Access) (l : LaneAcc) (old : Nat) : Nat :=
  match a.kind with
  | .atom op => atomNew op a.sx a.size old l.val
  | _ => if old = l.val then l.val2 else old

theorem perform_atom {s : State} {id : Nat} {a : Access} {l : LaneAcc} (order : List Nat) (hf : Tbl.find s.accs id = some a)
    (hl : a.lanes = [l]) (hk : (∃ op, a.kind = .atom op) ∨ a.kind = .cas) :
    s.perform id order = (((s.writeNat l.pa a.size (a.newOf l (s.readNat l.pa a.size))).wake (l.pa / 256)).leaveLanes id []).deliver a.agent
      a.pend (l.results (valueWords a.size false (s.readNat l.pa a.size)) (s.lineMark l.pa)) := by
  unfold State.perform
  rcases hk with ⟨op, hk⟩ | hk
  · simp only [hf, pick_one hl, hl, hk, State.atomLane, Access.newOf]
    rfl
  · simp only [hf, pick_one hl, hl, hk, State.atomLane, Access.newOf]
    rfl

theorem length_leBytes (n v : Nat) : (leBytes n v).length = n := by
  induction n generalizing v with
  | zero => rfl
  | succ n ih => rw [leBytes, List.length_cons, ih]

theorem readList_eq_map (m : List Host.Cell) (n i : Nat) : Sparse.readList memDefault m i n = (List.range n).map fun j => Memory.read m (i + j) := by
  induction n generalizing i with
  | zero => rfl
  | succ n ih =>
    rw [Sparse.readList, ih, List.range_succ_eq_map, List.map_cons, List.map_map]
    refine congrArg (_ :: ·) (List.map_congr_left fun j _ => ?_)
    rw [Function.comp, Nat.add_assoc, Nat.add_comm 1]

/-- Bytes that have been written are read back. -/
theorem readBytes_writeList {s : State} {m : List Host.Cell} {pa n v : Nat} (h : s.mem = Sparse.writeList memDefault m pa (leBytes n v)) :
    s.readBytes pa n = leBytes n v := by
  rw [State.readBytes, readList_eq_map, h]
  refine List.ext_getElem (by rw [List.length_map, List.length_range, length_leBytes]) fun j hj hj' => ?_
  rw [List.getElem_map, List.getElem_range, Memory.read_writeList, if_pos ⟨by omega, by omega⟩, Nat.add_sub_cancel_left,
    List.getD_eq_getElem _ _ hj']

theorem atom_performed {s : State} {id : Nat} {a : Access} {l : LaneAcc} {order : List Nat} {new : Nat} (h : RequestDue s id a order)
    (hl : a.lanes = [l]) (hk : (∃ op, a.kind = .atom op) ∨ a.kind = .cas) (hn : new = a.newOf l (s.readNat l.pa a.size)) :
    ∃ t u, exec (.memoryAccessPerformed id order) s = .next t ∧
      t.readBytes l.pa a.size = leBytes a.size new ∧
      (∀ b, (b < l.pa ∨ l.pa + a.size ≤ b) → Memory.read t.mem b = Memory.read s.mem b) ∧
      u = ((drawn s a order).writeNat l.pa a.size new).wake (l.pa / 256) ∧ t.accs = Tbl.del u.accs id ∧
      ∀ w i p, a.agent = .strand w i → a.pend = some p → t.warps = Tbl.upd u.warps w fun v =>
        { v with strands := Tbl.upd v.strands i fun st =>
            st.received p (l.results (valueWords a.size false (s.readNat l.pa a.size)) (s.lineMark l.pa)) (!othersOpen u id p) } := by
  subst hn
  have hd : Tbl.find (drawn s a order).accs id = some a := h.find
  have hw := wake_woken ((drawn s a order).writeNat l.pa a.size (a.newOf l (s.readNat l.pa a.size))) (l.pa / 256)
  refine ⟨_, _, performed_due h, ?_, fun b hb => ?_, rfl, ?_, fun w i p ha hp => ?_⟩
  all_goals rw [perform_atom order hd hl hk, leaveLanes_none rfl]
  · refine readBytes_writeList (m := s.mem) ?_
    rw [deliver_mem]
    exact hw.mem
  · rw [deliver_mem]
    refine (congrArg (Memory.read · b) hw.mem).trans ((Memory.read_writeList ..).trans (if_neg ?_))
    rw [length_leBytes]
    omega
  · rw [deliver_accs]
    rfl
  · rw [ha, hp, deliver_strand_warps]
    rfl

/-! ### The new value (R166) -/

theorem ofNat_toNat_self {w : Nat} (a : BitVec w) : BitVec.ofNat w a.toNat = a := by
  rw [BitVec.ofNat_toNat, BitVec.setWidth_eq]

theorem atomNew_eq (sx : Bool) (z : Nat) (a b : BitVec (8 * z)) :
    atomNew .add sx z a.toNat b.toNat = (a + b).toNat ∧ atomNew .and sx z a.toNat b.toNat = (a &&& b).toNat ∧
    atomNew .or sx z a.toNat b.toNat = (a ||| b).toNat ∧ atomNew .xor sx z a.toNat b.toNat = (a ^^^ b).toNat ∧
    atomNew .exch sx z a.toNat b.toNat = b.toNat ∧
    atomNew .min sx z a.toNat b.toNat = (if (if sx then b.slt a else b.ult a) then b else a).toNat ∧
    atomNew .max sx z a.toNat b.toNat = (if (if sx then a.slt b else a.ult b) then b else a).toNat ∧
    atomNew .inc sx z a.toNat b.toNat = (if b.ule a then 0 else a + 1).toNat := by
  have hlt : ∀ c d : BitVec (8 * z), (if sx then decide ((BitVec.ofNat (8 * z) c.toNat).toInt < (BitVec.ofNat (8 * z) d.toNat).toInt)
      else decide (c.toNat < d.toNat)) = if sx then c.slt d else c.ult d := fun c d => by
    rw [ofNat_toNat_self, ofNat_toNat_self]
    rfl
  refine ⟨rfl, rfl, rfl, rfl, rfl, ?_, ?_, ?_⟩
  · simp only [atomNew, hlt, apply_ite BitVec.toNat]
  · simp only [atomNew, hlt, apply_ite BitVec.toNat]
  · rw [atomNew, BitVec.ule]
    by_cases h : b.toNat ≤ a.toNat
    · simp [h]
    · have := b.isLt
      have hone : a.toNat + 1 < 2 ^ (8 * z) := by omega
      have hz : (1 : BitVec (8 * z)).toNat = 1 := by
        rw [BitVec.ofNat_eq_ofNat, BitVec.toNat_ofNat]
        exact Nat.mod_eq_of_lt (lt_of_le_of_lt (Nat.le_add_left ..) hone)
      simp only [h, decide_false, if_false, Bool.false_eq_true, BitVec.toNat_add, hz, Nat.mod_eq_of_lt hone]

/-- Settles O14. -/
theorem atomicPerformed : Obligations.AtomicPerformed := by
  refine ⟨fun s id a l order new h hl hn => ?_, atomNew_eq⟩
  rcases hn with ⟨op, hk, rfl⟩ | ⟨hk, rfl⟩
  · exact atom_performed h hl (.inl ⟨op, hk⟩) (by rw [Access.newOf, hk])
  · exact atom_performed h hl (.inr hk) (by rw [Access.newOf, hk])

end Sys2Proof.Machine
end


section
/-! ## Strands without lanes: O21 -/

namespace Sys2Proof.Machine

/-- An instruction with operands read once, of a strand without lanes (R107, R129). -/
theorem issue_uOp_skip {s : State} {x : Who} (hc : Clear s x) (he : x.st.em = 0) {srcs : Who → List (Opnd × Nat)}
    {dst : Who → Option (Opnd × Nat)} {k : Who → Ready → State} :
    (issue s fun y => uOp s y (srcs y) (dst y) (k y)) = .next (s.skip x) := by
  rw [issue_clear hc, uOp_skip he]

/-- A `yield` of a strand without lanes raises nothing (R303, R107). -/
theorem yield_skip {s : State} {x : Who} (hc : Clear s x) (he : x.st.em = 0) : exec .yield s = .next (s.skip x) := by
  have hyld (b : Bool) : (b || x.st.em != 0) = b := by rw [he, bne_self_eq_false, Bool.or_false]
  refine (issue_clear hc _).trans ?_
  simp only [State.skip, State.advance, State.updStrand, State.updWarp, Warp.updStrand, Tbl.upd_upd, hyld]

/-- Settles O21: each of the instructions reads its operands once, and such an instruction only moves on where the strand has no lanes;
`wdask` and `yield` look at the lanes themselves. -/
theorem noLaneNoEffect : Obligations.NoLaneNoEffect := by
  intro s x hc he
  refine ⟨fun f => ?_, fun f => ?_, fun f => ?_, fun f => ?_, fun f => ?_, fun f => ?_, fun f => ?_, fun f => ?_, fun f => ?wdask,
    fun f => ?_, fun f => ?_, fun f => ?_, fun f => ?_, fun f => ?_, fun f => ?_, fun f => ?_, yield_skip hc he, fun f => ?_⟩
  case wdask => exact (issue_clear hc _).trans (congrArg _ (if_pos he))
  all_goals exact issue_uOp_skip hc he

end Sys2Proof.Machine
end


section
/-! Front-end contexts: control and arithmetic (R60, R218, R219): O42. -/

namespace Sys2Proof.Machine

section
variable {s : State} {x : FeWho}

theorem badTarget_good {core ctx : Nat} {l : List (Pc × Nat)} (h : ∀ p ∈ l, GoodTarget s core ctx p.1) : s.badTarget core ctx l = none := by
  rw [State.badTarget, List.findSome?_eq_none_iff]
  intro p hp
  obtain ⟨w, hw, hh⟩ := h p hp
  simp only [hw, hh, if_true]

theorem feTargets_good {l : List (Pc × Nat)} (h : ∀ p ∈ l, GoodTarget s x.k.core x.ctx p.1) (k : State) : s.feTargets x l k = k := by
  simp only [State.feTargets, badTarget_good h]

theorem feTargets_one {p : Pc} (h : GoodTarget s x.k.core x.ctx p) (k : State) : s.feTargets x [(p, 0)] k = k :=
  feTargets_good (List.forall_mem_singleton.2 h) k

/-! ### Control -/

section
variable (hc : FeClear s x)
include hc

theorem fe_bra_jumps {t : BitVec 24} (hg : GoodTarget s x.k.core x.ctx (x.f.header + t.signExtend 53)) :
    exec (.bra t) s = .next (s.withFe x fun f => f.jump (x.f.header + t.signExtend 53)) :=
  (byIssuer_fe hc _ _).trans ((feIssue_clear hc _).trans (congrArg _ (feTargets_one hg _)))

/-- A `brc` on a register of a context, without a join. -/
theorem exec_fe_brc {f : BrcF} {k : Fin 32} {inv : Bool} (hk : f.cond = .areg k inv) (hj : f.join = 0) (hf : FeFree s x [k.val]) :
    exec (.brc f) s = .next (if (x.reg k.val = 0) = (inv = true) then
      s.feTargets x [(x.f.header + f.tgt.signExtend 53, 0)] (s.withFe x fun g => g.jump (x.f.header + f.tgt.signExtend 53))
      else s.withFe x fun g => g.jump x.f.nextClause) := by
  refine (byIssuer_fe hc _ _).trans ((feIssue_clear hc _).trans (congrArg _ ?_))
  simp only [hk, hj, ne_eq, not_true_eq_false, if_false, feReady_free hf]
  rfl

theorem fe_brc_jumps {f : BrcF} {k : Fin 32} {inv : Bool} (hk : f.cond = .areg k inv) (hj : f.join = 0) (hf : FeFree s x [k.val])
    (ht : if inv then x.reg k.val = 0 else x.reg k.val ≠ 0) (hg : GoodTarget s x.k.core x.ctx (x.f.header + f.tgt.signExtend 53)) :
    exec (.brc f) s = .next (s.withFe x fun g => g.jump (x.f.header + f.tgt.signExtend 53)) := by
  rw [exec_fe_brc hc hk hj hf, if_pos (by cases inv <;> simpa using ht), feTargets_one hg]

theorem fe_brc_falls {f : BrcF} {k : Fin 32} {inv : Bool} (hk : f.cond = .areg k inv) (hj : f.join = 0) (hf : FeFree s x [k.val])
    (ht : if inv then x.reg k.val ≠ 0 else x.reg k.val = 0) :
    exec (.brc f) s = .next (s.withFe x fun g => g.jump x.f.nextClause) := by
  rw [exec_fe_brc hc hk hj hf, if_neg (by cases inv <;> simpa using ht)]

theorem fe_call_pushes {t : BitVec 24} (hn : x.f.rstack.length < 32) (hg : GoodTarget s x.k.core x.ctx (x.f.header + t.signExtend 53)) :
    exec (.call t) s = .next (s.withFe x fun f =>
      { f.jump (x.f.header + t.signExtend 53) with rstack := x.f.nextClause :: f.rstack }) :=
  (byIssuer_fe hc _ _).trans ((feIssue_clear hc _).trans (congrArg _ ((feTargets_one hg _).trans (if_neg (Nat.not_le.2 hn)))))

theorem fe_ret_pops {p : Pc} {rest : List Pc} (hr : x.f.rstack = p :: rest) (hg : GoodTarget s x.k.core x.ctx p) :
    exec .ret s = .next (s.withFe x fun f => { f.jump p with rstack := rest }) := by
  refine (byIssuer_fe hc _ _).trans ((feIssue_clear hc _).trans (congrArg _ ?_))
  simp only [hr, feTargets_one hg]
  rfl

/-- A `loop` of a context on a register that exists. -/
theorem exec_fe_loop {f : LoopF} (hk : f.k.toNat < 32) (hf : FeFree s x [f.k.toNat]) :
    exec (.loop f) s = .next (
      let v := x.reg f.k.toNat - 1
      let p := if v = 0 then x.f.nextClause else x.f.header + f.tgt.signExtend 53
      s.feTargets x (if v = 0 then [] else [(p, 0)]) (s.withFe x fun g => { g.jump p with regs := g.regs.set f.k.toNat v })) :=
  (byIssuer_fe hc _ _).trans ((feIssue_clear hc _).trans (congrArg _ ((if_neg (Nat.not_le.2 hk)).trans (feReady_free hf _))))

theorem fe_loop_leaves {f : LoopF} (hk : f.k.toNat < 32) (hf : FeFree s x [f.k.toNat]) (hv : x.reg f.k.toNat = 1) :
    exec (.loop f) s = .next (s.withFe x fun g => { g.jump x.f.nextClause with regs := g.regs.set f.k.toNat 0 }) := by
  have hz : x.reg f.k.toNat - 1 = 0 := by rw [hv, sub_self]
  simp only [exec_fe_loop hc hk hf, hz, if_true, feTargets_good (List.forall_mem_nil _)]

theorem fe_loop_repeats {f : LoopF} (hk : f.k.toNat < 32) (hf : FeFree s x [f.k.toNat]) (hv : x.reg f.k.toNat ≠ 1)
    (hg : GoodTarget s x.k.core x.ctx (x.f.header + f.tgt.signExtend 53)) :
    exec (.loop f) s = .next (s.withFe x fun g =>
      { g.jump (x.f.header + f.tgt.signExtend 53) with regs := g.regs.set f.k.toNat (x.reg f.k.toNat - 1) }) := by
  simp only [exec_fe_loop hc hk hf, sub_eq_zero.not.2 hv, if_false, feTargets_one hg]

/-- Instructions that are no front-end context's stop it (R218). -/
theorem fe_invalid {a : Out} : byIssuer s a (feIssue s fun x => s.feStop x.cid { cause := 0x7C }) = .next (s.feStop x.cid { cause := 0x7C }) :=
  (byIssuer_fe hc _ _).trans (feIssue_clear hc _)

end

/-! ### Arithmetic -/

/-- In a linear order that tells dwords apart, one relation decides both ways. -/
theorem decide_lt_swap {α : Type} [LinearOrder α] {v : Dword → α} (hv : Function.Injective v) (a b : Dword) :
    decide (v b < v a) = (!decide (v a < v b) && a != b) := by
  rcases lt_trichotomy (v a) (v b) with h | h | h
  · simp [h, h.le]
  · simp [hv h]
  · have hn : a ≠ b := fun e => h.ne (congrArg v e).symm
    simp [h, h.le, hn]

theorem aCond_gt (t : ATy) (a b : Dword) : aCond t .gt a b = (!aCond t .lt a b && a != b) := by
  cases t with
  | i64 => exact decide_lt_swap (fun _ _ => BitVec.toInt_inj.1) a b
  | n64 => exact decide_lt_swap (fun _ _ => BitVec.toNat_inj.1) a b

theorem aCond_le (t : ATy) (a b : Dword) : aCond t .le a b = (aCond t .lt a b || a == b) := by
  refine (congrArg Bool.not (aCond_gt t a b)).trans ?_
  rw [Bool.not_and, Bool.not_not, bne, Bool.not_not]

/-- An arithmetic shift by 64 or more leaves all fill. -/
theorem sshiftRight_fills {a : Dword} {n : Nat} (h : 64 ≤ n) : a.sshiftRight n = if a.msb then BitVec.allOnes 64 else 0 := by
  ext i hi
  rw [BitVec.getElem_sshiftRight, dif_neg (by omega)]
  cases a.msb
  · simp only [Bool.false_eq_true, if_false, BitVec.ofNat_eq_ofNat, BitVec.getElem_zero]
  · exact (BitVec.getElem_allOnes ..).symm

/-- Every rule of R219 is the model's arithmetic. -/
theorem exec_feRule {i : Instr} {q : FeRule} (h : feRule i = some q) : exec i s = feArith q.d q.a q.b q.g s := by
  have hl (a b : Dword) : (if 64 ≤ b.toNat then 0 else a <<< b.toNat) = a <<< b.toNat :=
    ite_eq_right_iff.2 fun hb => (BitVec.shiftLeft_eq_zero hb).symm
  have hr (a b : Dword) : (if 64 ≤ b.toNat then 0 else a >>> b.toNat) = a >>> b.toNat :=
    ite_eq_right_iff.2 fun hb => (BitVec.ushiftRight_eq_zero hb).symm
  have hs (a b : Dword) : (if 64 ≤ b.toNat then (if a.msb then BitVec.allOnes 64 else 0) else a.sshiftRight b.toNat) = a.sshiftRight b.toNat :=
    ite_eq_right_iff.2 fun hb => (sshiftRight_fills hb).symm
  cases i <;> simp only [feRule, reduceCtorEq, Option.some.injEq] at h <;> subst h
  case ashl f => simp only [hl]; rfl
  case ashr f => simp only [hs, hr]; rfl
  case acmp f =>
    refine congrArg (fun g => feArith f.d f.a f.b g s) (funext₂ fun a b => congrArg (fun c : Bool => if c then (1 : Dword) else 0) ?_)
    obtain ⟨ty, cond, _, _, _⟩ := f
    cases cond
    case le => exact (aCond_le ty a b).trans (by cases ty <;> rfl)
    case gt => exact (aCond_gt ty a b).trans (by cases ty <;> rfl)
    all_goals cases ty <;> rfl
  case amovi f =>
    obtain ⟨ty, d, imm⟩ := f
    cases ty with
    | i64 => rfl
    | n64 => exact congrArg (fun v => feArith d .zero .zero (fun _ _ => v) s) (BitVec.ofNat_toNat 64 imm).symm
  all_goals rfl

theorem feLoading_iff {l : List Nat} : s.feLoading x l = true ↔ ¬ FeFree s x l := by
  rw [← Bool.not_eq_false, not_iff_not]
  refine ⟨fun h p hp ha hd q hq d hdst hm => ?_, feLoading_free⟩
  rw [State.feLoading, List.any_eq_false] at h
  refine h p hp ?_
  simp only [Bool.and_eq_true, beq_iff_eq, List.any_eq_true, List.contains_iff_mem]
  exact ⟨⟨ha, hd⟩, q, hq, d, hdst, hm⟩

theorem fe_arith {i : Instr} {q : FeRule} (hc : FeClear s x) (h : feRule i = some q) :
    (FeFree s x (AOpnd.regs q.d ++ AOpnd.regs q.a ++ AOpnd.regs q.b) →
      exec i s = .next (s.withFe x fun f => f.done q.d (q.g (x.val q.a) (x.val q.b)))) ∧
    (¬ FeFree s x (AOpnd.regs q.d ++ AOpnd.regs q.a ++ AOpnd.regs q.b) → exec i s = .next (s.stall x.cid .release)) := by
  rw [exec_feRule h]
  refine ⟨fun hf => (feIssue_free hc hf _).trans (congrArg _ (feSet_eq_done _ _)), fun hf => (feIssue_clear hc _).trans (congrArg _ (if_pos (feLoading_iff.2 hf)))⟩

end

/-- Settles O42. -/
theorem frontEndBasics : Obligations.FrontEndBasics := by
  refine ⟨fun s x hc => ⟨fun t => fe_bra_jumps hc, fun f k inv hk hj hf => ⟨fe_brc_jumps hc hk hj hf, fe_brc_falls hc hk hj hf⟩,
    fun t => fe_call_pushes hc, fun p rest => fe_ret_pops hc, ?_, fun f => fe_invalid hc, fun f => fe_invalid hc, fe_invalid hc⟩,
    fun i q s x h hc => fe_arith hc h⟩
  rintro f _ rfl hk hf
  exact ⟨fe_loop_leaves hc hk hf, fe_loop_repeats hc hk hf⟩

end Sys2Proof.Machine
end


section
/-! Pre-emption and the swap of partitions (R171, R239, R347-R352): O49. -/

namespace Sys2Proof.Machine

section
variable {s : State} {ctx : Nat} {p : Party} {c : Context}

theorem leaveArray_ctxs (s : State) (p : Party) : (s.leaveArray p).ctxs = s.ctxs := by
  cases p with
  | command id =>
    simp only [State.leaveArray]
    cases Tbl.find s.cmds id <;> rfl
  | _ => rfl

theorem leaveArray_time (s : State) (p : Party) : (s.leaveArray p).time = s.time := by
  cases p with
  | command id =>
    simp only [State.leaveArray]
    cases Tbl.find s.cmds id <;> rfl
  | _ => rfl

/-- A context that still waits for a party goes on. -/
theorem tryStop_waits {q : Party} (hq : q ∈ s.parties ctx) (ha : ∀ k, Tbl.find s.ctxs ctx = some k → q ∉ k.acks) : s.tryStop ctx = s := by
  cases hf : Tbl.find s.ctxs ctx with
  | none => simp only [State.tryStop, hf]
  | some k =>
    simp only [State.tryStop, hf]
    refine if_neg fun h => ha k hf ?_
    have := List.all_eq_true.1 h.2 q hq
    simp only [Bool.and_eq_true, List.contains_iff_mem] at this
    exact this.1

/-- A context all of whose parties have acknowledged at their boundaries stops. -/
theorem tryStop_stops (hf : Tbl.find s.ctxs ctx = some c) (hr : c.run = .stopping)
    (ha : ∀ q ∈ s.parties ctx, q ∈ c.acks ∧ s.atBoundary q = true) :
    s.tryStop ctx = ((s.updCtx ctx fun c => { c with run := .stopped, since := s.time, acks := [], pstate := 0 }).sendRungNotice
      ctx).answerHeld fun h => h.ctx == ctx && h.swapIn.isNone := by
  simp only [State.tryStop, hf]
  refine if_pos ⟨hr, List.all_eq_true.2 fun q hq => ?_⟩
  rw [Bool.and_eq_true, List.contains_iff_mem]
  exact ha q hq

section
variable (hc : Tbl.find s.ctxs ctx = some c) (hr : c.run = .stopping) (hp : p ∈ s.parties ctx)
include hc hr hp

/-- What a party of a stopping context does. -/
theorem exec_preemptAcknowledge : exec (.preemptAcknowledge ctx p) s = .next (
    match (match p with | .agent a => s.waiterOf a | _ => none) with
    | some w => s.endWaita w.acc (s.waitWord w) 1
    | none => if !s.atBoundary p then s else ((s.leaveArray p).updCtx ctx fun c =>
        { c with acks := if c.acks.contains p then c.acks else p :: c.acks }).tryStop ctx) := by
  have hn : ¬ (c.run ≠ .stopping ∨ ¬(s.parties ctx).contains p) := by simp [hr, hp]
  refine congrArg Host.Outcome.next ?_
  simp only [hc, if_neg hn] <;> rfl

theorem waita_resumes {a : Agent} {w : Waiter} (ha : p = .agent a) (hw : s.waiterOf a = some w) :
    exec (.preemptAcknowledge ctx p) s = .next (s.endWaita w.acc (s.waitWord w) 1) := by
  subst ha
  simp only [exec_preemptAcknowledge hc hr hp, hw]

theorem party_acknowledges (hw : ∀ a, p = .agent a → s.waiterOf a = none) (hb : s.atBoundary p = true) :
    exec (.preemptAcknowledge ctx p) s = .next (((s.leaveArray p).updCtx ctx fun c =>
      { c with acks := if c.acks.contains p then c.acks else p :: c.acks }).tryStop ctx) := by
  have hn : (match p with | .agent a => s.waiterOf a | _ => none) = none := by
    cases p with
    | agent a => exact hw a rfl
    | _ => rfl
  rw [exec_preemptAcknowledge hc hr hp, hn, hb]
  rfl

end

end

section
variable {s : State} {out i : Nat} {h : Held} {p q : Part} (hh : (s.held.find? fun h => h.part == out && h.swapIn == some i) = some h)
  (hp : Tbl.find s.parts out = some p) (hq : Tbl.find s.parts i = some q) (hr : p.run = .resident) (ho : q.run = .out)
  (hs : ∀ c ∈ s.ctxsOf out, ∃ k, Tbl.find s.ctxs c = some k ∧ (k.run = .stopped ∨ k.run = .killed))
include hh hp hq hr ho hs

/-- A swap of a partition that has stopped with one that is out. -/
theorem exec_partitionSwap : exec (.partitionSwap out (some i)) s = .next (
    if !s.shadowFits p (some i) then s.refuseSwap h 0xCE
    else if !s.clustersFree i q (some out) then s.refuseSwap h 0xD2
    else (({ (s.swapOut out p) with held := s.held.filter (· ≠ h) } : State).swapIn i q).reply h.hdr 0 []) := by
  have hquiet : ((s.ctxsOf out).all fun c => (Tbl.find s.ctxs c).any fun k => k.run == .stopped || k.run == .killed) = true := by
    rw [List.all_eq_true]
    intro c hc
    obtain ⟨k, hk, hrun⟩ := hs c hc
    rcases hrun with hrun | hrun <;> simp [hk, hrun]
  have hres : (p.run != .resident) = false := by rw [hr]; rfl
  refine congrArg Host.Outcome.next ?_
  simp only [hh, hp, hq, hquiet, hres, ho, Bool.not_true, Bool.or_false, Bool.false_eq_true, if_false, ne_eq, not_true_eq_false]

end

/-- Settles O49. -/
theorem preemptionAndSwap : Obligations.PreemptionAndSwap := by
  refine ⟨fun s ctx p c hc hr hp => ⟨fun a w ha hw => waita_resumes hc hr hp ha hw, fun hw hb => ⟨_, rfl, party_acknowledges hc hr hp hw hb,
    fun ⟨q, hq, ha⟩ => tryStop_waits hq ha, fun ha => ?_⟩⟩, fun s out i h p q hh hp hq hr ho hs => ⟨fun hf hc => ?_, fun hf => ?_⟩⟩
  · have hf : Tbl.find ((s.leaveArray p).updCtx ctx fun c => { c with acks := if c.acks.contains p then c.acks else p :: c.acks }).ctxs ctx =
        some { c with acks := if c.acks.contains p then c.acks else p :: c.acks } := by
      simp only [State.updCtx, leaveArray_ctxs, Tbl.find_upd, if_true, hc, Option.map_some]
    exact (tryStop_stops hf hr (ha _ hf)).trans (by simp only [State.updCtx_time, leaveArray_time])
  · rw [exec_partitionSwap hh hp hq hr ho hs, hf, hc]
    rfl
  · rw [exec_partitionSwap hh hp hq hr ho hs, hf]
    rfl

end Sys2Proof.Machine
end


section
/-! Migrations of pages, and the faults that wait for them (R159, R160, R163, R367): O47. -/

namespace Sys2Proof.Machine

/-! ### A fault that the sequencer of a die takes -/

section
variable {s : State} {die level pte : Nat} {frames : List Nat} {f : FaultEnt} {e : Pte} {va : Nat}
  (hf : (s.faults.find? fun f => f.die == die && !s.moving f.ctx f.va && (Tbl.find s.ctxs f.ctx).any fun c => c.run == .running) = some f)
  (hw : s.walk f.ctx f.va = .leaf level pte e) (hva : va = f.va / 2 ^ e.log * 2 ^ e.log)

/-- A page that is its own span is all that moves (R160, R163). -/
theorem spanPages_own {ctx va log : Nat} (hal : va / 2 ^ log * 2 ^ log = va) (hw : s.walk ctx va = .leaf level pte e)
    (hv : e.v = false) (hh : e.home = 1) (hc : s.codeHeld ctx va (2 ^ e.log) = false) : s.spanPages ctx va log log = [va] := by
  simp only [State.spanPages, Nat.sub_self, pow_zero, List.range_one, List.map_cons, List.map_nil, Nat.zero_mul, Nat.add_zero, hal]
  rw [List.filter_cons_of_pos]
  · rfl
  · simp only [hw, hv, hh, hc]
    rfl

include hf hw hva

theorem migration_replays (hv : e.v = true) :
    exec (.migration die frames) s = .next (s.replayAll f.ctx fun v => v / 2 ^ e.log * 2 ^ e.log == va) := by
  refine congrArg Host.Outcome.next ?_
  simp only [hf, hw, hv, if_true, hva]

section
variable (hv : e.v = false) (hh : e.home = 1) (hs : f.span ≤ e.log) (hwa : s.walk f.ctx va = .leaf level pte e)
  (hc : s.codeHeld f.ctx va (2 ^ e.log) = false)
include hv hh hs hwa hc

/-- A fault of a page that is its own span comes to the move of that page. -/
theorem migration_beginMove : exec (.migration die frames) s = .next (
    let b := s.beginMove die f.ctx va frames
    let t := if b.2.2.2 ≠ 0 then b.1.enterCtx f.ctx b.2.2.2 (b.1.faultVals f.who b.2.2.2 f.va) else b.1
    if b.2.1.toList.isEmpty then t
    else { t.fresh.2 with migs := Tbl.put t.fresh.2.migs t.fresh.1 ⟨die, f.ctx, b.2.1.toList, t.faultClass f, 0⟩ }) := by
  have hal : va / 2 ^ e.log * 2 ^ e.log = va := by rw [hva, Nat.mul_div_cancel _ (Nat.two_pow_pos _)]
  refine congrArg Host.Outcome.next ?_
  simp only [hf, hw, hv, Bool.false_eq_true, if_false, ← hva, Nat.max_eq_left hs, spanPages_own hal hwa hv hh hc, List.foldl_cons,
    List.foldl_nil, if_true, List.nil_append]
  rfl

theorem migration_reports (hu : (tier2 e.addr && !s.reachable e.addr) = true) :
    exec (.migration die frames) s = .next (s.enterCtx f.ctx 0x4F (s.faultVals f.who 0x4F f.va)) := by
  have hb : s.beginMove die f.ctx va frames = (s, none, frames, 0x4F) := by
    simp only [State.beginMove, hwa]
    exact if_pos (by simpa using hu)
  rw [migration_beginMove hf hw hva hv hh hs hwa hc, hb]
  rfl

theorem migration_begins (hu : (tier2 e.addr && !s.reachable e.addr) = false) {u : State} {fr : Nat}
    (hp : s.pickFrame die f.ctx e.log e.addr frames = some (u, fr)) :
    ∃ t : State, t = u.writeLeaves level va pte e (e.place false 2 e.addr) ∧
      exec (.migration die frames) s = .next { t with
        nextId := t.nextId + 1
        migs := Tbl.put t.migs t.nextId ⟨die, f.ctx, [(va, e.log, e.addr, fr)], t.faultClass f, 0⟩ } := by
  have hb : s.beginMove die f.ctx va frames =
      (u.writeLeaves level va pte e (e.place false 2 e.addr), some (va, e.log, e.addr, fr), frames.filter (· != fr), 0) := by
    simp only [State.beginMove, hwa, hp]
    exact if_neg fun h => by simp [h] at hu
  refine ⟨_, rfl, ?_⟩
  rw [migration_beginMove hf hw hva hv hh hs hwa hc, hb]
  rfl

end

end

/-! ### A migration that goes on -/

section
variable {s t : State} {id n : Nat} {m : Mig} (hm : Tbl.find s.migs id = some m) (ho : s.isOut m.ctx = false)
  (ht : (s.weirs = [] ∧ t = s) ∨ (s.weirs ≠ [] ∧ s.moveLines m.cls (m.moves.drop m.lines) m.lines = (n, t)))
include hm ho ht

/-- What a migration comes to once its lines have moved as far as the weirs let them. -/
theorem exec_migrationComplete : exec (.migrationComplete id) s = .next (
    if s.weirs ≠ [] ∧ n < m.moves.length then { t with migs := Tbl.put s.migs id { m with lines := n } }
    else (m.pages.foldl (fun (s : State) p => s.endMove m.ctx p) { t with migs := Tbl.del t.migs id }).replayAll m.ctx fun v =>
      m.pages.any fun p => v / 2 ^ p.2.1 == p.1 / 2 ^ p.2.1) := by
  refine congrArg Host.Outcome.next ?_
  rcases ht with ⟨hw, rfl⟩ | ⟨hw, hl⟩
  · simp only [hm, ho, hw, List.isEmpty_nil, Bool.not_true, Bool.false_and, Bool.false_eq_true, if_false, if_true, ne_eq,
      not_true_eq_false, false_and]
  · have hne : s.weirs.isEmpty = false := by simpa using hw
    simp only [hm, ho, hne, hl, Bool.not_false, Bool.true_and, Bool.false_eq_true, if_false, decide_eq_true_eq, ne_eq, hw,
      not_false_eq_true, true_and]

end

/-- Settles O47: by what the walk finds for the fault, and by how far the lines of a migration have come. -/
theorem pagesMove : Obligations.PagesMove := by
  refine ⟨fun s die level pte frames f e va hf hw hva => ⟨migration_replays hf hw hva, fun hv hh hs hwa hc =>
    ⟨migration_reports hf hw hva hv hh hs hwa hc, fun hu u fr => migration_begins hf hw hva hv hh hs hwa hc hu⟩⟩,
    fun s t id n m hm ho ht => ⟨fun h => ?_, fun hw hn => ?_⟩⟩
  · refine (exec_migrationComplete hm ho ht).trans (congrArg _ (if_neg fun hn => ?_))
    exact h.elim hn.1 (Nat.not_le.2 hn.2)
  · exact (exec_migrationComplete hm ho ht).trans (congrArg _ (if_pos ⟨hw, hn⟩))

end Sys2Proof.Machine
end


section
/-! The commands that a partition gives about a context it holds (R152, R155, R157, R190, R246, R289, R296, R298, R317, R333, R347, R351,
R352, R374): O52. -/

namespace Sys2Proof.Machine

/-! ### What acceptance leaves: what these commands read -/

section
variable (s : State) (h : HostHdr)

@[simp] theorem takeSeq_time : (s.takeSeq h).time = s.time := by rw [takeSeq_eq]
@[simp] theorem takeSeq_nextId : (s.takeSeq h).nextId = s.nextId := by rw [takeSeq_eq]
@[simp] theorem takeSeq_waits : (s.takeSeq h).waits = s.waits := by rw [takeSeq_eq]
@[simp] theorem takeSeq_held : (s.takeSeq h).held = s.held := by rw [takeSeq_eq]
@[simp] theorem takeSeq_gates : (s.takeSeq h).gates = s.gates := by rw [takeSeq_eq]
@[simp] theorem takeSeq_models : (s.takeSeq h).models = s.models := by rw [takeSeq_eq]
@[simp] theorem takeSeq_gateBad (n : Nat) (e : BitVec 512) : (s.takeSeq h).gateBad n e = s.gateBad n e := by rw [takeSeq_eq]; rfl
@[simp] theorem takeSeq_ctxsOf (n : Nat) : (s.takeSeq h).ctxsOf n = s.ctxsOf n := by rw [takeSeq_eq]; rfl
@[simp] theorem takeSeq_homeDie (n : Nat) : (s.takeSeq h).homeDie n = s.homeDie n := by rw [takeSeq_eq]; rfl
@[simp] theorem takeSeq_submitPred (n : Nat) (p : Option Nat) : (s.takeSeq h).submitPred n p = s.submitPred n p := by rw [takeSeq_eq]; rfl
@[simp] theorem takeSeq_clustersFree (n : Nat) (p : Part) (l : Option Nat) : (s.takeSeq h).clustersFree n p l = s.clustersFree n p l := by
  rw [takeSeq_eq]; rfl
@[simp] theorem takeSeq_hostReach (ctx va n : Nat) : (s.takeSeq h).hostReach ctx va n = s.hostReach ctx va n := by rw [takeSeq_eq]; rfl
@[simp] theorem takeSeq_hostGet (ctx va n : Nat) : (s.takeSeq h).hostGet ctx va n = s.hostGet ctx va n := by rw [takeSeq_eq]; rfl
@[simp] theorem takeSeq_recFault (ctx va n : Nat) (k : Need) : (s.takeSeq h).recFault ctx va n k = s.recFault ctx va n k := by rw [takeSeq_eq]; rfl
@[simp] theorem takeSeq_rec (ctx va : Nat) : (s.takeSeq h).rec_ ctx va = s.rec_ ctx va := by rw [takeSeq_eq]; rfl
@[simp] theorem takeSeq_vread (ctx va n : Nat) : (s.takeSeq h).vread ctx va n = s.vread ctx va n := by rw [takeSeq_eq]; rfl
@[simp] theorem takeSeq_ringCheck (ctx va : Nat) : (s.takeSeq h).ringCheck ctx va = s.ringCheck ctx va := by rw [takeSeq_eq]; rfl

end

section
variable {s : State} {h : HostHdr} {c : Context}

/-- A context that the command's partition holds. -/
theorem withCtx_holds (hh : Holds s h c) (k : Context → State) : s.withCtx h k = k c := by
  simp only [State.withCtx, hh.1, hh.2, if_true]

/-- A command, taken, about a context that its partition holds. -/
theorem hostCmd_holds {op : Nat} (ht : Takes s h op) (hh : Holds s h c) (k : State → Context → State) :
    hostCmd h op s (fun t => t.withCtx h (k t)) = .next (k (s.takeSeq h) c) := by
  rw [hostCmd_takes ht, withCtx_holds ((takeSeq_holds s h c).2 hh)]

/-- Work that needs no page to be brought in, or fails for a cause (R296, R298). -/
theorem workCmd_ok {k : State → Except GErr State} {t : State} (hk : k s = .ok t) : s.workCmd h k = t.reply h 0 [] := by
  simp only [State.workCmd, pageFuel, State.withPages, hk]

theorem workCmd_trap {k : State → Except GErr State} {t : Trap} (hk : k s = .error (.trap t)) :
    s.workCmd h k = s.refused h (classCode h.op) t.cause := by
  simp only [State.workCmd, pageFuel, State.withPages, hk, reject_refused]

/-! ### Gates (R333) -/

theorem exec_gateInstall {g : BitVec 10} {e : BitVec 512} (ht : Takes s h 0x0D) : exec (.gateInstall h g e) s = .next (
    if s.gateBad h.part e then (s.takeSeq h).refused h 0xEB 0xC0
    else ({ s.takeSeq h with gates := Tbl.put s.gates g.toNat (gateOwned e h.part) } : State).reply h 0 []) := by
  have hcode : classCode 0x0D = 0xEB := rfl
  simp only [exec, execGateInstall, hostCmd_takes ht, takeSeq_gateBad, takeSeq_gates, reject_refused, ht.2.code, hcode]

section
variable (hh : Holds s h c)
include hh

/-! ### Memory (R155, R157, R190) -/

theorem exec_map {l : List PteWrite} (ht : Takes s h 0x09) : exec (.map h l) s = .next (
    match l.foldlM (fun (s : State) p => s.writePte h.ctx p) (s.takeSeq h) with
    | some t => t.reply h 0 []
    | none => (s.takeSeq h).refused h 0xEA 0x11 (some 0)) := by
  have hcode : classCode 0x09 = 0xEA := rfl
  simp only [exec, execMap, hostCmd_holds ht hh, reject_refused, ht.2.code, hcode] <;> rfl

theorem exec_unmap {l : List Nat} (ht : Takes s h 0x0A) : exec (.unmap h l) s = .next (
    match l.foldlM (fun (s : State) va => s.unmapOne h.ctx va) (s.takeSeq h) with
    | some t => t.reply h 0 []
    | none => (s.takeSeq h).refused h 0xEA 0x11 (some 0)) := by
  have hcode : classCode 0x0A = 0xEA := rfl
  simp only [exec, execUnmap, hostCmd_holds ht hh, reject_refused, ht.2.code, hcode] <;> rfl

theorem write_puts {va : Nat} {l : List Byte} (ht : Takes s h 0x0B) (hr : s.hostReach h.ctx va l.length = none) :
    exec (.write h va l) s = .next (((s.takeSeq h).hostPut h.ctx va l).reply h 0 []) := by
  simp only [exec, execWrite, hostCmd_holds ht hh, takeSeq_hostReach, hr]

theorem read_gets {va n : Nat} (ht : Takes s h 0x0C) (hn : n ≤ 65504) (hr : s.hostReach h.ctx va n = none) :
    exec (.read h va n) s = .next ((s.takeSeq h).reply h 0 (s.hostGet h.ctx va n)) := by
  simp only [exec, execRead, hostCmd_holds ht hh, takeSeq_hostReach, takeSeq_hostGet, hr, if_neg (Nat.not_lt.2 hn)]

/-! ### Graphs and rings (R289, R296, R298) -/

theorem exec_graphSubmit {f : SubmitF} {pred : Option Nat} (ht : Takes s h 0x0E) (hr : c.run ≠ .killed)
    (hp : s.submitPred h.part f.pred = some pred) : exec (.graphSubmit h f) s = .next ((s.takeSeq h).workCmd h fun s =>
      s.startGraph h.ctx f.graph (s.homeDie h.part) f.arg pred) := by
  simp only [exec, execGraphSubmit, hostCmd_holds ht hh, takeSeq_submitPred, hp, if_neg hr]

theorem exec_graphStatus {va : Nat} (ht : Takes s h 0x0F) (hf : s.recFault h.ctx va 128 .read = none) :
    exec (.graphStatus h va) s = .next (
      if (s.rec_ h.ctx va).getLsbD 1023 then (s.takeSeq h).reply h 0 (s.vread h.ctx va 128)
      else (s.takeSeq h).refused h 0xEC 0xD0 (some 0)) := by
  have hcode : classCode 0x0F = 0xEC := rfl
  simp only [exec, execGraphStatus, hostCmd_holds ht hh, pageFuel, State.withPages, takeSeq_recFault, hf, takeSeq_rec, takeSeq_vread,
    reject_refused, ht.2.code, hcode]

theorem exec_signal {f : SignalF} (ht : Takes s h 0x10) (hr : c.run ≠ .killed) : exec (.signal h f) s = .next (
    match f with
    | .token va => (s.takeSeq h).workCmd h fun s => s.outsideToken h.ctx va (s.homeDie h.part)
    | .close va => (s.takeSeq h).workCmd h fun s => match s.ringCheck h.ctx va with
      | .ok b => .ok (s.putRing h.ctx va b.close)
      | .error e => .error e) := by
  simp only [exec, execSignal, hostCmd_holds ht hh]
  exact congrArg Host.Outcome.next ((if_neg hr).trans (by cases f <;> rfl))

theorem signal_closes {va : Nat} {b : RingBlk} (ht : Takes s h 0x10) (hr : c.run ≠ .killed) (hb : s.ringCheck h.ctx va = .ok b) :
    exec (.signal h (.close va)) s = .next (((s.takeSeq h).putRing h.ctx va b.close).reply h 0 []) := by
  refine (exec_signal hh ht hr).trans (congrArg Host.Outcome.next (workCmd_ok ?_))
  rw [takeSeq_ringCheck, hb]

theorem wait_stands {f : WaitF} (ht : Takes s h 0x11) : exec (.wait h f) s = .next { s.takeSeq h with
    nextId := s.nextId + 1
    waits := Tbl.put s.waits s.nextId ⟨h, h.ctx, f.cond, s.time, f.timeout⟩ } := by
  simp only [exec, execWait, hostCmd_holds ht hh, State.fresh, takeSeq_nextId, takeSeq_waits, takeSeq_time]

/-! ### Control (R317, R347, R351, R352) -/

omit hh in
theorem requestStop_running {ctx : Nat} (hf : Tbl.find s.ctxs ctx = some c) (hr : c.run = .running) :
    s.requestStop ctx = s.updCtx ctx fun c => { c with run := .stopping, since := s.time, acks := [], pstate := 0xCE } := by
  refine congrArg (fun l => { s with ctxs := l }) (?_ : Tbl.upd _ _ _ = Tbl.upd _ _ _)
  exact Tbl.upd_congr hf (if_pos hr)

theorem preempt_answered (ht : Takes s h 0x13) (hr : c.run = .stopped ∨ c.run = .killed) :
    exec (.preempt h none) s = .next ((s.takeSeq h).reply h 0 []) := by
  simp only [exec, execPreempt, hostCmd_holds ht hh, if_pos hr]

theorem preempt_stops (ht : Takes s h 0x13) (hr : c.run = .running) : exec (.preempt h none) s = .next { s.takeSeq h with
    held := s.held ++ [⟨h, h.ctx, h.part, none⟩]
    ctxs := Tbl.upd s.ctxs h.ctx fun c => { c with run := .stopping, since := s.time, acks := [], pstate := 0xCE } } := by
  have hn : ¬ (c.run = .stopped ∨ c.run = .killed) := by simp [hr]
  simp only [exec, execPreempt, hostCmd_holds ht hh, if_neg hn, requestStop_running ((takeSeq_holds s h c).2 hh).1 hr, State.updCtx,
    takeSeq_ctxs, takeSeq_held, takeSeq_time]

theorem preempt_swaps {i : Nat} {p q : Part} (ht : Takes s h 0x13) (hq : Tbl.find s.parts i = some q) (hp : Tbl.find s.parts h.part = some p)
    (hr : p.run = .resident) : ∃ t : State, t = (s.ctxsOf h.part).foldl State.requestStop (s.takeSeq h) ∧
      exec (.preempt h (some i)) s = .next { t with held := t.held ++ [⟨h, h.ctx, h.part, some i⟩] } := by
  refine ⟨_, rfl, ?_⟩
  have hn : (p.run != .resident) = false := by rw [hr]; rfl
  simp only [exec, execPreempt, hostCmd_holds ht hh, takeSeq_parts, hq, hp, Option.isNone_some, Option.any_some, hn, Bool.false_eq_true, if_false, takeSeq_ctxsOf]

theorem exec_resume_stopped {p : Part} (ht : Takes s h 0x14) (hp : Tbl.find s.parts h.part = some p) (hr : c.run = .stopped) :
    exec (.resume h) s = .next (
      if p.run ≠ .out then ((s.takeSeq h).resumeCtx h.ctx).reply h 0 []
      else if !s.clustersFree h.part p none then (s.takeSeq h).reject h 0xD2
      else (((s.takeSeq h).swapIn h.part p).resumeCtx h.ctx).reply h 0 []) := by
  simp only [exec, execResume, hostCmd_holds ht hh, takeSeq_parts, hp, hr, takeSeq_clustersFree]

theorem resume_refused (ht : Takes s h 0x14) (hr : c.run ≠ .stopped) :
    exec (.resume h) s = .next ((s.takeSeq h).refused h 0xEE 0xD1) := by
  have hcode : classCode 0x14 = 0xEE := rfl
  have hrej : (s.takeSeq h).reject h 0xD1 = (s.takeSeq h).refused h 0xEE 0xD1 := by rw [reject_refused, ht.2.code, hcode]
  simp only [exec, execResume, hostCmd_holds ht hh]
  cases e : c.run with
  | stopped => exact absurd e hr
  | _ => simp only [hrej]

theorem kill_answers (ht : Takes s h 0x15) : ∃ t : State, t = (s.takeSeq h).killCtx h.ctx none ∧
    exec (.kill h) s = .next (t.reply h 0 (if (Tbl.find t.ctxs h.ctx).any Context.abandoned then leBytes 8 0x51 else leBytes 8 0)) :=
  ⟨_, rfl, by simp only [exec, execKill, hostCmd_holds ht hh]⟩

theorem tierPolicy_sets {f : TierF} (ht : Takes s h 0x16) (hf : f.tier < 3) : exec (.tierPolicy h f) s = .next
    (((s.takeSeq h).updCtx h.ctx fun c => { c with tier := f.tier, pins := f.pin }).reply h 0 []) := by
  simp only [exec, execTierPolicy, hostCmd_holds ht hh, if_neg (Nat.not_le.2 hf)]

/-! ### Models (R246) -/

theorem exec_repairModel {f : ModelF} (ht : Takes s h 0x17) : exec (.repairModel h f) s = .next (
    match Tbl.find s.models (h.ctx * 16 + f.slot.val), f.rcd.getLsbD 1023 with
    | some m, true =>
      if modelBad f.rcd then (s.takeSeq h).refused h 0xEF 0x11 (some 1)
      else if modelFixed f.rcd != modelFixed m.rcd then (s.takeSeq h).refused h 0xEF 0xD1 (some 1)
      else ({ s.takeSeq h with models := Tbl.put s.models (h.ctx * 16 + f.slot.val) { m with rcd := f.rcd } } : State).reply h 0 []
    | some _, false => ((s.takeSeq h).uninstallModel (h.ctx * 16 + f.slot.val)).reply h 0 []
    | none, true =>
      if modelBad f.rcd then (s.takeSeq h).refused h 0xEF 0x11 (some 1)
      else match (s.takeSeq h).installModel (s.homeDie h.part) h.ctx f.slot.val f.rcd with
        | some s => s.reply h 0 []
        | none => (s.takeSeq h).refused h 0xEF 0xD2
    | none, false => (s.takeSeq h).refused h 0xEF 0xD0 (some 0)) := by
  have hcode : classCode 0x17 = 0xEF := rfl
  simp only [exec, execRepairModel, hostCmd_holds ht hh, takeSeq_models, takeSeq_homeDie, reject_refused, ht.2.code, hcode] <;> rfl

end

end

/-- Settles O52: each command, taken, does what its own lemma above says of the context that its partition holds. -/
theorem partitionCommands : Obligations.PartitionCommands := by
  rintro s _ h c rfl
  refine ⟨fun g e ht => ⟨fun hb => ?_, fun hb => ?_⟩, fun hh => ⟨fun l ht => ⟨fun t hl => ?_, fun hl => ?_⟩, fun l ht => ⟨fun t hl => ?_, fun hl => ?_⟩,
    fun va l ht hr => write_puts hh ht hr, fun va n ht hn hr => read_gets hh ht hn hr, fun f pred ht hr hp => ⟨fun t hg => ?_, fun t hg => ?_⟩,
    fun va ht hf => ⟨fun hv => ?_, fun hv => ?_⟩, fun ht hr => ⟨fun va t hg => ?_, fun va b hb => signal_closes hh ht hr hb⟩,
    fun f ht => wait_stands hh ht, fun ht => ⟨preempt_answered hh ht, preempt_stops hh ht, fun i q p hq hp hr => preempt_swaps hh ht hq hp hr⟩,
    fun p ht hp => ⟨fun hr ho => ?_, fun hr ho hf => ?_, resume_refused hh ht⟩, kill_answers hh, fun f ht => tierPolicy_sets hh ht, ?_⟩⟩
  · rw [exec_gateInstall ht, if_pos hb]
  · rw [exec_gateInstall ht, hb, if_neg Bool.false_ne_true]
  · rw [exec_map hh ht, hl]
  · rw [exec_map hh ht, hl]
  · rw [exec_unmap hh ht, hl]
  · rw [exec_unmap hh ht, hl]
  · rw [exec_graphSubmit hh ht hr hp, workCmd_ok (by rw [takeSeq_homeDie]; exact hg)]
  · rw [exec_graphSubmit hh ht hr hp, workCmd_trap (by rw [takeSeq_homeDie]; exact hg), ht.2.code]
    rfl
  · rw [exec_graphStatus hh ht hf, if_pos hv]
  · rw [exec_graphStatus hh ht hf, hv, if_neg Bool.false_ne_true]
  · rw [exec_signal hh ht hr]
    exact congrArg _ (workCmd_ok (by rw [takeSeq_homeDie]; exact hg))
  · rw [exec_resume_stopped hh ht hp hr, if_pos ho]
  · rw [exec_resume_stopped hh ht hp hr, if_neg (not_not.2 ho), hf]
    rfl
  · rintro f _ ht rfl
    refine ⟨fun hm hv hb => ⟨fun t hi => ?_, fun hi => ?_⟩, fun hm hv => ?_, fun m hm hv hb he => ?_, fun m hm hv => ?_⟩
    · simp only [exec_repairModel hh ht, hm, hv, hb, hi, Bool.false_eq_true, if_false]
    · simp only [exec_repairModel hh ht, hm, hv, hb, hi, Bool.false_eq_true, if_false]
    · simp only [exec_repairModel hh ht, hm, hv]
    · simp only [exec_repairModel hh ht, hm, hv, hb, he, Bool.false_eq_true, if_false, bne_self_eq_false]
    · simp only [exec_repairModel hh ht, hm, hv]

end Sys2Proof.Machine
end


section
/-! The events of launches, rings, graphs and crews (R111, R276, R281, R285, R286, R288-R291, R299-R302): O30. -/

namespace Sys2Proof.Machine

section
variable {s : State}

/-! ### Launches and their distributor (R285, R286) -/

theorem launchWait_traps {w i t : Nat} {x : Who} (hx : s.strandAt w i = some x) (hp : x.st.parked = some (.store, t))
    (ht : t + 2 ^ 24 ≤ s.time) (ha : s.strandAwake x = true) :
    exec (.launchWaitTimeout (.strand w i)) s = .next (s.trapAt w i { cause := 0xA0, lanes := x.st.em }) := by
  have hn : ¬ (s.time < t + 2 ^ 24 ∨ ¬ s.strandAwake x = true) := not_or.2 ⟨Nat.not_lt.2 ht, not_not.2 ha⟩
  simp only [exec, execLaunchWaitTimeout, hx, hp, if_neg hn]

section
variable {die : Nat} {r : WdReq} {l : Launch} {w : Warp} {d : Dom}
  (hr : (s.wdReqs.find? fun r => r.die == die && (Tbl.find s.warps r.wid).isSome) = some r)
  (hl : Tbl.find s.launches r.launch = some l) (hw : Tbl.find s.warps r.wid = some w) (hd : w.dom r.dom = some d)
include hr hl hw hd

/-- What a distributor answers its oldest request with. -/
theorem exec_workDistributorAnswer : exec (.workDistributorAnswer die) s = .next ((({ s with
      wdReqs := s.wdReqs.erase r
      launches := Tbl.put s.launches r.launch
        { l with counter := if l.counter < dfield l.desc 471 440 then l.counter + 1 else l.counter } } : State).setScalar (coreOf r.wid) d r.dst
        (if l.counter < dfield l.desc 471 440 then BitVec.ofNat 32 l.counter else 0xFFFFFFFF)).countBytes r.wid r.dom r.pair 4).1 := by
  simp only [exec, execWorkDistributorAnswer, hr, hl, hw, hd, Option.bind_some]

theorem distributor_counts (h : l.counter < dfield l.desc 471 440) : exec (.workDistributorAnswer die) s = .next ((({ s with
      wdReqs := s.wdReqs.erase r
      launches := Tbl.put s.launches r.launch { l with counter := l.counter + 1 } } : State).setScalar (coreOf r.wid) d r.dst
        (BitVec.ofNat 32 l.counter)).countBytes r.wid r.dom r.pair 4).1 := by
  rw [exec_workDistributorAnswer hr hl hw hd]
  simp only [if_pos h]

theorem distributor_exhausted (h : dfield l.desc 471 440 ≤ l.counter) : exec (.workDistributorAnswer die) s = .next ((({ s with
      wdReqs := s.wdReqs.erase r
      launches := Tbl.put s.launches r.launch l } : State).setScalar (coreOf r.wid) d r.dst 0xFFFFFFFF).countBytes r.wid r.dom r.pair 4).1 := by
  rw [exec_workDistributorAnswer hr hl hw hd]
  simp only [if_neg (Nat.not_lt.2 h)]

end

/-! ### Rings and pipelines (R288, R290, R291) -/

theorem ring_serves {w i : Nat} {x : Who} {q : RingWait} {b b' : RingBlk} {t : Word} (hx : s.strandAt w i = some x)
    (hq : (s.ringWaits.find? fun w => w.agent == Agent.strand x.wid x.sid) = some q)
    (hc : ∀ c, Tbl.find s.ctxs q.ctx = some c → c.run = .running) (hb : s.ringCheck q.ctx q.block = .ok b) (ht : RingTakes b q.op b' t)
    (ho : s.ringQueued q.ctx q.block q.op (s.ringWaits.takeWhile fun p => p != q) = false) :
    exec (.ringWaitSatisfied (.strand w i)) s = .next
      ((({ s with ringWaits := s.ringWaits.erase q } : State).putRing q.ctx q.block b').ringDone x q.op t) := by
  obtain ⟨rfl, rfl, -⟩ := strandAt_spec hx
  have hrun : ((Tbl.find s.ctxs q.ctx).any fun c => c.run != .running) = false := by
    cases hf : Tbl.find s.ctxs q.ctx with
    | none => rfl
    | some c => simp [hc c hf]
  simp only [exec, execRingWaitSatisfied, hx, hq, hrun, hb, step_of_takes ht, ho, Bool.false_eq_true, if_false]

section
variable {lid i : Nat} {l : Launch} {g : Stage} (hl : Tbl.find s.launches lid = some l) (hg : l.stages[i]? = some g)
include hl hg

/-- What a stage whose input has been high comes to (R288). -/
theorem exec_pipelineReassign_high {t : Nat} (hh : g.high = some t) (ht : t + 4096 ≤ s.time) (ho : l.out = none) (hw : l.whole = true)
    (hn : l.stageOver i g = false) : exec (.pipelineReassign lid i) s = .next (
      match s.moveCrew lid l i with
      | some u => { u with launches := Tbl.upd u.launches lid fun l =>
          { l with stages := l.stages.modify i fun g => { g with high := g.high.map fun _ => u.time } } }
      | none => { s with launches := Tbl.upd s.launches lid fun l =>
          { l with refuse := l.refuse + 1, stages := l.stages.modify i fun g => { g with high := g.high.map fun _ => s.time } } }) := by
  have hnot : ¬ (s.time < t + 4096 ∨ l.out.isSome = true ∨ ¬ l.whole = true) := by
    simpa [ho, hw] using ht
  simp only [exec, execPipelineReassign, hl, hg, hn, hh, Bool.false_eq_true, if_false, if_neg hnot, Tbl.upd_upd] <;> rfl

theorem pipeline_closes (hn : l.stageOver i g = true) (ho : g.outr ≠ 0) (hf : s.rangeFault l.ctx g.outr 64 .both = none) :
    exec (.pipelineReassign lid i) s = .next { s.putRing l.ctx g.outr (s.ringAt l.ctx g.outr).close with
      launches := Tbl.upd (s.putRing l.ctx g.outr (s.ringAt l.ctx g.outr).close).launches lid fun l =>
        { l with stages := l.stages.modify i fun g => { g with shut := true } } } := by
  simp only [exec, execPipelineReassign, hl, hg, hn, if_true, State.shutRing, if_neg ho, hf]

end

/-! ### Graphs (R299-R302) -/

theorem withGraph_present {die ctx g : Nat} (h : s.graphPage ctx g = none) (k : State) : s.withGraph die ctx g k = k := by
  simp only [State.withGraph, h]

section
variable {id : Nat} {w : Work} (hw : Tbl.find s.works id = some w) (hr : s.graphRuns w.ctx = true) (hp : s.graphPage w.ctx w.graph = none)
include hw hr

theorem exec_graphNodeEnd : exec (.graphNodeEnd id) s = .next (s.nodeEnd id) := by
  simp only [exec, execGraphNodeEnd, hw, Option.any_some, hr, if_true]

include hp

theorem node_ended {o c : Nat} (h : w.st = .ended o c) : exec (.graphNodeEnd id) s = .next (s.endNode id w o c 0) := by
  simp only [exec_graphNodeEnd hw hr, State.nodeEnd, hw, h, withGraph_present hp]

/-- A node whose launch has an outcome ends with it. -/
theorem node_launch_over {n : Nat} {l : Launch} {o : LOut} (h : w.st = .launched n) (hl : Tbl.find s.launches n = some l) :
    l.out = some o → exec (.graphNodeEnd id) s = .next (match o with
      | .complete => s.endNode id w 0 0 0
      | .quenched => s.endNode id w 1 l.qsum l.qsum
      | .faulted => s.endNode id w 2 (l.fcause.getD 0) 0
      | .killed => s.endNode id w 2 0xCD 0) := by
  intro ho
  simp only [exec_graphNodeEnd hw hr, State.nodeEnd, hw, h, hl, ho, withGraph_present hp] <;> rfl

end

section
variable {id i : Nat} {w : CWalk} {rest : List Nat} (hw : Tbl.find s.cwalks id = some w) (hr : s.graphRuns w.ctx = true)
  (hp : s.graphPage w.ctx w.graph = none) (ht : w.todo = i :: rest)
include hw hr hp ht

/-- What a cancellation does at its next node. -/
theorem exec_walkStep : exec (.graphCancelWalkStep id) s = .next (
    if nStat (s.rec_ w.ctx (nodeVa w.graph i)) = 0 then ({ s.cancelNode w.ctx w.graph i with
      cwalks := Tbl.put (s.cancelNode w.ctx w.graph i).cwalks id
        { w with todo := (s.cancelNode w.ctx w.graph i).succs w.ctx (s.rec_ w.ctx (nodeVa w.graph i)) ++ rest } } : State).graphEnd
          w.ctx w.graph
    else { s with cwalks := Tbl.put s.cwalks id { w with todo := rest } }) := by
  simp only [exec, execGraphCancelWalkStep, hw, Option.any_some, hr, if_true, State.walkStep, ht, withGraph_present hp]

end

/-! ### The arbiter, crews and front-end contexts (R111, R220, R281) -/

/-- One visit of an arbiter, while a queue of its die holds a launch. -/
theorem arbiter_visits {die i part cls : Nat} (hq : ∃ q ∈ s.queuesOf die, s.queue q.1 die q.2 ≠ [])
    (hi : i = ((Tbl.find s.visiting die).getD 0) % (s.queuesOf die).length) (hg : (s.queuesOf die)[i]? = some (part, cls)) :
    ∃ t, exec (.arbiterRun die) s = .next { t with visiting := Tbl.put t.visiting die ((i + 1) % (s.queuesOf die).length) } ∧
      t = if s.queue part die cls = [] then s.setDeficit part die cls 0
        else if s.deficit part die cls ≤ 0 then s.setDeficit part die cls (s.deficit part die cls + s.quantum part cls)
        else (s.placeHeads part die cls 18432).headPage part die cls := by
  subst hi
  have hn : ((s.queuesOf die).all fun q => (s.queue q.1 die q.2).isEmpty) = false := by
    obtain ⟨q, hq, hne⟩ := hq
    rw [List.all_eq_false]
    exact ⟨q, hq, by simpa using hne⟩
  refine ⟨_, ?_, rfl⟩
  simp only [exec, execArbiterRun, hn, Bool.false_eq_true, if_false, hg, List.isEmpty_iff]

theorem crew_ends {cid : Nat} {k : Crew} (hk : Tbl.find s.crews cid = some k) (ho : s.crewOver cid k = true) :
    exec (.crewEnd cid) s = .next (s.endCrew cid k) := by
  simp only [exec, execCrewEnd, hk, ho, if_true]

theorem frontEnd_stops {crew t : Nat} {k : Crew} {f : FrontEnd} (hk : Tbl.find s.crews crew = some k) (hf : k.fe = some f)
    (hs : f.stalled = some (.queue, t)) (hn : f.stopped = none) (ht : t + 2 ^ 20 ≤ s.time) (ha : s.awake (s.crewCtx k) = true) :
    exec (.frontEndStallWatchdog crew) s = .next (s.feStop crew { cause := 0x2D }) := by
  have hlt : decide (s.time < t + 2 ^ 20) = false := decide_eq_false (Nat.not_lt.2 ht)
  simp only [exec, execFrontEndStallWatchdog, hk, hf, Option.bind_some, Option.map_some, hs, hn, hlt, ha, Option.isSome_none, Bool.not_true,
    Bool.or_false, Bool.false_eq_true, if_false]

end

/-- Settles O30: each event, due, by its own lemma above. -/
theorem schedulingEventsHappen : Obligations.SchedulingEventsHappen := by
  refine fun s => ⟨fun w i x t => launchWait_traps, fun die r l w d hr hl hw hd => ⟨distributor_counts hr hl hw hd, distributor_exhausted hr hl hw hd⟩,
    fun w i x q b b' t => ring_serves, fun lid i t l g hl hg hh ht ho hw hn => ⟨fun u hu => ?_, fun hu => ?_⟩,
    fun lid i l g hl hg hn ho hf => pipeline_closes hl hg hn ho hf,
    fun id w hw hr hp => ⟨fun o c => node_ended hw hr hp, fun n l h hl => ⟨node_launch_over hw hr hp h hl, node_launch_over hw hr hp h hl,
      node_launch_over hw hr hp h hl, node_launch_over hw hr hp h hl⟩⟩,
    fun id i w rest hw hr hp ht => ⟨fun hn => ?_, fun hn => ?_⟩, fun die i part cls hq hi hg => ?_, fun cid k => crew_ends,
    fun crew t k f => frontEnd_stops⟩
  · rw [exec_pipelineReassign_high hl hg hh ht ho hw hn, hu]
  · rw [exec_pipelineReassign_high hl hg hh ht ho hw hn, hu]
  · rw [exec_walkStep hw hr hp ht, if_pos hn]
  · rw [exec_walkStep hw hr hp ht, if_neg hn]
  · obtain ⟨t, ht, rfl⟩ := arbiter_visits hq hi hg
    refine ⟨_, ht, fun he => if_pos he, fun hne hd => ?_, fun hne hd => ?_⟩
    · rw [if_neg hne, if_pos hd]
    · rw [if_neg hne, if_neg (not_le.2 hd)]

end Sys2Proof.Machine
end


section
/-! Strands fork and fuse (R104-R106). -/

namespace Sys2Proof.Machine

/-! ### Tables -/

theorem Tbl.find_foldl_del {α : Type} (l : List Nat) (t : Tbl α) (j : Nat) :
    Tbl.find (l.foldl (fun t i => Tbl.del t i) t) j = if j ∈ l then none else Tbl.find t j := by
  induction l generalizing t with
  | nil => simp
  | cons i l ih =>
    rw [List.foldl_cons, ih, Tbl.find_del]
    by_cases h : i = j
    · simp [h]
    · simp [h, Ne.symm h]

/-- Entries put at distinct keys. -/
theorem Tbl.find_foldl_put {α β : Type} (key : β → Nat) (val : β → α) (l : List β) (hl : (l.map key).Nodup) (t : Tbl α) :
    (∀ p ∈ l, Tbl.find (l.foldl (fun t p => Tbl.put t (key p) (val p)) t) (key p) = some (val p)) ∧
      ∀ j, j ∉ l.map key → Tbl.find (l.foldl (fun t p => Tbl.put t (key p) (val p)) t) j = Tbl.find t j := by
  induction l generalizing t with
  | nil => exact ⟨fun _ h => absurd h List.not_mem_nil, fun _ _ => rfl⟩
  | cons q l ih =>
    obtain ⟨hq, hl⟩ := List.nodup_cons.1 hl
    obtain ⟨hin, hout⟩ := ih hl (Tbl.put t (key q) (val q))
    refine ⟨fun p hp => ?_, fun j hj => ?_⟩
    · rcases List.mem_cons.1 hp with rfl | hp
      · exact (hout _ hq).trans (Tbl.find_put_self ..)
      · exact hin p hp
    · rw [List.map_cons, List.mem_cons, not_or] at hj
      exact (hout j hj.2).trans (Tbl.find_put_ne _ _ (Ne.symm hj.1))

theorem Tbl.find_isSome_of_mem_keys {α : Type} {t : Tbl α} {i : Nat} (h : i ∈ Tbl.keys t) : (Tbl.find t i).isSome = true := by
  induction t with
  | nil => exact absurd h List.not_mem_nil
  | cons p t ih =>
    rw [Tbl.find]
    split
    · rfl
    · next hne => exact ih ((List.mem_cons.1 h).resolve_left (Ne.symm hne))

/-! ### A fork (R104, R106) -/

section
variable {s : State} {x : Who} {join : Option Pc} {depth : Nat} {keep : Side} {others : List Side} {taken : Bool}

/-- The lanes of a fork. -/
def forkLanes (keep : Side) (others : List Side) : Mask := keep.em ||| (others.map Side.em).foldl (· ||| ·) 0

/-- The side of a fork that keeps the entry, with the lanes that are on no side. -/
def Who.forkOwn (x : Who) (s : State) (all : Mask) (sd : Side) : Strand :=
  { (x.st.jump sd.pc) with em := sd.em, mem := sd.em ||| (x.st.mem &&& ~~~all), rstack := sd.rstack, split := some s.nextId }

/-- A side of a fork in an entry of its own. -/
def Who.forkSide (x : Who) (s : State) (sd : Side) : Strand :=
  { (x.st.jump sd.pc) with
    em := sd.em, mem := sd.em, rstack := sd.rstack, split := some s.nextId, grants := [], stepArm := 0,
    pends := x.st.pends.map Pend.shadow, past := s.madeBy (.strand x.wid x.sid) ++ x.st.past }

/-- A warp whose strand has forked: `first` keeps the entry, each side of `placed` has the next free one, and `left` are records. -/
def Who.forked (x : Who) (s : State) (join : Option Pc) (depth : Nat) (all : Mask) (first : Side) (placed left : List Side) (w : Warp) : Warp :=
  { w with
    strands := (placed.zip x.w.freeEntries).foldl (fun t p => Tbl.put t p.2 (x.forkSide s p.1))
      (Tbl.put x.w.strands x.sid (x.forkOwn s all first))
    splits := Tbl.put x.w.splits s.nextId ⟨join, depth, x.st.split, []⟩
    deferred := (left.map fun sd => (⟨x.sid, sd.pc, none, sd.em, sd.em, some s.nextId, sd.rstack, x.st.dom⟩ : Deferred)).reverse ++ w.deferred }

/-- What a fork comes to. -/
theorem fork_fits (h : others.length ≤ x.w.freeEntries.length) : s.fork x join depth keep others taken =
    some (({ s with nextId := s.nextId + 1 } : State).updWarp x.wid (x.forked s join depth (forkLanes keep others) keep others [])) := by
  simp only [State.fork, if_pos h]
  rfl

theorem fork_serial {first : Side} {more : List Side} (hs : (if taken then others ++ [keep] else keep :: others) = first :: more)
    (h : x.w.freeEntries.length < others.length) : s.fork x join depth keep others taken =
      if 16 < x.w.deferred.length + (more.drop x.w.freeEntries.length).length then none
      else some (({ s with nextId := s.nextId + 1 } : State).updWarp x.wid (x.forked s join depth (forkLanes keep others) first
        more (more.drop x.w.freeEntries.length))) := by
  simp only [State.fork, if_neg (Nat.not_le.2 h), hs]
  rfl

theorem freeEntries_nodup (w : Warp) : w.freeEntries.Nodup := List.Nodup.filter _ List.nodup_range

theorem map_snd_zip_take {α β : Type} (a : List α) (b : List β) : (a.zip b).map Prod.snd = b.take a.length := by
  rw [List.zip_eq_zip_take_min, List.map_snd_zip (by simp)]
  rcases Nat.le_total a.length b.length with h | h
  · rw [Nat.min_eq_left h]
  · rw [Nat.min_eq_right h, List.take_of_length_le h, List.take_of_length_le (Nat.le_refl _)]

/-- A warp that a strand has forked in. -/
theorem forked_spec (hw : Tbl.find s.warps x.wid = some x.w) (hst : Tbl.find x.w.strands x.sid = some x.st) (all : Mask) (first : Side)
    (more left : List Side) :
    Forked s x join depth all first (more.take x.w.freeEntries.length) left
      (({ s with nextId := s.nextId + 1 } : State).updWarp x.wid (x.forked s join depth all first more left)) := by
  have hfree : x.sid ∉ x.w.freeEntries := fun h => by
    have := (List.mem_filter.1 h).2
    rw [hst] at this
    exact Bool.false_ne_true this
  have hkeys : (more.zip x.w.freeEntries).map Prod.snd = x.w.freeEntries.take (more.take x.w.freeEntries.length).length := by
    rw [map_snd_zip_take, List.length_take, Nat.min_comm, ← List.take_take, List.take_length]
  have hnd : ((more.zip x.w.freeEntries).map Prod.snd).Nodup := by
    rw [hkeys]
    exact (freeEntries_nodup _).sublist (List.take_sublist _ _)
  obtain ⟨hin, hout⟩ := Tbl.find_foldl_put Prod.snd (fun p => x.forkSide s p.1) (more.zip x.w.freeEntries) hnd
    (Tbl.put x.w.strands x.sid (x.forkOwn s all first))
  have hside : ∀ sd : Side, (x.forkSide s sd).sideOf x sd sd.em s.nextId := fun sd => ⟨rfl, rfl, rfl, rfl, rfl, rfl, rfl, rfl, rfl⟩
  refine ⟨rfl, fun w h => ?_, x.forked s join depth all first more left x.w, ?_, rfl, ⟨_, (hout x.sid ?_).trans (Tbl.find_put_self ..),
    rfl, rfl, rfl, rfl, rfl, rfl, rfl, rfl, rfl⟩, fun j sd e hj he => ⟨_, hin (sd, e) ?_, hside sd⟩, fun i hi hn => ?_, ?_⟩
  · exact (Tbl.find_upd ..).trans (if_neg (Ne.symm h))
  · exact (Tbl.find_upd ..).trans ((if_pos rfl).trans (congrArg _ hw))
  · rw [hkeys]
    exact fun h => hfree (List.mem_of_mem_take h)
  · refine List.mem_of_getElem? (i := j) (List.getElem?_zip_eq_some.2 ⟨?_, he⟩)
    rw [List.getElem?_take] at hj
    exact (Option.ite_none_right_eq_some.1 hj).2
  · exact (hout i (hkeys ▸ hn)).trans (Tbl.find_put_ne _ _ (Ne.symm hi))
  · rw [List.map_reverse]
    rfl

/-- All sides but the first are as many as those that do not keep the entry. -/
theorem length_of_sides {first : Side} {more : List Side} (hs : (if taken then others ++ [keep] else keep :: others) = first :: more) :
    more.length = others.length := by
  have := congrArg List.length hs
  cases taken <;> simpa using this.symm

/-- Forks come to what R104 and R106 say. -/
theorem fork_forks (hw : Tbl.find s.warps x.wid = some x.w) (hst : Tbl.find x.w.strands x.sid = some x.st) :
    Forks s x join depth keep others taken := by
  refine ⟨fun h => ⟨_, fork_fits h, ?_⟩, fun first more hs h hn => ?_, fun h hn => ?_⟩
  · have := forked_spec (join := join) (depth := depth) hw hst (forkLanes keep others) keep others []
    rwa [List.take_of_length_le h] at this
  · refine ⟨_, (fork_serial hs h).trans (if_neg ?_), forked_spec hw hst _ first more _⟩
    rw [List.length_drop, length_of_sides hs]
    exact Nat.not_lt.2 hn
  · obtain ⟨first, more, hs⟩ : ∃ first more, (if taken then others ++ [keep] else keep :: others) = first :: more := by
      cases taken with
      | false => exact ⟨_, _, rfl⟩
      | true => exact List.exists_cons_of_ne_nil (by simp)
    refine (fork_serial hs h).trans (if_pos ?_)
    rw [List.length_drop, length_of_sides hs]
    exact hn

end

/-! ### A fuse (R105) -/

section
variable {s : State} {wid k : Nat} {w : Warp} {a : Strand} {rest : List Nat} {mates : List Aside} {f : Strand → Strand}

/-- The strand that others have fused into, with lanes that had been set aside. -/
def Strand.fusion (a : Strand) (all : List Strand) (more : List (Mask × Mask)) : Strand :=
  { a with
    em := (all.map Strand.em ++ more.map Prod.fst).foldl (· ||| ·) 0
    mem := (all.map Strand.mem ++ more.map Prod.snd).foldl (· ||| ·) 0
    parked := none
    pends := fusePends (all.map Strand.pends).flatten
    fenced := (all.map Strand.fenced).flatten
    past := (all.map Strand.past).flatten }

/-- A warp whose strands of the list have fused into one. -/
def Warp.fused (w : Warp) (k : Nat) (rest : List Nat) (b : Strand) : Warp :=
  { w with strands := rest.foldl (fun t i => Tbl.del t i) (Tbl.put w.strands k b) }.inherit k rest

/-- The entries of a list of strands. -/
def Warp.pick (w : Warp) (l : List Nat) : List Strand := l.filterMap fun i => Tbl.find w.strands i

theorem fuse_eq (hw : Tbl.find s.warps wid = some w) (hk : Tbl.find w.strands k = some a) (more : List (Mask × Mask)) :
    s.fuse wid (k :: rest) more f =
      (s.updWarp wid fun v => v.fused k rest (f (a.fusion (w.pick (k :: rest)) more))).adopt wid k rest := by
  simp only [State.fuse, hw, hk]
  refine congrArg (fun t : State => t.adopt wid k rest) (congrArg (fun l => { s with warps := l }) ?_)
  exact Tbl.upd_congr hw rfl

theorem fused_strand (b : Strand) (hk : k ∉ rest) : Tbl.find (w.fused k rest b).strands k = some b :=
  (Tbl.find_foldl_del ..).trans ((if_neg hk).trans (Tbl.find_put_self ..))

/-- Strands have fused, whatever becomes of the rest of their warp (R105). -/
theorem fuse_fused (hw : Tbl.find s.warps wid = some w) (hk : Tbl.find w.strands k = some a) (hnd : (k :: rest).Nodup)
    (hf : ∀ b : Strand, (f b).em = b.em ∧ (f b).mem = b.mem ∧ (f b).rstack = b.rstack ∧ (f b).dom = b.dom ∧ (f b).level = b.level ∧
      (b.parked = none → (f b).parked = none)) {g : Warp → Warp} (hg : ∀ v, (g v).strands = v.strands) :
    Fused s wid w k rest mates ((s.fuse wid (k :: rest) (mates.map fun a => (a.em, a.mem)) f).updWarp wid g)
      (g (w.fused k rest (f (a.fusion (w.pick (k :: rest)) (mates.map fun a => (a.em, a.mem)))))) := by
  have hnot : k ∉ rest := (List.nodup_cons.1 hnd).1
  rw [fuse_eq hw hk]
  refine ⟨rfl, fun i hi => ?_, ?_, fun b hb => ⟨_, (congrArg (fun t => Tbl.find t k) (hg _)).trans (fused_strand _ hnot), ?_⟩,
    fun i hi hne => ?_, fun i hi => ?_, ?_⟩
  · refine (Tbl.find_upd ..).trans ((if_neg (Ne.symm hi)).trans ?_)
    exact (Tbl.find_upd ..).trans (if_neg (Ne.symm hi))
  · refine (Tbl.find_upd ..).trans ((if_pos rfl).trans ?_)
    exact congrArg (Option.map g) ((Tbl.find_upd ..).trans ((if_pos rfl).trans (congrArg _ hw)))
  · obtain rfl : a = b := Option.some.inj (hk.symm.trans hb)
    obtain ⟨hem, hmem, hr, hd, hl, hp⟩ := hf (a.fusion (w.pick (k :: rest)) (mates.map fun a => (a.em, a.mem)))
    refine ⟨hem.trans ?_, hmem.trans ?_, hr, hd, hl, hp rfl⟩
    · simp only [Strand.fusion, Warp.pick, List.map_filterMap, List.map_map]
      rfl
    · simp only [Strand.fusion, Warp.pick, List.map_filterMap, List.map_map]
      rfl
  · rw [hg]
    exact (Tbl.find_foldl_del ..).trans (if_pos hi)
  · rw [hg]
    obtain ⟨hk', hi'⟩ := not_or.1 (List.mem_cons.not.1 hi)
    exact (Tbl.find_foldl_del ..).trans ((if_neg hi').trans (Tbl.find_put_ne _ _ (Ne.symm hk')))
  · refine List.map_congr_left fun p _ => ?_
    dsimp only
    cases p.2.agent <;> rfl

end

end Sys2Proof.Machine
end


section
/-! Strands meet at joins and barriers, and end (R66, R105, R106, R122). -/

namespace Sys2Proof.Machine

/-! ### A barrier releases a warp (R122) -/

theorem eraseDups_const {α : Type} [BEq α] [LawfulBEq α] {l : List α} {e : α} (hne : l ≠ []) (h : ∀ b ∈ l, b = e) : l.eraseDups = [e] := by
  obtain ⟨n, hn⟩ := Nat.exists_eq_succ_of_ne_zero (mt List.length_eq_zero_iff.1 hne)
  rw [List.eq_replicate_iff.2 ⟨rfl, h⟩, hn, List.replicate_succ, List.eraseDups_cons]
  simp

theorem updWarp_updWarp (s : State) (i : Nat) (f g : Warp → Warp) : (s.updWarp i f).updWarp i g = s.updWarp i fun w => g (f w) := by
  simp only [State.updWarp, Tbl.upd_upd]

/-- Where a strand stands at a barrier (R122). -/
def Strand.barKey (st : Strand) : Option (Pc × Nat) :=
  match st.parked with
  | some (.bar _, _) => some (st.pc, st.rstack.length)
  | _ => none

/-- Lanes set aside at the barrier that strands at one place stand at (R122). -/
def Aside.atBar (key : Pc × Nat) (a : Aside) : Bool := a.wait.isBar && (a.pc, a.rstack.length) == key

/-- Lanes set aside at a barrier go on behind it as a record (R122). -/
def Aside.past (a : Aside) : Deferred :=
  ⟨a.holder, (afterBar a.pc a.clause).1, (afterBar a.pc a.clause).2, a.em, a.mem, a.split, a.rstack, a.dom⟩

/-- The strands at one place before a barrier fuse behind it. -/
def State.releaseAt (s : State) (wid : Nat) (key : Pc × Nat) : State :=
  match Tbl.find s.warps wid with
  | none => s
  | some w =>
    let ids := w.strands.filterMap fun p => if (p.2.pc, p.2.rstack.length) = key ∧ p.2.parked.any (fun q => q.1.isBar) then some p.1 else none
    let mates := w.asides.filter (Aside.atBar key)
    (s.fuse wid ids (mates.map fun a => (a.em, a.mem)) fun st =>
      { (st.advance 1) with split := w.commonSplit ids (mates.map Aside.split) }).updWarp wid fun w =>
        { w with asides := w.asides.filter fun a => !a.atBar key }

/-- Lanes set aside at other barriers go on as records. -/
def Warp.asidesPast (w : Warp) : Warp :=
  { w with
    asides := w.asides.filter fun a => !a.wait.isBar
    deferred := ((w.asides.filter fun a => a.wait.isBar).map Aside.past) ++ w.deferred }

theorem releaseWarp_eq {s : State} {wid : Nat} {w : Warp} (hw : Tbl.find s.warps wid = some w) : s.releaseWarp wid =
    ((w.strands.filterMap fun p => p.2.barKey).eraseDups.foldl (fun s key => s.releaseAt wid key) s).updWarp wid Warp.asidesPast := by
  simp only [State.releaseWarp, hw]
  rfl

/-- What the release of the one barrier leaves of the lanes set aside. -/
def Warp.pastBar (w : Warp) (key : Pc × Nat) : Warp :=
  { w with
    asides := w.asides.filter fun a => !a.wait.isBar
    deferred := ((w.asides.filter fun a => a.wait.isBar && !((a.pc, a.rstack.length) == key)).map Aside.past) ++ w.deferred }

theorem asidesPast_filter (w : Warp) (key : Pc × Nat) :
    Warp.asidesPast { w with asides := w.asides.filter fun a => !a.atBar key } = w.pastBar key := by
  simp only [Warp.asidesPast, Warp.pastBar, List.filter_filter]
  have hasides : (fun a : Aside => !a.wait.isBar && !a.atBar key) = fun a => !a.wait.isBar := funext fun a => by
    rw [Aside.atBar]
    cases a.wait.isBar <;> rfl
  have hback : (fun a : Aside => a.wait.isBar && !a.atBar key) = fun a => a.wait.isBar && !((a.pc, a.rstack.length) == key) := funext fun a => by
    rw [Aside.atBar]
    cases a.wait.isBar <;> rfl
  rw [hasides, hback]

section
variable {s : State} {wid k n : Nat} {w : Warp} {rest : List Nat} {pc : Pc} (hw : Tbl.find s.warps wid = some w)
  (hk : Tbl.keys w.strands = k :: rest)
  (hb : ∀ p ∈ w.strands, p.2.pc = pc ∧ p.2.rstack.length = n ∧ ∃ j t, p.2.parked = some (.bar j, t))
include hw hk hb

/-- All strands stand at one place. -/
theorem releaseWarp_one : s.releaseWarp wid =
    (s.fuse wid (k :: rest) ((w.asides.filter (Aside.atBar (pc, n))).map fun a => (a.em, a.mem)) fun st =>
      { (st.advance 1) with split := w.commonSplit (k :: rest) ((w.asides.filter (Aside.atBar (pc, n))).map Aside.split) }).updWarp wid
        fun w => w.pastBar (pc, n) := by
  have hkey : ∀ p ∈ w.strands, p.2.barKey = some (pc, n) := fun p hp => by
    obtain ⟨hpc, hn, j, t, hpark⟩ := hb p hp
    simp only [Strand.barKey, hpark, hpc, hn]
  have hkeys : (w.strands.filterMap fun p => p.2.barKey).eraseDups = [(pc, n)] := by
    refine eraseDups_const ?_ fun b hm => ?_
    · obtain ⟨p, hp⟩ := List.exists_mem_of_ne_nil w.strands fun h => by simp [h, Tbl.keys] at hk
      exact List.ne_nil_of_mem (List.mem_filterMap.2 ⟨p, hp, hkey p hp⟩)
    · obtain ⟨p, hp, he⟩ := List.mem_filterMap.1 hm
      exact Option.some.inj (he.symm.trans (hkey p hp))
  have hids : (w.strands.filterMap fun p =>
      if (p.2.pc, p.2.rstack.length) = (pc, n) ∧ p.2.parked.any (fun q => q.1.isBar) then some p.1 else none) = k :: rest := by
    rw [← hk, Tbl.keys, ← List.filterMap_eq_map]
    refine List.filterMap_congr fun p hp => if_pos ?_
    obtain ⟨hpc, hn, j, t, hpark⟩ := hb p hp
    exact ⟨by rw [hpc, hn], by rw [hpark]; rfl⟩
  rw [releaseWarp_eq hw, hkeys, List.foldl_cons, List.foldl_nil]
  simp only [State.releaseAt, hw, hids, updWarp_updWarp, asidesPast_filter]

/-- A warp whose strands all stand at one barrier is one strand behind it. -/
theorem releaseWarp_fused (hnd : (k :: rest).Nodup) :
    ∃ v, Fused s wid w k rest (w.asides.filter fun a => a.wait.isBar && (a.pc, a.rstack.length) == (pc, n)) (s.releaseWarp wid) v ∧
      (∀ b, Tbl.find v.strands k = some b → b.pc = pc + 1) ∧ v.asides = (w.inherit k rest).asides.filter (fun a => !a.wait.isBar) ∧
      v.deferred = (((w.inherit k rest).asides.filter fun a => a.wait.isBar && !((a.pc, a.rstack.length) == (pc, n))).map fun a =>
        ⟨a.holder, (afterBar a.pc a.clause).1, (afterBar a.pc a.clause).2, a.em, a.mem, a.split, a.rstack, a.dom⟩) ++ (w.inherit k rest).deferred := by
  have hmem : k ∈ Tbl.keys w.strands := hk ▸ List.mem_cons_self
  obtain ⟨a, ha⟩ := Option.isSome_iff_exists.1 (Tbl.find_isSome_of_mem_keys hmem)
  have hapc : a.pc = pc := (hb _ (Tbl.mem_of_find ha)).1
  rw [releaseWarp_one hw hk hb]
  have hfused := fuse_fused (mates := w.asides.filter (Aside.atBar (pc, n))) (g := fun w => w.pastBar (pc, n)) hw ha hnd
    (f := fun st => { (st.advance 1) with split := w.commonSplit (k :: rest) ((w.asides.filter (Aside.atBar (pc, n))).map Aside.split) })
    (fun b => ⟨rfl, rfl, rfl, rfl, rfl, fun _ => rfl⟩) fun v => rfl
  refine ⟨_, hfused, fun b hb => ?_, rfl, rfl⟩
  obtain rfl := Option.some.inj ((fused_strand _ (List.nodup_cons.1 hnd).1).symm.trans hb)
  exact congrArg (· + 1) hapc

end

/-! ### A join (R105, R106) -/

section
variable {s : State} {x : Who} {i : Nat} {w : Warp}

theorem parkAside_parks (hx : s.strandAt x.wid x.sid = some x) (hd : ∀ d ∈ x.w.deferred, d.holder ≠ x.sid) (wt : Wait) :
    s.parkAside x.wid x.sid wt = s.park x.wid x.sid wt := by
  have hn : (x.w.deferred.find? fun d => d.holder == x.sid) = none := List.find?_eq_none.2 fun d hm => by simpa using hd d hm
  simp only [State.parkAside, hx, hn]

theorem parkAside_resumes (hx : s.strandAt x.wid x.sid = some x) {d : Deferred}
    (hd : (x.w.deferred.find? fun d => d.holder == x.sid) = some d) (wt : Wait) :
    s.parkAside x.wid x.sid wt = { s with warps := Tbl.upd s.warps x.wid fun w =>
        { w with
          asides := ⟨x.sid, wt, x.st.pc, x.st.clause, x.st.em, x.st.mem, x.st.split, x.st.rstack, x.st.dom⟩ :: w.asides
          deferred := w.deferred.erase d
          strands := Tbl.put w.strands x.sid (x.st.resumeAt d.pc d.clause d.em d.mem d.split d.rstack d.dom none) } } := by
  simp only [State.parkAside, hx, hd]
  rfl

/-- A join that something still holds back. -/
theorem tryJoin_waits {wid : Nat} (hw : Tbl.find s.warps wid = some w) (hf : s.fusable wid w i = false) : s.tryJoin wid i = s := by
  simp only [State.tryJoin, hw, hf, Bool.false_eq_true, if_false]

/-- A split that is over. -/
def Warp.joined (w : Warp) (i : Nat) (recs : List Deferred) : Warp :=
  { w with
    splits := Tbl.del w.splits i
    asides := w.asides.filter fun a => !(a.wait == .join i)
    deferred := recs ++ w.deferred }

/-- A join at which strands stand, and nothing holds it back. -/
theorem tryJoin_fuses {wid k : Nat} {rest : List Nat} (hw : Tbl.find s.warps wid = some w) (hf : s.fusable wid w i = true)
    (hk : (w.strands.filterMap fun p => if p.2.parked.any (fun q => q.1 == .join i) then some p.1 else none) = k :: rest) :
    s.tryJoin wid i = (s.fuse wid (k :: rest) ((w.asides.filter fun a => a.wait == .join i).map fun a => (a.em, a.mem)) fun st =>
      { st with split := (Tbl.find w.splits i).bind Split.parent }).updWarp wid fun w => w.joined i [] := by
  simp only [State.tryJoin, hw, hf, if_true, hk, reduceCtorEq, if_false]
  rfl

section
variable {u : State} (hx : s.strandAt x.wid x.sid = some x)
  (hj : reachedJoin x.w.splits 64 x.st.split x.st.pc x.st.rstack.length = some i) (hu : u = s.park x.wid x.sid (.join i))
  (hw : Tbl.find u.warps x.wid = some w)
include hx hj hu hw

/-- A strand that reaches a join completes it, or waits there with its lanes set aside where it holds records. -/
theorem reachJoin_eq : s.reachJoin x.wid x.sid =
    some (if u.fusable x.wid w i then u.tryJoin x.wid i else (s.parkAside x.wid x.sid (.join i)).tryJoin x.wid i) := by
  subst hu
  simp only [State.reachJoin, hx, hj, hw, Option.any_some]

theorem reachJoin_waits (hf : u.fusable x.wid w i = false) (hd : ∀ d ∈ x.w.deferred, d.holder ≠ x.sid) :
    s.reachJoin x.wid x.sid = some u := by
  rw [reachJoin_eq hx hj hu hw, if_neg (Bool.eq_false_iff.1 hf), parkAside_parks hx hd, ← hu, tryJoin_waits hw hf]

theorem reachJoin_fuses (hf : u.fusable x.wid w i = true) {k : Nat} {rest : List Nat}
    (hk : (w.strands.filterMap fun p => if p.2.parked.any (fun q => q.1 == .join i) then some p.1 else none) = k :: rest)
    (hnd : (k :: rest).Nodup) (hs : (Tbl.find w.strands k).isSome = true) :
    ∃ t v, s.reachJoin x.wid x.sid = some t ∧ Fused u x.wid w k rest (w.asides.filter fun a => a.wait == .join i) t v ∧
      Tbl.find v.splits i = none ∧ ∀ b, Tbl.find v.strands k = some b → b.split = (Tbl.find w.splits i).bind Split.parent := by
  obtain ⟨a, ha⟩ := Option.isSome_iff_exists.1 hs
  have hfused := fuse_fused (mates := w.asides.filter fun a => a.wait == .join i) (g := fun w => w.joined i []) hw ha hnd
    (f := fun st => { st with split := (Tbl.find w.splits i).bind Split.parent }) (fun b => ⟨rfl, rfl, rfl, rfl, rfl, fun h => h⟩)
    fun v => rfl
  refine ⟨_, _, ?_, hfused, (Tbl.find_del ..).trans (if_pos rfl), fun b hb => ?_⟩
  · rw [reachJoin_eq hx hj hu hw, if_pos hf, tryJoin_fuses hw hf hk]
  · obtain rfl := Option.some.inj ((fused_strand _ (List.nodup_cons.1 hnd).1).symm.trans hb)
    rfl

end

/-- A strand that stands at a join of its ancestry parks before the header's waits (R105). -/
theorem clauseHeader_joins {t : State} {h : Header} (hx : s.who = some x) (hp : ∀ p, x.st.parked = some p → p.1.byEvent = false)
    (hs : x.st.stepArm ≠ 2) (hj : s.reachJoin x.wid x.sid = some t) : exec (.clauseHeader h) s = .next t := by
  rw [clauseHeader_enters hx hp hs]
  simp only [State.enterClause, hj]

/-! ### The end of a strand (R66) -/

/-- A strand that ends with a record goes on as that record. -/
theorem endStrand_resumes (hx : s.strandAt x.wid x.sid = some x) {d : Deferred}
    (hd : (x.w.deferred.find? fun d => d.holder == x.sid) = some d) : s.endStrand x.wid x.sid =
      { s with warps := Tbl.upd s.warps x.wid fun w =>
        { w with
          deferred := w.deferred.erase d
          strands := Tbl.put w.strands x.sid (x.st.resumeAt d.pc d.clause d.em d.mem d.split d.rstack d.dom none) } } := by
  simp only [State.endStrand, hx, hd]
  rfl

/-- A warp that a strand has left: its accesses are kept by the splits it descends from, which are dropped with the last that descends. -/
def Warp.without (w : Warp) (x : Who) (made : List Nat) : Warp :=
  let w := { (w.leaveMade x.st made) with strands := Tbl.del w.strands x.sid }
  let w := w.updDom x.st.dom fun d => if d.trapRec.any (fun r => r.sid == x.sid) then { d with trapRec := none } else d
  { w.dropSplits with ended := w.ended || (w.strands.all fun p => decide (p.1 = 16)) }

/-- A strand that holds nothing leaves its entry, and its warp ends with its last. -/
theorem endStrand_leaves (hx : s.strandAt x.wid x.sid = some x) (hd : ∀ d ∈ x.w.deferred, d.holder ≠ x.sid)
    (ha : ∀ a ∈ x.w.asides, a.holder ≠ x.sid) (hp : ∀ p ∈ x.st.pends, p.own = false) :
    ∃ (u : State) (v : Warp), s.endStrand x.wid x.sid = u.releaseJoins x.wid ∧ u = { s with warps := u.warps } ∧
      Tbl.find u.warps x.wid = some v ∧ v.strands = Tbl.del x.w.strands x.sid ∧
      (v.ended = true ↔ x.w.ended = true ∨ ∀ p ∈ Tbl.del x.w.strands x.sid, p.1 = 16) := by
  obtain ⟨-, -, -, hw, -, -⟩ := strandAt_spec hx
  have hnd : (x.w.deferred.find? fun d => d.holder == x.sid) = none := List.find?_eq_none.2 fun d hm => by simpa using hd d hm
  have hna : (x.w.asides.find? fun a => a.holder == x.sid) = none := List.find?_eq_none.2 fun a hm => by simpa using ha a hm
  have hnp : x.st.pends.any Pend.own = false := List.any_eq_false.2 fun p hm => by simpa using hp p hm
  refine ⟨s.updWarp x.wid fun w => w.without x (s.undoneIds x.agent), x.w.without x (s.undoneIds x.agent), ?_, rfl,
    (Tbl.find_upd ..).trans ((if_pos rfl).trans (congrArg _ hw)), rfl, ?_⟩
  · simp only [State.endStrand, hx, hnd, hna, hnp, Bool.false_eq_true, if_false]
    rfl
  · refine Bool.or_eq_true_iff.trans (or_congr Iff.rfl (List.all_eq_true.trans ?_))
    simp only [decide_eq_true_eq]
    rfl

end

end Sys2Proof.Machine
end


section
/-! Branch tables whose lanes select several entries (R63, R65, R104), and what strands do when they part and meet: O41. -/

namespace Sys2Proof.Machine

/-- The units at a list of places, one by one. -/
theorem fetchUnits_zip {α : Type} {s : State} {core ctx : Nat} (pc : α → Pc) (gs : List α) (us : List Unit64) (hl : us.length = gs.length)
    (h : ∀ q ∈ gs.zip us, s.fetchUnit core ctx (pc q.1) = .unit q.2) : s.fetchUnits core ctx (gs.map pc) = .ok us := by
  induction gs generalizing us with
  | nil =>
    obtain rfl := List.length_eq_zero_iff.1 hl
    rfl
  | cons g gs ih =>
    obtain ⟨u, us, rfl⟩ := List.exists_cons_of_length_eq_add_one hl
    rw [List.zip_cons_cons, List.forall_mem_cons] at h
    rw [List.map_cons, State.fetchUnits, h.1, ih us (Nat.succ.inj hl) h.2]

/-- What follows a fork, and what stands for one that is refused. -/
theorem fork_elim (o : Option State) (refused : State) (k : State → State) :
    (match o with
      | some t => k t
      | none => refused) = o.elim refused k := by
  cases o <;> rfl

section
variable {s u : State} {x y : Who} {f : BrxF} {tp : Pc} {hd : Unit64} {gs : List (Nat × Mask)} {us : List Unit64} {join : Option Pc}
  {sides : List (Mask × Pc)} {a b : Mask × Pc} {more : List (Mask × Pc)} (hc : Clear s x) (ho : OperandsOk s x { srcs := [(f.idx, 1)] })
  (htp : tp = x.st.header + f.off.signExtend 53) (hf : s.fetchUnit x.core x.d.ctx tp = .unit hd) (hz : hd.extractLsb' 36 28 = 0)
  (hgs : gs = groupBy ((lanesOf x.st.em).map fun l => (l, (readyOf s x { srcs := [(f.idx, 1)] }).val 0 l)))
  (hlt : ∀ l ∈ lanesOf x.st.em, (readyOf s x { srcs := [(f.idx, 1)] }).val 0 l < (hd.extractLsb' 0 16).toNat)
  (hl : us.length = gs.length)
  (hus : ∀ p ∈ gs.zip us, s.fetchUnit x.core x.d.ctx (tp + 1 + BitVec.ofNat 53 p.1.1) = .unit p.2 ∧ p.2.extractLsb' 24 40 = 0)
  (hj : join = (if hd.extractLsb' 16 20 = 0 then none else some (tp + (hd.extractLsb' 16 20).signExtend 53)))
  (hjg : ∀ p, join = some p → GoodTarget s x.core x.d.ctx p)
  (hs : sides = (gs.zip us).map (fun g => (g.1.2, tp + (g.2.extractLsb' 0 24).signExtend 53)))
  (hsg : ∀ p ∈ sides, GoodTarget s x.core x.d.ctx p.2) (hm : sides = a :: b :: more)
  (hu : u = (readyOf s x { srcs := [(f.idx, 1)] }).commit) (hy : u.strandAt x.wid x.sid = some y)
include ho htp hf hz hgs hlt hl hus hj hjg hs hsg hm hu hy

/-- A table of whose entries the lanes of EM select several: the strand forks in their order. -/
theorem tableBranch_several (push : Option Pc) (hp : push.isSome = true → x.st.rstack.length < 32) :
    s.tableBranch x f push =
      (u.fork y join x.st.rstack.length ⟨a.1, a.2, push.toList ++ x.st.rstack⟩
        ((b :: more).map fun p => ⟨p.1, p.2, push.toList ++ x.st.rstack⟩) false).elim (s.trap x 0x2B 2) fun t =>
          if push.isSome then t.cleanReturn x.wid x.sid else t := by
  have hpast : ((lanesOf x.st.em).map fun l => (l, (readyOf s x { srcs := [(f.idx, 1)] }).val 0 l)).filter
      (fun p => decide ((hd.extractLsb' 0 16).toNat ≤ p.2)) = [] := by
    rw [List.filter_eq_nil_iff]
    intro p hp h
    obtain ⟨l, hm, rfl⟩ := List.mem_map.1 hp
    exact Nat.not_le.2 (hlt l hm) (of_decide_eq_true h)
  have hunits : s.tableUnits x (gs.map fun g => tp + 1 + BitVec.ofNat 53 g.1) = .ok us :=
    fetchUnits_zip _ gs us hl fun q hq => (hus q hq).1
  have hany : (us.any fun u => u.extractLsb' 24 40 != 0) = false := by
    rw [← List.map_snd_zip (Nat.le_of_eq hl), List.any_map, List.any_eq_false]
    intro p hp
    simp [(hus p hp).2]
  have hside : ∀ r : List Pc, (gs.zip us).map (fun g => (⟨g.1.2, tp + (g.2.extractLsb' 0 24).signExtend 53, r⟩ : Side)) =
      (a :: b :: more).map fun p => ⟨p.1, p.2, r⟩ := fun r => by
    rw [← hm, hs, List.map_map]
    rfl
  have hgood : ∀ r : List Pc, ∀ p ∈ ((a :: b :: more).map fun p => (⟨p.1, p.2, r⟩ : Side)).map (fun d => (d.pc, 3)) ++
      join.toList.map (fun j => (j, 1)), GoodTarget s x.core x.d.ctx p.1 := fun r p hp => by
    rcases List.mem_append.1 hp with hp | hp
    · rw [List.map_map] at hp
      obtain ⟨q, hq, rfl⟩ := List.mem_map.1 hp
      exact hsg q (hm ▸ hq)
    · obtain ⟨q, hq, rfl⟩ := List.mem_map.1 hp
      exact hjg q (Option.mem_toList.1 hq)
  subst htp hu hj
  unfold State.tableBranch
  simp only [beginOp_ok ho, em_all, Strand.relative, tableUnits_one hf, List.headD_cons, hz, ← hgs, hunits, hany, ne_eq,
    not_true_eq_false, if_false, Bool.false_eq_true]
  refine (if_neg fun h => h hpast).trans ?_
  simp only [hside, List.map_cons] at hgood ⊢
  refine (targets_good (hgood _) _).trans ?_
  rw [hy]
  cases push with
  | none =>
    simp only [Option.isSome_none, Bool.false_and, Bool.false_eq_true, if_false, Option.bind_some]
    exact fork_elim ..
  | some q =>
    have hfull : ¬ 32 < (q :: x.st.rstack).length := Nat.not_lt.2 (hp rfl)
    simp only [hfull, decide_false, Bool.and_false, Bool.false_and, Bool.false_eq_true, if_false, Option.bind_some]
    exact fork_elim ..

include hc

theorem brx_forks {o : Option State}
    (h : o = u.fork y join x.st.rstack.length ⟨a.1, a.2, x.st.rstack⟩ ((b :: more).map fun p => ⟨p.1, p.2, x.st.rstack⟩) false) :
    (∀ t, o = some t → exec (.brx f) s = .next t) ∧
      (o = none → exec (.brx f) s = .next (s.trapAt x.wid x.sid { cause := 0x2B, lanes := x.st.em, detail := 2 })) := by
  have hb : exec (.brx f) s = .next (o.elim (s.trap x 0x2B 2) id) :=
    (control_issues hc _ _).trans (congrArg _ ((tableBranch_several ho htp hf hz hgs hlt hl hus hj hjg hs hsg hm hu hy none
      fun h => absurd h Bool.false_ne_true).trans (by rw [h]; rfl)))
  exact ⟨fun t e => by rw [hb, e]; rfl, fun e => by rw [hb, e]; rfl⟩

theorem callx_forks (hr : x.st.rstack.length < 32) {o : Option State}
    (h : o = u.fork y join x.st.rstack.length ⟨a.1, a.2, x.st.nextClause :: x.st.rstack⟩
      ((b :: more).map fun p => ⟨p.1, p.2, x.st.nextClause :: x.st.rstack⟩) false) :
    (∀ t, o = some t → exec (.callx f) s = .next (t.cleanReturn x.wid x.sid)) ∧
      (o = none → exec (.callx f) s = .next (s.trapAt x.wid x.sid { cause := 0x2B, lanes := x.st.em, detail := 2 })) := by
  have hb : exec (.callx f) s = .next (o.elim (s.trap x 0x2B 2) fun t => t.cleanReturn x.wid x.sid) :=
    (control_issues hc _ _).trans (congrArg _ ((tableBranch_several ho htp hf hz hgs hlt hl hus hj hjg hs hsg hm hu hy
      (some x.st.nextClause) fun _ => hr).trans (by rw [h]; rfl)))
  exact ⟨fun t e => by rw [hb, e]; rfl, fun e => by rw [hb, e]; rfl⟩

end

/-- Settles O41: forks, joins, ends and barriers, each by its own lemma. -/
theorem divergence : Obligations.Divergence := by
  refine ⟨fun s x join depth keep others taken hw hst => fork_forks hw hst, ?_,
    fun s u x i w hx hj hu hw => ⟨reachJoin_waits hx hj hu hw, fun hf d hd => ?_, fun hf k rest => reachJoin_fuses hx hj hu hw hf⟩,
    fun s t x h => clauseHeader_joins, fun s x hx => ⟨fun d => endStrand_resumes hx, endStrand_leaves hx⟩,
    fun s wid k n w rest pc hw hk hnd hb => releaseWarp_fused hw hk hb hnd⟩
  · intro s u x y f tp hd gs us join sides a b more hc ho htp hf hz hgs hlt hl hus hj hjg hs hsg hm hu hy
    exact ⟨fun o => brx_forks hc ho htp hf hz hgs hlt hl hus hj hjg hs hsg hm hu hy,
      fun hr o => callx_forks hc ho htp hf hz hgs hlt hl hus hj hjg hs hsg hm hu hy hr⟩
  · rw [reachJoin_eq hx hj hu hw, if_neg (Bool.eq_false_iff.1 hf), parkAside_resumes hx hd]

end Sys2Proof.Machine
end


section
/-! The events of gangs: barriers, exchanges and rotations (R120, R122, R123, R149): O23. -/

namespace Sys2Proof.Machine

section
variable {s : State}

/-! ### Barriers (R122, R123) -/

section
variable {wid : Nat} {k : BarKind} {w : Warp} {c : Crew} (hw : Tbl.find s.warps wid = some w) (hc : s.crewOf w = some c)
  (ha : ∀ q ∈ s.barUnit w.crew c (barKindOf c.superstep k), q.2.rung = none ∧ q.2.rungQ = [] ∧ ∀ i ∈ q.2.warps, ∀ v,
    Tbl.find s.warps i = some v → s.arrived i v c.superstep (barKindOf c.superstep k) = true)
  (hs : ∃ q ∈ s.barUnit w.crew c (barKindOf c.superstep k), ∃ i ∈ q.2.warps, ∃ v, Tbl.find s.warps i = some v ∧ v.ended = false)
include hw hc ha hs

/-- A barrier that every warp of its unit has reached. -/
theorem exec_barrierRelease : exec (.barrierRelease wid k) s = .next (
    if barKindOf c.superstep k = .ss ∧ c.comm ∧ ¬s.spanQuiet c.span then s
    else
      let u := ((s.barUnit w.crew c (barKindOf c.superstep k)).flatMap fun q => q.2.warps).foldl State.releaseWarp s
      if barKindOf c.superstep k = .ss then
        { u with crews := Tbl.mapVals u.crews fun _ q => if q.span = c.span then { q with comm := !q.comm } else q }
      else u) := by
  have hready : (((s.barUnit w.crew c (barKindOf c.superstep k)).flatMap fun q => q.2.warps).all fun i =>
      (Tbl.find s.warps i).all fun w => s.arrived i w c.superstep (barKindOf c.superstep k)) = true := by
    rw [List.all_eq_true]
    intro i hi
    obtain ⟨q, hq, hiq⟩ := List.mem_flatMap.1 hi
    cases hv : Tbl.find s.warps i with
    | none => rfl
    | some v => exact (ha q hq).2.2 i hiq v hv
  have hsome : (((s.barUnit w.crew c (barKindOf c.superstep k)).flatMap fun q => q.2.warps).any fun i =>
      (Tbl.find s.warps i).any fun w => !w.ended) = true := by
    obtain ⟨q, hq, i, hi, v, hv, he⟩ := hs
    exact List.any_eq_true.2 ⟨i, List.mem_flatMap.2 ⟨q, hq, hi⟩, by rw [hv, Option.any_some, he]; rfl⟩
  have hrung : ((s.barUnit w.crew c (barKindOf c.superstep k)).any fun q => q.2.rung.isSome || !q.2.rungQ.isEmpty) = false := by
    rw [List.any_eq_false]
    intro q hq
    obtain ⟨hr, hrq, -⟩ := ha q hq
    simp [hr, hrq]
  simp only [exec, execBarrierRelease, hw, hc, Option.bind_some, Option.map_some, hready, hsome, hrung, Bool.not_true, Bool.or_false,
    Bool.false_eq_true, if_false]

theorem barrier_releases (hk : barKindOf c.superstep k ≠ .ss) : exec (.barrierRelease wid k) s =
    .next (((s.barUnit w.crew c (barKindOf c.superstep k)).flatMap fun q => q.2.warps).foldl State.releaseWarp s) := by
  rw [exec_barrierRelease hw hc ha hs, if_neg fun h => hk h.1, if_neg hk]

theorem barrier_ends_step (hk : barKindOf c.superstep k = .ss) (hq : c.comm = true → s.spanQuiet c.span = true) :
    ∃ u, u = ((s.barUnit w.crew c (barKindOf c.superstep k)).flatMap fun q => q.2.warps).foldl State.releaseWarp s ∧
      exec (.barrierRelease wid k) s =
        .next { u with crews := Tbl.mapVals u.crews fun _ q => if q.span = c.span then { q with comm := !q.comm } else q } := by
  refine ⟨_, rfl, ?_⟩
  rw [exec_barrierRelease hw hc ha hs, if_neg fun h => h.2.2 (hq h.2.1), if_pos hk]

end

theorem barrier_traps {w i t : Nat} {k : BarKind} {x : Who} (hx : s.strandAt w i = some x) (hp : x.st.parked = some (.bar k, t))
    (ht : t + 2 ^ 24 ≤ s.time) (ha : s.strandAwake x = true) :
    exec (.barrierTimeout (.strand w i)) s = .next (s.trapAt x.wid x.sid { cause := barCause k, lanes := x.st.em }) := by
  simp only [exec, execBarrierTimeout, hx, hp, if_pos (And.intro ht ha)]
  rfl

/-! ### Exchanges and rotations that wait too long (R120, R149) -/

theorem xch_fails {wid : Nat} {w : Warp} {a : XchArr} (hw : Tbl.find s.warps wid = some w) (ha : w.xchArr = some a)
    (ht : a.since + 14000 ≤ s.time) (hx : ∀ x, s.strandAt wid a.sid = some x → s.strandAwake x = true) :
    exec (.xchDeadline wid) s = .next (s.xchFail wid a.sid 0x35) := by
  have hall : (s.strandAt wid a.sid).all s.strandAwake = true := by
    cases h : s.strandAt wid a.sid with
    | none => rfl
    | some x => exact hx x h
  simp only [exec, execXchDeadline, hw, Option.bind_some, ha, if_pos (And.intro ht hall)]

theorem rrot_fails {cid : Nat} {c : Crew} (hc : Tbl.find s.crews cid = some c)
    (hl : ∃ q ∈ s.crewsWith fun q => q.braid == c.braid, ∃ a, q.2.rrotArr = some a ∧ a.going = false ∧ a.since + 14000 ≤ s.time)
    (ha : s.awake (s.crewCtx c) = true) :
    exec (.rrotDeadline cid) s = .next (s.rrotFail (s.crewsWith fun q => q.braid == c.braid) 0x35) := by
  have hlate : ((s.crewsWith fun q => q.braid == c.braid).any fun q => q.2.rrotArr.any fun a =>
      !a.going && decide (a.since + 14000 ≤ s.time)) = true := by
    obtain ⟨q, hq, a, he, hg, ht⟩ := hl
    exact List.any_eq_true.2 ⟨q, hq, by simp [he, hg, ht]⟩
  simp only [exec, execRrotDeadline, hc, hlate, ha, Bool.and_self, if_true]

/-! ### A tile that has been received (R125, R149) -/

/-- Words landed one behind the other, and no granule's state. -/
theorem landWords_spec (a : Nat) (l : List (Word × Nat)) (n : Nat) (k : Core) :
    let k' := (l.zipIdx n).foldl (fun (k : Core) p => k.landWord (a + p.2) p.1.1 p.1.2) k
    (∀ (i : Nat) (p : Word × Nat), l[i]? = some p → k'.word (a + (n + i)) = p.1 ∧ k'.mark (a + (n + i)) = p.2) ∧
      ∀ b, b < a + n → k'.word b = k.word b ∧ k'.mark b = k.mark b := by
  induction l generalizing n k with
  | nil => exact ⟨fun i p h => by simp at h, fun b _ => ⟨rfl, rfl⟩⟩
  | cons q l ih =>
    obtain ⟨hin, hout⟩ := ih (n + 1) (k.landWord (a + n) q.1 q.2)
    refine ⟨fun i p h => ?_, fun b hb => ?_⟩
    · cases i with
      | zero =>
        obtain rfl : q = p := by simpa using h
        obtain ⟨hword, hmark⟩ := hout (a + n) (Nat.lt_succ_self _)
        refine ⟨hword.trans ?_, hmark.trans ?_⟩
        · exact (Core.word_landWord ..).trans (if_pos rfl)
        · exact (Core.mark_landWord ..).trans (if_pos rfl)
      | succ i =>
        have := hin i p (by simpa using h)
        rwa [Nat.add_right_comm] at this
    · obtain ⟨hword, hmark⟩ := hout b (Nat.lt_succ_of_lt hb)
      have hne : ¬ a + n = b := (Nat.ne_of_lt hb).symm
      refine ⟨hword.trans ?_, hmark.trans ?_⟩
      · exact (Core.word_landWord ..).trans (if_neg hne)
      · exact (Core.mark_landWord ..).trans (if_neg hne)

/-- Granules flipped one behind the other, and no word. -/
theorem flipGrans_spec (g : Nat) (l : List Bool) (n : Nat) (k : Core) :
    let k' := (l.zipIdx n).foldl (fun (k : Core) p => k.setGran (g + p.2) ⟨false, false, p.1, true⟩) k
    (∀ (i : Nat) (b : Bool), l[i]? = some b → k'.gran (g + (n + i)) = ⟨false, false, b, true⟩) ∧
      (∀ h, h < g + n → k'.gran h = k.gran h) ∧ ∀ a, k'.word a = k.word a ∧ k'.mark a = k.mark a := by
  induction l generalizing n k with
  | nil => exact ⟨fun i b h => by simp at h, fun _ _ => rfl, fun _ => ⟨rfl, rfl⟩⟩
  | cons q l ih =>
    obtain ⟨hin, hout, hword⟩ := ih (n + 1) (k.setGran (g + n) ⟨false, false, q, true⟩)
    refine ⟨fun i b h => ?_, fun h hh => ?_, hword⟩
    · cases i with
      | zero =>
        obtain rfl : q = b := by simpa using h
        exact (hout (g + n) (Nat.lt_succ_self _)).trans ((Core.gran_setGran ..).trans (if_pos rfl))
      | succ i =>
        have := hin i b (by simpa using h)
        rwa [Nat.add_right_comm] at this
    · exact (hout h (Nat.lt_succ_of_lt hh)).trans ((Core.gran_setGran ..).trans (if_neg (Nat.ne_of_lt hh).symm))

/-- A core whose tile has been received: its words have landed, and its granules flipped. -/
def Core.received (k : Core) (t : Tile) (a : RrotArr) : Core :=
  (a.vals.zipIdx).foldl (fun k p => k.setGran (t.gran + p.2) ⟨false, false, p.1, true⟩)
    ((a.data.zipIdx).foldl (fun k p => k.landWord (t.word p.2) p.1.1 p.1.2) k)

theorem rrot_completes {cid : Nat} {c : Crew} {a : RrotArr} {t : Tile} (hc : Tbl.find s.crews cid = some c) (ha : c.rrotArr = some a)
    (ht : c.rrotTile = some t) (hg : a.going = true) : exec (.rrotCompletion cid) s = .next
      (((s.updCore c.core fun k => k.received t a).updWarp c.warp0 fun w =>
        { w with strands := Tbl.mapVals w.strands fun _ st => { st with pends := st.pends.filter fun p => p.id != a.pend } }).updCrew cid
          fun c => { c with rrotArr := none, rrotDone := c.rrotDone + 1 }) := by
  simp only [exec, execRrotCompletion, hc, ha, ht, hg, Bool.not_true, Bool.false_eq_true, if_false]
  rfl

theorem rrot_received {cid : Nat} {c : Crew} {a : RrotArr} {t : Tile} (hc : Tbl.find s.crews cid = some c) (ha : c.rrotArr = some a)
    (ht : c.rrotTile = some t) (hg : a.going = true) : ∃ u, exec (.rrotCompletion cid) s = .next u ∧
      (∀ d, d ≠ c.core → u.core d = s.core d) ∧
      (∀ i p, i < a.data.length → a.data[i]? = some p → (u.core c.core).word (t.word i) = p.1 ∧ (u.core c.core).mark (t.word i) = p.2) ∧
      (∀ i b, a.vals[i]? = some b → (u.core c.core).gran (t.gran + i) = ⟨false, false, b, true⟩) ∧
      Tbl.find u.crews cid = some { c with rrotArr := none, rrotDone := c.rrotDone + 1 } := by
  have hother (d : Nat) (hd : d ≠ c.core) : (s.updCore c.core fun k => k.received t a).core d = s.core d :=
    (core_updCore ..).trans (if_neg (Ne.symm hd))
  have hown : (s.updCore c.core fun k => k.received t a).core c.core = (s.core c.core).received t a := (core_updCore ..).trans (if_pos rfl)
  obtain ⟨hwords, -⟩ := landWords_spec (128 * t.gran) a.data 0 (s.core c.core)
  obtain ⟨hgrans, -, hkeep⟩ := flipGrans_spec t.gran a.vals 0
    ((a.data.zipIdx).foldl (fun (k : Core) p => k.landWord (t.word p.2) p.1.1 p.1.2) (s.core c.core))
  refine ⟨_, rrot_completes hc ha ht hg, hother, fun i p _ hp => ?_, fun i b hb => ?_, ?_⟩
  · obtain ⟨hword, hmark⟩ := hwords i p hp
    rw [Nat.zero_add] at hword hmark
    obtain ⟨hw, hm⟩ := hkeep (t.word i)
    exact ⟨(congrArg (fun k : Core => k.word _) hown).trans (hw.trans hword), (congrArg (fun k : Core => k.mark _) hown).trans (hm.trans hmark)⟩
  · have hgran := hgrans i b hb
    rw [Nat.zero_add] at hgran
    exact (congrArg (fun k : Core => k.gran _) hown).trans hgran
  · refine (Tbl.find_upd ..).trans ((if_pos rfl).trans ?_)
    exact congrArg _ hc

end

/-- Settles O23: each event, due, by its own lemma above. -/
theorem gangEvents : Obligations.GangEvents :=
  fun _ => ⟨fun _ _ _ _ hw hc ha hs => ⟨barrier_releases hw hc ha hs, barrier_ends_step hw hc ha hs⟩, fun _ _ _ _ _ => barrier_traps,
    fun _ _ _ => xch_fails, fun _ _ => rrot_fails, fun _ _ _ _ => rrot_received⟩

end Sys2Proof.Machine
end


section
/-! Exchanges between warps (R120). -/

namespace Sys2Proof.Machine

/-! ### A long-latency instruction of any strand -/

/-- A strand with lanes left does not end. -/
theorem endIfEmpty_lanes {t : State} {wid sid : Nat} {w : Warp} {st : Strand} (hw : Tbl.find t.warps wid = some w)
    (hs : Tbl.find w.strands sid = some st) (hm : st.mem ≠ 0) : t.endIfEmpty wid sid = t := by
  refine endIfEmpty_of fun y hy => ?_
  obtain ⟨-, -, -, yw, yst, -⟩ := strandAt_spec hy
  obtain rfl := Option.some.inj (hw.symm.trans yw)
  obtain rfl := Option.some.inj (hs.symm.trans yst)
  exact hm

/-- What issues for a strand that need not have the turn: the partner of an exchange issues with it. -/
theorem launch_at {s : State} {x : Who} (hw : Tbl.find s.warps x.wid = some x.w) (hst : Tbl.find x.w.strands x.sid = some x.st)
    (ha : x.st.mem ≠ 0) (d : OpD) (o m : Mask) (la : Nat) (res : Nat → List Word) (bits : Nat) :
    Launched s x d o m la res bits ((readyOf s x d o).launch la m res bits) := by
  obtain ⟨W, hcm, hothers, hfind⟩ := commit_popped hw d o
  let p : Pend := ⟨s.nextId, la, (readyOf s x d o).writes m res, (readyOf s x d o).pushes m res, bits, true, false, true, x.st.dom⟩
  let T : State := { s with
    nextId := s.nextId + 1
    warps := Tbl.upd W x.wid fun w => w.updStrand x.sid fun st => { st.advance 1 with pends := (st.advance 1).pends ++ [p] } }
  have hT : Tbl.find T.warps x.wid = some { x.w with
      queues := queuesAfter (readyOf s x { d with dst := none } o) m res
      strands := Tbl.upd x.w.strands x.sid fun st => { st.advance 1 with pends := (st.advance 1).pends ++ [p] } } := by
    rw [Tbl.find_upd, if_pos rfl, hfind]
    rfl
  have hlaunch : (readyOf s x d o).launch la m res bits = T := by
    have he : (readyOf s x d o).launch la m res bits = T.endIfEmpty x.wid x.sid := by
      simp only [Ready.launch, hcm, State.fresh, State.advance, State.updStrand, State.updWarp, Tbl.upd_upd, T, Warp.updStrand]
      rfl
    rw [he]
    exact endIfEmpty_lanes hT ((Tbl.find_upd ..).trans ((if_pos rfl).trans (congrArg _ hst))) ha
  rw [hlaunch]
  exact ⟨rfl, fun w h => (Tbl.find_upd ..).trans ((if_neg (Ne.symm h)).trans (hothers w h)), hT⟩

/-! ### The exchange -/

section
variable {s : State} {x : Who} {f : XchF} {pid : Nat} {pw : Warp} (hc : Clear s x) (hd : x.st.dom = 0)
  (ha : ∀ a, x.w.xchArr = some a → a.sid = x.sid) (ho : OperandsOk s x (xchOps f.ty.wide f.d f.a))
  (hp : s.xchPartner x.wid x.w = .ok (pid, pw))
include hc hd ha ho hp

/-- An `xch` whose partner is resident. -/
theorem exec_xch : exec (.xch f) s = .next (
    if pid = x.wid then s.xchMeet (readyOf s x (xchOps f.ty.wide f.d f.a)) (readyOf s x (xchOps f.ty.wide f.d f.a)) f.la.toNat 0 (tyWords f.ty)
    else
      let here := s.setArr x.wid (some ⟨x.sid, (x.w.xchArr.map XchArr.since).getD s.time, f.ty.wide, f.d, f.a, f.la.toNat⟩)
      match pw.xchArr.bind fun a => (s.strandAt pid a.sid).map fun y => (a, y) with
      | none => here.park x.wid x.sid .xch
      | some (a, y) =>
        if pw.wlog ≠ x.w.wlog ∨ a.wide ≠ f.ty.wide then (s.xchFail x.wid x.sid 0x31).xchFail pid a.sid 0x31
        else
          match beginOp s y (xchOps a.wide a.d a.a) with
          | .halt _ => here.park x.wid x.sid .xch
          | .go q => s.xchMeet (readyOf s x (xchOps f.ty.wide f.d f.a)) q f.la.toNat a.la (tyWords f.ty)) := by
  have harr : (x.w.xchArr.any fun a => a.sid != x.sid) = false := by
    cases h : x.w.xchArr with
    | none => rfl
    | some a => simp [ha a h]
  refine (issue_clear hc _).trans (congrArg _ ?_)
  rw [if_neg (not_not.2 hd), harr, if_neg Bool.false_ne_true]
  simp only [beginOp_ok ho, hp] <;> rfl

/-- A warp that is its own partner. -/
theorem xch_self (he : pid = x.wid) : ∃ u, exec (.xch f) s = .next (u.exchanged x.wid) ∧
    Launched s x (xchOps f.ty.wide f.d f.a) every (x.st.em &&& fullMask x.width) f.la.toNat
      (fun l => (readyOf s x (xchOps f.ty.wide f.d f.a)).wordsAt 0 (tyWords f.ty) l) 0 u := by
  obtain ⟨-, -, -, hw, hst, -⟩ := who_spec hc.who
  refine ⟨_, ?_, launch_at hw hst hc.alive ..⟩
  rw [exec_xch hc hd ha ho hp, if_pos he]
  refine congrArg Host.Outcome.next ?_
  have hm : (readyOf s x (xchOps f.ty.wide f.d f.a)).em &&& (readyOf s x (xchOps f.ty.wide f.d f.a)).em &&& fullMask x.width =
      x.st.em &&& fullMask x.width := by rw [em_all, BitVec.and_self]
  simp only [State.xchMeet, if_true, readyOf_x, hm]
  rfl

/-- A partner that has arrived in the same form. -/
theorem xch_meets {a : XchArr} {y : Who} (hne : pid ≠ x.wid) (harr : pw.xchArr = some a) (hy : s.strandAt pid a.sid = some y)
    (hm : y.st.mem ≠ 0) (hl : pw.wlog = x.w.wlog) (hwide : a.wide = f.ty.wide) (hoy : OperandsOk s y (xchOps a.wide a.d a.a)) :
    ∃ u v m, exec (.xch f) s = .next ((v.exchanged x.wid).exchanged pid) ∧ m = x.st.em &&& y.st.em &&& fullMask x.width ∧
      Launched s x (xchOps f.ty.wide f.d f.a) every m f.la.toNat
        (fun l => (readyOf s y (xchOps a.wide a.d a.a)).wordsAt 0 (tyWords f.ty) l) 0 u ∧
      Launched u y (xchOps a.wide a.d a.a) every m a.la
        (fun l => (readyOf s x (xchOps f.ty.wide f.d f.a)).wordsAt 0 (tyWords f.ty) l) 0 v := by
  obtain ⟨-, -, -, hw, hst, -⟩ := who_spec hc.who
  obtain ⟨rfl, hsid, -, hyw, hyst, -⟩ := strandAt_spec hy
  have hu := launch_at hw hst hc.alive (xchOps f.ty.wide f.d f.a) every (x.st.em &&& y.st.em &&& fullMask x.width) f.la.toNat
    (fun l => (readyOf s y (xchOps a.wide a.d a.a)).wordsAt 0 (tyWords f.ty) l) 0
  refine ⟨_, _, _, ?_, rfl, hu, launch_at ((hu.warps _ hne).trans hyw) (hsid ▸ hyst) hm ..⟩
  rw [exec_xch hc hd ha ho hp, if_neg hne]
  have hok : ¬ (pw.wlog ≠ x.w.wlog ∨ a.wide ≠ f.ty.wide) := not_or.2 ⟨not_not.2 hl, not_not.2 hwide⟩
  have hem : (readyOf s x (xchOps f.ty.wide f.d f.a)).em &&& (readyOf s y (xchOps a.wide a.d a.a)).em &&& fullMask x.width =
      x.st.em &&& y.st.em &&& fullMask x.width := by rw [em_all, em_all]
  simp only [harr, Option.bind_some, hy, Option.map_some, if_neg hok, beginOp_ok hoy, State.xchMeet, readyOf_x, if_neg hne, hem]
  rfl

/-- A partner that has not arrived. -/
theorem xch_waits (hne : pid ≠ x.wid) (harr : pw.xchArr = none) : exec (.xch f) s =
    .next ((s.setArr x.wid (some ⟨x.sid, (x.w.xchArr.map XchArr.since).getD s.time, f.ty.wide, f.d, f.a, f.la.toNat⟩)).park
      x.wid x.sid .xch) := by
  simp only [exec_xch hc hd ha ho hp, if_neg hne, harr, Option.bind_none]

end

end Sys2Proof.Machine
end


section
/-! A barrier reached by the last strand of its unit (R121-R123). -/

namespace Sys2Proof.Machine

/-! ### Parking -/

section
variable {s : State} {x : Who}

/-- A strand that parks waits for what it parks for, and nothing else of it changes (R107). -/
theorem park_spec (hw : Tbl.find s.warps x.wid = some x.w) (hst : Tbl.find x.w.strands x.sid = some x.st) (wt : Wait) :
    ∃ n, s.park x.wid x.sid wt = s.withStrand x fun st => { st with parked := some (wt, n) } := by
  cases hp : x.st.parked with
  | none =>
    refine ⟨s.time, withStrand_congr hw hst ?_⟩
    simp only [hp]
  | some p =>
    by_cases he : p.1 = wt
    · refine ⟨p.2, withStrand_congr hw hst ?_⟩
      subst he
      simp only [hp, if_true]
      rw [← hp]
    · refine ⟨s.time, withStrand_congr hw hst ?_⟩
      simp only [hp, if_neg he]

theorem strandAt_past {f : Strand → Strand} (hf : ∀ st, (f st).past = st.past ∧ (f st).dom = st.dom) (v i : Nat) :
    ((s.withStrand x f).strandAt v i).map (fun y : Who => y.st.past) = (s.strandAt v i).map fun y : Who => y.st.past := by
  simp only [State.strandAt, State.withStrand, Tbl.find_upd]
  by_cases hv : x.wid = v
  · subst hv
    cases Tbl.find s.warps x.wid with
    | none => simp only [if_true, Option.map_none]
    | some w =>
      simp only [if_true, Option.map_some, Tbl.find_upd]
      by_cases hi : x.sid = i
      · subst hi
        cases Tbl.find w.strands x.sid with
        | none => simp only [if_true, Option.map_none]
        | some st =>
          obtain ⟨hpast, hdom⟩ := hf st
          simp only [if_true, Option.map_some, hdom, Warp.dom]
          cases Tbl.find w.doms st.dom with
          | none => rfl
          | some d => exact congrArg some hpast
      · simp only [if_neg hi, Warp.dom]
        cases Tbl.find w.strands i with
        | none => rfl
        | some st =>
          dsimp only
          cases Tbl.find w.doms st.dom <;> rfl
  · simp only [if_neg hv]

/-- The accesses of every agent stand as before where a strand keeps its domain and what it made before a fork. -/
theorem undoneIds_withStrand {f : Strand → Strand} (hf : ∀ st, (f st).past = st.past ∧ (f st).dom = st.dom) (a : Agent) :
    (s.withStrand x f).undoneIds a = s.undoneIds a := by
  have hpast : (s.withStrand x f).pastOf a = s.pastOf a := by
    cases a with
    | strand v i => exact congrArg (fun o => o.getD []) (strandAt_past hf v i)
    | _ => rfl
  simp only [State.undoneIds, hpast]
  rfl

/-- A warp that another strand's change leaves alone has arrived or not as before. -/
theorem arrived_withStrand {f : Strand → Strand} (hf : ∀ st, (f st).past = st.past ∧ (f st).dom = st.dom) (i : Nat) (v : Warp) (ss : Bool)
    (k : BarKind) : (s.withStrand x f).arrived i v ss k = s.arrived i v ss k := by
  simp only [State.arrived, undoneIds_withStrand hf]

end

/-! ### The release of a warp's only strand -/

theorem find_updWarp {s : State} {i : Nat} {w : Warp} (hw : Tbl.find s.warps i = some w) (f : Warp → Warp) :
    Tbl.find (s.updWarp i f).warps i = some (f w) :=
  (Tbl.find_upd ..).trans ((if_pos rfl).trans (congrArg _ hw))

section
variable {i j : Nat} (h : j ≠ i)
include h

theorem warps_updWarp_ne (t : State) (f : Warp → Warp) : Tbl.find (t.updWarp i f).warps j = Tbl.find t.warps j :=
  (Tbl.find_upd ..).trans (if_neg (Ne.symm h))

theorem warps_fuse_ne (t : State) (ids : List Nat) (more : List (Mask × Mask)) (f : Strand → Strand) :
    Tbl.find (t.fuse i ids more f).warps j = Tbl.find t.warps j := by
  cases hw : Tbl.find t.warps i with
  | none => simp only [State.fuse, hw]
  | some w =>
    cases ids with
    | nil => simp only [State.fuse, hw]
    | cons k rest =>
      cases hk : Tbl.find w.strands k with
      | none => simp only [State.fuse, hw, hk]
      | some a =>
        rw [fuse_eq hw hk]
        exact warps_updWarp_ne h t _

theorem warps_releaseAt_ne (t : State) (key : Pc × Nat) : Tbl.find (t.releaseAt i key).warps j = Tbl.find t.warps j := by
  cases ht : Tbl.find t.warps i with
  | none => simp only [State.releaseAt, ht]
  | some v => simp only [State.releaseAt, ht, warps_updWarp_ne h, warps_fuse_ne h]

/-- The release of one warp leaves the others. -/
theorem warps_releaseWarp_ne (s : State) : Tbl.find (s.releaseWarp i).warps j = Tbl.find s.warps j := by
  cases hw : Tbl.find s.warps i with
  | none => simp only [State.releaseWarp, hw]
  | some w =>
    rw [releaseWarp_eq hw, warps_updWarp_ne h]
    exact List.foldlRecOn _ _ (motive := fun t : State => Tbl.find t.warps j = Tbl.find s.warps j) rfl
      fun t ht key _ => (warps_releaseAt_ne h t key).trans ht

end

/-- A warp has one strand, which stands at a barrier, and no lanes set aside. -/
def State.AtBar (s : State) (wid sid : Nat) (st : Strand) : Prop :=
  ∃ w j n, Tbl.find s.warps wid = some w ∧ w.strands = [(sid, st)] ∧ w.asides = [] ∧ st.parked = some (.bar j, n)

/-- A warp has one strand, which waits for nothing. -/
def State.Passed (s : State) (wid sid : Nat) (st : Strand) : Prop :=
  ∃ w, Tbl.find s.warps wid = some w ∧ w.strands = [(sid, st)] ∧ st.parked = none

section
variable {s : State} {wid sid : Nat} {st : Strand}

/-- The only strand of a warp is behind its barrier once the warp is released. -/
theorem State.AtBar.releaseWarp (h : s.AtBar wid sid st) :
    ∃ b, (s.releaseWarp wid).Passed wid sid b ∧ b.pc = st.pc + 1 ∧ b.em = st.em ∧ b.mem = st.mem := by
  obtain ⟨w, j, n, hw, hs, ha, hp⟩ := h
  have hk : Tbl.find w.strands sid = some st := by rw [hs, Tbl.find, if_pos rfl]
  have hone := releaseWarp_one (k := sid) (rest := []) (pc := st.pc) (n := st.rstack.length) hw (by rw [hs]; rfl) (by
    rw [hs]
    exact List.forall_mem_singleton.2 ⟨rfl, rfl, j, n, hp⟩)
  rw [ha, List.filter_nil, List.map_nil, List.map_nil] at hone
  have hpick : w.pick [sid] = [st] := by rw [Warp.pick, List.filterMap_cons_some hk, List.filterMap_nil]
  rw [hone, fuse_eq hw hk, hpick]
  generalize w.commonSplit [sid] [] = sp
  refine ⟨{ (st.fusion [st] []).advance 1 with split := sp },
    ⟨(w.fused sid [] { (st.fusion [st] []).advance 1 with split := sp }).pastBar (st.pc, st.rstack.length), ?_, ?_, rfl⟩, rfl, ?_, ?_⟩
  · exact find_updWarp (s := (s.updWarp wid _).adopt wid sid []) (find_updWarp hw _) _
  · have hput : Tbl.put w.strands sid { (st.fusion [st] []).advance 1 with split := sp } =
        [(sid, { (st.fusion [st] []).advance 1 with split := sp })] := by
      rw [hs, Tbl.put, if_neg (Nat.lt_irrefl _), if_pos rfl]
    exact hput
  · exact BitVec.zero_or
  · exact BitVec.zero_or

theorem State.Passed.releaseWarp (h : s.Passed wid sid st) : (s.releaseWarp wid).Passed wid sid st := by
  obtain ⟨w, hw, hs, hp⟩ := h
  have hkeys : (w.strands.filterMap fun p => p.2.barKey) = [] := by
    rw [hs, List.filterMap_cons, Strand.barKey, hp]
    rfl
  refine ⟨w.asidesPast, ?_, hs, hp⟩
  rw [releaseWarp_eq hw, hkeys]
  exact (Tbl.find_upd ..).trans ((if_pos rfl).trans (congrArg _ hw))

theorem State.Passed.releaseAll (h : s.Passed wid sid st) (l : List Nat) : (l.foldl State.releaseWarp s).Passed wid sid st := by
  refine List.foldlRecOn _ _ (motive := fun t : State => t.Passed wid sid st) h fun t ht i _ => ?_
  by_cases hi : wid = i
  · exact hi ▸ ht.releaseWarp
  · obtain ⟨w, hw, hs, hp⟩ := ht
    exact ⟨w, (warps_releaseWarp_ne hi t).trans hw, hs, hp⟩

/-- However often a warp stands in a barrier's unit, its only strand goes past the barrier once. -/
theorem State.AtBar.releaseAll (l : List Nat) (hl : wid ∈ l) (h : s.AtBar wid sid st) :
    ∃ b, (l.foldl State.releaseWarp s).Passed wid sid b ∧ b.pc = st.pc + 1 ∧ b.em = st.em ∧ b.mem = st.mem := by
  induction l generalizing s with
  | nil => exact absurd hl List.not_mem_nil
  | cons i l ih =>
    by_cases hi : wid = i
    · subst hi
      obtain ⟨b, hb, hrest⟩ := h.releaseWarp
      exact ⟨b, hb.releaseAll l, hrest⟩
    · obtain ⟨w, j, n, hw, hrest⟩ := h
      exact ih ((List.mem_cons.1 hl).resolve_left hi) ⟨w, j, n, (warps_releaseWarp_ne hi s).trans hw, hrest⟩

end

/-! ### The last arrival (R122) -/

section
variable {s : State} {x : Who} (hc : Clear s x) (hd : x.st.dom = 0)
include hc hd

theorem exec_bar (k : BarKind) : exec (.bar k) s = .next (s.parkAside x.wid x.sid (.bar k)) :=
  (issue_clear hc _).trans (congrArg _ (if_neg (not_not.2 hd)))

/-- The only strand of its warp, at a barrier that all others of the unit have reached, is behind it once the barrier has released. -/
theorem bar_passes {k : BarKind} {c : Crew} (hcr : s.crewOf x.w = some c) (hs : x.w.strands = [(x.sid, x.st)]) (hdef : x.w.deferred = [])
    (has : x.w.asides = []) (hend : x.w.ended = false) (hun : s.undoneIds x.agent = [])
    (hq : barKindOf c.superstep k = .ss → c.comm = true → s.spanQuiet c.span = true)
    (hall : ∀ q ∈ s.barUnit x.w.crew c (barKindOf c.superstep k), q.2.rung = none ∧ q.2.rungQ = [] ∧
      ∀ i ∈ q.2.warps, i ≠ x.wid → ∀ v, Tbl.find s.warps i = some v → s.arrived i v c.superstep (barKindOf c.superstep k) = true)
    (hin : ∃ q ∈ s.barUnit x.w.crew c (barKindOf c.superstep k), x.wid ∈ q.2.warps) :
    ∃ t u v st, exec (.bar k) s = .next t ∧ exec (.barrierRelease x.wid k) t = .next u ∧ Tbl.find u.warps x.wid = some v ∧
      Tbl.find v.strands x.sid = some st ∧ st.pc = x.st.pc + 1 ∧ st.em = x.st.em ∧ st.mem = x.st.mem ∧ st.parked = none := by
  obtain ⟨-, hat, -, hw, hst, -⟩ := who_spec hc.who
  obtain ⟨n, hpark⟩ := park_spec hw hst (.bar k)
  let st' : Strand := { x.st with parked := some (.bar k, n) }
  let w' : Warp := { x.w with strands := [(x.sid, st')] }
  let t : State := s.withStrand x fun st => { st with parked := some (.bar k, n) }
  have ht : exec (.bar k) s = .next t := by
    rw [exec_bar hc hd, parkAside_parks hat (by rw [hdef]; exact List.forall_mem_nil _), hpark]
  have hwt : Tbl.find t.warps x.wid = some w' := by
    refine (Tbl.find_upd ..).trans ((if_pos rfl).trans ?_)
    rw [hw, Option.map_some, hs, Tbl.upd, Tbl.find, if_pos rfl]
    simp only [Tbl.put, Nat.lt_irrefl, if_false, if_true]
    rfl
  have hkeep : ∀ st : Strand, ({ st with parked := some (.bar k, n) } : Strand).past = st.past ∧
      ({ st with parked := some (.bar k, n) } : Strand).dom = st.dom := fun _ => ⟨rfl, rfl⟩
  have hmine : t.arrived x.wid w' c.superstep (barKindOf c.superstep k) = true := by
    have hidle : t.undoneIds (.strand x.wid x.sid) = [] := (undoneIds_withStrand hkeep _).trans hun
    simp only [State.arrived, w', st', hdef, has, List.all_cons, List.all_nil, List.isEmpty_nil, List.isEmpty_cons, Bool.not_false, hidle,
      beq_self_eq_true, Bool.and_self, Bool.or_true]
  have hunit : ∀ q ∈ t.barUnit w'.crew c (barKindOf c.superstep k), q.2.rung = none ∧ q.2.rungQ = [] ∧ ∀ i ∈ q.2.warps, ∀ v,
      Tbl.find t.warps i = some v → t.arrived i v c.superstep (barKindOf c.superstep k) = true := by
    intro q hq
    obtain ⟨hr, hrq, ha⟩ := hall q hq
    refine ⟨hr, hrq, fun i hi v hv => ?_⟩
    by_cases he : i = x.wid
    · subst he
      obtain rfl := Option.some.inj (hwt.symm.trans hv)
      exact hmine
    · rw [arrived_withStrand hkeep]
      exact ha i hi he v (((Tbl.find_upd ..).trans (if_neg (Ne.symm he))).symm.trans hv)
  have hsome : ∃ q ∈ t.barUnit w'.crew c (barKindOf c.superstep k), ∃ i ∈ q.2.warps, ∃ v, Tbl.find t.warps i = some v ∧ v.ended = false := by
    obtain ⟨q, hq, hi⟩ := hin
    exact ⟨q, hq, x.wid, hi, w', hwt, hend⟩
  have hquiet : ¬ (barKindOf c.superstep k = .ss ∧ c.comm = true ∧ ¬ t.spanQuiet c.span = true) := by
    have hpends (i : Nat) : ((Tbl.find t.warps i).all fun w => w.strands.all fun p => p.2.pends.isEmpty) =
        (Tbl.find s.warps i).all fun w => w.strands.all fun p => p.2.pends.isEmpty := by
      by_cases he : i = x.wid
      · subst he
        rw [hwt, hw, Option.all_some, Option.all_some, hs]
        rfl
      · exact congrArg (fun o : Option Warp => o.all _) ((Tbl.find_upd ..).trans (if_neg (Ne.symm he)))
    rintro ⟨hss, hcomm, hn⟩
    refine hn ?_
    have := hq hss hcomm
    simp only [State.spanQuiet] at this ⊢
    simp only [hpends]
    exact this
  have hrel := exec_barrierRelease (k := k) (c := c) hwt hcr hunit hsome
  rw [if_neg hquiet] at hrel
  have hbar : t.AtBar x.wid x.sid st' := ⟨w', k, n, hwt, rfl, has, rfl⟩
  have hmem : x.wid ∈ (t.barUnit w'.crew c (barKindOf c.superstep k)).flatMap fun q => q.2.warps := by
    obtain ⟨q, hq, hi⟩ := hin
    exact List.mem_flatMap.2 ⟨q, hq, hi⟩
  obtain ⟨b, ⟨v, hv, hvs, hvp⟩, hpc, hem, hmem⟩ := hbar.releaseAll _ hmem
  refine ⟨t, _, v, b, ht, hrel, ?_, ?_, hpc, hem, hmem, hvp⟩
  · split
    · exact hv
    · exact hv
  · rw [hvs, Tbl.find, if_pos rfl]

end

end Sys2Proof.Machine
end


section
/-! Rotations of tiles (R125, R149), and what warps do together: O22. -/

namespace Sys2Proof.Machine

/-- A granule whose tile is being rotated: on the engine side, with writes in flight (R125). -/
def Gran.taken (g : Gran) : Gran := { g with own := true, inf := true }

/-- A run of granules, each taken. -/
theorem gran_updGrans_taken (k : Core) (g n h : Nat) :
    (k.updGrans g n Gran.taken).gran h = if g ≤ h ∧ h < g + n then (k.gran h).taken else k.gran h := by
  induction n with
  | zero => exact (if_neg (by omega)).symm
  | succ n ih =>
    have hs : (k.updGrans g (n + 1) Gran.taken) = (k.updGrans g n Gran.taken).setGran (g + n) ((k.updGrans g n Gran.taken).gran (g + n)).taken := by
      rw [Core.updGrans, List.range_succ, List.foldl_append]
      rfl
    rw [hs, Core.gran_setGran, ih]
    by_cases he : g + n = h
    · subst he
      rw [if_pos rfl, if_pos (by omega), ih, if_neg (by omega)]
    · rw [if_neg he]
      exact if_congr (by omega) rfl rfl

theorem word_updGrans (k : Core) (g n : Nat) (f : Gran → Gran) (a : Nat) :
    (k.updGrans g n f).word a = k.word a ∧ (k.updGrans g n f).mark a = k.mark a :=
  List.foldlRecOn _ _ (motive := fun c : Core => c.word a = k.word a ∧ c.mark a = k.mark a) ⟨rfl, rfl⟩ fun _ h _ _ => h

/-- What one crew of a rotation takes part with: its number and itself, its arrival, and what is on its way to it. -/
structure RrotPart where
  (cid : Nat) (c : Crew) (a : RrotArr) (data : List (Word × Nat)) (vals : List Bool)

/-- One crew's part of a rotation (R149). -/
def State.rrotTake (s : State) (p : RrotPart) : State :=
  let t : State := { s with nextId := s.nextId + 1 }
  let t := match p.c.rrotTile with
    | some v => t.updCore p.c.core fun k => k.updGrans v.gran v.granules Gran.taken
    | none => t
  let t := t.advance p.c.warp0 p.a.sid 1
  let t := t.updStrand p.c.warp0 p.a.sid fun st => { st with pends := st.pends ++ [⟨s.nextId, p.a.la, [], none, 0, false, false, true, 0⟩] }
  t.setRrot p.cid (some (p.a.sent s.nextId p.data p.vals))

/-- The part of a crew whose tile is to receive that of another crew. -/
def State.partFrom (s : State) (q : Nat × Crew) (a : RrotArr) (src : Crew) (t : Tile) : RrotPart :=
  ⟨q.1, q.2, a, (List.range t.words).map (fun i => ((s.core src.core).word (t.word i), (s.core src.core).mark (t.word i))),
    (List.range t.granules).map fun i => ((s.core src.core).gran (t.gran + i)).val⟩

/-- The part of a crew among those of its braid, where it has one. -/
def State.rrotPart (s : State) (l : List (Nat × Crew)) (q : Nat × Crew) : Option RrotPart :=
  match q.2.rrotArr, (l.find? fun p => (s.cinbOf p.2 + 1) % l.length == s.cinbOf q.2).map Prod.snd with
  | some a, some src => (src.rrotTile).map (s.partFrom q a src)
  | _, _ => none

/-- A part is of its crew. -/
theorem rrotPart_of {s : State} {l : List (Nat × Crew)} {q : Nat × Crew} {p : RrotPart} (h : s.rrotPart l q = some p) : p.cid = q.1 ∧ p.c = q.2 := by
  unfold State.rrotPart at h
  split at h
  · obtain ⟨t, -, rfl⟩ := Option.map_eq_some_iff.1 h
    exact ⟨rfl, rfl⟩
  · cases h

/-- The parts of the crews of a braid. -/
def State.rrotParts (s : State) (l : List (Nat × Crew)) : List RrotPart := l.filterMap (s.rrotPart l)

/-- A part as the model's own tuple. -/
def RrotPart.tuple (p : RrotPart) : Nat × Crew × RrotArr × List (Word × Nat) × List Bool := (p.cid, p.c, p.a, p.data, p.vals)

/-- A rendezvous is the parts of its crews, one after the other. -/
theorem rrotMeet_eq (s : State) (l : List (Nat × Crew)) : s.rrotMeet l = (s.rrotParts l).foldl State.rrotTake s := by
  refine (congrArg (List.foldl _ s) (?_ : _ = (s.rrotParts l).map RrotPart.tuple)).trans ?_
  · rw [State.rrotParts, List.map_filterMap]
    refine List.filterMap_congr fun q _ => ?_
    simp only [State.rrotPart, State.cinbOf]
    cases q.2.rrotArr with
    | none => rfl
    | some a =>
      cases (l.find? fun p => (((Tbl.find s.warps p.2.warp0).map Warp.cinb).getD 0 + 1) % l.length ==
          ((Tbl.find s.warps q.2.warp0).map Warp.cinb).getD 0).map Prod.snd with
      | none => rfl
      | some src =>
        dsimp only
        cases src.rrotTile <;> rfl
  · rw [List.foldl_map]
    refine congrArg (fun f => List.foldl f s _) (funext₂ fun t p => ?_)
    simp only [RrotPart.tuple, State.rrotTake]
    cases p.c.rrotTile <;> rfl

/-- A granule is as before, or has been taken. -/
def Gran.Held (g h : Gran) : Prop := h = g ∨ h = g.taken

theorem Gran.Held.trans {a b c : Gran} (h : a.Held b) (k : b.Held c) : a.Held c := by
  rcases h with rfl | rfl
  · exact k
  · rcases k with rfl | rfl <;> exact .inr rfl

/-- A granule that has been taken stays so. -/
theorem Gran.Held.taken {a b : Gran} (h : a.taken.Held b) : b = a.taken := h.elim id id

/-- The strand of a crew behind an `rrot` that has passed. -/
def Strand.rotating (st : Strand) (n la : Nat) : Strand :=
  { st.advance 1 with pends := (st.advance 1).pends ++ [⟨n, la, [], none, 0, false, false, true, 0⟩] }

/-- The core of a crew whose tile has been taken. -/
def RrotPart.core (p : RrotPart) (k : Core) : Core :=
  match p.c.rrotTile with
  | some v => k.updGrans v.gran v.granules Gran.taken
  | none => k

theorem RrotPart.word_core (p : RrotPart) (k : Core) (a : Nat) : (p.core k).word a = k.word a ∧ (p.core k).mark a = k.mark a := by
  unfold RrotPart.core
  cases p.c.rrotTile with
  | none => exact ⟨rfl, rfl⟩
  | some v => exact word_updGrans k v.gran v.granules Gran.taken a

theorem RrotPart.gran_core (p : RrotPart) (k : Core) (h : Nat) : (k.gran h).Held ((p.core k).gran h) := by
  unfold RrotPart.core
  cases p.c.rrotTile with
  | none => exact .inl rfl
  | some v =>
    dsimp only
    rw [gran_updGrans_taken]
    split
    · exact .inr rfl
    · exact .inl rfl

section
variable (s : State) (p : RrotPart)

theorem rrotTake_core (c : Nat) : (s.rrotTake p).core c = if p.c.core = c then p.core (s.core c) else s.core c := by
  unfold State.rrotTake RrotPart.core
  cases p.c.rrotTile with
  | none => exact (ite_self _).symm
  | some v => exact core_updCore _ p.c.core c fun k => k.updGrans v.gran v.granules Gran.taken

theorem rrotTake_crews (i : Nat) : Tbl.find (s.rrotTake p).crews i =
    if p.cid = i then (Tbl.find s.crews i).map fun c => { c with rrotArr := some (p.a.sent s.nextId p.data p.vals) }
    else Tbl.find s.crews i := by
  unfold State.rrotTake
  cases p.c.rrotTile <;> exact Tbl.find_upd _ _ _ _

theorem rrotTake_warps (i : Nat) : Tbl.find (s.rrotTake p).warps i =
    if p.c.warp0 = i then (Tbl.find s.warps i).map fun w => w.updStrand p.a.sid fun st => st.rotating s.nextId p.a.la
    else Tbl.find s.warps i := by
  have h : Tbl.find (Tbl.upd (Tbl.upd s.warps p.c.warp0 fun w => w.updStrand p.a.sid fun st => st.advance 1) p.c.warp0 fun w =>
      w.updStrand p.a.sid fun st => { st with pends := st.pends ++ [⟨s.nextId, p.a.la, [], none, 0, false, false, true, 0⟩] }) i =
      if p.c.warp0 = i then (Tbl.find s.warps i).map fun w => w.updStrand p.a.sid fun st => st.rotating s.nextId p.a.la
      else Tbl.find s.warps i := by
    rw [Tbl.upd_upd, Tbl.find_upd]
    simp only [Warp.updStrand, Tbl.upd_upd]
    rfl
  refine Eq.trans ?_ h
  unfold State.rrotTake
  cases p.c.rrotTile <;> rfl

end

/-- What the parts `l` of a rotation, taken one after the other, come to (R149). -/
structure RrotDone (s : State) (l : List RrotPart) (t : State) : Prop where
  words : ∀ c a, (t.core c).word a = (s.core c).word a ∧ (t.core c).mark a = (s.core c).mark a
  grans : ∀ c h, ((s.core c).gran h).Held ((t.core c).gran h)
  crews : ∀ i, i ∉ l.map RrotPart.cid → Tbl.find t.crews i = Tbl.find s.crews i
  warps : ∀ i, i ∉ l.map (fun p => p.c.warp0) → Tbl.find t.warps i = Tbl.find s.warps i
  parts : ∀ p ∈ l, ∃ n,
    Tbl.find t.crews p.cid = (Tbl.find s.crews p.cid).map (fun c => { c with rrotArr := some (p.a.sent n p.data p.vals) }) ∧
    Tbl.find t.warps p.c.warp0 = (Tbl.find s.warps p.c.warp0).map (fun w => w.updStrand p.a.sid fun st => st.rotating n p.a.la) ∧
    ∀ v, p.c.rrotTile = some v → ∀ i, i < v.granules → (t.core p.c.core).gran (v.gran + i) = ((s.core p.c.core).gran (v.gran + i)).taken

theorem rrotDone_foldl (l : List RrotPart) (s : State) (hc : (l.map RrotPart.cid).Nodup) (hw : (l.map fun p => p.c.warp0).Nodup) :
    RrotDone s l (l.foldl State.rrotTake s) := by
  induction l generalizing s with
  | nil => exact ⟨fun _ _ => ⟨rfl, rfl⟩, fun _ _ => .inl rfl, fun _ _ => rfl, fun _ _ => rfl, fun _ h => nomatch h⟩
  | cons p l ih =>
    obtain ⟨hpc, hcl⟩ := List.nodup_cons.1 hc
    obtain ⟨hpw, hwl⟩ := List.nodup_cons.1 hw
    obtain ⟨hwords, hgrans, hcrews, hwarps, hparts⟩ := ih (s.rrotTake p) hcl hwl
    have hcore (c : Nat) : ∀ h, ((s.core c).gran h).Held (((s.rrotTake p).core c).gran h) := fun h => by
      rw [rrotTake_core]
      split
      · exact p.gran_core _ h
      · exact .inl rfl
    refine ⟨fun c a => ?_, fun c h => (hcore c h).trans (hgrans c h), fun i hi => ?_, fun i hi => ?_, fun q hq => ?_⟩
    · have := hwords c a
      rw [rrotTake_core] at this
      split at this
      · exact ⟨this.1.trans (p.word_core _ a).1, this.2.trans (p.word_core _ a).2⟩
      · exact this
    · obtain ⟨hne, hi⟩ := List.ne_and_not_mem_of_not_mem_cons hi
      rw [List.foldl_cons, hcrews i hi, rrotTake_crews, if_neg (Ne.symm hne)]
    · obtain ⟨hne, hi⟩ := List.ne_and_not_mem_of_not_mem_cons hi
      rw [List.foldl_cons, hwarps i hi, rrotTake_warps, if_neg (Ne.symm hne)]
    · rcases List.mem_cons.1 hq with rfl | hq
      · refine ⟨s.nextId, ?_, ?_, fun v hv i hi => ?_⟩
        · rw [List.foldl_cons, hcrews _ hpc, rrotTake_crews, if_pos rfl]
        · rw [List.foldl_cons, hwarps _ hpw, rrotTake_warps, if_pos rfl]
        · refine Gran.Held.taken (Eq.subst (motive := fun g => Gran.Held g _) ?_ (hgrans q.c.core (v.gran + i)))
          rw [rrotTake_core, if_pos rfl, RrotPart.core, hv]
          exact (gran_updGrans_taken ..).trans (if_pos ⟨by omega, by omega⟩)
      · obtain ⟨n, hqc, hqw, hqg⟩ := hparts q hq
        have hcid : p.cid ≠ q.cid := fun h => hpc (h ▸ List.mem_map_of_mem hq)
        have hwid : p.c.warp0 ≠ q.c.warp0 := fun h => hpw (List.mem_map.2 ⟨q, hq, h.symm⟩)
        refine ⟨n, ?_, ?_, fun v hv i hi => ?_⟩
        · rw [List.foldl_cons, hqc, rrotTake_crews, if_neg hcid]
        · rw [List.foldl_cons, hqw, rrotTake_warps, if_neg hwid]
        · rw [List.foldl_cons, hqg v hv i hi]
          rcases hcore q.c.core (v.gran + i) with h | h <;> rw [h]
          rfl

/-- A list of what the elements of another come to, each or none, in their order. -/
theorem map_filterMap_sublist {α β γ : Type} (l : List α) (f : α → Option β) (g : β → γ) (h : α → γ)
    (hf : ∀ a b, f a = some b → g b = h a) : ((l.filterMap f).map g).Sublist (l.map h) := by
  induction l with
  | nil => exact List.Sublist.slnil
  | cons a l ih =>
    cases hfa : f a with
    | none => rw [List.filterMap_cons_none hfa]; exact ih.cons _
    | some b => rw [List.filterMap_cons_some hfa, List.map_cons, List.map_cons, hf a b hfa]; exact ih.cons_cons _

/-- The rendezvous of crews of different numbers and warps rotates their tiles. -/
theorem rrotMeet_rotated {s : State} {l : List (Nat × Crew)} (hc : (l.map Prod.fst).Nodup) (hw : (l.map fun q => q.2.warp0).Nodup)
    (hf : ∀ q ∈ l, Tbl.find s.crews q.1 = some q.2) : Rotated s l (s.rrotMeet l) := by
  obtain ⟨hwords, -, -, -, hparts⟩ := rrotDone_foldl (s.rrotParts l) s
    (hc.sublist (map_filterMap_sublist l (s.rrotPart l) _ _ fun q p h => (rrotPart_of h).1))
    (hw.sublist (map_filterMap_sublist l (s.rrotPart l) _ _ fun q p h => congrArg Crew.warp0 (rrotPart_of h).2))
  rw [rrotMeet_eq]
  refine ⟨hwords, fun q hq p a v b hp ha hv hb => ?_⟩
  have hpart : s.rrotPart l q = some (s.partFrom q a p.2 b) := by
    simp only [State.rrotPart, hp, ha, Option.map_some, hb]
  obtain ⟨n, hcrew, hwarp, hgran⟩ := hparts _ (List.mem_filterMap.2 ⟨q, hq, hpart⟩)
  exact ⟨n, hcrew.trans (congrArg (Option.map _) (hf q hq)), hwarp, hgran v hv⟩

section
variable {s : State} {x : Who} (hc : Clear s x) (hd : x.st.dom = 0) {f : RrotF} {c : Crew} {t : Tile} {u : State}
  (hcr : s.crewOf x.w = some c) (hwinc : x.w.winc = 0) (ha : ∀ a, c.rrotArr = some a → a.sid = x.sid ∧ a.going = false)
  (ht : Tbl.find c.tiles f.tile.val = some t) (hown : ∀ i, i < t.granules → ((s.core x.core).gran (t.gran + i)).own = false)
  (hu : u = s.setRrot x.w.crew (some ⟨x.sid, f.tile.val, (c.rrotArr.map RrotArr.since).getD s.time, f.la.toNat, false, 0, [], []⟩))
  (hlen : (u.crewsWith fun q => q.braid == c.braid).length = dfield (u.descOf c) 424 422 + 1)
include hc hd hcr hwinc ha ht hown hu hlen

/-- An `rrot` of a crew whose braid is whole, with a tile on the warp side. -/
theorem exec_rrot : exec (.rrot f) s = .next (
    if !(u.crewsWith fun q => q.braid == c.braid).all fun q => q.2.rrotArr.any fun a => !a.going then u.park x.wid x.sid .rrot
    else if (u.crewsWith fun q => q.braid == c.braid).any fun q => (q.2.rrotTile.map fun u => (u.rows, u.cols, u.esz)) != some (t.rows, t.cols, t.esz) then
      u.rrotFail (u.crewsWith fun q => q.braid == c.braid) 0x32
    else u.rrotMeet (u.crewsWith fun q => q.braid == c.braid)) := by
  have hany : (c.rrotArr.any fun a => a.sid != x.sid || a.going) = false := by
    cases harr : c.rrotArr with
    | none => rfl
    | some a =>
      obtain ⟨hs, hg⟩ := ha a harr
      simp only [Option.any_some, hs, hg, bne_self_eq_false, Bool.or_false]
  have hgr : ((List.range t.granules).any fun i => ((s.core x.core).gran (t.gran + i)).own) = false :=
    List.any_eq_false.2 fun i hi => Bool.eq_false_iff.1 (hown i (List.mem_range.1 hi))
  refine (issue_clear hc _).trans (congrArg _ ?_)
  simp only [hcr, hd, hwinc, hany, ht, hgr, ne_eq, not_true_eq_false, if_false, Bool.false_eq_true, ← hu, hlen]

/-- The last crew of a braid to arrive, each with a tile of one shape: the tiles rotate (R149). -/
theorem rrot_meets (hall : ∀ q ∈ u.crewsWith fun q => q.braid == c.braid, (∃ a, q.2.rrotArr = some a ∧ a.going = false) ∧
      ∃ v, q.2.rrotTile = some v ∧ v.rows = t.rows ∧ v.cols = t.cols ∧ v.esz = t.esz)
    (hn : ((u.crewsWith fun q => q.braid == c.braid).map Prod.fst).Nodup)
    (hw : ((u.crewsWith fun q => q.braid == c.braid).map fun q => q.2.warp0).Nodup)
    (hf : ∀ q ∈ u.crewsWith fun q => q.braid == c.braid, Tbl.find u.crews q.1 = some q.2) :
    ∃ v, exec (.rrot f) s = .next v ∧ Rotated u (u.crewsWith fun q => q.braid == c.braid) v := by
  have harr : ((u.crewsWith fun q => q.braid == c.braid).all fun q => q.2.rrotArr.any fun a => !a.going) = true :=
    List.all_eq_true.2 fun q hq => by
      obtain ⟨⟨a, ha, hg⟩, -⟩ := hall q hq
      rw [ha, Option.any_some, hg, Bool.not_false]
  have hshape : ((u.crewsWith fun q => q.braid == c.braid).any fun q =>
      (q.2.rrotTile.map fun u => (u.rows, u.cols, u.esz)) != some (t.rows, t.cols, t.esz)) = false :=
    List.any_eq_false.2 fun q hq => by
      obtain ⟨-, v, hv, hr, hcol, he⟩ := hall q hq
      rw [hv, Option.map_some, hr, hcol, he, bne_self_eq_false]
      exact Bool.false_ne_true
  refine ⟨_, ?_, rrotMeet_rotated hn hw hf⟩
  rw [exec_rrot hc hd hcr hwinc ha ht hown hu hlen, harr, hshape]
  rfl

/-- An `rrot` before the last crew of its braid waits. -/
theorem rrot_waits (hq : ∃ q ∈ u.crewsWith fun q => q.braid == c.braid, ∀ a, q.2.rrotArr = some a → a.going = true) :
    exec (.rrot f) s = .next (u.park x.wid x.sid .rrot) := by
  obtain ⟨q, hq, hno⟩ := hq
  have hall : ((u.crewsWith fun q => q.braid == c.braid).all fun q => q.2.rrotArr.any fun a => !a.going) = false :=
    List.all_eq_false.2 ⟨q, hq, fun h => by
      obtain ⟨a, ha, hg⟩ := (Option.any_eq_true ..).1 h
      rw [hno a ha] at hg
      cases hg⟩
  rw [exec_rrot hc hd hcr hwinc ha ht hown hu hlen, hall]
  rfl

end

/-- Settles O22: an exchange issues for both warps at once, a barrier releases the only strand that is missing, and a rotation takes its parts one crew after the other. -/
theorem gangInstructions : Obligations.GangInstructions := by
  unfold Obligations.GangInstructions
  intro s x hc hd
  refine ⟨fun f r pid pw ha ho hr hp => ?_, fun k => ⟨exec_bar hc hd k, fun c hcr hs hdef has hend hun _ => bar_passes hc hd hcr hs hdef has hend hun⟩, ?_⟩
  · subst hr
    exact ⟨xch_self hc hd ha ho hp, fun a y hne harr hy hm hl hwide hoy => xch_meets hc hd ha ho hp hne harr hy hm hl hwide hoy,
      xch_waits hc hd ha ho hp⟩
  · intro f c t u hcr hwinc ha ht hown hu hlen
    exact ⟨rrot_meets hc hd hcr hwinc ha ht hown hu hlen, rrot_waits hc hd hcr hwinc ha ht hown hu hlen⟩

end Sys2Proof.Machine
end


section
/-! Memory and its poison marks over a step (R151, R319): what keeps them as they are. -/

namespace Sys2Proof.Machine

/-- One state holds the bytes and the poison marks of another. -/
@[reducible, simp] def State.Keeps (s t : State) : Prop := t.mem = s.mem ∧ t.mmarks = s.mmarks

/-- Bytes and poison marks are in canonical form. -/
@[reducible, simp] def State.Wf (s : State) : Prop := Memory.wf s.mem = true ∧ Sparse.wf 0 s.mmarks = true

theorem State.Keeps.trans {s t u : State} (h : s.Keeps t) (k : t.Keeps u) : s.Keeps u := ⟨k.1.trans h.1, k.2.trans h.2⟩

theorem State.Keeps.ite {s t u : State} {c : Prop} [Decidable c] (h : s.Keeps t) (k : s.Keeps u) : s.Keeps (if c then t else u) := by
  split
  · exact h
  · exact k

theorem State.Keeps.form {s t : State} (h : s.Keeps t) (hs : s.Wf) : t.Wf := by
  obtain ⟨hm, hk⟩ := h
  rw [State.Wf, hm, hk]
  exact hs

/-- A fold of steps that keep bytes and marks keeps them. -/
theorem foldl_keeps {α : Type} (l : List α) (f : State → α → State) (hf : ∀ (s : State) a, s.Keeps (f s a)) (s : State) : s.Keeps (l.foldl f s) :=
  List.foldlRecOn l f (motive := fun t => s.Keeps t) ⟨rfl, rfl⟩ fun t h a _ => State.Keeps.trans h (hf t a)

@[simp] theorem foldl_mem {α : Type} (l : List α) (f : State → α → State) (s : State) (hf : ∀ (s : State) a, s.Keeps (f s a)) :
    (l.foldl f s).mem = s.mem := (foldl_keeps l f hf s).1

@[simp] theorem foldl_mmarks {α : Type} (l : List α) (f : State → α → State) (s : State) (hf : ∀ (s : State) a, s.Keeps (f s a)) :
    (l.foldl f s).mmarks = s.mmarks := (foldl_keeps l f hf s).2

end Sys2Proof.Machine
end


section
/-! Strands, traps, engine queues and operands leave bytes and poison marks as they are. -/

namespace Sys2Proof.Machine

@[simp] theorem State.updCore_keeps (s : State) (c : Nat) (f : Core → Core) : s.Keeps (s.updCore c f) := ⟨rfl, rfl⟩

@[simp] theorem State.warpWrite_keeps (s : State) (core a : Nat) (v : Word) (mk : Nat) : s.Keeps (s.warpWrite core a v mk) := ⟨rfl, rfl⟩

@[simp] theorem State.updWarp_keeps (s : State) (w : Nat) (f : Warp → Warp) : s.Keeps (s.updWarp w f) := ⟨rfl, rfl⟩

@[simp] theorem State.updDom_keeps (s : State) (w d : Nat) (f : Dom → Dom) : s.Keeps (s.updDom w d f) := ⟨rfl, rfl⟩

@[simp] theorem State.updCrew_keeps (s : State) (c : Nat) (f : Crew → Crew) : s.Keeps (s.updCrew c f) := ⟨rfl, rfl⟩

@[simp] theorem State.updCtx_keeps (s : State) (c : Nat) (f : Context → Context) : s.Keeps (s.updCtx c f) := ⟨rfl, rfl⟩

@[simp] theorem State.setScalar_keeps (s : State) (core : Nat) (d : Dom) (k : Nat) (v : Word) : s.Keeps (s.setScalar core d k v) := ⟨rfl, rfl⟩

@[simp] theorem State.setPair_keeps (s : State) (core : Nat) (d : Dom) (k : Nat) (v : Dword) : s.Keeps (s.setPair core d k v) := ⟨rfl, rfl⟩

@[simp] theorem State.setTile_keeps (s : State) (wid : Nat) (w : Warp) (dn t : Nat) (v : Option Tile) : s.Keeps (s.setTile wid w dn t v) := by
  unfold State.setTile
  (repeat' split) <;> simp

@[simp] theorem State.fresh_keeps (s : State) : s.Keeps s.fresh.2 := ⟨rfl, rfl⟩

@[simp] theorem State.park_keeps (s : State) (wid sid : Nat) (w : Wait) : s.Keeps (s.park wid sid w) := ⟨rfl, rfl⟩

@[simp] theorem State.advance_keeps (s : State) (wid sid n : Nat) : s.Keeps (s.advance wid sid n) := ⟨rfl, rfl⟩

@[simp] theorem State.jump_keeps (s : State) (wid sid : Nat) (pc : Pc) : s.Keeps (s.jump wid sid pc) := ⟨rfl, rfl⟩

@[simp] theorem State.dropPends_keeps (s : State) (wid : Nat) (l : List Nat) : s.Keeps (s.dropPends wid l) := ⟨rfl, rfl⟩

@[simp] theorem State.adopt_keeps (s : State) (wid k : Nat) (l : List Nat) : s.Keeps (s.adopt wid k l) := ⟨rfl, rfl⟩

@[simp] theorem State.fuse_keeps (s : State) (wid : Nat) (ids : List Nat) (more : List (Mask × Mask)) (f : Strand → Strand) :
    s.Keeps (s.fuse wid ids more f) := by
  unfold State.fuse
  (repeat' split) <;> simp

@[simp] theorem State.tryJoin_keeps (s : State) (wid i : Nat) : s.Keeps (s.tryJoin wid i) := by
  unfold State.tryJoin
  (repeat' split) <;> simp

@[simp] theorem State.releaseJoins_keeps (s : State) (wid : Nat) : s.Keeps (s.releaseJoins wid) := by
  unfold State.releaseJoins
  split <;> simp

@[simp] theorem State.parkAside_keeps (s : State) (wid sid : Nat) (wt : Wait) : s.Keeps (s.parkAside wid sid wt) := by
  unfold State.parkAside
  (repeat' split) <;> simp

theorem State.reachJoin_keeps (s : State) (wid sid : Nat) : ∀ t, s.reachJoin wid sid = some t → s.Keeps t := by
  grind [State.reachJoin, State.tryJoin_keeps, State.park_keeps, State.parkAside_keeps]

theorem State.fork_keeps (s : State) (x : Who) (join : Option Pc) (depth : Nat) (keep : Side) (others : List Side) (taken : Bool) :
    ∀ t, s.fork x join depth keep others taken = some t → s.Keeps t := by
  grind [State.fork, State.fresh, State.updWarp]

@[simp] theorem State.endStrand_keeps (s : State) (wid sid : Nat) : s.Keeps (s.endStrand wid sid) := by
  unfold State.endStrand
  (repeat' split) <;> simp

@[simp] theorem State.exitLanes_keeps (s : State) (wid sid : Nat) (m : Mask) : s.Keeps (s.exitLanes wid sid m) := by
  unfold State.exitLanes
  split
  · simp
  · refine State.Keeps.trans (t := _) ⟨rfl, rfl⟩ (foldl_keeps _ _ (fun s i => ?_) _)
    (repeat' split) <;> simp

@[simp] theorem State.endIfEmpty_keeps (s : State) (wid sid : Nat) : s.Keeps (s.endIfEmpty wid sid) := by
  unfold State.endIfEmpty
  (repeat' split) <;> simp

@[simp] theorem State.dropLanes_keeps (s : State) (wid sid : Nat) (m : Mask) : s.Keeps (s.dropLanes wid sid m) := by
  simp [State.dropLanes]

@[simp] theorem State.noteLanded_keeps (s : State) (wid dom pair cmd : Nat) (l : List Nat) : s.Keeps (s.noteLanded wid dom pair cmd l) := ⟨rfl, rfl⟩

@[simp] theorem State.countBytes_keeps (s : State) (wid dom pair b : Nat) : s.Keeps (s.countBytes wid dom pair b).1 := by
  unfold State.countBytes
  dsimp only
  (repeat' split) <;> simp

@[simp] theorem State.pendFault_keeps (s : State) (wid dom pair seq : Nat) (t : Trap) : s.Keeps (s.pendFault wid dom pair seq t) := ⟨rfl, rfl⟩

@[simp] theorem State.clearPending_keeps (s : State) (wid dom pair : Nat) : s.Keeps (s.clearPending wid dom pair) := ⟨rfl, rfl⟩

@[simp] theorem State.releaseInf_keeps (s : State) (core : Nat) (l : List Nat) : s.Keeps (s.releaseInf core l) := ⟨rfl, rfl⟩

@[simp] theorem State.unpin_keeps (s : State) (key block : Nat) : s.Keeps (s.unpin key block) := ⟨rfl, rfl⟩

@[simp] theorem State.unpinRows_keeps (s : State) (c : Cmd) : s.Keeps (s.unpinRows c) := by
  unfold State.unpinRows
  split <;> simp

@[simp] theorem State.endCmd_keeps (s : State) (id out aux : Nat) : s.Keeps (s.endCmd id out aux) := by
  unfold State.endCmd
  dsimp only
  (repeat' split) <;> simp

@[simp] theorem State.dropLandings_keeps (s : State) (id : Nat) (c : Cmd) : s.Keeps (s.dropLandings id c) := ⟨rfl, rfl⟩

@[simp] theorem State.failCmd_keeps (s : State) (id : Nat) (t : Trap) : s.Keeps (s.failCmd id t) := by
  unfold State.failCmd
  dsimp only
  (repeat' split) <;> simp

@[simp] theorem State.abandon_keeps (s : State) (p : Cmd → Bool) (aux : Nat) : s.Keeps (s.abandon p aux) := by
  simp [State.abandon]

@[simp] theorem State.notify_keeps (s : State) (n : Notice) : s.Keeps (s.notify n) := ⟨rfl, rfl⟩

@[simp] theorem State.sendRungNotice_keeps (s : State) (ctx : Nat) : s.Keeps (s.sendRungNotice ctx) := by
  unfold State.sendRungNotice
  (repeat' split) <;> simp

@[simp] theorem State.enterCtx_keeps (s : State) (ctx cause : Nat) (vals : List Dword) : s.Keeps (s.enterCtx ctx cause vals) := by
  unfold State.enterCtx
  (repeat' split) <;> simp

@[simp] theorem State.enterCrew_keeps (s : State) (crew : Nat) (r : RungReq) : s.Keeps (s.enterCrew crew r) := by
  unfold State.enterCrew
  split <;> simp

@[simp] theorem State.startRung_keeps (s : State) (crew : Nat) (k : Crew) (r : RungReq) : s.Keeps (s.startRung crew k r) := by
  unfold State.startRung
  (repeat' split) <;> simp

@[simp] theorem State.openRung_keeps (s : State) (crew : Nat) (p : RungReq → Bool) : s.Keeps (s.openRung crew p) := by
  unfold State.openRung
  (repeat' split) <;> simp

@[simp] theorem State.windowWord_keeps (s : State) (write : Bool) (core : Nat) (l : WLane) : s.Keeps (s.windowWord write core l).1 := by
  unfold State.windowWord
  (repeat' split) <;> simp

@[simp] theorem State.settleWindows_keeps (s : State) (core g n : Nat) : s.Keeps (s.settleWindows core g n) := by
  refine foldl_keeps _ _ (fun s r => ?_) s
  refine List.foldlRecOn r.2.words _ (motive := fun q : State × List (Nat × WLane) => s.Keeps q.1) ⟨rfl, rfl⟩ fun q hq p _ => ?_
  dsimp only
  split
  · exact State.Keeps.trans hq (State.windowWord_keeps ..)
  · exact hq

@[simp] theorem State.scrubCallee_keeps (s : State) (wid dn : Nat) : s.Keeps (s.scrubCallee wid dn) := by
  unfold State.scrubCallee
  (repeat' split) <;> simp

@[simp] theorem State.leaveCall_keeps (s : State) (wid dn : Nat) (k : Call) : s.Keeps (s.leaveCall wid dn k) := by
  unfold State.leaveCall
  split <;> simp

@[simp] theorem State.zeroResults_keeps (s : State) (wid : Nat) (w : Warp) (cd : Dom) (k : Call) : s.Keeps (s.zeroResults wid w cd k).1 := by
  refine State.Keeps.trans (foldl_keeps _ _ (fun s a => ?_) s) (foldl_keeps _ (fun s i => s.setScalar (coreOf wid) cd i 0) (fun _ _ => ⟨rfl, rfl⟩) _)
  split <;> simp

@[simp] theorem State.killCall_keeps (n : Nat) : ∀ (s : State) (wid dn code fcause : Nat), s.Keeps (s.killCall n wid dn code fcause) := by
  induction n with
  | zero => exact fun _ _ _ _ _ => ⟨rfl, rfl⟩
  | succ n ih =>
    intro s wid dn code fcause
    unfold State.killCall
    dsimp only
    (repeat' split) <;> simp [ih]

@[simp] theorem State.leaveWarpRung_keeps (s : State) (x : Who) (t : Trap) (tpc : Pc) (why first opener : Nat) :
    s.Keeps (s.leaveWarpRung x t tpc why first opener) := by
  unfold State.leaveWarpRung
  dsimp only
  (repeat' split) <;> simp

@[simp] theorem State.enterTrap_keeps (s : State) (x : Who) (t : Trap) : s.Keeps (s.enterTrap x t) := by
  unfold State.enterTrap
  split <;> simp

@[simp] theorem State.trapAt_keeps (s : State) (wid sid : Nat) (t : Trap) : s.Keeps (s.trapAt wid sid t) := by
  unfold State.trapAt
  (repeat' split) <;> simp

@[simp] theorem State.returnTo_keeps (s : State) (wid sid : Nat) (r : TrapRec) (pc : Pc) (cl : Option Clause) (step : Bool) :
    s.Keeps (s.returnTo wid sid r pc cl step) := by
  unfold State.returnTo
  (repeat' split) <;> simp

@[simp] theorem State.endRung_keeps (s : State) (crew : Nat) : s.Keeps (s.endRung crew) := by
  unfold State.endRung
  dsimp only
  (repeat' split) <;> simp

@[simp] theorem State.handlerExpired_keeps (s : State) (wid sid : Nat) : s.Keeps (s.handlerExpired wid sid) := by
  unfold State.handlerExpired
  (repeat' split) <;> simp



@[simp] theorem State.trap_keeps (s : State) (x : Who) (cause detail addr : Nat) : s.Keeps (s.trap x cause detail addr) := by
  simp [State.trap]



@[simp] theorem State.quench_keeps (s : State) (x : Who) (l : List (Nat × Mask)) : s.Keeps (s.quench x l) := by
  unfold State.quench
  dsimp only
  (repeat' split) <;> simp

@[simp] theorem Ready.commit_keeps (r : Ready) : r.s.Keeps (r.commit) := by
  unfold Ready.commit
  split <;> simp

@[simp] theorem State.land_keeps (s : State) (core : Nat) (l : List RegWrite) : s.Keeps (s.land core l) := by
  simp [State.land]

@[simp] theorem State.push_keeps (s : State) (wid : Nat) (p : Option (Nat × List QEntry)) : s.Keeps (s.push wid p) := by
  cases p <;> exact ⟨rfl, rfl⟩

@[simp] theorem State.sticky_keeps (s : State) (wid dn bits : Nat) : s.Keeps (s.sticky wid dn bits) := ⟨rfl, rfl⟩

@[simp] theorem Ready.finish_keeps (r : Ready) (m : Mask) (res : Nat → List Word) (bits units : Nat) :
    r.s.Keeps (r.finish m res bits units) := by
  simp [Ready.finish]

@[simp] theorem Ready.launch_keeps (r : Ready) (la : Nat) (m : Mask) (res : Nat → List Word) (bits : Nat) :
    r.s.Keeps (r.launch la m res bits) := by
  simp [Ready.launch]

@[simp] theorem State.skip_keeps (s : State) (x : Who) : s.Keeps (s.skip x) := ⟨rfl, rfl⟩

@[simp] theorem State.setMaskBits_keeps (s : State) (x : Who) (em : Mask) (m : MReg) (v : Mask) : s.Keeps (s.setMaskBits x em m v) := ⟨rfl, rfl⟩

@[simp] theorem Ready.finishMask_keeps (r : Ready) (m : MReg) (v : Mask) (bits : Nat) : r.s.Keeps (r.finishMask m v bits) := by
  simp [Ready.finishMask]

end Sys2Proof.Machine
end


section
/-! The accesses and the events of memory: what they keep. -/

namespace Sys2Proof.Machine

@[simp] theorem State.fillTlb_keeps (s : State) (core ctx va : Nat) : s.Keeps (s.fillTlb core ctx va) := by
  unfold State.fillTlb
  (repeat' split) <;> simp

@[simp] theorem State.shoot_keeps (s : State) (p : Nat → TlbEntry → Bool) : s.Keeps (s.shoot p) := ⟨rfl, rfl⟩

@[simp] theorem State.takeFault_keeps (s : State) (die ctx va : Nat) (who : Faulter) (tier : Nat) :
    s.Keeps (s.takeFault die ctx va who tier) := by
  unfold State.takeFault
  split <;> simp

@[simp] theorem State.request_keeps (s : State) (a : Agent) (core ctx : Nat) (k : AccKind) (z : Nat) (sx : Bool) (r : Rcd)
    (lanes : List (LaneAcc × Bool)) (rel acq : Bool) (pend : Option Nat) : s.Keeps (s.request a core ctx k z sx r lanes rel acq pend).1 := by
  refine List.foldlRecOn _ _ (motive := fun q : State × List Nat => s.Keeps q.1) ⟨rfl, rfl⟩ fun q hq line _ => ?_
  dsimp only [State.fresh]
  split <;> simp [hq]

@[simp] theorem State.fenceAfter_keeps (s : State) (wid sid : Nat) (l : List Nat) : s.Keeps (s.fenceAfter wid sid l) := ⟨rfl, rfl⟩

@[simp] theorem State.endWaita_keeps (s : State) (id word status : Nat) : s.Keeps (s.endWaita id word status) := by
  unfold State.endWaita
  split <;> simp

@[simp] theorem State.wake_keeps (s : State) (line : Nat) : s.Keeps (s.wake line) := by
  simp [State.wake]

@[simp] theorem State.leaveLanes_keeps (s : State) (id : Nat) (left : List LaneAcc) : s.Keeps (s.leaveLanes id left) := by
  unfold State.leaveLanes
  split <;> simp

@[simp] theorem State.weirDraw_keeps (s : State) (port : Nat) (pc : Nat × Nat) (n : Nat) : s.Keeps (s.weirDraw port pc n) := ⟨rfl, rfl⟩

@[simp] theorem State.backPressure_keeps (s : State) (port : Nat) (pc : Nat × Nat) : s.Keeps (s.backPressure port pc) := by
  unfold State.backPressure
  dsimp only
  (repeat' split) <;> simp

@[simp] theorem State.drawRange_keeps (s : State) (ctx : Nat) (pc : Nat × Nat) (va n : Nat) : s.Keeps (s.drawRange ctx pc va n) := by
  unfold State.drawRange
  split
  · exact ⟨rfl, rfl⟩
  · refine foldl_keeps _ _ (fun s p => ?_) s
    split <;> simp

@[simp] theorem State.drawWrites_keeps (s t : State) (pc : Nat × Nat) : t.Keeps (s.drawWrites t pc) := by
  unfold State.drawWrites
  split <;> simp

@[simp] theorem State.throughWeirs_wf {s t : State} (hs : s.Wf) (ht : t.Wf) : (s.throughWeirs t).Wf := by
  unfold State.throughWeirs
  dsimp only
  split <;> simp [hs, ht]

@[simp] theorem State.dropWalks_keeps (s : State) (a : Agent) : s.Keeps (s.dropWalks a) := ⟨rfl, rfl⟩

@[simp] theorem State.startWalks_keeps (s : State) (x : Who) (vas : List Nat) : s.Keeps (s.startWalks x vas) := by
  simp [State.startWalks]

theorem memOp_wf {s : State} {x : Who} {r : Rcd} {k : AccKind} {scope : Scope} {lanes : List (Nat × Word)} {off : Int} {z : Nat}
    {go : State → List (Nat × Nat × Tr) → State} (h : s.Wf) (hg : ∀ trs, (go s trs).Wf) : (memOp s x r k scope lanes off z go).Wf := by
  unfold memOp
  split
  · simp [h]
  · simp [h]
  · exact hg _

@[simp] theorem Ready.issued_keeps (r : Ready) (trs : List (Nat × Nat × Tr)) : r.s.Keeps (r.issued trs) := by
  simp [Ready.issued]

@[simp] theorem Ready.longAccess_keeps (r : Ready) (la : BitVec 4) (k : AccKind) (z : Nat) (sx rel acq : Bool) (rcd : Rcd) (trs : List (Nat × Nat × Tr)) (accs : List (LaneAcc × Bool)) (zeros : List RegWrite) :
    r.s.Keeps (r.longAccess la k z sx rel acq rcd trs accs zeros) := by
  unfold Ready.longAccess
  dsimp only
  split <;> simp

@[simp] theorem Ready.storeAccess_keeps (r : Ready) (rcd : Rcd) (z : Nat) (rel : Bool) (trs : List (Nat × Nat × Tr)) (n : Nat) :
    r.s.Keeps (r.storeAccess rcd z rel trs n) := by
  unfold Ready.storeAccess
  dsimp only
  split <;> simp

@[simp] theorem State.replayStore_keeps (s : State) (x : Who) : s.Keeps (s.replayStore x) := by
  unfold State.replayStore
  split <;> simp

@[simp] theorem State.setRcd_keeps (s : State) (x : Who) (k : Fin 32) (v : Rcd) : s.Keeps (s.setRcd x k v) := by
  unfold State.setRcd
  split <;> simp

@[simp] theorem State.failAccess_keeps (s : State) (id : Nat) (a : Access) : s.Keeps (s.failAccess id a) := by
  simp [State.failAccess]

@[simp] theorem State.endDone_keeps (s : State) (wid sid : Nat) : s.Keeps (s.endDone wid sid) := by
  unfold State.endDone
  (repeat' split) <;> simp

@[simp] theorem State.walkDone_keeps (s : State) (a : Agent) : s.Keeps (s.walkDone a) := by
  unfold State.walkDone
  (repeat' split) <;> simp

@[simp] theorem State.endWalk_keeps (s : State) (id : Nat) (w : Walk) (c : Nat × Nat) : s.Keeps (s.endWalk id w c) := by
  simp [State.endWalk]

end Sys2Proof.Machine
end


section
/-! Writes of memory, and the shapes that instructions share, keep the canonical form. -/

namespace Sys2Proof.Machine

@[simp] theorem State.writeBytes_wf {s : State} (h : s.Wf) (pa : Nat) (l : List Byte) : (s.writeBytes pa l).Wf :=
  ⟨Memory.wf_writeList h.1 pa l, h.2⟩

@[simp] theorem State.writeNat_wf {s : State} (h : s.Wf) (pa n v : Nat) : (s.writeNat pa n v).Wf := State.writeBytes_wf h _ _

@[simp] theorem State.setLineMark_wf {s : State} (h : s.Wf) (pa mk : Nat) : (s.setLineMark pa mk).Wf := ⟨h.1, Sparse.wf_write h.2 _ _⟩

/-- A fold of steps that keep the form keeps it. -/
theorem foldl_form {α : Type} (l : List α) (f : State → α → State) (hf : ∀ (s : State) a, s.Wf → (f s a).Wf) {s : State} (h : s.Wf) :
    (l.foldl f s).Wf :=
  List.foldlRecOn l f (motive := State.Wf) h fun t ht a _ => hf t a ht

@[simp] theorem State.vwrite_wf {s : State} (h : s.Wf) (ctx va : Nat) (l : List Byte) : (s.vwrite ctx va l).Wf := by
  refine foldl_form _ _ (fun s p h => ?_) h
  split <;> simp [h, Memory.wf_writeList]

@[simp] theorem State.vwriteNat_wf {s : State} (h : s.Wf) (ctx va n v : Nat) : (s.vwriteNat ctx va n v).Wf := State.vwrite_wf h _ _ _

@[simp] theorem State.storeLane_wf {s : State} (h : s.Wf) (l : LaneAcc) : (s.storeLane l).Wf := by
  unfold State.storeLane
  dsimp only
  split <;> simp [h, Memory.wf_writeList, Sparse.wf_write]

@[simp] theorem State.atomLane_wf {s : State} (h : s.Wf) (a : Access) (l : LaneAcc) : (s.atomLane a l).1.Wf := State.writeNat_wf h _ _ _

/-- The lanes of an atomic, one after the other. -/
theorem atomLanes_wf (a : Access) (line : Nat) (l : List LaneAcc) {q : State × List RegWrite} (h : q.1.Wf) :
    (l.foldl (fun (q : State × List RegWrite) l => ((q.1.atomLane a l).1.wake line, q.2 ++ (q.1.atomLane a l).2)) q).1.Wf :=
  List.foldlRecOn l _ (motive := fun q : State × List RegWrite => q.1.Wf) h fun q hq l _ => by
    simp [State.atomLane_wf hq]

@[simp] theorem State.perform_wf {s : State} (h : s.Wf) (id : Nat) (order : List Nat) : (s.perform id order).Wf := by
  unfold State.perform
  split
  · exact h
  next a _ =>
    split
    split
    · simp [h]
    · have hm : ∀ line (b : Bool), State.Wf (if b then s.setLineMark (line * 256) 0 else s) := fun line b => by
        split
        · exact State.setLineMark_wf h _ _
        · exact h
      have hl : ∀ (l : List LaneAcc) line {u : State}, u.Wf → (l.foldl (fun s l => (s.storeLane l).wake line) u).Wf :=
        fun l line u hu => foldl_form _ _ (fun s l hs => by simp [State.storeLane_wf hs l]) hu
      dsimp only
      split
      · exact hl _ _ (hm _ _)
      · simp [hl _ _ (hm _ _)]
    · split
      · exact h
      · dsimp only
        (repeat' split) <;> simp [h]
    · dsimp only
      simp [atomLanes_wf a _ _ (q := (s, [])) h]

/-- What an instruction or event answers has the canonical form. -/
def OutWf (o : Out) : Prop := ∀ t, o = .next t → t.Wf

@[simp] theorem outWf_next (t : State) : OutWf (.next t) ↔ t.Wf := ⟨fun h => h t rfl, fun h u e => by cases e; exact h⟩

@[simp] theorem outWf_fault (f : Fault) : OutWf (.fault f) := fun _ e => nomatch e

@[simp] theorem outWf_refused (r : Refusal) : OutWf (.refused r) := fun _ e => nomatch e

theorem issue_wf {s : State} (h : s.Wf) {k : Who → State} (hk : ∀ x, (k x).Wf) : OutWf (issue s k) := by
  unfold issue
  (repeat' split) <;> simp [h, hk]

/-- What the operands of an instruction come to. -/
def Prep.Keeps (s : State) : Prep → Prop
  | .halt t => s.Keeps t
  | .go r => r.s = s

theorem beginOp_keeps (s : State) (x : Who) (d : OpD) (acc : Ready → Nat → OwnAcc) (only : Mask) : Prep.Keeps s (beginOp s x d acc only) := by
  unfold beginOp
  cases queueFault x d with
  | some k => exact State.trap_keeps ..
  | none =>
    refine iteInduction (motive := Prep.Keeps s) (fun _ => State.trap_keeps ..) fun _ => ?_
    refine iteInduction (motive := Prep.Keeps s) (fun _ => State.park_keeps ..) fun _ => ?_
    refine iteInduction (motive := Prep.Keeps s) (fun _ => State.park_keeps ..) fun _ => ?_
    refine iteInduction (motive := Prep.Keeps s) (fun _ => State.park_keeps ..) fun _ => ?_
    refine iteInduction (motive := Prep.Keeps s) (fun _ => ?_) fun _ => ?_
    · refine iteInduction (motive := Prep.Keeps s) (fun _ => State.trapAt_keeps ..) fun _ => ?_
      exact iteInduction (motive := Prep.Keeps s) (fun _ => State.trapAt_keeps ..) fun _ => State.trapAt_keeps ..
    · dsimp only
      split
      · exact State.trapAt_keeps ..
      · rfl

theorem begin_wf {s : State} (h : s.Wf) {x : Who} {d : OpD} {acc : Ready → Nat → OwnAcc} {only : Mask} {k : Ready → State}
    (hk : ∀ r, r.s.Wf → (k r).Wf) : State.Wf (match beginOp s x d acc only with
      | .halt t => t
      | .go r => k r) := by
  have hp := beginOp_keeps s x d acc only
  split <;> rename_i e <;> rw [e] at hp
  · simp [h, show s.Keeps _ from hp]
  · exact hk _ (hp ▸ h)

theorem completeInt_wf {r : Ready} (h : r.s.Wf) {dz ov : Mask} {fin : Nat → State} (hf : ∀ b, (fin b).Wf) : (completeInt r dz ov fin).Wf := by
  unfold completeInt
  dsimp only
  (repeat' split) <;> simp [h, hf]

theorem completeFp_wf {r : Ready} (h : r.s.Wf) {fl : Nat → Nat} {fin : Nat → State} (hf : ∀ b, (fin b).Wf) : (completeFp r fl fin).Wf := by
  unfold completeFp
  dsimp only
  (repeat' split) <;> simp [h, hf]

theorem execLd_wf (f : MemF) {s : State} (h : s.Wf) : OutWf (execLd f s) :=
  issue_wf h fun x => begin_wf h fun r hr => memOp_wf h fun trs => by simp [hr]

end Sys2Proof.Machine
end


section
/-! Memory instructions, the events of memory, and how front-end instructions begin. -/

namespace Sys2Proof.Machine

theorem execLds_wf {s : State} (h : s.Wf) (f : MemF) : OutWf (execLds f s) := by
  refine issue_wf h fun x => begin_wf h fun r hr => memOp_wf h fun trs => ?_
  simp [hr]

theorem execSt_wf {s : State} (h : s.Wf) (f : MemF) : OutWf (execSt f s) := by
  refine issue_wf h fun x => ?_
  split
  · simp [h]
  · exact begin_wf h fun r hr => memOp_wf h fun trs => by simp [hr]

theorem execSts_wf {s : State} (h : s.Wf) (f : MemF) : OutWf (execSts f s) := by
  refine issue_wf h fun x => ?_
  split
  · simp [h]
  · exact begin_wf h fun r hr => memOp_wf h fun trs => by simp [hr]

theorem execAtom_wf {s : State} (h : s.Wf) (f : AtomF) : OutWf (execAtom f s) := by
  refine issue_wf h fun x => begin_wf h fun r hr => memOp_wf h fun trs => ?_
  simp [hr]

theorem execCas_wf {s : State} (h : s.Wf) (f : MemF) : OutWf (execCas f s) := by
  refine issue_wf h fun x => begin_wf h fun r hr => memOp_wf h fun trs => ?_
  simp [hr]

theorem execWaita_wf {s : State} (h : s.Wf) (f : MemF) : OutWf (execWaita f s) := by
  refine issue_wf h fun x => ?_
  dsimp only
  split
  · simp [h]
  · refine begin_wf h fun r hr => ?_
    split
    · simp [hr]
    · exact memOp_wf h fun trs => by simp [hr]

theorem execFence_wf {s : State} (h : s.Wf) (f : FenceF) : OutWf (execFence f s) := by
  refine issue_wf h fun x => ?_
  dsimp only
  (repeat' split) <;> simp [h]

theorem execPfch_wf {s : State} (h : s.Wf) (f : PfchF) : OutWf (execPfch f s) := by
  refine issue_wf h fun x => begin_wf h fun r hr => ?_
  dsimp only
  split
  · simp [h]
  split
  · simp [h]
  · refine State.Keeps.form (State.Keeps.trans (State.advance_keeps ..) (State.endIfEmpty_keeps ..)) (foldl_form _ _ (fun s va hs => ?_) (by simp [hr]))
    (repeat' split) <;> simp [hs]

theorem execBrld_wf {s : State} (h : s.Wf) (f : BrldF) : OutWf (execBrld f s) := by
  refine issue_wf h fun x => begin_wf h fun r hr => ?_
  dsimp only
  (repeat' split) <;> simp [h, hr]

theorem execBrmk_wf {s : State} (h : s.Wf) (f : BrmkF) : OutWf (execBrmk f s) := by
  refine issue_wf h fun x => begin_wf h fun r hr => ?_
  dsimp only
  (repeat' split) <;> simp [h, hr]

theorem execMemoryAccessPerformed_wf {s : State} (h : s.Wf) (id : Nat) (order : List Nat) :
    OutWf (execMemoryAccessPerformed id order s) := by
  unfold execMemoryAccessPerformed
  dsimp only
  (repeat' split) <;> simp [h]

theorem execStoreAcknowledged_wf {s : State} (h : s.Wf) (id : Nat) : OutWf (execStoreAcknowledged id s) := by
  unfold execStoreAcknowledged
  (repeat' split) <;> simp [h]

theorem execLongLatencyCompletion_wf {s : State} (h : s.Wf) (a : Agent) (op : Nat) (early : List Nat) :
    OutWf (execLongLatencyCompletion a op early s) := by
  unfold execLongLatencyCompletion
  (repeat' split) <;> simp [h]

theorem execPageWalk_wf {s : State} (h : s.Wf) (id : Nat) : OutWf (execPageWalk id s) := by
  unfold execPageWalk
  dsimp only
  (repeat' split) <;> simp [h]

theorem execWalkTimeout_wf {s : State} (h : s.Wf) (id : Nat) : OutWf (execWalkTimeout id s) := by
  unfold execWalkTimeout
  (repeat' split) <;> simp [h]

theorem execWaitaTimeout_wf {s : State} (h : s.Wf) (a : Agent) : OutWf (execWaitaTimeout a s) := by
  unfold execWaitaTimeout
  split <;> simp [h]

theorem execQueueWaitWatchdog_wf {s : State} (h : s.Wf) (a : Agent) : OutWf (execQueueWaitWatchdog a s) := by
  unfold execQueueWaitWatchdog
  (repeat' split) <;> simp [h]

@[simp] theorem State.waitPage_keeps (s : State) (x : Who) (va : Nat) : s.Keeps (s.waitPage x va) := by
  simp [State.waitPage]

@[simp] theorem State.fetchWait_keeps (s : State) (x : Who) (f : Fetched) (va : Nat) : s.Keeps (s.fetchWait x f va) := by
  unfold State.fetchWait
  split <;> simp

@[simp] theorem State.targets_wf {s : State} (h : s.Wf) (x : Who) (l : List (Pc × Nat)) {k : State} (hk : k.Wf) : (s.targets x l k).Wf := by
  unfold State.targets
  split <;> simp [h, hk]

@[simp] theorem State.closeFeQueues_keeps (s : State) (k : Crew) : s.Keeps (s.closeFeQueues k) := by
  simp [State.closeFeQueues]

@[simp] theorem State.updFe_keeps (s : State) (c : Nat) (f : FrontEnd → FrontEnd) : s.Keeps (s.updFe c f) := ⟨rfl, rfl⟩

@[simp] theorem State.feStop_keeps (s : State) (c : Nat) (t : Trap) : s.Keeps (s.feStop c t) := by
  unfold State.feStop
  (repeat' split) <;> simp

@[simp] theorem State.stall_keeps (s : State) (c : Nat) (w : Wait) : s.Keeps (s.stall c w) := ⟨rfl, rfl⟩

theorem feIssue_wf {s : State} (h : s.Wf) {k : FeWho → State} (hk : ∀ x, (k x).Wf) : OutWf (feIssue s k) := by
  unfold feIssue
  split
  · exact outWf_fault _
  · split <;> simp [h, hk]

@[simp] theorem State.feReady_wf {s : State} (h : s.Wf) (x : FeWho) (l : List Nat) {k : State} (hk : k.Wf) : (s.feReady x l k).Wf := by
  unfold State.feReady
  split <;> simp [h, hk]

@[simp] theorem State.feWaitPage_keeps (s : State) (x : FeWho) (va : Nat) : s.Keeps (s.feWaitPage x va) := by
  simp [State.feWaitPage]

@[simp] theorem State.feWalks_keeps (s : State) (x : FeWho) (vas : List Nat) : s.Keeps (s.feWalks x vas) := by
  simp [State.feWalks]

@[simp] theorem State.feFetchWait_keeps (s : State) (x : FeWho) (f : Fetched) (va : Nat) : s.Keeps (s.feFetchWait x f va) := by
  unfold State.feFetchWait
  split <;> simp

@[simp] theorem State.feTargets_wf {s : State} (h : s.Wf) (x : FeWho) (l : List (Pc × Nat)) {k : State} (hk : k.Wf) :
    (s.feTargets x l k).Wf := by
  unfold State.feTargets
  split <;> simp [h, hk]

theorem byIssuer_wf {s : State} {warp fe : Out} (hw : OutWf warp) (hf : OutWf fe) : OutWf (byIssuer s warp fe) := by
  unfold byIssuer
  split
  · exact hf
  · exact hw

end Sys2Proof.Machine
end


section
/-! Operands read once, window accesses, cross-lane instructions and control: the shapes that their instructions share. -/

namespace Sys2Proof.Machine

@[simp] theorem Ready.finishWords_keeps (r : Ready) (ws : List RegWrite) : r.s.Keeps (r.finishWords ws) := by
  simp [Ready.finishWords]

theorem uOp_wf {s : State} (h : s.Wf) {x : Who} {srcs : List (Opnd × Nat)} {dst : Option (Opnd × Nat)} {k : Ready → State}
    (hk : ∀ r, r.s.Wf → (k r).Wf) : (uOp s x srcs dst k).Wf := by
  unfold uOp
  split
  · simp [h]
  · refine begin_wf h fun r hr => ?_
    split
    · simp [hr]
    · exact hk r hr

theorem Ready.winOp_wf {r : Ready} (h : r.s.Wf) {write : Bool} {n : Nat} {go : List (Nat × Nat × Nat × Win) → State}
    (hg : ∀ l, (go l).Wf) : (r.winOp write n go).Wf := by
  unfold Ready.winOp
  dsimp only
  split
  · simp [h]
  · exact hg _

theorem laneOp_wf {s : State} (h : s.Wf) {mem : Members} {d : OpD} {k : Ready → State} {acc : Ready → Nat → OwnAcc}
    (hk : ∀ r, r.s.Wf → (k r).Wf) : OutWf (laneOp s mem d k acc) :=
  issue_wf h fun _ => begin_wf h hk

/-- The state that a turn goes on with has the canonical form. -/
def Todo.Wf : Todo → Prop
  | .rest s => s.Wf
  | .run _ s => s.Wf

@[simp] theorem Todo.rest_wf (s : State) : (Todo.rest s).Wf ↔ s.Wf := Iff.rfl

@[simp] theorem Todo.run_wf (i : Instr) (s : State) : (Todo.run i s).Wf ↔ s.Wf := Iff.rfl

/-- A strand's control transfer, or a front-end context's. -/
theorem control_wf {s : State} (h : s.Wf) {k : Who → State} {g : FeWho → State} (hk : ∀ x, (k x).Wf) (hg : ∀ x, (g x).Wf) :
    OutWf (byIssuer s (issue s k) (feIssue s g)) :=
  byIssuer_wf (issue_wf h hk) (feIssue_wf h hg)

end Sys2Proof.Machine
end


section
/-! Registers, tiles, windows, queues, control and cross-lane instructions. -/

namespace Sys2Proof.Machine

theorem execLdx_wf {s : State} (h : s.Wf) (f : LdxF) : OutWf (execLdx f s) :=
  issue_wf h fun x => begin_wf h fun r hr => by simp [hr]

theorem execStx_wf {s : State} (h : s.Wf) (f : StxF) : OutWf (execStx f s) :=
  issue_wf h fun x => begin_wf h fun r hr => by simp [hr]

theorem execGstat_wf {s : State} (h : s.Wf) (f : GstatF) : OutWf (execGstat f s) := by
  refine issue_wf h fun x => ?_
  dsimp only
  split
  · simp [h]
  · exact begin_wf h fun r hr => by simp [hr]

theorem execFmask_wf {s : State} (h : s.Wf) (d : MReg) : OutWf (execFmask d s) :=
  issue_wf h fun x => by simp [h]

theorem execTget_wf {s : State} (h : s.Wf) (f : TgetF) : OutWf (execTget f s) := by
  refine issue_wf h fun x => ?_
  split
  · simp [h]
  · exact begin_wf h fun r hr => by simp [hr]

theorem execTset_wf {s : State} (h : s.Wf) (f : TsetF) : OutWf (execTset f s) := by
  refine issue_wf h fun x => ?_
  split
  · simp [h]
  · exact begin_wf h fun r hr => by simp [hr]

theorem execTalloc_wf {s : State} (h : s.Wf) (f : TallocF) : OutWf (execTalloc f s) :=
  issue_wf h fun x => uOp_wf h fun r hr => by
    dsimp only
    (repeat' split) <;> simp [h, hr]

theorem execTfree_wf {s : State} (h : s.Wf) (f : TfreeF) : OutWf (execTfree f s) :=
  issue_wf h fun x => uOp_wf h fun r hr => by
    dsimp only
    (repeat' split) <;> simp [h, hr]

theorem execWexp_wf {s : State} (h : s.Wf) (f : WexpF) : OutWf (execWexp f s) :=
  issue_wf h fun x => uOp_wf h fun r hr => by
    dsimp only
    (repeat' split) <;> simp [h, hr]

theorem execWrev_wf {s : State} (h : s.Wf) (f : WrevF) : OutWf (execWrev f s) :=
  issue_wf h fun x => uOp_wf h fun r hr => by
    dsimp only
    (repeat' split) <;> simp [h, hr]

@[simp] theorem Ready.winAccess_keeps (r : Ready) (la : BitVec 4) (write : Bool) (ord : Ord4) (words : List (Nat × WLane)) (wins : List (Nat × Nat)) :
    r.s.Keeps (r.winAccess la write ord words wins) := by
  unfold Ready.winAccess
  dsimp only
  (repeat' split) <;> simp

theorem execWrd_wf {s : State} (h : s.Wf) (f : WinF) : OutWf (execWrd f s) :=
  issue_wf h fun x => begin_wf h fun r hr => Ready.winOp_wf hr fun ws => by simp [hr]

theorem execWwr_wf {s : State} (h : s.Wf) (f : WinF) : OutWf (execWwr f s) :=
  issue_wf h fun x => begin_wf h fun r hr => Ready.winOp_wf hr fun ws => by simp [hr]

theorem execWindowRequest_wf {s : State} (h : s.Wf) (id : Nat) : OutWf (execWindowRequest id s) := by
  unfold execWindowRequest
  dsimp only
  (repeat' split) <;> simp [h]

theorem execWgrant_wf {s : State} (h : s.Wf) (f : WgrantF) : OutWf (execWgrant f s) :=
  issue_wf h fun x => uOp_wf h fun r hr => by
    dsimp only
    (repeat' split) <;> simp [h, hr]

theorem execGive_wf {s : State} (h : s.Wf) (f : GiveF) : OutWf (execGive f s) :=
  issue_wf h fun x => uOp_wf h fun r hr => by (repeat' split) <;> simp [h, hr]

theorem execTake_wf {s : State} (h : s.Wf) (f : TakeF) : OutWf (execTake f s) :=
  issue_wf h fun x => uOp_wf h fun r hr => by (repeat' split) <;> simp [h, hr]

@[simp] theorem State.trapPending_keeps (s : State) (x : Who) (pair : Nat) (t : Trap) : s.Keeps (s.trapPending x pair t) := by
  unfold State.trapPending
  dsimp only
  split <;> simp

theorem execWaitg_wf {s : State} (h : s.Wf) (f : SyncF) : OutWf (execWaitg f s) := by
  refine issue_wf h fun x => ?_
  split
  · simp [h]
  · refine uOp_wf h fun r hr => ?_
    (repeat' split) <;> simp [h, hr]

theorem execSyncset_wf {s : State} (h : s.Wf) (f : SyncF) : OutWf (execSyncset f s) := by
  refine issue_wf h fun x => ?_
  split
  · simp [h]
  · refine uOp_wf h fun r hr => ?_
    dsimp only
    (repeat' split) <;> simp [h, hr]

theorem execQstat_wf {s : State} (h : s.Wf) (f : QstatF) : OutWf (execQstat f s) := by
  refine issue_wf h fun x => ?_
  split
  · simp [h]
  · exact begin_wf h fun r hr => by simp [hr]

theorem execQmark_wf {s : State} (h : s.Wf) (q : Fin 8) : OutWf (execQmark q s) :=
  issue_wf h fun x => by (repeat' split) <;> simp [h]

@[simp] theorem State.enterClause_keeps (s : State) (x : Who) (h : Header) : s.Keeps (s.enterClause x h) := by
  unfold State.enterClause
  split
  next t e => exact State.reachJoin_keeps s _ _ t e
  next =>
    dsimp only
    (repeat' split) <;> simp

@[simp] theorem State.feEnterClause_keeps (s : State) (x : FeWho) (h : Header) : s.Keeps (s.feEnterClause x h) := by
  unfold State.feEnterClause
  (repeat' split) <;> simp

theorem execClauseHeader_wf {s : State} (hs : s.Wf) (h : Header) : OutWf (execClauseHeader h s) := by
  refine byIssuer_wf ?_ (feIssue_wf hs fun x => by simp [hs])
  (repeat' split) <;> simp [hs]

theorem execIllegalOpcode_wf {s : State} (h : s.Wf) (w : Unit64) : OutWf (execIllegalOpcode w s) := by
  refine control_wf h (fun x => ?_) fun x => ?_ <;> simp [h]

theorem execBra_wf {s : State} (h : s.Wf) (t : BitVec 24) : OutWf (execBra t s) := by
  refine control_wf h (fun x => ?_) fun x => ?_ <;> simp [h]

@[simp] theorem State.branch_wf {s : State} (h : s.Wf) (x : Who) (taken : Mask) (f : BrcF) : (s.branch x taken f).Wf := by
  unfold State.branch
  dsimp only
  split
  · simp [h]
  split
  · simp [h]
  · refine State.targets_wf h _ _ ?_
    split
    next t e => exact (State.fork_keeps s _ _ _ _ _ _ t e).form h
    next => simp [h]

theorem execBrc_wf {s : State} (h : s.Wf) (f : BrcF) : OutWf (execBrc f s) := by
  refine control_wf h (fun x => ?_) fun x => ?_
  · (repeat' split) <;> simp [h]
  · (repeat' split) <;> simp [h]

@[simp] theorem State.tableFault_keeps (s : State) (x : Who) (f : Fetched × Nat) : s.Keeps (s.tableFault x f) := by
  unfold State.tableFault
  split <;> simp

@[simp] theorem State.cleanReturn_keeps (s : State) (wid sid : Nat) : s.Keeps (s.cleanReturn wid sid) := by
  unfold State.cleanReturn
  split <;> simp

@[simp] theorem State.tableBranch_wf {s : State} (h : s.Wf) (x : Who) (f : BrxF) (push : Option Pc) : (s.tableBranch x f push).Wf := by
  refine begin_wf h fun r hr => ?_
  dsimp only
  split
  · simp [h]
  split
  · simp [h]
  split
  · simp [h]
  split
  · simp [h]
  split
  · simp [h]
  have hcm : r.commit.Wf := by simp [hr]
  split
  · exact State.targets_wf h _ _ (by simp [hr])
  · refine State.targets_wf h _ _ ?_
    (repeat' split) <;> simp [h, hr]
  · refine State.targets_wf h _ _ (iteInduction (motive := State.Wf) (fun _ => ?_) fun _ => ?_)
    · simp [h]
    · split
      next t e =>
        obtain ⟨y, -, e⟩ := Option.bind_eq_some_iff.1 e
        have ht : t.Wf := (State.fork_keeps _ _ _ _ _ _ _ t e).form hcm
        split <;> simp [ht]
      next => simp [h]

theorem execBrx_wf {s : State} (h : s.Wf) (f : BrxF) : OutWf (execBrx f s) := by
  refine control_wf h (fun x => ?_) fun x => ?_ <;> simp [h]

theorem execCallx_wf {s : State} (h : s.Wf) (f : BrxF) : OutWf (execCallx f s) := by
  refine control_wf h (fun x => ?_) fun x => ?_ <;> simp [h]

theorem execCall_wf {s : State} (h : s.Wf) (t : BitVec 24) : OutWf (execCall t s) := by
  refine control_wf h (fun x => ?_) fun x => ?_
  · (repeat' split) <;> simp [h]
  · (repeat' split) <;> simp [h]

theorem execRet_wf {s : State} (h : s.Wf) : OutWf (execRet s) := by
  refine control_wf h (fun x => ?_) fun x => ?_
  · (repeat' split) <;> simp [h]
  · (repeat' split) <;> simp [h]

theorem execLoop_wf {s : State} (h : s.Wf) (f : LoopF) : OutWf (execLoop f s) := by
  refine control_wf h (fun x => ?_) fun x => ?_
  · dsimp only
    (repeat' split) <;> simp [h]
  · dsimp only
    (repeat' split) <;> simp [h]

theorem execEndl_wf {s : State} (h : s.Wf) : OutWf (execEndl s) := by
  refine control_wf h (fun x => ?_) fun x => ?_
  · (repeat' split) <;> simp [h]
  · simp [h]

@[simp] theorem State.issueTrap_wf {s : State} (h : s.Wf) (cause : Nat) : (s.issueTrap cause).Wf := by
  have hi := issue_wf h (k := fun x => s.trap x cause) fun x => by simp [h]
  unfold State.issueTrap
  split
  next t e => exact hi t e
  next => exact h

theorem State.fetchStrand_wf {s : State} (h : s.Wf) (x : Who) : (s.fetchStrand x).Wf := by
  unfold State.fetchStrand
  split
  · split
    · exact h
    · exact State.issueTrap_wf h _
  · dsimp only
    split
    · simp [h]
    · split
      next t e => exact (State.reachJoin_keeps s _ _ t e).form h
      next => (repeat' split) <;> simp [h]

theorem State.fetchFe_wf {s : State} (h : s.Wf) (cid : Nat) (k : Crew) (f : FrontEnd) : (s.fetchFe cid k f).Wf := by
  unfold State.fetchFe
  dsimp only
  (repeat' split) <;> simp [h]

theorem State.strandTurn_wf {s : State} (h : s.Wf) (x : Who) : (s.strandTurn x).Wf := by
  unfold State.strandTurn
  split
  · rw [Todo.rest_wf]
    split <;> simp [h]
  · exact State.fetchStrand_wf h x

theorem State.issueTurn_wf {s : State} (h : s.Wf) (a : Agent) : (s.issueTurn a).Wf := by
  have hs : State.Wf { s with cur := a } := h
  unfold State.issueTurn
  dsimp only
  (repeat' split) <;> simp [h, State.strandTurn_wf hs, State.fetchFe_wf hs]

theorem maskOp_wf {s : State} (h : s.Wf) (d : MReg) (g : Who → Mask) : OutWf (maskOp s d g) :=
  issue_wf h fun x => begin_wf h fun r hr => by simp [hr]

theorem uniformOp_wf {s : State} (h : s.Wf) (d : Opnd) (g : Who → Word) : OutWf (uniformOp s d g) :=
  issue_wf h fun x => begin_wf h fun r hr => by simp [hr]

theorem execEmget_wf {s : State} (h : s.Wf) (d : MReg) : OutWf (execEmget d s) :=
  issue_wf h fun x => by simp [h]

theorem execEmset_wf {s : State} (h : s.Wf) (a : MReg) : OutWf (execEmset a s) :=
  issue_wf h fun x => by simp [h]

theorem execVote_wf {s : State} (h : s.Wf) (f : VoteF) : OutWf (execVote f s) :=
  issue_wf h fun x => begin_wf h fun r hr => by simp [hr]

theorem execShfl_wf {s : State} (h : s.Wf) (f : ShflF) : OutWf (execShfl f s) :=
  issue_wf h fun x => begin_wf h fun r hr => by simp [hr]

theorem execBcast_wf {s : State} (h : s.Wf) (f : BcastF) : OutWf (execBcast f s) :=
  issue_wf h fun x => begin_wf h fun r hr => by simp [hr]

theorem foldOp_wf {s : State} (h : s.Wf) (f : FoldF) (g : Ready → Nat → FRes) : OutWf (foldOp f g s) :=
  laneOp_wf h fun r hr => completeFp_wf hr fun b => by simp [hr]

theorem execScan_wf {s : State} (h : s.Wf) (f : FoldF) : OutWf (execScan f s) := foldOp_wf h _ _

theorem execRedux_wf {s : State} (h : s.Wf) (f : FoldF) : OutWf (execRedux f s) := foldOp_wf h _ _

theorem execCsamp_wf {s : State} (h : s.Wf) (f : CsampF) : OutWf (execCsamp f s) :=
  laneOp_wf h fun r hr => completeFp_wf hr fun b => by simp [hr]

theorem execMatchx_wf {s : State} (h : s.Wf) (f : MatchF) : OutWf (execMatchx f s) :=
  issue_wf h fun x => begin_wf h fun r hr => by simp [hr]

theorem planOp_wf {s : State} (h : s.Wf) (f : PlanF) (n m : Nat) (g : Ready → Nat → List Word) : OutWf (planOp s f n m g) :=
  issue_wf h fun x => begin_wf h fun r hr => by simp [hr]

end Sys2Proof.Machine
end


section
/-! What warps do together, and the acceptance of engine commands. -/

namespace Sys2Proof.Machine

@[simp] theorem Ready.launchIn_keeps (r : Ready) (s : State) (la : Nat) (m : Mask) (res : Nat → List Word) :
    s.Keeps (r.launchIn s la m res) :=
  Ready.launch_keeps { r with s := s } ..

@[simp] theorem State.setArr_keeps (s : State) (wid : Nat) (a : Option XchArr) : s.Keeps (s.setArr wid a) := ⟨rfl, rfl⟩

@[simp] theorem State.xchFail_keeps (s : State) (wid sid cause : Nat) : s.Keeps (s.xchFail wid sid cause) := by
  unfold State.xchFail
  split <;> simp

@[simp] theorem State.xchMeet_keeps (s : State) (r q : Ready) (la la' n : Nat) : s.Keeps (s.xchMeet r q la la' n) := by
  unfold State.xchMeet
  dsimp only
  (repeat' split) <;> simp

theorem execXch_wf {s : State} (h : s.Wf) (f : XchF) : OutWf (execXch f s) := by
  refine issue_wf h fun x => ?_
  dsimp only
  split
  · simp [h]
  split
  · simp [h]
  · refine begin_wf h fun r hr => ?_
    (repeat' split) <;> simp [h]

theorem execXchDeadline_wf {s : State} (h : s.Wf) (wid : Nat) : OutWf (execXchDeadline wid s) := by
  unfold execXchDeadline
  (repeat' split) <;> simp [h]

@[simp] theorem State.releaseWarp_keeps (s : State) (wid : Nat) : s.Keeps (s.releaseWarp wid) := by
  unfold State.releaseWarp
  split
  · exact ⟨rfl, rfl⟩
  · refine State.Keeps.trans (foldl_keeps _ _ (fun s key => ?_) s) (State.updWarp_keeps ..)
    split <;> simp

theorem execBar_wf {s : State} (h : s.Wf) (k : BarKind) : OutWf (execBar k s) :=
  issue_wf h fun x => by split <;> simp [h]

theorem execBarrierRelease_wf {s : State} (h : s.Wf) (wid : Nat) (k : BarKind) : OutWf (execBarrierRelease wid k s) := by
  unfold execBarrierRelease
  dsimp only
  (repeat' split) <;> simp [h]

theorem execBarrierTimeout_wf {s : State} (h : s.Wf) (a : Agent) : OutWf (execBarrierTimeout a s) := by
  unfold execBarrierTimeout
  (repeat' split) <;> simp [h]

@[simp] theorem State.setRrot_keeps (s : State) (cid : Nat) (a : Option RrotArr) : s.Keeps (s.setRrot cid a) := ⟨rfl, rfl⟩

@[simp] theorem State.rrotFail_keeps (s : State) (l : List (Nat × Crew)) (cause : Nat) : s.Keeps (s.rrotFail l cause) := by
  refine foldl_keeps _ _ (fun s q => ?_) s
  (repeat' split) <;> simp

@[simp] theorem State.rrotMeet_keeps (s : State) (l : List (Nat × Crew)) : s.Keeps (s.rrotMeet l) := by
  refine foldl_keeps _ _ (fun s p => ?_) s
  dsimp only
  split <;> simp

theorem execRrot_wf {s : State} (h : s.Wf) (f : RrotF) : OutWf (execRrot f s) :=
  issue_wf h fun x => by
    dsimp only
    (repeat' split) <;> simp [h]

theorem execRrotDeadline_wf {s : State} (h : s.Wf) (cid : Nat) : OutWf (execRrotDeadline cid s) := by
  unfold execRrotDeadline
  dsimp only
  (repeat' split) <;> simp [h]

theorem execRrotCompletion_wf {s : State} (h : s.Wf) (cid : Nat) : OutWf (execRrotCompletion cid s) := by
  unfold execRrotCompletion
  (repeat' split) <;> simp [h]

@[simp] theorem State.dropReads_keeps (s : State) (p : Agent → Bool) : s.Keeps (s.dropReads p) := ⟨rfl, rfl⟩

@[simp] theorem State.haltWarp_keeps (s : State) (wid : Nat) : s.Keeps (s.haltWarp wid) := by
  unfold State.haltWarp
  split <;> simp

@[simp] theorem State.haltCrew_keeps (s : State) (cid : Nat) (faulted : Option Nat) (killed : Bool) :
    s.Keeps (s.haltCrew cid faulted killed) := by
  unfold State.haltCrew
  split <;> simp

@[simp] theorem State.accept_keeps (s : State) (i : Iss) (h : EHdr) (b : EngBody) (t : EngTake) (follow waits : Option Nat) :
    s.Keeps (s.accept i h b t follow waits).1 := by
  simp [State.accept]

@[simp] theorem State.updCmd_keeps (s : State) (id : Nat) (f : Cmd → Cmd) : s.Keeps (s.updCmd id f) := ⟨rfl, rfl⟩

@[simp] theorem State.countCmd_keeps (s : State) (id b : Nat) (grans : List Nat) : s.Keeps (s.countCmd id b grans) := by
  unfold State.countCmd
  dsimp only
  (repeat' split) <;> simp

/-- What follows a command's step has the canonical form. -/
def Next.Wf : Next → Prop
  | .spoil s _ => s.Wf
  | .go s => s.Wf
  | _ => True

@[simp] theorem Next.wait_wf : Next.wait.Wf := trivial

@[simp] theorem Next.park_wf (va : Nat) : (Next.park va).Wf := trivial

@[simp] theorem Next.fail_wf (t : Trap) : (Next.fail t).Wf := trivial

@[simp] theorem Next.spoil_wf (s : State) (t : Trap) : (Next.spoil s t).Wf ↔ s.Wf := Iff.rfl

@[simp] theorem Next.go_wf (s : State) : (Next.go s).Wf ↔ s.Wf := Iff.rfl

/-- A property of a result, and one of what stops it. -/
def Ends {ε α : Type} (p : ε → Prop) (q : α → Prop) : Except ε α → Prop
  | .error e => p e
  | .ok a => q a

@[simp] theorem ends_error {ε α : Type} {p : ε → Prop} {q : α → Prop} (e : ε) : Ends p q (.error e) ↔ p e := Iff.rfl

@[simp] theorem ends_ok {ε α : Type} {p : ε → Prop} {q : α → Prop} (a : α) : Ends p q (.ok a) ↔ q a := Iff.rfl

theorem State.reach_keeps (s : State) (c : Cmd) (e va n : Nat) (need : Need) :
    Ends Next.Wf (fun p => s.Keeps p.2) (s.reach c e va n need) := by
  unfold State.reach
  dsimp only
  (repeat' split) <;> simp

theorem State.reachAll_keeps (c : Cmd) (e : Nat) (need : Need) (l : List (Nat × Nat)) : ∀ s : State,
    Ends Next.Wf (fun p => s.Keeps p.2) (s.reachAll c e need l) := by
  induction l with
  | nil => exact fun s => ⟨rfl, rfl⟩
  | cons a l ih =>
    intro s
    grind [State.reachAll, State.reach_keeps, Ends]

end Sys2Proof.Machine
end


section
/-! The acceptance of engine commands: the shapes that they share. -/

namespace Sys2Proof.Machine

/-- What the acceptance of a command answers has the canonical form. -/
def Admit.Wf : Admit → Prop
  | .done s _ => s.Wf
  | _ => True

@[simp] theorem Admit.trap_wf (t : Trap) : (Admit.trap t).Wf := trivial

@[simp] theorem Admit.page_wf (va : Nat) : (Admit.page va).Wf := trivial

@[simp] theorem Admit.hold_wf : Admit.hold.Wf := trivial

@[simp] theorem Admit.full_wf : Admit.full.Wf := trivial

@[simp] theorem Admit.done_wf (s : State) (id : Nat) : (Admit.done s id).Wf ↔ s.Wf := Iff.rfl

theorem State.engIssued_wf {s : State} (h : s.Wf) (x : Who) (units : List Nat) {a : Admit} (ha : a.Wf) : (s.engIssued x units a).Wf := by
  unfold State.engIssued
  split
  · simp [h]
  · simp [h]
  · simp [h]
  · simp [h]
  · split
    · simp [h]
    · exact foldl_form _ _ (fun t n ht => by simp [ht]) ha

theorem Ends.of_error {ε α : Type} {p : ε → Prop} {q : α → Prop} {r : Except ε α} {x : ε} (h : Ends p q r) (e : r = .error x) : p x := by
  rw [e] at h; exact h

theorem Ends.of_ok {ε α : Type} {p : ε → Prop} {q : α → Prop} {r : Except ε α} {a : α} (h : Ends p q r) (e : r = .ok a) : q a := by
  rw [e] at h; exact h

/-- A fold of steps that may stop, each of which keeps a property. -/
theorem foldlM_ends {ε α β : Type} {p : ε → Prop} {q : α → Prop} (l : List β) (f : α → β → Except ε α)
    (hf : ∀ a b, q a → Ends p q (f a b)) {a : α} (ha : q a) : Ends p q (l.foldlM f a) := by
  induction l generalizing a with
  | nil => exact ha
  | cons b l ih =>
    rw [List.foldlM_cons]
    cases hfb : f a b with
    | error e => exact (hf a b ha).of_error hfb
    | ok a' => exact ih ((hf a b ha).of_ok hfb)

/-- A class 4 instruction whose acceptance answers a canonical state. -/
theorem engInstr_wf {s : State} (h : s.Wf) {units : Who → List Nat} {a : Who → Admit} (ha : ∀ x, (a x).Wf) :
    OutWf (issue s fun x => s.engIssued x (units x) (a x)) :=
  issue_wf h fun x => State.engIssued_wf h x _ (ha x)

end Sys2Proof.Machine
end


section
/-! Engine commands: multiplications and copies. -/

namespace Sys2Proof.Machine

@[simp] theorem State.engWrite_wf {s : State} (h : s.Wf) (pa : Nat) (l : List Byte) (mk : Nat) : (s.engWrite pa l mk).Wf := by
  grind [State.engWrite, State.writeBytes_wf, State.setLineMark_wf, State.wake_keeps]

theorem State.admitOne_wf {s : State} (hs : s.Wf) (i : Iss) (h : EHdr) (b : EngBody) (reads : List Nat) (chk : EngChk) (take : EngTake) :
    (s.admitOne i h b reads chk take).Wf := by
  unfold State.admitOne
  dsimp only
  (repeat' split) <;> simp [hs]

theorem execEngineQueueAccept_wf {s : State} (h : s.Wf) (a : Agent) : OutWf (execEngineQueueAccept a s) := by
  unfold execEngineQueueAccept
  (repeat' split) <;> simp [h]

theorem State.mmaAdmit_wf (s : State) (i : Iss) (h : EHdr) (f : MmaF) (copied : List Nat) :
    Ends Admit.Wf (fun _ => True) (s.mmaAdmit i h f copied) := by
  unfold State.mmaAdmit
  dsimp only
  (repeat' split) <;> simp

@[simp] theorem State.setProg_keeps (s : State) (wid dn slot prog : Nat) : s.Keeps (s.setProg wid dn slot prog) := by
  unfold State.setProg
  (repeat' split) <;> simp

theorem State.admitMma_wf {s : State} (hs : s.Wf) (i : Iss) (h : EHdr) (f : MmaF) : (s.admitMma i h f).Wf := by
  grind [State.admitMma, Ends, Next.Wf, Admit.Wf, State.mmaAdmit_wf, State.accept_keeps, State.setProg_keeps]

theorem execMma_wf {s : State} (hs : s.Wf) (h : EHdr) (f : MmaF) : OutWf (execMma h f s) := engInstr_wf hs fun _ => State.admitMma_wf hs ..

theorem State.mmaRows_wf {s : State} (h : s.Wf) (c : Cmd) (o : MmaOp) (g : Nat) : Ends Next.Wf (fun p => p.2.Wf) (s.mmaRows c o g) := by
  unfold State.mmaRows
  split
  · exact h
  · refine foldlM_ends _ _ (fun acc _ ha => ?_) h
    grind [Ends, State.reachAll_keeps]

theorem State.mmaScales_wf {s : State} (h : s.Wf) (c : Cmd) (o : MmaOp) (g0 g : Nat) :
    Ends Next.Wf (fun p => p.2.Wf) (s.mmaScales c o g0 g) := by
  unfold State.mmaScales
  dsimp only
  split
  · exact h
  · refine foldlM_ends _ _ (fun acc _ ha => ?_) h
    grind [Ends, State.reachAll_keeps]

theorem State.mmaGroup_wf {s : State} (h : s.Wf) (c : Cmd) (f : MmaF) (ct : Tile) : Ends Next.Wf (fun p => p.1.Wf) (s.mmaGroup c f ct) := by
  unfold State.mmaGroup
  dsimp only
  split
  next x e => exact (State.mmaRows_wf h ..).of_error e
  next ra s e =>
  have h := (State.mmaRows_wf h ..).of_ok e
  split
  next x e => exact (State.mmaRows_wf h ..).of_error e
  next rb s e =>
  have h := (State.mmaRows_wf h ..).of_ok e
  split
  next x e => exact (State.mmaScales_wf h ..).of_error e
  next sa s e =>
  have h := (State.mmaScales_wf h ..).of_ok e
  split
  next x e => exact (State.mmaScales_wf h ..).of_error e
  next sb s e => exact (State.mmaScales_wf h ..).of_ok e

theorem State.mmaNext_wf {s : State} (h : s.Wf) (id : Nat) (c : Cmd) (f : MmaF) : (s.mmaNext id c f).Wf := by
  grind [State.mmaNext, Ends, Next.Wf, Admit.Wf, State.mmaGroup_wf, State.updCore_keeps, State.updCmd_keeps, State.setProg_keeps, State.countCmd_keeps]

theorem State.admitCopy_wf {s : State} (hs : s.Wf) (i : Iss) (h : EHdr) (f : CopyF) (next : Option (EHdr × MmaF)) :
    (s.admitCopy i h f next).Wf := by
  unfold State.admitCopy
  dsimp only
  split
  · exact State.admitOne_wf hs ..
  · have ha := State.mmaAdmit_wf s i
    grind [Ends, Admit.Wf, State.mmaAdmit_wf, State.accept_keeps, State.setProg_keeps]

theorem execCopy_wf {s : State} (hs : s.Wf) (h : EHdr) (f : CopyF) : OutWf (execCopy h f s) := engInstr_wf hs fun _ => State.admitCopy_wf hs ..

theorem State.admitCopymc_wf {s : State} (hs : s.Wf) (i : Iss) (h : EHdr) (f : CopymcF) : (s.admitCopymc i h f).Wf := by
  grind [State.admitCopymc, Ends, Next.Wf, Admit.Wf, State.admitOne_wf]

theorem execCopymc_wf {s : State} (hs : s.Wf) (h : EHdr) (f : CopymcF) : OutWf (execCopymc h f s) := engInstr_wf hs fun _ => State.admitCopymc_wf hs ..

theorem State.admitTfill_wf {s : State} (hs : s.Wf) (i : Iss) (h : EHdr) (f : TfillF) : (s.admitTfill i h f).Wf := by
  grind [State.admitTfill, Ends, Next.Wf, Admit.Wf, State.admitOne_wf]

theorem execTfill_wf {s : State} (hs : s.Wf) (h : EHdr) (f : TfillF) : OutWf (execTfill h f s) := engInstr_wf hs fun _ => State.admitTfill_wf hs ..

theorem State.admitEseq_wf {s : State} (hs : s.Wf) (i : Iss) (h : EHdr) (f : EseqF) : (s.admitEseq i h f).Wf := by
  grind [State.admitEseq, Ends, Next.Wf, Admit.Wf, State.admitOne_wf]

theorem execEseq_wf {s : State} (hs : s.Wf) (h : EHdr) (f : EseqF) : OutWf (execEseq h f s) := engInstr_wf hs fun _ => State.admitEseq_wf hs ..

theorem State.copyRead_wf {s : State} (h : s.Wf) (c : Cmd) (row x n : Nat) : Ends Next.Wf (fun p => p.2.Wf) (s.copyRead c row x n) := by
  grind [State.copyRead, Ends, Next.Wf, Admit.Wf, State.reach_keeps]

@[simp] theorem State.startFollow_keeps (s : State) (c : Cmd) : s.Keeps (s.startFollow c) := by
  unfold State.startFollow
  split <;> simp

theorem State.copyPiece_wf {s : State} (h : s.Wf) (id : Nat) (c : Cmd) (f : CopyF) (a n : Nat) :
    Ends Next.Wf State.Wf (s.copyPiece id c f a n) := by
  grind [State.copyPiece, Ends, Next.Wf, Admit.Wf, State.copyRead_wf, State.reach_keeps, State.countCmd_keeps, State.engWrite_wf, State.updCore_keeps]

theorem State.copyNext_wf {s : State} (h : s.Wf) (id : Nat) (c : Cmd) (f : CopyF) : (s.copyNext id c f).Wf := by
  grind [State.copyNext, Ends, Next.Wf, Admit.Wf, State.copyPiece_wf, State.updCmd_keeps, State.startFollow_keeps]

theorem State.tfillNext_wf {s : State} (h : s.Wf) (id : Nat) (c : Cmd) (f : TfillF) : (s.tfillNext id c f).Wf := by
  unfold State.tfillNext
  dsimp only
  (repeat' split) <;> simp [h]

@[simp] theorem State.setTarget_keeps (s : State) (id i : Nat) (t : McTarget) : s.Keeps (s.setTarget id i t) := ⟨rfl, rfl⟩

@[simp] theorem State.countSettled_keeps (s : State) (id : Nat) : s.Keeps (s.countSettled id) := by
  unfold State.countSettled
  dsimp only
  (repeat' split) <;> simp

@[simp] theorem State.checkTarget_keeps (s : State) (id : Nat) (c : Cmd) (i : Nat) (t : McTarget) : s.Keeps (s.checkTarget id c i t) := by
  unfold State.checkTarget
  (repeat' split) <;> simp

@[simp] theorem State.landTarget_keeps (s : State) (id i : Nat) (t : McTarget) (e : RegEnd) (a : Int) (l : List (Byte × Nat)) :
    s.Keeps (s.landTarget id i t e a l) := by
  unfold State.landTarget
  dsimp only
  split <;> simp

theorem State.windowNext_wf {s : State} (h : s.Wf) (id : Nat) (c : Cmd) : (s.windowNext id c).Wf := by
  unfold State.windowNext
  dsimp only
  split
  · simp
  split
  · split <;> simp [h]
  split
  · simp
  split
  next x e => exact (State.copyRead_wf h ..).of_error e
  next l t e => simp [(State.copyRead_wf h ..).of_ok e]

@[simp] theorem State.endMulticast_keeps (s : State) (id : Nat) (c : Cmd) : s.Keeps (s.endMulticast id c) := by
  unfold State.endMulticast
  dsimp only
  (repeat' split) <;> simp

end Sys2Proof.Machine
end


section
/-! Engine commands: gathers and scatters. -/

namespace Sys2Proof.Machine

theorem State.admitGath_wf {s : State} (hs : s.Wf) (i : Iss) (h : EHdr) (f : GathF) : (s.admitGath i h f).Wf := by
  grind [State.admitGath, Admit.Wf, State.admitOne_wf]

theorem execGath_wf {s : State} (hs : s.Wf) (h : EHdr) (f : GathF) : OutWf (execGath h f s) := engInstr_wf hs fun _ => State.admitGath_wf hs ..

theorem State.admitScata_wf {s : State} (hs : s.Wf) (i : Iss) (h : EHdr) (f : ScataF) : (s.admitScata i h f).Wf := by
  grind [State.admitScata, Admit.Wf, State.admitOne_wf]

theorem execScata_wf {s : State} (hs : s.Wf) (h : EHdr) (f : ScataF) : OutWf (execScata h f s) := engInstr_wf hs fun _ => State.admitScata_wf hs ..

theorem State.recWords_wf {s : State} (h : s.Wf) (c : Cmd) (e : Nat) (r : Rcd) (first n : Nat) :
    Ends Next.Wf (fun p => p.2.Wf) (s.recWords c e r first n) := by
  unfold State.recWords
  split
  · simp
  · refine foldlM_ends _ _ (fun acc _ ha => ?_) h
    grind [Ends, Next.Wf, State.reach_keeps]

theorem State.gathStart_wf {s : State} (h : s.Wf) (id : Nat) (c : Cmd) (f : GathF) : (s.gathStart id c f).Wf := by
  grind [State.gathStart, Ends, Next.Wf, State.recWords_wf, State.updCmd_keeps]

theorem State.tableRow_wf {s : State} (h : s.Wf) (c : Cmd) (f : GathF) (x i : Nat) :
    Ends Next.Wf (fun p => p.2.Wf) (s.tableRow c f x i) := by
  grind [State.tableRow, Ends, Next.Wf, State.reachAll_keeps]

theorem State.tableRows_wf {s : State} (h : s.Wf) (c : Cmd) (f : GathF) (first : Nat) (l : List Nat) :
    Ends Next.Wf (fun p => p.2.Wf) (s.tableRows c f first l) := by
  refine foldlM_ends _ _ (fun acc _ ha => ?_) h
  grind [Ends, State.tableRow_wf]

theorem State.gathRead_wf {s : State} (h : s.Wf) (id : Nat) (c : Cmd) (f : GathF) : (s.gathRead id c f).Wf := by
  grind [State.gathRead, Ends, Next.Wf, State.tableRows_wf, State.updCmd_keeps]

@[simp] theorem State.gathLand_keeps (s : State) (id : Nat) (c : Cmd) (f : GathF) (q k : Nat) : s.Keeps (s.gathLand id c f q k) := by
  simp [State.gathLand]

theorem State.gathNext_wf {s : State} (h : s.Wf) (id : Nat) (c : Cmd) (f : GathF) : (s.gathNext id c f).Wf := by
  grind [State.gathNext, Ends, Next.Wf, State.gathStart_wf, State.gathRead_wf, State.gathLand_keeps]

@[simp] theorem State.arrive_keeps (s : State) (id bag port : Nat) : s.Keeps (s.arrive id bag port) := by
  unfold State.arrive
  dsimp only
  (repeat' split) <;> simp

theorem State.scataNext_wf {s : State} (h : s.Wf) (id : Nat) (c : Cmd) (f : ScataF) : (s.scataNext id c f).Wf := by
  unfold State.scataNext
  dsimp only
  split
  · have hi : Ends Next.Wf (fun p : List Nat × State => p.2.Wf)
        (if f.isrc then .ok (s.frameWords c (c.sc (f.isc.toNat + 1)) (c.sc f.isc.toNat), s)
        else s.recWords c 0x68 (c.rcd 1) (c.sc (f.isc.toNat + 1)) (c.sc f.isc.toNat)) := by
      split
      · exact h
      · exact State.recWords_wf h ..
    split
    next x e => exact hi.of_error e
    next l t e => simp [hi.of_ok e]
  split
  · simp
  split
  · simp
  · simp [h]
  split
  next x e => exact (State.reach_keeps ..).of_error e
  next pa t e =>
    have ht : t.Wf := ((State.reach_keeps ..).of_ok e).form h
    split
    · simp
    · refine State.Keeps.form (State.Keeps.trans (State.countCmd_keeps ..) (State.updCmd_keeps ..)) (foldl_form _ _ (fun u i hu => ?_) ht)
      split <;> simp [hu, Sparse.wf_write]

end Sys2Proof.Machine
end


section
/-! The blocks, tables and nodes of a context store, and the commands on them. -/

namespace Sys2Proof.Machine

@[simp] theorem Mdl.putSeq_wf {s : State} (h : s.Wf) (m : Mdl) (i : Nat) (r : SeqRec) : (m.putSeq s i r).Wf := by
  simp [Mdl.putSeq, h]

@[simp] theorem Mdl.putNode_wf {s : State} (h : s.Wf) (m : Mdl) (i : Nat) (x : Node) : (m.putNode s i x).Wf := by
  simp [Mdl.putNode, h]

@[simp] theorem Mdl.updNode_wf {s : State} (h : s.Wf) (m : Mdl) (i : Nat) (g : Node → Node) : (m.updNode s i g).Wf := by
  simp [Mdl.updNode, h]

@[simp] theorem Mdl.putEntry_wf {s : State} (h : s.Wf) (m : Mdl) (x : Node) (l : Nat) (e : LEntry) : (m.putEntry s x l e).Wf := by
  simp [Mdl.putEntry, h]

@[simp] theorem Mdl.putBlock_wf {s : State} (h : s.Wf) (m : Mdl) (tab i b : Nat) : (m.putBlock s tab i b).Wf := by
  simp [Mdl.putBlock, h]

@[simp] theorem State.updModel_keeps (s : State) (m : Mdl) (f : Model → Model) : s.Keeps (s.updModel m f) := ⟨rfl, rfl⟩

@[simp] theorem State.setRef_keeps (s : State) (m : Mdl) (b n : Nat) : s.Keeps (s.setRef m b n) := ⟨rfl, rfl⟩

@[simp] theorem State.setPin_keeps (s : State) (m : Mdl) (b n : Nat) : s.Keeps (s.setPin m b n) := ⟨rfl, rfl⟩

@[simp] theorem State.dropRef_keeps (s : State) (m : Mdl) (b : Nat) : s.Keeps (s.dropRef m b) := ⟨rfl, rfl⟩

@[simp] theorem State.vzero_wf {s : State} (h : s.Wf) (ctx va n : Nat) : (s.vzero ctx va n).Wf := by
  refine foldl_form _ _ (fun s p h => ?_) h
  split <;> simp [h, Memory.wf_clear, Sparse.wf_write]

@[simp] theorem State.vclear_wf {s : State} (h : s.Wf) (ctx va n : Nat) : (s.vclear ctx va n).Wf := by
  refine foldl_form _ _ (fun s p h => ?_) h
  split <;> simp [h, Memory.wf_clear]

@[simp] theorem State.vcopy_wf {s : State} (h : s.Wf) (ctx src dst n : Nat) : (s.vcopy ctx src dst n).Wf := by
  refine foldl_form _ _ (fun s p h => ?_) h
  split <;> simp [h, Memory.wf_writeList, Sparse.wf_write]

theorem Mdl.newBlock_wf {s : State} (h : s.Wf) (m : Mdl) : Ends (fun _ => True) (fun p => p.2.Wf) (m.newBlock s) := by
  unfold Mdl.newBlock
  dsimp only
  (repeat' split) <;> simp [h]

theorem Mdl.copyBlock_wf {s : State} (h : s.Wf) (m : Mdl) (b : Nat) : Ends (fun _ => True) (fun p => p.2.Wf) (m.copyBlock s b) := by
  grind [Mdl.copyBlock, Ends, Mdl.newBlock_wf, State.vcopy_wf]

theorem Mdl.newTabs_wf {s : State} (h : s.Wf) (m : Mdl) (n : Nat) : Ends (fun _ => True) (fun p => p.2.Wf) (m.newTabs s n) := by
  unfold Mdl.newTabs
  dsimp only
  (repeat' split) <;> simp [h]

@[simp] theorem Mdl.freeTabs_keeps (m : Mdl) (s : State) (va n : Nat) : s.Keeps (m.freeTabs s va n) := ⟨rfl, rfl⟩

theorem Mdl.newTable_wf {s : State} (h : s.Wf) (m : Mdl) (l : List Nat) : Ends (fun _ => True) (fun p => p.2.Wf) (m.newTable s l) := by
  grind [Mdl.newTable, Ends, Mdl.newTabs_wf, State.vwrite_wf]

theorem Mdl.newNode_wf {s : State} (h : s.Wf) (m : Mdl) : Ends (fun _ => True) (fun p => p.2.Wf) (m.newNode s) := by
  unfold Mdl.newNode
  (repeat' split) <;> simp [h]

theorem Mdl.buildLayers_wf {s : State} (h : s.Wf) (m : Mdl) {g : State → Nat → Kv LEntry}
    (hg : ∀ t l, t.Wf → Ends (fun _ => True) (fun p => p.2.Wf) (g t l)) : Ends (fun _ => True) (fun p => p.2.Wf) (m.buildLayers s g) := by
  unfold Mdl.buildLayers
  split
  · trivial
  next va t e =>
    refine foldlM_ends _ _ (fun acc l ha => ?_) ((Mdl.newTabs_wf h m _).of_ok e)
    have hl := hg acc.2 l ha
    grind [Ends, State.vwriteNat_wf]

@[simp] theorem Mdl.redirect_keeps (m : Mdl) (s : State) (tab : Nat) (g : KvRow → KvRow) : s.Keeps (m.redirect s tab g) := ⟨rfl, rfl⟩

@[simp] theorem Mdl.dropTable_keeps (m : Mdl) (s : State) (tab : Nat) : s.Keeps (m.dropTable s tab) := by
  simp [Mdl.dropTable]

theorem Mdl.replaceChild_walk_wf (m : Mdl) (old new_ n i : Nat) {s : State} (h : s.Wf) : (Mdl.replaceChild.walk m old new_ s n i).Wf := by
  induction n generalizing i with
  | zero => exact h
  | succ n ih =>
    unfold Mdl.replaceChild.walk
    split
    · exact h
    · dsimp only
      split
      · simp [h]
      · exact ih _

@[simp] theorem Mdl.replaceChild_wf {s : State} (h : s.Wf) (m : Mdl) (parent old new_ : Nat) : (m.replaceChild s parent old new_).Wf := by
  unfold Mdl.replaceChild
  dsimp only
  split
  · exact h
  split
  · simp [h]
  · exact Mdl.replaceChild_walk_wf m _ _ _ _ h

theorem Mdl.split_wf {s : State} (h : s.Wf) (m : Mdl) (i p : Nat) : Ends (fun _ => True) (fun p => p.2.Wf) (m.split s i p) := by
  unfold Mdl.split
  dsimp only
  split
  · trivial
  split
  · trivial
  next n t e =>
    have ht := (Mdl.newNode_wf h m).of_ok e
    split
    · trivial
    next lt u e =>
      have hu := Ends.of_ok (Mdl.buildLayers_wf (by simp [ht]) m fun v l hv => by
        grind [Ends, Mdl.newTable_wf, Mdl.copyBlock_wf, Mdl.redirect_keeps, State.vwrite_wf]) e
      exact Mdl.putNode_wf (Mdl.putNode_wf (Mdl.replaceChild_wf hu ..) ..) ..

theorem Mdl.endingAt_wf {s : State} (h : s.Wf) (m : Mdl) (r : SeqRec) (p : Nat) :
    Ends (fun _ => True) (fun p => p.2.Wf) (m.endingAt s r p) := by
  grind [Mdl.endingAt, Ends, Mdl.split_wf]

theorem State.admitKv_wf {s : State} (hs : s.Wf) (i : Iss) (h : EHdr) (b : EngBody) (f : KvF) (u : KvUse) (land src open_ : Bool) :
    (s.admitKv i h b f u land src open_).Wf := by
  unfold State.admitKv
  dsimp only
  (repeat' split) <;> simp [hs]

theorem State.admitKvw_wf {s : State} (hs : s.Wf) (i : Iss) (h : EHdr) (f : KvF) : (s.admitKvw i h f).Wf := by
  grind [State.admitKvw, Admit.Wf, State.admitKv_wf]

theorem State.admitKvld_wf {s : State} (hs : s.Wf) (i : Iss) (h : EHdr) (f : KvF) : (s.admitKvld i h f).Wf := by
  grind [State.admitKvld, Admit.Wf, State.admitKv_wf]

theorem State.admitKvst_wf {s : State} (hs : s.Wf) (i : Iss) (h : EHdr) (f : KvF) : (s.admitKvst i h f).Wf := by
  grind [State.admitKvst, Admit.Wf, State.admitKv_wf]

theorem State.admitKvfork_wf {s : State} (hs : s.Wf) (i : Iss) (h : EHdr) (f : KvF) : (s.admitKvfork i h f).Wf := by
  grind [State.admitKvfork, Admit.Wf, State.admitKv_wf]

theorem State.admitSplice_wf {s : State} (hs : s.Wf) (i : Iss) (h : EHdr) (f : KvF) : (s.admitSplice i h f).Wf := by
  grind [State.admitSplice, Admit.Wf, State.admitKv_wf]

theorem State.admitRpopen_wf {s : State} (hs : s.Wf) (i : Iss) (h : EHdr) (f : KvF) : (s.admitRpopen i h f).Wf := by
  grind [State.admitRpopen, Admit.Wf, State.admitKv_wf]

theorem State.admitRpstat_wf {s : State} (hs : s.Wf) (i : Iss) (h : EHdr) (f : KvF) : (s.admitRpstat i h f).Wf := by
  grind [State.admitRpstat, Admit.Wf, State.admitKv_wf]

theorem State.admitRpcancel_wf {s : State} (hs : s.Wf) (i : Iss) (h : EHdr) (f : KvF) : (s.admitRpcancel i h f).Wf := by
  grind [State.admitRpcancel, Admit.Wf, State.admitKv_wf]

theorem State.admitKvfree_wf {s : State} (hs : s.Wf) (i : Iss) (h : EHdr) (f : KvF) : (s.admitKvfree i h f).Wf := by
  grind [State.admitKvfree, Admit.Wf, State.admitKv_wf]

theorem execKvw_wf {s : State} (hs : s.Wf) (h : EHdr) (f : KvF) : OutWf (execKvw h f s) := engInstr_wf hs fun _ => State.admitKvw_wf hs ..

theorem execKvld_wf {s : State} (hs : s.Wf) (h : EHdr) (f : KvF) : OutWf (execKvld h f s) := engInstr_wf hs fun _ => State.admitKvld_wf hs ..

theorem execKvst_wf {s : State} (hs : s.Wf) (h : EHdr) (f : KvF) : OutWf (execKvst h f s) := engInstr_wf hs fun _ => State.admitKvst_wf hs ..

theorem execKvfork_wf {s : State} (hs : s.Wf) (h : EHdr) (f : KvF) : OutWf (execKvfork h f s) := engInstr_wf hs fun _ => State.admitKvfork_wf hs ..

theorem execSplice_wf {s : State} (hs : s.Wf) (h : EHdr) (f : KvF) : OutWf (execSplice h f s) := engInstr_wf hs fun _ => State.admitSplice_wf hs ..

theorem execRpopen_wf {s : State} (hs : s.Wf) (h : EHdr) (f : KvF) : OutWf (execRpopen h f s) := engInstr_wf hs fun _ => State.admitRpopen_wf hs ..

theorem execRpstat_wf {s : State} (hs : s.Wf) (h : EHdr) (f : KvF) : OutWf (execRpstat h f s) := engInstr_wf hs fun _ => State.admitRpstat_wf hs ..

theorem execRpcancel_wf {s : State} (hs : s.Wf) (h : EHdr) (f : KvF) : OutWf (execRpcancel h f s) := engInstr_wf hs fun _ => State.admitRpcancel_wf hs ..

theorem execKvfree_wf {s : State} (hs : s.Wf) (h : EHdr) (f : KvF) : OutWf (execKvfree h f s) := engInstr_wf hs fun _ => State.admitKvfree_wf hs ..

theorem Mdl.reached_wf (m : Mdl) (s : State) (e : Nat) (data : Bool) {k : Next} (hk : k.Wf) : (m.reached s e data k).Wf := by
  unfold Mdl.reached
  split
  · exact hk
  · simp
  · simp

@[simp] theorem State.kvResults_keeps (s : State) (c : Cmd) (f : KvF) (l : List Nat) : s.Keeps (s.kvResults c f l) := by
  unfold State.kvResults
  split <;> simp

@[simp] theorem State.kvEnd_keeps (s : State) (id bytes aux : Nat) : s.Keeps (s.kvEnd id bytes aux) := by
  simp [State.kvEnd]

theorem State.kvwNext_wf {s : State} (h : s.Wf) (id : Nat) (c : Cmd) (f : KvF) : (s.kvwNext id c f).Wf := by
  grind [State.kvwNext, Next.Wf, Mdl.reached_wf, State.kvEnd_keeps, State.kvResults_keeps]

theorem State.kvldStart_wf {s : State} (h : s.Wf) (id : Nat) (c : Cmd) (f : KvF) : (s.kvldStart id c f).Wf := by
  unfold State.kvldStart
  split
  · simp
  · refine Mdl.reached_wf _ _ _ _ ?_
    dsimp only
    (repeat' split) <;> simp [h]

theorem State.kvldRow_wf {s : State} (h : s.Wf) (id : Nat) (c : Cmd) (f : KvF) (m : Mdl) (t : Tile) (q : KvRow) (more : List KvRow) :
    (s.kvldRow id c f m t q more).Wf := by
  grind [State.kvldRow, Ends, Next.Wf, State.reachAll_keeps, State.updCore_keeps, State.unpin_keeps, State.updCmd_keeps, State.countCmd_keeps, State.endCmd_keeps]

theorem State.kvldNext_wf {s : State} (h : s.Wf) (id : Nat) (c : Cmd) (f : KvF) : (s.kvldNext id c f).Wf := by
  grind [State.kvldNext, Next.Wf, State.kvldStart_wf, State.kvldRow_wf]

theorem Mdl.ownBlock_wf {s : State} (h : s.Wf) (m : Mdl) (tab i : Nat) : Ends (fun _ => True) (fun p => p.2.Wf) (m.ownBlock s tab i) := by
  grind [Mdl.ownBlock, Ends, Mdl.copyBlock_wf, Mdl.redirect_keeps, State.dropRef_keeps, Mdl.putBlock_wf]

theorem Mdl.ownRows_wf (m : Mdl) (l : List (KvPos × Nat)) {s : State} (h : s.Wf) : Ends (fun _ => True) (fun p => p.2.Wf) (m.ownRows l s) := by
  induction l generalizing s with
  | nil => exact h
  | cons a l ih => grind [Mdl.ownRows, Ends, Mdl.ownBlock_wf]

theorem Mdl.kvstRows_wf {s : State} (h : s.Wf) (m : Mdl) (f : KvF) (r : SeqRec) (p l n : Nat) :
    Ends (fun _ => True) (fun p => p.2.Wf) (m.kvstRows s f r p l n) := by
  grind [Mdl.kvstRows, Ends, Mdl.ownRows_wf]

theorem Mdl.newLeaf_wf {s : State} (h : s.Wf) (m : Mdl) (i : Nat) (r : SeqRec) :
    Ends (fun _ => True) (fun p => p.2.Wf) (m.newLeaf s i r) := by
  grind [Mdl.newLeaf, Ends, Mdl.newNode_wf, Mdl.putNode_wf, Mdl.buildLayers_wf, Mdl.newTable_wf, Mdl.updNode_wf, Mdl.putSeq_wf]

theorem Mdl.leafFor_wf {s : State} (h : s.Wf) (m : Mdl) (i : Nat) (r : SeqRec) :
    Ends (fun _ => True) (fun p => p.2.Wf) (m.leafFor s i r) := by
  grind [Mdl.leafFor, Ends, Mdl.newLeaf_wf]

theorem Ends.map {ε α β : Type} {p : ε → Prop} {q : α → Prop} {q' : β → Prop} {r : Except ε α} (h : Ends p q r) {f : α → β}
    (hf : ∀ a, q a → q' (f a)) : Ends p q' (r.map f) := by
  cases r with
  | error e => exact h
  | ok a => exact hf a h

theorem Mdl.ownLayers_wf (m : Mdl) (x : Node) (k l : Nat) {s : State} (h : s.Wf) : Ends (fun _ => True) State.Wf (m.ownLayers x k l s) := by
  induction l generalizing s with
  | zero => exact h
  | succ l ih =>
    unfold Mdl.ownLayers
    split
    · trivial
    next t e => exact (Mdl.ownBlock_wf ((ih h).of_ok e) m _ _).map fun p hp => hp

theorem Mdl.newBlocks_wf (m : Mdl) (n : Nat) {s : State} (h : s.Wf) : Ends (fun _ => True) (fun p => p.2.Wf) (m.newBlocks n s) := by
  induction n generalizing s with
  | zero => exact h
  | succ n ih =>
    unfold Mdl.newBlocks
    split
    · trivial
    next l t e => exact (Mdl.newBlock_wf ((ih h).of_ok e) m).map fun p hp => hp

theorem Mdl.takeEntries_wf (m : Mdl) (l : List Nat) {s : State} (h : s.Wf) : Ends (fun _ => True) (fun p => p.2.Wf) (m.takeEntries l s) := by
  induction l generalizing s with
  | nil => exact h
  | cons j l ih =>
    unfold Mdl.takeEntries
    split
    · trivial
    next bs t e => exact (ih ((Mdl.newBlocks_wf m _ h).of_ok e)).map fun p hp => hp

theorem Mdl.reserve_wf {s : State} (h : s.Wf) (m : Mdl) (i : Nat) (r : SeqRec) (l row cnt : Nat) :
    Ends (fun _ => True) (fun p => p.2.2.Wf) (m.reserve s i r l row cnt) := by
  have hf : ∀ (l : List Nat) {t : State}, t.Wf → (l.foldl (fun s b => s.setRef m b 0) t).Wf := fun l t ht =>
    foldl_form _ _ (fun s b hs => by simp [hs]) ht
  grind [Mdl.reserve, Ends, Mdl.leafFor_wf, Mdl.ownLayers_wf, Mdl.takeEntries_wf]

theorem State.kvstStart_wf {s : State} (h : s.Wf) (id : Nat) (c : Cmd) (f : KvF) : (s.kvstStart id c f).Wf := by
  unfold State.kvstStart
  split
  · trivial
  refine Mdl.reached_wf _ _ _ _ ?_
  dsimp only
  split
  · trivial
  split
  · trivial
  split
  · trivial
  next e =>
    have ht := (Mdl.kvstRows_wf h ..).of_ok e
    split
    · exact (State.updCmd_keeps ..).form ht
    split
    · trivial
    split
    · trivial
    next e => exact (State.updCmd_keeps ..).form ((Mdl.reserve_wf ht ..).of_ok e)

@[simp] theorem Mdl.clearSlot_wf {s : State} (h : s.Wf) (m : Mdl) (block slot : Nat) : (m.clearSlot s block slot).Wf := by
  simp [Mdl.clearSlot, h]

@[simp] theorem Mdl.growSlot_wf {s : State} (h : s.Wf) (m : Mdl) (id : Nat) (g : KvGrow) : (m.growSlot s id g).Wf := by
  unfold Mdl.growSlot
  dsimp only
  refine Mdl.putSeq_wf (Mdl.putNode_wf (foldl_form _ _ (fun t l ht => Mdl.clearSlot_wf ht ..) ?_) ..) ..
  split
  · exact h
  · exact State.Keeps.form (State.updCmd_keeps ..) (foldl_form _ _ (fun t b ht => by simp [ht]) h)

theorem State.kvstWrite_wf {s : State} (h : s.Wf) (id : Nat) (c : Cmd) (f : KvF) (m : Mdl) (t : Tile) (q : KvRow) :
    (s.kvstWrite id c f m t q).Wf := by
  unfold State.kvstWrite
  split
  next x e => exact (State.reachAll_keeps ..).of_error e
  next l t e =>
    have ht : t.Wf := ((State.reachAll_keeps ..).of_ok e).form h
    have hg : ∀ b : Bool, State.Wf (match c.grow with
        | some g => if b then m.growSlot t id g else t
        | none => t) := fun b => by
      (repeat' split) <;> simp [ht]
    refine State.Keeps.form (State.Keeps.ite (State.endCmd_keeps ..) ⟨rfl, rfl⟩) ?_
    refine State.Keeps.form (State.Keeps.trans (State.countCmd_keeps ..) (State.updCmd_keeps ..)) ?_
    exact List.foldlRecOn l _ (motive := fun a : State × Nat => a.1.Wf) (hg _) fun a ha p _ => State.engWrite_wf ha ..

theorem State.kvstNext_wf {s : State} (h : s.Wf) (id : Nat) (c : Cmd) (f : KvF) : (s.kvstNext id c f).Wf := by
  grind [State.kvstNext, Ends, Next.Wf, State.kvstStart_wf, Mdl.reached_wf, State.kvstWrite_wf, Mdl.reserve_wf, State.updCmd_keeps]

theorem Mdl.fork_wf {s : State} (h : s.Wf) (m : Mdl) (parent : SeqRec) (q basep doc : Nat) {k : Nat} {t : State}
    (e : m.fork s parent q basep doc = .ok (k, t)) : t.Wf := by
  unfold Mdl.fork at e
  split at e
  · cases e
  split at e
  · cases e
  next leaf u e' =>
    have hu := (Mdl.endingAt_wf h m parent q).of_ok e'
    obtain ⟨-, rfl⟩ := Prod.mk.inj (Except.ok.inj e)
    exact State.Keeps.form (State.updModel_keeps ..) (foldl_form _ _ (fun u n hu => by simp [hu]) (by simp [hu]))

theorem State.kvforkNext_wf {s : State} (h : s.Wf) (id : Nat) (c : Cmd) (f : KvF) : (s.kvforkNext id c f).Wf := by
  unfold State.kvforkNext
  split
  · simp
  · refine Mdl.reached_wf _ _ _ _ ?_
    dsimp only
    split
    · trivial
    split
    · trivial
    split
    · trivial
    next k t e =>
      exact ((State.kvResults_keeps ..).trans (State.kvEnd_keeps ..)).form (Mdl.fork_wf h _ _ _ _ _ e)

@[simp] theorem State.cancelJob_keeps (s : State) (h : Nat) : s.Keeps (s.cancelJob h) := ⟨rfl, rfl⟩

@[simp] theorem Mdl.freeNode_wf {s : State} (h : s.Wf) (m : Mdl) (i : Nat) : (m.freeNode s i).Wf := by
  unfold Mdl.freeNode
  dsimp only
  have hl : ∀ l : List Nat, State.Wf (l.foldl (fun t l => if (m.entry t (m.node s i) l).btab = 0 then t
      else m.putEntry (m.dropTable t (m.entry t (m.node s i) l).btab) (m.node s i) l { (m.entry t (m.node s i) l) with btab := 0 }) s) :=
    fun l => foldl_form _ _ (fun t l ht => by split <;> simp [ht]) h
  split <;> simp [hl]

@[simp] theorem Mdl.leave_wf {s : State} (h : s.Wf) (m : Mdl) (r : SeqRec) : (m.leave s r).Wf := by
  refine foldl_form _ _ (fun t n ht => ?_) h
  dsimp only
  split
  · exact Mdl.freeNode_wf (Mdl.replaceChild_wf (Mdl.updNode_wf ht ..) ..) ..
  · exact Mdl.updNode_wf ht ..

@[simp] theorem State.docFreed_keeps (s : State) (ctx h : Nat) : s.Keeps (s.docFreed ctx h) := ⟨rfl, rfl⟩

theorem State.kvfreeNext_wf {s : State} (h : s.Wf) (id : Nat) (c : Cmd) (f : KvF) : (s.kvfreeNext id c f).Wf := by
  grind [State.kvfreeNext, Next.Wf, Mdl.reached_wf, Mdl.putSeq_wf, Mdl.leave_wf, State.kvEnd_keeps, State.docFreed_keeps]

theorem Mdl.shareTable_wf {s : State} (h : s.Wf) (m : Mdl) (bs : List Nat) : Ends (fun _ => True) (fun p => p.2.Wf) (m.shareTable s bs) := by
  unfold Mdl.shareTable
  split
  · trivial
  next va t e =>
    have ht := (Mdl.newTable_wf h m bs).of_ok e
    split
    · trivial
    split
    · trivial
    · exact foldl_form _ _ (fun u b hu => by simp [hu]) ht

theorem Mdl.spliceNode_wf {s : State} (h : s.Wf) (m : Mdl) (d : Node) (tabs : List (List Nat)) (p len prev y : Nat) :
    Ends (fun _ => True) (fun p => p.2.Wf) (m.spliceNode s d tabs p len prev y) := by
  grind [Mdl.spliceNode, Ends, Mdl.newNode_wf, Mdl.putNode_wf, Mdl.buildLayers_wf, Mdl.shareTable_wf, Mdl.updNode_wf, Mdl.replaceChild_wf]

theorem Mdl.spliceAt_wf {s : State} (h : s.Wf) (m : Mdl) (i : Nat) (r : SeqRec) (d : Node) (tabs : List (List Nat)) (p len prev : Nat) :
    Ends (fun _ => True) State.Wf (m.spliceAt s i r d tabs p len prev) := by
  unfold Mdl.spliceAt
  dsimp only
  split
  · trivial
  split
  · trivial
  split
  · trivial
  split
  · trivial
  next n t e =>
    exact Mdl.putSeq_wf (foldl_form _ _ (fun u q hu => by simp [hu]) ((Mdl.spliceNode_wf h ..).of_ok e)) ..

theorem State.spliceNext_wf {s : State} (h : s.Wf) (id : Nat) (c : Cmd) (f : KvF) : (s.spliceNext id c f).Wf := by
  grind [State.spliceNext, Ends, Next.Wf, Mdl.reached_wf, Mdl.endingAt_wf, Mdl.spliceAt_wf, State.kvEnd_keeps]

theorem State.rpstatNext_wf {s : State} (h : s.Wf) (id : Nat) (c : Cmd) (f : KvF) : (s.rpstatNext id c f).Wf := by
  simp [State.rpstatNext, h]

theorem State.rpcancelNext_wf {s : State} (h : s.Wf) (id : Nat) (c : Cmd) (f : KvF) : (s.rpcancelNext id c f).Wf := by
  unfold State.rpcancelNext
  dsimp only
  (repeat' split) <;> simp [h]

@[simp] theorem State.feSet_keeps (s : State) (x : FeWho) (d : AOpnd) (v : Dword) (n : Nat) : s.Keeps (s.feSet x d v n) := ⟨rfl, rfl⟩

end Sys2Proof.Machine
end


section
/-! The front end, migration, and the page tables. -/

namespace Sys2Proof.Machine

theorem feArith_wf {s : State} (h : s.Wf) (d a b : AOpnd) (g : Dword → Dword → Dword) : OutWf (feArith d a b g s) :=
  feIssue_wf h fun x => by simp [h]

@[simp] theorem State.feAtWarp_wf {s : State} (h : s.Wf) (x : FeWho) (w : Fin 32) {k : Nat → Warp → State} (hk : ∀ i v, (k i v).Wf) :
    (s.feAtWarp x w k).Wf := by
  unfold State.feAtWarp
  split
  · simp [h]
  · exact hk _ _

@[simp] theorem State.feRoom_wf {s : State} (h : s.Wf) (x : FeWho) (w : Warp) (q : Nat) {k : State} (hk : k.Wf) :
    (s.feRoom x w q k).Wf := by
  unfold State.feRoom
  split
  · simp [h]
  split
  · simp [h]
  · exact hk

@[simp] theorem State.feHead_wf {s : State} (h : s.Wf) (x : FeWho) (w : Warp) (q : Nat) {k : QEntry → State} (hk : ∀ e, (k e).Wf) :
    (s.feHead x w q k).Wf := by
  unfold State.feHead
  split
  · exact hk _
  · split <;> simp [h]

@[simp] theorem State.fePop_keeps (s : State) (wid q : Nat) : s.Keeps (s.fePop wid q) := ⟨rfl, rfl⟩

theorem execAmov_wf {s : State} (h : s.Wf) (f : AMovF) : OutWf (execAmov f s) := by
  refine feIssue_wf h fun x => State.feReady_wf h _ _ ?_
  dsimp only
  split
  · refine State.feAtWarp_wf h _ _ fun i w => State.feHead_wf h _ _ _ fun e => ?_
    split <;> simp [h]
  · refine State.feAtWarp_wf h _ _ fun i w => ?_
    split
    · exact State.feRoom_wf h _ _ _ (by simp [h])
    · simp [h]
  · simp [h]

theorem execApush_wf {s : State} (h : s.Wf) (f : ApushF) : OutWf (execApush f s) := by
  exact feIssue_wf h fun x => State.feReady_wf h _ _ (State.feAtWarp_wf h _ _ fun i w => State.feRoom_wf h _ _ _ (by simp [h]))

theorem execApop_wf {s : State} (h : s.Wf) (f : ApopF) : OutWf (execApop f s) := by
  refine feIssue_wf h fun x => State.feAtWarp_wf h _ _ fun i w => State.feHead_wf h _ _ _ fun e => ?_
  dsimp only
  split
  · simp [h]
  · exact State.feReady_wf h _ _ (by simp [h])

@[simp] theorem State.feMem_wf {s : State} (h : s.Wf) (x : FeWho) (r : Rcd) (k : AccKind) (lanes : List (Nat × Word)) (z : Nat)
    {go : State → List (Nat × Nat × Tr) → State} (hg : ∀ {t : State}, t.Wf → ∀ trs, (go t trs).Wf) : (s.feMem x r k lanes z go).Wf := by
  unfold State.feMem
  dsimp only
  split
  · exact h
  split
  · simp [h]
  · simp [h]
  · split
    · simp [h]
    · exact hg (by simp [h]) _

@[simp] theorem State.feRequest_keeps (s : State) (x : FeWho) (r : Rcd) (k : AccKind) (z : Nat) (l : List LaneAcc) (pend : Option Nat) :
    s.Keeps (s.feRequest x r k z l pend) := by
  simp [State.feRequest]

theorem execAld_wf {s : State} (h : s.Wf) (f : AldF) : OutWf (execAld f s) := by
  refine feIssue_wf h fun x => State.feReady_wf h _ _ (State.feMem_wf h _ _ _ _ _ fun {t} ht trs => ?_)
  dsimp only
  split <;> simp [ht]

theorem execAst_wf {s : State} (h : s.Wf) (f : AstF) : OutWf (execAst f s) := by
  exact feIssue_wf h fun x => State.feReady_wf h _ _ (State.feMem_wf h _ _ _ _ _ fun {t} ht trs => by simp [ht])

theorem execApushm_wf {s : State} (h : s.Wf) (f : ApushmF) : OutWf (execApushm f s) := by
  refine feIssue_wf h fun x => State.feReady_wf h _ _ (State.feAtWarp_wf h _ _ fun i w => ?_)
  dsimp only
  split
  · exact State.feRoom_wf h _ _ _ (by simp [h])
  split
  · simp [h]
  · exact State.feMem_wf h _ _ _ _ _ fun {t} ht trs => by simp [ht]

theorem execAkvw_wf {s : State} (h : s.Wf) (f : AkvwF) : OutWf (execAkvw f s) := by
  refine feIssue_wf h fun x => State.feReady_wf h _ _ ?_
  dsimp only
  (repeat' split) <;> simp [h]

theorem State.admitBody_wf {s : State} (h : s.Wf) (i : Iss) (e : EHdr) (next : Option (EHdr × MmaF)) (b : EngBody) :
    (s.admitBody i e next b).Wf := by
  cases b with
  | copy f => exact State.admitCopy_wf h ..
  | copymc f => exact State.admitCopymc_wf h ..
  | gath f => exact State.admitGath_wf h ..
  | scata f => exact State.admitScata_wf h ..
  | mma f => exact State.admitMma_wf h ..
  | tfill f => exact State.admitTfill_wf h ..
  | eseq f => exact State.admitEseq_wf h ..
  | kvw f => exact State.admitKvw_wf h ..
  | kvld f => exact State.admitKvld_wf h ..
  | kvst f => exact State.admitKvst_wf h ..
  | kvfork f => exact State.admitKvfork_wf h ..
  | splice f => exact State.admitSplice_wf h ..
  | rpopen f => exact State.admitRpopen_wf h ..
  | rpstat f => exact State.admitRpstat_wf h ..
  | rpcancel f => exact State.admitRpcancel_wf h ..
  | kvfree f => exact State.admitKvfree_wf h ..

theorem execAeng_wf {s : State} (h : s.Wf) (f : AengF) : OutWf (execAeng f s) := by
  refine feIssue_wf h fun x => ?_
  split
  · simp [h]
  refine State.feAtWarp_wf h _ _ fun wid w => ?_
  split
  · exact h
  next d _ =>
    have hb := State.admitBody_wf h (x.iss wid w d) ⟨0, f.sync, f.stat⟩ (x.nextMma f.wt) f.body
    split
    · simp [h]
    · simp [h]
    · simp [h]
    · simp [h]
    next t _ e =>
      rw [e] at hb
      exact (State.updFe_keeps ..).form hb

theorem execAwait_wf {s : State} (h : s.Wf) (f : AwaitF) : OutWf (execAwait f s) := by
  refine feIssue_wf h fun x => State.feReady_wf h _ _ (State.feAtWarp_wf h _ _ fun i w => ?_)
  split
  · exact h
  · dsimp only
    (repeat' split) <;> simp [h]

theorem execAend_wf {s : State} (h : s.Wf) : OutWf (execAend s) :=
  feIssue_wf h fun x => by simp [h]

theorem execFrontEndStallWatchdog_wf {s : State} (h : s.Wf) (crew : Nat) : OutWf (execFrontEndStallWatchdog crew s) := by
  unfold execFrontEndStallWatchdog
  (repeat' split) <;> simp [h]

@[simp] theorem State.moveFrame_wf {s : State} (h : s.Wf) (old new size : Nat) : (s.moveFrame old new size).Wf := by
  exact (State.canonical_iff _).mp (State.moveFrame_canonical ((State.canonical_iff s).mpr h) old new size)

@[simp] theorem State.writeLeaves_wf {s : State} (h : s.Wf) (level va pte : Nat) (e new : Pte) : (s.writeLeaves level va pte e new).Wf := by
  exact foldl_form _ _ (fun t i ht => by simp [ht]) h

@[simp] theorem State.shootPage_keeps (s : State) (ctx va : Nat) : s.Keeps (s.shootPage ctx va) := ⟨rfl, rfl⟩

@[simp] theorem State.replayAccess_keeps (s : State) (id : Nat) : s.Keeps (s.replayAccess id) := by
  unfold State.replayAccess
  (repeat' split) <;> simp

@[simp] theorem State.replayFault_keeps (s : State) (f : FaultEnt) : s.Keeps (s.replayFault f) := by
  unfold State.replayFault
  split <;> simp

@[simp] theorem State.replayAll_keeps (s : State) (ctx : Nat) (p : Nat → Bool) : s.Keeps (s.replayAll ctx p) := by
  simp [State.replayAll]

/-- A fold over a state and more, of steps that keep the form. -/
theorem foldl_fst_form {α β : Type} (l : List α) (f : State × β → α → State × β) (hf : ∀ q a, q.1.Wf → (f q a).1.Wf) {q : State × β}
    (h : q.1.Wf) : (l.foldl f q).1.Wf :=
  List.foldlRecOn l f (motive := fun q => q.1.Wf) h fun q hq a _ => hf q a hq

theorem State.evict_wf {s : State} (h : s.Wf) (die ctx log frame : Nat) : ∀ t, s.evict die ctx log frame = some t → t.1.Wf := by
  unfold State.evict
  dsimp only
  (repeat' split) <;> simp [h]

theorem State.pickFrame_wf {s : State} (h : s.Wf) (die ctx log old : Nat) (offered : List Nat) :
    ∀ t, s.pickFrame die ctx log old offered = some t → t.1.Wf := by
  intro t ht
  unfold State.pickFrame at ht
  dsimp only at ht
  split at ht
  · cases ht
    exact h
  split at ht
  · cases ht
    exact h
  split at ht
  next r e =>
    obtain ⟨f, -, hf⟩ := Option.bind_eq_some_iff.mp e
    exact Option.some.inj ht ▸ State.evict_wf h die ctx log f _ hf
  split at ht
  · obtain ⟨f, -, rfl⟩ := Option.map_eq_some_iff.mp ht
    exact h
  · cases ht

theorem State.beginMove_wf {s : State} (h : s.Wf) (die ctx va : Nat) (offered : List Nat) : (s.beginMove die ctx va offered).1.Wf := by
  unfold State.beginMove
  split
  · exact h
  split
  · exact h
  split
  · exact h
  next e => exact State.writeLeaves_wf (State.pickFrame_wf h _ _ _ _ _ _ e) ..

theorem execMigration_wf {s : State} (h : s.Wf) (die : Nat) (frames : List Nat) : OutWf (execMigration die frames s) := by
  refine (outWf_next _).mpr ?_
  split
  · exact h
  split
  · simp [h]
  dsimp only
  split
  · simp [h]
  generalize hq : List.foldl _ (s, ([] : List (Nat × Nat × Nat × Nat)), frames, 0) _ = q
  have ht : q.1.Wf := by
    rw [← hq]
    exact foldl_fst_form _ _ (fun q p hq => by exact State.beginMove_wf hq ..) h
  (repeat' split) <;> simp [ht]

@[simp] theorem State.endMove_wf {s : State} (h : s.Wf) (ctx : Nat) (p : Nat × Nat × Nat × Nat) : (s.endMove ctx p).Wf := by
  unfold State.endMove
  split <;> simp [h]

theorem State.moveLines_keeps (pc : Nat × Nat) (l : List (Nat × Nat)) (n : Nat) (s : State) : s.Keeps (s.moveLines pc l n).2 := by
  induction l generalizing n s with
  | nil => exact ⟨rfl, rfl⟩
  | cons p l ih =>
    unfold State.moveLines
    split
    · simp
    dsimp only
    split
    · simp
    · exact State.Keeps.trans (by simp) (ih (n + 1) _)

theorem execMigrationComplete_wf {s : State} (h : s.Wf) (id : Nat) : OutWf (execMigrationComplete id s) := by
  refine (outWf_next _).mpr ?_
  split
  · exact h
  next m _ =>
    have ht : State.Wf (if s.weirs.isEmpty then (0, s) else s.moveLines m.cls (m.moves.drop m.lines) m.lines).2 := by
      split
      · exact h
      · exact (State.moveLines_keeps ..).form h
    generalize (if s.weirs.isEmpty then (0, s) else s.moveLines m.cls (m.moves.drop m.lines) m.lines) = q at ht ⊢
    dsimp only
    split
    · exact h
    split
    · exact ht
    · exact State.Keeps.form (State.replayAll_keeps ..) (foldl_form _ _ (fun t p ht => State.endMove_wf ht ..) ht)

@[simp] theorem State.shootLevel_keeps (s : State) (ctx va level : Nat) : s.Keeps (s.shootLevel ctx va level) := ⟨rfl, rfl⟩

theorem State.slotMade_wf (die va level table : Nat) {s : State} (h : s.Wf) :
    ∀ p, State.slotMade die va level table s = some p → p.2.Wf := by
  induction level generalizing table s with
  | zero => 
    rintro p ⟨⟩
    exact h
  | succ level ih =>
    intro p e
    unfold State.slotMade at e
    dsimp only at e
    split at e
    · exact ih _ h _ e
    split at e
    · cases e
    · exact ih _ (by simp [h, Memory.wf_clear]) _ e

theorem State.mapPage_wf {s : State} (h : s.Wf) (die ctx p : Nat) (r : Bool) : ∀ t, s.mapPage die ctx p r = some t → t.Wf := by
  intro t e
  unfold State.mapPage at e
  split at e
  · dsimp only at e
    split at e
    · cases e
      simp [h]
    · obtain ⟨f, -, rfl⟩ := Option.map_eq_some_iff.mp e
      exact State.writeLeaves_wf (s := { s with mem := Sparse.clear s.mem f _ }) ⟨Memory.wf_clear h.1 _ _, h.2⟩ ..
  · split at e
    · cases e
    next pte u e' =>
      obtain ⟨root, -, hr⟩ := Option.bind_eq_some_iff.mp e'
      have hu : u.Wf := State.slotMade_wf _ _ _ _ h _ hr
      obtain ⟨f, -, rfl⟩ := Option.map_eq_some_iff.mp e
      simp [hu, Memory.wf_clear]

/-- A fold of steps that may not be possible, each of which keeps the form. -/
theorem foldlM_form {α : Type} (l : List α) {f : State → α → Option State} (hf : ∀ {s : State}, s.Wf → ∀ a t, f s a = some t → t.Wf) {s : State}
    (h : s.Wf) {t : State} (e : l.foldlM f s = some t) : t.Wf := by
  induction l generalizing s with
  | nil =>
    cases e
    exact h
  | cons a l ih =>
    obtain ⟨u, hu, e⟩ := Option.bind_eq_some_iff.mp e
    exact ih (hf h a u hu) e

theorem State.mapArea_wf {s : State} (h : s.Wf) (die ctx va n : Nat) (r : Bool) : ∀ t, s.mapArea die ctx va n r = some t → t.Wf := by
  intro t e
  exact foldlM_form _ (fun hu p v e => State.mapPage_wf hu _ _ _ _ v e) h e

@[simp] theorem State.clearArea_wf {s : State} (h : s.Wf) (ctx va n : Nat) : (s.clearArea ctx va n).Wf := by
  refine foldl_form _ _ (fun t p ht => ?_) h
  split
  · split <;> simp [ht, Memory.wf_clear, Sparse.wf_write]
  · exact ht

@[simp] theorem State.unmapArea_wf {s : State} (h : s.Wf) (ctx va n : Nat) (keep : Nat → Bool) : (s.unmapArea ctx va n keep).Wf := by
  refine foldl_form _ _ (fun t p ht => ?_) h
  split
  · exact ht
  · split <;> simp [ht]

@[simp] theorem State.unmapModel_wf {s : State} (h : s.Wf) (m : Mdl) : (s.unmapModel m).Wf := by
  exact foldl_form _ _ (fun t p ht => State.unmapArea_wf ht ..) h

@[simp] theorem State.tidyModels_wf {s : State} (h : s.Wf) : (s.tidyModels).Wf := by
  refine foldl_form _ _ (fun t p ht => ?_) h
  split
  · exact ht
  · exact State.unmapModel_wf (s := { t with models := Tbl.del t.models p.1 }) ht _

@[simp] theorem State.retireModel_keeps (s : State) (key : Nat) : s.Keeps (s.retireModel key) := by
  unfold State.retireModel
  split <;> simp

@[simp] theorem State.copyWord_keeps (s : State) (core from_ dest : Nat) : s.Keeps (s.copyWord core from_ dest) := ⟨rfl, rfl⟩

@[simp] theorem State.fenceAll_keeps (s : State) (x : Who) : s.Keeps (s.fenceAll x) := ⟨rfl, rfl⟩

@[simp] theorem State.enterCallee_keeps (s : State) (x : Who) (gi : Nat) (g : BitVec 512) (gran n dn : Nat) :
    s.Keeps (s.enterCallee x gi g gran n dn) := by
  simp [State.enterCallee]

theorem execGcall_wf {s : State} (h : s.Wf) (gi : BitVec 10) : OutWf (execGcall gi s) :=
  issue_wf h fun x => by
    dsimp only
    (repeat' split) <;> simp [h]

theorem State.copyResults_wf {s : State} (h : s.Wf) (x : Who) (cd : Dom) (k : Call) : (s.copyResults x cd k).1.Wf := by
  simp [State.copyResults, h]

theorem execGret_wf {s : State} (h : s.Wf) : OutWf (execGret s) := by
  grind [execGret, issue_wf, State.trap_keeps, State.parkAside_keeps, State.park_keeps, State.trapPending_keeps, State.copyResults_wf, State.leaveCall_keeps, State.scrubCallee_keeps, State.updDom_keeps]

theorem execGateTimeout_wf {s : State} (h : s.Wf) (wid dn : Nat) : OutWf (execGateTimeout wid dn s) := by
  unfold execGateTimeout
  (repeat' split) <;> simp [h]

end Sys2Proof.Machine
end


section
/-! Launches, graphs, works and the ends of crews. -/

namespace Sys2Proof.Machine

theorem State.makeLaunch_wf {s : State} (h : s.Wf) (ctx die prio : Nat) (d : BitVec 1024) (stages : List Stage) (pred : Option Nat) :
    (s.makeLaunch ctx die prio d stages pred).2.Wf := by
  simp [State.makeLaunch, h]

theorem State.placeCrew_keeps (s : State) (p : Placing) (core item cinb bins braid span : Nat) (clusters : List Nat) :
    s.Keeps (s.placeCrew p core item cinb bins braid span clusters).2 := by
  unfold State.placeCrew
  dsimp only
  split
  · exact ⟨rfl, rfl⟩
  have hf : ∀ {α : Type} (l : List α) (g : State → α → State) (t : State), s.Keeps t → (∀ (s : State) a, s.Keeps (g s a)) →
      s.Keeps (l.foldl g t) := fun l g t ht hg => ht.trans (foldl_keeps l g hg t)
  dsimp only
  split
  · refine State.Keeps.trans ?_ (State.haltCrew_keeps ..)
    refine hf _ _ _ ⟨rfl, rfl⟩ fun t a => ?_
    split
    · exact ⟨rfl, rfl⟩
    · exact foldl_keeps _ _ (fun t a => by exact ⟨rfl, rfl⟩) t
  · refine hf _ _ _ ⟨rfl, rfl⟩ fun t a => ?_
    split
    · exact ⟨rfl, rfl⟩
    · exact foldl_keeps _ _ (fun t a => by exact ⟨rfl, rfl⟩) t

@[simp] theorem State.wantPage_keeps (s : State) (die ctx va : Nat) : s.Keeps (s.wantPage die ctx va) := by
  simp [State.wantPage]

theorem State.placeSpan_keeps (s : State) (lid : Nat) : ∀ t, s.placeSpan lid = some t → s.Keeps t := by
  intro t e
  unfold State.placeSpan at e
  split at e
  · cases e
  split at e
  · dsimp only at e
    split at e
    · cases e
    split at e
    · cases e
    split at e
    · cases e
    · cases e
      have hs : s.Keeps s.fresh.2 := ⟨rfl, rfl⟩
      exact hs.trans (foldl_keeps _ _ (fun u b => State.Keeps.trans (t := u.fresh.2) ⟨rfl, rfl⟩
        (foldl_keeps _ _ (fun v k => by exact State.placeCrew_keeps ..) _)) _)
  · cases e

@[simp] theorem State.setDeficit_keeps (s : State) (part die cls : Nat) (v : Int) : s.Keeps (s.setDeficit part die cls v) := ⟨rfl, rfl⟩

@[simp] theorem State.placeHeads_keeps (part die cls n : Nat) (s : State) : s.Keeps (s.placeHeads part die cls n) := by
  induction n generalizing s with
  | zero => exact ⟨rfl, rfl⟩
  | succ n ih =>
    unfold State.placeHeads
    split
    · exact ⟨rfl, rfl⟩
    split
    · exact ⟨rfl, rfl⟩
    next t e => exact (State.placeSpan_keeps s _ t e).trans (ih t)

@[simp] theorem State.headPage_keeps (s : State) (part die cls : Nat) : s.Keeps (s.headPage part die cls) := by
  unfold State.headPage
  (repeat' split) <;> simp

theorem execArbiterRun_wf {s : State} (h : s.Wf) (die : Nat) : OutWf (execArbiterRun die s) := by
  refine (outWf_next _).mpr ?_
  dsimp only
  split
  · exact h
  split
  · exact h
  · (repeat' split) <;> simp [h]

@[simp] theorem State.updRec_wf {s : State} (h : s.Wf) (ctx va : Nat) (f : BitVec 1024 → BitVec 1024) : (s.updRec ctx va f).Wf := by
  simp [State.updRec, h]

@[simp] theorem State.fireNode_wf {s : State} (h : s.Wf) (ctx g i die : Nat) (pred : Option Nat) (early : Bool) :
    (s.fireNode ctx g i die pred early).Wf := by
  simp [State.fireNode, h]

@[simp] theorem State.token_wf {s : State} (h : s.Wf) (ctx g i die : Nat) (pred : Option Nat) : (s.token ctx g i die pred).Wf := by
  unfold State.token
  dsimp only
  (repeat' split) <;> simp [h]

@[simp] theorem State.graphEnd_wf {s : State} (h : s.Wf) (ctx g : Nat) : (s.graphEnd ctx g).Wf := by
  unfold State.graphEnd
  dsimp only
  (repeat' split) <;> simp [h]

@[simp] theorem State.outTokens_wf {s : State} (h : s.Wf) (ctx g i die : Nat) (l : Option Nat) (early : Bool) :
    (s.outTokens ctx g i die l early).Wf := by
  refine foldl_form _ _ (fun t j ht => ?_) h
  dsimp only
  split <;> simp [ht]

@[simp] theorem State.startWalk_wf {s : State} (h : s.Wf) (ctx g i : Nat) : (s.startWalk ctx g i).Wf := by
  unfold State.startWalk
  split <;> simp [h]

@[simp] theorem State.cancelNode_wf {s : State} (h : s.Wf) (ctx g i : Nat) : (s.cancelNode ctx g i).Wf := by
  simp [State.cancelNode, h]

@[simp] theorem State.withGraph_wf {s : State} (h : s.Wf) (die ctx g : Nat) {k : State} (hk : k.Wf) : (s.withGraph die ctx g k).Wf := by
  unfold State.withGraph
  split
  · exact hk
  · simp [h]
  · exact h

@[simp] theorem State.walkStep_wf {s : State} (h : s.Wf) (id : Nat) : (s.walkStep id).Wf := by
  unfold State.walkStep
  split
  · exact h
  refine State.withGraph_wf h _ _ _ ?_
  dsimp only
  split
  · refine State.graphEnd_wf ?_ ..
    split
    · exact h
    · exact State.updRec_wf (by exact h) ..
  split
  · exact State.graphEnd_wf (by exact State.cancelNode_wf h ..) ..
  · exact h

theorem execGraphCancelWalkStep_wf {s : State} (h : s.Wf) (id : Nat) : OutWf (execGraphCancelWalkStep id s) := by
  unfold execGraphCancelWalkStep
  split <;> simp [h]

@[simp] theorem State.resetGraph_wf {s : State} (h : s.Wf) (ctx g : Nat) (arg : Dword) : (s.resetGraph ctx g arg).Wf := by
  unfold State.resetGraph
  extract_lets n t
  have ht : t.Wf := foldl_form _ _ (fun t i ht => State.updRec_wf ht _ _ _) h
  exact State.updRec_wf ht _ _ _

@[simp] theorem State.fireRoots_wf {s : State} (h : s.Wf) (ctx g die : Nat) (pred : Option Nat) : (s.fireRoots ctx g die pred).Wf := by
  refine foldl_form _ _ (fun t i ht => ?_) h
  dsimp only
  (repeat' split) <;> simp [ht]

theorem State.startGraph_wf {s : State} (h : s.Wf) (ctx g die : Nat) (arg : Dword) (pred : Option Nat) :
    Ends (fun _ => True) State.Wf (s.startGraph ctx g die arg pred) := by
  grind [State.startGraph, Ends, State.graphEnd_wf, State.fireRoots_wf, State.resetGraph_wf]

theorem State.outsideToken_wf {s : State} (h : s.Wf) (ctx va die : Nat) : Ends (fun _ => True) State.Wf (s.outsideToken ctx va die) := by
  unfold State.outsideToken
  dsimp only
  (repeat' split) <;> simp [h]

theorem State.cancelAt_wf {s : State} (h : s.Wf) (ctx va : Nat) (p : Option (Nat × Nat)) : (s.cancelAt ctx va p).2.Wf := by
  unfold State.cancelAt
  split
  · exact h
  · split
    · exact State.graphEnd_wf (State.startWalk_wf (State.cancelNode_wf h ..) ..) ..
    · exact State.startWalk_wf (by exact h) ..
    · exact h

@[simp] theorem State.setWork_keeps (s : State) (id : Nat) (st : WorkSt) : s.Keeps (s.setWork id st) := ⟨rfl, rfl⟩

theorem State.Keeps.of_eq {α : Type} {s t : State} {p : α × State} {x : α} (k : s.Keeps p.2) (e : p = (x, t)) : s.Keeps t := by
  rw [e] at k
  exact k

theorem State.workReach_keeps (s : State) (w : Work) (prio va n : Nat) (need : Need) :
    Ends s.Keeps (fun _ => True) (s.workReach w prio va n need).1 ∧ s.Keeps (s.workReach w prio va n need).2 := by
  unfold State.workReach
  dsimp only
  (repeat' split) <;> simp

@[simp] theorem State.movePiece_wf {s : State} (h : s.Wf) (id : Nat) (w : Work) (r : BitVec 1024) (done : Nat) :
    (s.movePiece id w r done).Wf := by
  unfold State.movePiece
  extract_lets p copy dw prio
  split
  · simp [h]
  · simp [h]
  split
  split
  · exact (State.setWork_keeps ..).form h
  split
  · exact (State.setWork_keeps ..).form h
  extract_lets n m
  have hr : ∀ (b : Bool) (p v : Nat), Ends s.Keeps (fun _ => True) (if b then s.workReach w p v m .read else (.ok 0, s)).1 ∧
      s.Keeps (if b then s.workReach w p v m .read else (.ok 0, s)).2 := fun b p v => by
    split
    · exact State.workReach_keeps ..
    · exact ⟨trivial, rfl, rfl⟩
  split
  · exact (State.setWork_keeps ..).form h
  · exact (State.setWork_keeps ..).form h
  split
  next t u e =>
    have hu := (hr _ _ _).1.of_error (congrArg Prod.fst e)
    exact hu.form h
  next pa u e =>
    have hu : u.Wf := (State.Keeps.of_eq (hr _ _ _).2 e).form h
    split
    next t v e =>
      exact (Ends.of_error (State.workReach_keeps u _ _ _ _ _).1 (congrArg Prod.fst e)).form hu
    next v e =>
      have hv : v.Wf := (State.Keeps.of_eq (State.workReach_keeps u _ _ _ _ _).2 e).form hu
      exact (State.setWork_keeps ..).form (State.engWrite_wf hv ..)

@[simp] theorem State.workLaunch_wf {s : State} (h : s.Wf) (id : Nat) (w : Work) (r : BitVec 1024) : (s.workLaunch id w r).Wf := by
  grind [State.workLaunch, State.wantPage_keeps, State.setWork_keeps, State.makeLaunch_wf]

@[simp] theorem State.workNext_wf {s : State} (h : s.Wf) (id : Nat) (w : Work) : (s.workNext id w).Wf := by
  unfold State.workNext
  dsimp only
  (repeat' split) <;> simp [h]

@[simp] theorem State.endNode_wf {s : State} (h : s.Wf) (id : Nat) (w : Work) (o cause qsum : Nat) : (s.endNode id w o cause qsum).Wf := by
  grind [State.endNode, State.updRec_wf, State.outTokens_wf, State.fireNode_wf, State.startWalk_wf, State.graphEnd_wf]

@[simp] theorem State.nodeEnd_wf {s : State} (h : s.Wf) (id : Nat) : (s.nodeEnd id).Wf := by
  unfold State.nodeEnd
  split
  · exact h
  split
  · exact State.withGraph_wf h _ _ _ (State.endNode_wf h ..)
  · split
    · exact h
    split
    · exact h
    · exact State.withGraph_wf h _ _ _ (by split <;> exact State.endNode_wf h ..)
  · exact h

theorem execGraphNodeEnd_wf {s : State} (h : s.Wf) (id : Nat) : OutWf (execGraphNodeEnd id s) := by
  unfold execGraphNodeEnd
  split <;> simp [h]

@[simp] theorem State.earlyTokens_wf {s : State} (h : s.Wf) : (s.earlyTokens).Wf := by
  refine foldl_form _ _ (fun t p ht => ?_) h
  split
  · split
    · exact ht
    · dsimp only
      split
      · exact ht
      split
      · exact ht
      · exact foldl_form _ _ (fun u j hu => State.token_wf hu ..) ht
  · exact ht

@[simp] theorem State.noteRing_keeps (s : State) (ctx va : Nat) : s.Keeps (s.noteRing ctx va) := ⟨rfl, rfl⟩

@[simp] theorem State.putRing_wf {s : State} (h : s.Wf) (ctx va : Nat) (b : RingBlk) : (s.putRing ctx va b).Wf := by
  simp [State.putRing, h]

@[simp] theorem State.report_wf {s : State} (h : s.Wf) (ctx va : Nat) (l : List Byte) : (s.report ctx va l).Wf := by
  unfold State.report
  split <;> simp [h]

@[simp] theorem State.finishLaunch_wf {s : State} (h : s.Wf) (lid : Nat) : (s.finishLaunch lid).Wf := by
  unfold State.finishLaunch
  dsimp only
  (repeat' split) <;> simp [h]

@[simp] theorem State.releaseCrew_keeps (s : State) (cid : Nat) (k : Crew) : s.Keeps (s.releaseCrew cid k) := by
  simp [State.releaseCrew]

@[simp] theorem State.charge_keeps (s : State) (l : Launch) (k : Crew) (slices : Nat) : s.Keeps (s.charge l k slices) := by
  unfold State.charge
  dsimp only
  split <;> simp

@[simp] theorem State.shutRing_wf {s : State} (h : s.Wf) (lid i : Nat) (l : Launch) (g : Stage) : (s.shutRing lid i l g).Wf := by
  unfold State.shutRing
  (repeat' split) <;> simp [h]

@[simp] theorem State.closeStage_wf {s : State} (h : s.Wf) (lid i : Nat) : (s.closeStage lid i).Wf := by
  unfold State.closeStage
  (repeat' split) <;> simp [h]

@[simp] theorem State.endCrew_wf {s : State} (h : s.Wf) (cid : Nat) (k : Crew) : (s.endCrew cid k).Wf := by
  grind [State.endCrew, State.releaseCrew_keeps, State.charge_keeps, State.report_wf, State.closeStage_wf, State.earlyTokens_wf, State.finishLaunch_wf]

theorem execCrewEnd_wf {s : State} (h : s.Wf) (cid : Nat) : OutWf (execCrewEnd cid s) := by
  unfold execCrewEnd
  (repeat' split) <;> simp [h]

theorem State.moveCrew_wf {s : State} (h : s.Wf) (lid : Nat) (l : Launch) (i : Nat) : ∀ t, s.moveCrew lid l i = some t → t.Wf := by
  intro t e
  unfold State.moveCrew at e
  split at e
  · split at e
    · cases e
    split at e
    · cases e
    dsimp only at e
    split at e
    · cases e
    split at e
    · cases e
    next cid k _ k' _ _ => 
      cases e
      exact (State.placeCrew_keeps ..).form (State.endCrew_wf ((State.haltCrew_keeps ..).form h) ..)
  · cases e

theorem execPipelineReassign_wf {s : State} (h : s.Wf) (lid i : Nat) : OutWf (execPipelineReassign lid i s) := by
  refine (outWf_next _).mpr ?_
  split
  · exact h
  split
  · exact h
  split
  · exact State.shutRing_wf h ..
  split
  · exact h
  split
  · exact h
  dsimp only
  split
  next t e => exact State.moveCrew_wf h _ _ _ t e
  · exact h

@[simp] theorem State.begin_keeps (s : State) (id : Nat) : s.Keeps (s.begin id) := ⟨rfl, rfl⟩

theorem State.bodyNext_wf {s : State} (h : s.Wf) (id : Nat) (c : Cmd) : (s.bodyNext id c).Wf := by
  grind [State.bodyNext, Next.Wf, State.windowNext_wf, State.copyNext_wf, State.tfillNext_wf, State.gathNext_wf, State.scataNext_wf, State.mmaNext_wf, State.kvwNext_wf, State.kvldNext_wf, State.kvstNext_wf, State.kvforkNext_wf, State.kvfreeNext_wf, State.spliceNext_wf, State.rpstatNext_wf, State.rpcancelNext_wf]

theorem State.cmdNext_wf {s : State} (h : s.Wf) (id : Nat) (c : Cmd) : (s.cmdNext id c).Wf := by
  grind [State.cmdNext, Next.Wf, State.bodyNext_wf, State.begin_keeps]

@[simp] theorem State.parkCmd_keeps (s : State) (id : Nat) (c : Cmd) (va : Nat) : s.Keeps (s.parkCmd id c va) := by
  simp [State.parkCmd]

@[simp] theorem State.closeCmd_keeps (s : State) (id : Nat) (c : Cmd) : s.Keeps (s.closeCmd id c) := by
  unfold State.closeCmd
  split <;> simp

end Sys2Proof.Machine
end


section
/-! Engine events, repair jobs, the distributor, rings and graphs, and what the host takes away. -/

namespace Sys2Proof.Machine

@[simp] theorem State.closeOver_keeps (s : State) (id : Nat) : s.Keeps (s.closeOver id) := by
  unfold State.closeOver
  (repeat' split) <;> simp

@[simp] theorem State.drawTree_keeps (s : State) (c : Cmd) (t : State) : t.Keeps (s.drawTree c t) := by
  unfold State.drawTree
  split
  · simp
  · simp
  · simp
  · split <;> simp
  · exact ⟨rfl, rfl⟩

theorem State.cmdStep_wf {s : State} (h : s.Wf) (id : Nat) (c : Cmd) {n : Next} (hn : n.Wf) : (s.cmdStep id c n).Wf := by
  unfold State.cmdStep
  split
  · exact (State.closeOver_keeps ..).form (State.throughWeirs_wf h ((State.drawTree_keeps ..).form hn))
  · exact (State.parkCmd_keeps ..).form h
  · exact h

theorem execEngineLanding_wf {s : State} (h : s.Wf) (id : Nat) : OutWf (execEngineLanding id s) := by
  refine (outWf_next _).mpr ?_
  split
  next c _ =>
    split
    · exact h
    · exact State.tidyModels_wf (State.cmdStep_wf h _ _ (State.cmdNext_wf h ..))
  · split
    · exact State.withGraph_wf h _ _ _ (State.workNext_wf h ..)
    · exact h
  · exact h

theorem execEngineCommandEnd_wf {s : State} (h : s.Wf) (id : Nat) : OutWf (execEngineCommandEnd id s) := by
  unfold execEngineCommandEnd
  (repeat' split) <;> simp [h]

@[simp] theorem State.failAfter_keeps (s : State) (id : Nat) (c : Cmd) (t : Trap) : s.Keeps (s.failAfter id c t) := by
  unfold State.failAfter
  split <;> simp

theorem execEngineCommandFail_wf {s : State} (h : s.Wf) (id : Nat) : OutWf (execEngineCommandFail id s) := by
  refine (outWf_next _).mpr ?_
  split
  · exact h
  next c _ =>
    have hn := State.cmdNext_wf h id c
    split
    · simp [h]
    next t _ e =>
      rw [e] at hn
      exact State.tidyModels_wf ((State.failAfter_keeps ..).form hn)
    · exact h

theorem execWindowCopyCheck_wf {s : State} (h : s.Wf) (id i : Nat) : OutWf (execWindowCopyCheck id i s) := by
  unfold execWindowCopyCheck
  (repeat' split) <;> simp [h]

theorem execBankPartialArrival_wf {s : State} (h : s.Wf) (id bag port : Nat) : OutWf (execBankPartialArrival id bag port s) := by
  unfold execBankPartialArrival
  (repeat' split) <;> simp [h]

theorem execMmaStart_wf {s : State} (h : s.Wf) (id : Nat) : OutWf (execMmaStart id s) := by
  unfold execMmaStart
  (repeat' split) <;> simp [h]

theorem execMmaKgroup_wf {s : State} (h : s.Wf) (core : Nat) : OutWf (execMmaKgroup core s) := by
  refine (outWf_next _).mpr ?_
  split
  · exact h
  split
  · exact h
  · exact State.cmdStep_wf h _ _ (State.cmdNext_wf h ..)

@[simp] theorem State.updJob_keeps (s : State) (key : Nat) (f : Job → Job) : s.Keeps (s.updJob key f) := ⟨rfl, rfl⟩

@[simp] theorem Mdl.dropJob_wf {s : State} (h : s.Wf) (m : Mdl) (n : Nat) : (m.dropJob s n).Wf := by
  unfold Mdl.dropJob
  dsimp only
  split
  · exact Mdl.updNode_wf h ..
  · refine Mdl.putNode_wf ((Mdl.freeTabs_keeps ..).form (foldl_form _ _ (fun t l ht => ?_) (Mdl.updNode_wf h ..))) ..
    split <;> simp [ht]

@[simp] theorem Mdl.abandonLayers_wf {s : State} (h : s.Wf) (m : Mdl) (n : Nat) : (m.abandonLayers s n).Wf := by
  refine foldl_form _ _ (fun t l ht => ?_) h
  dsimp only
  (repeat' split) <;> simp [ht]

@[simp] theorem State.failJob_wf {s : State} (h : s.Wf) (key out : Nat) (t : Trap) (pend : Bool) : (s.failJob key out t pend).Wf := by
  unfold State.failJob
  dsimp only
  (repeat' split) <;> simp [h]

@[simp] theorem State.finishJob_wf {s : State} (h : s.Wf) (key : Nat) (m : Mdl) (j : Job) : (s.finishJob key m j).Wf := by
  simp [State.finishJob, h]

theorem Mdl.copyBlocks_wf (m : Mdl) (l : List Nat) {s : State} (h : s.Wf) : Ends (fun _ => True) (fun p => p.2.Wf) (m.copyBlocks l s) := by
  induction l generalizing s with
  | nil => exact h
  | cons b l ih =>
    unfold Mdl.copyBlocks
    split
    · trivial
    next n t e => exact (ih ((Mdl.copyBlock_wf h m b).of_ok e)).map fun p hp => hp

theorem Mdl.stage_wf {s : State} (h : s.Wf) (m : Mdl) (pc : Nat × Nat) (n l : Nat) : Ends (fun _ => True) State.Wf (m.stage pc s n l) := by
  unfold Mdl.stage
  dsimp only
  split
  · trivial
  next bs t e =>
    have ht := (Mdl.copyBlocks_wf m _ (State.Keeps.form (foldl_keeps _ _ (fun t b => by simp) s) h)).of_ok e
    split
    · trivial
    next va u e => exact Mdl.putEntry_wf ((Mdl.newTable_wf ht ..).of_ok e) ..

theorem Mdl.stageTo_wf {s : State} (h : s.Wf) (m : Mdl) (pc : Nat × Nat) (n l : Nat) : Ends (fun _ => True) State.Wf (m.stageTo pc n l s) := by
  induction l with
  | zero => exact h
  | succ l ih =>
    unfold Mdl.stageTo
    split
    · trivial
    next t e => exact Mdl.stage_wf (ih.of_ok e) ..

@[simp] theorem Mdl.swap_wf {s : State} (h : s.Wf) (m : Mdl) (n l : Nat) : (m.swap s n l).Wf := by
  unfold Mdl.swap
  dsimp only
  (repeat' split) <;> simp [h]

@[simp] theorem Mdl.accept_wf {s : State} (h : s.Wf) (m : Mdl) (n : Nat) (p : Nat → Bool) : (m.accept s n p).Wf := by
  exact foldl_form _ _ (fun t l ht => Mdl.putEntry_wf ht ..) h

@[simp] theorem State.writeParams_wf {s : State} (h : s.Wf) (m : Mdl) (key : Nat) (j : Job) : (s.writeParams m key j).Wf := by
  simp [State.writeParams, h]

theorem State.workspace_wf {s : State} (h : s.Wf) (key : Nat) (c : Cmd) (id va n : Nat) {k : State} (hk : k.Wf) :
    (s.workspace key c id va n k).Wf := by
  unfold State.workspace
  split
  · exact hk
  · exact State.failJob_wf h ..
  · exact (State.parkCmd_keeps ..).form h

@[simp] theorem State.fireTemplate_wf {s : State} (h : s.Wf) (key : Nat) (m : Mdl) (j : Job) (c : Cmd) : (s.fireTemplate key m j c).Wf := by
  refine State.workspace_wf h _ _ _ _ _ ?_
  dsimp only
  have hw : State.Wf (s.writeParams m key j) := State.writeParams_wf h ..
  have hg : ∀ (p : Prop) [Decidable p] (g : Nat), State.Wf (if p then (s.writeParams m key j).updRec c.ctx g fun r => bput r 1022 1020 0
      else s.writeParams m key j) := fun p _ g => by
    split
    · exact State.updRec_wf hw ..
    · exact hw
  split
  · exact (State.parkCmd_keeps ..).form hw
  · exact State.failJob_wf hw ..
  split
  · exact (State.parkCmd_keeps ..).form (hg _ _)
  · exact State.failJob_wf (hg _ _) ..
  next t e => exact (State.updJob_keeps ..).form ((State.startGraph_wf (hg _ _) ..).of_ok e)

@[simp] theorem State.establish_wf {s : State} (h : s.Wf) (id : Nat) (c : Cmd) (f : KvF) (m : Mdl) (n key gen : Nat) :
    (s.establish id c f m n key gen).Wf := by
  unfold State.establish
  dsimp only
  have hl : ∀ {t : State}, t.Wf → ∀ (d : Nat) (x : Node), State.Wf ((List.range m.layers).foldl (fun s l =>
      if l = 0 then s
      else if d < l then m.putEntry s x l { m.entry s x l with wm := 0 }
      else if (m.entry s x l).wm = 3 then m.putEntry s x l { m.entry s x l with wm := 1 }
      else s) t) := fun ht d x => foldl_form _ _ (fun u l hu => by (repeat' split) <;> simp [hu]) ht
  have hs : ∀ (s : State) (g : Node → Node), s.Wf → State.Wf (m.updNode s n g) := fun s g h => Mdl.updNode_wf h ..
  split
  · refine State.failJob_wf (hl ?_ ..) ..
    exact State.Keeps.form (State.Keeps.trans (State.kvResults_keeps ..) (State.updCmd_keeps ..)) (Mdl.updNode_wf (by exact h) ..)
  next t e =>
    refine State.fireTemplate_wf ((Mdl.stageTo_wf ?_ ..).of_ok e) ..
    refine hl ?_ ..
    exact State.Keeps.form (State.Keeps.trans (State.kvResults_keeps ..) (State.updCmd_keeps ..)) (Mdl.updNode_wf (by exact h) ..)

theorem State.areaStop_wf {s : State} (h : s.Wf) (id : Nat) (c : Cmd) (m : Mdl) {fail : Trap → State} (hf : ∀ t, (fail t).Wf) {k : State}
    (hk : k.Wf) : (s.areaStop id c m fail k).Wf := by
  unfold State.areaStop
  split
  · exact hk
  · exact hf _
  · exact (State.parkCmd_keeps ..).form h

@[simp] theorem State.jobStep_wf {s t : State} (h : s.Wf) (ht : t.Wf) (c : Cmd) : (s.jobStep c t).Wf :=
  State.throughWeirs_wf h ((State.drawWrites_keeps ..).form ht)

theorem execRepairJobStart_wf {s : State} (h : s.Wf) (id : Nat) : OutWf (execRepairJobStart id s) := by
  refine (outWf_next _).mpr ?_
  split
  · exact h
  split
  · split
    · exact h
    refine State.jobStep_wf h ?_ _
    have hb : (s.begin id).Wf := h
    dsimp only
    split
    · (repeat' split) <;> simp [h]
    · split
      · exact (State.failCmd_keeps ..).form hb
      refine State.areaStop_wf hb _ _ _ (fun t => (State.failCmd_keeps ..).form hb) ?_
      (repeat' split) <;> simp [h]
  · exact h

@[simp] theorem State.nextLayer_wf {s : State} (h : s.Wf) (key : Nat) (m : Mdl) (c : Cmd) (l : Nat) : (s.nextLayer key m c l).Wf := by
  unfold State.nextLayer
  split
  · exact h
  split
  · exact State.failJob_wf h ..
  split
  · exact State.finishJob_wf (Mdl.accept_wf h ..) ..
  split
  · exact State.failJob_wf h ..
  next t e => exact State.fireTemplate_wf ((State.updJob_keeps ..).form ((Mdl.stage_wf h ..).of_ok e)) ..

@[simp] theorem State.endProbe_wf {s : State} (h : s.Wf) (key : Nat) (m : Mdl) (j : Job) (c : Cmd) : (s.endProbe key m j c).Wf := by
  unfold State.endProbe
  dsimp only
  have hl : ∀ (g : Job → Job), State.Wf (((List.range j.early).foldl (fun s l => m.swap s j.node (l + 1)) s).updJob key g) := fun g =>
    (State.updJob_keeps ..).form (foldl_form _ _ (fun t l ht => Mdl.swap_wf ht ..) h)
  split
  · simp [h]
  · exact State.failJob_wf (hl _) ..
  · exact State.nextLayer_wf ((State.updJob_keeps ..).form (State.vwrite_wf ((State.drawRange_keeps ..).form (hl _)) ..)) ..

theorem execRepairGraphEnd_wf {s : State} (h : s.Wf) (die slot : Nat) : OutWf (execRepairGraphEnd die slot s) := by
  refine (outWf_next _).mpr ?_
  dsimp only
  split
  · exact h
  split
  · split
    · exact h
    refine State.jobStep_wf h (State.areaStop_wf h _ _ _ (fun t => State.failJob_wf h ..) ?_) _
    (repeat' split) <;> simp [h]
  · exact h

@[simp] theorem afterReads_wf {s : State} (h : s.Wf) (x : Who) {k : State} (hk : k.Wf) : (afterReads s x k).Wf := by
  unfold afterReads
  split
  · exact (State.park_keeps ..).form h
  · exact hk

@[simp] theorem afterAll_wf {s : State} (h : s.Wf) (x : Who) {k : State} (hk : k.Wf) : (afterAll s x k).Wf := by
  unfold afterAll
  split
  · exact hk
  · exact (State.park_keeps ..).form h

@[simp] theorem State.gErr_keeps (s : State) (x : Who) (e : GErr) : s.Keeps (s.gErr x e) := by
  cases e with
  | trap t => exact State.trapAt_keeps ..
  | page va => exact State.waitPage_keeps ..

@[simp] theorem State.markDep_keeps (s : State) (w : Warp) : s.Keeps (s.markDep w) := by
  unfold State.markDep
  split <;> simp

theorem execLaunch_wf {s : State} (h : s.Wf) (f : LaunchF) : OutWf (execLaunch f s) := by
  refine issue_wf h fun x => uOp_wf h fun r hr => afterAll_wf h _ ?_
  dsimp only
  split
  · exact (State.waitPage_keeps ..).form h
  · exact (State.trap_keeps ..).form h
  split
  · exact (State.trap_keeps ..).form h
  split
  · refine State.makeLaunch_wf (State.Keeps.form (State.Keeps.ite (State.markDep_keeps ..) ⟨rfl, rfl⟩) ?_) ..
    simp [hr]
  · split <;> simp [h, hr]

theorem execLaunchWaitTimeout_wf {s : State} (h : s.Wf) (a : Agent) : OutWf (execLaunchWaitTimeout a s) := by
  unfold execLaunchWaitTimeout
  (repeat' split) <;> simp [h]

theorem execWdask_wf {s : State} (h : s.Wf) (f : WdaskF) : OutWf (execWdask f s) := by
  grind [execWdask, issue_wf, State.skip_keeps, State.trap_keeps, uOp_wf, Ready.launch_keeps]

theorem execWorkDistributorAnswer_wf {s : State} (h : s.Wf) (die : Nat) : OutWf (execWorkDistributorAnswer die s) := by
  unfold execWorkDistributorAnswer
  dsimp only
  (repeat' split) <;> simp [h]

@[simp] theorem State.ringDone_keeps (s : State) (x : Who) (op : RingOp) (ticket : Word) : s.Keeps (s.ringDone x op ticket) := by
  unfold State.ringDone
  split <;> simp

@[simp] theorem State.ringPark_keeps (s : State) (x : Who) (va : Nat) (op : RingOp) : s.Keeps (s.ringPark x va op) := ⟨rfl, rfl⟩

@[simp] theorem Ready.ring_wf {r : Ready} (h : r.s.Wf) (va : Nat) (op : RingOp) : (r.ring va op).Wf := by
  unfold Ready.ring
  dsimp only
  split
  · exact (State.gErr_keeps ..).form h
  split
  · exact (State.trap_keeps ..).form h
  · split
    · exact ((Ready.commit_keeps r).trans (State.ringPark_keeps ..)).form h
    · exact (State.ringDone_keeps ..).form (State.putRing_wf ((Ready.commit_keeps r).form h) ..)
  · exact ((Ready.commit_keeps r).trans (State.ringPark_keeps ..)).form h

theorem execRingAcq_wf {s : State} (h : s.Wf) (f : RingAcqF) : OutWf (execRingAcq f s) :=
  issue_wf h fun x => uOp_wf h fun r hr => by simp [h, hr]

theorem execRingCmt_wf {s : State} (h : s.Wf) (f : RingCmtF) : OutWf (execRingCmt f s) :=
  issue_wf h fun x => uOp_wf h fun r hr => by simp [h, hr]

theorem execRingRel_wf {s : State} (h : s.Wf) (f : RingRelF) : OutWf (execRingRel f s) :=
  issue_wf h fun x => uOp_wf h fun r hr => by simp [h, hr]

theorem execRingPeek_wf {s : State} (h : s.Wf) (f : RingPeekF) : OutWf (execRingPeek f s) := by
  refine issue_wf h fun x => uOp_wf h fun r hr => afterReads_wf h _ ?_
  split <;> simp [h, hr]

theorem execRingWaitSatisfied_wf {s : State} (h : s.Wf) (a : Agent) : OutWf (execRingWaitSatisfied a s) := by
  unfold execRingWaitSatisfied
  (repeat' split) <;> simp [h]

theorem execGfire_wf {s : State} (h : s.Wf) (f : GfireF) : OutWf (execGfire f s) := by
  refine issue_wf h fun x => uOp_wf h fun r hr => afterAll_wf h _ ?_
  dsimp only
  split
  · exact (State.gErr_keeps ..).form h
  next t e =>
    have ht : t.Wf := by
      split at e
      · exact (State.startGraph_wf h ..).of_ok e
      · exact (State.outsideToken_wf h ..).of_ok e
    simp [ht]

theorem execGnode_wf {s : State} (h : s.Wf) (f : GnodeF) : OutWf (execGnode f s) := by
  refine issue_wf h fun x => uOp_wf h fun r hr => afterReads_wf h _ ?_
  dsimp only
  split <;> simp [h, hr]

theorem execGcancel_wf {s : State} (h : s.Wf) (f : GnodeF) : OutWf (execGcancel f s) := by
  refine issue_wf h fun x => uOp_wf h fun r hr => afterReads_wf h _ ?_
  dsimp only
  split
  · exact (State.gErr_keeps ..).form h
  split
  · exact (State.gErr_keeps ..).form h
  · simp [State.cancelAt_wf h]

theorem execHnext_wf {s : State} (h : s.Wf) : OutWf (execHnext s) :=
  issue_wf h fun x => by (repeat' split) <;> simp [h]

theorem execWaitpred_wf {s : State} (h : s.Wf) : OutWf (execWaitpred s) :=
  issue_wf h fun x => by (repeat' split) <;> simp [h]

theorem execYield_wf {s : State} (h : s.Wf) : OutWf (execYield s) :=
  issue_wf h fun x => by simp [h]

theorem execPrio_wf {s : State} (h : s.Wf) (a : Opnd) : OutWf (execPrio a s) :=
  issue_wf h fun x => uOp_wf h fun r hr => by (repeat' split) <;> simp [h, hr]

@[simp] theorem State.reply_keeps (s : State) (h : HostHdr) (status : Nat) (payload : List Byte) : s.Keeps (s.reply h status payload) := ⟨rfl, rfl⟩

@[simp] theorem State.settleWrites_wf {s : State} (h : s.Wf) (ctx : Nat) : (s.settleWrites ctx).Wf := by
  unfold State.settleWrites
  dsimp only
  refine foldl_form _ _ (fun t p ht => ?_) (foldl_form _ _ (fun t p ht => ?_) h)
  · split
    · exact State.Keeps.form (foldl_keeps _ _ (fun u w => by split <;> simp) t) ht
    · exact ht
  · split
    · exact ht
    · exact ht
    · split
      · exact State.perform_wf ht ..
      · exact ht

@[simp] theorem State.netStatus_wf {s : State} (h : s.Wf) (r : NetReq) (cause : Nat) : (s.netStatus r cause).Wf := by
  unfold State.netStatus
  dsimp only
  (repeat' split) <;> simp [h]

@[simp] theorem State.killCallsInto_keeps (s : State) (ctx : Nat) : s.Keeps (s.killCallsInto ctx) := by
  refine foldl_keeps _ _ (fun t p => foldl_keeps _ _ (fun u d => ?_) t) s
  split <;> simp

@[simp] theorem State.endLaunches_wf {s : State} (h : s.Wf) (ctx : Nat) (fault : Option Nat) : (s.endLaunches ctx fault).Wf := by
  unfold State.endLaunches
  dsimp only
  refine foldl_form _ _ (fun t i ht => ?_) (foldl_form _ _ (fun t p ht => ?_) h)
  · split <;> simp [ht]
  · have hu := (State.haltCrew_keeps t p.1 fault fault.isNone).form ht
    split
    · exact State.endCrew_wf hu ..
    · exact hu

theorem State.settleGraph_wf {s : State} (h : s.Wf) (ctx cause : Nat) : ∀ t, s.settleGraph ctx cause = some t → t.Wf := by
  unfold State.settleGraph
  (repeat' split) <;> simp [h]

@[simp] theorem State.settleGraphs_wf (ctx cause n : Nat) {s : State} (h : s.Wf) : (s.settleGraphs ctx cause n).Wf := by
  induction n generalizing s with
  | zero => exact h
  | succ n ih =>
    unfold State.settleGraphs
    split
    next t e => exact ih (State.settleGraph_wf h ctx cause t e)
    · exact h

@[simp] theorem State.answerHeld_keeps (s : State) (p : Held → Bool) : s.Keeps (s.answerHeld p) := by
  simp [State.answerHeld]

@[simp] theorem State.killNow_wf {s : State} (h : s.Wf) (ctx : Nat) (fault : Option Nat) : (s.killNow ctx fault).Wf := by
  unfold State.killNow
  split
  · exact h
  split
  · exact h
  generalize 2 ^ 24 = n
  extract_lets fault parked s1 s2 s3 mine s4 s5 s6 s7 s8 s9
  have h2 : s2.Wf := State.settleWrites_wf (s := s1) h ctx
  have h3 : s3.Wf := foldl_form _ _ (fun t p ht => by split <;> simp [ht]) h2
  have h4 : s4.Wf := (State.abandon_keeps s3 _ _).form h3
  have h5 : s5.Wf := (State.killCallsInto_keeps s4 ctx).form h4
  have h7 : s7.Wf := State.Keeps.form (foldl_keeps _ _ (fun t p => State.updCrew_keeps t _ _) s6) h5
  have h8 : s8.Wf := State.settleGraphs_wf _ _ _ (State.endLaunches_wf h7 _ _)
  have h9 : s9.Wf := foldl_form _ _ (fun t r ht => State.netStatus_wf ht _ _) h8
  exact State.tidyModels_wf ((State.answerHeld_keeps s9 _).form h9)

@[simp] theorem State.rename_keeps (s : State) (f : Nat → Nat) : s.Keeps (s.rename f) := ⟨rfl, rfl⟩

theorem State.takeCores_wf {s : State} (h : s.Wf) (l : List Nat) (tag : Nat) : (s.takeCores l tag).2.Wf := by
  simp [State.takeCores, h]

@[simp] theorem State.putCores_keeps (s : State) (v : Saved) (tag : Nat) : s.Keeps (s.putCores v tag) := ⟨rfl, rfl⟩

theorem State.onPart_wf {s : State} (h : s.Wf) (pn : Nat) {k : State → State} (hk : ∀ {t : State}, t.Wf → (k t).Wf) : (s.onPart pn k).Wf := by
  unfold State.onPart
  split
  next p v _ _ =>
    split
    · exact hk h
    have h1 := State.takeCores_wf h p.cores 32
    generalize s.takeCores p.cores 32 = a at h1 ⊢
    have h2 := State.takeCores_wf (hk ((State.putCores_keeps a.2 v pn).form h1)) p.cores pn
    split
    generalize State.takeCores _ _ _ = b at h2 ⊢
    split
    generalize hc : State.putCores _ _ _ = c
    have h3 : c.Wf := hc ▸ (State.putCores_keeps ..).form h2
    exact h3
  · exact hk h

@[simp] theorem State.killCtx_wf {s : State} (h : s.Wf) (ctx : Nat) (fault : Option Nat) : (s.killCtx ctx fault).Wf := by
  unfold State.killCtx
  split
  · exact h
  · exact State.onPart_wf h _ fun ht => State.killNow_wf ht ..

@[simp] theorem State.scrubPart_keeps (s : State) (pn : Nat) : s.Keeps (s.scrubPart pn) := by
  unfold State.scrubPart
  (repeat' split) <;> simp

@[simp] theorem State.resetPart_wf {s : State} (h : s.Wf) (pn : Nat) : (s.resetPart pn).Wf := by
  have ht := (State.scrubPart_keeps _ pn).form (foldl_form (s.ctxsOf pn) (fun s c => s.killCtx c (some 0xE0)) (fun t c ht => State.killCtx_wf ht ..) h)
  unfold State.resetPart
  dsimp only
  split
  · exact (State.notify_keeps ..).form ht
  · exact ht

@[simp] theorem State.resetDevice_wf {s : State} (h : s.Wf) : (s.resetDevice).Wf := by
  exact (State.notify_keeps ..).form (foldl_form (Tbl.keys s.parts) (fun s p => (s.ctxsOf p).foldl (fun s c => s.killCtx c (some 0xE1)) s)
    (fun t p ht => foldl_form _ _ (fun u c hu => State.killCtx_wf hu ..) ht) h)

theorem execPartitionResetTimeout_wf {s : State} (h : s.Wf) (pn : Nat) : OutWf (execPartitionResetTimeout pn s) := by
  unfold execPartitionResetTimeout
  (repeat' split) <;> simp [h]

theorem execNoticeAnswerTimeout_wf {s : State} (h : s.Wf) (ctx : Nat) : OutWf (execNoticeAnswerTimeout ctx s) := by
  unfold execNoticeAnswerTimeout
  (repeat' split) <;> simp [h]

theorem execContextRungTimeout_wf {s : State} (h : s.Wf) (ctx : Nat) : OutWf (execContextRungTimeout ctx s) := by
  unfold execContextRungTimeout
  (repeat' split) <;> simp [h]

theorem execTrap_wf {s : State} (h : s.Wf) (n : Fin 16) : OutWf (execTrap n s) :=
  issue_wf h fun x => by simp [h]

end Sys2Proof.Machine
end


section
/-! Traps, control registers, pre-emption, the machine, floating operations and the network. -/

namespace Sys2Proof.Machine

@[simp] theorem State.warpReturn_keeps (s : State) (x : Who) (f : TretF) : s.Keeps (s.warpReturn x f) := by
  unfold State.warpReturn
  dsimp only
  (repeat' split) <;> simp

@[simp] theorem State.rungReturn_keeps (s : State) (x : Who) (f : TretF) : s.Keeps (s.rungReturn x f) := by
  unfold State.rungReturn
  dsimp only
  (repeat' split) <;> simp

theorem execTret_wf {s : State} (h : s.Wf) (f : TretF) : OutWf (execTret f s) :=
  issue_wf h fun x => by (repeat' split) <;> simp [h]

theorem execTkill_wf {s : State} (h : s.Wf) (m : MReg) : OutWf (execTkill m s) :=
  issue_wf h fun x => by split <;> simp [h]

@[simp] theorem State.csrWrite_keeps (s : State) (x : Who) (n : Nat) (v : Dword) : s.Keeps (s.csrWrite x n v) := by
  unfold State.csrWrite
  split <;> simp

theorem execCsrrd_wf {s : State} (h : s.Wf) (f : CsrF) : OutWf (execCsrrd f s) := by
  refine issue_wf h fun x => ?_
  split
  · simp [h]
  · exact begin_wf h fun r hr => by simp [hr]

theorem execCsrwr_wf {s : State} (h : s.Wf) (f : CsrF) : OutWf (execCsrwr f s) := by
  refine issue_wf h fun x => ?_
  dsimp only
  split
  · simp [h]
  split
  · simp [h]
  split
  · simp [h]
  · exact begin_wf h fun r hr => by split <;> simp [h, hr]

theorem execTlbinv_wf {s : State} (h : s.Wf) (va : Option SReg) : OutWf (execTlbinv va s) := by
  refine issue_wf h fun x => ?_
  split
  · simp [h]
  · exact begin_wf h fun r hr => by simp [hr]

theorem execDrain_wf {s : State} (h : s.Wf) (f : DrainF) : OutWf (execDrain f s) :=
  issue_wf h fun x => by
    dsimp only
    (repeat' split) <;> simp [h]

theorem execHandlerTimeout_wf {s : State} (h : s.Wf) (a : Agent) : OutWf (execHandlerTimeout a s) := by
  unfold execHandlerTimeout
  (repeat' split) <;> simp [h]

@[simp] theorem State.requestStop_keeps (s : State) (ctx : Nat) : s.Keeps (s.requestStop ctx) := ⟨rfl, rfl⟩

@[simp] theorem State.tryStop_keeps (s : State) (ctx : Nat) : s.Keeps (s.tryStop ctx) := by
  unfold State.tryStop
  (repeat' split) <;> simp

@[simp] theorem State.leaveArray_keeps (s : State) (p : Party) : s.Keeps (s.leaveArray p) := by
  unfold State.leaveArray
  split
  · split <;> simp
  · exact ⟨rfl, rfl⟩

theorem execPreemptAcknowledge_wf {s : State} (h : s.Wf) (ctx : Nat) (p : Party) : OutWf (execPreemptAcknowledge ctx p s) := by
  refine (outWf_next _).mpr ?_
  dsimp only
  split
  · exact h
  split
  · exact h
  split
  · simp [h]
  · split <;> simp [h]

theorem execPreemptionTimeout_wf {s : State} (h : s.Wf) (ctx : Nat) : OutWf (execPreemptionTimeout ctx s) := by
  unfold execPreemptionTimeout
  (repeat' split) <;> simp [h]

@[simp] theorem State.retryTrap_keeps (s : State) (wid sid : Nat) : s.Keeps (s.retryTrap wid sid) := by
  unfold State.retryTrap
  (repeat' split) <;> simp

@[simp] theorem State.resumeCtx_keeps (s : State) (ctx : Nat) : s.Keeps (s.resumeCtx ctx) := by
  unfold State.resumeCtx
  split
  · exact ⟨rfl, rfl⟩
  split
  · exact ⟨rfl, rfl⟩
  extract_lets n crews t u v mine w again
  have hu : s.Keeps u := State.Keeps.trans (foldl_keeps _ _ (fun s p => State.Keeps.trans
    (foldl_keeps _ _ (fun s i => State.updWarp_keeps s _ _) s) (State.updCrew_keeps _ _ _)) s) (State.updCtx_keeps t _ _)
  split
  · exact hu
  have hv : s.Keeps v := hu.trans (foldl_keeps _ _ (fun s p => by (repeat' split) <;> simp) u)
  have hw : s.Keeps w := hv.trans (foldl_keeps _ _ (fun s a => by (repeat' split) <;> simp) v)
  exact State.Keeps.trans hw (foldl_keeps _ _ (fun s f => State.replayFault_keeps s f) _)

@[simp] theorem State.swapOut_wf {s : State} (h : s.Wf) (pn : Nat) (p : Part) : (s.swapOut pn p).Wf := by
  grind [State.swapOut, State.takeCores_wf]

@[simp] theorem State.backIn_keeps (s : State) (ctx : Nat) : s.Keeps (s.backIn ctx) := ⟨rfl, rfl⟩

@[simp] theorem State.swapIn_keeps (s : State) (pn : Nat) (p : Part) : s.Keeps (s.swapIn pn p) := by
  unfold State.swapIn
  extract_lets v cs w t u
  have hu : s.Keeps u := (State.putCores_keeps s w pn).trans ⟨rfl, rfl⟩
  exact hu.trans (foldl_keeps _ _ (fun s c => by split <;> simp) u)

@[simp] theorem State.refuseSwap_keeps (s : State) (h : Held) (detail : Nat) : s.Keeps (s.refuseSwap h detail) := ⟨rfl, rfl⟩

theorem execPartitionSwap_wf {s : State} (h : s.Wf) (out : Nat) (inn : Option Nat) : OutWf (execPartitionSwap out inn s) := by
  unfold execPartitionSwap
  dsimp only
  (repeat' split) <;> simp [h]

theorem execPowerOn_wf {s : State} (h : s.Wf) : OutWf (execPowerOn s) := by
  unfold execPowerOn
  (repeat' split) <;> simp [h]

theorem execRegisterSoftError_wf {s : State} (h : s.Wf) (core addr : Nat) : OutWf (execRegisterSoftError core addr s) := by
  unfold execRegisterSoftError
  split <;> simp [h]

theorem execInstructionStoreSoftError_wf {s : State} (h : s.Wf) (die clus : Nat) : OutWf (execInstructionStoreSoftError die clus s) := by
  unfold execInstructionStoreSoftError
  split <;> simp [h]

theorem execMemorySoftError_wf {s : State} (h : s.Wf) (line : Nat) : OutWf (execMemorySoftError line s) := by
  refine (outWf_next _).mpr ?_
  dsimp only
  split
  · simp [h, Sparse.wf_write]
  · exact h

theorem execShadowStoreSoftError_wf {s : State} (h : s.Wf) (die ctx : Nat) : OutWf (execShadowStoreSoftError die ctx s) := by
  unfold execShadowStoreSoftError
  dsimp only
  (repeat' split) <;> simp [h]

theorem execTlbSoftError_wf {s : State} (h : s.Wf) (core entry : Nat) : OutWf (execTlbSoftError core entry s) := by
  unfold execTlbSoftError
  split <;> simp [h]

@[simp] theorem State.failNets_wf {s : State} (h : s.Wf) (p : Nat → NetReq → Bool) (cause : Nat) : (s.failNets p cause).Wf := by
  exact foldl_form _ _ (fun t q ht => State.netStatus_wf ht ..) h

theorem execPortDown_wf {s : State} (h : s.Wf) (port : Nat) : OutWf (execPortDown port s) := by
  unfold execPortDown
  (repeat' split) <;> simp [h]

@[simp] theorem State.machineCheck_wf {s : State} (h : s.Wf) (cause : Nat) : (s.machineCheck cause).Wf := by
  simp [State.machineCheck, h]

@[simp] theorem State.arithStop_wf {s : State} (h : s.Wf) (cause : Nat) : (s.arithStop cause).Wf := by
  simp [State.arithStop, h]

theorem execDieLinkRetriesExhausted_wf {s : State} (h : s.Wf) : OutWf (execDieLinkRetriesExhausted s) := by
  simp [execDieLinkRetriesExhausted, h]

theorem execThermalStop_wf {s : State} (h : s.Wf) : OutWf (execThermalStop s) := by
  simp [execThermalStop, h]

theorem execPowerStop_wf {s : State} (h : s.Wf) : OutWf (execPowerStop s) := by
  simp [execPowerStop, h]

theorem execClockStop_wf {s : State} (h : s.Wf) : OutWf (execClockStop s) := by
  simp [execClockStop, h]

theorem execFirmwareWatchdog_wf {s : State} (h : s.Wf) : OutWf (execFirmwareWatchdog s) := by
  simp [execFirmwareWatchdog, h]

theorem execWeirWindow_wf {s : State} (h : s.Wf) : OutWf (execWeirWindow s) := by
  simp [execWeirWindow, h]

theorem fpOp_wf {s : State} (h : s.Wf) (srcs : List (Opnd × Nat)) (d : Opnd) (n : Nat) (g : Ready → Nat → FRes) :
    OutWf (fpOp s srcs d n g) :=
  issue_wf h fun x => begin_wf h fun r hr => completeFp_wf hr fun b => by simp [hr]

theorem fpLong_wf {s : State} (h : s.Wf) (la : BitVec 4) (srcs : List (Opnd × Nat)) (d : Opnd) (g : Ready → Nat → FRes) :
    OutWf (fpLong s la srcs d g) :=
  issue_wf h fun x => begin_wf h fun r hr => completeFp_wf hr fun b => by simp [hr]

theorem fpMany_wf {s : State} (h : s.Wf) (srcs : List (Opnd × Nat)) (d : Opnd) (n : Nat) (g : Ready → Nat → List Nat × Nat) :
    OutWf (fpMany s srcs d n g) :=
  issue_wf h fun x => begin_wf h fun r hr => completeFp_wf hr fun b => by simp [hr]

theorem execFcmp_wf {s : State} (h : s.Wf) (f : FCmpF) : OutWf (execFcmp f s) :=
  issue_wf h fun x => begin_wf h fun r hr => completeFp_wf hr fun b => by simp [hr]

theorem sfuOp_wf {s : State} (h : s.Wf) (f : SfuF) (g : FFmt → FVal → FRes) : OutWf (sfuOp f g s) := by
  grind [sfuOp, fpLong_wf]

theorem execRng_wf {s : State} (h : s.Wf) (f : RngF) : OutWf (execRng f s) :=
  issue_wf h fun x => begin_wf h fun r hr => by simp [hr]

@[simp] theorem State.landBytes_wf {s : State} (h : s.Wf) (ctx va : Nat) (l : List Byte) : (s.landBytes ctx va l).Wf := by
  refine foldl_form _ _ (fun t p ht => ?_) h
  split
  · exact State.engWrite_wf ht ..
  · exact ht

theorem execNetworkRequest_wf {s : State} (h : s.Wf) (ctx : Nat) : OutWf (execNetworkRequest ctx s) := by
  unfold execNetworkRequest
  dsimp only
  (repeat' split) <;> simp [h]

theorem execNetworkCompletion_wf {s : State} (h : s.Wf) (req cause : Nat) (data : List Byte) :
    OutWf (execNetworkCompletion req cause data s) := by
  unfold execNetworkCompletion
  (repeat' split) <;> simp [h]

@[simp] theorem State.signalAt_wf {s : State} (h : s.Wf) (ctx va : Nat) (v : BitVec 64) : (s.signalAt ctx va v).Wf := by
  unfold State.signalAt
  split <;> simp [h]

theorem execPeerRequestReceived_wf {s : State} (h : s.Wf) (r : PeerReq) : OutWf (execPeerRequestReceived r s) := by
  unfold execPeerRequestReceived
  dsimp only
  (repeat' split) <;> simp [h]

@[simp] theorem State.takeSeq_keeps (s : State) (h : HostHdr) : s.Keeps (s.takeSeq h) := by
  unfold State.takeSeq
  split <;> simp

theorem hostCmd_wf {s : State} (hs : s.Wf) (h : HostHdr) (op : Nat) {k : State → State} (hk : ∀ {t : State}, t.Wf → (k t).Wf) :
    OutWf (hostCmd h op s k) := by
  unfold hostCmd
  refine (outWf_next _).mpr ?_
  split
  · exact hs
  split
  · exact hk ((State.takeSeq_keeps ..).form hs)
  · exact (State.reply_keeps ..).form hs

@[simp] theorem State.reject_keeps (s : State) (h : HostHdr) (detail : Nat) (field : Option Nat) : s.Keeps (s.reject h detail field) := ⟨rfl, rfl⟩

@[simp] theorem State.withCtx_wf {s : State} (hs : s.Wf) (h : HostHdr) {k : Context → State} (hk : ∀ c, (k c).Wf) : (s.withCtx h k).Wf := by
  unfold State.withCtx
  split
  · split
    · exact hk _
    · exact (State.reject_keeps ..).form hs
  · exact (State.reject_keeps ..).form hs

theorem execHello_wf {s : State} (hs : s.Wf) (h : HostHdr) (sig : BitVec 912) : OutWf (execHello h sig s) := by
  refine hostCmd_wf hs h _ fun {t} ht => ?_
  dsimp only
  split <;> simp [ht]

theorem execMeasure_wf {s : State} (hs : s.Wf) (h : HostHdr) : OutWf (execMeasure h s) :=
  hostCmd_wf hs h _ fun {t} ht => by simp [ht]

theorem execAttest_wf {s : State} (hs : s.Wf) (h : HostHdr) (nonce : BitVec 256) : OutWf (execAttest h nonce s) :=
  hostCmd_wf hs h _ fun {t} ht => by split <;> simp [ht]

theorem execPartCreate_wf {s : State} (hs : s.Wf) (h : HostHdr) (f : PartCreateF) : OutWf (execPartCreate h f s) := by
  refine hostCmd_wf hs h _ fun {t} ht => ?_
  dsimp only
  (repeat' split) <;> simp [ht]

@[simp] theorem State.forgetCtx_keeps (s : State) (ctx : Nat) : s.Keeps (s.forgetCtx ctx) := by
  simp [State.forgetCtx]

end Sys2Proof.Machine
end


section
/-! Host commands and integer operations. -/

namespace Sys2Proof.Machine

theorem execPartDestroy_wf {s : State} (hs : s.Wf) (h : HostHdr) (part : Nat) : OutWf (execPartDestroy h part s) := by
  refine hostCmd_wf hs h _ fun {t} ht => ?_
  split
  · simp [ht]
  next p _ =>
    extract_lets s1 s2 s3 s4 s5
    have h1 : s1.Wf := foldl_form _ _ (fun u c hu => State.killCtx_wf hu ..) ht
    have h2 : s2.Wf := (State.scrubPart_keeps s1 part).form h1
    have h3 : s3.Wf := State.Keeps.form (foldl_keeps _ _ (fun u c => State.forgetCtx_keeps u c) s2) h2
    have h4 : s4.Wf := (State.answerHeld_keeps s3 _).form h3
    have h5 : s5.Wf := State.Keeps.form (State.Keeps.ite ⟨rfl, rfl⟩ (foldl_keeps _ _ (fun u c => State.updCore_keeps u c _) s4)) h4
    exact (State.reply_keeps ..).form h5

theorem execPartStitch_wf {s : State} (hs : s.Wf) (h : HostHdr) (f : StitchF) : OutWf (execPartStitch h f s) :=
  hostCmd_wf hs h _ fun {t} ht => by (repeat' split) <;> simp [ht]

theorem execQosSet_wf {s : State} (hs : s.Wf) (h : HostHdr) (f : QosF) : OutWf (execQosSet h f s) :=
  hostCmd_wf hs h _ fun {t} ht => by
    dsimp only
    (repeat' split) <;> simp [ht]

theorem execCtxCreate_wf {s : State} (hs : s.Wf) (h : HostHdr) (f : CtxCreateF) : OutWf (execCtxCreate h f s) :=
  hostCmd_wf hs h _ fun {t} ht => by (repeat' split) <;> simp [ht]

theorem execCtxDestroy_wf {s : State} (hs : s.Wf) (h : HostHdr) : OutWf (execCtxDestroy h s) := by
  refine hostCmd_wf hs h _ fun {t} ht => State.withCtx_wf ht _ fun c => ?_
  exact (State.reply_keeps ..).form (State.onPart_wf (State.killCtx_wf ht ..) _ fun hu => (State.forgetCtx_keeps ..).form hu)

theorem execStats_wf {s : State} (hs : s.Wf) (h : HostHdr) : OutWf (execStats h s) :=
  hostCmd_wf hs h _ fun {t} ht => by simp [ht]

theorem State.writePte_wf {s : State} (h : s.Wf) (ctx : Nat) (p : PteWrite) : ∀ t, s.writePte ctx p = some t → t.Wf := by
  simp [State.writePte, h]

theorem execMap_wf {s : State} (hs : s.Wf) (h : HostHdr) (l : List PteWrite) : OutWf (execMap h l s) := by
  refine hostCmd_wf hs h _ fun {t} ht => State.withCtx_wf ht _ fun c => ?_
  split
  next u e => exact (State.reply_keeps ..).form (foldlM_form _ (fun hu p => State.writePte_wf hu _ p) ht e)
  · exact (State.reject_keeps ..).form ht

theorem State.unmapOne_wf {s : State} (h : s.Wf) (ctx va : Nat) : ∀ t, s.unmapOne ctx va = some t → t.Wf := by
  unfold State.unmapOne
  (repeat' split) <;> simp [h]

theorem execUnmap_wf {s : State} (hs : s.Wf) (h : HostHdr) (l : List Nat) : OutWf (execUnmap h l s) := by
  refine hostCmd_wf hs h _ fun {t} ht => State.withCtx_wf ht _ fun c => ?_
  split
  next u e => exact (State.reply_keeps ..).form (foldlM_form _ (fun hu p => State.unmapOne_wf hu _ p) ht e)
  · exact (State.reject_keeps ..).form ht

@[simp] theorem State.hostPut_wf {s : State} (h : s.Wf) (ctx va : Nat) (l : List Byte) : (s.hostPut ctx va l).Wf := by
  refine foldl_form _ _ (fun t p ht => ?_) h
  split
  · exact State.engWrite_wf ht ..
  · exact ht

theorem execWrite_wf {s : State} (hs : s.Wf) (h : HostHdr) (va : Nat) (bytes : List Byte) : OutWf (execWrite h va bytes s) :=
  hostCmd_wf hs h _ fun {t} ht => by split <;> simp [ht]

theorem execRead_wf {s : State} (hs : s.Wf) (h : HostHdr) (va len : Nat) : OutWf (execRead h va len s) :=
  hostCmd_wf hs h _ fun {t} ht => by (repeat' split) <;> simp [ht]

theorem execGateInstall_wf {s : State} (hs : s.Wf) (h : HostHdr) (idx : BitVec 10) (image : BitVec 512) :
    OutWf (execGateInstall h idx image s) :=
  hostCmd_wf hs h _ fun {t} ht => by split <;> simp [ht]

@[simp] theorem State.bringIn_wf {s : State} (h : s.Wf) (ctx va : Nat) : (s.bringIn ctx va).Wf := by
  grind [State.bringIn, State.beginMove_wf, State.endMove_wf]

theorem State.withPages_wf (ctx n : Nat) {k : State → Except GErr State} (hk : ∀ {t : State}, t.Wf → Ends (fun _ => True) State.Wf (k t)) {s : State}
    (h : s.Wf) : Ends (fun _ => True) State.Wf (s.withPages ctx k n) := by
  induction n generalizing s with
  | zero => trivial
  | succ n ih =>
    unfold State.withPages
    split
    next t e => exact (hk h).of_ok e
    · trivial
    · exact ih (State.bringIn_wf h ..)

@[simp] theorem State.workCmd_wf {s : State} (hs : s.Wf) (h : HostHdr) {k : State → Except GErr State}
    (hk : ∀ {t : State}, t.Wf → Ends (fun _ => True) State.Wf (k t)) : (s.workCmd h k).Wf := by
  unfold State.workCmd
  split
  next t e => exact (State.reply_keeps ..).form ((State.withPages_wf _ _ hk hs).of_ok e)
  · exact (State.reject_keeps ..).form hs

theorem execGraphSubmit_wf {s : State} (hs : s.Wf) (h : HostHdr) (f : SubmitF) : OutWf (execGraphSubmit h f s) := by
  refine hostCmd_wf hs h _ fun {t} ht => State.withCtx_wf ht _ fun c => ?_
  split
  · exact (State.reject_keeps ..).form ht
  split
  · exact (State.reject_keeps ..).form ht
  · exact State.workCmd_wf ht _ fun hu => State.startGraph_wf hu ..

theorem execGraphStatus_wf {s : State} (hs : s.Wf) (h : HostHdr) (graph : Nat) : OutWf (execGraphStatus h graph s) := by
  refine hostCmd_wf hs h _ fun {t} ht => State.withCtx_wf ht _ fun c => ?_
  split
  next u e =>
    have hu : u.Wf := by
      refine (State.withPages_wf _ _ (fun {v} hv => ?_) ht).of_ok e
      split
      · trivial
      · exact hv
    split
    · exact (State.reply_keeps ..).form hu
    · exact (State.reject_keeps ..).form ht
  · exact (State.reject_keeps ..).form ht

theorem execSignal_wf {s : State} (hs : s.Wf) (h : HostHdr) (f : SignalF) : OutWf (execSignal h f s) := by
  refine hostCmd_wf hs h _ fun {t} ht => State.withCtx_wf ht _ fun c => ?_
  split
  · exact (State.reject_keeps ..).form ht
  split
  · exact State.workCmd_wf ht _ fun hu => State.outsideToken_wf hu ..
  · refine State.workCmd_wf ht _ fun hu => ?_
    split
    · exact State.putRing_wf hu ..
    · trivial

theorem execWait_wf {s : State} (hs : s.Wf) (h : HostHdr) (f : WaitF) : OutWf (execWait h f s) :=
  hostCmd_wf hs h _ fun {t} ht => by simp [ht]

theorem execWaitTimeout_wf {s : State} (h : s.Wf) (wait : Nat) : OutWf (execWaitTimeout wait s) := by
  unfold execWaitTimeout
  (repeat' split) <;> simp [h]

theorem execPreempt_wf {s : State} (hs : s.Wf) (h : HostHdr) (swapIn : Option Nat) : OutWf (execPreempt h swapIn s) := by
  refine hostCmd_wf hs h _ fun {t} ht => ?_
  refine State.withCtx_wf ht _ fun c => ?_
  (repeat' split) <;> simp [ht]

theorem execResume_wf {s : State} (hs : s.Wf) (h : HostHdr) : OutWf (execResume h s) := by
  refine hostCmd_wf hs h _ fun {t} ht => ?_
  refine State.withCtx_wf ht _ fun c => ?_
  (repeat' split) <;> simp [ht]

theorem execKill_wf {s : State} (hs : s.Wf) (h : HostHdr) : OutWf (execKill h s) :=
  hostCmd_wf hs h _ fun {t} ht => by simp [ht]

theorem execTierPolicy_wf {s : State} (hs : s.Wf) (h : HostHdr) (f : TierF) : OutWf (execTierPolicy h f s) :=
  hostCmd_wf hs h _ fun {t} ht => by split <;> simp [ht]

theorem State.models_keeps (s : State) (l : Tbl Model) : s.Keeps { s with models := l } := ⟨rfl, rfl⟩

theorem State.installModel_wf {s : State} (h : s.Wf) (die ctx slot : Nat) (r : BitVec 1024) :
    ∀ t, s.installModel die ctx slot r = some t → t.Wf := by
  intro t e
  obtain ⟨u, hu, e⟩ := Option.map_eq_some_iff.mp e
  have h1 : u.Wf := foldlM_form _ (fun hv p v e => State.mapArea_wf hv _ _ _ _ _ v e) h hu
  rw [← e]
  generalize hv : State.clearArea _ _ _ _ = v
  have h2 : v.Wf := hv ▸ State.clearArea_wf (State.clearArea_wf h1 ..) ..
  exact (State.models_keeps v _).form h2

@[simp] theorem State.uninstallModel_wf {s : State} (h : s.Wf) (key : Nat) : (s.uninstallModel key).Wf := by
  refine State.tidyModels_wf ((State.retireModel_keeps ..).form (State.Keeps.form (foldl_keeps _ _ (fun t p => ?_) s) h))
  split <;> simp

theorem execRepairModel_wf {s : State} (hs : s.Wf) (h : HostHdr) (f : ModelF) : OutWf (execRepairModel h f s) := by
  refine hostCmd_wf hs h _ fun {t} ht => State.withCtx_wf ht _ fun c => ?_
  dsimp only
  split
  · (repeat' split) <;> simp [ht]
  · exact (State.reply_keeps ..).form (State.uninstallModel_wf ht ..)
  · split
    · exact (State.reject_keeps ..).form ht
    split
    next u e => exact (State.reply_keeps ..).form (State.installModel_wf ht _ _ _ _ u e)
    · exact (State.reject_keeps ..).form ht
  · exact (State.reject_keeps ..).form ht

theorem intOp_wf {s : State} (h : s.Wf) (srcs : List (Opnd × Nat)) (d : Opnd) (n : Nat) (g : Ready → Nat → IRes) (masked : Bool) :
    OutWf (intOp s srcs d n g masked) :=
  issue_wf h fun x => begin_wf h fun r hr => completeInt_wf hr fun b => by simp [hr]

theorem intLong_wf {s : State} (h : s.Wf) (la : BitVec 4) (srcs : List (Opnd × Nat)) (d : Opnd) (n : Nat) (g : Ready → Nat → IRes) :
    OutWf (intLong s la srcs d n g) :=
  issue_wf h fun x => begin_wf h fun r hr => completeInt_wf hr fun b => by simp [hr]

theorem carryOp_wf {s : State} (h : s.Wf) (f : CarryF) (g : Nat → Nat → Nat → Nat × Bool) : OutWf (carryOp f g s) :=
  issue_wf h fun x => begin_wf h fun r hr => by simp [hr]

theorem execCmp_wf {s : State} (h : s.Wf) (f : CmpF) : OutWf (execCmp f s) :=
  issue_wf h fun x => begin_wf h fun r hr => by simp [hr]

theorem immOp_wf {s : State} (h : s.Wf) (f : ImmF) (g : Nat → Nat → IRes) : OutWf (immOp f g s) := by
  grind [immOp, intOp_wf]

theorem execCmpi_wf {s : State} (h : s.Wf) (f : CmpiF) : OutWf (execCmpi f s) :=
  issue_wf h fun x => begin_wf h fun r hr => by simp [hr]

end Sys2Proof.Machine
end


section
/-! Every instruction, every turn and so every step keeps the canonical form of memory and of its poison marks (R151, R319). -/

namespace Sys2Proof.Machine

/-- Every instruction, event and host command keeps the form: instructions of one shared operation are taken together. -/
theorem exec_wf {s : State} (hs : s.Wf) (i : Instr) : OutWf (exec i s) := by
  unfold exec
  cases i with
  | clauseHeader h => exact execClauseHeader_wf hs h
  | queueWaitWatchdog a => exact execQueueWaitWatchdog_wf hs a
  | longLatencyCompletion a op early => exact execLongLatencyCompletion_wf hs a op early
  | add f | sub f | mul f | mulhi f | mad f | min f | max f | abs f | neg f | shl f | shr f | rot f | and f | or f | xor f | not f
    | andn f | bfx f | bfi f | popc f | clz f | brev f | lut3 f | sel f | mov f | lea f | idx2 f | movi f | shli f | shri f => exact intOp_wf hs _ _ _ _ _
  | div f | rem f => exact intLong_wf hs _ _ _ _ _
  | addcy f | subbw f => exact carryOp_wf hs _ _
  | cmp f => exact execCmp_wf hs f
  | addi f | muli f | andi f | ori f | xori f => exact immOp_wf hs _ _
  | cmpi f => exact execCmpi_wf hs f
  | fadd f | fsub f | fmul f | fma f | fmin f | fmax f | fminn f | fmaxn f | fclass f | frnd f | fdot2 f | cvt f | cvtpk f
    | unpk f | smxNorm f | dpmul f => exact fpOp_wf hs _ _ _ _
  | fcmp f => exact execFcmp_wf hs f
  | rcp f | rsqrt f | sqrt f | exp2 f | log2 f | sin f | cos f | tanh f => exact sfuOp_wf hs _ _
  | fdiv f => exact fpLong_wf hs _ _ _ _
  | rng f => exact execRng_wf hs f
  | smxStep f | smxMerge f | rope f => exact fpMany_wf hs _ _ _ _
  | mand f | mor f | mxor f | mnot f => exact maskOp_wf hs _ _
  | mpop f | mffs f => exact uniformOp_wf hs _ _
  | emget d => exact execEmget_wf hs d
  | emset a => exact execEmset_wf hs a
  | vote f => exact execVote_wf hs f
  | shfl f => exact execShfl_wf hs f
  | bcast f => exact execBcast_wf hs f
  | scan f => exact execScan_wf hs f
  | redux f => exact execRedux_wf hs f
  | csamp f => exact execCsamp_wf hs f
  | matchx f => exact execMatchx_wf hs f
  | plpk f | plunpk f => exact planOp_wf hs _ _ _ _
  | xch f => exact execXch_wf hs f
  | xchDeadline warp => exact execXchDeadline_wf hs warp
  | bar k => exact execBar_wf hs k
  | barrierRelease warp k => exact execBarrierRelease_wf hs warp k
  | barrierTimeout a => exact execBarrierTimeout_wf hs a
  | ld f => exact execLd_wf f hs
  | st f => exact execSt_wf hs f
  | lds f => exact execLds_wf hs f
  | sts f => exact execSts_wf hs f
  | atom f => exact execAtom_wf hs f
  | cas f => exact execCas_wf hs f
  | waita f => exact execWaita_wf hs f
  | waitaTimeout a => exact execWaitaTimeout_wf hs a
  | fence f => exact execFence_wf hs f
  | pfch f => exact execPfch_wf hs f
  | brld f => exact execBrld_wf hs f
  | brmk f => exact execBrmk_wf hs f
  | memoryAccessPerformed acc order => exact execMemoryAccessPerformed_wf hs acc order
  | storeAcknowledged acc => exact execStoreAcknowledged_wf hs acc
  | pageWalk walk => exact execPageWalk_wf hs walk
  | walkTimeout walk => exact execWalkTimeout_wf hs walk
  | migration die frames => exact execMigration_wf hs die frames
  | migrationComplete mig => exact execMigrationComplete_wf hs mig
  | ldx f => exact execLdx_wf hs f
  | stx f => exact execStx_wf hs f
  | wexp f => exact execWexp_wf hs f
  | wrev f => exact execWrev_wf hs f
  | wrd f => exact execWrd_wf hs f
  | wwr f => exact execWwr_wf hs f
  | windowRequest req => exact execWindowRequest_wf hs req
  | wgrant f => exact execWgrant_wf hs f
  | talloc f => exact execTalloc_wf hs f
  | tfree f => exact execTfree_wf hs f
  | give f => exact execGive_wf hs f
  | take f => exact execTake_wf hs f
  | waitg f => exact execWaitg_wf hs f
  | syncset f => exact execSyncset_wf hs f
  | rrot f => exact execRrot_wf hs f
  | rrotDeadline crew => exact execRrotDeadline_wf hs crew
  | rrotCompletion crew => exact execRrotCompletion_wf hs crew
  | gstat f => exact execGstat_wf hs f
  | fmask d => exact execFmask_wf hs d
  | tget f => exact execTget_wf hs f
  | tset f => exact execTset_wf hs f
  | qstat f => exact execQstat_wf hs f
  | qmark q => exact execQmark_wf hs q
  | copy h f => exact execCopy_wf hs h f
  | copymc h f => exact execCopymc_wf hs h f
  | gath h f => exact execGath_wf hs h f
  | scata h f => exact execScata_wf hs h f
  | mma h f => exact execMma_wf hs h f
  | tfill h f => exact execTfill_wf hs h f
  | eseq h f => exact execEseq_wf hs h f
  | engineQueueAccept a => exact execEngineQueueAccept_wf hs a
  | engineLanding cmd => exact execEngineLanding_wf hs cmd
  | engineCommandEnd cmd => exact execEngineCommandEnd_wf hs cmd
  | engineCommandFail cmd => exact execEngineCommandFail_wf hs cmd
  | windowCopyCheck cmd target => exact execWindowCopyCheck_wf hs cmd target
  | bankPartialArrival cmd bag port => exact execBankPartialArrival_wf hs cmd bag port
  | mmaKgroup core => exact execMmaKgroup_wf hs core
  | mmaStart cmd => exact execMmaStart_wf hs cmd
  | kvw h f => exact execKvw_wf hs h f
  | kvld h f => exact execKvld_wf hs h f
  | kvst h f => exact execKvst_wf hs h f
  | kvfork h f => exact execKvfork_wf hs h f
  | splice h f => exact execSplice_wf hs h f
  | rpopen h f => exact execRpopen_wf hs h f
  | repairJobStart cmd => exact execRepairJobStart_wf hs cmd
  | repairGraphEnd die slot => exact execRepairGraphEnd_wf hs die slot
  | rpstat h f => exact execRpstat_wf hs h f
  | rpcancel h f => exact execRpcancel_wf hs h f
  | kvfree h f => exact execKvfree_wf hs h f
  | launch f => exact execLaunch_wf hs f
  | launchWaitTimeout a => exact execLaunchWaitTimeout_wf hs a
  | wdask f => exact execWdask_wf hs f
  | workDistributorAnswer die => exact execWorkDistributorAnswer_wf hs die
  | ringAcq f => exact execRingAcq_wf hs f
  | ringCmt f => exact execRingCmt_wf hs f
  | ringPeek f => exact execRingPeek_wf hs f
  | ringRel f => exact execRingRel_wf hs f
  | ringWaitSatisfied a => exact execRingWaitSatisfied_wf hs a
  | pipelineReassign launch stage => exact execPipelineReassign_wf hs launch stage
  | gfire f => exact execGfire_wf hs f
  | gnode f => exact execGnode_wf hs f
  | gcancel f => exact execGcancel_wf hs f
  | hnext => exact execHnext_wf hs
  | waitpred => exact execWaitpred_wf hs
  | yield => exact execYield_wf hs
  | prio a => exact execPrio_wf hs a
  | graphNodeEnd work => exact execGraphNodeEnd_wf hs work
  | graphCancelWalkStep walk => exact execGraphCancelWalkStep_wf hs walk
  | arbiterRun die => exact execArbiterRun_wf hs die
  | crewEnd crew => exact execCrewEnd_wf hs crew
  | frontEndStallWatchdog crew => exact execFrontEndStallWatchdog_wf hs crew
  | aadd f | asub f | amul f | ashl f | ashr f | aand f | aor f | axor f | acmp f | amovi f => exact feArith_wf hs _ _ _ _
  | amov f => exact execAmov_wf hs f
  | ald f => exact execAld_wf hs f
  | ast f => exact execAst_wf hs f
  | apush f => exact execApush_wf hs f
  | apushm f => exact execApushm_wf hs f
  | apop f => exact execApop_wf hs f
  | akvw f => exact execAkvw_wf hs f
  | aeng f => exact execAeng_wf hs f
  | await f => exact execAwait_wf hs f
  | aend => exact execAend_wf hs
  | trap n => exact execTrap_wf hs n
  | tret f => exact execTret_wf hs f
  | tkill m => exact execTkill_wf hs m
  | csrrd f => exact execCsrrd_wf hs f
  | csrwr f => exact execCsrwr_wf hs f
  | tlbinv va => exact execTlbinv_wf hs va
  | drain f => exact execDrain_wf hs f
  | gcall g => exact execGcall_wf hs g
  | gret => exact execGret_wf hs
  | gateTimeout warp dom => exact execGateTimeout_wf hs warp dom
  | bra tgt => exact execBra_wf hs tgt
  | brc f => exact execBrc_wf hs f
  | brx f => exact execBrx_wf hs f
  | call tgt => exact execCall_wf hs tgt
  | callx f => exact execCallx_wf hs f
  | ret => exact execRet_wf hs
  | loop f => exact execLoop_wf hs f
  | endl => exact execEndl_wf hs
  | handlerTimeout a => exact execHandlerTimeout_wf hs a
  | noticeAnswerTimeout ctx => exact execNoticeAnswerTimeout_wf hs ctx
  | contextRungTimeout ctx => exact execContextRungTimeout_wf hs ctx
  | partitionResetTimeout part => exact execPartitionResetTimeout_wf hs part
  | registerSoftError core addr => exact execRegisterSoftError_wf hs core addr
  | instructionStoreSoftError die clus => exact execInstructionStoreSoftError_wf hs die clus
  | memorySoftError line => exact execMemorySoftError_wf hs line
  | shadowStoreSoftError die ctx => exact execShadowStoreSoftError_wf hs die ctx
  | tlbSoftError core entry => exact execTlbSoftError_wf hs core entry
  | portDown port => exact execPortDown_wf hs port
  | preemptAcknowledge ctx p => exact execPreemptAcknowledge_wf hs ctx p
  | preemptionTimeout ctx => exact execPreemptionTimeout_wf hs ctx
  | partitionSwap out inn => exact execPartitionSwap_wf hs out inn
  | networkRequest ctx => exact execNetworkRequest_wf hs ctx
  | networkCompletion req cause data => exact execNetworkCompletion_wf hs req cause data
  | peerRequestReceived r => exact execPeerRequestReceived_wf hs r
  | illegalOpcode w => exact execIllegalOpcode_wf hs w
  | waitTimeout wait => exact execWaitTimeout_wf hs wait
  | hello h sig => exact execHello_wf hs h sig
  | measure h => exact execMeasure_wf hs h
  | attest h nonce => exact execAttest_wf hs h nonce
  | partCreate h f => exact execPartCreate_wf hs h f
  | partDestroy h part => exact execPartDestroy_wf hs h part
  | partStitch h f => exact execPartStitch_wf hs h f
  | ctxCreate h f => exact execCtxCreate_wf hs h f
  | ctxDestroy h => exact execCtxDestroy_wf hs h
  | map h l => exact execMap_wf hs h l
  | unmap h l => exact execUnmap_wf hs h l
  | write h va bytes => exact execWrite_wf hs h va bytes
  | read h va len => exact execRead_wf hs h va len
  | gateInstall h idx image => exact execGateInstall_wf hs h idx image
  | graphSubmit h f => exact execGraphSubmit_wf hs h f
  | graphStatus h graph => exact execGraphStatus_wf hs h graph
  | signal h f => exact execSignal_wf hs h f
  | wait h f => exact execWait_wf hs h f
  | qosSet h f => exact execQosSet_wf hs h f
  | preempt h swapIn => exact execPreempt_wf hs h swapIn
  | resume h => exact execResume_wf hs h
  | kill h => exact execKill_wf hs h
  | tierPolicy h f => exact execTierPolicy_wf hs h f
  | repairModel h f => exact execRepairModel_wf hs h f
  | stats h => exact execStats_wf hs h
  | powerOn => exact execPowerOn_wf hs
  | dieLinkRetriesExhausted => exact execDieLinkRetriesExhausted_wf hs
  | thermalStop => exact execThermalStop_wf hs
  | powerStop => exact execPowerStop_wf hs
  | clockStop => exact execClockStop_wf hs
  | firmwareWatchdog => exact execFirmwareWatchdog_wf hs
  | weirWindow => exact execWeirWindow_wf hs

theorem State.firstTurn_wf {s : State} (h : s.Wf) (l : List Agent) : ∀ t, s.firstTurn l = some t → t.Wf := by
  induction l with
  | nil => exact fun t e => nomatch e
  | cons a l ih =>
    intro t e
    have ha := State.issueTurn_wf h a
    unfold State.firstTurn at e
    dsimp only at e
    split at e
    next r er =>
      cases e
      split at er
      next u eu =>
        split at er
        · cases er
        · cases er
          exact eu ▸ ha
      next i u eu =>
        split at er
        · cases er
          exact eu ▸ ha
        · cases er
    · exact ih t e

@[simp] theorem State.serve_keeps (s : State) : s.Keeps (s.serve) := ⟨rfl, rfl⟩

theorem Todo.serve_wf {t : Todo} (h : t.Wf) : t.serve.Wf := by
  cases t with
  | rest s => exact (State.serve_keeps s).form h
  | run i s => exact (State.serve_keeps s).form h

/-- Events are looked for and not performed: the state that goes on is the one before, or that of an agent's turn. -/
theorem State.defaultTurn_wf {s : State} (h : s.Wf) : s.defaultTurn.Wf := by
  have he : ∀ t, (s.dueEvent.map fun i => Todo.run i s) = some t → t.Wf := by
    rintro t e
    obtain ⟨i, -, rfl⟩ := Option.map_eq_some_iff.mp e
    exact h
  have ha : ∀ t, (s.firstTurn s.inTurn).map Todo.serve = some t → t.Wf := by
    rintro t e
    obtain ⟨u, hu, rfl⟩ := Option.map_eq_some_iff.mp e
    exact Todo.serve_wf (State.firstTurn_wf h _ u hu)
  have hp : ∀ {p q : Option Todo}, (∀ t, p = some t → t.Wf) → (∀ t, q = some t → t.Wf) → ((p <|> q).getD (.rest s)).Wf := by
    intro p q hp hq
    cases p with
    | some t => exact hp t rfl
    | none =>
      cases q with
      | some t => exact hq t rfl
      | none => exact h
  unfold State.defaultTurn
  split
  · exact h
  · dsimp only
    split
    · exact hp he ha
    · exact hp ha he

theorem State.plan_wf {s : State} (h : s.Wf) : s.plan.Wf := by
  unfold State.plan
  split
  · exact State.defaultTurn_wf h
  next a rest _ => exact State.issueTurn_wf (s := { s with agenda := rest }) h a
  · dsimp only
    split <;> exact h

@[simp] theorem State.passTime_keeps (s : State) : s.Keeps s.passTime := ⟨rfl, rfl⟩

theorem step_wf {s : State} (h : s.Wf) : OutWf (step s) := by
  have hp := State.plan_wf ((State.passTime_keeps s).form h)
  unfold step
  split
  next t e => exact (outWf_next t).mpr (by rw [e] at hp; exact hp)
  next i t e => exact exec_wf (by rw [e] at hp; exact hp) i

/-- Settles O60: every step keeps the canonical form of memory and of its poison marks, since every operation of the model that writes
bytes or marks writes them through the sparse maps' own operations. -/
theorem canonicalKept : Obligations.CanonicalKept := by
  unfold Obligations.CanonicalKept
  intro s t hs e
  rw [State.canonical_iff] at hs ⊢
  exact step_wf hs t e

end Sys2Proof.Machine
end
